-- ==== Sys2Proof/Word.lean ====
section
/-! DEFINITION. Word types of the engine and their plainest arithmetic (R7: bit 0 is least significant). -/

namespace Sys2Proof

abbrev Byte := BitVec 8
abbrev W16 := BitVec 16
abbrev W32 := BitVec 32
abbrev W48 := BitVec 48
abbrev W64 := BitVec 64

/-- A Nat as a 32-bit word, modulo 2^32. -/
abbrev w32 (n : Nat) : W32 := BitVec.ofNat 32 n

/-- One bit as a 32-bit word, shifted to its place. -/
def bitAt (b : Bool) (k : Nat) : W32 := if b then w32 (2 ^ k) else 0#32

/-- Characters as bytes (ASCII). -/
def ascii (s : String) : List Byte := s.toList.map (fun c => BitVec.ofNat 8 c.toNat)

end Sys2Proof
end

