-- ==== Sys2Proof/Machine/Kinds.lean ====
section
/-! DEFINITION. The engine's own names: parties, paths, units, domains, clocks, modes and record codes. -/

namespace Sys2Proof.Machine
open Sys2Proof

/-- The path by which a register access reaches the window (R451, GLB_PATH in R455). -/
inductive Path where
  | cox | call | host | string
deriving DecidableEq, Repr

/-- A lane's owner (R17, OWNER of R229 and R232). -/
inductive Owner where
  | nobody | engine | call | host
deriving DecidableEq, Repr

/-- State of a lane (R208). -/
inductive LaneSt where
  | free | opened | orphaned | scrub
deriving DecidableEq, Repr

/-- State of a repairable unit (R375). -/
inductive UnitSt where
  | active | spare | fenced | passed | fused
deriving DecidableEq, Repr

/-- Role of a Cox processor (FAULT_COX, R397). -/
inductive CoxRole where
  | active | standby | restarting | fenced | passed | fused
deriving DecidableEq, Repr

/-- A unit named in a fault record, a fence or a repair record (UNIT of R396). -/
inductive UnitRef where
  | shell (i : Fin 18)
  | bank (i : Fin 68)
  | row (bank : Fin 68) (row : Fin 2048)
  | slice (i : Fin 9)
  | cox (i : Fin 3)
  | page (n : Nat)
  | decoder (i : Fin 4)
  | aes (i : Fin 3)
  | clock (i : Fin 14)
  | lane (i : Fin 4)
deriving DecidableEq, Repr

/-- Cause codes of the fault log (R396). -/
inductive Cause where
  | uncorrectable | correctedThreshold | rigFrameCrc | reservedKind | flitCheck | watchdog
  | messageCheck | journalCheck | clockAbsent | decodeError | knownAnswer | calibration
  | dramUncorrectable | dramCorrected | operatorFence | selfTestFailed | leaseLapse
  | explicitDiscard | railFault | restartFailed
deriving DecidableEq, Repr

/-- Record types of the fault log (R396). -/
inductive LogType where
  | fault | fence | substitute | testResult | rejoin | takeover | clockLost | clockBack
  | pageRetired | rowReplaced | leaseLapse | discard | recordWritten
deriving DecidableEq, Repr

/-- The governor's state (RAIL_STATUS.GOV, R421). -/
inductive Gov where
  | auto | fixed | frozen
deriving DecidableEq, Repr

/-- Kind of the last reset (PWR_RESET, R421). -/
inductive ResetKind where
  | powerOn | resetN | resetWarm | noCox | firmEnd
deriving DecidableEq, Repr

/-- Where the start-up of R411 stands. -/
inductive Phase where
  /-- Steps 1 to 4: waiting for PG_CORE and the core rail. -/
  | waitPower
  /-- Step 5: the firmware body is being copied. -/
  | copying
  /-- Steps 7 and 8: signature, key records and known-answer tests. -/
  | verifying
  /-- Step 10: DRAM training runs. -/
  | training
  /-- Steps 11 to 13: everything the banner waits for is done. -/
  | ready
  /-- Step 14 has passed: the banner is sent. -/
  | up
deriving DecidableEq, Repr

/-- The power domains in the bit order of PD_UP (R421). -/
abbrev Dom := Fin 32
/-- The clocked domains in the bit order of FAULT_CLOCK (R397). -/
abbrev Clk := Fin 14
abbrev LaneId := Fin 4
abbrev ShellId := Fin 18

namespace Dom
def shell (i : ShellId) : Dom := ⟨i.val, by omega⟩
def quadrant (q : Fin 4) : Dom := ⟨18 + q.val, by omega⟩
def cox (i : Fin 3) : Dom := ⟨22 + i.val, by omega⟩
def mem : Dom := 25
def host : Dom := 26
def eye : Dom := 27
def ear : Dom := 28
def sns : Dom := 29
def key : Dom := 30
def str : Dom := 31
end Dom

namespace Clk
def ref : Clk := 0
def slow : Clk := 1
def ddra : Clk := 2
def ddrb : Clk := 3
def host : Clk := 4
def boot : Clk := 5
def call : Clk := 6
def str : Clk := 7
def pmb : Clk := 8
def earck : Clk := 9
def eyeck : Clk := 10
def audo : Clk := 11
def tmr : Clk := 12
def sns : Clk := 13
end Clk

/-- The phase-locked loops that PLL_RELOCK names (R387). -/
inductive Pll where
  | apll | epll | ddr
deriving DecidableEq, Repr

/-- The clock CALL runs from (R387). -/
inductive CallClock where
  | apll | epll | ref
deriving DecidableEq, Repr

/-- Error codes of Call replies (R339). -/
inductive Err where
  | syntaxErr | range | busy | lane | state | dup | conf | fenced | key | ver | noref | full
deriving DecidableEq, Repr

/-- The two parties that send calls (R336, R350). -/
inductive CallPath where
  | call | host
deriving DecidableEq, Repr

/-- Who made a call: its path, its tag, and for an envelope its ring, its sequence field and its count in the ring (R328, R350,
R363). -/
structure Caller where
  path : CallPath
  tag : Option (List Byte)
  ring : LaneId
  seq : W32
  at_ : Option W16 := none
deriving DecidableEq, Repr

/-- The Call line itself, without a tag. -/
def Caller.line : Caller := ⟨.call, none, 0, 0#32, none⟩

def CallPath.owner : CallPath → Owner
  | .call => .call
  | .host => .host

def CallPath.path : CallPath → Path
  | .call => .call
  | .host => .host

/-- The lane owner that a register path stands for (R232, R445); the String Port reads as every owner. -/
def Path.owner : Path → Owner
  | .cox => .engine
  | .call => .call
  | .host => .host
  | .string => .engine

/-- The value of a field of a reply or event line (R337). -/
inductive Val where
  /-- The key stands alone, as a bare name. -/
  | bare
  | dec (n : Nat)
  | int (i : Int)
  /-- A register or address value, written with w hexadecimal digits in groups of four. -/
  | hex (w n : Nat)
  | sym (s : String)
  | syms (l : List String)
  | chars (l : List Byte)
  /-- Thousandths, written as a decimal with fraction. -/
  | milli (i : Int)
  /-- Empty or hidden: written `-`. -/
  | dash
deriving DecidableEq, Repr

/-- What a line begins with (R337). -/
inductive Mark where
  | ok | fail | data | event
deriving DecidableEq, Repr

/-- One line that the engine sends (R337): its mark, its verb or event name, its tag and its fields. -/
structure Line where
  mark : Mark
  head : String
  tag : Option (List Byte)
  fields : List (String × Val)
deriving DecidableEq, Repr

/-- One thing sent on CALL_TX: a whole line, or echoed characters and prompts (R331, R338). -/
inductive TxItem where
  | line (l : Line)
  | chars (l : List Byte)
deriving DecidableEq, Repr

end Sys2Proof.Machine
end

