-- ==== Sys2Proof/Machine/Asks.lean ====
section
/-! DEFINITION. The operands of the commands that are more than one number: what a physical event found, which record or
arbiter a command concerns, and the work that a RUN word does (notes/assumptions/11). -/

namespace Sys2Proof.Machine
open Sys2Proof

/-- An argument of a heat (R228, R345): a region (Course byte address, length in 64-byte units), a constant, or an
adapter slot. -/
inductive HeatArg where
  | region (addr : Nat) (units : Nat)
  | const (v : W32)
  | adapter (slot : Fin 8)
deriving DecidableEq, Repr

/-- What the checks of a shell or of the Boathouse find during a stroke (R373, R379). -/
inductive StrokeFault where
  | fine
  /-- A corrected, or an uncorrectable, 64-bit word of the data SRAM or of the table stores. -/
  | corrected (table : Bool) (word : Fin 65536)
  | uncorrectable (table : Bool) (word : Fin 65536)
  /-- The 8-bit check of a Course flit failed at this shell's router. -/
  | flitCheck
  /-- The word that the shell meets is of a reserved kind (R60). -/
  | reservedKind
  /-- A corrected, or an uncorrectable, word of a physical Boathouse bank. -/
  | bhCorrected (bank : Fin 68) (row : Fin 2048) (word : Fin 32)
  | bhUncorrectable (bank : Fin 68) (row : Fin 2048) (word : Fin 32)
deriving DecidableEq, Repr

/-! ## The work of a RUN word -/

/-- Where an element stands: element k of the bytes that edge feed f carries during the RUN (R57), or element k of the
cell's table-store window (R51). -/
inductive Src where
  | feed (f : Fin 16) (k : Nat)
  | table (k : Nat)
deriving DecidableEq, Repr

/-- The side array of a tensor (R114): the feed that carries it, and how many side groups a row of the tensor has. -/
structure SideRef where
  feed : Fin 16
  blocks : Nat
deriving DecidableEq, Repr

/-- An operand or an output: its element, its row in what the feeds of its tensor carry, its position along the reduction of that
row, and whether it is the row's last element; for a tensor with a side array, that array; and for one with an exponent vector,
the feed that carries it (R108: row i's exponent is byte i). -/
structure Opnd where
  at_ : Src
  row : Nat := 0
  pos : Nat := 0
  last : Bool := false
  side : Option SideRef := none
  exp : Option (Fin 16) := none
deriving DecidableEq, Repr

/-- A product of a reduction: operand A and operand B. In table mode `a` is the activation, `b` the weight, and `tab` the
index j of the activation's table (R46). -/
structure Term where
  a : Opnd
  b : Opnd
  tab : Option Nat := none
deriving DecidableEq, Repr

/-- A side group of products (R114, R121): the feed that carries its group word with the number of its block, and the products. In
table mode a group is the lookups of one stroke (R46). -/
structure Group where
  word : Option (Fin 16 × Nat)
  terms : List Term
deriving DecidableEq, Repr

/-- One accumulator of a channel (R121 to R125): its index in the cell, the feeds and rows of its operands' exponents on the
exponent ports, its groups, and its output where it is drained. -/
structure Row where
  acc : Fin 32
  expA : Option (Fin 16 × Nat)
  expB : Option (Fin 16 × Nat)
  groups : List Group
  out : Option Opnd
deriving DecidableEq, Repr

/-- Elementwise operations (R43). -/
inductive Elem where
  | add | sub | mul | fma | min | max
  | less | equal
  /-- select: the third operand where the first is below the second, the fourth otherwise. -/
  | sel
deriving DecidableEq, Repr

/-- Transcendental functions (R43, R135). -/
inductive Trans where
  | exp | log | rsqrt | recip | sin | cos | silu | gelu
deriving DecidableEq, Repr

/-- An element of the optimiser stage (R168, R169): the gradient, the stored moments and the master, and where the new ones go. -/
structure OptElem where
  g : Opnd
  m : Opnd
  v : Opnd
  w : Opnd
  m1 : Opnd
  v1 : Opnd
  w1 : Opnd
deriving DecidableEq, Repr

/-- One piece of the work of a RUN word, by the cell that does it. Which operation it is within the cell's function, SUBOP says
(R51; notes/assumptions/11). -/
inductive WorkItem where
  /-- Array, table, convolution, FIR and IIR functions: the accumulators of one output channel (R121 to R125). -/
  | channel (cell : Fin 64) (rows : List Row)
  /-- Partials of other cells of the shell join an accumulator exactly (R46, R47). -/
  | combine (cell : Fin 64) (acc : Fin 32) (from_ : List (Fin 64 × Fin 32))
  /-- A partial that leaves the shell as F32 (R133). -/
  | hop (cell : Fin 64) (acc : Fin 32) (out : Src)
  /-- F32 partials of other shells added to an accumulator under the float anchor (R133). -/
  | merge (cell : Fin 64) (acc : Fin 32) (ins : List Src)
  /-- A product table of one activation (R46, R118). -/
  | build (cell : Fin 64) (a : Opnd) (j : Nat)
  /-- Convert a row (R83, R104 to R108): its elements in order, each with its output. -/
  | convert (cell : Fin 64) (row : List (Opnd × Opnd))
  /-- An elementwise operation over a row: the operands of each element, with its output (R43). -/
  | elementwise (cell : Fin 64) (row : List (List Opnd × Opnd))
  | transc (cell : Fin 64) (x out : Opnd)
  /-- softmax over a row (R131, R135). -/
  | softmax (cell : Fin 64) (row : List (Opnd × Opnd))
  /-- RMS normalisation of a row: x, g and the output of each element; and where ε stands (R131, R135). -/
  | normalise (cell : Fin 64) (row : List (Opnd × Opnd × Opnd)) (eps : Src)
  /-- A sum, or a maximum, of a row (R47). -/
  | reduce (cell : Fin 64) (ins : List Opnd) (out : Opnd)
  /-- A pass cell hands on what it takes in one stroke (R51). -/
  | pass (cell : Fin 64) (stroke : Nat)
  /-- Eight-byte units moved by a permute: from and to, in units (R43, R51). -/
  | permute (cell : Fin 64) (moves : List ((Fin 16 × Nat) × (Fin 16 × Nat)))
  /-- An FFT butterfly (R131): a, b and w, real part first, and the four outputs. -/
  | butterfly (cell : Fin 64) (a b w : Src × Src) (sum diff : Src × Src)
  /-- A gather or scatter of one row of up to 64 bytes, by an index (R43). -/
  | rows (cell : Fin 64) (index : Src) (data : Fin 16 × Nat) (rowFeed : Fin 16) (bytes : Fin 65)
  /-- The optimiser stage over a row of an adapter (R168, R169). -/
  | optimise (cell : Fin 64) (row : List OptElem)
  /-- Elements drawn from the spinner, with the place of the scale that the plan gives them (R48, R170). -/
  | spin (cell : Fin 64) (scale : Src) (row : List Opnd)
  /-- Top-k of a row (R48): the scores, the indices' and the scores' outputs. -/
  | topk (cell : Fin 64) (scores : List Src) (idx : List Src) (outs : List Src)
deriving DecidableEq, Repr

/-- The work of one RUN word: what its cells do in order, and what the checks find. -/
structure RunWork where
  items : List WorkItem := []
  fault : StrokeFault := .fine
deriving DecidableEq, Repr

/-! ## Other operands -/

/-- The clocked domains whose contenders R38 ranks, and that no command of their own serves in order. -/
inductive Ranked where
  | ddrA | ddrB | host | boot | pmb | eyeck
deriving DecidableEq, Repr

/-- An arbiter of R35. -/
inductive Arbiter where
  | course (s : ShellId) (port : Fin 5)
  | sram (s : ShellId) (bank : Fin 16)
  | boathouse (bank : Fin 64)
  | tally (lane : LaneId)
  | logBook | window | crypto
  /-- The contenders of a clocked domain, highest first (R38). -/
  | domain (d : Ranked)
deriving DecidableEq, Repr

/-- A face that Lookout's heat finds in a frame (R275): the face that tracking takes it for, its angles in degrees, whether its lips
move, and the face it is turned toward, if any. -/
structure FaceSeen where
  id : Nat
  yaw : Int
  pitch : Int
  lips : Bool := false
  facing : Option Nat := none
deriving DecidableEq, Repr

/-- A gesture that completes (R275). -/
inductive Gesture where
  | wave | left | right | palm
deriving DecidableEq, Repr

/-- What Lookout's heat finds in its frame (R275). For a heat that is not Lookout's there is nothing. -/
structure LookSeen where
  faces : List FaceSeen := []
  gesture : Option Gesture := none
deriving DecidableEq, Repr

/-- A record of the log book (R226, R228, R229, R396). -/
inductive LogWhich where
  | accept (lane : LaneId) (seq : W32)
  | args (lane : LaneId) (seq : W32)
  | stats (lane : LaneId) (seq : W32)
  | retire (lane : LaneId) (seq : W32)
  | laneRec (lane : LaneId)
  | adapter (n : Fin 8)
  | bundle (h : Fin 16)
  | fault (number : Nat)
  | superblock
deriving DecidableEq, Repr

/-- What the check bits of a DRAM access find (R242): an uncorrectable unit, or a check unit that is uncorrectable itself. -/
inductive DramErr where
  | fine | corrected | uncorrectable | check
deriving DecidableEq, Repr

/-- The LO registers of R453. -/
inductive LoReg where
  | tick | earSample
  | hs (lane : LaneId)
  | spin (lane : LaneId)
deriving DecidableEq, Repr

/-- A source of triggers (R262). -/
inductive TrigSrc where
  | tmr (n : Fin 8) | trigIn | snap
deriving DecidableEq, Repr

/-- A register named in a call: by its name or by its offset (R343). -/
inductive RegRef where
  | name (n : List Byte) | offset (o : Nat)
deriving DecidableEq, Repr

/-- The settings of EYE SET (R346); times in µs. -/
structure EyeSetArgs where
  mode : Option (BitVec 2)
  trig : Option (BitVec 4)
  delay : Option Nat
  expose : Option Nat
  ir : Option Bool
  lead : Option Nat
  tail : Option Nat
deriving DecidableEq, Repr

/-- The last word of EDGE PWM (R346). -/
inductive PwmAct where
  | on | off | go
deriving DecidableEq, Repr

end Sys2Proof.Machine
end

