-- ==== Sys2Proof/Syntax.lean ====
section
/-! DEFINITION. The commands: one constructor per row of the table of operations and events, with the row's operands: the rows that
have operands first, then the others, each in the table's order (so that the compiler can number them). A call carries its
Caller; a register access carries its path; what a physical event brings is an operand. -/

namespace Sys2Proof
open Sys2Proof.Machine

/-- A command to the block. -/
inductive Instr where
  /-- POWER_ON_RESET -/
  | powerOnReset (hostsel : Bool)
  /-- COLD_RESET -/
  | coldReset (hostsel : Bool)
  /-- CORE_POWER_GOOD -/
  | corePowerGood (mv : BitVec 10)
  /-- PRESTART_RAIL_FAULT_TICK -/
  | prestartRailFaultTick (mv : BitVec 10)
  /-- FIRMWARE_VERIFIED -/
  | firmwareVerified (kat : BitVec 3)
  /-- DRAM_TRAINING_DONE -/
  | dramTrainingDone (ok : Bool) (fitted : Byte) (rate : BitVec 4) (ranks : BitVec 2)
  /-- BOOT_BUNDLE_LOAD -/
  | bootBundleLoad (entry : Fin 16)
  /-- DOMAIN_FIRST_ACCESS -/
  | domainFirstAccess (d : Dom)
  /-- DOMAIN_READY -/
  | domainReady (d : Dom)
  /-- DOMAIN_BRINGUP_TIMEOUT -/
  | domainBringupTimeout (d : Dom)
  /-- FABRIC_STOP_FLOOR -/
  | fabricStopFloor (mv : BitVec 10)
  /-- FABRIC_RESUME -/
  | fabricResume (mv : BitVec 10)
  /-- CLOCK_LOST -/
  | clockLost (c : Clk)
  /-- CLOCK_RETURN -/
  | clockReturn (c : Clk)
  /-- PLL_RELOCK -/
  | pllRelock (p : Pll) (ok : Bool)
  /-- STROKE -/
  | stroke (s : ShellId) (f : StrokeFault)
  /-- END -/
  | endWord (s : ShellId)
  /-- RUN -/
  | runWord (s : ShellId) (w : RunWork)
  /-- RIG -/
  | rigWord (s : ShellId)
  /-- LDRIG -/
  | ldrigWord (s : ShellId)
  /-- LDRIG_COMPLETE -/
  | ldrigComplete (s : ShellId) (slot : Fin 16) (ok : Bool)
  /-- MOVE -/
  | moveWord (s : ShellId)
  /-- MOVE_LANDED -/
  | moveLanded (s : ShellId) (out : Bool) (units : Nat)
  /-- SETA -/
  | setaWord (s : ShellId)
  /-- SETW -/
  | setwWord (s : ShellId)
  /-- LOOP -/
  | loopWord (s : ShellId)
  /-- MARK -/
  | markWord (s : ShellId)
  /-- WAIT_SATISFIED -/
  | waitSatisfied (s : ShellId)
  /-- ARBITER_GRANT -/
  | arbiterGrant (a : Arbiter) (waiting : BitVec 24) (first : Fin 24)
  /-- CROSSING_TRANSFER -/
  | crossingTransfer (c : Clk) (inbound : Bool) (word : Option W64)
  /-- STREAM_FETCH -/
  | streamFetch (s : ShellId) (ag : Fin 16)
  /-- DECODER_ASSIGN -/
  | decoderAssign (s : ShellId) (ag : Fin 16)
  /-- DECODER_TABLE_LOADED -/
  | decoderTableLoaded (d : Fin 4)
  /-- SEGMENT_START -/
  | segmentStart (lane : LaneId) (seq : W32)
  /-- CHECK_POINT -/
  | checkPoint (lane : LaneId) (seq : W32)
  /-- HEAT_START -/
  | heatStart (lane : LaneId) (seq : W32)
  /-- HEAT_RESTART -/
  | heatRestart (lane : LaneId) (seq : W32)
  /-- DEADLINE_TRIP -/
  | deadlineTrip (lane : LaneId) (seq : W32)
  /-- HEAT_RETIRE -/
  | heatRetire (lane : LaneId) (seq : W32) (seen : LookSeen)
  /-- LOG_RECORD_WRITE -/
  | logRecordWrite (r : LogWhich) (ok : Bool)
  /-- DRAM_ACCESS -/
  | dramAccess (heat : Option (LaneId × W32)) (unit : BitVec 28) (wr : Option (List Byte)) (e : DramErr)
  /-- PATROL_READ -/
  | patrolRead (e : DramErr)
  /-- PAGE_RETIRE -/
  | pageRetire (page : BitVec 18)
  /-- PAGE_RETIRE_DONE -/
  | pageRetireDone (page : BitVec 18)
  /-- ROTATION_BLOCK_START -/
  | rotationBlockStart (sweep : Fin 32)
  /-- ROTATION_COPY_DONE -/
  | rotationCopyDone (sweep : Fin 32)
  /-- ROTATION_REWRITE_DONE -/
  | rotationRewriteDone (sweep : Fin 32)
  /-- HOST_WINDOW_ACCESS -/
  | hostWindowAccess (unit : BitVec 28) (wr : Option (List Byte))
  /-- AES_KAT -/
  | aesKat (p : Fin 3) (pass : Bool)
  /-- REGION_MAKE -/
  | regionMake (path : Path) (r : Fin 32)
  /-- REGION_DELETE -/
  | regionDelete (path : Path) (r : Fin 32)
  /-- BH_PART_WRITE -/
  | bhPartWrite (path : Path) (lane : LaneId) (hi : Bool) (v : W32)
  /-- BH_RETAIN_WRITE -/
  | bhRetainWrite (path : Path) (k : Fin 4) (v : W32)
  /-- SPIN_LO_WRITE -/
  | spinLoWrite (path : Path) (lane : LaneId) (v : W32)
  /-- SPIN_HI_WRITE -/
  | spinHiWrite (path : Path) (lane : LaneId) (v : W32)
  /-- LO_REGISTER_READ -/
  | loRegisterRead (path : Path) (r : LoReg)
  /-- ADAPTER_GRANT_WRITE -/
  | adapterGrantWrite (path : Path) (n : Fin 8) (v : W32)
  /-- EYE_TRIGGER -/
  | eyeTrigger (src : TrigSrc)
  /-- SNAP -/
  | snap (path : Path)
  /-- FRAME_COMPLETE -/
  | frameComplete (raws : List (BitVec 12))
  /-- CAL_REFERENCE_DONE -/
  | calReferenceDone (sums : List Nat)
  /-- CAL_SHADOW_DONE -/
  | calShadowDone (skew : Int) (differs : Bool)
  /-- FOREGROUND_CAL -/
  | foregroundCal (sums : List (List Nat))
  /-- EYE_READY -/
  | eyeReady (sums : List (List Nat))
  /-- EYE_HOLD_WRITE -/
  | eyeHoldWrite (path : Path) (v : W32)
  /-- EAR_CTRL_START -/
  | earCtrlStart (path : Path)
  /-- EAR_CTRL_STOP -/
  | earCtrlStop (path : Path)
  /-- EAR_OUTPUT_BOUNDARY -/
  | earOutputBoundary (samples : List (BitVec 24 × Bool))
  /-- EAR_CH_WRITE -/
  | earChWrite (path : Path) (n : Fin 8) (v : W32)
  /-- EAR_ENABLE_WRITE -/
  | earEnableWrite (path : Path) (v : W32)
  /-- EAR_RESULT_READ -/
  | earResultRead (path : Path) (n : Fin 8)
  /-- EAR_RING_WRITE -/
  | earRingWrite (path : Path) (ring : Fin 3) (v : W32)
  /-- CAPTURE_BLOCK_COMPLETE -/
  | captureBlockComplete (ring : Fin 2)
  /-- MICBIAS_READY -/
  | micbiasReady (n : Fin 2)
  /-- AUDO_CTRL_START -/
  | audoCtrlStart (path : Path)
  /-- AUDO_CTRL_STOP -/
  | audoCtrlStop (path : Path)
  /-- AUDO_UNDER_READ -/
  | audoUnderRead (path : Path)
  /-- SENSE_CONVERSION_DONE -/
  | senseConversionDone (data : BitVec 20)
  /-- SENSE_URGENT_GO -/
  | senseUrgentGo (path : Path) (v : W32)
  /-- SENSE_DATA_READ -/
  | senseDataRead (path : Path)
  /-- BTN_CHANGE -/
  | btnChange (n : Fin 12) (down : Bool)
  /-- BTN_DEBOUNCED -/
  | btnDebounced (n : Fin 12)
  /-- PLUG_CHANGE -/
  | plugChange (n : Fin 2) (present : Bool)
  /-- PLUG_DEBOUNCED -/
  | plugDebounced (n : Fin 2)
  /-- EDGE_LOST_READ -/
  | edgeLostRead (path : Path)
  /-- PWM_PERIOD_BOUNDARY -/
  | pwmPeriodBoundary (k : Fin 4)
  /-- PWM_GO -/
  | pwmGo (path : Path) (k : Fin 4)
  /-- PWM_BURST_END -/
  | pwmBurstEnd (k : Fin 4)
  /-- TMR_START -/
  | tmrStart (path : Path) (mask : Byte)
  /-- TMR_STOP -/
  | tmrStop (path : Path) (mask : Byte)
  /-- PERIOD_EVENT -/
  | periodEvent (n : Fin 8)
  /-- COMPARE_EVENT -/
  | compareEvent (n : Fin 8)
  /-- PULSE -/
  | pulse (path : Path)
  /-- TRIG_IN_EDGE -/
  | trigInEdge (high : Bool)
  /-- CALL_CHAR_RECEIVED -/
  | callCharReceived (c : Byte) (rate : Nat)
  /-- HELLO -/
  | hello (c : Caller)
  /-- INFO -/
  | info (c : Caller)
  /-- HELP -/
  | help (c : Caller) (verb : Option (List Byte))
  /-- VERB_LIST -/
  | verbList (c : Caller)
  /-- ECHO -/
  | echo (c : Caller) (on : Bool)
  /-- MODE -/
  | mode (c : Caller) (terse : Bool) (check events flow : Option Bool)
  /-- RESET_CALL -/
  | resetCall (c : Caller)
  /-- RESET_WARM -/
  | resetWarm (c : Caller)
  /-- LEASE -/
  | lease (c : Caller) (period : Option Nat)
  /-- GET -/
  | get (c : Caller) (reg : RegRef) (field : Option (List Byte)) (n : Option Nat)
  /-- SET -/
  | set (c : Caller) (reg : RegRef) (v : Nat)
  /-- SET_FIELD -/
  | setField (c : Caller) (reg : RegRef) (field : List Byte) (v : Nat)
  /-- LOAD -/
  | load (c : Caller) (addr len : Nat) (lanes : BitVec 4) (budgets : Bool)
  /-- DROP -/
  | drop (c : Caller) (h : Nat)
  /-- LANE_OPEN -/
  | laneOpen (c : Caller) (lane : LaneId) (seq : Option W32) (prio : Option (BitVec 2))
  /-- LANE_CLOSE -/
  | laneClose (c : Caller) (lane : LaneId)
  /-- LANE_CLOSE_DISCARD -/
  | laneCloseDiscard (c : Caller) (lane : LaneId)
  /-- LANE_CLAIM -/
  | laneClaim (c : Caller) (lane : LaneId)
  /-- LANE_STATE -/
  | laneState (c : Caller) (lane : LaneId)
  /-- LANE_KEY -/
  | laneKey (c : Caller) (lane : LaneId)
  /-- HEAT -/
  | heat (c : Caller) (lane : LaneId) (seq : Option W32) (h e : Nat) (args : List HeatArg)
  /-- TAKE -/
  | take (c : Caller) (lane : LaneId) (seq : Option W32)
  /-- WAIT -/
  | wait (c : Caller) (lane : LaneId) (seq : Option W32) (ms : Nat)
  /-- WAIT_TIMEOUT -/
  | waitTimeout (c : Caller)
  /-- SCRUB -/
  | scrub (c : Caller) (lane : LaneId)
  /-- SCRUB_STEP_DONE -/
  | scrubStepDone (lane : LaneId)
  /-- EYE_STATE -/
  | eyeState (c : Caller)
  /-- EYE_HOLD -/
  | eyeHold (c : Caller) (on : Bool)
  /-- EYE_SET -/
  | eyeSet (c : Caller) (a : EyeSetArgs)
  /-- EYE_SNAP -/
  | eyeSnap (c : Caller)
  /-- EYE_LOOK -/
  | eyeLook (c : Caller) (attend : Option Bool) (on off : Option Nat)
  /-- EYE_COPY -/
  | eyeCopy (c : Caller) (lane : LaneId) (bank n : Nat)
  /-- EYE_COPY_OFF -/
  | eyeCopyOff (c : Caller)
  /-- EAR_STATE -/
  | earState (c : Caller)
  /-- EAR_START -/
  | earStart (c : Caller) (osr : Option (BitVec 2)) (ch : Option Byte) (trig : Option (BitVec 4))
  /-- EAR_STOP -/
  | earStop (c : Caller)
  /-- EAR_CH -/
  | earCh (c : Caller) (n : Fin 8) (gain : Option Int) (order : Option (BitVec 2)) (notch : Option (Option Nat))
  /-- EAR_BIAS -/
  | earBias (c : Caller) (n : Fin 2) (on : Bool) (level : Option (BitVec 2))
  /-- EAR_RING -/
  | earRing (c : Caller) (lane : LaneId) (bank nblk block : Nat) (tally : Option Nat)
  /-- EAR_RING_OFF -/
  | earRingOff (c : Caller)
  /-- EAR_OUT -/
  | earOut (c : Caller) (lane : LaneId) (bank nblk block : Nat) (tdm : Option Bool) (slots : Option Nat) (fill done : Option Nat)
  /-- EAR_OUT_START -/
  | earOutStart (c : Caller)
  /-- EAR_OUT_STOP -/
  | earOutStop (c : Caller)
  /-- SENSE_STATE -/
  | senseState (c : Caller)
  /-- SENSE_READ -/
  | senseRead (c : Caller) (input : BitVec 5) (settle : Nat) (osr : BitVec 2)
  /-- SENSE_SEQ -/
  | senseSeq (c : Caller) (k : Nat) (input : BitVec 5) (settle : Nat) (osr : BitVec 2)
  /-- SENSE_SEQ_OFF -/
  | senseSeqOff (c : Caller) (k : Nat)
  /-- SENSE_PERIOD -/
  | sensePeriod (c : Caller) (us : Nat)
  /-- EDGE_STATE -/
  | edgeState (c : Caller)
  /-- EDGE_BTN -/
  | edgeBtn (c : Caller) (n : Fin 12) (db : Option Nat) (en pu : Option Bool)
  /-- EDGE_PLUG -/
  | edgePlug (c : Caller) (n : Fin 2) (db : Option Nat) (en imp : Option Bool)
  /-- EDGE_TOUCH -/
  | edgeTouch (c : Caller) (n : Fin 4) (on off : Option Nat) (en : Option Bool)
  /-- EDGE_PWM -/
  | edgePwm (c : Caller) (k : Fin 4) (period duty pre : Option Nat) (pol : Option Bool) (burst : Option Nat) (act : Option PwmAct)
  /-- EDGE_BIND -/
  | edgeBind (c : Caller) (k : Fin 8) (code : Byte) (lane : LaneId) (h e : Nat) (args : List HeatArg)
  /-- EDGE_UNBIND -/
  | edgeUnbind (c : Caller) (k : Fin 8)
  /-- TRIG_STATE -/
  | trigState (c : Caller)
  /-- TRIG_TMR -/
  | trigTmr (c : Caller) (n : Fin 8) (period compare : Option Nat) (on : Option Bool)
  /-- TRIG_OUT -/
  | trigOut (c : Caller) (src : Option (Fin 8))
  /-- TRIG_PULSE -/
  | trigPulse (c : Caller) (width : Option Nat)
  /-- RAIL -/
  | rail (c : Caller)
  /-- RAIL_CEILING -/
  | railCeiling (c : Caller) (mw : Nat)
  /-- RAIL_FIX -/
  | railFix (c : Caller) (mv : Nat)
  /-- RAIL_AUTO -/
  | railAuto (c : Caller)
  /-- FENCE -/
  | fence (c : Caller) (u : UnitRef)
  /-- SPARE -/
  | spare (c : Caller)
  /-- REPAIR_TEST -/
  | repairTest (c : Caller) (u : UnitRef)
  /-- REPAIR_REJOIN -/
  | repairRejoin (c : Caller) (u : UnitRef)
  /-- REPAIR_RECORD -/
  | repairRecord (c : Caller) (u : UnitRef)
  /-- LOG_LANE -/
  | logLane (c : Caller) (lane : LaneId) (n : Nat)
  /-- LOG_FAULT -/
  | logFault (c : Caller) (n : Nat)
  /-- LOG_BUNDLE -/
  | logBundle (c : Caller)
  /-- STAT_LANE -/
  | statLane (c : Caller) (lane : LaneId)
  /-- STAT_DEVICE -/
  | statDevice (c : Caller)
  /-- KEY_STATE -/
  | keyState (c : Caller)
  /-- KEY_ROTATE_PLAN -/
  | keyRotatePlan (c : Caller)
  /-- KEY_VK_LOAD -/
  | keyVkLoad (c : Caller) (slot : Fin 4) (addr : Nat)
  /-- KEY_VK_REVOKE -/
  | keyVkRevoke (c : Caller) (slot : Fin 4)
  /-- FIRM_STATE -/
  | firmState (c : Caller)
  /-- FIRM_BEGIN -/
  | firmBegin (c : Caller) (size : Nat)
  /-- FIRM_DATA -/
  | firmData (c : Caller) (offset : Nat) (data : List Byte)
  /-- FIRM_ADDR -/
  | firmAddr (c : Caller) (addr len : Nat)
  /-- FIRM_END -/
  | firmEnd (c : Caller)
  /-- DOORBELL -/
  | doorbell (ring : LaneId) (tail : W16)
  /-- CALL_ENVELOPE -/
  | callEnvelope (ring : LaneId)
  /-- COMPLETION_RING_WRITE -/
  | completionRingWrite (ring : LaneId)
  /-- EVENT_RING_WRITE -/
  | eventRingWrite (k : Fin 2)
  /-- CQ_HEAD_WRITE -/
  | cqHeadWrite (ring : LaneId) (head : W16)
  /-- EV_HEAD_WRITE -/
  | evHeadWrite (k : Fin 2) (head : W16)
  /-- RING_RESET -/
  | ringReset (ring : LaneId)
  /-- TADD -/
  | tadd (ring : LaneId) (amt : W16)
  /-- QSPI_TRANSACTION -/
  | qspiTransaction (cmd : Byte) (space : BitVec 4) (addr : BitVec 36) (words : Fin 256) (data : List W32) (late : Bool)
  /-- HOST_QSPI_READ -/
  | hostQspiRead (path : Path)
  /-- PCIE_MEMORY_REQUEST -/
  | pcieMemoryRequest (bar : Fin 3) (addr : BitVec 34) (be : Byte) (dws : Fin 1024) (wr : Option (List W32))
  /-- PCIE_LINK_UP -/
  | pcieLinkUp (speed : Fin 5) (width : Fin 3)
  /-- WIN_REFUSED_READ -/
  | winRefusedRead (path : Path)
  /-- EYE_MISSED_READ -/
  | eyeMissedRead (path : Path)
  /-- RIG_FRAME_TRIAL_DONE -/
  | rigFrameTrialDone (pass : Bool)
  /-- LIVE_COPY_ROW -/
  | liveCopyRow (bank : Fin 64)
  /-- LIVE_COPY_DONE -/
  | liveCopyDone (bank : Fin 64)
  /-- COX_WATCHDOG_TRIP -/
  | coxWatchdogTrip (i : Fin 3)
  /-- COX_TAKEOVER -/
  | coxTakeover (i : Fin 3)
  /-- COX_RESTART_DONE -/
  | coxRestartDone (i : Fin 3) (ok : Bool)
  /-- SELFTEST_START -/
  | selftestStart (u : UnitRef)
  /-- SELFTEST_DONE -/
  | selftestDone (u : UnitRef) (pass : Bool)
  /-- GOVERNOR_TICK: `late` REF ticks after the end of its 100 µs, with the power over 100 ms. -/
  | governorTick (late mw : W16)
  /-- RAIL_REQUEST -/
  | railRequest (mv : Nat)
  /-- PMBUS_TRANSACTION_DONE -/
  | pmbusTransactionDone (ack : Bool) (voutMode : Byte)
  /-- RAIL_CONFIRM -/
  | railConfirm (mv : BitVec 10)
  /-- PG_CORE_LOW -/
  | pgCoreLow (mv : BitVec 10)
  /-- PM_ALERT -/
  | pmAlert (status : W16)
  /-- FIELD_LOCK_ARM -/
  | fieldLockArm (path : Path)
  /-- FIELD_LOCK_BURN -/
  | fieldLockBurn (path : Path)
  /-- TAP_INSTRUCTION -/
  | tapInstruction (ir : BitVec 4)
  /-- STRING_STATUS -/
  | stringStatus (arg : BitVec 24) (data : W64)
  /-- HALT -/
  | halt (arg : BitVec 24) (data : W64)
  /-- RESUME -/
  | resume (arg : BitVec 24) (data : W64)
  /-- STEP -/
  | step (arg : BitVec 24) (data : W64)
  /-- COUNTER -/
  | counter (arg : BitVec 24) (data : W64)
  /-- BREAK_SET -/
  | breakSet (arg : BitVec 24) (data : W64)
  /-- BREAK_CLEAR -/
  | breakClear (arg : BitVec 24) (data : W64)
  /-- RD32 -/
  | rd32 (arg : BitVec 24) (data : W64)
  /-- WR32 -/
  | wr32 (arg : BitVec 24) (data : W64)
  /-- SETADDR -/
  | setaddr (arg : BitVec 24) (data : W64)
  /-- RDMEM -/
  | rdmem (arg : BitVec 24) (data : W64)
  /-- WRMEM -/
  | wrmem (arg : BitVec 24) (data : W64)
  /-- REGISTER_WRITE -/
  | registerWrite (path : Path) (off : BitVec 18) (v : W32)
  /-- IR_PULSE_EDGE -/
  | irPulseEdge (rise : Bool)
  /-- CALL_CTS_N_CHANGE -/
  | callCtsNChange (high : Bool)
  /-- WARM_RESET -/
  | warmReset
  /-- NO_COX_WARM_RESET -/
  | noCoxWarmReset
  /-- REF_STEADY -/
  | refSteady
  /-- REF_STARTUP_TIMEOUT -/
  | refStartupTimeout
  /-- FIRMWARE_COPIED -/
  | firmwareCopied
  /-- BANNER -/
  | banner
  /-- FIRM_NEEDED_TICK -/
  | firmNeededTick
  /-- EXPOSURE_START -/
  | exposureStart
  /-- EXPOSURE_END -/
  | exposureEnd
  /-- IR_LIMIT_CUT -/
  | irLimitCut
  /-- FRAME_ABANDONED -/
  | frameAbandoned
  /-- SLICE_SWAP -/
  | sliceSwap
  /-- STALECAL_TIMEOUT -/
  | stalecalTimeout
  /-- LOOKOUT_EVENT_DELIVER -/
  | lookoutEventDeliver
  /-- EAR_CAPTURE_START -/
  | earCaptureStart
  /-- CAPTURE_SET_WRITE -/
  | captureSetWrite
  /-- AUDO_PLAYBACK_START -/
  | audoPlaybackStart
  /-- AUDO_FRAME -/
  | audoFrame
  /-- SENSE_PASS_START -/
  | sensePassStart
  /-- SENSE_SETTLE_DONE -/
  | senseSettleDone
  /-- URGENT_REQUEST_START -/
  | urgentRequestStart
  /-- EVENT_DELIVER -/
  | eventDeliver
  /-- TRIG_OUT_PULSE_END -/
  | trigOutPulseEnd
  /-- BREAK -/
  | lineBreak
  /-- CALL_LINE_RUN -/
  | callLineRun
  /-- CALL_TX_LINE -/
  | callTxLine
  /-- LEASE_LAPSE -/
  | leaseLapse
  /-- QSPI_HELD_READ_EXPIRE -/
  | qspiHeldReadExpire
  /-- PCIE_CONFIG_REQUEST -/
  | pcieConfigRequest
  /-- PCIE_LINK_DOWN -/
  | pcieLinkDown
  /-- FUNCTION_LEVEL_RESET -/
  | functionLevelReset
  /-- REPAIR_RECORD_WRITE -/
  | repairRecordWrite
  /-- RAIL_RETRY -/
  | railRetry
  /-- RAIL_FROZEN_RETRY -/
  | railFrozenRetry
  /-- FIELD_LOCK_DISARM -/
  | fieldLockDisarm
  /-- FUSE_BURN_DONE -/
  | fuseBurnDone
  /-- IDCODE_CAPTURE -/
  | idcodeCapture
  /-- RESP_CAPTURE -/
  | respCapture
  /-- STEP_DONE -/
  | stepDone
  /-- STR_SESSION_IDLE -/
  | strSessionIdle
  /-- STR_TRST -/
  | strTrst
  /-- VDD_AO_LOST -/
  | vddAoLost
  /-- EVENT_QUEUE_LATCH -/
  | eventQueueLatch
  /-- STAT_WINDOW_END -/
  | statWindowEnd
  /-- FIRM_ERASE_DONE -/
  | firmEraseDone
deriving DecidableEq, Repr

end Sys2Proof
end

