-- ==== Sys2Proof/Decode.lean ====
section
/-! DEFINITION. Commands from table words. No row of the table of operations and events gives bits, so no word spells a
command. -/

namespace Sys2Proof

/-- The command that a word of the table spells: none, since no row has an encoding. -/
def decodeTableWord (_nbits _w : Nat) : Option Instr := none

end Sys2Proof
end

