-- ==== Sys2Proof/Machine/Parts.lean ====
section
/-! DEFINITION. The parts of the machine state, block by block. The default value of each field is its reset value;
where the manual gives none, notes/assumptions names the value. Part one: start-up, clocks, rails, faults, fuses,
keys, timers, activity counters, the Call line, the host link and the String Port. -/

namespace Sys2Proof.Machine
open Sys2Proof

/-- Sparse bytes: rising addresses, no entry equal to what an unlisted address reads as (0). -/
abbrev Bytes := List (Nat × Byte)

/-- A sparse table: rising keys. -/
abbrev Tab (α : Type) := List (Nat × α)

/-- Start-up and service state (R409 to R415, R455, R456). -/
structure Start where
  phase : Phase := .waitPower
  /-- REF is steady, or its 20 ms limit has passed (steps 3 of R411, R414). -/
  refDecided : Bool := false
  /-- The 2 ms step of R411 has passed: inputs are latched and the event queue latches (R314). -/
  latching : Bool := false
  /-- PWR_RESET (R421). -/
  lastReset : ResetKind := .powerOn
  /-- GLB_STATUS.START (R455). -/
  startKind : BitVec 2 := 1#2
  banner : Bool := false
  recovered : Bool := false
  logLost : Bool := false
  /-- The log book was initialised or found lost at this start (banner log=LOST). -/
  logFieldLost : Bool := true
  /-- VDD_AO is valid. -/
  vddAo : Bool := true
  /-- A warm reset that RESET WARM (which waits for CALL_TX to idle) or FIRM END has asked for (R342, R420). -/
  warmPending : Option ResetKind := none
  /-- Events raised before the banner, oldest first (R412). -/
  early : List Line := []
  /-- Why recovery runs (R420): HEADER, COMPLETE, DIGEST or SIGNATURE. -/
  firmReason : Option String := none
  /-- Why Lookout is off (R418), if it is. -/
  lookoutOff : Option String := none
  /-- The next boot directory entry of step 16. -/
  bootNext : Nat := 1
  /-- DRAM was not trained for want of REF: it is trained when REF returns (R387, R414; notes/assumptions/39). -/
  trainOwed : Bool := false
  /-- The two superblock copies: the generation of a valid one (R229). -/
  superA : Option Nat := none
  superB : Option Nat := none
deriving DecidableEq, Repr

/-- Time as the engine counts it (R455) and the state of the clocked domains (R30 to R33, R387, R397). -/
structure Clocks where
  /-- REF tick count. -/
  tick : W64 := 0#64
  /-- SLOW edges, modulo 2^32 (GLB_SLOW). -/
  slow : W32 := 0#32
  /-- Remainder of the exact 8 / 9,375 divider from REF to SLOW (R387). -/
  slowDiv : Nat := 0
  /-- The timebase runs from the ring oscillator. -/
  degraded : Bool := false
  lost : BitVec 14 := 0#14
  absent : BitVec 14 := 0#14
  /-- Failed relocks of APLL, EPLL and the DDR loop (R387). -/
  apllTries : Nat := 0
  epllTries : Nat := 0
  ddrTries : Nat := 0
  callClock : CallClock := .apll
  bootClock : CallClock := .apll
  /-- PD_SNS has been reset once for its lost clock (R387). -/
  snsReset : Bool := false
  /-- Words in each of the 14 crossings towards the core and away from it, oldest first (R31). -/
  inbound : Vector (List W64) 14 := Vector.replicate 14 []
  outbound : Vector (List W64) 14 := Vector.replicate 14 []
  /-- The word that last left each crossing, on either side. -/
  delivered : Vector (Option W64) 14 := Vector.replicate 14 none
  /-- Requests into each domain that the last loss of its clock completed with NOCLOCK (R32). -/
  noclock : Vector (List W64) 14 := Vector.replicate 14 []
  /-- The input each arbiter served last, by arbiter number (R34, R35). -/
  arbLast : Tab Nat := []
  /-- The input that holds each arbiter's resource, while its unit of service lasts (R35). -/
  arbHeld : Tab Nat := []
  /-- Edges for which a contender with a share has waited since it was last served, by arbiter × 32 + contender (R38). -/
  arbWaits : Tab Nat := []
deriving DecidableEq, Repr

/-- Power domains (R12, R406, R407, R421). -/
structure Power where
  up : BitVec 32 := 0#32
  waking : BitVec 32 := 0#32
  fenced : BitVec 32 := 0#32
  /-- Domains that wait for one of the two bring-up places, in the order of their first accesses. -/
  queue : List Dom := []
  /-- Accesses that wait for each domain. -/
  waiters : Tab Nat := []
deriving DecidableEq, Repr

/-- How far a rail request has come (R400). -/
inductive RailStage where
  | sending | settling | retryWait
deriving DecidableEq, Repr

/-- A rail request in flight (R400): its voltage, its attempt (0 to 3) and its stage. -/
structure RailReq where
  mv : Nat
  attempt : Nat
  stage : RailStage
deriving DecidableEq, Repr

/-- The rail block and the governor (R398 to R405, R421). -/
structure Rail where
  gov : Gov := .auto
  fault : Bool := false
  floor : Bool := false
  pgCore : Bool := false
  /-- RAIL_CTRL. -/
  ctrl : W32 := 0x1D4C0000#32
  confirmed : BitVec 10 := 0#10
  requested : BitVec 10 := 0#10
  meas : BitVec 10 := 0#10
  rate : W16 := 0#16
  powerMw : W16 := 0#16
  /-- VOUT_MODE as read, and whether the first contact has read it (R399). -/
  voutMode : Byte := 0#8
  voutKnown : Bool := false
  req : Option RailReq := none
  /-- A request that fell due while another was in flight. -/
  due : Option Nat := none
  /-- Readings are hidden until the end of their next window (R423). -/
  hidden : Bool := true
  /-- Tick of the governor's last reading, and the stroke counters it read (R29, R404). -/
  govTick : W64 := 0#64
  govCount : Vector W48 18 := Vector.replicate 18 0#48
  /-- Bytes of the last PMBus transaction sent, PEC included (R399). -/
  pmbLast : List Byte := []
  /-- STATUS_WORD of a PM_ALERT_N whose service waits for the rail request being sent (R38). -/
  alert : Option W16 := none
  /-- Level of FAULT_N: true while it is held low (R403, R415). -/
  faultN : Bool := true
deriving DecidableEq, Repr

/-- One record of the fault log (R396). -/
structure FaultRec where
  number : Nat
  kind : LogType
  unit : W16
  gen : Nat
  tick : W64
  cause : Option Cause
  lane : Option LaneId
  result : W16
  seqFirst : W32
  seqLast : W32
  count : Nat
  detail : W64
  /-- Its CRC holds (R374). -/
  valid : Bool
deriving DecidableEq, Repr

/-- Kind of a flash repair record (R391). -/
inductive RepairKind where
  | fenced | retired | rejoined | page
deriving DecidableEq, Repr

/-- One flash repair record (R391). -/
structure RepairRec where
  unit : W16
  kind : RepairKind
  cause : Option Cause
  gen : Nat
  detail : W64
deriving DecidableEq, Repr

/-- A live copy in progress (R380): from a row or a whole bank to its replacement, by rows copied. -/
structure LiveCopy where
  /-- The bank number being served. -/
  bank : Fin 64
  /-- One row only, or the whole bank. -/
  row : Option (Fin 2048)
  fromUnit : Fin 68
  toUnit : Fin 68
  copied : Nat
deriving DecidableEq, Repr

/-- Error history of a shell within 1 s (R373). -/
structure ShellHist where
  frameErr : Option W64 := none
  flitErr : Option W64 := none
  corrected : List W64 := []
deriving DecidableEq, Repr

/-- A self-test that runs (R388). -/
structure SelfTest where
  unit : UnitRef
  /-- By REPAIR TEST, or automatic. -/
  asked : Bool
deriving DecidableEq, Repr

/-- A rig frame under trial on a spare shell (R480). -/
structure FrameTrial where
  suspect : ShellId
  spare : ShellId
  handle : Fin 16
  frame : Nat
deriving DecidableEq, Repr

/-- Units, spares, repairs, takeover and the fault log (R372 to R397, R480). -/
structure Faults where
  shells : Vector UnitSt 18 := Vector.ofFn fun i => if i.val < 16 then .active else .spare
  /-- Banks 0 to 63, then the spare bank of each quadrant. -/
  banks : Vector UnitSt 68 := Vector.ofFn fun i => if i.val < 64 then .active else .spare
  /-- The physical bank that serves each bank number (R380). -/
  bankMap : Vector (Fin 68) 64 := Vector.ofFn fun i => ⟨i.val, by omega⟩
  decoders : Vector UnitSt 4 := Vector.replicate 4 .active
  aes : Vector UnitSt 3 := Vector.replicate 3 .active
  /-- Known-answer tests failed in a row, per AES pipeline. -/
  aesFails : Vector Nat 3 := Vector.replicate 3 0
  /-- Units fenced by an operator; a warm reset clears these fences (R410). -/
  operator : List UnitRef := []
  /-- Replaced rows: the physical bank and the row (R379). -/
  rows : List (Fin 68 × Fin 2048) := []
  /-- Words of a row that showed a corrected error: physical bank, row, word in row. -/
  rowErrs : List (Fin 68 × Fin 2048 × Fin 32) := []
  copies : List LiveCopy := []
  /-- Poisoned 64-bit words of the Boathouse, by word address (R237, R379). -/
  poisoned : List Nat := []
  coxRole : Vector CoxRole 3 := ⟨#[.active, .active, .standby], rfl⟩
  laneCox : Vector (Fin 3) 4 := ⟨#[0, 0, 1, 1], rfl⟩
  callCox : Fin 3 := 0
  takeovers : Nat := 0
  /-- Failed restarts in a row, per processor (R386). -/
  restartFails : Vector Nat 3 := Vector.replicate 3 0
  /-- A crash has been detected and its takeover has not run; and the caller of a FENCE that waits for it (R385). -/
  crashed : Vector Bool 3 := Vector.replicate 3 false
  fenceCall : List (Fin 3 × Caller) := []
  /-- Replies to HEATs whose ACCEPT failed its check, which the new owner gives (R385). -/
  owed : List (Fin 3 × Caller × Line) := []
  hist : Vector ShellHist 18 := Vector.replicate 18 {}
  /-- Rig frames that passed their CRC since their bundle was loaded: handle, frame, shell (R480). -/
  passedFrames : List (Fin 16 × Nat × ShellId) := []
  trial : Option FrameTrial := none
  tests : List SelfTest := []
  /-- Automatic self-tests that fall due 1 s after a fence, with the fence's tick. -/
  testsDue : List (UnitRef × W64) := []
  log : List FaultRec := []
  /-- FAULT_LOGNUM. -/
  logNum : Nat := 0
  /-- The repair-record copy in force (R391). -/
  repairSerial : Nat := 0
  repairs : List RepairRec := []
  /-- Records that wait to be written to flash. -/
  repairQueue : List RepairRec := []
deriving DecidableEq, Repr

/-- A fuse burn (R462): the field lock, a bundle key hash, a repair entry or a firmware revocation. -/
inductive Burn where
  | lock
  | vkLoad (slot : Fin 4) (hash : BitVec 256) (by_ : Option Caller)
  | vkRevoke (slot : Fin 4) (by_ : Option Caller)
  | repair (entry : Fin 64) (unit : UnitRef) (by_ : Option Caller)
  | fwRevoke
deriving DecidableEq, Repr

/-- The 4,096 OTP fuses by the numbers of the burnt bits, rising; their shadow; and the burn in progress (R462, R463). A
part is taken to leave the factory with slice SL8 in the role of the spare oar and no other bit burnt
(notes/assumptions/5). -/
structure Fuse where
  otp : List Nat := [2938]
  shadow : List Nat := []
  loaded : Bool := false
  burning : Option Burn := none
  queue : List Burn := []
  /-- The field lock is armed: by which path, at which tick (R425). -/
  armed : Option (Path × W64) := none
deriving DecidableEq, Repr

/-- The KEY block (R422, R426, R428, R438). Data keys stand in the key slots of the memory block. -/
structure Keys where
  startup : Bool := true
  recovery : Bool := false
  /-- Calls and rotations that hold REPAIR or KEYOP. -/
  repair : Nat := 0
  keyop : Nat := 0
  noent : Bool := false
  fwUsable : BitVec 2 := 0#2
  vkUsable : BitVec 4 := 0#4
  /-- Identity of the next key drawn; no two draws give one key (R426). -/
  nextKey : Nat := 1
deriving DecidableEq, Repr

/-- One timer channel (R459, R461). -/
structure TmrChan where
  ctrl : W32 := 0#32
  period : W32 := 0#32
  compare : W32 := 0#32
  count : W32 := 0#32
  running : Bool := false
  /-- Writes that take effect at the next period event. -/
  ctrlNext : Option W32 := none
  periodNext : Option W32 := none
  compareNext : Option W32 := none
deriving DecidableEq, Repr

/-- The TMR block and the trigger balls (R459 to R461). -/
structure Tmr where
  chan : Vector TmrChan 8 := Vector.replicate 8 {}
  /-- TMR_START and TMR_STOP bits whose channel has not yet started or stopped. -/
  startReq : BitVec 8 := 0#8
  stopReq : BitVec 8 := 0#8
  trigSrc : BitVec 4 := 0#4
  trigWidth : W16 := 0#16
  /-- PULSE reads 1: a pulse asked for by a write has not ended. -/
  pulseReq : Bool := false
  /-- TRIG_OUT is high; ticks of the pulse left. -/
  trigOut : Bool := false
  pulseLeft : Nat := 0
  trigInLevel : Bool := false
  trigInEdges : W16 := 0#16
deriving DecidableEq, Repr

/-- Device activity counters of one window (R457). -/
structure DevCounts where
  strokes : Nat := 0
  retired : Nat := 0
  dramRd : Nat := 0
  dramWr : Nat := 0
  bh : Nat := 0
  codes : Nat := 0
  aes : Nat := 0
  win : Nat := 0
deriving DecidableEq, Repr

/-- Activity counters of one lane in one window (R457). -/
structure LaneCounts where
  strokes : Nat := 0
  dram : Nat := 0
  bh : Nat := 0
  retired : Nat := 0
deriving DecidableEq, Repr

/-- The activity counters: the running window and the last completed one (R424, R457, R458). -/
structure Stat where
  window : W32 := 0#32
  dev : DevCounts := {}
  devShown : DevCounts := {}
  lane : Vector LaneCounts 4 := Vector.replicate 4 {}
  laneShown : Vector LaneCounts 4 := Vector.replicate 4 {}
  /-- Hidden since confidential mode, until a window ends in normal service (R423). -/
  hidden : Bool := true
deriving DecidableEq, Repr

/-- A WAIT in progress (R345). -/
structure WaitRec where
  lane : LaneId
  seq : W32
  caller : Caller
deriving DecidableEq, Repr

/-- A received line and what is wrong with it (R323, R324, R334). -/
structure RxLine where
  text : List Byte
  long : Bool
  badChar : Bool
  damaged : Bool
deriving DecidableEq, Repr

/-- The Call line (R323 to R335, R455). -/
structure CallLine where
  /-- Complete lines not yet started, oldest first. -/
  lines : List RxLine := []
  /-- The partial line. -/
  part : List Byte := []
  partLong : Bool := false
  partBad : Bool := false
  partDamaged : Bool := false
  /-- The last character was CR (an LF that follows it is ignored). -/
  afterCr : Bool := false
  /-- Bytes lost at a full buffer and not yet reported. -/
  lost : Nat := 0
  locked : Bool := false
  /-- The next character is measured for autobaud. -/
  measuring : Bool := true
  baud : BitVec 22 := 0#22
  terse : Bool := false
  echo : Bool := true
  events : Bool := true
  check : Bool := false
  flow : Bool := false
  ctsN : Bool := false
  /-- What waits to be sent on CALL_TX, oldest first, and what was sent last. -/
  tx : List TxItem := []
  txLast : Option TxItem := none
  /-- The characters of the last item sent, with its line check. -/
  sent : List Byte := []
  /-- A call of the Call line whose reply is outstanding: its verb. -/
  running : Option String := none
  wait : Option WaitRec := none
deriving DecidableEq, Repr

/-- What a slot of a host ring carries (R361). -/
inductive EnvKind where
  | call | reply | completion | event
deriving DecidableEq, Repr

/-- An entry that waits for a slot of a completion or event ring (R364). -/
structure RingEntry where
  kind : EnvKind
  seq : W32
  line : Line
  /-- It ends the reply of the envelope of this count. -/
  last : Option W16
deriving DecidableEq, Repr

/-- One lane's ring pair (R363, R371). -/
structure Ring where
  sqTail : W16 := 0#16
  sqHead : W16 := 0#16
  cqTail : W16 := 0#16
  cqHead : W16 := 0#16
  err : Bool := false
  taddRef : Bool := false
  resetReq : Bool := false
  /-- A doorbell latched before the banner (R359). -/
  latched : Option W16 := none
  /-- The count of the next envelope to take, the envelope being processed, and those whose WAIT has not ended (R345, R363). -/
  taken : W16 := 0#16
  busy : Option W16 := none
  waits : List W16 := []
  out : List RingEntry := []
  /-- Completions in the ring: the tail count just past the entry, and its sequence number (R365). -/
  dones : List (W16 × W32) := []
deriving DecidableEq, Repr

/-- One event ring (R363). -/
structure EvRing where
  tail : W16 := 0#16
  head : W16 := 0#16
  out : List Line := []
deriving DecidableEq, Repr

/-- A Quad-SPI read whose data is held (R358). -/
structure HeldRead where
  space : Fin 3
  addr : Nat
  words : Nat
  data : List W32
deriving DecidableEq, Repr

/-- The host link (R353 to R371). -/
structure HostLink where
  /-- HOSTSEL as sampled: true for the Quad-SPI target. -/
  qspi : Bool := false
  /-- The endpoint completes configuration requests normally (step 11 of R411). -/
  configReady : Bool := false
  speed : Fin 5 := 0
  width : Fin 3 := 0
  leaseActive : Bool := false
  leaseLapsed : Bool := false
  period : W16 := 1000#16
  /-- SLOW edges left of the lease. -/
  leaseLeft : Nat := 0
  irq : Byte := 0#8
  irqEn : W32 := 0#32
  winBase : BitVec 6 := 0#6
  evctl : BitVec 2 := 0#2
  dropped : W16 := 0#16
  notReady : W16 := 0#16
  held : Option HeldRead := none
  /-- The size of BAR4 as the Resizable BAR capability has it: 256 MiB times 2 to this power (R355). -/
  barSize : Fin 7 := 6
  /-- MSI-X, and MSI, are enabled in the function's configuration (R354). -/
  msix : Bool := false
  msi : Bool := false
  /-- MSI-X and MSI messages sent, by vector, in order (R366). -/
  messages : List (Fin 8) := []
  ring : Vector Ring 4 := Vector.replicate 4 {}
  ev : Vector EvRing 2 := Vector.replicate 2 {}
  waits : List WaitRec := []
  /-- What the last host transaction answered: the status byte and the data words. -/
  answer : Byte × List W32 := (0#8, [])
deriving DecidableEq, Repr

/-- A breakpoint of the String Port (R444). -/
inductive Break where
  | stroke (shell : ShellId) (count : W48) (mask : BitVec 18)
  | tally (t : Fin 1024) (target : W16) (mask : BitVec 18)
  | address (onRead onWrite : Bool) (addr : Nat) (mask : BitVec 18)
deriving DecidableEq, Repr

/-- Status of the last String Port command (R441). -/
inductive StrStatus where
  | done | busy | closed | refused | badop | notHalted
deriving DecidableEq, Repr

/-- The space that the String Port's pointer names (R442). -/
inductive StrSpace where
  | course | sram (s : ShellId) | table (s : ShellId)
deriving DecidableEq, Repr

/-- The String Port (R439 to R450). -/
structure StringPort where
  session : Bool := false
  halted : BitVec 18 := 0#18
  slots : Vector (Option Break) 8 := Vector.replicate 8 none
  space : StrSpace := .course
  pointer : Nat := 0
  idle : W16 := 1000#16
  touch : Option (LaneId × BitVec 24) := none
  ir : BitVec 4 := 1#4
  status : StrStatus := .done
  lastOp : Byte := 0#8
  result : W64 := 0#64
  /-- A STEP in progress: the shell, strokes left and strokes run. -/
  stepping : Option (ShellId × Nat × Nat) := none
  /-- What STR_TDO last shifted out; none while it floats. -/
  tdo : Option (BitVec 80) := none
deriving DecidableEq, Repr

/-- A firmware update in place (R419). -/
structure Firm where
  /-- The size that FIRM BEGIN gave, while an update is open. -/
  size : Option Nat := none
  /-- The call that waits for the erase to end. -/
  erasing : Option Caller := none
  /-- 16-byte units written, rising. -/
  written : List Nat := []
  /-- Just past the highest byte written. -/
  highest : Nat := 0
  /-- Running firmware: VERSION and the key that signed it. -/
  version : BitVec 24 := 0#24
  running : Bool := false
deriving DecidableEq, Repr

end Sys2Proof.Machine
end

