-- ==== Sys2Proof/Machine/Plan.lean ====
section
/-! DEFINITION. The parts of the machine state, part two: rig frames and shells ("The Shell Fabric"), and plan bundles as
LOAD reads them ("Plan Bundles and Check Points"). The default value of a field is its reset value. -/

namespace Sys2Proof.Machine
open Sys2Proof

/-! ## Rig frames (R50, R51) -/

/-- A cell record of a rig frame (R51), field by field. -/
structure CellRec where
  func : Byte
  fmtA : BitVec 4
  fmtB : BitVec 4
  fmtO : BitVec 4
  accum : BitVec 4
  group : Byte
  tileT : Byte
  tileC : Byte
  tileK : W16
  phases : W16
  tensor : W16
  inSel : List Byte
  outSel : List Byte
  tsBase : W16
  tsLen : W16
  sideCap : Byte
  subop : Byte
  zent : BitVec 10
  param : BitVec 22
deriving DecidableEq, Repr

/-- An edge-feed descriptor (R51). -/
structure FeedRec where
  side : Byte
  pos : Byte
  dir : Byte
  bytesPerStroke : Byte
  gen : Byte
  skew : Byte
deriving DecidableEq, Repr

/-- A rig frame (R50). -/
structure RigFrame where
  writesTable : Bool
  cells : BitVec 64
  drain : W16
  cell : List CellRec
  feed : List FeedRec
deriving DecidableEq, Repr

/-- One rig slot of a shell (R49, R62). -/
structure RigSlot where
  /-- Course address of the frame in 64-byte units, and its bundle. -/
  frameAt : Option (Nat × Fin 16) := none
  frame : Option RigFrame := none
  /-- An LDRIG into the slot has not completed. -/
  pending : Bool := false
deriving DecidableEq, Repr

/-! ## Shells (R40, R41) -/

/-- An exact number m · 2^e. -/
structure Dy where
  m : Int
  e : Int
deriving DecidableEq, Repr

/-- What an accumulator holds: the exact terms that have entered it, newest first, and whether a NaN did (R89, R92, R96).
Its contents follow from these terms and the anchor once it is drained. -/
structure Acc where
  terms : List Dy := []
  nan : Bool := false
  /-- It is used as an A96, and its anchor; none for the float anchor of R93. -/
  wide : Bool := false
  anchor : Option Int := none
  /-- Its terms are partials of cells, under the float anchor (R47, R93). -/
  joined : Bool := false
deriving DecidableEq, Repr

/-- An address generator (R57). -/
structure AddrGen where
  base : BitVec 37 := 0#37
  stride : BitVec 37 := 0#37
  wrap : BitVec 37 := 0#37
  inner : BitVec 37 := 0#37
  outer : BitVec 37 := 0#37
  mode : BitVec 2 := 0#2
  /-- It is the generator of an adapter argument whose heat runs without the adapter: what it reads is 0 (R173). -/
  off : Bool := false
  /-- The step counter: the index i of the next use. -/
  step : Nat := 0
deriving DecidableEq, Repr

/-- A wait register (R56, R58). -/
structure WaitReg where
  tally : Byte := 0#8
  target : W16 := 0#16
  step : W16 := 0#16
deriving DecidableEq, Repr

/-- A transfer in flight (R41, R55, R67): a MOVE, or the load of a rig frame. -/
structure Transfer where
  /-- Outbound from the shell. -/
  out : Bool
  /-- The slot of an LDRIG; none for a MOVE. -/
  rig : Option (Fin 16)
  /-- The generators as they stood at issue, and the number of the remote one. -/
  gl : AddrGen
  gr : AddrGen
  agr : Fin 16
  /-- Units in all and units landed. -/
  len : Nat
  landed : Nat
  /-- First step of each generator. -/
  lstep : Nat
  rstep : Nat
  tick : BitVec 4
  /-- The tally within the lane that it adds to, and the amount. -/
  addTo : Option (Byte × Nat)
  /-- Course address of the frame of an LDRIG, in units. -/
  frameAt : Nat
  /-- The number of its decoder request, for a remote side in the decoded view (R247). -/
  dec : Option Nat := none
deriving DecidableEq, Repr

/-- A streamed feed (R57, R67): the generator, units fetched ahead and not yet used. -/
structure Stream where
  ag : Fin 16
  ahead : List (List Byte)
  /-- Bytes of the next unit that a RUN before has taken, where it leaves its flow running (R57). -/
  off : Nat := 0
deriving DecidableEq, Repr

/-- A shell (R41). -/
structure Shell where
  sram : Bytes := []
  /-- Table stores: cell n's 2 KiB at 2,048 × n. -/
  table : Bytes := []
  /-- The scale file (R99): entries that are not 0. -/
  scale : Tab W32 := []
  /-- Weight anchor of the segment, as X8 (R193). -/
  anchor : Byte := 0#8
  slots : Vector RigSlot 16 := Vector.replicate 16 {}
  cur : Option (Fin 16) := none
  prog : List W64 := []
  pc : Nat := 0
  /-- The word at pc has had its wait satisfied and its target advanced (R54). -/
  waited : Bool := false
  ag : Vector AddrGen 16 := Vector.replicate 16 {}
  wait : Vector WaitReg 8 := Vector.replicate 8 {}
  loops : Vector Nat 4 := Vector.replicate 4 0
  strokes : W48 := 0#48
  /-- Strokes of the word at pc that have been counted. -/
  done : Nat := 0
  inbound : List Transfer := []
  outbound : List Transfer := []
  streams : List Stream := []
  /-- Accumulators, by cell × 32 + index (R40). -/
  acc : Tab Acc := []
  /-- G32 accumulators, by cell × 64 + bank × 32 + index: group sums that are not 0 (R40). -/
  g32 : Tab Int := []
  /-- What the cells present on their neighbour links, by cell × 4 + side (R40, R51). -/
  links : Tab W64 := []
  /-- The lane and sequence number of the heat that runs here (R42). -/
  running : Option (LaneId × W32) := none
  /-- The program's END has completed. -/
  ended : Bool := true
  /-- Lane of the last heat that ran here (R434). -/
  lastLane : Option LaneId := none
  /-- Uncorrectable words of the data SRAM, by word address. -/
  poisoned : List Nat := []
deriving DecidableEq, Repr

/-! ## Plan bundles (R178 to R206) -/

/-- An argument descriptor (R184). -/
structure ArgDesc where
  kind : Fin 4
  ag : Fin 16
  tensor : BitVec 12
  param : W32
deriving DecidableEq, Repr

/-- A variant record of an entry (R184). -/
structure EntryVar where
  firstSeg : Option Nat
  work : Nat
deriving DecidableEq, Repr

/-- A plan entry (R184). -/
structure Entry where
  number : Nat
  create : Bool
  update : Bool
  readsAdapter : Bool
  l0only : Bool
  hostAdd : Bool
  /-- Longest duration in µs. -/
  deadline : Nat
  htal : Byte
  tallies : BitVec 256
  variants : Vector EntryVar 3
  args : List ArgDesc
deriving DecidableEq, Repr

/-- A segment record (R186). -/
structure Segment where
  number : Nat
  variant : Fin 3
  /-- 0 planned, 1 I16 alternative, 2 H16 alternative. -/
  kind : Fin 3
  span : Option (Fin 64)
  lsmask : BitVec 16
  prog : Nat
  scale : Nat
  oper : Nat
  strokes : Nat
  next : Option Nat
deriving DecidableEq, Repr

/-- A program record, its words relocated (R187). -/
structure Program where
  lshell : Fin 16
  words : List W64
deriving DecidableEq, Repr

/-- An alternative of a check point (R197). -/
structure Alt where
  seg : Option Nat
  lo : Nat
  hi : Nat
deriving DecidableEq, Repr

/-- A check-point record (R197). -/
structure Check where
  number : Nat
  rule : Fin 6
  span : Option (Fin 64)
  i16seg : Option Nat
  h16seg : Option Nat
  source : Nat
  param : W32
  alts : List Alt
deriving DecidableEq, Repr

/-- A tensor record (R192). -/
structure Tensor where
  number : BitVec 12
  format : Fin 12
  mode : Fin 4
  initExp : Byte
  zp : Byte
  zent : BitVec 10
  sideCap : Nat
  group : Nat
deriving DecidableEq, Repr

/-- A scale-file image (R193). -/
structure ScaleImage where
  lshell : Fin 16
  anchor : Byte
  first : Nat
  entries : List W32
deriving DecidableEq, Repr

/-- A watch record (R145, R194). -/
structure Watch where
  entry : Nat
  tensor : BitVec 12
  span : Fin 64
  dmax : Nat
  adaptC : Nat
  adaptF : Nat
  rerunC : Nat
  rerunF : Nat
  nmin : Nat
deriving DecidableEq, Repr

/-- An entropy-code table (R195). -/
structure Entropy where
  table : Nat
  format : Fin 12
  maxLen : Nat
  counts : List Nat
  symbols : List Byte
deriving DecidableEq, Repr

/-- A term of a budget (R196). -/
structure BudgetTerm where
  kind : Nat
  x : Byte
  tensor : Nat
  mant : W16
  cexp : Byte
deriving DecidableEq, Repr

/-- A budget record (R196). -/
structure Budget where
  tensor : Nat
  alt : Nat
  headroom : Nat
  terms : List BudgetTerm
deriving DecidableEq, Repr

/-- One feed of an operand list (R188). -/
structure OperandRec where
  lshell : Nat
  feed : Nat
  tensor : Nat
deriving DecidableEq, Repr

/-- What a plan that trains adapters states (R163, R167, R177): rank, adapted tensors, parameters P, rows N, sequences and tokens of a
step, and β1, β2, η, ε and U in F32. -/
structure Training where
  rank : Nat := 0
  tensors : Nat := 0
  params : Nat := 0
  rows : Nat := 0
  sequences : Nat := 0
  tokens : Nat := 0
  consts : Vector W32 5 := Vector.replicate 5 0#32
deriving DecidableEq, Repr, Inhabited

/-- Bytes of one set of an adapter: 4P + 2N, rounded up to 64 KiB (R163). -/
def Training.setSize (t : Training) : Nat := (4 * t.params + 2 * t.rows + 0xFFFF) / 0x10000 * 0x10000

/-- What LOAD keeps of a bundle image. -/
structure Plan where
  entries : List Entry := []
  segments : List Segment := []
  checks : List Check := []
  /-- PROGRAM and SCALE records with the variants they cover. -/
  programs : List (Byte × List Program) := []
  scales : List (Byte × List ScaleImage) := []
  tensors : List Tensor := []
  watches : List Watch := []
  entropy : List Entropy := []
  operands : List (List OperandRec) := []
  /-- Resident rigs: Course address in 64-byte units, frame, and its table-store image (empty where it writes none). -/
  resident : List (Nat × RigFrame × List Byte) := []
  /-- What it states of training, where some entry creates or updates an adapter. -/
  training : Option Training := none
deriving DecidableEq, Repr

/-- State of a bundle record (R205). -/
inductive BundleSt where
  | free | loaded | waiting | damaged
deriving DecidableEq, Repr

/-- A bundle record and what is loaded under its handle (R191, R205). -/
structure Bundle where
  st : BundleSt := .free
  lanes : BitVec 4 := 0#4
  onchip : Bool := false
  lookout : Bool := false
  id : W64 := 0#64
  digest : BitVec 256 := 0#256
  /-- Course byte address of the image. -/
  image : Nat := 0
  total : Nat := 0
  /-- Rig slot of each resident rig, 12 to 15. -/
  resSlots : List (Fin 16) := []
  keySlot : Fin 4 := 0
  /-- 0 Call line, 1 host link, 2 engine. -/
  source : Fin 3 := 0
  /-- Boathouse banks that hold its PLACE 1 copies. -/
  banks : List (Fin 64) := []
  /-- Bytes of PLACE 2 sections. -/
  coxBytes : Nat := 0
  /-- Its DRAM image is a sealed extent: first and past-the-end engine byte address (R257). -/
  extent : Option (Nat × Nat) := none
  plan : Plan := {}
  /-- The record written last in its place failed the check of R374: its CRC field is 0, and it counts as free. -/
  recBad : Bool := false
deriving DecidableEq, Repr

end Sys2Proof.Machine
end

