-- ==== Sys2Proof/Machine/Work.lean ====
section
/-! DEFINITION. The parts of the machine state, part three: lanes, heats and their journal ("Lanes, Heats and the Log
Book", "Crabs, Feathers and Re-runs"), adapter slots ("Adapter Training"), memory, regions, keys' slots, rotations and
decoders ("Memory, Weight Streams and Inline Encryption"). The default value of a field is its reset value. -/

namespace Sys2Proof.Machine
open Sys2Proof

/-! ## Heats -/

/-- Who submitted a heat (SOURCE of R228). -/
inductive Source where
  | call | host | engine
deriving DecidableEq, Repr

/-- Completion status (R223). -/
inductive Status where
  | ok | noAdapt | deadline | faulted | noShell | inputGone | discarded
deriving DecidableEq, Repr

/-- State of a heat (R214). -/
inductive HeatSt where
  | accepted | running | retired | taken
deriving DecidableEq, Repr

/-- The six counts of R160. -/
structure Counts where
  cw : Nat := 0
  sw : Nat := 0
  fw : Nat := 0
  nw : Nat := 0
  cr : Nat := 0
  ca : Nat := 0
deriving DecidableEq, Repr

/-- The ACCEPT record with its ARGS records (R228). -/
structure AcceptRec where
  source : Source
  handle : Fin 16
  adSlot : Option (Fin 8)
  entry : Nat
  relDep : Nat
  relWait : Nat
  tag : List Byte
  tAcc : W64
  hcAcc : W32
  args : List HeatArg
deriving DecidableEq, Repr

/-- The STATS record (R228): counts and the alternative map, 2 bits per span. -/
structure StatsRec where
  counts : Counts
  altMap : BitVec 128
deriving DecidableEq, Repr

/-- The RETIRE record (R228). -/
structure RetireRec where
  status : Status
  restarts : Nat
  widened : Bool
  rerun : Bool
  nan : Bool
  accOvf : Bool
  adaptOff : Bool
  late : Bool
  pending : Bool
  i16n : Nat
  h16n : Nat
  variant : Fin 3
  adSet : Bool
  adVer : W32
  tRet : W64
  strokes : Nat
deriving DecidableEq, Repr

/-- A heat block of a lane journal (R227): the records that are valid in it. -/
structure HeatBlock where
  seq : W32
  accept : Option AcceptRec
  stats : Option StatsRec
  retire : Option RetireRec
deriving DecidableEq, Repr

/-- Where a run of a heat stands. -/
inductive RunSt where
  /-- Accepted; its first segment has not started. -/
  | waiting
  /-- A segment runs. -/
  | segment
  /-- Between segments: the check point of the segment has chosen, and the next segment waits. -/
  | between (next : Nat)
  /-- Its last segment has ended; it waits to retire. -/
  | ended
deriving DecidableEq, Repr

/-- The adapter version a heat has fixed (R20, R171). -/
structure AdFix where
  slot : Fin 8
  ver : W32
  set : Bool
deriving DecidableEq, Repr

/-- The largest positive and negative magnitudes of a row that a rescale writes in the planned formats (R155): the row by the place
of its exponent, and its tensor's format and zero point. -/
structure RowSides where
  tensor : Nat
  place : Nat × Nat
  fmt : Nat
  z : Nat
  pos : Dy
  neg : Dy
deriving DecidableEq, Repr

/-- A heat accepted and not retired: what Cox firmware holds of its run. -/
structure HeatRun where
  seq : W32
  /-- Its place in the order of acceptances over all lanes (R19). -/
  ord : Nat := 0
  /-- Earlier heats that it reads after, and that it overwrites or shares tallies with (R216). -/
  after : List W32 := []
  behind : List W32 := []
  st : RunSt := .waiting
  /-- Its first segment has started in this acceptance. -/
  started : Bool := false
  variant : Fin 3 := 0
  map : Vector (Option ShellId) 16 := Vector.replicate 16 none
  seg : Nat := 0
  /-- Shells of the segment that have not completed END. -/
  open_ : List ShellId := []
  /-- Exponents fixed at the start: tensor and value (R106). -/
  exps : List (Nat × Int) := []
  ad : Option AdFix := none
  adaptOff : Bool := false
  spinKey : W64 := 0#64
  /-- η_t of its step, as an update heat (R168). -/
  etaT : W32 := 0#32
  restarts : Nat := 0
  trips : Nat := 0
  /-- Ticks of the steady count that the deadline watchdog has counted in this run and over every run (R31, R219). -/
  runTicks : Nat := 0
  allTicks : Nat := 0
  /-- Since when a segment of it runs, in the steady count. -/
  since : Option W64 := none
  /-- Strokes of each shell in this run, and the rate in Mstroke/s last measured on its busiest shell (R219). -/
  strokes : Tab Nat := []
  rate : Nat := 0
  /-- Counts of the running attempt, by tensor, and whether it overflowed an accumulator. -/
  attempt : List (Nat × Counts) := []
  attemptOvf : Bool := false
  committed : Counts := {}
  /-- Tensors whose crab or feather share passed θ_adapt in a planned attempt (R156). -/
  crabPass : List Nat := []
  featherPass : List Nat := []
  /-- m_hi by tensor over rows that one shell holds whole, and the rows that rescales write (R155). -/
  mhi : List (Nat × Int) := []
  sides : List RowSides := []
  /-- Side blocks that its segment has begun, by place (R116). -/
  begun : List (Nat × Nat) := []
  altMap : BitVec 128 := 0#128
  /-- Passes of each check point in this run (R198, rule 5). -/
  passes : Tab Nat := []
  i16n : Nat := 0
  h16n : Nat := 0
  widened : Bool := false
  rerun : Bool := false
  nan : Bool := false
  accOvf : Bool := false
  /-- An output write was acknowledged with an error (step 2 of R220). -/
  writeFailed : Bool := false
  /-- It ends without running: the status it completes with. -/
  failed : Option Status := none
deriving DecidableEq, Repr

/-- A pending-commit list (R220): exponent moves (handle, tensor, δ) and an adapter flip. -/
structure Commit where
  seq : W32
  moves : List (Fin 16 × Nat × Int)
  adapter : Option (Fin 8 × Bool)
deriving DecidableEq, Repr

/-- An entry of a lane's predicted-exponent table (R106, R107, R220). -/
structure ExpEntry where
  handle : Fin 16
  tensor : Nat
  value : Int
  lastSeq : Option W32
deriving DecidableEq, Repr

/-- Statistics of the last retired heat of a lane (R161). -/
structure HeatStat where
  seq : W32 := 0#32
  flags : W32 := 0#32
  counts : Counts := {}
deriving DecidableEq, Repr

/-- What a lane record holds beside NEXT, which the journal fixes as well (R229). -/
structure LaneRec where
  st : LaneSt
  owner : Owner
  prio : BitVec 2
  oldest : W32
  hc : W32
deriving DecidableEq, Repr

/-- A lane (R17, R208 to R233). -/
structure Lane where
  st : LaneSt := .free
  owner : Owner := .nobody
  prio : BitVec 2 := 0#2
  next : W32 := 0#32
  oldest : W32 := 0#32
  lastRetired : W32 := 0#32
  /-- Host count HC (R370). -/
  hc : W32 := 0#32
  spin : W64 := 0#64
  /-- LANEn_SPIN_LO writes that wait for the HI write, by path (R453). -/
  spinHeld : List (Path × W32) := []
  recovering : Bool := false
  /-- Heat blocks by block number, s mod 128 (R227). -/
  journal : Tab HeatBlock := []
  /-- Heats accepted and not retired, in acceptance order. -/
  runs : List HeatRun := []
  commits : List Commit := []
  exps : List ExpEntry := []
  hs : HeatStat := {}
  /-- The lane record before the one written last, which counts again where that one fails its check (R230, R374). -/
  prev : Option LaneRec := none
  /-- The step of R434 that a scrub has come to. -/
  scrubStep : Option Nat := none
  /-- The lane's DONE after a warm reset that found it in SCRUB follows the banner (R437). -/
  scrubDone : Bool := false
  /-- Every completion before this sequence number has been delivered. -/
  shown : W32 := 0#32
  /-- The first sequence number of the lane since it was opened. -/
  first : W32 := 0#32
deriving DecidableEq, Repr

/-- State of an adapter slot (R164). -/
inductive AdSt where
  | empty | ready | updating
deriving DecidableEq, Repr

/-- An adapter slot and its record (R164, R165). -/
structure AdSlot where
  st : AdSt := .empty
  rank : Byte := 0#8
  tensors : BitVec 7 := 0#7
  set : Bool := false
  ver : W32 := 0#32
  l1 : Bool := false
  l2 : Bool := false
  params : W32 := 0#32
  image : Nat := 0
  /-- Bytes of one set of the image (S of R163). -/
  setSize : Nat := 0
  /-- β1, β2, η, ε and U of R167, from the descriptor. -/
  consts : Vector W32 5 := Vector.replicate 5 0#32
  lastSeq : W32 := 0#32
  creating : Bool := false
deriving DecidableEq, Repr

/-! ## Memory -/

/-- Use of a key slot (KSLOT_STATE, R259). -/
inductive KUse where
  | free | plan | planTarget | lane (n : LaneId) | laneTarget (n : LaneId)
deriving DecidableEq, Repr

/-- A key slot: its use and the identity of the key it holds (R253, R426); 0 when zeroised. -/
structure KSlot where
  use : KUse := .free
  key : Nat := 0
deriving DecidableEq, Repr

/-- A region slot (R244, R254, R259). -/
structure Region where
  base : BitVec 18 := 0#18
  size : BitVec 18 := 0#18
  lane : LaneId := 0
  window : Bool := false
  valid : Bool := false
  sealed : Bool := false
  adapter : Bool := false
  rotating : Bool := false
  gen : Bool := false
  err : BitVec 3 := 0#3
  slot0 : Fin 8 := 0
  slot1 : Fin 8 := 0
  left : BitVec 18 := 0#18
  /-- A sealed region's home lane still holds the key its blocks came from (R257). -/
  homeAlive : Bool := true
deriving DecidableEq, Repr

/-- A key sweep (R255, R257): which key, its old and new slots, the block in progress. -/
inductive SweepKind where
  | plan | lane (n : LaneId) | sealing (handle : Fin 16) | unseal (handle : Fin 16)
deriving DecidableEq, Repr

inductive SweepPhase where
  | idle | copy | rewrite
deriving DecidableEq, Repr

structure Sweep where
  kind : SweepKind
  old : Fin 8
  new : Fin 8
  /-- The region it covers, for a sealing sweep; every region under the key otherwise. -/
  region : Option (Fin 32)
  phase : SweepPhase := .idle
  block : Nat := 0
  /-- The tick at which it started its last block (R255). -/
  started : Option W64 := none
  /-- Which call asked for the rotation, for its event. -/
  byCall : Bool := true
deriving DecidableEq, Repr

/-- A decoder request (R247): the shell, and the generator whose addresses it reads. -/
structure DecReq where
  shell : ShellId
  ag : Fin 16
  /-- A streamed feed rather than a MOVE; and the request's number. -/
  stream : Bool := false
  id : Nat := 0
  table : Nat
  handle : Fin 16
deriving DecidableEq, Repr

/-- A weight-stream decoder (R247, R248). -/
structure Decoder where
  busy : Option DecReq := none
  loading : Bool := false
  /-- Cached entropy tables, oldest first: bundle handle and table number; at most 16. -/
  cache : List (Fin 16 × Nat) := []
deriving DecidableEq, Repr

/-- A retained bank (R239). -/
structure Retain where
  lane : LaneId := 0
  valid : Bool := false
  bank : BitVec 6 := 0#6
deriving DecidableEq, Repr

/-- The memory block: Boathouse, DRAM, regions, keys, rotations and decoders (R234 to R259). -/
structure Memory where
  /-- The Boathouse, by offset from 0x0100_0000_0000. -/
  bh : Bytes := []
  /-- Plaintext of usable DRAM, by engine address. -/
  dram : Bytes := []
  /-- The key under which each 64-byte data unit was last written. -/
  unitKey : Tab Nat := []
  /-- Units with poisoned or uncorrectable check bits (R243). -/
  poison : List Nat := []
  /-- Those of them that a page retirement has carried to the spare page. -/
  carried : List Nat := []
  trained : Bool := false
  noref : Bool := false
  fitted : Byte := 0#8
  rate : BitVec 4 := 0#4
  ranks : BitVec 2 := 0#2
  usable : BitVec 18 := 0#18
  ce : W32 := 0#32
  ue : W32 := 0#32
  /-- Corrected units since start-up, by unit number (R243). -/
  ceSites : List Nat := []
  patrolNext : Nat := 0
  rotPace : W16 := 20#16
  winRefused : W32 := 0#32
  kslot : Vector KSlot 8 := Vector.replicate 8 {}
  retain : Vector Retain 4 := Vector.replicate 4 {}
  /-- BH_PARTn: bit b for bank b. -/
  part : Vector W64 4 := ⟨#[0xFF#64, 0xFFFF0000#64, 0xFFFF00000000#64, 0xFF00#64], rfl⟩
  region : Vector Region 32 := Vector.replicate 32 {}
  /-- Retired pages in order (RETIREi). -/
  retired : List Nat := []
  /-- Pages locked for retirement. -/
  retiring : List Nat := []
  /-- Blocks whose generation bit is 1, rising (R254). -/
  genBits : List Nat := []
  sweeps : List Sweep := []
  decoder : Vector Decoder 4 := Vector.replicate 4 {}
  decQueue : List DecReq := []
  /-- The model's own: the number of the next decoder request. -/
  decNext : Nat := 0
deriving DecidableEq, Repr

end Sys2Proof.Machine
end

