-- ==== Sys2Proof/Machine/Senses.lean ====
section
/-! DEFINITION. The parts of the machine state, part four: the Eye and Lookout, the Ear and audio out, the sensing
converter, and the human edge. The default value of a field is its reset value. -/

namespace Sys2Proof.Machine
open Sys2Proof

/-! ## The Eye (R260 to R279) -/

/-- Role of a slice (SLk_STATE, R279). -/
inductive SliceRole where
  | active | spare | retired
deriving DecidableEq, Repr

/-- A converter slice (R267 to R272). -/
structure Slice where
  offset : BitVec 12 := 0#12
  gain : BitVec 14 := 0#14
  skew : Byte := 0#8
  role : SliceRole := .active
  fails : Nat := 0
  lastGen : Byte := 0#8
  /-- Its last passed calibration, counted among all since bring-up (R268). -/
  calNo : Nat := 0
  /-- Out of service by a fence rather than by R269, and its self-test result (R375). -/
  st : UnitSt := .active
deriving DecidableEq, Repr

/-- How far a frame has come. -/
inductive FrameStage where
  | delay | exposing | readout
deriving DecidableEq, Repr

/-- A frame from its trigger to its completion, with the settings it was triggered with (R262 to R266). -/
structure Frame where
  number : W32
  tTrig : W64
  mode : BitVec 2
  delay : BitVec 20
  expose : BitVec 22
  stage : FrameStage
  first : Bool
  irCut : Bool := false
  irOn : Bool
  /-- Tick at which the exposure ended. -/
  ended : W64 := 0#64
deriving DecidableEq, Repr

/-- How far the spare oar's calibration cycle has come (R268). -/
inductive CalStage where
  | reference | shadow | passed
deriving DecidableEq, Repr

/-- The spare oar's calibration cycle (R268): fitted values wait for the swap. -/
structure CalCycle where
  stage : CalStage := .reference
  began : W64 := 0#64
  offset : BitVec 12 := 0#12
  gain : BitVec 14 := 0#14
  skew : Byte := 0#8
  /-- The reference conversions broke a limit of R269. -/
  bad : Bool := false
  /-- The shadowed slice differs by more than 4 LSB: it goes at the next frame boundary (R269). -/
  urgent : Bool := false
deriving DecidableEq, Repr

/-- A Lookout event: its name and fields, and its frame (R275). -/
structure LookEvent where
  name : String
  fields : List (String × Val)
  /-- Its code in R317, if it can be bound. -/
  code : Option Byte
  frame : W32
  tTrig : W64
  /-- Events lost just before it, which a LOST line in front of its own says (R276). -/
  lost : Nat := 0
  /-- The Call line, and the L0 event ring, have taken it (R276). -/
  takenCall : Bool := false
  takenHost : Bool := false
deriving DecidableEq, Repr

/-- A face that has a number (R275). -/
structure Tracked where
  number : Fin 5
  id : Nat
  yaw : Int
  pitch : Int
  /-- Frames since the face was last seen. -/
  unseen : Nat := 0
  /-- Lip movement: frames of it in a row, T_TRIG of the last, and whether the lips are active. -/
  moving : Nat := 0
  moved : W64 := 0#64
  active : Bool := false
  /-- The face it was last turned toward. -/
  facing : Option Nat := none
deriving DecidableEq, Repr

/-- Lookout's configuration, hysteresis and event buffer (R275 to R277). -/
structure Lookout where
  attending : Bool := false
  presence : Bool := false
  /-- Consecutive frames with a face, and without one. -/
  withFace : Nat := 0
  without : Nat := 0
  /-- Frames left for which nothing is raised after HOLD has returned to 0 (R277). -/
  quiet : Nat := 0
  /-- The faces that are tracked, at most 4. -/
  faces : List Tracked := []
  buffer : List LookEvent := []
  lost : Nat := 0
deriving DecidableEq, Repr

/-- The EYE block (R260 to R279). -/
structure Eye where
  ready : Bool := false
  trigSrc : BitVec 4 := 0#4
  irEn : Bool := false
  mode : BitVec 2 := 0#2
  snapReq : Bool := false
  delay : BitVec 20 := 0x300#20
  expose : BitVec 22 := 0x9600#22
  ir : BitVec 20 := 0x5000#20
  irMax : BitVec 24 := 0x4007D0#24
  hold : Bool := false
  tally : Option (Fin 1024) := none
  frames : W32 := 0#32
  missIrCut : Byte := 0#8
  missOverflow : Byte := 0#8
  missNotReady : BitVec 4 := 0#4
  missNoSlot : BitVec 4 := 0#4
  missBusy : Byte := 0#8
  calCtl : W16 := 0x0A0A#16
  copyEn : Bool := false
  copyLane : LaneId := 0
  copyBanks : BitVec 2 := 0#2
  copyBank : BitVec 6 := 0#6
  look : BitVec 17 := 0x10F03#17
  calGen : Byte := 0#8
  /-- Passed calibrations since bring-up, and the tick of the last one completed (R268, R271). -/
  calCount : Nat := 0
  calTick : W64 := 0#64
  slice : Vector Slice 9 := Vector.ofFn fun i => if i.val = 8 then { role := .spare } else {}
  /-- Physical slice in each position; none where fewer than eight are active (SLICE_MAP). -/
  sliceMap : Vector (Option (Fin 9)) 8 := Vector.ofFn fun i => some ⟨i.val, by omega⟩
  /-- The positions from the end of the readout on, when they change during it (R266). -/
  mapNext : Option (Vector (Option (Fin 9)) 8) := none
  cal : CalCycle := {}
  /-- No calibration has completed for STALE × 100 ms in foreground (R271). -/
  stale : Bool := false
  /-- Number of the next frame, and whether it is the first after bring-up. -/
  nextFrame : W32 := 0#32
  first : Bool := true
  /-- The frame before exposure ends, and the frame in readout. -/
  frame : Option Frame := none
  reading : Option Frame := none
  lastTrig : Option W64 := none
  /-- Ticks at which triggers of the selected timer channel or of TRIG_IN arrive (R262). -/
  arriving : List W64 := []
  /-- Tick at which the last readout ended (R271). -/
  readEnd : W64 := 0#64
  /-- Level of IR_PWM, the tick at which it rose, and when it was high before, within the last 100 ms (R265). -/
  irHigh : Bool := false
  irRose : W64 := 0#64
  irLog : List (W64 × W64) := []
  /-- Frame ring of the Lookout bundle (R273): slots, next slot, and the frames that an L0 heat holds, oldest first: number,
  T_TRIG and the heat's sequence number (notes/assumptions/30). -/
  ringSlots : Nat := 2
  ringNext : Nat := 0
  ringHeld : List (W32 × W64 × W32) := []
  copyNext : Nat := 0
  lookout : Lookout := {}
deriving DecidableEq, Repr

/-! ## The Ear and audio out (R280 to R296, R304 to R306) -/

/-- One microphone channel (R281, R285 to R291). -/
structure MicChan where
  /-- EAR_CHn in force, and a write that waits for the next output boundary. -/
  reg : BitVec 24 := 0x32#24
  next : Option (BitVec 24) := none
  /-- Invalid words still due (R287, R288). -/
  invalid : Nat := 0
  /-- The channel runs: it joined at a boundary. -/
  running : Bool := false
  /-- EAR_RESULTn, and whether it holds a word. -/
  result : W32 := 0#32
  full : Bool := false
deriving DecidableEq, Repr

/-- A sample set in the capture buffer (R292): its number, tick, enabled channels and words. -/
structure CapSet where
  number : W64
  tick : W64
  mask : Byte
  osr : BitVec 2
  words : List W32
deriving DecidableEq, Repr

/-- A capture ring (R293): its register fields, and the block being written. -/
structure CapRing where
  en : Bool := false
  nblk : BitVec 3 := 0#3
  lane : LaneId := 0
  bank : BitVec 6 := 0#6
  block : W16 := 0#16
  tallyEn : Bool := false
  tally : Fin 1024 := 0
  /-- A write made while RUN is 1 that waits for the next boundary: the word, and its tally with EN. -/
  next : Option W32 := none
  nextTally : Option (Bool × Fin 1024) := none
  /-- The ring slot of the block being written: j mod NBLK of the ring's block j. -/
  slot : Fin 8 := 0
  blockNo : W32 := 0#32
  /-- Number of the first set that it takes. -/
  start : W64 := 0#64
  /-- Sets in the present block, its first sample and tick, channels, flags and losses. -/
  sets : Nat := 0
  sample : W64 := 0#64
  tFirst : W64 := 0#64
  chMask : Byte := 0#8
  osr : BitVec 2 := 0#2
  first : Bool := true
  ovr : Bool := false
  lost : Nat := 0
deriving DecidableEq, Repr

/-- Audio out (R295, R296). -/
structure AudioOut where
  run : Bool := false
  startReq : Bool := false
  stopReq : Bool := false
  /-- The tick at which a trigger of the selected source arrives (R296). -/
  arriving : Option W64 := none
  format : BitVec 1 := 0#1
  slots : BitVec 3 := 0#3
  trigSrc : BitVec 4 := 0#4
  en : Bool := false
  nblk : BitVec 3 := 0#3
  lane : LaneId := 0
  bank : BitVec 6 := 0#6
  blockLen : W16 := 0#16
  fillEn : Bool := false
  fill : Fin 1024 := 0
  doneEn : Bool := false
  done : Fin 1024 := 0
  under : W32 := 0#32
  /-- Block and frame to play next; block 0 has played. -/
  block : Nat := 0
  frame : Nat := 0
  inBlock : Bool := false
  played : Bool := false
  /-- The samples of the last frame sent, slot 0 first. -/
  lastFrame : List (BitVec 24) := []
deriving DecidableEq, Repr

/-- The EAR block (R280 to R296, R306). -/
structure Ear where
  run : Bool := false
  startReq : Bool := false
  stopReq : Bool := false
  /-- A trigger of the selected timer channel or of TRIG_IN has come; the tick at which it arrives (R283). -/
  arriving : Option W64 := none
  osr : BitVec 2 := 1#2
  trigSrc : BitVec 4 := 0#4
  enable : Byte := 0#8
  ovrSeen : Byte := 0#8
  clipSeen : Byte := 0#8
  chan : Vector MicChan 8 := Vector.replicate 8 {}
  /-- Number of the next sample set. -/
  nextSample : W64 := 0#64
  biasEn : Vector Bool 2 := Vector.replicate 2 false
  biasLevel : Vector (BitVec 2) 2 := Vector.replicate 2 0#2
  biasReady : Vector Bool 2 := Vector.replicate 2 false
  ring : Vector CapRing 2 := Vector.replicate 2 {}
  /-- The capture buffer of 64 sets, oldest first (R292). -/
  buffer : List CapSet := []
  audo : AudioOut := {}
deriving DecidableEq, Repr

/-! ## The sensing converter (R297 to R303, R307) -/

/-- Who asked for an urgent conversion (R302, R312). -/
inductive UrgentBy where
  | user
  /-- The user request that SENSE READ made; its caller has the reply. -/
  | read (c : Caller)
  | rail
  /-- Conversion 0 or 1 of a plug's impedance check. -/
  | plug (n : Fin 2) (second : Bool)
deriving DecidableEq, Repr

/-- An urgent request (R302). -/
structure Urgent where
  by_ : UrgentBy
  input : BitVec 5
  settle : Byte
  osr : BitVec 2
deriving DecidableEq, Repr

/-- What the converter does now (R299, R302). -/
inductive SenseRun where
  /-- Between passes. -/
  | idle
  | settling (entry : Fin 32)
  | converting (entry : Fin 32)
  | urgSettling (u : Urgent)
  | urgConverting (u : Urgent)
deriving DecidableEq, Repr

/-- The SENSE block (R297 to R303, R307). -/
structure Sense where
  period : W16 := 0#16
  /-- SENSE_DATA. -/
  data : W32 := 0#32
  /-- SENSE_URGENT without GO, and GO. -/
  urgent : W32 := 0#32
  go : Bool := false
  pass : Byte := 0#8
  /-- SENSE_SEQ0 to SENSE_SEQ31. -/
  seq : Vector W32 32 := Vector.ofFn fun i =>
    if i.val = 30 then 0x8000000F#32 else if i.val = 31 then 0x8014001F#32 else 0#32
  last : Vector W32 32 := Vector.replicate 32 0#32
  run : SenseRun := .idle
  /-- Settings entry k started with. -/
  cur : W32 := 0#32
  /-- The entry that an urgent request interrupted, and its aborts in a row (R303). -/
  interrupted : Option (Fin 32) := none
  aborts : Nat := 0
  /-- Waiting requests: the engine's, and the user's. -/
  engineQ : List Urgent := []
  userQ : Option Urgent := none
  /-- A user conversion has ended and an entry must complete before the next (R303). -/
  userHold : Bool := false
  /-- The step of entry 31's round, 0 to 12 (R299). -/
  round : Fin 13 := 0
  /-- Latest temperature of each sensor in 1/16 °C. -/
  temp : Vector (BitVec 16) 9 := Vector.replicate 9 0#16
  /-- Readings of inputs 14–27 are hidden (R423). -/
  hidden : Bool := true
deriving DecidableEq, Repr

/-! ## The human edge (R308 to R319, R322) -/

/-- An edge event (R313, R317). -/
inductive EdgeEv where
  | btn (n : Fin 12) (down : Bool)
  | touch (n : Fin 4) (on : Bool)
  | plug (n : Fin 2) (in_ : Bool)
  /-- PLUG n Z: none is z=HIGH. -/
  | impedance (n : Fin 2) (z : Option Nat)
  | lost (n : Nat)
deriving DecidableEq, Repr

/-- What a binding did with an event (R317). -/
inductive BindResult where
  | heat (s : W32) | err (e : Err)
deriving DecidableEq, Repr

/-- An entry of the event queue, and which consumers have taken it (R313, R314). -/
structure QueueEntry where
  ev : EdgeEv
  tick : W64
  bound : Option BindResult
  takenCall : Bool := false
  takenHost : Bool := false
deriving DecidableEq, Repr

/-- A debounced input (R308, R311): the synchronised level and since when, and the debounced level. -/
structure Debounce where
  level : Bool := false
  since : W64 := 0#64
  pending : Bool := false
  deb : Bool := false
deriving DecidableEq, Repr

/-- A touch pad (R310). -/
structure Touch where
  reg : W32 := 0x00A40052#32
  base : BitVec 20 := 0#20
  on : Bool := false
  /-- EN has been set and no result has come since. -/
  fresh : Bool := true
  /-- Consecutive results above the ON threshold, and below the OFF threshold. -/
  above : Nat := 0
  below : Nat := 0
deriving DecidableEq, Repr

/-- A PWM generator (R318, R319). -/
structure Pwm where
  en : Bool := false
  pol : Bool := false
  pre : BitVec 4 := 0#4
  burst : W16 := 0#16
  go : Bool := false
  /-- PERIOD and DUTY in force, and a write that waits for the period boundary. -/
  duty : W32 := 0#32
  next : Option W32 := none
  /-- Tick at which the run started. -/
  started : W64 := 0#64
  /-- Tick at which the period that runs began. -/
  phase : W64 := 0#64
deriving DecidableEq, Repr

/-- A binding of an event to a heat (R316). -/
structure Binding where
  valid : Bool := false
  failed : Bool := false
  lane : LaneId := 0
  code : Byte := 0#8
  handle : Fin 16 := 0
  entry : Nat := 0
  args : List HeatArg := []
deriving DecidableEq, Repr

/-- The EDGE block (R308 to R319, R322). -/
structure Edge where
  btnReg : Vector W32 3 := Vector.replicate 3 0xD3D3D3D3#32
  btn : Vector Debounce 12 := Vector.replicate 12 {}
  plugReg : W16 := 0xFFFF#16
  plug : Vector Debounce 2 := Vector.replicate 2 {}
  /-- An impedance check in progress per plug: D0 once it is known. -/
  imp : Vector (Option (Option Nat)) 2 := Vector.replicate 2 none
  touch : Vector Touch 4 := Vector.replicate 4 {}
  queue : List QueueEntry := []
  /-- EDGE_LOST, and losses that the next stored event is preceded by (R315). -/
  lost : W16 := 0#16
  lostRun : Nat := 0
  pwm : Vector Pwm 4 := Vector.replicate 4 {}
  bind : Vector Binding 8 := Vector.replicate 8 {}
deriving DecidableEq, Repr

end Sys2Proof.Machine
end

