-- ==== Sys2Proof/Machine/State.lean ====
section
/-! DEFINITION. The machine state, its reset value, and the two closed lists of ways in which a step can stop. -/

namespace Sys2Proof.Machine
open Sys2Proof

/-- What the manual gives no effect at all. No command of this model ends in a fault: every detected error of the engine is
a reply, a record, a register bit, an event line or a heat restart, which are next states. Safe: nothing raises it. -/
inductive Fault where
  /-- Raised by nobody. -/
  | stuck
deriving DecidableEq, Repr

/-- What the model refuses. -/
inductive Refusal where
  /-- A command that has no meaning yet, by its mnemonic. Safe: the run stops there. -/
  | notModelled (mnemonic : String)
deriving DecidableEq, Repr

/-- The upper halves that a path's reads of LO registers have copied (R453); none before its first read of the LO. -/
structure Shadows where
  tick : Option W32 := none
  ear : Option W32 := none
  hs : Vector (Option W32) 4 := Vector.replicate 4 none
  spin : Vector (Option W32) 4 := Vector.replicate 4 none
deriving DecidableEq, Repr

/-- The machine (01 to 22). -/
structure State where
  start : Start := {}
  clk : Clocks := {}
  power : Power := {}
  rail : Rail := {}
  faults : Faults := {}
  fuse : Fuse := {}
  keys : Keys := {}
  tmr : Tmr := {}
  stat : Stat := {}
  call : CallLine := {}
  host : HostLink := {}
  str : StringPort := {}
  firm : Firm := {}
  /-- The boot flash (R416). -/
  flash : Bytes := []
  shells : Vector Shell 18 := Vector.replicate 18 {}
  /-- T0000 to T1023 (R63, R64): tallies that are not 0. -/
  tallies : Tab W32 := []
  /-- SHELL_MAP (R70): the physical shell of each logical shell. -/
  map : Vector (Option ShellId) 16 := Vector.ofFn fun i => some ⟨i.val, by omega⟩
  lanes : Vector Lane 4 := ⟨#[{ st := .opened, owner := .engine }, { prio := 1#2 }, { prio := 1#2 }, { prio := 2#2 }], rfl⟩
  ads : Vector AdSlot 8 := Vector.replicate 8 {}
  bundles : Vector Bundle 16 := Vector.replicate 16 {}
  mem : Memory := {}
  eye : Eye := {}
  ear : Ear := {}
  sense : Sense := {}
  edge : Edge := {}
  /-- Read shadows of the paths Cox, Call, host and String Port. -/
  shadows : Vector Shadows 4 := Vector.replicate 4 {}
  /-- The model's own: how many free values have been drawn (notes/assumptions/8). -/
  free : Nat := 0
  /-- Commands that wait, first in first out. -/
  pending : List Instr := []
deriving DecidableEq, Repr

/-- The machine right after reset: every register at the Reset column of its table (notes/assumptions/4, 5, 7), memory with
nothing listed, no command waiting. -/
def State.reset : State := {}

end Sys2Proof.Machine
end

