-- ==== Sys2Proof/Machine/Ops.lean ====
section
/-! DEFINITION. Named operations over the parts of the state: bytes, tables, vectors, bit fields, output lines and events,
tallies, free values, and the fault log. -/

namespace Sys2Proof.Machine
open Sys2Proof

/-! ## Sparse bytes -/

/-- The byte at an address; 0 where nothing is listed (notes/assumptions/6). -/
def Bytes.get : Bytes → Nat → Byte
  | [], _ => 0#8
  | (a, b) :: r, x => if a = x then b else if x < a then 0#8 else Bytes.get r x

/-- Write one byte, keeping the canonical form: rising addresses, no listed 0. -/
def Bytes.set : Bytes → Nat → Byte → Bytes
  | [], x, v => if v = 0#8 then [] else [(x, v)]
  | (a, b) :: r, x, v =>
    if x < a then (if v = 0#8 then (a, b) :: r else (x, v) :: (a, b) :: r)
    else if a = x then (if v = 0#8 then r else (x, v) :: r)
    else (a, b) :: Bytes.set r x v

/-- The canonical form, from a lower limit on. -/
def Bytes.wfFrom : Nat → Bytes → Bool
  | _, [] => true
  | lo, (a, b) :: r => decide (lo ≤ a) && decide (b ≠ 0#8) && Bytes.wfFrom (a + 1) r

/-- The canonical form: rising addresses, no listed 0. -/
abbrev Bytes.wf (m : Bytes) : Bool := Bytes.wfFrom 0 m

/-- n bytes from an address up. -/
def Bytes.range (m : Bytes) (a : Nat) : Nat → List Byte
  | 0 => []
  | n + 1 => m.get a :: Bytes.range m (a + 1) n

/-- Write bytes from an address up. -/
def Bytes.put (m : Bytes) (a : Nat) : List Byte → Bytes
  | [] => m
  | v :: r => Bytes.put (m.set a v) (a + 1) r

/-- Zero-fill n bytes from an address up. -/
def Bytes.clear (m : Bytes) (a n : Nat) : Bytes := m.filter fun p => p.1 < a || a + n ≤ p.1

/-- A little-endian number (R7). -/
def leNat : List Byte → Nat
  | [] => 0
  | b :: r => b.toNat + 256 * leNat r

/-- The k low bytes of a number, least significant first. -/
def leBytes (n : Nat) : Nat → List Byte
  | 0 => []
  | k + 1 => BitVec.ofNat 8 n :: leBytes (n / 256) k

def Bytes.nat (m : Bytes) (a n : Nat) : Nat := leNat (m.range a n)

/-! ## Tables with numbered entries -/

def Tab.get? {α : Type} (t : Tab α) (k : Nat) : Option α := (t.find? fun p => p.1 == k).map Prod.snd

/-- Set an entry, keeping the keys rising. -/
def Tab.set {α : Type} : Tab α → Nat → α → Tab α
  | [], k, v => [(k, v)]
  | (a, x) :: r, k, v => if k < a then (k, v) :: (a, x) :: r else if a = k then (k, v) :: r else (a, x) :: Tab.set r k v

def Tab.erase {α : Type} (t : Tab α) (k : Nat) : Tab α := t.filter fun p => p.1 != k

/-- Keys rise. -/
def Tab.wfFrom {α : Type} : Nat → Tab α → Bool
  | _, [] => true
  | lo, (a, _) :: r => decide (lo ≤ a) && Tab.wfFrom (a + 1) r

/-- A table of words in which an absent entry reads 0. -/
def Tab.word (t : Tab W32) (k : Nat) : W32 := (Tab.get? t k).getD 0#32

/-- Set a word; 0 removes the entry. -/
def Tab.setWord (t : Tab W32) (k : Nat) (v : W32) : Tab W32 := if v = 0#32 then Tab.erase t k else Tab.set t k v

/-! ## Vectors -/

/-- Replace entry i by a function of it. -/
def upd {α : Type} {n : Nat} (v : Vector α n) (i : Fin n) (f : α → α) : Vector α n := v.set i.val (f v[i]) i.isLt

/-- Entry i replaced. -/
def put {α : Type} {n : Nat} (v : Vector α n) (i : Fin n) (x : α) : Vector α n := v.set i.val x i.isLt

/-- Every entry replaced by a function of its number and itself. -/
def mapIdx {α β : Type} {n : Nat} (v : Vector α n) (f : Fin n → α → β) : Vector β n := Vector.ofFn fun i => f i v[i]

/-- A number below n, if it is one. -/
def fin? (n k : Nat) : Option (Fin n) := if h : k < n then some ⟨k, h⟩ else none

/-! ## Fields of words -/

/-- The field of n bits at bit lo. -/
def fld (w : W32) (lo n : Nat) : Nat := (w.toNat >>> lo) % 2 ^ n

def bit (w : W32) (k : Nat) : Bool := w.getLsbD k

/-- A number in the field of n bits at bit lo. -/
def atBit (v lo n : Nat) : W32 := w32 ((v % 2 ^ n) <<< lo)

/-- The word with its field replaced. -/
def putFld (w : W32) (lo n v : Nat) : W32 := (w &&& ~~~(atBit (2 ^ n - 1) lo n)) ||| atBit v lo n

def boolNat (b : Bool) : Nat := if b then 1 else 0

/-- Saturating increment of a counter of a given largest value. -/
def satAdd (x by_ top : Nat) : Nat := if x + by_ ≤ top then x + by_ else top

/-- round(t × 38.4), µs to REF ticks (R346). -/
def usTicks (us : Nat) : Nat := (us * 384 + 5) / 10

/-- round(ms × 32.768), ms to SLOW edges (R367). -/
def msSlow (ms : Nat) : Nat := (ms * 32768 + 500) / 1000

/-- Milliseconds of REF ticks (38,400 per ms). -/
def msTicks (ms : Nat) : Nat := ms * 38400

/-! ## Free values -/

/-- Draw the next free value. -/
def draw (s : State) : Nat × State := (s.free, { s with free := s.free + 1 })

/-! ## Lanes, shells, bundles and other numbered parts -/

def State.lane (s : State) (l : LaneId) : Lane := s.lanes[l]
def State.setLane (s : State) (l : LaneId) (f : Lane → Lane) : State := { s with lanes := upd s.lanes l f }
def State.shell (s : State) (i : ShellId) : Shell := s.shells[i]
def State.setShell (s : State) (i : ShellId) (f : Shell → Shell) : State := { s with shells := upd s.shells i f }
def State.bundle (s : State) (h : Fin 16) : Bundle := s.bundles[h]
def State.setBundle (s : State) (h : Fin 16) (f : Bundle → Bundle) : State := { s with bundles := upd s.bundles h f }
def State.setAd (s : State) (n : Fin 8) (f : AdSlot → AdSlot) : State := { s with ads := upd s.ads n f }
def State.setRing (s : State) (n : LaneId) (f : Ring → Ring) : State :=
  { s with host := { s.host with ring := upd s.host.ring n f } }

/-- The owner of the lane, as R17 has it: a lane that is not OPEN has none. -/
def State.laneOwner (s : State) (l : LaneId) : Owner := (s.lane l).owner

/-- A path acts for the owner of a lane (R445: the String Port reads and writes as the owner of every lane). -/
def State.ownsLane (s : State) (p : Path) (l : LaneId) : Bool :=
  match p with
  | .string => true
  | .cox => true
  | .call => s.laneOwner l == .call
  | .host => s.laneOwner l == .host

/-! ## Confidential mode (R422, R438) -/

/-- A self-test, a repair, a key operation, start-up or recovery holds confidential mode. -/
def State.confidential (s : State) : Bool :=
  s.keys.startup || s.keys.recovery || !s.faults.tests.isEmpty || s.keys.repair != 0 || s.keys.keyop != 0

/-! ## Tallies (R36, R64) -/

def State.tally (s : State) (t : Nat) : W32 := Tab.word s.tallies t

/-- The shells in service, one bit each. -/
def State.serviceBits (s : State) : BitVec 18 :=
  BitVec.ofNat 18 ((List.finRange 18).foldl (fun n i =>
    if s.faults.shells[i] == .active || s.faults.shells[i] == .spare then n + 2 ^ i.val else n) 0)

/-! ## Grants (R35) -/

/-- One of the arbiters from lo on has granted its resource to another input. -/
def State.arbBusy (s : State) (lo n input : Nat) : Bool := s.clk.arbHeld.any fun p => decide (lo ≤ p.1 ∧ p.1 < lo + n) && p.2 != input

/-- An input has had its unit of service: its grants end. -/
def State.arbServed (s : State) (lo n input : Nat) : State :=
  { s with clk := { s.clk with arbHeld := s.clk.arbHeld.filter fun p => !(decide (lo ≤ p.1 ∧ p.1 < lo + n) && p.2 == input) } }

/-- The bank ports of a shell's SRAM, and the ports of its router, among the arbiters. -/
def sramPorts (i : ShellId) : Nat := 100 + 16 * i.val
def routerPorts (i : ShellId) : Nat := 5 * i.val
/-- The bank port of a Boathouse bank. -/
def bankPort (b : Nat) : Nat := 400 + b

/-! ## The deadline watchdogs (R219, R403, R447) -/

/-- The time that watchdogs count, in REF ticks of nominal length: it goes with SLOW, which keeps its rate while REF drifts (R31, R387). -/
def State.steady (s : State) : W64 := BitVec.ofNat 64 ((9375 * s.clk.slow.toNat + s.clk.slowDiv) / 8)

/-- Steady ticks from t to now; the count returns to 0 with that of SLOW. -/
def steadySpan (t now : W64) : Nat := (now.toNat + 9375 * 2 ^ 29 - t.toNat) % (9375 * 2 ^ 29)

/-- The deadline watchdog stops counting: no segment of the heat runs (R219). -/
def HeatRun.pause (now : W64) (r : HeatRun) : HeatRun :=
  match r.since with
  | some t => { r with runTicks := r.runTicks + steadySpan t now, allTicks := r.allTicks + steadySpan t now, since := none }
  | none => r

/-- The watchdog of a heat counts while a segment of it runs, and not while `stop` holds. -/
def HeatRun.watch (now : W64) (stop : Bool) (r : HeatRun) : HeatRun :=
  if r.st == .segment && !r.open_.isEmpty && !stop then (if r.since.isNone then { r with since := some now } else r) else r.pause now

/-- A shell of the heat is halted by the String Port. -/
def State.heatHalted (s : State) (l : LaneId) (q : W32) : Bool :=
  (List.finRange 18).any fun i => s.str.halted.getLsbD i.val && s.shells[i].running == some (l, q)

/-- Every watchdog counts or pauses as the fabric's floor and the String Port's halts have it. -/
def State.watch (s : State) : State :=
  { s with lanes := mapIdx s.lanes fun l (L : Lane) =>
      { L with runs := L.runs.map fun r => r.watch s.steady (s.rail.floor || s.heatHalted l r.seq) } }

/-- The mask of one breakpoint slot that hits, else none of the shells. -/
def breakMask (hit : Break → Option (BitVec 18)) (b : Option Break) : BitVec 18 := ((b.bind hit).getD 0)

/-- Breakpoints that hit halt the shells in service of their masks (R444). -/
def strHit (hit : Break → Option (BitVec 18)) (s : State) : State :=
  let m := s.str.slots.toList.foldl (fun m b => m ||| (breakMask hit b &&& s.serviceBits)) s.str.halted
  if m = s.str.halted then s else { s with str := { s.str with halted := m } }.watch

/-- The test of R58: a count satisfies a target. -/
def satisfied (count : W32) (target : W16) : Bool := decide ((count.setWidth 16 - target).toNat < 2 ^ 15)

/-- An add reaches a tally and is applied exactly, modulo 2^32; a breakpoint on the tally may hit. -/
def State.tallyAdd (s : State) (t amt : Nat) : State :=
  let v := s.tally t + w32 amt
  strHit (fun b => match b with
    | .tally k target m => if k.val = t ∧ satisfied v target then some m else none
    | _ => none) { s with tallies := Tab.setWord s.tallies t v }

def State.tallySet (s : State) (t : Nat) (v : W32) : State := { s with tallies := Tab.setWord s.tallies t v }

/-- The engine-wide number of tally k of a lane (R63). -/
def laneTally (l : LaneId) (k : Nat) : Nat := 256 * l.val + k % 256

/-! ## Output lines and events (R337 to R340, R364) -/

def Line.evt (head : String) (fields : List (String × Val)) : Line := ⟨.event, head, none, fields⟩
def bareF (s : String) : String × Val := (s, .bare)
def decF (k : String) (n : Nat) : String × Val := (k, .dec n)
def symF (k v : String) : String × Val := (k, .sym v)
def onOff (b : Bool) : String := if b then "ON" else "OFF"

/-- The lines marked "always" in R340. -/
def Line.always (l : Line) : Bool :=
  ["BANNER", "LOG BOOK LOST", "FIRM NEEDED", "LOOKOUT OFF", "BREAK", "CALL LOST", "DONE", "SCRUB"].contains l.head

/-- The lines of Lookout (R275), which go to the L0 event ring. -/
def Line.look (l : Line) : Bool := ["PRESENCE", "FACE", "GESTURE", "LIPS", "ATTEND", "LOOK LOST"].contains l.head

/-- The lines that enter no event ring (R364). -/
def Line.callOnly (l : Line) : Bool := ["DONE", "BANNER", "BREAK", "CALL LOST"].contains l.head

/-- Put a line on CALL_TX. -/
def State.tx (s : State) (l : Line) : State := { s with call := { s.call with tx := s.call.tx ++ [.line l] } }

def State.txChars (s : State) (l : List Byte) : State := { s with call := { s.call with tx := s.call.tx ++ [.chars l] } }

/-- The prompt, in TEXT mode with echo on (R331, R348). -/
def State.prompt (s : State) : State := if s.call.echo && !s.call.terse then s.txChars (ascii "LZ> ") else s

/-- An event line on the Call line (R340): a partial line is ended first and repeated after it (R331). -/
def State.callEvent (s : State) (l : Line) : State :=
  if s.call.events || l.always then
    if s.call.echo && !s.call.terse && !s.call.part.isEmpty then
      (((s.txChars [0x0D#8, 0x0A#8]).tx l).prompt).txChars s.call.part
    else s.tx l
  else s

/-- An event line into its event ring, where the ring is enabled (R314, R364). -/
def State.ringEvent (s : State) (l : Line) : State :=
  let k : Fin 2 := if l.look then 0 else 1
  if !l.callOnly && s.host.evctl.getLsbD k.val then
    { s with host := { s.host with ev := upd s.host.ev k fun r => { r with out := r.out ++ [l] } } }
  else s

/-- Raise an event: before the banner it waits for it (R412), after it goes to the Call line and the event rings. -/
def State.raise (s : State) (l : Line) : State :=
  if s.start.banner then (s.callEvent l).ringEvent l
  else { s with start := { s.start with early := s.start.early ++ [l] } }

/-! ## Replies (R336, R337, R350) -/

/-- The engine sets bit k of HOST_IRQ: where it is enabled and the link is up, MSI-X vector k signals it, or the one MSI vector while MSI-X
is disabled (R354, R366). -/
def HostLink.signal (h : HostLink) (k : Fin 8) : HostLink :=
  if h.irqEn.getLsbD k.val && !h.qspi && decide (0 < h.width.val) then
    if h.msix then { h with messages := h.messages ++ [k] } else if h.msi then { h with messages := h.messages ++ [0] } else h
  else h

/-- The level of HQ_IRQ_N: low while HOST_IRQ & HOST_IRQ_EN is not 0 (R358). -/
def HostLink.hqIrqN (h : HostLink) : Bool := h.irq.setWidth 32 &&& h.irqEn == 0#32

/-- Set a bit of HOST_IRQ (R366). -/
def State.irq (s : State) (k : Fin 8) : State :=
  { s with host := { s.host.signal k with irq := s.host.irq ||| BitVec.ofNat 8 (2 ^ k.val) } }

/-- Answer a call with the lines of its reply, as one block; the last line is the final one. -/
def State.reply (s : State) (c : Caller) (ls : List Line) : State :=
  match c.path with
  | .call =>
    let s := ls.foldl State.tx s
    { s with call := { s.call with running := none } }.prompt
  | .host =>
    let n := ls.length
    let es := ls.zipIdx.map fun p => { kind := .reply, seq := c.seq, line := p.1, last := if p.2 + 1 = n then c.at_ else none : RingEntry }
    s.setRing c.ring fun r => { r with out := r.out ++ es }

def okLine (c : Caller) (verb : String) (fs : List (String × Val)) : Line := ⟨.ok, verb, c.tag, fs⟩
def dataLine (c : Caller) (fs : List (String × Val)) : Line := ⟨.data, "", c.tag, fs⟩

/-- Success, with data lines before it. -/
def State.okWith (s : State) (c : Caller) (ds : List (List (String × Val))) (verb : String) (fs : List (String × Val)) : State :=
  s.reply c (ds.map (dataLine c) ++ [okLine c verb fs])

def State.ok (s : State) (c : Caller) (verb : String) (fs : List (String × Val)) : State := s.okWith c [] verb fs

def Err.text : Err → String
  | .syntaxErr => "E.SYNTAX" | .range => "E.RANGE" | .busy => "E.BUSY" | .lane => "E.LANE" | .state => "E.STATE"
  | .dup => "E.DUP" | .conf => "E.CONF" | .fenced => "E.FENCED" | .key => "E.KEY" | .ver => "E.VER"
  | .noref => "E.NOREF" | .full => "E.FULL"

/-- Failure, with its detail fields. -/
def State.failWith (s : State) (c : Caller) (verb : String) (e : Err) (fs : List (String × Val)) : State :=
  s.reply c [⟨.fail, verb, c.tag, bareF e.text :: fs⟩]

def State.fail (s : State) (c : Caller) (verb : String) (e : Err) : State := s.failWith c verb e []

/-- The Call line runs another call, whose reply is outstanding (R336). -/
def State.lineBusy (s : State) (c : Caller) : Bool := c.path == .call && s.call.running.isSome

/-- A call with a verb runs when start-up has ended, its line is free, and the service allows it (R336, R341, R352); otherwise a
call before the banner or on a busy line has no effect yet, and one in recovery fails with E.STATE. -/
def State.gate (s : State) (c : Caller) (verb : String) (recovery : Bool) (k : State) : State :=
  if !s.start.banner || s.lineBusy c then s
  else if s.keys.recovery && !recovery then s.fail c verb .state
  else k

/-! ## Names in lines -/

def laneName (l : LaneId) : String := "L" ++ toString l.val
def laneF (l : LaneId) : String × Val := bareF (laneName l)
def hexAddr (n : Nat) : Val := .hex 12 n
def hexReg (w : W32) : Val := .hex 8 w.toNat
def hexOff (n : Nat) : Val := .hex 5 n

def two (n : Nat) : String := if n < 10 then "0" ++ toString n else toString n

/-- Names of units in calls and event lines (R347). -/
def UnitRef.text : UnitRef → String
  | .shell i => "S" ++ two i.val
  | .bank i => if i.val < 64 then "B" ++ toString (i.val / 16) ++ "." ++ toString (i.val % 16) else "B" ++ toString (i.val - 64) ++ ".S"
  | .row b r => "ROW" ++ toString b.val ++ "." ++ toString r.val
  | .slice i => "SL" ++ toString i.val
  | .cox i => if i.val = 0 then "COXA" else if i.val = 1 then "COXB" else "COXS"
  | .page n => "PAGE" ++ toString n
  | .decoder i => "DEC" ++ toString i.val
  | .aes i => "AES" ++ toString i.val
  | .clock i => "CLK" ++ toString i.val
  | .lane i => laneName i

/-! ## The fault log (R396) -/

/-- UNIT: [15:12] KIND, [11:0] INDEX. -/
def UnitRef.code : UnitRef → W16
  | .shell i => BitVec.ofNat 16 i.val
  | .bank i => BitVec.ofNat 16 (0x1000 + i.val)
  | .row b _ => BitVec.ofNat 16 (0x2000 + b.val)
  | .slice i => BitVec.ofNat 16 (0x3000 + i.val)
  | .cox i => BitVec.ofNat 16 (0x4000 + i.val)
  | .page _ => 0x5000#16
  | .decoder i => BitVec.ofNat 16 (0x6000 + i.val)
  | .aes i => BitVec.ofNat 16 (0x7000 + i.val)
  | .clock i => BitVec.ofNat 16 (0x8000 + i.val)
  | .lane i => BitVec.ofNat 16 (0x9000 + i.val)

/-- The generation of the log book: the highest of a valid superblock copy (R229). -/
def State.generation (s : State) : Nat := Nat.max (s.start.superA.getD 0) (s.start.superB.getD 0)

/-- A fault record with nothing but its type, unit and cause. -/
def State.faultRec (s : State) (k : LogType) (u : UnitRef) (c : Option Cause) : FaultRec where
  number := s.faults.logNum + 1
  kind := k
  unit := u.code
  gen := s.generation
  tick := s.clk.tick
  cause := c
  lane := none
  result := 0#16
  seqFirst := 0#32
  seqLast := 0#32
  count := 0
  detail := match u with
    | .row _ r => BitVec.ofNat 64 r.val
    | .page n => BitVec.ofNat 64 n
    | _ => 0#64
  valid := true

/-- Append a record; the log holds the newest 512. -/
def State.logFault (s : State) (r : FaultRec) : State :=
  let l := s.faults.log ++ [r]
  { s with faults := { s.faults with log := l.drop (l.length - 512), logNum := s.faults.logNum + 1 } }

/-- An active processor that has not crashed. -/
def State.coxWorks (s : State) (i : Fin 3) : Bool := s.faults.coxRole[i] == .active && !s.faults.crashed[i]

/-! ## Time -/

def State.now (s : State) : W64 := s.clk.tick

/-- Ticks since an earlier moment. -/
def State.since (s : State) (t : W64) : Nat := (s.clk.tick - t).toNat

end Sys2Proof.Machine
end

