-- ==== Sys2Proof/Machine/Digest.lean ====
section
/-! DEFINITION. CRC-32 of IEEE 802.3, the CRC-16 of R329, and SHA-256 (R429 to R431). -/

namespace Sys2Proof.Machine
open Sys2Proof

/-! ## Evaluation -/

/-- A number is evaluated before it is used. -/
def strictly {α : Type} (n : Nat) (k : Nat → α) : α :=
  match n with
  | 0 => k 0
  | m + 1 => k (m + 1)

/-- The same of a word. -/
def strictW {α : Type} (x : W32) (k : W32 → α) : α := strictly x.toNat fun n => k (BitVec.ofNat 32 n)

/-- The same of a list of bytes. -/
def strictBytes {α : Type} : List Byte → (List Byte → α) → α
  | [], k => k []
  | b :: r, k => strictly b.toNat fun n => strictBytes r fun r => k (BitVec.ofNat 8 n :: r)

/-! ## CRC -/

/-- One bit of the reflected CRC-32. -/
def crc32Bit (c : W32) : W32 := if c.getLsbD 0 then (c >>> 1) ^^^ 0xEDB88320#32 else c >>> 1

def crc32Byte (c : W32) (b : Byte) : W32 := (List.range 8).foldl (fun c _ => crc32Bit c) (c ^^^ b.setWidth 32)

/-- The register of a CRC-32 after some bytes. -/
def crc32From (c : W32) : List Byte → W32
  | [] => c
  | b :: l => strictW (crc32Byte c b) fun c => crc32From c l

/-- CRC-32 of IEEE 802.3. -/
def crc32 (l : List Byte) : W32 := ~~~(crc32From 0xFFFFFFFF#32 l)

def crc16Bit (c : W16) : W16 := if c.getLsbD 15 then (c <<< 1) ^^^ 0x1021#16 else c <<< 1

def crc16Byte (c : W16) (b : Byte) : W16 := (List.range 8).foldl (fun c _ => crc16Bit c) (c ^^^ (b.setWidth 16 <<< 8))

/-- The line check of R329. -/
def crc16 (l : List Byte) : W16 := l.foldl crc16Byte 0xFFFF#16

/-! ## SHA-256 -/

/-- The first 32 bits of the fractional parts of the cube roots of the first 64 primes. -/
def shaK : List W32 :=
  [0x428a2f98#32, 0x71374491#32, 0xb5c0fbcf#32, 0xe9b5dba5#32, 0x3956c25b#32, 0x59f111f1#32, 0x923f82a4#32, 0xab1c5ed5#32,
   0xd807aa98#32, 0x12835b01#32, 0x243185be#32, 0x550c7dc3#32, 0x72be5d74#32, 0x80deb1fe#32, 0x9bdc06a7#32, 0xc19bf174#32,
   0xe49b69c1#32, 0xefbe4786#32, 0x0fc19dc6#32, 0x240ca1cc#32, 0x2de92c6f#32, 0x4a7484aa#32, 0x5cb0a9dc#32, 0x76f988da#32,
   0x983e5152#32, 0xa831c66d#32, 0xb00327c8#32, 0xbf597fc7#32, 0xc6e00bf3#32, 0xd5a79147#32, 0x06ca6351#32, 0x14292967#32,
   0x27b70a85#32, 0x2e1b2138#32, 0x4d2c6dfc#32, 0x53380d13#32, 0x650a7354#32, 0x766a0abb#32, 0x81c2c92e#32, 0x92722c85#32,
   0xa2bfe8a1#32, 0xa81a664b#32, 0xc24b8b70#32, 0xc76c51a3#32, 0xd192e819#32, 0xd6990624#32, 0xf40e3585#32, 0x106aa070#32,
   0x19a4c116#32, 0x1e376c08#32, 0x2748774c#32, 0x34b0bcb5#32, 0x391c0cb3#32, 0x4ed8aa4a#32, 0x5b9cca4f#32, 0x682e6ff3#32,
   0x748f82ee#32, 0x78a5636f#32, 0x84c87814#32, 0x8cc70208#32, 0x90befffa#32, 0xa4506ceb#32, 0xbef9a3f7#32, 0xc67178f2#32]

/-- The eight working words. -/
structure ShaState where
  a : W32
  b : W32
  c : W32
  d : W32
  e : W32
  f : W32
  g : W32
  h : W32
deriving DecidableEq, Repr

def shaInit : ShaState :=
  ⟨0x6a09e667#32, 0xbb67ae85#32, 0x3c6ef372#32, 0xa54ff53a#32, 0x510e527f#32, 0x9b05688c#32, 0x1f83d9ab#32, 0x5be0cd19#32⟩

def beNat (l : List Byte) : Nat := l.foldl (fun n b => n * 256 + b.toNat) 0

/-- The sixteen big-endian words of a block. -/
def shaWords (blk : List Byte) : List W32 := (List.range 16).map fun i => strictly (beNat ((blk.drop (4 * i)).take 4)) (BitVec.ofNat 32)

/-- The message schedule, newest word first. -/
def shaExtend (w : List W32) : List W32 :=
  let at_ (k : Nat) : W32 := w.getD k 0#32
  let s0 := (at_ 14).rotateRight 7 ^^^ (at_ 14).rotateRight 18 ^^^ ((at_ 14) >>> 3)
  let s1 := (at_ 1).rotateRight 17 ^^^ (at_ 1).rotateRight 19 ^^^ ((at_ 1) >>> 10)
  strictW (at_ 15 + s0 + at_ 6 + s1) (· :: w)

def shaRound (s : ShaState) (kw : W32) : ShaState :=
  let s1 := s.e.rotateRight 6 ^^^ s.e.rotateRight 11 ^^^ s.e.rotateRight 25
  let ch := (s.e &&& s.f) ^^^ (~~~s.e &&& s.g)
  let t1 := s.h + s1 + ch + kw
  let s0 := s.a.rotateRight 2 ^^^ s.a.rotateRight 13 ^^^ s.a.rotateRight 22
  let maj := (s.a &&& s.b) ^^^ (s.a &&& s.c) ^^^ (s.b &&& s.c)
  strictW t1 fun t1 => strictW (t1 + (s0 + maj)) fun a => strictW (s.d + t1) fun e => ⟨a, s.a, s.b, s.c, e, s.e, s.f, s.g⟩

def shaBlock (h : ShaState) (blk : List Byte) : ShaState :=
  let w := ((List.range 48).foldl (fun w _ => shaExtend w) (shaWords blk).reverse).reverse
  let s := (w.zip shaK).foldl (fun s p => shaRound s (p.1 + p.2)) h
  strictW (h.a + s.a) fun a => strictW (h.b + s.b) fun b => strictW (h.c + s.c) fun c => strictW (h.d + s.d) fun d =>
  strictW (h.e + s.e) fun e => strictW (h.f + s.f) fun f => strictW (h.g + s.g) fun g => strictW (h.h + s.h) fun k =>
  ⟨a, b, c, d, e, f, g, k⟩

def beBytes (n : Nat) (k : Nat) : List Byte := (leBytes n k).reverse

/-- The message with its padding. -/
def shaPad (m : List Byte) : List Byte :=
  m ++ [0x80#8] ++ List.replicate ((119 - m.length % 64) % 64) 0#8 ++ beBytes (8 * m.length) 8

/-- n blocks of a padded message. -/
def shaBlocks (h : ShaState) : List Byte → Nat → ShaState
  | _, 0 => h
  | m, n + 1 => shaBlocks (strictBytes (m.take 64) (shaBlock h)) (m.drop 64) n

/-- SHA-256 of a message: 32 bytes. -/
def sha256 (m : List Byte) : List Byte :=
  let p := shaPad m
  let h := shaBlocks shaInit p (p.length / 64)
  [h.a, h.b, h.c, h.d, h.e, h.f, h.g, h.h].flatMap fun w => beBytes w.toNat 4

end Sys2Proof.Machine
end

