-- ==== Sys2Proof/Machine/Curve.lean ====
section
/-! DEFINITION. ECDSA over the curve P-256 (R181, R430, R431; notes/assumptions/10): the curve's numbers, points in Jacobian
coordinates, and the verification of a signature. -/

namespace Sys2Proof.Machine
open Sys2Proof

/-! ## The curve y² = x³ − 3x + b over the field of p, with a base point of order n -/

def curveP : Nat := 0xFFFFFFFF00000001000000000000000000000000FFFFFFFFFFFFFFFFFFFFFFFF
def curveN : Nat := 0xFFFFFFFF00000000FFFFFFFFFFFFFFFFBCE6FAADA7179E84F3B9CAC2FC632551
def curveB : Nat := 0x5AC635D8AA3A93E7B3EBBD55769886BC651D06B0CC53B0F63BCE3C3E27D2604B
def curveX : Nat := 0x6B17D1F2E12C4247F8BCE6E563A440F277037D812DEB33A0F4A13945D898C296
def curveY : Nat := 0x4FE342E2FE1A7F9B8EE7EB4A7C0F9E162BCE33576B315ECECBB6406837BF51F5

/-- a − b in the field of p. -/
def subP (a b : Nat) : Nat := (a + (curveP - b % curveP)) % curveP

/-- A point (x / z², y / z³); z = 0 is the point at infinity. -/
structure Point where
  x : Nat
  y : Nat
  z : Nat
deriving DecidableEq, Repr

def pointOf (x y z : Nat) : Point := strictly (x % curveP) fun x => strictly (y % curveP) fun y => strictly (z % curveP) fun z => ⟨x, y, z⟩

def Point.double (a : Point) : Point :=
  strictly (a.z * a.z % curveP) fun d => strictly (a.y * a.y % curveP) fun g => strictly (a.x * g % curveP) fun b =>
  strictly (3 * (subP a.x d * (a.x + d)) % curveP) fun m => strictly (subP (m * m) (8 * b)) fun x =>
  pointOf x (subP (m * subP (4 * b) x) (8 * (g * g))) (2 * (a.y * a.z))

/-- The sum of two points. -/
def Point.add (a c : Point) : Point :=
  if a.z = 0 then c
  else if c.z = 0 then a
  else
    strictly (a.z * a.z % curveP) fun za => strictly (c.z * c.z % curveP) fun zc =>
    strictly (a.x * zc % curveP) fun u => strictly (a.y * (c.z * zc) % curveP) fun v =>
    strictly (subP (c.x * za) u) fun h => strictly (subP (c.y * (a.z * za)) v) fun r =>
    if h = 0 then (if r = 0 then a.double else ⟨0, 1, 0⟩)
    else
      strictly (h * h % curveP) fun hh => strictly (h * hh % curveP) fun k => strictly (u * hh % curveP) fun t =>
      strictly (subP (r * r) (k + 2 * t)) fun x =>
      pointOf x (subP (r * subP t x) (v * k)) (h * (a.z * c.z))

/-- i · a + j · c, from bit n − 1 of both numbers down. -/
def combine (a c sum : Point) (i j : Nat) : Nat → Point → Point
  | 0, t => t
  | n + 1, t =>
    let d := t.double
    combine a c sum i j n (match i.testBit n, j.testBit n with
      | false, false => d
      | true, false => d.add a
      | false, true => d.add c
      | true, true => d.add sum)

/-- b^e modulo the order of the base point, from bit n − 1 of e down. -/
def powN (b e : Nat) : Nat → Nat → Nat
  | 0, t => t
  | n + 1, t => strictly (t * t % curveN) fun d => strictly (if e.testBit n then d * b % curveN else d) fun t => powN b e n t

/-- A point of the curve in affine coordinates. -/
def onCurve (x y : Nat) : Bool :=
  decide (x < curveP ∧ y < curveP) && y * y % curveP == (x * x * x + (curveP - 3) * x + curveB) % curveP

/-- A signature (r, s) of a hash e verifies under the public key (x, y). -/
def verifies (x y e r s : Nat) : Bool :=
  decide (0 < r ∧ r < curveN ∧ 0 < s ∧ s < curveN) && onCurve x y &&
    (let w := powN s (curveN - 2) 256 1
     let g : Point := ⟨curveX, curveY, 1⟩
     let q : Point := ⟨x, y, 1⟩
     let p := combine g q (g.add q) (e * w % curveN) (r * w % curveN) 256 ⟨0, 1, 0⟩
     p.z != 0 && (p.x == r * (p.z * p.z) % curveP || (decide (r + curveN < curveP) && p.x == (r + curveN) * (p.z * p.z) % curveP)))

/-- ECDSA P-256 over SHA-256: the public key's 64 bytes, QX before QY, the digest and the signature's 64 bytes, R before S; each number
least significant byte first, the digest as the hash gives it. -/
def ecdsaP256 (key digest sig : List Byte) : Bool :=
  verifies (leNat (key.take 32)) (leNat ((key.drop 32).take 32)) (beNat digest) (leNat (sig.take 32)) (leNat ((sig.drop 32).take 32))

end Sys2Proof.Machine
end

