-- ==== Sys2Proof/Config.lean ====
section
/-! DEFINITION. What the manual leaves open, as constants that nothing can evaluate (notes/assumptions/8, 12, 33). A free
value of the machine is one of these applied to the count of free values drawn so far, which the state holds. -/

namespace Sys2Proof.Config
open Sys2Proof Sys2Proof.Machine

/-- A byte that the manual does not fix. -/
opaque freeByte : Nat → Byte

/-- A word that the manual does not fix. -/
opaque freeWord : Nat → W32

/-- A choice that the manual leaves open. -/
opaque freeBit : Nat → Bool

/-- The reduced argument of a transcendental function's operand, in units of 2^−23 (R189 leaves the reduction open). -/
opaque reduced : Trans → W16 → Nat

/-- The H16 result of a transcendental function, from its operand and the F32 value of its table at the reduced argument (R189;
R131 bounds it, notes/assumptions/12). -/
opaque restored : Trans → W16 → W32 → W16

/-- What is proposed for an element of a softmax (false) or an RMS normalisation (true), by the operands of the row and the
element's place; R131 bounds it. -/
opaque freeRow : Bool → List (Int × Int) → Nat → W16

/-- What is proposed in F32 for the sampling noise of a spinner value; R131 bounds it. -/
opaque freeNoise : BitVec 24 → W32

/-- The number that a spinner value stands for in a creation heat's rows, before the plan's scale, as F32 (R170 leaves it open). -/
opaque drawn : BitVec 24 → W32

/-- The first 28 bytes of the rotation record of a region: its layout is left open (R254; notes/assumptions/17). The operands are the
block in progress, the phase, the new slot, and the number of the sweep, which has a scratch page of its own. -/
opaque rotationRecord : Nat → Nat → Nat → Nat → Vector Byte 28

/-- What the plan of a bundle image states of training: no record of an image is laid out for it (R167, R177, R182; notes/assumptions/33). -/
opaque training : List Byte → Training

end Sys2Proof.Config
end

