-- ==== Sys2Proof/Machine/Flags.lean ====
section
/-! DEFINITION. Exact numbers, rounding and clipping, and the classes crab, feather and NaN ("Number Formats and
Rounding", R74 to R97). Formats are named by the codes of R74. -/

namespace Sys2Proof.Machine
open Sys2Proof

/-! ## Exact numbers m · 2^e -/

namespace Dy

def zero : Dy := ⟨0, 0⟩
def ofInt (n : Int) : Dy := ⟨n, 0⟩
def shift (x : Dy) (k : Int) : Dy := ⟨x.m, x.e + k⟩
def neg (x : Dy) : Dy := ⟨-x.m, x.e⟩
def mul (x y : Dy) : Dy := ⟨x.m * y.m, x.e + y.e⟩
def isZero (x : Dy) : Bool := x.m == 0

/-- The integer content in units of 2^e, for e at most the number's own exponent. -/
def units (x : Dy) (e : Int) : Int := x.m * (2 : Int) ^ (x.e - e).toNat

def add (x y : Dy) : Dy := let e := min x.e y.e; ⟨x.units e + y.units e, e⟩
def sub (x y : Dy) : Dy := x.add y.neg
def sum (l : List Dy) : Dy := l.foldl add zero

def lt (x y : Dy) : Bool := decide ((x.sub y).m < 0)
def le (x y : Dy) : Bool := decide ((x.sub y).m ≤ 0)
def abs (x : Dy) : Dy := ⟨x.m.natAbs, x.e⟩

/-- floor(log2 |x|), for x not 0. -/
def log2 (x : Dy) : Int := (Nat.log2 x.m.natAbs : Int) + x.e

/-- round_away of R85: the nearest multiple of 2^e, ties away from zero, in units of 2^e. -/
def round (x : Dy) (e : Int) : Int :=
  if e ≤ x.e then x.units e
  else
    let d := 2 ^ (e - x.e).toNat
    let q : Int := ((2 * x.m.natAbs + d) / (2 * d) : Nat)
    if x.m < 0 then -q else q

end Dy

/-! ## Formats (R74, R79) -/

/-- A floating-point format: fraction bits, exponent bits, bias, and whether the all-ones exponent is special. -/
structure FloatP where
  m : Nat
  eb : Nat
  bias : Nat
  ieee : Bool
deriving DecidableEq, Repr

/-- The parameters of R79, for the floating-point formats E4M3, E5M2, B16, H16 and F32. -/
def floatP : Nat → Option FloatP
  | 5 => some ⟨3, 4, 7, false⟩
  | 6 => some ⟨2, 5, 15, true⟩
  | 8 => some ⟨7, 8, 127, true⟩
  | 9 => some ⟨10, 5, 15, true⟩
  | 10 => some ⟨23, 8, 127, true⟩
  | _ => none

namespace FloatP

def h16 : FloatP := ⟨10, 5, 15, true⟩
def f32 : FloatP := ⟨23, 8, 127, true⟩
def emin (f : FloatP) : Int := 1 - (f.bias : Int)

/-- Code of the largest finite value. -/
def maxCode (f : FloatP) : Nat := if f.ieee then ((2 ^ f.eb - 1) <<< f.m) - 1 else 0x7E

/-- The canonical NaN. -/
def nanCode (f : FloatP) : Nat := if f.ieee then ((2 ^ f.eb - 1) <<< f.m) + 2 ^ (f.m - 1) else 0x7F

/-- The sign bit's place. -/
def signBit (f : FloatP) : Nat := f.m + f.eb

/-- The magnitude of a finite code without its sign (R79). -/
def magnitude (f : FloatP) (c : Nat) : Dy :=
  let b := c >>> f.m
  let fr := c % 2 ^ f.m
  if b = 0 then ⟨fr, f.emin - f.m⟩ else ⟨(2 ^ f.m + fr : Nat), (b : Int) - f.bias - f.m⟩

end FloatP

/-- Bits of an element (R74, R75). -/
def fmtBits : Nat → Nat
  | 0 => 2 | 1 => 3 | 2 => 4 | 3 => 8 | 4 => 8 | 5 => 8 | 6 => 8 | 7 => 16 | 8 => 16 | 9 => 16 | 10 => 32 | _ => 8

/-- The largest magnitude of a symmetric integer format (R76); none for the others. -/
def qmax : Nat → Option Nat
  | 0 => some 1 | 1 => some 3 | 2 => some 7 | 3 => some 127 | 7 => some 32767 | _ => none

/-- A number as an operation takes it: a value, a NaN, or an escape code whose value a side list gives. -/
inductive Num where
  | val (x : Dy) | nan | escape
deriving DecidableEq, Repr

/-- Read a code of a format with zero point z: its number, and whether reading it counts a crab (R76 to R82). -/
def readCode (fmt z c : Nat) : Num × Bool :=
  match floatP fmt with
  | some f =>
    let neg := c.testBit f.signBit
    let mag := c % 2 ^ f.signBit
    let sgn (x : Dy) : Dy := if neg then x.neg else x
    if f.ieee then
      if mag >>> f.m = 2 ^ f.eb - 1 then
        if mag % 2 ^ f.m = 0 then (.val (sgn (f.magnitude f.maxCode)), true) else (.nan, false)
      else (.val (sgn (f.magnitude mag)), false)
    else if mag = 0x7F then (.nan, false) else (.val (sgn (f.magnitude mag)), false)
  | none =>
    match qmax fmt with
    | some _ =>
      let w := fmtBits fmt
      if c % 2 ^ w = 2 ^ (w - 1) then (.escape, false)
      else (.val (.ofInt (if c.testBit (w - 1) then (c % 2 ^ w : Nat) - (2 ^ w : Nat) else (c % 2 ^ w : Nat))), false)
    | none => if fmt = 4 then (.val (.ofInt ((c % 256 : Nat) - (z : Int))), false)
              else if c % 256 = 0x80 then (.val .zero, false)
              else (.val ⟨1, (BitVec.ofNat 8 c).toInt⟩, false)

/-! ## Rounding and clipping (R85 to R88) -/

/-- The class of a written element (R88). -/
inductive Class where
  | plain | crab | feather | nan
deriving DecidableEq, Repr

/-- What a conversion writes for an element: its code, its class, and the value of a side-list entry. -/
structure Written where
  code : Nat
  cls : Class
  side : Option Nat
deriving DecidableEq, Repr

/-- to_float of R85: code and class. -/
def toFloat (f : FloatP) (x : Dy) : Nat × Class :=
  if x.isZero then (0, .plain)
  else
    let k := max f.emin x.log2
    let sp := k - f.m
    let n := (x.round sp).natAbs
    let sg := if x.m < 0 then 2 ^ f.signBit else 0
    if Dy.lt (f.magnitude f.maxCode) ⟨n, sp⟩ then (sg + f.maxCode, .crab)
    else if n = 0 then (0, .feather)
    else (sg + (((k + f.bias).toNat <<< f.m) + n - 2 ^ f.m), .plain)

/-- Rounded once to H16, for a side-list entry (R86, R116). -/
def toSide (x : Dy) : Nat := (toFloat .h16 x).1

/-- to_int of R85 for limits lo and hi: the number r to write (none for the escape code) and its class. -/
def toInt (x : Dy) (lo hi : Int) (room : Bool) : Option Int × Class :=
  let r := x.round 0
  if r < lo ∨ hi < r then (if room then none else some (if r < lo then lo else hi), .crab)
  else if r = 0 ∧ ¬ x.isZero then (some 0, .feather)
  else (some r, .plain)

/-- The code of a number in a two's-complement format of w bits. -/
def intCode (w : Nat) (r : Int) : Nat := (r % (2 ^ w : Nat)).toNat

/-- Convert an exact number to a format (R83 to R89): z is its zero point, room says that a side-list entry is left. -/
def convertTo (fmt z : Nat) (room : Bool) : Num → Written
  | .escape => ⟨0, .plain, none⟩
  | .nan =>
    match floatP fmt with
    | some f => ⟨f.nanCode, .nan, none⟩
    | none => ⟨if fmt = 4 then z else 0, .nan, none⟩
  | .val x =>
    match floatP fmt with
    | some f => let (c, k) := toFloat f x; ⟨c, k, none⟩
    | none =>
      match qmax fmt with
      | some q =>
        match toInt x (-(q : Int)) q room with
        | (some r, k) => ⟨intCode (fmtBits fmt) r, k, none⟩
        | (none, k) => ⟨2 ^ (fmtBits fmt - 1), k, some (toSide x)⟩
      | none =>
        match toInt x (-(z : Int)) (255 - (z : Int)) false with
        | (some r, k) => ⟨(r + z).toNat, k, none⟩
        | (none, k) => ⟨z, k, none⟩

/-! ## Row exponents (R104, R167, R82) -/

/-- An X8 exponent as a number; none for the code 0x80. -/
def x8 (b : Byte) : Option Int := if b = 0x80#8 then none else some b.toInt

/-- The X8 code of an exponent, clamped as R82 gives. -/
def x8Code (e : Int) : Byte := BitVec.ofInt 8 (max (-127) (min 127 e))

/-- Both limits of R104 hold at exponent e. -/
def fits (p n : Dy) (qpos qneg : Nat) (e : Int) : Bool := p.le ⟨qpos, e⟩ && n.le ⟨qneg, e⟩

/-- The search of row_exponent, from e upward. -/
def rowSearch (p n : Dy) (qpos qneg : Nat) (e : Int) : Nat → Int
  | 0 => e
  | k + 1 => if fits p n qpos qneg e then e else rowSearch p n qpos qneg (e + 1) k

/-- The largest positive and the largest negative magnitude of a row; NaN takes no part. -/
def rowSides (row : List Num) : Dy × Dy :=
  row.foldl (fun pn x => match x with
    | .val v => (if pn.1.lt v then v else pn.1, if pn.2.lt v.neg then v.neg else pn.2)
    | _ => pn) (.zero, .zero)

/-- row_exponent of R104: none is the code 0x80. -/
def rowExponent (row : List Num) (qpos qneg : Nat) : Option Int :=
  let (p, n) := rowSides row
  if p.isZero && n.isZero then none else some (rowSearch p n qpos qneg (-127) 254)

/-- The measured exponent of a row for a target format (R104, R167). -/
def measured (fmt z : Nat) (row : List Num) : Option Int :=
  match qmax fmt with
  | some q => rowExponent row q q
  | none =>
    if fmt = 4 then rowExponent row (255 - z) z
    else
      let (p, n) := rowSides row
      let a := if p.lt n then n else p
      if a.isZero then none
      else some (max (-127) (min 127 (a.log2 - (if fmt = 5 then 7 else 14))))

/-! ## Accumulators (R92 to R96) -/

/-- How an accumulator's width limits its content. -/
inductive AccKind where
  | a64 | a96
deriving DecidableEq, Repr

/-- The smallest content of the accumulator's two's complement is −2^63 or −2^95, the largest 1 less than its opposite (R92). -/
def AccKind.bottom : AccKind → Int
  | .a64 => -(2 ^ 63 : Nat)
  | .a96 => -(2 ^ 95 : Nat)

def AccKind.top (k : AccKind) : Int := -k.bottom - 1

/-- The float anchor of R93: E − 64 for the largest magnitude 2^E of the terms. -/
def floatAnchor (terms : List Dy) : Int :=
  let big := terms.foldl (fun b t => if b.lt t.abs then t.abs else b) Dy.zero
  if big.isZero then 0 else big.log2 - 64

/-- The integer content of an accumulator with anchor 2^L after exactly the given terms, each rounded once to the anchor;
saturated by the exact sum, with the overflow mark of R96. DESIGN CHOICE (notes/assumptions/11): the largest magnitude with a
negative sign is the two's-complement one, −2^63 or −2^95. -/
def accumulate (kind : AccKind) (anchor : Int) (terms : List Dy) : Int × Bool :=
  let s := terms.foldl (fun (a : Int) t => a + t.round anchor) 0
  if kind.bottom ≤ s ∧ s ≤ kind.top then (s, false)
  else (if s < 0 then kind.bottom else kind.top, true)

/-! ## Counts (R36, R91, R140) -/

/-- Count one written element of a tensor. -/
def Counts.write (c : Counts) (w : Written) : Counts :=
  { c with
    cw := c.cw + (if w.cls = .crab then 1 else 0)
    sw := c.sw + (if w.side.isSome then 1 else 0)
    fw := c.fw + (if w.cls = .feather then 1 else 0)
    nw := c.nw + 1 }

end Sys2Proof.Machine
end

