-- ==== Sys2Proof/Machine/Text.lean ====
section
/-! DEFINITION. Lines as characters (R337), and the reading of names and numbers (R326, R327). -/

namespace Sys2Proof.Machine
open Sys2Proof

/-! ## Writing -/

def hexDigit (n : Nat) : Char := if n < 10 then Char.ofNat (48 + n) else Char.ofNat (55 + n)

/-- w hexadecimal digits, most significant first, an underscore before every group of four but the first. -/
def hexChars : Nat → Nat → List Char
  | 0, _ => []
  | w + 1, n => hexDigit ((n >>> (4 * w)) % 16) :: (if w % 4 = 0 ∧ w ≠ 0 then '_' :: hexChars w n else hexChars w n)

def intText (i : Int) : String := if i < 0 then "-" ++ toString i.natAbs else toString i.natAbs

/-- Thousandths as a decimal with fraction, without trailing zeros beyond the first place. -/
def milliText (i : Int) : String :=
  let a := i.natAbs
  let f := a % 1000
  let frac := if f % 100 = 0 then toString (f / 100)
    else if f % 10 = 0 then two (f / 10)
    else String.ofList [hexDigit (f / 100), hexDigit (f / 10 % 10), hexDigit (f % 10)]
  (if i < 0 then "-" else "") ++ toString (a / 1000) ++ "." ++ frac

def charsText (l : List Byte) : String := String.ofList (l.map fun b => Char.ofNat b.toNat)

def Val.text : Val → String
  | .bare => ""
  | .dec n => toString n
  | .int i => intText i
  | .hex w n => "0x" ++ String.ofList (hexChars w n)
  | .sym s => s
  | .syms l => if l.isEmpty then "-" else ",".intercalate l
  | .chars l => charsText l
  | .milli i => milliText i
  | .dash => "-"

/-- A field: `name=value`, a bare name, or a bare value when it has no name. -/
def fieldText (f : String × Val) : String :=
  match f.2 with
  | .bare => f.1
  | v => if f.1 = "" then v.text else f.1 ++ "=" ++ v.text

def Mark.text : Mark → String
  | .ok => "+" | .fail => "-" | .data => "=" | .event => "*"

/-- The words of a line in order. -/
def Line.words (l : Line) : List String :=
  [l.mark.text] ++ (if l.head = "" then [] else [l.head]) ++
  (match l.tag with | some t => ["@" ++ charsText t] | none => []) ++ l.fields.map fieldText

/-- A line's characters, without terminator and check. -/
def Line.text (l : Line) : List Byte := ascii (" ".intercalate l.words)

/-- The four hexadecimal digits of a line check with its `~`. -/
def checkChars (l : List Byte) : List Byte := l ++ ascii "~" ++ ascii (String.ofList (hexChars 4 (crc16 l).toNat))

/-! ## Reading -/

def upChar (b : Byte) : Byte := if 0x61 ≤ b.toNat ∧ b.toNat ≤ 0x7A then b - 0x20#8 else b

/-- Upper case (R327). -/
def upper (l : List Byte) : List Byte := l.map upChar

def isDigit (b : Byte) : Bool := decide (0x30 ≤ b.toNat ∧ b.toNat ≤ 0x39)

/-- The value of a digit of a base of at most 16, read in any case. -/
def digitVal (b : Byte) : Option Nat :=
  let u := (upChar b).toNat
  if 0x30 ≤ u ∧ u ≤ 0x39 then some (u - 0x30) else if 0x41 ≤ u ∧ u ≤ 0x46 then some (u - 0x37) else none

/-- Digits of a base, underscores ignored, after at least one digit where `seen` is false. -/
def digits (base : Nat) (seen : Bool) (n : Nat) : List Byte → Option Nat
  | [] => if seen then some n else none
  | b :: r =>
    if b = 0x5F#8 then digits base seen n r
    else match digitVal b with
      | some d => if d < base then digits base true (n * base + d) r else none
      | none => none

/-- A decimal without sign: an underscore only after the first digit (R326). -/
def decimal (l : List Byte) : Option Nat :=
  match l with
  | b :: _ => if isDigit b then digits 10 false 0 l else none
  | [] => none

/-- A number: decimal with sign, hexadecimal or binary (R326). -/
def number (l : List Byte) : Option Int :=
  match l with
  | 0x2D#8 :: r => (decimal r).map fun n => -(n : Int)
  | 0x30#8 :: x :: r =>
    if upChar x = 0x58#8 then (digits 16 false 0 r).map Int.ofNat
    else if upChar x = 0x42#8 then (digits 2 false 0 r).map Int.ofNat
    else (decimal l).map Int.ofNat
  | _ => (decimal l).map Int.ofNat

/-- A number, or why it is none: beyond 64 bits is E.RANGE. -/
def numberOr (l : List Byte) : Except Err Int :=
  match number l with
  | none => .error .syntaxErr
  | some i => if i < -(2 ^ 63 : Nat) ∨ (2 ^ 64 : Nat) ≤ i then .error .range else .ok i

def natOr (l : List Byte) : Except Err Nat := do
  let i ← numberOr l
  if i < 0 then .error .range else .ok i.toNat

/-- Split at every byte of a kind; the parts between are kept, empty ones too. -/
def splitAll (p : Byte → Bool) : List Byte → List (List Byte)
  | [] => [[]]
  | b :: r =>
    match splitAll p r with
    | h :: t => if p b then [] :: h :: t else (b :: h) :: t
    | [] => [[b]]

def isSpace (b : Byte) : Bool := b == 0x20#8 || b == 0x09#8

/-- The tokens of a line (R325). -/
def tokens (l : List Byte) : List (List Byte) := (splitAll isSpace l).filter fun t => !t.isEmpty

/-- Text equal to a word, in any case. -/
def isWord (l : List Byte) (w : String) : Bool := upper l == ascii w

/-- What follows a prefix, in any case. -/
def after? (w : String) (l : List Byte) : Option (List Byte) :=
  let p := ascii w
  if upper (l.take p.length) = p then some (l.drop p.length) else none

/-- The index of a name: decimal digits alone (R326). -/
def index? (l : List Byte) : Option Nat := if l.all isDigit then decimal l else none

/-- A name with a decimal index: `L1`, `T0517`, `S05`. -/
def indexed (w : String) (l : List Byte) : Option Nat := (after? w l).bind index?

/-- A decimal with a fraction, as its digits and how many stand after the point; it takes no underscore (R326). -/
def fraction (l : List Byte) : Option (Nat × Nat) :=
  match l.idxOf? 0x2E#8 with
  | some i =>
    let w := l.take i
    let f := l.drop (i + 1)
    if w.isEmpty || f.isEmpty then none else (index? (w ++ f)).map fun n => (n, f.length)
  | none => (index? l).map fun n => (n, 0)

/-- Part of a token before and after its first `=`. -/
def splitEq (l : List Byte) : Option (List Byte × List Byte) :=
  match l.idxOf? 0x3D#8 with
  | some i => some (l.take i, l.drop (i + 1))
  | none => none

/-- Part of a token before and after its first occurrence of a byte. -/
def splitOnce (b : Byte) (l : List Byte) : Option (List Byte × List Byte) :=
  match l.idxOf? b with
  | some i => some (l.take i, l.drop (i + 1))
  | none => none

end Sys2Proof.Machine
end

