-- ==== Sys2Proof/Machine/Time.lean ====
section
/-! DEFINITION. Time: REF ticks and SLOW edges (R387, R455), and what counts with them (R367, R459, R460;
notes/assumptions/2, 3, 39). -/

namespace Sys2Proof.Machine
open Sys2Proof

/-- A running channel counts up to PERIOD, where it returns to 0 and its period event falls due (R459). -/
def TmrChan.advance (n : Nat) (c : TmrChan) : TmrChan :=
  if c.running && !(c.period == 0#32) then
    { c with count := w32 (Nat.min (c.count.toNat + n) c.period.toNat) }
  else c

/-- The count as it reads: 0 at the edge at which the period event is due. -/
def TmrChan.shown (c : TmrChan) : W32 := if c.running && c.count == c.period then 0#32 else c.count

/-- The timer block after n ticks. -/
def Tmr.advance (n : Nat) (t : Tmr) : Tmr :=
  { t with chan := t.chan.map (TmrChan.advance n), pulseLeft := t.pulseLeft - n }

/-- SLOW edges in n more ticks of the exact 8 / 9,375 divider, and its remainder. -/
def Clocks.edges (c : Clocks) (n : Nat) : Nat × Nat := ((c.slowDiv + 8 * n) / 9375, (c.slowDiv + 8 * n) % 9375)

/-- SLOW edges pass: the count, and the lease unless the fabric is stopped below its floor (R367, R403). -/
def State.slowEdges (s : State) (k : Nat) : State :=
  { s with
    clk := { s.clk with slow := s.clk.slow + w32 k }
    host := if s.host.leaseActive && !s.rail.floor then { s.host with leaseLeft := s.host.leaseLeft - k } else s.host }

/-- SLOW keeps its own crystal while REF ticks come from the ring oscillator (R31). -/
def Clocks.drifts (c : Clocks) : Bool := c.degraded && !c.absent.getLsbD Clk.slow.val

/-- Thousandths of nominal time that a drifting tick takes: nothing fixes it within the ±10 % of R31. -/
def drift (x : Nat) : Nat := 910 + (Config.freeWord x).toNat % 202

/-- REF ticks and SLOW edges go on together. -/
def passes (ticks edges left : Nat) (s : State) : State :=
  ({ s with clk := { s.clk with tick := s.clk.tick + BitVec.ofNat 64 ticks, slowDiv := left }, tmr := s.tmr.advance ticks }).slowEdges edges

/-- n REF ticks pass. -/
def elapse (n : Nat) (s : State) : State :=
  if s.clk.drifts then
    let (x, s) := draw s
    let e := (s.clk.slowDiv * 1000 + 8 * n * drift x) / 1000
    passes n (e / 9375) (e % 9375) s
  else
    let e := s.clk.edges n
    passes n e.1 e.2 s

/-- k ticks of the steady count pass (R31). -/
def elapseSteady (k : Nat) (s : State) : State :=
  if s.clk.drifts then
    let (x, s) := draw s
    let e := s.clk.edges k
    passes ((1000 * k + drift x - 1) / drift x) e.1 e.2 s
  else elapse k s

/-- Time passes until a REF tick, if it lies ahead. -/
def elapseTo (t : Nat) (s : State) : State := elapse (t - s.clk.tick.toNat) s

/-- Time passes until the lease has run out (R367). -/
def elapseSlow (k : Nat) (s : State) : State :=
  if s.clk.drifts then
    let (x, s) := draw s
    passes (((9375 * k - s.clk.slowDiv) * 1000 + 8 * drift x - 1) / (8 * drift x)) k 0 s
  else elapse ((9375 * k - s.clk.slowDiv + 7) / 8) s

end Sys2Proof.Machine
end

