-- ==== Sys2Proof/Machine/Rings.lean ====
section
/-! DEFINITION. Mailbox memory, envelopes, rings, doorbells and the lease (R360 to R367). -/

namespace Sys2Proof.Machine
open Sys2Proof

/-! ## Mailbox memory (R360) -/

/-- Mailbox memory is Boathouse bank 63. -/
def mailboxBase : Nat := 63 * 0x80000

def mailRead (s : State) (a n : Nat) : List Byte := s.mem.bh.range (mailboxBase + a) n

def mailWrite (s : State) (a : Nat) (l : List Byte) : State :=
  { s with mem := { s.mem with bh := s.mem.bh.put (mailboxBase + a) l } }

def sqSlot (ring : LaneId) (count : W16) : Nat := 0x1C000 * ring.val + 320 * (count.toNat % 64)
def cqSlot (ring : LaneId) (count : W16) : Nat := 0x1C000 * ring.val + 0x5000 + 320 * (count.toNat % 256)

/-- Slots of event ring k: 128 for L0's, 64 for the host's. -/
def evSize (k : Fin 2) : Nat := if k = 0 then 128 else 64
def evSlot (k : Fin 2) (count : W16) : Nat := (if k = 0 then 0x70000 else 0x7A000) + 320 * (count.toNat % evSize k)

/-! ## Envelopes (R361) -/

def envMagic : Nat := 0x4C4C4143

def EnvKind.code : EnvKind → Byte
  | .call => 1#8 | .reply => 2#8 | .completion => 3#8 | .event => 4#8

/-- An envelope with up to 256 bytes of text. -/
def envelope (lane : LaneId) (k : EnvKind) (more : Bool) (seq : W32) (text : List Byte) : List Byte :=
  let head := leBytes envMagic 4 ++ [1#8, 0#8] ++ leBytes text.length 2 ++ [BitVec.ofNat 8 lane.val, k.code,
    if more then 1#8 else 0#8, 0#8] ++ leBytes seq.toNat 4 ++ List.replicate 12 0#8
  head ++ leBytes (crc32 (head ++ text)).toNat 4 ++ text

/-- A text cut into pieces of 256 characters. -/
def pieces : Nat → List Byte → List (List Byte)
  | 0, _ => []
  | n + 1, l => if l.length ≤ 256 then [l] else l.take 256 :: pieces n (l.drop 256)

/-- The envelopes of one line: every one but the last has MORE set (R364). -/
def envelopes (lane : LaneId) (k : EnvKind) (seq : W32) (text : List Byte) : List (List Byte) :=
  let ps := pieces (text.length / 256 + 1) text
  ps.zipIdx.map fun p => envelope lane k (p.2 + 1 != ps.length) seq p.1

/-- Why a call envelope is refused (R362), or its text. -/
def openEnvelope (ring : LaneId) (e : List Byte) : Except (Err × List String) (List Byte) :=
  let len := leNat ((e.drop 6).take 2)
  let text := (e.drop 32).take len
  if e.getD 4 0#8 ≠ 1#8 then .error (.ver, [])
  else if leNat (e.take 4) = envMagic ∧ e.getD 9 0#8 = 1#8 ∧ 1 ≤ len ∧ len ≤ 256 ∧ e.getD 8 0#8 = BitVec.ofNat 8 ring.val ∧
      (e.getD 10 0#8).getLsbD 0 = false then
    if leNat ((e.drop 28).take 4) = (crc32 (e.take 28 ++ text)).toNat then .ok text else .error (.syntaxErr, ["check"])
  else .error (.syntaxErr, ["envelope"])

/-! ## Counts (R363) -/

/-- Entries that a ring holds. -/
def held16 (tail head : W16) : Nat := (tail - head).toNat

/-- A head write is valid when it moves the head forward by no more than the entries held. -/
def headValid (tail head new : W16) : Bool := decide ((new - head).toNat ≤ held16 tail head)

/-- A doorbell is valid when the new tail lies no more than 64 ahead of the head and not behind the old tail. -/
def tailValid (tail head new : W16) : Bool := decide ((new - head).toNat ≤ 64 ∧ held16 tail head ≤ (new - head).toNat)

/-- An invalid index write: ERR in the ring's control register and in HOST_IRQ. -/
def ringError (ring : LaneId) (s : State) : State := (s.setRing ring fun r => { r with err := true }).irq 7

/-! ## The lease (R367) -/

/-- The lease has a full period, while it is active. -/
def leaseRenew (s : State) : State :=
  if s.host.leaseActive then { s with host := { s.host with leaseLeft := msSlow s.host.period.toNat } } else s

/-- The host link gains a lane: the lease starts when it owns none before. -/
def leaseStart (s : State) : State :=
  if s.host.leaseActive then s
  else leaseRenew { s with host := { s.host with leaseActive := true, leaseLapsed := false } }

/-- The host link owns no lane any more: the lease ends. -/
def leaseCheck (s : State) : State :=
  if s.lanes.any fun l => l.owner == .host then s
  else { s with host := { s.host with leaseActive := false, leaseLeft := 0 } }

/-! ## Doorbells -/

/-- The host writes RINGn_SQ_TAIL (R363, R359, R365). -/
def doorbell (ring : LaneId) (tail : W16) (s : State) : State :=
  let r := s.host.ring[ring]
  if r.resetReq then s
  else if !s.start.banner then s.setRing ring fun r => { r with latched := some tail }
  else if tailValid r.sqTail r.sqHead tail then leaseRenew (s.setRing ring fun r => { r with sqTail := tail })
  else ringError ring s

def execDoorbell (ring : LaneId) (tail : W16) (s : State) : Host.Outcome State Fault Refusal := .next (doorbell ring tail s)

/-- The doorbells latched before the banner (R359, R411 step 14). -/
def latchedDoorbells (s : State) : State :=
  (List.finRange 4).foldl (fun s n =>
    match s.host.ring[n].latched with
    | some t => doorbell n t (s.setRing n fun r => { r with latched := none })
    | none => s) s

/-! ## Writing entries (R364, R366) -/

/-- The completion of heat q has been delivered; one delivered again leaves what was delivered after it as it is (R221). -/
def Lane.show (L : Lane) (q : W32) : Lane := if (q + 1#32 - L.shown).toNat < 2 ^ 31 then { L with shown := q + 1#32 } else L

/-- Write envelopes to consecutive slots. -/
def putSlots (slot : W16 → Nat) (tail : W16) (s : State) : List (List Byte) → State
  | [] => s
  | e :: r => putSlots slot (tail + 1#16) (mailWrite s (slot tail) e) r

/-- The reply of the envelope of count k is complete: the head moves past every envelope whose reply is (R363). -/
def Ring.ends (k : Option W16) (r : Ring) : Ring :=
  if k.isSome && (r.busy == k || r.waits.any fun w => some w == k) then
    let busy := if r.busy = k then none else r.busy
    let waits := r.waits.filter fun w => some w != k
    { r with busy := busy, waits := waits, sqHead := (waits.head?.orElse fun _ => busy).getD r.taken }
  else r

/-- The next waiting entry goes into completion ring n, once there is room for it. -/
def completionWrite (ring : LaneId) (s : State) : State :=
  let r := s.host.ring[ring]
  match r.out with
  | [] => s
  | e :: rest =>
    let es := envelopes ring e.kind e.seq e.line.text
    if 256 < held16 r.cqTail r.cqHead + es.length then s
    else
      let s := putSlots (cqSlot ring) r.cqTail s es
      let tail := r.cqTail + BitVec.ofNat 16 es.length
      let s := if e.kind = .completion then s.setLane ring fun L => L.show e.seq else s
      (s.setRing ring fun (r : Ring) => Ring.ends e.last { r with
        cqTail := tail
        out := rest
        dones := if e.kind = .completion then r.dones ++ [(tail, e.seq)] else r.dones }).irq ⟨ring.val, by omega⟩

def execCompletionRingWrite (ring : LaneId) (s : State) : Host.Outcome State Fault Refusal := .next (completionWrite ring s)

/-- Event ring k has a free slot, and nothing waits for it: until then the sources hold what waits (R364). -/
def State.evRoom (s : State) (k : Fin 2) : Bool :=
  s.host.ev[k].out.isEmpty && decide (held16 s.host.ev[k].tail s.host.ev[k].head < evSize k)

/-- The next waiting event line goes into event ring k, once there is room for it. -/
def eventWrite (k : Fin 2) (s : State) : State :=
  let r := s.host.ev[k]
  match r.out with
  | [] => s
  | l :: rest =>
    let es := envelopes 0 .event 0#32 l.text
    if s.host.evctl.getLsbD k.val && decide (held16 r.tail r.head + es.length ≤ evSize k) then
      let s := putSlots (evSlot k) r.tail s es
      ({ s with host := { s.host with ev := upd s.host.ev k fun r =>
        { r with tail := r.tail + BitVec.ofNat 16 es.length, out := rest } } }).irq ⟨4 + k.val, by omega⟩
    else s

def execEventRingWrite (k : Fin 2) (s : State) : Host.Outcome State Fault Refusal := .next (eventWrite k s)

/-- The host writes EVk_HEAD (R363); an invalid write is ignored and sets HOST_IRQ.ERR. -/
def evHeadWrite (k : Fin 2) (head : W16) (s : State) : State :=
  let r := s.host.ev[k]
  if headValid r.tail r.head head then { s with host := { s.host with ev := upd s.host.ev k fun r => { r with head := head } } }
  else s.irq 7

def execEvHeadWrite (k : Fin 2) (head : W16) (s : State) : Host.Outcome State Fault Refusal := .next (evHeadWrite k head s)

/-- The ring pair's counts are 0, and every unread entry is discarded. -/
def Ring.zeroed (r : Ring) : Ring :=
  { r with
    sqTail := 0#16, sqHead := 0#16, cqTail := 0#16, cqHead := 0#16, taken := 0#16, busy := none, waits := [], out := []
    dones := [], resetReq := false }

/-- The ring pair starts again, and no WAIT that came through it has a reply any more (R365). -/
def State.ringZero (s : State) (ring : LaneId) : State :=
  ({ s with host := { s.host with waits := s.host.waits.filter fun w => w.caller.ring != ring } }).setRing ring Ring.zeroed

/-- RINGn_CTRL.RESET takes effect once the envelope being processed has its reply (R365). -/
def ringReset (ring : LaneId) (s : State) : State :=
  let r := s.host.ring[ring]
  if r.resetReq && (r.busy.isNone || r.out.any fun e => e.last == r.busy) then s.ringZero ring
  else s

def execRingReset (ring : LaneId) (s : State) : Host.Outcome State Fault Refusal := .next (ringReset ring s)

end Sys2Proof.Machine
end

