-- ==== Sys2Proof/Machine/Heats.lean ====
section
/-! DEFINITION. Heats and their journal: blocks and states (R214, R227), restarts (R218, R222), completions and their
delivery (R223 to R225, R345). -/

namespace Sys2Proof.Machine
open Sys2Proof

/-! ## The journal (R227, R228) -/

/-- The block that holds sequence number q, if it still holds it. -/
def Lane.block (L : Lane) (q : W32) : Option HeatBlock :=
  match Tab.get? L.journal (q.toNat % 128) with
  | some b => if b.seq = q then some b else none
  | none => none

def Lane.setBlock (L : Lane) (q : W32) (f : HeatBlock → HeatBlock) : Lane :=
  let b := (L.block q).getD { seq := q, accept := none, stats := none, retire := none }
  { L with journal := Tab.set L.journal (q.toNat % 128) (f b) }

def Lane.acceptOf (L : Lane) (q : W32) : Option AcceptRec := (L.block q).bind (·.accept)
def Lane.retireOf (L : Lane) (q : W32) : Option RetireRec := (L.block q).bind (·.retire)

/-- Sequence numbers from OLDEST to NEXT − 1; at most 128 (R227). -/
def Lane.seqs (L : Lane) : List W32 :=
  (List.range (Nat.min 128 (L.next - L.oldest).toNat)).map fun k => L.oldest + w32 k

/-- Held completions, oldest first (R224). -/
def Lane.heldSeqs (L : Lane) : List W32 := L.seqs.filter fun q => (L.retireOf q).isSome

/-- A sequence number lies from OLDEST to NEXT − 1. -/
def Lane.unreleased (L : Lane) (q : W32) : Bool := decide ((q - L.oldest).toNat < (L.next - L.oldest).toNat)

def Lane.run (L : Lane) (q : W32) : Option HeatRun := L.runs.find? fun r => r.seq == q

def Lane.setRun (L : Lane) (q : W32) (f : HeatRun → HeatRun) : Lane :=
  { L with runs := L.runs.map fun r => if r.seq = q then f r else r }

def State.setRun (s : State) (l : LaneId) (q : W32) (f : HeatRun → HeatRun) : State := s.setLane l fun L => L.setRun q f

/-- Heats of the lane that are RUNNING (R214). -/
def Lane.running (L : Lane) : Nat := (L.runs.filter (·.started)).length

/-- Completions that are held, or that a heat which runs or has failed is to add (R217, R224). -/
def Lane.owes (L : Lane) : Nat := L.heldSeqs.length + (L.runs.filter fun r => r.started || r.failed.isSome).length

/-- The state of heat q from its block (R214); none where the block no longer holds it. -/
def Lane.heatState (L : Lane) (q : W32) : Option HeatSt :=
  match L.block q with
  | none => none
  | some b =>
    if b.retire.isSome then some (if L.unreleased q then .retired else .taken)
    else if b.accept.isNone then none
    else some (if (L.run q).any (·.started) then .running else .accepted)

def HeatSt.text : HeatSt → String
  | .accepted => "ACCEPTED" | .running => "RUNNING" | .retired => "RETIRED" | .taken => "TAKEN"

/-! ## Bundles and entries -/

/-- A bundle that heats can run from (R204, R381). -/
def Bundle.live (b : Bundle) : Bool := b.st == .loaded || b.st == .damaged

def State.entry (s : State) (h : Fin 16) (n : Nat) : Option Entry :=
  let b := s.bundle h
  if b.live then b.plan.entries.find? fun e => e.number == n else none

/-- The plan entry of an accepted heat. -/
def State.entryOf (s : State) (l : LaneId) (q : W32) : Option Entry :=
  match (s.lane l).acceptOf q with
  | some a => s.entry a.handle a.entry
  | none => none

/-- Byte ranges of a heat's regions of a kind: 0 inputs, 1 outputs. -/
def regionsOf (e : Entry) (args : List HeatArg) (kind : Nat) : List (Nat × Nat) :=
  (e.args.zip args).filterMap fun p => match p.2 with
    | .region a n => if p.1.kind.val = kind then some (a, 64 * n) else none
    | _ => none

/-- The output regions of heat q; every region, where its bundle no longer says which are its outputs. -/
def State.outputsOf (s : State) (l : LaneId) (q : W32) : List (Nat × Nat) :=
  match (s.lane l).acceptOf q, s.entryOf l q with
  | some a, some e => regionsOf e a.args 1
  | some a, none => a.args.filterMap fun x => match x with | .region a n => some (a, 64 * n) | _ => none
  | none, _ => []

/-! ## Relations (R216) -/

def overlap (a b : List (Nat × Nat)) : Bool := a.any fun x => b.any fun y => decide (x.1 < y.1 + y.2 ∧ y.1 < x.1 + x.2)

/-- How a heat stands to an earlier one: reads after it, and overwrites it or shares tallies with it. -/
def relation (e : Entry) (args : List HeatArg) (e0 : Option Entry) (args0 : List HeatArg) : Bool × Bool :=
  match e0 with
  | some e0 =>
    (overlap (regionsOf e args 0) (regionsOf e0 args0 1),
     overlap (regionsOf e args 1) (regionsOf e0 args0 0 ++ regionsOf e0 args0 1) || (e.tallies &&& e0.tallies) != 0#256)
  | none => (false, true)

/-- The heats of a list that a heat reads after, and those that it waits for. -/
def relationsTo (l : LaneId) (e : Entry) (args : List HeatArg) (rs : List HeatRun) (s : State) : List W32 × List W32 :=
  let rel (r : HeatRun) : Bool × Bool := match (s.lane l).acceptOf r.seq with
    | some a => relation e args (s.entryOf l r.seq) a.args
    | none => (false, false)
  ((rs.filter fun r => (rel r).1).map (·.seq), (rs.filter fun r => (rel r).2).map (·.seq))

/-- The heats of a lane that a new one reads after, and those that it waits for. -/
def relations (l : LaneId) (e : Entry) (args : List HeatArg) (s : State) : List W32 × List W32 :=
  relationsTo l e args (s.lane l).runs s

/-- Once its bundle is loaded again, what a heat that has not started waits for follows again from the arguments and the entries
(R204, R216; notes/assumptions/26). -/
def relateRun (l : LaneId) (r : HeatRun) (s : State) : HeatRun :=
  match r.started, (s.lane l).acceptOf r.seq, s.entryOf l r.seq with
  | false, some a, some e =>
    let x := relationsTo l e a.args ((s.lane l).runs.takeWhile fun k => k.seq != r.seq) s
    { r with after := x.1, behind := x.2 }
  | _, _, _ => r

def relateRuns (s : State) : State :=
  { s with lanes := mapIdx s.lanes fun l (L : Lane) => { L with runs := L.runs.map fun r => relateRun l r s } }

/-! ## Lane records (R229, R230) -/

def Lane.record (L : Lane) : LaneRec := { st := L.st, owner := L.owner, prio := L.prio, oldest := L.oldest, hc := L.hc }

/-- A change of a lane that its record shows: the record before it is kept until the new one has passed its check. -/
def State.bookLane (s : State) (l : LaneId) (f : Lane → Lane) : State := s.setLane l fun L => { f L with prev := some L.record }

/-- The lane's last record counts as never written: the one before it is in force again (R230, R374; notes/assumptions/23). -/
def Lane.unwritten (L : Lane) : Lane :=
  match L.prev with
  | some p => { L with st := p.st, owner := p.owner, prio := p.prio, oldest := p.oldest, hc := p.hc, prev := none }
  | none => L

/-- The place of the next acceptance in the order over all lanes (R19). -/
def State.nextOrd (s : State) : Nat := 1 + (s.lanes.toList.flatMap fun L => L.runs.map (·.ord)).foldl Nat.max 0

/-! ## Tallies of a heat (R64, R370) -/

/-- The allocated tallies are set to 0, and the host tally to what the host has added since the acceptance. -/
def State.zeroTallies (s : State) (l : LaneId) (a : AcceptRec) (e : Entry) : State :=
  (List.range 256).foldl (fun s k =>
    if e.tallies.getLsbD k then
      s.tallySet (laneTally l k) (if e.hostAdd && e.htal.toNat == k then (s.lane l).hc - a.hcAcc else 0#32)
    else s) s

/-! ## Restart (R218, R222) -/

/-- The shells of a heat stop at a stroke boundary; their transfers end. -/
def Shell.stop (l : LaneId) (x : Shell) : Shell :=
  { x with running := none, ended := true, inbound := [], outbound := [], streams := [], lastLane := some l }

def State.stopShells (s : State) (l : LaneId) (q : W32) : State :=
  let mine (i : ShellId) : Bool := s.shells[i].running == some (l, q)
  { s with
    shells := s.shells.map fun x => if x.running = some (l, q) then x.stop l else x
    mem := { s.mem with
      decoder := s.mem.decoder.map fun d => if d.busy.any fun r => mine r.shell then { d with busy := none, loading := false } else d
      decQueue := s.mem.decQueue.filter fun r => !mine r.shell } }

/-- What a run has gathered is discarded (R143, R218); exponents, adapter version and spinner key stay. -/
def HeatRun.again (r : HeatRun) : HeatRun :=
  { r with
    st := .waiting, open_ := [], since := none, runTicks := 0, strokes := [], attempt := [], attemptOvf := false, committed := {}
    crabPass := [], featherPass := [], mhi := [], sides := [], altMap := 0#128, passes := [], i16n := 0, h16n := 0, widened := false
    rerun := false, nan := false, accOvf := false, writeFailed := false }

/-- One more restart cause; the eighth completes the heat with FAULTED. -/
def HeatRun.restart (r : HeatRun) : HeatRun :=
  if r.restarts = 7 then { r.again with st := .ended, failed := some .faulted }
  else { r.again with restarts := r.restarts + 1 }

/-- One heat restarts whole: its shells stop, its counts are discarded, its tallies are zeroed. -/
def restartOne (l : LaneId) (q : W32) (s : State) : State :=
  let s := (s.stopShells l q).setRun l q fun r => (r.pause s.steady).restart
  match (s.lane l).acceptOf q, s.entryOf l q with
  | some a, some e => s.zeroTallies l a e
  | _, _ => s

/-- The heats that restart with heat q: those in the list that have started and read after one that restarts. -/
def restartSet (q : W32) (runs : List HeatRun) : List W32 :=
  runs.foldl (fun done r =>
    if r.seq = q then done
    else if r.started && r.failed.isNone && r.after.any done.contains then done ++ [r.seq] else done) [q]

/-- Heat q of lane l meets a restart cause (R218): it restarts, and so does every started heat that reads after it. -/
def restartHeat (l : LaneId) (q : W32) (s : State) : State :=
  match (s.lane l).run q with
  | some r =>
    if r.started && r.failed.isNone then (restartSet q (s.lane l).runs).foldl (fun s k => restartOne l k s) s else s
  | none => s

/-- The heat that runs on a shell restarts. -/
def restartShell (i : ShellId) (s : State) : State :=
  match (s.shell i).running with
  | some (l, q) => restartHeat l q s
  | none => s

/-- Every running heat restarts that a condition holds of. -/
def restartWhere (p : LaneId → HeatRun → Bool) (s : State) : State :=
  (List.finRange 4).foldl (fun s l =>
    ((s.lane l).runs.filter fun r => p l r).foldl (fun s r => restartHeat l r.seq s) s) s

/-! ## Completions (R223, R345) -/

def Status.text : Status → String
  | .ok => "OK" | .noAdapt => "NOADAPT" | .deadline => "DEADLINE" | .faulted => "FAULTED" | .noShell => "NOSHELL"
  | .inputGone => "INPUTGONE" | .discarded => "DISCARDED"

def Status.code : Status → Nat
  | .ok => 0 | .noAdapt => 1 | .deadline => 2 | .faulted => 3 | .noShell => 4 | .inputGone => 5 | .discarded => 6

/-- Its outputs are committed. -/
def Status.commits (s : Status) : Bool := s == .ok || s == .noAdapt

/-- The flags of a completion, in the order of R345. -/
def RetireRec.flagNames (r : RetireRec) : List String :=
  (if r.widened then ["WIDENED"] else []) ++ (if r.rerun then ["RERUN"] else []) ++ (if r.nan then ["NAN"] else []) ++
  (if r.accOvf then ["ACCOVF"] else []) ++ (if r.adaptOff then ["ADAPT_OFF"] else []) ++ (if r.late then ["LATE"] else [])

/-- The alternative map: each span that ran (R154). -/
def altNames (m : BitVec 128) : List String :=
  (List.range 64).filterMap fun k =>
    match (m.toNat >>> (2 * k)) % 4 with
    | 1 => some (toString k ++ ":P")
    | 2 => some (toString k ++ ":I16")
    | 3 => some (toString k ++ ":H16")
    | _ => none

/-- The completion fields in the order of R345. -/
def completionFields (a : AcceptRec) (t : StatsRec) (r : RetireRec) : List (String × Val) :=
  [symF "status" r.status.text, ("flags", .syms r.flagNames), decF "var" (16 - 2 * r.variant.val), decF "restarts" r.restarts,
   ("ad", match a.adSlot with | some n => .sym (toString n.val ++ "/" ++ toString r.adVer.toNat) | none => .dash),
   decF "cw" t.counts.cw, decF "sw" t.counts.sw, decF "fw" t.counts.fw, decF "nw" t.counts.nw, decF "cr" t.counts.cr,
   decF "ca" t.counts.ca, decF "i16" r.i16n, decF "h16" r.h16n, ("alt", .syms (altNames t.altMap)),
   decF "tacc" a.tAcc.toNat, decF "tret" r.tRet.toNat]

def tagField (tag : List Byte) : List (String × Val) := if tag.isEmpty then [] else [("", .chars (ascii "@" ++ tag))]

/-- The completion of heat q, where it is held. -/
def Lane.completion (L : Lane) (q : W32) : Option (AcceptRec × StatsRec × RetireRec) :=
  match L.block q with
  | some b =>
    match b.accept, b.retire with
    | some a, some r => some (a, b.stats.getD { counts := {}, altMap := 0#128 }, r)
    | _, _ => none
  | none => none

/-- Deliver the completion of heat q to the lane's owner (R224, R364): the engine consumes it, the Call line gets `* DONE`,
the host link a completion entry; without an owner it is held. -/
def deliver (l : LaneId) (q : W32) (s : State) : State :=
  match (s.lane l).completion q with
  | none => s
  | some (a, t, r) =>
    let head := [laneF l, ("", .dec q.toNat)] ++ tagField a.tag
    match (s.lane l).owner with
    | .nobody => s
    | .engine => s.setLane l fun L => { L.show q with oldest := q + 1#32 }
    | .call => (s.setLane l fun L => L.show q).raise (.evt "DONE" (head ++ [bareF r.status.text]))
    | .host => s.setRing l fun x => { x with
        out := x.out ++ [{ kind := .completion, seq := q, line := .evt "DONE" (head ++ completionFields a t r), last := none }] }

/-- Every held completion is delivered again, from the oldest (R225). -/
def redeliver (l : LaneId) (s : State) : State := (s.lane l).heldSeqs.foldl (fun s q => deliver l q s) s

/-- Completion q and every older one of the lane are released (R224). -/
def Lane.release (L : Lane) (q : W32) : Lane := if L.unreleased q then { L with oldest := q + 1#32 } else L

def State.releaseTo (s : State) (l : LaneId) (q : W32) : State := s.bookLane l fun L => L.release q

/-- The host moves RINGn_CQ_HEAD: completions whose last slot it passes are released (R363, R365), while the host owns the lane (R207). -/
def cqHeadWrite (ring : LaneId) (head : W16) (s : State) : State :=
  let r := s.host.ring[ring]
  if headValid r.cqTail r.cqHead head then
    let passed (t : W16) : Bool := decide ((t - r.cqHead).toNat ≤ (head - r.cqHead).toNat)
    let s := s.setRing ring fun r => { r with cqHead := head, dones := r.dones.filter fun d => !passed d.1 }
    if (s.lane ring).owner = .host then (r.dones.filter fun d => passed d.1).foldl (fun s d => s.releaseTo ring d.2) s else s
  else ringError ring s

def execCqHeadWrite (ring : LaneId) (head : W16) (s : State) : Host.Outcome State Fault Refusal := .next (cqHeadWrite ring head s)

/-! ## Host count (R370) -/

/-- Running heats of the lane with a host tally see a host add at once. -/
def hostTallies (l : LaneId) (amt : Nat) (s : State) : State :=
  ((s.lane l).runs.filter (·.started)).foldl (fun s r =>
    match s.entryOf l r.seq with
    | some e => if e.hostAdd then s.tallyAdd (laneTally l e.htal.toNat) amt else s
    | none => s) s

/-- A write to RINGn_TADD that does not count: TADDREF and HOST_IRQ.ERR. -/
def taddRefused (ring : LaneId) (s : State) : State := (s.setRing ring fun r => { r with taddRef := true }).irq 7

/-- The host link writes RINGn_TADD. -/
def tadd (ring : LaneId) (amt : W16) (s : State) : State :=
  let L := s.lane ring
  if L.owner = .host ∧ L.st = .opened then
    hostTallies ring amt.toNat (s.bookLane ring fun L => { L with hc := L.hc + amt.setWidth 32 })
  else taddRefused ring s

def execTadd (ring : LaneId) (amt : W16) (s : State) : Host.Outcome State Fault Refusal := .next (tadd ring amt s)

/-! ## Lapse of the lease (R368) -/

/-- The host-owned lanes. -/
def State.hostLanes (s : State) : List LaneId := (List.finRange 4).filter fun l => (s.lane l).owner == .host

/-- A host-owned lane becomes ORPHANED. -/
def Lane.orphan (L : Lane) : Lane :=
  if L.owner = .host then { L with st := .orphaned, owner := .nobody, prev := some L.record } else L

/-- The lane that a ring word names. -/
def ringLane (v : W32) : LaneId := ⟨fld v 24 2, Nat.mod_lt _ (by decide)⟩

/-- Grants, copies, capture rings and audio out of a lane end with its owner (R175, R274, R305; notes/assumptions/18); entries that its
completion ring still shows release nothing for the next one (R207). -/
def ownerLeft (l : LaneId) (s : State) : State :=
  let drop (a : AdSlot) : AdSlot :=
    if l = 3 then { a with l1 := false, l2 := false }
    else if l = 1 then { a with l1 := false } else if l = 2 then { a with l2 := false } else a
  let ringOff (r : CapRing) : CapRing :=
    let r := if r.lane = l then { r with en := false } else r
    if r.next.any fun v => ringLane v == l then { r with next := none, nextTally := none } else r
  let audoOff (a : AudioOut) : AudioOut :=
    if a.lane = l then { a with en := false, run := false, startReq := false, stopReq := false, arriving := none } else a
  { s with
    ads := s.ads.map drop
    eye := if s.eye.copyLane = l then { s.eye with copyEn := false } else s.eye
    ear := { s.ear with ring := s.ear.ring.map ringOff, audo := audoOff s.ear.audo }
    host := { s.host with ring := upd s.host.ring l fun (r : Ring) => { r with dones := [] } } }

/-- The host's lanes become ORPHANED, their completions no longer wait for the ring, with their events and one lapse record. -/
def lapse (s : State) : State :=
  let ls := s.hostLanes
  let s := { s with
    lanes := s.lanes.map Lane.orphan
    host := { s.host with leaseActive := false, leaseLapsed := true, leaseLeft := 0, evctl := 0#2 } }
  let s := ls.foldl (fun (s : State) l =>
    ((ownerLeft l s).setRing l fun r => { r with out := r.out.filter fun e => e.kind != .completion }).raise
      (.evt "LANE" [laneF l, bareF "ORPHANED"])) (s.irq 6)
  s.logFault { s.faultRec .leaseLapse (.lane (ls.headD 0)) (some .leaseLapse) with lane := ls.head? }

/-- The lease count runs out, at the first SLOW edge at which it has (R367). -/
def leaseLapse (s : State) : State :=
  if s.host.leaseActive && !s.rail.floor then lapse (elapseSlow s.host.leaseLeft s) else s

def execLeaseLapse (s : State) : Host.Outcome State Fault Refusal := .next (leaseLapse s)

end Sys2Proof.Machine
end

