-- ==== Sys2Proof/Machine/Power.lean ====
section
/-! DEFINITION. Bring-up of power domains (R406, R407). An access to an off domain waits until the domain is up and is served
then, in one step (notes/assumptions/15). -/

namespace Sys2Proof.Machine
open Sys2Proof

def State.domFenced (s : State) (d : Dom) : Bool := s.power.fenced.getLsbD d.val
def State.domUp (s : State) (d : Dom) : Bool := s.power.up.getLsbD d.val

def domBit (d : Dom) : BitVec 32 := BitVec.ofNat 32 (2 ^ d.val)

/-- Domains that come up now. -/
def Power.busy (p : Power) : Nat := ((List.finRange 32).filter fun d => p.waking.getLsbD d.val).length

/-- A bring-up starts at once while fewer than two run, and waits its turn otherwise. -/
def Power.start (p : Power) (d : Dom) : Power :=
  if p.up.getLsbD d.val || p.waking.getLsbD d.val || p.fenced.getLsbD d.val || p.queue.contains d then p
  else if p.busy < 2 then { p with waking := p.waking ||| domBit d }
  else { p with queue := p.queue ++ [d] }

/-- The output balls of a switched domain are driven while it is up, and float else (R12). -/
def State.drives (s : State) (d : Dom) : Bool := s.domUp d && !s.domFenced d

/-- A first access reaches a domain: its bring-up starts, or waits its turn. -/
def wake (d : Dom) (s : State) : State := { s with power := s.power.start d }

/-- The next queued domains take the free places. -/
def Power.next (p : Power) : Power :=
  p.queue.foldl (fun p d => Power.start p d) { p with queue := [] }

/-- A domain is up: the waiting accesses are served, and the next domain starts. -/
def Power.ready (p : Power) (d : Dom) : Power :=
  Power.next { p with up := p.up ||| domBit d, waking := p.waking &&& ~~~domBit d, waiters := Tab.erase p.waiters d.val }

/-- A domain is brought up for an access that waits for it: those whose turn is before it come up first (R407). -/
def Power.bring (p : Power) (d : Dom) : Power :=
  if p.up.getLsbD d.val || p.fenced.getLsbD d.val then p
  else
    let p := p.start d
    if p.waking.getLsbD d.val then p.ready d
    else
      let p := ((List.finRange 32).filter fun k => p.waking.getLsbD k.val).foldl Power.ready p
      (p.queue.takeWhile (· != d)).foldl Power.ready p |>.ready d

/-- An access reaches a domain: it waits until the domain is up, and is served then (R12, R406; notes/assumptions/15). -/
def touch (d : Dom) (s : State) : State := { s with power := s.power.bring d }

/-- A domain goes down for good: fenced (R2, R407). -/
def Power.fence (p : Power) (d : Dom) : Power :=
  Power.next { p with
    up := p.up &&& ~~~domBit d, waking := p.waking &&& ~~~domBit d, fenced := p.fenced ||| domBit d
    queue := p.queue.filter (· != d), waiters := Tab.erase p.waiters d.val }

/-- A domain is off and not fenced. -/
def Power.off (p : Power) (d : Dom) : Power :=
  { p with up := p.up &&& ~~~domBit d, waking := p.waking &&& ~~~domBit d, fenced := p.fenced &&& ~~~domBit d }

/-- The first access reaches a domain that is off: its bring-up starts and the access waits (R406, R407). -/
def domainFirstAccess (d : Dom) (s : State) : State :=
  if s.domUp d || s.domFenced d then s
  else
    let s := wake d s
    { s with power := { s.power with waiters := Tab.set s.power.waiters d.val ((Tab.get? s.power.waiters d.val).getD 0 + 1) } }

def execDomainFirstAccess (d : Dom) (s : State) : Host.Outcome State Fault Refusal := .next (domainFirstAccess d s)

/-- PD_MEM has come up anew: the working copy of the bitmap is the mirror's again, and a block in COPY is done again from the start, one
in REWRITE from its scratch page (R254, R256). -/
def rotationResume (s : State) : State :=
  { s with mem := { s.mem with sweeps := s.mem.sweeps.map fun w => if w.phase == .copy then { w with phase := .idle, started := none } else w } }

/-- A domain reports ready (R406). -/
def domainReady (d : Dom) (s : State) : State :=
  if s.power.waking.getLsbD d.val then
    let s := { s with power := s.power.ready d }
    if d = Dom.mem then rotationResume s else s
  else s

def execDomainReady (d : Dom) (s : State) : Host.Outcome State Fault Refusal := .next (domainReady d s)

end Sys2Proof.Machine
end

