-- ==== Sys2Proof/Machine/Course.lean ====
section
/-! DEFINITION. The Course: its map (R234), the checks of a shell's Course port (R235), reads and writes of 64-byte units,
inline encryption (R252 to R254, notes/assumptions/9), and the decoded view (R245 to R249). -/

namespace Sys2Proof.Machine
open Sys2Proof

/-! ## The map (R234) -/

/-- What a Course byte address names. -/
inductive CourseAt where
  | dram (a : Nat)
  | boathouse (off : Nat)
  | shell (ls : Fin 16) (off : Nat)
  | view (head : Nat) (x : Nat)
  | unmapped
deriving DecidableEq, Repr

def bhBase : Nat := 0x0100_0000_0000
def viewBase : Nat := 0x0400_0000_0000

/-- The decoded view names a stream's header, on a 64 KiB boundary, and a byte below 16 MiB (R246). -/
def courseAt (a : Nat) : CourseAt :=
  if a < 0x4_0000_0000 then .dram a
  else if bhBase ≤ a ∧ a < bhBase + 0x200_0000 then .boathouse (a - bhBase)
  else if 0x0200_0000_0000 ≤ a ∧ a < 0x0200_0100_0000 then
    let o := a - 0x0200_0000_0000
    match fin? 16 (o / 0x10_0000) with
    | some ls => if o % 0x10_0000 < 0x8_0000 then .shell ls (o % 0x10_0000) else .unmapped
    | none => .unmapped
  else if viewBase ≤ a ∧ a < 0x0800_0000_0000 then
    let v := a - viewBase
    .view (v / 0x100_0000 * 0x1_0000) (v % 0x100_0000)
  else .unmapped

/-! ## Regions and keys -/

/-- The region that covers a block of 64 KiB. -/
def Region.covers (r : Region) (block : Nat) : Bool :=
  r.valid && decide (r.base.toNat ≤ block ∧ block < r.base.toNat + r.size.toNat)

def State.regionOf (s : State) (block : Nat) : Option (Fin 32) := (List.finRange 32).find? fun i => s.mem.region[i].covers block

/-- The key slot under which a block's units are read and written: SLOT of the block's generation bit (R254). -/
def State.slotOf (s : State) (block : Nat) : Option (Fin 8) :=
  (s.regionOf block).map fun i => if s.mem.genBits.contains block then s.mem.region[i].slot1 else s.mem.region[i].slot0

/-- The key in force for a block: its identity. -/
def State.keyOf (s : State) (block : Nat) : Option Nat := (s.slotOf block).map fun k => s.mem.kslot[k].key

/-- Calls that need DRAM fail (R22, R412). -/
def State.dramGone (s : State) : Bool := s.clk.degraded || !s.mem.trained

/-- DRAM is there to be used: trained, with its reference clock, its domain not fenced (R241, R387). -/
def State.dramUp (s : State) : Bool := s.mem.trained && !s.mem.noref && !s.domFenced Dom.mem

/-- n bytes that nothing fixes. -/
def freeBytes (n : Nat) (s : State) : List Byte × State :=
  ((List.range n).map fun k => Config.freeByte (s.free + k), { s with free := s.free + n })

/-- How an access of a unit completes. -/
inductive Access1 (α : Type) where
  | ok (x : α)
  | unmapped
  | uncorrectable
deriving DecidableEq, Repr

def satInc (w : W32) : W32 := if w = 0xFFFFFFFF#32 then w else w + 1#32

/-- Count a data unit moved for a lane: read or written, through the crypto unit (R457). -/
def State.countDram (s : State) (l : Option LaneId) (write : Bool) : State :=
  let d := s.stat.dev
  { s with stat := { s.stat with
    dev := { d with dramRd := d.dramRd + boolNat !write, dramWr := d.dramWr + boolNat write, aes := d.aes + 4 }
    lane := match l with
      | some l => upd s.stat.lane l fun c => { c with dram := c.dram + 1 }
      | none => s.stat.lane } }

def State.countBh (s : State) (l : Option LaneId) : State :=
  { s with stat := { s.stat with
    dev := { s.stat.dev with bh := s.stat.dev.bh + 1 }
    lane := match l with
      | some l => upd s.stat.lane l fun c => { c with bh := c.bh + 1 }
      | none => s.stat.lane } }

/-- Read a 64-byte unit of usable DRAM through the crypto unit: its plaintext where it was written under the key in force, and
bytes that nothing fixes otherwise. -/
def dramRead (l : Option LaneId) (unit : Nat) (s : State) : Access1 (List Byte) × State :=
  if !s.dramUp || decide (s.mem.usable.toNat * 1024 ≤ unit) then (.unmapped, s)
  else
    let s := (touch Dom.mem s).countDram l false
    if s.mem.poison.contains unit then
      (.uncorrectable, { s with mem := { s.mem with ue := satInc s.mem.ue } })
    else match s.keyOf (unit / 1024), Tab.get? s.mem.unitKey unit with
      | some k, some k' => if k = k' ∧ k ≠ 0 then (.ok (s.mem.dram.range (64 * unit) 64), s) else let (b, s) := freeBytes 64 s; (.ok b, s)
      | _, _ => let (b, s) := freeBytes 64 s; (.ok b, s)

/-- Store a unit's plaintext under a key; a write of the whole unit clears its poison (R243). -/
def State.dramStore (s : State) (unit key : Nat) (b : List Byte) : State :=
  { s with mem := { s.mem with
    dram := s.mem.dram.put (64 * unit) b
    unitKey := Tab.set s.mem.unitKey unit key
    poison := s.mem.poison.filter (· != unit), carried := s.mem.carried.filter (· != unit) } }

/-- Write a 64-byte unit of usable DRAM under the key in force. -/
def dramWrite (l : Option LaneId) (unit : Nat) (b : List Byte) (s : State) : Access1 Unit × State :=
  if !s.dramUp || decide (s.mem.usable.toNat * 1024 ≤ unit) then (.unmapped, s)
  else
    let s := (touch Dom.mem s).countDram l true
    match s.keyOf (unit / 1024) with
    | some k => (.ok (), s.dramStore unit k b)
    | none => (.unmapped, s)

/-! ## The Boathouse (R237) -/

/-- The domain of a bank number's quadrant. -/
def bankDom (b : Fin 64) : Dom := Dom.quadrant ⟨b.val / 16, by omega⟩

/-- A bank number is served: its physical bank and its quadrant are not fenced (R381, R407). -/
def State.bankUp (s : State) (b : Fin 64) : Bool :=
  s.faults.banks[s.faults.bankMap[b]] == .active && !s.domFenced (bankDom b)

/-- The bank number of a Boathouse offset (R237). -/
def bankAt (off : Nat) : Fin 64 := ⟨off / 0x80000 % 64, Nat.mod_lt _ (by decide)⟩

/-- 64-bit words of a unit that are poisoned. -/
def poisonedIn (l : List Nat) (addr : Nat) : Bool := l.any fun w => decide (addr / 8 ≤ w ∧ w < addr / 8 + 8)

def bhRead (l : Option LaneId) (off : Nat) (s : State) : Access1 (List Byte) × State :=
  let b := bankAt off
  if !s.bankUp b then (.unmapped, s)
  else
    let s := (touch (bankDom b) s).countBh l
    if poisonedIn s.faults.poisoned off then (.uncorrectable, s) else (.ok (s.mem.bh.range off 64), s)

def bhWrite (l : Option LaneId) (off : Nat) (v : List Byte) (s : State) : Access1 Unit × State :=
  let b := bankAt off
  if !s.bankUp b then (.unmapped, s)
  else
    let s := (touch (bankDom b) s).countBh l
    (.ok (), { s with
      mem := { s.mem with bh := s.mem.bh.put off v }
      faults := { s.faults with poisoned := s.faults.poisoned.filter fun w => !decide (off / 8 ≤ w ∧ w < off / 8 + 8) } })

/-! ## Streams in the decoded view (R245, R246, R249) -/

/-- The bundle whose sealed extent holds a DRAM byte address. -/
def State.extentOf (s : State) (a : Nat) : Option (Fin 16) :=
  (List.finRange 16).find? fun h => match s.bundles[h].extent with
    | some (lo, hi) => decide (lo ≤ a ∧ a < hi)
    | none => false

/-- Units of DRAM, one after another. -/
def dramUnits (l : Option LaneId) (unit : Nat) : Nat → State → Access1 (List Byte) × State
  | 0, s => (.ok [], s)
  | n + 1, s =>
    match dramRead l unit s with
    | (.ok b, s) =>
      match dramUnits l (unit + 1) n s with
      | (.ok r, s) => (.ok (b ++ r), s)
      | e => e
    | e => e

/-- The bits of bytes, most significant bit of each byte first. -/
def msbBits (l : List Byte) : List Bool := l.flatMap fun b => (List.range 8).map fun k => b.getLsbD (7 - k)

/-- One code of a canonical prefix code (R195): its place in canonical order and the bits left. `code` is the value read so
far, `first` the first code of this length and `index` the place of its symbol. -/
def readSymbol (code first index : Nat) : List Nat → List Bool → Option (Nat × List Bool)
  | [], _ => none
  | _ :: _, [] => none
  | c :: cs, b :: bs =>
    let code := 2 * code + boolNat b
    let first := 2 * first
    if code < first + c then some (index + (code - first), bs) else readSymbol code (first + c) (index + c) cs bs

/-- n codes, and the bits left. -/
def readCodes (e : Entropy) : Nat → List Bool → Option (List Byte × List Bool)
  | 0, bs => some ([], bs)
  | n + 1, bs =>
    match readSymbol 0 0 0 e.counts bs with
    | some (i, bs) =>
      match readCodes e n bs with
      | some (r, bs) => some (e.symbols.getD i 0#8 :: r, bs)
      | none => none
    | none => none

/-- Codes of a format packed as R75 gives. -/
def packCodes (bits : Nat) (l : List Byte) : List Byte :=
  leBytes (l.foldr (fun c n => n * 2 ^ bits + c.toNat % 2 ^ bits) 0) ((l.length * bits + 7) / 8)

/-- A chunk's decoded bytes (R246), or none on a decode error (R249). `last` says that it is the stream's last chunk, of n
codes. -/
def decodeChunk (e : Entropy) (n : Nat) (chunk : List Byte) : Option (List Byte) :=
  if leNat ((chunk.drop 2).take 2) ≠ n then none
  else match readCodes e n (msbBits (chunk.drop 8)) with
    | some (codes, rest) => if rest.any id then none else some (packCodes (fmtBits e.format.val) codes)
    | none => none

/-- Decoded bytes of a stream: `ok none` is a decode error (R249). -/
def viewRead (l : Option LaneId) (head x : Nat) (s : State) : Access1 (Option (List Byte)) × State :=
  match s.extentOf head with
  | none => (.unmapped, s)
  | some h =>
    match dramRead l (head / 64) s with
    | (.ok hd, s) =>
      let tab := leNat ((hd.drop 4).take 2)
      match (s.bundle h).plan.entropy.find? fun e => e.table == tab with
      | some e =>
        let ncodes := leNat ((hd.drop 8).take 8)
        let nchunk := leNat ((hd.drop 16).take 4)
        let per := fmtBits e.format.val * 1024
        let c := x / per
        if leNat (hd.take 4) ≠ 0x4D525453 ∨ (hd.getD 6 0#8).toNat ≠ e.format.val ∨ nchunk ≠ (ncodes + 8191) / 8192 then (.ok none, s)
        else if nchunk ≤ c then (.unmapped, s)
        else match dramRead l (head / 64 + 1 + c / 16) s with
          | (.ok ix, s) =>
            let at_ := head / 64 + leNat ((ix.drop (4 * (c % 16))).take 4)
            match dramRead l at_ s with
            | (.ok u, s) =>
              let len := leNat (u.take 2)
              let n := if c + 1 = nchunk then ncodes - 8192 * c else 8192
              if len = 0 ∨ 193 < len then (.ok none, s)
              else match dramUnits l at_ len s with
                | (.ok ch, s) =>
                  let s := { s with stat := { s.stat with dev := { s.stat.dev with codes := s.stat.dev.codes + 16 / fmtBits e.format.val } } }
                  (.ok ((decodeChunk e n ch).map fun d => (List.range 64).map fun k => d.getD (x % per + k) 0#8), s)
                | (.unmapped, s) => (.unmapped, s)
                | (.uncorrectable, s) => (.uncorrectable, s)
            | (.unmapped, s) => (.unmapped, s)
            | (.uncorrectable, s) => (.uncorrectable, s)
          | (.unmapped, s) => (.unmapped, s)
          | (.uncorrectable, s) => (.uncorrectable, s)
      | none => (.ok none, s)
    | (.unmapped, s) => (.unmapped, s)
    | (.uncorrectable, s) => (.uncorrectable, s)

/-! ## Locks (R243, R255) -/

/-- The page of a unit is locked for its retirement: reads and writes of it stall (R243). -/
def State.pageLocked (s : State) (unit : Nat) : Bool := s.mem.retiring.contains (unit / 1024)

/-- An access of a DRAM unit stalls: its page is locked for its retirement, or its block by a rotation, whose COPY lets reads through
(R255). -/
def State.unitStalls (s : State) (write : Bool) (unit : Nat) : Bool :=
  s.pageLocked unit || s.mem.sweeps.any fun w => w.block == unit / 1024 && (w.phase == .rewrite || (write && w.phase == .copy))

/-- The units that a decoder reads for an access of the decoded view: the stream's header, a unit of its index, and a chunk (R246). -/
def State.viewUnits (s : State) (head x : Nat) : List Nat :=
  match s.extentOf head with
  | none => []
  | some h =>
    match (s.bundle h).plan.entropy.find? fun e => e.table == s.mem.dram.nat (head + 4) 2 with
    | none => [head / 64]
    | some e =>
      let c := x / (fmtBits e.format.val * 1024)
      let at_ := head / 64 + s.mem.dram.nat (head + 64 + 4 * c) 4
      [head / 64, head / 64 + 1 + c / 16] ++ (List.range (Nat.min 193 (s.mem.dram.nat (64 * at_) 2))).map (at_ + ·)

/-- An access of a Course address stalls. -/
def State.courseStalls (s : State) (write : Bool) (a : Nat) : Bool :=
  match courseAt a with
  | .dram d => s.unitStalls write (d / 64)
  | .view h x => (s.viewUnits h x).any (s.unitStalls false)
  | _ => false

/-! ## Access checks (R235) -/

/-- A bundle serves a lane. -/
def Bundle.serves (b : Bundle) (l : LaneId) : Bool := b.live && b.lanes.getLsbD l.val

/-- The region that holds an adapter's image. -/
def State.adapterRegion (s : State) (n : Fin 8) : Option (Fin 32) := s.regionOf (s.ads[n].image / 0x10000)

/-- Where set k of an adapter's image begins, and whether an address lies in it (R163). -/
def AdSlot.setBase (d : AdSlot) (k : Bool) : Nat := d.image + 0x10000 + if k then d.setSize else 0
/-- The five parts of a set, by where they begin in it: master weights in H16, momentum in I8, second moment in U8Z with zero point 0, and
the row exponents of the two moments (R163). Each is row-major, the tensors in descriptor order, A before B. -/
def AdSlot.parts (p n : Nat) : List Nat := [0, 2 * p, 3 * p, 4 * p, 4 * p + n]

def AdSlot.inSet (d : AdSlot) (k : Bool) (a : Nat) : Bool := decide (d.setBase k ≤ a ∧ a < d.setBase k + d.setSize)

/-- The heat is an update heat, of the version that it has fixed. -/
def State.updating (s : State) (l : LaneId) (r : HeatRun) : Bool := r.ad.isSome && (s.entryOf l r.seq).any (·.update)

/-- Where an access of a heat goes: what an update heat writes by the addresses of the set it has fixed goes to the set that does
not hold the committed version (R171; notes/assumptions/33). -/
def State.adapterAddr (s : State) (l : LaneId) (r : HeatRun) (write : Bool) (a : Nat) : Nat :=
  match r.ad with
  | some f =>
    let d := s.ads[f.slot]
    if write && s.updating l r && d.inSet f.set a then a - d.setBase f.set + d.setBase (!f.set) else a
  | none => a

/-- An access to an adapter's region: a heat that has fixed a version reads that set alone, or, as the update heat, the whole
image, of which it writes the other set. Any other heat of the region's lane reaches neither set, since it could meet two versions
there; the rest of the region is its own (R20, R172, R174; notes/assumptions/33). -/
def State.adapterMay (s : State) (l : LaneId) (r : HeatRun) (i : Fin 32) (write : Bool) (a : Nat) : Bool :=
  let own := s.mem.region[i].lane == l
  match r.ad.filter fun f => s.adapterRegion f.slot == some i with
  | some f =>
    let d := s.ads[f.slot]
    if write then own && s.updating l r && d.inSet (!f.set) a else d.inSet f.set a || (own && s.updating l r)
  | none => own && (List.finRange 8).all fun n => s.ads[n].st == .empty || !(s.ads[n].inSet false a || s.ads[n].inSet true a)

/-- A heat may make this access. -/
def State.mayAccess (s : State) (l : LaneId) (r : HeatRun) (mask : BitVec 16) (write : Bool) : CourseAt → Bool
  | .dram a =>
    match s.regionOf (a / 0x10000) with
    | some i =>
      let g := s.mem.region[i]
      if g.sealed then !write && (s.extentOf a).any fun h => (s.bundle h).serves l
      else if g.adapter then s.adapterMay l r i write a
      else g.lane == l
    | none => false
  | .boathouse off =>
    let b := bankAt off
    s.mem.part[l].getLsbD b.val ||
      (!write && (List.finRange 16).any fun h => s.bundles[h].serves l && s.bundles[h].banks.contains b)
  | .shell ls off => mask.getLsbD ls.val && r.map[ls].isSome && decide (off < 0x80000)
  | .view h _ => !write && (s.extentOf h).any fun k => (s.bundle k).serves l
  | .unmapped => false

/-- Read a Course unit, without the check of the port. `ok none` is a decode error. -/
def courseRead (l : Option LaneId) (map : Vector (Option ShellId) 16) (c : CourseAt) (s : State) : Access1 (Option (List Byte)) × State :=
  let some' (p : Access1 (List Byte) × State) : Access1 (Option (List Byte)) × State :=
    match p with
    | (.ok b, s) => (.ok (some b), s)
    | (.unmapped, s) => (.unmapped, s)
    | (.uncorrectable, s) => (.uncorrectable, s)
  match c with
  | .dram a => some' (dramRead l (a / 64) s)
  | .boathouse off => some' (bhRead l off s)
  | .shell ls off =>
    match map[ls] with
    | some i =>
      if s.domFenced (Dom.shell i) then (.unmapped, s)
      else
        let s := touch (Dom.shell i) s
        if poisonedIn (s.shell i).poisoned off then (.uncorrectable, s) else (.ok (some ((s.shell i).sram.range off 64)), s)
    | none => (.unmapped, s)
  | .view h x => viewRead l h x s
  | .unmapped => (.unmapped, s)

/-- Store bytes in a shell's data SRAM; whole words written lose their poison. -/
def Shell.store (x : Shell) (off : Nat) (b : List Byte) : Shell :=
  { x with
    sram := x.sram.put off b
    poisoned := x.poisoned.filter fun w => !decide (off ≤ 8 * w ∧ 8 * w + 8 ≤ off + b.length) }

/-- Write a Course unit, without the check of the port. -/
def courseWrite (l : Option LaneId) (map : Vector (Option ShellId) 16) (c : CourseAt) (b : List Byte) (s : State) : Access1 Unit × State :=
  match c with
  | .dram a => dramWrite l (a / 64) b s
  | .boathouse off => bhWrite l off b s
  | .shell ls off =>
    match map[ls] with
    | some i => if s.domFenced (Dom.shell i) then (.unmapped, s) else (.ok (), (touch (Dom.shell i) s).setShell i fun x => x.store off b)
    | none => (.unmapped, s)
  | .view _ _ => (.unmapped, s)
  | .unmapped => (.unmapped, s)

/-- The segment that a heat runs, as its bundle gives it. -/
def State.segmentOf (s : State) (l : LaneId) (r : HeatRun) : Option Segment :=
  match (s.lane l).acceptOf r.seq with
  | some a => (s.bundle a.handle).plan.segments.find? fun g => g.number == r.seg
  | none => none

/-- A shell's Course port issues an access: an address breakpoint may hit (R444). -/
def portHit (write : Bool) (a : Nat) (s : State) : State :=
  strHit (fun b => match b with
    | .address rd wr at_ m => if (if write then wr else rd) && at_ / 64 == a / 64 then some m else none
    | _ => none) s

/-- Read for the heat that runs on a shell, with the check of the Course port; anything but data is an error that restarts the
heat (R235, R237, R242, R249). -/
def heatRead (l : LaneId) (q : W32) (a : Nat) (s : State) : Option (List Byte) × State :=
  let s := portHit false a s
  match (s.lane l).run q with
  | some r =>
    let mask := ((s.segmentOf l r).map (·.lsmask)).getD 0#16
    if s.mayAccess l r mask false (courseAt a) then
      match courseRead (some l) r.map (courseAt a) s with
      | (.ok (some b), s) => (some b, s)
      | (_, s) => (none, s)
    else (none, s)
  | none => (none, s)

/-- Write for the heat that runs on a shell; false is an error. -/
def heatWrite (l : LaneId) (q : W32) (a : Nat) (b : List Byte) (s : State) : Bool × State :=
  let s := portHit true a s
  match (s.lane l).run q with
  | some r =>
    let a := s.adapterAddr l r true a
    let mask := ((s.segmentOf l r).map (·.lsmask)).getD 0#16
    if s.mayAccess l r mask true (courseAt a) then
      match courseWrite (some l) r.map (courseAt a) b s with
      | (.ok _, s) => (true, s)
      | (_, s) => (false, s)
    else (false, s)
  | none => (false, s)

end Sys2Proof.Machine
end

