-- ==== Sys2Proof/Machine/Secrecy.lean ====
section
/-! DEFINITION. Entry into confidential mode (R422, R423), the end of a String Port session (R448), and what a register read by
a path answers. -/

namespace Sys2Proof.Machine
open Sys2Proof

/-- A session of the String Port ends: breakpoints are disarmed, halted shells resume, and a STEP has run what it has run (R423,
R448; notes/assumptions/37). -/
def strEnd (s : State) : State :=
  let p := match s.str.stepping with
    | some (_, _, ran) => { s.str with stepping := none, status := .done, result := BitVec.ofNat 64 ran }
    | none => s.str
  { s with str := { p with session := false, halted := 0#18, slots := Vector.replicate 8 none } }.watch

/-- Halts of the shells of a mask are released. -/
def strFree (m : BitVec 18) (s : State) : State := { s with str := { s.str with halted := s.str.halted &&& ~~~m } }.watch

def shellBit (i : ShellId) : BitVec 18 := BitVec.ofNat 18 (2 ^ i.val)

/-- A halted shell is fenced: its halt is released, and slots whose masks name only it are cleared (R447). -/
def strFence (i : ShellId) (s : State) : State :=
  if s.str.halted.getLsbD i.val then
    let only (b : Break) : Bool := match b with
      | .stroke _ _ m => m == shellBit i
      | .tally _ _ m => m == shellBit i
      | .address _ _ _ m => m == shellBit i
    strFree (shellBit i) { s with str := { s.str with slots := s.str.slots.map fun b => if b.any only then none else b } }
  else s

/-- The shells of a lane, one bit each. -/
def State.laneShells (s : State) (l : LaneId) : BitVec 18 :=
  (List.finRange 18).foldl (fun m i => if s.shells[i].lastLane = some l then m ||| shellBit i else m) 0#18

/-- What R423 does on entry: the String Port closes, readings are hidden, EYE_COPY.EN clears. -/
def closeUp (s : State) : State :=
  let s := strEnd s
  { s with
    stat := { s.stat with hidden := true }
    rail := { s.rail with hidden := true }
    sense := { s.sense with hidden := true }
    eye := { s.eye with copyEn := false } }

/-- Do something that may begin a condition of confidential mode. -/
def State.entering (s : State) (f : State → State) : State :=
  let t := f s
  if !s.confidential && t.confidential then closeUp t else t

/-- KEYOP begins to hold once more, or ends once. -/
def keyopStart (s : State) : State := s.entering fun s => { s with keys := { s.keys with keyop := s.keys.keyop + 1 } }
def keyopEnd (s : State) : State := { s with keys := { s.keys with keyop := s.keys.keyop - 1 } }

/-- REPAIR begins to hold once more, or ends once. -/
def repairStart (s : State) : State := s.entering fun s => { s with keys := { s.keys with repair := s.keys.repair + 1 } }
def repairEnd (s : State) : State := { s with keys := { s.keys with repair := s.keys.repair - 1 } }

/-- Give a register value to the path that reads it: a host read is answered at once, a String Port read becomes the result. -/
def State.answered (s : State) (p : Path) (v : W32) : State :=
  match p with
  | .host => { s with host := { s.host with answer := (0#8, [v]) } }
  | .string => { s with str := { s.str with result := v.setWidth 64 } }
  | .cox => s
  | .call => s

end Sys2Proof.Machine
end

