-- ==== Sys2Proof/Machine/Memory.lean ====
section
/-! DEFINITION. DRAM errors and page retirement (R242, R243), regions (R244), partitions and retained banks (R238, R239), the
host window (R250), and key rotation (R253 to R257). -/

namespace Sys2Proof.Machine
open Sys2Proof

/-! ## DRAM errors (R242, R243) -/

/-- A corrected error of a unit is counted, and its site kept. -/
def dramCorrected (unit : Nat) (s : State) : State :=
  { s with mem := { s.mem with
    ce := satInc s.mem.ce
    ceSites := if s.mem.ceSites.contains unit then s.mem.ceSites else s.mem.ceSites ++ [unit] } }

/-- A unit whose data or check bits are uncorrectable reads so until it is written whole. -/
def dramPoison (unit : Nat) (s : State) : State :=
  { s with mem := { s.mem with poison := if s.mem.poison.contains unit then s.mem.poison else s.mem.poison ++ [unit] } }

/-- The 32 units of a check unit that cannot be corrected (R242, R243). -/
def dramCheckPoison (unit : Nat) (s : State) : State := (List.range 32).foldl (fun s k => dramPoison (unit / 32 * 32 + k) s) s

/-- An uncorrectable error found in a read. -/
def dramUncorrectable (unit : Nat) (s : State) : State :=
  let s := dramPoison unit s
  { s with mem := { s.mem with ue := satInc s.mem.ue } }

/-- One access of a DRAM unit completes, for a heat or for the engine (R242): what the check bits find is an operand. -/
def dramAccess (heat : Option (LaneId × W32)) (unit : BitVec 28) (wr : Option (List Byte)) (e : DramErr) (s : State) : State :=
  let u := unit.toNat
  if !s.dramUp || decide (s.mem.usable.toNat * 1024 ≤ u) || s.unitStalls wr.isSome u then s
  else
    let lane := heat.map Prod.fst
    match wr with
    | none =>
      let (a, s) := match e with
        | .fine => dramRead lane u s
        | .corrected => dramRead lane u (dramCorrected u s)
        | .uncorrectable => dramRead lane u (dramPoison u s)
        | .check => dramRead lane u (dramCheckPoison u s)
      match a, heat with
      | .uncorrectable, some (l, q) => restartHeat l q s
      | _, _ => s
    | some b =>
      let b := (List.range 64).map fun k => b.getD k 0#8
      let s := (dramWrite lane u b s).2
      let failed (s : State) : State := match heat with
        | some (l, q) => s.setRun l q fun r => { r with writeFailed := true }
        | none => s
      match e with
      | .fine => s
      | .corrected => dramCorrected u s
      | .uncorrectable => failed (dramPoison u s)
      | .check => failed (dramCheckPoison u s)

def execDramAccess (heat : Option (LaneId × W32)) (unit : BitVec 28) (wr : Option (List Byte)) (e : DramErr) (s : State) :
    Host.Outcome State Fault Refusal := .next (dramAccess heat unit wr e s)

/-- The patrol reads the next usable unit (R242). -/
def patrolRead (e : DramErr) (s : State) : State :=
  if !s.dramUp || s.mem.usable == 0#18 then s
  else
    let u := s.mem.patrolNext
    let s := { s with mem := { s.mem with patrolNext := (u + 1) % (s.mem.usable.toNat * 1024) } }
    match e with
    | .fine => s
    | .corrected => dramCorrected u s
    | .uncorrectable => dramUncorrectable u s
    | .check => dramUncorrectable u (dramCheckPoison u s)

def execPatrolRead (e : DramErr) (s : State) : Host.Outcome State Fault Refusal := .next (patrolRead e s)

/-! ## Page retirement (R243) -/

/-- Units of a page in a list of units. -/
def inPage (page : Nat) (l : List Nat) : List Nat := l.filter fun u => u / 1024 == page

/-- A sweep holds a page's lock (R255). -/
def State.rotationLocks (s : State) (page : Nat) : Bool := s.mem.sweeps.any fun w => w.phase != .idle && w.block == page

/-- A retirement condition of R243 holds of a page. -/
def State.pageBad (s : State) (page : Nat) : Bool :=
  ((inPage page s.mem.poison).any fun u => !s.mem.carried.contains u) || decide (4 ≤ (inPage page s.mem.ceSites).length)

/-- A page is locked for its copy to a spare page, or no spare is left. -/
def pageRetire (page : Nat) (s : State) : State :=
  if decide (page < s.mem.usable.toNat) && s.pageBad page && !s.mem.retiring.contains page && !s.rotationLocks page then
    if s.mem.retired.length + s.mem.retiring.length < 256 then
      { s with mem := { s.mem with retiring := s.mem.retiring ++ [page] } }
    else s.raise (.evt "MEM" [bareF "NOSPARE"])
  else s

def execPageRetire (page : BitVec 18) (s : State) : Host.Outcome State Fault Refusal := .next (pageRetire page.toNat s)

/-- DETAIL of a PAGE record: the page, and the identity and capacity of the DRAM (R391, R393; notes/assumptions/35). -/
def Memory.pageDetail (m : Memory) (page : Nat) : W64 := BitVec.ofNat 64 (page + 2 ^ 32 * (m.fitted.toNat + 256 * m.ranks.toNat))

/-- The copy ends: the mapping is entered, recorded and logged, and the page unlocks. -/
def pageRetireDone (page : Nat) (s : State) : State :=
  if s.mem.retiring.contains page then
    let cause : Cause := if (inPage page s.mem.poison).isEmpty then .dramCorrected else .dramUncorrectable
    let s := { s with mem := { s.mem with
      retiring := s.mem.retiring.filter (· != page)
      retired := s.mem.retired ++ [page]
      carried := s.mem.carried ++ (inPage page s.mem.poison).filter fun u => !s.mem.carried.contains u
      ceSites := s.mem.ceSites.filter fun u => u / 1024 != page } }
    let s := s.logFault (s.faultRec .pageRetired (.page page) (some cause))
    let rec_ : RepairRec :=
      { unit := (UnitRef.page page).code, kind := .page, cause := some cause, gen := s.generation, detail := s.mem.pageDetail page }
    { s with faults := { s.faults with repairQueue := s.faults.repairQueue ++ [rec_] } }
  else s

def execPageRetireDone (page : BitVec 18) (s : State) : Host.Outcome State Fault Refusal := .next (pageRetireDone page.toNat s)

/-! ## Key slots (R253, R426) -/

def freeSlot (s : State) : Option (Fin 8) := (List.finRange 8).find? fun k => s.mem.kslot[k].use == .free

/-- Draw a fresh key into a slot. -/
def drawKey (k : Fin 8) (use : KUse) (s : State) : State :=
  { s with
    mem := { s.mem with kslot := put s.mem.kslot k { use := use, key := s.keys.nextKey } }
    keys := { s.keys with nextKey := s.keys.nextKey + 1 } }

def zeroSlot (k : Fin 8) (s : State) : State := { s with mem := { s.mem with kslot := put s.mem.kslot k {} } }

def slotWith (s : State) (use : KUse) : Option (Fin 8) := (List.finRange 8).find? fun k => s.mem.kslot[k].use == use

/-- The slot that new blocks of a lane are written under: the rotation target while the key rotates (R256). -/
def laneSlot (s : State) (l : LaneId) : Option (Fin 8) := (slotWith s (.laneTarget l)).orElse fun _ => slotWith s (.lane l)

/-- The lane's key slot, drawing a key where it has none; none where no slot or no entropy is there. -/
def needLaneSlot (l : LaneId) (s : State) : Option (Fin 8 × State) :=
  match laneSlot s l with
  | some k => some (k, s)
  | none =>
    if s.keys.noent then none
    else match freeSlot s with
      | some k => some (k, drawKey k (.lane l) s)
      | none => none

def planSlot (s : State) : Option (Fin 8) := (slotWith s .planTarget).orElse fun _ => slotWith s .plan

def needPlanSlot (s : State) : Option (Fin 8 × State) :=
  match planSlot s with
  | some k => some (k, s)
  | none =>
    if s.keys.noent then none
    else match freeSlot s with
      | some k => some (k, drawKey k .plan s)
      | none => none

/-! ## Regions (R244) -/

def State.setRegion (s : State) (r : Fin 32) (f : Region → Region) : State :=
  { s with mem := { s.mem with region := upd s.mem.region r f } }

def Region.lo (g : Region) : Nat := g.base.toNat
def Region.hi (g : Region) : Nat := g.base.toNat + g.size.toNat

/-- Generation bits of blocks from lo to hi − 1 become 0. -/
def clearGen (lo hi : Nat) (s : State) : State :=
  { s with mem := { s.mem with genBits := s.mem.genBits.filter fun b => b < lo || hi ≤ b } }

/-- Data units of the blocks from lo to hi − 1 hold nothing any more. -/
def forgetUnits (lo hi : Nat) (s : State) : State :=
  { s with mem := { s.mem with
    dram := s.mem.dram.clear (lo * 0x10000) ((hi - lo) * 0x10000)
    unitKey := s.mem.unitKey.filter fun p => p.1 < lo * 1024 || hi * 1024 ≤ p.1 } }

/-- MAKE, by a path that writes REGr_CTRL: a new region holds nothing that an earlier one held. -/
def regionMake (p : Path) (r : Fin 32) (s : State) : State :=
  let g := s.mem.region[r]
  let refuse (e : Nat) : State := s.setRegion r fun g => { g with err := BitVec.ofNat 3 e }
  if g.valid then s
  else if !s.ownsLane p g.lane then refuse 4
  else if g.size = 0#18 ∨ s.mem.usable.toNat < g.hi then refuse 2
  else if (List.finRange 32).any fun i => s.mem.region[i].valid && decide (s.mem.region[i].lo < g.hi ∧ g.lo < s.mem.region[i].hi) then refuse 1
  else match needLaneSlot g.lane s with
    | none => refuse 3
    | some (k, s) =>
      (forgetUnits g.lo g.hi (clearGen g.lo g.hi s)).setRegion r fun g => { g with
        valid := true, sealed := false, adapter := false, rotating := false, gen := false, err := 0#3
        slot0 := k, slot1 := k, left := 0#18, homeAlive := true }

def execRegionMake (path : Path) (r : Fin 32) (s : State) : Host.Outcome State Fault Refusal := .next (regionMake path r s)

/-- A byte range meets the blocks of a region. -/
def Region.meets (g : Region) (addr bytes : Nat) : Bool := decide (addr < g.hi * 0x10000 ∧ g.lo * 0x10000 < addr + bytes)

/-- An accepted heat of a lane names an address inside a region. -/
def State.regionUsed (s : State) (g : Region) : Bool :=
  (s.lane g.lane).runs.any fun r => match (s.lane g.lane).acceptOf r.seq with
    | some a => a.args.any fun x => match x with
      | .region ad n => g.meets ad (64 * n)
      | _ => false
    | none => false

/-- An adapter whose region no longer exists is EMPTY (R173); its grants stay (R175). -/
def emptyAdapters (r : Fin 32) (s : State) : State :=
  { s with ads := mapIdx s.ads fun n a => if a.st != .empty && s.adapterRegion n == some r then { l1 := a.l1, l2 := a.l2 } else a }

/-- A sealing sweep waits for the rotation of the key of the lane that its region comes from (R257). -/
def sweepWaits (s : State) (w : Sweep) : Bool :=
  match w.kind, w.region with
  | .sealing _, some i => s.mem.sweeps.any fun v => v.kind == .lane s.mem.region[i].lane
  | _, _ => false

/-- A sweep with nothing left to do ends: the old slot is zeroised and freed, ROTATING clears, and a rotation raises its event
(step 4 of R255). A sealing sweep keeps both slots; an unsealed region is an ordinary region again (R257). -/
def sweepRegions (s : State) (w : Sweep) : List (Fin 32) :=
  (List.finRange 32).filter fun i =>
    let g := s.mem.region[i]
    let own := s.mem.sweeps.find? fun v => v.region == some i
    g.valid && g.rotating && (match w.region with
      | some r => r == i && !sweepWaits s w
      | none => match w.kind with
        | .lane n => g.lane == n && (!g.sealed || own.any (sweepWaits s))
        | _ => g.sealed && own.isNone)

def Region.slot (g : Region) (bit : Bool) : Fin 8 := if bit then g.slot1 else g.slot0
def Region.setSlot (g : Region) (bit : Bool) (k : Fin 8) : Region := if bit then { g with slot1 := k } else { g with slot0 := k }

/-- A swept region has every block in its generation GEN. -/
def Region.settled (g : Region) : Region := { g with rotating := false, left := 0#18, slot0 := g.slot g.gen, slot1 := g.slot g.gen }

/-- A sweep is set up over a region: blocks not yet swept stay under SLOT[¬GEN], swept blocks are under SLOT[GEN] = k. -/
def Region.sweepTo (g : Region) (k : Fin 8) : Region :=
  ({ g with gen := !g.gen, rotating := true, left := g.size }).setSlot (!g.gen) k

/-- Sealing sweeps that have waited for the rotation of lane n's key go on from its new slot. -/
def sealingGoOn (n : LaneId) (slot : Fin 8) (s : State) : State :=
  let mine (w : Sweep) : Bool := match w.kind, w.region with
    | .sealing _, some i => s.mem.region[i].lane == n && !s.mem.region[i].rotating
    | _, _ => false
  (s.mem.sweeps.filter mine).foldl (fun (s : State) w => match w.region with
      | some i => s.setRegion i fun g => g.sweepTo w.new
      | none => s)
    { s with mem := { s.mem with sweeps := s.mem.sweeps.map fun w => if mine w then { w with old := slot } else w } }

/-- The end of sweep w, which has left the list, over the regions rs. -/
def sweepEnd (w : Sweep) (rs : List (Fin 32)) (s : State) : State :=
  match w.kind with
  | .lane n =>
    let s := rs.foldl (fun (s : State) i => s.setRegion i Region.settled) s
    let s := zeroSlot w.old s
    let s := { s with mem := { s.mem with kslot := upd s.mem.kslot w.new fun k => { k with use := .lane n } } }
    keyopEnd ((sealingGoOn n w.new s).raise (.evt "KEY" [laneF n, bareF "DONE"]))
  | .plan =>
    let s := rs.foldl (fun (s : State) i => s.setRegion i Region.settled) s
    let s := zeroSlot w.old s
    let s := { s with mem := { s.mem with kslot := upd s.mem.kslot w.new fun k => { k with use := .plan } } }
    keyopEnd (s.raise (.evt "KEY" [bareF "PLAN", bareF "DONE"]))
  | .sealing _ => rs.foldl (fun (s : State) i => s.setRegion i fun g => { g with rotating := false, left := 0#18 }) s
  | .unseal _ => rs.foldl (fun (s : State) i => s.setRegion i fun g => { g.settled with sealed := false }) s

/-- The blocks of a sealed region go back to the lane they came from by a sweep to its key; where that key is gone they hold
nothing any more and the slot is free (R257). -/
def unsealRegion (i : Fin 32) (s : State) : State :=
  let g := s.mem.region[i]
  let gone (s : State) : State := (forgetUnits g.lo g.hi (clearGen g.lo g.hi s)).setRegion i fun _ => {}
  if !g.homeAlive then gone s
  else match laneSlot s g.lane with
    | none => gone s
    | some k =>
      let s := s.setRegion i fun g => g.sweepTo k
      { s with mem := { s.mem with sweeps := s.mem.sweeps ++ [{ kind := .unseal 0, old := g.slot g.gen, new := k, region := some i }] } }

/-- Sealed regions whose bundle has been dropped, once no sweep covers them (notes/assumptions/17). -/
def unsealDue (s : State) : State :=
  ((List.finRange 32).filter fun i =>
    let g := s.mem.region[i]
    g.valid && g.sealed && !g.rotating && (s.extentOf (g.lo * 0x10000)).isNone).foldl (fun s i => unsealRegion i s) s

/-- Sweeps whose regions have no block left end. -/
def sweepCheck (s : State) : State :=
  let fin (w : Sweep) : Bool := !sweepWaits s w && (sweepRegions s w).all fun i => s.mem.region[i].left == 0#18
  let done := s.mem.sweeps.filter fin
  let keep := s.mem.sweeps.filter fun w => !fin w
  unsealDue ((done.map fun w => (w, sweepRegions s w)).foldl (fun s p => sweepEnd p.1 p.2 s) { s with mem := { s.mem with sweeps := keep } })

/-- DELETE, by a path that writes REGr_CTRL (R244, R258). -/
def regionDelete (p : Path) (r : Fin 32) (s : State) : State :=
  let g := s.mem.region[r]
  if !g.valid || g.sealed || !s.ownsLane p g.lane then s
  else if s.regionUsed g then s.setRegion r fun g => { g with err := 5#3 }
  else
    sweepCheck ((emptyAdapters r s).setRegion r fun g => { g with
      valid := false, adapter := false, rotating := false, gen := false, err := 0#3, slot0 := 0, slot1 := 0, left := 0#18 })

def execRegionDelete (path : Path) (r : Fin 32) (s : State) : Host.Outcome State Fault Refusal := .next (regionDelete path r s)

/-! ## Partitions and retained banks (R238, R239) -/

/-- The highest-numbered bank of a partition. -/
def engineBank (p : W64) : Option (Fin 64) := (List.finRange 64).reverse.find? fun b => p.getLsbD b.val

/-- Banks that hold a PLACE 1 copy. -/
def State.copyBanks (s : State) : List (Fin 64) := (List.finRange 16).flatMap fun h => s.bundles[h].banks

def bankMask (l : List (Fin 64)) : W64 := l.foldl (fun m b => m ||| BitVec.ofNat 64 (2 ^ b.val)) 0#64

/-- The banks that a write of a partition may not name: those of other lanes, and the mailbox bank (R360). -/
def takenBanks (s : State) (l : LaneId) : W64 :=
  (List.finRange 4).foldl (fun m k => if k = l then m else m ||| s.mem.part[k]) (BitVec.ofNat 64 (2 ^ 63))

/-! ## Rings of the Eye and the Ear in a partition (R274, R293, R296) -/

/-- The banks of a copy ring lie in the partition of a lane of 1 to 3. -/
def copyOk (s : State) (l : LaneId) (bank n : Nat) : Bool :=
  l != 0 && (List.range n).all fun k => decide (bank + k < 64) && s.mem.part[l].getLsbD (bank + k)

/-- Bytes of a capture block. -/
def capBlockBytes (block : Nat) : Nat := (64 + 32 * block + 63) / 64 * 64

/-- Bytes of an audio block of n slots that carry data. -/
def audoBlockBytes (n block : Nat) : Nat := (4 * n * block + 63) / 64 * 64

/-- Bytes from a bank on lie in a lane's partition. -/
def State.inPartition (s : State) (l : LaneId) (bank bytes : Nat) : Bool :=
  decide (bank * 0x80000 + bytes ≤ 0x2000000) &&
    (List.range ((bytes + 0x7FFFF) / 0x80000)).all fun k => s.mem.part[l].getLsbD (bank + k)

/-- A capture ring's setting is one that it can have (R293). -/
def ringOk (s : State) (k : Fin 2) (v : W32) : Bool :=
  bit v 31 && (if k = 0 then ringLane v == 0 else ringLane v != 0) && decide (16 ≤ fld v 0 16) &&
    s.inPartition (ringLane v) (fld v 16 6) ((fld v 28 3 + 1) * capBlockBytes (fld v 0 16))

/-- Slots that carry data. -/
def AudioOut.data (a : AudioOut) : Nat := if a.format = 0#1 then 2 else a.slots.toNat + 1

def audoRingOk (s : State) (v : W32) : Bool :=
  bit v 31 && ringLane v != 0 && decide (16 ≤ fld v 0 16) &&
    s.inPartition (ringLane v) (fld v 16 6) ((fld v 28 3 + 1) * audoBlockBytes s.ear.audo.data (fld v 0 16))

def CapRing.word (r : CapRing) : W32 :=
  bitAt r.en 31 ||| atBit r.nblk.toNat 28 3 ||| atBit r.lane.val 24 2 ||| atBit r.bank.toNat 16 6 ||| r.block.setWidth 32

def AudioOut.ringWord (a : AudioOut) : W32 :=
  bitAt a.en 31 ||| atBit a.nblk.toNat 28 3 ||| atBit a.lane.val 24 2 ||| atBit a.bank.toNat 16 6 ||| a.blockLen.setWidth 32

/-- EN of the rings that no longer lie in the partition of their lane reads 0. -/
def refit (s : State) : State :=
  { s with
    eye := { s.eye with copyEn := s.eye.copyEn && copyOk s s.eye.copyLane s.eye.copyBank.toNat (s.eye.copyBanks.toNat + 1) }
    ear := { s.ear with
      ring := mapIdx s.ear.ring fun k r => { r with en := r.en && ringOk s k r.word }
      audo := { s.ear.audo with en := s.ear.audo.en && audoRingOk s s.ear.audo.ringWord } } }

/-- A write to BH_PARTn_LO or BH_PARTn_HI (R238): one that would take out the engine bank or the bank of a PLACE 1 copy is ignored
whole. A retained bank that it names is the lane's from then on (R239). -/
def bhPartWrite (p : Path) (l : LaneId) (hi : Bool) (v : W32) (s : State) : State :=
  let old := s.mem.part[l]
  if !s.ownsLane p l || (s.lane l).running != 0 then s
  else
    let half : W64 := if hi then v.setWidth 64 <<< 32 ||| (old &&& 0xFFFFFFFF#64) else v.setWidth 64 ||| (old &&& 0xFFFFFFFF00000000#64)
    let keep := old &&& (bankMask s.copyBanks ||| bankMask (engineBank old).toList)
    let new := half &&& ~~~takenBanks s l
    if new &&& keep != keep || (engineBank new).any s.copyBanks.contains then s
    else refit { s with mem := { s.mem with
      part := put s.mem.part l new
      retain := s.mem.retain.map fun (r : Retain) => if new.getLsbD r.bank.toNat then { r with lane := l } else r } }

def execBhPartWrite (path : Path) (lane : LaneId) (hi : Bool) (v : W32) (s : State) : Host.Outcome State Fault Refusal :=
  .next (bhPartWrite path lane hi v s)

/-- The lane whose partition holds a bank. -/
def State.bankLane (s : State) (b : Nat) : Option LaneId := (List.finRange 4).find? fun l => s.mem.part[l].getLsbD b

/-- A write to BH_RETAINk (R239): by the owner of the lanes whose partitions hold the bank and the one marked before. -/
def bhRetainWrite (p : Path) (k : Fin 4) (v : W32) (s : State) : State :=
  let b := fld v 0 6
  let old := s.mem.retain[k]
  match s.bankLane b with
  | some l =>
    if !s.ownsLane p l || (old.valid && !((s.bankLane old.bank.toNat).getD old.lane |> s.ownsLane p)) then s
    else if bit v 7 && (List.finRange 4).any (fun i => i != k && s.mem.retain[i].valid && s.mem.retain[i].bank.toNat == b) then s
    else { s with mem := { s.mem with retain := put s.mem.retain k { lane := l, valid := bit v 7, bank := BitVec.ofNat 6 b } } }
  | none => s

def execBhRetainWrite (path : Path) (k : Fin 4) (v : W32) (s : State) : Host.Outcome State Fault Refusal :=
  .next (bhRetainWrite path k v s)

/-! ## Output regions (R221) -/

/-- Heats of the lane that are accepted and whose completion has not been delivered. -/
def Lane.undelivered (L : Lane) : List W32 :=
  L.runs.map (·.seq) ++ L.heldSeqs.filter fun q => decide ((q - L.shown).toNat < 2 ^ 31)

/-- n bytes at an address meet an output region of a heat that is accepted and whose completion has not been delivered. -/
def State.outOpen (s : State) (a n : Nat) : Bool :=
  (List.finRange 4).any fun l => (s.lane l).undelivered.any fun q => (s.outputsOf l q).any fun x => decide (a < x.1 + x.2 ∧ x.1 < a + n)

/-- What a reader other than a heat finds at an address: nothing fixes the content of an output region until the heat's
completion is delivered (notes/assumptions/25). -/
def openRead (a : Nat) (b : List Byte) (s : State) : List Byte × State :=
  if s.outOpen a b.length then freeBytes b.length s else (b, s)

/-- No logical shell is mapped. -/
def noMap : Vector (Option ShellId) 16 := Vector.replicate 16 none

/-- n units of the Course as the engine reads them; bytes that nothing fixes stand for a unit that does not read. -/
def unitsAt (unit : Nat) : Nat → State → List Byte × State
  | 0, s => ([], s)
  | n + 1, s =>
    let (b, s) := match courseRead none noMap (courseAt (64 * unit)) s with
      | (.ok (some b), s) => openRead (64 * unit) b s
      | (_, s) => freeBytes 64 s
    let (r, s) := unitsAt (unit + 1) n s
    (b ++ r, s)

/-- A heat that ends without committing its outputs leaves its output regions holding what nothing fixes; `map` is the map of its
run. -/
def spoilOutputs (map : Vector (Option ShellId) 16) (rs : List (Nat × Nat)) (s : State) : State :=
  rs.foldl (fun (s : State) x =>
    match courseAt x.1 with
    | .boathouse off =>
      let (b, s) := freeBytes x.2 s
      { s with mem := { s.mem with bh := s.mem.bh.put off b } }
    | .shell ls off =>
      match map[ls] with
      | some i =>
        let (b, s) := freeBytes (Nat.min x.2 (0x80000 - off)) s
        s.setShell i fun k => { k with sram := k.sram.put off b }
      | none => s
    | .dram a =>
      { s with mem := { s.mem with unitKey := s.mem.unitKey.filter fun p => !decide (a ≤ 64 * p.1 ∧ 64 * p.1 < a + x.2) } }
    | .view _ _ => s
    | .unmapped => s) s

/-! ## The host window (R250) -/

/-- The region through which the host link reaches a unit. -/
def State.windowOpen (s : State) (unit : Nat) : Bool :=
  match s.regionOf (unit / 1024) with
  | some i => let g := s.mem.region[i]; g.window && !g.sealed && !g.adapter && (s.lane g.lane).owner == .host
  | none => false

def leWords : List Byte → List W32
  | a :: b :: c :: d :: r => w32 (leNat [a, b, c, d]) :: leWords r
  | _ => []

/-- One window access of a 64-byte unit: served with plaintext, or refused and counted. -/
def windowAccess (unit : Nat) (wr : Option (List Byte)) (s : State) : List Byte × State :=
  if s.dramUp && decide (unit < s.mem.usable.toNat * 1024) && s.windowOpen unit then
    let s := { s with stat := { s.stat with dev := { s.stat.dev with win := s.stat.dev.win + 1 } } }
    match wr with
    | some b => ([], (dramWrite none unit ((List.range 64).map fun k => b.getD k 0#8) s).2)
    | none =>
      match dramRead none unit s with
      | (.ok b, s) => openRead (64 * unit) b s
      | (_, s) => freeBytes 64 s
  else (List.replicate 64 0#8, { s with mem := { s.mem with winRefused := satInc s.mem.winRefused } })

/-- The host link reads or writes a unit; an access to a locked block stalls (R250). -/
def hostWindowAccess (unit : BitVec 28) (wr : Option (List Byte)) (s : State) : State :=
  if s.unitStalls wr.isSome unit.toNat then s
  else
    let (b, s) := windowAccess unit.toNat wr s
    { s with host := { s.host with answer := (0#8, if wr.isSome then [] else leWords b) } }

def execHostWindowAccess (unit : BitVec 28) (wr : Option (List Byte)) (s : State) : Host.Outcome State Fault Refusal := .next (hostWindowAccess unit wr s)

/-- WIN_REFUSED is read and clears (R259). -/
def readWinRefused (s : State) : W32 × State := (s.mem.winRefused, { s with mem := { s.mem with winRefused := 0#32 } })

def winRefusedRead (path : Path) (s : State) : State :=
  let (v, s) := readWinRefused s
  (s.answered path v)

def execWinRefusedRead (path : Path) (s : State) : Host.Outcome State Fault Refusal := .next (winRefusedRead path s)

/-! ## Rotation (R254 to R257) -/

/-- A key already has a sweep: a rotation of it, or a sealing sweep to or from it. -/
def State.keySwept (s : State) (k : Fin 8) : Bool := s.mem.sweeps.any fun w => w.old == k || w.new == k

/-- Start the rotation of the lane's key, or of the plan key; an error code where it cannot start. -/
def startRotation (plan : Bool) (l : LaneId) (s : State) : Except Err State :=
  match slotWith s (if plan then .plan else .lane l) with
  | none => .error .state
  | some old =>
    if s.keySwept old then .error .busy
    else if s.keys.noent then .error .full
    else match freeSlot s with
      | none => .error .full
      | some new =>
        let s := drawKey new (if plan then .planTarget else .laneTarget l) s
        let s := { s with mem := { s.mem with region := s.mem.region.map fun (g : Region) =>
          if g.valid && (if plan then g.sealed else g.lane == l && !g.sealed) then g.sweepTo new else g } }
        .ok { s with mem := { s.mem with sweeps := s.mem.sweeps ++
          [{ kind := if plan then .plan else .lane l, old := old, new := new, region := none }] } }

/-- The next block of a sweep: the lowest not yet swept of its regions. -/
def sweepNext (s : State) (w : Sweep) : Option (Fin 32 × Nat) :=
  (sweepRegions s w).foldl (fun best i =>
    let g := s.mem.region[i]
    if g.left = 0#18 then best
    else
      let b := g.hi - g.left.toNat
      match best with
      | some (_, c) => if b < c then some (i, b) else best
      | none => some (i, b)) none

def State.setSweep (s : State) (k : Nat) (f : Sweep → Sweep) : State :=
  { s with mem := { s.mem with sweeps := s.mem.sweeps.zipIdx.map fun p => if p.2 = k then f p.1 else p.1 } }

/-- The next block of sweep k enters COPY, ROT_PACE after the block before it. -/
def rotationBlockStart (k : Nat) (s : State) : State :=
  match s.mem.sweeps[k]? with
  | some w =>
    if w.phase != .idle || sweepWaits s w then s
    else match sweepNext s w with
      | some (_, b) =>
        if s.mem.retiring.contains b then s
        else
          let s := match w.started with
            | some t => elapseTo (t.toNat + usTicks s.mem.rotPace.toNat) s
            | none => s
          s.setSweep k fun w => { w with phase := .copy, block := b, started := some s.now }
      | none => s
  | none => s

def execRotationBlockStart (sweep : Fin 32) (s : State) : Host.Outcome State Fault Refusal := .next (rotationBlockStart sweep.val s)

/-- The block's ciphertext has reached the scratch page. -/
def rotationCopyDone (k : Nat) (s : State) : State :=
  match s.mem.sweeps[k]? with
  | some w => if w.phase == .copy then s.setSweep k fun w => { w with phase := .rewrite } else s
  | none => s

def execRotationCopyDone (sweep : Fin 32) (s : State) : Host.Outcome State Fault Refusal := .next (rotationCopyDone sweep.val s)

/-- A generation bit flips. -/
def flipGen (l : List Nat) (b : Nat) : List Nat :=
  if l.contains b then l.filter (· != b) else (l.filter (· < b)) ++ b :: l.filter (b < ·)

/-- The block in REWRITE is under the new key: its units keep their plaintext, its bit flips, and the sweep goes on or ends. -/
def rotationRewriteDone (k : Nat) (s : State) : State :=
  match s.mem.sweeps[k]? with
  | some w =>
    if w.phase == .rewrite then
      let b := w.block
      match (sweepRegions s w).find? fun i => s.mem.region[i].covers b with
      | some i =>
        let g := s.mem.region[i]
        let ok := s.mem.kslot[g.slot !g.gen].key
        let nk := s.mem.kslot[g.slot g.gen].key
        let s := { s with mem := { s.mem with
          unitKey := s.mem.unitKey.map fun (p : Nat × Nat) => if p.1 / 1024 = b ∧ p.2 = ok then (p.1, nk) else p
          genBits := flipGen s.mem.genBits b } }
        sweepCheck ((s.setRegion i fun g => { g with left := g.left - 1#18 }).setSweep k fun w => { w with phase := .idle })
      | none => sweepCheck (s.setSweep k fun w => { w with phase := .idle })
    else s
  | none => s

def execRotationRewriteDone (sweep : Fin 32) (s : State) : Host.Outcome State Fault Refusal := .next (rotationRewriteDone sweep.val s)

end Sys2Proof.Machine
end

