-- ==== Sys2Proof/Machine/Faults.lean ====
section
/-! DEFINITION. Fencing of shells, Boathouse banks and rows, decoders and AES pipelines; live copies; what the checks of a stroke
set off; rig-frame trials (R372 to R382, R480). -/

namespace Sys2Proof.Machine
open Sys2Proof

def oneSecond : Nat := 38400000

/-! ## Records -/

/-- The fault record and the fence record of a fence, the flash record of a hard cause, and the self-test that follows an
automatic fence (R376, R388). -/
def fenceRecords (u : UnitRef) (cause : Option Cause) (heat : Option (LaneId × W32)) (s : State) : State :=
  let r := { s.faultRec .fault u cause with
    lane := heat.map Prod.fst
    seqFirst := (heat.map Prod.snd).getD 0#32
    seqLast := (heat.map Prod.snd).getD 0#32
    count := boolNat heat.isSome }
  let s := s.logFault r
  let s := s.logFault { r with number := s.faults.logNum + 1, kind := .fence }
  if cause = some .operatorFence then { s with faults := { s.faults with operator := s.faults.operator ++ [u] } }
  else
    let rec_ : RepairRec :=
      { unit := u.code, kind := if cause = some .calibration then .retired else .fenced, cause := cause, gen := s.generation, detail := 0#64 }
    { s with faults := { s.faults with
      repairQueue := s.faults.repairQueue ++ [rec_]
      testsDue := s.faults.testsDue ++ [(u, s.now)] } }

def logSubstitute (u v : UnitRef) (s : State) : State := s.logFault { s.faultRec .substitute u none with result := v.code }

/-! ## Shells (R375 to R378) -/

def State.shellsIn (s : State) (t : UnitSt) : List ShellId := (List.finRange 18).filter fun i => s.faults.shells[i] == t

/-- Shells in service: ACTIVE or SPARE (R71). -/
def State.inService (s : State) (i : ShellId) : Bool := s.faults.shells[i] == .active || s.faults.shells[i] == .spare

def State.setShellSt (s : State) (i : ShellId) (t : UnitSt) : State :=
  { s with faults := { s.faults with shells := put s.faults.shells i t } }

/-- The image of a frame written into the table stores: each cell that takes part, in cell order, at its window (R189). -/
def Shell.writeImage (f : RigFrame) (img : List Byte) (x : Shell) : Shell :=
  ((f.cell.zipIdx.filter fun p => f.cells.getLsbD p.2).foldl (fun (acc : Bytes × List Byte) p =>
    let n := p.1.tsLen.toNat * 32
    (acc.1.put (2048 * p.2 + p.1.tsBase.toNat * 32) (acc.2.take n), acc.2.drop n)) (x.table, img)).1
  |> fun t => { x with table := t }

/-- A resident rig stands in a slot of a shell, with its table-store image (R49, R190). -/
def Shell.resident (h : Fin 16) (k : Fin 16) (r : Nat × RigFrame × List Byte) (x : Shell) : Shell :=
  let x := { x with slots := put x.slots k ({ frameAt := some (r.1, h), frame := some r.2.1, pending := false } : RigSlot) }
  if r.2.1.writesTable then x.writeImage r.2.1 r.2.2 else x

/-- The resident rigs of a bundle are loaded into their slots of a shell, which brings its domain up. -/
def bundleInto (h : Fin 16) (i : ShellId) (s : State) : State :=
  let b := s.bundle h
  (b.plan.resident.zip b.resSlots).foldl (fun (s : State) p => (touch (Dom.shell i) s).setShell i fun x => x.resident h p.2 p.1) s

/-- The resident rigs of the loaded bundles stand in slots 12 to 15 of a shell. -/
def residentInto (i : ShellId) (s : State) : State :=
  (List.finRange 16).foldl (fun s h => if (s.bundle h).live then bundleInto h i s else s) s

/-- Logical shells that are mapped with n shells in service (R71). -/
def mappedCount (n : Nat) : Nat := if 16 ≤ n then 16 else if 14 ≤ n then 14 else if 12 ≤ n then 12 else n

/-- The map after the count of shells in service has changed without a spare for a logical shell, or has risen: a logical shell of
the variant that R71 gives keeps its shell, an unmapped one takes the lowest shell that no other holds, and the others end. A
spare that comes into the map has its resident rigs loaded again (R49). -/
def remap (s : State) : State :=
  let ins := (List.finRange 18).filter s.inService
  let n := mappedCount ins.length
  let kept : Vector (Option ShellId) 16 := mapIdx s.map fun k x => if k.val < n then x else none
  let m := (List.finRange 16).foldl (fun (m : Vector (Option ShellId) 16) k =>
    if k.val < n ∧ m[k] = none then put m k (ins.find? fun i => !m.toList.contains (some i)) else m) kept
  let new := ins.filter fun i => s.faults.shells[i] == .spare && m.toList.contains (some i)
  new.foldl (fun s i => residentInto i s) { s with
    map := m
    faults := { s.faults with shells := mapIdx s.faults.shells fun i t =>
      if t = .active ∨ t = .spare then (if m.toList.contains (some i) then .active else .spare) else t } }

/-- The logical shell of a fenced shell goes to the SPARE shell with the lowest number, or becomes unmapped (R377). -/
def substituteShell (i : ShellId) (s : State) : State :=
  match (List.finRange 16).find? fun k => s.map[k] == some i with
  | none => s
  | some k =>
    match (s.shellsIn .spare).head? with
    | some j =>
      let s := { s with map := put s.map k (some j) }
      logSubstitute (.shell i) (.shell j) (residentInto j (s.setShellSt j .active))
    | none => remap { s with map := put s.map k none }

/-- A shell in service is fenced: its heat restarts, its domain goes down, a spare takes its place. What the shell held is lost,
its stroke counter with it, which then counts from 0 (DESIGN CHOICE: R26 gives the counter's value at reset only;
notes/assumptions/24). -/
def fenceShell (i : ShellId) (cause : Option Cause) (s : State) : State :=
  if s.inService i then
    let heat := (s.shell i).running
    let s := (restartShell i s).setShellSt i .fenced
    let s := { s with power := s.power.fence (Dom.shell i) }
    let s := { s with rail := { s.rail with govCount := put s.rail.govCount i 0#48 } }
    let s := strFence i (s.setShell i fun _ => {})
    fenceRecords (.shell i) cause heat (substituteShell i s)
  else s

/-! ## Boathouse banks and rows (R379 to R381) -/

def physQuadrant (p : Fin 68) : Nat := if p.val < 64 then p.val / 16 else p.val - 64

/-- The bank number that a physical bank serves. -/
def State.bankServed (s : State) (p : Fin 68) : Option (Fin 64) := (List.finRange 64).find? fun b => s.faults.bankMap[b] == p

/-- The spare bank of a quadrant, while it is free. -/
def State.spareBank (s : State) (q : Nat) : Option (Fin 68) :=
  (List.finRange 68).find? fun p => physQuadrant p == q && s.faults.banks[p] == .spare && !s.faults.copies.any fun c => c.toUnit == p

def State.setBankSt (s : State) (p : Fin 68) (t : UnitSt) : State :=
  { s with faults := { s.faults with banks := put s.faults.banks p t } }

/-- A bank that serves a number is replaced by its quadrant's spare bank through a live copy; without a spare, only an
operator's fence takes it out of service (R381). -/
def fenceBank (p : Fin 68) (cause : Option Cause) (s : State) : State :=
  if s.faults.banks[p] = .spare then fenceRecords (.bank p) cause none (s.setBankSt p .fenced)
  else if s.faults.banks[p] ≠ .active then s
  else match s.bankServed p, s.spareBank (physQuadrant p) with
    | some b, some t =>
      if s.faults.copies.any fun c => c.bank == b && c.row.isNone then s
      else
        fenceRecords (.bank p) cause none { s with faults := { s.faults with
          copies := s.faults.copies ++ [{ bank := b, row := none, fromUnit := p, toUnit := t, copied := 0 }] } }
    | _, _ => if cause = some .operatorFence then fenceRecords (.bank p) cause none (s.setBankSt p .fenced) else s

/-- Spare rows of a bank in use or being filled. -/
def State.rowsUsed (s : State) (p : Fin 68) : Nat :=
  (s.faults.rows.filter fun r => r.1 == p).length + (s.faults.copies.filter fun c => c.fromUnit == p && c.row.isSome).length

/-- A row meets its replacement condition: a spare row takes it by live copy, or the bank is replaced. -/
def replaceRow (p : Fin 68) (row : Fin 2048) (s : State) : State :=
  if s.faults.copies.any fun c => c.fromUnit == p && c.row == some row then s
  else if s.rowsUsed p < 8 then
    match s.bankServed p with
    | some b => { s with faults := { s.faults with
        copies := s.faults.copies ++ [{ bank := b, row := some row, fromUnit := p, toUnit := p, copied := 0 }]
        rowErrs := s.faults.rowErrs.filter fun e => !(e.1 == p && e.2.1 == row) } }
    | none => s
  else fenceBank p (some .uncorrectable) s

/-- A corrected error of a word of a row: errors at 2 different words replace the row. -/
def rowCorrected (p : Fin 68) (row : Fin 2048) (w : Fin 32) (s : State) : State :=
  if s.faults.rowErrs.contains (p, row, w) then s
  else if s.faults.rowErrs.any fun e => e.1 == p && e.2.1 == row then replaceRow p row s
  else { s with faults := { s.faults with rowErrs := s.faults.rowErrs ++ [(p, row, w)] } }

/-- Heats of a DAMAGED bundle that have not started complete with FAULTED (R381). -/
def damageBundle (h : Fin 16) (s : State) : State :=
  let s := s.setBundle h fun b => { b with st := .damaged }
  { s with lanes := s.lanes.map fun L => { L with runs := L.runs.map fun r =>
      if !r.started && r.failed.isNone && (L.acceptOf r.seq).any (fun a => a.handle == h) then
        { r with st := .ended, failed := some .faulted } else r } }

/-- A word of a PLACE 1 copy that turns uncorrectable is copied again from a sealed image; a bundle without one is DAMAGED. -/
def placeOneWord (b : Fin 64) (word : Nat) (s : State) : State :=
  match (List.finRange 16).find? fun h => s.bundles[h].banks.contains b with
  | some h =>
    if (s.bundle h).extent.isSome then
      { s with faults := { s.faults with poisoned := s.faults.poisoned.filter (· != word) } }
    else damageBundle h s
  | none => s

/-- An uncorrectable word of a physical bank: it is poisoned, and its row is replaced. -/
def rowUncorrectable (p : Fin 68) (row : Fin 2048) (w : Fin 32) (s : State) : State :=
  let s := match s.bankServed p with
    | some b =>
      let word := b.val * 0x10000 + row.val * 32 + w.val
      placeOneWord b word { s with faults := { s.faults with
        poisoned := if s.faults.poisoned.contains word then s.faults.poisoned else s.faults.poisoned ++ [word] } }
    | none => s
  replaceRow p row s

/-- The rows that a live copy moves. -/
def LiveCopy.total (c : LiveCopy) : Nat := if c.row.isSome then 1 else 2048

/-- The copier moves one row (R380). -/
def liveCopyRow (bank : Fin 64) (s : State) : State :=
  match s.faults.copies.find? fun c => c.bank == bank && decide (c.copied < c.total) with
  | some c => { s with faults := { s.faults with
      copies := s.faults.copies.map fun x => if x = c then { x with copied := x.copied + 1 } else x } }
  | none => s

def execLiveCopyRow (bank : Fin 64) (s : State) : Host.Outcome State Fault Refusal := .next (liveCopyRow bank s)

/-- A live copy ends: reads switch to the new copy, and an old bank becomes FENCED (R380). -/
def liveCopyDone (bank : Fin 64) (s : State) : State :=
  match s.faults.copies.find? fun c => c.bank == bank && c.copied == c.total with
  | none => s
  | some c =>
    let s := { s with faults := { s.faults with copies := s.faults.copies.filter (· != c) } }
    match c.row with
    | some row =>
      let rec_ : RepairRec :=
        { unit := (UnitRef.row c.fromUnit row).code, kind := .retired, cause := none, gen := s.generation, detail := BitVec.ofNat 64 row.val }
      ({ s with faults := { s.faults with rows := s.faults.rows ++ [(c.fromUnit, row)], repairQueue := s.faults.repairQueue ++ [rec_] } }).logFault
        (s.faultRec .rowReplaced (.row c.fromUnit row) none)
    | none =>
      let s := { s with faults := { s.faults with bankMap := put s.faults.bankMap c.bank c.toUnit } }
      logSubstitute (.bank c.fromUnit) (.bank c.toUnit) ((s.setBankSt c.fromUnit .fenced).setBankSt c.toUnit .active)

def execLiveCopyDone (bank : Fin 64) (s : State) : Host.Outcome State Fault Refusal := .next (liveCopyDone bank s)

/-! ## Decoders and AES pipelines (R382, R247) -/

def freeDecoder (s : State) : Option (Fin 4) :=
  (List.finRange 4).find? fun d => s.faults.decoders[d] == .active && s.mem.decoder[d].busy.isNone

/-- A decoder is fenced: the heat it serves restarts. -/
def fenceDecoder (d : Fin 4) (cause : Option Cause) (s : State) : State :=
  if s.faults.decoders[d] = .active then
    let heat := s.mem.decoder[d].busy.bind fun r => (s.shell r.shell).running
    let s := match s.mem.decoder[d].busy with
      | some r => restartShell r.shell s
      | none => s
    let s := { s with
      faults := { s.faults with decoders := put s.faults.decoders d .fenced }
      mem := { s.mem with decoder := put s.mem.decoder d {} } }
    fenceRecords (.decoder d) cause heat s
  else s

def fenceAes (p : Fin 3) (cause : Option Cause) (s : State) : State :=
  if s.faults.aes[p] = .active then
    fenceRecords (.aes p) cause none { s with faults := { s.faults with aes := put s.faults.aes p .fenced } }
  else s

/-- No AES pipeline but one is left in service: its loss would leave the engine without, so no fault fences it (R372). -/
def lastAes (s : State) : Bool := decide ((s.faults.aes.toList.filter fun t => t == .active).length < 2)

/-- A known-answer test of an AES pipeline ends; two failures in a row fence it, and any other failure is counted and logged (R373). -/
def aesKat (p : Fin 3) (pass : Bool) (s : State) : State :=
  if s.faults.aes[p] ≠ .active then s
  else if pass then { s with faults := { s.faults with aesFails := put s.faults.aesFails p 0 } }
  else
    let n := s.faults.aesFails[p] + 1
    let s := { s with faults := { s.faults with aesFails := put s.faults.aesFails p n } }
    if 2 ≤ n && !lastAes s then fenceAes p (some .knownAnswer) s else s.logFault (s.faultRec .fault (.aes p) (some .knownAnswer))

def execAesKat (p : Fin 3) (pass : Bool) (s : State) : Host.Outcome State Fault Refusal := .next (aesKat p pass s)

/-! ## What the checks of a stroke set off (R373) -/

def State.setHist (s : State) (i : ShellId) (f : ShellHist → ShellHist) : State :=
  { s with faults := { s.faults with hist := upd s.faults.hist i f } }

/-- A detected fault that fences nothing is counted and logged, with the heat of shell i. -/
def logUnitFault (i : ShellId) (u : UnitRef) (cause : Cause) (s : State) : State :=
  let heat := (s.shell i).running
  s.logFault { s.faultRec .fault u (some cause) with
    lane := heat.map Prod.fst, seqFirst := (heat.map Prod.snd).getD 0#32, seqLast := (heat.map Prod.snd).getD 0#32
    count := boolNat heat.isSome }

def logShellFault (i : ShellId) (cause : Cause) (s : State) : State := logUnitFault i (.shell i) cause s

/-- Less than 1 s has passed since an earlier moment. -/
def State.recent (s : State) (t : Option W64) : Bool := match t with
  | some t => decide (s.since t < oneSecond)
  | none => false

/-- What a shell's or the Boathouse's checks find during a stroke of shell i. -/
def strokeFault (i : ShellId) (f : StrokeFault) (s : State) : State :=
  match f with
  | .fine => s
  | .corrected _ _ =>
    let h := (s.faults.hist[i].corrected.filter fun t => decide (s.since t < oneSecond)) ++ [s.now]
    let s := s.setHist i fun x => { x with corrected := h }
    if 16 ≤ h.length then fenceShell i (some .correctedThreshold) s else s
  | .uncorrectable table w =>
    let s := if table then s else s.setShell i fun x => { x with poisoned := x.poisoned ++ [w.val] }
    fenceShell i (some .uncorrectable) s
  | .flitCheck =>
    if s.recent s.faults.hist[i].flitErr then fenceShell i (some .flitCheck) s
    else restartShell i (logShellFault i .flitCheck (s.setHist i fun x => { x with flitErr := some s.now }))
  | .reservedKind => fenceShell i (some .reservedKind) s
  | .bhCorrected p row w => rowCorrected p row w s
  | .bhUncorrectable p row w => rowUncorrectable p row w (restartShell i (logUnitFault i (.bank p) .uncorrectable s))

/-! ## Rig-frame errors (R52, R480) -/

/-- A rig frame (Course unit address and bundle) failed its CRC on a shell: its heat restarts, and a second error within 1 s fences it, or
loads the frame for a trial into slot 0 of a SPARE shell, whose domain comes up. -/
def rigFrameError (i : ShellId) (frame : Nat) (h : Fin 16) (s : State) : State :=
  let second := s.recent s.faults.hist[i].frameErr
  let s := logShellFault i .rigFrameCrc (s.setHist i fun x => { x with frameErr := some s.now })
  let s := restartShell i s
  if second then
    if s.faults.passedFrames.any fun p => p.1 == h && p.2.1 == frame && p.2.2 != i then fenceShell i (some .rigFrameCrc) s
    else match (s.shellsIn .spare).head? with
      | some j =>
        let s := (touch (Dom.shell j) s).setShell j fun x => { x with
          slots := put x.slots 0 ({ frameAt := some (frame, h), frame := none, pending := true } : RigSlot) }
        { s with faults := { s.faults with trial := some { suspect := i, spare := j, handle := h, frame := frame } } }
      | none => s
  else s

end Sys2Proof.Machine
end

