-- ==== Sys2Proof/Machine/Rig.lean ====
section
/-! DEFINITION. What a rig frame fixes of its cells: the routes between cells and edge feeds (R51), the tile of R44, the side
groups of R113, and which operation SUBOP names (R43, R51; notes/assumptions/11). -/

namespace Sys2Proof.Machine
open Sys2Proof

/-! ## Routes (R51)

Cell 8i + j stands in row i from the north and column j from the west; sides are 0 N, 1 E, 2 S, 3 W. -/

/-- Cell n lies on a side of the 8 × 8 grid. -/
def onEdge (n side : Nat) : Bool :=
  match side with
  | 0 => n / 8 == 0
  | 1 => n % 8 == 7
  | 2 => n / 8 == 7
  | _ => n % 8 == 0

/-- The cell next to cell n on a side. -/
def neighbour (n side : Nat) : Option Nat :=
  if onEdge n side then none
  else some (match side with | 0 => n - 8 | 1 => n + 1 | 2 => n + 8 | _ => n - 1)

def opposite (side : Nat) : Nat := (side + 2) % 4

/-- The edge feeds of a direction that a descriptor puts at cell n on a side. -/
def RigFrame.feedsAt (f : RigFrame) (n side dir : Nat) : List Nat :=
  (f.feed.zipIdx.filter fun p => onEdge n side && p.1.bytesPerStroke != 0#8 && p.1.side.toNat == side && p.1.dir.toNat == dir &&
    p.1.pos.toNat == (if side % 2 = 0 then n % 8 else n / 8)).map Prod.snd

/-- The selector names the side-list port or the exponent port. -/
def isPort (b : Byte) : Bool := b == 0x21#8 || b == 0x22#8

def CellRec.passes (c : CellRec) : Bool := c.func == 0x01#8

/-- The selectors of IN with the sides that they are given for: of a pass cell, the first that is not 0 (R51). -/
def CellRec.ins (c : CellRec) : List (Byte × Nat) :=
  if c.passes then (c.inSel.zipIdx.find? fun p => p.1 != 0#8).toList else c.inSel.zipIdx

def CellRec.outs (c : CellRec) : List (Byte × Nat) := c.outSel.zipIdx

/-- Operands go on through a pass cell, and through the cells that a systolic flow crosses (R40, R44, R46). -/
def CellRec.forwards (c : CellRec) : Bool := [0x01, 0x10, 0x11, 0x40, 0x50].contains c.func.toNat

/-- What a route carries: operands or results, or what a port reads or writes. A pass cell hands on either. -/
def CellRec.carries (c : CellRec) (port : Option Byte) (b : Byte) : Bool :=
  c.passes || (match port with | none => !isPort b | some p => b == p)

/-- The neighbours to which a cell's selectors lead on a route; a port's selector leads to the side that it is given for. -/
def RigFrame.nexts (f : RigFrame) (sel : CellRec → List (Byte × Nat)) (port : Option Byte) (n : Nat) : List Nat :=
  match f.cell[n]? with
  | some c => ((sel c).filter fun p => c.carries port p.1).filterMap fun p =>
      if 1 ≤ p.1.toNat ∧ p.1.toNat ≤ 4 then neighbour n (p.1.toNat - 1) else if isPort p.1 then neighbour n p.2 else none
  | none => []

/-- The neighbours whose own selectors name this cell as the other end of an operand's way. -/
def RigFrame.namers (f : RigFrame) (mine theirs : CellRec → List (Byte × Nat)) (n : Nat) : List Nat :=
  (List.range 4).filterMap fun side =>
    if (f.cell[n]?).any fun c => c.passes || (mine c).any fun p => p.2 == side && isPort p.1 then none
    else (neighbour n side).filter fun m => (f.cell[m]?).any fun c => (theirs c).any fun p => p.1.toNat == opposite side + 1

/-- The edge feeds of a direction to which a cell's selectors lead on a route. -/
def RigFrame.feedsHere (f : RigFrame) (sel : CellRec → List (Byte × Nat)) (port : Option Byte) (dir n : Nat) : List Nat :=
  match f.cell[n]? with
  | some c => ((sel c).filter fun p => c.carries port p.1).flatMap fun p =>
      if p.1.toNat / 16 = 1 then [p.1.toNat % 16] else if isPort p.1 then f.feedsAt n p.2 dir else []
  | none => []

/-- What is reached from a frontier by a step, in at most k rounds. -/
def spread (step : Nat → List Nat) : Nat → List Nat → List Nat → List Nat
  | 0, _, seen => seen
  | k + 1, front, seen =>
    let new := (front.flatMap step).eraseDups.filter fun m => !seen.contains m
    if new.isEmpty then seen else spread step k new (seen ++ new)

/-- The cells of the route that ends, or begins, at cell n: n itself and the cells that hand on what the route carries. An array or
exponent vector goes on through the cells that name its port on its way (R51). -/
def RigFrame.route (f : RigFrame) (mine theirs : CellRec → List (Byte × Nat)) (port : Option Byte) (n : Nat) : List Nat :=
  let on (x : Nat) : Bool := x == n || port.isSome || (f.cell[x]?).any CellRec.forwards
  let step (x : Nat) : List Nat := if on x then f.nexts mine port x ++ (if port.isNone then f.namers mine theirs x else []) else []
  (spread step 64 [n] [n]).filter on

/-- The feeds in that come to cell n, straight or through other cells, as operands or at a port; and the feeds out that what leaves it
reaches. -/
def RigFrame.feedsIn (f : RigFrame) (port : Option Byte) (n : Nat) : List Nat :=
  ((f.route CellRec.ins CellRec.outs port n).flatMap (f.feedsHere CellRec.ins port 0)).filter fun k => (f.feed[k]?).any fun d => d.dir == 0#8
def RigFrame.feedsOut (f : RigFrame) (port : Option Byte) (n : Nat) : List Nat :=
  ((f.route CellRec.outs CellRec.ins port n).flatMap (f.feedsHere CellRec.outs port 1)).filter fun k => (f.feed[k]?).any fun d => d.dir == 1#8

/-- The cells whose accumulators come to cell n along the accumulator path, selector 0x30: IN names it on the side from which they
come, OUT on the side to which they go (R47, R51; notes/assumptions/11). -/
def RigFrame.accFrom (f : RigFrame) (n : Nat) : List Nat :=
  let has (x : Nat) (sel : CellRec → List Byte) (side : Nat) : Bool := (f.cell[x]?).any fun c => (sel c)[side]? == some 0x30#8
  let step (x : Nat) : List Nat := (List.range 4).filterMap fun side =>
    (neighbour x side).filter fun m => has x CellRec.inSel side || has m CellRec.outSel (opposite side)
  (spread step 64 [n] [n]).filter (· != n)

/-! ## Cells -/

def noRepeats (l : List Nat) : Bool :=
  match l with
  | [] => true
  | a :: r => !r.contains a && noRepeats r

/-- Elements of a side group, and products of a scale group (R51, R113). -/
def CellRec.groupSize (c : CellRec) : Nat := match c.group.toNat with | 1 => 32 | 2 => 64 | _ => 128

/-- Accumulators that an array-mode cell has in use (R44). -/
def CellRec.accumulators (c : CellRec) : Nat :=
  let has (l : List Nat) : Bool := l.contains c.fmtA.toNat || l.contains c.fmtB.toNat
  if has [0, 1, 2] then 32 else if has [10] then 1 else if has [7, 8, 9] then 4 else 16

/-- The largest tile of an array-mode cell, tokens × channels (R44). -/
def CellRec.tileMax (c : CellRec) : Nat × Nat :=
  match c.accumulators with | 32 => (4, 8) | 16 => (4, 4) | 4 => (2, 2) | _ => (1, 1)

/-- Multiply-accumulates of a convolution cell in a stroke (R43). -/
def CellRec.convMacs (c : CellRec) : Nat := if c.fmtA = 9#4 then 4 else 16

/-- Reduction steps of an array-mode cell in a stroke (R44). -/
def CellRec.steps (c : CellRec) : Nat := if c.fmtA = 0#4 ∨ c.fmtB = 0#4 then 2 else 1

/-- The weight format and the activation format of a table-mode cell (R120). -/
def CellRec.tableFmts (c : CellRec) : Nat × Nat :=
  if c.fmtA.toNat ≤ 2 then (c.fmtA.toNat, c.fmtB.toNat) else (c.fmtB.toNat, c.fmtA.toNat)

/-- Bytes of a product table (R46). -/
def tableSize (wf : Nat) : Nat := if wf = 2 then 32 else 16

/-- Bytes of a cell's table-store window. -/
def CellRec.window (c : CellRec) : Nat := 32 * c.tsLen.toNat

/-- Elements of the cell's tile (R105). -/
def CellRec.tileElems (c : CellRec) : Nat := c.tileT.toNat * c.tileK.toNat

/-- Tiles of a RUN of so many strokes: TILE_K strokes each (R51). -/
def CellRec.tiles (c : CellRec) (count : Nat) : Nat := count / Nat.max 1 c.tileK.toNat

/-- The byte at which a side group's entries begin in its array: blocks of 4c bytes, or of 4 + 4c with a group word in front
(R114). -/
def CellRec.sideByte (c : CellRec) (grouped : Bool) (block : Nat) : Nat :=
  block * (4 * c.sideCap.toNat + (if grouped then 4 else 0)) + (if grouped then 4 else 0)

/-! ## SUBOP (R51; notes/assumptions/11: the codes follow the order of R43) -/

def elemOps : List Elem := [.add, .sub, .mul, .fma, .min, .max, .less, .equal, .sel]
def transOps : List Trans := [.exp, .log, .rsqrt, .recip, .sin, .cos, .silu, .gelu]

def CellRec.elem (c : CellRec) : Option Elem := elemOps[c.subop.toNat]?
def CellRec.optimises (c : CellRec) : Bool := c.func == 0x20#8 && c.subop == 10#8
def CellRec.spins (c : CellRec) : Bool := c.func == 0x20#8 && c.subop == 11#8
def CellRec.converts (c : CellRec) : Bool := c.func == 0x20#8 && c.subop == 9#8
def CellRec.trans (c : CellRec) : Option Trans := transOps[c.subop.toNat]?
def CellRec.softmax (c : CellRec) : Bool := c.func == 0x21#8 && c.subop == 8#8
def CellRec.normalises (c : CellRec) : Bool := c.func == 0x21#8 && c.subop == 9#8

/-- Reduction: 0 sum, 1 max. Top-k: 0 greedy, 1 sampling. Gather and scatter: 0 for I16 indices, 1 for I32. -/
def CellRec.second (c : CellRec) : Bool := c.subop == 1#8

/-- Operands of an elementwise operation. -/
def Elem.arity : Elem → Nat
  | .fma => 3
  | .sel => 4
  | _ => 2

end Sys2Proof.Machine
end

