-- ==== Sys2Proof/Machine/Operands.lean ====
section
/-! DEFINITION. Rig frames as bytes (R50, R51), address generators (R57), and the operand forms of a RUN word: elements on edge
feeds and in table stores, side arrays and exponent vectors (R108, R113 to R116; notes/assumptions/11). -/

namespace Sys2Proof.Machine
open Sys2Proof

/-! ## Bytes as fields -/

def bAt (l : List Byte) (k : Nat) : Byte := l.getD k 0#8
def nAt (l : List Byte) (k n : Nat) : Nat := leNat ((l.drop k).take n)
def w16At (l : List Byte) (k : Nat) : W16 := BitVec.ofNat 16 (nAt l k 2)
def w32At (l : List Byte) (k : Nat) : W32 := w32 (nAt l k 4)
def w64At (l : List Byte) (k : Nat) : W64 := BitVec.ofNat 64 (nAt l k 8)
def zeros (l : List Byte) (k n : Nat) : Bool := ((l.drop k).take n).all fun b => b == 0#8

/-! ## Rig frames (R50, R51) -/

def parseCell (l : List Byte) : CellRec where
  func := bAt l 0
  fmtA := BitVec.ofNat 4 (nAt l 1 1)
  fmtB := BitVec.ofNat 4 (nAt l 1 1 / 16)
  fmtO := BitVec.ofNat 4 (nAt l 2 1)
  accum := BitVec.ofNat 4 (nAt l 2 1 / 16)
  group := bAt l 3
  tileT := bAt l 4
  tileC := bAt l 5
  tileK := w16At l 6
  phases := w16At l 8
  tensor := w16At l 10
  inSel := (l.drop 12).take 4
  outSel := (l.drop 16).take 4
  tsBase := w16At l 20
  tsLen := w16At l 22
  sideCap := bAt l 24
  subop := bAt l 25
  zent := BitVec.ofNat 10 (nAt l 28 4 / 2 ^ 22)
  param := BitVec.ofNat 22 (nAt l 28 4)

def parseFeed (l : List Byte) : FeedRec where
  side := bAt l 0
  pos := bAt l 1
  dir := bAt l 2
  bytesPerStroke := bAt l 3
  gen := bAt l 4
  skew := bAt l 5

def rigMagic : Nat := 0x46474952

/-- The fields of a frame's 4,096 bytes. -/
def parseRig (l : List Byte) : RigFrame where
  writesTable := (bAt l 6).getLsbD 0
  cells := w64At l 8
  drain := w16At l 16
  cell := (List.range 64).map fun n => parseCell ((l.drop (64 + 48 * n)).take 48)
  feed := (List.range 16).map fun n => parseFeed ((l.drop (3136 + 16 * n)).take 16)

/-- The CRC over bytes 0–55 and 64–4,095 holds (R50). -/
def rigCrcOk (l : List Byte) : Bool :=
  nAt l 56 4 == (crc32 (l.take 56 ++ (l.take 4096).drop 64)).toNat && nAt l 0 4 == rigMagic

/-- Bytes of a frame's table-store image, before the padding (R189). -/
def imageBytes (f : RigFrame) : Nat :=
  (f.cell.zipIdx.filter fun p => f.cells.getLsbD p.2).foldl (fun n p => n + p.1.tsLen.toNat * 32) 0

/-- Units of the padded image with its trailer. -/
def imageUnits (f : RigFrame) : Nat := (imageBytes f + 63) / 64 + 1

/-! ## Address generators (R57) -/

/-- The address of step i: the offset formed exactly, modulo WRAP where it is not 0, and the sum modulo 2^37. -/
def AddrGen.addr (g : AddrGen) (i : Nat) : Nat :=
  let inner := Nat.max g.inner.toNat 1
  let off : Int := ((i % inner : Nat) : Int) * g.stride.toInt + ((i / inner : Nat) : Int) * g.outer.toInt
  let off := if g.wrap = 0#37 then off else off % (g.wrap.toNat : Int)
  (((g.base.toNat : Int) + off) % (2 ^ 37 : Int)).toNat

/-- SPACE: the Course in 64-byte units. -/
def AddrGen.course (g : AddrGen) : Bool := g.mode.getLsbD 0
/-- STREAM: straight through the local Course port. -/
def AddrGen.streams (g : AddrGen) : Bool := g.course && g.mode.getLsbD 1

/-! ## A RUN word at work -/

/-- What stays fixed during a RUN word: the shell, the heat, the frame, the generators that AGA to AGD name, STAT, the
predicted exponents, the tensors that feeds carry (R188), and the plan's tensors. -/
structure RunEnv where
  shell : ShellId
  lane : LaneId
  seq : W32
  frame : RigFrame
  ags : List (Fin 16)
  gens : Vector AddrGen 16
  /-- PHASE, COUNT + 1 and DRAIN of the word (R56). -/
  phase : Nat
  count : Nat
  drain : Bool
  ahead : List (Fin 16 × List (List Byte))
  /-- Bytes of the first unit of a generator that the RUN before has taken (R57). -/
  offs : List (Fin 16 × Nat)
  stat : Bool
  planned : Bool
  i16 : Bool
  exps : List (Nat × Int)
  feeds : List (Nat × Nat)
  tensors : List Tensor
  anchor : Byte
  pc : Nat
  spinKey : W64
  /-- The five plan constants of the adapter that the heat has fixed, and η_t of its step (R167, R168). -/
  consts : Vector W32 5
  etaT : W32

/-- What changes: the machine, whether an access has failed, the flags, the counts by tensor, m_hi by tensor, the largest
magnitudes of rescaled rows (R155), the uses of the rescale generators, and the elements whose read crab is counted (R115). -/
structure Rx where
  s : State
  bad : Bool := false
  nan : Bool := false
  ovf : Bool := false
  counts : List (Nat × Counts) := []
  mhi : List (Nat × Int) := []
  sides : List RowSides := []
  rescales : List (Fin 16 × Nat) := []
  crabs : List (Fin 64 × Src) := []
  /-- Where the clipped elements of a block stand: the block's place and the element's index, and who wrote it (R116). -/
  placed : List (((Nat × Nat) × Nat) × (Fin 64 × Src)) := []
  begun : List (Nat × Nat) := []

def Rx.mapShell (r : Rx) (e : RunEnv) (f : Shell → Shell) : Rx := { r with s := r.s.setShell e.shell f }

/-- Add to the counts of a tensor. -/
def addCounts (l : List (Nat × Counts)) (t : Nat) (f : Counts → Counts) : List (Nat × Counts) :=
  if l.any fun p => p.1 == t then l.map fun p => if p.1 = t then (t, f p.2) else p else l ++ [(t, f {})]

def Rx.count (r : Rx) (e : RunEnv) (t : Nat) (f : Counts → Counts) : Rx :=
  if e.stat then { r with counts := addCounts r.counts t f } else r

/-- The largest measured exponent of a tensor (R155). -/
def keepMax (l : List (Nat × Int)) (t : Nat) (m : Int) : List (Nat × Int) :=
  if l.any fun p => p.1 == t then l.map fun p => if p.1 = t then (t, max p.2 m) else p else l ++ [(t, m)]

/-- The largest magnitudes of a row join those already known of it. -/
def joinSides (l : List RowSides) (x : RowSides) : List RowSides :=
  let same (y : RowSides) : Bool := y.tensor == x.tensor && y.place == x.place
  if l.any same then
    l.map fun y => if same y then { y with pos := if y.pos.lt x.pos then x.pos else y.pos, neg := if y.neg.lt x.neg then x.neg else y.neg } else y
  else l ++ [x]

/-! ### Feeds -/

def RunEnv.feed (e : RunEnv) (f : Fin 16) : FeedRec := e.frame.feed.getD f.val ⟨0, 0, 0, 0, 0, 0⟩
def RunEnv.agOf (e : RunEnv) (f : Fin 16) : Fin 16 := e.ags.getD (e.feed f).gen.toNat 0

/-- Feeds that name one generator take their bytes one after another in ascending feed number: what precedes feed f in a
stroke, and the bytes of all of them. -/
def RunEnv.share (e : RunEnv) (f : Fin 16) : Nat × Nat :=
  let same := (List.finRange 16).filter fun k => e.agOf k == e.agOf f
  (same.foldl (fun n k => if k.val < f.val then n + (e.feed k).bytesPerStroke.toNat else n) 0,
   same.foldl (fun n k => n + (e.feed k).bytesPerStroke.toNat) 0)

/-- Where byte p of a feed stands. -/
inductive ByteAt where
  | sram (a : Nat)
  /-- The unit's place in the use of its generator, its Course byte address, and the byte within it. -/
  | course (use : Nat) (unit : Nat) (k : Nat)
deriving DecidableEq, Repr

def RunEnv.byteAt (e : RunEnv) (f : Fin 16) (p : Nat) : ByteAt :=
  let g := e.gens[e.agOf f]
  let bps := Nat.max (e.feed f).bytesPerStroke.toNat 1
  let (before, all) := e.share f
  if g.course then
    let n := ((e.offs.find? fun q => q.1 == e.agOf f).map Prod.snd).getD 0 + p / bps * all + before + p % bps
    .course (n / 64) (64 * g.addr (g.step + n / 64)) (n % 64)
  else .sram (g.addr (g.step + p / bps) + before + p % bps)

/-- Read one byte of a feed: the feed of an adapter argument without its adapter reads 0 (R173). -/
def readByte (e : RunEnv) (f : Fin 16) (p : Nat) (r : Rx) : Byte × Rx :=
  if e.gens[e.agOf f].off then (0#8, r) else
  match e.byteAt f p with
  | .sram a =>
    if a < 0x80000 then
      let x := r.s.shell e.shell
      (x.sram.get a, { r with bad := r.bad || x.poisoned.contains (a / 8) })
    else (0#8, { r with bad := true })
  | .course u a k =>
    match (e.ahead.find? fun q => q.1 == e.agOf f).bind fun q => q.2[u]? with
    | some b => (b.getD k 0#8, r)
    | none =>
      match heatRead e.lane e.seq a r.s with
      | (some b, s) => (b.getD k 0#8, { r with s := s })
      | (none, s) => (0#8, { r with s := s, bad := true })

/-- Write one byte of a feed: into SRAM, or into its Course unit, the unit's other bytes kept. -/
def writeByte (e : RunEnv) (f : Fin 16) (p : Nat) (v : Byte) (r : Rx) : Rx :=
  match e.byteAt f p with
  | .sram a => if a < 0x80000 then r.mapShell e fun x => { x with sram := x.sram.set a v } else { r with bad := true }
  | .course _ a k =>
    match (r.s.lane e.lane).run e.seq with
    | some h =>
      let (old, s) := match courseRead none h.map (courseAt (r.s.adapterAddr e.lane h true a)) r.s with
        | (.ok (some b), s) => (b, s)
        | (_, s) => freeBytes 64 s
      let (ok, s) := heatWrite e.lane e.seq a (old.set k v) s
      { r with s := s, bad := r.bad || !ok }
    | none => { r with bad := true }

def readBytes (e : RunEnv) (f : Fin 16) (p : Nat) : Nat → Rx → List Byte × Rx
  | 0, r => ([], r)
  | n + 1, r =>
    let (b, r) := readByte e f p r
    let (l, r) := readBytes e f (p + 1) n r
    (b :: l, r)

def writeBytes (e : RunEnv) (f : Fin 16) (p : Nat) : List Byte → Rx → Rx
  | [], r => r
  | b :: l, r => writeBytes e f (p + 1) l (writeByte e f p b r)

/-! ### Elements (R75) -/

/-- The table-store byte at a place in a cell's window (R51). -/
def RunEnv.tableAt (c : CellRec) (cell : Fin 64) (p : Nat) : Nat := 2048 * cell.val + c.tsBase.toNat * 32 + p

/-- The bytes at byte p of a source. -/
def srcBytes (e : RunEnv) (c : CellRec) (cell : Fin 64) (src : Src) (p n : Nat) (r : Rx) : List Byte × Rx :=
  match src with
  | .feed f _ => readBytes e f p n r
  | .table _ => ((r.s.shell e.shell).table.range (RunEnv.tableAt c cell p) n, r)

def Src.index : Src → Nat
  | .feed _ k => k
  | .table k => k

/-- The code of element k of a source, for elements of b bits. -/
def readElem (e : RunEnv) (c : CellRec) (cell : Fin 64) (b : Nat) (src : Src) (r : Rx) : Nat × Rx :=
  let lo := src.index * b
  let (l, r) := srcBytes e c cell src (lo / 8) ((lo % 8 + b + 7) / 8) r
  ((leNat l >>> (lo % 8)) % 2 ^ b, r)

/-- Write the code of element k; bits of neighbouring elements in its bytes are kept. -/
def writeElem (e : RunEnv) (c : CellRec) (cell : Fin 64) (b : Nat) (src : Src) (v : Nat) (r : Rx) : Rx :=
  let lo := src.index * b
  let n := (lo % 8 + b + 7) / 8
  let (old, r) := if lo % 8 = 0 ∧ b % 8 = 0 then ([], r) else srcBytes e c cell src (lo / 8) n r
  let m := leNat old
  let keep := m - ((m >>> (lo % 8)) % 2 ^ b) <<< (lo % 8)
  let out := leBytes (keep + (v % 2 ^ b) <<< (lo % 8)) n
  match src with
  | .feed f _ => writeBytes e f (lo / 8) out r
  | .table _ => r.mapShell e fun x => { x with table := x.table.put (RunEnv.tableAt c cell (lo / 8)) out }

/-! ### Values -/

/-- The plan tensor that an operand belongs to: its feed's (R188). DESIGN CHOICE (notes/assumptions/11): for an operand in the
table store, to which R188 gives no tensor, the cell's own. -/
def RunEnv.tensorOf (e : RunEnv) (c : CellRec) : Src → Option Nat
  | .feed f _ => (e.feeds.find? fun p => p.1 == f.val).map Prod.snd
  | .table _ => some (c.tensor.toNat % 4096)

def RunEnv.tensor? (e : RunEnv) (n : Nat) : Option Tensor := e.tensors.find? fun t => t.number.toNat == n

/-- Count a read crab, once for an element of a RUN however many products take it (R115, R141). -/
def readCrab (e : RunEnv) (c : CellRec) (cell : Fin 64) (src : Src) (r : Rx) : Rx :=
  let key : Fin 64 × Src := match src with | .feed _ _ => (0, src) | .table _ => (cell, src)
  if r.crabs.contains key then r
  else
    let r := { r with crabs := key :: r.crabs }
    match e.tensorOf c src with
    | some t => r.count e t fun k => { k with cr := k.cr + 1 }
    | none => r

/-- The zero point of the cell: ZP of the tensor entry ZENT (R112). -/
def zeroPoint (e : RunEnv) (c : CellRec) (r : Rx) : Nat := fld (Tab.word (r.s.shell e.shell).scale c.zent.toNat) 0 8

/-- The exponent of a row of an exponent vector: byte i for row i (R108). None is the code 0x80; no exponent vector stands for
2^0. -/
def readExp (e : RunEnv) (x : Option (Fin 16 × Nat)) (r : Rx) : Option Int × Rx :=
  match x with
  | none => (some 0, r)
  | some (f, row) => let (b, r) := readByte e f row r; (x8 b, r)

/-- The block of an operand's side group in its array (R113, R114). -/
def Opnd.block (o : Opnd) (c : CellRec) (s : SideRef) : Nat := o.row * s.blocks + o.pos / c.groupSize

/-- The first VALID entry of a block with an index, among the first n (R115). -/
def sideEntry (l : List Byte) (index : Nat) : Nat → Option Nat
  | 0 => none
  | n + 1 =>
    let w := nAt l 0 4
    if (w / 2 ^ 23) % 2 = 1 ∧ (w / 2 ^ 16) % 128 = index then some (w % 65536) else sideEntry (l.drop 4) index n

/-- A source whose codes are I16: its tensor's format, or what an I16 segment writes of a predicted tensor (R152). -/
def RunEnv.wide (e : RunEnv) (c : CellRec) (src : Src) : Bool :=
  ((e.tensorOf c src).bind e.tensor?).any fun t => t.format.val == 7 || (e.i16 && t.mode.val == 2)

/-- The code of an operand. A U8Z operand of an I16 tensor is one half of its element (R152): l where the zero point is 0, and h,
as the code h + 128, where it is 128. DESIGN CHOICE (notes/assumptions/11): R152 does not say which half carries the side value of
the escape code of I16; the l half does, and the h half is 0. -/
def readOpCode (e : RunEnv) (c : CellRec) (cell : Fin 64) (fmt : Nat) (src : Src) (r : Rx) : Num × Bool × Rx :=
  let z := zeroPoint e c r
  if fmt = 4 ∧ e.wide c src = true then
    let (code, r) := readElem e c cell 16 src r
    if code = 0x8000 then (if z = 128 then .val .zero else .escape, false, r)
    else
      let q := if z = 128 then (code / 256 + 128) % 256 else code % 256
      (.val (.ofInt ((q : Int) - z)), false, r)
  else
    let (code, r) := readElem e c cell (fmtBits fmt) src r
    let (n, crab) := readCode fmt z code
    (n, crab, r)

/-- An operand in code units: its value and whether it was an escape code with an entry. An escape without an entry reads as 0
and is a read crab. `word` is the feed of the group words, whose blocks have the group word in front of the entries. -/
def readOpnd (e : RunEnv) (c : CellRec) (cell : Fin 64) (fmt : Nat) (word : Option (Fin 16)) (o : Opnd) (r : Rx) : (Num × Bool) × Rx :=
  match readOpCode e c cell fmt o.at_ r with
  | (.val x, crab, r) => ((.val x, false), if crab then readCrab e c cell o.at_ r else r)
  | (.nan, _, r) => ((.nan, false), { r with nan := true })
  | (.escape, _, r) =>
    match o.side with
    | none => ((.val .zero, false), readCrab e c cell o.at_ r)
    | some sd =>
      let (l, r) := readBytes e sd.feed (c.sideByte (word == some sd.feed) (o.block c sd)) (4 * c.sideCap.toNat) r
      match sideEntry l (o.pos % c.groupSize) c.sideCap.toNat with
      | none => ((.val .zero, false), readCrab e c cell o.at_ r)
      | some v =>
        match readCode 9 0 v with
        | (.val x, crab) => ((.val x, true), if crab then readCrab e c cell o.at_ r else r)
        | _ => ((.nan, true), { r with nan := true })

/-- The represented value of an operand: its row exponent applied. Under the exponent 0x80 it is exactly 0 (R82, R98): the element
is not looked at, so it counts no crab and sets no flag (DESIGN CHOICE, notes/assumptions/11, as doRow does). -/
def readValue (e : RunEnv) (c : CellRec) (cell : Fin 64) (fmt : Nat) (o : Opnd) (r : Rx) : Num × Rx :=
  match readExp e (o.exp.map fun f => (f, o.row)) r with
  | (none, r) => (.val .zero, r)
  | (some k, r) =>
    match readOpnd e c cell fmt none o r with
    | ((.val v, _), r) => (.val (v.shift k), r)
    | ((m, _), r) => (m, r)

/-- A format whose outputs carry a row exponent: the integer formats (R126). -/
def isInt (fmt : Nat) : Bool := (qmax fmt).isSome || fmt == 4

/-! ### Outputs -/

/-- The VALID entries of a block: index and H16 value. -/
def sideList (l : List Byte) (n : Nat) : List (Nat × Nat) :=
  (List.range n).filterMap fun k =>
    let w := nAt l (4 * k) 4
    if w / 2 ^ 23 % 2 = 1 then some (w / 2 ^ 16 % 128, w % 65536) else none

/-- The words of a block of c entries: entries by ascending index, then 0. -/
def sideWords (c : Nat) (l : List (Nat × Nat)) : List Byte :=
  (l.flatMap fun p => leBytes (2 ^ 23 + p.1 * 2 ^ 16 + p.2) 4) ++ List.replicate (4 * (c - l.length)) 0#8

/-- An entry takes its place by ascending index. -/
def sidePut (x : Nat × Nat) : List (Nat × Nat) → List (Nat × Nat)
  | [] => [x]
  | y :: l => if x.1 < y.1 then x :: y :: l else y :: sidePut x l

/-- The block of an output, where the plan gives it a side list. -/
def outBlock (e : RunEnv) (c : CellRec) (o : Opnd) (r : Rx) : List (Nat × Nat) × Rx :=
  match o.side with
  | none => ([], r)
  | some sd =>
    let (l, r) := readBytes e sd.feed (c.sideByte false (o.block c sd)) (4 * c.sideCap.toNat) r
    (sideList l c.sideCap.toNat, r)

/-- An entry is left for an element of its group: a free one, or that of a clipped element with a higher index (R116). -/
def sideRoom (c : CellRec) (o : Opnd) (l : List (Nat × Nat)) : Bool :=
  o.side.isSome && (decide (l.length < c.sideCap.toNat) || l.any fun p => decide (o.pos % c.groupSize < p.1))

/-- The source of another element of the same side group. -/
def Src.move (s : Src) (d : Int) : Src :=
  match s with
  | .feed f k => .feed f ((k : Int) + d).toNat
  | .table k => .table ((k : Int) + d).toNat

/-- Where byte p of a feed stands, as a pair: an SRAM address of a shell, or a Course address. -/
def RunEnv.placeOf (e : RunEnv) (f : Fin 16) (p : Nat) : Nat × Nat :=
  match e.byteAt f p with
  | .sram a => (e.shell.val + 1, a)
  | .course _ u k => (0, u + k)

/-- The block of an output's side group, by its place. -/
def RunEnv.blockPlace (e : RunEnv) (c : CellRec) (o : Opnd) (sd : SideRef) : Nat × Nat := e.placeOf sd.feed (c.sideByte false (o.block c sd))

/-- A clipped element gets its entry. The entries go by ascending index, whatever order the elements come in, and whichever cell or feed
writes them: where the block is full, the clipped element with the highest index loses its entry and is written as ±qmax where it
stands (R116). An element of an earlier RUN stands at its index's distance on this feed. -/
def sideWrite (e : RunEnv) (c : CellRec) (cell : Fin 64) (o : Opnd) (v : Nat) (l : List (Nat × Nat)) (r : Rx) : Rx :=
  match o.side with
  | none => r
  | some sd =>
    let i := o.pos % c.groupSize
    let all := sidePut (i, v) l
    let r := writeBytes e sd.feed (c.sideByte false (o.block c sd)) (sideWords c.sideCap.toNat (all.take c.sideCap.toNat))
      { r with placed := ((e.blockPlace c o sd, i), (cell, o.at_)) :: r.placed }
    match all[c.sideCap.toNat]? with
    | none => r
    | some (j, w) =>
      let q := (qmax c.fmtO.toNat).getD 0
      let at_ := ((r.placed.find? fun p => p.1 == (e.blockPlace c o sd, j)).map Prod.snd).getD (cell, o.at_.move ((j : Int) - i))
      let r := writeElem e (e.frame.cell.getD at_.1.val c) at_.1 (fmtBits c.fmtO.toNat) at_.2
        (intCode (fmtBits c.fmtO.toNat) (if w.testBit 15 then -(q : Int) else q)) r
      r.count e (c.tensor.toNat % 4096) fun k => { k with sw := k.sw - 1 }

/-- Elements that pad a row of I3 or I4 to its byte boundary hold code 0 (R75). -/
def padRow (e : RunEnv) (c : CellRec) (cell : Fin 64) (o : Opnd) (r : Rx) : Rx :=
  let per := match c.fmtO.toNat with | 1 => 8 | 2 => 2 | _ => 1
  if o.last then
    (List.range ((per - (o.at_.index + 1) % per) % per)).foldl (fun r (k : Nat) =>
      writeElem e c cell (fmtBits c.fmtO.toNat) (o.at_.move ((k : Int) + 1)) 0 r) r
  else r

/-- Write an element: x is exact, at the scale of the output's codes. Its class is counted for the cell's tensor. -/
def putCode (e : RunEnv) (c : CellRec) (cell : Fin 64) (o : Opnd) (x : Num) (r : Rx) : Rx :=
  let fmt := c.fmtO.toNat
  let (l, r) := outBlock e c o r
  let w := convertTo fmt (zeroPoint e c r) (sideRoom c o l) x
  let r := writeElem e c cell (fmtBits fmt) o.at_ w.code r
  let r := match w.side with
    | some v => sideWrite e c cell o v l r
    | none => r
  let r := if w.cls = .nan then { r with nan := true } else r
  (padRow e c cell o r).count e (c.tensor.toNat % 4096) fun k => k.write w

/-- The predicted exponent that the heat uses for the cell's tensor (R106). -/
def RunEnv.predicted (e : RunEnv) (c : CellRec) : Int :=
  ((e.exps.find? fun p => p.1 == c.tensor.toNat % 4096).map Prod.snd).getD 0

/-- The exponent of an output's row: byte i of its vector for row i (R108). -/
def writeExp (e : RunEnv) (o : Opnd) (b : Byte) (r : Rx) : Rx :=
  match o.exp with
  | some f => writeByte e f o.row b r
  | none => r

/-- Where the exponent of an output's row stands in its vector, which tells rows apart: the offset from BASE of the vector's generator
in SRAM, alike on every shell over which the row is spread, or a Course address (R108, R155). -/
def RunEnv.rowPlace (e : RunEnv) (o : Opnd) : Nat × Nat :=
  match o.exp with
  | some f => match e.byteAt f o.row with
    | .sram a => (1, ((a : Int) - (e.gens[e.agOf f].base.toNat : Int)).toNat)
    | .course _ u k => (0, u + k)
  | none => (0, 0)

/-- A row counts for m_hi (R155): it has a measured exponent, and a U8Z row fits it. -/
def mhiOf (fmt z : Nat) (row : List Num) : Option Int :=
  match measured fmt z row with
  | none => none
  | some m =>
    let (p, n) := rowSides row
    if fmt = 4 ∧ ¬ fits p n (255 - z) z m then none else some m

/-- A row converted whole in the planned formats (R155). -/
def Rx.noteRow (r : Rx) (e : RunEnv) (c : CellRec) (row : List Num) : Rx :=
  if e.planned then
    match mhiOf c.fmtO.toNat (zeroPoint e c r) row with
    | some m => { r with mhi := keepMax r.mhi (c.tensor.toNat % 4096) m }
    | none => r
  else r

/-- A value that a rescale writes: its row is spread over shells, and the largest magnitudes are combined (R155). -/
def Rx.noteValue (r : Rx) (e : RunEnv) (c : CellRec) (o : Opnd) (x : Num) : Rx :=
  if e.planned then
    let (p, n) := rowSides [x]
    let x : RowSides := { tensor := c.tensor.toNat % 4096, place := e.rowPlace o, fmt := c.fmtO.toNat, z := zeroPoint e c r, pos := p, neg := n }
    { r with sides := joinSides r.sides x }
  else r

def scaleNum (k : Int) : Num → Num
  | .val v => .val (v.shift k)
  | n => n

/-- Write a value of the rescale: an integer output takes the tensor's predicted exponent and writes it to its vector (R126). -/
def putValue (e : RunEnv) (c : CellRec) (cell : Fin 64) (o : Opnd) (x : Num) (r : Rx) : Rx :=
  if isInt c.fmtO.toNat then
    let ey := e.predicted c
    putCode e c cell o (scaleNum (-ey) x) (writeExp e o (x8Code ey) (r.noteValue e c o x))
  else putCode e c cell o x r

def putCodes (e : RunEnv) (c : CellRec) (cell : Fin 64) : List (Opnd × Num) → Rx → Rx
  | [], r => r
  | (o, x) :: xs, r => putCodes e c cell xs (putCode e c cell o x r)

/-- How the exponent of an output row is found: measured, predicted, or none for a floating-point tensor (R104, R106, R152, R167). -/
def rowMode (e : RunEnv) (c : CellRec) : Nat :=
  let m := ((e.tensor? (c.tensor.toNat % 4096)).map (·.mode.val)).getD 3
  if e.i16 && m = 2 then 1 else m

/-- Write a row that stands whole in the shell (R104 to R108): its measured exponent or the tensor's predicted one, and its codes. -/
def putRow (e : RunEnv) (c : CellRec) (cell : Fin 64) (outs : List Opnd) (vs : List Num) (r : Rx) : Rx :=
  let z := zeroPoint e c r
  let r := r.noteRow e c vs
  let exp (b : Byte) (r : Rx) : Rx := match outs with | o :: _ => writeExp e o b r | [] => r
  match rowMode e c with
  | 1 =>
    match measured c.fmtO.toNat z vs with
    | some m => putCodes e c cell (outs.zip (vs.map (scaleNum (-m)))) (exp (x8Code m) r)
    | none => putCodes e c cell (outs.zip vs) (exp 0x80#8 r)
  | 2 =>
    let ey := e.predicted c
    putCodes e c cell (outs.zip (vs.map (scaleNum (-ey)))) (exp (x8Code ey) r)
  | _ => putCodes e c cell (outs.zip vs) r

end Sys2Proof.Machine
end

