-- ==== Sys2Proof/Machine/Image.lean ====
section
/-! DEFINITION. A bundle image as bytes (R178 to R200): its header, section table and records, and the checks of steps 1 to 5 of
LOAD (R201). Within a step, checks run in the order of the rules (notes/assumptions/16). -/

namespace Sys2Proof.Machine
open Sys2Proof

/-- A check with its error code. -/
def chk (b : Bool) (e : Err) : Except Err Unit := if b then .ok () else .error e

/-! ## Header and signature block (R179, R181) -/

/-- A bundle header. -/
structure Header where
  onchip : Bool
  lookout : Bool
  id : W64
  nsect : Nat
  nentry : Nat
  sigoff : Nat
  resident : List Nat
  keySlot : Fin 4
deriving DecidableEq, Repr

/-- Step 1 of R201, for a device of a silicon revision. -/
def checkHeader (rev : Nat) (im : List Byte) : Except Err Header := do
  chk (nAt im 0 4 == 0x4C444E42) .conf
  chk (nAt im 4 2 == 1) .ver
  chk (nAt im 12 2 == 0x0480) .ver
  chk (decide (nAt im 14 1 ≤ rev)) .ver
  chk (nAt im 15 1 == 0) .conf
  let nsect := nAt im 32 2
  let nentry := nAt im 34 2
  let sig := nAt im 36 4
  let nres := nAt im 40 4
  chk (decide (1 ≤ nsect ∧ nsect ≤ 64 ∧ 1 ≤ nentry ∧ nentry ≤ 256)) .conf
  chk (decide (sig % 64 = 0 ∧ 128 + 64 * nsect ≤ sig ∧ sig + 128 = nAt im 16 8 ∧ nAt im 16 8 = im.length)) .conf
  chk (decide (nAt im 8 4 < 4) && nAt im 24 8 != 0 && decide (nres ≤ 4) && zeros im 96 32) .conf
  chk (nAt im sig 4 == 0x31474953) .conf
  chk (nAt im (sig + 4) 1 == 1) .ver
  chk (decide (nAt im (sig + 5) 1 ≤ 3) && zeros im (sig + 6) 2 && zeros im (sig + 72) 56) .conf
  .ok {
    onchip := (bAt im 8).getLsbD 0, lookout := (bAt im 8).getLsbD 1, id := w64At im 24
    nsect := nsect, nentry := nentry, sigoff := sig
    resident := (List.range nres).map fun k => nAt im (44 + 4 * k) 4
    keySlot := ⟨nAt im (sig + 5) 1 % 4, Nat.mod_lt _ (by decide)⟩ }

/-! ## Section table (R180, R182) -/

/-- An entry of the section table; its place in the table. -/
structure Sect where
  index : Nat
  type : Nat
  optional : Bool
  varmask : Byte
  place : Nat
  offset : Nat
  size : Nat
  count : Nat
deriving DecidableEq, Repr

def parseSect (im : List Byte) (k : Nat) : Sect :=
  let l := (im.drop (128 + 64 * k)).take 64
  { index := k, type := nAt l 0 2 % 2 ^ 15, optional := decide (2 ^ 15 ≤ nAt l 0 2), varmask := bAt l 2, place := nAt l 3 1
    offset := nAt l 8 8, size := nAt l 16 8, count := nAt l 24 4 }

/-- The PLACE values that a type allows; none for an unknown type. -/
def placesOf : Nat → Option (List Nat)
  | 1 => some [2] | 2 => some [2] | 3 => some [2] | 4 => some [0, 1] | 5 => some [0, 1] | 6 => some [2] | 7 => some [0, 1]
  | 8 => some [2] | 9 => some [3] | 10 => some [1] | 11 => some [3] | 12 => some [2] | 13 => some [0, 1] | _ => none

/-- Types that may appear more than once. -/
def manyOf (t : Nat) : Bool := [4, 5, 7, 13].contains t

/-- The section's type is known; one of an unknown optional type is ignored (R182). -/
def Sect.known (x : Sect) : Bool := (placesOf x.type).isSome

/-- A section covers a variant. -/
def Sect.covers (x : Sect) (v : Nat) : Bool := x.varmask == 0#8 || x.varmask.getLsbD v

/-- Step 3 of R201. -/
def checkTable (h : Header) (im : List Byte) : Except Err (List Sect) := do
  let ss := (List.range h.nsect).map (parseSect im)
  chk (ss.all fun x => zeros im (128 + 64 * x.index + 4) 4 && zeros im (128 + 64 * x.index + 28) 4 && decide (x.varmask.toNat < 8)) .conf
  chk (ss.all fun x => decide (x.offset % 64 = 0 ∧ 128 + 64 * h.nsect ≤ x.offset ∧ x.offset + x.size ≤ h.sigoff)) .conf
  chk (ss.all fun x => ss.all fun y => x.index == y.index || x.size == 0 || y.size == 0 ||
    decide (x.offset + x.size ≤ y.offset ∨ y.offset + y.size ≤ x.offset)) .conf
  chk (ss.all fun x => (placesOf x.type).isSome || x.optional) .ver
  chk (ss.all fun x => match placesOf x.type with | some l => l.contains x.place | none => decide (x.place ≤ 3)) .conf
  chk (ss.all fun x => (placesOf x.type).isNone || manyOf x.type || (ss.filter fun y => y.type == x.type).length == 1) .conf
  chk (!h.onchip || ss.all fun x => x.place != 0) .conf
  .ok ss

def Sect.bytes (x : Sect) (im : List Byte) : List Byte := (im.drop x.offset).take x.size

/-- Step 4 of R201: SHA-256 of every section. -/
def checkDigests (im : List Byte) (ss : List Sect) : Except Err Unit :=
  chk (ss.all fun x => sha256 (x.bytes im) == (im.drop (128 + 64 * x.index + 32)).take 32) .key

/-! ## Records -/

/-- The records of a section of a type, cut into pieces of n bytes; COUNT must agree. -/
def fixedRecords (im : List Byte) (ss : List Sect) (type n : Nat) : Except Err (List (List Byte)) :=
  match ss.find? fun x => x.type == type with
  | none => .ok []
  | some x => do
    chk (x.size == n * x.count) .conf
    .ok ((List.range x.count).map fun k => ((x.bytes im).drop (n * k)).take n)

/-- Records of varying length, one after another: each parse answers what it read and how many bytes it took. -/
def parseSeq {α : Type} (f : List Byte → Except Err (α × Nat)) : Nat → List Byte → Except Err (List α)
  | 0, l => if l.isEmpty then .ok [] else .error .conf
  | n + 1, l =>
    match f l with
    | .error e => .error e
    | .ok (x, k) =>
      if l.length < k then .error .conf
      else match parseSeq f n (l.drop k) with
        | .error e => .error e
        | .ok r => .ok (x :: r)

def seqRecords {α : Type} (im : List Byte) (x : Sect) (f : List Byte → Except Err (α × Nat)) : Except Err (List α) :=
  parseSeq f x.count (x.bytes im)

/-- The records of the one section of a type. -/
def oneSection {α : Type} (im : List Byte) (ss : List Sect) (type : Nat) (f : List Byte → Except Err (α × Nat)) : Except Err (List α) :=
  match ss.find? fun x => x.type == type with
  | none => .ok []
  | some x => seqRecords im x f

/-- A segment or check-point number, or 0xFFFF for none. -/
def optNum (n : Nat) : Option Nat := if n = 0xFFFF then none else some n

/-- The span numbers that the SEGMENT and CHECK records name. -/
def spanNumbers (segs : List (List Byte)) (checks : List Nat) : List Nat :=
  ((segs.map fun l => nAt l 4 2) ++ checks).eraseDups.filter (· != 0xFFFF)

/-- A span field: 0 to 63, or 0xFFFF. -/
def spanOf (n : Nat) : Except Err (Option (Fin 64)) :=
  if n = 0xFFFF then .ok none else if h : n < 64 then .ok (some ⟨n, h⟩) else .error .conf

def finE (n k : Nat) : Except Err (Fin n) := if h : k < n then .ok ⟨k, h⟩ else .error .conf

/-- An argument descriptor (R184). -/
def parseArgDesc (l : List Byte) : Except Err ArgDesc := do
  let kind ← finE 4 (nAt l 0 1)
  let ag ← finE 16 (nAt l 1 1)
  chk (decide (nAt l 2 2 < 4096)) .conf
  chk (kind.val != 2 || zeros l 4 4) .conf
  chk (kind.val != 3 || decide (nAt l 4 4 + 4 ≤ 0x80000)) .conf
  .ok { kind := kind, ag := ag, tensor := BitVec.ofNat 12 (nAt l 2 2), param := w32At l 4 }

/-- An ENTRY record (R184). -/
def parseEntry (l : List Byte) : Except Err (Entry × Nat) := do
  let flags := nAt l 2 2
  let narg := nAt l 6 1
  let tallies : BitVec 256 := BitVec.ofNat 256 (nAt l 8 32)
  let hostAdd := flags.testBit 4
  chk (decide (flags < 32 ∧ 1 ≤ nAt l 4 2 ∧ nAt l 4 2 ≤ 25000 ∧ narg ≤ 8)) .conf
  chk (if hostAdd then tallies.getLsbD (nAt l 7 1) else nAt l 7 1 == 0) .conf
  chk (zeros l 42 2 && zeros l 50 2 && zeros l 58 2) .conf
  let args ← (List.range narg).mapM fun k => parseArgDesc ((l.drop (64 + 8 * k)).take 8)
  let var (k : Nat) : EntryVar := { firstSeg := optNum (nAt l (40 + 8 * k) 2), work := nAt l (44 + 8 * k) 4 }
  .ok ({ number := nAt l 0 2, create := flags.testBit 0, update := flags.testBit 1, readsAdapter := flags.testBit 2
         l0only := flags.testBit 3, hostAdd := hostAdd, deadline := nAt l 4 2, htal := bAt l 7, tallies := tallies
         variants := ⟨#[var 0, var 1, var 2], rfl⟩, args := args }, 64 + 8 * narg)

/-- A SEGMENT record (R186, R199). -/
def parseSegment (l : List Byte) : Except Err Segment := do
  let variant ← finE 3 (nAt l 2 1)
  let kind ← finE 3 (nAt l 3 1)
  let span ← spanOf (nAt l 4 2)
  chk (decide (nAt l 6 2 < 2 ^ (16 - 2 * variant.val)) && zeros l 26 6) .conf
  .ok { number := nAt l 0 2, variant := variant, kind := kind, span := span, lsmask := BitVec.ofNat 16 (nAt l 6 2)
        prog := nAt l 8 4, scale := nAt l 12 4, oper := nAt l 16 4, strokes := nAt l 20 4, next := optNum (nAt l 24 2) }

/-- A CHECK record (R197, R199). -/
def parseCheck (l : List Byte) : Except Err (Check × Nat) := do
  let rule ← finE 6 (nAt l 2 1)
  let nalt := nAt l 3 1
  let span ← spanOf (nAt l 4 2)
  let src := nAt l 10 2
  let par := nAt l 12 4
  chk (decide (1 ≤ nalt ∧ nalt ≤ 8)) .conf
  chk (match rule.val with
    | 1 => decide (src < 16) | 2 => decide (src < 4096) | 3 => decide (src < 4096) | 4 => decide (src < 256) | _ => src == 0) .conf
  chk (match rule.val with
    | 1 =>
      let n := par / 2 ^ 24
      decide (1 ≤ n ∧ n ≤ 16 ∧ (par / 2 ^ 20) % 16 = 0 ∧ par % 2 ^ 20 + n ≤ 0x80000)
    | 5 => decide (1 ≤ par ∧ par ≤ 65535)
    | _ => par == 0) .conf
  chk ((List.range nalt).all fun k => zeros l (16 + 8 * k + 6) 2) .conf
  .ok ({ number := nAt l 0 2, rule := rule, span := span, i16seg := optNum (nAt l 6 2), h16seg := optNum (nAt l 8 2)
         source := src, param := w32 par
         alts := (List.range nalt).map fun k =>
           { seg := optNum (nAt l (16 + 8 * k) 2), lo := nAt l (18 + 8 * k) 2, hi := nAt l (20 + 8 * k) 2 } }, 16 + 8 * nalt)

/-- A program record (R187, R60). -/
def parseProgram (l : List Byte) : Except Err (Program × Nat) := do
  let ls ← finE 16 (nAt l 0 1)
  let n := nAt l 2 2
  chk (zeros l 1 1 && zeros l 4 12 && n != 0) .conf
  chk (decide (n ≤ 4096)) .full
  .ok ({ lshell := ls, words := (List.range n).map fun k => w64At l (16 + 8 * k) }, 16 + 8 * n)

/-- A scale-file image (R193). -/
def parseScale (l : List Byte) : Except Err (ScaleImage × Nat) := do
  let ls ← finE 16 (nAt l 0 1)
  let n := nAt l 4 2
  chk (zeros l 6 2 && n != 0) .conf
  chk (decide (nAt l 2 2 + n ≤ 1024)) .full
  .ok ({ lshell := ls, anchor := bAt l 1, first := nAt l 2 2, entries := (List.range n).map fun k => w32At l (8 + 4 * k) }, 8 + 4 * n)

/-- A TENSOR record (R192): a weight is no U8Z (R110). DESIGN CHOICE (notes/assumptions/16): R192 names no reaction where ZENT is not 0 while ZP
is unused, or names another entry than the cell's own ZENT; neither is checked, and the field is kept as it stands. -/
def parseTensor (l : List Byte) : Except Err Tensor := do
  let fmt ← finE 12 (nAt l 2 1)
  let mode ← finE 4 (nAt l 3 1)
  chk (decide (nAt l 0 2 < 4096 ∧ nAt l 6 2 < 1024 ∧ nAt l 8 1 ≤ 4 ∧ nAt l 9 1 ≤ 3) && zeros l 10 6) .conf
  chk (if mode.val = 2 then nAt l 4 1 != 0x80 else nAt l 4 1 == 0) .conf
  chk (fmt.val == 4 || nAt l 5 1 == 0) .conf
  chk (fmt.val != 4 || mode.val != 0) .conf
  .ok { number := BitVec.ofNat 12 (nAt l 0 2), format := fmt, mode := mode, initExp := bAt l 4, zp := bAt l 5
        zent := BitVec.ofNat 10 (nAt l 6 2), sideCap := nAt l 8 1, group := nAt l 9 1 }

/-- A WATCH record (R194, R146). -/
def parseWatch (l : List Byte) : Except Err Watch := do
  let span ← finE 64 (nAt l 4 1)
  chk (decide (nAt l 2 2 < 4096 ∧ nAt l 5 1 < 16 ∧ nAt l 5 1 ≠ 0)) .conf
  .ok { entry := nAt l 0 2, tensor := BitVec.ofNat 12 (nAt l 2 2), span := span, dmax := nAt l 5 1
        adaptC := nAt l 6 2, adaptF := nAt l 8 2, rerunC := nAt l 10 2, rerunF := nAt l 12 2, nmin := nAt l 14 2 }

/-- A BUDGET record (R196). -/
def parseBudget (l : List Byte) : Except Err (Budget × Nat) := do
  let n := nAt l 3 1
  chk (decide (nAt l 0 2 < 4096 ∧ nAt l 2 1 ≤ 2 ∧ 1 ≤ n ∧ n ≤ 32) && zeros l 5 3 && nAt l 4 1 != 0) .conf
  let term (k : Nat) : BudgetTerm :=
    let t := (l.drop (8 + 8 * k)).take 8
    { kind := nAt t 0 1, x := bAt t 1, tensor := nAt t 2 2, mant := w16At t 4, cexp := bAt t 6 }
  let ts := (List.range n).map term
  chk (ts.all fun t => decide (t.kind ≤ 2) && (t.kind == 0 || t.x == 0#8) && (if t.kind = 1 then decide (t.tensor < 4096) else t.tensor == 0)) .conf
  chk ((List.range n).all fun k => zeros l (8 + 8 * k + 7) 1) .conf
  .ok ({ tensor := nAt l 0 2, alt := nAt l 2 1, headroom := nAt l 4 1, terms := ts }, 8 + 8 * n)

/-- An ENTROPY table (R195): the code is complete and repeats no symbol. -/
def parseEntropy (l : List Byte) : Except Err (Entropy × Nat) := do
  let n := nAt l 2 2
  let fmt ← finE 12 (nAt l 4 1)
  let maxLen := nAt l 5 1
  let counts := (List.range 12).map fun k => nAt l (6 + 2 * k) 2
  let syms := (l.drop 32).take n
  let len := (32 + n + 15) / 16 * 16
  chk (decide (2 ≤ n ∧ n ≤ 256 ∧ fmt.val ≤ 3 ∧ 1 ≤ maxLen ∧ maxLen ≤ 12) && zeros l 30 2 && zeros l (32 + n) (len - 32 - n)) .conf
  chk (counts.zipIdx.foldl (fun a p => a + p.1 * 2 ^ (11 - p.2)) 0 == 4096 && counts.foldl (· + ·) 0 == n) .conf
  chk ((counts.drop maxLen).all (· == 0) && noRepeats (syms.map BitVec.toNat)) .conf
  .ok ({ table := nAt l 0 2, format := fmt, maxLen := maxLen, counts := counts, symbols := syms }, len)

/-- A relocation (R187): program record, word and target section. -/
structure Reloc where
  prog : Nat
  word : Nat
  sect : Nat
deriving DecidableEq, Repr

def parseReloc (l : List Byte) : Except Err Reloc := do
  chk (zeros l 6 2) .conf
  .ok { prog := nAt l 0 2, word := nAt l 2 2, sect := nAt l 4 2 }

/-- An operand list (R188). -/
def parseOperands (l : List Byte) : Except Err (List OperandRec × Nat) := do
  let n := nAt l 0 4
  chk (decide (4 + 4 * n ≤ l.length)) .conf
  let rs := (List.range n).map fun k =>
    { lshell := nAt l (4 + 4 * k) 1, feed := nAt l (5 + 4 * k) 1, tensor := nAt l (6 + 4 * k) 2 : OperandRec }
  chk (rs.all fun r => decide (r.lshell < 16 ∧ r.feed < 16 ∧ (r.tensor < 4096 ∨ r.tensor = 0xFFFF))) .conf
  .ok (rs, 4 + 4 * n)

/-! ## Rig frames (R52, R189) -/

def funcCodes : List Nat := [0x00, 0x01, 0x10, 0x11, 0x20, 0x21, 0x30, 0x31, 0x40, 0x50, 0x51, 0x52, 0x60, 0x61, 0x70]

/-- Functions that write an output tensor in a format. -/
def writerCodes : List Nat := [0x10, 0x11, 0x20, 0x21, 0x30, 0x40, 0x50, 0x51, 0x52, 0x70]

def selectorOk (c : Byte) : Bool :=
  let n := c.toNat
  decide (n ≤ 4 ∨ (0x10 ≤ n ∧ n ≤ 0x1F) ∨ n = 0x20 ∨ n = 0x21 ∨ n = 0x22 ∨ n = 0x30)

/-- The PARAM fields of a function (R51). -/
def paramOk (c : CellRec) : Bool :=
  let p := c.param.toNat
  match c.func.toNat with
  | 0x10 => decide (p < 4)
  | 0x11 => decide (p < 4)
  | 0x40 => decide (1 ≤ p % 16 ∧ p % 16 ≤ 7 ∧ 1 ≤ p / 16 % 16 ∧ p / 16 % 16 ≤ 7 ∧ 1 ≤ p / 256 % 4 ∧ p / 256 % 4 ≤ 2 ∧ p < 2 ^ 11)
  | 0x50 => decide (1 ≤ p ∧ p ≤ 1024)
  | 0x70 => decide (1 ≤ p ∧ p ≤ 64)
  | _ => p == 0

/-- The formats leave the weight of an array, table or convolution cell without a zero point (R110). Which operand of an array or
convolution cell is the weight is open, so only U8Z in both is refused; a table cell's weight is the operand that R120 allows
there (DESIGN CHOICE, notes/assumptions/16). -/
def CellRec.weightOk (c : CellRec) : Bool :=
  match c.func.toNat with
  | 0x10 => c.fmtA != 4#4 || c.fmtB != 4#4
  | 0x40 => c.fmtA != 4#4 || c.fmtB != 4#4
  | 0x11 => c.tableFmts.1 != 4
  | _ => true

/-- The checks of one cell record: codes, formats, parameters, windows (R52), weights without zero point (R110), rows of softmax
and RMS normalisation in one shell (R135), and no group words in table mode: with no side entries, a side-list port there could
carry nothing else (R114, R119; notes/assumptions/16). -/
def cellOk (feeds : List FeedRec) (n : Nat) (c : CellRec) : Bool :=
  let f := c.func.toNat
  funcCodes.contains f && decide (c.fmtA.toNat ≤ 11 ∧ c.fmtB.toNat ≤ 11 ∧ c.fmtO.toNat ≤ 11 ∧ c.accum.toNat ≤ 3 ∧ c.group.toNat ≤ 3) &&
  (!writerCodes.contains f || (c.fmtO != 0#4 && c.fmtO != 11#4)) && paramOk c &&
  decide (c.tsLen.toNat ≤ 64 ∧ c.tsBase.toNat + c.tsLen.toNat ≤ 64 ∧ c.sideCap.toNat ≤ 4 ∧ c.tensor.toNat < 4096) &&
  ((f != 0x10 && f != 0x11) || decide (1 ≤ c.tileK.toNat ∧ c.tileK.toNat ≤ 32768)) &&
  (c.inSel ++ c.outSel).all selectorOk &&
  (c.inSel ++ c.outSel).all (fun b => b.toNat / 16 != 1 || (match feeds[b.toNat % 16]? with | some d => onEdge n d.side.toNat | none => false)) &&
  c.weightOk && (!(c.softmax || c.normalises) || decide (c.tileElems ≤ 65536)) &&
  (f != 0x11 || c.sideCap != 0 || c.inSel.all (· != 0x21#8))

def feedOk (l : List Byte) (d : FeedRec) : Bool :=
  zeros l 6 10 && (zeros l 0 6 || decide (d.side.toNat ≤ 3 ∧ d.pos.toNat ≤ 7 ∧ d.dir.toNat ≤ 1 ∧ 1 ≤ d.bytesPerStroke.toNat ∧
    d.bytesPerStroke.toNat ≤ 8 ∧ d.gen.toNat ≤ 3 ∧ d.skew.toNat ≤ 14))

/-- A frame and the 64-byte units that it and its image take; the image's padding and the trailer's last bytes are 0 (R189). -/
def parseFrame (l : List Byte) : Except Err (RigFrame × Nat) := do
  chk (nAt l 0 4 == rigMagic && nAt l 4 2 == 1 && decide (nAt l 6 2 < 2)) .conf
  chk (zeros l 18 38 && zeros l 60 4 && zeros l 3392 704) .conf
  let f := parseRig l
  chk (f.cell.zipIdx.all fun p => cellOk f.feed p.2 p.1 && zeros l (64 + 48 * p.2 + 26) 2 && zeros l (64 + 48 * p.2 + 32) 16) .conf
  chk (f.feed.zipIdx.all fun p => feedOk ((l.drop (3136 + 16 * p.2)).take 16) p.1) .conf
  let n := imageBytes f
  let im := l.drop 4096
  chk (!f.writesTable || (zeros im n (64 * (imageUnits f - 1) - n) && zeros im (64 * (imageUnits f - 1) + 4) 60)) .conf
  .ok (f, 64 + if f.writesTable then imageUnits f else 0)

/-- The frames of a RIG section with their offsets in units. -/
def parseFrames : Nat → Nat → List Byte → Except Err (List (Nat × RigFrame))
  | 0, _, l => if l.isEmpty then .ok [] else .error .conf
  | n + 1, at_, l => do
    let (f, k) ← parseFrame l
    chk (decide (64 * k ≤ l.length)) .conf
    let r ← parseFrames n (at_ + k) (l.drop (64 * k))
    .ok ((at_, f) :: r)

/-! ## A parsed bundle -/

/-- The records of a bundle, with their sections; rig frames by section and unit offset. -/
structure Parsed2 where
  entries : List Entry
  segments : List Segment
  checks : List Check
  programs : List (Sect × List Program)
  scales : List (Sect × List ScaleImage)
  rigs : List (Nat × Nat × RigFrame)
  tensors : List Tensor
  watches : List Watch
  budgets : List Budget
  entropy : List Entropy
  relocs : List Reloc
  operands : List (List OperandRec)

def parseAll (h : Header) (im : List Byte) (ss : List Sect) : Except Err Parsed2 := do
  let entries ← oneSection im ss 1 parseEntry
  chk (entries.length == h.nentry && noRepeats (entries.map (·.number))) .conf
  let segRecs ← fixedRecords im ss 2 32
  let checkSpans ← oneSection im ss 3 fun l => .ok (nAt l 4 2, 16 + 8 * nAt l 3 1)
  chk (decide ((spanNumbers segRecs checkSpans).length ≤ 64)) .full
  let segments ← segRecs.mapM parseSegment
  chk (decide (segments.length ≤ 4096)) .full
  let checks ← oneSection im ss 3 parseCheck
  chk (decide (checks.length ≤ 4096)) .full
  chk (noRepeats (segments.map (·.number)) && noRepeats (checks.map (·.number))) .conf
  let programs ← (ss.filter fun x => x.type == 4).mapM fun x => do .ok (x, ← seqRecords im x parseProgram)
  let scales ← (ss.filter fun x => x.type == 7).mapM fun x => do .ok (x, ← seqRecords im x parseScale)
  let rigs ← (ss.filter fun x => x.type == 5).mapM fun x => do
    .ok ((← parseFrames x.count 0 (x.bytes im)).map fun p => (x.index, p.1, p.2))
  let tensors ← (← fixedRecords im ss 6 16).mapM parseTensor
  chk (decide (tensors.length ≤ 4096)) .full
  chk (noRepeats (tensors.map fun t => t.number.toNat)) .conf
  let watches ← (← fixedRecords im ss 8 16).mapM parseWatch
  let budgets ← oneSection im ss 9 parseBudget
  let entropy ← oneSection im ss 10 parseEntropy
  chk (decide (entropy.length ≤ 64)) .full
  let relocs ← (← fixedRecords im ss 11 8).mapM parseReloc
  let operands ← oneSection im ss 12 parseOperands
  chk (h.resident.all fun k => decide (k < rigs.flatten.length)) .conf
  .ok { entries, segments, checks, programs, scales, rigs := rigs.flatten, tensors, watches, budgets, entropy, relocs, operands }

/-! ## Stroke programs (R60, R62) -/

/-- The field of n bits at bit lo of a stroke word. -/
def wfld (w : W64) (lo n : Nat) : Nat := (w.toNat >>> lo) % 2 ^ n

def wKind (w : W64) : Nat := wfld w 60 4
def wSel (w : W64) : Fin 8 := ⟨wfld w 57 3, Nat.mod_lt _ (by decide)⟩

/-- A 4-bit field as a generator or slot number. -/
def wNum (w : W64) (lo : Nat) : Fin 16 := ⟨wfld w lo 4, Nat.mod_lt _ (by decide)⟩

/-- Reserved payload bits are 0, and fields have legal values (R56). -/
def wordOk (w : W64) : Bool :=
  match wKind w with
  | 0 => wfld w 0 44 == 0
  | 1 => wfld w 0 1 == 0
  | 2 => wfld w 0 40 == 0
  | 3 => wfld w 38 2 == 0
  | 4 => wfld w 0 11 == 0
  | 5 => decide (wfld w 37 3 ≤ 5) && (wfld w 37 3 != 5 || decide (wfld w 0 37 < 4))
  | 6 => wfld w 0 1 == 0 && wfld w 41 3 != 0
  | 7 => wfld w 0 6 == 0 && wfld w 6 16 != 0 && decide (wfld w 6 16 ≤ 4095)
  | 8 => wfld w 0 44 == 0
  | _ => false

/-- What a program has done up to a word: wait registers set, slots loaded with the frames that relocations name, the current
slot, and a RUN without DRAIN whose flow still runs, with its phase. -/
structure Walk where
  waits : List (Fin 8) := []
  loaded : List (Fin 16 × Option RigFrame) := []
  cur : Option (Fin 16) := none
  frame : Option RigFrame := none
  open_ : Option Nat := none

/-- Cells of a frame that take part in a phase with one of some functions. -/
def RigFrame.inPhase (f : RigFrame) (p : Nat) (fs : List Nat) : List CellRec :=
  (f.cell.zipIdx.filter fun c => f.cells.getLsbD c.2 && c.1.phases.getLsbD p && fs.contains c.1.func.toNat).map Prod.fst

/-- One word of the walk; `rig` gives the frame that the word's relocation names, `res` the resident frames. -/
def walkWord (res : List RigFrame) (rig : Option RigFrame) (w : W64) (k : Walk) : Except Err Walk := do
  chk (wordOk w && (wSel w == 0 || k.waits.contains (wSel w))) .conf
  chk (k.open_.isNone || [1, 4, 5, 6, 8].contains (wKind w)) .conf
  match wKind w with
  | 1 =>
    let ph := wfld w 20 4
    chk k.cur.isSome .conf
    chk (match k.open_ with | some p => p == ph | none => true) .conf
    match k.frame with
    | some f =>
      chk ((f.inPhase ph [0x10]).all fun c => (wfld w 24 20 + 1) % c.tileK.toNat == 0) .conf
      .ok { k with open_ := if !w.getLsbD 2 && !(f.inPhase ph [0x10, 0x11]).isEmpty then some ph else none }
    | none => .ok { k with open_ := none }
  | 2 =>
    let sl := wNum w 40
    if sl.val < 12 then do
      chk (k.loaded.any fun p => p.1 == sl) .conf
      .ok { k with cur := some sl, frame := ((k.loaded.find? fun p => p.1 == sl).bind (·.2)) }
    else do
      chk (decide (sl.val - 12 < res.length)) .conf
      .ok { k with cur := some sl, frame := res[sl.val - 12]? }
  | 3 =>
    let sl := wNum w 40
    chk (k.cur != some sl && decide (sl.val < 12 ∨ sl.val - 12 < res.length)) .conf
    .ok { k with loaded := (sl, rig) :: k.loaded }
  | 6 => .ok { k with waits := ⟨wfld w 41 3, Nat.mod_lt _ (by decide)⟩ :: k.waits }
  | _ => .ok k

/-- The frames that the RIG words of a program select. -/
def walkWords (res : List RigFrame) (rig : Nat → Option RigFrame) : Nat → List W64 → Walk → Except Err (List RigFrame)
  | _, [], _ => .ok []
  | n, w :: r, k => do
    let k ← walkWord res (rig n) w k
    let fs ← walkWords res rig (n + 1) r k
    .ok (if wKind w = 2 then k.frame.toList ++ fs else fs)

/-- Loops: bodies stay in the program, and bodies that share a word use different levels. -/
def loopsOk (ws : List W64) : Bool :=
  let ls := (ws.zipIdx.filter fun p => wKind p.1 == 7).map fun p => (p.2, wfld p.1 6 16, wfld p.1 42 2)
  ls.all fun a => decide (a.2.1 ≤ a.1) &&
    ls.all fun b => a.1 == b.1 || a.2.2 != b.2.2 || decide (a.1 < b.1 - b.2.1 ∨ b.1 < a.1 - a.2.1)

/-- END is the last word and no other. -/
def endOk (ws : List W64) : Bool := ws.zipIdx.all fun p => (wKind p.1 == 0) == (p.2 + 1 == ws.length)

/-- A program record against R60 and R62; its frames. -/
def checkProgram (res : List RigFrame) (rig : Nat → Option RigFrame) (p : Program) : Except Err (List RigFrame) := do
  let fs ← walkWords res rig 0 p.words {}
  chk (loopsOk p.words && endOk p.words) .conf
  .ok fs

/-! ## Relocations (R187) -/

def Parsed2.allPrograms (p : Parsed2) : List Program := p.programs.flatMap Prod.snd

/-- The frame that word n of program k names through a relocation. -/
def Parsed2.rigOf (p : Parsed2) (k n : Nat) : Option RigFrame :=
  match p.relocs.find? fun r => r.prog == k && r.word == n with
  | some r =>
    match p.allPrograms[k]? with
    | some pr => (p.rigs.find? fun f => f.1 == r.sect && f.2.1 == wfld (pr.words.getD n 0#64) 0 38).map fun f => f.2.2
    | none => none
  | none => none

def checkRelocs (ss : List Sect) (p : Parsed2) : Except Err Unit :=
  chk (p.relocs.all fun r =>
    match (p.allPrograms[r.prog]?).bind (fun x => x.words[r.word]?), ss[r.sect]? with
    | some w, some x => (wKind w == 3 || (wKind w == 5 && wfld w 37 3 == 0)) && decide (x.place < 2)
    | _, _ => false) .conf

/-! ## The graph (R199, R146, R185, R194) -/

def Parsed2.seg (p : Parsed2) (n : Nat) : Option Segment := p.segments.find? fun g => g.number == n
def Parsed2.check (p : Parsed2) (n : Nat) : Option Check := p.checks.find? fun c => c.number == n

/-- The numbers that may follow a segment: the alternatives of its check point. -/
def Parsed2.alts (p : Parsed2) (g : Segment) : List Nat :=
  match g.next.bind p.check with
  | some c => c.alts.filterMap (·.seg)
  | none => []

/-- With the re-run alternatives. -/
def Parsed2.follow (p : Parsed2) (g : Segment) : List Nat :=
  p.alts g ++ (match g.next.bind p.check with | some c => c.i16seg.toList ++ c.h16seg.toList | none => [])

/-- Segment numbers reached from some, in at most n rounds. -/
def Parsed2.reach (p : Parsed2) : Nat → List Nat → List Nat
  | 0, l => l
  | n + 1, l =>
    let new := ((l.filterMap p.seg).flatMap p.follow).eraseDups.filter fun k => !l.contains k
    if new.isEmpty then l else p.reach n (l ++ new)

/-- The segments of an entry's variant. -/
def Parsed2.segsOf (p : Parsed2) (e : Entry) (v : Fin 3) : List Segment :=
  match e.variants[v].firstSeg with
  | some f => (p.reach p.segments.length [f]).filterMap p.seg
  | none => []

def Parsed2.allSegs (p : Parsed2) (e : Entry) : List Segment := p.segsOf e 0 ++ p.segsOf e 1 ++ p.segsOf e 2

/-- A segment number names a segment of a variant. -/
def Parsed2.isSeg (p : Parsed2) (v : Fin 3) (n : Nat) : Bool := (p.seg n).any fun g => g.variant == v

/-- A segment's links. -/
def Parsed2.linksOk (p : Parsed2) (g : Segment) : Bool :=
  match g.next with
  | none => true
  | some n =>
    match p.check n with
    | none => false
    | some c =>
      let rerun (s : Option Nat) (kind : Nat) : Bool := match s with
        | none => true
        | some k => (p.seg k).any fun x => x.variant == g.variant && x.kind.val == kind && x.span == c.span
      c.alts.all (fun a => a.seg.all (p.isSeg g.variant)) && rerun c.i16seg 1 && rerun c.h16seg 2

/-- Segments that lie on no path that ends, when passes of RULE 5 check points are cut. -/
def Parsed2.prune (p : Parsed2) : Nat → List Segment → List Segment
  | 0, l => l
  | n + 1, l =>
    let next (g : Segment) : List Nat := if (g.next.bind p.check).any fun c => c.rule.val == 5 then [] else p.alts g
    let keep := l.filter fun g => (next g).any fun k => l.any fun x => x.number == k
    if keep.length = l.length then l else p.prune n keep

def Parsed2.noCycle (p : Parsed2) (l : List Segment) : Bool := (p.prune (l.length + 1) l).isEmpty

/-- PROGRAM or SCALE sections that cover a variant: exactly one, or none is found. -/
def coverOf {α : Type} (l : List (Sect × α)) (v : Nat) : Option α :=
  match l.filter fun x => x.1.covers v with
  | [x] => some x.2
  | _ => none

/-- Logical shells of a mask in ascending order. -/
def shellsOf (m : BitVec 16) : List (Fin 16) := (List.finRange 16).filter fun k => m.getLsbD k.val

/-- Records from an index on, one for each logical shell of the mask, which they name in order. -/
def recordsFor {α : Type} (l : List α) (ls : α → Fin 16) (at_ : Nat) (m : BitVec 16) : Option (List α) :=
  let r := (l.drop at_).take (shellsOf m).length
  if r.map ls = shellsOf m then some r else none

/-- The programs and images of a segment. -/
def Parsed2.partsOf (p : Parsed2) (g : Segment) : Option (List Program × List ScaleImage) :=
  match coverOf p.programs g.variant.val, coverOf p.scales g.variant.val with
  | some ps, some sc =>
    match recordsFor ps (·.lshell) g.prog g.lsmask, recordsFor sc (·.lshell) g.scale g.lsmask with
    | some a, some b => some (a, b)
    | _, _ => none
  | _, _ => none

/-- A program writes BASE of a generator. -/
def Program.writesBase (x : Program) (ag : Fin 16) : Bool :=
  x.words.any fun w => wKind w == 5 && wfld w 37 3 == 0 && wNum w 40 == ag

/-- Spans of an entry. -/
def Parsed2.spansOf (p : Parsed2) (e : Entry) : List (Fin 64) :=
  ((p.allSegs e).filterMap (·.span)) ++ ((p.allSegs e).filterMap fun g => (g.next.bind p.check).bind (·.span))

def checkEntry (p : Parsed2) (e : Entry) : Except Err Unit :=
  chk ((List.finRange 3).all fun v =>
    match e.variants[v].firstSeg with
    | none => true
    | some f =>
      let gs := p.segsOf e v
      p.isSeg v f && gs.all p.linksOk && p.noCycle gs &&
      gs.all fun g => decide (g.oper < p.operands.length) && (match p.partsOf g with
        | some (ps, _) => ps.all fun x => e.args.all fun a => a.kind.val == 3 || !x.writesBase a.ag
        | none => false)) .conf

/-- The rules of a watch record (R146). DESIGN CHOICE (notes/assumptions/16): where several check points close the span, each by its
SPAN field, RERUN_C or RERUN_F asks each of them for both alternatives. -/
def checkWatch (p : Parsed2) (w : Watch) : Bool :=
  match p.entries.find? fun e => e.number == w.entry, p.tensors.find? fun t => t.number == w.tensor with
  | some e, some t =>
    let none_ (n : Nat) : Bool := n == 0xFFFF
    (p.spansOf e).contains w.span &&
    (t.mode.val != 0 || (none_ w.adaptC && none_ w.adaptF && none_ w.rerunC && none_ w.rerunF)) &&
    ((none_ w.adaptC && none_ w.adaptF) || t.mode.val == 2) &&
    ((none_ w.rerunC && none_ w.rerunF) ||
      let closing := ((p.allSegs e).filterMap fun g => g.next.bind p.check).filter fun c => c.span == some w.span
      !closing.isEmpty && closing.all fun c => c.i16seg.isSome && c.h16seg.isSome)
  | _, _ => false

/-! ## Zero points and modes (R110, R112, R126) -/

def isIntFmt (f : BitVec 4) : Bool := [1, 2, 3, 4, 7].contains f.toNat

/-- A cell's output: an integer format needs an activation, predicted where a rescale writes it. -/
def outOk (p : Parsed2) (c : CellRec) : Bool :=
  !(writerCodes.contains c.func.toNat && isIntFmt c.fmtO) ||
  (match p.tensors.find? fun t => t.number.toNat == c.tensor.toNat with
    | some t => t.mode.val == 2 || (t.mode.val == 1 && !([0x10, 0x11, 0x40, 0x50, 0x51].contains c.func.toNat))
    | none => false)

/-- A cell of the elementwise function that measures its row keeps to 65,536 elements (R105, R128): the output is measured, or predicted
in an I16 segment, where R152 measures it. -/
def measureOk (p : Parsed2) (i16 : Bool) (c : CellRec) : Bool :=
  c.func != 0x20#8 || decide (c.tileElems ≤ 65536) ||
  (match p.tensors.find? fun t => t.number.toNat == c.tensor.toNat with
    | some t => !(t.mode.val == 1 || (t.mode.val == 2 && i16))
    | none => true)

/-- The cell names a U8Z tensor at its tensor entry. -/
def CellRec.usesZ (c : CellRec) : Bool :=
  writerCodes.contains c.func.toNat && (c.fmtA == 4#4 || c.fmtB == 4#4 || c.fmtO == 4#4)

/-- U8Z tensors that cell n of a frame names: its output, and those whose elements reach it as operands. -/
def zTensors (p : Parsed2) (ops : List OperandRec) (ls : Fin 16) (f : RigFrame) (n : Nat) (c : CellRec) : List Tensor :=
  let fed := if c.fmtA == 4#4 || c.fmtB == 4#4 then
      let reach := f.feedsIn none n
      ops.filterMap fun o => if o.lshell == ls.val && reach.contains o.feed then some o.tensor else none
    else []
  let out := if writerCodes.contains c.func.toNat && c.fmtO == 4#4 then [c.tensor.toNat] else []
  p.tensors.filter fun t => t.format.val == 4 && (fed ++ out).contains t.number.toNat

/-- The entry of an image at an index. -/
def ScaleImage.at_ (x : ScaleImage) (k : Nat) : Option W32 := if k < x.first then none else x.entries[k - x.first]?

/-- The segment's images hold the zero points of its U8Z tensors, and no other entry has one. -/
def zerosOk (p : Parsed2) (ops : List OperandRec) (frames : List (Fin 16 × List RigFrame)) (imgs : List ScaleImage) : Bool :=
  let named := frames.flatMap fun q => q.2.flatMap fun f =>
    (f.cell.zipIdx.filter fun c => f.cells.getLsbD c.2 && c.1.usesZ).map fun c => (q.1, f, c)
  let zents := named.map fun q => q.2.2.1.zent.toNat
  (named.all fun q => (zTensors p ops q.1 q.2.1 q.2.2.2 q.2.2.1).all fun t =>
    imgs.all fun x => (x.at_ q.2.2.1.zent.toNat).any fun w => fld w 0 8 == t.zp.toNat) &&
  imgs.all fun x => x.entries.zipIdx.all fun w => fld w.1 0 8 == 0 || zents.contains (x.first + w.2)

/-- Number of the first program record of a section, over all PROGRAM sections. -/
def firstProgram (p : Parsed2) (v : Nat) : Nat :=
  ((p.programs.takeWhile fun x => !x.1.covers v).map fun x => x.2.length).foldl (· + ·) 0

/-- The frames that a segment's programs select, by logical shell. -/
def segFrames (p : Parsed2) (res : List RigFrame) (g : Segment) : Except Err (List (Fin 16 × List RigFrame)) :=
  match p.partsOf g with
  | none => .ok []
  | some (ps, _) => do
    let base := firstProgram p g.variant.val + g.prog
    ps.zipIdx.mapM fun x => do .ok (x.1.lshell, ← checkProgram res (p.rigOf (base + x.2)) x.1)

/-- The tensors that a segment's operand list brings to its cells of a function, by the feeds that reach a cell. -/
def fedTensors (p : Parsed2) (g : Segment) (frames : List (Fin 16 × List RigFrame)) (cell : CellRec → Bool) (feeds : RigFrame → Nat → List Nat) :
    List Nat :=
  frames.flatMap fun q => q.2.flatMap fun f =>
    (f.cell.zipIdx.filter fun c => f.cells.getLsbD c.2 && cell c.1).flatMap fun c =>
      let reach := feeds f c.2
      (p.operands.getD g.oper []).filterMap fun o =>
        if o.lshell == q.1.val && reach.contains o.feed && o.tensor != 0xFFFF then some o.tensor else none

/-- No weight tensor comes with group words to an array-mode cell and to a table-mode cell as well (R119). -/
def groupWordsOk (p : Parsed2) (res : List RigFrame) : Except Err Unit := do
  let segs ← p.segments.mapM fun g => do .ok (g, ← segFrames p res g)
  let grouped := segs.flatMap fun x => fedTensors p x.1 x.2 (fun c => c.func == 0x10#8 && c.group != 0#8) fun f n => f.feedsIn (some 0x21#8) n
  let tabled := segs.flatMap fun x => fedTensors p x.1 x.2 (fun c => c.func == 0x11#8) fun f n => f.feedsIn none n ++ f.feedsIn (some 0x21#8) n
  chk (p.tensors.all fun t => t.mode.val != 0 || !grouped.contains t.number.toNat || !tabled.contains t.number.toNat) .conf

def checkSegment (p : Parsed2) (res : List RigFrame) (g : Segment) : Except Err Unit :=
  match p.partsOf g with
  | none => .ok ()
  | some (_, imgs) => do
    let fs ← segFrames p res g
    chk (fs.all fun q => q.2.all fun f => (f.cell.zipIdx.filter fun c => f.cells.getLsbD c.2).all fun c => outOk p c.1 && measureOk p (g.kind.val == 1) c.1) .conf
    chk (zerosOk p (p.operands.getD g.oper []) fs imgs) .conf

/-- Some entry creates or updates an adapter. -/
def Parsed2.trains (p : Parsed2) : Bool := p.entries.any fun e => e.create || e.update

/-- The limits of adapter training (R177). -/
def checkTraining (t : Training) : Except Err Unit := do
  chk ([8, 16, 24, 32].contains t.rank) .conf
  chk (decide (t.tensors ≤ 64)) .conf
  chk (decide (t.params ≤ 4194304)) .full
  chk (decide (1 ≤ t.sequences ∧ t.sequences ≤ 16)) .conf
  chk (decide (t.tokens ≤ 4096)) .conf

/-- Step 5 of R201. `l3` says that the bundle serves L3: an entry that writes an adapter runs there only (R174). -/
def checkContents (l3 : Bool) (h : Header) (im : List Byte) (ss : List Sect) : Except Err Parsed2 := do
  let p ← parseAll h im ss
  let res := h.resident.filterMap fun k => (p.rigs[k]?).map fun f => f.2.2
  checkRelocs ss p
  let _ ← p.entries.mapM (checkEntry p)
  let _ ← p.segments.mapM (checkSegment p res)
  groupWordsOk p res
  let _ ← p.allPrograms.zipIdx.mapM fun x => checkProgram res (p.rigOf x.2) x.1
  chk (p.watches.all (checkWatch p)) .conf
  chk (noRepeats (p.watches.map fun w => (w.entry * 4096 + w.tensor.toNat) * 64 + w.span.val)) .conf
  chk (p.entries.all fun e => l3 || (!e.create && !e.update)) .conf
  if p.trains then checkTraining (Config.training im) else .ok ()
  .ok p

end Sys2Proof.Machine
end

