-- ==== Sys2Proof/Machine/Rails.lean ====
section
/-! DEFINITION. The core rail: PMBus, rail requests, PG_CORE, PM_ALERT_N and the floor (R398 to R403, R405, R415, R421). -/

namespace Sys2Proof.Machine
open Sys2Proof

/-! ## Fuses (R463) -/

/-- Bit k of the OTP is burnt. -/
def otpBit (o : List Nat) (k : Nat) : Bool := o.contains k

/-- The field of n bits at bit lo of the OTP. -/
def otpField (o : List Nat) (lo : Nat) : Nat → Nat
  | 0 => 0
  | n + 1 => boolNat (otpBit o lo) + 2 * otpField o (lo + 1) n

def pmicAddr (s : State) : Nat := otpField s.fuse.shadow 2568 7
def pmicPage (s : State) : Nat := otpField s.fuse.shadow 2575 8

/-! ## PMBus (R399) -/

/-- One bit of the packet error code, x^8 + x^2 + x + 1. -/
def pecBit (c : Byte) : Byte := if c.getLsbD 7 then (c <<< 1) ^^^ 0x07#8 else c <<< 1

def pec (l : List Byte) : Byte := l.foldl (fun c b => (List.range 8).foldl (fun c _ => pecBit c) (c ^^^ b)) 0#8

/-- A write transaction: address, command, data, PEC. -/
def pmbWrite (s : State) (cmd : Byte) (data : List Byte) : List Byte :=
  let l := BitVec.ofNat 8 (2 * pmicAddr s) :: cmd :: data
  l ++ [pec l]

/-- VOUT_MODE shows ULINEAR16 (R399). -/
def linear16 (m : Byte) : Bool := m.toNat / 32 == 0

/-- The mode's signed exponent N. -/
def voutExp (m : Byte) : Int := if m.toNat % 32 < 16 then (m.toNat % 32 : Nat) else (m.toNat % 32 : Nat) - 32

/-- round(v / 1,000 × 2^−N). -/
def voutCode (m : Byte) (mv : Nat) : Nat :=
  let n := voutExp m
  if n ≤ 0 then (2 * mv * 2 ^ (-n).toNat + 1000) / 2000 else (2 * mv + 1000 * 2 ^ n.toNat) / (2000 * 2 ^ n.toNat)

/-- The bytes of a request: PAGE, unless the page is 0xFF, then VOUT_COMMAND. -/
def railBytes (s : State) (mv : Nat) : List Byte :=
  (if pmicPage s = 0xFF then [] else pmbWrite s 0x00#8 [BitVec.ofNat 8 (pmicPage s)]) ++
    pmbWrite s 0x21#8 (leBytes (voutCode s.rail.voutMode mv) 2)

/-! ## Requests (R400) -/

def State.setRail (s : State) (f : Rail → Rail) : State := { s with rail := f s.rail }

/-- The governor reads the stroke counters and the tick, and keeps them for its next reading (R29, R404). -/
def State.govRead (s : State) : State :=
  s.setRail fun r => { r with govTick := s.now, govCount := s.shells.map fun (x : Shell) => x.strokes }

/-- Send an attempt of a request. -/
def railSend (mv attempt : Nat) (s : State) : State :=
  s.setRail fun r => { r with
    req := some ⟨mv, attempt, .sending⟩, requested := BitVec.ofNat 10 mv, pmbLast := railBytes s mv }

/-- A request falls due: sent now, or once the one in flight has ended. -/
def railRequest (mv : Nat) (s : State) : State :=
  if s.rail.req.isSome then s.setRail fun r => { r with due := some mv } else railSend mv 0 s

/-- A request ended: one that waited is sent. -/
def railNext (s : State) : State :=
  match s.rail.due with
  | some mv => railSend mv 0 (s.setRail fun r => { r with req := none, due := none })
  | none => s.setRail fun r => { r with req := none }

/-- The unit of a record about the rail: the PMB domain (notes/assumptions/14). -/
def railUnit : UnitRef := .clock 8

def railRec (s : State) (detail : Nat) : FaultRec :=
  { s.faultRec .fault railUnit (some .railFault) with detail := BitVec.ofNat 64 detail }

/-- An attempt failed: a retry after 2 ms, or after three retries the governor freezes. -/
def railFailed (s : State) : State :=
  match s.rail.req with
  | some q =>
    if q.attempt < 3 then s.setRail fun r => { r with req := some { q with stage := .retryWait } }
    else if s.rail.gov = .frozen then railNext s
    else
      let s := s.setRail fun r => { r with gov := .frozen, fault := true, due := none, req := none }
      (s.raise (Line.evt "RAIL FAULT" [])).logFault (railRec s 0)
  | none => s

/-- The request is confirmed: FAULT clears, a frozen governor goes on (R400). -/
def railConfirmed (s : State) : State :=
  match s.rail.req with
  | some q =>
    railNext (s.setRail fun r => { r with
      confirmed := BitVec.ofNat 10 q.mv
      fault := false
      gov := if r.gov = .frozen then (if bit r.ctrl 31 then .fixed else .auto) else r.gov })
  | none => s

def execRailRequest (mv : Nat) (s : State) : Host.Outcome State Fault Refusal := .next (railRequest mv s)

/-- The confirmation asks for an engine urgent reading of VDD_CORE (R302). -/
def railReading (s : State) : State :=
  { s with sense := { s.sense with engineQ := s.sense.engineQ ++ [{ by_ := .rail, input := 15#5, settle := 0#8, osr := 0#2 }] } }

/-- Its reading is there. -/
def railRead (s : State) : State := { s with sense := { s.sense with engineQ := s.sense.engineQ.filter fun u => u.by_ != .rail } }

/-- A rail request is on the PMBus. -/
def State.railSending (s : State) : Bool := s.rail.req.any fun q => q.stage == .sending

/-- STATUS_WORD goes into a fault record, then CLEAR_FAULTS is sent (R403). -/
def alertServe (status : W16) (s : State) : State :=
  let s := s.logFault (railRec s status.toNat)
  s.setRail fun r => { r with alert := none, pmbLast := pmbWrite s 0x03#8 [] }

/-- PM_ALERT_N goes low: its service ranks behind a rail request and waits for the one being sent (R38). -/
def pmAlert (status : W16) (s : State) : State :=
  if s.railSending then s.setRail fun r => { r with alert := some status } else alertServe status s

def execPmAlert (status : W16) (s : State) : Host.Outcome State Fault Refusal := .next (pmAlert status s)

/-- A PM_ALERT_N that has waited is served. -/
def alertDue (s : State) : State :=
  match s.rail.alert with
  | some x => pmAlert x s
  | none => s

/-- How a request's transactions end. -/
def pmbusEnd (ack : Bool) (mode : Byte) (s : State) : State :=
  let s := if s.rail.voutKnown || !ack then s else s.setRail fun r => { r with voutMode := mode, voutKnown := true }
  match s.rail.req with
  | some q =>
    if q.stage = .sending then
      if ack && linear16 s.rail.voutMode then
        railReading (s.setRail fun r => { r with req := some { q with stage := .settling }, pmbLast := railBytes s q.mv })
      else railFailed s
    else s
  | none => s

/-- Every byte of the request's transactions was acknowledged in time, or not; VOUT_MODE as read at the first contact. -/
def pmbusDone (ack : Bool) (mode : Byte) (s : State) : State := alertDue (pmbusEnd ack mode s)

def execPmbusTransactionDone (ack : Bool) (voutMode : Byte) (s : State) : Host.Outcome State Fault Refusal :=
  .next (pmbusDone ack voutMode s)

/-- A reading of VDD_CORE: below 500 mV the fabric stops at its stroke boundaries and FAULT_N is held low, and at 500 mV or more it
goes on with the counts that had paused (R14, R403). -/
def railMeasured (mv : BitVec 10) (s : State) : State :=
  let s := s.setRail fun r => { r with meas := mv }
  if mv.toNat < 500 then (s.setRail fun r => { r with floor := true, faultN := true }).watch
  else if s.rail.floor then (s.setRail fun r => { r with floor := false, faultN := false }).watch
  else s

/-- The urgent reading after the settling wait: within ±15 mV it confirms the request. -/
def railConfirm (mv : BitVec 10) (s : State) : State :=
  match s.rail.req with
  | some q =>
    if q.stage = .settling then
      let s := railMeasured mv (railRead s)
      if mv.toNat ≤ q.mv + 15 ∧ q.mv ≤ mv.toNat + 15 then railConfirmed s else railFailed s
    else s
  | none => s

def execRailConfirm (mv : BitVec 10) (s : State) : Host.Outcome State Fault Refusal := .next (railConfirm mv s)

/-- 2 ms after a failed attempt began, the next attempt is sent. -/
def railRetry (s : State) : State :=
  match s.rail.req with
  | some q => if q.stage = .retryWait then railSend q.mv (q.attempt + 1) s else s
  | none => s

def execRailRetry (s : State) : Host.Outcome State Fault Refusal := .next (railRetry s)

/-- While FROZEN, one request to the last confirmed voltage. -/
def frozenRetry (s : State) : State :=
  if s.rail.gov = .frozen ∧ s.rail.req = none then railSend s.rail.confirmed.toNat 3 s else s

def execRailFrozenRetry (s : State) : Host.Outcome State Fault Refusal := .next (frozenRetry s)

/-! ## PG_CORE, PM_ALERT_N and the floor (R402, R403, R14) -/

/-- PG_CORE goes low in service: a fault record and an urgent reading. -/
def pgCoreLow (mv : BitVec 10) (s : State) : State :=
  let s := s.setRail fun r => { r with pgCore := false }
  if s.start.phase = .waitPower then s.setRail fun r => { r with meas := mv }
  else
    let s := railMeasured mv s
    s.logFault (railRec s mv.toNat)

def execPgCoreLow (mv : BitVec 10) (s : State) : Host.Outcome State Fault Refusal := .next (pgCoreLow mv s)

/-- The rail falls below 500 mV: the fabric stops at its stroke boundaries, FAULT_N is held low. -/
def fabricStopFloor (mv : BitVec 10) (s : State) : State :=
  if mv.toNat < 500 then railMeasured mv s else s

def execFabricStopFloor (mv : BitVec 10) (s : State) : Host.Outcome State Fault Refusal := .next (fabricStopFloor mv s)

/-- The rail is back at 500 mV or more: the fabric and the paused counts go on. -/
def fabricResume (mv : BitVec 10) (s : State) : State :=
  if 500 ≤ mv.toNat ∧ s.rail.floor then railMeasured mv s else s

def execFabricResume (mv : BitVec 10) (s : State) : Host.Outcome State Fault Refusal := .next (fabricResume mv s)

/-- Start-up waits for PG_CORE or the rail: FAULT_N is held low and a line goes out (R415). -/
def prestartRailFaultTick (mv : BitVec 10) (s : State) : State :=
  if s.start.phase = .waitPower then
    let s := s.setRail fun r => { r with faultN := true, meas := mv }
    s.tx (Line.evt "RAIL FAULT" [decF "core" mv.toNat])
  else s

def execPrestartRailFaultTick (mv : BitVec 10) (s : State) : Host.Outcome State Fault Refusal := .next (prestartRailFaultTick mv s)

/-! ## Registers (R421) -/

def Gov.code : Gov → Nat
  | .auto => 0 | .fixed => 1 | .frozen => 2

def ResetKind.code : ResetKind → Nat
  | .powerOn => 0 | .resetN => 1 | .resetWarm => 2 | .noCox => 3 | .firmEnd => 4

/-- The readings of the rail are hidden: in confidential mode and until a governor tick after it (R423). -/
def State.railHidden (s : State) : Bool := s.confidential || s.rail.hidden

/-- The power reading, round(P / 50) × 50 mW (R424). -/
def Rail.shownPower (r : Rail) : Nat := (r.powerMw.toNat + 25) / 50 * 50

/-- RAIL_POWER: hidden in confidential mode (R351, R423), held with STALE during a scrub. -/
def railPower (s : State) : W32 :=
  if s.railHidden then 0#32 else bitAt (s.lanes.any fun l => l.st == .scrub) 31 ||| w32 s.rail.shownPower

def readRail (o : Nat) (s : State) : W32 :=
  let r := s.rail
  if o = 0x00 then atBit r.gov.code 30 2 ||| bitAt r.fault 29 ||| bitAt r.floor 28 ||| bitAt r.pgCore 27 ||| bitAt r.req.isSome 26
  else if o = 0x04 then r.ctrl
  else if o = 0x08 then atBit r.confirmed.toNat 16 10 ||| r.requested.setWidth 32
  else if o = 0x0C then (if s.railHidden then 0#32 else r.meas.setWidth 32)
  else if o = 0x10 then (if s.railHidden then 0#32 else r.rate.setWidth 32)
  else if o = 0x14 then railPower s
  else if o = 0x18 then atBit (pmicAddr s) 16 7 ||| atBit (pmicPage s) 8 8 ||| r.voutMode.setWidth 32
  else if o = 0x1C then w32 s.start.lastReset.code
  else if o = 0x20 then s.power.up
  else if o = 0x24 then s.power.waking
  else if o = 0x28 then s.power.fenced
  else 0#32

/-- A voltage that RAIL FIX and FIXMV take: 500 to 880 mV, a multiple of 5. -/
def fixOk (mv : Nat) : Bool := decide (500 ≤ mv ∧ mv ≤ 880 ∧ mv % 5 = 0)

/-- The governor follows RAIL_CTRL unless it is FROZEN (R405). -/
def governorFollow (s : State) : State :=
  if s.rail.gov = .frozen then s
  else if bit s.rail.ctrl 31 then railRequest (fld s.rail.ctrl 0 10) (s.setRail fun r => { r with gov := .fixed })
  else s.setRail fun r => { r with gov := .auto }

/-- A write of RAIL_CTRL: a CEILING outside 500 to 7,500, or FIXED with a FIXMV out of range, is ignored. -/
def writeRailCtrl (v : W32) (s : State) : State :=
  let c := s.rail.ctrl
  let c := if 500 ≤ fld v 16 13 ∧ fld v 16 13 ≤ 7500 then putFld c 16 13 (fld v 16 13) else c
  if bit v 31 && !fixOk (fld v 0 10) then s.setRail fun r => { r with ctrl := c }
  else
    let c := putFld (putFld c 31 1 (fld v 31 1)) 0 10 (fld v 0 10)
    governorFollow (s.setRail fun r => { r with ctrl := c })

def writeRail (p : Path) (o : Nat) (v : W32) (s : State) : State :=
  if o = 0x04 ∧ (p = .call ∨ p = .host ∨ p = .string) then writeRailCtrl v s else s

/-! ## The RAIL verb (R347, R351) -/

def Gov.text : Gov → String
  | .auto => "AUTO" | .fixed => "FIXED" | .frozen => "FROZEN"

/-- The fields of every RAIL reply. -/
def railFields (s : State) : List (String × Val) :=
  let hide (v : Val) : Val := if s.railHidden then .dash else v
  [decF "set" s.rail.requested.toNat, ("meas", hide (.dec s.rail.meas.toNat)), ("rate", hide (.milli s.rail.rate.toNat)),
   decF "ceiling" (fld s.rail.ctrl 16 13),
   ("power", hide (.dec s.rail.shownPower)),
   symF "governor" s.rail.gov.text, decF "fault" (boolNat s.rail.fault)]

def doRail (c : Caller) (s : State) : State := s.gate c "RAIL" false (s.ok c "RAIL" (railFields s))

def doRailCeiling (c : Caller) (mw : Nat) (s : State) : State :=
  s.gate c "RAIL" false <|
    if 500 ≤ mw ∧ mw ≤ 7500 then
      let s := s.setRail fun r => { r with ctrl := putFld r.ctrl 16 13 mw }
      s.ok c "RAIL" (railFields s)
    else s.fail c "RAIL" .range

def doRailFix (c : Caller) (mv : Nat) (s : State) : State :=
  s.gate c "RAIL" false <|
    if !fixOk mv then s.fail c "RAIL" .range
    else if s.rail.gov = .frozen then s.fail c "RAIL" .state
    else
      let s := governorFollow (s.setRail fun r => { r with ctrl := putFld (putFld r.ctrl 0 10 mv) 31 1 1 })
      s.ok c "RAIL" (railFields s)

def doRailAuto (c : Caller) (s : State) : State :=
  s.gate c "RAIL" false <|
    let s := frozenRetry (governorFollow (s.setRail fun r => { r with ctrl := putFld r.ctrl 31 1 0 }))
    s.ok c "RAIL" (railFields s)

def execRail (c : Caller) (s : State) : Host.Outcome State Fault Refusal := .next (doRail c s)
def execRailCeiling (c : Caller) (mw : Nat) (s : State) : Host.Outcome State Fault Refusal := .next (doRailCeiling c mw s)
def execRailFix (c : Caller) (mv : Nat) (s : State) : Host.Outcome State Fault Refusal := .next (doRailFix c mv s)
def execRailAuto (c : Caller) (s : State) : Host.Outcome State Fault Refusal := .next (doRailAuto c s)

end Sys2Proof.Machine
end

