-- ==== Sys2Proof/Machine/Bundle.lean ====
section
/-! DEFINITION. LOAD and DROP (R190, R191, R201 to R206, R257, R344), and the load of a boot bundle (R418). -/

namespace Sys2Proof.Machine
open Sys2Proof

/-! ## Reading an image (R344) -/

/-- A unit of the Course that a party may read an image from: the partition, or a valid region, of a lane that it owns. -/
def State.readable (s : State) (p : Path) (unit : Nat) : Bool :=
  match courseAt (64 * unit) with
  | .dram a =>
    decide (a / 64 < s.mem.usable.toNat * 1024) && s.dramUp &&
      (match s.regionOf (a / 0x10000) with | some i => s.ownsLane p s.mem.region[i].lane | none => false)
  | .boathouse off =>
    s.bankUp (bankAt off) && (List.finRange 4).any fun l => s.ownsLane p l && s.mem.part[l].getLsbD (bankAt off).val
  | _ => false

/-- Units that len bytes at an address fall in. -/
def unitSpan (addr len : Nat) : Nat := (addr % 64 + len + 63) / 64

/-- len bytes at a Course address. -/
def bytesAt (addr len : Nat) (s : State) : List Byte × State :=
  let (b, s) := unitsAt (addr / 64) (unitSpan addr len) s
  ((b.drop (addr % 64)).take len, s)

/-- Bytes that a party names as an attachment: all of them readable by it (R251, R344, R350); those in DRAM are not there while the
timebase is DEGRADED or DRAM is not trained (R22, R412). -/
def attachment (p : Path) (addr len : Nat) (s : State) : Except Err (List Byte × State) :=
  if s.dramGone && decide (addr < 0x4_0000_0000) then .error .noref
  else if (List.range (unitSpan addr len)).all (fun k => s.readable p (addr / 64 + k)) then .ok (bytesAt addr len s)
  else .error .range

/-! ## Signatures (R181, R428) -/

/-- The public key of a bundle-key slot in the key block of the flash. -/
def vkKey (s : State) (k : Fin 4) : List Byte := s.flash.range (0x400540 + 0xA0 * k.val + 16) 64

/-- Step 2 of R201. -/
def bundleSigned (s : State) (h : Header) (im : List Byte) : Bool :=
  s.keys.vkUsable.getLsbD h.keySlot.val &&
    ecdsaP256 (vkKey s h.keySlot) (sha256 (im.take (128 + 64 * h.nsect))) ((im.drop (h.sigoff + 8)).take 64)

/-! ## What a load asks -/

/-- A load: the image, its Course byte address, the lanes it is to serve, who asks (0 Call line, 1 host link, 2 engine). -/
structure LoadAsk where
  im : List Byte
  addr : Nat
  lanes : BitVec 4
  source : Fin 3
deriving DecidableEq, Repr

/-- The silicon revision (ID_PART). -/
def revision (s : State) : Nat := otpField s.fuse.shadow 3296 8

/-- Steps 1 to 5 of R201, with the rules of R202 and R191 that need the header. -/
def loadChecks (s : State) (a : LoadAsk) : Except Err (Header × List Sect × Parsed2) := do
  let h ← checkHeader (revision s) a.im
  chk (!h.lookout || (a.source == 2 && a.lanes == 1#4)) .lane
  chk (h.onchip || !s.dramGone) .noref
  chk (bundleSigned s h a.im) .key
  let ss ← checkTable h a.im
  checkDigests a.im ss
  let p ← checkContents (a.lanes.getLsbD 3) h a.im ss
  .ok (h, ss, p)

/-! ## Step 6: identity (R204, R206) -/

def tableDigest (h : Header) (im : List Byte) : BitVec 256 := BitVec.ofNat 256 (leNat (sha256 (im.take (128 + 64 * h.nsect))))

/-- An accepted heat that names the bundle has not retired. -/
def State.bundleUsed (s : State) (h : Fin 16) : Bool :=
  (List.finRange 4).any fun l => (s.lane l).runs.any fun r => ((s.lane l).acceptOf r.seq).any fun a => a.handle == h

/-- The record is free (R205). -/
def State.handleFree (s : State) (k : Fin 16) : Bool := (s.bundle k).st == .free

/-- The handle that a load takes: a waiting record's own, else the lowest free one; the Lookout bundle has handle 0. -/
def loadHandle (s : State) (h : Header) (im : List Byte) : Except Err (Fin 16) :=
  match (List.finRange 16).find? fun k => !s.handleFree k && s.bundles[k].id == h.id with
  | some k => if s.bundles[k].st == .waiting && s.bundles[k].digest == tableDigest h im then .ok k else .error .dup
  | none =>
    match (List.finRange 16).find? fun k => s.handleFree k && (k.val == 0) == h.lookout with
    | some k => .ok k
    | none => .error .full

/-! ## Step 7: placement (R190, R191) -/

/-- Free resident slots, lowest first. -/
def freeResident (s : State) : List (Fin 16) :=
  [12, 13, 14, 15].filter fun k => !((List.finRange 16).any fun h => s.bundles[h].live && s.bundles[h].resSlots.contains k)

/-- The lowest-numbered lane of a set. -/
def firstLane (m : BitVec 4) : LaneId := ((List.finRange 4).find? fun l => m.getLsbD l.val).getD 0

/-- Banks of a lane's partition that may take PLACE 1 copies, lowest first. -/
def freeBanks (s : State) (l : LaneId) : List (Fin 64) :=
  (List.finRange 64).filter fun b =>
    s.mem.part[l].getLsbD b.val && !s.copyBanks.contains b && engineBank s.mem.part[l] != some b && s.bankUp b

/-- The end of the run of free banks that a bank stands in, as a Boathouse offset. -/
def runEnd (free : List (Fin 64)) (b : Nat) : Nat → Nat
  | 0 => b * 0x80000
  | n + 1 => if free.any fun k => k.val == b then runEnd free (b + 1) n else b * 0x80000

/-- Offsets at which a section may begin: where packing has come to, then the starts of later free banks. -/
def starts (free : List (Fin 64)) (pos : Nat) : List Nat :=
  (if free.any fun k => k.val == pos / 0x80000 then [pos] else []) ++
    (free.filter fun k => decide (pos ≤ k.val * 0x80000)).map fun k => k.val * 0x80000

/-- PLACE 1 sections packed in table order: their Boathouse offsets. A section that would cross into a bank that is not free is kept
whole, and goes to the next free banks that hold it (DESIGN CHOICE, notes/assumptions/16). -/
def pack (free : List (Fin 64)) : Nat → List Nat → Option (List Nat)
  | _, [] => some []
  | pos, size :: r =>
    match (starts free pos).find? fun o => decide (o + size ≤ runEnd free (o / 0x80000) 65) with
    | some o => (pack free ((o + size + 63) / 64 * 64) r).map (o :: ·)
    | none => none

/-- Banks that a placed section touches. -/
def banksOf (off size : Nat) : List (Fin 64) := (List.finRange 64).filter fun b =>
  decide (b.val * 0x80000 < off + Nat.max size 1 ∧ off < (b.val + 1) * 0x80000)

/-- Room for PLACE 2 sections in a Cox memory. -/
def coxRoom : Nat := 229376

/-- The Course base of each section in 64-byte units; none for PLACE 2 and 3. -/
def sectBases (addr : Nat) (ss : List Sect) (p1 : List (Nat × Nat)) (x : Nat) : Option Nat :=
  match ss[x]? with
  | some y =>
    if y.place = 0 then some ((addr + y.offset) / 64)
    else if y.place = 1 then (p1.find? fun q => q.1 == x).map fun q => (bhBase + q.2) / 64
    else none
  | none => none

/-- A word with a number in its low n bits. -/
def wordLow (w : W64) (n v : Nat) : W64 := (w >>> n) <<< n ||| BitVec.ofNat 64 v

/-- What LOAD adds to a relocated field: the section's base, or 256 times the base where the field's value lies in the decoded
view (R187, R246). -/
def relocBy (v base : Nat) : Nat :=
  match courseAt (64 * v) with
  | .view .. => 256 * base
  | _ => base

/-- A program with its relocations applied and its resident slots assigned (R187). -/
def relocate (p : Parsed2) (base : Nat → Option Nat) (res : List (Fin 16)) (k : Nat) (x : Program) : Except Err Program := do
  let ws ← x.words.zipIdx.mapM fun w => do
    let v ← match p.relocs.find? fun r => r.prog == k && r.word == w.2 with
      | none => .ok w.1
      | some r =>
        let n := if wKind w.1 = 3 then 38 else 37
        match base r.sect with
        | none => .error .conf
        | some b =>
          let v := wfld w.1 0 n + relocBy (wfld w.1 0 n) b
          if v < 2 ^ n then .ok (wordLow w.1 n v) else .error .conf
    if (wKind v == 2 || wKind v == 3) && decide (12 ≤ (wNum v 40).val) then
      .ok ((v &&& ~~~(BitVec.ofNat 64 (0xF * 2 ^ 40))) ||| BitVec.ofNat 64 ((res.getD ((wNum v 40).val - 12) 0).val * 2 ^ 40))
    else .ok v
  .ok { x with words := ws }

/-- All program records, in order over all PROGRAM sections. -/
def relocateAll (p : Parsed2) (base : Nat → Option Nat) (res : List (Fin 16)) : Nat → List (Sect × List Program) → Except Err (List (Byte × List Program))
  | _, [] => .ok []
  | n, (x, ps) :: r => do
    let qs ← ps.zipIdx.mapM fun q => relocate p base res (n + q.2) q.1
    let rest ← relocateAll p base res (n + ps.length) r
    .ok ((x.varmask, qs) :: rest)

/-- The resident rigs with their addresses and images. -/
def residentRigs (h : Header) (im : List Byte) (ss : List Sect) (p : Parsed2) (base : Nat → Option Nat) : List (Nat × RigFrame × List Byte) :=
  h.resident.filterMap fun k =>
    match p.rigs[k]? with
    | some (x, off, f) =>
      let bytes := match ss[x]? with
        | some y => ((y.bytes im).drop (64 * off + 4096)).take (imageBytes f)
        | none => []
      some ((base x).getD 0 + off, f, if f.writesTable then bytes else [])
    | none => none

/-! ## Sealing (R257) -/

/-- A region cut down to blocks lo to hi − 1; a sweep's progress stays where it is. -/
def Region.cut (g : Region) (lo hi : Nat) : Region :=
  let next := g.hi - g.left.toNat
  let from_ := Nat.max lo (Nat.min next hi)
  { g with base := BitVec.ofNat 18 lo, size := BitVec.ofNat 18 (hi - lo), left := if g.rotating then BitVec.ofNat 18 (hi - from_) else 0#18 }

/-- Free region slots, lowest first. -/
def freeRegions (s : State) : List (Fin 32) := (List.finRange 32).filter fun i => !s.mem.region[i].valid

/-- The image's blocks leave the lane region that holds them for a sealed region, which a sweep brings under the plan key. -/
def sealExtent (h : Fin 16) (addr total : Nat) (lanes : BitVec 4) (s : State) : Except Err State := do
  let b0 := addr / 0x10000
  let b1 := (addr + total + 0xFFFF) / 0x10000
  chk (addr % 0x10000 == 0) .conf
  match s.regionOf b0 with
  | none => .error .conf
  | some i =>
    let g := s.mem.region[i]
    chk (decide (b1 ≤ g.hi) && lanes.getLsbD g.lane.val && !g.sealed) .conf
    let below := decide (g.lo < b0)
    let above := decide (b1 < g.hi)
    let free := freeRegions s
    chk (decide ((if below && above then 2 else 1) ≤ free.length)) .full
    match needPlanSlot s, free.head? with
    | some (k, s), some j =>
      let s := if below then s.setRegion i fun g => g.cut g.lo b0
        else if above then s.setRegion i fun g => g.cut b1 g.hi
        else s.setRegion i fun _ => {}
      let s := match below && above, free[1]? with
        | true, some m => s.setRegion m fun _ => g.cut b1 g.hi
        | _, _ => s
      let sealed := { g.cut b0 b1 with sealed := true, homeAlive := true }
      let s := s.setRegion j fun _ => if g.rotating then sealed else sealed.sweepTo k
      .ok { s with mem := { s.mem with sweeps := s.mem.sweeps ++ [{ kind := .sealing h, old := g.slot g.gen, new := k, region := some j }] } }
    | none, _ => .error .full
    | _, none => .error .full

/-! ## Step 8: the bundle in force -/

/-- The predicted-exponent table of a lane for a bundle is set from INIT_EXP (R107). -/
def initExps (h : Fin 16) (ts : List Tensor) (l : LaneId) (s : State) : State :=
  s.setLane l fun L => { L with exps := (L.exps.filter fun e => e.handle != h) ++
    (ts.filter fun t => t.mode.val == 2).map fun t => { handle := h, tensor := t.number.toNat, value := t.initExp.toInt, lastSeq := none } }

/-- The PLACE 1 sections are copied into the Boathouse. -/
def copySections (im : List Byte) (ss : List Sect) (p1 : List (Nat × Nat)) (s : State) : State :=
  p1.foldl (fun (s : State) q =>
    match ss[q.1]? with
    | some y =>
      let s := (banksOf q.2 y.size).foldl (fun s b => touch (bankDom b) s) s
      { s with mem := { s.mem with bh := s.mem.bh.put q.2 (y.bytes im) } }
    | none => s) s

/-- Steps 6 to 8 of R201: the handle and the machine with the bundle in force. A section that stays where the image stands (PLACE 0) has a
Course base in 64-byte units, so such an image begins on one (DESIGN CHOICE, notes/assumptions/16). `place` brings the image's DRAM blocks into a
sealed extent. -/
def loadCommit (a : LoadAsk) (h : Header) (ss : List Sect) (p : Parsed2) (place : Fin 16 → State → Except Err State) (s : State) :
    Except Err (Fin 16 × State) := do
  let k ← loadHandle s h a.im
  let res := (freeResident s).take h.resident.length
  chk (res.length == h.resident.length) .full
  let cox := ((ss.filter fun x => x.known && x.place == 2).map (·.size)).foldl (· + ·) 0
  chk (decide (cox + ((List.finRange 16).map fun i => s.bundles[i].coxBytes).foldl (· + ·) 0 ≤ coxRoom)) .full
  let one := ss.filter fun x => x.known && x.place == 1
  chk (a.addr % 64 == 0 || ss.all fun x => !x.known || x.place != 0) .conf
  match pack (freeBanks s (firstLane a.lanes)) 0 (one.map (·.size)) with
  | none => .error .full
  | some offs =>
    let p1 := (one.map (·.index)).zip offs
    let base := sectBases a.addr ss p1
    let progs ← relocateAll p base res 0 p.programs
    let s ← place k s
    let dram := decide (a.addr < 0x4_0000_0000)
    let banks := ((one.zip offs).flatMap fun q => banksOf q.2 q.1.size).eraseDups
    let b : Bundle := {
      st := .loaded, lanes := a.lanes, onchip := h.onchip, lookout := h.lookout, id := h.id, digest := tableDigest h a.im
      image := a.addr, total := a.im.length, resSlots := res, keySlot := h.keySlot, source := a.source, banks := banks, coxBytes := cox
      extent := if dram then some (a.addr, a.addr + a.im.length) else none
      plan := {
        entries := p.entries, segments := p.segments, checks := p.checks, programs := progs
        scales := p.scales.map fun x => (x.1.varmask, x.2), tensors := p.tensors, watches := p.watches, entropy := p.entropy
        operands := p.operands, resident := residentRigs h a.im ss p base
        training := if p.trains then some (Config.training a.im) else none } }
    let s := copySections a.im ss p1 (s.setBundle k fun _ => b)
    let s := ((List.finRange 4).filter fun l => a.lanes.getLsbD l.val).foldl (fun s l => initExps k p.tensors l s) s
    .ok (k, relateRuns (((List.finRange 18).filter s.inService).foldl (fun s i => bundleInto k i s) s))

/-- A whole load; on failure nothing changes but the count of free values drawn. -/
def loadImage (a : LoadAsk) (place : Fin 16 → State → Except Err State) (s : State) : Except Err (Fin 16 × Header × Parsed2 × State) := do
  let (h, ss, p) ← loadChecks s a
  let (k, s) ← loadCommit a h ss p place s
  .ok (k, h, p, s)

/-! ## LOAD (R344) -/

def budgetTerm (t : BudgetTerm) : String :=
  (if t.kind = 0 then "FIXED" else if t.kind = 1 then "EXP" else "OUT") ++ ":" ++ (Val.hex 4 t.mant.toNat).text ++ ":" ++ intText t.cexp.toInt ++
    (if t.kind = 0 then ":" ++ intText t.x.toInt else if t.kind = 1 then ":" ++ toString t.tensor else "")

def budgetLine (b : Budget) : List (String × Val) :=
  [bareF "BUDGET", decF "tensor" b.tensor, symF "alt" (if b.alt = 0 then "P" else if b.alt = 1 then "I16" else "H16"), decF "head" b.headroom] ++
    b.terms.map fun t => ("", .sym (budgetTerm t))

/-- The variants that some entry has. -/
def variantNames (es : List Entry) : List String :=
  (List.finRange 3).filterMap fun v => if es.any fun e => e.variants[v].firstSeg.isSome then some (toString (16 - 2 * v.val)) else none

/-- The party's source number (R205). -/
def CallPath.source : CallPath → Fin 3
  | .call => 0
  | .host => 1

/-- LOAD before its reply. -/
def loadFor (p : CallPath) (addr len : Nat) (lanes : BitVec 4) (s : State) : Except Err (Fin 16 × Header × Parsed2 × State) := do
  chk ((List.finRange 4).all fun l => !lanes.getLsbD l.val || s.laneOwner l == p.owner) .lane
  let (im, s) ← attachment p.path addr len s
  chk (nAt im 16 8 == len) .range
  loadImage { im := im, addr := addr, lanes := lanes, source := p.source }
    (fun k s => if addr < 0x4_0000_0000 then sealExtent k addr len lanes s else .ok s) s

def doLoad (c : Caller) (addr len : Nat) (lanes : BitVec 4) (budgets : Bool) (s : State) : State :=
  s.gate c "LOAD" false <|
    match loadFor c.path addr len lanes s with
    | .error e => ({ s with free := (bytesAt addr len s).2.free }).fail c "LOAD" e
    | .ok (k, h, p, s) =>
      s.okWith c (if budgets then p.budgets.map budgetLine else []) "LOAD"
        [decF "h" k.val, ("id", .hex 16 h.id.toNat), decF "entries" p.entries.length, ("variants", .syms (variantNames p.entries)),
         ("banks", .syms ((s.bundle k).banks.map fun b => toString b.val))]

def execLoad (c : Caller) (addr len : Nat) (lanes : BitVec 4) (budgets : Bool) (s : State) : Host.Outcome State Fault Refusal :=
  .next (doLoad c addr len lanes budgets s)

/-! ## DROP (R203) -/

/-- A shell forgets the frames of a bundle (R62). -/
def Shell.forget (h : Fin 16) (x : Shell) : Shell :=
  { x with slots := x.slots.map fun k => if k.frameAt.any fun f => f.2 == h then {} else k }

/-- What DROP does: slots, copies, rig-slot memory, extent, exponent tables and record. -/
def dropBundle (h : Fin 16) (s : State) : State :=
  let s := s.setBundle h fun _ => {}
  unsealDue { s with
    shells := s.shells.map fun x => x.forget h
    lanes := s.lanes.map fun L => { L with exps := L.exps.filter fun e => e.handle != h }
    faults := { s.faults with passedFrames := s.faults.passedFrames.filter fun p => p.1 != h }
    mem := { s.mem with decoder := s.mem.decoder.map fun d => { d with cache := d.cache.filter fun t => t.1 != h } } }

def doDrop (c : Caller) (h : Nat) (s : State) : State :=
  s.gate c "DROP" false <|
    match fin? 16 h with
    | none => s.fail c "DROP" .range
    | some k =>
      let b := s.bundle k
      if k.val = 0 then s.fail c "DROP" .lane
      else if !b.live then s.fail c "DROP" .state
      else if (List.finRange 4).any fun l => b.lanes.getLsbD l.val && s.laneOwner l != c.path.owner then s.fail c "DROP" .lane
      else if s.bundleUsed k then s.fail c "DROP" .busy
      else (dropBundle k s).ok c "DROP" [("", .dec h)]

def execDrop (c : Caller) (h : Nat) (s : State) : Host.Outcome State Fault Refusal := .next (doDrop c h s)

/-! ## Boot bundles (R411 steps 12 and 16, R418) -/

/-- The lowest blocks of usable DRAM that no region takes. -/
def freeBlocks (s : State) (n : Nat) : Option Nat :=
  let ends := 0 :: ((List.finRange 32).filterMap fun i => if s.mem.region[i].valid then some s.mem.region[i].hi else none)
  let ok (b : Nat) : Bool := decide (b + n ≤ s.mem.usable.toNat) &&
    (List.finRange 32).all fun i => !s.mem.region[i].valid || decide (b + n ≤ s.mem.region[i].lo ∨ s.mem.region[i].hi ≤ b)
  (ends.filter ok).min?

/-- Units of an image stored under a key, from a unit on. -/
def storeUnits (unit key : Nat) (im : List Byte) : Nat → State → State
  | 0, s => s
  | n + 1, s => storeUnits (unit + 1) key (im.drop 64) n (s.dramStore unit key ((List.range 64).map fun k => im.getD k 0#8))

/-- A DRAM-backed boot bundle goes into an engine-owned sealed extent under the plan key. -/
def bootExtent (im : List Byte) (b0 : Nat) (s : State) : Except Err State :=
  let n := (im.length + 0xFFFF) / 0x10000
  match needPlanSlot s, (freeRegions s).head? with
  | some (k, s), some j =>
    let s := (clearGen b0 (b0 + n) s).setRegion j fun _ => {
      base := BitVec.ofNat 18 b0, size := BitVec.ofNat 18 n, lane := 0, valid := true, sealed := true, slot0 := k, slot1 := k, homeAlive := false }
    .ok (storeUnits (b0 * 1024) (s.mem.kslot[k].key) im ((im.length + 63) / 64) s)
  | _, _ => .error .full

/-- An entry of the boot directory: offset, size, lanes, valid. -/
def bootEntry (s : State) (k : Fin 16) : Nat × Nat × BitVec 4 × Bool :=
  let a := 0x400000 + 32 * k.val
  (s.flash.nat a 8, s.flash.nat (a + 8) 8, BitVec.ofNat 4 (s.flash.get (a + 16)).toNat, (s.flash.get (a + 17)).getLsbD 0)

/-- Load a boot entry as LOAD would, on behalf of the lanes named. The image of an ONCHIP bundle is read in the flash and copied nowhere;
IMAGE then is the Course base of the Boathouse (DESIGN CHOICE, notes/assumptions/16). -/
def bootLoad (k : Fin 16) (s : State) : Except Err State :=
  let (off, size, lanes, _) := bootEntry s k
  let im := s.flash.range off size
  let onchip := (bAt im 8).getLsbD 0
  if onchip then
    (loadImage { im := im, addr := bhBase, lanes := lanes, source := 2 } (fun _ s => .ok s) s).map fun r => r.2.2.2
  else match freeBlocks s ((size + 0xFFFF) / 0x10000) with
    | none => .error .full
    | some b0 =>
      if !s.dramUp then .error .noref
      else (loadImage { im := im, addr := b0 * 0x10000, lanes := lanes, source := 2 } (fun _ s => bootExtent im b0 s) s).map fun r => r.2.2.2

end Sys2Proof.Machine
end

