-- ==== Sys2Proof/Machine/Accept.lean ====
section
/-! DEFINITION. Acceptance of heats (R210 to R216), retirement of one heat (R220, R223), lane ownership and its calls (R208, R209,
R344, R345, R369), and SCRUB (R176, R433 to R437). -/

namespace Sys2Proof.Machine
open Sys2Proof

/-! ## Variants (R71) -/

/-- The graph of a loaded plan, for the functions that follow it. -/
def Plan.graph (p : Plan) : Parsed2 :=
  { entries := p.entries, segments := p.segments, checks := p.checks, programs := [], scales := [], rigs := [], tensors := p.tensors
    watches := p.watches, budgets := [], entropy := [], relocs := [], operands := p.operands }

/-- Shells in service. -/
def State.serviceCount (s : State) : Nat := ((List.finRange 18).filter s.inService).length

/-- The variants that an entry may run, the largest first, by the number of shells in service. -/
def variantsFor (n : Nat) : List (Fin 3) := if 16 ≤ n then [0, 1, 2] else if 14 ≤ n then [1, 2] else [2]

/-- Every logical shell of the variant's segments is mapped. -/
def State.variantMapped (s : State) (p : Plan) (e : Entry) (v : Fin 3) : Bool :=
  e.variants[v].firstSeg.isSome &&
    (p.graph.segsOf e v).all fun g => (shellsOf g.lsmask).all fun k => s.map[k].isSome

/-- The variant that an entry runs now. -/
def State.variantFor (s : State) (h : Fin 16) (e : Entry) : Option (Fin 3) :=
  (variantsFor s.serviceCount).find? fun v => s.variantMapped (s.bundle h).plan e v

/-! ## Retirement of one heat (R220, R223, R161) -/

/-- DEADLINE of an entry in REF ticks: 38.4 per µs; LATE when the counted time is longer (R219). -/
def Entry.late (e : Entry) (ticks : Nat) : Bool := decide (e.deadline * 384 < ticks * 10)

/-- Strokes of the busiest shell. -/
def HeatRun.busiest (r : HeatRun) : Nat := (r.strokes.map Prod.snd).foldl Nat.max 0

/-- What a heat's run says about its completion, but for the adapter's commit. -/
def retireRec (s : State) (l : LaneId) (r : HeatRun) (st : Status) : RetireRec :=
  { status := st, restarts := r.restarts, widened := r.widened, rerun := r.rerun, nan := r.nan, accOvf := r.accOvf
    adaptOff := r.adaptOff, late := (s.entryOf l r.seq).any fun e => e.late r.allTicks, pending := false
    i16n := Nat.min r.i16n 255, h16n := Nat.min r.h16n 255, variant := r.variant
    adSet := false, adVer := (r.ad.map (·.ver)).getD 0#32, tRet := s.now, strokes := r.busiest }

def statFlags (t : RetireRec) : W32 :=
  bitAt t.widened 0 ||| bitAt t.rerun 1 ||| bitAt t.nan 2 ||| bitAt t.accOvf 3 ||| atBit t.i16n 8 8 ||| atBit t.h16n 16 8

/-- STATS and RETIRE are written, the run is gone, and the lane's last-heat statistics are this heat's. -/
def Lane.retire (r : HeatRun) (t : RetireRec) (L : Lane) : Lane :=
  let L := L.setBlock r.seq fun b => { b with stats := some { counts := r.committed, altMap := r.altMap }, retire := some t }
  { L with
    runs := L.runs.filter fun x => x.seq != r.seq
    lastRetired := r.seq
    hs := { seq := r.seq, flags := statFlags t, counts := r.committed } }

/-- The retire is counted (R457). -/
def countRetire (l : LaneId) (s : State) : State :=
  { s with stat := { s.stat with
    dev := { s.stat.dev with retired := s.stat.dev.retired + 1 }
    lane := upd s.stat.lane l fun c => { c with retired := c.retired + 1 } } }

/-- WAITs for heat q of lane l end (R345). -/
def endWaits (l : LaneId) (q : W32) (st : Status) (s : State) : State :=
  let mine (w : WaitRec) : Bool := w.lane == l && w.seq == q
  let done (s : State) (w : WaitRec) : State :=
    s.ok w.caller "WAIT" [laneF l, ("", .dec q.toNat), bareF "RETIRED", symF "status" st.text]
  let s := match s.call.wait with
    | some w => if mine w then done { s with call := { s.call with wait := none } } w else s
    | none => s
  (s.host.waits.filter mine).foldl done { s with host := { s.host with waits := s.host.waits.filter fun w => !mine w } }

/-- An adapter that a heat was to change is left as it was committed (R171, R172, R214). -/
def adapterGive (l : LaneId) (q : W32) (s : State) : State :=
  match (s.lane l).acceptOf q, s.entryOf l q, (s.lane l).run q with
  | some a, some e, some r =>
    match a.adSlot with
    | some n =>
      if e.create then s.setAd n fun x => { x with creating := false }
      else if e.update && r.ad.isSome then
        s.setAd n fun x => { x with st := if x.st = .updating then .ready else x.st }
      else s
    | none => s
  | _, _, _ => s

/-! ## Acceptance (R211 to R216) -/

/-- Distance back to the latest of some heats; 0 for none. -/
def distBack (q : W32) (l : List W32) : Nat := ((l.map fun k => (q - k).toNat).min?).getD 0

/-- The adapter slot that an argument list names. -/
def adapterOf (args : List HeatArg) : Option (Fin 8) := args.findSome? fun a => match a with | .adapter n => some n | _ => none

/-- An argument matches its descriptor (R185, R345). -/
def argOk (d : ArgDesc) (a : HeatArg) : Bool :=
  match d.kind.val, a with
  | 0, .region _ n => decide (d.param.toNat ≤ n)
  | 1, .region _ n => decide (d.param.toNat ≤ n)
  | 2, .adapter _ => true
  | 3, .const _ => true
  | _, _ => false

/-- A slot is granted to a lane: L3 always, L0 never (R164, R174). -/
def AdSlot.granted (a : AdSlot) (l : LaneId) : Bool :=
  match l.val with | 1 => a.l1 | 2 => a.l2 | 3 => true | _ => false

/-- Check 8 of R213. -/
def adapterCheck (l : LaneId) (e : Entry) (args : List HeatArg) (s : State) : Except Err Unit :=
  if e.create || e.update || e.readsAdapter then
    match adapterOf args with
    | some n => do
      chk (!e.create || (s.ads[n].st == .empty && !s.ads[n].creating)) .state
      chk (s.ads[n].granted l) .key
    | none => .ok ()
  else .ok ()

/-- Where a sequence number stands to the lane's next (R211). -/
def seqCheck (l : LaneId) (q : W32) (h e : Nat) (args : List HeatArg) (s : State) : Except (Err × List (String × Val)) Unit :=
  let L := s.lane l
  let d := (q - L.next).toNat
  if d = 0 then .ok ()
  else if d < 2 ^ 31 then .error (.range, [decF "next" L.next.toNat])
  else
    let m := match L.acceptOf q with
      | some a => a.handle.val == h && a.entry == e && a.args == args
      | none => false
    .error (.dup, [decF "seq" q.toNat, symF "state" (((L.heatState q).getD .taken).text), decF "match" (boolNat m)])

/-- Checks 4 to 10 of R213. -/
def heatChecks (l : LaneId) (h e : Nat) (args : List HeatArg) (s : State) : Except Err (Fin 16 × Entry) := do
  match fin? 16 h with
  | none => .error .state
  | some k =>
    let b := s.bundle k
    chk b.live .state
    match b.plan.entries.find? fun x => x.number == e with
    | none => .error .lane
    | some x =>
      chk (b.serves l && (!x.l0only || l == 0) && (!(x.create || x.update) || l == 3)) .lane
      chk (!s.clk.degraded || b.onchip) .noref
      chk (s.variantFor k x).isSome .fenced
      adapterCheck l x args s
      chk (x.args.length == args.length && (x.args.zip args).all fun p => argOk p.1 p.2) .range
      chk (decide ((s.lane l).runs.length < 64)) .full
      .ok (k, x)

def liftErr {α : Type} (x : Except Err α) : Except (Err × List (String × Val)) α :=
  match x with | .ok a => .ok a | .error e => .error (e, [])

/-- The ACCEPT record is written, with the heat's relations to those before it. -/
def journalAccept (src : Source) (l : LaneId) (k : Fin 16) (x : Entry) (args : List HeatArg) (tag : List Byte) (s : State) : State :=
  let q := (s.lane l).next
  let (after, behind) := relations l x args s
  let a : AcceptRec :=
    { source := src, handle := k, adSlot := adapterOf args, entry := x.number, relDep := distBack q after, relWait := distBack q behind
      tag := tag.take 16, tAcc := s.now, hcAcc := if x.hostAdd then (s.lane l).hc else 0#32, args := args }
  let ord := s.nextOrd
  let s := s.bookLane l fun L => { L with
    next := q + 1#32
    journal := Tab.set L.journal (q.toNat % 128) { seq := q, accept := some a, stats := none, retire := none }
    runs := L.runs ++ [{ seq := q, ord := ord, after := after, behind := behind }] }
  match x.create, a.adSlot with
  | true, some n => s.setAd n fun d => { d with creating := true }
  | _, _ => s

/-- A submission (R213, R230): for the party named, or on behalf of the lane's owner (R210), where it has one.
The new heat's number, or the error. -/
def submit (who : Option Owner) (src : Source) (l : LaneId) (seq : Option W32) (h e : Nat) (args : List HeatArg) (tag : List Byte)
    (s : State) : Except (Err × List (String × Val)) (W32 × State) := do
  let L := s.lane l
  liftErr (chk (!L.recovering) .busy)
  liftErr (chk (L.st != .scrub) .state)
  liftErr (chk (match who with | some o => L.owner == o | none => L.owner != .nobody) .lane)
  liftErr (chk (L.st == .opened) .state)
  let q := seq.getD L.next
  seqCheck l q h e args s
  let (k, x) ← liftErr (heatChecks l h e args s)
  .ok (q, journalAccept src l k x args tag s)

def CallPath.src : CallPath → Source
  | .call => .call
  | .host => .host

/-- HEAT (R345): NEXT only from the Call line in TEXT mode. -/
def doHeat (c : Caller) (l : LaneId) (seq : Option W32) (h e : Nat) (args : List HeatArg) (s : State) : State :=
  s.gate c "HEAT" false <|
    if seq.isNone && (c.path == .host || s.call.terse) then s.fail c "HEAT" .state
    else match submit (some c.path.owner) c.path.src l seq h e args (c.tag.getD []) s with
      | .ok (q, s) => s.ok c "HEAT" [laneF l, ("", .dec q.toNat), bareF "ACCEPTED"]
      | .error (e, fs) => s.failWith c "HEAT" e fs

def execHeat (c : Caller) (lane : LaneId) (seq : Option W32) (h e : Nat) (args : List HeatArg) (s : State) :
    Host.Outcome State Fault Refusal := .next (doHeat c lane seq h e args s)

/-! ## Change of owner (R175, R274, R305, R316) -/

/-- A lane changes owner: its event bindings go too. -/
def ownerChanged (l : LaneId) (s : State) : State :=
  let s := ownerLeft l s
  { s with edge := { s.edge with bind := s.edge.bind.map fun (b : Binding) => if b.valid ∧ b.lane = l then {} else b } }

/-! ## LANE (R209, R344, R369) -/

/-- A call that names a lane of another party, or a lane in SCRUB, fails (R17, R433). -/
def laneMay (c : Caller) (l : LaneId) (s : State) : Except Err Unit := do
  chk ((s.lane l).st != .scrub) .state
  chk (s.laneOwner l == c.path.owner) .lane

def ownerText : Owner → Val
  | .nobody => .dash | .engine => .sym "ENGINE" | .call => .sym "CALL" | .host => .sym "HOST"

def LaneSt.text : LaneSt → String
  | .free => "FREE" | .opened => "OPEN" | .orphaned => "ORPHANED" | .scrub => "SCRUB"

/-- A heat of the lane waits for DRAM, or for its bundle (R204, R232). -/
def State.waitRef (s : State) (l : LaneId) : Bool :=
  s.clk.degraded && (s.lane l).runs.any fun r => r.st == .waiting && r.failed.isNone &&
    ((s.lane l).acceptOf r.seq).any fun a => (s.bundle a.handle).live && !(s.bundle a.handle).onchip

def State.waitBundle (s : State) (l : LaneId) : Bool :=
  (s.lane l).runs.any fun r => r.failed.isNone && ((s.lane l).acceptOf r.seq).any fun a => !(s.bundle a.handle).live

def Lane.stalled (L : Lane) : Bool := decide (64 ≤ L.heldSeqs.length)

def laneFlags (l : LaneId) (s : State) : List String :=
  (if (s.lane l).recovering then ["RECOVERING"] else []) ++ (if s.waitRef l then ["WAITREF"] else []) ++
  (if s.waitBundle l then ["WAITBUNDLE"] else []) ++ (if (s.lane l).stalled then ["STALLED"] else [])

def doLaneState (c : Caller) (l : LaneId) (s : State) : State :=
  s.gate c "LANE" false <|
    let L := s.lane l
    s.ok c "LANE" [laneF l, symF "state" L.st.text, ("owner", ownerText L.owner), decF "prio" L.prio.toNat,
      decF "next" L.next.toNat, decF "oldest" L.oldest.toNat, decF "accepted" L.runs.length, decF "running" L.running,
      decF "held" L.heldSeqs.length, ("flags", .syms (laneFlags l s))]

/-- A FREE lane gets an owner and its next sequence number; the host count starts at 0 (R370). -/
def openLane (o : Owner) (l : LaneId) (seq : Option W32) (prio : Option (BitVec 2)) (s : State) : State :=
  let n := seq.getD 1#32
  let s := s.bookLane l fun L => { L with
    st := .opened, owner := o, next := n, oldest := n, shown := n, first := n, hc := 0#32, prio := prio.getD L.prio }
  ownerChanged l (if o = .host then leaseStart s else s)

def doLaneOpen (c : Caller) (l : LaneId) (seq : Option W32) (prio : Option (BitVec 2)) (s : State) : State :=
  s.gate c "LANE" false <|
    if l = 0 then s.fail c "LANE" .lane
    else if (s.lane l).st = .orphaned ∧ c.path = .host then s.fail c "LANE" .lane
    else if (s.lane l).st ≠ .free then s.fail c "LANE" .state
    else
      let s := openLane c.path.owner l seq prio s
      redeliver l (s.ok c "LANE" [laneF l, bareF "OPEN", ("owner", ownerText c.path.owner), decF "next" (s.lane l).next.toNat])

/-- A lane becomes FREE; it keeps its key, regions, partition and exponents (R432). -/
def freeLane (l : LaneId) (s : State) : State :=
  let s := s.bookLane l fun L => { L with st := .free, owner := .nobody, runs := [], commits := [], recovering := false }
  leaseCheck (ownerChanged l s)

def doLaneClose (c : Caller) (l : LaneId) (s : State) : State :=
  s.gate c "LANE" false <|
    if l = 0 then s.fail c "LANE" .lane
    else match laneMay c l s with
      | .error e => s.fail c "LANE" e
      | .ok _ =>
        if (s.lane l).next ≠ (s.lane l).oldest then s.fail c "LANE" .busy
        else (freeLane l s).ok c "LANE" [laneF l, bareF "CLOSE"]

/-- Heats accepted and not retired, and completions that a discard releases. -/
def Lane.discards (L : Lane) : Nat × Nat := (L.runs.length, L.runs.length + L.heldSeqs.length)

/-- One heat is retired with status DISCARDED; `counts` says whether the activity counters see it (R458). -/
def discardOne (counts : Bool) (l : LaneId) (q : W32) (s : State) : State :=
  match (s.lane l).run q with
  | some r =>
    let s := spoilOutputs r.map (s.outputsOf l q) (adapterGive l q (s.stopShells l q))
    let r := r.pause s.steady
    let s := s.setLane l fun L => L.retire r (retireRec s l r .discarded)
    endWaits l q .discarded (if counts then countRetire l s else s)
  | none => s

/-- Every heat of a lane is discarded, every completion released, and one record written (R214, R369). -/
def discardLane (counts : Bool) (l : LaneId) (s : State) : State :=
  let qs := (s.lane l).runs.map (·.seq)
  let s := qs.foldl (fun s q => discardOne counts l q s) s
  let s := s.setLane l fun L => { L with oldest := L.next, commits := [] }
  s.logFault { s.faultRec .discard (.lane l) (some .explicitDiscard) with
    lane := some l, seqFirst := qs.headD 0#32, seqLast := qs.getLastD 0#32, count := qs.length }

def doLaneCloseDiscard (c : Caller) (l : LaneId) (s : State) : State :=
  s.gate c "LANE" false <|
    if (s.lane l).st ≠ .orphaned then s.fail c "LANE" .state
    else
      let (n, m) := (s.lane l).discards
      (freeLane l (discardLane true l s)).ok c "LANE" [laneF l, bareF "CLOSE", decF "discarded" n, decF "released" m]

/-- CLAIM answers, then the held completions are delivered from the oldest (R209, R369). -/
def claimLane (c : Caller) (l : LaneId) (s : State) : State :=
  let was := (s.lane l).st
  let s := s.bookLane l fun L => { L with st := .opened, owner := c.path.owner }
  let s := if was = .orphaned then ownerChanged l s else s
  let s := if c.path = .host then leaseStart s else s
  let s := s.ok c "LANE" [laneF l, bareF "CLAIM", decF "next" (s.lane l).next.toNat, decF "held" (s.lane l).heldSeqs.length]
  redeliver l (s.setRing l fun r => { r with out := r.out.filter fun e => e.kind != .completion })

def doLaneClaim (c : Caller) (l : LaneId) (s : State) : State :=
  s.gate c "LANE" false <|
    if l = 0 then s.fail c "LANE" .lane
    else match (s.lane l).st with
      | .opened => if s.laneOwner l = c.path.owner then claimLane c l s else s.fail c "LANE" .lane
      | .orphaned => claimLane c l s
      | .free => s.fail c "LANE" .state
      | .scrub => s.fail c "LANE" .state

/-- LANE KEY (R255, R256, R351): the rotation holds KEYOP until its end. -/
def doLaneKey (c : Caller) (l : LaneId) (s : State) : State :=
  s.gate c "LANE" false <|
    match laneMay c l s with
    | .error e => s.fail c "LANE" e
    | .ok _ =>
      if s.keys.keyop ≠ 0 ∨ s.keys.repair ≠ 0 then s.fail c "LANE" .busy
      else match startRotation false l s with
        | .error e => s.fail c "LANE" e
        | .ok t =>
          let k := (slotWith t (.laneTarget l)).getD 0
          sweepCheck ((keyopStart t).ok c "LANE" [laneF l, bareF "KEY", bareF "ROTATING", symF "slot" ("K" ++ toString k.val)])

def execLaneState (c : Caller) (lane : LaneId) (s : State) : Host.Outcome State Fault Refusal := .next (doLaneState c lane s)
def execLaneOpen (c : Caller) (lane : LaneId) (seq : Option W32) (prio : Option (BitVec 2)) (s : State) :
    Host.Outcome State Fault Refusal := .next (doLaneOpen c lane seq prio s)
def execLaneClose (c : Caller) (lane : LaneId) (s : State) : Host.Outcome State Fault Refusal := .next (doLaneClose c lane s)
def execLaneCloseDiscard (c : Caller) (lane : LaneId) (s : State) : Host.Outcome State Fault Refusal :=
  .next (doLaneCloseDiscard c lane s)
def execLaneClaim (c : Caller) (lane : LaneId) (s : State) : Host.Outcome State Fault Refusal := .next (doLaneClaim c lane s)
def execLaneKey (c : Caller) (lane : LaneId) (s : State) : Host.Outcome State Fault Refusal := .next (doLaneKey c lane s)

/-! ## TAKE and WAIT (R345) -/

def doTake (c : Caller) (l : LaneId) (seq : Option W32) (s : State) : State :=
  s.gate c "TAKE" false <|
    match laneMay c l s with
    | .error e => s.fail c "TAKE" e
    | .ok _ =>
      let L := s.lane l
      match L.heldSeqs with
      | [] => s.fail c "TAKE" .state
      | q0 :: _ =>
        let q := seq.getD q0
        match L.heldSeqs.contains q, L.completion q with
        | true, some (a, t, r) => (s.releaseTo l q).ok c "TAKE" ([laneF l, ("", .dec q.toNat)] ++ completionFields a t r)
        | _, _ => s.fail c "TAKE" .range

def execTake (c : Caller) (lane : LaneId) (seq : Option W32) (s : State) : Host.Outcome State Fault Refusal :=
  .next (doTake c lane seq s)

/-- A heat whose block now holds a later one (R227): it was accepted since the lane was opened, and nothing of it is kept. -/
def Lane.overwritten (L : Lane) (q : W32) : Bool :=
  decide ((q - L.first).toNat < (L.next - L.first).toNat) &&
  (Tab.get? L.journal (q.toNat % 128)).any fun b => b.seq != q && decide ((b.seq - q).toNat < 2 ^ 31)

/-- A WAIT that does not end at once: the Call line blocks; a submission ring goes on. -/
def waitStart (w : WaitRec) (s : State) : State :=
  match w.caller.path with
  | .call => { s with call := { s.call with wait := some w, running := some "WAIT" } }
  | .host =>
    { s with host := { s.host with waits := s.host.waits ++ [w] } }.setRing w.caller.ring fun (r : Ring) =>
      if w.caller.at_.isSome && r.busy == w.caller.at_ then { r with busy := none, waits := r.waits ++ r.busy.toList } else r

def doWait (c : Caller) (l : LaneId) (seq : Option W32) (s : State) : State :=
  s.gate c "WAIT" false <|
    match laneMay c l s with
    | .error e => s.fail c "WAIT" e
    | .ok _ =>
      let L := s.lane l
      let q := seq.getD (L.next - 1#32)
      let head := [laneF l, ("", .dec q.toNat), bareF "RETIRED"]
      match L.block q with
      | some b =>
        match b.accept, b.retire with
        | some _, some r => s.ok c "WAIT" (head ++ [symF "status" r.status.text])
        | some _, none => waitStart { lane := l, seq := q, caller := c } s
        | none, _ => s.fail c "WAIT" .range
      | none => if L.overwritten q then s.ok c "WAIT" (head ++ [("status", .dash)]) else s.fail c "WAIT" .range

def execWait (c : Caller) (lane : LaneId) (seq : Option W32) (_ms : Nat) (s : State) : Host.Outcome State Fault Refusal :=
  .next (doWait c lane seq s)

/-- The time of a WAIT has passed. -/
def waitTimeout (c : Caller) (s : State) : State :=
  let late (s : State) (w : WaitRec) : State := s.reply w.caller [⟨.fail, "WAIT", w.caller.tag, [bareF "E.BUSY", bareF "timeout"]⟩]
  match c.path with
  | .call =>
    match s.call.wait with
    | some w => late { s with call := { s.call with wait := none } } w
    | none => s
  | .host =>
    match s.host.waits.find? fun w => w.caller == c with
    | some w => late { s with host := { s.host with waits := s.host.waits.filter fun x => x.caller != c } } w
    | none => s

def execWaitTimeout (c : Caller) (s : State) : Host.Outcome State Fault Refusal := .next (waitTimeout c s)

/-! ## SCRUB (R433 to R437) -/

/-- The lane's mailbox ring pair is reset and zero-filled (R434, R365). -/
def ringWipe (l : LaneId) (s : State) : State :=
  let s := s.ringZero l
  { s with mem := { s.mem with bh := s.mem.bh.clear (mailboxBase + 0x1C000 * l.val) 0x1C000 } }

/-- Step 1. -/
def scrubBegin (c : Caller) (l : LaneId) (s : State) : State :=
  let (n, m) := (s.lane l).discards
  let s := s.setLane l fun L => { L with st := .scrub, owner := .nobody, scrubStep := some 1 }
  let s := ringWipe l (leaseCheck (ownerChanged l s))
  (s.ok c "SCRUB" [laneF l, decF "discarded" n, decF "released" m]).raise (.evt "SCRUB" [laneF l, bareF "BEGIN"])

def doScrub (c : Caller) (l : LaneId) (s : State) : State :=
  s.gate c "SCRUB" false <|
    if l = 0 then s.fail c "SCRUB" .lane
    else match (s.lane l).st with
      | .free => s.fail c "SCRUB" .state
      | .scrub => s.fail c "SCRUB" .state
      | .orphaned => if c.path = .call then scrubBegin c l s else s.fail c "SCRUB" .lane
      | .opened => if s.laneOwner l = c.path.owner then scrubBegin c l s else s.fail c "SCRUB" .lane

def execScrub (c : Caller) (lane : LaneId) (s : State) : Host.Outcome State Fault Refusal := .next (doScrub c lane s)

/-- A started heat of another lane than L3 holds an adapter version (R176). -/
def adapterReaders (s : State) : Bool :=
  (List.finRange 4).any fun k => k != 3 && (s.lane k).runs.any fun r => r.started && r.ad.isSome

/-- The region goes back to its lane by a sweep (R257). -/
def State.unsealing (s : State) (i : Fin 32) : Bool :=
  s.mem.sweeps.any fun w => w.region == some i && (match w.kind with | .unseal _ => true | _ => false)

/-- Both key slots of the lane are zeroised; its rotation and its sealing sweeps' use of the key end (R253, R256). A region that was on
its way back to the lane is the lane's. -/
def loseKeys (l : LaneId) (s : State) : State :=
  let mine (k : KSlot) : Bool := k.use == .lane l || k.use == .laneTarget l
  let rotating := s.mem.sweeps.any fun w => w.kind == .lane l
  let back (i : Fin 32) : Bool := s.mem.region[i].lane == l && s.unsealing i
  let s := { s with mem := { s.mem with
    kslot := s.mem.kslot.map fun (k : KSlot) => if mine k then {} else k
    sweeps := s.mem.sweeps.filter fun w => w.kind != .lane l && !w.region.any back
    region := mapIdx s.mem.region fun i g =>
      if back i then { g with sealed := false, rotating := false, left := 0#18 }
      else if g.lane = l ∧ g.sealed then { g with homeAlive := false }
      else if g.lane = l then { g with rotating := false, left := 0#18 } else g } }
  if rotating then keyopEnd s else s

/-- Step 4. -/
def scrubKeys (l : LaneId) (s : State) : State :=
  let s := loseKeys l s
  let s := { s with bundles := s.bundles.map fun (b : Bundle) => { b with lanes := b.lanes &&& ~~~BitVec.ofNat 4 (2 ^ l.val) } }
  (List.finRange 16).foldl (fun s h => if (s.bundle h).st ≠ .free ∧ (s.bundle h).lanes = 0#4 then dropBundle h s else s) s

/-- What a scrub leaves of a shell whose last heat was the lane's: rig slots 12 to 15 and its running state. -/
def Shell.wipe (l : LaneId) (x : Shell) : Shell :=
  if x.lastLane = some l then { x with
    sram := [], table := [], scale := [], poisoned := []
    slots := mapIdx x.slots fun k r => if k.val < 12 then {} else r
    cur := x.cur.filter fun k => 12 ≤ k.val }
  else x

/-- Bank b loses its contents. -/
def wipeBank (b : Fin 64) (s : State) : State := { s with mem := { s.mem with bh := s.mem.bh.clear (b.val * 0x80000) 0x80000 } }

/-- The tallies of a lane become 0. -/
def clearTallies (l : LaneId) (s : State) : State :=
  { s with tallies := s.tallies.filter fun p => p.1 / 256 != l.val }

/-- Step 5: the partition but for bundle copies that other lanes still run in banks that are not retained, shells, tallies and exponent tables. -/
def scrubLocal (l : LaneId) (s : State) : State :=
  let kept (b : Fin 64) : Bool := s.mem.retain.any fun r => r.valid && r.lane == l && r.bank.toNat == b.val
  let s := ((List.finRange 64).filter fun b => kept b || (s.mem.part[l].getLsbD b.val && !s.copyBanks.contains b)).foldl (fun s b => wipeBank b s) s
  let s := { s with
    shells := s.shells.map fun (x : Shell) => x.wipe l
    mem := { s.mem with retain := s.mem.retain.map fun (r : Retain) => if r.valid ∧ r.lane = l then {} else r } }
  let s := clearTallies l (s.setLane l fun L => { L with exps := [] })
  if l = 3 then { s with ads := Vector.replicate 8 {} } else s

/-- Step 6: the lane's regions are zero-filled and deleted. -/
def scrubDram (l : LaneId) (s : State) : State :=
  ((List.finRange 32).filter fun i => s.mem.region[i].valid && !s.mem.region[i].sealed && s.mem.region[i].lane == l).foldl
    (fun s i =>
      let g := s.mem.region[i]
      (forgetUnits g.lo g.hi (clearGen g.lo g.hi s)).setRegion i fun _ => {}) s

/-- The default priority of a lane (R18, R232). -/
def defaultPrio (l : LaneId) : BitVec 2 := match l.val with | 0 => 0#2 | 3 => 2#2 | _ => 1#2

/-- Step 7: the lane is FREE with its registers at their reset values. -/
def scrubEnd (l : LaneId) (s : State) : State :=
  let s := s.setLane l fun _ => { prio := defaultPrio l }
  let s := { s with stat := { s.stat with lane := put s.stat.lane l {}, laneShown := put s.stat.laneShown l {} } }
  s.raise (.evt "SCRUB" [laneF l, bareF "DONE"])

/-- The step that a scrub has come to ends, and the next starts. -/
def scrubStepDone (l : LaneId) (s : State) : State :=
  match (s.lane l).scrubStep with
  | some k =>
    let go (f : State → State) : State := f (s.setLane l fun L => { L with scrubStep := some (k + 1) })
    match k with
    | 1 => go fun s => strFree (s.laneShells l) (discardLane false l s)
    | 2 => go id
    | 3 => if l = 3 ∧ adapterReaders s then s else go (scrubKeys l)
    | 4 => go (scrubLocal l)
    | 5 => go (scrubDram l)
    | _ => scrubEnd l s
  | none => s

def execScrubStepDone (lane : LaneId) (s : State) : Host.Outcome State Fault Refusal := .next (scrubStepDone lane s)

end Sys2Proof.Machine
end

