-- ==== Sys2Proof/Machine/RegTable.lean ====
section
/-! DEFINITION. The names of the register window: every register with its offset, and its named fields (R343, R452, and the
register tables of the chapters that R452 names). -/

namespace Sys2Proof.Machine
open Sys2Proof

/-- Access codes of R8. -/
inductive Access where
  | ro | rw | wo | w1c | rc | ws
deriving DecidableEq, Repr

/-- A named field: its lowest bit and its width. -/
structure FieldRow where
  name : String
  lo : Nat
  width : Nat
  acc : Access
deriving DecidableEq, Repr

/-- A register, or a family of them: the name before and after its index, the first offset, the distance, and how many. -/
structure RegRow where
  pre : String
  post : String
  base : Nat
  stride : Nat
  count : Nat
  fields : List FieldRow
deriving DecidableEq, Repr

def regRows0 : List RegRow :=
  [⟨"ID_PART", "", 0x0, 0x0, 1, []⟩,
   ⟨"ID_FW", "", 0x4, 0x0, 1, []⟩,
   ⟨"ID_CALL", "", 0x8, 0x0, 1, []⟩,
   ⟨"ID_CAPS", "", 0xC, 0x0, 1, []⟩,
   ⟨"ID_UID_LO", "", 0x10, 0x0, 1, []⟩,
   ⟨"ID_UID_HI", "", 0x14, 0x0, 1, []⟩,
   ⟨"GLB_STATUS", "", 0x1000, 0x0, 1, [⟨"BANNER", 31, 1, .ro⟩, ⟨"DEGRADED", 30, 1, .ro⟩, ⟨"RECOVERY", 29, 1, .ro⟩, ⟨"CONF", 28, 1, .ro⟩, ⟨"START", 26, 2, .ro⟩, ⟨"RECOVERED", 1, 1, .ro⟩, ⟨"LOGLOST", 0, 1, .w1c⟩]⟩,
   ⟨"GLB_TICK_LO", "", 0x1004, 0x0, 1, []⟩,
   ⟨"GLB_TICK_HI", "", 0x1008, 0x0, 1, []⟩,
   ⟨"GLB_SLOW", "", 0x100C, 0x0, 1, []⟩,
   ⟨"GLB_PATH", "", 0x1010, 0x0, 1, []⟩,
   ⟨"GLB_CALL", "", 0x1014, 0x0, 1, [⟨"LOCKED", 31, 1, .ro⟩, ⟨"TERSE", 30, 1, .ro⟩, ⟨"ECHO", 29, 1, .ro⟩, ⟨"EVENTS", 28, 1, .ro⟩, ⟨"CHECK", 27, 1, .ro⟩, ⟨"FLOW", 26, 1, .ro⟩, ⟨"BAUD", 0, 22, .ro⟩]⟩,
   ⟨"LANE", "_STATE", 0x2000, 0x400, 4, [⟨"RECOVERING", 11, 1, .ro⟩, ⟨"WAITREF", 10, 1, .ro⟩, ⟨"WAITBUNDLE", 9, 1, .ro⟩, ⟨"STALLED", 8, 1, .ro⟩, ⟨"OWNER", 4, 2, .ro⟩, ⟨"STATE", 0, 4, .ro⟩]⟩,
   ⟨"LANE", "_PRIO", 0x2004, 0x400, 4, [⟨"PRIO", 0, 2, .rw⟩]⟩,
   ⟨"LANE", "_NEXTSEQ", 0x2008, 0x400, 4, []⟩,
   ⟨"LANE", "_OLDEST", 0x200C, 0x400, 4, []⟩,
   ⟨"LANE", "_COUNTS", 0x2010, 0x400, 4, [⟨"RUNNING", 16, 4, .ro⟩, ⟨"HELD", 8, 7, .ro⟩, ⟨"ACCEPTED", 0, 7, .ro⟩]⟩,
   ⟨"LANE", "_RETIRED", 0x2014, 0x400, 4, []⟩,
   ⟨"LANE", "_SPIN_LO", 0x2018, 0x400, 4, []⟩,
   ⟨"LANE", "_SPIN_HI", 0x201C, 0x400, 4, []⟩]

def regRows1 : List RegRow :=
  [⟨"AD", "_STATE", 0x2F00, 0x10, 8, [⟨"TENSORS", 16, 7, .ro⟩, ⟨"RANK", 8, 8, .ro⟩, ⟨"SET", 3, 1, .ro⟩, ⟨"HELD", 2, 1, .ro⟩, ⟨"STATE", 0, 2, .ro⟩]⟩,
   ⟨"AD", "_VER", 0x2F04, 0x10, 8, []⟩,
   ⟨"AD", "_GRANT", 0x2F08, 0x10, 8, [⟨"L2", 2, 1, .rw⟩, ⟨"L1", 1, 1, .rw⟩]⟩,
   ⟨"AD", "_PARAMS", 0x2F0C, 0x10, 8, []⟩,
   ⟨"TALLY", "", 0x3000, 0x4, 1024, [⟨"COUNT", 0, 32, .ro⟩]⟩,
   ⟨"RAIL_STATUS", "", 0x4000, 0x0, 1, [⟨"GOV", 30, 2, .ro⟩, ⟨"FAULT", 29, 1, .ro⟩, ⟨"FLOOR", 28, 1, .ro⟩, ⟨"PGCORE", 27, 1, .ro⟩, ⟨"BUSY", 26, 1, .ro⟩]⟩,
   ⟨"RAIL_CTRL", "", 0x4004, 0x0, 1, [⟨"FIXED", 31, 1, .rw⟩, ⟨"CEILING", 16, 13, .rw⟩, ⟨"FIXMV", 0, 10, .rw⟩]⟩,
   ⟨"RAIL_SET", "", 0x4008, 0x0, 1, []⟩,
   ⟨"RAIL_MEAS", "", 0x400C, 0x0, 1, []⟩,
   ⟨"RAIL_RATE", "", 0x4010, 0x0, 1, []⟩,
   ⟨"RAIL_POWER", "", 0x4014, 0x0, 1, [⟨"STALE", 31, 1, .ro⟩]⟩,
   ⟨"PMB_CFG", "", 0x4018, 0x0, 1, [⟨"VOUT_MODE", 0, 8, .ro⟩]⟩,
   ⟨"PWR_RESET", "", 0x401C, 0x0, 1, []⟩,
   ⟨"PD_UP", "", 0x4020, 0x0, 1, []⟩,
   ⟨"PD_WAKING", "", 0x4024, 0x0, 1, []⟩,
   ⟨"PD_FENCED", "", 0x4028, 0x0, 1, []⟩,
   ⟨"FAULT_CLOCK", "", 0x5000, 0x0, 1, [⟨"ABSENT", 16, 14, .ro⟩, ⟨"LOST", 0, 14, .w1c⟩]⟩,
   ⟨"FAULT_SHELLS", "", 0x5004, 0x0, 1, []⟩,
   ⟨"FAULT_SHELLOK", "", 0x5008, 0x0, 1, []⟩,
   ⟨"FAULT_BANKS", "", 0x500C, 0x0, 1, [⟨"SPAREUSED", 16, 4, .ro⟩, ⟨"ROWSUSED", 0, 10, .ro⟩]⟩]

def regRows2 : List RegRow :=
  [⟨"FAULT_COX", "", 0x5010, 0x0, 1, [⟨"COX_L3", 30, 2, .ro⟩, ⟨"COX_L2", 28, 2, .ro⟩, ⟨"COX_L1", 26, 2, .ro⟩, ⟨"COX_L0", 24, 2, .ro⟩, ⟨"TAKEOVERS", 16, 8, .ro⟩, ⟨"CALLCOX", 12, 2, .ro⟩, ⟨"ROLE_S", 8, 4, .ro⟩, ⟨"ROLE_B", 4, 4, .ro⟩, ⟨"ROLE_A", 0, 4, .ro⟩]⟩,
   ⟨"FAULT_UNITS", "", 0x5014, 0x0, 1, [⟨"SLICES", 8, 9, .ro⟩, ⟨"AES", 4, 3, .ro⟩, ⟨"DECODERS", 0, 4, .ro⟩]⟩,
   ⟨"FAULT_LOGNUM", "", 0x5018, 0x0, 1, []⟩,
   ⟨"FAULT_RECORDS", "", 0x501C, 0x0, 1, [⟨"FLASH", 16, 16, .ro⟩, ⟨"FUSES", 0, 6, .ro⟩]⟩,
   ⟨"SHELL_MAP", "", 0x5040, 0x4, 4, []⟩,
   ⟨"SHELL_STATE", "", 0x5050, 0x0, 1, [⟨"VARIANT", 30, 2, .ro⟩, ⟨"COUNT", 24, 5, .ro⟩, ⟨"INSVC", 0, 18, .ro⟩]⟩,
   ⟨"STAT_WINDOW", "", 0x6000, 0x0, 1, []⟩,
   ⟨"STAT_STROKES", "", 0x6004, 0x0, 1, []⟩,
   ⟨"STAT_RETIRED", "", 0x6008, 0x0, 1, []⟩,
   ⟨"STAT_DRAM_RD", "", 0x600C, 0x0, 1, []⟩,
   ⟨"STAT_DRAM_WR", "", 0x6010, 0x0, 1, []⟩,
   ⟨"STAT_BH", "", 0x6014, 0x0, 1, []⟩,
   ⟨"STAT_CODES", "", 0x6018, 0x0, 1, []⟩,
   ⟨"STAT_AES", "", 0x601C, 0x0, 1, []⟩,
   ⟨"STAT_WIN", "", 0x6020, 0x0, 1, []⟩,
   ⟨"STAT_L", "_STROKES", 0x6100, 0x10, 4, []⟩,
   ⟨"STAT_L", "_DRAM", 0x6104, 0x10, 4, []⟩,
   ⟨"STAT_L", "_BH", 0x6108, 0x10, 4, []⟩,
   ⟨"STAT_L", "_RETIRED", 0x610C, 0x10, 4, []⟩,
   ⟨"HS", "_SEQ", 0x6200, 0x20, 4, []⟩]

def regRows3 : List RegRow :=
  [⟨"HS", "_FLAGS", 0x6204, 0x20, 4, [⟨"H16N", 16, 8, .ro⟩, ⟨"I16N", 8, 8, .ro⟩, ⟨"ACCOVF", 3, 1, .ro⟩, ⟨"NAN", 2, 1, .ro⟩, ⟨"RERUN", 1, 1, .ro⟩, ⟨"WIDENED", 0, 1, .ro⟩]⟩,
   ⟨"HS", "_CRAB", 0x6208, 0x20, 4, []⟩,
   ⟨"HS", "_CRABSIDE", 0x620C, 0x20, 4, []⟩,
   ⟨"HS", "_FEATHER", 0x6210, 0x20, 4, []⟩,
   ⟨"HS", "_ELEM_LO", 0x6214, 0x20, 4, []⟩,
   ⟨"HS", "_ELEM_HI", 0x6218, 0x20, 4, []⟩,
   ⟨"HS", "_READCRAB", 0x621C, 0x20, 4, []⟩,
   ⟨"KEY_STATUS", "", 0x7000, 0x0, 1, [⟨"CONF", 31, 1, .ro⟩, ⟨"NOENT", 30, 1, .ro⟩, ⟨"KEYOP", 4, 1, .ro⟩, ⟨"REPAIR", 3, 1, .ro⟩, ⟨"SELFTEST", 2, 1, .ro⟩, ⟨"RECOVERY", 1, 1, .ro⟩, ⟨"STARTUP", 0, 1, .ro⟩]⟩,
   ⟨"KEY_FW", "", 0x7004, 0x0, 1, [⟨"REVOKED", 8, 2, .ro⟩, ⟨"USABLE", 4, 2, .ro⟩, ⟨"PROGRAMMED", 0, 2, .ro⟩]⟩,
   ⟨"KEY_VK", "", 0x7008, 0x0, 1, [⟨"REVOKED", 8, 4, .ro⟩, ⟨"USABLE", 4, 4, .ro⟩, ⟨"PROGRAMMED", 0, 4, .ro⟩]⟩,
   ⟨"MEM_INFO", "", 0x8000, 0x0, 1, [⟨"TRAINED", 31, 1, .ro⟩, ⟨"NOREF", 30, 1, .ro⟩, ⟨"FITTED", 16, 8, .ro⟩, ⟨"RATE", 12, 4, .ro⟩, ⟨"RANKS", 10, 2, .ro⟩]⟩,
   ⟨"MEM_USABLE", "", 0x8004, 0x0, 1, []⟩,
   ⟨"MEM_CE", "", 0x8008, 0x0, 1, []⟩,
   ⟨"MEM_UE", "", 0x800C, 0x0, 1, []⟩,
   ⟨"MEM_SPARE", "", 0x8010, 0x0, 1, []⟩,
   ⟨"ROT_PACE", "", 0x8014, 0x0, 1, []⟩,
   ⟨"WIN_REFUSED", "", 0x8018, 0x0, 1, [⟨"COUNT", 0, 32, .rc⟩]⟩,
   ⟨"KSLOT_STATE", "", 0x801C, 0x0, 1, [⟨"USE0", 0, 4, .ro⟩, ⟨"USE1", 4, 4, .ro⟩, ⟨"USE2", 8, 4, .ro⟩, ⟨"USE3", 12, 4, .ro⟩, ⟨"USE4", 16, 4, .ro⟩, ⟨"USE5", 20, 4, .ro⟩, ⟨"USE6", 24, 4, .ro⟩, ⟨"USE7", 28, 4, .ro⟩]⟩,
   ⟨"BH_RETAIN", "", 0x8020, 0x4, 4, [⟨"LANE", 8, 2, .ro⟩, ⟨"VALID", 7, 1, .rw⟩, ⟨"BANK", 0, 6, .rw⟩]⟩,
   ⟨"BH_PART", "_LO", 0x8040, 0x8, 4, []⟩]

def regRows4 : List RegRow :=
  [⟨"BH_PART", "_HI", 0x8044, 0x8, 4, []⟩,
   ⟨"REG", "_BASE", 0x8100, 0x10, 32, []⟩,
   ⟨"REG", "_SIZE", 0x8104, 0x10, 32, []⟩,
   ⟨"REG", "_CTRL", 0x8108, 0x10, 32, [⟨"MAKE", 31, 1, .ws⟩, ⟨"DELETE", 30, 1, .ws⟩, ⟨"WINDOW", 7, 1, .rw⟩, ⟨"LANE", 0, 2, .rw⟩]⟩,
   ⟨"REG", "_STATUS", 0x810C, 0x10, 32, [⟨"VALID", 31, 1, .ro⟩, ⟨"SEALED", 30, 1, .ro⟩, ⟨"ADAPTER", 29, 1, .ro⟩, ⟨"ROTATING", 28, 1, .ro⟩, ⟨"GEN", 27, 1, .ro⟩, ⟨"ERR", 24, 3, .ro⟩, ⟨"SLOT0", 21, 3, .ro⟩, ⟨"SLOT1", 18, 3, .ro⟩, ⟨"LEFT", 0, 18, .ro⟩]⟩,
   ⟨"RETIRE", "", 0x8400, 0x4, 256, [⟨"VALID", 31, 1, .ro⟩]⟩,
   ⟨"EYE_STATUS", "", 0x9000, 0x0, 1, [⟨"READY", 31, 1, .ro⟩, ⟨"DEGRADED", 30, 1, .ro⟩, ⟨"FOREGROUND", 29, 1, .ro⟩, ⟨"ACTIVE", 24, 4, .ro⟩, ⟨"CALGEN", 8, 8, .ro⟩, ⟨"SPARE", 4, 4, .ro⟩]⟩,
   ⟨"EYE_CTRL", "", 0x9004, 0x0, 1, [⟨"SNAP", 31, 1, .ws⟩, ⟨"MODE", 8, 2, .rw⟩, ⟨"IREN", 4, 1, .rw⟩, ⟨"TRIGSRC", 0, 4, .rw⟩]⟩,
   ⟨"EYE_DELAY", "", 0x9008, 0x0, 1, []⟩,
   ⟨"EYE_EXPOSE", "", 0x900C, 0x0, 1, []⟩,
   ⟨"EYE_IR", "", 0x9010, 0x0, 1, [⟨"LEAD", 10, 10, .rw⟩, ⟨"TAIL", 0, 10, .rw⟩]⟩,
   ⟨"EYE_IRMAX", "", 0x9014, 0x0, 1, [⟨"DUTY", 16, 8, .rw⟩, ⟨"ONMAX", 0, 16, .rw⟩]⟩,
   ⟨"EYE_HOLD", "", 0x9018, 0x0, 1, [⟨"HOLD", 0, 1, .rw⟩]⟩,
   ⟨"EYE_TALLY", "", 0x901C, 0x0, 1, [⟨"EN", 31, 1, .ro⟩]⟩,
   ⟨"EYE_FRAMES", "", 0x9020, 0x0, 1, []⟩,
   ⟨"EYE_MISSED", "", 0x9024, 0x0, 1, [⟨"IRCUT", 24, 8, .rc⟩, ⟨"OVERFLOW", 16, 8, .rc⟩, ⟨"NOTREADY", 12, 4, .rc⟩, ⟨"NOSLOT", 8, 4, .rc⟩, ⟨"BUSY", 0, 8, .rc⟩]⟩,
   ⟨"EYE_CALCTL", "", 0x9028, 0x0, 1, [⟨"STALE", 8, 8, .rw⟩, ⟨"CAL_PERIOD", 0, 8, .rw⟩]⟩,
   ⟨"EYE_COPY", "", 0x902C, 0x0, 1, [⟨"EN", 31, 1, .rw⟩, ⟨"LANE", 24, 2, .rw⟩, ⟨"NBANK", 8, 2, .rw⟩, ⟨"BANK", 0, 6, .rw⟩]⟩,
   ⟨"SLICE_MAP", "", 0x9030, 0x0, 1, []⟩,
   ⟨"EYE_LOOK", "", 0x9034, 0x0, 1, [⟨"ATTEND", 16, 1, .rw⟩, ⟨"OFF", 8, 8, .rw⟩, ⟨"ON", 0, 8, .rw⟩]⟩]

def regRows5 : List RegRow :=
  [⟨"SL", "_CAL", 0x9040, 0x8, 9, [⟨"OFFSET", 20, 12, .ro⟩, ⟨"GAIN", 6, 14, .ro⟩]⟩,
   ⟨"SL", "_STATE", 0x9044, 0x8, 9, [⟨"SKEW", 24, 8, .ro⟩, ⟨"LASTGEN", 8, 8, .ro⟩, ⟨"FAILS", 4, 4, .ro⟩, ⟨"ROLE", 0, 2, .ro⟩]⟩,
   ⟨"EAR_CTRL", "", 0xA000, 0x0, 1, [⟨"START", 31, 1, .ws⟩, ⟨"STOP", 30, 1, .ws⟩, ⟨"RUN", 15, 1, .ro⟩, ⟨"OSR", 8, 2, .rw⟩, ⟨"TRIGSRC", 0, 4, .rw⟩]⟩,
   ⟨"EAR_ENABLE", "", 0xA004, 0x0, 1, []⟩,
   ⟨"EAR_STATUS", "", 0xA008, 0x0, 1, [⟨"NOTCHERR", 8, 8, .ro⟩, ⟨"SETTLING", 0, 8, .ro⟩]⟩,
   ⟨"EAR_FLAGS", "", 0xA00C, 0x0, 1, [⟨"OVRSEEN", 8, 8, .w1c⟩, ⟨"CLIPSEEN", 0, 8, .w1c⟩]⟩,
   ⟨"EAR_CH", "", 0xA010, 0x4, 8, [⟨"GAIN", 20, 4, .rw⟩, ⟨"ORDER", 16, 2, .rw⟩, ⟨"NOTCHEN", 15, 1, .rw⟩, ⟨"NOTCHF", 0, 15, .rw⟩]⟩,
   ⟨"EAR_RESULT", "", 0xA030, 0x4, 8, [⟨"VALID", 31, 1, .rc⟩, ⟨"OVR", 30, 1, .rc⟩, ⟨"CLIP", 29, 1, .rc⟩, ⟨"CHAN", 24, 5, .rc⟩, ⟨"DATA", 0, 24, .rc⟩]⟩,
   ⟨"EAR_SAMPLE_LO", "", 0xA050, 0x0, 1, []⟩,
   ⟨"EAR_SAMPLE_HI", "", 0xA054, 0x0, 1, []⟩,
   ⟨"EAR_BIAS", "", 0xA058, 0x0, 1, [⟨"READY1", 31, 1, .ro⟩, ⟨"READY0", 30, 1, .ro⟩, ⟨"EN1", 15, 1, .rw⟩, ⟨"LEVEL1", 12, 2, .rw⟩, ⟨"EN0", 7, 1, .rw⟩, ⟨"LEVEL0", 4, 2, .rw⟩]⟩,
   ⟨"EAR_RING0", "", 0xA060, 0x0, 1, [⟨"EN", 31, 1, .rw⟩, ⟨"NBLK", 28, 3, .rw⟩, ⟨"LANE", 24, 2, .rw⟩, ⟨"BANK", 16, 6, .rw⟩, ⟨"BLOCK", 0, 16, .rw⟩]⟩,
   ⟨"EAR_TALLY0", "", 0xA064, 0x0, 1, [⟨"EN", 31, 1, .rw⟩]⟩,
   ⟨"EAR_RING1", "", 0xA068, 0x0, 1, [⟨"EN", 31, 1, .rw⟩, ⟨"NBLK", 28, 3, .rw⟩, ⟨"LANE", 24, 2, .rw⟩, ⟨"BANK", 16, 6, .rw⟩, ⟨"BLOCK", 0, 16, .rw⟩]⟩,
   ⟨"EAR_TALLY1", "", 0xA06C, 0x0, 1, [⟨"EN", 31, 1, .rw⟩]⟩,
   ⟨"AUDO_CTRL", "", 0xA080, 0x0, 1, [⟨"START", 31, 1, .ws⟩, ⟨"STOP", 30, 1, .ws⟩, ⟨"RUN", 15, 1, .ro⟩, ⟨"FORMAT", 8, 2, .rw⟩, ⟨"SLOTS", 4, 3, .rw⟩, ⟨"TRIGSRC", 0, 4, .rw⟩]⟩,
   ⟨"AUDO_RING", "", 0xA084, 0x0, 1, [⟨"EN", 31, 1, .rw⟩, ⟨"NBLK", 28, 3, .rw⟩, ⟨"LANE", 24, 2, .rw⟩, ⟨"BANK", 16, 6, .rw⟩, ⟨"BLOCK", 0, 16, .rw⟩]⟩,
   ⟨"AUDO_TALLY", "", 0xA088, 0x0, 1, []⟩,
   ⟨"AUDO_UNDER", "", 0xA08C, 0x0, 1, [⟨"COUNT", 0, 32, .rc⟩]⟩,
   ⟨"SENSE_CTRL", "", 0xB000, 0x0, 1, [⟨"PERIOD", 0, 16, .rw⟩]⟩]

/-- The fields of a sensing result (R301). -/
def resultFields (a : Access) : List FieldRow :=
  [⟨"VALID", 31, 1, a⟩, ⟨"OVR", 30, 1, a⟩, ⟨"URG", 29, 1, a⟩, ⟨"SRC", 24, 5, a⟩, ⟨"PASS", 20, 4, a⟩, ⟨"DATA", 0, 20, a⟩]

/-- The fields of the bytes of EDGE_BTNk and EDGE_PLUG, named with the number of their byte (R322; notes/assumptions/13). -/
def byteFields (mid : String) (n : Nat) : List FieldRow :=
  (List.range n).flatMap fun i =>
    [⟨"EN" ++ toString i, 8 * i + 7, 1, .rw⟩, ⟨mid ++ toString i, 8 * i + 6, 1, .rw⟩, ⟨"DB" ++ toString i, 8 * i, 6, .rw⟩]

def regRows6 : List RegRow :=
  [⟨"SENSE_DATA", "", 0xB004, 0x0, 1, resultFields .rc⟩,
   ⟨"SENSE_URGENT", "", 0xB008, 0x0, 1, [⟨"GO", 31, 1, .ws⟩, ⟨"OSR", 29, 2, .rw⟩, ⟨"SETTLE", 16, 8, .rw⟩, ⟨"INPUT", 0, 5, .rw⟩]⟩,
   ⟨"SENSE_STATUS", "", 0xB00C, 0x0, 1, [⟨"URGRUN", 15, 1, .ro⟩]⟩,
   ⟨"SENSE_HOT", "", 0xB010, 0x0, 1, []⟩,
   ⟨"SENSE_SEQ", "", 0xB080, 0x4, 32, [⟨"EN", 31, 1, .rw⟩, ⟨"OSR", 29, 2, .rw⟩, ⟨"SETTLE", 16, 8, .rw⟩, ⟨"INPUT", 0, 5, .rw⟩]⟩,
   ⟨"SENSE_LAST", "", 0xB100, 0x4, 32, resultFields .ro⟩,
   ⟨"EDGE_LEVEL", "", 0xC000, 0x0, 1, []⟩,
   ⟨"EDGE_BTN", "", 0xC004, 0x4, 3, byteFields "PU" 4⟩,
   ⟨"EDGE_PLUG", "", 0xC010, 0x0, 1, byteFields "IMPCHK" 2⟩,
   ⟨"EDGE_TOUCH", "", 0xC020, 0x4, 4, [⟨"EN", 31, 1, .rw⟩, ⟨"ONTH", 16, 12, .rw⟩, ⟨"OFFTH", 0, 12, .rw⟩]⟩,
   ⟨"EDGE_TBASE", "", 0xC030, 0x4, 4, [⟨"BASE", 0, 20, .ro⟩]⟩,
   ⟨"EDGE_QUEUE", "", 0xC040, 0x0, 1, []⟩,
   ⟨"EDGE_LOST", "", 0xC044, 0x0, 1, [⟨"COUNT", 0, 16, .rc⟩]⟩,
   ⟨"PWM", "_CTRL", 0xC060, 0x8, 4, [⟨"GO", 31, 1, .ws⟩, ⟨"EN", 30, 1, .rw⟩, ⟨"POL", 29, 1, .rw⟩, ⟨"PRE", 24, 4, .rw⟩, ⟨"BURST", 0, 16, .rw⟩]⟩,
   ⟨"PWM", "_DUTY", 0xC064, 0x8, 4, [⟨"PERIOD", 16, 16, .rw⟩, ⟨"DUTY", 0, 16, .rw⟩]⟩,
   ⟨"EDGE_BIND", "", 0xC080, 0x4, 8, [⟨"VALID", 31, 1, .ro⟩, ⟨"FAILED", 30, 1, .ro⟩]⟩,
   ⟨"TMR_START", "", 0xD000, 0x0, 1, []⟩,
   ⟨"TMR_STOP", "", 0xD004, 0x0, 1, []⟩,
   ⟨"TMR_RUN", "", 0xD008, 0x0, 1, []⟩,
   ⟨"TMR_TRIGOUT", "", 0xD00C, 0x0, 1, [⟨"PULSE", 31, 1, .ws⟩, ⟨"SRC", 16, 4, .rw⟩, ⟨"WIDTH", 0, 16, .rw⟩]⟩]

def regRows7 : List RegRow :=
  [⟨"TMR_TRIGIN", "", 0xD010, 0x0, 1, []⟩,
   ⟨"TMR", "_CTRL", 0xD040, 0x10, 8, [⟨"ONESHOT", 7, 1, .rw⟩, ⟨"PIN", 6, 1, .rw⟩, ⟨"POL", 5, 1, .rw⟩, ⟨"EVSEL", 4, 1, .rw⟩]⟩,
   ⟨"TMR", "_PERIOD", 0xD044, 0x10, 8, []⟩,
   ⟨"TMR", "_COMPARE", 0xD048, 0x10, 8, []⟩,
   ⟨"TMR", "_COUNT", 0xD04C, 0x10, 8, []⟩,
   ⟨"HOST_INFO", "", 0xE000, 0x0, 1, [⟨"QSPI", 31, 1, .ro⟩, ⟨"CORERDY", 30, 1, .ro⟩, ⟨"SPEED", 20, 4, .ro⟩, ⟨"WIDTH", 16, 4, .ro⟩, ⟨"ENVVER", 0, 8, .ro⟩]⟩,
   ⟨"HOST_LEASE", "", 0xE004, 0x0, 1, [⟨"ACTIVE", 31, 1, .ro⟩, ⟨"LAPSED", 30, 1, .ro⟩, ⟨"PERIOD", 0, 16, .ro⟩]⟩,
   ⟨"HOST_LEASE_LEFT", "", 0xE008, 0x0, 1, []⟩,
   ⟨"HOST_IRQ", "", 0xE00C, 0x0, 1, [⟨"ERR", 7, 1, .w1c⟩, ⟨"LAPSE", 6, 1, .w1c⟩, ⟨"EV1", 5, 1, .w1c⟩, ⟨"EV0", 4, 1, .w1c⟩, ⟨"CQ", 0, 4, .w1c⟩]⟩,
   ⟨"HOST_IRQ_EN", "", 0xE010, 0x0, 1, []⟩,
   ⟨"HOST_WINBASE", "", 0xE014, 0x0, 1, []⟩,
   ⟨"HOST_EVCTL", "", 0xE018, 0x0, 1, []⟩,
   ⟨"HOST_QSPI", "", 0xE01C, 0x0, 1, [⟨"DROPPED", 16, 16, .rc⟩, ⟨"NOTREADY", 0, 16, .rc⟩]⟩,
   ⟨"RING", "_SQ_TAIL", 0xE100, 0x20, 4, []⟩,
   ⟨"RING", "_SQ_HEAD", 0xE104, 0x20, 4, []⟩,
   ⟨"RING", "_CQ_TAIL", 0xE108, 0x20, 4, []⟩,
   ⟨"RING", "_CQ_HEAD", 0xE10C, 0x20, 4, []⟩,
   ⟨"RING", "_CTRL", 0xE110, 0x20, 4, [⟨"RESET", 31, 1, .ws⟩, ⟨"TADDREF", 1, 1, .w1c⟩, ⟨"ERR", 0, 1, .w1c⟩]⟩,
   ⟨"RING", "_TADD", 0xE114, 0x20, 4, [⟨"AMT", 0, 16, .wo⟩]⟩,
   ⟨"RING", "_HCOUNT", 0xE118, 0x20, 4, []⟩]

def regRows8 : List RegRow :=
  [⟨"EV", "_TAIL", 0xE180, 0x8, 2, []⟩,
   ⟨"EV", "_HEAD", 0xE184, 0x8, 2, []⟩,
   ⟨"FUSE_STATUS", "", 0xF000, 0x0, 1, [⟨"BUSY", 31, 1, .ro⟩, ⟨"LOADED", 30, 1, .ro⟩]⟩,
   ⟨"FUSE_LOCK", "", 0xF010, 0x0, 1, [⟨"LOCKED", 31, 1, .ro⟩, ⟨"CODE", 0, 31, .wo⟩]⟩,
   ⟨"FUSE_REPAIR", "", 0xF100, 0x4, 32, []⟩,
   ⟨"STR_STATUS", "", 0x22000, 0x0, 1, [⟨"LOCKED", 31, 1, .ro⟩, ⟨"CLOSED", 30, 1, .ro⟩, ⟨"SESSION", 29, 1, .ro⟩, ⟨"ARMED", 0, 8, .ro⟩]⟩,
   ⟨"STR_HALTED", "", 0x22004, 0x0, 1, []⟩,
   ⟨"STR_IDLE", "", 0x22008, 0x0, 1, []⟩,
   ⟨"STR_TOUCH", "", 0x2200C, 0x0, 1, [⟨"VALID", 31, 1, .ro⟩, ⟨"LANE", 24, 2, .ro⟩, ⟨"SEQ", 0, 24, .ro⟩]⟩]

/-- The registers of the window, the scale files apart (R99). -/
def regRows : List RegRow := regRows0 ++ regRows1 ++ regRows2 ++ regRows3 ++ regRows4 ++ regRows5 ++ regRows6 ++ regRows7 ++ regRows8

/-- The index in a name of the family, if the name is one of its. -/
def RegRow.match? (r : RegRow) (n : List Byte) : Option Nat :=
  if r.stride = 0 then (if n = ascii r.pre then some 0 else none)
  else
    let pre := ascii r.pre
    let post := ascii r.post
    if n.take pre.length = pre ∧ pre.length + post.length < n.length ∧ n.drop (n.length - post.length) = post then
      match index? ((n.drop pre.length).take (n.length - pre.length - post.length)) with
      | some i => if i < r.count then some i else none
      | none => none
    else none

/-- The scale-file entry that a name gives: `SF_s_c` (R99). -/
def scaleName (n : List Byte) : Option Nat :=
  (after? "SF_" n).bind fun r => (splitOnce 0x5F#8 r).bind fun p => (index? p.1).bind fun s => (index? p.2).bind fun c =>
    if s < 18 ∧ c < 1024 then some (0x10000 + 0x1000 * s + 4 * c) else none

def scaleFields : List FieldRow := [⟨"EXP", 24, 8, .ro⟩, ⟨"MANT", 8, 16, .ro⟩, ⟨"ZP", 0, 8, .ro⟩]

/-- The offset that a register name gives. -/
def regOffset (n : List Byte) : Option Nat :=
  match regRows.findSome? fun r => (r.match? n).map fun i => r.base + r.stride * i with
  | some o => some o
  | none => scaleName n

/-- The row of an offset with the index in it. -/
def regRowAt (o : Nat) : Option (RegRow × Nat) :=
  regRows.findSome? fun r =>
    if r.base ≤ o then
      if r.stride = 0 then (if r.base = o then some (r, 0) else none)
      else if (o - r.base) % r.stride = 0 ∧ (o - r.base) / r.stride < r.count then some (r, (o - r.base) / r.stride) else none
    else none

/-- The name of the register at an offset; none where no table assigns it. -/
def regName (o : Nat) : Option String :=
  match regRowAt o with
  | some (r, i) => some (if r.stride = 0 then r.pre else r.pre ++ toString i ++ r.post)
  | none =>
    if 0x10000 ≤ o ∧ o < 0x22000 then
      some ("SF_" ++ toString ((o - 0x10000) / 0x1000) ++ "_" ++ toString ((o - 0x10000) % 0x1000 / 4))
    else none

/-- The named fields of the register at an offset. -/
def regFields (o : Nat) : List FieldRow :=
  match regRowAt o with
  | some (r, _) => r.fields
  | none => if 0x10000 ≤ o ∧ o < 0x22000 then scaleFields else []

def fieldAt (o : Nat) (n : List Byte) : Option FieldRow := (regFields o).find? fun f => ascii f.name == n

/-- A register that holds an RC field is not read back (R343). -/
def holdsRc (o : Nat) : Bool := (regFields o).any fun f => f.acc == .rc

end Sys2Proof.Machine
end

