-- ==== Sys2Proof/Machine/Timers.lean ====
section
/-! DEFINITION. The TMR block: eight timer channels, TRIG_OUT and TRIG_IN (R459 to R461). -/

namespace Sys2Proof.Machine
open Sys2Proof

/-! ## Triggers of the Eye, the Ear and audio out -/

/-- TRIGSRC codes above 9 act as 0 (R283, R296). -/
def trigOf (c : BitVec 4) : Nat := if 9 < c.toNat then 0 else c.toNat

/-- The event of trigger source k (1 to 8: TMR0 to TMR7; 9: TRIG_IN), which arrives at a tick: the Eye, the Ear and audio out take it
where their TRIGSRC names it, the latter two while they do not run (R262, R283, R296). -/
def State.fires (k : Nat) (t : W64) (s : State) : State :=
  { s with
    eye := if s.eye.trigSrc.toNat = k then { s.eye with arriving := s.eye.arriving ++ [t] } else s.eye
    ear := { s.ear with
      arriving := if trigOf s.ear.trigSrc = k ∧ s.ear.run = false then some t else s.ear.arriving
      audo := if trigOf s.ear.audo.trigSrc = k ∧ s.ear.audo.run = false then { s.ear.audo with arriving := some t } else s.ear.audo } }

/-! ## Channels -/

/-- The channel that EYE_CTRL.TRIGSRC names while HOLD is 0: only the engine writes it (R461). -/
def State.tmrHeld (s : State) (n : Fin 8) : Bool := !s.eye.hold && s.eye.trigSrc.toNat == n.val + 1

/-- A path may write a channel's registers and its bits of TMR_START and TMR_STOP. -/
def State.tmrMay (s : State) (p : Path) (n : Fin 8) : Bool := p == .cox || !s.tmrHeld n

def State.setChan (s : State) (n : Fin 8) (f : TmrChan → TmrChan) : State :=
  { s with tmr := { s.tmr with chan := upd s.tmr.chan n f } }

/-- A channel starts with count 0; with PERIOD 0 it does not run (R459). -/
def TmrChan.begun (c : TmrChan) : TmrChan := if c.period = 0#32 then c else { c with running := true, count := 0#32 }

/-- Held writes take effect at once when a channel does not run. -/
def TmrChan.settle (c : TmrChan) : TmrChan :=
  { c with
    ctrl := c.ctrlNext.getD c.ctrl, period := c.periodNext.getD c.period, compare := c.compareNext.getD c.compare
    ctrlNext := none, periodNext := none, compareNext := none }

def TmrChan.stop (c : TmrChan) : TmrChan := { c with running := false }.settle

/-- A write of TMR_START by a path: the named channels start at one edge. -/
def tmrStart (p : Path) (mask : Byte) (s : State) : State :=
  { s with tmr := { s.tmr with chan := mapIdx s.tmr.chan fun i c =>
      if (mask.getLsbD i.val && s.tmrMay p i) = true then c.begun else c } }

/-- A write of TMR_STOP by a path. -/
def tmrStop (p : Path) (mask : Byte) (s : State) : State :=
  { s with tmr := { s.tmr with chan := mapIdx s.tmr.chan fun i c =>
      if (mask.getLsbD i.val && s.tmrMay p i && c.running) = true then c.stop else c } }

/-- TMR_START is written (R459). -/
def execTmrStart (path : Path) (mask : Byte) (s : State) : Host.Outcome State Fault Refusal := .next (tmrStart path mask s)

/-- TMR_STOP is written (R459). -/
def execTmrStop (path : Path) (mask : Byte) (s : State) : Host.Outcome State Fault Refusal := .next (tmrStop path mask s)

/-! ## TRIG_OUT -/

/-- TRIG_OUT goes high for WIDTH ticks; a WIDTH of 0 acts as 1 (R460). -/
def trigPulse (s : State) : State :=
  { s with tmr := { s.tmr with trigOut := true, pulseLeft := Nat.max s.tmr.trigWidth.toNat 1 } }

/-- The event of TMRn: a trigger for those that it is the source of, and a pulse on TRIG_OUT when TMR_TRIGOUT.SRC names the channel. -/
def tmrEvent (n : Fin 8) (s : State) : State :=
  let s := s.fires (n.val + 1) s.now
  if s.tmr.trigSrc.toNat = n.val + 1 then trigPulse s else s

def TmrChan.evsel (c : TmrChan) : Bool := bit c.ctrl 4
def TmrChan.oneshot (c : TmrChan) : Bool := bit c.ctrl 7

/-- At a period event a running channel's held writes take effect; ONESHOT, or a PERIOD of 0, stops it (R459). -/
def TmrChan.wrap (c : TmrChan) : TmrChan :=
  let once := c.oneshot
  let c := { c with count := 0#32 }.settle
  if once || c.period == 0#32 then { c with running := false } else c

/-- A period event of channel n, after the ticks that its count still needs (R459). -/
def periodEvent (n : Fin 8) (s : State) : State :=
  let c := s.tmr.chan[n]
  if c.running && !(c.period == 0#32) then
    let s := elapse (c.period.toNat - c.count.toNat) s
    let fire := !c.evsel || c.compare == 0#32
    let s := s.setChan n TmrChan.wrap
    if fire then tmrEvent n s else s
  else s

/-- A compare event of channel n (R459); with COMPARE 0 the period event raises both. -/
def compareEvent (n : Fin 8) (s : State) : State :=
  let c := s.tmr.chan[n]
  if c.running && !(c.compare == 0#32) && decide (c.compare.toNat < c.period.toNat) && decide (c.count.toNat ≤ c.compare.toNat) then
    let s := elapse (c.compare.toNat - c.count.toNat) s
    if c.evsel then tmrEvent n s else s
  else s

def execPeriodEvent (n : Fin 8) (s : State) : Host.Outcome State Fault Refusal := .next (periodEvent n s)
def execCompareEvent (n : Fin 8) (s : State) : Host.Outcome State Fault Refusal := .next (compareEvent n s)

/-- PULSE is written 1: one pulse at once (R460). -/
def doPulse (s : State) : State :=
  let s := trigPulse s
  { s with tmr := { s.tmr with pulseReq := true } }

def execPulse (_path : Path) (s : State) : Host.Outcome State Fault Refusal := .next (doPulse s)

/-- The pulse on TRIG_OUT ends; PULSE clears (R460). -/
def trigOutPulseEnd (s : State) : State :=
  if s.tmr.trigOut then
    let s := elapse s.tmr.pulseLeft s
    { s with tmr := { s.tmr with trigOut := false, pulseReq := false, pulseLeft := 0 } }
  else s

def execTrigOutPulseEnd (s : State) : Host.Outcome State Fault Refusal := .next (trigOutPulseEnd s)

/-- TRIG_IN changes level; rising edges are counted (R461), and are triggers 2 REF edges later (R262, R283). -/
def trigInEdge (high : Bool) (s : State) : State :=
  let s := if high && !s.tmr.trigInLevel then s.fires 9 (s.now + 2#64) else s
  { s with tmr := { s.tmr with
    trigInLevel := high
    trigInEdges := if high && !s.tmr.trigInLevel then s.tmr.trigInEdges + 1#16 else s.tmr.trigInEdges } }

def execTrigInEdge (high : Bool) (s : State) : Host.Outcome State Fault Refusal := .next (trigInEdge high s)

/-- The level of ball TMRn, for n from 0 to 3 (R460). -/
def Tmr.ball (t : Tmr) (n : Fin 4) : Bool :=
  let c := t.chan[n.val]
  if bit c.ctrl 6 && c.running then (decide (c.shown.toNat < c.compare.toNat)) != bit c.ctrl 5 else false

/-! ## Registers (R461) -/

/-- CTRL, PERIOD and COMPARE read as written, though a write may wait for the period event (R8, R459). -/
def readTmr (o : Nat) (s : State) : W32 :=
  let t := s.tmr
  if o = 0x0 then t.startReq.setWidth 32
  else if o = 0x4 then t.stopReq.setWidth 32
  else if o = 0x8 then w32 ((List.finRange 8).foldl (fun n i => n + (if t.chan[i].running then 2 ^ i.val else 0)) 0)
  else if o = 0xC then bitAt t.pulseReq 31 ||| atBit t.trigSrc.toNat 16 4 ||| t.trigWidth.setWidth 32
  else if o = 0x10 then bitAt t.trigInLevel 31 ||| t.trigInEdges.setWidth 32
  else match (if 0x40 ≤ o then fin? 8 ((o - 0x40) / 16) else none) with
    | some n =>
      let c := t.chan[n]
      if o % 16 = 0 then c.ctrlNext.getD c.ctrl else if o % 16 = 4 then c.periodNext.getD c.period
      else if o % 16 = 8 then c.compareNext.getD c.compare else c.shown
    | none => 0#32

/-- Bits of TMRn_CTRL that hold: PIN and POL only on channels 0 to 3. -/
def tmrCtrlMask (n : Fin 8) : W32 := if n.val < 4 then 0xF0#32 else 0x90#32

/-- A write of CTRL, PERIOD or COMPARE: at once, or held while the channel runs (R459). -/
def TmrChan.write (n : Fin 8) (k : Nat) (v : W32) (c : TmrChan) : TmrChan :=
  let c := if k = 0 then { c with ctrlNext := some (v &&& tmrCtrlMask n) }
    else if k = 4 then { c with periodNext := some v }
    else if k = 8 then { c with compareNext := some v } else c
  if c.running then c else c.settle

def writeTmr (p : Path) (o : Nat) (v : W32) (s : State) : State :=
  if o = 0x0 then tmrStart p (v.setWidth 8) s
  else if o = 0x4 then tmrStop p (v.setWidth 8) s
  else if o = 0xC then
    let s := { s with tmr := { s.tmr with trigSrc := BitVec.ofNat 4 (fld v 16 4), trigWidth := v.setWidth 16 } }
    if bit v 31 then doPulse s else s
  else match (if 0x40 ≤ o then fin? 8 ((o - 0x40) / 16) else none) with
    | some n => if s.tmrMay p n then s.setChan n (TmrChan.write n (o % 16) v) else s
    | none => s

end Sys2Proof.Machine
end

