-- ==== Sys2Proof/Machine/Edge.lean ====
section
/-! DEFINITION. The human edge (R308 to R319, R322): buttons, plugs, touch pads, the event queue, bindings and PWM outputs, with the
EDGE and TRIG verbs (R346). -/

namespace Sys2Proof.Machine
open Sys2Proof

/-! ## Bindings (R316, R317) -/

/-- The code of an event that can be bound. -/
def EdgeEv.bindCode : EdgeEv → Option Nat
  | .btn n d => some ((if d then 0x00 else 0x10) + n.val)
  | .touch n on => some ((if on then 0x20 else 0x28) + n.val)
  | .plug n i => some ((if i then 0x30 else 0x38) + n.val)
  | .impedance _ _ => none
  | .lost _ => none

/-- Submit the heat of binding k on behalf of the owner of its lane. -/
def bindSubmit (k : Fin 8) (s : State) : BindResult × State :=
  let b := s.edge.bind[k]
  match submit none .engine b.lane none b.handle.val b.entry b.args [] s with
  | .ok (q, s) => (.heat q, s)
  | .error (e, _) => (.err e, { s with edge := { s.edge with bind := upd s.edge.bind k fun b => { b with failed := true } } })

/-- Every binding of a code acts, in index order; the event line carries the first result. -/
def bindRun (code : Nat) (s : State) : Option BindResult × State :=
  ((List.finRange 8).filter fun k => s.edge.bind[k].valid && s.edge.bind[k].code.toNat == code).foldl
    (fun p k => let (r, s) := bindSubmit k p.2; (p.1.orElse fun _ => some r, s)) (none, s)

/-- The field that a bound event adds to its line (R340). -/
def bindField : Option BindResult → List (String × Val)
  | none => []
  | some (.heat q) => [decF "heat" q.toNat]
  | some (.err e) => [symF "err" e.text]

/-! ## The queue (R313 to R315) -/

/-- The head and fields of an event's line. -/
def EdgeEv.line : EdgeEv → String × List (String × Val)
  | .btn n d => ("BTN", [("", .dec n.val), bareF (if d then "DOWN" else "UP")])
  | .touch n on => ("TOUCH", [("", .dec n.val), bareF (if on then "ON" else "OFF")])
  | .plug n i => ("PLUG", [("", .dec n.val), bareF (if i then "IN" else "OUT")])
  | .impedance n z => ("PLUG", [("", .dec n.val), bareF "Z", match z with | some z => decF "z" z | none => symF "z" "HIGH"])
  | .lost n => ("EDGE", [bareF "LOST", ("", .dec n)])

def QueueEntry.line (e : QueueEntry) : Line :=
  Line.evt e.ev.line.1 (e.ev.line.2 ++ [decF "t" e.tick.toNat] ++ bindField e.bound)

/-- Entries of the queue, LOST lines apart: they travel with the event they precede (notes/assumptions/21). -/
def Edge.waiting (g : Edge) : Nat := (g.queue.filter fun e => match e.ev with | .lost _ => false | _ => true).length

/-- An event that has been decided at a tick enters the queue, or is counted as lost. -/
def enqueue (ev : EdgeEv) (t : W64) (bound : Option BindResult) (s : State) : State :=
  let g := s.edge
  if 32 ≤ g.waiting then
    { s with edge := { g with lost := if g.lost = 0xFFFF#16 then g.lost else g.lost + 1#16, lostRun := g.lostRun + 1 } }
  else
    let pre : List QueueEntry := if g.lostRun = 0 then [] else [{ ev := .lost g.lostRun, tick := t, bound := none }]
    { s with edge := { g with queue := g.queue ++ pre ++ [{ ev := ev, tick := t, bound := bound }], lostRun := 0 } }

/-- An event is decided at a tick: bindings act, then it is queued. -/
def edgeEvent (ev : EdgeEv) (t : W64) (s : State) : State :=
  match ev.bindCode with
  | some c => let (b, s) := bindRun c s; enqueue ev t b s
  | none => enqueue ev t none s

/-- A consumer takes its oldest line. -/
def takeFirst (taken : QueueEntry → Bool) (mark : QueueEntry → QueueEntry) : List QueueEntry → Option (QueueEntry × List QueueEntry)
  | [] => none
  | e :: r =>
    if taken e then (takeFirst taken mark r).map fun p => (p.1, e :: p.2) else some (e, mark e :: r)

def setQueue (s : State) (q : List QueueEntry) : State := { s with edge := { s.edge with queue := q } }

/-- CALL_TX keeps up: nothing waits for it; until then events wait in their sources (R338). -/
def State.txRoom (s : State) : Bool := s.call.tx.isEmpty

/-- The Call line is a consumer while its events are on; the host is one while its event ring is enabled (R340, R364). -/
def callTakes (s : State) : State :=
  if s.call.events && s.txRoom then
    match takeFirst (·.takenCall) (fun e => { e with takenCall := true }) s.edge.queue with
    | some (e, q) => (setQueue s q).callEvent e.line
    | none => s
  else s

def hostTakes (s : State) : State :=
  if s.host.evctl.getLsbD 1 && s.evRoom 1 then
    match takeFirst (·.takenHost) (fun e => { e with takenHost := true }) s.edge.queue with
    | some (e, q) => (setQueue s q).ringEvent e.line
    | none => s
  else s

/-- Every enabled consumer has taken an entry, and there is one. -/
def QueueEntry.done (s : State) (e : QueueEntry) : Bool :=
  (e.takenCall || !s.call.events) && (e.takenHost || !s.host.evctl.getLsbD 1) && (e.takenCall || e.takenHost)

/-- The next lines are copied to the consumers, and entries that all of them have taken leave (R314). -/
def eventDeliver (s : State) : State :=
  if s.start.banner then
    let s := hostTakes (callTakes s)
    setQueue s (s.edge.queue.dropWhile (QueueEntry.done s))
  else s

def execEventDeliver (s : State) : Host.Outcome State Fault Refusal := .next (eventDeliver s)

/-- An input begins to be debounced: a level that differs from the debounced one counts from now. -/
def Debounce.latch (now : W64) (d : Debounce) : Debounce := if d.pending then { d with since := now } else d

/-- 2 ms after VDD_AO is valid, characters, events and inputs begin to latch (R314, R411). -/
def eventQueueLatch (s : State) : State :=
  if s.start.vddAo && !s.start.latching then
    let s := elapseTo (msTicks 2) s
    { s with
      start := { s.start with latching := true }
      edge := { s.edge with btn := s.edge.btn.map (Debounce.latch s.now), plug := s.edge.plug.map (Debounce.latch s.now) } }
  else s

def execEventQueueLatch (s : State) : Host.Outcome State Fault Refusal := .next (eventQueueLatch s)

/-- EDGE_LOST is read and clears. -/
def readEdgeLost (s : State) : W32 × State := (s.edge.lost.setWidth 32, { s with edge := { s.edge with lost := 0#16 } })

def edgeLostRead (path : Path) (s : State) : State :=
  let (v, s) := readEdgeLost s
  (s.answered path v)

def execEdgeLostRead (path : Path) (s : State) : Host.Outcome State Fault Refusal := .next (edgeLostRead path s)

/-! ## Debounced inputs (R308, R311) -/

/-- The synchronised level changes: the count starts again, or is not needed. -/
def Debounce.change (level : Bool) (now : W64) (d : Debounce) : Debounce :=
  if d.level = level then d else { d with level := level, since := now, pending := level != d.deb }

def Debounce.settle (d : Debounce) : Debounce := { d with deb := d.level, pending := false }

/-- Byte n of EDGE_BTN0 to EDGE_BTN2. -/
def btnByte (g : Edge) (n : Fin 12) : Nat := fld g.btnReg[n.val / 4] (8 * (n.val % 4)) 8

def plugByte (g : Edge) (n : Fin 2) : Nat := g.plugReg.toNat / 2 ^ (8 * n.val) % 256

/-- DB in milliseconds. -/
def dbMs (b : Nat) : Nat := b % 64 + 1

def setBtn (n : Fin 12) (f : Debounce → Debounce) (s : State) : State := { s with edge := { s.edge with btn := upd s.edge.btn n f } }
def setPlug (n : Fin 2) (f : Debounce → Debounce) (s : State) : State := { s with edge := { s.edge with plug := upd s.edge.plug n f } }

def btnChange (n : Fin 12) (down : Bool) (s : State) : State := setBtn n (Debounce.change down s.now) s

def execBtnChange (n : Fin 12) (down : Bool) (s : State) : Host.Outcome State Fault Refusal := .next (btnChange n down s)

def plugChange (n : Fin 2) (present : Bool) (s : State) : State := setPlug n (Debounce.change present s.now) s

def execPlugChange (n : Fin 2) (present : Bool) (s : State) : Host.Outcome State Fault Refusal := .next (plugChange n present s)

/-- SETTLE 200 µs, OSR 1,024 on input 12 + n: conversion D0, or D1 (R312). -/
def plugRequest (n : Fin 2) (second : Bool) : Urgent :=
  { by_ := .plug n second, input := BitVec.ofNat 5 (12 + n.val), settle := 200#8, osr := 0#2 }

/-- The requests of the engine with that of a plug's check: its second one goes first, and PLUG0's first one before PLUG1's (R312). -/
def plugRequests (n : Fin 2) (second : Bool) (q : List Urgent) : List Urgent :=
  if second then plugRequest n true :: q
  else
    let after (u : Urgent) : Bool := match u.by_ with | .plug k false => decide (n.val < k.val) | _ => false
    q.takeWhile (fun u => !after u) ++ plugRequest n false :: q.dropWhile fun u => !after u

def pushUrgent (n : Fin 2) (second : Bool) (s : State) : State :=
  { s with sense := { s.sense with engineQ := plugRequests n second s.sense.engineQ } }

/-- An impedance check begins; without SNS its request ends with NOCLOCK at once (R32). -/
def impStart (n : Fin 2) (s : State) : State :=
  if s.clk.absent.getLsbD Clk.sns.val then s
  else pushUrgent n false { s with edge := { s.edge with imp := put s.edge.imp n (some none) } }

/-! ## Decisions in the REF order of R38 -/

/-- A debounced input by its place in that order: PLUG0, PLUG1, BTN0 to BTN11. -/
def inputOf (r : Fin 14) : Fin 2 ⊕ Fin 12 :=
  if h : r.val < 2 then .inl ⟨r.val, h⟩ else .inr ⟨r.val - 2, by omega⟩

/-- The tick at which the new level of an input will have held for DB ms; a check freezes its plug (R308, R311, R312). -/
def State.dueAt (s : State) (r : Fin 14) : Option Nat :=
  let at_ (d : Debounce) (b : Nat) : Option Nat := if d.pending && s.start.latching then some (d.since.toNat + msTicks (dbMs b)) else none
  match inputOf r with
  | .inl n => if s.edge.imp[n].isSome then none else at_ s.edge.plug[n] (plugByte s.edge n)
  | .inr n => at_ s.edge.btn[n] (btnByte s.edge n)

/-- An input's level is taken at a tick, and its event is decided. -/
def decideInput (r : Fin 14) (t : Nat) (s : State) : State :=
  let s := elapseTo t s
  match inputOf r with
  | .inl n =>
    let level := s.edge.plug[n].level
    let b := plugByte s.edge n
    let s := setPlug n Debounce.settle s
    let s := if b.testBit 7 then edgeEvent (.plug n level) (BitVec.ofNat 64 t) s else s
    if level && b.testBit 6 then impStart n s else s
  | .inr n =>
    let level := s.edge.btn[n].level
    let b := btnByte s.edge n
    let s := setBtn n Debounce.settle s
    if b.testBit 7 then edgeEvent (.btn n level) (BitVec.ofNat 64 t) s else s

/-- The input that is to be decided first, of those due up to a tick: the earliest, and of one edge the first in R38's order. -/
def State.nextInput (s : State) (t : Nat) : Option (Fin 14 × Nat) :=
  (List.finRange 14).foldl (fun b r => match s.dueAt r with
    | some x => if x ≤ t ∧ (b.all fun y => decide (x < y.2)) = true then some (r, x) else b
    | none => b) none

/-- Every input due up to a tick is decided, in order. -/
def decideUpTo : Nat → Nat → State → State
  | 0, _, s => s
  | k + 1, t, s => match s.nextInput t with
    | some (r, x) => decideUpTo k t (decideInput r x s)
    | none => s

/-- The new level of an input has held for DB ms: it is decided, after those that come before it. -/
def inputDebounced (r : Fin 14) (s : State) : State :=
  match s.dueAt r with
  | some t => decideUpTo 14 t s
  | none => s

def btnDebounced (n : Fin 12) (s : State) : State := inputDebounced ⟨n.val + 2, by omega⟩ s

def execBtnDebounced (n : Fin 12) (s : State) : Host.Outcome State Fault Refusal := .next (btnDebounced n s)

def plugDebounced (n : Fin 2) (s : State) : State := inputDebounced ⟨n.val, by omega⟩ s

def execPlugDebounced (n : Fin 2) (s : State) : Host.Outcome State Fault Refusal := .next (plugDebounced n s)

/-- An event that is decided now, after the inputs due by now. -/
def eventNow (ev : EdgeEv) (s : State) : State :=
  let s := decideUpTo 14 s.now.toNat s
  edgeEvent ev s.now s

/-- round((D1 − D0) × 1,200 / 2^20); none at the clamp of D1, 0 below 0. -/
def plugOhms (d0 d1 : Nat) : Option Nat :=
  if d1 = 2 ^ 20 - 1 then none else some ((2 * (d1 - d0) * 1200 + 2 ^ 20) / 2 ^ 21)

/-- A conversion of a plug's check ends: the second request follows the first, and the result is queued. -/
def plugResult (n : Fin 2) (second : Bool) (data : Nat) (s : State) : State :=
  if second then
    let d0 := ((s.edge.imp[n]).getD none).getD 0
    let s := { s with edge := { s.edge with imp := put s.edge.imp n none } }
    eventNow (.impedance n (plugOhms d0 data)) (setPlug n (fun d => if d.pending then { d with since := s.now } else d) s)
  else pushUrgent n true { s with edge := { s.edge with imp := put s.edge.imp n (some (some data)) } }

/-! ## Touch pads (R310) -/

def Touch.en (t : Touch) : Bool := bit t.reg 31

/-- A result of a user entry is compared: the pad, and whether it has changed. -/
def Touch.result (data : Nat) (t : Touch) : Touch × Bool :=
  if !t.en then (t, false)
  else if t.fresh then ({ t with fresh := false, base := BitVec.ofNat 20 data, above := 0, below := 0 }, false)
  else
    let d : Int := (data : Int) - t.base.toNat
    let hi := decide ((64 * fld t.reg 16 12 : Nat) ≤ d)
    let lo := decide (d < (64 * fld t.reg 0 12 : Nat))
    let t := { t with
      above := if hi then t.above + 1 else 0
      below := if lo then t.below + 1 else 0
      base := if !t.on && lo then BitVec.ofInt 20 ((t.base.toNat : Int) + d / 64) else t.base }
    if !t.on && decide (2 ≤ t.above) then ({ t with on := true }, true)
    else if t.on && decide (2 ≤ t.below) then ({ t with on := false }, true)
    else (t, false)

def touchResult (n : Fin 4) (data : Nat) (s : State) : State :=
  let (t, changed) := s.edge.touch[n].result data
  let s := { s with edge := { s.edge with touch := put s.edge.touch n t } }
  if changed then eventNow (.touch n t.on) s else s

/-! ## PWM (R318, R319) -/

def setPwm (k : Fin 4) (f : Pwm → Pwm) (s : State) : State := { s with edge := { s.edge with pwm := upd s.edge.pwm k f } }

def Pwm.period (p : Pwm) : Nat := fld p.duty 16 16
def Pwm.onUnits (p : Pwm) : Nat := fld p.duty 0 16

/-- The output runs: EN without a burst, GO with one. -/
def Pwm.runs (p : Pwm) : Bool := if p.burst = 0#16 then p.en else p.go

/-- Ticks of a period. -/
def Pwm.ticks (p : Pwm) : Nat := p.period * 2 ^ p.pre.toNat

/-- A period runs. -/
def Pwm.counts (p : Pwm) : Bool := p.runs && p.period != 0

/-- A held write of PWMk_DUTY takes effect; at once where no period runs. -/
def Pwm.apply (p : Pwm) : Pwm := { p with duty := p.next.getD p.duty, next := none }
def Pwm.idleApply (p : Pwm) : Pwm := if p.counts then p else p.apply

/-- A period begins at a tick. -/
def Pwm.begin (now : W64) (p : Pwm) : Pwm := { p with phase := now }

/-- The tick at which the BURST time of the run is over. -/
def Pwm.over (p : Pwm) : Nat := p.started.toNat + msTicks p.burst.toNat

/-- The boundary at tick b: a burst whose time is over ends (R319), a held write takes effect (R318), and a period begins. -/
def Pwm.boundary (b : Nat) (p : Pwm) : Pwm :=
  ((if p.burst != 0#16 && decide (p.over ≤ b) then { p with go := false } else p).apply).begin (BitVec.ofNat 64 b)

/-- Whole periods from the one that runs up to a tick, or up to the end of the burst. -/
def Pwm.whole (now : Nat) (p : Pwm) : Nat :=
  let n := (now - p.phase.toNat) / p.ticks
  if p.burst = 0#16 then n else Nat.min n ((p.over - p.phase.toNat + p.ticks - 1) / p.ticks)

/-- The generator as it stands at a tick: the first boundary applies what waits, and the periods after it are alike up to the end of
the burst. -/
def Pwm.upTo (now : W64) (p : Pwm) : Pwm :=
  if p.counts && decide (p.phase.toNat + p.ticks ≤ now.toNat) then
    let q := p.boundary (p.phase.toNat + p.ticks)
    if q.counts && decide (q.phase.toNat + q.ticks ≤ now.toNat) then q.boundary (q.phase.toNat + q.ticks * q.whole now.toNat) else q
  else p

/-- The level of the output at a tick. -/
def Pwm.high (p : Pwm) (now : W64) : Bool :=
  let p := p.upTo now
  let unit := (now - p.phase).toNat / 2 ^ p.pre.toNat
  let active := p.counts && (decide (p.period ≤ p.onUnits) || decide (unit < p.onUnits))
  active != p.pol

/-- The next period boundary. -/
def pwmBoundary (k : Fin 4) (s : State) : State :=
  let p := s.edge.pwm[k]
  if p.counts then
    let s := elapseTo (p.phase.toNat + p.ticks) s
    setPwm k (fun p => p.upTo s.now) s
  else s

def execPwmPeriodBoundary (k : Fin 4) (s : State) : Host.Outcome State Fault Refusal := .next (pwmBoundary k s)

/-- GO: a burst starts, or its count starts again. -/
def Pwm.start (now : W64) (p : Pwm) : Pwm :=
  let p := p.upTo now
  if p.burst = 0#16 then p
  else if p.go then { p with started := now }
  else ({ p with go := true, started := now } : Pwm).begin now

def pwmGo (k : Fin 4) (s : State) : State := setPwm k (Pwm.start s.now) s

/-- A path may write the EDGE block (R322): the Call line and the host link in normal service. -/
def State.edgeMay (s : State) (p : Path) : Bool :=
  match p with
  | .cox => true
  | .string => true
  | .call => !s.confidential
  | .host => !s.confidential

def pwmGoDo (path : Path) (k : Fin 4) (s : State) : State := if s.edgeMay path then pwmGo k s else s

def execPwmGo (path : Path) (k : Fin 4) (s : State) : Host.Outcome State Fault Refusal := .next (pwmGoDo path k s)

/-- The time of a burst is over: it ends at the first period boundary from then on; without a period there is none to wait for. -/
def pwmBurstEnd (k : Fin 4) (s : State) : State :=
  let p := s.edge.pwm[k]
  if p.go && p.burst != 0#16 then
    let s := elapseTo p.over s
    setPwm k (fun p => if p.period = 0 then { p with go := false } else p.upTo s.now) s
  else s

def execPwmBurstEnd (k : Fin 4) (s : State) : Host.Outcome State Fault Refusal := .next (pwmBurstEnd k s)

/-! ## Registers (R322) -/

def boolBits (n : Nat) (f : Nat → Bool) : Nat := (List.range n).foldl (fun a k => if f k then a + 2 ^ k else a) 0

def edgeLevel (g : Edge) : W32 :=
  atBit (boolBits 4 fun k => (g.touch.toList.getD k {}).on) 16 4 ||| atBit (boolBits 2 fun k => (g.plug.toList.getD k {}).deb) 12 2 |||
    atBit (boolBits 12 fun k => (g.btn.toList.getD k {}).deb) 0 12

def Binding.word (b : Binding) : W32 :=
  if b.valid then bitAt true 31 ||| bitAt b.failed 30 ||| atBit b.lane.val 24 2 ||| atBit b.code.toNat 8 8 else 0#32

def Pwm.ctrl (p : Pwm) : W32 :=
  bitAt p.go 31 ||| bitAt p.en 30 ||| bitAt p.pol 29 ||| atBit p.pre.toNat 24 4 ||| p.burst.setWidth 32

/-- Offset o of the EDGE block, EDGE_LOST apart. -/
def readEdge (o : Nat) (s : State) : W32 :=
  let g := s.edge
  if o = 0x00 then edgeLevel g
  else if o = 0x04 then g.btnReg[0] else if o = 0x08 then g.btnReg[1] else if o = 0x0C then g.btnReg[2]
  else if o = 0x10 then g.plugReg.setWidth 32
  else if 0x20 ≤ o ∧ o < 0x30 then (g.touch.toList.getD ((o - 0x20) / 4) {}).reg
  else if 0x30 ≤ o ∧ o < 0x40 then (g.touch.toList.getD ((o - 0x30) / 4) {}).base.setWidth 32
  else if o = 0x40 then w32 g.waiting
  else if 0x60 ≤ o ∧ o < 0x80 then
    let p := (g.pwm.toList.getD ((o - 0x60) / 8) {}).upTo s.now
    if o % 8 = 0 then p.ctrl else p.next.getD p.duty
  else if 0x80 ≤ o ∧ o < 0xA0 then (g.bind.toList.getD ((o - 0x80) / 4) {}).word
  else 0#32

/-- EDGE_TOUCHn is written; EN that becomes 1 starts the pad afresh. -/
def Touch.write (v : W32) (t : Touch) : Touch :=
  { t with
    reg := v &&& 0x8FFF0FFF#32
    fresh := if bit v 31 && !t.en then true else t.fresh
    above := if bit v 31 && !t.en then 0 else t.above
    below := if bit v 31 && !t.en then 0 else t.below }

/-- PWMk_CTRL is written, GO apart. -/
def Pwm.writeCtrl (v : W32) (now : W64) (p : Pwm) : Pwm :=
  let p := p.upTo now
  let was := p.runs
  let q : Pwm := { p with en := bit v 30, pol := bit v 29, pre := BitVec.ofNat 4 (fld v 24 4), burst := v.setWidth 16 }
  let q := if q.burst = 0#16 then { q with go := false } else q
  (if q.runs && !was then q.begin now else q).idleApply

/-- PWMk_DUTY is written: it takes effect at the next period boundary. -/
def Pwm.writeDuty (v : W32) (now : W64) (p : Pwm) : Pwm := { p.upTo now with next := some v }.idleApply

def setTouchReg (n : Fin 4) (v : W32) (s : State) : State := { s with edge := { s.edge with touch := upd s.edge.touch n (Touch.write v) } }

def writeEdge (p : Path) (o : Nat) (v : W32) (s : State) : State :=
  if !s.edgeMay p then s
  else if o = 0x04 then { s with edge := { s.edge with btnReg := put s.edge.btnReg 0 v } }
  else if o = 0x08 then { s with edge := { s.edge with btnReg := put s.edge.btnReg 1 v } }
  else if o = 0x0C then { s with edge := { s.edge with btnReg := put s.edge.btnReg 2 v } }
  else if o = 0x10 then { s with edge := { s.edge with plugReg := v.setWidth 16 } }
  else if 0x20 ≤ o ∧ o < 0x30 then
    match fin? 4 ((o - 0x20) / 4) with
    | some n => setTouchReg n v s
    | none => s
  else if 0x60 ≤ o ∧ o < 0x80 then
    match fin? 4 ((o - 0x60) / 8) with
    | some k =>
      if o % 8 = 0 then
        let s := setPwm k (Pwm.writeCtrl v s.now) s
        if bit v 31 then pwmGo k s else s
      else setPwm k (Pwm.writeDuty v s.now) s
    | none => s
  else s

/-! ## The EDGE verb (R346) -/

/-- An EDGE call. Its writes are ignored in confidential mode, which refuses no call (R322, R346, R351; notes/assumptions/21). -/
def edgeGate (c : Caller) (s : State) (k : State) : State := s.gate c "EDGE" false k

/-- A write of an EDGE call under R322. -/
def edgeWrite (c : Caller) (f : State → State) (s : State) : State := if s.edgeMay c.path.path then f s else s

def btnFields (n : Fin 12) (s : State) : List (String × Val) :=
  let b := btnByte s.edge n
  [bareF "BTN", ("", .dec n.val), decF "db" (dbMs b), symF "en" (onOff (b.testBit 7)), symF "pu" (onOff (b.testBit 6))]

def plugFields (n : Fin 2) (s : State) : List (String × Val) :=
  let b := plugByte s.edge n
  [bareF "PLUG", ("", .dec n.val), decF "db" (dbMs b), symF "en" (onOff (b.testBit 7)), symF "imp" (onOff (b.testBit 6))]

def touchFields (n : Fin 4) (s : State) : List (String × Val) :=
  let t := s.edge.touch[n]
  [bareF "TOUCH", ("", .dec n.val), decF "on" (fld t.reg 16 12), decF "off" (fld t.reg 0 12), symF "en" (onOff t.en)]

def pwmFields (k : Fin 4) (s : State) : List (String × Val) :=
  let p := s.edge.pwm[k].upTo s.now
  [bareF "PWM", ("", .dec k.val), decF "period" p.period, decF "duty" p.onUnits, decF "pre" p.pre.toNat,
   decF "pol" (boolNat p.pol), decF "burst" p.burst.toNat, bareF (if p.go then "GO" else onOff p.en)]

/-- The name of an event code in EDGE BIND (R346). -/
def eventName (c : Nat) : String :=
  if c < 0x10 then "BTN" ++ toString c ++ ".DOWN"
  else if c < 0x20 then "BTN" ++ toString (c - 0x10) ++ ".UP"
  else if c < 0x28 then "TOUCH" ++ toString (c - 0x20) ++ ".ON"
  else if c < 0x30 then "TOUCH" ++ toString (c - 0x28) ++ ".OFF"
  else if c < 0x38 then "PLUG" ++ toString (c - 0x30) ++ ".IN"
  else if c < 0x40 then "PLUG" ++ toString (c - 0x38) ++ ".OUT"
  else if c = 0x40 then "PRESENCE.ON" else if c = 0x41 then "PRESENCE.OFF"
  else if c = 0x42 then "GESTURE" else if c = 0x43 then "LIPS.ON" else "ATTEND"

def bindFields (k : Fin 8) (s : State) : List (String × Val) :=
  let b := s.edge.bind[k]
  [bareF "BIND", ("", .dec k.val), symF "ev" (eventName b.code.toNat), laneF b.lane, decF "h" b.handle.val, decF "e" b.entry,
   decF "failed" (boolNat b.failed)]

def doEdgeState (c : Caller) (s : State) : State :=
  s.gate c "EDGE" false <|
    s.okWith c ((List.finRange 12).map (fun n => btnFields n s) ++ (List.finRange 2).map (fun n => plugFields n s) ++
        (List.finRange 4).map (fun n => touchFields n s) ++ (List.finRange 4).map (fun k => pwmFields k s) ++
        ((List.finRange 8).filter fun k => s.edge.bind[k].valid).map fun k => bindFields k s)
      "EDGE" [bareF "STATE", ("level", hexReg (edgeLevel s.edge)), decF "queue" s.edge.waiting]

/-- A byte of settings: DB − 1 in [5:0], flags in bits 6 and 7. -/
def settingByte (b : Nat) (db : Option Nat) (hi lo : Option Bool) : Nat :=
  ((db.map (· - 1)).getD (b % 64)) + 64 * boolNat (lo.getD (b.testBit 6)) + 128 * boolNat (hi.getD (b.testBit 7))

/-- DB from 1 to 64 ms. -/
def dbOk (db : Option Nat) : Bool := db.all fun d => decide (1 ≤ d ∧ d ≤ 64)

def setBtnByte (n : Fin 12) (v : Nat) (s : State) : State :=
  let k : Fin 3 := ⟨n.val / 4, by omega⟩
  { s with edge := { s.edge with btnReg := upd s.edge.btnReg k fun w => putFld w (8 * (n.val % 4)) 8 v } }

def setPlugByte (n : Fin 2) (v : Nat) (s : State) : State :=
  { s with edge := { s.edge with plugReg := (putFld (s.edge.plugReg.setWidth 32) (8 * n.val) 8 v).setWidth 16 } }

def doEdgeBtn (c : Caller) (n : Fin 12) (db : Option Nat) (en pu : Option Bool) (s : State) : State :=
  edgeGate c s <|
    if !dbOk db then s.fail c "EDGE" .range
    else
      let s := edgeWrite c (setBtnByte n (settingByte (btnByte s.edge n) db en pu)) s
      s.ok c "EDGE" (btnFields n s)

def doEdgePlug (c : Caller) (n : Fin 2) (db : Option Nat) (en imp : Option Bool) (s : State) : State :=
  edgeGate c s <|
    if !dbOk db then s.fail c "EDGE" .range
    else
      let v := settingByte (plugByte s.edge n) db en imp
      let s := edgeWrite c (setPlugByte n v) s
      s.ok c "EDGE" (plugFields n s)

/-- Below a limit, where given. -/
def below (n : Nat) (x : Option Nat) : Bool := x.all fun k => decide (k < n)

def doEdgeTouch (c : Caller) (n : Fin 4) (on off : Option Nat) (en : Option Bool) (s : State) : State :=
  edgeGate c s <|
    if !below 4096 on || !below 4096 off then s.fail c "EDGE" .range
    else
      let r := s.edge.touch[n].reg
      let v := atBit (on.getD (fld r 16 12)) 16 12 ||| atBit (off.getD (fld r 0 12)) 0 12 ||| bitAt (en.getD (bit r 31)) 31
      let s := edgeWrite c (setTouchReg n v) s
      s.ok c "EDGE" (touchFields n s)

/-- The settings of EDGE PWM are written. -/
def pwmSet (k : Fin 4) (period duty pre : Option Nat) (pol : Option Bool) (burst : Option Nat) (act : Option PwmAct) (s : State) : State :=
  let p := s.edge.pwm[k]
  let d := p.next.getD p.duty
  let en := match act with | some .on => true | some .off => false | some .go => p.en | none => p.en
  let v := bitAt en 30 ||| bitAt (pol.getD p.pol) 29 ||| atBit (pre.getD p.pre.toNat) 24 4 ||| atBit (burst.getD p.burst.toNat) 0 16
  let s := setPwm k (Pwm.writeCtrl v s.now) s
  let s := if period.isSome || duty.isSome then
      setPwm k (Pwm.writeDuty (atBit (period.getD (fld d 16 16)) 16 16 ||| atBit (duty.getD (fld d 0 16)) 0 16) s.now) s
    else s
  if act = some .go then pwmGo k s else s

def doEdgePwm (c : Caller) (k : Fin 4) (period duty pre : Option Nat) (pol : Option Bool) (burst : Option Nat) (act : Option PwmAct)
    (s : State) : State :=
  edgeGate c s <|
    if !below 65536 period || !below 65536 duty || !below 16 pre || !below 65536 burst then s.fail c "EDGE" .range
    else
      let s := edgeWrite c (pwmSet k period duty pre pol burst act) s
      s.ok c "EDGE" (pwmFields k s)

def doEdgeBind (c : Caller) (k : Fin 8) (code : Byte) (l : LaneId) (h e : Nat) (args : List HeatArg) (s : State) : State :=
  edgeGate c s <|
    match laneMay c l s, fin? 16 h with
    | .error x, _ => s.fail c "EDGE" x
    | .ok _, none => s.fail c "EDGE" .range
    | .ok _, some h =>
      if 65535 < e then s.fail c "EDGE" .range
      else if s.edge.bind[k].valid then s.fail c "EDGE" .state
      else
        let b : Binding := { valid := true, failed := false, lane := l, code := code, handle := h, entry := e, args := args }
        let s := { s with edge := { s.edge with bind := put s.edge.bind k b } }
        s.ok c "EDGE" (bindFields k s)

def doEdgeUnbind (c : Caller) (k : Fin 8) (s : State) : State :=
  edgeGate c s <|
    let b := s.edge.bind[k]
    if !b.valid then s.fail c "EDGE" .state
    else match laneMay c b.lane s with
      | .error x => s.fail c "EDGE" x
      | .ok _ => ({ s with edge := { s.edge with bind := put s.edge.bind k ({} : Binding) } }).ok c "EDGE" [bareF "UNBIND", ("", .dec k.val)]

def execEdgeState (c : Caller) (s : State) : Host.Outcome State Fault Refusal := .next (doEdgeState c s)
def execEdgeBtn (c : Caller) (n : Fin 12) (db : Option Nat) (en pu : Option Bool) (s : State) : Host.Outcome State Fault Refusal :=
  .next (doEdgeBtn c n db en pu s)
def execEdgePlug (c : Caller) (n : Fin 2) (db : Option Nat) (en imp : Option Bool) (s : State) : Host.Outcome State Fault Refusal :=
  .next (doEdgePlug c n db en imp s)
def execEdgeTouch (c : Caller) (n : Fin 4) (on off : Option Nat) (en : Option Bool) (s : State) : Host.Outcome State Fault Refusal :=
  .next (doEdgeTouch c n on off en s)
def execEdgePwm (c : Caller) (k : Fin 4) (period duty pre : Option Nat) (pol : Option Bool) (burst : Option Nat) (act : Option PwmAct)
    (s : State) : Host.Outcome State Fault Refusal := .next (doEdgePwm c k period duty pre pol burst act s)
def execEdgeBind (c : Caller) (k : Fin 8) (code : Byte) (lane : LaneId) (h e : Nat) (args : List HeatArg) (s : State) :
    Host.Outcome State Fault Refusal := .next (doEdgeBind c k code lane h e args s)
def execEdgeUnbind (c : Caller) (k : Fin 8) (s : State) : Host.Outcome State Fault Refusal := .next (doEdgeUnbind c k s)

/-! ## The TRIG verb (R346, R459 to R461) -/

/-- REF ticks as µs. -/
def usF (k : String) (ticks : Nat) : String × Val := (k, .milli (((ticks * 10000 + 192) / 384 : Nat) : Int))

def trigTmrFields (n : Fin 8) (s : State) : List (String × Val) :=
  let c := s.tmr.chan[n]
  [bareF "TMR", ("", .dec n.val), usF "period" c.period.toNat, usF "compare" c.compare.toNat, bareF (onOff c.running)]

def trigOutFields (s : State) : List (String × Val) :=
  let n := s.tmr.trigSrc.toNat
  [bareF "OUT", bareF (if 1 ≤ n ∧ n ≤ 8 then "TMR" ++ toString (n - 1) else "OFF")]

def doTrigState (c : Caller) (s : State) : State :=
  s.gate c "TRIG" false <|
    s.okWith c ((List.finRange 8).map (fun n => trigTmrFields n s) ++ [trigOutFields s]) "TRIG"
      [bareF "STATE", usF "width" s.tmr.trigWidth.toNat, decF "trigin" (boolNat s.tmr.trigInLevel), decF "edges" s.tmr.trigInEdges.toNat]

def usOk (bits : Nat) (t : Option Nat) : Bool := t.all fun t => decide (usTicks t < 2 ^ bits)

def doTrigTmr (c : Caller) (n : Fin 8) (period compare : Option Nat) (on : Option Bool) (s : State) : State :=
  s.gate c "TRIG" false <|
    if !usOk 32 period || !usOk 32 compare then s.fail c "TRIG" .range
    else if s.tmrHeld n then s.fail c "TRIG" .state
    else
      let wr (k : Nat) (t : Option Nat) (s : State) : State := match t with
        | some t => s.setChan n (TmrChan.write n k (w32 (usTicks t)))
        | none => s
      let s := wr 8 compare (wr 4 period s)
      let m := BitVec.ofNat 8 (2 ^ n.val)
      let s := match on with
        | some true => tmrStart c.path.path m s
        | some false => tmrStop c.path.path m s
        | none => s
      s.ok c "TRIG" (trigTmrFields n s)

def doTrigOut (c : Caller) (src : Option (Fin 8)) (s : State) : State :=
  s.gate c "TRIG" false <|
    let s := { s with tmr := { s.tmr with trigSrc := BitVec.ofNat 4 ((src.map fun (n : Fin 8) => n.val + 1).getD 0) } }
    s.ok c "TRIG" (trigOutFields s)

def doTrigPulse (c : Caller) (width : Option Nat) (s : State) : State :=
  s.gate c "TRIG" false <|
    if !usOk 16 width then s.fail c "TRIG" .range
    else
      let w := (width.map fun t => BitVec.ofNat 16 (usTicks t)).getD s.tmr.trigWidth
      let s := doPulse { s with tmr := { s.tmr with trigWidth := w } }
      s.ok c "TRIG" [bareF "PULSE", usF "width" w.toNat]

def execTrigState (c : Caller) (s : State) : Host.Outcome State Fault Refusal := .next (doTrigState c s)
def execTrigTmr (c : Caller) (n : Fin 8) (period compare : Option Nat) (on : Option Bool) (s : State) : Host.Outcome State Fault Refusal :=
  .next (doTrigTmr c n period compare on s)
def execTrigOut (c : Caller) (src : Option (Fin 8)) (s : State) : Host.Outcome State Fault Refusal := .next (doTrigOut c src s)
def execTrigPulse (c : Caller) (width : Option Nat) (s : State) : Host.Outcome State Fault Refusal := .next (doTrigPulse c width s)

end Sys2Proof.Machine
end

