-- ==== Sys2Proof/Machine/Eye.lean ====
section
/-! DEFINITION. The Eye (R260 to R274, R278, R279), Lookout's events and configurations (R275 to R277), and the EYE verb (R346). -/

namespace Sys2Proof.Machine
open Sys2Proof

def State.setEye (s : State) (f : Eye → Eye) : State := { s with eye := f s.eye }

/-! ## Slices (R266, R272) -/

/-- Slices with a position. -/
def Eye.active (e : Eye) : List (Fin 9) := e.sliceMap.toList.filterMap id

/-- Slices with a position from the next frame boundary on: a map that changes during a readout waits for its end (R266, R270). -/
def Eye.mapDue (e : Eye) : Vector (Option (Fin 9)) 8 := e.mapNext.getD e.sliceMap
def Eye.activeDue (e : Eye) : List (Fin 9) := e.mapDue.toList.filterMap id

/-- The slices' positions change, at the next frame boundary. -/
def Eye.setMap (m : Vector (Option (Fin 9)) 8) (e : Eye) : Eye :=
  if e.reading.isSome then { e with mapNext := some m } else { e with sliceMap := m, mapNext := none }

/-- The readout has ended: a frame boundary. -/
def Eye.endRead (now : W64) (e : Eye) : Eye := { e with reading := none, readEnd := now, sliceMap := e.mapDue, mapNext := none }

/-! ## IR_PWM (R265) -/

/-- IR_PWM goes low: the time it was high is kept for the window of 100 ms. -/
def Eye.irDown (now : W64) (e : Eye) : Eye :=
  if e.irHigh then
    { e with irHigh := false, irLog := (e.irLog.filter fun p => decide (now.toNat < p.2.toNat + msTicks 100)) ++ [(e.irRose, now)] }
  else e

def Eye.irLead (e : Eye) : Nat := e.ir.toNat / 1024
def Eye.irTail (e : Eye) : Nat := e.ir.toNat % 1024

/-- The tick up to which the light may stay on by the window: `sum` is the time it was high in the periods given, oldest first. -/
def dutyEnd (rose allowed : Nat) : List (W64 × W64) → Nat → Nat
  | [], sum => rose + (allowed - sum)
  | (a, b) :: r, sum =>
    if b.toNat + msTicks 100 ≤ rose then dutyEnd rose allowed r (sum - (b - a).toNat)
    else if rose + allowed ≤ sum + (a.toNat + msTicks 100) then rose + (allowed - sum)
    else dutyEnd rose allowed r (sum - (b - a).toNat)

/-- The tick at which a limit of EYE_IRMAX would be passed: ONMAX µs of the frame, or DUTY / 256 of any 100 ms. -/
def Eye.irLimit (e : Eye) : Nat :=
  let rose := e.irRose.toNat
  let allowed := (e.irMax.toNat / 65536) * msTicks 100 / 256
  Nat.min (rose + e.irMax.toNat % 65536 * 384 / 10)
    (dutyEnd rose allowed e.irLog ((e.irLog.map fun p => (p.2 - p.1).toNat).foldl (· + ·) 0))

def Eye.setSlice (e : Eye) (k : Fin 9) (f : Slice → Slice) : Eye := { e with slice := upd e.slice k f }

/-- The spare oar. -/
def Eye.spare (e : Eye) : Option (Fin 9) := (List.finRange 9).find? fun k => e.slice[k].role == .spare

/-- A position for each slice of a list, in order. -/
def mapOf (l : List (Fin 9)) : Vector (Option (Fin 9)) 8 := Vector.ofFn fun i => l[i.val]?

/-- SLICE_MAP. -/
def Eye.mapWord (e : Eye) : W32 :=
  (List.finRange 8).foldl (fun w i => w ||| atBit (match e.sliceMap[i] with | some k => k.val | none => 15) (4 * i.val) 4) 0#32

/-- OFFSET, GAIN, SKEW and ROLE of slice k from the fuses (R463). -/
def fuseSlice (o : List Nat) (k : Fin 9) : Slice :=
  let a := 2584 + 40 * k.val
  { offset := BitVec.ofNat 12 (otpField o a 12), gain := BitVec.ofNat 14 (otpField o (a + 12) 14)
    skew := BitVec.ofNat 8 (otpField o (a + 26) 8)
    role := match otpField o (a + 34) 2 with | 0 => .active | 1 => .spare | _ => .retired }

/-- The factory coefficients and roles, for slices that nothing has fenced (R278). -/
def Eye.load (o : List Nat) (e : Eye) : Eye :=
  let sl := Vector.ofFn fun (k : Fin 9) =>
    if e.slice[k].st = .active then fuseSlice o k else { e.slice[k] with role := .retired }
  let act := (List.finRange 9).filter fun k => sl[k].role == .active
  match (List.finRange 9).find? fun k => sl[k].role == .spare with
  | some j =>
    if act.length < 8 then { e with slice := upd sl j fun x => { x with role := .active }, sliceMap := mapOf (act ++ [j]) }
    else { e with slice := sl, sliceMap := mapOf act }
  | none => { e with slice := sl, sliceMap := mapOf act }

/-! ## Calibration (R268 to R271) -/

/-- The nearest integer to a / b, ties away from zero. -/
def roundDiv (a : Int) (b : Nat) : Int :=
  let q : Int := ((2 * a.natAbs + b) / (2 * b) : Nat)
  if a < 0 then -q else q

/-- The fit of the 16 reference sums, level by level: OFFSET and GAIN before their limits, and whether the residual is at most
1.5 LSB. The line is fitted to the means over the levels (notes/assumptions/22). -/
def fit (sums : List Nat) : Int × Int × Bool :=
  let y (l : Nat) : Int := ((sums.getD l 0 : Nat) : Int)
  let x (l : Nat) : Int := 2 * (l : Int) - 15
  let s0 := (List.range 16).foldl (fun a l => a + y l) 0
  let sx := (List.range 16).foldl (fun a l => a + x l * y l) 0
  let off := roundDiv (256 * sx - 1360 * s0) 348160
  let gain := if sx ≤ 0 then -1 else roundDiv (65536 * 44564480) sx.toNat - 57344
  (off, gain, (List.range 16).all fun l => decide ((1360 * y l - 85 * s0 - sx * x l).natAbs ≤ 522240))

/-- A fit within the limits of R269. -/
def fitOk (f : Int × Int × Bool) : Bool :=
  f.2.2 && decide (-2048 ≤ f.1 ∧ f.1 ≤ 2047 ∧ 0 ≤ f.2.1 ∧ f.2.1 ≤ 16383)

def Slice.fitted (f : Int × Int × Bool) (x : Slice) : Slice := { x with offset := BitVec.ofInt 12 f.1, gain := BitVec.ofInt 14 f.2.1 }

/-- A fresh cycle of the spare oar begins. -/
def State.freshCycle (s : State) : State := s.setEye fun e => { e with cal := { began := s.now } }

def sat4 (x : BitVec 4) : BitVec 4 := if x = 0xF#4 then x else x + 1#4
def sat8 (x : Byte) : Byte := if x = 0xFF#8 then x else x + 1#8

/-- The frame in readout is abandoned: no tally add, its slot stays free (R273). -/
def abandonFrame (s : State) : State :=
  if s.eye.reading.isSome then s.setEye fun e => { e.endRead s.now with missOverflow := sat8 e.missOverflow } else s

/-- EYECK is lost: every frame in progress is abandoned as in R273 (R278). -/
def abandonFrames (s : State) : State :=
  let s := abandonFrame s
  if s.eye.frame.isSome then s.setEye fun e => { e.irDown s.now with frame := none, missOverflow := sat8 e.missOverflow } else s

/-- PD_EYE is fenced with fewer than 4 slices left (R272). -/
def eyeFault (s : State) : State :=
  let s := s.setEye fun e => { (e.irDown s.now).endRead s.now with ready := false, frame := none }
  ({ s with power := s.power.fence Dom.eye }).raise (.evt "EYE FAULT" [])

/-- A slice goes out of service; the active slices take positions 0 upward. -/
def retireSlice (k : Fin 9) (cause : Cause) (s : State) : State :=
  let s := s.setEye fun e =>
    (e.setSlice k fun x => { x with role := .retired, st := .fenced }).setMap (mapOf (e.activeDue.filter (· != k)))
  let s := fenceRecords (.slice k) (some cause) none s
  if s.eye.activeDue.length < 4 ∧ s.domFenced Dom.eye = false then eyeFault s else s

/-- A calibration of slice k fails: the third failure in a row retires it. -/
def calFail (k : Fin 9) (s : State) : State :=
  let s := s.setEye fun e => e.setSlice k fun x => { x with fails := x.fails + 1 }
  if 3 ≤ s.eye.slice[k].fails then retireSlice k .calibration s else s

/-- A calibration of slice k passes: it is the newest. -/
def Eye.passes (k : Fin 9) (now : W64) (f : Slice → Slice) (e : Eye) : Eye :=
  { e.setSlice k fun x => { f x with fails := 0, lastGen := e.calGen, calNo := e.calCount + 1 } with
    calCount := e.calCount + 1, calTick := now }

/-- Steps 1 and 2 of R268 end. -/
def calReferenceDone (sums : List Nat) (s : State) : State :=
  if s.eye.ready && s.eye.spare.isSome && s.eye.cal.stage == .reference then
    let f := fit sums
    s.setEye fun e => { e with cal := { e.cal with
      stage := .shadow, offset := BitVec.ofInt 12 f.1, gain := BitVec.ofInt 14 f.2.1, bad := !fitOk f } }
  else s

def execCalReferenceDone (sums : List Nat) (s : State) : Host.Outcome State Fault Refusal := .next (calReferenceDone sums s)

/-- Steps 3 and 4: the skew is fitted, and the limits are checked. -/
def calShadowDone (skew : Int) (differs : Bool) (s : State) : State :=
  match s.eye.spare with
  | some k =>
    if s.eye.ready && s.eye.cal.stage == .shadow then
      if s.eye.cal.bad || decide (skew < -128 ∨ 127 < skew) then (calFail k s).freshCycle
      else s.setEye fun e =>
        { e.passes k s.now id with cal := { e.cal with stage := .passed, skew := BitVec.ofInt 8 skew, urgent := differs } }
    else s
  | none => s

def execCalShadowDone (skew : Int) (differs : Bool) (s : State) : Host.Outcome State Fault Refusal :=
  .next (calShadowDone skew differs s)

/-- The position of the active slice with the oldest calibration; of slices of one calibration, the lowest position. -/
def Eye.oldest (e : Eye) : Option (Fin 8) :=
  let no (i : Fin 8) : Option Nat := e.sliceMap[i].map fun k => e.slice[k].calNo
  (List.finRange 8).foldl (fun (b : Option (Fin 8)) (i : Fin 8) => match b.bind no, no i with
    | some x, some y => if y < x then some i else b
    | none, some _ => some i
    | _, none => b) none

/-- CAL_PERIOD in milliseconds. -/
def Eye.calPeriod (e : Eye) : Nat := e.calCtl.toNat % 256

/-- At a frame boundary the spare oar takes the shadowed slice's position (R270). -/
def sliceSwap (s : State) : State :=
  match s.eye.spare, s.eye.oldest with
  | some k, some i =>
    let c := s.eye.cal
    if c.stage == .passed && s.eye.reading.isNone then
      let s := if c.urgent then s else elapseTo (c.began.toNat + msTicks s.eye.calPeriod) s
      (s.setEye fun e =>
        let e := match e.sliceMap[i] with
          | some j => e.setSlice j fun x => { x with role := .spare }
          | none => e
        let e := e.setSlice k fun x => { x with role := .active, offset := c.offset, gain := c.gain, skew := c.skew }
        { e with sliceMap := put e.sliceMap i (some k), calGen := e.calGen + 1#8 }).freshCycle
    else s
  | _, _ => s

def execSliceSwap (s : State) : Host.Outcome State Fault Refusal := .next (sliceSwap s)

/-- One slice's foreground calibration. -/
def calOne (sums : List (List Nat)) (k : Fin 9) (s : State) : State :=
  let f := fit (sums.getD k.val [])
  if s.domFenced Dom.eye then s
  else if fitOk f then s.setEye fun e => e.passes k s.now (Slice.fitted f) else calFail k s

/-- The gap that runs ends no earlier than 420 µs after the last readout: no exposure ends before (R271). -/
def Eye.gapFits (e : Eye) : Bool :=
  match e.frame with
  | some f => decide (e.readEnd.toNat + usTicks 420 ≤ f.tTrig.toNat + f.delay.toNat + f.expose.toNat)
  | none => true

/-- In a gap of at least 420 µs between readouts with no spare oar, every active slice is calibrated (R271); sums by slice. -/
def foregroundCal (sums : List (List Nat)) (s : State) : State :=
  if s.eye.ready && s.eye.spare.isNone && s.eye.reading.isNone && s.eye.gapFits then
    let s := elapseTo (s.eye.readEnd.toNat + usTicks 420) s
    (s.eye.active.foldl (fun s k => calOne sums k s) s).setEye fun e => { e with stale := false }
  else s

def execForegroundCal (sums : List (List Nat)) (s : State) : Host.Outcome State Fault Refusal := .next (foregroundCal sums s)

/-- No calibration has completed for STALE × 100 ms, with no spare oar (R271). -/
def stalecalTimeout (s : State) : State :=
  if s.eye.spare.isNone && s.eye.ready then
    (elapseTo (s.eye.calTick.toNat + msTicks (100 * (s.eye.calCtl.toNat / 256))) s).setEye fun e => { e with stale := true }
  else s

def execStalecalTimeout (s : State) : Host.Outcome State Fault Refusal := .next (stalecalTimeout s)

/-- The bring-up ends (R278): factory coefficients, one calibration of all slices in service, READY. -/
def eyeReady (sums : List (List Nat)) (s : State) : State :=
  if s.domUp Dom.eye && !s.eye.ready && !s.clk.absent.getLsbD Clk.eyeck.val then
    let s := s.setEye fun e => { Eye.load s.fuse.shadow e with calCount := 0, arriving := [], readEnd := s.now }
    let ks := (List.finRange 9).filter fun k => s.eye.slice[k].role != .retired
    let s := ks.foldl (fun s k => calOne sums k s) s
    if s.domFenced Dom.eye then s
    else (s.setEye fun e => { e with ready := true, first := true, nextFrame := 0#32, lastTrig := none, stale := false }).freshCycle
  else s

def execEyeReady (sums : List (List Nat)) (s : State) : Host.Outcome State Fault Refusal := .next (eyeReady sums s)

/-! ## Triggers and exposures (R260 to R265) -/

/-- Conversions of a frame, and its smallest period in ticks, by mode. -/
def modePixels (m : BitVec 2) : Nat := match m.toNat with | 0 => 256000 | 1 => 64000 | _ => 16000
def modePeriod (m : BitVec 2) : Nat := if m = 0#2 then 160000 else 40000

/-- A number of ticks is at least the readout time of a mode plus some ticks: conversions / (active × 10 MS/s). -/
def Eye.coversReadout (e : Eye) (m : BitVec 2) (plus ticks : Nat) : Bool :=
  decide (modePixels m * 384 + plus * (e.active.length * 100) ≤ ticks * (e.active.length * 100))

/-- The trigger code of a source (EYE_CTRL.TRIGSRC). -/
def TrigSrc.code : TrigSrc → Nat
  | .tmr n => n.val + 1 | .trigIn => 9 | .snap => 10

/-- Frames that take a slot of the frame ring. -/
def Eye.slotsUsed (e : Eye) : Nat := e.ringHeld.length + boolNat e.reading.isSome

/-- Why a trigger is dropped, or none (R263). -/
inductive Missed where
  | notReady | busy | noSlot
deriving DecidableEq, Repr

def Eye.refuses (e : Eye) (now : W64) : Option Missed :=
  let ends := (now - (match e.reading with | some r => r.ended | none => now)).toNat + e.delay.toNat + e.expose.toNat
  if !e.ready then some .notReady
  else if e.frame.isSome then some .busy
  else if e.lastTrig.any fun t => (now - t).toNat < modePeriod e.mode || !e.coversReadout e.mode 768 (now - t).toNat then some .busy
  else if e.reading.any fun r => !e.coversReadout r.mode 0 ends then some .busy
  else if e.ringSlots ≤ e.slotsUsed then some .noSlot
  else none

def Eye.miss (m : Missed) (e : Eye) : Eye :=
  match m with
  | .notReady => { e with missNotReady := sat4 e.missNotReady }
  | .busy => { e with missBusy := sat8 e.missBusy }
  | .noSlot => { e with missNoSlot := sat4 e.missNoSlot }

/-- The Eye takes a trigger that arrives at a tick with the settings of this moment, or drops and counts it. -/
def trigger (t : W64) (s : State) : State :=
  s.setEye fun e =>
    match e.refuses t with
    | some m => e.miss m
    | none => { e with
        frame := some { number := e.nextFrame, tTrig := t, mode := e.mode, delay := e.delay, expose := e.expose, stage := .delay
                        first := e.first, irOn := e.irEn }
        nextFrame := e.nextFrame + 1#32, first := false, lastTrig := some t }

/-- A trigger of the selected source arrives at the Eye: of SNAP now; of a timer channel or of TRIG_IN, at the tick that its event
gave it. -/
def eyeTrigger (src : TrigSrc) (s : State) : State :=
  if s.eye.trigSrc.toNat ≠ src.code then s
  else match src with
    | .snap => if s.eye.snapReq then trigger s.now (s.setEye fun e => { e with snapReq := false }) else s
    | _ => match s.eye.arriving with
      | t :: r => trigger t ((elapseTo t.toNat s).setEye fun e => { e with arriving := r })
      | [] => s

def execEyeTrigger (src : TrigSrc) (s : State) : Host.Outcome State Fault Refusal := .next (eyeTrigger src s)

/-- The exposure starts EYE_DELAY ticks after the trigger. -/
def exposureStart (s : State) : State :=
  match s.eye.frame with
  | some f =>
    if f.stage = .delay then
      (elapseTo (f.tTrig.toNat + f.delay.toNat) s).setEye fun e => { e with frame := some { f with stage := .exposing } }
    else s
  | none => s

def execExposureStart (s : State) : Host.Outcome State Fault Refusal := .next (exposureStart s)

/-- The exposure ends and the readout starts. -/
def exposureEnd (s : State) : State :=
  match s.eye.frame with
  | some f =>
    if f.stage = .exposing ∧ s.eye.reading = none then
      let s := elapseTo (f.tTrig.toNat + f.delay.toNat + f.expose.toNat) s
      s.setEye fun e => { e with frame := none, reading := some { f with stage := .readout, ended := s.now } }
    else s
  | none => s

def execExposureEnd (s : State) : Host.Outcome State Fault Refusal := .next (exposureEnd s)

/-- IR_PWM rises LEAD µs before the exposure starts, or at the trigger where LEAD exceeds the delay; it falls TAIL µs after the
exposure ends (R265). -/
def irPulseEdge (rise : Bool) (s : State) : State :=
  let e := s.eye
  let exposed (f : Frame) : Nat := f.tTrig.toNat + f.delay.toNat + f.expose.toNat
  if rise then
    match e.frame with
    | some f =>
      if e.irEn && f.irOn && !f.irCut && !e.irHigh then
        let s := elapseTo (Nat.max f.tTrig.toNat (f.tTrig.toNat + f.delay.toNat - usTicks e.irLead)) s
        s.setEye fun e => { e with irHigh := true, irRose := s.now }
      else s
    | none => s
  else
    match (if e.irHigh then e.frame.orElse fun _ => e.reading else none) with
    | some f => let s := elapseTo (exposed f + usTicks e.irTail) s; s.setEye (Eye.irDown s.now)
    | none => if e.irHigh then s.setEye (Eye.irDown s.now) else s

def execIrPulseEdge (rise : Bool) (s : State) : Host.Outcome State Fault Refusal := .next (irPulseEdge rise s)

/-- A limit of the illuminator would be passed before IR_PWM falls by itself: it goes low at that moment, until the exposure ends. -/
def irLimitCut (s : State) : State :=
  let e := s.eye
  let falls : Option Nat := (e.frame.orElse fun _ => e.reading).map fun f =>
    f.tTrig.toNat + f.delay.toNat + f.expose.toNat + usTicks e.irTail
  if e.irHigh && falls.all fun t => decide (e.irLimit < t) then
    let s := elapseTo e.irLimit s
    s.setEye fun e =>
      let e := { e.irDown s.now with missIrCut := sat8 e.missIrCut }
      match e.frame with
      | some f => { e with frame := some { f with irCut := true } }
      | none => { e with reading := e.reading.map fun f => { f with irCut := true } }
  else s

def execIrLimitCut (s : State) : Host.Outcome State Fault Refusal := .next (irLimitCut s)

/-! ## Frames (R266, R267, R273, R274) -/

/-- The pixel code of a raw result (R267). -/
def correct (x : Slice) (raw : BitVec 12) : Nat :=
  let y := ((raw.toNat : Int) * 16 + x.offset.toInt) * ((x.gain.toNat : Int) + 57344)
  let v := roundDiv y 1048576
  if v < 0 then 0 else if 4095 < v then 4095 else v.toNat

/-- The pixels of a frame, two bytes each: conversion i by the slice in position i mod n. -/
def pixelBytes (e : Eye) (n : Nat) (raws : List (BitVec 12)) : List Byte :=
  let a := e.active
  (List.range n).flatMap fun i =>
    match a[i % Nat.max a.length 1]? with
    | some k => leBytes (correct e.slice[k] (raws.getD i 0#12)) 2
    | none => [0#8, 0#8]

def frameHeader (e : Eye) (degraded : Bool) (f : Frame) : List Byte :=
  let flags := boolNat f.first + 2 * boolNat degraded + 4 * boolNat f.irCut + 8 * boolNat e.stale + 16 * boolNat e.spare.isNone
  leBytes 0x30455945 4 ++ leBytes f.number.toNat 4 ++ leBytes f.tTrig.toNat 8 ++ [BitVec.ofNat 8 f.mode.toNat,
    BitVec.ofNat 8 e.active.length, e.calGen, BitVec.ofNat 8 flags] ++ leBytes f.delay.toNat 4 ++ leBytes f.expose.toNat 4 ++
    leBytes e.mapWord.toNat 4 ++ leBytes (modePixels f.mode) 4 ++ List.replicate 28 0#8

/-- Banks of L0's partition for the frame ring and Lookout's outputs, highest first: neither the engine bank nor a bank with a
bundle copy (notes/assumptions/30). -/
def lookBanks (s : State) : List (Fin 64) :=
  ((List.finRange 64).filter fun b => s.mem.part[(0 : LaneId)].getLsbD b.val && engineBank s.mem.part[(0 : LaneId)] != some b &&
    !s.copyBanks.contains b).reverse

/-- Write a frame at the start of a bank: the pixels, then the header. -/
def putFrame (b : Fin 64) (head px : List Byte) (s : State) : State :=
  if s.bankUp b then
    let a := b.val * 0x80000
    { touch (bankDom b) s with mem := { s.mem with bh := (s.mem.bh.put (a + 64) px).put a head } }
  else s

/-- EYE_COPY: the frame goes to the next bank of the copy ring, while that lies in the lane's partition. -/
def copyFrame (head px : List Byte) (s : State) : State :=
  if s.eye.copyEn && copyOk s s.eye.copyLane s.eye.copyBank.toNat (s.eye.copyBanks.toNat + 1) then
    let n := s.eye.copyBanks.toNat + 1
    let s' := match fin? 64 (s.eye.copyBank.toNat + s.eye.copyNext % n) with
      | some b => putFrame b head px s
      | none => s
    s'.setEye fun e => { e with copyNext := (e.copyNext + 1) % n }
  else s

/-- The arguments of a frame's heat: inputs name the frame's slot, outputs Lookout's scratch bank; constants are 0. -/
def lookArgs (slot scratch : Fin 64) (units : Nat) (e : Entry) : List HeatArg :=
  e.args.map fun d => match d.kind.val with
    | 0 => .region (bhBase + slot.val * 0x80000) (Nat.max units d.param.toNat)
    | 1 => .region (bhBase + scratch.val * 0x80000) d.param.toNat
    | 2 => .adapter 0
    | _ => .const 0#32

/-- The L0 heat of a frame, unless HOLD is 1 or no Lookout bundle is there; it holds the frame's slot (R273, R277). -/
def lookSubmit (slot : Fin 64) (units : Nat) (f : Frame) (s : State) : State :=
  match (s.bundle 0).live && !s.eye.hold, (s.bundle 0).plan.entries, (lookBanks s)[s.eye.ringSlots]? with
  | true, e :: _, some scratch =>
    match submit (some .engine) .engine 0 none 0 e.number (lookArgs slot scratch units e) [] s with
    | .ok (q, s) => s.setEye fun y => { y with ringHeld := y.ringHeld ++ [(f.number, f.tTrig, q)], ringNext := (y.ringNext + 1) % y.ringSlots }
    | .error _ => s
  | _, _, _ => s

def eyeTally (s : State) : State :=
  match s.eye.tally with
  | some t => s.tallyAdd t.val 1
  | none => s

/-- The bank of the frame's slot, where it takes writes: the Boathouse acknowledges the header there. -/
def State.frameSlot (s : State) : Option (Fin 64) :=
  ((lookBanks s)[s.eye.ringNext]?).filter fun b => s.bankUp b && !s.rail.floor

/-- A frame's header is acknowledged, once the Eye has the port of the slot's bank (R35): its slot is written, the frame is counted, copied and given to Lookout. -/
def frameComplete (raws : List (BitVec 12)) (s : State) : State :=
  match s.eye.reading, s.frameSlot with
  | some f, some b =>
    if s.arbBusy (bankPort b.val) 1 3 then s else
    let s := s.arbServed (bankPort b.val) 1 3
    let n := modePixels f.mode
    let px := pixelBytes s.eye n raws
    let head := frameHeader s.eye s.clk.degraded f
    let s := putFrame b head px s
    let s := s.setEye fun e => { e.endRead s.now with frames := e.frames + 1#32 }
    let s := copyFrame head px (eyeTally s)
    lookSubmit b ((64 + 2 * n + 63) / 64) f s
  | _, _ => s

def execFrameComplete (raws : List (BitVec 12)) (s : State) : Host.Outcome State Fault Refusal := .next (frameComplete raws s)

/-- The line buffers fill: the fabric has stopped, or no slot takes the frame. -/
def frameAbandoned (s : State) : State := if s.frameSlot.isNone then abandonFrame s else s

def execFrameAbandoned (s : State) : Host.Outcome State Fault Refusal := .next (frameAbandoned s)

/-! ## Lookout (R275 to R277) -/

/-- TRIGSRC is written: triggers of another source that have not arrived are nothing to the Eye. -/
def Eye.setTrig (k : BitVec 4) (e : Eye) : Eye := { e with trigSrc := k, arriving := if k = e.trigSrc then e.arriving else [] }

/-- Watching: BIN4 at 15 fps. Attending: FULL at 30 fps. Both expose 1,000 µs after 20 µs with IR LEAD 20 µs, triggered by TMR0
(notes/assumptions/31). -/
def lookConfigure (attending : Bool) (s : State) : State :=
  let s := s.setEye fun e => { e.setTrig 1#4 with
    irEn := true, mode := if attending then 0#2 else 2#2, delay := 768#20, expose := 38400#22, ir := 0x5000#20
    lookout := { e.lookout with attending := attending } }
  let s := s.setChan 0 (TmrChan.write 0 4 (w32 (if attending then 1280000 else 2560000)))
  if s.tmr.chan[(0 : Fin 8)].running then s else tmrStart .cox 1#8 s

/-- The Lookout bundle binds the Eye's frame completion to a tally of L0, or leaves it unbound, and sets the frame ring of 2 to 8 slots:
no record of a bundle says which (R65, R273; notes/assumptions/31). The banks of L0's partition hold the slots and a scratch bank. -/
def lookBind (s : State) : State :=
  let most := Nat.min 8 ((lookBanks s).length - 1)
  let (x, s) := draw s
  let (y, s) := draw s
  s.setEye fun e => { e with
    tally := fin? 1024 ((Config.freeWord x).toNat % 512) |>.filter fun t => decide (t.val < 256)
    ringSlots := 2 + (Config.freeWord y).toNat % (most - 1), ringNext := 0 }

/-- Store a Lookout event, or count it as lost; the first that fits after losses carries their number. -/
def lookStore (ev : LookEvent) (s : State) : State :=
  s.setEye fun e =>
    let l := e.lookout
    if 256 ≤ l.buffer.length then { e with lookout := { l with lost := l.lost + 1 } }
    else { e with lookout := { l with buffer := l.buffer ++ [{ ev with lost := l.lost }], lost := 0 } }

/-- Raise a Lookout event of a frame: its bindings act first (R317). -/
def lookRaise (f : W32 × W64) (name : String) (fields : List (String × Val)) (code : Option Nat) (s : State) : State :=
  let (b, s) := match code with
    | some c => bindRun c s
    | none => (none, s)
  lookStore { name := name, fields := fields ++ [decF "frame" f.1.toNat, decF "t" f.2.toNat] ++ bindField b
              code := code.map (BitVec.ofNat 8), frame := f.1, tTrig := f.2 } s

/-- A face is turned toward the engine (R275). -/
def towards (yaw pitch : Int) : Bool := decide (yaw.natAbs ≤ 15 ∧ pitch.natAbs ≤ 15)

def faceFields (x : Tracked) : List (String × Val) :=
  [decF "face" x.number.val, ("yaw", .int x.yaw), ("pitch", .int x.pitch), decF "toward" (boolNat (towards x.yaw x.pitch))]

def Gesture.text : Gesture → String
  | .wave => "WAVE" | .left => "LEFT" | .right => "RIGHT" | .palm => "PALM"

/-- ON and OFF of EYE_LOOK, and ATTEND. -/
def Eye.onFrames (e : Eye) : Nat := e.look.toNat % 256
def Eye.offFrames (e : Eye) : Nat := e.look.toNat / 256 % 256

/-- PRESENCE by its hysteresis, with the change of configuration. -/
def presence (f : W32 × W64) (faces : Nat) (s : State) : State :=
  let s := s.setEye fun e => { e with lookout := { e.lookout with
    withFace := if faces = 0 then 0 else e.lookout.withFace + 1
    without := if faces = 0 then e.lookout.without + 1 else 0 } }
  let l := s.eye.lookout
  if !l.presence && decide (s.eye.onFrames ≤ l.withFace ∧ 0 < faces) then
    let s := s.setEye fun e => { e with lookout := { e.lookout with presence := true } }
    let s := lookRaise f "PRESENCE" [decF "on" 1, decF "faces" (Nat.min faces 4)] (some 0x40) s
    if s.eye.look.getLsbD 16 then lookConfigure true s else s
  else if l.presence && decide (s.eye.offFrames ≤ l.without ∧ faces = 0) then
    let s := s.setEye fun e => { e with lookout := { e.lookout with presence := false } }
    lookConfigure false (lookRaise f "PRESENCE" [decF "on" 0, decF "faces" 0] (some 0x41) s)
  else s

/-- The lowest face number that no tracked face has. -/
def freeNumber (l : List Tracked) : Option (Fin 5) := [1, 2, 3, 4].find? fun n => !l.any fun x => x.number == n

/-- A tracked face as the frame shows it. -/
def Tracked.see (f : FaceSeen) (x : Tracked) : Tracked := { x with yaw := f.yaw, pitch := f.pitch, unseen := 0 }

/-- Faces gain and lose numbers, and FACE is raised for each change (R275). -/
def lookFaces (f : W32 × W64) (seen : List FaceSeen) (s : State) : State :=
  let face (x : Tracked) (s : State) : State := lookRaise f "FACE" (faceFields x) none s
  let keep (l : List Tracked) (s : State) : State := s.setEye fun e => { e with lookout := { e.lookout with faces := l } }
  let old := s.eye.lookout.faces.map fun x => match seen.find? fun y => y.id == x.id with
    | some y => (x, x.see y)
    | none => (x, { x with unseen := x.unseen + 1 })
  let gone := old.filter fun p => decide (s.eye.offFrames ≤ p.2.unseen)
  let stay := old.filter fun p => decide (p.2.unseen < s.eye.offFrames)
  let s := gone.foldl (fun s p => face p.1 s) s
  let s := (stay.filter fun p => towards p.1.yaw p.1.pitch != towards p.2.yaw p.2.pitch).foldl (fun s p => face p.2 s) s
  (seen.filter fun y => !s.eye.lookout.faces.any fun x => x.id == y.id).foldl (fun s y =>
    match freeNumber s.eye.lookout.faces with
    | some n =>
      let x : Tracked := { number := n, id := y.id, yaw := y.yaw, pitch := y.pitch }
      face x (keep (s.eye.lookout.faces ++ [x]) s)
    | none => s) (keep (stay.map (·.2)) s)

/-- The lips of a tracked face: active after 2 frames of movement, inactive after 200 ms without (R275; notes/assumptions/31). -/
def Tracked.lips (t : W64) (seen : List FaceSeen) (x : Tracked) : Tracked :=
  if seen.any fun y => y.id == x.id && y.lips then
    { x with moving := x.moving + 1, moved := t, active := x.active || decide (1 ≤ x.moving) }
  else { x with moving := 0, active := x.active && decide ((t - x.moved).toNat < msTicks 200) }

/-- LIPS and ATTEND of the frame, while attending. -/
def lookSpeech (f : W32 × W64) (seen : List FaceSeen) (s : State) : State :=
  s.eye.lookout.faces.foldl (fun s x =>
    let y := x.lips f.2 seen
    let s := if x.active = y.active then s
      else lookRaise f "LIPS" [decF "face" y.number.val, decF "active" (boolNat y.active)] (if y.active then some 0x43 else none) s
    let facing := match seen.find? fun z => z.id == y.id with | some z => z.facing | none => y.facing
    let into := match facing.bind fun k => s.eye.lookout.faces.find? fun z => z.id == k with | some z => z.number.val | none => 0
    let s := if y.active && facing != y.facing then
        lookRaise f "ATTEND" [decF "speaker" y.number.val, decF "to" into] (some 0x44) s
      else s
    s.setEye fun e => { e with lookout := { e.lookout with
      faces := e.lookout.faces.map fun z => if z.id = x.id then { y with facing := facing } else z } }) s

/-- The events of a frame, besides PRESENCE. -/
def lookEvents (f : W32 × W64) (seen : LookSeen) (attending : Bool) (s : State) : State :=
  let s := lookFaces f seen.faces s
  let s := match seen.gesture with
    | some g => lookRaise f "GESTURE" [symF "kind" g.text] (some 0x42) s
    | none => s
  if attending then lookSpeech f seen.faces s else s

/-- What Lookout decides when its heat for a frame retires; with PD_EYE fenced its vision branches have stopped (R272). -/
def lookDecide (f : W32 × W64) (seen : LookSeen) (s : State) : State :=
  let n := seen.faces.length
  if s.eye.hold || s.domFenced Dom.eye then s
  else if 0 < s.eye.lookout.quiet then
    s.setEye fun e => { e with lookout := { e.lookout with
      quiet := e.lookout.quiet - 1
      withFace := if n = 0 then 0 else e.lookout.withFace + 1
      without := if n = 0 then e.lookout.without + 1 else 0 } }
  else lookEvents f seen s.eye.lookout.attending (presence f n s)

/-- An L0 heat retires: the slot of its frame is free, and Lookout's events are raised. -/
def lookRetire (q : W32) (seen : LookSeen) (s : State) : State :=
  match s.eye.ringHeld.find? fun p => p.2.2 == q with
  | some p => lookDecide (p.1, p.2.1) seen (s.setEye fun e => { e with ringHeld := e.ringHeld.filter fun x => x.2.2 != q })
  | none => s

/-- The lines of a stored event: LOST goes before the first event stored after losses (R276, R340). -/
def LookEvent.lines (ev : LookEvent) : List Line :=
  (if ev.lost = 0 then [] else [Line.evt "LOOK LOST" [("", .dec ev.lost), decF "frame" ev.frame.toNat, decF "t" ev.tTrig.toNat]]) ++
    [Line.evt ev.name ev.fields]

/-- An entry of the buffer that a consumer has not taken: the first one. -/
def takeLook (taken : LookEvent → Bool) (mark : LookEvent → LookEvent) : List LookEvent → Option (LookEvent × List LookEvent)
  | [] => none
  | e :: r => if taken e then (takeLook taken mark r).map fun p => (p.1, e :: p.2) else some (e, mark e :: r)

def setLook (s : State) (l : List LookEvent) : State := s.setEye fun e => { e with lookout := { e.lookout with buffer := l } }

/-- The Call line takes the next Lookout event while its events are on and CALL_TX keeps up (R338, R340). -/
def lookCall (s : State) : State :=
  if s.call.events && s.txRoom then
    match takeLook (·.takenCall) (fun e => { e with takenCall := true }) s.eye.lookout.buffer with
    | some (ev, l) => ev.lines.foldl State.callEvent (setLook s l)
    | none => s
  else s

/-- The L0 event ring takes the next one while it is enabled and has room; while it is off, events wait for it (R364, R368). -/
def lookRing (s : State) : State :=
  if s.host.evctl.getLsbD 0 && s.evRoom 0 then
    match takeLook (·.takenHost) (fun e => { e with takenHost := true }) s.eye.lookout.buffer with
    | some (ev, l) => ev.lines.foldl State.ringEvent (setLook s l)
    | none => s
  else s

/-- Every consumer has taken an event: after a lapse it waits for the L0 ring (R276, R368). -/
def LookEvent.over (s : State) (ev : LookEvent) : Bool :=
  (ev.takenCall || ev.takenHost) && (ev.takenCall || !s.call.events) &&
    (ev.takenHost || (!s.host.evctl.getLsbD 0 && !s.host.leaseLapsed))

/-- The next Lookout event goes to the Call line and the L0 event ring, from the banner on; an event that both have taken leaves the
buffer. -/
def lookDeliver (s : State) : State :=
  if s.start.banner then
    let s := lookRing (lookCall s)
    setLook s (s.eye.lookout.buffer.dropWhile (LookEvent.over s))
  else s

def execLookoutEventDeliver (s : State) : Host.Outcome State Fault Refusal := .next (lookDeliver s)

/-! ## Registers (R279) -/

/-- EYE_MISSED is read and clears. -/
def readEyeMissed (s : State) : W32 × State :=
  let e := s.eye
  (atBit e.missIrCut.toNat 24 8 ||| atBit e.missOverflow.toNat 16 8 ||| atBit e.missNotReady.toNat 12 4 ||| atBit e.missNoSlot.toNat 8 4 |||
    atBit e.missBusy.toNat 0 8,
   s.setEye fun e => { e with missIrCut := 0#8, missOverflow := 0#8, missNotReady := 0#4, missNoSlot := 0#4, missBusy := 0#8 })

def eyeMissedRead (path : Path) (s : State) : State :=
  let (v, s) := readEyeMissed (touch Dom.eye s)
  (s.answered path v)

def execEyeMissedRead (path : Path) (s : State) : Host.Outcome State Fault Refusal := .next (eyeMissedRead path s)

def SliceRole.code : SliceRole → Nat
  | .active => 0 | .spare => 1 | .retired => 2

/-- Offset o of the EYE block, EYE_MISSED apart. -/
def readEye (o : Nat) (s : State) : W32 :=
  let e := s.eye
  if o = 0x00 then
    bitAt e.ready 31 ||| bitAt s.clk.degraded 30 ||| bitAt e.spare.isNone 29 ||| atBit e.active.length 24 4 ||| atBit e.calGen.toNat 8 8 |||
      atBit ((e.spare.map Fin.val).getD 15) 4 4
  else if o = 0x04 then bitAt e.snapReq 31 ||| atBit e.mode.toNat 8 2 ||| bitAt e.irEn 4 ||| atBit e.trigSrc.toNat 0 4
  else if o = 0x08 then e.delay.setWidth 32
  else if o = 0x0C then e.expose.setWidth 32
  else if o = 0x10 then e.ir.setWidth 32
  else if o = 0x14 then e.irMax.setWidth 32
  else if o = 0x18 then bitAt e.hold 0
  else if o = 0x1C then (match e.tally with | some t => bitAt true 31 ||| w32 t.val | none => 0#32)
  else if o = 0x20 then e.frames
  else if o = 0x28 then e.calCtl.setWidth 32
  else if o = 0x2C then bitAt e.copyEn 31 ||| atBit e.copyLane.val 24 2 ||| atBit e.copyBanks.toNat 8 2 ||| atBit e.copyBank.toNat 0 6
  else if o = 0x30 then e.mapWord
  else if o = 0x34 then e.look.setWidth 32
  else if 0x40 ≤ o ∧ o < 0x88 then
    match e.slice.toList[(o - 0x40) / 8]? with
    | some x =>
      if o % 8 = 0 then atBit x.offset.toNat 20 12 ||| atBit x.gain.toNat 6 14
      else atBit x.skew.toNat 24 8 ||| atBit x.lastGen.toNat 8 8 ||| atBit x.fails 4 4 ||| atBit x.role.code 0 2
    | none => 0#32
  else 0#32

/-- The Call line and the host link write most EYE registers only while HOLD is 1; the engine and the String Port always. -/
def State.eyeMay (s : State) (p : Path) : Bool :=
  match p with | .cox => true | .string => true | .call => s.eye.hold | .host => s.eye.hold

/-- EYE_HOLD and EYE_LOOK are open in normal service. -/
def State.eyeOpen (s : State) (p : Path) : Bool :=
  match p with | .cox => true | .string => true | .call => !s.confidential | .host => !s.confidential

/-- HOLD changes: back at 0, Lookout writes its watching configuration and takes PRESENCE as off (R277). -/
def setHold (on : Bool) (s : State) : State :=
  let was := s.eye.hold
  let s := s.setEye fun e => { e with hold := on }
  if was && !on then
    let s := s.setEye fun e => { e with lookout := { e.lookout with
      presence := false, withFace := 0, without := 0, quiet := e.onFrames } }
    if (s.bundle 0).live then lookConfigure false s else s
  else s

/-- A write of EYE_COPY: EN holds only for a lane of 1 to 3 that the writer owns and banks of its partition. -/
def setCopy (en : Bool) (l : LaneId) (bank n : Nat) (s : State) : State :=
  s.setEye fun e => { e with
    copyEn := en && copyOk s l bank n && !s.confidential, copyLane := l, copyBanks := BitVec.ofNat 2 (n - 1), copyBank := BitVec.ofNat 6 bank, copyNext := 0 }

def clampExpose (n : Nat) : Nat := Nat.max 384 (Nat.min n 3840000)

/-- SNAP: one trigger is due when TRIGSRC is 10. -/
def snap (s : State) : State := if s.eye.trigSrc = 10#4 then s.setEye fun e => { e with snapReq := true } else s

/-- A field of EYE_LOOK from 1 to 255; what a write of 0 does is open, and here the field stays as it is (DESIGN CHOICE,
notes/assumptions/30). -/
def lookWord (old v : BitVec 17) : BitVec 17 :=
  let keep (lo : Nat) : Nat := if v.toNat / 2 ^ lo % 256 = 0 then old.toNat / 2 ^ lo % 256 else v.toNat / 2 ^ lo % 256
  BitVec.ofNat 17 (v.toNat / 65536 * 65536 + keep 8 * 256 + keep 0)

/-- A write in the EYE block. EYE_CALCTL.CAL_PERIOD takes 1 to 255; what a write of 0 does is open, and here the period stays as it is
(DESIGN CHOICE, notes/assumptions/30). -/
def writeEye (p : Path) (o : Nat) (v : W32) (s : State) : State :=
  if o = 0x18 then if s.eyeOpen p then setHold (bit v 0) s else s
  else if o = 0x34 then if s.eyeOpen p then s.setEye fun e => { e with look := lookWord e.look (v.setWidth 17) } else s
  else if o = 0x2C then
    match fin? 4 (fld v 24 2) with
    | some l => if s.ownsLane p l then setCopy (bit v 31) l (fld v 0 6) (fld v 8 2 + 1) s else s
    | none => s
  else if !s.eyeMay p then s
  else if o = 0x04 then
    let s := s.setEye fun e => { (if bit v 4 then e else e.irDown s.now).setTrig (BitVec.ofNat 4 (fld v 0 4)) with
      mode := if fld v 8 2 = 3 then e.mode else BitVec.ofNat 2 (fld v 8 2), irEn := bit v 4 }
    if bit v 31 then snap s else s
  else if o = 0x08 then s.setEye fun e => { e with delay := v.setWidth 20 }
  else if o = 0x0C then s.setEye fun e => { e with expose := BitVec.ofNat 22 (clampExpose (fld v 0 22)) }
  else if o = 0x10 then s.setEye fun e => { e with ir := v.setWidth 20 }
  else if o = 0x14 then s.setEye fun e => { e with irMax := v.setWidth 24 }
  else if o = 0x28 then s.setEye fun e => { e with
    calCtl := BitVec.ofNat 16 (fld v 8 8 * 256 + (if fld v 0 8 = 0 then e.calPeriod else fld v 0 8)) }
  else s

def eyeHoldWrite (path : Path) (v : W32) (s : State) : State := writeEye path 0x18 v (touch Dom.eye s)

def execEyeHoldWrite (path : Path) (v : W32) (s : State) : Host.Outcome State Fault Refusal := .next (eyeHoldWrite path v s)

def snapDo (path : Path) (s : State) : State := if s.eyeMay path then snap (touch Dom.eye s) else s

def execSnap (path : Path) (s : State) : Host.Outcome State Fault Refusal := .next (snapDo path s)

/-! ## The EYE verb (R346) -/

/-- A verb on a block of a domain: a fenced domain fails, and the access brings an off one up (R406, R407). -/
def domGate (c : Caller) (verb : String) (d : Dom) (s : State) (k : State → State) : State :=
  s.gate c verb false (if s.domFenced d then s.fail c verb .fenced else k (touch d s))

def trigText (first : String) (n : Nat) : String :=
  if 1 ≤ n ∧ n ≤ 8 then "TMR" ++ toString (n - 1) else if n = 9 then "TRIGIN" else if n = 10 then "SNAP" else first

def modeText (m : BitVec 2) : String := match m.toNat with | 0 => "FULL" | 1 => "BIN2" | _ => "BIN4"

def eyeSetFields (e : Eye) : List (String × Val) :=
  [symF "mode" (modeText e.mode), symF "trig" (trigText "NONE" e.trigSrc.toNat), usF "delay" e.delay.toNat, usF "expose" e.expose.toNat,
   symF "ir" (onOff e.irEn), decF "lead" (e.ir.toNat / 1024), decF "tail" (e.ir.toNat % 1024)]

def eyeLookFields (e : Eye) : List (String × Val) :=
  [symF "attend" (onOff (e.look.getLsbD 16)), decF "on" e.onFrames, decF "off" e.offFrames]

def eyeCopyFields (e : Eye) : List (String × Val) :=
  if e.copyEn then [bareF "COPY", laneF e.copyLane, decF "bank" e.copyBank.toNat, decF "n" (e.copyBanks.toNat + 1)]
  else [bareF "COPY", bareF "OFF"]

def doEyeState (c : Caller) (s : State) : State :=
  domGate c "EYE" Dom.eye s fun s =>
    let e := s.eye
    s.okWith c [eyeSetFields e, eyeLookFields e, eyeCopyFields e] "EYE"
      [bareF "STATE", decF "ready" (boolNat e.ready), symF "hold" (onOff e.hold), decF "frames" e.frames.toNat, decF "active" e.active.length,
       ("spare", match e.spare with | some k => .sym ("SL" ++ toString k.val) | none => .dash), decF "calgen" e.calGen.toNat]

def doEyeHold (c : Caller) (on : Bool) (s : State) : State :=
  domGate c "EYE" Dom.eye s fun s =>
    if s.eyeOpen c.path.path then (setHold on s).ok c "EYE" [bareF "HOLD", bareF (onOff on)] else s.fail c "EYE" .state

def doEyeSet (c : Caller) (a : EyeSetArgs) (s : State) : State :=
  domGate c "EYE" Dom.eye s fun s =>
    if !usOk 20 a.delay || !usOk 22 a.expose || !below 1024 a.lead || !below 1024 a.tail then s.fail c "EYE" .range
    else if !s.eyeMay c.path.path then s.fail c "EYE" .state
    else
      let s := s.setEye fun e => { (if a.ir.getD e.irEn then e else e.irDown s.now).setTrig (a.trig.getD e.trigSrc) with
        mode := a.mode.getD e.mode
        delay := (a.delay.map fun t => BitVec.ofNat 20 (usTicks t)).getD e.delay
        expose := (a.expose.map fun t => BitVec.ofNat 22 (clampExpose (usTicks t))).getD e.expose
        irEn := a.ir.getD e.irEn
        ir := BitVec.ofNat 20 (a.lead.getD (e.ir.toNat / 1024) * 1024 + a.tail.getD (e.ir.toNat % 1024)) }
      s.ok c "EYE" (bareF "SET" :: eyeSetFields s.eye)

def doEyeSnap (c : Caller) (s : State) : State :=
  domGate c "EYE" Dom.eye s fun s =>
    if s.eyeMay c.path.path && s.eye.trigSrc == 10#4 then (snap s).ok c "EYE" [bareF "SNAP"] else s.fail c "EYE" .state

def doEyeLook (c : Caller) (attend : Option Bool) (on off : Option Nat) (s : State) : State :=
  domGate c "EYE" Dom.eye s fun s =>
    let ok (x : Option Nat) : Bool := x.all fun n => decide (1 ≤ n ∧ n ≤ 255)
    if !ok on || !ok off then s.fail c "EYE" .range
    else if !s.eyeOpen c.path.path then s.fail c "EYE" .state
    else
      let e := s.eye
      let v := boolNat (attend.getD (e.look.getLsbD 16)) * 65536 + off.getD e.offFrames * 256 + on.getD e.onFrames
      let s := s.setEye fun e => { e with look := BitVec.ofNat 17 v }
      s.ok c "EYE" (bareF "LOOK" :: eyeLookFields s.eye)

def doEyeCopy (c : Caller) (l : LaneId) (bank n : Nat) (s : State) : State :=
  domGate c "EYE" Dom.eye s fun s =>
    match laneMay c l s with
    | .error e => s.fail c "EYE" e
    | .ok _ =>
      if n < 1 ∨ 4 < n ∨ copyOk s l bank n = false then s.fail c "EYE" .range
      else if s.confidential then s.fail c "EYE" .state
      else
        let s := setCopy true l bank n s
        s.ok c "EYE" (eyeCopyFields s.eye)

def doEyeCopyOff (c : Caller) (s : State) : State :=
  domGate c "EYE" Dom.eye s fun s =>
    if s.eye.copyEn && s.laneOwner s.eye.copyLane != c.path.owner then s.fail c "EYE" .lane
    else
      let s := s.setEye fun e => { e with copyEn := false }
      s.ok c "EYE" (eyeCopyFields s.eye)

def execEyeState (c : Caller) (s : State) : Host.Outcome State Fault Refusal := .next (doEyeState c s)
def execEyeHold (c : Caller) (on : Bool) (s : State) : Host.Outcome State Fault Refusal := .next (doEyeHold c on s)
def execEyeSet (c : Caller) (a : EyeSetArgs) (s : State) : Host.Outcome State Fault Refusal := .next (doEyeSet c a s)
def execEyeSnap (c : Caller) (s : State) : Host.Outcome State Fault Refusal := .next (doEyeSnap c s)
def execEyeLook (c : Caller) (attend : Option Bool) (on off : Option Nat) (s : State) : Host.Outcome State Fault Refusal :=
  .next (doEyeLook c attend on off s)
def execEyeCopy (c : Caller) (lane : LaneId) (bank n : Nat) (s : State) : Host.Outcome State Fault Refusal := .next (doEyeCopy c lane bank n s)
def execEyeCopyOff (c : Caller) (s : State) : Host.Outcome State Fault Refusal := .next (doEyeCopyOff c s)

end Sys2Proof.Machine
end

