-- ==== Sys2Proof/Machine/Analysis.lean ====
section
/-! DEFINITION. The exact functions of R48 and R135 in fixed point, far below every bound of R131, and the codes that a bound of
so many ulp allows (R129 to R131, R135). -/

namespace Sys2Proof.Machine
open Sys2Proof

/-! ## Fixed point

A fixed-point number is an integer in units of 2^−320. The series below run until their terms are 0 in that unit or far below
it, so a value is off by less than 2^−280, where the bounds of R131 are met or missed by more (notes/assumptions/12). -/

def fixBits : Nat := 320
def fixOne : Int := (2 ^ fixBits : Nat)

def Dy.fix (x : Dy) : Int := x.round (-(fixBits : Int))
def ofFix (n : Int) : Dy := ⟨n, -(fixBits : Int)⟩
def fixMul (a b : Int) : Int := a * b / fixOne
def fixDiv (a b : Int) : Int := a * fixOne / b

/-- Integer square root by Newton's steps from above, at most n of them. -/
def sqrtFrom (n : Nat) : Nat → Nat → Nat
  | 0, x => x
  | k + 1, x => let y := (x + n / x) / 2; if y < x then sqrtFrom n k y else x

def isqrt (n : Nat) : Nat := if n = 0 then 0 else sqrtFrom n 2000 (2 ^ (Nat.log2 n / 2 + 1))

/-- The sum of a series of n terms: each term is the last one times `num k` over `den k`. -/
def series (num : Nat → Int) (den : Nat → Int) : Nat → Nat → Int → Int
  | 0, _, _ => 0
  | n + 1, k, t => t + series num den n (k + 1) (fixMul t (num k) / den k)

/-- Σ z^(2k+1) / (2k+1), with signs that alternate or not: atanh z and atan z. -/
def oddSeries (alt : Bool) (z : Int) : Nat → Nat → Int → Int
  | 0, _, _ => 0
  | n + 1, k, p =>
    let t := p / ((2 * k + 1 : Nat) : Int)
    (if alt && k % 2 = 1 then -t else t) + oddSeries alt z n (k + 1) (fixMul p (fixMul z z))

def fixAtanh (z : Int) : Int := oddSeries false z 110 0 z
def fixAtan (z : Int) : Int := oddSeries true z 110 0 z

def fixLn2 : Int := 2 * fixAtanh (fixOne / 3)
def fixPi : Int := 16 * fixAtan (fixOne / 5) - 4 * fixAtan (fixOne / 239)

/-- ln x for x above 0. -/
def lnOf (x : Dy) : Dy :=
  let m := Dy.fix ⟨x.m, x.e - x.log2⟩
  ofFix (x.log2 * fixLn2 + 2 * fixAtanh (fixDiv (m - fixOne) (m + fixOne)))

/-- e^x. -/
def expOf (x : Dy) : Dy :=
  let f := x.fix
  let k := (2 * f + fixLn2) / (2 * fixLn2)
  ⟨series (fun _ => f - k * fixLn2) (fun j => (j + 1 : Nat)) 90 0 fixOne, k - fixBits⟩

/-- x^(−1/2) for x above 0. -/
def rsqrtOf (x : Dy) : Dy :=
  let x : Dy := if x.e % 2 = 0 then x else ⟨2 * x.m, x.e - 1⟩
  let q := 2 * fixBits
  ⟨isqrt (2 ^ (2 * q) / x.m.natAbs), -(q : Int) - x.e / 2⟩

/-- 1/x for x not 0. -/
def recipOf (x : Dy) : Dy := ⟨(if x.m < 0 then -1 else 1) * (2 ^ (2 * fixBits) / x.m.natAbs : Nat), -(2 * fixBits : Int) - x.e⟩

/-- sin (r) and cos (r) of a small angle in fixed point. -/
def sinSmall (r : Int) : Int := series (fun _ => -(fixMul r r)) (fun j => ((2 * j + 2) * (2 * j + 3) : Nat)) 60 0 r
def cosSmall (r : Int) : Int := series (fun _ => -(fixMul r r)) (fun j => ((2 * j + 1) * (2 * j + 2) : Nat)) 60 0 fixOne

/-- sin (x + quarter · π/2). -/
def sinOf (quarter : Int) (x : Dy) : Dy :=
  let f := x.fix
  let k := (2 * f + fixPi / 2) / fixPi
  let r := f - k * fixPi / 2
  ofFix (match (k + quarter) % 4 with
    | 0 => sinSmall r
    | 1 => cosSmall r
    | 2 => -sinSmall r
    | _ => -cosSmall r)

/-- x / (1 + e^(−x)). Where it lies far below half the smallest subnormal some such number stands for it, as in the functions below. -/
def siluOf (x : Dy) : Dy :=
  if x.m < 0 then
    if x.lt (.ofInt (-300)) then ⟨-1, -400⟩
    else let e := (expOf x).fix; x.mul (ofFix (max 1 (fixDiv e (fixOne + e))))
  else
    let e := if Dy.lt (.ofInt 300) x then 0 else (expOf x.neg).fix
    x.mul (ofFix (fixDiv fixOne (fixOne + e)))

/-- Φ, the standard normal distribution function: beyond ±12 it is 0 or 1 within 2^−108, and never 0. -/
def phiOf (x : Dy) : Dy :=
  if Dy.le (.ofInt 12) x then .ofInt 1
  else if x.le (.ofInt (-12)) then ⟨1, -400⟩
  else
    let f := x.fix
    let h := -(fixMul f f) / 2
    let s := (List.range 420).foldl (fun (a : Int × Int) k =>
      (a.1 + a.2 / ((2 * k + 1 : Nat) : Int), fixMul a.2 h / ((k + 1 : Nat) : Int))) (0, f)
    ofFix (fixOne / 2 + fixDiv s.1 (isqrt (2 * fixPi * fixOne).natAbs))

/-- The exact functions of R135 on one operand, where R90 and the exact results do not settle them. -/
def transOf (f : Trans) (x : Dy) : Dy :=
  match f with
  | .exp => expOf x
  | .log => lnOf x
  | .rsqrt => rsqrtOf x
  | .recip => recipOf x
  | .sin => sinOf 0 x
  | .cos => sinOf 1 x
  | .silu => siluOf x
  | .gelu => x.mul (phiOf x)

/-- y_i = e^(x_i) / Σ e^(x_j): every exponent is taken from the largest operand on. -/
def softmaxOf (xs : List Dy) : List Dy :=
  match xs with
  | [] => []
  | x :: r =>
    let big := r.foldl (fun b t => if b.lt t then t else b) x
    let es := xs.map fun t => if (t.sub big).lt (.ofInt (-300)) then 0 else (expOf (t.sub big)).fix
    let sum := es.foldl (· + ·) 0
    es.map fun e => ofFix (max 1 (fixDiv e sum))

/-- (1/n) Σ x_j² + ε. -/
def meanSquare (xs : List Dy) (eps : Dy) : Dy :=
  let s := Dy.sum (xs.map fun x => x.mul x)
  Dy.add ⟨s.m * fixOne / (xs.length : Int), s.e - fixBits⟩ eps

/-- g = −log(−log(u)), u = (v + 0.5) / 2^24 (R48). -/
def noiseOf (v : BitVec 24) : Dy := (lnOf (lnOf ⟨2 * v.toNat + 1, -25⟩).neg).neg

/-- b^t, by the bits of t. -/
def powFix (b : Int) (t : Nat) : Int :=
  ((List.range 32).foldl (fun (a : Int × Int) k => (if t.testBit k then fixMul a.1 a.2 else a.1, fixMul a.2 a.2)) (fixOne, b)).1

/-- η_t = η · sqrt(1 − β2^t) / (1 − β1^t) (R168). -/
def etaOf (beta1 beta2 eta : Dy) (t : Nat) : Dy :=
  let root := isqrt ((fixOne - powFix beta2.fix t) * fixOne).toNat
  eta.mul (ofFix (fixDiv root (fixOne - powFix beta1.fix t)))

/-! ## Bounds (R129 to R131) -/

/-- ulp_F(v), as its exponent (R129). -/
def ulpExp (f : FloatP) (v : Dy) : Int := (if v.isZero then f.emin else max f.emin v.log2) - f.m

/-- A code that the engine may write for v under a bound of k ulp: a finite value, no negative zero, within the bound. -/
def inBound (f : FloatP) (k : Nat) (v : Dy) (c : Nat) : Bool :=
  let mag := c % 2 ^ f.signBit
  let y := f.magnitude mag
  decide (c < 2 ^ (f.signBit + 1) ∧ mag ≤ f.maxCode ∧ c ≠ 2 ^ f.signBit) &&
    (((if c.testBit f.signBit then y.neg else y).sub v).abs).le ⟨k, ulpExp f v⟩

/-- What is written for the exact value v under a bound of k ulp: the proposed code where the bound allows it, else v rounded
once. Beyond the largest finite the result is clipped (R90); a zero for a value that is not zero is a feather (R87). -/
def boundedWrite (f : FloatP) (k : Nat) (v : Dy) (c : Nat) : Written :=
  match toFloat f v with
  | (w, .crab) => ⟨w, .crab, none⟩
  | (w, _) =>
    let c := if inBound f k v c then c else w
    ⟨c, if c = 0 ∧ ¬ v.isZero then .feather else .plain, none⟩

end Sys2Proof.Machine
end

