-- ==== Sys2Proof/Machine/RunUnit.lean ====
section
/-! DEFINITION. The functions of the cells (R43 to R48): reductions and the rescale (R117 to R127), conversions (R104, R105),
table builds, elementwise and transcendental functions (R90, R135), FFT, permutes, gathers and top-k. -/

namespace Sys2Proof.Machine
open Sys2Proof

/-! ## Accumulators (R92 to R97) -/

def accKey (cell : Fin 64) (a : Fin 32) : Nat := cell.val * 32 + a.val

def Rx.acc (r : Rx) (e : RunEnv) (k : Nat) : Acc := (Tab.get? (r.s.shell e.shell).acc k).getD {}

def Rx.setAcc (r : Rx) (e : RunEnv) (k : Nat) (a : Acc) : Rx := r.mapShell e fun x => { x with acc := Tab.set x.acc k a }

def Rx.dropAcc (r : Rx) (e : RunEnv) (k : Nat) : Rx := r.mapShell e fun x => { x with acc := Tab.erase x.acc k }

/-- A product: a multiplier product or lookup, or a side term (R117, R118). -/
inductive Prod where
  | plain (x : Dy) | side (x : Dy) | nan
deriving DecidableEq, Repr

/-- A signed 16-bit number. -/
def int16 (n : Nat) : Int := (BitVec.ofNat 16 n).toInt

/-- One product; `word` is the feed of the group words. -/
def product (e : RunEnv) (c : CellRec) (cell : Fin 64) (word : Option (Fin 16)) (t : Term) (r : Rx) : Prod × Rx :=
  let (wf, af) := c.tableFmts
  let fa := if c.func = 0x11#8 then af else c.fmtA.toNat
  let fb := if c.func = 0x11#8 then wf else c.fmtB.toNat
  let ((a, ea), r) := readOpnd e c cell fa word t.a r
  let ((b, eb), r) := readOpnd e c cell fb word t.b r
  match a, b with
  | .val x, .val y =>
    if ea || eb then (.side (x.mul y), r)
    else match t.tab with
      | none => (.plain (x.mul y), r)
      | some j =>
        let (k, r) := readElem e c cell (fmtBits wf) t.b.at_ r
        (.plain (.ofInt (int16 ((r.s.shell e.shell).table.nat (RunEnv.tableAt c cell (j * tableSize wf + 2 * k)) 2))), r)
  | _, _ => (.nan, { r with nan := true })

def products (e : RunEnv) (c : CellRec) (cell : Fin 64) (word : Option (Fin 16)) : List Term → Rx → List Prod × Rx
  | [], r => ([], r)
  | t :: ts, r =>
    let (p, r) := product e c cell word t r
    let (ps, r) := products e c cell word ts r
    (p :: ps, r)

def Prod.isNan : Prod → Bool
  | .nan => true
  | _ => false

def plainSum (l : List Prod) : Dy := Dy.sum (l.filterMap fun p => match p with | .plain x => some x | _ => none)
def sideTerms (l : List Prod) : List Dy := l.filterMap fun p => match p with | .side x => some x | _ => none

/-- Both operand formats are integer formats. -/
def CellRec.intPair (c : CellRec) : Bool := isInt c.fmtA.toNat && isInt c.fmtB.toNat
/-- The operands are E4M3 or E5M2. -/
def CellRec.fp8 (c : CellRec) : Bool := c.fmtA = 5#4 || c.fmtA = 6#4

/-- The anchor of the E4M3 and E5M2 products (R93). -/
def CellRec.fp8Anchor (c : CellRec) : Int :=
  (if c.fmtA = 5#4 then -9 else -16) + (if c.fmtB = 5#4 then -9 else -16)

/-- Integer products stand in a G32 (R40, R92): in array mode a group's sum, one bank accumulating while the other is rescaled; in table
mode the sum of the cell's row segment so far. Products without groups go straight into A64 or A96. -/
def Rx.setG32 (r : Rx) (e : RunEnv) (c : CellRec) (cell : Fin 64) (acc : Fin 32) (k : Nat) (s : Dy) : Rx :=
  let at_ := cell.val * 64 + acc.val
  if c.func = 0x11#8 then
    let old : Int := if k = 0 ∧ (r.acc e (accKey cell acc)).terms.isEmpty = true then 0 else (Tab.get? (r.s.shell e.shell).g32 at_).getD 0
    r.mapShell e fun x => { x with g32 := Tab.set x.g32 at_ (old + s.units 0) }
  else if c.group = 0#8 then r
  else r.mapShell e fun x => { x with g32 := Tab.set x.g32 (at_ + k % 2 * 32) (s.units 0) }

/-- The terms of group k of an accumulator: an integer group's exact G32 sum times its scale, and its side terms; a float group's
products. A group word with M = 0 or x = 0x80 contributes nothing (R121), and its elements are not looked at (DESIGN CHOICE,
notes/assumptions/11). -/
def groupTerms (e : RunEnv) (c : CellRec) (cell : Fin 64) (acc : Fin 32) (er : Int) (k : Nat) (g : Group) (r : Rx) : (List Dy × Bool) × Rx :=
  match g.word with
  | none =>
    let (ps, r) := products e c cell none g.terms r
    let nan := ps.any Prod.isNan
    if c.intPair then (((plainSum ps).shift er :: (sideTerms ps).map (·.shift er), nan), r.setG32 e c cell acc k (plainSum ps))
    else ((ps.filterMap (fun p => match p with | .plain x => some (x.shift er) | .side x => some (x.shift er) | .nan => none), nan), r)
  | some (f, block) =>
    let (w, r) := readBytes e f (c.sideByte true block - 4) 4 r
    let m := leNat w % 4096
    match x8 (BitVec.ofNat 8 (leNat w / 4096)), m with
    | none, _ => (([], false), r)
    | some _, 0 => (([], false), r)
    | some xg, _ =>
      let (ps, r) := products e c cell (some f) g.terms r
      let sc : Dy := ⟨m, xg - 11 + er⟩
      (((plainSum ps).mul sc :: (sideTerms ps).map (·.mul sc), ps.any Prod.isNan), r.setG32 e c cell acc k (plainSum ps))

def rowTerms (e : RunEnv) (c : CellRec) (cell : Fin 64) (acc : Fin 32) (er : Int) (k : Nat) : List Group → Rx → (List Dy × Bool) × Rx
  | [], r => (([], false), r)
  | g :: gs, r =>
    let ((a, n), r) := groupTerms e c cell acc er k g r
    let ((b, m), r) := rowTerms e c cell acc er (k + 1) gs r
    ((a ++ b, n || m), r)

/-- An array-mode cell with GROUP sums integer products on the group path (R121, R124); table mode has no group words (R119).
DESIGN CHOICE (notes/assumptions/11): where FMTOA's accumulation code says otherwise than R118, R121 and R124, the rules hold. -/
def CellRec.groupPath (c : CellRec) : Bool := c.func == 0x10#8 && c.group != 0#8 && c.intPair

/-- The row takes the h halves of I16 elements, whose products carry an exponent 8 higher (R152). -/
def hPass (e : RunEnv) (c : CellRec) (row : Row) (r : Rx) : Bool :=
  zeroPoint e c r == 128 && row.groups.any fun g => g.terms.any fun t =>
    (c.fmtA == 4#4 && e.wide c t.a.at_) || (c.fmtB == 4#4 && e.wide c t.b.at_)

/-- The anchor of a row's accumulator and whether it is an A96 (R93, R118, R122, R124): integer products without groups take an A64,
and an A96 at 2^(e_r − 14) where the cell has side entries or its accumulation code names A96 (R51). -/
def rowAnchor (e : RunEnv) (c : CellRec) (er : Int) : Bool × Option Int :=
  if c.intPair then
    if c.groupPath then (true, some (e.anchor.toInt + er))
    else if c.sideCap = 0#8 ∧ c.accum ≠ 2#4 then (false, some er)
    else (true, some (er - 14))
  else if c.fp8 then (true, some (c.fp8Anchor + er))
  else (true, none)

/-- What an accumulator holds: its exact integer content and its anchor, with the overflow mark of R96. -/
def Acc.content (a : Acc) : Int × Int × Bool :=
  let l := a.anchor.getD (floatAnchor a.terms)
  let (n, o) := accumulate (if a.wide then .a96 else .a64) l a.terms
  (n, l, o)

/-- An overflow sets ACCOVF and counts CA for the cell's tensor when STAT is set (R142). -/
def Rx.overflow (r : Rx) (e : RunEnv) (c : CellRec) (o : Bool) : Rx :=
  if o then { (r.count e (c.tensor.toNat % 4096) fun k => { k with ca := k.ca + 1 }) with ovf := true } else r

/-- The generator that rescales array and table outputs, and the channel entry of its next use (R103). -/
def channelEntry (e : RunEnv) (c : CellRec) (r : Rx) : Option W32 × Rx :=
  if c.func = 0x10#8 ∨ c.func = 0x11#8 then
    let ag := e.ags.getD (c.param.toNat % 4) 0
    let n := (r.rescales.filter fun p => p.1 == ag).foldl (fun n p => n + p.2) 0
    let g := e.gens[ag]
    (some (Tab.word (r.s.shell e.shell).scale (g.addr (g.step + n) % 1024)), { r with rescales := r.rescales ++ [(ag, 1)] })
  else (none, r)

/-- The exact output before rounding: content times channel scale (R125); a channel entry with EXP 0x80 or MANT 0 gives +0
(R127). -/
def rescaled (a : Acc) (ch : Option W32) : Num × Bool :=
  let (n, l, o) := a.content
  let scaled (k : Int) (s : Int) : Num := if a.nan then .nan else .val ⟨n * k, l + s⟩
  match ch with
  | none => (scaled 1 0, o)
  | some w =>
    match x8 (BitVec.ofNat 8 (fld w 24 8)), fld w 8 16 with
    | none, _ => (.val .zero, o)
    | some _, 0 => (.val .zero, o)
    | some x, m => (scaled m (x - 15), o)

/-- One accumulator of a channel: its terms enter, and where the row is drained its output leaves with one rounding. A row exponent of
0x80 makes every product exactly 0 (R108): the row's elements are not looked at (DESIGN CHOICE, notes/assumptions/11). -/
def doRow (e : RunEnv) (c : CellRec) (cell : Fin 64) (ch : Option W32) (row : Row) (r : Rx) : Rx :=
  let (xa, r) := readExp e row.expA r
  let (xb, r) := readExp e row.expB r
  let k := accKey cell row.acc
  let a := r.acc e k
  let (a, r) := match xa, xb with
    | some p, some q =>
      let er := p + q
      let ((ts, nan), r) := rowTerms e c cell row.acc (if hPass e c row r then er + 8 else er) 0 row.groups r
      let (wide, anchor) := rowAnchor e c er
      let fresh := row.groups.isEmpty
      ({ terms := a.terms ++ ts, nan := a.nan || nan
         wide := if fresh then a.wide else wide, anchor := if fresh then a.anchor else anchor : Acc }, r)
    | _, _ => (a, r)
  match row.out with
  | none => r.setAcc e k a
  | some o =>
    let (x, ov) := rescaled a ch
    putValue e c cell o x ((r.dropAcc e k).overflow e c ov)

def doRows (e : RunEnv) (c : CellRec) (cell : Fin 64) (ch : Option W32) : List Row → Rx → Rx
  | [], r => r
  | x :: xs, r => doRows e c cell ch xs (doRow e c cell ch x r)

/-- A channel: the rescale generator steps once where outputs leave. -/
def doChannel (e : RunEnv) (c : CellRec) (cell : Fin 64) (rows : List Row) (r : Rx) : Rx :=
  let (ch, r) := if rows.any fun x => x.out.isSome then channelEntry e c r else (none, r)
  doRows e c cell ch rows r

/-- A partial leaves as F32, rounded once (R133); its class is counted as for every element that a conversion writes (R84, R88). -/
def doHop (e : RunEnv) (c : CellRec) (cell : Fin 64) (a : Fin 32) (out : Src) (r : Rx) : Rx :=
  let k := accKey cell a
  let acc := r.acc e k
  let (n, l, o) := acc.content
  let w := convertTo 10 0 false (if acc.nan then .nan else .val ⟨n, l⟩)
  let r := ((r.dropAcc e k).overflow e c o)
  (writeElem e c cell 32 out w.code { r with nan := r.nan || acc.nan }).count e (c.tensor.toNat % 4096) fun k => k.write w

/-- The terms with which a cell's accumulator enters a reduction across cells: an integer one with all its terms, so that the exact sum of
the whole reduction decides overflow (R96); a float one as one term, its content under the cell's float anchor (R93). -/
def Acc.partial (a : Acc) : List Dy :=
  if a.joined || a.anchor.isSome then a.terms
  else if a.terms.isEmpty then [] else [⟨a.content.1, a.content.2.1⟩]

/-- Two accumulators as one (R47): integer ones under the lower anchor, float ones under the float anchor of all their partials. -/
def Acc.join (a b : Acc) : Acc :=
  if a.terms.isEmpty then { b with terms := b.partial, nan := a.nan || b.nan, joined := true }
  else { terms := a.partial ++ b.partial, nan := a.nan || b.nan, wide := a.wide || b.wide, joined := true
         anchor := if b.terms.isEmpty then a.anchor else match a.anchor, b.anchor with | some l, some m => some (min l m) | _, _ => none }

/-- Partials of other cells join an accumulator (R46, R47). The result depends neither on their order nor on the tree. -/
def doCombine (e : RunEnv) (cell : Fin 64) (a : Fin 32) (from_ : List (Fin 64 × Fin 32)) (r : Rx) : Rx :=
  let k := accKey cell a
  (from_.filter fun p => accKey p.1 p.2 != k).foldl (fun (r : Rx) p =>
    let j := accKey p.1 p.2
    (r.dropAcc e j).setAcc e k ((r.acc e k).join (r.acc e j))) r

def readNums (e : RunEnv) (c : CellRec) (cell : Fin 64) (fmt : Nat) : List Src → Rx → List Num × Rx
  | [], r => ([], r)
  | x :: xs, r =>
    let (v, r) := readValue e c cell fmt { at_ := x } r
    let (vs, r) := readNums e c cell fmt xs r
    (v :: vs, r)

def numTerms (l : List Num) : List Dy := l.filterMap fun x => match x with | .val v => some v | _ => none
def anyNan (l : List Num) : Bool := l.any fun x => x == .nan

/-- F32 partials of other shells join an accumulator's own content under the float anchor (R133). -/
def doMerge (e : RunEnv) (c : CellRec) (cell : Fin 64) (a : Fin 32) (ins : List Src) (r : Rx) : Rx :=
  let k := accKey cell a
  let acc := r.acc e k
  let (n, l, o) := acc.content
  let (vs, r) := readNums e c cell 10 ins (r.overflow e c o)
  r.setAcc e k { terms := (if acc.terms.isEmpty then [] else [⟨n, l⟩]) ++ numTerms vs, nan := acc.nan || anyNan vs, wide := true
                 anchor := none, joined := true }

/-! ## Table build (R118) -/

/-- The entries k · a of a table, by code; 0 at the escape code. -/
def buildTable (wf : Nat) (a : Int) : List Byte :=
  (List.range (2 ^ fmtBits wf)).flatMap fun code =>
    leBytes (match readCode wf 0 code with
      | (.val k, _) => intCode 16 (k.m * a)
      | _ => 0) 2

def doBuild (e : RunEnv) (c : CellRec) (cell : Fin 64) (a : Opnd) (j : Nat) (r : Rx) : Rx :=
  let (wf, af) := c.tableFmts
  let ((x, esc), r) := readOpnd e c cell af none a r
  match x with
  | .val v =>
    if esc then r
    else
      r.mapShell e fun s => { s with table := s.table.put (RunEnv.tableAt c cell (j * tableSize wf)) (buildTable wf (v.units 0)) }
  | _ => r

/-! ## Conversion of a row (R104, R105, R108) -/

def readValues (e : RunEnv) (c : CellRec) (cell : Fin 64) (fmt : Nat) : List Opnd → Rx → List Num × Rx
  | [], r => ([], r)
  | x :: xs, r =>
    let (v, r) := readValue e c cell fmt x r
    let (vs, r) := readValues e c cell fmt xs r
    (v :: vs, r)

def doConvert (e : RunEnv) (c : CellRec) (cell : Fin 64) (row : List (Opnd × Opnd)) (r : Rx) : Rx :=
  let (vs, r) := readValues e c cell c.fmtA.toNat (row.map Prod.fst) r
  putRow e c cell (row.map Prod.snd) vs r

/-! ## Elementwise functions (R43, R89, R90) -/

/-- add, subtract, multiply, fused multiply-add, min, max of numbers that are not NaN. -/
def elemVal (op : Elem) (l : List Dy) : Dy :=
  match op, l with
  | .add, [a, b] => a.add b
  | .sub, [a, b] => a.sub b
  | .mul, [a, b] => a.mul b
  | .fma, [a, b, c] => (a.mul b).add c
  | .min, [a, b] => if b.lt a then b else a
  | .max, [a, b] => if a.lt b then b else a
  | _, a :: _ => a
  | _, [] => .zero

/-- The comparison of the first two operands; false with a NaN. -/
def elemTest (equal : Bool) : List Num → Bool
  | .val a :: .val b :: _ => if equal then (a.sub b).isZero else a.lt b
  | _ => false

/-- DESIGN CHOICE (notes/assumptions/11): a compare gives 1 for true and 0 for false; a select tests whether its first operand is
below its second, gives the third if so and the fourth otherwise, and a NaN in the operand that it does not choose is no matter. -/
def elemNum (op : Elem) (l : List Num) : Num :=
  match op with
  | .less => .val (.ofInt (boolNat (elemTest false l)))
  | .equal => .val (.ofInt (boolNat (elemTest true l)))
  | .sel => l.getD (if elemTest false l then 2 else 3) .nan
  | _ => if anyNan l then .nan else .val (elemVal op (numTerms l))

/-- Operands in order: the first in format A, the others in format B, but for the third operand of a fused multiply-add, which
is in format A. -/
def readElems (e : RunEnv) (c : CellRec) (cell : Fin 64) (k : Nat) : List Opnd → Rx → List Num × Rx
  | [], r => ([], r)
  | x :: xs, r =>
    let (v, r) := readValue e c cell (if k = 0 ∨ k = 2 then c.fmtA.toNat else c.fmtB.toNat) x r
    let (vs, r) := readElems e c cell (k + 1) xs r
    (v :: vs, r)

/-- The results of a row's elements. -/
def elemRow (e : RunEnv) (c : CellRec) (cell : Fin 64) (op : Elem) : List (List Opnd × Opnd) → Rx → List Num × Rx
  | [], r => ([], r)
  | x :: xs, r =>
    let (vs, r) := readElems e c cell 0 x.1 r
    let (ys, r) := elemRow e c cell op xs r
    (elemNum op vs :: ys, r)

def doElem (e : RunEnv) (c : CellRec) (cell : Fin 64) (op : Elem) (row : List (List Opnd × Opnd)) (r : Rx) : Rx :=
  let (vs, r) := elemRow e c cell op row r
  putRow e c cell (row.map Prod.snd) vs r

/-! ## Transcendental functions (R90, R131, R135) -/

def h16Max : Nat := 0x7BFF
def signedMax (neg : Bool) : Nat := if neg then 0x8000 + h16Max else h16Max

/-- The cases of R90 and the exact results: code and class. -/
def transExact (f : Trans) (x : Dy) : Option (Nat × Class) :=
  let neg := decide (x.m < 0)
  match f with
  | .recip =>
    if x.isZero then some (h16Max, .crab)
    else if (x.abs).le ⟨256, -24⟩ then some (signedMax neg, .crab) else none
  | .rsqrt => if x.isZero then some (h16Max, .crab) else if neg then some (FloatP.h16.nanCode, .nan) else none
  | .log =>
    if x.isZero then some (signedMax true, .crab)
    else if neg then some (FloatP.h16.nanCode, .nan)
    else if (x.sub (.ofInt 1)).isZero then some (0, .plain) else none
  | .exp =>
    if x.isZero then some (0x3C00, .plain)
    else if (Dy.mk 1420 (-7)).le x then some (h16Max, .crab)
    else if x.le ⟨-1110, -6⟩ then some (0, .feather) else none
  | .cos => if x.isZero then some (0x3C00, .plain) else none
  | .sin | .silu | .gelu => if x.isZero then some (0, .plain) else none

/-- Write an element whose code and class are found. -/
def putWritten (e : RunEnv) (c : CellRec) (cell : Fin 64) (out : Src) (w : Written) (r : Rx) : Rx :=
  let r := writeElem e c cell 16 out w.code r
  (if w.cls = .nan then { r with nan := true } else r).count e (c.tensor.toNat % 4096) fun k => k.write w

/-- A number rounded once to F32. -/
def f32 (x : Num) : Num := (readCode 10 0 (convertTo 10 0 false x).code).1

def Num.mul : Num → Num → Num
  | .val a, .val b => .val (a.mul b)
  | _, _ => .nan
def Num.add : Num → Num → Num
  | .val a, .val b => .val (a.add b)
  | _, _ => .nan

/-- The value of a transcendental table at the reduced argument of an operand (R189): entry i of 64 covers [i/64, (i + 1)/64), and
the value is c0 + c1·u + c2·u² in F32. The reduced argument is Config.reduced / 2^23, and the sum goes from c2 on, each step
rounded once (notes/assumptions/12). -/
def tableValue (e : RunEnv) (c : CellRec) (cell : Fin 64) (f : Trans) (code : Nat) (r : Rx) : Num :=
  let t := Config.reduced f (BitVec.ofNat 16 code) % 2 ^ 23
  let u : Num := .val ⟨(t % 2 ^ 17 : Nat), -23⟩
  let at_ (k : Nat) : Num := (readCode 10 0 ((r.s.shell e.shell).table.nat (RunEnv.tableAt c cell (t / 2 ^ 17 * 16 + 4 * k)) 4)).1
  f32 (Num.add (at_ 0) (f32 (Num.mul u (f32 (Num.add (at_ 1) (f32 (Num.mul u (at_ 2))))))))

/-- The bound of a transcendental function in ulp (R131). -/
def transUlps : Trans → Nat
  | .silu | .gelu => 2
  | _ => 1

/-- A transcendental function: exact where R90 and R135 settle it; else what the table gives, rounded to H16, inside the bound of
R131 (notes/assumptions/12). -/
def doTrans (e : RunEnv) (c : CellRec) (cell : Fin 64) (f : Trans) (x out : Opnd) (r : Rx) : Rx :=
  let (code, r) := readElem e c cell 16 x.at_ r
  let (v, r) := readValue e c cell 9 x r
  let nan : Written := ⟨FloatP.h16.nanCode, .nan, none⟩
  match v with
  | .val d =>
    match transExact f d with
    | some (w, cl) => putWritten e c cell out.at_ ⟨w, cl, none⟩ r
    | none =>
      match tableValue e c cell f code r with
      | .val p =>
        let w := Config.restored f (BitVec.ofNat 16 code) (w32 (toFloat .f32 p).1)
        putWritten e c cell out.at_ (boundedWrite .h16 (transUlps f) (transOf f d) w.toNat) r
      | _ => putWritten e c cell out.at_ nan r
  | _ => putWritten e c cell out.at_ nan r

def putAll (e : RunEnv) (c : CellRec) (cell : Fin 64) : List (Opnd × Written) → Rx → Rx
  | [], r => r
  | (o, w) :: l, r => putAll e c cell l (putWritten e c cell o.at_ w r)

def Dy.pair (x : Dy) : Int × Int := (x.m, x.e)

/-- softmax of a row, each element within 2 ulp of B16; a NaN in the row makes every element NaN (R89, R131, R135). -/
def doSoftmax (e : RunEnv) (c : CellRec) (cell : Fin 64) (row : List (Opnd × Opnd)) (r : Rx) : Rx :=
  let (vs, r) := readValues e c cell c.fmtA.toNat (row.map Prod.fst) r
  let xs := numTerms vs
  let f : FloatP := ⟨7, 8, 127, true⟩
  let ws := if anyNan vs then vs.map fun _ => (⟨f.nanCode, .nan, none⟩ : Written)
    else (softmaxOf xs).zipIdx.map fun p => boundedWrite f 2 p.1 (Config.freeRow false (xs.map Dy.pair) p.2).toNat
  putAll e c cell ((row.map Prod.snd).zip ws) r

/-- RMS normalisation of a row, each element within 3 ulp of H16. DESIGN CHOICE (notes/assumptions/12): R90 and R135 give no result where
(1/n) · Σ x² + ε is not above 0, which a negative ε or a row of zeros brings about: the code is then free, and counts as plain. -/
def doNormalise (e : RunEnv) (c : CellRec) (cell : Fin 64) (row : List (Opnd × Opnd × Opnd)) (eps : Src) (r : Rx) : Rx :=
  let (xs, r) := readValues e c cell 9 (row.map fun p => p.1) r
  let (gs, r) := readValues e c cell 9 (row.map fun p => p.2.1) r
  let (ep, r) := readValue e c cell 10 { at_ := eps } r
  let q := match ep with | .val ε => meanSquare (numTerms xs) ε | _ => .zero
  let bad := anyNan xs || ep == .nan
  let free := Config.freeRow true ((numTerms (ep :: xs ++ gs)).map Dy.pair)
  let one (p : (Num × Num) × Nat) : Written :=
    match p.1 with
    | (.val x, .val g) => if bad then ⟨FloatP.h16.nanCode, .nan, none⟩
      else if q.isZero || q.lt .zero then ⟨(free p.2).toNat, .plain, none⟩
      else boundedWrite .h16 3 ((g.mul x).mul (rsqrtOf q)) (free p.2).toNat
    | _ => ⟨FloatP.h16.nanCode, .nan, none⟩
  putAll e c cell ((row.map fun p => p.2.2).zip ((xs.zip gs).zipIdx.map one)) r

/-! ## Reductions (R47) -/

/-- The smallest exponent of the terms that are not 0. -/
def leastExp (ts : List Dy) : Int := match ts.filter fun t => !t.isZero with | [] => 0 | t :: l => l.foldl (fun m t => min m t.e) t.e

/-- The accumulator that a sum of some terms forms by itself: an A64 for integers, an A96 under the float anchor otherwise (R92, R93). -/
def sumAcc (int : Bool) (ts : List Dy) (nan : Bool) : Acc :=
  { terms := ts, nan := nan, wide := !int, anchor := if int then some (leastExp ts) else none }

/-- The terms of a sum reduction enter the cell's first accumulator, beside what partials have left there (R47, R133). -/
def Acc.enter (a : Acc) (new : Acc) : Acc :=
  if a.terms.isEmpty then { new with nan := a.nan || new.nan } else if a.joined then a.join new
  else { a with terms := a.terms ++ new.terms, nan := a.nan || new.nan, wide := a.wide || new.wide
                anchor := match a.anchor, new.anchor with | some l, some m => some (min l m) | _, _ => none }

/-- A reduction of a row. A maximum leaves as a row of one element. A sum stays in the cell's first accumulator, from where it may go
on as a partial; with DRAIN what then stands there leaves as a row of one element (R47, R56, R133). -/
def doReduce (e : RunEnv) (c : CellRec) (cell : Fin 64) (mx : Bool) (ins : List Opnd) (out : Opnd) (r : Rx) : Rx :=
  let (vs, r) := readValues e c cell c.fmtA.toNat ins r
  let ts := numTerms vs
  if mx then
    putRow e c cell [out] [if anyNan vs then .nan
      else .val (match ts with | [] => .zero | t :: tl => tl.foldl (fun b t => if b.lt t then t else b) t)] r
  else
    let k := accKey cell 0
    let a := (r.acc e k).enter (sumAcc (isInt c.fmtA.toNat) ts (anyNan vs))
    if e.drain then
      let (n, l, o) := a.content
      putRow e c cell [out] [if a.nan then .nan else .val ⟨n, l⟩] ((r.dropAcc e k).overflow e c o)
    else r.setAcc e k a

/-! ## Permutes, butterflies, rows, top-k -/

/-- Eight-byte units move unchanged (R43, R51). -/
def doMoves (e : RunEnv) : List ((Fin 16 × Nat) × (Fin 16 × Nat)) → Rx → Rx
  | [], r => r
  | ((f, k), (g, j)) :: l, r =>
    let (b, r) := readBytes e f (8 * k) 8 r
    doMoves e l (writeBytes e g (8 * j) b r)

/-- The link of cell n to its neighbour on a side (R40). -/
def linkKey (n side : Nat) : Nat := 4 * n + side

/-- What comes to a cell from its neighbour on a side. -/
def linkIn (e : RunEnv) (n side : Nat) (r : Rx) : W64 :=
  match neighbour n side with
  | some m => (Tab.get? (r.s.shell e.shell).links (linkKey m (opposite side))).getD 0#64
  | none => 0#64

/-- What a pass cell takes in a stroke from the source that its first non-zero byte of IN names, given for a side. DESIGN CHOICE
(notes/assumptions/11): R51 names the accumulator path, 0x30, as a source and says neither which accumulator nor which bits, and by R97
no accumulator leaves a cell but through a conversion: the bits are free. -/
def passTake (e : RunEnv) (c : CellRec) (cell : Fin 64) (stroke : Nat) (b : Byte) (side : Nat) (r : Rx) : List Byte × Rx :=
  let feed (f : Nat) (r : Rx) : List Byte × Rx :=
    let f : Fin 16 := ⟨f % 16, Nat.mod_lt _ (by decide)⟩
    let w := (e.feed f).bytesPerStroke.toNat
    let (l, r) := readBytes e f (stroke * w) w r
    (l ++ List.replicate (8 - w) 0#8, r)
  if 1 ≤ b.toNat ∧ b.toNat ≤ 4 then (leBytes (linkIn e cell.val (b.toNat - 1) r).toNat 8, r)
  else if b.toNat / 16 = 1 then feed b.toNat r
  else if b = 0x20#8 then ((r.s.shell e.shell).table.range (RunEnv.tableAt c cell (8 * stroke)) 8, r)
  else if b = 0x30#8 then (let (b, s) := freeBytes 8 r.s; (b, { r with s := s }))
  else match e.frame.feedsAt cell.val side 0 with
    | f :: _ => feed f r
    | [] => (leBytes (linkIn e cell.val side r).toNat 8, r)

/-- The same bits on the destination that a byte of OUT names for a side. DESIGN CHOICE (notes/assumptions/11): R51 names the accumulator
path, 0x30, as a destination and gives no accumulator and no format for it; what goes there is dropped. -/
def passPut (e : RunEnv) (c : CellRec) (cell : Fin 64) (stroke : Nat) (l : List Byte) (b : Byte) (side : Nat) (r : Rx) : Rx :=
  let link (s : Nat) (r : Rx) : Rx := r.mapShell e fun x => { x with links := Tab.set x.links (linkKey cell.val s) (w64At l 0) }
  let feed (f : Nat) (r : Rx) : Rx :=
    let f : Fin 16 := ⟨f % 16, Nat.mod_lt _ (by decide)⟩
    let w := (e.feed f).bytesPerStroke.toNat
    writeBytes e f (stroke * w) (l.take w) r
  if b = 0#8 ∨ b = 0x30#8 then r
  else if b.toNat ≤ 4 then link (b.toNat - 1) r
  else if b.toNat / 16 = 1 then feed b.toNat r
  else if b = 0x20#8 then r.mapShell e fun x => { x with table := x.table.put (RunEnv.tableAt c cell (8 * stroke)) l }
  else match e.frame.feedsAt cell.val side 1 with
    | f :: _ => feed f r
    | [] => link side r

def passPuts (e : RunEnv) (c : CellRec) (cell : Fin 64) (stroke : Nat) (l : List Byte) : List (Byte × Nat) → Rx → Rx
  | [], r => r
  | (b, side) :: bs, r => passPuts e c cell stroke l bs (passPut e c cell stroke l b side r)

/-- A pass cell in one stroke (R51). -/
def doPass (e : RunEnv) (c : CellRec) (cell : Fin 64) (stroke : Nat) (r : Rx) : Rx :=
  match c.inSel.zipIdx.find? fun p => p.1 != 0#8 with
  | some (b, side) =>
    let (l, r) := passTake e c cell stroke b side r
    passPuts e c cell stroke l c.outSel.zipIdx r
  | none => r

/-- Outputs of a cell that are no operands of a row leave as one row, whose exponent goes to the feed at the cell's exponent port (R108,
R126). -/
def putLine (e : RunEnv) (c : CellRec) (cell : Fin 64) (outs : List Src) (vs : List Num) (r : Rx) : Rx :=
  let f : Option (Fin 16) := (e.frame.feedsOut (some 0x22#8) cell.val).head?.map fun k => ⟨k % 16, Nat.mod_lt _ (by decide)⟩
  putRow e c cell (outs.map fun o => { at_ := o, exp := f }) vs r

/-- a ± w·b, each component summed exactly under the float anchor and rounded once (R131). -/
def doButterfly (e : RunEnv) (c : CellRec) (cell : Fin 64) (a b w sum diff : Src × Src) (r : Rx) : Rx :=
  let (vs, r) := readNums e c cell 9 [a.1, a.2, b.1, b.2, w.1, w.2] r
  let comp (x y z : Num) (sy sz : Bool) (p q : Num) : Num :=
    match x, y, p, z, q with
    | .val x, .val y, .val p, .val z, .val q =>
      let s (neg : Bool) (d : Dy) : Dy := if neg then d.neg else d
      let ts := [x, s sy (p.mul y), s sz (q.mul z)]
      let l := floatAnchor ts
      .val ⟨(accumulate .a96 l ts).1, l⟩
    | _, _, _, _, _ => .nan
  match vs with
  | [ar, ai, br, bi, wr, wi] =>
    putLine e c cell [sum.1, sum.2, diff.1, diff.2] [comp ar br bi false true wr wi, comp ai bi br false false wr wi,
      comp ar br bi true false wr wi, comp ai bi br true true wr wi] r
  | _ => r

/-- A row address by index: BASE + index × STRIDE of the row feed's generator, in bytes of SRAM or units of the Course
(notes/assumptions/11). -/
def rowEnv (e : RunEnv) (f : Fin 16) (index : Nat) : RunEnv :=
  let ag := e.agOf f
  let g := e.gens[ag]
  let base := BitVec.ofInt 37 ((g.base.toNat : Int) + (index : Int) * g.stride.toInt)
  { e with gens := put e.gens ag { g with base := base, stride := 1#37, wrap := 0#37, inner := 0#37, outer := 0#37, step := 0 }, ahead := [] }

def doGather (e : RunEnv) (c : CellRec) (cell : Fin 64) (scatter wide : Bool) (index : Src) (data : Fin 16 × Nat) (rowFeed : Fin 16)
    (bytes : Nat) (r : Rx) : Rx :=
  let (i, r) := readElem e c cell (if wide then 32 else 16) index r
  let re := rowEnv e rowFeed i
  if scatter then
    let (b, r) := readBytes e data.1 data.2 bytes r
    writeBytes re rowFeed 0 b r
  else
    let (b, r) := readBytes re rowFeed 0 bytes r
    writeBytes e data.1 data.2 b r

/-- The counter-based random source (R48). -/
def spinner (key counter : W64) : BitVec 24 :=
  let x := (List.range 6).foldl (fun (x : W64) k =>
    let x := x + key + BitVec.ofNat 64 (k * 0x9E3779B9)
    let x := x * 0xBF58476D1CE4E5B9#64
    x ^^^ (x >>> 31)) counter
  (x >>> 40).setWidth 24

def spinCounter (seq : W32) (w e : Nat) : W64 := BitVec.ofNat 64 (seq.toNat % 2 ^ 24 * 2 ^ 40 + w % 4096 * 2 ^ 28 + e % 2 ^ 28)

/-- x ranks above y: a number above NaN, the larger number first (R90). -/
def ranksAbove (x y : Num) : Bool :=
  match x, y with
  | .val a, .val b => b.lt a
  | .val _, _ => true
  | _, _ => false

/-- The best of the scores still there: the first among equals. -/
def bestOf : List (Nat × Num) → Option (Nat × Num)
  | [] => none
  | p :: l => match bestOf l with
    | some q => some (if ranksAbove q.2 p.2 then q else p)
    | none => some p

/-- The k best, in order. -/
def topOf : Nat → List (Nat × Num) → List (Nat × Num)
  | 0, _ => []
  | k + 1, l => match bestOf l with
    | some p => p :: topOf k (l.filter fun q => q.1 != p.1)
    | none => []

/-- Sampling noise, within 2 ulp of g, is added to each score in F32 with one rounding (R48, R131). -/
def addNoise (e : RunEnv) : List (Nat × Num) → Rx → List (Nat × Num) × Rx
  | [], r => ([], r)
  | (k, x) :: l, r =>
    let v := spinner e.spinKey (spinCounter e.seq e.pc k)
    let g := (readCode 10 0 (boundedWrite .f32 2 (noiseOf v) (Config.freeNoise v).toNat).code).1
    let (t, r) := addNoise e l r
    ((k, f32 (Num.add x g)) :: t, r)

/-- DESIGN CHOICE (notes/assumptions/11): an index is written 32 bits wide. -/
def putIndices (e : RunEnv) (c : CellRec) (cell : Fin 64) : List (Src × Nat) → Rx → Rx
  | [], r => r
  | (o, k) :: l, r => putIndices e c cell l (writeElem e c cell 32 o k r)

/-- DESIGN CHOICE (notes/assumptions/11): in sampling mode the score that is returned is the score without g. -/
def doTopk (e : RunEnv) (c : CellRec) (cell : Fin 64) (sample : Bool) (scores idx outs : List Src) (r : Rx) : Rx :=
  let (vs, r) := readNums e c cell c.fmtA.toNat scores r
  let l := vs.zipIdx.map fun p => (p.2, p.1)
  let r := if anyNan vs then { r with nan := true } else r
  let (ranked, r) := if sample then addNoise e l r else (l, r)
  let best := topOf (if sample then 1 else c.param.toNat % 128) ranked
  let r := putIndices e c cell (idx.zip (best.map Prod.fst)) r
  putLine e c cell outs (best.map fun p => vs.getD p.1 .nan) r

/-! ## The optimiser stage (R168, R169) and drawn rows (R170) -/

def Num.ofWord (w : W32) : Num := (readCode 10 0 w.toNat).1
def Num.neg : Num → Num
  | .val a => .val a.neg
  | n => n
/-- x with the sum or the product rounded once to F32. -/
def Num.addF (x y : Num) : Num := f32 (Num.add x y)
def Num.mulF (x y : Num) : Num := f32 (Num.mul x y)
def Num.below (x y : Num) : Bool := match x, y with | .val a, .val b => a.lt b | _, _ => false

/-- The constants of a step: β1, β2, ε, U and η_t. -/
structure OptConst where
  b1 : Num
  b2 : Num
  eps : Num
  u : Num
  eta : Num

def RunEnv.optConst (e : RunEnv) : OptConst :=
  { b1 := .ofWord e.consts[0], b2 := .ofWord e.consts[1], eps := .ofWord e.consts[3], u := .ofWord e.consts[4], eta := .ofWord e.etaT }

/-- m1 and v1 of an element, unquantised; every operation in F32. -/
def optMoments (k : OptConst) (g m v : Num) : Num × Num :=
  let one : Num := .val (.ofInt 1)
  (Num.addF (Num.mulF k.b1 m) (Num.mulF (Num.addF one k.b1.neg) g),
   Num.addF (Num.mulF k.b2 v) (Num.mulF (Num.mulF (Num.addF one k.b2.neg) g) g))

/-- k of a row: half of floor(log2) of its largest v1 + ε, rounded down. DESIGN CHOICE (notes/assumptions/33): 0 where that is not above
0, for which the rule gives none. -/
def optShift (vs : List Num) : Int :=
  let big := (numTerms vs).foldl (fun b t => if b.lt t then t else b) Dy.zero
  if big.isZero then 0 else big.log2 / 2

/-- w1 before its conversion: the step is held to ±U · η_t. -/
def optStep (k : OptConst) (w m1 r : Num) : Num :=
  let d := Num.mulF (Num.mulF k.eta m1) r
  let lim := Num.mulF k.u k.eta
  let d := if lim.below d then lim else d
  let d := if d.below lim.neg then lim.neg else d
  Num.addF w d.neg

/-- r of an element: the H16 rsqrt of its scaled argument, within 1 ulp as the transcendental function has it (R131), and the exact shift
back; a result that is a crab or NaN counts as one. -/
def optRsqrt (e : RunEnv) (c : CellRec) (cell : Fin 64) (k : Int) (x : Num) (r : Rx) : Num × Rx :=
  let code := (convertTo 9 0 false (scaleNum (-2 * k) x)).code
  let w : Written := match (readCode 9 0 code).1 with
    | .val d =>
      match transExact .rsqrt d with
      | some (w, cl) => ⟨w, cl, none⟩
      | none => match tableValue e c cell .rsqrt code r with
        | .val p => boundedWrite .h16 1 (rsqrtOf d) (Config.restored .rsqrt (BitVec.ofNat 16 code) (w32 (toFloat .f32 p).1)).toNat
        | _ => ⟨FloatP.h16.nanCode, .nan, none⟩
    | _ => ⟨FloatP.h16.nanCode, .nan, none⟩
  (scaleNum (-k) (readCode 9 0 w.code).1,
   (if w.cls = .nan then { r with nan := true } else r).count e (c.tensor.toNat % 4096) fun n => n.write w)

def optRsqrts (e : RunEnv) (c : CellRec) (cell : Fin 64) (k : Int) : List Num → Rx → List Num × Rx
  | [], r => ([], r)
  | x :: xs, r =>
    let (y, r) := optRsqrt e c cell k x r
    let (ys, r) := optRsqrts e c cell k xs r
    (y :: ys, r)

/-- The cell's record as it writes one of the three new tensors: the format, and the tensor of the outputs' feed. -/
def RunEnv.optCell (e : RunEnv) (c : CellRec) (fmt : BitVec 4) (outs : List Opnd) : CellRec :=
  { c with fmtO := fmt, tensor := BitVec.ofNat 16 ((outs.head?.bind fun o => e.tensorOf c o.at_).getD (c.tensor.toNat % 4096)) }

/-- The optimiser stage over one row: the step uses the unquantised m1 and v1, and then writes m1 in I8, v1 in U8Z and w1 in H16 (R168,
R169). -/
def doOptimise (e : RunEnv) (c : CellRec) (cell : Fin 64) (row : List OptElem) (r : Rx) : Rx :=
  let k := e.optConst
  let (gs, r) := readValues e c cell 6 (row.map (·.g)) r
  let (ms, r) := readValues e c cell 3 (row.map (·.m)) r
  let (vs, r) := readValues e c cell 4 (row.map (·.v)) r
  let (ws, r) := readValues e c cell 9 (row.map (·.w)) r
  let mv := (gs.zip (ms.zip vs)).map fun x => optMoments k x.1 x.2.1 x.2.2
  let veps := mv.map fun x => Num.addF x.2 k.eps
  let (rs, r) := optRsqrts e c cell (optShift veps) veps r
  let w1 := (ws.zip (mv.zip rs)).map fun x => optStep k x.1 x.2.1.1 x.2.2
  let put (fmt : BitVec 4) (outs : List Opnd) (xs : List Num) (r : Rx) : Rx := putRow e (e.optCell c fmt outs) cell outs xs r
  put 9#4 (row.map (·.w1)) w1 (put 4#4 (row.map (·.v1)) (mv.map Prod.snd) (put 3#4 (row.map (·.m1)) (mv.map Prod.fst) r))

/-- A row drawn from the spinner, scaled by the plan (R48, R170). -/
def doSpin (e : RunEnv) (c : CellRec) (cell : Fin 64) (scale : Src) (row : List Opnd) (r : Rx) : Rx :=
  let (s, r) := readValue e c cell 10 { at_ := scale } r
  putRow e c cell row (row.zipIdx.map fun p => Num.mulF s (.ofWord (Config.drawn (spinner e.spinKey (spinCounter e.seq e.pc p.2))))) r

/-! ## What the frame lets a cell do (R15, R43, R44, R46, R50, R51, R56, R109, R119) -/

def RunEnv.cell (e : RunEnv) (n : Fin 64) : CellRec := e.frame.cell.getD n.val (parseCell [])

/-- The cell takes part in the RUN's phase with one of some functions. -/
def RunEnv.plays (e : RunEnv) (n : Fin 64) (fs : List Nat) : Bool :=
  e.frame.cells.getLsbD n.val && (e.cell n).phases.getLsbD e.phase && fs.contains (e.cell n).func.toNat

/-- A feed brings operands to the cell, or takes its results, by the selectors of the frame. -/
def RunEnv.takes (e : RunEnv) (n : Fin 64) (f : Fin 16) : Bool := (e.frame.feedsIn none n.val).contains f.val
def RunEnv.gives (e : RunEnv) (n : Fin 64) (f : Fin 16) : Bool := (e.frame.feedsOut none n.val).contains f.val

/-- A feed joins an array to the cell's side-list port, selector 0x21, or a vector to its exponent port, 0x22 (R51, R108, R114). -/
def RunEnv.sideIn (e : RunEnv) (n : Fin 64) (f : Fin 16) : Bool := (e.frame.feedsIn (some 0x21#8) n.val).contains f.val
def RunEnv.sideOut (e : RunEnv) (n : Fin 64) (f : Fin 16) : Bool := (e.frame.feedsOut (some 0x21#8) n.val).contains f.val
def RunEnv.expIn (e : RunEnv) (n : Fin 64) (f : Fin 16) : Bool := (e.frame.feedsIn (some 0x22#8) n.val).contains f.val
def RunEnv.expOut (e : RunEnv) (n : Fin 64) (f : Fin 16) : Bool := (e.frame.feedsOut (some 0x22#8) n.val).contains f.val

/-- The feed carries a tensor with an exponent vector: MODE 1 or 2 (R108). -/
def RunEnv.scaled (e : RunEnv) (c : CellRec) : Src → Bool
  | .feed f k => ((e.tensorOf c (.feed f k)).bind e.tensor?).any fun t => t.mode.val == 1 || t.mode.val == 2
  | .table _ => false

/-- An element of some bits comes from a feed of the cell, or lies in its table-store window. -/
def RunEnv.srcOk (e : RunEnv) (n : Fin 64) (way : Fin 16 → Bool) (bits : Nat) : Src → Bool
  | .feed f _ => way f
  | .table k => decide ((k + 1) * bits ≤ 8 * (e.cell n).window)

def RunEnv.inOk (e : RunEnv) (n : Fin 64) (fmt : Nat) (o : Opnd) : Bool :=
  e.srcOk n (e.takes n) (fmtBits fmt) o.at_ && (o.side.all fun s => e.sideIn n s.feed) && o.exp.all (e.expIn n)

/-- An operand that is read by its represented value: that of a tensor with an exponent vector has its row exponent (R108). -/
def RunEnv.valueOk (e : RunEnv) (n : Fin 64) (fmt : Nat) (o : Opnd) : Bool :=
  e.inOk n fmt o && (!e.scaled (e.cell n) o.at_ || o.exp.isSome)

/-- An output; in an integer format it carries a row exponent (R108, R126). -/
def RunEnv.outOk (e : RunEnv) (n : Fin 64) (fmt : Nat) (o : Opnd) : Bool :=
  e.srcOk n (e.gives n) (fmtBits fmt) o.at_ && (o.side.all fun s => e.sideOut n s.feed) && o.exp.all (e.expOut n) &&
    (!isInt fmt || o.exp.isSome)

/-- The operands of one scale group: G consecutive elements of the reduction of one row, each once, in the block of the group word
(R113, R114, R121). -/
def CellRec.oneGroup (c : CellRec) (word : Nat) (g : List Opnd) : Bool :=
  match g with
  | [] => true
  | o :: _ =>
    let q := o.pos / c.groupSize
    g.all (fun p => p.row == o.row && p.pos / c.groupSize == q) && noRepeats (g.map (·.pos)) &&
      (if o.row = 0 then word == q else decide (q ≤ word ∧ (word - q) % o.row = 0 ∧ q < (word - q) / o.row))

/-- A group of products: in array mode with GROUP, one scale group of the weights, which carry the group words, with its word (R121); in
table mode, the lookups of one stroke, which use consecutive tables of one block of 32 (R46). DESIGN CHOICE (notes/assumptions/16): a
table-mode cell whose formats are outside R120 is loaded, R120 naming no reaction, and computes on them. -/
def RunEnv.groupOk (e : RunEnv) (n : Fin 64) (g : Group) : Bool :=
  let c := e.cell n
  let (wf, af) := c.tableFmts
  let table := c.func == 0x11#8
  (g.word.isSome == c.groupPath) && g.word.all (fun w => e.sideIn n w.1) &&
  (!c.groupPath || (decide (g.terms.length ≤ c.groupSize) && g.word.all fun w =>
    c.oneGroup w.2 (g.terms.map (·.b)) &&
      g.terms.all fun t => t.a.pos == t.b.pos && t.b.side.all fun s => s.feed == w.1 && t.b.block c s == w.2)) &&
  (g.terms.all fun t => e.inOk n (if table then af else c.fmtA.toNat) t.a && e.inOk n (if table then wf else c.fmtB.toNat) t.b &&
    (t.tab.isSome == (table && wf != 0)) && t.tab.all (fun j => decide ((j + 1) * tableSize wf ≤ c.window))) &&
  (!table || (decide (g.terms.length ≤ (if wf = 0 then 64 else 32)) && g.terms.all fun t => g.terms.all fun u =>
    match t.tab, u.tab with | some i, some j => i / 32 == j / 32 | _, _ => true))

/-- The products of a row, and the row's exponents: those of the rows that its operands belong to (R108). -/
def Row.products (x : Row) : List Term := x.groups.flatMap (·.terms)

def RunEnv.expsOk (e : RunEnv) (n : Fin 64) (x : Row) : Bool :=
  let fits (exp : Option (Fin 16 × Nat)) (o : Opnd) : Bool :=
    (!e.scaled (e.cell n) o.at_ || exp.isSome) && exp.all fun p => p.2 == o.row
  (x.expA.all fun p => e.expIn n p.1) && (x.expB.all fun p => e.expIn n p.1) && x.products.all fun t => fits x.expA t.a && fits x.expB t.b

/-- The strides of a convolution's outputs in its input: corresponding operands of two outputs lie a multiple of STRIDE apart (R51). -/
def strideOk (c : CellRec) (rows : List Row) : Bool :=
  c.func != 0x40#8 || rows.all fun x => rows.all fun y => (x.products.zip y.products).all fun t =>
    ((t.1.a.at_.index : Int) - (t.2.a.at_.index : Int)) % ((c.param.toNat / 256 % 4 : Nat) : Int) == 0

/-- The rows of one channel of an array-mode cell: one token each, within the tile of R44, and the channel's weights alike for all. An
accumulator's index is channel · TILE_T + token (notes/assumptions/11). -/
def channelOk (c : CellRec) (rows : List Row) : Bool :=
  c.func != 0x10#8 ||
    let t := c.tileT.toNat
    decide (t ≤ c.tileMax.1 ∧ c.tileC.toNat ≤ c.tileMax.2) && noRepeats (rows.map fun x => x.acc.val) &&
    rows.all fun x => rows.all fun y => x.acc.val / t == y.acc.val / t &&
      (x.groups.isEmpty || y.groups.isEmpty || x.products.map (·.b) == y.products.map (·.b))

/-- A row of a channel: an accumulator of the tile (R44), no more products than the RUN's strokes bring, or than PARAM's kernel, taps
or a biquad section have; and an output only where the flow drains (R45, R56). -/
def RunEnv.rowOk (e : RunEnv) (n : Fin 64) (x : Row) : Bool :=
  let c := e.cell n
  let terms := x.products.length
  x.groups.all (e.groupOk n) && e.expsOk n x &&
  (match c.func.toNat with
    | 0x10 => decide (x.acc.val < c.accumulators ∧ x.acc.val < c.tileT.toNat * c.tileC.toNat ∧ terms ≤ e.count * c.steps)
    | 0x40 =>
      let k := c.param.toNat % 16 * (c.param.toNat / 16 % 16)
      if c.param.getLsbD 10 then decide (terms ≤ k) else decide (terms ≤ k * e.count ∧ terms ≤ c.convMacs * e.count)
    | 0x50 => decide (terms ≤ c.param.toNat)
    | 0x51 => decide (terms ≤ 5)
    | _ => true) &&
  x.out.all fun o => e.outOk n c.fmtO.toNat o &&
    (e.drain || decide (2 ≤ c.tiles e.count))

/-- A row that a cell writes: where its tensor is measured or predicted each output has its row's exponent (R108); a measured row has at
most 65,536 elements (R128), and a measured conversion's row is one tile (R105). -/
def RunEnv.lineOk (e : RunEnv) (n : Fin 64) (outs : List Opnd) : Bool :=
  let c := e.cell n
  outs.all (e.outOk n c.fmtO.toNat) && (!([1, 2].contains (rowMode e c)) || outs.all fun o => o.exp.isSome) &&
    (rowMode e c != 1 || (decide (outs.length ≤ 65536) && (!c.converts || outs.length == c.tileElems)))

/-- Outputs that leave as one row, by way of the cell's exponent port where their format or mode gives the row an exponent. -/
def RunEnv.lineOuts (e : RunEnv) (n : Fin 64) (outs : List Src) : Bool :=
  let c := e.cell n
  outs.all (e.srcOk n (e.gives n) (fmtBits c.fmtO.toNat)) &&
    ((!isInt c.fmtO.toNat && !([1, 2].contains (rowMode e c))) || !(e.frame.feedsOut (some 0x22#8) n.val).isEmpty)

/-- Units of eight bytes that a feed carries in the RUN. -/
def RunEnv.units (e : RunEnv) (f : Fin 16) : Nat := e.count * (e.feed f).bytesPerStroke.toNat / 8

/-- A permute hands every unit of a feed in to the unit of the same number of a feed out: the generators' addresses permute (R57;
notes/assumptions/11). -/
def permuteOk (e : RunEnv) (moves : List ((Fin 16 × Nat) × (Fin 16 × Nat))) : Bool :=
  moves.all fun m => m.1.2 == m.2.2 && (List.range (e.units m.1.1)).all fun k => moves.any fun p => p.1 == (m.1.1, k) && p.2.1 == m.2.1

/-- The frame lets a cell do an item: the cell takes part in the phase, has the item's function and operation, and the feeds are on
its routes. What the frame does not let it do is not done (R15; notes/assumptions/11). -/
def itemOk (e : RunEnv) : WorkItem → Bool
  | .channel n rows => e.plays n [0x10, 0x11, 0x40, 0x50, 0x51] && rows.all (e.rowOk n) && channelOk (e.cell n) rows && strideOk (e.cell n) rows
  | .combine n _ from_ => e.plays n [0x10, 0x11, 0x30, 0x40] &&
    let f := (e.cell n).func.toNat
    let tree := (List.finRange 64).filter fun m => m != n && e.plays m [f] && (f == 0x11 || (e.frame.accFrom n.val).contains m.val)
    from_.all (fun p => tree.contains p.1) && tree.all fun m => from_.any fun p => p.1 == m
  | .hop n _ out => e.plays n [0x10, 0x11, 0x30, 0x40, 0x50] && e.srcOk n (e.gives n) 32 out && e.drain
  | .merge n _ ins => e.plays n [0x10, 0x11, 0x30, 0x40, 0x50] && ins.all (e.srcOk n (e.takes n) 32)
  | .build n a j =>
    let c := e.cell n
    e.plays n [0x11] && e.inOk n c.tableFmts.2 a && c.tableFmts.1 != 0 && decide ((j + 1) * tableSize c.tableFmts.1 ≤ c.window)
  | .convert n row =>
    e.plays n [0x20] && (e.cell n).converts && row.all (fun p => e.valueOk n (e.cell n).fmtA.toNat p.1) && e.lineOk n (row.map Prod.snd)
  | .elementwise n row =>
    let c := e.cell n
    e.plays n [0x20] && (match c.elem with
      | some op => row.all fun p => p.1.length == op.arity && p.1.zipIdx.all fun o => e.valueOk n (if o.2 = 0 ∨ o.2 = 2 then c.fmtA.toNat else c.fmtB.toNat) o.1
      | none => false) && e.lineOk n (row.map Prod.snd)
  | .transc n x out => e.plays n [0x21] && (e.cell n).trans.isSome && (e.cell n).fmtO == 9#4 && e.inOk n 9 x && e.outOk n 9 out
  | .softmax n row => e.plays n [0x21] && (e.cell n).softmax && (e.cell n).fmtO == 8#4 &&
    row.length == (e.cell n).tileElems && row.all fun p => e.valueOk n (e.cell n).fmtA.toNat p.1 && e.outOk n 8 p.2
  | .normalise n row eps => e.plays n [0x21] && (e.cell n).normalises && (e.cell n).fmtO == 9#4 && e.srcOk n (e.takes n) 32 eps &&
    row.length == (e.cell n).tileElems && row.all fun p => e.inOk n 9 p.1 && e.inOk n 9 p.2.1 && e.outOk n 9 p.2.2
  | .reduce n ins out => e.plays n [0x30] && decide ((e.cell n).subop.toNat < 2) && ins.all (e.valueOk n (e.cell n).fmtA.toNat) && e.lineOk n [out]
  | .pass n stroke => e.plays n [0x01] && decide (stroke < e.count)
  | .permute n moves => e.plays n [0x31] && permuteOk e moves && moves.all fun m => e.takes n m.1.1 && e.gives n m.2.1
  | .butterfly n a b w sum diff => e.plays n [0x52] && [a, b, w].all (fun p => e.srcOk n (e.takes n) 16 p.1 && e.srcOk n (e.takes n) 16 p.2) &&
    e.lineOuts n [sum.1, sum.2, diff.1, diff.2]
  | .rows n ix data f _ =>
    let out := (e.cell n).func == 0x61#8
    e.plays n [0x60, 0x61] && decide ((e.cell n).subop.toNat < 2) && e.srcOk n (e.takes n) 16 ix &&
      (if out then e.takes n data.1 && e.gives n f else e.takes n f && e.gives n data.1)
  | .optimise n row =>
    let c := e.cell n
    let measures (fmt : BitVec 4) (outs : List Opnd) : Bool :=
      rowMode e (e.optCell c fmt outs) == 1 && outs.all fun o => e.outOk n fmt.toNat o
    e.plays n [0x20] && c.optimises && measures 3#4 (row.map (·.m1)) && measures 4#4 (row.map (·.v1)) &&
      row.all fun x => e.valueOk n 6 x.g && e.valueOk n 3 x.m && e.valueOk n 4 x.v && e.valueOk n 9 x.w && e.outOk n 9 x.w1
  | .spin n scale row => e.plays n [0x20] && (e.cell n).spins && e.srcOk n (e.takes n) 32 scale && e.lineOk n row
  | .topk n scores idx outs =>
    let b := fmtBits (e.cell n).fmtA.toNat
    e.plays n [0x70] && decide ((e.cell n).subop.toNat < 2) && scores.all (e.srcOk n (e.takes n) b) &&
      idx.all (e.srcOk n (e.gives n) 32) && e.lineOuts n outs

/-- The outputs of an item that a side list may serve, by the cell that writes them. -/
def WorkItem.outs : WorkItem → List (Fin 64 × Opnd)
  | .channel n l => l.filterMap fun x => x.out.map fun o => (n, o)
  | .convert n l => l.map fun p => (n, p.2)
  | .elementwise n l => l.map fun p => (n, p.2)
  | .reduce n _ out => [(n, out)]
  | .optimise n l => l.map fun x => (n, x.m1)
  | .spin n _ l => l.map fun o => (n, o)
  | _ => []

/-! ## One item, and all of them -/

def doItem (e : RunEnv) (i : WorkItem) (r : Rx) : Rx :=
  if itemOk e i then
    match i with
    | .channel n rows => doChannel e (e.cell n) n rows r
    | .combine n a l => doCombine e n a l r
    | .hop n a out => doHop e (e.cell n) n a out r
    | .merge n a ins => doMerge e (e.cell n) n a ins r
    | .build n a j => doBuild e (e.cell n) n a j r
    | .convert n row => doConvert e (e.cell n) n row r
    | .elementwise n row => doElem e (e.cell n) n ((e.cell n).elem.getD .add) row r
    | .transc n x out => doTrans e (e.cell n) n ((e.cell n).trans.getD .exp) x out r
    | .softmax n row => doSoftmax e (e.cell n) n row r
    | .normalise n row eps => doNormalise e (e.cell n) n row eps r
    | .reduce n ins out => doReduce e (e.cell n) n (e.cell n).second ins out r
    | .pass n k => doPass e (e.cell n) n k r
    | .permute _ mv => doMoves e mv r
    | .butterfly n a b w sum diff => doButterfly e (e.cell n) n a b w sum diff r
    | .rows n ix data f bytes => doGather e (e.cell n) n ((e.cell n).func == 0x61#8) (e.cell n).second ix data f bytes.val r
    | .optimise n row => doOptimise e (e.cell n) n row r
    | .spin n scale row => doSpin e (e.cell n) n scale row r
    | .topk n scores idx outs => doTopk e (e.cell n) n (e.cell n).second scores idx outs r
  else r

def doItems (e : RunEnv) : List WorkItem → Rx → Rx
  | [], r => r
  | i :: l, r => doItems e l (doItem e i r)

/-- The side blocks of the outputs of a RUN begin empty, each with the first of its elements that the segment writes, or with the first
element of its group: every entry of every block is written (R116). -/
def clearSide (e : RunEnv) : List (Fin 64 × Opnd) → Rx → Rx
  | [], r => r
  | (n, o) :: l, r =>
    let c := e.cell n
    clearSide e l (match o.side with
      | some sd =>
        let k := e.blockPlace c o sd
        if o.pos % c.groupSize = 0 ∨ r.begun.contains k = false then
          writeBytes e sd.feed (c.sideByte false (o.block c sd)) (List.replicate (4 * c.sideCap.toNat) 0#8)
            { r with begun := if r.begun.contains k then r.begun else k :: r.begun }
        else r
      | none => r)

/-- The work of a RUN: side blocks begin empty, then the items in order. -/
def doWork (e : RunEnv) (items : List WorkItem) (r : Rx) : Rx :=
  doItems e items (clearSide e ((items.filter (itemOk e)).flatMap WorkItem.outs) r)

/-! ## The work is whole (R15, R43, R51, R56) -/

def WorkItem.cell : WorkItem → Fin 64
  | .channel n _ | .build n _ _ | .optimise n _ | .spin n _ _ | .convert n _ | .elementwise n _ | .softmax n _ | .pass n _ | .permute n _ => n
  | .combine n _ _ | .hop n _ _ | .merge n _ _ | .transc n _ _ | .normalise n _ _ | .reduce n _ _ | .topk n _ _ _ => n
  | .butterfly n _ _ _ _ _ => n
  | .rows n _ _ _ _ => n

/-- The outputs that leave an accumulator of a cell. -/
def WorkItem.drains (n : Fin 64) (a : Fin 32) : WorkItem → Nat
  | .channel m xs => if m = n then (xs.filter fun x => x.acc == a && x.out.isSome).length else 0
  | .hop m b _ => boolNat (m == n && b == a)
  | _ => 0

/-- Two channels of one tile share each token's activations (R44). -/
def tokensAlike (e : RunEnv) : WorkItem → WorkItem → Bool
  | .channel n xs, .channel m ys =>
    let t := (e.cell n).tileT.toNat
    n != m || (e.cell n).func != 0x10#8 || xs.all fun x => ys.all fun y =>
      decide (y.acc.val / t ≤ x.acc.val / t) || x.acc.val % t != y.acc.val % t || x.groups.isEmpty || y.groups.isEmpty ||
        x.products.map (·.a) == y.products.map (·.a)
  | _, _ => true

/-- The items are the work of the RUN: each is one that the frame lets its cell do, every cell that takes part in the phase has its
work, a pass cell that of every stroke, the channels of a tile share its tokens, and an accumulator gives one output for each tile
that the RUN drains (R15, R44, R45, R51, R56). -/
def workWhole (e : RunEnv) (items : List WorkItem) : Bool :=
  let playing := (List.finRange 64).filter fun n => e.frame.cells.getLsbD n.val && (e.cell n).phases.getLsbD e.phase && (e.cell n).func != 0#8
  items.all (itemOk e) &&
  playing.all (fun n => if (e.cell n).passes then (List.range e.count).all fun k => items.contains (.pass n k)
    else items.any fun i => i.cell == n) &&
  playing.all (fun n => let l := items.filter fun i => i.cell == n; (l.zip (l.drop 1)).all fun p => tokensAlike e p.1 p.2) &&
  playing.all fun n => (List.finRange 32).all fun a =>
    decide (((items.map (WorkItem.drains n a)).foldl (· + ·) 0) ≤ (e.cell n).tiles e.count - boolNat (!e.drain))

/-- With DRAIN, no cell of the phase has kept anything in an accumulator (R56). -/
def drained (e : RunEnv) (r : Rx) : Bool :=
  !e.drain || (r.s.shell e.shell).acc.all fun p =>
    let n : Fin 64 := ⟨p.1 / 32 % 64, Nat.mod_lt _ (by decide)⟩
    !(e.frame.cells.getLsbD n.val && (e.cell n).phases.getLsbD e.phase)

end Sys2Proof.Machine
end

