-- ==== Sys2Proof/Machine/Fabric.lean ====
section
/-! DEFINITION. Stroke programs (R53 to R62), strokes (R24), transfers and streams (R67), decoders (R247, R248), crossings (R31)
and arbiters (R34, R35). -/

namespace Sys2Proof.Machine
open Sys2Proof

/-! ## Stroke words (R53, R56) -/

def wAE (w : W64) : Bool := w.getLsbD 56
def wAtal (w : W64) : Nat := wfld w 48 8
def wAmt (w : W64) : Nat := wfld w 44 4 + 1

def Shell.word (x : Shell) : Option W64 := if x.ended then none else x.prog[x.pc]?

/-- A shell may begin a stroke: its domain is up, the fabric runs, and it is not halted or has strokes of a STEP left (R14, R406,
R443). -/
def State.strokes (s : State) (i : ShellId) : Bool :=
  s.domUp (Dom.shell i) && !s.rail.floor && (!s.str.halted.getLsbD i.val || (match s.str.stepping with | some (j, left, _) => j == i && decide (0 < left) | none => false))

/-- A transfer holds one of a shell's SRAM ports: the shell's stroke waits (R25, R35). -/
def State.sramHeld (s : State) (i : ShellId) : Bool := s.arbBusy (sramPorts i) 16 0

/-- The word at a shell's program counter, when it is of a kind, its wait is satisfied, and the shell may run it and holds its SRAM
ports. -/
def State.wordAt (s : State) (i : ShellId) (kind : Nat) : Option (W64 × LaneId × W32) :=
  let x := s.shell i
  match x.running, x.word with
  | some (l, q), some w =>
    if s.strokes i && s.inService i && wKind w == kind && (wSel w == 0 || x.waited) && !s.sramHeld i then some (w, l, q) else none
  | _, _ => none

/-! ## Strokes (R24, R26) -/

/-- Strokes of a shell are counted: its counter, its heat's, and the activity counters; breakpoints on its counter may hit. -/
def countStrokes (i : ShellId) (n : Nat) (s : State) : State :=
  let c0 := (s.shell i).strokes
  let s := s.setShell i fun (x : Shell) => { x with strokes := x.strokes + BitVec.ofNat 48 n }
  let s := { s with stat := { s.stat with dev := { s.stat.dev with strokes := s.stat.dev.strokes + n } } }
  let s := match (s.shell i).running with
    | some (l, q) =>
      let s := { s with stat := { s.stat with lane := upd s.stat.lane l fun c => { c with strokes := c.strokes + n } } }
      s.setRun l q fun r => { r with strokes := Tab.set r.strokes i.val ((Tab.get? r.strokes i.val).getD 0 + n) }
    | none => s
  let s := match s.str.stepping with
    | some (j, left, ran) => if j = i then { s with str := { s.str with stepping := some (j, left - n, ran + Nat.min n left) } } else s
    | none => s
  strHit (fun b => match b with
    | .stroke j c m => if j = i ∧ 0 < (c - c0).toNat ∧ (c - c0).toNat ≤ n then some m else none
    | _ => none) s

/-- How many of n further strokes a shell completes before it halts: a STEP's strokes run out, or a breakpoint on its stroke counter is
hit (R443, R444). -/
def State.strokesFree (s : State) (i : ShellId) (n : Nat) : Nat :=
  let n := match s.str.stepping with
    | some (j, left, _) => if j = i then Nat.min n left else n
    | none => n
  s.str.slots.toList.foldl (fun n b => match b with
    | some (.stroke j c m) =>
      let d := (c - (s.shell i).strokes).toNat
      if j = i ∧ m ≠ 0#18 ∧ 0 < d then Nat.min n d else n
    | _ => n) n

/-- The strokes of the word at pc that are still to be counted, of n in all: true where the word completes, false where the shell
halts at a stroke boundary before its last stroke (R24). -/
def wordStrokes (i : ShellId) (n : Nat) (s : State) : Bool × State :=
  let need := n - (s.shell i).done
  let k := s.strokesFree i need
  if k = need then (true, countStrokes i need s)
  else (false, (countStrokes i k s).setShell i fun (x : Shell) => { x with done := x.done + k })

/-- The frame in a shell's current slot. -/
def Shell.frame (x : Shell) : Option RigFrame := x.cur.bind fun k => x.slots[k].frame

/-- Strokes that a word occupies (R55). -/
def Shell.wordLen (x : Shell) (w : W64) : Nat :=
  match wKind w with
  | 1 => wfld w 24 20 + 1 + (if w.getLsbD 2 then (x.frame.map (·.drain.toNat)).getD 0 else 0)
  | 2 => if x.cur = some (wNum w 40) then 1 else 200
  | _ => 1

/-- AGA to AGD of a RUN word. -/
def runAgs (w : W64) : List (Fin 16) := [wNum w 16, wNum w 12, wNum w 8, wNum w 4]

/-- Bytes that the feeds of a frame take in a stroke from a generator, which AGA to AGD may name more than once (R57). -/
def feedBytes (f : RigFrame) (ags : List (Fin 16)) (ag : Fin 16) : Nat :=
  f.feed.foldl (fun n d => if ags.getD d.gen.toNat 0 = ag then n + d.bytesPerStroke.toNat else n) 0

/-- Bytes that the feeds in take from a generator in a stroke. -/
def feedBytesIn (f : RigFrame) (ags : List (Fin 16)) (ag : Fin 16) : Nat :=
  feedBytes { f with feed := f.feed.map fun d => if d.dir = 0#8 then d else { d with bytesPerStroke := 0#8 } } ags ag

/-- What a shell's stream has in front of it, and the bytes of it that are used. -/
def Shell.stream (x : Shell) (ag : Fin 16) : Stream := (x.streams.find? fun t => t.ag == ag).getD { ag := ag, ahead := [] }

/-- Strokes of a RUN that take operands; the strokes of its drain take none. -/
def runCount (w : W64) : Nat := wfld w 24 20 + 1

/-- The streamed operands of a RUN's first n strokes have not all arrived (R25, R67). -/
def Shell.starvedAt (x : Shell) (w : W64) (n : Nat) : Bool :=
  wKind w == 1 && (match x.frame with
    | some f => (runAgs w).any fun ag =>
      let t := x.stream ag
      x.ag[ag].streams && feedBytesIn f (runAgs w) ag != 0 &&
        decide (64 * t.ahead.length < t.off + Nat.min n (runCount w) * feedBytesIn f (runAgs w) ag)
    | none => false)

/-- A streamed operand of the RUN's next stroke has not arrived. -/
def Shell.starved (x : Shell) (w : W64) : Bool := x.starvedAt w (x.done + 1)

/-- The shell's next stroke waits (R25, R54, R62, R73): the word's tally is not satisfied, its slot's frame or a streamed operand has
not landed, eight transfers are outstanding, or a transfer holds one of its SRAM ports. -/
def State.strokeWaits (s : State) (i : ShellId) (w : W64) : Bool :=
  let x := s.shell i
  (wSel w != 0 && !x.waited) || (wKind w == 2 && x.slots[wNum w 40].pending) || x.starved w ||
    ((wKind w == 3 || (wKind w == 4 && !w.getLsbD 43)) && decide (8 ≤ x.inbound.length)) ||
    (wKind w == 4 && w.getLsbD 43 && decide (8 ≤ x.outbound.length)) || s.sramHeld i

/-- One stroke of a shell completes; what its checks find is an operand (R373). A word has no more strokes than R55 gives it, and a
stroke that waits does not complete. -/
def stroke (i : ShellId) (f : StrokeFault) (s : State) : State :=
  if !s.inService i then s
  else
    let x := s.shell i
    let s := match x.word with
      | some w =>
        if s.strokes i && decide (x.done < x.wordLen w) && !s.strokeWaits i w then
          ((countStrokes i 1 s).setShell i fun (x : Shell) => { x with done := x.done + 1 }).arbServed (sramPorts i) 16 0
        else s
      | none => s
    strokeFault i f s

def execStroke (sh : ShellId) (f : StrokeFault) (s : State) : Host.Outcome State Fault Refusal := .next (stroke sh f s)

/-- The next word becomes current. -/
def Shell.next (x : Shell) : Shell := { x with pc := x.pc + 1, waited := false, done := 0 }

/-- The Course byte address of a generator's step lies in the decoded view. -/
def AddrGen.inView (g : AddrGen) (i : Nat) : Bool :=
  g.course && (match courseAt (64 * g.addr i) with | .view _ _ => true | _ => false)

/-- The streamed feed of a shell and generator; and the MOVE of a request's number. -/
def DecReq.isStream (i : ShellId) (ag : Fin 16) (r : DecReq) : Bool := r.shell == i && r.ag == ag && r.stream
def DecReq.isMove (n : Option Nat) (r : DecReq) : Bool := !r.stream && n == some r.id

/-- What a decoder serves has ended: it is free again (R247). -/
def freeDecoders (mine : DecReq → Bool) (s : State) : State :=
  let ds := s.mem.decoder.map fun (d : Decoder) => if d.busy.any mine then { d with busy := none, loading := false } else d
  { s with mem := { s.mem with decoder := ds, decQueue := s.mem.decQueue.filter fun r => !mine r } }

/-- The bundle handle of a heat. -/
def State.handleOf (s : State) (l : LaneId) (q : W32) : Option (Fin 16) := ((s.lane l).acceptOf q).map (·.handle)

/-- A request for a decoder joins the queue in the order of issue (R247). -/
def askDecoder (i : ShellId) (ag : Fin 16) (stream : Bool) (h : Fin 16) (s : State) : State :=
  let r : DecReq := { shell := i, ag := ag, stream := stream, id := s.mem.decNext, table := 0, handle := h }
  { s with mem := { s.mem with decNext := s.mem.decNext + 1, decQueue := s.mem.decQueue ++ [r] } }

/-- A decoder serves, or is to serve, the streamed feed of a shell and generator. -/
def State.streamAsked (s : State) (i : ShellId) (ag : Fin 16) : Bool :=
  let mine (r : DecReq) : Bool := r.shell == i && r.ag == ag && r.stream
  s.mem.decQueue.any mine || s.mem.decoder.toList.any fun d => d.busy.any mine

/-- The streams of a flow end but for those of some generators: a unit of which a part is used counts as fetched (R57). -/
def Shell.keepStreams (x : Shell) (ags : List (Fin 16)) : Shell :=
  let (go, stay) := x.streams.partition fun t => !ags.contains t.ag
  { x with
    streams := stay
    ag := go.foldl (fun (v : Vector AddrGen 16) t => upd v t.ag fun g => { g with step := g.step + boolNat (t.off != 0) }) x.ag }

/-- A RUN whose wait is over begins (R67): feeds of the RUN before that it does not go on with end, and with them their decoders (R247);
its streamed feeds in the decoded view ask for decoders, but for those that go on from a chained RUN. -/
def beginRun (i : ShellId) (s : State) : State :=
  let x := s.shell i
  match x.running, x.word with
  | some (l, q), some w =>
    if wKind w = 1 ∧ (wSel w = 0 ∨ x.waited = true) then
      let s := freeDecoders (fun r => r.shell == i && r.stream && !(runAgs w).contains r.ag) (s.setShell i fun x => x.keepStreams (runAgs w))
      let x := s.shell i
      (runAgs w).foldl (fun s ag => if x.ag[ag].streams && x.ag[ag].inView x.ag[ag].step && !s.streamAsked i ag then
        askDecoder i ag true ((s.handleOf l q).getD 0) s else s) s
    else s
  | _, _ => s

/-- A word's work is done: the shell goes on, and a RUN that has no wait begins. -/
def State.goOn (s : State) (i : ShellId) (f : Shell → Shell) : State := beginRun i (s.setShell i f)

/-- AE: the word's add when its work is complete (R54). -/
def wordAdd (l : LaneId) (w : W64) (s : State) : State := if wAE w then s.tallyAdd (laneTally l (wAtal w)) (wAmt w) else s

/-! ## The one-stroke words -/

def seta (i : ShellId) (s : State) : State :=
  match s.wordAt i 5 with
  | some (w, l, _) =>
    let v : BitVec 37 := BitVec.ofNat 37 w.toNat
    let g (g : AddrGen) : AddrGen := match wfld w 37 3 with
      | 0 => { g with base := v, step := 0 }
      | 1 => { g with stride := v, step := 0 }
      | 2 => { g with wrap := v, step := 0 }
      | 3 => { g with inner := v, step := 0 }
      | 4 => { g with outer := v, step := 0 }
      | _ => { g with mode := BitVec.ofNat 2 w.toNat, step := 0 }
    match wordStrokes i 1 s with
    | (true, s) => wordAdd l w ((freeDecoders (DecReq.isStream i (wNum w 40)) s).goOn i fun (x : Shell) =>
      { x with ag := upd x.ag (wNum w 40) g, streams := x.streams.filter fun t => t.ag != wNum w 40 }.next)
    | (false, s) => s
  | none => s

/-- SETA sets one field of an address generator and starts its step counter afresh (R57); a streamed feed of it ends, with its decoder
(R247). -/
def execSetaWord (sh : ShellId) (s : State) : Host.Outcome State Fault Refusal := .next (seta sh s)

def setw (i : ShellId) (s : State) : State :=
  match s.wordAt i 6 with
  | some (w, l, _) =>
    let r : WaitReg := { tally := BitVec.ofNat 8 (wfld w 33 8), target := BitVec.ofNat 16 (wfld w 17 16), step := BitVec.ofNat 16 (wfld w 1 16) }
    let k : Fin 8 := ⟨wfld w 41 3, Nat.mod_lt _ (by decide)⟩
    match wordStrokes i 1 s with
    | (true, s) => wordAdd l w (s.goOn i fun (x : Shell) => { x with wait := put x.wait k r }.next)
    | (false, s) => s
  | none => s

def execSetwWord (sh : ShellId) (s : State) : Host.Outcome State Fault Refusal := .next (setw sh s)

/-- LOOP at level v: below ITER it counts and jumps back; otherwise its counter returns to 0 (R59). -/
def loop (i : ShellId) (s : State) : State :=
  match s.wordAt i 7 with
  | some (w, l, _) =>
    let v : Fin 4 := ⟨wfld w 42 2, Nat.mod_lt _ (by decide)⟩
    let go (x : Shell) : Shell :=
      if x.loops[v] < wfld w 22 20 then
        { x with loops := put x.loops v (x.loops[v] + 1), pc := x.pc - wfld w 6 16, waited := false, done := 0 }
      else { x with loops := put x.loops v 0 }.next
    match wordStrokes i 1 s with
    | (true, s) => wordAdd l w (s.goOn i go)
    | (false, s) => s
  | none => s

def execLoopWord (sh : ShellId) (s : State) : Host.Outcome State Fault Refusal := .next (loop sh s)

def mark (i : ShellId) (s : State) : State :=
  match s.wordAt i 8 with
  | some (w, l, _) =>
    match wordStrokes i 1 s with
    | (true, s) => wordAdd l w (s.goOn i Shell.next)
    | (false, s) => s
  | none => s

def execMarkWord (sh : ShellId) (s : State) : Host.Outcome State Fault Refusal := .next (mark sh s)

/-- A waiting word's register is satisfied: its target advances and the word proceeds (R54, R58). -/
def waitSatisfied (i : ShellId) (s : State) : State :=
  let x := s.shell i
  match x.running, x.word with
  | some (l, _), some w =>
    let k := wSel w
    let r := x.wait[k]
    if s.strokes i && k != 0 && !x.waited && satisfied (s.tally (laneTally l r.tally.toNat)) r.target then
      s.goOn i fun (x : Shell) => { x with waited := true, wait := upd x.wait k fun r => { r with target := r.target + r.step } }
    else s
  | _, _ => s

def execWaitSatisfied (sh : ShellId) (s : State) : Host.Outcome State Fault Refusal := .next (waitSatisfied sh s)

/-- END completes once every transfer and streamed write of the shell is acknowledged (R55); a streamed feed left by a chained RUN ends with
it, and its decoder is free (R247). -/
def endWord (i : ShellId) (s : State) : State :=
  match s.wordAt i 0 with
  | some (w, l, q) =>
    let x := s.shell i
    if x.inbound.isEmpty && x.outbound.isEmpty then
      match wordStrokes i 1 s with
      | (true, s) =>
        let s := (freeDecoders (fun r => r.shell == i && r.stream) s).setShell i fun (x : Shell) => { x.next with ended := true, streams := [] }
        wordAdd l w (s.setRun l q fun r =>
          let r := { r with open_ := r.open_.filter (· != i) }
          if r.open_.isEmpty then r.pause s.steady else r)
      | (false, s) => s
    else s
  | none => s

def execEndWord (sh : ShellId) (s : State) : Host.Outcome State Fault Refusal := .next (endWord sh s)

/-! ## Rigs (R49, R55, R62) -/

/-- RIG selects a slot: it waits for the slot's LDRIG, and a slot that holds no frame is a shell fault. -/
def rig (i : ShellId) (s : State) : State :=
  match s.wordAt i 2 with
  | some (w, l, _) =>
    let k := wNum w 40
    let x := s.shell i
    let slot := x.slots[k]
    if slot.pending then s
    else if slot.frame.isNone then fenceShell i (some .reservedKind) s
    else match wordStrokes i (x.wordLen w) s with
      | (true, s) => wordAdd l w (s.goOn i fun (x : Shell) => { x with cur := some k }.next)
      | (false, s) => s
  | none => s

def execRigWord (sh : ShellId) (s : State) : Host.Outcome State Fault Refusal := .next (rig sh s)

def wordAddTo (w : W64) : Option (Byte × Nat) := if wAE w then some (BitVec.ofNat 8 (wAtal w), wAmt w) else none

/-- LDRIG issues the load of a frame; a frame that its slot already holds from the same bundle takes no transfer. -/
def ldrig (i : ShellId) (s : State) : State :=
  match s.wordAt i 3 with
  | some (w, l, q) =>
    let k := wNum w 40
    let at_ := wfld w 0 38
    let x := s.shell i
    match s.handleOf l q with
    | some h =>
      let held := x.slots[k].frameAt = some (at_, h) ∧ x.slots[k].frame.isSome ∧ x.slots[k].pending = false
      if held ∨ x.inbound.length < 8 then
        match wordStrokes i 1 s with
        | (false, s) => s
        | (true, s) =>
          if held then wordAdd l w (s.goOn i Shell.next)
          else s.goOn i fun (x : Shell) => Shell.next { x with
            slots := put x.slots k ({ frameAt := some (at_, h), frame := none, pending := true } : RigSlot)
            inbound := x.inbound ++ [{ out := false, rig := some k, gl := {}, gr := {}, agr := 0, len := 64, landed := 0
                                       tick := 15#4, addTo := wordAddTo w, frameAt := at_, lstep := 0, rstep := 0 }] }
      else s
    | none => s
  | none => s

def execLdrigWord (sh : ShellId) (s : State) : Host.Outcome State Fault Refusal := .next (ldrig sh s)

/-- n units of the Course for a heat, one after another. -/
def heatUnits (l : LaneId) (q : W32) (unit : Nat) : Nat → State → Option (List Byte) × State
  | 0, s => (some [], s)
  | n + 1, s =>
    match heatRead l q (64 * unit) s with
    | (some b, s) =>
      match heatUnits l q (unit + 1) n s with
      | (some r, s) => (some (b ++ r), s)
      | (none, s) => (none, s)
    | (none, s) => (none, s)

def addTo (l : LaneId) (a : Option (Byte × Nat)) (n : Nat) (s : State) : State :=
  match a with
  | some (t, amt) => s.tallyAdd (laneTally l t.toNat) (amt * n)
  | none => s

/-- An access of one of n units of the Course from one on stalls. -/
def State.unitsStall (s : State) (unit n : Nat) : Bool := (List.range n).any fun k => s.courseStalls false (64 * (unit + k))

/-- The table image that stands after a rig frame, where the frame has one. -/
def imageFetch (l : LaneId) (q : W32) (a : Nat) (f : RigFrame) (s : State) : Option (List Byte) × State :=
  if f.writesTable then heatUnits l q (a + 64) (imageUnits f) s else (some [], s)

/-- What a slot holds when a frame for it has landed: the frame, or nothing yet where a later LDRIG into the slot is still outstanding,
for which a RIG waits (R62). -/
def RigSlot.land (x : RigSlot) (new : RigSlot) (k : Fin 16) (rest : List Transfer) : RigSlot :=
  if rest.any fun t => t.rig == some k then x else new

/-- A frame and its table-store image have landed: the CRCs are checked; a failure is a rig-frame error (R52, R189). `ok` is
false where what landed differs from what was read. -/
def ldrigComplete (i : ShellId) (k : Fin 16) (ok : Bool) (s : State) : State :=
  let x := s.shell i
  match x.running, x.inbound with
  | some (l, q), t :: rest =>
    if t.rig = some k ∧ s.rail.floor = false ∧ s.unitsStall t.frameAt 64 = false then
      match heatUnits l q t.frameAt 64 s with
      | (none, s) => restartHeat l q s
      | (some b, u) =>
        let f := parseRig b
        let h := (s.handleOf l q).getD 0
        if f.writesTable && s.unitsStall (t.frameAt + 64) (imageUnits f) then s else
        let s := u
        match imageFetch l q t.frameAt f s with
        | (none, s) => restartHeat l q s
        | (some im, s) =>
          let n := imageBytes f
          let imgOk := !f.writesTable || nAt im (64 * (imageUnits f - 1)) 4 == (crc32 (im.take n)).toNat
          if ok && rigCrcOk b && imgOk then
            let s := s.setShell i fun (x : Shell) => { (if f.writesTable then x.writeImage f im else x) with
              inbound := rest
              slots := upd x.slots k fun (y : RigSlot) => y.land { frameAt := some (t.frameAt, h), frame := some f, pending := false } k rest }
            let pf := s.faults.passedFrames
            let pf := if pf.contains (h, t.frameAt, i) then pf else pf ++ [(h, t.frameAt, i)]
            let s := { s with faults := { s.faults with passedFrames := pf } }
            addTo l t.addTo 1 s
          else
            rigFrameError i t.frameAt h (s.setShell i fun (x : Shell) => { x with slots := put x.slots k ({} : RigSlot) })
    else s
  | _, _ => s

def execLdrigComplete (sh : ShellId) (slot : Fin 16) (ok : Bool) (s : State) : Host.Outcome State Fault Refusal :=
  .next (ldrigComplete sh slot ok s)

/-- The trial load of a frame on a spare shell ends; `pass` is false where what landed differs from what was read. A frame that passes
there stands in the spare's slot, and the shell under suspicion is fenced; one that fails is taken as damaged in memory (R480). -/
def rigFrameTrialDone (pass : Bool) (s : State) : State :=
  match s.faults.trial with
  | none => s
  | some t =>
    let s := { s with faults := { s.faults with trial := none } }
    let (b, s) := unitsAt t.frame 64 s
    let f := parseRig b
    let (im, s) := if f.writesTable then unitsAt (t.frame + 64) (imageUnits f) s else ([], s)
    let imgOk := !f.writesTable || nAt im (64 * (imageUnits f - 1)) 4 == (crc32 (im.take (imageBytes f))).toNat
    let slot0 (y : RigSlot) (x : Shell) : Shell := { x with slots := put x.slots 0 y }
    if pass && rigCrcOk b && imgOk then
      let s := s.setShell t.spare fun x =>
        slot0 { frameAt := some (t.frame, t.handle), frame := some f, pending := false } (if f.writesTable then x.writeImage f im else x)
      fenceShell t.suspect (some .rigFrameCrc)
        { s with faults := { s.faults with passedFrames := s.faults.passedFrames ++ [(t.handle, t.frame, t.spare)] } }
    else s.setShell t.spare (slot0 {})

def execRigFrameTrialDone (pass : Bool) (s : State) : Host.Outcome State Fault Refusal := .next (rigFrameTrialDone pass s)

/-! ## Decode errors (R249, R373) -/

/-- The access at a Course address ends in a decode error. -/
def State.decodeErrs (s : State) (a : Nat) : Bool :=
  match courseAt a with
  | .view h x => (viewRead none h x s).1 == .ok none
  | _ => false

/-- A decoder that serves a request has met a decode error for shell i: the chunk is tried once on another decoder, and where that one
decodes it the first is fenced; else the error is counted and logged. -/
def decoderErred (mine : DecReq → Bool) (i : ShellId) (a : Nat) (s : State) : State :=
  match (List.finRange 4).find? fun d => s.mem.decoder[d].busy.any mine with
  | some d =>
    let other := (List.finRange 4).any fun e => e != d && s.faults.decoders[e] == .active
    if other && !s.decodeErrs a then fenceDecoder d (some .decodeError) s else logUnitFault i (.decoder d) .decodeError s
  | none => s

/-! ## Transfers (R55, R67) -/

/-- MOVE issues a transfer; the ninth of a direction waits (R73). -/
def move (i : ShellId) (s : State) : State :=
  match s.wordAt i 4 with
  | some (w, l, q) =>
    let out := w.getLsbD 43
    let al := wNum w 39
    let ar := wNum w 35
    let len := wfld w 15 20 + 1
    let x := s.shell i
    if (if out then x.outbound else x.inbound).length < 8 then
      let gl := x.ag[al]
      let gr := x.ag[ar]
      let t : Transfer := { out := out, rig := none, gl := gl, gr := gr, agr := ar, len := len, landed := 0, lstep := gl.step
                            rstep := gr.step, tick := BitVec.ofNat 4 (wfld w 11 4), addTo := wordAddTo w, frameAt := 0
                            dec := if gr.inView gr.step then some s.mem.decNext else none }
      match wordStrokes i 1 s with
      | (false, s) => s
      | (true, s) =>
        let s := if gr.inView gr.step then askDecoder i ar false ((s.handleOf l q).getD 0) s else s
        s.goOn i fun (x : Shell) => { x with
          ag := upd (upd x.ag al fun g => { g with step := g.step + len }) ar fun g => { g with step := g.step + (if ar = al then 0 else len) }
          outbound := if out then x.outbound ++ [t] else x.outbound
          inbound := if out then x.inbound else x.inbound ++ [t] }.next
    else s
  | none => s

def execMoveWord (sh : ShellId) (s : State) : Host.Outcome State Fault Refusal := .next (move sh s)

/-- A decoder serves a request, with its table there. -/
def State.decodes (s : State) (mine : DecReq → Bool) : Bool := s.mem.decoder.toList.any fun d => !d.loading && d.busy.any mine

/-- 64 bytes at a step of a generator: of the Course, or of the shell's own SRAM; none is an error (R57). An adapter argument without
its adapter reads 0 (R173). -/
def unitRead (i : ShellId) (l : LaneId) (q : W32) (g : AddrGen) (k : Nat) (s : State) : Option (List Byte) × State :=
  if g.off then (some (List.replicate 64 0#8), s)
  else if g.course then heatRead l q (64 * g.addr k) s
  else if g.addr k + 64 ≤ 0x80000 ∧ poisonedIn (s.shell i).poisoned (g.addr k) = false then (some ((s.shell i).sram.range (g.addr k) 64), s)
  else (none, s)

def unitWrite (i : ShellId) (l : LaneId) (q : W32) (g : AddrGen) (k : Nat) (b : List Byte) (s : State) : Bool × State :=
  if g.course then heatWrite l q (64 * g.addr k) b s
  else if g.addr k + 64 ≤ 0x80000 then (true, s.setShell i fun x => x.store (g.addr k) b)
  else (false, s)

/-- One unit of a transfer: false is an error. -/
def moveUnit (i : ShellId) (l : LaneId) (q : W32) (t : Transfer) (k : Nat) (s : State) : Bool × State :=
  let from_ := if t.out then (t.gl, t.lstep) else (t.gr, t.rstep)
  let into := if t.out then (t.gr, t.rstep) else (t.gl, t.lstep)
  match unitRead i l q from_.1 (from_.2 + k) s with
  | (some b, s) => unitWrite i l q into.1 (into.2 + k) b s
  | (none, s) => (false, s)

def moveUnits (i : ShellId) (l : LaneId) (q : W32) (t : Transfer) (k : Nat) : Nat → State → Bool × State
  | 0, s => (true, s)
  | n + 1, s =>
    match moveUnit i l q t k s with
    | (true, s) => moveUnits i l q t (k + 1) n s
    | (false, s) => (false, s)

/-- Adds of a transfer as its landed units go from a to b: TICK (R56). -/
def tickAdds (tick len a b : Nat) : Nat :=
  if tick = 15 then boolNat (b == len)
  else b / 2 ^ tick - a / 2 ^ tick + boolNat (b == len && len % 2 ^ tick != 0)

/-- The next n units of a transfer touch a block whose lock makes them stall (R243, R255). -/
def State.transferLocked (s : State) (t : Transfer) (n : Nat) : Bool :=
  (List.range n).any fun k =>
    (t.gl.course && s.courseStalls (!t.out) (64 * t.gl.addr (t.lstep + t.landed + k))) ||
      (t.gr.course && s.courseStalls t.out (64 * t.gr.addr (t.rstep + t.landed + k)))

/-- Another input holds a port that the next n units of a transfer need: the shell's SRAM, its router, or the Boathouse bank (R35). -/
def State.portsHeld (s : State) (i : ShellId) (t : Transfer) (n : Nat) : Bool :=
  let bank (g : AddrGen) (k : Nat) : Bool := g.course && (match courseAt (64 * g.addr k) with
    | .boathouse off => s.arbBusy (bankPort (bankAt off).val) 1 0
    | _ => false)
  s.arbBusy (sramPorts i) 16 (if t.out then 2 else 1) || s.arbBusy (routerPorts i) 5 4 ||
    (List.range n).any fun k => bank t.gl (t.lstep + t.landed + k) || bank t.gr (t.rstep + t.landed + k)

/-- Units of the oldest transfer of a direction land or are acknowledged; none does while the rail is below its floor (R14), their
page is locked (R243), or another input holds a port on their way (R35). -/
def moveLanded (i : ShellId) (out : Bool) (units : Nat) (s : State) : State :=
  let x := s.shell i
  match x.running, (if out then x.outbound else x.inbound) with
  | some (l, q), t :: rest =>
    let n := Nat.min units (t.len - t.landed)
    if s.rail.floor || t.rig.isSome || (t.dec.isSome && !s.decodes (DecReq.isMove t.dec)) || s.transferLocked t n || s.portsHeld i t n then s
    else
      match moveUnits i l q t t.landed n s with
      | (false, s) =>
        let bad := (List.range n).find? fun k => t.gr.course && s.decodeErrs (64 * t.gr.addr (t.rstep + t.landed + k))
        restartHeat l q (match bad with
          | some k => decoderErred (DecReq.isMove t.dec) i (64 * t.gr.addr (t.rstep + t.landed + k)) s
          | none => s)
      | (true, s) =>
        let b := t.landed + n
        let left := if b = t.len then rest else { t with landed := b } :: rest
        let s := ((s.arbServed (sramPorts i) 16 (if out then 2 else 1)).arbServed (routerPorts i) 5 4).setShell i fun x => if out then { x with outbound := left } else { x with inbound := left }
        let s := if b = t.len ∧ t.dec.isSome then freeDecoders (DecReq.isMove t.dec) s else s
        addTo l t.addTo (tickAdds t.tick.toNat t.len t.landed b) s
  | _, _ => s

def execMoveLanded (sh : ShellId) (out : Bool) (units : Nat) (s : State) : Host.Outcome State Fault Refusal :=
  .next (moveLanded sh out units s)

/-! ## RUN (R56, R57) -/

/-- The logical shell of a physical shell in a heat's map. -/
def HeatRun.logical (r : HeatRun) (i : ShellId) : Option (Fin 16) := (List.finRange 16).find? fun k => r.map[k] == some i

def runEnv (i : ShellId) (l : LaneId) (q : W32) (w : W64) (f : RigFrame) (r : HeatRun) (s : State) : RunEnv :=
  let x := s.shell i
  let seg := s.segmentOf l r
  let plan := ((s.handleOf l q).map fun h => (s.bundle h).plan).getD {}
  let ls := (r.logical i).map Fin.val
  { shell := i, lane := l, seq := q, frame := f, ags := runAgs w, gens := x.ag
    phase := wfld w 20 4, count := runCount w, drain := w.getLsbD 2
    ahead := x.streams.map fun t => (t.ag, t.ahead), offs := x.streams.map fun t => (t.ag, t.off)
    stat := w.getLsbD 1
    planned := (seg.map fun g => g.kind == 0).getD true
    i16 := (seg.map fun g => g.kind == 1).getD false
    exps := r.exps
    feeds := ((plan.operands.getD ((seg.map (·.oper)).getD 0) []).filter fun o => some o.lshell == ls && o.tensor != 0xFFFF).map fun o => (o.feed, o.tensor)
    tensors := plan.tensors
    anchor := x.anchor, pc := x.pc, spinKey := r.spinKey
    consts := (r.ad.map fun f => s.ads[f.slot].consts).getD (Vector.replicate 5 0#32), etaT := r.etaT }

/-- What a generator's use in a RUN adds to its step counter: feed strokes, or units fetched; a unit of which a chained RUN leaves a part
counts with the RUN that goes on with it (R57). `off` bytes of the first unit are used. -/
def feedSteps (f : RigFrame) (ags : List (Fin 16)) (ag : Fin 16) (g : AddrGen) (count off : Nat) (chain : Bool) : Nat :=
  let bytes := feedBytes f ags ag
  if bytes = 0 then 0 else if g.course then (off + count * bytes + (if chain then 0 else 63)) / 64 else count

/-- The generators after a RUN: feeds and rescales. -/
def runSteps (f : RigFrame) (ags : List (Fin 16)) (count : Nat) (offs : List (Fin 16 × Nat)) (chain : Bool) (resc : List (Fin 16 × Nat))
    (ag : Vector AddrGen 16) : Vector AddrGen 16 :=
  let off (k : Fin 16) : Nat := ((offs.find? fun p => p.1 == k).map Prod.snd).getD 0
  let ag := ags.eraseDups.foldl (fun (v : Vector AddrGen 16) k =>
    upd v k fun g => { g with step := g.step + feedSteps f ags k g count (off k) chain }) ag
  resc.foldl (fun (v : Vector AddrGen 16) p => upd v p.1 fun g => { g with step := g.step + p.2 }) ag

/-- A table or array RUN without DRAIN leaves its flow, and with it its streams, to the next RUN (R62, R67). -/
def chains (w : W64) (f : RigFrame) : Bool := !w.getLsbD 2 && !(f.inPhase (wfld w 20 4) [0x10, 0x11]).isEmpty

/-- The streams after a RUN: where it chains, its own without the units it has used, and with the bytes used of the next; else none. -/
def runStreams (w : W64) (f : RigFrame) (x : Shell) : List Stream :=
  if chains w f then
    ((runAgs w).eraseDups.filter fun ag => x.ag[ag].course && feedBytes f (runAgs w) ag != 0).map fun ag =>
      let t := x.stream ag
      let n := t.off + runCount w * feedBytes f (runAgs w) ag
      { t with ahead := t.ahead.drop (n / 64), off := n % 64 }
  else []

def mergeCounts (a b : List (Nat × Counts)) : List (Nat × Counts) :=
  b.foldl (fun a p => addCounts a p.1 fun c =>
    { cw := c.cw + p.2.cw, sw := c.sw + p.2.sw, fw := c.fw + p.2.fw, nw := c.nw + p.2.nw, cr := c.cr + p.2.cr, ca := c.ca + p.2.ca }) a

/-- What a RUN has gathered enters the heat's run. -/
def HeatRun.gather (r : HeatRun) (x : Rx) : HeatRun :=
  { r with
    attempt := mergeCounts r.attempt x.counts
    attemptOvf := r.attemptOvf || x.ovf, accOvf := r.accOvf || x.ovf, nan := r.nan || x.nan
    mhi := x.mhi.foldl (fun l p => keepMax l p.1 p.2) r.mhi
    begun := x.begun
    sides := x.sides.foldl joinSides r.sides }

/-- A RUN word does its work: COUNT strokes, and DRAIN's, of the current rig (R55, R56). ACCZ clears the accumulators first. The word does
not complete before its streamed operands are there, nor with less than its whole work (R15, R25). -/
def run (i : ShellId) (work : RunWork) (s : State) : State :=
  match s.wordAt i 1 with
  | some (w, l, q) =>
    let x := s.shell i
    match x.frame, (s.lane l).run q with
    | some f, some r =>
      match wordStrokes i (x.wordLen w) s with
      | (false, s) => strokeFault i work.fault s
      | (true, u) =>
        if x.starvedAt w (runCount w) || !workWhole (runEnv i l q w f r s) work.items then s else
        let s0 := s
        let s := u
        let s := if w.getLsbD 3 then s.setShell i fun (x : Shell) => { x with acc := [], g32 := [] } else s
        let e := runEnv i l q w f r s
        let out := doWork e work.items { s := s, begun := r.begun }
        if !out.bad && !drained e out then s0 else
        let s := out.s.setRun l q fun r => r.gather out
        let s := if chains w f then s else (runAgs w).foldl (fun s ag => freeDecoders (DecReq.isStream i ag) s) s
        let s := s.goOn i fun (x : Shell) => { x with
          ag := runSteps f e.ags e.count e.offs (chains w f) out.rescales x.ag
          streams := runStreams w f x }.next
        let s := if out.bad then restartHeat l q s else wordAdd l w s
        strokeFault i work.fault s
    | _, _ => s
  | none => s

def execRunWord (sh : ShellId) (w : RunWork) (s : State) : Host.Outcome State Fault Refusal := .next (run sh w s)

/-- A streamed feed in of the RUN at hand wants its next unit: fewer than 32 units are ahead of what its completed strokes have used, and
the flow, where the RUN ends it, still needs one (R67). -/
def Shell.wantsUnit (x : Shell) (w : W64) (ag : Fin 16) : Bool :=
  match x.frame with
  | some f =>
    let t := x.stream ag
    let n := feedBytesIn f (runAgs w) ag
    (runAgs w).contains ag && x.ag[ag].streams && n != 0 &&
      decide (t.ahead.length < (t.off + Nat.min x.done (runCount w) * n) / 64 + 32) &&
      (chains w f || decide (64 * t.ahead.length < t.off + runCount w * n))
  | none => false

/-- A streamed feed of the RUN at hand fetches its next unit, up to 32 ahead (R67). -/
def streamFetch (i : ShellId) (ag : Fin 16) (s : State) : State :=
  match s.wordAt i 1 with
  | some (w, l, q) =>
    let x := s.shell i
    let g := x.ag[ag]
    let t := x.stream ag
    let have_ := t.ahead
    if x.wantsUnit w ag && (!g.inView (g.step + have_.length) || s.decodes (DecReq.isStream i ag)) &&
        !s.rail.floor && !s.courseStalls false (64 * g.addr (g.step + have_.length)) then
      match unitRead i l q g (g.step + have_.length) s with
      | (some b, s) => s.setShell i fun (x : Shell) => { x with
          streams := x.streams.filter (fun t => t.ag != ag) ++ [{ t with ahead := have_ ++ [b] }] }
      | (none, s) =>
        let a := 64 * g.addr (g.step + have_.length)
        restartHeat l q (if g.course && s.decodeErrs a then decoderErred (DecReq.isStream i ag) i a s else s)
    else s
  | none => s

def execStreamFetch (sh : ShellId) (ag : Fin 16) (s : State) : Host.Outcome State Fault Refusal := .next (streamFetch sh ag s)

/-! ## Decoders (R247, R248) -/

/-- The oldest request, where it is that of the shell and generator: requests are served in the order of issue. -/
def decRequest (i : ShellId) (ag : Fin 16) (s : State) : Option DecReq :=
  match s.mem.decQueue with
  | r :: _ => if r.shell = i ∧ r.ag = ag then some r else none
  | [] => none

/-- The table that the stream of a request's first address names. -/
def streamTable (i : ShellId) (ag : Fin 16) (r : DecReq) (s : State) : Nat × State :=
  let x := s.shell i
  let g := match (x.inbound ++ x.outbound).find? fun t => r.isMove t.dec with
    | some t => (t.gr, t.rstep)
    | none => (x.ag[ag], x.ag[ag].step)
  match courseAt (64 * g.1.addr g.2) with
  | .view h _ =>
    match dramRead none (h / 64) s with
    | (.ok b, s) => (nAt b 4 2, s)
    | (_, s) => (0, s)
  | _ => (0, s)

/-- A decoded-view request gets a free decoder; its table loads unless it is cached. -/
def decoderAssign (i : ShellId) (ag : Fin 16) (s : State) : State :=
  match decRequest i ag s, freeDecoder s with
  | some r, some d =>
    let (t, s) := streamTable i ag r s
    let req := { r with table := t }
    { s with mem := { s.mem with
      decQueue := s.mem.decQueue.drop 1
      decoder := upd s.mem.decoder d fun x => { x with busy := some req, loading := !x.cache.contains (r.handle, t) } } }
  | _, _ => s

def execDecoderAssign (sh : ShellId) (ag : Fin 16) (s : State) : Host.Outcome State Fault Refusal := .next (decoderAssign sh ag s)

/-- An entropy table is there; a decoder caches 16. -/
def decoderTableLoaded (d : Fin 4) (s : State) : State :=
  match s.mem.decoder[d].busy with
  | some r =>
    if s.mem.decoder[d].loading then
      { s with mem := { s.mem with decoder := upd s.mem.decoder d fun x =>
        let c := x.cache ++ [(r.handle, r.table)]
        { x with loading := false, cache := c.drop (c.length - 16) } } }
    else s
  | none => s

def execDecoderTableLoaded (d : Fin 4) (s : State) : Host.Outcome State Fault Refusal := .next (decoderTableLoaded d s)

/-! ## Crossings and arbiters -/

/-- A word enters a crossing that has room, or its oldest word leaves it (R31); nothing crosses without the domain's clock. -/
def crossingTransfer (c : Clk) (inbound : Bool) (word : Option W64) (s : State) : State :=
  if s.clk.absent.getLsbD c.val then s
  else
    let q := if inbound then s.clk.inbound[c] else s.clk.outbound[c]
    match word with
    | some w =>
      if q.length < 4 then
        { s with clk := if inbound then { s.clk with inbound := put s.clk.inbound c (q ++ [w]) }
                        else { s.clk with outbound := put s.clk.outbound c (q ++ [w]) } }
      else s
    | none =>
      match q with
      | w :: r =>
        let k := if inbound then { s.clk with inbound := put s.clk.inbound c r } else { s.clk with outbound := put s.clk.outbound c r }
        { s with clk := { k with delivered := put k.delivered c (some w) } }
      | [] => s

def execCrossingTransfer (c : Clk) (inbound : Bool) (word : Option W64) (s : State) : Host.Outcome State Fault Refusal :=
  .next (crossingTransfer c inbound word s)

/-- The number of an arbiter and its inputs (R35). -/
def Arbiter.key : Arbiter → Nat × Nat
  | .course s p => (s.val * 5 + p.val, 5)
  | .sram s b => (100 + s.val * 16 + b.val, 3)
  | .boathouse b => (400 + b.val, 6)
  | .tally l => (500 + l.val, 24)
  | .logBook => (510, 3)
  | .window => (511, 5)
  | .crypto => (512, 2)
  | .domain .ddrA => (520, 6)
  | .domain .ddrB => (521, 6)
  | .domain .host => (522, 4)
  | .domain .boot => (523, 3)
  | .domain .pmb => (524, 3)
  | .domain .eyeck => (525, 3)

/-- The share of a contender: it is served at least once in so many of its waiting edges (R38). -/
def Ranked.share : Ranked → Nat → Option Nat
  | .ddrA, k => if 4 ≤ k then some 32 else none
  | .ddrB, k => if 4 ≤ k then some 32 else none
  | .host, _ => some 8
  | .pmb, k => if k = 2 then some 16 else none
  | .boot, _ => none
  | .eyeck, _ => none

/-- The first waiting input after the one served last, in round-robin order. -/
def nextInput (n last : Nat) (waiting : BitVec 24) : Option Nat :=
  ((List.range n).map fun k => (last + 1 + k) % n).find? fun k => waiting.getLsbD k

/-- Edges for which a contender has waited. -/
def State.arbWait (s : State) (k j : Nat) : Nat := (Tab.get? s.clk.arbWaits (k * 32 + j)).getD 0

/-- The contender of a domain that is served: the highest that waits, but for one whose share falls due (R38). Of several that wait with
a share, each is due so many edges early that all of them meet theirs. -/
def rankedWin (d : Ranked) (k n : Nat) (waiting : BitVec 24) (s : State) : Option Nat :=
  let l := (List.range n).filter fun j => waiting.getLsbD j
  let shared := (l.filter fun j => (d.share j).isSome).length
  (l.find? fun j => (d.share j).any fun m => decide (m ≤ s.arbWait k j + shared)).orElse fun _ => l.head?

/-- Every contender that waits on has waited for one edge more; the one that is served begins again. -/
def waitedEdge (k n : Nat) (waiting : BitVec 24) (win : Nat) (s : State) : State :=
  let t := (List.range n).foldl (fun (t : Tab Nat) j =>
    if j = win then Tab.erase t (k * 32 + j) else if waiting.getLsbD j then Tab.set t (k * 32 + j) (s.arbWait k j + 1) else t) s.clk.arbWaits
  { s with clk := { s.clk with arbWaits := t } }

/-- A grant: by rank and share at a clocked domain (R38); else round-robin from the last winner, and where there was none the winner of
the tie is an operand (R34). The winner holds the resource for its unit of service, which is over at the latest with the arbiter's next
grant (R35; notes/assumptions/41). -/
def arbiterGrant (a : Arbiter) (waiting : BitVec 24) (first : Fin 24) (s : State) : State :=
  let (k, n) := a.key
  match a with
  | .domain d =>
    match rankedWin d k n waiting s with
    | some w =>
      let s := waitedEdge k n waiting w s
      { s with clk := { s.clk with arbLast := Tab.set s.clk.arbLast k w, arbHeld := Tab.set s.clk.arbHeld k w } }
    | none => s
  | _ =>
  let win := match Tab.get? s.clk.arbLast k with
    | some last => nextInput n last waiting
    | none => if first.val < n ∧ waiting.getLsbD first.val = true then some first.val else none
  match win with
  | some w => { s with clk := { s.clk with arbLast := Tab.set s.clk.arbLast k w, arbHeld := Tab.set s.clk.arbHeld k w } }
  | none => s

def execArbiterGrant (a : Arbiter) (waiting : BitVec 24) (first : Fin 24) (s : State) : Host.Outcome State Fault Refusal :=
  .next (arbiterGrant a waiting first s)

end Sys2Proof.Machine
end

