-- ==== Sys2Proof/Machine/Flow.lean ====
section
/-! DEFINITION. The course of a heat: start, segments, check points, restart, deadline and retirement (R19, R61, R72, R143 to
R159, R171 to R173, R185, R197 to R200, R216 to R222), and grants of adapters (R164). -/

namespace Sys2Proof.Machine
open Sys2Proof

/-! ## Start conditions (R19, R171, R216, R217) -/

/-- Plan of the bundle that a heat names. -/
def State.planOf (s : State) (l : LaneId) (q : W32) : Plan := ((s.handleOf l q).map fun h => (s.bundle h).plan).getD {}

/-- The adapter slot that an update heat changes. -/
def State.updates (s : State) (l : LaneId) (q : W32) : Option (Fin 8) :=
  match (s.lane l).acceptOf q, s.entryOf l q with
  | some a, some e => if e.update then a.adSlot else none
  | _, _ => none

/-- An earlier update heat of the same adapter has not retired. -/
def adapterBusy (l : LaneId) (q : W32) (s : State) : Bool :=
  match s.updates l q with
  | some n => ((s.lane l).runs.takeWhile fun r => r.seq != q).any fun r => s.updates l r.seq == some n
  | none => false

/-- A started heat holds the version in the set that an update heat is to write. -/
def targetHeld (n : Fin 8) (s : State) : Bool :=
  (List.finRange 4).any fun k => (s.lane k).runs.any fun r => r.ad.any fun f => f.slot == n && f.set != s.ads[n].set

/-- HELD of an adapter slot: an update heat, behind no other of its adapter, waits for readers of its target set (R171). -/
def State.adapterHeld (s : State) (n : Fin 8) : Bool :=
  targetHeld n s && (s.lane 3).runs.any fun r =>
    !r.started && r.failed.isNone && s.updates 3 r.seq == some n && !adapterBusy 3 r.seq s

/-- R216, R217 and R171 but for the free shells, for the first segment of a run. -/
def heatReady (l : LaneId) (r : HeatRun) (s : State) : Bool :=
  let L := s.lane l
  let done (q : W32) : Bool := match L.run q with | some x => x.st == .ended | none => true
  match s.handleOf l r.seq with
  | some h =>
    r.st == .waiting && r.failed.isNone && r.after.all done && (s.bundle h).live && ((s.bundle h).onchip || s.dramUp) &&
      (r.started || (r.behind.all (fun q => (L.run q).isNone) && decide (L.running < 8) &&
        decide (L.owes < 64) && !adapterBusy l r.seq s && !(s.updates l r.seq).any fun n => targetHeld n s))
  | none => false

/-- Shells of a segment in a map. -/
def segShells (m : Vector (Option ShellId) 16) (g : Segment) : List ShellId := (shellsOf g.lsmask).filterMap fun k => m[k]

def Plan.seg? (p : Plan) (n : Nat) : Option Segment := p.segments.find? fun g => g.number == n

/-- The segment that a heat wants to run next, in its variant and map. -/
def nextSeg (l : LaneId) (r : HeatRun) (s : State) : Option (Segment × Fin 3 × Vector (Option ShellId) 16) :=
  match r.st with
  | .between n => ((s.planOf l r.seq).seg? n).map fun g => (g, r.variant, r.map)
  | .waiting =>
    match s.handleOf l r.seq, s.entryOf l r.seq with
    | some h, some e =>
      if heatReady l r s then
        (s.variantFor h e).bind fun v => (e.variants[v].firstSeg.bind (s.bundle h).plan.seg?).map fun g => (g, v, s.map)
      else none
    | _, _ => none
  | _ => none

/-- A heat of another lane, or an earlier one of this lane, comes first on some of the shells (R19, R217). -/
def claimed (l : LaneId) (r : HeatRun) (shells : List ShellId) (s : State) : Bool :=
  let wants (k : LaneId) (x : HeatRun) : Bool := (nextSeg k x s).any fun g => (segShells g.2.2 g.1).any shells.contains
  let before (k : LaneId) (x : HeatRun) : Bool :=
    decide ((s.lane k).prio.toNat < (s.lane l).prio.toNat) || ((s.lane k).prio == (s.lane l).prio && decide (x.ord < r.ord))
  let earlier := (s.lane l).runs.takeWhile fun x => x.seq != r.seq
  (earlier.any fun x => wants l x || (!r.started && !x.started && heatReady l x s)) ||
    (List.finRange 4).any fun k => k != l && (s.lane k).runs.any fun x => before k x && wants k x

/-- The shells of the next segment are free and nobody comes first on them. -/
def shellsFree (l : LaneId) (r : HeatRun) (shells : List ShellId) (s : State) : Bool :=
  shells.all (fun i => (s.shell i).ended) && !claimed l r shells s

/-! ## A segment starts (R61, R100, R185) -/

/-- The records of a segment in the sections that cover its variant. -/
def covering {α : Type} (v : Fin 3) (ls : List (Byte × List α)) : List α :=
  ((ls.find? fun p => p.1 == 0#8 || p.1.getLsbD v.val).map Prod.snd).getD []

def pickFor {α : Type} (l : List α) (ls : α → Fin 16) (at_ : Nat) (m : BitVec 16) (k : Fin 16) : Option α :=
  ((l.drop at_).take (shellsOf m).length).find? fun x => ls x == k

/-- Where the generator of an adapter argument leads: to the set of the version that the heat has fixed, in a creation heat to set 0 of
the image to come (R170), or to nothing with ADAPT_OFF (R173, R174). -/
inductive AdapterBase where
  | at_ (addr : Nat)
  | off
  | unbound

/-- Where the image of an adapter begins that a heat creates: at the first 64 KiB boundary of its first output region (R163).
DESIGN CHOICE (notes/assumptions/33): the spec names no error for a region that lies outside DRAM, or that is too short for the image
from there on; the address stands as it is. -/
def adapterImage (e : Entry) (args : List HeatArg) : Nat := ((((regionsOf e args 1).head?).getD (0, 0)).1 + 0xFFFF) / 0x10000 * 0x10000

/-- The argument generators: BASE with SPACE = 1 for regions and for a fixed adapter version; constants go to shell SRAM, η_t of an
update heat as its first (R168, R185; notes/assumptions/33). -/
def Shell.bindArgs (ad : AdapterBase) (eta : Option W32) (args : List (ArgDesc × HeatArg)) (x : Shell) : Shell :=
  let first := (args.filter fun p => p.1.kind.val == 3).head?.map fun p => p.1.param
  args.foldl (fun (x : Shell) p => match p.2, ad with
    | .region a _, _ => { x with ag := upd x.ag p.1.ag fun g => { g with base := BitVec.ofNat 37 (a / 64), mode := 1#2 } }
    | .const v, _ => x.store p.1.param.toNat (leBytes (if first == some p.1.param then eta.getD v else v).toNat 4)
    | .adapter _, .at_ a => { x with ag := upd x.ag p.1.ag fun g => { g with base := BitVec.ofNat 37 (a / 64), mode := 1#2 } }
    | .adapter _, .off => { x with ag := upd x.ag p.1.ag fun g => { g with mode := 1#2, off := true } }
    | .adapter _, .unbound => x) x

/-- Where a heat's adapter argument leads. -/
def State.adapterBase (s : State) (l : LaneId) (r : HeatRun) : AdapterBase :=
  match r.ad with
  | some f => .at_ (s.ads[f.slot].setBase f.set)
  | none =>
    if r.adaptOff then .off
    else match (s.lane l).acceptOf r.seq, s.entryOf l r.seq with
      | some a, some e => if e.create then .at_ (adapterImage e a.args + 0x10000) else .unbound
      | _, _ => .unbound

def Shell.scaleImage (g : ScaleImage) (x : Shell) : Shell :=
  { x with
    anchor := g.anchor
    scale := g.entries.zipIdx.foldl (fun (t : Tab W32) p => Tab.setWord t (g.first + p.2) p.1) x.scale }

/-- What Cox firmware leaves in a shell at a segment start. A shell that comes from another lane has its heat slots empty. -/
def Shell.begin (l : LaneId) (q : W32) (words : List W64) (x : Shell) : Shell :=
  { x with
    ag := Vector.replicate 16 {}, wait := Vector.replicate 8 {}, loops := Vector.replicate 4 0, acc := [], g32 := [], links := []
    cur := none
    streams := [], inbound := [], outbound := [], prog := words, pc := 0, waited := false, done := 0
    slots := if x.lastLane = some l then x.slots else mapIdx x.slots fun k r => if k.val < 12 then {} else r
    running := some (l, q), ended := false, lastLane := some l }

/-- Segment g of heat q starts on its shells; the first access brings a shell's domain up (R406). -/
def segBegin (l : LaneId) (q : W32) (g : Segment) (s : State) : State :=
  match (s.lane l).run q, (s.lane l).acceptOf q, s.entryOf l q with
  | some r, some a, some e =>
    let p := s.planOf l q
    let args := e.args.zip a.args
    let one (s : State) (k : Fin 16) : State :=
      match r.map[k] with
      | some i =>
        let words := ((pickFor (covering r.variant p.programs) Program.lshell g.prog g.lsmask k).map (·.words)).getD []
        let img := pickFor (covering r.variant p.scales) ScaleImage.lshell g.scale g.lsmask k
        (wake (Dom.shell i) s).setShell i fun (x : Shell) =>
          let x := x.begin l q words
          let x := match img with | some m => x.scaleImage m | none => x
          x.bindArgs (s.adapterBase l r) (if e.update then some r.etaT else none) args
      | none => s
    (((shellsOf g.lsmask).foldl one s).setRun l q fun r =>
      { r with st := .segment, started := true, seg := g.number, open_ := segShells r.map g, since := some s.steady, begun := [] }).watch
  | _, _, _ => s

/-! ## HEAT_START -/

/-- A heat ends without running. -/
def endFailed (l : LaneId) (q : W32) (st : Status) (s : State) : State :=
  s.setRun l q fun r => { r with st := .ended, failed := some st }

/-- The adapter that a heat fixes at its first segment (R20, R173 to R175): a version, or none with ADAPT_OFF. -/
def fixAdapter (l : LaneId) (a : AcceptRec) (e : Entry) (s : State) : Option AdFix × Bool :=
  match a.adSlot with
  | some n =>
    if e.update || e.readsAdapter then
      let d := s.ads[n]
      if d.st == .empty || !d.granted l then (none, true) else (some { slot := n, ver := d.ver, set := d.set }, false)
    else (none, false)
  | none => (none, false)

/-- An update heat whose adapter is EMPTY or at its last version does no work (R172, R173). -/
def noStep (e : Entry) (a : AcceptRec) (s : State) : Bool :=
  e.update && a.adSlot.any fun n => s.ads[n].st == .empty || s.ads[n].ver == 0xFFFFFFFF#32

/-- A plan constant as an exact number. -/
def constOf (w : W32) : Dy := match (readCode 10 0 w.toNat).1 with | .val x => x | _ => .zero

/-- η_t of a step with t = ADn_VER, to within 1 ulp of F32 (R168). -/
def stepRate (d : AdSlot) (t : W32) (s : State) : W32 × State :=
  let (x, s) := draw s
  (w32 (boundedWrite .f32 1 (etaOf (constOf d.consts[0]) (constOf d.consts[1]) (constOf d.consts[2]) t.toNat)
    (Config.freeWord x).toNat).code, s)

/-- What a heat fixes for its run (R48, R72, R106, R168), and its tallies (R64). -/
def fixRun (l : LaneId) (q : W32) (v : Fin 3) (a : AcceptRec) (e : Entry) (s : State) : State :=
  let (ad, off) := fixAdapter l a e s
  let es := ((s.lane l).exps.filter fun x => x.handle == a.handle).map fun x => (x.tensor, x.value)
  let key := (s.lane l).spin
  let m := s.map
  let (eta, s) := match e.update, ad with
    | true, some f => stepRate s.ads[f.slot] f.ver s
    | _, _ => (0#32, s)
  let s := (s.zeroTallies l a e).setRun l q fun r => { r with
    variant := v, map := m, exps := es, ad := ad, adaptOff := off, spinKey := key, etaT := eta, runTicks := 0 }
  match e.update, ad with
  | true, some f => s.setAd f.slot fun d => { d with st := .updating }
  | _, _ => s

def heatStart (l : LaneId) (q : W32) (s : State) : State :=
  match (s.lane l).run q, (s.lane l).acceptOf q, s.entryOf l q with
  | some r, some a, some e =>
    if r.started || !heatReady l r s then s
    else if noStep e a s then endFailed l q .noAdapt s
    else go r a e
  | _, _, _ => s
where
  /-- The first segment starts on free shells; with no variant that can run, the heat completes with NOSHELL. -/
  go (r : HeatRun) (a : AcceptRec) (e : Entry) : State :=
    match nextSeg l r s with
    | some (g, v, m) => if shellsFree l r (segShells m g) s then segBegin l q g (fixRun l q v a e s) else s
    | none => endFailed l q .noShell s

def execHeatStart (lane : LaneId) (seq : W32) (s : State) : Host.Outcome State Fault Refusal := .next (heatStart lane seq s)

/-! ## SEGMENT_START -/

/-- The next segment of a started heat starts: after a check point, or its first again after a restart, in the variant and the map
of that moment (R72, R200, R218). -/
def segmentStart (l : LaneId) (q : W32) (s : State) : State :=
  match (s.lane l).run q with
  | some r =>
    if !r.started then s
    else match nextSeg l r s with
      | some (g, v, m) =>
        if shellsFree l r (segShells m g) s then segBegin l q g (s.setRun l q fun r => { r with variant := v, map := m }) else s
      | none => if r.st == .waiting && heatReady l r s then endFailed l q .noShell s else s
  | none => s

def execSegmentStart (lane : LaneId) (seq : W32) (s : State) : Host.Outcome State Fault Refusal := .next (segmentStart lane seq s)

/-! ## Check points (R143 to R159, R197, R198) -/

/-- The counts of a tensor in an attempt. -/
def countsOf (l : List (Nat × Counts)) (t : Nat) : Counts := ((l.find? fun p => p.1 == t).map Prod.snd).getD {}

/-- A share passes a threshold (R144). -/
def sharePasses (c nw nmin t : Nat) : Bool := t != 0xFFFF && nw != 0 && decide (nmin ≤ nw) && decide (t * nw < c * 65536)

/-- The crab or the feather share passes its re-run threshold. -/
def Watch.reruns (w : Watch) (a : List (Nat × Counts)) : Bool :=
  let c := countsOf a w.tensor.toNat
  sharePasses c.cw c.nw w.nmin w.rerunC || sharePasses c.fw c.nw w.nmin w.rerunF

/-- The crab share, or the feather share, passes its adaptation threshold or its re-run threshold (R147). -/
def Watch.crabs (w : Watch) (a : List (Nat × Counts)) : Bool :=
  let c := countsOf a w.tensor.toNat
  sharePasses c.cw c.nw w.nmin w.adaptC || sharePasses c.cw c.nw w.nmin w.rerunC

def Watch.feathers (w : Watch) (a : List (Nat × Counts)) : Bool :=
  let c := countsOf a w.tensor.toNat
  sharePasses c.fw c.nw w.nmin w.adaptF || sharePasses c.fw c.nw w.nmin w.rerunF

/-- A gathered count is 48 bits wide and saturates (R143). -/
def sat48 (n : Nat) : Nat := Nat.min n (2 ^ 48 - 1)

def Counts.plus (a b : Counts) : Counts :=
  { cw := sat48 (a.cw + b.cw), sw := sat48 (a.sw + b.sw), fw := sat48 (a.fw + b.fw), nw := sat48 (a.nw + b.nw)
    cr := sat48 (a.cr + b.cr), ca := sat48 (a.ca + b.ca) }

/-- A span's two bits of the alternative map. -/
def putAlt (m : BitVec 128) (k : Fin 64) (v : Nat) : BitVec 128 :=
  (m &&& ~~~BitVec.ofNat 128 (3 * 2 ^ (2 * k.val))) ||| BitVec.ofNat 128 (v * 2 ^ (2 * k.val))

/-- The attempt stands: its counts are committed, and the span's alternative is noted. -/
def HeatRun.stand (k : Option (Fin 64)) (kind : Nat) (r : HeatRun) : HeatRun :=
  { r with
    committed := r.attempt.foldl (fun (c : Counts) p => c.plus p.2) r.committed
    attempt := [], attemptOvf := false
    altMap := match k with | some k => putAlt r.altMap k (kind + 1) | none => r.altMap
    widened := r.widened || (k.isSome && kind == 2) }

/-- The alternative that R148 selects at the end of an attempt: the segment to run instead. -/
def rerunSeg (c : Check) (kind : Nat) (again : Bool) : Option Nat :=
  if !again || c.span.isNone then none else if kind = 0 then c.i16seg else if kind = 1 then c.h16seg else none

/-- A selected alternative replaces the attempt. -/
def HeatRun.replace (kind n : Nat) (r : HeatRun) : HeatRun :=
  { r with
    st := .between n, attempt := [], attemptOvf := false, rerun := true
    i16n := if kind = 0 then r.i16n + 1 else r.i16n
    h16n := if kind = 1 then r.h16n + 1 else r.h16n }

/-- Tensors of passing shares of a planned attempt join those already noted. -/
def joinTensors (old : List Nat) (ws : List Watch) (p : Watch → Bool) : List Nat := (old ++ (ws.filter p).map fun w => w.tensor.toNat).eraseDups

/-- The value X of a check point's rule (R198), over the span's standing attempt. -/
def ruleValue (l : LaneId) (r : HeatRun) (c : Check) (ws : List Watch) (passes : Nat) (s : State) : Nat :=
  match c.rule.val with
  | 1 =>
    match fin? 16 c.source with
    | some k =>
      match r.map[k] with
      | some i => (((s.shell i).sram.range (fld c.param 0 20) (fld c.param 24 5)).takeWhile fun b => b == 1#8).length
      | none => 0
    | none => 0
  | 2 => share (fun x => x.cw)
  | 3 => share (fun x => x.fw)
  | 4 => (s.tally (laneTally l c.source)).toNat % 65536
  | 5 => passes
  | _ => 0
where
  share (f : Counts → Nat) : Nat :=
    let k := countsOf r.attempt c.source
    if k.nw = 0 || ws.any (fun w => w.tensor.toNat == c.source && decide (k.nw < w.nmin)) then 0 else f k * 65536 / k.nw

/-- The alternative taken: the first whose range holds X, else the last. -/
def chooseAlt (c : Check) (x : Nat) : Option Nat :=
  let last := (c.alts.getLast?.map (·.seg)).getD none
  if c.rule.val = 5 ∧ c.param.toNat < x then last
  else match c.alts.find? fun a => decide (a.lo ≤ x ∧ x ≤ a.hi) with
    | some a => a.seg
    | none => last

/-- The rows that rescales have written are whole: their exponents join m_hi (R155). -/
def HeatRun.settleRows (r : HeatRun) : HeatRun :=
  { r with
    sides := []
    mhi := r.sides.foldl (fun l x => match mhiOf x.fmt x.z [.val x.pos, .val x.neg.neg] with
      | some m => keepMax l x.tensor m
      | none => l) r.mhi }

/-- Where the heat goes from its last segment's check point. -/
def RunSt.after (n : Option Nat) : RunSt := match n with | some n => .between n | none => .ended

/-- Every shell of a segment has completed END: counts are gathered, re-runs are decided, and the next segment is chosen (R148). -/
def checkPoint (l : LaneId) (q : W32) (s : State) : State :=
  match (s.lane l).run q with
  | some r =>
    if !(r.st == .segment && r.open_.isEmpty) then s
    else
      let p := s.planOf l q
      let g := p.seg? r.seg
      let kind := (g.map fun g => g.kind.val).getD 0
      let at_ := (g.bind (·.next)).bind fun n => p.checks.find? fun c => c.number == n
      let s := s.setRun l q fun r => (r.pause s.steady).settleRows
      match at_ with
      | none => s.setRun l q fun r => { r.stand ((g.map (·.span)).getD none) kind with st := .ended }
      | some c =>
        let e := ((s.entryOf l q).map (·.number)).getD 0
        let ws := match c.span with
          | some k => p.watches.filter fun w => w.entry == e && w.span == k
          | none => []
        let s := if kind = 0 then s.setRun l q fun r => { r with
            crabPass := joinTensors r.crabPass ws fun w => w.crabs r.attempt
            featherPass := joinTensors r.featherPass ws fun w => w.feathers r.attempt }
          else s
        match rerunSeg c kind (r.attemptOvf || ws.any fun w => w.reruns r.attempt) with
        | some n => s.setRun l q fun r => r.replace kind n
        | none =>
          let passes := (Tab.get? r.passes c.number).getD 0 + 1
          let next := RunSt.after (chooseAlt c (ruleValue l r c ws passes s))
          let keep := c.span.isNone && ((g.map (·.span)).getD none).isSome && next != .ended
          s.setRun l q fun r =>
            { (if keep then r else r.stand c.span kind) with st := next, passes := Tab.set r.passes c.number passes }
  | none => s

def execCheckPoint (lane : LaneId) (seq : W32) (s : State) : Host.Outcome State Fault Refusal := .next (checkPoint lane seq s)

/-! ## Restart and deadline (R218, R219) -/

def execHeatRestart (lane : LaneId) (seq : W32) (s : State) : Host.Outcome State Fault Refusal := .next (restartHeat lane seq s)

/-- T_trip of R219 in ticks of the steady count, rounded down: the first whole tick beyond it trips. The rate, in millions of strokes per second, is the
one last measured on the heat's busiest shell; with none measured, DEADLINE alone counts (notes/assumptions/32). -/
def tripTicks (e : Entry) (v : Fin 3) (rate : Nat) : Nat :=
  Nat.max (e.deadline * 768 / 10) (e.variants[v].work * 768 / (10 * rate))

/-- Ticks that the watchdog of a heat has counted in its present run. -/
def HeatRun.counted (now : W64) (r : HeatRun) : Nat := r.runTicks + match r.since with | some t => steadySpan t now | none => 0

def deadlineTrip (l : LaneId) (q : W32) (s : State) : State :=
  match (s.lane l).run q, s.entryOf l q with
  | some r, some e =>
    if r.since.isSome && r.st == .segment then
      let s := elapseSteady (tripTicks e r.variant r.rate + 1 - r.counted s.steady) s
      if r.trips = 0 then restartHeat l q (s.setRun l q fun r => { r with trips := 1 })
      else (s.stopShells l q).setRun l q fun r => { r.pause s.steady with
          st := .ended, open_ := [], failed := some .deadline, writeFailed := false }
    else s
  | _, _ => s

def execDeadlineTrip (lane : LaneId) (seq : W32) (s : State) : Host.Outcome State Fault Refusal := .next (deadlineTrip lane seq s)

/-! ## Retirement (R220) -/

/-- The move of R156. -/
def expMove (crab feather : Bool) (used : Int) (mhi : Option Int) (dmax : Nat) (entry : Int) : Int :=
  match mhi with
  | some m =>
    if crab then (if m ≤ used then 0 else max (used + min (m - used) dmax - entry) 0)
    else if feather then (if used ≤ m then 0 else min (used - min (used - m) dmax - entry) 0)
    else 0
  | none => 0

def clampExp (x : Int) : Int := max (-127) (min 127 x)

/-- The smallest DMAX of an entry's watch records of a tensor (R194). -/
def dmaxOf (p : Plan) (e t : Nat) : Nat := (((p.watches.filter fun w => w.entry == e && w.tensor.toNat == t).map (·.dmax)).min?).getD 0

/-- The exponent moves of a heat: for each predicted tensor, by how much its entry changes. -/
def expMoves (l : LaneId) (r : HeatRun) (h : Fin 16) (e : Nat) (s : State) : List (Fin 16 × Nat × Int) :=
  ((s.lane l).exps.filter fun x => x.handle == h).filterMap fun x =>
    let used := ((r.exps.find? fun p => p.1 == x.tensor).map Prod.snd).getD x.value
    let d := expMove (r.crabPass.contains x.tensor) (r.featherPass.contains x.tensor) used
      ((r.mhi.find? fun p => p.1 == x.tensor).map Prod.snd) (dmaxOf (s.bundle h).plan e x.tensor) x.value
    let d := clampExp (x.value + d) - x.value
    if d = 0 then none else some (h, x.tensor, d)

/-- The moves of a list are applied, once for each sequence number. -/
def applyMoves (q : W32) (ms : List (Fin 16 × Nat × Int)) (es : List ExpEntry) : List ExpEntry :=
  es.map fun (x : ExpEntry) => match ms.find? fun m => m.1 == x.handle && m.2.1 == x.tensor with
    | some m => if x.lastSeq = some q then x else { x with value := x.value + m.2.2, lastSeq := some q }
    | none => x

/-- An adapter is created (R163, R170): version 1 in set 0 of the first output region, with what the plan states of its training.
DESIGN CHOICE (notes/assumptions/33): the spec names no error for a first output region that does not hold the image from its first
64 KiB boundary on, or that lies outside DRAM; it is taken as it stands. -/
def adapterCreate (n : Fin 8) (q : W32) (a : AcceptRec) (e : Entry) (s : State) : State :=
  let t := ((s.bundle a.handle).plan.training).getD {}
  let image := adapterImage e a.args
  let s := s.setAd n fun d => { d with
    st := .ready, rank := BitVec.ofNat 8 t.rank, tensors := BitVec.ofNat 7 t.tensors, set := false, ver := 1#32
    params := w32 t.params, image := image, setSize := t.setSize, consts := t.consts, lastSeq := q, creating := false }
  match s.regionOf (image / 0x10000) with
  | some i => s.setRegion i fun g => { g with adapter := true }
  | none => s

/-- The adapter flip of an update heat (R172), once for each sequence number (R220); a slot that has become EMPTY stays so (R173). -/
def adapterFlip (n : Fin 8) (q : W32) (s : State) : State :=
  s.setAd n fun d =>
    if d.st = .updating ∧ d.lastSeq ≠ q then { d with st := .ready, set := !d.set, ver := d.ver + 1#32, lastSeq := q } else d

/-- What a heat commits (steps 3 to 5 of R220): the pending-commit list is written and applied. -/
def commitHeat (l : LaneId) (r : HeatRun) (a : AcceptRec) (e : Entry) (s : State) : State :=
  let ms := expMoves l r a.handle e.number s
  let flip := if e.create then a.adSlot.map fun n => (n, false)
    else if e.update then r.ad.map fun f => (f.slot, !f.set) else none
  let s := s.setLane l fun L => { L with
    commits := [{ seq := r.seq, moves := ms, adapter := flip }], exps := applyMoves r.seq ms L.exps }
  match a.adSlot, flip with
  | some n, some _ => if e.create then adapterCreate n r.seq a e s else adapterFlip n r.seq s
  | _, _ => s

/-- The adapter set and version that a heat has committed, in its RETIRE record (R170, R172, R228). -/
def adapterRec (a : AcceptRec) (s : State) (t : RetireRec) : RetireRec :=
  match a.adSlot with
  | some n => { t with adSet := s.ads[n].set, adVer := s.ads[n].ver }
  | none => t

/-- The heat retires and its completion is delivered. -/
def retireHeat (l : LaneId) (q : W32) (r : HeatRun) (seen : LookSeen) (s : State) : State :=
  let st := r.failed.getD .ok
  let t := retireRec s l r st
  let (t, s) := match st, (s.lane l).acceptOf q, s.entryOf l q with
    | .ok, some a, some e =>
      let u := commitHeat l r a e s
      (if e.create || e.update then adapterRec a u t else t, u)
    | .noAdapt, _, _ => (t, adapterGive l q s)
    | _, _, _ => (t, spoilOutputs r.map (s.outputsOf l q) (adapterGive l q s))
  let s := endWaits l q st (countRetire l (s.setLane l fun L => L.retire r t))
  let s := deliver l q s
  if l = 0 then lookRetire q seen s else s

/-- A heat whose last segment has ended, and before which every earlier heat of its lane has retired, retires; where an output write
failed, it restarts instead. It waits while its lane is rebuilt (R225) or holds 64 completions (R224); in a scrub it is discarded (R214). -/
def heatRetire (l : LaneId) (q : W32) (seen : LookSeen) (s : State) : State :=
  match (s.lane l).runs with
  | r :: _ =>
    if r.seq != q || r.st != .ended || (s.lane l).recovering || (s.lane l).stalled || (s.lane l).st == .scrub then s
    else if r.writeFailed && r.failed.isNone then restartHeat l q s
    else retireHeat l q r seen s
  | [] => s

def execHeatRetire (lane : LaneId) (seq : W32) (seen : LookSeen) (s : State) : Host.Outcome State Fault Refusal :=
  .next (heatRetire lane seq seen s)

/-! ## Grants (R164, R175) and the spinner key (R453) -/

/-- The owner of L3 writes ADn_GRANT. -/
def adapterGrantWrite (p : Path) (n : Fin 8) (v : W32) (s : State) : State :=
  if s.ownsLane p 3 then s.setAd n fun d => { d with l1 := bit v 1, l2 := bit v 2 } else s

def execAdapterGrantWrite (path : Path) (n : Fin 8) (v : W32) (s : State) : Host.Outcome State Fault Refusal :=
  .next (adapterGrantWrite path n v s)

/-- LANEn_SPIN_LO is held for the path that wrote it. -/
def spinLoWrite (p : Path) (l : LaneId) (v : W32) (s : State) : State :=
  if s.ownsLane p l then s.setLane l fun L => { L with spinHeld := L.spinHeld.filter (fun h => h.1 != p) ++ [(p, v)] } else s

/-- LANEn_SPIN_HI puts both halves in force. -/
def spinHiWrite (p : Path) (l : LaneId) (v : W32) (s : State) : State :=
  if s.ownsLane p l then
    s.setLane l fun L =>
      let lo := ((L.spinHeld.find? fun h => h.1 == p).map Prod.snd).getD (L.spin.setWidth 32)
      { L with spin := v ++ lo, spinHeld := L.spinHeld.filter fun h => h.1 != p }
  else s

def execSpinLoWrite (path : Path) (lane : LaneId) (v : W32) (s : State) : Host.Outcome State Fault Refusal :=
  .next (spinLoWrite path lane v s)
def execSpinHiWrite (path : Path) (lane : LaneId) (v : W32) (s : State) : Host.Outcome State Fault Refusal :=
  .next (spinHiWrite path lane v s)

end Sys2Proof.Machine
end

