-- ==== Sys2Proof/Machine/Governor.lean ====
section
/-! DEFINITION. The governor's loop (R404), the activity counters and the STAT block (R161, R424, R457, R458), and the shadows of
two-word registers (R453). -/

namespace Sys2Proof.Machine
open Sys2Proof

/-! ## The governor -/

/-- Start-up has let Cox firmware run (step 9 of R411). -/
def Phase.coxRuns (p : Phase) : Bool := p == .training || p == .ready || p == .up

/-- Work left of each running heat, and the time it has for it in tenths of a REF tick, at least 100 µs. -/
def needs (s : State) : List (Nat × Nat) :=
  (List.finRange 4).flatMap fun l => (s.lane l).runs.filterMap fun r =>
    match s.entryOf l r.seq with
    | some e =>
      if r.started && r.failed.isNone && r.st != .ended then
        some (e.variants[r.variant].work - r.busiest, Nat.max (e.deadline * 384 - r.counted s.steady * 10) 38400)
      else none
    | none => none

/-- The step of R404 in mV, for a rate in Mstroke/s: 1.05 and 1.20 times need in exact integers. -/
def governorStep (rate mw : Nat) (s : State) : Int :=
  let hot := s.sense.temp.any fun t => decide (1680 ≤ t.toInt)
  let ns := needs s
  if decide (fld s.rail.ctrl 16 13 < mw) || hot then -10
  else if ns.any fun n => decide (rate * n.2 * 100 < 40320 * n.1) then 25
  else if ns.all fun n => decide (46080 * n.1 < rate * n.2 * 100) then -5
  else 0

/-- The rail after a step. -/
def stepped (set : Nat) (step : Int) : Nat := (max 550 (min 880 ((set : Int) + step))).toNat

/-- REF ticks between two readings of the governor: 100 µs. -/
def governorPeriod : Nat := 3840

/-- The rate of a shell in Mstroke/s since the last reading: its strokes against the REF ticks, 38.4 of which are a microsecond (R29). -/
def State.shellRate (s : State) (i : ShellId) : Nat :=
  ((s.shell i).strokes - s.rail.govCount[i]).toNat * 384 / ((s.now - s.rail.govTick).toNat * 10)

/-- The highest measured rate among some shells: that of the busiest. -/
def State.topRate (s : State) (l : List ShellId) : Nat := (l.map s.shellRate).foldl Nat.max 0

/-- A running heat keeps the rate last measured on its busiest shell (R219); a period in which none of its strokes ran measures nothing. -/
def HeatRun.measure (s : State) (r : HeatRun) : HeatRun :=
  let x := s.topRate (r.strokes.filterMap fun p => fin? 18 p.1)
  if r.st == .segment && decide (0 < x) then { r with rate := x } else r

def State.measureHeats (s : State) : State :=
  { s with lanes := s.lanes.map fun (L : Lane) => { L with runs := L.runs.map (HeatRun.measure s) } }

/-- Every 100 µs: the rate of the busiest active shell and the power over 100 ms are read, and in AUTO a step is requested. The tick
lets time pass up to the end of its period, and as many REF ticks further as the firmware is late, where that lies ahead
(notes/assumptions/3). -/
def governorTick (late mw : W16) (s : State) : State :=
  if s.rail.floor || !s.start.phase.coxRuns then s
  else
    let s := elapseTo (s.rail.govTick.toNat + governorPeriod + late.toNat) s
    let scrub := s.lanes.any fun l => l.st == .scrub
    let rate := s.topRate (s.shellsIn .active)
    let s := s.measureHeats.govRead
    let step := governorStep rate mw.toNat s
    let s := s.setRail fun r => { r with
      rate := BitVec.ofNat 16 (Nat.min rate 0xFFFF), powerMw := if scrub then r.powerMw else mw, hidden := s.confidential }
    if s.rail.gov = .auto ∧ step ≠ 0 then railRequest (stepped s.rail.requested.toNat step) s else s

def execGovernorTick (late mw : W16) (s : State) : Host.Outcome State Fault Refusal := .next (governorTick late mw s)

/-! ## Activity counters -/

/-- A 10 ms window ends: its counts are shown, and the next begins. A lane in SCRUB keeps what it showed. -/
def statWindowEnd (s : State) : State :=
  let shown := mapIdx s.stat.laneShown fun l c => if (s.lane l).st = .scrub then c else s.stat.lane[l]
  { s with stat :=
    { window := s.stat.window + 1#32, dev := {}, devShown := s.stat.dev, lane := Vector.replicate 4 {}, laneShown := shown
      hidden := s.confidential } }

def execStatWindowEnd (s : State) : Host.Outcome State Fault Refusal := .next (statWindowEnd s)

/-- A count in multiples of 1,024. -/
def coarse (n : Nat) : W32 := w32 (Nat.min n 0xFFFFFC00 / 1024 * 1024)

def State.statHidden (s : State) : Bool := s.confidential || s.stat.hidden

/-! ## Two-word registers (R453) -/

def Path.idx : Path → Fin 4
  | .cox => 0 | .call => 1 | .host => 2 | .string => 3

def State.setShadow (s : State) (p : Path) (f : Shadows → Shadows) : State := { s with shadows := upd s.shadows p.idx f }

/-- A read of a LO register: the low half, and the upper half into the path's shadow. -/
def readLo (p : Path) (v : W64) (set : W32 → Shadows → Shadows) (s : State) : W32 × State :=
  (v.setWidth 32, s.setShadow p (set ((v >>> 32).setWidth 32)))

/-- A read of a HI register: the shadow, or the current upper half where the path has not read the LO register. -/
def readHi (p : Path) (v : W64) (get : Shadows → Option W32) (s : State) : W32 :=
  (get s.shadows[p.idx]).getD ((v >>> 32).setWidth 32)

/-! ## The STAT block -/

/-- The device counters in the order of their offsets. -/
def DevCounts.list (c : DevCounts) : List Nat := [c.strokes, c.retired, c.dramRd, c.dramWr, c.bh, c.codes, c.aes, c.win]

def LaneCounts.list (c : LaneCounts) : List Nat := [c.strokes, c.dram, c.bh, c.retired]

def sat32 (n : Nat) : W32 := w32 (Nat.min n 0xFFFFFFFF)

/-- NW of the last retired heat. -/
def HeatStat.elem (h : HeatStat) : W64 := BitVec.ofNat 64 h.counts.nw

/-- HSn registers of lane l, for its owner (R161). -/
def readHs (p : Path) (l : LaneId) (o : Nat) (s : State) : W32 × State :=
  let h := (s.lane l).hs
  if !s.ownsLane p l then (0#32, s)
  else if o = 0x14 then readLo p h.elem (fun v x => { x with hs := put x.hs l (some v) }) s
  else (
    if o = 0x00 then h.seq
    else if o = 0x04 then h.flags
    else if o = 0x08 then sat32 h.counts.cw
    else if o = 0x0C then sat32 h.counts.sw
    else if o = 0x10 then sat32 h.counts.fw
    else if o = 0x18 then readHi p h.elem (fun x => x.hs[l]) s
    else if o = 0x1C then sat32 (h.counts.cr + h.counts.ca)
    else 0#32, s)

/-- A register of the STAT block, at an offset from 0x0_6000. -/
def readStat (p : Path) (o : Nat) (s : State) : W32 × State :=
  if o = 0 then (s.stat.window, s)
  else if o < 0x24 then (if s.statHidden then 0#32 else coarse (s.stat.devShown.list.getD (o / 4 - 1) 0), s)
  else if 0x100 ≤ o ∧ o < 0x140 then
    let l : LaneId := ⟨(o - 0x100) / 0x10 % 4, Nat.mod_lt _ (by decide)⟩
    (if s.statHidden || !s.ownsLane p l then 0#32 else coarse (s.stat.laneShown[l].list.getD (o % 0x10 / 4) 0), s)
  else if 0x200 ≤ o ∧ o < 0x280 then readHs p ⟨(o - 0x200) / 0x20 % 4, Nat.mod_lt _ (by decide)⟩ (o % 0x20) s
  else (0#32, s)

end Sys2Proof.Machine
end

