-- ==== Sys2Proof/Machine/Ear.lean ====
section
/-! DEFINITION. The Ear and audio out (R280 to R296, R304 to R306), and the EAR verb (R346). -/

namespace Sys2Proof.Machine
open Sys2Proof

def State.setEar (s : State) (f : Ear → Ear) : State := { s with ear := f s.ear }
def Ear.setChan (e : Ear) (n : Fin 8) (f : MicChan → MicChan) : Ear := { e with chan := upd e.chan n f }
def Ear.setRing (e : Ear) (k : Fin 2) (f : CapRing → CapRing) : Ear := { e with ring := upd e.ring k f }
def Ear.setAudo (e : Ear) (f : AudioOut → AudioOut) : Ear := { e with audo := f e.audo }

/-! ## Who may write (R305) -/

/-- The error of a write of the Ear settings: they belong to the owner of ring 1's lane while its EN is set, and to the engine
otherwise. -/
def earBar (s : State) (p : Path) : Option Err :=
  if s.ear.ring[1].en then (if s.ownsLane p s.ear.ring[1].lane then none else some .lane)
  else if p = .cox then none else some .state

/-- An access to the EAR block; a fenced domain is not reached. -/
def earAccess (s : State) (f : State → State) : State := if s.domFenced Dom.ear then s else f (touch Dom.ear s)

/-! ## Channels (R285 to R288) -/

def chGain (r : BitVec 24) : Nat := r.toNat / 2 ^ 20 % 16
def chOrder (r : BitVec 24) : Nat := r.toNat / 2 ^ 16 % 4
def chNotchEn (r : BitVec 24) : Bool := r.getLsbD 15
def chNotchF (r : BitVec 24) : Nat := r.toNat % 2 ^ 15

/-- 0.45 of the output rate in Hz. -/
def notchTop (osr : BitVec 2) : Nat := match osr.toNat with | 0 => 43200 | 1 => 21600 | _ => 10800

/-- NOTCHF is one the notch can take. -/
def notchFits (osr : BitVec 2) (r : BitVec 24) : Bool := decide (20 ≤ chNotchF r ∧ chNotchF r ≤ notchTop osr)

/-- The notch is in force. -/
def notchOn (osr : BitVec 2) (r : BitVec 24) : Bool := chNotchEn r && notchFits osr r

/-- Invalid words of a restart: filter and notch. -/
def restartWords (osr : BitVec 2) (r : BitVec 24) : Nat := 5 + chOrder r + (if notchOn osr r then 2 else 0)

/-- Invalid words of a change from one setting to another (R287). -/
def changeWords (osr : BitVec 2) (old new : BitVec 24) : Nat :=
  let restart := chOrder old != chOrder new || chNotchEn old != chNotchEn new || chNotchF old != chNotchF new
  (if restart then restartWords osr new else 0) + (if chGain old = chGain new then 0 else 1)

/-- A write of EAR_CHn: GAIN 15 and ORDER 3 leave their fields as they are. -/
def chWord (old : BitVec 24) (v : W32) : BitVec 24 :=
  let g := if fld v 20 4 = 15 then chGain old else fld v 20 4
  let o := if fld v 16 2 = 3 then chOrder old else fld v 16 2
  BitVec.ofNat 24 (g * 2 ^ 20 + o * 2 ^ 16 + fld v 0 16)

/-- A setting of a channel takes effect at once, or at the next boundary while capture runs. -/
def setCh (n : Fin 8) (f : BitVec 24 → BitVec 24) (s : State) : State :=
  s.setEar fun e => e.setChan n fun c =>
    if e.run then { c with next := some (f (c.next.getD c.reg)) } else { c with reg := f c.reg }

/-- A write to EAR_CHn (R287). -/
def earChWrite (p : Path) (n : Fin 8) (v : W32) (s : State) : State :=
  earAccess s fun s => if (earBar s p).isSome then s else setCh n (fun r => chWord r v) s

/-- A write to EAR_ENABLE: channels join or leave at the next boundary (R284). -/
def earEnableWrite (p : Path) (v : W32) (s : State) : State :=
  earAccess s fun s => if (earBar s p).isSome then s else s.setEar fun e => { e with enable := v.setWidth 8 }

def execEarChWrite (path : Path) (n : Fin 8) (v : W32) (s : State) : Host.Outcome State Fault Refusal := .next (earChWrite path n v s)
def execEarEnableWrite (path : Path) (v : W32) (s : State) : Host.Outcome State Fault Refusal := .next (earEnableWrite path v s)

/-! ## Start and stop (R283, R284) -/

def earStartBit (s : State) : State :=
  if s.ear.run || trigOf s.ear.trigSrc != 0 then s else s.setEar fun e => { e with startReq := true }

def earStopBit (s : State) : State := if s.ear.run then s.setEar fun e => { e with stopReq := true } else s

def earCtrlStart (path : Path) (s : State) : State := earAccess s fun s => if (earBar s path).isSome then s else earStartBit s

def execEarCtrlStart (path : Path) (s : State) : Host.Outcome State Fault Refusal := .next (earCtrlStart path s)
def earCtrlStop (path : Path) (s : State) : State := earAccess s fun s => if (earBar s path).isSome then s else earStopBit s

def execEarCtrlStop (path : Path) (s : State) : Host.Outcome State Fault Refusal := .next (earCtrlStop path s)

/-- Every enabled modulator starts. -/
def MicChan.start (osr : BitVec 2) (on : Bool) (c : MicChan) : MicChan :=
  if on then { c with running := true, invalid := restartWords osr c.reg } else { c with running := false, invalid := 0 }

/-- The Ear runs: its domain is up and its clock is there. -/
def State.earClocked (s : State) : Bool := s.domUp Dom.ear && !s.clk.absent.getLsbD Clk.earck.val

/-- A trigger of a source stands: START is written, or an event of a timer channel or of TRIG_IN arrives at a tick (R283, R296). -/
def triggered (src : Nat) (req : Bool) (arriving : Option W64) (s : State) : Option State :=
  if src = 0 then (if req then some s else none) else arriving.map fun t => elapseTo t.toNat s

/-- A block that the end of a capture has left open has yet to get its header (R293). -/
def Ear.closing (e : Ear) : Bool := !e.run && e.ring.any fun r => r.en && r.sets != 0

/-- A capture ring has EN set: the stream takes the words. -/
def Ear.captures (e : Ear) : Bool := e.ring[0].en || e.ring[1].en

/-- The first EARCK edge after the trigger has crossed: capture runs, and sets are numbered from 0. What the last capture left is written
before. -/
def earCaptureStart (s : State) : State :=
  let e := s.ear
  if e.run || !s.earClocked || e.closing || !e.buffer.isEmpty && e.captures then s
  else match triggered (trigOf e.trigSrc) e.startReq e.arriving s with
  | none => s
  | some s => s.setEar fun e => { e with
    run := true, startReq := false, stopReq := false, arriving := none, nextSample := 0#64
    chan := mapIdx e.chan fun i c => c.start e.osr (e.enable.getLsbD i.val)
    ring := e.ring.map fun (r : CapRing) => { r with start := 0#64 } }

def execEarCaptureStart (s : State) : Host.Outcome State Fault Refusal := .next (earCaptureStart s)

/-! ## Output boundaries (R287 to R292) -/

/-- Pending changes, joins and leaves take effect at a boundary. -/
def MicChan.boundary (osr : BitVec 2) (on : Bool) (c : MicChan) : MicChan :=
  let r := c.next.getD c.reg
  if !on then { c with reg := r, next := none, running := false, invalid := 0 }
  else
    let n := if c.running then changeWords osr c.reg r
      else restartWords osr r + (if chGain c.reg = chGain r then 0 else 1)
    { c with reg := r, next := none, running := true, invalid := Nat.max c.invalid n }

/-- A result word (R289). -/
def micWord (valid ovr clip : Bool) (n : Nat) (d : BitVec 24) : W32 :=
  bitAt valid 31 ||| bitAt ovr 30 ||| bitAt (valid && clip) 29 ||| atBit n 24 5 ||| (if valid then d.setWidth 32 else 0#32)

/-- A running channel delivers its word. -/
def MicChan.deliver (n : Nat) (d : BitVec 24) (clip : Bool) (c : MicChan) : MicChan :=
  if c.running then
    { c with result := micWord (c.invalid == 0) c.full clip n d, full := true, invalid := c.invalid - 1 }
  else c

/-- Bits of a byte from a predicate on channels. -/
def chanBits (f : Fin 8 → Bool) : Byte := BitVec.ofNat 8 ((List.finRange 8).foldl (fun n i => if f i then n + 2 ^ i.val else n) 0)

/-- A setting is in force: the ring's first block starts. A tally that has waited with it is in force too (R294). -/
def CapRing.apply (ok : Bool) (v : W32) (start : W64) (r : CapRing) : CapRing :=
  let t := r.nextTally.getD (r.tallyEn, r.tally)
  { en := ok, nblk := BitVec.ofNat 3 (fld v 28 3), lane := ringLane v, bank := BitVec.ofNat 6 (fld v 16 6)
    block := BitVec.ofNat 16 (fld v 0 16), tallyEn := t.1 && t.2.val / 256 == (ringLane v).val, tally := t.2, start := start }

/-- Ring writes that wait take effect. -/
def ringsDue (s : State) : State :=
  (List.finRange 2).foldl (fun s k => match s.ear.ring[k].next with
    | some v => s.setEar fun e => e.setRing k (CapRing.apply (ringOk s k v) v e.nextSample)
    | none => s) s

/-- The stream takes the result words as one sample set, when a ring is enabled and the buffer has room. -/
def takeSet (s : State) : State :=
  let e := s.ear
  if e.captures && decide (e.buffer.length < 64) then
    let ws := (List.finRange 8).map fun i => if e.chan[i].running && e.chan[i].full then e.chan[i].result else 0#32
    s.setEar fun e => { e with
      buffer := e.buffer ++ [{ number := e.nextSample, tick := s.now, mask := e.enable, osr := e.osr, words := ws }]
      chan := e.chan.map fun (c : MicChan) => { c with result := 0#32, full := false } }
  else s

/-- An output boundary: changes take effect, every running channel delivers its word, and the stream takes the set. -/
def earBoundary (samples : List (BitVec 24 × Bool)) (s : State) : State :=
  if !s.ear.run || !s.earClocked then s
  else
    let s := s.setEar fun e => { e with chan := mapIdx e.chan fun i c => c.boundary e.osr (e.enable.getLsbD i.val) }
    let s := ringsDue s
    let at_ (i : Fin 8) : BitVec 24 × Bool := samples.getD i.val (0#24, false)
    let s := s.setEar fun e => { e with
      ovrSeen := e.ovrSeen ||| chanBits fun i => e.chan[i].running && e.chan[i].full
      clipSeen := e.clipSeen ||| chanBits fun i => e.chan[i].running && e.chan[i].invalid == 0 && (at_ i).2
      chan := mapIdx e.chan fun i c => c.deliver i.val (at_ i).1 (at_ i).2 }
    let s := takeSet s
    s.setEar fun e =>
      let e := { e with nextSample := e.nextSample + 1#64 }
      if e.stopReq then { e with
        run := false, stopReq := false
        chan := e.chan.map fun (c : MicChan) => { c with running := false, invalid := 0, reg := c.next.getD c.reg, next := none } }
      else e

def execEarOutputBoundary (samples : List (BitVec 24 × Bool)) (s : State) : Host.Outcome State Fault Refusal :=
  .next (earBoundary samples s)

/-- A read of EAR_RESULTn takes the word when no capture ring is enabled (R291). -/
def readEarResult (n : Fin 8) (s : State) : W32 × State :=
  if s.ear.captures then (0#32, s)
  else (s.ear.chan[n].result, s.setEar fun e => e.setChan n fun c => { c with result := 0#32, full := false })

def earResultRead (path : Path) (n : Fin 8) (s : State) : State := earAccess s fun s => let (v, s) := readEarResult n s; s.answered path v

def execEarResultRead (path : Path) (n : Fin 8) (s : State) : Host.Outcome State Fault Refusal := .next (earResultRead path n s)

/-! ## Capture rings (R292 to R294) -/

/-- The Boathouse takes writes of the Ear stream there. -/
def State.bankTakes (s : State) (b : Nat) : Bool := !s.rail.floor && (match fin? 64 b with | some k => s.bankUp k | none => false)

/-- Boathouse offset of the ring slot of the block being written. -/
def CapRing.slotAt (r : CapRing) : Nat :=
  r.bank.toNat * 0x80000 + r.slot.val * capBlockBytes r.block.toNat

/-- The slot of the next block: the blocks take the slots in turn. -/
def CapRing.slotNext (r : CapRing) : Fin 8 := if r.slot.val < r.nblk.toNat then ⟨(r.slot.val + 1) % 8, Nat.mod_lt _ (by decide)⟩ else 0

/-- A write of bytes to the Boathouse by a stream. -/
def streamWrite (off : Nat) (b : List Byte) (s : State) : State :=
  (List.range ((b.length + 255) / 256)).foldl (fun s _ => s.countBh none) { s with mem := { s.mem with bh := s.mem.bh.put off b } }

/-- A set enters a ring's block. -/
def CapRing.enter (c : CapSet) (r : CapRing) : CapRing :=
  let r := if r.sets = 0 then { r with sample := c.number, tFirst := c.tick, chMask := c.mask, osr := c.osr, lost := 0, ovr := false } else r
  { r with
    lost := r.lost + (c.number - (r.sample + BitVec.ofNat 64 (r.sets + r.lost))).toNat
    ovr := r.ovr || c.words.any fun w => bit w 30
    sets := r.sets + 1 }

/-- A ring takes a set. -/
def CapRing.takes (c : CapSet) (r : CapRing) : Bool := r.en && decide (r.start.toNat ≤ c.number.toNat)

/-- The oldest buffered set is written to the enabled rings; a block whose header is due, or a bank that refuses, makes it wait. -/
def captureSetWrite (s : State) : State :=
  match s.ear.buffer with
  | c :: rest =>
    let e := s.ear
    let room (r : CapRing) : Bool := !r.takes c || decide (r.sets < r.block.toNat)
    let up (r : CapRing) : Bool := !r.takes c ||
      let b := (r.slotAt + 64 + 32 * r.sets) / 0x80000
      s.bankTakes b && !s.arbBusy (bankPort b) 1 4
    if e.ring.all fun r => room r && up r then
      let put (s : State) (k : Fin 2) : State :=
        let r := s.ear.ring[k]
        if r.takes c then
          (streamWrite (r.slotAt + 64 + 32 * r.sets) (c.words.flatMap fun w => leBytes w.toNat 4) s).setEar fun e =>
            e.setRing k (CapRing.enter c)
        else s
      put (put (s.setEar fun e => { e with buffer := rest }) 0) 1
    else s
  | [] => s

def execCaptureSetWrite (s : State) : Host.Outcome State Fault Refusal := .next (captureSetWrite s)

/-- A block header (R293). -/
def CapRing.header (r : CapRing) (degraded : Bool) : List Byte :=
  leBytes 0x30524145 4 ++ leBytes r.blockNo.toNat 4 ++ leBytes r.sample.toNat 8 ++ leBytes r.tFirst.toNat 8 ++
    [r.chMask, r.osr.setWidth 8, BitVec.ofNat 8 (boolNat r.first + 2 * boolNat degraded + 4 * boolNat r.ovr), 0#8] ++
    leBytes r.lost 4 ++ leBytes r.sets 4 ++ List.replicate 28 0#8

/-- A block is complete, or closed by the end of capture: its header is written and acknowledged, and the ring's tally is added to. -/
def captureBlockComplete (k : Fin 2) (s : State) : State :=
  let r := s.ear.ring[k]
  let due := r.en && (r.sets == r.block.toNat || (!s.ear.run && s.ear.buffer.isEmpty && r.sets != 0))
  if due && s.bankTakes (r.slotAt / 0x80000) then
    let s := streamWrite r.slotAt (r.header s.clk.degraded) s
    let s := if r.tallyEn then s.tallyAdd r.tally.val 1 else s
    s.setEar fun e => e.setRing k fun r => { r with
      blockNo := r.blockNo + 1#32, slot := r.slotNext, sets := 0, lost := 0, first := false, ovr := false }
  else s

def execCaptureBlockComplete (ring : Fin 2) (s : State) : Host.Outcome State Fault Refusal := .next (captureBlockComplete ring s)

/-- A setting of a capture ring: at once, or at the next boundary while capture runs. -/
def setCapRing (k : Fin 2) (v : W32) (s : State) : State :=
  if s.ear.run then s.setEar fun e => e.setRing k fun r => { r with next := some v }
  else s.setEar fun e => e.setRing k (CapRing.apply (ringOk s k v) v 0#64)

/-! ## The audio ring (R296) -/

def setAudoRing (v : W32) (s : State) : State :=
  let ok := audoRingOk s v
  s.setEar fun e => e.setAudo fun a =>
    let l := (ringLane v).val
    { a with
      en := ok, nblk := BitVec.ofNat 3 (fld v 28 3), lane := ringLane v, bank := BitVec.ofNat 6 (fld v 16 6)
      blockLen := BitVec.ofNat 16 (fld v 0 16), fillEn := a.fillEn && a.fill.val / 256 == l, doneEn := a.doneEn && a.done.val / 256 == l }

/-- A write of EAR_RING0, EAR_RING1 or AUDO_RING by a path (R305). -/
def earRingWrite (p : Path) (k : Fin 3) (v : W32) (s : State) : State :=
  earAccess s fun s =>
    if k = 0 then (if p = .cox then setCapRing 0 v s else s)
    else if !s.ownsLane p (ringLane v) then s
    else if k = 1 then setCapRing 1 v s
    else if s.ear.audo.en && !s.ownsLane p s.ear.audo.lane then s else setAudoRing v s

def execEarRingWrite (path : Path) (ring : Fin 3) (v : W32) (s : State) : Host.Outcome State Fault Refusal :=
  .next (earRingWrite path ring v s)

/-! ## Microphone bias (R282) -/

def micbiasReady (n : Fin 2) (s : State) : State :=
  if s.ear.biasEn[n] then s.setEar fun e => { e with biasReady := put e.biasReady n true } else s

def execMicbiasReady (n : Fin 2) (s : State) : Host.Outcome State Fault Refusal := .next (micbiasReady n s)

/-- EN and LEVEL of a bias; it reports READY anew after it is enabled. -/
def setBias (n : Fin 2) (on : Bool) (level : Nat) (s : State) : State :=
  s.setEar fun e => { e with
    biasEn := put e.biasEn n on, biasReady := put e.biasReady n (on && e.biasEn[n] && e.biasReady[n])
    biasLevel := if level = 3 then e.biasLevel else put e.biasLevel n (BitVec.ofNat 2 level) }

/-! ## Playback (R295, R296) -/

/-- A path may write AUDO_CTRL and AUDO_TALLY. -/
def audoMay (s : State) (p : Path) : Bool := s.ownsLane p s.ear.audo.lane

def audoStartBit (s : State) : State :=
  if s.ear.audo.run || trigOf s.ear.audo.trigSrc != 0 then s else s.setEar fun e => e.setAudo fun a => { a with startReq := true }

def audoStopBit (s : State) : State :=
  if s.ear.audo.run then s.setEar fun e => e.setAudo fun a => { a with stopReq := true } else s

def audoCtrlStart (path : Path) (s : State) : State := earAccess s fun s => if audoMay s path then audoStartBit s else s

def execAudoCtrlStart (path : Path) (s : State) : Host.Outcome State Fault Refusal := .next (audoCtrlStart path s)
def audoCtrlStop (path : Path) (s : State) : State := earAccess s fun s => if audoMay s path then audoStopBit s else s

def execAudoCtrlStop (path : Path) (s : State) : Host.Outcome State Fault Refusal := .next (audoCtrlStop path s)

/-- Audio out has its domain and its clock. -/
def State.audoClocked (s : State) : Bool := s.domUp Dom.ear && !s.clk.absent.getLsbD Clk.audo.val

/-- The first FS after the trigger has crossed: block 0 is next. -/
def audoPlaybackStart (s : State) : State :=
  let a := s.ear.audo
  if a.run || !s.audoClocked then s
  else match triggered (trigOf a.trigSrc) a.startReq a.arriving s with
  | none => s
  | some s => s.setEar fun e => e.setAudo fun a => { a with
    run := true, startReq := false, stopReq := false, arriving := none, block := 0, frame := 0, inBlock := false, played := false }

def execAudoPlaybackStart (s : State) : Host.Outcome State Fault Refusal := .next (audoPlaybackStart s)

/-- Slots of a frame on the wire; later TDM slots are driven 0. -/
def AudioOut.wire (a : AudioOut) (d : List (BitVec 24)) : List (BitVec 24) :=
  d ++ List.replicate ((if a.format = 0#1 then 2 else 8) - d.length) 0#24

/-- The samples of frame f of the block to play. -/
def audoSamples (s : State) (f : Nat) : List (BitVec 24) :=
  let a := s.ear.audo
  let n := a.data
  let at_ := a.bank.toNat * 0x80000 + a.block % (a.nblk.toNat + 1) * audoBlockBytes n a.blockLen.toNat + 4 * n * f
  (List.range n).map fun k => BitVec.ofNat 24 (s.mem.bh.nat (at_ + 4 * k) 4)

/-- The block to play is ready: FILL satisfies its number plus 1. -/
def audoReady (s : State) : Bool :=
  let a := s.ear.audo
  a.en && a.fillEn && !s.rail.floor && satisfied (s.tally a.fill.val) (BitVec.ofNat 16 (a.block + 1))

/-- A frame of the block is sent; after the last one DONE is added to. -/
def audoPlay (s : State) : State :=
  let a := s.ear.audo
  let d := audoSamples s a.frame
  if a.frame + 1 < a.blockLen.toNat then
    s.setEar fun e => e.setAudo fun a => { a with frame := a.frame + 1, inBlock := true, lastFrame := a.wire d }
  else
    let s := s.setEar fun e => e.setAudo fun a => { a with
      frame := 0, inBlock := false, block := a.block + 1, played := true, lastFrame := a.wire d }
    if a.doneEn then s.tallyAdd a.done.val 1 else s

/-- A frame boundary: audio out stops, plays on, starts a ready block, or sends zeros. -/
def audoFrame (s : State) : State :=
  let a := s.ear.audo
  if !a.run || !s.audoClocked then s
  else if a.stopReq then s.setEar fun e => e.setAudo fun a => { a with run := false, stopReq := false, inBlock := false, lastFrame := [] }
  else if a.inBlock || audoReady s then audoPlay s
  else s.setEar fun e => e.setAudo fun a => { a with
    lastFrame := a.wire [], under := if a.played then satInc a.under else a.under }

def execAudoFrame (s : State) : Host.Outcome State Fault Refusal := .next (audoFrame s)

def readUnder (s : State) : W32 × State := (s.ear.audo.under, s.setEar fun e => e.setAudo fun a => { a with under := 0#32 })

def audoUnderRead (path : Path) (s : State) : State := earAccess s fun s => let (v, s) := readUnder s; s.answered path v

def execAudoUnderRead (path : Path) (s : State) : Host.Outcome State Fault Refusal := .next (audoUnderRead path s)

/-! ## Registers (R306) -/

def Ear.status (e : Ear) : W32 :=
  atBit (chanBits fun i => chNotchEn e.chan[i].reg && !notchFits e.osr e.chan[i].reg).toNat 8 8 |||
    (chanBits fun i => e.chan[i].invalid != 0).setWidth 32

def Ear.bias (e : Ear) : W32 :=
  bitAt e.biasReady[1] 31 ||| bitAt e.biasReady[0] 30 ||| bitAt e.biasEn[1] 15 ||| atBit e.biasLevel[1].toNat 12 2 |||
    bitAt e.biasEn[0] 7 ||| atBit e.biasLevel[0].toNat 4 2

/-- Number of the latest sample set; 0 before the first. -/
def Ear.latest (e : Ear) : W64 := if e.nextSample = 0#64 then 0#64 else e.nextSample - 1#64

/-- The lane of a ring once a write that waits is in force. -/
def CapRing.laneNext (r : CapRing) : LaneId := (r.next.map ringLane).getD r.lane

/-- EAR_CHn reads as written, though the write may wait for the next boundary (R8, R287). -/
def MicChan.written (c : MicChan) : BitVec 24 := c.next.getD c.reg

/-- EAR_RINGn and EAR_TALLYn as written, EN as it will be where the write waits (R8, R293, R294). -/
def ringRead (s : State) (k : Fin 2) : W32 :=
  let r := s.ear.ring[k]
  match r.next with
  | some v => (v &&& 0x733FFFFF#32) ||| bitAt (ringOk s k v) 31
  | none => r.word

def tallyRead (s : State) (k : Fin 2) : W32 :=
  let r := s.ear.ring[k]
  let t := r.nextTally.getD (r.tallyEn, r.tally)
  bitAt (t.1 && t.2.val / 256 == r.laneNext.val) 31 ||| w32 t.2.val

/-- A register of the EAR block, at an offset from 0x0_A000. -/
def readEar (p : Path) (o : Nat) (s : State) : W32 × State :=
  let e := s.ear
  if 0x30 ≤ o ∧ o < 0x50 then readEarResult ⟨(o - 0x30) / 4 % 8, Nat.mod_lt _ (by decide)⟩ s
  else if o = 0x50 then readLo p e.latest (fun v x => { x with ear := some v }) s
  else if o = 0x8C then readUnder s
  else (
    if o = 0x00 then bitAt e.run 15 ||| atBit e.osr.toNat 8 2 ||| e.trigSrc.setWidth 32 ||| bitAt e.startReq 31 ||| bitAt e.stopReq 30
    else if o = 0x04 then e.enable.setWidth 32
    else if o = 0x08 then e.status
    else if o = 0x0C then atBit e.ovrSeen.toNat 8 8 ||| e.clipSeen.setWidth 32
    else if 0x10 ≤ o ∧ o < 0x30 then (e.chan.toList.getD ((o - 0x10) / 4) {}).written.setWidth 32
    else if o = 0x54 then readHi p e.latest (fun x => x.ear) s
    else if o = 0x58 then e.bias
    else if o = 0x60 then ringRead s 0
    else if o = 0x64 then tallyRead s 0
    else if o = 0x68 then ringRead s 1
    else if o = 0x6C then tallyRead s 1
    else if o = 0x80 then bitAt e.audo.run 15 ||| atBit e.audo.format.toNat 8 2 ||| atBit e.audo.slots.toNat 4 3 |||
      e.audo.trigSrc.setWidth 32 ||| bitAt e.audo.startReq 31 ||| bitAt e.audo.stopReq 30
    else if o = 0x84 then e.audo.ringWord
    else if o = 0x88 then bitAt e.audo.fillEn 31 ||| atBit e.audo.fill.val 16 10 ||| bitAt e.audo.doneEn 15 ||| w32 e.audo.done.val
    else 0#32, s)

def tallyNo (n : Nat) : Fin 1024 := ⟨n % 1024, Nat.mod_lt _ (by decide)⟩

/-- EAR_TALLYn: the tally lies in the ring's lane, or EN reads 0. With a ring write that waits, the tally waits too. -/
def setCapTally (k : Fin 2) (en : Bool) (t : Nat) (s : State) : State :=
  s.setEar fun e => e.setRing k fun r =>
    if r.next.isSome then { r with nextTally := some (en, tallyNo t) }
    else { r with tally := tallyNo t, tallyEn := en && t % 1024 / 256 == r.lane.val }

def setOsr (v : Nat) (s : State) : State :=
  if s.ear.run ∨ v = 3 then s else s.setEar fun e => { e with osr := BitVec.ofNat 2 v }

/-- TRIGSRC is written: a trigger of another source is none any more. -/
def Ear.setTrig (k : BitVec 4) (e : Ear) : Ear := { e with trigSrc := k, arriving := if k = e.trigSrc then e.arriving else none }
def AudioOut.setTrig (k : BitVec 4) (a : AudioOut) : AudioOut := { a with trigSrc := k, arriving := if k = a.trigSrc then a.arriving else none }

/-- A write of EAR_CTRL. -/
def earCtrl (v : W32) (s : State) : State :=
  let s := (setOsr (fld v 8 2) s).setEar (Ear.setTrig (BitVec.ofNat 4 (fld v 0 4)))
  let s := if bit v 31 then earStartBit s else s
  if bit v 30 then earStopBit s else s

/-- FORMAT 0 or 1 and SLOTS, while audio out does not run; EN of AUDO_RING reads 0 where the ring no longer fits. -/
def setFormat (f sl : Nat) (s : State) : State :=
  if s.ear.audo.run then s
  else refit (s.setEar fun e => e.setAudo fun a => { a with
    format := if f < 2 then BitVec.ofNat 1 f else a.format, slots := BitVec.ofNat 3 sl })

/-- A write of AUDO_CTRL. -/
def audoCtrl (v : W32) (s : State) : State :=
  let s := (setFormat (fld v 8 2) (fld v 4 3) s).setEar fun e => e.setAudo (AudioOut.setTrig (BitVec.ofNat 4 (fld v 0 4)))
  let s := if bit v 31 then audoStartBit s else s
  if bit v 30 then audoStopBit s else s

/-- AUDO_TALLY: each tally lies in the ring's lane, or its EN reads 0. -/
def audoTally (v : W32) (s : State) : State :=
  s.setEar fun e => e.setAudo fun a => { a with
    fill := tallyNo (fld v 16 10), fillEn := bit v 31 && fld v 24 2 == a.lane.val
    done := tallyNo (fld v 0 10), doneEn := bit v 15 && fld v 8 2 == a.lane.val }

def writeEar (p : Path) (o : Nat) (v : W32) (s : State) : State :=
  let mine (f : State → State) : State := if (earBar s p).isSome then s else f s
  if o = 0x00 then mine (earCtrl v)
  else if o = 0x04 then earEnableWrite p v s
  else if o = 0x0C then s.setEar fun e => { e with
    ovrSeen := e.ovrSeen &&& ~~~BitVec.ofNat 8 (fld v 8 8), clipSeen := e.clipSeen &&& ~~~BitVec.ofNat 8 (fld v 0 8) }
  else if 0x10 ≤ o ∧ o < 0x30 then earChWrite p ⟨(o - 0x10) / 4 % 8, Nat.mod_lt _ (by decide)⟩ v s
  else if o = 0x58 then mine fun s => setBias 0 (bit v 7) (fld v 4 2) (setBias 1 (bit v 15) (fld v 12 2) s)
  else if o = 0x60 then earRingWrite p 0 v s
  else if o = 0x64 then (if p = .cox then setCapTally 0 (bit v 31) (fld v 0 10) s else s)
  else if o = 0x68 then earRingWrite p 1 v s
  else if o = 0x6C then
    (if s.ownsLane p ⟨fld v 8 2, Nat.mod_lt _ (by decide)⟩ then setCapTally 1 (bit v 31) (fld v 0 10) s else s)
  else if o = 0x80 then (if audoMay s p then audoCtrl v s else s)
  else if o = 0x84 then earRingWrite p 2 v s
  else if o = 0x88 then (if audoMay s p then audoTally v s else s)
  else s

/-! ## The EAR verb (R346) -/

def earGate (c : Caller) (s : State) (k : State → State) : State := domGate c "EAR" Dom.ear s k

/-- A verb on the Ear settings. -/
def earSettings (c : Caller) (s : State) (k : State → State) : State :=
  earGate c s fun s => match earBar s c.path.path with
    | some e => s.fail c "EAR" e
    | none => k s

def osrText (o : BitVec 2) : String := toString (64 * 2 ^ o.toNat)

def earCtrlFields (e : Ear) : List (String × Val) :=
  [symF "osr" (osrText e.osr), ("ch", .hex 2 e.enable.toNat), symF "trig" (trigText "START" (trigOf e.trigSrc)), symF "run" (onOff e.run)]

def earChFields (n : Fin 8) (e : Ear) : List (String × Val) :=
  let r := e.chan[n].reg
  [bareF "CH", ("", .dec n.val), decF "gain" (3 * chGain r), decF "order" (3 + chOrder r),
   ("notch", if chNotchEn r then .dec (chNotchF r) else .sym "OFF")]

def levelText (l : BitVec 2) : String := match l.toNat with | 0 => "1.2" | 1 => "1.4" | _ => "1.6"

def earBiasFields (n : Fin 2) (e : Ear) : List (String × Val) :=
  [bareF "BIAS", ("", .dec n.val), bareF (onOff e.biasEn[n]), symF "level" (levelText e.biasLevel[n]), symF "ready" (onOff e.biasReady[n])]

def tallyName (t : Nat) : String :=
  "T" ++ (if t < 10 then "000" else if t < 100 then "00" else if t < 1000 then "0" else "") ++ toString t

def tallyVal (en : Bool) (t : Fin 1024) : Val := if en then .sym (tallyName t.val) else .dash

/-- A capture ring as it is in force. -/
def earRingFields (k : Fin 2) (s : State) : List (String × Val) :=
  let r := s.ear.ring[k]
  if r.en then [bareF "RING", laneF r.lane, decF "bank" r.bank.toNat, decF "nblk" (r.nblk.toNat + 1), decF "block" r.block.toNat,
    ("tally", tallyVal r.tallyEn r.tally)]
  else [bareF "RING", bareF "OFF"]

def earOutFields (a : AudioOut) : List (String × Val) :=
  [bareF "OUT"] ++ (if a.en then [laneF a.lane, decF "bank" a.bank.toNat, decF "nblk" (a.nblk.toNat + 1), decF "block" a.blockLen.toNat]
    else [bareF "OFF"]) ++
  [symF "format" (if a.format = 0#1 then "I2S" else "TDM"), decF "slots" a.data, ("fill", tallyVal a.fillEn a.fill),
   ("done", tallyVal a.doneEn a.done), symF "run" (onOff a.run)]

def doEarState (c : Caller) (s : State) : State :=
  earGate c s fun s => s.okWith c
    (((List.finRange 8).map fun n => earChFields n s.ear) ++ ((List.finRange 2).map fun n => earBiasFields n s.ear) ++
      ((List.finRange 2).map fun k => earRingFields k s) ++ [earOutFields s.ear.audo])
    "EAR" (bareF "STATE" :: earCtrlFields s.ear)

def doEarStart (c : Caller) (osr : Option (BitVec 2)) (ch : Option Byte) (trig : Option (BitVec 4)) (s : State) : State :=
  earSettings c s fun s =>
    if s.ear.run then s.fail c "EAR" .state
    else if osr = some 3#2 ∨ trig.any (fun t => decide (9 < t.toNat)) then s.fail c "EAR" .range
    else
      let s := s.setEar fun e => { e.setTrig (trig.getD e.trigSrc) with osr := osr.getD e.osr, enable := ch.getD e.enable }
      let s := earStartBit s
      s.ok c "EAR" (bareF "START" :: earCtrlFields s.ear)

def doEarStop (c : Caller) (s : State) : State :=
  earSettings c s fun s => let s := earStopBit s; s.ok c "EAR" (bareF "STOP" :: earCtrlFields s.ear)

/-- A gain in dB is one of 0 to 42 in steps of 3. -/
def gainOk (g : Option Int) : Bool := g.all fun g => decide (0 ≤ g ∧ g ≤ 42 ∧ g % 3 = 0)

/-- EAR_CHn after EAR CH. -/
def chSet (gain : Option Int) (order : Option (BitVec 2)) (notch : Option (Option Nat)) (r : BitVec 24) : BitVec 24 :=
  let g := (gain.map fun g => g.toNat / 3).getD (chGain r)
  let o := (order.map BitVec.toNat).getD (chOrder r)
  let n := match notch with
    | some (some f) => 32768 + f
    | some none => chNotchF r
    | none => r.toNat % 65536
  BitVec.ofNat 24 (g * 2 ^ 20 + o * 2 ^ 16 + n)

def doEarCh (c : Caller) (n : Fin 8) (gain : Option Int) (order : Option (BitVec 2)) (notch : Option (Option Nat)) (s : State) : State :=
  earSettings c s fun s =>
    if !gainOk gain || order == some 3#2 || !below 32768 (notch.getD none) then s.fail c "EAR" .range
    else
      let s := setCh n (chSet gain order notch) s
      s.ok c "EAR" (earChFields n s.ear)

def doEarBias (c : Caller) (n : Fin 2) (on : Bool) (level : Option (BitVec 2)) (s : State) : State :=
  earSettings c s fun s =>
    if level = some 3#2 then s.fail c "EAR" .range
    else
      let s := setBias n on ((level.map BitVec.toNat).getD 3) s
      s.ok c "EAR" (earBiasFields n s.ear)

/-- The word of a ring setting. -/
def ringWordOf (l : LaneId) (bank nblk block : Nat) : W32 :=
  bitAt true 31 ||| atBit (nblk - 1) 28 3 ||| atBit l.val 24 2 ||| atBit bank 16 6 ||| atBit block 0 16

/-- The numbers of a ring setting lie in their fields, and its tallies in the lane. -/
def ringArgs (l : LaneId) (bank nblk block : Nat) (ts : List (Option Nat)) : Bool :=
  decide (bank < 64 ∧ 1 ≤ nblk ∧ nblk ≤ 8 ∧ 16 ≤ block ∧ block < 65536) &&
    ts.all fun t => t.all fun t => decide (t / 256 = l.val)

def doEarRing (c : Caller) (l : LaneId) (bank nblk block : Nat) (tally : Option Nat) (s : State) : State :=
  earGate c s fun s => match laneMay c l s with
    | .error e => s.fail c "EAR" e
    | .ok _ =>
      let w := ringWordOf l bank nblk block
      if !ringArgs l bank nblk block [tally] || !ringOk s 1 w then s.fail c "EAR" .range
      else
        let s := setCapTally 1 tally.isSome (tally.getD 0) (setCapRing 1 w s)
        s.ok c "EAR" (earRingFields 1 s)

def doEarRingOff (c : Caller) (s : State) : State :=
  earSettings c s fun s =>
    let s := setCapRing 1 (s.ear.ring[1].word &&& 0x7FFFFFFF#32) s
    s.ok c "EAR" (earRingFields 1 s)

def doEarOut (c : Caller) (l : LaneId) (bank nblk block : Nat) (tdm : Option Bool) (slots : Option Nat) (fill done : Option Nat)
    (s : State) : State :=
  earGate c s fun s => match laneMay c l s with
    | .error e => s.fail c "EAR" e
    | .ok _ =>
      let a := s.ear.audo
      if a.en && !s.ownsLane c.path.path a.lane then s.fail c "EAR" .lane
      else if a.run && (tdm.isSome || slots.isSome) then s.fail c "EAR" .state
      else if !ringArgs l bank nblk block [fill, done] || !(slots.all fun n => decide (1 ≤ n ∧ n ≤ 8)) then s.fail c "EAR" .range
      else
        let t := setFormat ((tdm.map boolNat).getD a.format.toNat) ((slots.map fun n => n - 1).getD a.slots.toNat) s
        let w := ringWordOf l bank nblk block
        if !audoRingOk t w then s.fail c "EAR" .range
        else
          let tw := bitAt fill.isSome 31 ||| atBit (fill.getD 0) 16 10 ||| bitAt done.isSome 15 ||| atBit (done.getD 0) 0 10
          let s := audoTally tw (setAudoRing w t)
          s.ok c "EAR" (earOutFields s.ear.audo)

/-- A verb on audio out as AUDO_RING names it. -/
def audoVerb (c : Caller) (s : State) (k : State → State) : State :=
  earGate c s fun s =>
    if !s.ear.audo.en then s.fail c "EAR" .state
    else if !audoMay s c.path.path then s.fail c "EAR" .lane else k s

def doEarOutStart (c : Caller) (s : State) : State :=
  audoVerb c s fun s =>
    if s.ear.audo.run || trigOf s.ear.audo.trigSrc != 0 then s.fail c "EAR" .state
    else let s := audoStartBit s; s.ok c "EAR" (earOutFields s.ear.audo)

def doEarOutStop (c : Caller) (s : State) : State :=
  audoVerb c s fun s => let s := audoStopBit s; s.ok c "EAR" (earOutFields s.ear.audo)

def execEarState (c : Caller) (s : State) : Host.Outcome State Fault Refusal := .next (doEarState c s)
def execEarStart (c : Caller) (osr : Option (BitVec 2)) (ch : Option Byte) (trig : Option (BitVec 4)) (s : State) :
    Host.Outcome State Fault Refusal := .next (doEarStart c osr ch trig s)
def execEarStop (c : Caller) (s : State) : Host.Outcome State Fault Refusal := .next (doEarStop c s)
def execEarCh (c : Caller) (n : Fin 8) (gain : Option Int) (order : Option (BitVec 2)) (notch : Option (Option Nat)) (s : State) :
    Host.Outcome State Fault Refusal := .next (doEarCh c n gain order notch s)
def execEarBias (c : Caller) (n : Fin 2) (on : Bool) (level : Option (BitVec 2)) (s : State) : Host.Outcome State Fault Refusal :=
  .next (doEarBias c n on level s)
def execEarRing (c : Caller) (lane : LaneId) (bank nblk block : Nat) (tally : Option Nat) (s : State) :
    Host.Outcome State Fault Refusal := .next (doEarRing c lane bank nblk block tally s)
def execEarRingOff (c : Caller) (s : State) : Host.Outcome State Fault Refusal := .next (doEarRingOff c s)
def execEarOut (c : Caller) (lane : LaneId) (bank nblk block : Nat) (tdm : Option Bool) (slots : Option Nat) (fill done : Option Nat)
    (s : State) : Host.Outcome State Fault Refusal := .next (doEarOut c lane bank nblk block tdm slots fill done s)
def execEarOutStart (c : Caller) (s : State) : Host.Outcome State Fault Refusal := .next (doEarOutStart c s)
def execEarOutStop (c : Caller) (s : State) : Host.Outcome State Fault Refusal := .next (doEarOutStop c s)

end Sys2Proof.Machine
end

