-- ==== Sys2Proof/Machine/Sense.lean ====
section
/-! DEFINITION. The sensing converter (R297 to R303, R305, R307, R463) and the SENSE verb (R346). -/

namespace Sys2Proof.Machine
open Sys2Proof

def State.setSense (s : State) (f : Sense → Sense) : State := { s with sense := f s.sense }

def seqEn (w : W32) : Bool := bit w 31
def seqOsr (w : W32) : BitVec 2 := BitVec.ofNat 2 (fld w 29 2)
def seqSettle (w : W32) : Byte := BitVec.ofNat 8 (fld w 16 8)
def seqInput (w : W32) : BitVec 5 := BitVec.ofNat 5 (fld w 0 5)

/-- The converter's domain is up, and it has its clock. -/
def State.snsRuns (s : State) : Bool := s.domUp Dom.sns && !s.clk.absent.getLsbD Clk.sns.val

/-! ## Passes (R299, R300) -/

/-- The next enabled entry from an index on. -/
def Sense.nextFrom (x : Sense) (k : Nat) : Option (Fin 32) := (List.finRange 32).find? fun i => decide (k ≤ i.val) && seqEn x.seq[i]

/-- Entry i starts with the settings it has now: settling, or conversion at once where there is none. -/
def Sense.enter (i : Fin 32) (x : Sense) : Sense :=
  let w := x.seq[i]
  { x with cur := w, run := if seqSettle w = 0#8 then .converting i else .settling i }

/-- Entry i is over: the next enabled one starts, or the pass ends and is counted. -/
def Sense.leave (i : Fin 32) (hidden : Bool) (x : Sense) : Sense :=
  match x.nextFrom (i.val + 1) with
  | some j => x.enter j
  | none => { x with run := .idle, pass := x.pass + 1#8, hidden := hidden }

/-- A pass starts once the previous one has ended and PERIOD has passed. -/
def sensePassStart (s : State) : State :=
  if s.sense.run == .idle && s.snsRuns then
    match s.sense.nextFrom 0 with
    | some i => s.setSense (Sense.enter i)
    | none => s
  else s

def execSensePassStart (s : State) : Host.Outcome State Fault Refusal := .next (sensePassStart s)

/-- Settling is over and conversion starts. -/
def senseSettleDone (s : State) : State :=
  if !s.snsRuns then s
  else match s.sense.run with
    | .settling i => s.setSense fun x => { x with run := .converting i }
    | .urgSettling u => s.setSense fun x => { x with run := .urgConverting u }
    | _ => s

def execSenseSettleDone (s : State) : Host.Outcome State Fault Refusal := .next (senseSettleDone s)

/-! ## Results (R301) -/

/-- A result word. -/
def senseWord (ovr urg : Bool) (src pass data : Nat) : W32 :=
  bitAt true 31 ||| bitAt ovr 30 ||| bitAt urg 29 ||| atBit src 24 5 ||| atBit pass 20 4 ||| atBit data 0 20

/-- Inputs whose user readings confidential mode hides (R423). -/
def secretInput (i : BitVec 5) : Bool := decide (14 ≤ i.toNat ∧ i.toNat ≤ 27)

/-- A user result reaches SENSE_DATA; in confidential mode a hidden one has DATA 0. -/
def senseData (urg : Bool) (src : Nat) (input : BitVec 5) (data : Nat) (s : State) : State :=
  let d := if s.confidential && secretInput input then 0 else data
  s.setSense fun x => { x with data := senseWord (bit x.data 31) urg src x.pass.toNat d }

/-- A temperature in 1/16 °C from the sensor's fuses: (DATA × GAIN) // 2^20 + OFF (R463). -/
def temperature (s : State) (t : Nat) (data : Nat) : BitVec 16 :=
  BitVec.ofNat 16 (data * otpField s.fuse.shadow (2944 + 32 * t + 16) 16 / 2 ^ 20 + otpField s.fuse.shadow (2944 + 32 * t) 16)

/-- Millivolts on a 1.2 V or a 2.4 V scale. -/
def milliVolts (scale data : Nat) : Nat := (2 * data * scale + 2 ^ 20) / 2 ^ 21

/-- The latest VDD_CORE reading; below 500 mV it stops the fabric, and at 500 mV or more the fabric goes on (R14). -/
def coreMv (data : Nat) (s : State) : State := railMeasured (BitVec.ofNat 10 (Nat.min (milliVolts 1200 data) 1023)) s

/-- A step of entry 31's round: temperatures reach SENSE_HOT. -/
def roundStep (data : Nat) (s : State) : State :=
  let k := s.sense.round
  let next : Fin 13 := if h : k.val + 1 < 13 then ⟨k.val + 1, h⟩ else 0
  let s := match fin? 9 (k.val - 4) with
    | some t => if 4 ≤ k.val then s.setSense fun x => { x with temp := put x.temp t (temperature s t.val data) } else s
    | none => s
  s.setSense fun x => { x with round := next }

/-- The result of an entry. -/
def entryResult (i : Fin 32) (data : Nat) (s : State) : State :=
  let input := seqInput s.sense.cur
  let s := s.setSense fun x => { x with last := put x.last i (senseWord false false i.val x.pass.toNat data) }
  if i = 31 then roundStep data s
  else if i = 30 then coreMv data s
  else
    let s := senseData false i.val input data s
    match fin? 4 (input.toNat - 8) with
    | some n => if 8 ≤ input.toNat then touchResult n data s else s
    | none => s

def inputNames : List String :=
  ["SENSE0", "SENSE1", "SENSE2", "SENSE3", "SENSE4", "SENSE5", "SENSE6", "SENSE7", "TOUCH0", "TOUCH1", "TOUCH2", "TOUCH3", "PLUG0",
   "PLUG1", "BANDGAP", "VDD_CORE", "VDD_SRAM", "VDDIO_18", "VDDA_18", "TEMP0", "TEMP1", "TEMP2", "TEMP3", "TEMP4", "TEMP5", "TEMP6",
   "TEMP7", "TEMP8"]

/-- Thousandths with their unit, in tenths for the SENSE READ reply: 720.0mV (R346). -/
def tenths (n : Nat) (unit : String) : String := toString (n / 10) ++ "." ++ toString (n % 10) ++ unit

/-- The value of a reading in its unit. -/
def senseValue (s : State) (input data : Nat) : String :=
  if input < 8 ∨ (12 ≤ input ∧ input ≤ 16) then tenths ((2 * data * 12000 + 2 ^ 20) / 2 ^ 21) "mV"
  else if input ≤ 11 then tenths ((2 * data * 2000 + 2 ^ 20) / 2 ^ 21) "pF"
  else if input ≤ 18 then tenths ((2 * data * 24000 + 2 ^ 20) / 2 ^ 21) "mV"
  else
    let t := (temperature s (input - 19) data).toInt * 10
    let n := (2 * t.natAbs + 16) / 32
    (if t < 0 ∧ n ≠ 0 then "-" else "") ++ tenths n "C"

/-- The reply of SENSE READ; in confidential mode a hidden reading shows no value. -/
def senseReply (c : Caller) (input : BitVec 5) (data : Nat) (s : State) : State :=
  let hide := s.confidential && secretInput input
  s.ok c "SENSE" [bareF (inputNames.getD input.toNat ""), ("data", if hide then .dash else .dec data),
    ("value", if hide then .dash else .sym (senseValue s input.toNat data))]

/-- The result of an urgent conversion. -/
def urgentResult (u : Urgent) (data : Nat) (s : State) : State :=
  let user (s : State) : State :=
    senseData true u.input.toNat u.input data (s.setSense fun x => { x with go := false, userHold := true })
  match u.by_ with
  | .user => user s
  | .read c => senseReply c u.input data (user s)
  | .rail => railConfirm (BitVec.ofNat 10 (Nat.min (milliVolts 1200 data) 1023)) s
  | .plug n second => plugResult n second data s

/-- After an urgent conversion, the interrupted entry is redone from its start. -/
def Sense.resume (x : Sense) : Sense :=
  match x.interrupted with
  | some i => { x with interrupted := none }.enter i
  | none => { x with run := .idle }

/-- A conversion ends. -/
def senseConversionDone (data : BitVec 20) (s : State) : State :=
  if !s.snsRuns then s
  else match s.sense.run with
    | .converting i =>
      let s := entryResult i data.toNat s
      s.setSense fun x => { x with aborts := 0, userHold := false }.leave i s.confidential
    | .urgConverting u => (urgentResult u data.toNat s).setSense Sense.resume
    | _ => s

def execSenseConversionDone (data : BitVec 20) (s : State) : Host.Outcome State Fault Refusal := .next (senseConversionDone data s)

/-! ## Urgent requests (R302, R303) -/

/-- The request that runs next: the engine's first, then the user's unless an entry must complete before it. -/
def Sense.pick (x : Sense) : Option (Urgent × Sense) :=
  match x.engineQ with
  | u :: r => some (u, { x with engineQ := r })
  | [] => if x.userHold then none else x.userQ.map fun u => (u, { x with userQ := none })

def Sense.enterUrgent (u : Urgent) (x : Sense) : Sense := { x with run := if u.settle = 0#8 then .urgConverting u else .urgSettling u }

/-- A request that has crossed starts: it aborts the running entry, but none more than twice in a row. -/
def urgentStart (s : State) : State :=
  if !s.snsRuns then s
  else
    let abort (i : Fin 32) : State :=
      if s.sense.aborts < 2 then
        match s.sense.pick with
        | some (u, x) => s.setSense fun _ => { x with interrupted := some i, aborts := x.aborts + 1 }.enterUrgent u
        | none => s
      else s
    match s.sense.run with
    | .idle =>
      match s.sense.pick with
      | some (u, x) => s.setSense fun _ => { x with interrupted := none }.enterUrgent u
      | none => s
    | .settling i => abort i
    | .converting i => abort i
    | _ => s

def execUrgentRequestStart (s : State) : Host.Outcome State Fault Refusal := .next (urgentStart s)

/-- SENSE registers are open to the Call line and the host link, to the String Port as to them, and to the engine (R305, R445). -/
def setUrgent (by_ : UrgentBy) (v : W32) (s : State) : State :=
  s.setSense fun x => { x with
    urgent := v &&& 0x60FF001F#32, go := true
    userQ := some { by_ := by_, input := seqInput v, settle := seqSettle v, osr := seqOsr v } }

/-- Input codes from 28 on are no inputs of a request (R297, R300). -/
def realInput (i : BitVec 5) : Bool := decide (i.toNat < 28)

/-- A write of SENSE_URGENT: ignored while GO reads 1. -/
def senseUrgentGo (v : W32) (s : State) : State :=
  if s.sense.go then s
  else if bit v 31 && realInput (seqInput v) then setUrgent .user v s
  else s.setSense fun x => { x with urgent := v &&& 0x60FF001F#32 }

def execSenseUrgentGo (_path : Path) (v : W32) (s : State) : Host.Outcome State Fault Refusal := .next (senseUrgentGo v s)

/-! ## Registers (R307) -/

def readSenseData (s : State) : W32 × State := (s.sense.data, s.setSense fun x => { x with data := 0#32 })

def senseDataRead (path : Path) (s : State) : State := let (v, s) := readSenseData s; s.answered path v

def execSenseDataRead (path : Path) (s : State) : Host.Outcome State Fault Refusal := .next (senseDataRead path s)

/-- The hottest sensor and its temperature. -/
def Sense.hottest (x : Sense) : Fin 9 :=
  (List.finRange 9).foldl (fun (b i : Fin 9) => if x.temp[b].toInt < x.temp[i].toInt then i else b) 0

def State.senseHidden (s : State) : Bool := s.confidential || s.sense.hidden

def senseStatus (x : Sense) : W32 :=
  let (i, u) : Nat × Bool := match x.run with
    | .settling i => (i.val, false)
    | .converting i => (i.val, false)
    | .urgConverting _ => ((x.interrupted.map Fin.val).getD 0, true)
    | .urgSettling _ => ((x.interrupted.map Fin.val).getD 0, true)
    | .idle => (0, false)
  atBit i 16 5 ||| bitAt u 15 ||| x.pass.setWidth 32

/-- A register of the SENSE block but SENSE_DATA, at an offset from 0x0_B000. -/
def readSense (o : Nat) (s : State) : W32 :=
  let x := s.sense
  if o = 0x00 then x.period.setWidth 32
  else if o = 0x08 then x.urgent ||| bitAt x.go 31
  else if o = 0x0C then senseStatus x
  else if o = 0x10 then (if s.senseHidden then 0#32 else atBit x.hottest.val 28 4 ||| x.temp[x.hottest].setWidth 32)
  else if 0x80 ≤ o ∧ o < 0x100 then x.seq.toList.getD ((o - 0x80) / 4) 0#32
  else if 0x100 ≤ o ∧ o < 0x180 then
    let k := (o - 0x100) / 4
    if s.senseHidden && decide (k < 30) && secretInput (seqInput (x.seq.toList.getD k 0#32)) then 0#32 else x.last.toList.getD k 0#32
  else 0#32

/-- A write of SENSE_SEQk: entries 30 and 31 and inputs 28 to 31 are refused. -/
def senseSeqWrite (k : Nat) (v : W32) (s : State) : State :=
  match fin? 30 k with
  | some i => if realInput (seqInput v) then s.setSense fun x => { x with seq := x.seq.set i.val (v &&& 0xE0FF001F#32) (by omega) } else s
  | none => s

def writeSense (o : Nat) (v : W32) (s : State) : State :=
  if o = 0x00 then s.setSense fun x => { x with period := v.setWidth 16 }
  else if o = 0x08 then senseUrgentGo v s
  else if 0x80 ≤ o ∧ o < 0x100 then senseSeqWrite ((o - 0x80) / 4) v s
  else s

/-! ## The SENSE verb (R346) -/

def osrWord (o : BitVec 2) : Nat := 1024 * 2 ^ o.toNat

def senseSeqFields (k : Nat) (s : State) : List (String × Val) :=
  let w := s.sense.seq.toList.getD k 0#32
  [bareF "SEQ", ("", .dec k)] ++
    (if seqEn w then [symF "input" (inputNames.getD (seqInput w).toNat "ROUND"), decF "settle" (seqSettle w).toNat,
      decF "osr" (osrWord (seqOsr w))] else [bareF "OFF"])

def doSenseState (c : Caller) (s : State) : State :=
  s.gate c "SENSE" false <| s.okWith c
    (((List.range 32).filter fun k => seqEn (s.sense.seq.toList.getD k 0#32)).map fun k => senseSeqFields k s)
    "SENSE" [bareF "STATE", decF "period" s.sense.period.toNat, decF "pass" s.sense.pass.toNat]

def seqWordOf (input : BitVec 5) (settle : Nat) (osr : BitVec 2) : W32 :=
  bitAt true 31 ||| atBit osr.toNat 29 2 ||| atBit settle 16 8 ||| atBit input.toNat 0 5

/-- SENSE READ: a user urgent request whose result is the reply. -/
def doSenseRead (c : Caller) (input : BitVec 5) (settle : Nat) (osr : BitVec 2) (s : State) : State :=
  s.gate c "SENSE" false <|
    if s.confidential && secretInput input then s.fail c "SENSE" .state
    else if s.sense.go then s.fail c "SENSE" .busy
    else if 255 < settle ∨ realInput input = false then s.fail c "SENSE" .range
    else
      let s := setUrgent (.read c) (seqWordOf input settle osr) s
      if c.path = .call then { s with call := { s.call with running := some "SENSE" } } else s

def doSenseSeq (c : Caller) (k : Nat) (input : BitVec 5) (settle : Nat) (osr : BitVec 2) (s : State) : State :=
  s.gate c "SENSE" false <|
    if 29 < k ∨ 255 < settle ∨ realInput input = false then s.fail c "SENSE" .range
    else
      let s := senseSeqWrite k (seqWordOf input settle osr) s
      s.ok c "SENSE" (senseSeqFields k s)

def doSenseSeqOff (c : Caller) (k : Nat) (s : State) : State :=
  s.gate c "SENSE" false <|
    if 29 < k then s.fail c "SENSE" .range
    else
      let s := senseSeqWrite k (s.sense.seq.toList.getD k 0#32 &&& 0x7FFFFFFF#32) s
      s.ok c "SENSE" (senseSeqFields k s)

def doSensePeriod (c : Caller) (us : Nat) (s : State) : State :=
  s.gate c "SENSE" false <|
    if 65535 < us then s.fail c "SENSE" .range
    else (s.setSense fun x => { x with period := BitVec.ofNat 16 us }).ok c "SENSE" [bareF "PERIOD", ("", .dec us)]

def execSenseState (c : Caller) (s : State) : Host.Outcome State Fault Refusal := .next (doSenseState c s)
def execSenseRead (c : Caller) (input : BitVec 5) (settle : Nat) (osr : BitVec 2) (s : State) : Host.Outcome State Fault Refusal :=
  .next (doSenseRead c input settle osr s)
def execSenseSeq (c : Caller) (k : Nat) (input : BitVec 5) (settle : Nat) (osr : BitVec 2) (s : State) :
    Host.Outcome State Fault Refusal := .next (doSenseSeq c k input settle osr s)
def execSenseSeqOff (c : Caller) (k : Nat) (s : State) : Host.Outcome State Fault Refusal := .next (doSenseSeqOff c k s)
def execSensePeriod (c : Caller) (us : Nat) (s : State) : Host.Outcome State Fault Refusal := .next (doSensePeriod c us s)

end Sys2Proof.Machine
end

