-- ==== Sys2Proof/Machine/Units.lean ====
section
/-! DEFINITION. FENCE, SPARE and REPAIR (R347, R372 to R376, R388 to R390), crashes of Cox processors and takeover (R383 to R386,
R395), failed log-book records (R374), self-tests, repair records (R391) and failed bring-up (R407). -/

namespace Sys2Proof.Machine
open Sys2Proof

/-! ## State of a unit (R375) -/

def CoxRole.unitSt : CoxRole → UnitSt
  | .fenced => .fenced | .passed => .passed | .fused => .fused | .standby => .spare | _ => .active

def UnitSt.role : UnitSt → CoxRole
  | .fenced => .fenced | .passed => .passed | .fused => .fused | .active => .active | .spare => .standby

/-- The state of a unit that calls name; none for the others. -/
def State.unitSt (s : State) : UnitRef → Option UnitSt
  | .shell i => some s.faults.shells[i]
  | .bank p => some s.faults.banks[p]
  | .slice k => some (if s.eye.slice[k].st = .active ∧ s.eye.slice[k].role = .spare then .spare else s.eye.slice[k].st)
  | .cox i => some s.faults.coxRole[i].unitSt
  | .decoder d => some s.faults.decoders[d]
  | .aes p => some s.faults.aes[p]
  | _ => none

def State.setUnitSt (s : State) (u : UnitRef) (t : UnitSt) : State :=
  match u with
  | .shell i => s.setShellSt i t
  | .bank p => s.setBankSt p t
  | .slice k => s.setEye fun e => e.setSlice k fun x => { x with st := t }
  | .cox i => { s with faults := { s.faults with coxRole := put s.faults.coxRole i t.role } }
  | .decoder d => { s with faults := { s.faults with decoders := put s.faults.decoders d t } }
  | .aes p => { s with faults := { s.faults with aes := put s.faults.aes p t } }
  | _ => s

/-- Out of service: FENCED, PASSED or FUSED. -/
def UnitSt.out (t : UnitSt) : Bool := t == .fenced || t == .passed || t == .fused

/-- The power domain that only this unit uses. -/
def UnitRef.dom : UnitRef → Option Dom
  | .shell i => some (Dom.shell i)
  | .cox i => some (Dom.cox i)
  | _ => none

/-! ## Crashes and takeover (R383 to R386) -/

def coxName (i : Fin 3) : String := match i.val with | 0 => "A" | 1 => "B" | _ => "S"

def State.setRole (s : State) (i : Fin 3) (r : CoxRole) : State :=
  { s with faults := { s.faults with coxRole := put s.faults.coxRole i r } }

/-- Who takes over from a processor: the standby, or the other active one. -/
def State.taker (s : State) (i : Fin 3) : Option (Fin 3) :=
  match (List.finRange 3).find? fun j => j != i && s.faults.coxRole[j] == .standby with
  | some j => some j
  | none => (List.finRange 3).find? fun j => j != i && s.coxWorks j

def State.lanesOf (s : State) (i : Fin 3) : List LaneId := (List.finRange 4).filter fun l => s.faults.laneCox[l] == i

/-- A restart of a processor ends: it becomes the standby; the third failure in a row fences it. -/
def coxRestartDone (i : Fin 3) (ok : Bool) (s : State) : State :=
  if s.faults.coxRole[i] ≠ .restarting then s
  else if ok then
    { (s.setRole i .standby) with faults := { (s.setRole i .standby).faults with restartFails := put s.faults.restartFails i 0 } }
  else
    let n := s.faults.restartFails[i] + 1
    let s := { s with faults := { s.faults with restartFails := put s.faults.restartFails i n } }
    if 3 ≤ n then
      let s := (s.setRole i .fenced)
      fenceRecords (.cox i) (some .restartFailed) none { s with power := s.power.fence (Dom.cox i) }
    else s

def execCoxRestartDone (i : Fin 3) (ok : Bool) (s : State) : Host.Outcome State Fault Refusal := .next (coxRestartDone i ok s)

/-- A processor crashes: an active one waits for its takeover, the standby restarts, a crash while restarting is a failed restart. -/
def coxCrash (i : Fin 3) (cause : Cause) (s : State) : State :=
  match s.faults.coxRole[i] with
  | .active =>
    if s.faults.crashed[i] then s
    else
      let ls := s.lanesOf i
      let s := { s with
        faults := { s.faults with crashed := put s.faults.crashed i true }
        lanes := mapIdx s.lanes fun l L => if ls.contains l then { L with recovering := true } else L }
      s.logFault (s.faultRec .fault (.cox i) (some cause))
  | .standby => (s.setRole i .restarting).logFault (s.faultRec .fault (.cox i) (some cause))
  | .restarting => coxRestartDone i false s
  | _ => s

/-- A Cox watchdog trips; below the rail's floor it is paused (R403). -/
def coxWatchdogTrip (i : Fin 3) (s : State) : State := if s.rail.floor then s else coxCrash i .watchdog s

def execCoxWatchdogTrip (i : Fin 3) (s : State) : Host.Outcome State Fault Refusal := .next (coxWatchdogTrip i s)

/-- `- VERB [@tag] E.BUSY takeover`. -/
def takeoverReply (c : Caller) (verb : String) (s : State) : State := s.failWith c verb .busy [bareF "takeover"]

/-- A caller that waits for a burn gets its reply now; the burn goes on without it. -/
def Burn.orphan : Burn → Burn × Option (Caller × String)
  | .vkLoad k h (some c) => (.vkLoad k h none, some (c, "KEY"))
  | .vkRevoke k (some c) => (.vkRevoke k none, some (c, "KEY"))
  | .repair e u (some c) => (.repair e u none, some (c, "REPAIR"))
  | b => (b, none)

/-- Every call that the crashed Call interpreter was processing gets its one reply (R385). -/
def takeoverReplies (s : State) : State :=
  let waits := s.call.wait.toList ++ s.host.waits
  let s := { s with call := { s.call with wait := none }, host := { s.host with waits := [] } }
  let s := waits.foldl (fun s w => takeoverReply w.caller "WAIT" s) s
  let read (u : Urgent) : Option Caller := match u.by_ with | .read c => some c | _ => none
  let quiet (u : Urgent) : Urgent := match u.by_ with | .read _ => { u with by_ := .user } | _ => u
  let running := match s.sense.run with | .urgSettling u => some u | .urgConverting u => some u | _ => none
  let callers := (s.sense.userQ.toList ++ running.toList).filterMap read
  let s := s.setSense fun x => { x with
    userQ := x.userQ.map quiet
    run := match x.run with | .urgSettling u => .urgSettling (quiet u) | .urgConverting u => .urgConverting (quiet u) | r => r }
  let s := callers.foldl (fun s c => takeoverReply c "SENSE" s) s
  let s := match s.firm.erasing with
    | some c => takeoverReply c "FIRM" { s with firm := { s.firm with erasing := none } }
    | none => s
  let burns := (s.fuse.burning.toList ++ s.fuse.queue).filterMap fun b => b.orphan.2
  let s := { s with fuse := { s.fuse with
    burning := s.fuse.burning.map fun b => b.orphan.1, queue := s.fuse.queue.map fun b => b.orphan.1 } }
  burns.foldl (fun s p => takeoverReply p.1 p.2 s) s

/-- A heat whose RETIRE record is not there has not retired, however it had ended: it is ACCEPTED, and runs from its first segment
(R220, R230). What a warm reset has taken from it stays gone (R223). -/
def HeatRun.reopen (r : HeatRun) : HeatRun :=
  match r.failed with
  | none => r
  | some .inputGone => r
  | some _ => { r with st := .waiting, failed := none }

/-- A lane is rebuilt from its journal: its running heats restart, and its held completions are delivered again (R218, R225, R230). -/
def laneTaken (l : LaneId) (s : State) : State :=
  let s := s.setLane l fun L => { L with runs := L.runs.map HeatRun.reopen }
  let qs := ((s.lane l).runs.filter fun r => r.started && r.failed.isNone).map (·.seq)
  let s := qs.foldl (fun s q => restartOne l q s) s
  redeliver l (s.setLane l fun L => { L with recovering := false })

/-- The reply that a failed ACCEPT left to the new owner. -/
def owedReply (p : Caller × Line) (s : State) : State := if p.1.path = .call then s.tx p.2 else s.reply p.1 [p.2]

/-- The takeover from a crashed processor. -/
def coxTakeover (i : Fin 3) (s : State) : State :=
  if !s.faults.crashed[i] then s
  else match s.taker i with
    | none => s
    | some j =>
      let ls := s.lanesOf i
      let calls := s.faults.callCox == i
      let fences := s.faults.fenceCall.filter fun p => p.1 == i
      let owed := s.faults.owed.filter fun p => p.1 == i
      let n := s.faults.takeovers
      let s := (s.setRole j .active).setRole i (if s.domFenced (Dom.cox i) then .fenced else .restarting)
      let s := { s with faults := { s.faults with
        crashed := put s.faults.crashed i false
        laneCox := s.faults.laneCox.map fun c => if c = i then j else c
        callCox := if calls then j else s.faults.callCox
        takeovers := if n < 255 then n + 1 else n
        fenceCall := s.faults.fenceCall.filter fun p => p.1 != i
        owed := s.faults.owed.filter fun p => p.1 != i } }
      let s := s.logFault { s.faultRec .takeover (.cox i) none with result := (UnitRef.cox j).code }
      let s := s.raise (.evt "COX TAKEOVER" [symF "from" (coxName i), symF "by" (coxName j), ("lanes", .syms (ls.map laneName)),
        decF "t" s.clk.tick.toNat])
      let s := owed.foldl (fun s p => owedReply p.2 s) s
      let s := if calls then takeoverReplies s else s
      let s := ls.foldl (fun s l => laneTaken l s) s
      fences.foldl (fun s p => s.ok p.2 "FENCE" [bareF (UnitRef.cox i).text]) s

def execCoxTakeover (i : Fin 3) (s : State) : Host.Outcome State Fault Refusal := .next (coxTakeover i s)

/-! ## Failed log-book records (R374, R385) -/

/-- The reply of an acceptance that has not been sent yet becomes `E.BUSY takeover`. -/
def unAck (l : LaneId) (q : W32) (x : Line) : Line :=
  if x.mark = .ok ∧ x.head = "HEAT" ∧ x.fields = [laneF l, ("", .dec q.toNat), bareF "ACCEPTED"] then
    { x with mark := .fail, fields := [bareF "E.BUSY", bareF "takeover"] }
  else x

/-- A queued line that is no such acknowledgement. -/
def TxItem.keepsAck (l : LaneId) (q : W32) : TxItem → Bool
  | .line x => unAck l q x == x
  | .chars _ => true

/-- The acknowledgements of heat q that wait to be sent, as the replies that take their place, with their callers. -/
def owedReplies (l : LaneId) (q : W32) (s : State) : List (Caller × Line) :=
  (s.call.tx.filterMap fun x => match x with
    | .line y => if unAck l q y == y then none else some ({ Caller.line with tag := y.tag }, unAck l q y)
    | .chars _ => none) ++
  (s.host.ring[l].out.filterMap fun e =>
    if unAck l q e.line == e.line then none else some (⟨.host, e.line.tag, l, e.seq, e.last⟩, unAck l q e.line))

/-- The acknowledgement of heat q waits to be sent, or there is none to send. -/
def ackPending (l : LaneId) (q : W32) (src : Source) (s : State) : Bool :=
  match src with
  | .call => s.call.tx.any fun x => !x.keepsAck l q
  | .host => s.host.ring[l].out.any fun e => unAck l q e.line != e.line
  | .engine => true

/-- An ACCEPT or ARGS record fails its check before the acknowledgement: the heat is not accepted. -/
def acceptFailed (l : LaneId) (q : W32) (s : State) : State :=
  match (s.lane l).run q, (s.lane l).acceptOf q with
  | some r, some a =>
    if !r.started && q + 1#32 == (s.lane l).next && ackPending l q a.source s then
      let s := adapterGive l q s
      let s := s.setLane l fun L => { L with
        next := q, runs := L.runs.filter fun x => x.seq != q, journal := Tab.erase L.journal (q.toNat % 128) }
      let owed := (owedReplies l q s).map fun p => (s.faults.laneCox[l], p)
      let s := { s with faults := { s.faults with owed := s.faults.owed ++ owed } }
      let s := { s with call := { s.call with tx := s.call.tx.filter (TxItem.keepsAck l q) } }
      let s := s.setRing l fun x => { x with out := x.out.filter fun e => unAck l q e.line == e.line }
      coxCrash s.faults.laneCox[l] .journalCheck s
    else s
  | _, _ => s

/-- A STATS or RETIRE record fails its check: the heat has not retired, and restarts with the takeover of its lane. -/
def retireFailed (l : LaneId) (q : W32) (s : State) : State :=
  match (s.lane l).runs with
  | r :: _ => if r.seq == q && r.st == .ended then coxCrash s.faults.laneCox[l] .journalCheck s else s
  | [] => s

/-- A queued line of the LOAD that took a handle: its success reply, or its budgets. -/
def ofLoad (h : Fin 16) (x : Line) : Bool :=
  (x.mark == .ok && x.head == "LOAD" && x.fields.head? == some (decF "h" h.val)) || (x.mark == .data && x.fields.head? == some (bareF "BUDGET"))

def TxItem.ofLoad (h : Fin 16) : TxItem → Bool
  | .line x => Sys2Proof.Machine.ofLoad h x
  | .chars _ => false

/-- The replies of a LOAD that wait to be sent, as the one `E.STATE` that takes their place, with its caller. -/
def owedLoads (h : Fin 16) (s : State) : List (Caller × Line) :=
  let stop (y : Line) : Line := ⟨.fail, "LOAD", y.tag, [bareF Err.state.text]⟩
  (s.call.tx.filterMap fun x => match x with
    | .line y => if ofLoad h y && y.mark == .ok then some ({ Caller.line with tag := y.tag }, stop y) else none
    | .chars _ => none) ++
  (List.finRange 4).flatMap fun l => s.host.ring[l].out.filterMap fun e =>
    if ofLoad h e.line && e.line.mark == .ok then some (⟨.host, e.line.tag, l, e.seq, e.last⟩, stop e.line) else none

/-- The started heats that name a bundle go back to their start. -/
def restartBundle (h : Fin 16) (s : State) : State :=
  restartWhere (fun l r => ((s.lane l).acceptOf r.seq).any fun a => a.handle == h) s

/-- A bundle record fails its check: its place holds CRC 0, and it counts as free (R205, R374). The LOAD leaves nothing in force, and
where it has not been answered it fails with E.STATE (R203, R385); heats that name the handle wait for a bundle in it
(notes/assumptions/16). -/
def bundleFailed (h : Fin 16) (s : State) : State :=
  let owed := (owedLoads h s).map fun p => (s.faults.callCox, p)
  let s := { s with faults := { s.faults with owed := s.faults.owed ++ owed } }
  let s := if owed.isEmpty then s else { s with
    call := { s.call with tx := s.call.tx.filter fun x => !x.ofLoad h }
    host := { s.host with ring := s.host.ring.map fun x => { x with out := x.out.filter fun e => !ofLoad h e.line } } }
  (dropBundle h (restartBundle h s)).setBundle h fun b => { b with recBad := true }

/-- A record that fails its check counts as never written, and its writer is taken over. -/
def logRecordFailed (r : LogWhich) (s : State) : State :=
  let caller (s : State) : State := coxCrash s.faults.callCox .journalCheck s
  match r with
  | .accept l q => acceptFailed l q s
  | .args l q => acceptFailed l q s
  | .stats l q => retireFailed l q s
  | .retire l q => retireFailed l q s
  | .laneRec l => coxCrash s.faults.laneCox[l] .journalCheck (s.setLane l Lane.unwritten)
  | .adapter n => coxCrash s.faults.laneCox[3] .journalCheck (s.setAd n fun _ => {})
  | .bundle h => caller (bundleFailed h s)
  | .fault n => caller { s with faults := { s.faults with
      log := s.faults.log.map fun (x : FaultRec) => if x.number = n then { x with valid := false } else x } }
  | .superblock =>
    let g := s.generation
    let drop (x : Option Nat) : Option Nat := if x = some g then none else x
    caller { s with start := { s.start with superA := drop s.start.superA, superB := drop s.start.superB } }

/-- A log-book record is stored and checked. -/
def logRecordWrite (r : LogWhich) (ok : Bool) (s : State) : State := if ok then s else logRecordFailed r s

def execLogRecordWrite (r : LogWhich) (ok : Bool) (s : State) : Host.Outcome State Fault Refusal := .next (logRecordWrite r ok s)

/-! ## FENCE and SPARE (R347, R372, R376) -/

def sliceCount (s : State) : Nat := ((List.finRange 9).filter fun k => s.eye.slice[k].role != .retired).length

/-- Too little would stay in service. -/
def fenceStops (u : UnitRef) (s : State) : Bool :=
  match u with
  | .shell _ => decide (s.serviceCount < 13)
  | .slice _ => decide (sliceCount s < 5)
  | .decoder _ => decide ((s.faults.decoders.toList.filter fun t => t == .active).length < 2)
  | .aes _ => lastAes s
  | .cox i => (s.taker i).isNone
  | _ => false

/-- An operator fences a slice: where a spare oar is left it takes the slice's position. -/
def fenceSlice (k : Fin 9) (s : State) : State :=
  match s.eye.spare with
  | some j =>
    if j = k then retireSlice k .operatorFence s
    else
      let s := s.setEye fun e =>
        let e := (e.setSlice k fun x => { x with role := .retired, st := .fenced }).setSlice j fun x => { x with role := .active }
        e.setMap (e.mapDue.map fun x => if x = some k then some j else x)
      logSubstitute (.slice k) (.slice j) (fenceRecords (.slice k) (some .operatorFence) none s)
  | none => retireSlice k .operatorFence s

/-- A unit is fenced by an operator. -/
def fenceUnit (u : UnitRef) (s : State) : State :=
  match u with
  | .shell i => fenceShell i (some .operatorFence) s
  | .bank p => fenceBank p (some .operatorFence) s
  | .slice k => fenceSlice k s
  | .decoder d => fenceDecoder d (some .operatorFence) s
  | .aes p => fenceAes p (some .operatorFence) s
  | .cox i => coxCrash i .operatorFence s
  | _ => s

/-- FENCE. A Cox processor that serves answers through its taker (R385). -/
def doFence (c : Caller) (u : UnitRef) (s : State) : State :=
  s.gate c "FENCE" false <|
    match s.unitSt u with
    | none => s.fail c "FENCE" .range
    | some t =>
      if t.out then s.fail c "FENCE" .state
      else if fenceStops u s then s.fail c "FENCE" .fenced
      else
        let t := fenceUnit u s
        match u with
        | .cox i =>
          if t.faults.crashed[i] then
            let t := { t with faults := { t.faults with fenceCall := t.faults.fenceCall ++ [(i, c)] } }
            if c.path = .call then { t with call := { t.call with running := some "FENCE" } } else t
          else t.ok c "FENCE" [bareF u.text]
        | _ => t.ok c "FENCE" [bareF u.text]

def execFence (c : Caller) (u : UnitRef) (s : State) : Host.Outcome State Fault Refusal := .next (doFence c u s)

/-- Pages left for retirement (R241). -/
def sparePages (s : State) : Nat := 256 - s.mem.retired.length

/-- Repair-fuse entries that are used (R392, R397). -/
def fusesUsed (s : State) : Nat := ((List.range 64).filter fun j => otpField s.fuse.shadow (1544 + 16 * j) 16 != 0).length

/-- SPARE; with every repair fuse used it says so (R397). -/
def doSpare (c : Caller) (s : State) : State :=
  s.gate c "SPARE" false <|
    let shells := s.shellsIn .spare
    let banks := (List.finRange 68).filter fun p => s.faults.banks[p] == .spare
    let slices := (List.finRange 9).filter fun k => s.eye.slice[k].role == .spare
    let line (u : UnitRef) : List (String × Val) := [bareF u.text]
    let cox := (List.finRange 3).filter fun i => s.faults.coxRole[i] == .standby
    s.okWith c ((shells.map fun i => line (.shell i)) ++ (banks.map fun p => line (.bank p)) ++ (slices.map fun k => line (.slice k)) ++
        (cox.map fun i => line (.cox i)))
      "SPARE" ([decF "shells" shells.length, decF "banks" banks.length, decF "slices" slices.length, decF "pages" (sparePages s)] ++
        (if fusesUsed s = 64 then [decF "fuses" 64] else []))

def execSpare (c : Caller) (s : State) : Host.Outcome State Fault Refusal := .next (doSpare c s)

/-! ## Self-tests (R388, R389) -/

/-- A self-test begins: confidential mode holds until its end, and the unit's domain is up. -/
def testBegin (u : UnitRef) (asked : Bool) (s : State) : State :=
  s.entering fun s =>
    let p := match u.dom with | some d => { s.power with up := s.power.up ||| domBit d } | none => s.power
    { s with
      power := p
      faults := { s.faults with
        tests := s.faults.tests ++ [{ unit := u, asked := asked }], testsDue := s.faults.testsDue.filter fun x => x.1 != u } }

/-- The automatic test of a unit, 1 s after its fence. -/
def selftestStart (u : UnitRef) (s : State) : State :=
  match s.faults.testsDue.find? fun x => x.1 == u with
  | some (_, t) => if s.unitSt u = some .fenced ∧ s.faults.tests = [] then testBegin u false (elapseTo (t.toNat + oneSecond) s) else s
  | none => s

def execSelftestStart (u : UnitRef) (s : State) : Host.Outcome State Fault Refusal := .next (selftestStart u s)

/-- A self-test ends: a pass makes a FENCED unit PASSED, a failure a PASSED one FENCED; a FUSED one stays as it is. -/
def selftestDone (u : UnitRef) (pass : Bool) (s : State) : State :=
  match s.faults.tests.find? fun t => t.unit == u with
  | some x =>
    let s := { s with faults := { s.faults with tests := s.faults.tests.filter fun t => t.unit != u } }
    let s := if x.asked then repairEnd s else s
    let s := match s.unitSt u with
      | some .fused => s
      | some _ => s.setUnitSt u (if pass then .passed else .fenced)
      | none => s
    let s := match u.dom with | some d => { s with power := { s.power with up := s.power.up &&& ~~~domBit d } } | none => s
    let s := s.logFault { s.faultRec .testResult u (if pass then none else some .selfTestFailed) with result := if pass then 1#16 else 0#16 }
    s.raise (.evt ("REPAIR " ++ u.text ++ (if pass then " PASS" else " FAIL")) [])
  | none => s

def execSelftestDone (u : UnitRef) (pass : Bool) (s : State) : Host.Outcome State Fault Refusal := .next (selftestDone u pass s)

/-! ## REPAIR TEST and REJOIN (R351, R388, R390, R422) -/

/-- A REPAIR call: a unit that calls name, and no other call that holds REPAIR or KEYOP. -/
def repairGate (c : Caller) (u : UnitRef) (s : State) (k : UnitSt → State) : State :=
  s.gate c "REPAIR" false <|
    match s.unitSt u with
    | none => s.fail c "REPAIR" .range
    | some t => if s.keys.repair ≠ 0 ∨ s.keys.keyop ≠ 0 then s.fail c "REPAIR" .busy else k t

def doRepairTest (c : Caller) (u : UnitRef) (s : State) : State :=
  repairGate c u s fun t =>
    if !t.out then s.fail c "REPAIR" .state
    else if s.faults.tests ≠ [] then s.fail c "REPAIR" .busy
    else testBegin u true ((repairStart s).ok c "REPAIR" [bareF u.text, bareF "TEST", bareF "started"])

/-- A PASSED unit is back, as a spare; decoders and AES pipelines are ACTIVE at once. -/
def rejoin (u : UnitRef) (s : State) : State :=
  match u with
  | .shell i =>
    let n := mappedCount s.serviceCount
    let s := (s.setShellSt i .spare)
    let s := residentInto i { s with power := s.power.off (Dom.shell i), faults := { s.faults with hist := put s.faults.hist i ({} : ShellHist) } }
    if n < mappedCount s.serviceCount then remap s else s
  | .bank p => s.setBankSt p (if (s.bankServed p).isSome then .active else .spare)
  | .slice k => (s.setEye fun e => e.setSlice k fun x => { x with role := .spare, st := .active, fails := 0 }).freshCycle
  | .cox i =>
    let s := s.setRole i .standby
    wake (Dom.cox i) { s with power := s.power.off (Dom.cox i), faults := { s.faults with restartFails := put s.faults.restartFails i 0 } }
  | .decoder d => s.setUnitSt (.decoder d) .active
  | .aes p => { (s.setUnitSt (.aes p) .active) with
      faults := { (s.setUnitSt (.aes p) .active).faults with aesFails := put s.faults.aesFails p 0 } }
  | _ => s

def doRepairRejoin (c : Caller) (u : UnitRef) (s : State) : State :=
  repairGate c u s fun t =>
    if t ≠ .passed then s.fail c "REPAIR" .state
    else
      let s := rejoin u (repairStart s)
      let rec_ : RepairRec := { unit := u.code, kind := .rejoined, cause := none, gen := s.generation, detail := 0#64 }
      let s := { s with faults := { s.faults with
        operator := s.faults.operator.filter (fun x => x != u), repairQueue := s.faults.repairQueue ++ [rec_] } }
      let s := s.logFault (s.faultRec .rejoin u none)
      repairEnd (s.ok c "REPAIR" [bareF u.text, bareF "REJOIN"])

def execRepairTest (c : Caller) (u : UnitRef) (s : State) : Host.Outcome State Fault Refusal := .next (doRepairTest c u s)
def execRepairRejoin (c : Caller) (u : UnitRef) (s : State) : Host.Outcome State Fault Refusal := .next (doRepairRejoin c u s)

/-! ## Repair records (R391) -/

/-- A fence that a later REJOINED record of the same unit clears. -/
def RepairRec.cleared (r : RepairRec) (later : List RepairRec) : Bool :=
  (r.kind == .fenced || r.kind == .retired) && later.any fun x => x.kind == .rejoined && x.unit == r.unit

/-- The merged records: fences that were rejoined, and the REJOINED records themselves, are left out. -/
def mergeRecords : List RepairRec → List RepairRec
  | [] => []
  | r :: rest => if r.cleared rest ∨ r.kind = .rejoined then mergeRecords rest else r :: mergeRecords rest

/-- The oldest waiting record is appended to the copy in force, or a full copy is merged into the other; the flash serves the start-up
copy first (R38). -/
def repairRecordWrite (s : State) : State :=
  if s.start.phase = .copying then s else
  match s.faults.repairQueue with
  | r :: rest =>
    let all := s.faults.repairs ++ [r]
    let full := decide (2046 ≤ s.faults.repairs.length)
    let s := { s with faults := { s.faults with
      repairQueue := rest
      repairs := if full then mergeRecords all else all
      repairSerial := if full then s.faults.repairSerial + 1 else s.faults.repairSerial } }
    s.logFault { s.faultRec .recordWritten (.clock 5) r.cause with unit := r.unit, detail := r.detail }
  | [] => s

def execRepairRecordWrite (s : State) : Host.Outcome State Fault Refusal := .next (repairRecordWrite s)

/-! ## Message checks (R373) -/

/-- A message between a Cox processor and a unit has failed its CRC-16, and once more when it was asked for again: a fault of the unit that
sent it. One that passes the second time is no fault (notes/assumptions/24). -/
def messageFailed (u : UnitRef) (again : Bool) (s : State) : State :=
  if again then
    match u with
    | .cox i => coxCrash i .messageCheck s
    | .shell i => restartShell i (logShellFault i .messageCheck s)
    | u => s.logFault (s.faultRec .fault u (some .messageCheck))
  else s

/-! ## Failed bring-up (R407) -/

/-- Heats that have not ended and may use a domain: regions in it, or a bundle there. -/
def usesDom (d : Dom) (l : LaneId) (r : HeatRun) (s : State) : Bool :=
  r.started && r.failed.isNone && match (s.lane l).acceptOf r.seq with
    | some a =>
      let b := s.bundle a.handle
      let inBank (k : Fin 64) : Bool := bankDom k == d
      if d = Dom.mem then !b.onchip || a.args.any fun x => match x with | .region ad _ => decide (ad < 0x4_0000_0000) | _ => false
      else b.banks.any inBank || a.args.any fun x => match x with
        | .region ad n => (List.finRange 64).any fun k => inBank k && decide (bhBase + k.val * 0x80000 < ad + 64 * n ∧ ad < bhBase + (k.val + 1) * 0x80000)
        | _ => false
    | none => false

/-- A domain is not ready within 1 ms: it is fenced as a fault of its unit. -/
def bringupTimeout (d : Dom) (s : State) : State :=
  if !s.power.waking.getLsbD d.val then s
  else
    let fence (s : State) : State := { s with power := s.power.fence d }
    match fin? 18 d.val, fin? 3 (d.val - 22) with
    | some i, _ => fence (fenceShell i none s)
    | none, some i =>
      if 22 ≤ d.val then
        let s := coxCrash i .watchdog s
        if s.faults.crashed[i] then fence s else fence (fenceRecords (.cox i) none none (s.setRole i .fenced))
      else fence (restartWhere (fun l r => usesDom d l r s) s)
    | none, none => if d = Dom.eye then eyeFault s else fence (restartWhere (fun l r => usesDom d l r s) s)

def execDomainBringupTimeout (d : Dom) (s : State) : Host.Outcome State Fault Refusal := .next (bringupTimeout d s)

end Sys2Proof.Machine
end

