-- ==== Sys2Proof/Machine/Keys.lean ====
section
/-! DEFINITION. Fuse burns, the field lock, key records, and the KEY and FUSE blocks and verbs (R347, R392, R425 to R431,
R438, R462, R463). -/

namespace Sys2Proof.Machine
open Sys2Proof

/-! ## Fuses (R462, R463) -/

/-- One more burnt bit, keeping the numbers rising. -/
def otpAdd (k : Nat) : List Nat → List Nat
  | [] => [k]
  | a :: r => if k < a then k :: a :: r else if k = a then a :: r else a :: otpAdd k r

/-- The set bits of a number of n bits, from bit lo of the OTP up. -/
def bitsAt (lo n v : Nat) : List Nat := ((List.range n).filter fun i => v.testBit i).map fun i => lo + i

/-- The bits that a burn burns (R463). -/
def Burn.bits : Burn → List Nat
  | .lock => [1542]
  | .vkLoad k h _ => bitsAt (512 + 256 * k.val) 256 h.toNat
  | .vkRevoke k _ => [1538 + k.val]
  | .repair e u _ => bitsAt (1544 + 16 * e.val) 16 (0x8000 + u.code.toNat)
  | .fwRevoke => [1536]

/-- A burn falls due: it runs at once, or waits for the one that runs. -/
def burnStart (b : Burn) (s : State) : State :=
  if s.fuse.burning.isNone then { s with fuse := { s.fuse with burning := some b } }
  else { s with fuse := { s.fuse with queue := s.fuse.queue ++ [b] } }

def State.locked (s : State) : Bool := otpBit s.fuse.shadow 1542

/-! ## Key records (R428) -/

/-- Hash fuses of firmware key k, and of bundle key k. -/
def fwHash (o : List Nat) (k : Fin 2) : Nat := otpField o (256 * k.val) 256
def vkHash (o : List Nat) (k : Fin 4) : Nat := otpField o (512 + 256 * k.val) 256

def fwRecordAt (k : Fin 2) : Nat := 0x400400 + 0xA0 * k.val
def vkRecordAt (k : Fin 4) : Nat := 0x400540 + 0xA0 * k.val

/-- The public key of a record, and its hash as a fuse field. -/
def recKey (r : List Byte) : List Byte := (r.drop 16).take 64
def recHash (r : List Byte) : Nat := leNat (sha256 (recKey r))

/-- A firmware key that is usable. -/
def fwOk (s : State) (k : Fin 2) : Bool :=
  let h := fwHash s.fuse.shadow k
  h != 0 && recHash (s.flash.range (fwRecordAt k) 160) == h && !otpBit s.fuse.shadow (1536 + k.val)

/-- A bundle key record verifies under a usable firmware key, the one that SIGNER names. -/
def recSigned (s : State) (r : List Byte) : Bool :=
  match fin? 2 (bAt r 5).toNat with
  | some g => fwOk s g && ecdsaP256 (recKey (s.flash.range (fwRecordAt g) 160)) (sha256 (r.take 80)) ((r.drop 80).take 64)
  | none => false

/-- A bundle key that is usable. -/
def vkOk (s : State) (k : Fin 4) : Bool :=
  let h := vkHash s.fuse.shadow k
  let r := s.flash.range (vkRecordAt k) 160
  h != 0 && recHash r == h && !otpBit s.fuse.shadow (1538 + k.val) && recSigned s r

def bitsOf {n : Nat} (f : Fin n → Bool) : Nat := (List.finRange n).foldl (fun m k => if f k then m + 2 ^ k.val else m) 0

/-- Every key record is checked; KEY_FW and KEY_VK show the result. -/
def keyCheck (s : State) : State :=
  { s with keys := { s.keys with fwUsable := BitVec.ofNat 2 (bitsOf (fwOk s)), vkUsable := BitVec.ofNat 4 (bitsOf (vkOk s)) } }

/-! ## A burn completes -/

/-- The reply of the call that a burn serves, and the end of its condition (R422). -/
def burnReply (b : Burn) (s : State) : State :=
  match b with
  | .vkLoad k _ (some c) => keyopEnd (s.ok c "KEY" [bareF "VK", ("", .dec k.val), bareF "LOAD"])
  | .vkRevoke k (some c) => keyopEnd (s.ok c "KEY" [bareF "VK", ("", .dec k.val), bareF "REVOKE"])
  | .repair _ u by_ =>
    let s := s.setUnitSt u .fused
    match by_ with
    | some c => repairEnd (s.ok c "REPAIR" [bareF u.text, bareF "RECORD"])
    | none => s
  | _ => s

/-- The burn that runs ends: its bits are burnt, the shadow shows them, and the next burn starts. -/
def burnDone (s : State) : State :=
  match s.fuse.burning with
  | some b =>
    let add (o : List Nat) : List Nat := b.bits.foldl (fun o k => otpAdd k o) o
    let s := { s with fuse := { s.fuse with
      otp := add s.fuse.otp, shadow := add s.fuse.shadow, burning := s.fuse.queue.head?, queue := s.fuse.queue.tail } }
    burnReply b (keyCheck s)
  | none => s

def execFuseBurnDone (s : State) : Host.Outcome State Fault Refusal := .next (burnDone s)

/-! ## The field lock (R425) -/

def lockArm : W32 := 0x4C4B0001#32
def lockBurn : W32 := 0x4C4B0002#32

/-- The lock is armed, and not for longer than 100 ms: by which path. -/
def State.armedBy (s : State) : Option Path :=
  match s.fuse.armed with
  | some (p, t) => if s.since t ≤ msTicks 100 then some p else none
  | none => none

/-- A write to FUSE_LOCK. -/
def writeFuseLock (p : Path) (v : W32) (s : State) : State :=
  if (p != .call && p != .host) || s.confidential || s.locked then s
  else match s.armedBy with
    | none => { s with fuse := { s.fuse with armed := if v = lockArm then some (p, s.now) else none } }
    | some q =>
      if q ≠ p then s
      else
        let s := { s with fuse := { s.fuse with armed := none } }
        if v = lockBurn then burnStart .lock s else s

def execFieldLockArm (path : Path) (s : State) : Host.Outcome State Fault Refusal := .next (writeFuseLock path lockArm s)
def execFieldLockBurn (path : Path) (s : State) : Host.Outcome State Fault Refusal := .next (writeFuseLock path lockBurn s)

/-- 100 ms have passed since the lock was armed. -/
def fieldLockDisarm (s : State) : State :=
  match s.fuse.armed with
  | some (_, t) =>
    let s := elapseTo (t.toNat + msTicks 100) s
    { s with fuse := { s.fuse with armed := none } }
  | none => s

def execFieldLockDisarm (s : State) : Host.Outcome State Fault Refusal := .next (fieldLockDisarm s)

/-! ## REPAIR RECORD (R392) -/

def repairEntry (o : List Nat) (j : Fin 64) : Nat := otpField o (1544 + 16 * j.val) 16

/-- The lowest unused repair entry. -/
def freeEntry (s : State) : Option (Fin 64) := (List.finRange 64).find? fun j => repairEntry s.fuse.shadow j == 0

/-- The reply of a call will come later. -/
def State.await (s : State) (c : Caller) (verb : String) : State :=
  if c.path = .call then { s with call := { s.call with running := some verb } } else s

def doRepairRecord (c : Caller) (u : UnitRef) (s : State) : State :=
  repairGate c u s fun t =>
    if t ≠ .fenced ∧ t ≠ .passed then s.fail c "REPAIR" .state
    else match freeEntry s with
      | none => s.fail c "REPAIR" .full
      | some j => burnStart (.repair j u (some c)) ((repairStart s).await c "REPAIR")

def execRepairRecord (c : Caller) (u : UnitRef) (s : State) : Host.Outcome State Fault Refusal := .next (doRepairRecord c u s)

/-! ## The KEY and FUSE registers (R438, R462) -/

def keyStatus (s : State) : W32 :=
  bitAt s.confidential 31 ||| bitAt s.keys.noent 30 ||| bitAt (s.keys.keyop != 0) 4 ||| bitAt (s.keys.repair != 0) 3 |||
    bitAt (!s.faults.tests.isEmpty) 2 ||| bitAt s.keys.recovery 1 ||| bitAt s.keys.startup 0

def keyFw (s : State) : W32 :=
  atBit (otpField s.fuse.shadow 1536 2) 8 2 ||| atBit s.keys.fwUsable.toNat 4 2 |||
    atBit (bitsOf fun (k : Fin 2) => fwHash s.fuse.shadow k != 0) 0 2

def keyVk (s : State) : W32 :=
  atBit (otpField s.fuse.shadow 1538 4) 8 4 ||| atBit s.keys.vkUsable.toNat 4 4 |||
    atBit (bitsOf fun (k : Fin 4) => vkHash s.fuse.shadow k != 0) 0 4

/-- A read in the KEY block, by offset from 0x7000. -/
def readKey (o : Nat) (s : State) : W32 :=
  match o with
  | 0 => keyStatus s
  | 4 => keyFw s
  | 8 => keyVk s
  | _ => 0#32

/-- A read in the FUSE block, by offset from 0xF000. -/
def readFuse (o : Nat) (s : State) : W32 :=
  if o = 0 then bitAt s.fuse.burning.isSome 31 ||| bitAt s.fuse.loaded 30
  else if o = 0x10 then bitAt s.locked 31
  else if 0x100 ≤ o ∧ o < 0x180 then w32 (otpField s.fuse.shadow (1544 + 8 * (o - 0x100)) 32)
  else 0#32

/-! ## KEY (R255, R347, R351, R429) -/

def doKeyState (c : Caller) (s : State) : State :=
  s.gate c "KEY" false <|
    s.ok c "KEY" [symF "mode" (if s.confidential then "CONFIDENTIAL" else "NORMAL"), ("status", hexReg (keyStatus s)),
      ("fw", hexReg (keyFw s)), ("vk", hexReg (keyVk s))]

/-- No other call holds KEYOP or REPAIR. -/
def keyFree (s : State) : Bool := s.keys.keyop == 0 && s.keys.repair == 0

def doKeyRotatePlan (c : Caller) (s : State) : State :=
  s.gate c "KEY" false <|
    if !keyFree s then s.fail c "KEY" .busy
    else match startRotation true 0 s with
      | .error e => s.fail c "KEY" e
      | .ok t =>
        let k := (slotWith t .planTarget).getD 0
        sweepCheck ((keyopStart t).ok c "KEY" [bareF "PLAN", bareF "ROTATING", symF "slot" ("K" ++ toString k.val)])

/-- KEY VK calls run in normal service only. -/
def vkGate (c : Caller) (s : State) (k : State) : State :=
  s.gate c "KEY" false <|
    if !keyFree s then s.fail c "KEY" .busy
    else if s.confidential then s.fail c "KEY" .state
    else k

/-- What LOAD checks of a record for slot k. -/
def recOk (s : State) (k : Fin 4) (r : List Byte) : Bool :=
  nAt r 0 4 == 0x31594B56 && bAt r 4 == BitVec.ofNat 8 k.val && zeros r 6 10 && zeros r 144 16 && recSigned s r

def doKeyVkLoad (c : Caller) (k : Fin 4) (addr : Nat) (s : State) : State :=
  vkGate c s <|
    if vkHash s.fuse.shadow k ≠ 0 then s.fail c "KEY" .full
    else match attachment c.path.path addr 160 s with
      | .error e => s.fail c "KEY" e
      | .ok (r, s) =>
        if !recOk s k r then s.fail c "KEY" .key
        else
          let s := { s with flash := s.flash.put (vkRecordAt k) r }
          burnStart (.vkLoad k (BitVec.ofNat 256 (recHash r)) (some c)) ((keyopStart s).await c "KEY")

def doKeyVkRevoke (c : Caller) (k : Fin 4) (s : State) : State :=
  vkGate c s <|
    if !s.keys.vkUsable.getLsbD k.val || s.keys.vkUsable == BitVec.ofNat 4 (2 ^ k.val) then s.fail c "KEY" .key
    else burnStart (.vkRevoke k (some c)) ((keyopStart s).await c "KEY")

def execKeyState (c : Caller) (s : State) : Host.Outcome State Fault Refusal := .next (doKeyState c s)
def execKeyRotatePlan (c : Caller) (s : State) : Host.Outcome State Fault Refusal := .next (doKeyRotatePlan c s)
def execKeyVkLoad (c : Caller) (slot : Fin 4) (addr : Nat) (s : State) : Host.Outcome State Fault Refusal :=
  .next (doKeyVkLoad c slot addr s)
def execKeyVkRevoke (c : Caller) (slot : Fin 4) (s : State) : Host.Outcome State Fault Refusal := .next (doKeyVkRevoke c slot s)

end Sys2Proof.Machine
end

