-- ==== Sys2Proof/Machine/Firm.lean ====
section
/-! DEFINITION. The firmware image in the boot flash and its update in place (R352, R416, R417, R419, R420, R430). -/

namespace Sys2Proof.Machine
open Sys2Proof

/-! ## The image (R417) -/

def firmMagic : Nat := 0x4D524946
def firmComplete : Nat := 0x454E4F44

/-- Body bytes that the header gives. -/
def firmSize (s : State) : Nat := s.flash.nat 8 4

/-- What step 5 of R411 finds wrong before the body is hashed: the header, or its last word. -/
def firmHeader (s : State) : Option String :=
  if s.flash.nat 0 4 ≠ firmMagic ∨ firmSize s = 0 ∨ 262144 < firmSize s then some "HEADER"
  else if s.flash.nat 4092 4 ≠ firmComplete then some "COMPLETE"
  else none

/-- The body matches DIGEST. -/
def firmDigest (s : State) : Bool := sha256 (s.flash.range 0x1000 (firmSize s)) == s.flash.range 16 32

/-- The signature verifies under the key in KEYSLOT, and that key is usable. -/
def firmSigned (s : State) : Bool :=
  match fin? 2 (s.flash.get 12).toNat with
  | some k => fwOk s k &&
      ecdsaP256 (recKey (s.flash.range (fwRecordAt k) 160)) (sha256 (s.flash.range 0 48)) (s.flash.range 48 64)
  | none => false

/-- An image signed by firmware key 1 has been accepted: the flag of key 0 is burnt, the first time (R430). -/
def firmAccepted (s : State) : State :=
  if s.flash.get 12 = 1#8 ∧ !otpBit s.fuse.shadow 1536 ∧ s.fuse.burning ≠ some .fwRevoke ∧ !s.fuse.queue.contains .fwRevoke then
    burnStart .fwRevoke s
  else s

/-- VERSION as text. -/
def versionText (v : BitVec 24) : String :=
  toString (v.toNat / 65536) ++ "." ++ toString (v.toNat / 256 % 256) ++ "." ++ toString (v.toNat % 256)

/-! ## FIRM (R347, R419, R420) -/

def State.setFirm (s : State) (f : Firm → Firm) : State := { s with firm := f s.firm }

def doFirmState (c : Caller) (s : State) : State :=
  s.gate c "FIRM" true <|
    let fw := if s.firm.running then symF "fw" (versionText s.firm.version) else ("fw", .dash)
    let whole := (firmHeader s).isNone && firmDigest s && firmSigned s
    let size : String × Val := match s.firm.size with | some n => decF "size" n | none => ("size", .dash)
    s.ok c "FIRM" [fw, symF "image" (if whole then "COMPLETE" else "INCOMPLETE"), size, decF "written" (16 * s.firm.written.length)]

/-- FIRM BEGIN: the erase starts; the reply follows its end. -/
def doFirmBegin (c : Caller) (size : Nat) (s : State) : State :=
  s.gate c "FIRM" true <|
    if 262144 < size then s.fail c "FIRM" .range
    else if s.firm.erasing.isSome then s.fail c "FIRM" .busy
    else (s.setFirm fun f => { f with size := some size, erasing := some c, written := [], highest := 0 }).await c "FIRM"

/-- The header block and the body blocks up to size read as erased flash (notes/assumptions/34). -/
def firmErased (size : Nat) (m : Bytes) : Bytes :=
  m.put 0 (List.replicate (Nat.max 4096 ((size + 4095) / 4096 * 4096)) 0xFF#8)

def firmEraseDone (s : State) : State :=
  match s.firm.erasing, s.firm.size with
  | some c, some n =>
    ({ s with flash := firmErased n s.flash }.setFirm fun f => { f with erasing := none }).ok c "FIRM" [bareF "BEGIN", decF "size" n]
  | _, _ => s

def execFirmEraseDone (s : State) : Host.Outcome State Fault Refusal := .next (firmEraseDone s)

/-- Bytes into the image, but for the word COMPLETE, which the engine writes last. -/
def firmPut (off : Nat) (l : List Byte) (m : Bytes) : Bytes :=
  (m.put off (l.take (4092 - off))).put (Nat.max off 4096) (l.drop (4096 - off))

/-- The 16-byte units that a chunk fills, joined to those written before. -/
def unitsWritten (off len : Nat) (size : Nat) (l : List Nat) : List Nat :=
  (List.range ((size + 15) / 16)).filter fun u => l.contains u || decide (off / 16 ≤ u ∧ 16 * u < off + len)

/-- A chunk may be written at an offset of an image of a size. -/
def chunkOk (size off len : Nat) : Bool := off % 16 == 0 && (len % 16 == 0 || off + len == size) && decide (off + len ≤ size)

/-- A chunk is written. -/
def firmWrite (size off : Nat) (l : List Byte) (s : State) : State :=
  { s with
    flash := firmPut off l s.flash
    firm := { s.firm with written := unitsWritten off l.length size s.firm.written, highest := Nat.max s.firm.highest (off + l.length) } }

/-- The update that is open: one has begun, and its erase has ended. -/
def firmOpen (c : Caller) (s : State) (k : Nat → State) : State :=
  s.gate c "FIRM" true <|
    if s.firm.erasing.isSome then s.fail c "FIRM" .busy
    else match s.firm.size with
      | some n => k n
      | none => s.fail c "FIRM" .state

def doFirmData (c : Caller) (off : Nat) (l : List Byte) (s : State) : State :=
  firmOpen c s fun n =>
    if chunkOk n off l.length then (firmWrite n off l s).ok c "FIRM" [bareF "DATA", ("", .dec off)] else s.fail c "FIRM" .range

/-- Bytes of mailbox memory that FIRM addr= names. -/
def inMailbox (addr len : Nat) : Bool :=
  decide (bhBase + mailboxBase ≤ addr ∧ addr + len ≤ bhBase + mailboxBase + 0x80000)

/-- What FIRM addr= reads: mailbox memory, or, in normal service, what the caller can read (R350, R420). -/
def firmBytes (c : Caller) (addr len : Nat) (s : State) : Except Err (List Byte × State) :=
  if inMailbox addr len then .ok (mailRead s (addr - (bhBase + mailboxBase)) len, s)
  else if s.keys.recovery then .error .range
  else attachment c.path.path addr len s

def doFirmAddr (c : Caller) (addr len : Nat) (s : State) : State :=
  firmOpen c s fun n =>
    let off := s.firm.highest
    if !chunkOk n off len then s.fail c "FIRM" .range
    else match firmBytes c addr len s with
      | .error e => s.fail c "FIRM" e
      | .ok (l, t) => (firmWrite n off l t).ok c "FIRM" [("addr", hexAddr addr), decF "len" len]

/-- The first offset that no chunk has filled. -/
def firmMissing (n : Nat) (l : List Nat) : Option Nat := ((List.range ((n + 15) / 16)).find? fun u => !l.contains u).map fun u => 16 * u

/-- The image as written, but for COMPLETE, is malformed. -/
def firmMalformed (n : Nat) (s : State) : Bool :=
  s.flash.nat 0 4 != firmMagic || decide (firmSize s = 0 ∨ n < 4096 + firmSize s)

def doFirmEnd (c : Caller) (s : State) : State :=
  firmOpen c s fun n =>
    match firmMissing n s.firm.written with
    | some o => s.failWith c "FIRM" .state [decF "missing" o]
    | none =>
      if firmMalformed n s then s.fail c "FIRM" .conf
      else if !firmDigest s || !firmSigned s then s.fail c "FIRM" .key
      else
        let s := { s with flash := s.flash.put 4092 (leBytes firmComplete 4) }
        let s := firmAccepted (s.setFirm fun f => { f with size := none, written := [], highest := 0 })
        let s := s.ok c "FIRM" [bareF "END"]
        if s.keys.recovery then { s with start := { s.start with warmPending := some .firmEnd } } else s

/-- Recovery asks for an image again, 10 s later (R420). -/
def firmNeeded (s : State) : State :=
  match s.start.firmReason with
  | some r => s.raise (.evt "FIRM NEEDED" [symF "reason" r])
  | none => s

def firmNeededTick (s : State) : State := if s.keys.recovery && s.start.banner && s.firm.size.isNone then firmNeeded s else s

def execFirmNeededTick (s : State) : Host.Outcome State Fault Refusal := .next (firmNeededTick s)

def execFirmState (c : Caller) (s : State) : Host.Outcome State Fault Refusal := .next (doFirmState c s)
def execFirmBegin (c : Caller) (size : Nat) (s : State) : Host.Outcome State Fault Refusal := .next (doFirmBegin c size s)
def execFirmData (c : Caller) (offset : Nat) (data : List Byte) (s : State) : Host.Outcome State Fault Refusal :=
  .next (doFirmData c offset data s)
def execFirmAddr (c : Caller) (addr len : Nat) (s : State) : Host.Outcome State Fault Refusal := .next (doFirmAddr c addr len s)
def execFirmEnd (c : Caller) (s : State) : Host.Outcome State Fault Refusal := .next (doFirmEnd c s)

end Sys2Proof.Machine
end

