-- ==== Sys2Proof/Machine/Startup.lean ====
section
/-! DEFINITION. Resets and start-up up to the banner (R22, R393, R409 to R418, R456; notes/assumptions/5, 36). -/

namespace Sys2Proof.Machine
open Sys2Proof

/-! ## What a reset leaves (R410) -/

/-- Bits that a burn cut short has burnt: nothing fixes which (notes/assumptions/36). -/
def burnCut (s : State) : State :=
  match s.fuse.burning with
  | some b =>
    let bs := (b.bits.zipIdx.filter fun p => Config.freeBit (s.free + p.2)).map Prod.fst
    { s with fuse := { otp := bs.foldl (fun o k => otpAdd k o) s.fuse.otp }, free := s.free + b.bits.length }
  | none => { s with fuse := { otp := s.fuse.otp } }

/-- An erase cut short leaves the image incomplete (R419). -/
def eraseCut (s : State) : State :=
  match s.firm.erasing, s.firm.size with
  | some _, some n => { s with flash := firmErased n s.flash }
  | _, _ => s

/-- The levels of the input balls, which no reset changes. -/
def Edge.levels (g : Edge) : Edge :=
  let raw (d : Debounce) : Debounce := { level := d.level, pending := d.level }
  { btn := g.btn.map raw, plug := g.plug.map raw }

/-- What no reset touches: the flash, the fuses, input levels, the model's own counts, and the commands that wait. -/
def State.blank (s : State) : State :=
  let s := eraseCut (burnCut s)
  { fuse := s.fuse
    keys := { nextKey := s.keys.nextKey }
    faults := { repairs := s.faults.repairs, repairSerial := s.faults.repairSerial }
    call := { ctsN := s.call.ctsN }
    edge := s.edge.levels
    flash := s.flash
    free := s.free
    pending := s.pending }

/-- A power-on: the log book and all state are lost. -/
def powerOn (hostsel : Bool) (s : State) : State :=
  let t := s.blank
  { t with start := { startKind := 0#2 }, host := { qspi := hostsel } }

def execPowerOnReset (hostsel : Bool) (s : State) : Host.Outcome State Fault Refusal := .next (powerOn hostsel s)

/-- VDD_AO falls below its valid range: nothing is left, and no output is driven. -/
def vddAoLost (s : State) : State :=
  { s.blank with start := { startKind := 0#2, vddAo := false }, host := { qspi := s.host.qspi } }

def execVddAoLost (s : State) : Host.Outcome State Fault Refusal := .next (vddAoLost s)

/-- A cold reset: the log book is initialised, but for its superblock and the fault log; all of it, where no superblock copy is valid
(R231). -/
def coldReset (hostsel : Bool) (s : State) : State :=
  let t := s.blank
  let lost := s.start.superA.isNone && s.start.superB.isNone
  { t with
    start := { lastReset := .resetN, superA := s.start.superA, superB := s.start.superB, vddAo := s.start.vddAo }
    host := { qspi := hostsel }
    faults := { t.faults with
      log := if lost then [] else s.faults.log, logNum := if lost then t.faults.logNum else s.faults.logNum
      repairQueue := s.faults.repairQueue } }

def coldResetDo (hostsel : Bool) (s : State) : State := if s.start.vddAo then coldReset hostsel s else s

def execColdReset (hostsel : Bool) (s : State) : Host.Outcome State Fault Refusal := .next (coldResetDo hostsel s)

/-! ## What a warm reset keeps (R205, R230, R239, R410, R437) -/

/-- Retained banks that a lane still holds after the reset: it is not FREE, and no scrub has met the reset. -/
def Lane.keeps (L : Lane) : Bool := L.st == .opened || L.st == .orphaned

def keptRetain (s : State) (k : Fin 4) : Retain :=
  let r := s.mem.retain[k]
  if r.valid && (s.lane r.lane).keeps then r else {}

/-- The retained banks of a lane, or of every lane. -/
def keptBanks (s : State) (p : LaneId → Bool) : List Nat :=
  (List.finRange 4).filterMap fun k => let r := keptRetain s k; if r.valid && p r.lane then some r.bank.toNat else none

/-- Every byte of a region lies in a bank that was retained for the lane. -/
def regionKept (s : State) (l : LaneId) (addr units : Nat) : Bool :=
  let bs := keptBanks s (· == l)
  (List.range units).all fun k => match courseAt (addr + 64 * k) with
    | .boathouse off => bs.contains (bankAt off).val
    | _ => false

/-- An input or output region of a replayed heat no longer exists. -/
def inputGone (s : State) (l : LaneId) (a : AcceptRec) : Bool :=
  a.args.any fun x => match x with
    | .region ad n => !regionKept s l ad n
    | _ => false

/-- A heat accepted and not retired, replayed from its journal. What it waits for beyond its two distances follows again when its bundle
is loaded (relateRuns). One that was RUNNING restarts, and the eighth cause ends it (R218). -/
def replayed (s : State) (l : LaneId) (r : HeatRun) : HeatRun :=
  match (s.lane l).acceptOf r.seq with
  | some a =>
    let back (n : Nat) : List W32 := if n = 0 then [] else [r.seq - w32 n]
    let running := r.started && r.failed.isNone
    let failed := if running && r.restarts == 7 then some .faulted else if inputGone s l a then some .inputGone else none
    { seq := r.seq, ord := r.ord, after := back a.relDep, behind := back a.relWait, trips := r.trips, allTicks := (r.pause s.steady).allTicks
      restarts := if running && r.restarts != 7 then r.restarts + 1 else r.restarts
      st := if failed.isSome then .ended else .waiting, failed := failed }
  | none => { seq := r.seq, ord := r.ord, st := .ended, failed := some .faulted }

/-- A lane after a warm reset: rebuilt, or FREE where a scrub met it. -/
def rebuilt (s : State) (l : LaneId) : Lane :=
  let L := s.lane l
  if L.st = .scrub then { prio := L.prio, scrubDone := true }
  else
    { st := L.st, owner := L.owner, prio := L.prio, next := L.next, oldest := L.oldest, shown := L.shown, first := L.first, lastRetired := L.lastRetired, hc := L.hc
      recovering := L.st != .free, journal := L.journal, runs := L.runs.map (replayed s l) }

/-- A bundle record after a warm reset: WAITING while an accepted heat of a rebuilt lane names its handle, else free. -/
def recordKept (s : State) (h : Fin 16) : Bundle :=
  let b := s.bundle h
  let named := (List.finRange 4).any fun l => (s.lane l).st != .scrub && (s.lane l).runs.any fun r =>
    ((s.lane l).acceptOf r.seq).any fun a => a.handle == h
  if b.st != .free && named then
    { st := .waiting, lanes := b.lanes, onchip := b.onchip, lookout := b.lookout, id := b.id, digest := b.digest, image := b.image
      total := b.total, resSlots := b.resSlots, keySlot := b.keySlot, source := b.source }
  else {}

/-- Partitions after a warm reset: their reset values, with the retained banks back in the partition of their lane. -/
def partKept (s : State) (l : LaneId) : W64 :=
  let mask (p : LaneId → Bool) : W64 := (keptBanks s p).foldl (fun m b => m ||| BitVec.ofNat 64 (2 ^ b)) 0#64
  let p : Vector W64 4 := ({} : Memory).part
  (p[l] &&& ~~~(mask (· != l))) ||| mask (· == l)

/-- Quadrants that stay powered, since they hold a retained bank. -/
def keptQuadrants (s : State) : BitVec 32 :=
  (keptBanks s fun _ => true).foldl (fun m b => m ||| domBit (bankDom (bankAt (b * 0x80000)))) 0#32

/-- A warm reset of a kind. -/
def warmReset (k : ResetKind) (s : State) : State :=
  let t := s.blank
  let lost := s.start.superA.isNone && s.start.superB.isNone
  let banks := keptBanks s fun _ => true
  let kept (b : Nat) : Bool := banks.contains (b / 0x80000)
  let t := { t with
    start := { lastReset := k, startKind := 2#2, refDecided := true, latching := s.start.latching, logLost := s.start.logLost
               logFieldLost := false, early := s.start.early, superA := s.start.superA, superB := s.start.superB }
    clk := { s.clk with
      apllTries := 0, epllTries := 0, ddrTries := 0, snsReset := false, inbound := Vector.replicate 14 []
      outbound := Vector.replicate 14 [], delivered := Vector.replicate 14 none, noclock := Vector.replicate 14 [], arbLast := [], arbHeld := [], arbWaits := [] }
    call := { t.call with lines := s.call.lines, lost := s.call.lost }
    edge := { t.edge with btn := s.edge.btn, plug := s.edge.plug, touch := s.edge.touch.map fun (p : Touch) => { on := p.on }, queue := s.edge.queue, lost := s.edge.lost, lostRun := s.edge.lostRun }
    host := { qspi := s.host.qspi } }
  let t := { t with mem := { t.mem with noref := s.clk.degraded } }
  if lost then { t with faults := { t.faults with repairQueue := s.faults.repairQueue } }
  else
    { t with
      power := { up := keptQuadrants s }
      faults := { t.faults with
        log := s.faults.log, logNum := s.faults.logNum, repairQueue := s.faults.repairQueue, rows := s.faults.rows
        poisoned := s.faults.poisoned.filter fun w => kept (8 * w) }
      lanes := Vector.ofFn fun l => rebuilt s l
      bundles := Vector.ofFn fun h => recordKept s h
      mem := { t.mem with
        bh := s.mem.bh.filter fun p => kept p.1
        retain := Vector.ofFn fun i => keptRetain s i
        part := Vector.ofFn fun l => partKept s l } }

/-- A reply waits in a host ring. -/
def State.replyWaits (s : State) : Bool := s.host.ring.any fun r => r.out.any fun e => e.kind == .reply

/-- The warm reset that RESET WARM or FIRM END has asked for starts once its reply has gone: CALL_TX is idle, and no reply waits for a
host ring (R342). -/
def warmResetDo (s : State) : State :=
  match s.start.warmPending with
  | some k => if s.call.tx.isEmpty && !s.replyWaits then warmReset k s else s
  | none => s

def execWarmReset (s : State) : Host.Outcome State Fault Refusal := .next (warmResetDo s)

/-- A Cox processor can run: it is active and has not crashed, or it is the standby. -/
def State.coxAble (s : State) : Bool := (List.finRange 3).any fun i => s.coxWorks i || s.faults.coxRole[i] == .standby

def noCoxWarmReset (s : State) : State := if s.start.vddAo && !s.coxAble then warmReset .noCox s else s

def execNoCoxWarmReset (s : State) : Host.Outcome State Fault Refusal := .next (noCoxWarmReset s)

/-! ## Steps 1 to 5 of R411 -/

/-- REF is steady: APLL and EPLL lock, and the timebase is REF. -/
def refSteady (s : State) : State :=
  if s.start.vddAo && !s.start.refDecided then
    { s with start := { s.start with refDecided := true }, clk := { s.clk with degraded := false } }
  else s

def execRefSteady (s : State) : Host.Outcome State Fault Refusal := .next (refSteady s)

/-- REF is not steady by 20 ms: every REF-derived domain runs from the ring oscillator (R32, R414). -/
def refStartupTimeout (s : State) : State :=
  if s.start.vddAo && !s.start.refDecided then
    let s := elapseTo (msTicks 20) s
    { s with
      start := { s.start with refDecided := true }
      clk := { s.clk with degraded := true, lost := s.clk.lost ||| 1#14, absent := s.clk.absent ||| 1#14 }
      mem := { s.mem with noref := true } }
  else s

def execRefStartupTimeout (s : State) : Host.Outcome State Fault Refusal := .next (refStartupTimeout s)

/-- Domains that come up at step 4: PD_CA, PD_CB, PD_CS, PD_KEY, PD_SNS and PD_HOST. -/
def startDomains : BitVec 32 := 0x65C00000#32

/-- PG_CORE is high and VDD_CORE reads mv, at least 500 mV: the start-up domains come up, and the fuse values are loaded (R11, R411). -/
def corePowerGood (mv : BitVec 10) (s : State) : State :=
  if s.start.phase = .waitPower ∧ s.start.vddAo ∧ s.start.refDecided ∧ 500 ≤ mv.toNat then
    { s with
      start := { s.start with phase := .copying }
      rail := { s.rail with pgCore := true, faultN := false, floor := false, meas := mv, confirmed := mv }
      power := { s.power with up := s.power.up ||| startDomains }
      fuse := { s.fuse with shadow := s.fuse.otp, loaded := true }
      eye := s.eye.load s.fuse.otp }
  else s

def execCorePowerGood (mv : BitVec 10) (s : State) : Host.Outcome State Fault Refusal := .next (corePowerGood mv s)

/-- The body is in the Cox memories and hashed; the header is checked (step 5). -/
def firmwareCopied (s : State) : State :=
  if s.start.phase = .copying then
    let why := (firmHeader s).orElse fun _ => if firmDigest s then none else some "DIGEST"
    { s with start := { s.start with phase := .verifying, firmReason := why } }
  else s

def execFirmwareCopied (s : State) : Host.Outcome State Fault Refusal := .next (firmwareCopied s)

/-! ## Fuse entries and repair records (R393) -/

/-- The unit that a UNIT code names. -/
def unitOfCode (c : Nat) (detail : Nat) : Option UnitRef :=
  let i := c % 4096
  match c / 4096 with
  | 0 => (fin? 18 i).map .shell
  | 1 => (fin? 68 i).map .bank
  | 2 => match fin? 68 i, fin? 2048 detail with | some b, some r => some (.row b r) | _, _ => none
  | 3 => (fin? 9 i).map .slice
  | 4 => (fin? 3 i).map .cox
  | 6 => (fin? 4 i).map .decoder
  | 7 => (fin? 3 i).map .aes
  | _ => none

/-- A unit is out of service from the start; a bank's number is served by its quadrant's spare bank. -/
def outAtStart (t : UnitSt) (u : UnitRef) (s : State) : State :=
  match u with
  | .row b r => if s.faults.rows.contains (b, r) then s else { s with faults := { s.faults with rows := s.faults.rows ++ [(b, r)] } }
  | _ =>
    if (s.unitSt u).any UnitSt.out then s
    else
      let down (d : Dom) (s : State) : State := { s with power := s.power.fence d }
      match u with
      | .shell i => down (Dom.shell i) (s.setUnitSt u t)
      | .cox i => down (Dom.cox i) (s.setUnitSt u t)
      | .bank p =>
        match s.bankServed p, s.spareBank (physQuadrant p) with
        | some b, some q =>
          if p = q then s.setBankSt p t
          else
            let s := (s.setBankSt p t).setBankSt q .active
            { s with faults := { s.faults with bankMap := put s.faults.bankMap b q } }
        | _, _ => s.setBankSt p t
      | _ => s.setUnitSt u t

/-- Roles and lanes of the processors that are in service: two active, the others standby (R384). -/
def coxDivide (s : State) : State :=
  let ok := (List.finRange 3).filter fun i => !(s.faults.coxRole[i].unitSt).out
  let a := ok.headD 0
  let b := (ok.drop 1).headD a
  { s with faults := { s.faults with
    coxRole := mapIdx s.faults.coxRole fun i r => if r.unitSt.out then r else if i = a ∨ i = b then .active else .standby
    laneCox := ⟨#[a, a, b, b], rfl⟩
    callCox := a } }

/-- Fuse entries, then the flash records in force, PAGE records apart; then the map of shells, the Cox roles and the slices in use. -/
def recordsApply (s : State) : State :=
  let fused := (List.range 64).filterMap fun j =>
    let e := otpField s.fuse.shadow (1544 + 16 * j) 16
    if 0x8000 ≤ e then unitOfCode (e - 0x8000) 0 else none
  let recs := mergeRecords (s.faults.repairs ++ s.faults.repairQueue)
  let units := (recs.filter fun r => r.kind != .page).filterMap fun r => unitOfCode r.unit.toNat r.detail.toNat
  let s := fused.foldl (fun s u => outAtStart .fused u s) s
  let s := units.foldl (fun s u => outAtStart .fenced u s) s
  (coxDivide (remap { s with map := Vector.replicate 16 none })).setEye (Eye.load s.fuse.shadow)

/-! ## Lookout at start-up (R418) -/

/-- Why entry 0 did not load, as the line LOOKOUT OFF names it. -/
def Err.lookReason : Err → String
  | .key => "KEY" | .ver => "VER" | .full => "FULL" | _ => "CONF"

/-- An entry that fails is recorded. -/
def bootFailed (k : Fin 16) (s : State) : State :=
  let (_, _, lanes, _) := bootEntry s k
  s.logFault { s.faultRec .fault (.lane (firstLane lanes)) none with detail := BitVec.ofNat 64 k.val }

/-- Entry 0 is loaded as handle 0; where it is not, Lookout is off and the Eye is open to the parties. -/
def lookoutLoad (s : State) : State :=
  let off (why : String) (s : State) : State :=
    { s with start := { s.start with lookoutOff := some why }, eye := { s.eye with hold := true } }
  let (_, _, _, valid) := bootEntry s 0
  if !valid then off "MISSING" s
  else match bootLoad 0 s with
    | .ok t => if (t.bundle 0).live && (t.bundle 0).lookout then t else off "CONF" (bootFailed 0 s)
    | .error e => off e.lookReason (bootFailed 0 s)

/-! ## Steps 7 to 12 of R411 -/

/-- Plugs that are IN are checked (R312). -/
def plugsAtStart (s : State) : State :=
  (List.finRange 2).foldl (fun s n =>
    if s.edge.plug[n].deb && (plugByte s.edge n).testBit 6 && s.edge.imp[n].isNone then impStart n s else s) s

/-- The checks of the start: the keys, the firmware's signature, the AES known answers, then the records and the first rail voltage. -/
def firmChecks (kat : BitVec 3) (s : State) : State :=
  let s := keyCheck s
  let why := s.start.firmReason.orElse fun _ => if firmSigned s then none else some "SIGNATURE"
  let s := { s with start := { s.start with firmReason := why } }
  let s := (List.finRange 3).foldl (fun s p => aesKat p (kat.getLsbD p.val) s) s
  let s := (railRequest 720 (plugsAtStart (recordsApply s))).govRead
  { s with host := { s.host with configReady := true } }

/-- The verified firmware runs, and the DRAM is trained where the reference is there. -/
def firmStarts (s : State) : State :=
  let s := firmAccepted (s.setFirm fun f => { f with running := true, version := BitVec.ofNat 24 (s.flash.nat 4 4) })
  let s := if s.clk.degraded then { s with start := { s.start with phase := .ready, trainOwed := true } }
    else { s with start := { s.start with phase := .training }, power := { s.power with up := s.power.up ||| domBit Dom.mem } }
  lookoutLoad s

/-- The signature, the key records and the known-answer tests of the AES pipelines (bit p of kat: pipeline p passes): the
firmware runs, or recovery firmware does. -/
def firmwareVerified (kat : BitVec 3) (s : State) : State :=
  if s.start.phase = .verifying then
    let s := firmChecks kat s
    if s.start.firmReason.isSome then { s with start := { s.start with phase := .ready } } else firmStarts s
  else s

def execFirmwareVerified (kat : BitVec 3) (s : State) : Host.Outcome State Fault Refusal := .next (firmwareVerified kat s)

/-! ## DRAM training (R240, R241, R412) -/

/-- Usable blocks of a fitted capacity in units of 512 MiB. -/
def usableBlocks (fitted : Nat) : Nat := fitted * 8192 - fitted * 256 - 260

/-- A fitting that the engine supports. -/
def fittingOk (fitted : Byte) (rate : BitVec 4) (ranks : BitVec 2) : Bool :=
  [4, 8, 16, 24, 32].contains fitted.toNat && decide (1 ≤ rate.toNat ∧ rate.toNat ≤ 4) && (ranks == 1#2 || ranks == 2#2)

/-- PAGE records of this DRAM are reapplied; others are discarded and logged (R393). -/
def pagesApply (s : State) : State :=
  (mergeRecords (s.faults.repairs ++ s.faults.repairQueue)).foldl (fun (s : State) r =>
    if r.kind = .page then
      let page := r.detail.toNat % 2 ^ 32
      if r.detail = s.mem.pageDetail page ∧ page < s.mem.usable.toNat ∧ s.mem.retired.length < 256 then
        if s.mem.retired.contains page then s else { s with mem := { s.mem with retired := s.mem.retired ++ [page] } }
      else
        let s := { s with faults := { s.faults with
          repairs := s.faults.repairs.filter fun x => x != r, repairQueue := s.faults.repairQueue.filter fun x => x != r } }
        s.logFault { s.faultRec .recordWritten (.page page) r.cause with detail := r.detail }
    else s) s

def dramTrainingDone (ok : Bool) (fitted : Byte) (rate : BitVec 4) (ranks : BitVec 2) (s : State) : State :=
  let late := s.start.trainOwed && !s.mem.noref
  if s.start.phase = .training ∨ late = true then
    let s := { s with start := { s.start with phase := if late then s.start.phase else .ready, trainOwed := false } }
    if ok && fittingOk fitted rate ranks then
      pagesApply { s with mem := { s.mem with
        trained := true, fitted := fitted, rate := rate, ranks := ranks, usable := BitVec.ofNat 18 (usableBlocks fitted.toNat) } }
    else s
  else s

def execDramTrainingDone (ok : Bool) (fitted : Byte) (rate : BitVec 4) (ranks : BitVec 2) (s : State) :
    Host.Outcome State Fault Refusal := .next (dramTrainingDone ok fitted rate ranks s)

/-! ## Step 16: the other boot bundles (R411, R418) -/

/-- The next entry is loaded, skipped where it is not VALID, or skipped and recorded where it fails. -/
def bootBundleLoad (k : Fin 16) (s : State) : State :=
  if s.start.banner && !s.keys.recovery && k.val == s.start.bootNext then
    let s := { s with start := { s.start with bootNext := s.start.bootNext + 1 } }
    let (_, _, _, valid) := bootEntry s k
    if !valid then s
    else match bootLoad k s with
      | .ok t => t
      | .error _ => bootFailed k s
  else s

def execBootBundleLoad (entry : Fin 16) (s : State) : Host.Outcome State Fault Refusal := .next (bootBundleLoad entry s)

end Sys2Proof.Machine
end

