-- ==== Sys2Proof/Machine/Bus.lean ====
section
/-! DEFINITION. The register window (R8 to R10, R37, R451 to R463): a read and a write of any register by any path, with the
blocks that no unit's file holds: ID, GLOBAL, LANE, TALLY, FAULT, MEM, HOST, the scale files and STRING. -/

namespace Sys2Proof.Machine
open Sys2Proof

/-! ## ID and GLOBAL (R454 to R456) -/

def otpWord (s : State) (lo : Nat) : W32 := w32 (otpField s.fuse.shadow lo 32)

def readId (o : Nat) (s : State) : W32 :=
  if o = 0x00 then w32 (revision s * 65536 + 0x0480)
  else if o = 0x04 then bitAt (s.start.firmReason.isSome && decide (s.start.phase = .ready ∨ s.start.phase = .up)) 31 |||
    (if s.firm.running then s.firm.version.setWidth 32 else 0#32)
  else if o = 0x08 then 0x00010100#32
  else if o = 0x0C then 0x10201249#32
  else if o = 0x10 then otpWord s 3232
  else if o = 0x14 then otpWord s 3264
  else 0#32

def Path.code : Path → Nat
  | .cox => 0 | .call => 1 | .host => 2 | .string => 3

def glbStatus (s : State) : W32 :=
  bitAt s.start.banner 31 ||| bitAt s.clk.degraded 30 ||| bitAt s.keys.recovery 29 ||| bitAt s.confidential 28 |||
    atBit s.start.startKind.toNat 26 2 ||| bitAt s.start.recovered 1 ||| bitAt s.start.logLost 0

def glbCall (c : CallLine) : W32 :=
  bitAt c.locked 31 ||| bitAt c.terse 30 ||| bitAt c.echo 29 ||| bitAt c.events 28 ||| bitAt c.check 27 ||| bitAt c.flow 26 |||
    c.baud.setWidth 32

def readGlobal (p : Path) (o : Nat) (s : State) : W32 × State :=
  if o = 0x04 then readLo p s.clk.tick (fun v x => { x with tick := some v }) s
  else (
    if o = 0x00 then glbStatus s
    else if o = 0x08 then readHi p s.clk.tick (·.tick) s
    else if o = 0x0C then s.clk.slow
    else if o = 0x10 then w32 p.code
    else if o = 0x14 then glbCall s.call
    else 0#32, s)

def writeGlobal (p : Path) (o : Nat) (v : W32) (s : State) : State :=
  if o = 0 ∧ bit v 0 ∧ (p = .call ∨ p = .host) then { s with start := { s.start with logLost := false } } else s

/-! ## LANE and the adapter slots (R164, R232) -/

def LaneSt.code : LaneSt → Nat
  | .free => 0 | .opened => 1 | .orphaned => 2 | .scrub => 3

def Owner.code : Owner → Nat
  | .nobody => 0 | .engine => 1 | .call => 2 | .host => 3

def AdSt.code : AdSt → Nat
  | .empty => 0 | .ready => 1 | .updating => 2

def laneState (l : LaneId) (s : State) : W32 :=
  let L := s.lane l
  bitAt L.recovering 11 ||| bitAt (s.waitRef l) 10 ||| bitAt (s.waitBundle l) 9 ||| bitAt L.stalled 8 |||
    atBit L.owner.code 4 2 ||| atBit L.st.code 0 4

def laneCounts (L : Lane) : W32 := atBit L.running 16 4 ||| atBit L.heldSeqs.length 8 7 ||| atBit L.runs.length 0 7

/-- The registers of a lane that its owner reads, by offset in its 0x400. -/
def readLane (p : Path) (l : LaneId) (o : Nat) (s : State) : W32 × State :=
  let L := s.lane l
  if o = 0x00 then (laneState l s, s)
  else if !s.ownsLane p l then (0#32, s)
  else if o = 0x18 then readLo p L.spin (fun v x => { x with spin := put x.spin l (some v) }) s
  else (
    if o = 0x04 then L.prio.setWidth 32
    else if o = 0x08 then L.next
    else if o = 0x0C then L.oldest
    else if o = 0x10 then laneCounts L
    else if o = 0x14 then L.lastRetired
    else if o = 0x1C then readHi p L.spin (fun x => x.spin[l]) s
    else 0#32, s)

def writeLane (p : Path) (l : LaneId) (o : Nat) (v : W32) (s : State) : State :=
  if o = 0x04 then (if s.ownsLane p l then s.bookLane l fun L => { L with prio := v.setWidth 2 } else s)
  else if o = 0x18 then spinLoWrite p l v s
  else if o = 0x1C then spinHiWrite p l v s
  else s

/-- Slot n by a path: its owner reads all, a path that owns a granted lane reads ADn_STATE and ADn_VER. -/
def readAd (p : Path) (n : Fin 8) (o : Nat) (s : State) : W32 :=
  let a := s.ads[n]
  let owns := s.ownsLane p 3
  let sees := owns || (a.l1 && s.ownsLane p 1) || (a.l2 && s.ownsLane p 2)
  if o = 0x0 then
    (if sees then atBit a.tensors.toNat 16 7 ||| atBit a.rank.toNat 8 8 ||| bitAt a.set 3 ||| bitAt (s.adapterHeld n) 2 ||| atBit a.st.code 0 2 else 0#32)
  else if o = 0x4 then (if sees then a.ver else 0#32)
  else if !owns then 0#32
  else if o = 0x8 then bitAt a.l2 2 ||| bitAt a.l1 1
  else if o = 0xC then a.params
  else 0#32

def adOf (o : Nat) : Fin 8 := ⟨(o - 0xF00) / 0x10 % 8, Nat.mod_lt _ (by decide)⟩
def laneOfOff (o : Nat) : LaneId := ⟨o / 0x400 % 4, Nat.mod_lt _ (by decide)⟩

/-- A read in the LANE block, by offset from 0x2000. -/
def readLanes (p : Path) (o : Nat) (s : State) : W32 × State :=
  if 0xF00 ≤ o ∧ o < 0xF80 then (readAd p (adOf o) (o % 0x10) s, s) else readLane p (laneOfOff o) (o % 0x400) s

def writeLanes (p : Path) (o : Nat) (v : W32) (s : State) : State :=
  if 0xF00 ≤ o ∧ o < 0xF80 then (if o % 0x10 = 8 then adapterGrantWrite p (adOf o) v s else s)
  else writeLane p (laneOfOff o) (o % 0x400) v s

/-! ## FAULT (R70, R397) -/

/-- One bit per unit. -/
def mask {n : Nat} (f : Fin n → Bool) : W32 := w32 (bitsOf f)

def CoxRole.code : CoxRole → Nat
  | .active => 0 | .standby => 1 | .restarting => 2 | .fenced => 3 | .passed => 4 | .fused => 5

/-- A byte of SHELL_MAPm. -/
def mapByte (s : State) (k : Nat) : Nat :=
  match s.map.toList[k]? with
  | some (some i) => 0x80 + i.val
  | _ => 0

def variantCode (n : Nat) : Nat := if 16 ≤ n then 0 else if 14 ≤ n then 1 else if 12 ≤ n then 2 else 3

def readFault (o : Nat) (s : State) : W32 :=
  let f := s.faults
  if o = 0x00 then atBit s.clk.absent.toNat 16 14 ||| atBit s.clk.lost.toNat 0 14
  else if o = 0x04 then mask fun i : Fin 18 => f.shells[i].out
  else if o = 0x08 then mask fun i : Fin 18 => f.shells[i] == .passed
  else if o = 0x0C then
    atBit (bitsOf fun q : Fin 4 => f.bankMap.toList.any fun b => b.val == 64 + q.val) 16 4 ||| atBit f.rows.length 0 10
  else if o = 0x10 then
    atBit f.laneCox[3].val 30 2 ||| atBit f.laneCox[2].val 28 2 ||| atBit f.laneCox[1].val 26 2 ||| atBit f.laneCox[0].val 24 2 |||
      atBit f.takeovers 16 8 ||| atBit f.callCox.val 12 2 ||| atBit f.coxRole[2].code 8 4 ||| atBit f.coxRole[1].code 4 4 |||
      atBit f.coxRole[0].code 0 4
  else if o = 0x14 then
    atBit (bitsOf fun k : Fin 9 => s.eye.slice[k].role == .retired || s.eye.slice[k].st != .active) 8 9 |||
      atBit (bitsOf fun i : Fin 3 => f.aes[i].out) 4 3 ||| atBit (bitsOf fun d : Fin 4 => f.decoders[d].out) 0 4
  else if o = 0x18 then w32 f.logNum
  else if o = 0x1C then atBit (mergeRecords f.repairs).length 16 16 ||| atBit (fusesUsed s) 0 6
  else if 0x40 ≤ o ∧ o < 0x50 then
    let m := o - 0x40
    w32 (mapByte s m + 256 * mapByte s (m + 1) + 65536 * mapByte s (m + 2) + 16777216 * mapByte s (m + 3))
  else if o = 0x50 then
    atBit (variantCode s.serviceCount) 30 2 ||| atBit s.serviceCount 24 5 ||| (mask fun i : Fin 18 => s.inService i)
  else 0#32

/-- LOST bits are cleared by writing 1. -/
def writeFault (o : Nat) (v : W32) (s : State) : State :=
  if o = 0 then { s with clk := { s.clk with lost := s.clk.lost &&& ~~~(v.setWidth 14) } } else s

/-! ## MEM (R258, R259) -/

def KUse.code : KUse → Nat
  | .free => 0 | .plan => 1 | .planTarget => 2 | .lane n => 4 + n.val | .laneTarget n => 8 + n.val

def regionStatus (g : Region) : W32 :=
  bitAt g.valid 31 ||| bitAt g.sealed 30 ||| bitAt g.adapter 29 ||| bitAt g.rotating 28 ||| bitAt g.gen 27 ||| atBit g.err.toNat 24 3 |||
    (if g.valid then atBit g.slot0.val 21 3 ||| atBit g.slot1.val 18 3 else 0#32) ||| atBit g.left.toNat 0 18

/-- Register o (0, 4, 8 or 0xC) of region slot r. -/
def readRegion (p : Path) (r : Fin 32) (o : Nat) (s : State) : W32 :=
  let g := s.mem.region[r]
  let mine := !g.valid || s.ownsLane p g.lane
  if o = 0 then g.base.setWidth 32
  else if o = 4 then g.size.setWidth 32
  else if o = 8 then (if mine then bitAt g.window 7 ||| w32 g.lane.val else 0#32)
  else if mine || g.sealed then regionStatus g else 0#32

/-- A write to REGr_CTRL: WINDOW and LANE, then MAKE, or DELETE. -/
def writeRegCtrl (p : Path) (r : Fin 32) (v : W32) (s : State) : State :=
  let g := s.mem.region[r]
  if g.valid then
    if s.ownsLane p g.lane then
      let s := if g.sealed then s else s.setRegion r fun g => { g with window := bit v 7 }
      if bit v 30 then regionDelete p r s else s
    else s
  else
    let s := s.setRegion r fun g => { g with window := bit v 7, lane := ⟨fld v 0 2, Nat.mod_lt _ (by decide)⟩ }
    if bit v 31 then regionMake p r s else s

def writeRegion (p : Path) (r : Fin 32) (o : Nat) (v : W32) (s : State) : State :=
  let g := s.mem.region[r]
  if o = 0 then (if g.valid then s else s.setRegion r fun g => { g with base := v.setWidth 18 })
  else if o = 4 then (if g.valid then s else s.setRegion r fun g => { g with size := v.setWidth 18 })
  else if o = 8 then writeRegCtrl p r v s
  else s

def regionOff (o : Nat) : Fin 32 := ⟨(o - 0x100) / 0x10 % 32, Nat.mod_lt _ (by decide)⟩
def partOff (o : Nat) : LaneId := ⟨(o - 0x40) / 8 % 4, Nat.mod_lt _ (by decide)⟩
def retainOff (o : Nat) : Fin 4 := ⟨(o - 0x20) / 4 % 4, Nat.mod_lt _ (by decide)⟩

/-- A read in the MEM block, by offset from 0x8000. -/
def readMem (p : Path) (o : Nat) (s : State) : W32 × State :=
  let m := s.mem
  if o = 0x18 then readWinRefused s
  else (
    if o = 0x00 then bitAt m.trained 31 ||| bitAt m.noref 30 ||| atBit m.fitted.toNat 16 8 ||| atBit m.rate.toNat 12 4 ||| atBit m.ranks.toNat 10 2
    else if o = 0x04 then m.usable.setWidth 32
    else if o = 0x08 then m.ce
    else if o = 0x0C then m.ue
    else if o = 0x10 then atBit m.retired.length 16 9 ||| atBit (sparePages s) 0 9
    else if o = 0x14 then w32 (Nat.max 4 m.rotPace.toNat)
    else if o = 0x1C then (List.finRange 8).foldl (fun w k => w ||| atBit m.kslot[k].use.code (4 * k.val) 4) 0#32
    else if 0x20 ≤ o ∧ o < 0x30 then
      let r := m.retain[retainOff o]
      if s.ownsLane p r.lane then atBit r.lane.val 8 2 ||| bitAt r.valid 7 ||| atBit r.bank.toNat 0 6 else 0#32
    else if 0x40 ≤ o ∧ o < 0x60 then
      let l := partOff o
      if s.ownsLane p l then (if o % 8 = 0 then m.part[l].setWidth 32 else (m.part[l] >>> 32).setWidth 32) else 0#32
    else if 0x100 ≤ o ∧ o < 0x300 then readRegion p (regionOff o) (o % 0x10) s
    else if 0x400 ≤ o ∧ o < 0x800 then (match m.retired[(o - 0x400) / 4]? with | some page => bitAt true 31 ||| w32 page | none => 0#32)
    else 0#32, s)

def writeMem (p : Path) (o : Nat) (v : W32) (s : State) : State :=
  if o = 0x14 then { s with mem := { s.mem with rotPace := v.setWidth 16 } }
  else if 0x20 ≤ o ∧ o < 0x30 then bhRetainWrite p (retainOff o) v s
  else if 0x40 ≤ o ∧ o < 0x60 then bhPartWrite p (partOff o) (o % 8 != 0) v s
  else if 0x100 ≤ o ∧ o < 0x300 then writeRegion p (regionOff o) (o % 0x10) v s
  else s

/-! ## HOST (R363, R365, R370, R371) -/

/-- The counts of Quad-SPI transactions are read and clear. -/
def readHostQspi (s : State) : W32 × State :=
  (atBit s.host.dropped.toNat 16 16 ||| atBit s.host.notReady.toNat 0 16, { s with host := { s.host with dropped := 0#16, notReady := 0#16 } })

/-- Milliseconds left of the lease, to the nearest. -/
def leaseMs (s : State) : Nat := (s.host.leaseLeft * 1000 + 16384) / 32768

def readRing (p : Path) (n : LaneId) (o : Nat) (s : State) : W32 :=
  let r := s.host.ring[n]
  if o = 0x00 then (r.latched.getD r.sqTail).setWidth 32
  else if o = 0x04 then r.sqHead.setWidth 32
  else if o = 0x08 then r.cqTail.setWidth 32
  else if o = 0x0C then r.cqHead.setWidth 32
  else if o = 0x10 then bitAt r.resetReq 31 ||| bitAt r.taddRef 1 ||| bitAt r.err 0
  else if o = 0x18 then (if s.ownsLane p n then (s.lane n).hc else 0#32)
  else 0#32

def writeRing (n : LaneId) (o : Nat) (v : W32) (s : State) : State :=
  if o = 0x00 then doorbell n (v.setWidth 16) s
  else if o = 0x0C then cqHeadWrite n (v.setWidth 16) s
  else if o = 0x10 then s.setRing n fun r => { r with
    resetReq := r.resetReq || bit v 31, taddRef := r.taddRef && !bit v 1, err := r.err && !bit v 0 }
  else if o = 0x14 then tadd n (v.setWidth 16) s
  else s

def ringOff (o : Nat) : LaneId := ⟨(o - 0x100) / 0x20 % 4, Nat.mod_lt _ (by decide)⟩
def evOff (o : Nat) : Fin 2 := ⟨(o - 0x180) / 8 % 2, Nat.mod_lt _ (by decide)⟩

/-- A read in the HOST block, by offset from 0xE000. -/
def readHost (p : Path) (o : Nat) (s : State) : W32 × State :=
  let h := s.host
  if o = 0x1C then readHostQspi s
  else (
    if o = 0x00 then bitAt h.qspi 31 ||| bitAt s.start.banner 30 ||| atBit h.speed.val 20 4 ||| atBit h.width.val 16 4 ||| 0x10#32
    else if o = 0x04 then bitAt h.leaseActive 31 ||| bitAt h.leaseLapsed 30 ||| h.period.setWidth 32
    else if o = 0x08 then (if h.leaseActive then w32 (leaseMs s) else 0#32)
    else if o = 0x0C then h.irq.setWidth 32
    else if o = 0x10 then h.irqEn
    else if o = 0x14 then h.winBase.setWidth 32
    else if o = 0x18 then h.evctl.setWidth 32
    else if 0x100 ≤ o ∧ o < 0x180 then readRing p (ringOff o) (o % 0x20) s
    else if 0x180 ≤ o ∧ o < 0x190 then
      let r := h.ev[evOff o]
      (if o % 8 = 0 then r.tail else r.head).setWidth 32
    else 0#32, s)

/-- A write in the HOST block: the host link's, or the String Port's as the owner of the lane concerned (R371, R445); another path's write
to RINGn_TADD is refused there (R370). -/
def writeHost (p : Path) (o : Nat) (v : W32) (s : State) : State :=
  if p ≠ .host ∧ p ≠ .string then
    (if 0x100 ≤ o ∧ o < 0x180 ∧ o % 0x20 = 0x14 then taddRefused (ringOff o) s else s)
  else if o = 0x0C then { s with host := { s.host with irq := s.host.irq &&& ~~~(v.setWidth 8) } }
  else if o = 0x10 then { s with host := { s.host with irqEn := v &&& 0xFF#32 } }
  else if o = 0x14 then { s with host := { s.host with winBase := v.setWidth 6 } }
  else if o = 0x18 then { s with host := { s.host with evctl := v.setWidth 2 } }
  else if 0x100 ≤ o ∧ o < 0x180 then writeRing (ringOff o) (o % 0x20) v s
  else if 0x180 ≤ o ∧ o < 0x190 then (if o % 8 = 4 then evHeadWrite (evOff o) (v.setWidth 16) s else s)
  else s

/-! ## Scale files and STRING (R99 to R101, R450) -/

/-- Entry c of the scale file of a shell, for a path that owns the lane of the heat that holds it or held it last. -/
def readScale (p : Path) (i : ShellId) (c : Nat) (s : State) : W32 :=
  let x := s.shell i
  match (x.running.map Prod.fst).orElse fun _ => x.lastLane with
  | some l => if s.ownsLane p l then Tab.word x.scale c else 0#32
  | none => if p = .string then Tab.word x.scale c else 0#32

def armedMask (s : State) : Nat := bitsOf fun k : Fin 8 => s.str.slots[k].isSome

def readString (o : Nat) (s : State) : W32 :=
  if o = 0x00 then bitAt s.locked 31 ||| bitAt (s.confidential || s.locked) 30 ||| bitAt s.str.session 29 ||| w32 (armedMask s)
  else if o = 0x04 then s.str.halted.setWidth 32
  else if o = 0x08 then s.str.idle.setWidth 32
  else if o = 0x0C then (match s.str.touch with | some (l, q) => bitAt true 31 ||| atBit l.val 24 2 ||| q.setWidth 32 | none => 0#32)
  else 0#32

def writeString (o : Nat) (v : W32) (s : State) : State :=
  if o = 0x08 ∧ 100 ≤ fld v 0 16 ∧ fld v 0 16 ≤ 60000 then { s with str := { s.str with idle := v.setWidth 16 } } else s

/-! ## The window (R451, R452) -/

/-- The shell of a scale-file offset. -/
def scaleShell (off : Nat) : ShellId := ⟨(off - 0x10000) / 0x1000 % 18, Nat.mod_lt _ (by decide)⟩

/-- The domain that a register stands in, outside AO and the domains that stay up. -/
def regDom (off : Nat) : Option Dom :=
  if 0x10000 ≤ off ∧ off < 0x22000 then some (Dom.shell (scaleShell off))
  else if off / 0x1000 = 0x9 then some Dom.eye
  else if off / 0x1000 = 0xA then some Dom.ear
  else none

def regFenced (off : Nat) (s : State) : Bool := (regDom off).any s.domFenced

/-- An access brings the register's domain up (R406). -/
def regTouch (off : Nat) (s : State) : State := match regDom off with | some d => touch d s | none => s

/-- The block of an offset and the offset in it: a read. -/
def readBlock (p : Path) (off : Nat) (s : State) : W32 × State :=
  let o := off % 0x1000
  match off / 0x1000 with
  | 0x0 => (readId o s, s)
  | 0x1 => readGlobal p o s
  | 0x2 => readLanes p o s
  | 0x3 => (s.tally (o / 4), s)
  | 0x4 => (readRail o s, s)
  | 0x5 => (readFault o s, s)
  | 0x6 => readStat p o s
  | 0x7 => (readKey o s, s)
  | 0x8 => readMem p o s
  | 0x9 => if o = 0x24 then readEyeMissed s else (readEye o s, s)
  | 0xA => readEar p o s
  | 0xB => if o = 0x04 then readSenseData s else (readSense o s, s)
  | 0xC => if o = 0x44 then readEdgeLost s else (readEdge o s, s)
  | 0xD => (readTmr o s, s)
  | 0xE => readHost p o s
  | 0xF => (readFuse o s, s)
  | 0x22 => (readString o s, s)
  | _ => if 0x10000 ≤ off ∧ off < 0x22000 then (readScale p (scaleShell off) (o / 4) s, s) else (0#32, s)

/-- The bits of named fields. -/
def fieldMask (l : List FieldRow) : W32 := l.foldl (fun m f => m ||| w32 ((2 ^ f.width - 1) * 2 ^ f.lo)) 0#32

/-- The bits that the tables assign in a register of the EYE, EAR and audio-out blocks; none at an offset that no table assigns
(R10). -/
def assignedBits (off : Nat) : W32 :=
  match off with
  | 0x9008 => 0x000FFFFF#32
  | 0x900C => 0x003FFFFF#32
  | 0x901C => 0x800003FF#32
  | 0xA004 => 0x000000FF#32
  | 0xA064 => 0x800003FF#32
  | 0xA06C => 0x800003FF#32
  | 0xA088 => 0x83FF83FF#32
  | _ =>
    match regRowAt off with
    | some (r, _) => if r.fields.isEmpty then 0xFFFFFFFF#32 else fieldMask r.fields
    | none => 0#32

/-- A register is read whole by a path; in a fenced domain nothing fixes what its assigned bits read, and the others read 0; of a fenced
shell, no lane holds the scale file. -/
def readReg (p : Path) (off : Nat) (s : State) : W32 × State :=
  if off % 4 ≠ 0 then (0#32, s)
  else if regFenced off s then
    let (n, s) := draw s
    (Config.freeWord n &&& (if 0x10000 ≤ off then (if p = .string then 0xFFFFFFFF#32 else 0#32) else assignedBits off), s)
  else readBlock p off (regTouch off s)

def writeBlock (p : Path) (off : Nat) (v : W32) (s : State) : State :=
  let o := off % 0x1000
  match off / 0x1000 with
  | 0x1 => writeGlobal p o v s
  | 0x2 => writeLanes p o v s
  | 0x4 => writeRail p o v s
  | 0x5 => writeFault o v s
  | 0x8 => writeMem p o v s
  | 0x9 => writeEye p o v s
  | 0xA => writeEar p o v s
  | 0xB => writeSense o v s
  | 0xC => writeEdge p o v s
  | 0xD => writeTmr p o v s
  | 0xE => writeHost p o v s
  | 0xF => if o = 0x10 then writeFuseLock p v s else s
  | 0x22 => writeString o v s
  | _ => s

/-- A register is written whole by a path. -/
def writeReg (p : Path) (off : Nat) (v : W32) (s : State) : State :=
  if off % 4 ≠ 0 || regFenced off s then s else writeBlock p off v (regTouch off s)

/-- A write to a register that has no command of its own. -/
def execRegisterWrite (path : Path) (off : BitVec 18) (v : W32) (s : State) : Host.Outcome State Fault Refusal :=
  .next (writeReg path off.toNat v s)

/-- A LO register is read (R453). -/
def LoReg.offset : LoReg → Nat
  | .tick => 0x1004
  | .earSample => 0xA050
  | .hs l => 0x6214 + 0x20 * l.val
  | .spin l => 0x2018 + 0x400 * l.val

def loRegisterRead (path : Path) (r : LoReg) (s : State) : State :=
  let (v, s) := readReg path r.offset s
  (s.answered path v)

def execLoRegisterRead (path : Path) (r : LoReg) (s : State) : Host.Outcome State Fault Refusal := .next (loRegisterRead path r s)

def hostQspiRead (path : Path) (s : State) : State :=
  let (v, s) := readHostQspi s
  (s.answered path v)

def execHostQspiRead (path : Path) (s : State) : Host.Outcome State Fault Refusal := .next (hostQspiRead path s)

end Sys2Proof.Machine
end

