-- ==== Sys2Proof/Machine/StringPort.lean ====
section
/-! DEFINITION. The String Port (R439 to R450): the test access port, its commands, halts, breakpoints, and accesses to registers
and memory. -/

namespace Sys2Proof.Machine
open Sys2Proof

/-! ## The test access port (R439, R441, R449) -/

/-- An Update-IR selects an instruction; a locked part takes none. -/
def tapInstruction (ir : BitVec 4) (s : State) : State := if s.locked then s else { s with str := { s.str with ir := ir } }

def execTapInstruction (ir : BitVec 4) (s : State) : Host.Outcome State Fault Refusal := .next (tapInstruction ir s)

/-- The identity: revision, 0x0480 and a 1. -/
def idcode (s : State) : Nat := revision s % 16 * 0x10000000 + 0x0480 * 0x1000 + 1

def State.shiftOut (s : State) (v : Option (BitVec 80)) : State := { s with str := { s.str with tdo := v } }

/-- Capture-DR of IDCODE; on a locked part STR_TDO floats. -/
def idcodeCapture (s : State) : State :=
  if s.locked then s.shiftOut none
  else if s.str.ir = 1#4 then s.shiftOut (some (BitVec.ofNat 80 (idcode s)))
  else s

def execIdcodeCapture (s : State) : Host.Outcome State Fault Refusal := .next (idcodeCapture s)

def StrStatus.code : StrStatus → Nat
  | .done => 0 | .busy => 1 | .closed => 2 | .refused => 3 | .badop => 4 | .notHalted => 5

/-- STATUS, OP and result of the last command. -/
def strResp (p : StringPort) : BitVec 80 :=
  BitVec.ofNat 80 (p.status.code * 2 ^ 72 + p.lastOp.toNat * 2 ^ 64 + p.result.toNat)

/-- Capture-DR of RESP. -/
def respCapture (s : State) : State :=
  if s.locked then s.shiftOut none
  else if s.str.ir = 9#4 then s.shiftOut (some (strResp s.str))
  else s

def execRespCapture (s : State) : Host.Outcome State Fault Refusal := .next (respCapture s)

/-! ## Commands (R440 to R442, R448, R449) -/

/-- What a command answers: its status, its result, and the state. -/
abbrev StrAns := StrStatus × W64 × State

def strDone (v : W64) (s : State) : StrAns := (.done, v, s)
def strBad (s : State) : StrAns := (.badop, 0#64, s)
def strRefused (s : State) : StrAns := (.refused, 0#64, s)

/-- The first update of a session brings PD_STR up; a new session has recorded no heat (R446, R448). -/
def strOpen (s : State) : State :=
  if s.str.session then s
  else
    let s := touch Dom.str s
    { s with str := { s.str with session := true, touch := none } }

def State.strSays (s : State) (op : Byte) (st : StrStatus) (v : W64) : State :=
  { s with str := { s.str with status := st, lastOp := op, result := v } }

/-- An Update-DR of CMD with an OP: it needs the CMD instruction, is ignored while a STEP runs, and answers CLOSED in
confidential mode. -/
def strCmd (op : Byte) (run : State → StrAns) (s : State) : State :=
  if s.locked || s.str.ir != 8#4 || s.str.stepping.isSome then s
  else if s.confidential then s.strSays op .closed 0#64
  else
    let (st, v, s) := run (strOpen s)
    s.strSays op st v

/-- The field of n bits of ARG at bit lo. -/
def afld (a : BitVec 24) (lo n : Nat) : Nat := (a.toNat >>> lo) % 2 ^ n

/-- A shell that a command names. -/
def strShell (k : Nat) : Option ShellId := fin? 18 k

/-- STATUS: halted shells, armed breakpoints, and the session. -/
def doStringStatus (arg : BitVec 24) (data : W64) : State → State :=
  strCmd 0x01#8 fun s =>
    if arg ≠ 0#24 ∨ data ≠ 0#64 then strBad s
    else strDone (BitVec.ofNat 64 (2 ^ 26 * boolNat s.str.session + 2 ^ 18 * armedMask s + s.str.halted.toNat)) s

def execStringStatus (arg : BitVec 24) (data : W64) (s : State) : Host.Outcome State Fault Refusal := .next (doStringStatus arg data s)

/-- HALT of a mask of shells, each at its own stroke boundary (R443). -/
def doHalt (arg : BitVec 24) (data : W64) : State → State :=
  strCmd 0x10#8 fun s =>
    if 0x40000 ≤ arg.toNat ∨ data ≠ 0#64 then strBad s
    else strDone (arg.setWidth 64) { s with str := { s.str with halted := s.str.halted ||| arg.setWidth 18 } }.watch

def execHalt (arg : BitVec 24) (data : W64) (s : State) : Host.Outcome State Fault Refusal := .next (doHalt arg data s)

def doResume (arg : BitVec 24) (data : W64) : State → State :=
  strCmd 0x11#8 fun s =>
    if 0x40000 ≤ arg.toNat ∨ data ≠ 0#64 then strBad s
    else strDone ((s.str.halted &&& arg.setWidth 18).setWidth 64) (strFree (arg.setWidth 18) s)

def execResume (arg : BitVec 24) (data : W64) (s : State) : Host.Outcome State Fault Refusal := .next (doResume arg data s)

/-- A shell has a program to run. -/
def State.hasProgram (s : State) (i : ShellId) : Bool := (s.shell i).running.isSome && (s.shell i).word.isSome

/-- STEP: the halted shell runs its strokes, and RESP shows BUSY until then. -/
def doStep (arg : BitVec 24) (data : W64) : State → State :=
  strCmd 0x12#8 fun s =>
    match strShell arg.toNat with
    | none => strBad s
    | some i =>
      if data.toNat = 0 ∨ 65535 < data.toNat then strBad s
      else if !s.str.halted.getLsbD i.val then (.notHalted, 0#64, s)
      else if s.hasProgram i then (.busy, 0#64, { s with str := { s.str with stepping := some (i, data.toNat, 0) } })
      else strDone 0#64 s

def execStep (arg : BitVec 24) (data : W64) (s : State) : Host.Outcome State Fault Refusal := .next (doStep arg data s)

/-- The shell of a STEP has run its strokes, or has no program any more. -/
def stepDone (s : State) : State :=
  match s.str.stepping with
  | some (i, left, ran) =>
    if left = 0 || !s.hasProgram i then
      { s with str := { s.str with stepping := none, status := .done, result := BitVec.ofNat 64 ran } }
    else s
  | none => s

def execStepDone (s : State) : Host.Outcome State Fault Refusal := .next (stepDone s)

/-- COUNTER: the stroke counter of a shell (R26). -/
def doCounter (arg : BitVec 24) (data : W64) : State → State :=
  strCmd 0x13#8 fun s =>
    match strShell arg.toNat with
    | none => strBad s
    | some i => if data ≠ 0#64 then strBad s else strDone ((s.shell i).strokes.setWidth 64) s

def execCounter (arg : BitVec 24) (data : W64) (s : State) : Host.Outcome State Fault Refusal := .next (doCounter arg data s)

/-! ## Breakpoints (R444) -/

/-- The breakpoint that ARG and DATA of a BREAK SET give; none where a field is reserved. -/
def breakOf (arg : BitVec 24) (data : W64) : Option Break :=
  let m : BitVec 18 := arg.setWidth 18
  if afld arg 18 1 ≠ 0 then none
  else match afld arg 19 2 with
    | 0 => if wfld data 53 11 ≠ 0 then none else (strShell (wfld data 48 5)).map fun i => .stroke i (data.setWidth 48) m
    | 1 =>
      if wfld data 42 22 ≠ 0 ∨ wfld data 16 16 ≠ 0 then none
      else some (.tally ⟨wfld data 32 10, Nat.mod_lt _ (by decide)⟩ (data.setWidth 16) m)
    | 2 =>
      if wfld data 62 2 = 0 ∨ wfld data 43 19 ≠ 0 then none
      else some (.address (data.getLsbD 62) (data.getLsbD 63) (wfld data 0 43) m)
    | _ => none

def slotOfArg (arg : BitVec 24) : Fin 8 := ⟨afld arg 21 3, Nat.mod_lt _ (by decide)⟩

def State.setSlot (s : State) (k : Fin 8) (b : Option Break) : State :=
  { s with str := { s.str with slots := put s.str.slots k b } }

/-- A shell that stands at the count of a new breakpoint on its strokes halts before its next stroke. -/
def strArmed (b : Break) (s : State) : State :=
  match b with
  | .stroke i c m =>
    if (s.shell i).strokes = c then { s with str := { s.str with halted := s.str.halted ||| (m &&& s.serviceBits) } }.watch else s
  | _ => s

def doBreakSet (arg : BitVec 24) (data : W64) : State → State :=
  strCmd 0x20#8 fun s =>
    match breakOf arg data with
    | some b => strDone 0#64 (strArmed b (s.setSlot (slotOfArg arg) (some b)))
    | none => strBad s

def execBreakSet (arg : BitVec 24) (data : W64) (s : State) : Host.Outcome State Fault Refusal := .next (doBreakSet arg data s)

def doBreakClear (arg : BitVec 24) (data : W64) : State → State :=
  strCmd 0x21#8 fun s =>
    if afld arg 0 21 ≠ 0 ∨ data ≠ 0#64 then strBad s else strDone 0#64 (s.setSlot (slotOfArg arg) none)

def execBreakClear (arg : BitVec 24) (data : W64) (s : State) : Host.Outcome State Fault Refusal := .next (doBreakClear arg data s)

/-! ## Heats that a write touches (R446) -/

/-- The session's first heat written under it is recorded. -/
def strTouch (p : LaneId → HeatRun → Bool) (s : State) : State :=
  if s.str.touch.isSome then s
  else
    let hit := (List.finRange 4).findSome? fun l => ((s.lane l).runs.find? fun r => r.started && r.failed.isNone && p l r).map fun r => (l, r.seq)
    match hit with
    | some (l, q) => { s with str := { s.str with touch := some (l, q.setWidth 24) } }
    | none => s

/-- A heat reads or writes a Course address: it lies in a region of its arguments or in a copy of its bundle. -/
def heatUses (s : State) (a : Nat) (l : LaneId) (r : HeatRun) : Bool :=
  match (s.lane l).acceptOf r.seq with
  | some c =>
    (c.args.any fun x => match x with
      | .region ad n => decide (ad ≤ a ∧ a < ad + 64 * n)
      | _ => false) ||
    (match courseAt a with
      | .boathouse off => (s.bundle c.handle).banks.contains (bankAt off)
      | _ => false)
  | none => false

/-! ## Registers (R445) -/

def doRd32 (arg : BitVec 24) (data : W64) : State → State :=
  strCmd 0x30#8 fun s =>
    if 0x40000 ≤ arg.toNat ∨ arg.toNat % 4 ≠ 0 ∨ data ≠ 0#64 then strBad s
    else if regFenced arg.toNat s then strRefused s
    else
      let (v, s) := readReg .string arg.toNat s
      strDone (v.setWidth 64) s

def execRd32 (arg : BitVec 24) (data : W64) (s : State) : Host.Outcome State Fault Refusal := .next (doRd32 arg data s)

/-- A host count that a register write raises is a location of the lane's running heats with a host tally (R370). -/
def regTouches (off : Nat) (s : State) (l : LaneId) (r : HeatRun) : Bool :=
  decide (off = 0xE114 + 0x20 * l.val) && ((s.entryOf l r.seq).map (·.hostAdd)).getD false

def doWr32 (arg : BitVec 24) (data : W64) : State → State :=
  strCmd 0x31#8 fun s =>
    let off := arg.toNat
    if 0x40000 ≤ off ∨ off % 4 ≠ 0 ∨ 2 ^ 32 ≤ data.toNat then strBad s
    else if regFenced off s then strRefused s
    else
      let s := writeReg .string off (data.setWidth 32) (strTouch (regTouches off s) s)
      let (v, s) := readReg .string off s
      strDone (v.setWidth 64) s

def execWr32 (arg : BitVec 24) (data : W64) (s : State) : Host.Outcome State Fault Refusal := .next (doWr32 arg data s)

/-! ## Memory (R445) -/

/-- The space that ARG of a SETADDR names. -/
def spaceOf (arg : BitVec 24) : Option StrSpace :=
  if afld arg 2 2 ≠ 0 ∨ afld arg 9 15 ≠ 0 then none
  else match afld arg 0 2 with
    | 0 => if afld arg 4 5 = 0 then some .course else none
    | 1 => (strShell (afld arg 4 5)).map .sram
    | 2 => (strShell (afld arg 4 5)).map .table
    | _ => none

def doSetaddr (arg : BitVec 24) (data : W64) : State → State :=
  strCmd 0x40#8 fun s =>
    match spaceOf arg with
    | some p =>
      if data.toNat % 8 ≠ 0 then strBad s
      else strDone 0#64 { s with str := { s.str with space := p, pointer := data.toNat } }
    | none => strBad s

def execSetaddr (arg : BitVec 24) (data : W64) (s : State) : Host.Outcome State Fault Refusal := .next (doSetaddr arg data s)

/-- The Boathouse and DRAM in a lane region are served: not mailbox memory, sealed extents or adapter regions. -/
def State.strServes (s : State) (a : Nat) : Bool :=
  match courseAt a with
  | .boathouse off => (bankAt off).val != 63 && s.bankUp (bankAt off)
  | .dram x =>
    s.dramUp && decide (x < s.mem.usable.toNat * 65536) &&
      (match s.regionOf (x / 0x10000) with
        | some i => !s.mem.region[i].sealed && !s.mem.region[i].adapter
        | none => false)
  | _ => false

/-- A DRAM unit; nothing fixes the bytes of an uncorrectable one. -/
def strUnit (unit : Nat) (s : State) : List Byte × State :=
  match dramRead none unit s with
  | (.ok b, s) => (b, s)
  | (_, s) => freeBytes 64 s

/-- Bytes of a unit replaced by a word. -/
def spliceWord (b : List Byte) (at_ : Nat) (w : W64) : List Byte := b.take at_ ++ leBytes w.toNat 8 ++ b.drop (at_ + 8)

/-- A word of the Course that the port serves. -/
def strCourseRead (a : Nat) (s : State) : W64 × State :=
  match courseAt a with
  | .boathouse off =>
    let s := (touch (bankDom (bankAt off)) s).countBh none
    if s.faults.poisoned.contains (off / 8) then
      let (b, s) := freeBytes 8 s
      (BitVec.ofNat 64 (leNat b), s)
    else
      let (b, s) := openRead a (s.mem.bh.range off 8) s
      (BitVec.ofNat 64 (leNat b), s)
  | _ =>
    let (b, s) := strUnit (a / 64) s
    let (b, s) := openRead (a / 64 * 64) b s
    (BitVec.ofNat 64 (leNat ((b.drop (a % 64)).take 8)), s)

/-- A word written to the Course; a unit of DRAM keeps its poison, since it is not written whole (R243). -/
def strCourseWrite (a : Nat) (w : W64) (s : State) : State :=
  match courseAt a with
  | .boathouse off =>
    let s := (touch (bankDom (bankAt off)) s).countBh none
    { s with
      mem := { s.mem with bh := s.mem.bh.put off (leBytes w.toNat 8) }
      faults := { s.faults with poisoned := s.faults.poisoned.filter (· != off / 8) } }
  | _ =>
    let p := s.mem.poison
    let (b, s) := strUnit (a / 64) s
    let s := (dramWrite none (a / 64) (spliceWord b (a % 64) w) s).2
    { s with mem := { s.mem with poison := p } }

/-- The word at the pointer, in its space; none where the access is refused. -/
def strReadAt (p : StrSpace) (a : Nat) (s : State) : Option W64 × State :=
  match p with
  | .course =>
    if s.strServes a then
      let (w, s) := strCourseRead a s
      (some w, s)
    else (none, s)
  | .sram i =>
    if a < 0x80000 then
      let s := touch (Dom.shell i) s
      if (s.shell i).poisoned.contains (a / 8) then
        let (b, s) := freeBytes 8 s
        (some (BitVec.ofNat 64 (leNat b)), s)
      else (some (BitVec.ofNat 64 ((s.shell i).sram.nat a 8)), s)
    else (none, s)
  | .table i => if a < 0x20000 then (some (BitVec.ofNat 64 ((s.shell i).table.nat a 8)), touch (Dom.shell i) s) else (none, s)

/-- A word is written at the pointer, in its space; none where the access is refused. -/
def strWriteAt (p : StrSpace) (a : Nat) (w : W64) (s : State) : Option State :=
  match p with
  | .course =>
    if s.strServes a then some (strCourseWrite a w (strTouch (heatUses s a) s)) else none
  | .sram i =>
    if a < 0x80000 then
      some ((touch (Dom.shell i) (strTouch (runsOn i s) s)).setShell i fun x => x.store a (leBytes w.toNat 8))
    else none
  | .table i =>
    if a < 0x20000 then
      some ((touch (Dom.shell i) (strTouch (runsOn i s) s)).setShell i fun (x : Shell) => { x with table := x.table.put a (leBytes w.toNat 8) })
    else none
where
  runsOn (i : ShellId) (s : State) (l : LaneId) (r : HeatRun) : Bool := (s.shell i).running == some (l, r.seq)

def State.strAdvance (s : State) : State := { s with str := { s.str with pointer := s.str.pointer + 8 } }

/-- The access at the pointer stalls: its DRAM block is locked (R243, R255). -/
def State.strStalls (s : State) (write : Bool) : Bool :=
  s.str.space == .course && s.strServes s.str.pointer && s.courseStalls write s.str.pointer

/-- A read waits while its block is locked. -/
def doRdmem (arg : BitVec 24) (data : W64) (s : State) : State :=
  if s.strStalls false then s else (strCmd 0x41#8 fun s =>
    if arg ≠ 0#24 ∨ data ≠ 0#64 then strBad s
    else match strReadAt s.str.space s.str.pointer s with
      | (some w, s) => strDone w s.strAdvance
      | (none, s) => strRefused s) s

def execRdmem (arg : BitVec 24) (data : W64) (s : State) : Host.Outcome State Fault Refusal := .next (doRdmem arg data s)

/-- A write waits while its block is locked. -/
def doWrmem (arg : BitVec 24) (data : W64) (s : State) : State :=
  if s.strStalls true then s else (strCmd 0x42#8 fun s =>
    if arg ≠ 0#24 then strBad s
    else match strWriteAt s.str.space s.str.pointer data s with
      | some s => strDone 0#64 s.strAdvance
      | none => strRefused s) s

def execWrmem (arg : BitVec 24) (data : W64) (s : State) : Host.Outcome State Fault Refusal := .next (doWrmem arg data s)

/-! ## The end of a session (R448) -/

def strSessionIdle (s : State) : State := if s.str.session then strEnd s else s

def execStrSessionIdle (s : State) : Host.Outcome State Fault Refusal := .next (strSessionIdle s)

/-- STR_TRST_N is held low: the port is reset to IDCODE. -/
def strTrst (s : State) : State :=
  let s := strEnd s
  { s with str := { s.str with ir := 1#4 } }

def execStrTrst (s : State) : Host.Outcome State Fault Refusal := .next (strTrst s)

end Sys2Proof.Machine
end

