-- ==== Sys2Proof/Machine/HostPort.lean ====
section
/-! DEFINITION. The host's two ports: Quad-SPI transactions (R357 to R359), PCIe requests and link events (R354 to R356, R359,
R451). -/

namespace Sys2Proof.Machine
open Sys2Proof

def State.setHost (s : State) (f : HostLink → HostLink) : State := { s with host := f s.host }

/-- What a host transaction answers. -/
def State.answers (s : State) (code : Byte) (ws : List W32) : State := s.setHost fun h => { h with answer := (code, ws) }

/-! ## Words and bytes -/

def wordBytes (ws : List W32) : List Byte := ws.flatMap fun w => leBytes w.toNat 4

/-- The bytes of a write with the byte enables of its first and last words; a byte that is not enabled is none. -/
def enabled (be : Byte) (ws : List W32) : List (Option Byte) :=
  let n := ws.length
  (ws.zipIdx.map fun p =>
    let m : Nat := (if p.2 = 0 then be.toNat % 16 else 15) &&& (if p.2 + 1 = n ∧ 1 < n then be.toNat / 16 else 15)
    (leBytes p.1.toNat 4).zipIdx.map fun q => if m.testBit q.2 then some q.1 else none).flatten

/-- Every byte enable of a request is set. -/
def allEnabled (be : Byte) (n : Nat) : Bool := be.toNat % 16 == 15 && (n == 1 || be.toNat / 16 == 15)

/-! ## The register window -/

/-- n registers read in ascending offset by the host. -/
def hostRegs (off : Nat) : Nat → State → List W32 × State
  | 0, s => ([], s)
  | n + 1, s =>
    let (v, s) := readReg .host off s
    let (l, s) := hostRegs (off + 4) n s
    (v :: l, s)

def hostSetRegs (off : Nat) (ws : List W32) (s : State) : State :=
  (ws.zipIdx.foldl (fun (s : State) p => writeReg .host (off + 4 * p.2) p.1 s) s)

/-! ## Mailbox memory (R360) -/

def mailUp (s : State) : Bool := s.bankUp 63

/-- Bytes of the mailbox; where bank 63 is not served, nothing fixes them. -/
def mailGet (a n : Nat) (s : State) : List Byte × State :=
  if mailUp s then
    let s := touch (bankDom 63) s
    ((List.range n).map fun k => if a + k < 0x80000 then s.mem.bh.get (mailboxBase + a + k) else 0#8, s)
  else freeBytes n s

def mailPut (a : Nat) (bs : List (Option Byte)) (s : State) : State :=
  if mailUp s then
    let s := touch (bankDom 63) s
    let bh := bs.zipIdx.foldl (fun (m : Bytes) p => match p.1 with
      | some b => if a + p.2 < 0x80000 then m.set (mailboxBase + a + p.2) b else m
      | none => m) s.mem.bh
    { s with mem := { s.mem with bh := bh } }
  else s

/-! ## The DRAM window (R250, R355) -/

/-- The units that n bytes at an address fall in. -/
def unitsOf (a n : Nat) : List Nat := if n = 0 then [] else (List.range ((a + n - 1) / 64 - a / 64 + 1)).map fun k => a / 64 + k

/-- Bytes of the window, by one access for each unit. -/
def windowGet (a n : Nat) (s : State) : List Byte × State :=
  let r := (unitsOf a n).foldl (fun (p : List Byte × State) u =>
    let (b, s) := windowAccess u none p.2
    (p.1 ++ b, s)) ([], s)
  ((r.1.drop (a % 64)).take n, r.2)

/-- The bytes of a write that fall in unit u, by their place in it. -/
def inUnit (a : Nat) (bs : List (Option Byte)) (u : Nat) : List (Option Byte) :=
  (List.range 64).map fun k => if a ≤ 64 * u + k then (bs.getD (64 * u + k - a) none) else none

/-- One unit of a window write. A part of a unit keeps its other bytes, and its poison (R243). -/
def windowUnit (u : Nat) (bs : List (Option Byte)) (s : State) : State :=
  if bs.all Option.isSome then (windowAccess u (some (bs.filterMap id)) s).2
  else if bs.all Option.isNone then s
  else if s.dramUp && decide (u < s.mem.usable.toNat * 1024) && s.windowOpen u then
    let p := s.mem.poison
    let (old, s) := strUnit u s
    let s := (windowAccess u (some ((bs.zip old).map fun q => q.1.getD q.2)) s).2
    { s with mem := { s.mem with poison := p } }
  else (windowAccess u (some []) s).2

def windowPut (a : Nat) (bs : List (Option Byte)) (s : State) : State :=
  (unitsOf a bs.length).foldl (fun s u => windowUnit u (inUnit a bs u) s) s

/-- An access of n bytes at an address of the window meets a locked block, and stalls (R243, R250, R255). -/
def windowStalls (write : Bool) (a n : Nat) (s : State) : Bool := (unitsOf a n).any fun u => s.windowOpen u && s.unitStalls write u

/-! ## Accesses by space -/

/-- An access of n words in a space meets a locked block. -/
def spaceStalls (write : Bool) (space : Fin 3) (a n : Nat) (s : State) : Bool := space == 2 && windowStalls write a (4 * n) s

/-- Words read in a space: 0 the register window, 1 mailbox memory, 2 engine DRAM. -/
def spaceRead (space : Fin 3) (a n : Nat) (s : State) : List W32 × State :=
  if space = 0 then hostRegs a n s
  else
    let (b, s) := if space = 1 then mailGet a (4 * n) s else windowGet a (4 * n) s
    (leWords b, s)

def spaceWrite (space : Fin 3) (a : Nat) (ws : List W32) (s : State) : State :=
  if space = 0 then hostSetRegs a ws s
  else
    let bs := (wordBytes ws).map some
    if space = 1 then mailPut a bs s else windowPut a bs s

/-- Every word of a register access lies in the HOST block (R359). -/
def inHostBlock (a n : Nat) : Bool := decide (0xE000 ≤ a ∧ a + 4 * n ≤ 0xF000)

/-- The domains that an access needs. -/
def spaceDoms (space : Fin 3) (a n : Nat) : List Dom :=
  if space = 0 then (List.range n).filterMap fun k => regDom (a + 4 * k)
  else if space = 1 then [bankDom 63] else [Dom.mem]

/-- A domain that an access needs is off. -/
def spaceOff (space : Fin 3) (a n : Nat) (s : State) : Bool :=
  (spaceDoms space a n).any fun d => !s.domUp d && !s.domFenced d

/-! ## Quad-SPI (R357, R358, R359) -/

def qspiReady : Byte := 0x5A#8
def qspiNot : Byte := 0xA5#8
def qspiError : Byte := 0xC3#8

/-- NOTREADY, counted in HOST_QSPI. -/
def notReady (s : State) : State :=
  (s.answers qspiNot []).setHost fun h => { h with notReady := if h.notReady = 0xFFFF#16 then h.notReady else h.notReady + 1#16 }

/-- A read by its turnaround, or one that the engine performs and holds; one that a locked block stalls is repeated. -/
def qspiRead (space : Fin 3) (a n : Nat) (late : Bool) (s : State) : State :=
  if spaceStalls false space a n s then notReady s
  else if late || spaceOff space a n s then
    let (ws, s) := spaceRead space a n s
    (notReady s).setHost fun h => { h with held := some { space := space, addr := a, words := n, data := ws } }
  else
    let (ws, s) := spaceRead space a n s
    s.answers qspiReady ws

def HeldRead.is (h : HeldRead) (space : Fin 3) (a n : Nat) : Bool := h.space == space && h.addr == a && h.words == n

/-- A transaction: `late` says that a read misses its turnaround, or that the write buffer has no room. -/
def qspiTransaction (cmd : Byte) (space : BitVec 4) (addr : BitVec 36) (words : Fin 256) (data : List W32) (late : Bool) (s : State) :
    State :=
  let n := words.val + 1
  let a := addr.toNat
  let rd := cmd == 0x0B#8
  if !s.host.qspi || s.domFenced Dom.host then s
  else match fin? 3 space.toNat with
    | none => s.answers qspiError []
    | some sp =>
      if !rd && cmd != 0x02#8 || decide (a % 4 ≠ 0) then s.answers qspiError []
      else if !s.start.banner && !(sp == 0 && inHostBlock a n) then notReady s
      else match s.host.held with
        | some h => if rd && h.is sp a n then (s.answers qspiReady h.data).setHost fun h => { h with held := none } else notReady s
        | none =>
          if rd then qspiRead sp a n late s
          else if late || spaceStalls true sp a n s then notReady s
          else (spaceWrite sp a (data.take n) s).answers qspiReady []

def execQspiTransaction (cmd : Byte) (space : BitVec 4) (addr : BitVec 36) (words : Fin 256) (data : List W32) (late : Bool)
    (s : State) : Host.Outcome State Fault Refusal := .next (qspiTransaction cmd space addr words data late s)

/-- Nobody has collected a held read within 1 ms. -/
def qspiHeldReadExpire (s : State) : State := if s.host.held.isSome then
      s.setHost fun h => { h with held := none, dropped := if h.dropped = 0xFFFF#16 then h.dropped else h.dropped + 1#16 }
    else s

def execQspiHeldReadExpire (s : State) : Host.Outcome State Fault Refusal := .next (qspiHeldReadExpire s)

/-! ## PCIe (R354, R355, R356, R359, R451) -/

/-- The PCIe endpoint is selected, and its link is up. -/
def pcieUp (s : State) : Bool := !s.host.qspi && !s.domFenced Dom.host && decide (0 < s.host.width.val)

/-- What a completion carries: 0 for success, 2 for Configuration Request Retry Status (notes/assumptions/38). -/
def pcieOk : Byte := 0#8
def pcieRetry : Byte := 2#8

/-- The byte address in its space of a BAR's offset: BAR4 begins at HOST_WINBASE × 256 MiB, and has the size that the host has set
(R355). -/
def barAddr (bar : Fin 3) (addr : Nat) (s : State) : Nat :=
  if bar = 0 then addr % 0x40000 else if bar = 1 then addr % 0x80000
  else s.host.winBase.toNat * 0x10000000 + addr % (0x10000000 * 2 ^ s.host.barSize.val)

def pcieRead (bar : Fin 3) (a n : Nat) (s : State) : State :=
  if !s.start.banner && !(bar == 0 && inHostBlock a n) then s.answers pcieOk (List.replicate n 0xFFFFFFFF#32)
  else
    let (ws, s) := spaceRead bar a n s
    s.answers pcieOk ws

def pcieWrite (bar : Fin 3) (a : Nat) (be : Byte) (ws : List W32) (s : State) : State :=
  if !s.start.banner && !(bar == 0 && inHostBlock a ws.length) then s
  else if bar = 0 then (if allEnabled be ws.length then hostSetRegs a ws s else s)
  else if bar = 1 then mailPut a (enabled be ws) s
  else windowPut a (enabled be ws) s

/-- A memory request to BAR0, BAR2 or BAR4 (bar 0, 1, 2), at a byte address in it, of 1 to 1,024 double words, a write of at most 64, with
the byte enables of the first and the last (R354). One that a locked block stalls waits (R250). -/
def pcieMemoryRequest (bar : Fin 3) (addr : BitVec 34) (be : Byte) (dws : Fin 1024) (wr : Option (List W32)) (s : State) : State :=
  if pcieUp s then
    let a := barAddr bar (addr.toNat / 4 * 4) s
    if spaceStalls wr.isSome bar a (dws.val + 1) s then s
    else match wr with
    | none => pcieRead bar a (dws.val + 1) s
    | some ws => pcieWrite bar a be (ws.take (dws.val + 1)) s
  else s

def execPcieMemoryRequest (bar : Fin 3) (addr : BitVec 34) (be : Byte) (dws : Fin 1024) (wr : Option (List W32)) (s : State) :
    Host.Outcome State Fault Refusal := .next (pcieMemoryRequest bar addr be dws wr s)

/-- What the host has written of the function's configuration; the request has no operands, so nothing fixes it: the size of BAR4, and
whether MSI-X and MSI are enabled (R354, R355; notes/assumptions/38). -/
def pcieConfigure (s : State) : State :=
  let (b, s) := freeBytes 1 s
  let v := (b.headD 0#8).toNat
  s.setHost fun h => { h with barSize := ⟨v % 7, Nat.mod_lt _ (by decide)⟩, msix := v.testBit 6, msi := v.testBit 7 }

/-- A configuration request: retry status until the endpoint is ready. -/
def pcieConfigRequest (s : State) : State :=
  if pcieUp s then
    if s.host.configReady then (pcieConfigure s).answers pcieOk [] else s.answers pcieRetry []
  else s

def execPcieConfigRequest (s : State) : Host.Outcome State Fault Refusal := .next (pcieConfigRequest s)

/-- PE_PERST_N, link down or D3hot: the PCIe logic stops, and nothing else is reset. BARs and MSI-X are as the host writes them again
(R356). -/
def pcieLinkDown (s : State) : State :=
  if s.host.qspi then s
  else s.setHost fun h => { h with speed := 0, width := 0, barSize := 6, msix := false, msi := false }

def execPcieLinkDown (s : State) : Host.Outcome State Fault Refusal := .next (pcieLinkDown s)

/-- The link trains, at one of four speeds on one or two lanes. -/
def pcieLinkUp (speed : Fin 5) (width : Fin 3) (s : State) : State :=
  if s.host.qspi || speed = 0 || width = 0 || s.clk.absent.getLsbD Clk.host.val then s
  else s.setHost fun h => { h with speed := speed, width := width }

def execPcieLinkUp (speed : Fin 5) (width : Fin 3) (s : State) : Host.Outcome State Fault Refusal := .next (pcieLinkUp speed width s)

/-- A ring is reset, as by a write of 1 to RESET. -/
def ringAsked (n : LaneId) (s : State) : State := ringReset n (s.setRing n fun r => { r with resetReq := true })

/-- Function Level Reset: the lease lapses, the rings are reset, and HOST_EVCTL is cleared. -/
def functionLevelReset (s : State) : State :=
  if s.host.qspi then s
  else
    let s := if s.host.leaseActive then lapse s else s
    ((List.finRange 4).foldl (fun s n => ringAsked n s) s).setHost fun h => { h with evctl := 0#2 }

def execFunctionLevelReset (s : State) : Host.Outcome State Fault Refusal := .next (functionLevelReset s)

end Sys2Proof.Machine
end

