-- ==== Sys2Proof/Machine/Clocks.lean ====
section
/-! DEFINITION. Clocks that are lost and return (R32, R304, R387; notes/assumptions/39). -/

namespace Sys2Proof.Machine
open Sys2Proof

def clkBit (c : Clk) : BitVec 14 := BitVec.ofNat 14 (2 ^ c.val)

def State.absent (s : State) (c : Clk) : Bool := s.clk.absent.getLsbD c.val
def State.setClk (s : State) (f : Clocks → Clocks) : State := { s with clk := f s.clk }

/-- Domains that run from a phase-locked loop. -/
def Pll.clocks : Pll → List Clk
  | .apll => [Clk.boot, Clk.call, Clk.earck, Clk.audo]
  | .epll => [Clk.eyeck]
  | .ddr => [Clk.ddra, Clk.ddrb]

/-- Some domain of the loop has no clock. -/
def Pll.down (p : Pll) (s : State) : Bool := p.clocks.any s.absent

/-! ## What a loss does at once -/

/-- DRAM is put into self-refresh: the heats that use it restart and wait. -/
def dramStops (s : State) : State :=
  restartWhere (fun l r => ((s.lane l).acceptOf r.seq).any fun a => !(s.bundle a.handle).onchip)
    { s with mem := { s.mem with noref := true } }

/-- The timebase runs from the ring oscillator. -/
def refStops (s : State) : State := dramStops (s.setClk fun k => { k with degraded := true })

/-- Capture ends at once; a partial block is closed as for STOP. -/
def Ear.halt (e : Ear) : Ear :=
  { e with
    run := false, startReq := false, stopReq := false, arriving := none
    chan := e.chan.map fun (c : MicChan) => { c with running := false, invalid := 0, reg := c.next.getD c.reg, next := none } }

def AudioOut.halt (a : AudioOut) : AudioOut :=
  { a with run := false, startReq := false, stopReq := false, arriving := none, inBlock := false, lastFrame := [] }

/-- Without EPLL and APLL the Call line runs from REF, unlocked. -/
def callFromRef (s : State) : State :=
  let k := { s.call with locked := false, measuring := true, baud := 0#22 }
  { s with call := k }.setClk fun c => { c with callClock := .ref, bootClock := .ref }

/-- CALL and BOOT move to EPLL, or to REF where it is absent as well. -/
def callMoves (s : State) : State :=
  if s.absent Clk.eyeck then (if s.clk.callClock = .ref then s else callFromRef s)
  else s.setClk fun c => { c with callClock := .epll, bootClock := .epll }

/-- APLL is lost: capture and audio out stop. -/
def apllStops (c : Clk) (s : State) : State :=
  let s := (callMoves s).setEar fun e => { e with audo := e.audo.halt }.halt
  if c = Clk.earck ∨ c = Clk.audo then s.raise (.evt "EAR FAULT" []) else s

/-- EPLL is lost: the frames in progress are abandoned. -/
def epllStops (s : State) : State :=
  let s := (abandonFrames s).setEye fun e => { e.irDown s.now with ready := false, arriving := [] }
  if s.clk.callClock = .epll then callFromRef s else s

/-- A pending urgent request completes with NOCLOCK: a call that waits for its reading fails, and a plug's impedance check ends without
a result, so that its debounce goes on. -/
def noclockUrgent (s : State) (u : Urgent) : State :=
  match u.by_ with
  | .read c => s.fail c "SENSE" .state
  | .plug n _ => { s with edge := { s.edge with imp := put s.edge.imp n none } }
  | _ => s

/-- The urgent requests that wait or run. -/
def Sense.urgents (x : Sense) : List Urgent :=
  (match x.run with
    | .urgSettling u => [u]
    | .urgConverting u => [u]
    | _ => []) ++ x.engineQ ++ x.userQ.toList

/-- The rail stays at the last confirmed value, as for a request that nobody acknowledges (R304, R400). -/
def railHolds (s : State) : State :=
  if s.rail.gov = .frozen then s.setRail fun r => { r with req := none, due := none }
  else
    ((s.setRail fun r => { r with gov := .frozen, fault := true, req := none, due := none }).raise (.evt "RAIL FAULT" [])).logFault
      (railRec s 0)

/-- SNS is lost: its requests complete, PD_SNS is reset once, and the governor freezes. -/
def snsStops (s : State) : State :=
  let s := s.sense.urgents.foldl noclockUrgent s
  let s := s.setSense fun x =>
    if s.clk.snsReset then { x with run := .idle, interrupted := none, aborts := 0, engineQ := [], userQ := none, go := false }
    else { hidden := x.hidden }
  railHolds (s.setClk fun k => { k with snsReset := true })

/-- PMB is lost: a transaction that is being sent fails. -/
def pmbStops (s : State) : State :=
  if s.rail.req.any fun q => q.stage == .sending then railFailed s else s

/-- Requests that wait in a domain's crossings complete with NOCLOCK (R32); words on their way out of the domain are lost with it. -/
def crossingsEnd (c : Clk) (s : State) : State :=
  s.setClk fun k => { k with noclock := put k.noclock c k.outbound[c], inbound := put k.inbound c [], outbound := put k.outbound c [] }

/-- What the loss of each clock does. -/
def clockFalls (c : Clk) (s : State) : State :=
  match c.val with
  | 0 => refStops s
  | 2 => dramStops s
  | 3 => dramStops s
  | 4 => pcieLinkDown s
  | 5 => apllStops c s
  | 6 => apllStops c s
  | 8 => pmbStops s
  | 9 => apllStops c s
  | 10 => epllStops s
  | 11 => apllStops c s
  | 12 => refStops s
  | 13 => snsStops s
  | _ => s

/-- The clock has a presence monitor that trips now. REF has its start-up limit instead until it is decided. -/
def clockWatched (c : Clk) (s : State) : Bool :=
  s.start.vddAo && !s.absent c && c != Clk.str && !(c == Clk.host && s.host.qspi) && !(c == Clk.ref && !s.start.refDecided)

def logClock (k : LogType) (c : Clk) (s : State) : State := s.logFault (s.faultRec k (.clock c) (some .clockAbsent))

/-- A presence monitor trips. -/
def clockLost (c : Clk) (s : State) : State :=
  if clockWatched c s then
    let s := s.setClk fun k => { k with lost := k.lost ||| clkBit c, absent := k.absent ||| clkBit c }
    clockFalls c (crossingsEnd c (logClock .clockLost c s))
  else s

def execClockLost (c : Clk) (s : State) : Host.Outcome State Fault Refusal := .next (clockLost c s)

/-! ## What a return does -/

/-- DRAM leaves self-refresh once REF and the DDR loop are there; a training that start-up left out can run. -/
def dramBack (s : State) : State :=
  if s.clk.degraded || Pll.down .ddr s then s
  else
    let s := { s with mem := { s.mem with noref := false } }
    if s.start.trainOwed then wake Dom.mem s else s

/-- REF and TMR run: domains switch back at one edge. -/
def refBack (s : State) : State :=
  if s.absent Clk.ref || s.absent Clk.tmr then s else dramBack (s.setClk fun k => { k with degraded := false })

/-- APLL runs: CALL and BOOT move back; capture waits for its owner. -/
def apllBack (s : State) : State :=
  if Pll.down .apll s then s else s.setClk fun k => { k with callClock := .apll, bootClock := .apll, apllTries := 0 }

/-- EPLL runs: the Eye repeats its bring-up calibration. -/
def epllBack (s : State) : State :=
  (s.setClk fun k => { k with epllTries := 0 }).setEye fun e => { e with ready := false }

/-- SNS runs: the governor leaves FROZEN. -/
def snsBack (s : State) : State :=
  s.setRail fun r => { r with gov := if r.gov = .frozen then (if bit r.ctrl 31 then .fixed else .auto) else r.gov }

def clockRises (c : Clk) (s : State) : State :=
  match c.val with
  | 0 => refBack s
  | 2 => dramBack s
  | 3 => dramBack s
  | 5 => apllBack s
  | 6 => apllBack s
  | 9 => apllBack s
  | 10 => epllBack s
  | 11 => apllBack s
  | 12 => refBack s
  | 13 => snsBack s
  | _ => s

/-- A lost clock has run steadily for its time. -/
def clockReturn (c : Clk) (s : State) : State :=
  if s.absent c then
    clockRises c (logClock .clockBack c (s.setClk fun k => { k with absent := k.absent &&& ~~~clkBit c }))
  else s

def execClockReturn (c : Clk) (s : State) : Host.Outcome State Fault Refusal := .next (clockReturn c s)

/-! ## Relocking (R387) -/

def Clocks.tries (k : Clocks) : Pll → Nat
  | .apll => k.apllTries | .epll => k.epllTries | .ddr => k.ddrTries

def Clocks.setTries (k : Clocks) (n : Nat) : Pll → Clocks
  | .apll => { k with apllTries := n }
  | .epll => { k with epllTries := n }
  | .ddr => { k with ddrTries := n }

/-- Three relocks have failed: PD_EAR or PD_EYE is fenced; DRAM stays in self-refresh. -/
def relockGivenUp (p : Pll) (s : State) : State :=
  match p with
  | .apll => { s with power := s.power.fence Dom.ear }.logFault (s.faultRec .fence (.clock Clk.earck) (some .clockAbsent))
  | .epll => eyeFault (s.logFault (s.faultRec .fence (.clock Clk.eyeck) (some .clockAbsent)))
  | .ddr => s

/-- An attempt to relock ends. -/
def pllRelock (p : Pll) (ok : Bool) (s : State) : State :=
  if p.down s && decide (s.clk.tries p < 3) then
    if ok then (p.clocks.foldl (fun s c => clockReturn c s) s).setClk fun k => k.setTries 0 p
    else
      let s := s.setClk fun k => k.setTries (k.tries p + 1) p
      if s.clk.tries p = 3 then relockGivenUp p s else s
  else s

def execPllRelock (p : Pll) (ok : Bool) (s : State) : Host.Outcome State Fault Refusal := .next (pllRelock p ok s)

end Sys2Proof.Machine
end

