-- ==== Sys2Proof/Machine/CallLine.lean ====
section
/-! DEFINITION. The Call line's characters: reception, editing, autobaud, BREAK and transmission (R323, R331 to R338). -/

namespace Sys2Proof.Machine
open Sys2Proof

/-- Bytes held in the 512-byte receive buffer: complete lines with their terminators, and the partial line. -/
def CallLine.held (c : CallLine) : Nat := c.lines.foldl (fun n l => n + l.text.length + 1) c.part.length

/-- The level of CALL_RTS_N (R334). -/
def CallLine.rtsN (c : CallLine) : Bool := c.flow && decide (512 < c.held + 64)

def CallLine.clearPart (c : CallLine) : CallLine :=
  { c with part := [], partLong := false, partBad := false, partDamaged := false }

/-- Editing characters act in TEXT mode (R324, R331, R348). -/
def State.editing (s : State) : Bool := !s.call.terse
/-- Characters are echoed in TEXT mode with echo on, once the banner is sent (R341). -/
def State.echoing (s : State) : Bool := s.start.banner && s.editing && s.call.echo

def State.echoChars (s : State) (l : List Byte) : State := if s.echoing then s.txChars l else s

def crLf : List Byte := [0x0D#8, 0x0A#8]

/-- A terminator ends the line (R323). -/
def CallLine.endLine (c : CallLine) : CallLine :=
  { c with lines := c.lines ++ [{ text := c.part, long := c.partLong, badChar := c.partBad, damaged := c.partDamaged : RxLine }] : CallLine }.clearPart

/-- A character enters the line; past 256 characters the line is discarded up to its terminator (R323, R324). -/
def CallLine.addChar (c : CallLine) (b : Byte) : CallLine :=
  let bad := c.partBad || !(b == 0x09#8 || decide (0x20 ≤ b.toNat ∧ b.toNat ≤ 0x7E))
  if c.part.length < 256 then { c with part := c.part ++ [b], partBad := bad } else { c with partLong := true }

/-- The editing characters of R331; none for any other. -/
def State.edit (s : State) (b : Byte) : Option State :=
  let setCall (f : CallLine → CallLine) : State := { s with call := f s.call }
  if b = 0x08#8 ∨ b = 0x7F#8 then
    some (if s.call.part.isEmpty then s
      else (setCall fun c => { c with part := c.part.dropLast }).echoChars [0x08#8, 0x20#8, 0x08#8])
  else if b = 0x15#8 then some ((setCall CallLine.clearPart).echoChars crLf)
  else if b = 0x12#8 then some (s.echoChars (crLf ++ s.call.part))
  else if b = 0x03#8 then some ((setCall CallLine.clearPart).echoChars (ascii "^C" ++ crLf ++ ascii "LZ> "))
  else none

/-- A data character of the line. -/
def State.takeChar (s : State) (b : Byte) : State :=
  let cr := s.call.afterCr
  let s := { s with call := { s.call with afterCr := b == 0x0D#8 } }
  if b = 0x0A#8 ∧ cr then s.echoChars [b]
  else if 512 ≤ s.call.held then { s with call := { s.call with lost := s.call.lost + 1, partDamaged := true } }
  else if b = 0x0D#8 ∨ b = 0x0A#8 then
    let s := { s with call := s.call.endLine }
    s.echoChars [b]
  else
    match if s.editing then s.edit b else none with
    | some s => s
    | none =>
      let s := { s with call := s.call.addChar b }
      s.echoChars [b]

/-- R333: the rate that a start bit gives, when it locks; from REF, up to 460,800 baud (R387). -/
def locks (k : CallClock) (b : Byte) (rate : Nat) : Bool :=
  b.getLsbD 0 && decide (9600 ≤ rate ∧ rate ≤ (if k = .ref then 460800 else 3000000))

/-- A character is received on CALL_RX; its start bit was measured at `rate` baud (R323, R333, R334, R411 step 2). -/
def callCharReceived (b : Byte) (rate : Nat) (s : State) : State :=
  if !s.start.latching then s
  else if s.call.measuring then
    if locks s.clk.callClock b rate then
      ({ s with call := { s.call with measuring := false, locked := true, baud := BitVec.ofNat 22 rate } }).takeChar b
    else s
  else s.takeChar b

def execCallCharReceived (b : Byte) (rate : Nat) (s : State) : Host.Outcome State Fault Refusal := .next (callCharReceived b rate s)

/-- TEXT mode, echo on, events on, check off, flow off (R335). -/
def CallLine.textMode (c : CallLine) : CallLine :=
  { c with terse := false, echo := true, events := true, check := false, flow := false }

/-- Everything received and not started is discarded. -/
def CallLine.discard (c : CallLine) : CallLine := { c.clearPart with lines := [], afterCr := false }

/-- A WAIT in progress on the Call line ends with a failure reply. -/
def State.endWait (s : State) (why : String) : State :=
  match s.call.wait with
  | some w => ({ s with call := { s.call with wait := none } }).reply w.caller
      [⟨.fail, "WAIT", w.caller.tag, [bareF "E.BUSY", bareF why]⟩]
  | none => s

/-- A BREAK ends on CALL_RX (R335). Before the banner its line and prompt wait for it (R412). -/
def lineBreak (s : State) : State :=
  if !s.start.latching then s
  else
    let s := { s with call := s.call.discard }
    let s := s.endWait "break"
    let s := { s with call := { s.call.textMode with measuring := true } }
    let s := s.raise (Line.evt "BREAK" [])
    if s.start.banner then s.prompt else s

def execLineBreak (s : State) : Host.Outcome State Fault Refusal := .next (lineBreak s)

/-- The characters that an item of CALL_TX is sent as (R337, R348): a line carries its check with check=ON. -/
def CallLine.wire (c : CallLine) : TxItem → List Byte
  | .line l => (if c.check then checkChars l.text else l.text) ++ crLf
  | .chars l => l

/-- The next line goes out on CALL_TX, whole (R334, R338). -/
def callTxLine (s : State) : State :=
  match s.call.tx with
  | i :: r =>
    if s.call.flow && s.call.ctsN then s
    else { s with call := { s.call with tx := r, txLast := some i, sent := s.call.wire i } }
  | [] => s

def execCallTxLine (s : State) : Host.Outcome State Fault Refusal := .next (callTxLine s)

/-- CALL_CTS_N changes level (R334). -/
def callCtsNChange (high : Bool) (s : State) : State :=
  { s with call := { s.call with ctsN := high } }

def execCallCtsNChange (high : Bool) (s : State) : Host.Outcome State Fault Refusal := .next (callCtsNChange high s)

end Sys2Proof.Machine
end

