-- ==== Sys2Proof/Machine/Parse.lean ====
section
/-! DEFINITION. A line of text read as a call (R325 to R332, R342 to R347, R350): the verb, its arguments and its keys. -/

namespace Sys2Proof.Machine
open Sys2Proof

/-- The verbs of call version 1.0 in the order of the alphabet, and whether each is accepted only in full (R330). -/
def verbs : List (String × Bool) :=
  [("DROP", true), ("EAR", false), ("ECHO", false), ("EDGE", false), ("EYE", false), ("FENCE", false), ("FIRM", true),
   ("GET", false), ("HEAT", false), ("HELLO", false), ("HELP", false), ("INFO", false), ("KEY", true), ("LANE", false),
   ("LEASE", false), ("LOAD", false), ("LOG", false), ("MODE", false), ("RAIL", false), ("REPAIR", true), ("RESET", true),
   ("SCRUB", true), ("SENSE", false), ("SET", false), ("SPARE", false), ("STAT", false), ("TAKE", false), ("TRIG", false),
   ("WAIT", false)]

/-- The verbs that a token is a prefix of. -/
def verbMatches (t : List Byte) : List String :=
  (verbs.filter fun v => (ascii v.1).take t.length == upper t).map Prod.fst

/-- The shortest accepted form of a verb (R330). -/
def verbShort (v : String × Bool) : String :=
  if v.2 then v.1
  else
    let l := v.1.toList
    match (List.range l.length).find? fun k => (verbMatches (ascii (String.ofList (l.take (k + 1))))).length == 1 with
    | some k => String.ofList (l.take (k + 1))
    | none => v.1

/-- What a token names as a verb. -/
inductive VerbAs where
  | verb (v : String) | ambiguous (l : List String) | unknown
deriving DecidableEq, Repr

def verbOf (terse : Bool) (t : List Byte) : VerbAs :=
  match verbs.find? fun v => ascii v.1 == upper t with
  | some v => .verb v.1
  | none =>
    if terse then .unknown
    else match verbMatches t with
      | [] => .unknown
      | [v] => if verbs.any (fun w => w.1 == v && w.2) then .unknown else .verb v
      | l => .ambiguous l

/-- The arguments of a call: positional tokens in order, and keys in upper case with their values. -/
structure Args where
  pos : List (List Byte)
  keys : List (List Byte × List Byte)
deriving DecidableEq, Repr

/-- Split tokens into arguments; a repeated key fails, and a positional argument after a key fails unless the verb's form
puts it there (R325, notes/assumptions/13). -/
def argsOf (mixed : Bool) (a : Args) : List (List Byte) → Except Err Args
  | [] => .ok a
  | t :: r =>
    match splitEq t with
    | some (k, v) =>
      if a.keys.any (fun p => p.1 == upper k) then .error .syntaxErr
      else argsOf mixed { a with keys := a.keys ++ [(upper k, v)] } r
    | none =>
      if !mixed && !a.keys.isEmpty then .error .syntaxErr else argsOf mixed { a with pos := a.pos ++ [t] } r

def Args.key (a : Args) (k : String) : Option (List Byte) := (a.keys.find? fun p => p.1 == ascii k).map Prod.snd

/-- Every key given is one of those the verb has. -/
def Args.only (a : Args) (l : List String) : Except Err Unit :=
  if a.keys.all fun p => l.any fun k => ascii k == p.1 then .ok () else .error .syntaxErr

/-- Exactly n positional arguments. -/
def Args.count (a : Args) (n : Nat) : Except Err Unit := if a.pos.length = n then .ok () else .error .syntaxErr

def Args.at_ (a : Args) (i : Nat) : Except Err (List Byte) :=
  match a.pos[i]? with
  | some t => .ok t
  | none => .error .syntaxErr

/-- An optional key read by a reader. -/
def Args.opt {α : Type} (a : Args) (k : String) (f : List Byte → Except Err α) : Except Err (Option α) :=
  match a.key k with
  | some v => (f v).map some
  | none => .ok none

/-- A key that must be given. -/
def Args.need {α : Type} (a : Args) (k : String) (f : List Byte → Except Err α) : Except Err α :=
  match a.key k with
  | some v => f v
  | none => .error .syntaxErr

def onOffOf (t : List Byte) : Except Err Bool :=
  if isWord t "ON" then .ok true else if isWord t "OFF" then .ok false else .error .range

/-- A one-bit setting: ON, OFF, or the number 1 or 0 (R326, notes/assumptions/13). -/
def flagOf (t : List Byte) : Except Err Bool :=
  match number t with
  | some n => if n = 1 then .ok true else if n = 0 then .ok false else .error .range
  | none => onOffOf t

/-- One of a list of words, by its place. -/
def wordOf (l : List String) (t : List Byte) : Except Err Nat :=
  match l.findIdx? fun w => isWord t w with
  | some i => .ok i
  | none => .error .range

/-- One of a list of numbers, by its place (R326). -/
def numberIn (l : List Nat) (t : List Byte) : Except Err Nat := do
  let n ← natOr t
  match l.findIdx? fun k => k == n with
  | some i => .ok i
  | none => .error .range

/-- A bias level in volts: 1.2, 1.4 or 1.6, by its place. -/
def levelOf (t : List Byte) : Except Err Nat :=
  match fraction t with
  | some (n, k) => match [12, 14, 16].findIdx? fun v => 10 * n == v * 10 ^ k with
    | some i => .ok i
    | none => .error .range
  | none => .error .syntaxErr

/-- A name with an index below n. -/
def indexOf (w : String) (n : Nat) (t : List Byte) : Except Err (Fin n) :=
  match (indexed w t).bind (fin? n) with
  | some i => .ok i
  | none => .error .range

def finOf (n : Nat) (t : List Byte) : Except Err (Fin n) := do
  match fin? n (← natOr t) with
  | some i => .ok i
  | none => .error .range

/-- A number from lo to hi. -/
def rangeOf (lo hi : Nat) (t : List Byte) : Except Err Nat := do
  let n ← natOr t
  if lo ≤ n ∧ n ≤ hi then .ok n else .error .range

def laneOf (t : List Byte) : Except Err LaneId := indexOf "L" 4 t
def tallyOf (t : List Byte) : Except Err Nat := (indexOf "T" 1024 t).map Fin.val

/-- A list of lanes as a mask. -/
def lanesOf (t : List Byte) : Except Err (BitVec 4) := do
  let l ← (splitAll (· == 0x2C#8) t).mapM laneOf
  .ok (l.foldl (fun m i => m ||| BitVec.ofNat 4 (2 ^ i.val)) 0#4)

def seqOf (t : List Byte) : Except Err W32 := do
  let n ← natOr t
  if n < 2 ^ 32 then .ok (w32 n) else .error .range

/-- An argument of HEAT or EDGE BIND: a region, an adapter or a value (R345). -/
def heatArgOf (t : List Byte) : Except Err HeatArg :=
  match splitOnce 0x2F#8 t with
  | some (a, n) => do
    let a ← natOr a
    let n ← natOr n
    if a % 64 = 0 then .ok (.region a n) else .error .range
  | none =>
    match indexed "AD" t with
    | some n => match fin? 8 n with
      | some i => .ok (.adapter i)
      | none => .error .range
    | none => do
      let n ← natOr t
      if n < 2 ^ 32 then .ok (.const (w32 n)) else .error .range

/-- The arguments a0 to a7, which leave no gap. -/
def heatArgsOf (a : Args) : Except Err (List HeatArg) := do
  let l ← (List.range 8).mapM fun i => a.opt ("A" ++ toString i) heatArgOf
  let given := l.takeWhile Option.isSome
  if (l.drop given.length).any Option.isSome then .error .range else .ok (given.filterMap id)

def heatKeys : List String := ["H", "E", "A0", "A1", "A2", "A3", "A4", "A5", "A6", "A7"]

/-- The units that calls name (R347). -/
def namedUnits : List UnitRef :=
  (List.finRange 18).map .shell ++ (List.finRange 68).map .bank ++ (List.finRange 9).map .slice ++ (List.finRange 3).map .cox ++
    (List.finRange 4).map .decoder ++ (List.finRange 3).map .aes

/-- A unit named in a call: by its name exactly. -/
def unitOf (t : List Byte) : Except Err UnitRef :=
  match namedUnits.find? fun u => isWord t u.text with
  | some u => .ok u
  | none => .error .range

/-- The trigger codes of R262 and R283: `none` or START is 0, TMRn is n + 1, TRIGIN is 9, SNAP is 10. -/
def trigName (zero : String) (snap : Bool) (t : List Byte) : Except Err (BitVec 4) :=
  if isWord t zero then .ok 0#4
  else if isWord t "TRIGIN" then .ok 9#4
  else if snap && isWord t "SNAP" then .ok 10#4
  else (indexOf "TMR" 8 t).map fun n => BitVec.ofNat 4 (n.val + 1)

/-- The inputs of SENSE READ by their codes (R297, R300). -/
def senseInputOf (t : List Byte) : Except Err (BitVec 5) :=
  let pick (w : String) (n base : Nat) : Option (BitVec 5) :=
    (indexed w t).bind fun k => if k < n then some (BitVec.ofNat 5 (base + k)) else none
  let named : Option (BitVec 5) := (["BANDGAP", "VDD_CORE", "VDD_SRAM", "VDDIO_18", "VDDA_18"].findIdx? fun w => isWord t w).map
    fun i => BitVec.ofNat 5 (14 + i)
  match named <|> pick "SENSE" 8 0 <|> pick "TOUCH" 4 8 <|> pick "PLUG" 2 12 <|> pick "TEMP" 9 19 with
  | some c => .ok c
  | none => .error .range

/-- An input by name or by its code. -/
def seqInputOf (t : List Byte) : Except Err (BitVec 5) :=
  match senseInputOf t with
  | .ok c => .ok c
  | .error e => match number t with
    | some n => if 0 ≤ n ∧ n < 32 then .ok (BitVec.ofNat 5 n.toNat) else .error .range
    | none => .error e

def osrOf (t : List Byte) : Except Err (BitVec 2) := (numberIn [1024, 2048, 4096, 8192] t).map (BitVec.ofNat 2)

/-- Event codes of EDGE BIND (R317, R346). -/
def eventOf (t : List Byte) : Except Err Byte :=
  let pair (w a b : String) (n base off : Nat) : Option Byte :=
    (splitOnce 0x2E#8 t).bind fun p => (indexed w p.1).bind fun k =>
      if k < n then
        if isWord p.2 a then some (BitVec.ofNat 8 (base + k)) else if isWord p.2 b then some (BitVec.ofNat 8 (base + off + k)) else none
      else none
  let named : Option Byte := (["PRESENCE.ON", "PRESENCE.OFF", "GESTURE", "LIPS.ON", "ATTEND"].findIdx? fun w => isWord t w).map
    fun i => BitVec.ofNat 8 (0x40 + i)
  match named <|> pair "BTN" "DOWN" "UP" 12 0 0x10 <|> pair "TOUCH" "ON" "OFF" 4 0x20 8 <|> pair "PLUG" "IN" "OUT" 2 0x30 8 with
  | some c => .ok c
  | none => .error .range

/-- A register by name or by offset; what follows a point is a field (R343). -/
def regOf (t : List Byte) : Except Err (RegRef × Option (List Byte)) :=
  match t with
  | b :: _ =>
    if isDigit b then (natOr t).map fun n => (.offset n, none)
    else match splitOnce 0x2E#8 t with
      | some (n, f) => .ok (.name (upper n), some (upper f))
      | none => .ok (.name (upper t), none)
  | [] => .error .syntaxErr

/-- Hex digit pairs (FIRM DATA). -/
def hexPairs : List Byte → Option (List Byte)
  | [] => some []
  | a :: b :: r => do
    let x ← digitVal a
    let y ← digitVal b
    let l ← hexPairs r
    some (BitVec.ofNat 8 (16 * x + y) :: l)
  | [_] => none

/-- A microphone gain in dB, with its sign. -/
def intOf (t : List Byte) : Except Err Int := numberOr t

/-! ## The verbs' forms -/

def parseLane (c : Caller) (sub : List Byte) (a : Args) : Except Err Instr := do
  a.count 1
  let l ← laneOf (← a.at_ 0)
  if isWord sub "OPEN" then
    a.only ["SEQ", "PRIO"]
    .ok (.laneOpen c l (← a.opt "SEQ" seqOf) (← a.opt "PRIO" fun t => (rangeOf 0 3 t).map (BitVec.ofNat 2)))
  else if isWord sub "CLOSE" then
    a.only ["DISCARD"]
    match ← a.opt "DISCARD" onOffOf with
    | some true => .ok (.laneCloseDiscard c l)
    | _ => .ok (.laneClose c l)
  else
    a.only []
    if isWord sub "CLAIM" then .ok (.laneClaim c l)
    else if isWord sub "STATE" then .ok (.laneState c l)
    else if isWord sub "KEY" then .ok (.laneKey c l)
    else .error .syntaxErr

def parseHeat (c : Caller) (a : Args) : Except Err Instr := do
  a.only heatKeys
  let l ← laneOf (← a.at_ 0)
  let h ← a.need "H" natOr
  let e ← a.need "E" natOr
  let args ← heatArgsOf a
  match a.pos, c.path with
  | [_, t], .call =>
    if isWord t "NEXT" then .ok (.heat c l none h e args) else .ok (.heat c l (some (← seqOf t)) h e args)
  | [_, t], .host =>
    if isWord t "NEXT" then .ok (.heat c l none h e args)
    else if (← seqOf t) = c.seq then .ok (.heat c l (some c.seq) h e args) else .error .syntaxErr
  | [_], .host => .ok (.heat c l (some c.seq) h e args)
  | _, _ => .error .syntaxErr

def parseEye (c : Caller) (sub : List Byte) (a : Args) : Except Err Instr := do
  if isWord sub "STATE" then
    a.count 0; a.only []
    .ok (.eyeState c)
  else if isWord sub "HOLD" then
    a.count 1; a.only []
    .ok (.eyeHold c (← onOffOf (← a.at_ 0)))
  else if isWord sub "SET" then
    a.count 0; a.only ["MODE", "TRIG", "DELAY", "EXPOSE", "IR", "LEAD", "TAIL"]
    let mode ← a.opt "MODE" fun t => (wordOf ["FULL", "BIN2", "BIN4"] t).map (BitVec.ofNat 2)
    let trig ← a.opt "TRIG" (trigName "NONE" true)
    .ok (.eyeSet c ⟨mode, trig, ← a.opt "DELAY" natOr, ← a.opt "EXPOSE" natOr, ← a.opt "IR" onOffOf, ← a.opt "LEAD" natOr,
      ← a.opt "TAIL" natOr⟩)
  else if isWord sub "SNAP" then
    a.count 0; a.only []
    .ok (.eyeSnap c)
  else if isWord sub "LOOK" then
    a.count 0; a.only ["ATTEND", "ON", "OFF"]
    .ok (.eyeLook c (← a.opt "ATTEND" flagOf) (← a.opt "ON" natOr) (← a.opt "OFF" natOr))
  else if isWord sub "COPY" then
    a.count 1
    let t ← a.at_ 0
    if isWord t "OFF" then
      a.only []
      .ok (.eyeCopyOff c)
    else
      a.only ["BANK", "N"]
      .ok (.eyeCopy c (← laneOf t) (← a.need "BANK" natOr) (← a.need "N" natOr))
  else .error .syntaxErr

def parseEar (c : Caller) (sub : List Byte) (a : Args) : Except Err Instr := do
  if isWord sub "STATE" then
    a.count 0; a.only []
    .ok (.earState c)
  else if isWord sub "START" then
    a.count 0; a.only ["OSR", "CH", "TRIG"]
    let osr ← a.opt "OSR" fun t => (numberIn [64, 128, 256] t).map (BitVec.ofNat 2)
    let ch ← a.opt "CH" fun t => (rangeOf 0 255 t).map (BitVec.ofNat 8)
    .ok (.earStart c osr ch (← a.opt "TRIG" (trigName "START" false)))
  else if isWord sub "STOP" then
    a.count 0; a.only []
    .ok (.earStop c)
  else if isWord sub "CH" then
    a.count 1; a.only ["GAIN", "ORDER", "NOTCH"]
    let order ← a.opt "ORDER" fun t => (numberIn [3, 4, 5] t).map (BitVec.ofNat 2)
    let notch ← a.opt "NOTCH" fun t => if isWord t "OFF" then .ok none else (natOr t).map some
    .ok (.earCh c (← finOf 8 (← a.at_ 0)) (← a.opt "GAIN" intOf) order notch)
  else if isWord sub "BIAS" then
    a.count 2; a.only ["LEVEL"]
    .ok (.earBias c (← finOf 2 (← a.at_ 0)) (← onOffOf (← a.at_ 1))
      (← a.opt "LEVEL" fun t => (levelOf t).map (BitVec.ofNat 2)))
  else if isWord sub "RING" then
    a.count 1
    let t ← a.at_ 0
    if isWord t "OFF" then
      a.only []
      .ok (.earRingOff c)
    else
      a.only ["BANK", "NBLK", "BLOCK", "TALLY"]
      .ok (.earRing c (← laneOf t) (← a.need "BANK" natOr) (← a.need "NBLK" natOr) (← a.need "BLOCK" natOr) (← a.opt "TALLY" tallyOf))
  else if isWord sub "OUT" then
    a.count 1
    let t ← a.at_ 0
    if isWord t "START" then
      a.only []
      .ok (.earOutStart c)
    else if isWord t "STOP" then
      a.only []
      .ok (.earOutStop c)
    else
      a.only ["BANK", "NBLK", "BLOCK", "FORMAT", "SLOTS", "FILL", "DONE"]
      let tdm ← a.opt "FORMAT" fun t => (wordOf ["I2S", "TDM"] t).map (· == 1)
      .ok (.earOut c (← laneOf t) (← a.need "BANK" natOr) (← a.need "NBLK" natOr) (← a.need "BLOCK" natOr) tdm
        (← a.opt "SLOTS" natOr) (← a.opt "FILL" tallyOf) (← a.opt "DONE" tallyOf))
  else .error .syntaxErr

def parseSense (c : Caller) (sub : List Byte) (a : Args) : Except Err Instr := do
  if isWord sub "STATE" then
    a.count 0; a.only []
    .ok (.senseState c)
  else if isWord sub "READ" then
    a.count 1; a.only ["SETTLE", "OSR"]
    .ok (.senseRead c (← senseInputOf (← a.at_ 0)) ((← a.opt "SETTLE" natOr).getD 0) ((← a.opt "OSR" osrOf).getD 0#2))
  else if isWord sub "SEQ" then
    match a.pos with
    | [k, w] =>
      a.only []
      if isWord w "OFF" then .ok (.senseSeqOff c (← natOr k)) else .error .syntaxErr
    | [k] =>
      a.only ["INPUT", "SETTLE", "OSR"]
      .ok (.senseSeq c (← natOr k) (← a.need "INPUT" seqInputOf) ((← a.opt "SETTLE" natOr).getD 0) ((← a.opt "OSR" osrOf).getD 0#2))
    | _ => .error .syntaxErr
  else if isWord sub "PERIOD" then
    a.count 1; a.only []
    .ok (.sensePeriod c (← natOr (← a.at_ 0)))
  else .error .syntaxErr

def parseEdge (c : Caller) (sub : List Byte) (a : Args) : Except Err Instr := do
  if isWord sub "STATE" then
    a.count 0; a.only []
    .ok (.edgeState c)
  else if isWord sub "BTN" then
    a.count 1; a.only ["DB", "EN", "PU"]
    .ok (.edgeBtn c (← finOf 12 (← a.at_ 0)) (← a.opt "DB" natOr) (← a.opt "EN" flagOf) (← a.opt "PU" flagOf))
  else if isWord sub "PLUG" then
    a.count 1; a.only ["DB", "EN", "IMP"]
    .ok (.edgePlug c (← finOf 2 (← a.at_ 0)) (← a.opt "DB" natOr) (← a.opt "EN" flagOf) (← a.opt "IMP" flagOf))
  else if isWord sub "TOUCH" then
    a.count 1; a.only ["ON", "OFF", "EN"]
    .ok (.edgeTouch c (← finOf 4 (← a.at_ 0)) (← a.opt "ON" natOr) (← a.opt "OFF" natOr) (← a.opt "EN" flagOf))
  else if isWord sub "PWM" then
    a.only ["PERIOD", "DUTY", "PRE", "POL", "BURST"]
    let act ← match a.pos with
      | [_] => .ok none
      | [_, w] => (wordOf ["ON", "OFF", "GO"] w).map fun i => some (if i = 0 then PwmAct.on else if i = 1 then .off else .go)
      | _ => .error .syntaxErr
    let pol ← a.opt "POL" fun t => (rangeOf 0 1 t).map (· == 1)
    .ok (.edgePwm c (← finOf 4 (← a.at_ 0)) (← a.opt "PERIOD" natOr) (← a.opt "DUTY" natOr) (← a.opt "PRE" natOr) pol
      (← a.opt "BURST" natOr) act)
  else if isWord sub "BIND" then
    a.count 2; a.only ("EV" :: heatKeys)
    .ok (.edgeBind c (← finOf 8 (← a.at_ 0)) (← a.need "EV" eventOf) (← laneOf (← a.at_ 1)) (← a.need "H" natOr)
      (← a.need "E" natOr) (← heatArgsOf a))
  else if isWord sub "UNBIND" then
    a.count 1; a.only []
    .ok (.edgeUnbind c (← finOf 8 (← a.at_ 0)))
  else .error .syntaxErr

def parseTrig (c : Caller) (sub : List Byte) (a : Args) : Except Err Instr := do
  if isWord sub "STATE" then
    a.count 0; a.only []
    .ok (.trigState c)
  else if isWord sub "TMR" then
    a.only ["PERIOD", "COMPARE"]
    let on ← match a.pos with
      | [_] => .ok none
      | [_, w] => (onOffOf w).map some
      | _ => .error .syntaxErr
    .ok (.trigTmr c (← finOf 8 (← a.at_ 0)) (← a.opt "PERIOD" natOr) (← a.opt "COMPARE" natOr) on)
  else if isWord sub "OUT" then
    a.count 1; a.only []
    let t ← a.at_ 0
    if isWord t "OFF" then .ok (.trigOut c none) else .ok (.trigOut c (some (← indexOf "TMR" 8 t)))
  else if isWord sub "PULSE" then
    a.count 0; a.only ["WIDTH"]
    .ok (.trigPulse c (← a.opt "WIDTH" natOr))
  else .error .syntaxErr

def parseKey (c : Caller) (sub : List Byte) (a : Args) : Except Err Instr := do
  if isWord sub "STATE" then
    a.count 0; a.only []
    .ok (.keyState c)
  else if isWord sub "ROTATE" then
    a.count 1; a.only []
    if isWord (← a.at_ 0) "PLAN" then .ok (.keyRotatePlan c) else .error .syntaxErr
  else if isWord sub "VK" then
    a.count 2
    let k ← finOf 4 (← a.at_ 0)
    let w ← a.at_ 1
    if isWord w "LOAD" then
      a.only ["ADDR"]
      .ok (.keyVkLoad c k (← a.need "ADDR" natOr))
    else if isWord w "REVOKE" then
      a.only []
      .ok (.keyVkRevoke c k)
    else .error .syntaxErr
  else .error .syntaxErr

def parseFirm (c : Caller) (checked : Bool) (sub : List Byte) (a : Args) : Except Err Instr := do
  if isWord sub "STATE" then
    a.count 0; a.only []
    .ok (.firmState c)
  else if isWord sub "BEGIN" then
    a.count 0; a.only ["SIZE"]
    .ok (.firmBegin c (← a.need "SIZE" natOr))
  else if isWord sub "DATA" then
    a.count 2; a.only []
    if checked then
      match hexPairs (← a.at_ 1) with
      | some l => if l.length ≤ 96 then .ok (.firmData c (← natOr (← a.at_ 0)) l) else .error .range
      | none => .error .syntaxErr
    else .error .syntaxErr
  else if isWord sub "END" then
    a.count 0; a.only []
    .ok (.firmEnd c)
  else .error .syntaxErr

/-- The verbs that have subwords (R325). -/
def hasSub (v : String) : Bool := ["LANE", "EYE", "EAR", "SENSE", "EDGE", "TRIG", "KEY", "FIRM"].contains v

/-- The verbs without subwords. -/
def parsePlain (c : Caller) (v : String) (a : Args) : Except Err Instr := do
  match v with
  | "HELLO" =>
    a.count 0; a.only []
    .ok (.hello c)
  | "INFO" =>
    a.count 0; a.only []
    .ok (.info c)
  | "HELP" =>
    a.only []
    match a.pos with
    | [] => .ok (.verbList c)
    | [t] => .ok (.help c (some t))
    | _ => .error .syntaxErr
  | "ECHO" =>
    a.count 1; a.only []
    .ok (.echo c (← onOffOf (← a.at_ 0)))
  | "MODE" =>
    a.count 1; a.only ["CHECK", "EVENTS", "FLOW"]
    .ok (.mode c ((← wordOf ["TEXT", "TERSE"] (← a.at_ 0)) == 1) (← a.opt "CHECK" onOffOf) (← a.opt "EVENTS" onOffOf)
      (← a.opt "FLOW" onOffOf))
  | "RESET" =>
    a.count 1; a.only []
    if (← wordOf ["CALL", "WARM"] (← a.at_ 0)) = 0 then .ok (.resetCall c) else .ok (.resetWarm c)
  | "LEASE" =>
    a.count 0; a.only ["PERIOD"]
    .ok (.lease c (← a.opt "PERIOD" natOr))
  | "GET" =>
    a.count 1; a.only ["N"]
    let (r, f) ← regOf (← a.at_ 0)
    .ok (.get c r f (← a.opt "N" natOr))
  | "LOAD" =>
    a.count 0; a.only ["ADDR", "LEN", "LANES", "BUDGETS"]
    .ok (.load c (← a.need "ADDR" natOr) (← a.need "LEN" natOr) (← a.need "LANES" lanesOf)
      ((← a.opt "BUDGETS" onOffOf).getD true))
  | "DROP" =>
    a.count 1; a.only []
    .ok (.drop c (← natOr (← a.at_ 0)))
  | "HEAT" => parseHeat c a
  | "TAKE" =>
    a.only []
    match a.pos with
    | [l] => .ok (.take c (← laneOf l) none)
    | [l, t] => .ok (.take c (← laneOf l) (some (← seqOf t)))
    | _ => .error .syntaxErr
  | "WAIT" =>
    a.only ["MS"]
    let ms := (← a.opt "MS" (rangeOf 1 60000)).getD 1000
    match a.pos with
    | [l] => .ok (.wait c (← laneOf l) none ms)
    | [l, t] => .ok (.wait c (← laneOf l) (some (← seqOf t)) ms)
    | _ => .error .syntaxErr
  | "SCRUB" =>
    a.count 1; a.only []
    .ok (.scrub c (← laneOf (← a.at_ 0)))
  | "RAIL" =>
    a.only []
    match a.pos with
    | [] => .ok (.rail c)
    | [w] => if isWord w "AUTO" then .ok (.railAuto c) else .error .syntaxErr
    | [w, t] =>
      if isWord w "CEILING" then .ok (.railCeiling c (← natOr t))
      else if isWord w "FIX" then .ok (.railFix c (← natOr t)) else .error .syntaxErr
    | _ => .error .syntaxErr
  | "FENCE" =>
    a.count 1; a.only []
    .ok (.fence c (← unitOf (← a.at_ 0)))
  | "SPARE" =>
    a.count 0; a.only []
    .ok (.spare c)
  | "REPAIR" =>
    a.count 2; a.only []
    let u ← unitOf (← a.at_ 0)
    let w ← a.at_ 1
    if isWord w "TEST" then .ok (.repairTest c u)
    else if isWord w "REJOIN" then .ok (.repairRejoin c u)
    else if isWord w "RECORD" then .ok (.repairRecord c u) else .error .syntaxErr
  | "LOG" =>
    a.count 1
    let t ← a.at_ 0
    if isWord t "FAULT" then
      a.only ["N"]
      .ok (.logFault c ((← a.opt "N" (rangeOf 1 512)).getD 512))
    else if isWord t "BUNDLE" then
      a.only []
      .ok (.logBundle c)
    else
      a.only ["N"]
      .ok (.logLane c (← laneOf t) ((← a.opt "N" (rangeOf 1 128)).getD 128))
  | "STAT" =>
    a.count 1; a.only []
    let t ← a.at_ 0
    if isWord t "DEVICE" then .ok (.statDevice c) else .ok (.statLane c (← laneOf t))
  | _ => .error .syntaxErr

/-- SET: `name value`, `offset value` or `name.FIELD=value`. -/
def parseSet (c : Caller) (ts : List (List Byte)) : Except Err Instr := do
  match ts with
  | [t] =>
    match splitEq t with
    | some (n, v) =>
      match ← regOf n with
      | (r, some f) => .ok (.setField c r f (← natOr v))
      | (_, none) => .error .syntaxErr
    | none => .error .syntaxErr
  | [t, v] =>
    match ← regOf t with
    | (r, none) =>
      let n ← natOr v
      if n < 2 ^ 32 then .ok (.set c r n) else .error .range
    | (_, some _) => .error .syntaxErr
  | _ => .error .syntaxErr

/-- The forms that R346 writes with a positional argument after their keys: EDGE PWM, EDGE BIND and TRIG TMR, each after a first one
that stands before them (R325, notes/assumptions/13). -/
def lateForm (v : String) (sub : List Byte) (r : List (List Byte)) : Bool :=
  ((v == "EDGE" && (isWord sub "PWM" || isWord sub "BIND")) || (v == "TRIG" && isWord sub "TMR")) && (r.head?.bind splitEq).isNone

/-- The arguments of a verb read as a call. -/
def parseArgs (c : Caller) (checked : Bool) (v : String) (ts : List (List Byte)) : Except Err Instr := do
  if v = "SET" then parseSet c ts
  else if v = "FIRM" ∧ (ts.head?.bind splitEq).isSome then
    let a ← argsOf false ⟨[], []⟩ ts
    a.count 0; a.only ["ADDR", "LEN"]
    .ok (.firmAddr c (← a.need "ADDR" natOr) (← a.need "LEN" natOr))
  else if hasSub v then
    match ts with
    | sub :: r =>
      let a ← argsOf (lateForm v sub r) ⟨[], []⟩ r
      match v with
      | "LANE" => parseLane c sub a
      | "EYE" => parseEye c sub a
      | "EAR" => parseEar c sub a
      | "SENSE" => parseSense c sub a
      | "EDGE" => parseEdge c sub a
      | "TRIG" => parseTrig c sub a
      | "KEY" => parseKey c sub a
      | _ => parseFirm c checked sub a
    | [] => .error .syntaxErr
  else parsePlain c v (← argsOf false ⟨[], []⟩ ts)

/-- What a line is: a call, a failure with its verb, tag and detail, or nothing. -/
inductive Parsed where
  | call (i : Instr)
  | bad (verb : String) (tag : Option (List Byte)) (e : Err) (detail : List String)
deriving DecidableEq, Repr

/-- A character of a tag (R328). -/
def tagChar (b : Byte) : Bool :=
  isDigit b || decide (0x41 ≤ (upChar b).toNat ∧ (upChar b).toNat ≤ 0x5A) || b == 0x5F#8 || b == 0x2D#8 || b == 0x2E#8

def tagOk (t : List Byte) : Bool := decide (1 ≤ t.length ∧ t.length ≤ 16) && t.all tagChar

/-- Tokens after any tag. -/
def parseVerb (c : Caller) (terse checked : Bool) (ts : List (List Byte)) : Parsed :=
  match ts with
  | [] => .bad "?" c.tag .syntaxErr []
  | t :: r =>
    match verbOf terse t with
    | .unknown => .bad "?" c.tag .syntaxErr ["verb"]
    | .ambiguous l => .bad "?" c.tag .syntaxErr ("ambiguous" :: l)
    | .verb v =>
      match parseArgs c (checked || c.path == .host) v r with
      | .ok i => .call i
      | .error e => .bad v c.tag e []

/-- The tokens of a line without its check. -/
def parseTokens (c : Caller) (terse checked : Bool) (ts : List (List Byte)) : Parsed :=
  if 24 < ts.length then .bad "?" none .syntaxErr []
  else match ts with
    | (0x3F#8 :: q) :: r =>
      if checked then .bad "?" none .syntaxErr []
      else match (if q.isEmpty then r else q :: r) with
        | [] => .call (.verbList c)
        | [v] => .call (.help c (some v))
        | _ => .bad "?" none .syntaxErr []
    | (0x40#8 :: tag) :: r =>
      if tagOk tag then parseVerb { c with tag := some tag } terse checked r else .bad "?" none .syntaxErr []
    | _ => parseVerb c terse checked ts

/-- A line that holds a `~` but ends in no matching check (R329), or its text before the check. -/
def uncheck (l : List Byte) : Except (List String) (List Byte × Bool) :=
  match l.idxOf? 0x7E#8 with
  | none => .ok (l, false)
  | some i =>
    let d := l.drop (i + 1)
    if d.length = 4 ∧ d.all (fun b => (digitVal b).isSome) then
      if digits 16 false 0 d = some (crc16 (l.take i)).toNat then .ok (l.take i, true) else .error ["check"]
    else .error []

/-- A whole line: its check, then its tokens. `must` says that a line check is required (R348). -/
def parseLine (c : Caller) (terse must : Bool) (l : List Byte) : Parsed :=
  match uncheck l with
  | .error d => .bad "?" none .syntaxErr d
  | .ok (t, checked) =>
    let ts := tokens t
    let query := match ts with
      | (0x3F#8 :: _) :: _ => true
      | _ => false
    if must && !checked && !query then .bad "?" none .syntaxErr ["check"] else parseTokens c terse checked ts

end Sys2Proof.Machine
end

