-- ==== Sys2Proof/Machine/Verbs.lean ====
section
/-! DEFINITION. The verbs of identity, session, registers, logs and statistics (R332, R342, R343, R347, R348, R161, R424), and the
banner line (R341). -/

namespace Sys2Proof.Machine
open Sys2Proof

/-! ## Identity and help (R332, R342) -/

def CallPath.text : CallPath → String
  | .call => "CALL" | .host => "HOST"

/-- A call's rules of form: the host link's are those of TERSE mode (R350). -/
def State.terseFor (s : State) (p : CallPath) : Bool :=
  match p with
  | .call => s.call.terse
  | .host => true

def callMode (terse : Bool) : String := if terse then "TERSE" else "TEXT"

def doHello (c : Caller) (s : State) : State :=
  s.gate c "HELLO" true <|
    s.ok c "HELLO" [bareF "LZ-480", symF "call" "1.0", symF "path" c.path.text, symF "mode" (callMode (s.terseFor c.path))]

def execHello (c : Caller) (s : State) : Host.Outcome State Fault Refusal := .next (doHello c s)

/-- What INFO shows as the service (R351, R352). -/
def serviceText (s : State) : String :=
  if s.keys.recovery then "RECOVERY" else if s.confidential then "CONFIDENTIAL" else "NORMAL"

def timebaseText (s : State) : String := if s.clk.degraded then "DEGRADED" else "REF"

/-- The version of the running firmware; `-` where recovery firmware runs. -/
def fwText (s : State) : Val := if s.firm.running then .sym (versionText s.firm.version) else .dash

def variantText (n : Nat) : String :=
  match variantCode n with
  | 0 => "16" | 1 => "14" | 2 => "12" | _ => "NONE"

/-- The reply of INFO; the form of its values is the model's (notes/assumptions/13). -/
def doInfo (c : Caller) (s : State) : State :=
  s.gate c "INFO" true <|
    let spare := (s.shellsIn .spare).length
    s.ok c "INFO" [bareF "LZ-480", decF "rev" (revision s), ("fw", fwText s), symF "service" (serviceText s),
      symF "timebase" (timebaseText s),
      symF "dram" (if s.mem.trained then toString (512 * s.mem.fitted.toNat) ++ "MIB" else "NONE"),
      symF "shells" (toString (s.serviceCount - spare) ++ "+" ++ toString spare), symF "variant" (variantText s.serviceCount),
      symF "lock" (if s.locked then "FIELD" else "OPEN"), decF "baud" s.call.baud.toNat]

def execInfo (c : Caller) (s : State) : Host.Outcome State Fault Refusal := .next (doInfo c s)

/-- The forms of the verbs (R342 to R347), for HELP. -/
def verbForms : List (String × List String) :=
  [("DROP", ["DROP h (0-15)"]),
   ("EAR", ["EAR STATE", "EAR START osr=64|128|256 ch=0-255 trig=START|TMR0-TMR7|TRIGIN", "EAR STOP",
      "EAR CH 0-7 gain=0-42 in steps of 3 order=3|4|5 notch=0-32767|OFF", "EAR BIAS 0-1 ON|OFF level=1.2|1.4|1.6",
      "EAR RING L1-L3 bank=0-63 nblk=1-8 block=16-65535 tally=T0000-T1023", "EAR RING OFF",
      "EAR OUT L1-L3 bank=0-63 nblk=1-8 block=1-65535 format=I2S|TDM slots=1-8 fill=T0000-T1023 done=T0000-T1023",
      "EAR OUT START|STOP"]),
   ("ECHO", ["ECHO ON|OFF"]),
   ("EDGE", ["EDGE STATE", "EDGE BTN 0-11 db=1-64 en=0|1 pu=0|1", "EDGE PLUG 0-1 db=1-64 en=0|1 imp=0|1",
      "EDGE TOUCH 0-3 on=0-4095 off=0-4095 en=0|1",
      "EDGE PWM 0-3 period=0-65535 duty=0-65535 pre=0-15 pol=0|1 burst=0-65535 ON|OFF|GO",
      "EDGE BIND 0-7 ev=BTN0-BTN11.DOWN|UP, TOUCH0-TOUCH3.ON|OFF, PLUG0-PLUG1.IN|OUT, PRESENCE.ON|OFF, GESTURE, LIPS.ON, ATTEND L0-L3" ++
        " h=0-15 e=0-65535 a0= to a7=region|value|AD0-AD7", "EDGE UNBIND 0-7"]),
   ("EYE", ["EYE STATE", "EYE HOLD ON|OFF",
      "EYE SET mode=FULL|BIN2|BIN4 trig=NONE|TMR0-TMR7|TRIGIN|SNAP delay=0-27306 expose=10-100000 ir=ON|OFF lead=0-1023 tail=0-1023",
      "EYE SNAP", "EYE LOOK attend=0|1 on=1-255 off=1-255", "EYE COPY L1-L3 bank=0-63 n=1-4", "EYE COPY OFF"]),
   ("FENCE", ["FENCE S00-S17|B0.0-B3.15|B0.S-B3.S|SL0-SL8|COXA|COXB|COXS|DEC0-DEC3|AES0-AES2"]),
   ("FIRM", ["FIRM STATE", "FIRM BEGIN size=0-262144", "FIRM DATA offset hex, up to 96 bytes, with a line check", "FIRM END",
      "FIRM addr=0-0x1FFFFFFFFF len=1-262144"]),
   ("GET", ["GET name|offset|name.FIELD n=1-64; offset=0x0-0x3FFFC"]),
   ("HEAT", ["HEAT L0-L3 s|NEXT h=0-15 e=0-65535 a0= to a7=region|value|AD0-AD7; s=0-4294967295"]),
   ("HELLO", ["HELLO"]),
   ("HELP", ["HELP verb"]),
   ("INFO", ["INFO"]),
   ("KEY", ["KEY STATE", "KEY ROTATE PLAN", "KEY VK 0-3 LOAD addr=0-0x1FFFFFFFFF", "KEY VK 0-3 REVOKE"]),
   ("LANE", ["LANE OPEN L1-L3 seq=0-4294967295 prio=0-3", "LANE CLOSE L1-L3 discard=ON|OFF", "LANE CLAIM L1-L3", "LANE STATE L0-L3",
      "LANE KEY L0-L3"]),
   ("LEASE", ["LEASE period=100-60000"]),
   ("LOAD", ["LOAD addr=0-0x1FFFFFFFFF len= lanes=L0-L3, joined by commas budgets=ON|OFF"]),
   ("LOG", ["LOG L0-L3 n=1-128", "LOG FAULT n=1-512", "LOG BUNDLE"]),
   ("MODE", ["MODE TEXT|TERSE check=ON|OFF events=ON|OFF flow=ON|OFF"]),
   ("RAIL", ["RAIL", "RAIL CEILING 500-7500", "RAIL FIX 500-880 in steps of 5", "RAIL AUTO"]),
   ("REPAIR", ["REPAIR unit TEST|REJOIN|RECORD; unit as in FENCE"]),
   ("RESET", ["RESET CALL|WARM"]),
   ("SCRUB", ["SCRUB L1-L3"]),
   ("SENSE", ["SENSE STATE",
      "SENSE READ SENSE0-SENSE7|TOUCH0-TOUCH3|PLUG0-PLUG1|BANDGAP|VDD_CORE|VDD_SRAM|VDDIO_18|VDDA_18|TEMP0-TEMP8 settle=0-255" ++
        " osr=1024|2048|4096|8192", "SENSE SEQ 0-29 input=name|0-27 settle=0-255 osr=1024|2048|4096|8192", "SENSE SEQ 0-29 OFF",
      "SENSE PERIOD 0-65535"]),
   ("SET", ["SET name|offset value", "SET name.FIELD=value; offset=0x0-0x3FFFC value=0-0xFFFFFFFF"]),
   ("SPARE", ["SPARE"]),
   ("STAT", ["STAT L0-L3", "STAT DEVICE"]),
   ("TAKE", ["TAKE L0-L3 s; s=0-4294967295"]),
   ("TRIG", ["TRIG STATE", "TRIG TMR 0-7 period=0-111848106 compare=0-111848106 ON|OFF", "TRIG OUT TMR0-TMR7|OFF", "TRIG PULSE width=0-1706"]),
   ("WAIT", ["WAIT L0-L3 s ms=1-60000; s=0-4294967295"])]

/-- The data lines of a help reply; one line in TERSE mode (R348). -/
def helpLines (terse : Bool) (ls : List String) : List (List (String × Val)) :=
  if terse then [[bareF ("; ".intercalate ls)]] else ls.map fun l => [bareF l]

/-- HELP with a verb, or without: a verb that none names fails (R330, R332). -/
def doHelp (c : Caller) (verb : Option (List Byte)) (s : State) : State :=
  s.gate c "HELP" true <|
    match verb with
    | none => s.okWith c (helpLines (s.terseFor c.path) (verbs.map fun v => v.1 ++ " " ++ verbShort v)) "HELP" []
    | some t =>
      match verbOf (s.terseFor c.path) t with
      | .verb v => s.okWith c (helpLines (s.terseFor c.path) (((verbForms.find? fun f => f.1 == v).map Prod.snd).getD [])) "HELP" []
      | .ambiguous l => s.failWith c "HELP" .syntaxErr (bareF "ambiguous" :: l.map bareF)
      | .unknown => s.failWith c "HELP" .syntaxErr [bareF "verb"]

def execHelp (c : Caller) (verb : Option (List Byte)) (s : State) : Host.Outcome State Fault Refusal := .next (doHelp c verb s)

def doVerbList (c : Caller) (s : State) : State := doHelp c none s

def execVerbList (c : Caller) (s : State) : Host.Outcome State Fault Refusal := .next (doVerbList c s)

/-! ## Session (R342, R348, R350) -/

def doEcho (c : Caller) (on : Bool) (s : State) : State :=
  s.gate c "ECHO" true <|
    if c.path = .host then s.fail c "ECHO" .state
    else ({ s with call := { s.call with echo := on } }).ok c "ECHO" [bareF (onOff on)]

def execEcho (c : Caller) (on : Bool) (s : State) : Host.Outcome State Fault Refusal := .next (doEcho c on s)

/-- MODE: an option that is not given keeps its value. -/
def doMode (c : Caller) (terse : Bool) (check events flow : Option Bool) (s : State) : State :=
  s.gate c "MODE" true <|
    if c.path = .host then s.fail c "MODE" .state
    else
      let k := s.call
      let k := { k with terse := terse, check := check.getD k.check, events := events.getD k.events, flow := flow.getD k.flow }
      ({ s with call := k }).ok c "MODE" [bareF (callMode terse), symF "check" (onOff k.check), symF "events" (onOff k.events),
        symF "flow" (onOff k.flow)]

def execMode (c : Caller) (terse : Bool) (check events flow : Option Bool) (s : State) : Host.Outcome State Fault Refusal :=
  .next (doMode c terse check events flow s)

/-- What the banner says of the log book (R341). -/
def logText (s : State) : String :=
  if s.start.logFieldLost then "LOST" else if s.start.recovered then "RECOVERED" else "OK"

/-- The banner line of R341. -/
def bannerLine (reset : String) (s : State) : Line :=
  .evt "BANNER" [bareF "LZ-480", symF "call" "1.0", ("fw", fwText s), symF "reset" reset, symF "log" (logText s),
    symF "timebase" (timebaseText s), symF "service" (if s.keys.recovery then "RECOVERY" else "NORMAL")]

/-- The banner, and LOG BOOK LOST directly after it, which the host event ring has too (R364). -/
def sayBanner (reset : String) (s : State) : State :=
  let s := s.tx (bannerLine reset s)
  if s.start.logFieldLost then (s.tx (.evt "LOG BOOK LOST" [])).ringEvent (.evt "LOG BOOK LOST" []) else s

/-- RESET CALL: the reply, the line set as a BREAK sets it, and a banner. -/
def doResetCall (c : Caller) (s : State) : State :=
  s.gate c "RESET" true <|
    let s := s.ok c "RESET" [bareF "CALL"]
    let k := { s.call.discard.textMode with measuring := true }
    sayBanner "CALL" { s with call := k }

def execResetCall (c : Caller) (s : State) : Host.Outcome State Fault Refusal := .next (doResetCall c s)

/-- RESET WARM: the reply; the reset waits until CALL_TX is idle. -/
def doResetWarm (c : Caller) (s : State) : State :=
  s.gate c "RESET" false <|
    let s := s.ok c "RESET" [bareF "WARM"]
    { s with start := { s.start with warmPending := some .resetWarm } }

def execResetWarm (c : Caller) (s : State) : Host.Outcome State Fault Refusal := .next (doResetWarm c s)

/-- LEASE: from the Call line it only reports; from the host link it sets the period and renews (R367). -/
def doLease (c : Caller) (period : Option Nat) (s : State) : State :=
  s.gate c "LEASE" false <|
    let say (s : State) : State := s.ok c "LEASE" [decF "period" s.host.period.toNat, decF "left" (leaseMs s)]
    match c.path, period with
    | .call, none => say s
    | .call, some _ => s.fail c "LEASE" .lane
    | .host, none => say (leaseRenew s)
    | .host, some ms =>
      if 100 ≤ ms ∧ ms ≤ 60000 then say (leaseRenew { s with host := { s.host with period := BitVec.ofNat 16 ms } })
      else s.fail c "LEASE" .range

def execLease (c : Caller) (period : Option Nat) (s : State) : Host.Outcome State Fault Refusal := .next (doLease c period s)

/-! ## GET and SET (R343) -/

/-- The offset that a register reference gives; none where it is none of the window. -/
def RegRef.offset? : RegRef → Option Nat
  | .name n => regOffset n
  | .offset o => if o % 4 = 0 ∧ o < 0x40000 then some o else none

/-- Name of a register in a reply. -/
def regShown (off : Nat) : String × Val := match regName off with | some n => bareF n | none => ("", .dash)

def regLine (off : Nat) (v : Val) : List (String × Val) := [("", hexOff off), regShown off, ("", v)]

/-- n registers read one after another, from an offset up. -/
def readRegs (p : Path) (off : Nat) : Nat → State → List (List (String × Val)) × State
  | 0, s => ([], s)
  | n + 1, s =>
    let (v, s) := readReg p off s
    let (l, s) := readRegs p (off + 4) n s
    (regLine off (hexReg v) :: l, s)

/-- The field of a register that a call names. -/
def getField (c : Caller) (off : Nat) (f : List Byte) (s : State) : State :=
  match fieldAt off f with
  | none => s.fail c "GET" .range
  | some r =>
    let (v, s) := readReg c.path.path off s
    s.ok c "GET" [("", hexOff off), bareF (((regName off).getD "-") ++ "." ++ r.name), ("", hexReg (w32 (fld v r.lo r.width)))]

/-- A fenced domain holds one of n registers. -/
def anyFenced (off n : Nat) (s : State) : Bool := (List.range n).any fun k => regFenced (off + 4 * k) s

def doGet (c : Caller) (reg : RegRef) (field : Option (List Byte)) (n : Option Nat) (s : State) : State :=
  s.gate c "GET" false <|
    match reg.offset? with
    | none => s.fail c "GET" .range
    | some off =>
      let k := n.getD 1
      if k = 0 ∨ 64 < k ∨ 0x40000 < off + 4 * k then s.fail c "GET" .range
      else if anyFenced off k s then s.fail c "GET" .fenced
      else match field, n with
        | some _, some _ => s.fail c "GET" .syntaxErr
        | some f, none => getField c off f s
        | none, none =>
          let (v, s) := readReg c.path.path off s
          s.ok c "GET" (regLine off (hexReg v))
        | none, some _ =>
          let (ls, s) := readRegs c.path.path off k s
          s.okWith c ls "GET" [("", .dec k)]

def execGet (c : Caller) (reg : RegRef) (field : Option (List Byte)) (n : Option Nat) (s : State) :
    Host.Outcome State Fault Refusal := .next (doGet c reg field n s)

/-- Write a register, and reply with the value read after the write; a register with an RC field is not read back. -/
def setAnswer (c : Caller) (off : Nat) (v : W32) (s : State) : State :=
  let s := writeReg c.path.path off v s
  if holdsRc off then s.ok c "SET" (regLine off .dash)
  else
    let (v, s) := readReg c.path.path off s
    s.ok c "SET" (regLine off (hexReg v))

def doSet (c : Caller) (reg : RegRef) (v : Nat) (s : State) : State :=
  s.gate c "SET" false <|
    match reg.offset? with
    | none => s.fail c "SET" .range
    | some off =>
      if 2 ^ 32 ≤ v then s.fail c "SET" .range
      else if regFenced off s then s.fail c "SET" .fenced
      else setAnswer c off (w32 v) s

def execSet (c : Caller) (reg : RegRef) (v : Nat) (s : State) : Host.Outcome State Fault Refusal := .next (doSet c reg v s)

/-- The word with every W1C and WS field 0. -/
def clearOnes (fs : List FieldRow) (w : W32) : W32 :=
  fs.foldl (fun w f => if f.acc = .w1c ∨ f.acc = .ws then putFld w f.lo f.width 0 else w) w

def doSetField (c : Caller) (reg : RegRef) (field : List Byte) (v : Nat) (s : State) : State :=
  s.gate c "SET" false <|
    match reg.offset? with
    | none => s.fail c "SET" .range
    | some off =>
      match fieldAt off field with
      | none => s.fail c "SET" .range
      | some f =>
        if 2 ^ f.width ≤ v then s.fail c "SET" .range
        else if holdsRc off then s.fail c "SET" .state
        else if regFenced off s then s.fail c "SET" .fenced
        else
          let (w, s) := readReg c.path.path off s
          setAnswer c off (putFld (clearOnes (regFields off) w) f.lo f.width v) s

def execSetField (c : Caller) (reg : RegRef) (field : List Byte) (v : Nat) (s : State) : Host.Outcome State Fault Refusal :=
  .next (doSetField c reg field v s)

/-! ## LOG (R347) -/

def LogType.code : LogType → Nat
  | .fault => 1 | .fence => 2 | .substitute => 3 | .testResult => 4 | .rejoin => 5 | .takeover => 6 | .clockLost => 7
  | .clockBack => 8 | .pageRetired => 9 | .rowReplaced => 10 | .leaseLapse => 11 | .discard => 12 | .recordWritten => 13

/-- Cause codes; 0 where there is none. -/
def causeCode : Option Cause → Nat
  | none => 0
  | some c => match c with
    | .uncorrectable => 0x01 | .correctedThreshold => 0x02 | .rigFrameCrc => 0x03 | .reservedKind => 0x04 | .flitCheck => 0x05
    | .watchdog => 0x06 | .messageCheck => 0x07 | .journalCheck => 0x08 | .clockAbsent => 0x09 | .decodeError => 0x0A
    | .knownAnswer => 0x0B | .calibration => 0x0C | .dramUncorrectable => 0x0D | .dramCorrected => 0x0E | .operatorFence => 0x0F
    | .selfTestFailed => 0x10 | .leaseLapse => 0x11 | .explicitDiscard => 0x12 | .railFault => 0x13 | .restartFailed => 0x14

/-- A line of the fault log, with the fields of R396. -/
def faultLine (r : FaultRec) : List (String × Val) :=
  [bareF "FAULT", decF "n" r.number, decF "type" r.kind.code, ("unit", .hex 4 r.unit.toNat), decF "gen" r.gen, decF "t" r.tick.toNat,
   ("cause", .hex 2 (causeCode r.cause)), ("lane", match r.lane with | some l => .sym (laneName l) | none => .dash),
   ("result", .hex 4 r.result.toNat), decF "first" r.seqFirst.toNat, decF "last" r.seqLast.toNat, decF "count" r.count,
   ("detail", .hex 16 r.detail.toNat)]

/-- The newest n entries of a list that grows at its end, newest first. -/
def newest {α : Type} (n : Nat) (l : List α) : List α := (l.drop (l.length - n)).reverse

def logReply (c : Caller) (ls : List (List (String × Val))) (s : State) : State := s.okWith c ls "LOG" [("", .dec ls.length)]

def doLogFault (c : Caller) (n : Nat) (s : State) : State :=
  s.gate c "LOG" true <|
    if n = 0 ∨ 512 < n then s.fail c "LOG" .range
    else logReply c ((newest n (s.faults.log.filter (·.valid))).map faultLine) s

def execLogFault (c : Caller) (n : Nat) (s : State) : Host.Outcome State Fault Refusal := .next (doLogFault c n s)

def Source.text : Source → String
  | .call => "CALL" | .host => "HOST" | .engine => "ENGINE"

/-- A line of a lane's journal: its block, and the completion where it has retired. -/
def journalLine (L : Lane) (l : LaneId) (q : W32) (b : HeatBlock) : List (String × Val) :=
  [laneF l, ("", .dec q.toNat)] ++
  (match b.accept with
    | some a => tagField a.tag ++ [symF "state" (((L.heatState q).map HeatSt.text).getD "-"), symF "source" a.source.text,
        decF "h" a.handle.val, decF "e" a.entry]
    | none => []) ++
  (match L.completion q with
    | some (a, t, r) => completionFields a t r
    | none => [])

/-- The blocks of a lane's journal, newest first. -/
def journalLines (L : Lane) (l : LaneId) (n : Nat) : List (List (String × Val)) :=
  ((List.range 128).filterMap fun k =>
    let q := L.next - 1#32 - w32 k
    (L.block q).map (journalLine L l q)).take n

def doLogLane (c : Caller) (l : LaneId) (n : Nat) (s : State) : State :=
  s.gate c "LOG" false <|
    if n = 0 ∨ 128 < n then s.fail c "LOG" .range
    else if !s.ownsLane c.path.path l then s.fail c "LOG" .lane
    else logReply c (journalLines (s.lane l) l n) s

def execLogLane (c : Caller) (lane : LaneId) (n : Nat) (s : State) : Host.Outcome State Fault Refusal := .next (doLogLane c lane n s)

def BundleSt.text : BundleSt → String
  | .free => "FREE" | .loaded => "LOADED" | .waiting => "WAITING" | .damaged => "DAMAGED"

def lanesText (m : BitVec 4) : List String := (List.finRange 4).filterMap fun l => if m.getLsbD l.val then some (laneName l) else none

def sourceText (k : Fin 3) : String := match k.val with | 0 => "CALL" | 1 => "HOST" | _ => "ENGINE"

def bundleLine (h : Fin 16) (b : Bundle) : List (String × Val) :=
  [bareF "BUNDLE", decF "h" h.val, symF "state" b.st.text, ("lanes", .syms (lanesText b.lanes)), ("id", .hex 16 b.id.toNat),
   symF "key" ("K" ++ toString b.keySlot.val), symF "source" (sourceText b.source)]

/-- The records in use, from the highest handle. -/
def doLogBundle (c : Caller) (s : State) : State :=
  s.gate c "LOG" false <|
    logReply c (((List.finRange 16).reverse.filter fun h => (s.bundle h).st != .free).map fun h => bundleLine h (s.bundle h)) s

def execLogBundle (c : Caller) (s : State) : Host.Outcome State Fault Refusal := .next (doLogBundle c s)

/-! ## STAT (R161, R347, R351, R424) -/

def hsFlagNames (w : W32) : List String :=
  (if bit w 0 then ["WIDENED"] else []) ++ (if bit w 1 then ["RERUN"] else []) ++ (if bit w 2 then ["NAN"] else []) ++
  (if bit w 3 then ["ACCOVF"] else [])

def doStatLane (c : Caller) (l : LaneId) (s : State) : State :=
  s.gate c "STAT" false <|
    if !s.ownsLane c.path.path l then s.fail c "STAT" .lane
    else
      let h := (s.lane l).hs
      s.ok c "STAT" [laneF l, decF "seq" h.seq.toNat, ("flags", .syms (hsFlagNames h.flags)), decF "i16" (fld h.flags 8 8),
        decF "h16" (fld h.flags 16 8), decF "cw" (sat32 h.counts.cw).toNat, decF "sw" (sat32 h.counts.sw).toNat,
        decF "fw" (sat32 h.counts.fw).toNat, decF "nw" h.counts.nw, decF "readcrab" (sat32 (h.counts.cr + h.counts.ca)).toNat]

def execStatLane (c : Caller) (lane : LaneId) (s : State) : Host.Outcome State Fault Refusal := .next (doStatLane c lane s)

/-- The device counters of STAT DEVICE by name, in the order of their offsets. -/
def statNames : List String := ["strokes", "retired", "dramrd", "dramwr", "bh", "codes", "aes", "win"]

def doStatDevice (c : Caller) (s : State) : State :=
  s.gate c "STAT" false <|
    let shown (v : Nat) : Val := if s.statHidden then .dash else .dec (coarse v).toNat
    s.ok c "STAT" ([bareF "DEVICE", decF "window" s.stat.window.toNat] ++
      (statNames.zip s.stat.devShown.list).map fun p => (p.1, shown p.2))

def execStatDevice (c : Caller) (s : State) : Host.Outcome State Fault Refusal := .next (doStatDevice c s)

end Sys2Proof.Machine
end

