-- ==== Sys2Proof/Machine/CallRun.lean ====
section
/-! DEFINITION. Calls as they arrive: a line of the Call line (R323 to R336, R348), and an envelope of a submission ring (R350, R361
to R363). -/

namespace Sys2Proof.Machine
open Sys2Proof

/-- A call that a line or an envelope spells runs. -/
def runVerb : Instr → State → State
  | .hello c => doHello c
  | .info c => doInfo c
  | .help c verb => doHelp c verb
  | .verbList c => doVerbList c
  | .echo c on => doEcho c on
  | .mode c terse check events flow => doMode c terse check events flow
  | .resetCall c => doResetCall c
  | .resetWarm c => doResetWarm c
  | .lease c period => doLease c period
  | .get c reg field n => doGet c reg field n
  | .set c reg v => doSet c reg v
  | .setField c reg field v => doSetField c reg field v
  | .load c addr len lanes budgets => doLoad c addr len lanes budgets
  | .drop c h => doDrop c h
  | .laneOpen c lane seq prio => doLaneOpen c lane seq prio
  | .laneClose c lane => doLaneClose c lane
  | .laneCloseDiscard c lane => doLaneCloseDiscard c lane
  | .laneClaim c lane => doLaneClaim c lane
  | .laneState c lane => doLaneState c lane
  | .laneKey c lane => doLaneKey c lane
  | .heat c lane seq h e args => doHeat c lane seq h e args
  | .take c lane seq => doTake c lane seq
  | .wait c lane seq _ => doWait c lane seq
  | .scrub c lane => doScrub c lane
  | .eyeState c => doEyeState c
  | .eyeHold c on => doEyeHold c on
  | .eyeSet c a => doEyeSet c a
  | .eyeSnap c => doEyeSnap c
  | .eyeLook c attend on off => doEyeLook c attend on off
  | .eyeCopy c lane bank n => doEyeCopy c lane bank n
  | .eyeCopyOff c => doEyeCopyOff c
  | .earState c => doEarState c
  | .earStart c osr ch trig => doEarStart c osr ch trig
  | .earStop c => doEarStop c
  | .earCh c n gain order notch => doEarCh c n gain order notch
  | .earBias c n on level => doEarBias c n on level
  | .earRing c lane bank nblk block tally => doEarRing c lane bank nblk block tally
  | .earRingOff c => doEarRingOff c
  | .earOut c lane bank nblk block tdm slots fill done => doEarOut c lane bank nblk block tdm slots fill done
  | .earOutStart c => doEarOutStart c
  | .earOutStop c => doEarOutStop c
  | .senseState c => doSenseState c
  | .senseRead c input settle osr => doSenseRead c input settle osr
  | .senseSeq c k input settle osr => doSenseSeq c k input settle osr
  | .senseSeqOff c k => doSenseSeqOff c k
  | .sensePeriod c us => doSensePeriod c us
  | .edgeState c => doEdgeState c
  | .edgeBtn c n db en pu => doEdgeBtn c n db en pu
  | .edgePlug c n db en imp => doEdgePlug c n db en imp
  | .edgeTouch c n on off en => doEdgeTouch c n on off en
  | .edgePwm c k period duty pre pol burst act => doEdgePwm c k period duty pre pol burst act
  | .edgeBind c k code lane h e args => doEdgeBind c k code lane h e args
  | .edgeUnbind c k => doEdgeUnbind c k
  | .trigState c => doTrigState c
  | .trigTmr c n period compare on => doTrigTmr c n period compare on
  | .trigOut c src => doTrigOut c src
  | .trigPulse c width => doTrigPulse c width
  | .rail c => doRail c
  | .railCeiling c mw => doRailCeiling c mw
  | .railFix c mv => doRailFix c mv
  | .railAuto c => doRailAuto c
  | .fence c u => doFence c u
  | .spare c => doSpare c
  | .repairTest c u => doRepairTest c u
  | .repairRejoin c u => doRepairRejoin c u
  | .repairRecord c u => doRepairRecord c u
  | .logLane c lane n => doLogLane c lane n
  | .logFault c n => doLogFault c n
  | .logBundle c => doLogBundle c
  | .statLane c lane => doStatLane c lane
  | .statDevice c => doStatDevice c
  | .keyState c => doKeyState c
  | .keyRotatePlan c => doKeyRotatePlan c
  | .keyVkLoad c slot addr => doKeyVkLoad c slot addr
  | .keyVkRevoke c slot => doKeyVkRevoke c slot
  | .firmState c => doFirmState c
  | .firmBegin c size => doFirmBegin c size
  | .firmData c offset data => doFirmData c offset data
  | .firmAddr c addr len => doFirmAddr c addr len
  | .firmEnd c => doFirmEnd c
  | _ => id

/-- A set of one lane. -/
def laneBit (l : LaneId) : BitVec 4 := BitVec.ofNat 4 (2 ^ l.val)

/-- The caller and the lanes that a call names (R202, R350). -/
def laneNamed : Instr → Option (Caller × BitVec 4)
  | .load c _ _ lanes _ => some (c, lanes)
  | .laneOpen c lane _ _ => some (c, laneBit lane)
  | .laneClose c lane => some (c, laneBit lane)
  | .laneCloseDiscard c lane => some (c, laneBit lane)
  | .laneClaim c lane => some (c, laneBit lane)
  | .laneState c lane => some (c, laneBit lane)
  | .laneKey c lane => some (c, laneBit lane)
  | .heat c lane _ _ _ _ => some (c, laneBit lane)
  | .take c lane _ => some (c, laneBit lane)
  | .wait c lane _ _ => some (c, laneBit lane)
  | .scrub c lane => some (c, laneBit lane)
  | .eyeCopy c lane _ _ => some (c, laneBit lane)
  | .earRing c lane _ _ _ _ => some (c, laneBit lane)
  | .earOut c lane _ _ _ _ _ _ _ => some (c, laneBit lane)
  | .edgeBind c _ _ lane _ _ _ => some (c, laneBit lane)
  | .logLane c lane _ => some (c, laneBit lane)
  | .statLane c lane => some (c, laneBit lane)
  | _ => none

/-- What a text that is no call answers. -/
def refuseLine (c : Caller) (verb : String) (e : Err) (detail : List String) (s : State) : State := s.failWith c verb e (detail.map bareF)

/-! ## The Call line -/

/-- The line's text is read as a call, and the call runs. -/
def runText (t : List Byte) (s : State) : State :=
  match parseLine Caller.line s.call.terse s.call.check t with
  | .call i => runVerb i s
  | .bad verb tag e d => refuseLine { Caller.line with tag := tag } verb e d s

/-- A received line: damaged, too long or with an invalid character, it fails; an empty line is no call (R323, R324, R334). -/
def runRx (x : RxLine) (s : State) : State :=
  if x.damaged then
    let s := if s.call.lost = 0 then s else (s.raise (.evt "CALL LOST" [("", .dec s.call.lost)]))
    refuseLine Caller.line "?" .syntaxErr [] { s with call := { s.call with lost := 0 } }
  else if x.long then refuseLine Caller.line "?" .syntaxErr ["long"] s
  else if x.badChar then refuseLine Caller.line "?" .syntaxErr ["char"] s
  else if x.text.all isSpace then s
  else runText x.text s

/-- The next complete line is taken, once the banner is sent and no call runs. Lines wait while the processor that runs the Call
interpreter has crashed (R384). -/
def callLineRun (s : State) : State :=
  if s.start.banner && s.call.running.isNone && s.coxWorks s.faults.callCox then
    match s.call.lines with
    | x :: rest => runRx x { s with call := { s.call with lines := rest } }
    | [] => s
  else s

def execCallLineRun (s : State) : Host.Outcome State Fault Refusal := .next (callLineRun s)

/-! ## Envelopes -/

/-- The text of an envelope is read under the rules of TERSE mode, without a required line check. -/
def runEnvelope (c : Caller) (t : List Byte) (s : State) : State :=
  if t.any fun b => !(b == 0x09#8 || decide (0x20 ≤ b.toNat ∧ b.toNat ≤ 0x7E)) then refuseLine c "?" .syntaxErr ["char"] s
  else match parseLine c true false t with
    | .call i =>
      match laneNamed i with
      | some (k, m) => if m &&& ~~~laneBit c.ring = 0#4 then runVerb i s else s.fail k (verbName t) .lane
      | none => runVerb i s
    | .bad verb tag e d => refuseLine { c with tag := tag } verb e d s
where
  /-- The verb of a text that has been read as a call. -/
  verbName (t : List Byte) : String :=
    ((tokens t).findSome? fun w => match verbOf true w with
      | .verb v => some v
      | _ => none).getD "?"

/-- The next envelope is checked, and its call runs (R362). It waits in its ring while the lane's processor has crashed (R385). -/
def callEnvelope (ring : LaneId) (s : State) : State :=
  let r := s.host.ring[ring]
  if s.start.banner && r.busy.isNone && !r.resetReq && r.sqTail != r.taken && s.coxWorks s.faults.laneCox[ring] then
    let e := mailRead s (sqSlot ring r.taken) 320
    let c : Caller := ⟨.host, none, ring, w32 (leNat ((e.drop 12).take 4)), some r.taken⟩
    let s := s.setRing ring fun r => { r with busy := some r.taken, taken := r.taken + 1#16 }
    match openEnvelope ring e with
    | .error (err, d) => refuseLine c "?" err d s
    | .ok t => runEnvelope c t s
  else s

def execCallEnvelope (ring : LaneId) (s : State) : Host.Outcome State Fault Refusal := .next (callEnvelope ring s)

end Sys2Proof.Machine
end

