-- ==== Sys2Proof/Machine/Banner.lean ====
section
/-! DEFINITION. The end of start-up: the log book's superblock, the banner and what follows it (R225, R229 to R231, R341, R411
steps 13 to 15, R412, R418, R420, R437). -/

namespace Sys2Proof.Machine
open Sys2Proof

/-! ## The superblock (R229, R231) -/

/-- Without a valid superblock copy the log book is lost and is initialised; with one, the other copy is written, one generation
further. -/
def superblock (s : State) : State :=
  let write (x : Start) : Start :=
    match x.superA, x.superB with
    | none, none => { x with logLost := true, logFieldLost := true, superA := some 1 }
    | some a, none => { x with logFieldLost := false, superB := some (a + 1) }
    | none, some b => { x with logFieldLost := false, superA := some (b + 1) }
    | some a, some b =>
      if a < b then { x with logFieldLost := false, superA := some (b + 1) }
      else { x with logFieldLost := false, superB := some (a + 1) }
  let x := write s.start
  { s with start := { x with recovered := x.startKind == 2#2 && !x.logFieldLost } }

/-! ## What follows the banner -/

/-- The lines that follow at once: LOOKOUT OFF, FIRM NEEDED, and SCRUB DONE of each lane that a warm reset met in SCRUB. -/
def bannerEvents (s : State) : State :=
  let s := match s.start.lookoutOff with
    | some r => s.raise (.evt "LOOKOUT OFF" [symF "reason" r])
    | none => s
  let s := firmNeeded s
  (List.finRange 4).foldl (fun (s : State) l =>
    if (s.lane l).scrubDone then
      (s.setLane l fun L => { L with scrubDone := false }).raise (.evt "SCRUB" [laneF l, bareF "DONE"])
    else s) s

/-- Buffered lines run in order, up to one whose reply comes later. -/
def bufferedLines (s : State) : State := (List.range s.call.lines.length).foldl (fun s _ => callLineRun s) s

/-- The lanes have been rebuilt, which ends before the banner (R230). -/
def lanesRebuilt (s : State) : State :=
  (List.finRange 4).foldl (fun (s : State) l => s.setLane l fun L => { L with recovering := false }) s

/-- The held completions are delivered again. -/
def lanesBack (s : State) : State := (List.finRange 4).foldl (fun s l => redeliver l s) s

/-- The lease of a host link that still owns lanes restarts with its reset period. -/
def leaseBack (s : State) : State :=
  if s.lanes.any fun l => l.owner == .host then leaseStart s else s

/-- Events raised before the banner, in the order in which they were raised; the prompt follows a BREAK (R335). -/
def earlyEvents (s : State) : State :=
  s.start.early.foldl (fun s l => if l.head = "BREAK" then (s.raise l).prompt else s.raise l) { s with start := { s.start with early := [] } }

/-- Lookout's first write brings PD_EYE up, and its bundle sets EYE_TALLY; while HOLD is 1 Lookout changes no setting (R277). -/
def lookoutRuns (s : State) : State :=
  if (s.bundle 0).live && s.start.lookoutOff.isNone && !s.keys.recovery then
    let s := lookBind (touch Dom.eye s)
    if s.eye.hold then s else lookConfigure false s
  else s

/-- Start-up ends, unless the firmware image was found incomplete: then recovery begins (R420). -/
def startUp (s : State) : State :=
  { s with
    start := { s.start with phase := .up, banner := true }
    keys := { s.keys with startup := false, recovery := s.start.firmReason.isSome } }

/-- The banner, once start-up is ready for it. -/
def banner (s : State) : State :=
  if s.start.phase = .ready ∧ s.start.vddAo then
    let warm := s.start.startKind == 2#2
    let s := sayBanner (if warm then "WARM" else "COLD") (startUp (superblock (lanesRebuilt s)))
    let s := lanesBack (bufferedLines (leaseBack (bannerEvents s)))
    lookoutRuns (earlyEvents (latchedDoorbells s))
  else s

def execBanner (s : State) : Host.Outcome State Fault Refusal := .next (banner s)

end Sys2Proof.Machine
end

