-- ==== Sys2Proof/Machine/Dispatch.lean ====
section
/-! DEFINITION. The effect of each command: one arm per constructor, in the order of the table of operations and events. -/

namespace Sys2Proof.Machine
open Sys2Proof

def exec (i : Instr) (s : State) : Host.Outcome State Fault Refusal :=
  match i with
  | .powerOnReset hostsel => Sys2Proof.Machine.execPowerOnReset hostsel s
  | .coldReset hostsel => Sys2Proof.Machine.execColdReset hostsel s
  | .warmReset => Sys2Proof.Machine.execWarmReset s
  | .noCoxWarmReset => Sys2Proof.Machine.execNoCoxWarmReset s
  | .refSteady => Sys2Proof.Machine.execRefSteady s
  | .refStartupTimeout => Sys2Proof.Machine.execRefStartupTimeout s
  | .corePowerGood mv => Sys2Proof.Machine.execCorePowerGood mv s
  | .prestartRailFaultTick mv => Sys2Proof.Machine.execPrestartRailFaultTick mv s
  | .firmwareCopied => Sys2Proof.Machine.execFirmwareCopied s
  | .firmwareVerified kat => Sys2Proof.Machine.execFirmwareVerified kat s
  | .dramTrainingDone ok fitted rate ranks => Sys2Proof.Machine.execDramTrainingDone ok fitted rate ranks s
  | .banner => Sys2Proof.Machine.execBanner s
  | .bootBundleLoad entry => Sys2Proof.Machine.execBootBundleLoad entry s
  | .firmNeededTick => Sys2Proof.Machine.execFirmNeededTick s
  | .domainFirstAccess d => Sys2Proof.Machine.execDomainFirstAccess d s
  | .domainReady d => Sys2Proof.Machine.execDomainReady d s
  | .domainBringupTimeout d => Sys2Proof.Machine.execDomainBringupTimeout d s
  | .fabricStopFloor mv => Sys2Proof.Machine.execFabricStopFloor mv s
  | .fabricResume mv => Sys2Proof.Machine.execFabricResume mv s
  | .clockLost c => Sys2Proof.Machine.execClockLost c s
  | .clockReturn c => Sys2Proof.Machine.execClockReturn c s
  | .pllRelock p ok => Sys2Proof.Machine.execPllRelock p ok s
  | .stroke sh f => Sys2Proof.Machine.execStroke sh f s
  | .endWord sh => Sys2Proof.Machine.execEndWord sh s
  | .runWord sh w => Sys2Proof.Machine.execRunWord sh w s
  | .rigWord sh => Sys2Proof.Machine.execRigWord sh s
  | .ldrigWord sh => Sys2Proof.Machine.execLdrigWord sh s
  | .ldrigComplete sh slot ok => Sys2Proof.Machine.execLdrigComplete sh slot ok s
  | .moveWord sh => Sys2Proof.Machine.execMoveWord sh s
  | .moveLanded sh out units => Sys2Proof.Machine.execMoveLanded sh out units s
  | .setaWord sh => Sys2Proof.Machine.execSetaWord sh s
  | .setwWord sh => Sys2Proof.Machine.execSetwWord sh s
  | .loopWord sh => Sys2Proof.Machine.execLoopWord sh s
  | .markWord sh => Sys2Proof.Machine.execMarkWord sh s
  | .waitSatisfied sh => Sys2Proof.Machine.execWaitSatisfied sh s
  | .arbiterGrant a waiting first => Sys2Proof.Machine.execArbiterGrant a waiting first s
  | .crossingTransfer c inbound word => Sys2Proof.Machine.execCrossingTransfer c inbound word s
  | .streamFetch sh ag => Sys2Proof.Machine.execStreamFetch sh ag s
  | .decoderAssign sh ag => Sys2Proof.Machine.execDecoderAssign sh ag s
  | .decoderTableLoaded d => Sys2Proof.Machine.execDecoderTableLoaded d s
  | .segmentStart lane seq => Sys2Proof.Machine.execSegmentStart lane seq s
  | .checkPoint lane seq => Sys2Proof.Machine.execCheckPoint lane seq s
  | .heatStart lane seq => Sys2Proof.Machine.execHeatStart lane seq s
  | .heatRestart lane seq => Sys2Proof.Machine.execHeatRestart lane seq s
  | .deadlineTrip lane seq => Sys2Proof.Machine.execDeadlineTrip lane seq s
  | .heatRetire lane seq seen => Sys2Proof.Machine.execHeatRetire lane seq seen s
  | .logRecordWrite r ok => Sys2Proof.Machine.execLogRecordWrite r ok s
  | .dramAccess heat unit wr e => Sys2Proof.Machine.execDramAccess heat unit wr e s
  | .patrolRead e => Sys2Proof.Machine.execPatrolRead e s
  | .pageRetire page => Sys2Proof.Machine.execPageRetire page s
  | .pageRetireDone page => Sys2Proof.Machine.execPageRetireDone page s
  | .rotationBlockStart sweep => Sys2Proof.Machine.execRotationBlockStart sweep s
  | .rotationCopyDone sweep => Sys2Proof.Machine.execRotationCopyDone sweep s
  | .rotationRewriteDone sweep => Sys2Proof.Machine.execRotationRewriteDone sweep s
  | .hostWindowAccess unit wr => Sys2Proof.Machine.execHostWindowAccess unit wr s
  | .aesKat p pass => Sys2Proof.Machine.execAesKat p pass s
  | .regionMake path r => Sys2Proof.Machine.execRegionMake path r s
  | .regionDelete path r => Sys2Proof.Machine.execRegionDelete path r s
  | .bhPartWrite path lane hi v => Sys2Proof.Machine.execBhPartWrite path lane hi v s
  | .bhRetainWrite path k v => Sys2Proof.Machine.execBhRetainWrite path k v s
  | .spinLoWrite path lane v => Sys2Proof.Machine.execSpinLoWrite path lane v s
  | .spinHiWrite path lane v => Sys2Proof.Machine.execSpinHiWrite path lane v s
  | .loRegisterRead path r => Sys2Proof.Machine.execLoRegisterRead path r s
  | .adapterGrantWrite path n v => Sys2Proof.Machine.execAdapterGrantWrite path n v s
  | .eyeTrigger src => Sys2Proof.Machine.execEyeTrigger src s
  | .snap path => Sys2Proof.Machine.execSnap path s
  | .exposureStart => Sys2Proof.Machine.execExposureStart s
  | .exposureEnd => Sys2Proof.Machine.execExposureEnd s
  | .irLimitCut => Sys2Proof.Machine.execIrLimitCut s
  | .frameComplete raws => Sys2Proof.Machine.execFrameComplete raws s
  | .frameAbandoned => Sys2Proof.Machine.execFrameAbandoned s
  | .calReferenceDone sums => Sys2Proof.Machine.execCalReferenceDone sums s
  | .calShadowDone skew differs => Sys2Proof.Machine.execCalShadowDone skew differs s
  | .sliceSwap => Sys2Proof.Machine.execSliceSwap s
  | .foregroundCal sums => Sys2Proof.Machine.execForegroundCal sums s
  | .stalecalTimeout => Sys2Proof.Machine.execStalecalTimeout s
  | .eyeReady sums => Sys2Proof.Machine.execEyeReady sums s
  | .eyeHoldWrite path v => Sys2Proof.Machine.execEyeHoldWrite path v s
  | .lookoutEventDeliver => Sys2Proof.Machine.execLookoutEventDeliver s
  | .earCtrlStart path => Sys2Proof.Machine.execEarCtrlStart path s
  | .earCtrlStop path => Sys2Proof.Machine.execEarCtrlStop path s
  | .earCaptureStart => Sys2Proof.Machine.execEarCaptureStart s
  | .earOutputBoundary samples => Sys2Proof.Machine.execEarOutputBoundary samples s
  | .earChWrite path n v => Sys2Proof.Machine.execEarChWrite path n v s
  | .earEnableWrite path v => Sys2Proof.Machine.execEarEnableWrite path v s
  | .earResultRead path n => Sys2Proof.Machine.execEarResultRead path n s
  | .earRingWrite path ring v => Sys2Proof.Machine.execEarRingWrite path ring v s
  | .captureSetWrite => Sys2Proof.Machine.execCaptureSetWrite s
  | .captureBlockComplete ring => Sys2Proof.Machine.execCaptureBlockComplete ring s
  | .micbiasReady n => Sys2Proof.Machine.execMicbiasReady n s
  | .audoCtrlStart path => Sys2Proof.Machine.execAudoCtrlStart path s
  | .audoCtrlStop path => Sys2Proof.Machine.execAudoCtrlStop path s
  | .audoPlaybackStart => Sys2Proof.Machine.execAudoPlaybackStart s
  | .audoFrame => Sys2Proof.Machine.execAudoFrame s
  | .audoUnderRead path => Sys2Proof.Machine.execAudoUnderRead path s
  | .sensePassStart => Sys2Proof.Machine.execSensePassStart s
  | .senseSettleDone => Sys2Proof.Machine.execSenseSettleDone s
  | .senseConversionDone data => Sys2Proof.Machine.execSenseConversionDone data s
  | .senseUrgentGo path v => Sys2Proof.Machine.execSenseUrgentGo path v s
  | .urgentRequestStart => Sys2Proof.Machine.execUrgentRequestStart s
  | .senseDataRead path => Sys2Proof.Machine.execSenseDataRead path s
  | .btnChange n down => Sys2Proof.Machine.execBtnChange n down s
  | .btnDebounced n => Sys2Proof.Machine.execBtnDebounced n s
  | .plugChange n present => Sys2Proof.Machine.execPlugChange n present s
  | .plugDebounced n => Sys2Proof.Machine.execPlugDebounced n s
  | .eventDeliver => Sys2Proof.Machine.execEventDeliver s
  | .edgeLostRead path => Sys2Proof.Machine.execEdgeLostRead path s
  | .pwmPeriodBoundary k => Sys2Proof.Machine.execPwmPeriodBoundary k s
  | .pwmGo path k => Sys2Proof.Machine.execPwmGo path k s
  | .pwmBurstEnd k => Sys2Proof.Machine.execPwmBurstEnd k s
  | .tmrStart path mask => Sys2Proof.Machine.execTmrStart path mask s
  | .tmrStop path mask => Sys2Proof.Machine.execTmrStop path mask s
  | .periodEvent n => Sys2Proof.Machine.execPeriodEvent n s
  | .compareEvent n => Sys2Proof.Machine.execCompareEvent n s
  | .pulse path => Sys2Proof.Machine.execPulse path s
  | .trigOutPulseEnd => Sys2Proof.Machine.execTrigOutPulseEnd s
  | .trigInEdge high => Sys2Proof.Machine.execTrigInEdge high s
  | .callCharReceived c rate => Sys2Proof.Machine.execCallCharReceived c rate s
  | .lineBreak => Sys2Proof.Machine.execLineBreak s
  | .callLineRun => Sys2Proof.Machine.execCallLineRun s
  | .callTxLine => Sys2Proof.Machine.execCallTxLine s
  | .hello c => Sys2Proof.Machine.execHello c s
  | .info c => Sys2Proof.Machine.execInfo c s
  | .help c verb => Sys2Proof.Machine.execHelp c verb s
  | .verbList c => Sys2Proof.Machine.execVerbList c s
  | .echo c on => Sys2Proof.Machine.execEcho c on s
  | .mode c terse check events flow => Sys2Proof.Machine.execMode c terse check events flow s
  | .resetCall c => Sys2Proof.Machine.execResetCall c s
  | .resetWarm c => Sys2Proof.Machine.execResetWarm c s
  | .lease c period => Sys2Proof.Machine.execLease c period s
  | .get c reg field n => Sys2Proof.Machine.execGet c reg field n s
  | .set c reg v => Sys2Proof.Machine.execSet c reg v s
  | .setField c reg field v => Sys2Proof.Machine.execSetField c reg field v s
  | .load c addr len lanes budgets => Sys2Proof.Machine.execLoad c addr len lanes budgets s
  | .drop c h => Sys2Proof.Machine.execDrop c h s
  | .laneOpen c lane seq prio => Sys2Proof.Machine.execLaneOpen c lane seq prio s
  | .laneClose c lane => Sys2Proof.Machine.execLaneClose c lane s
  | .laneCloseDiscard c lane => Sys2Proof.Machine.execLaneCloseDiscard c lane s
  | .laneClaim c lane => Sys2Proof.Machine.execLaneClaim c lane s
  | .laneState c lane => Sys2Proof.Machine.execLaneState c lane s
  | .laneKey c lane => Sys2Proof.Machine.execLaneKey c lane s
  | .heat c lane seq h e args => Sys2Proof.Machine.execHeat c lane seq h e args s
  | .take c lane seq => Sys2Proof.Machine.execTake c lane seq s
  | .wait c lane seq ms => Sys2Proof.Machine.execWait c lane seq ms s
  | .waitTimeout c => Sys2Proof.Machine.execWaitTimeout c s
  | .scrub c lane => Sys2Proof.Machine.execScrub c lane s
  | .scrubStepDone lane => Sys2Proof.Machine.execScrubStepDone lane s
  | .eyeState c => Sys2Proof.Machine.execEyeState c s
  | .eyeHold c on => Sys2Proof.Machine.execEyeHold c on s
  | .eyeSet c a => Sys2Proof.Machine.execEyeSet c a s
  | .eyeSnap c => Sys2Proof.Machine.execEyeSnap c s
  | .eyeLook c attend on off => Sys2Proof.Machine.execEyeLook c attend on off s
  | .eyeCopy c lane bank n => Sys2Proof.Machine.execEyeCopy c lane bank n s
  | .eyeCopyOff c => Sys2Proof.Machine.execEyeCopyOff c s
  | .earState c => Sys2Proof.Machine.execEarState c s
  | .earStart c osr ch trig => Sys2Proof.Machine.execEarStart c osr ch trig s
  | .earStop c => Sys2Proof.Machine.execEarStop c s
  | .earCh c n gain order notch => Sys2Proof.Machine.execEarCh c n gain order notch s
  | .earBias c n on level => Sys2Proof.Machine.execEarBias c n on level s
  | .earRing c lane bank nblk block tally => Sys2Proof.Machine.execEarRing c lane bank nblk block tally s
  | .earRingOff c => Sys2Proof.Machine.execEarRingOff c s
  | .earOut c lane bank nblk block tdm slots fill done => Sys2Proof.Machine.execEarOut c lane bank nblk block tdm slots fill done s
  | .earOutStart c => Sys2Proof.Machine.execEarOutStart c s
  | .earOutStop c => Sys2Proof.Machine.execEarOutStop c s
  | .senseState c => Sys2Proof.Machine.execSenseState c s
  | .senseRead c input settle osr => Sys2Proof.Machine.execSenseRead c input settle osr s
  | .senseSeq c k input settle osr => Sys2Proof.Machine.execSenseSeq c k input settle osr s
  | .senseSeqOff c k => Sys2Proof.Machine.execSenseSeqOff c k s
  | .sensePeriod c us => Sys2Proof.Machine.execSensePeriod c us s
  | .edgeState c => Sys2Proof.Machine.execEdgeState c s
  | .edgeBtn c n db en pu => Sys2Proof.Machine.execEdgeBtn c n db en pu s
  | .edgePlug c n db en imp => Sys2Proof.Machine.execEdgePlug c n db en imp s
  | .edgeTouch c n on off en => Sys2Proof.Machine.execEdgeTouch c n on off en s
  | .edgePwm c k period duty pre pol burst act => Sys2Proof.Machine.execEdgePwm c k period duty pre pol burst act s
  | .edgeBind c k code lane h e args => Sys2Proof.Machine.execEdgeBind c k code lane h e args s
  | .edgeUnbind c k => Sys2Proof.Machine.execEdgeUnbind c k s
  | .trigState c => Sys2Proof.Machine.execTrigState c s
  | .trigTmr c n period compare on => Sys2Proof.Machine.execTrigTmr c n period compare on s
  | .trigOut c src => Sys2Proof.Machine.execTrigOut c src s
  | .trigPulse c width => Sys2Proof.Machine.execTrigPulse c width s
  | .rail c => Sys2Proof.Machine.execRail c s
  | .railCeiling c mw => Sys2Proof.Machine.execRailCeiling c mw s
  | .railFix c mv => Sys2Proof.Machine.execRailFix c mv s
  | .railAuto c => Sys2Proof.Machine.execRailAuto c s
  | .fence c u => Sys2Proof.Machine.execFence c u s
  | .spare c => Sys2Proof.Machine.execSpare c s
  | .repairTest c u => Sys2Proof.Machine.execRepairTest c u s
  | .repairRejoin c u => Sys2Proof.Machine.execRepairRejoin c u s
  | .repairRecord c u => Sys2Proof.Machine.execRepairRecord c u s
  | .logLane c lane n => Sys2Proof.Machine.execLogLane c lane n s
  | .logFault c n => Sys2Proof.Machine.execLogFault c n s
  | .logBundle c => Sys2Proof.Machine.execLogBundle c s
  | .statLane c lane => Sys2Proof.Machine.execStatLane c lane s
  | .statDevice c => Sys2Proof.Machine.execStatDevice c s
  | .keyState c => Sys2Proof.Machine.execKeyState c s
  | .keyRotatePlan c => Sys2Proof.Machine.execKeyRotatePlan c s
  | .keyVkLoad c slot addr => Sys2Proof.Machine.execKeyVkLoad c slot addr s
  | .keyVkRevoke c slot => Sys2Proof.Machine.execKeyVkRevoke c slot s
  | .firmState c => Sys2Proof.Machine.execFirmState c s
  | .firmBegin c size => Sys2Proof.Machine.execFirmBegin c size s
  | .firmData c offset data => Sys2Proof.Machine.execFirmData c offset data s
  | .firmAddr c addr len => Sys2Proof.Machine.execFirmAddr c addr len s
  | .firmEnd c => Sys2Proof.Machine.execFirmEnd c s
  | .doorbell ring tail => Sys2Proof.Machine.execDoorbell ring tail s
  | .callEnvelope ring => Sys2Proof.Machine.execCallEnvelope ring s
  | .completionRingWrite ring => Sys2Proof.Machine.execCompletionRingWrite ring s
  | .eventRingWrite k => Sys2Proof.Machine.execEventRingWrite k s
  | .cqHeadWrite ring head => Sys2Proof.Machine.execCqHeadWrite ring head s
  | .evHeadWrite k head => Sys2Proof.Machine.execEvHeadWrite k head s
  | .ringReset ring => Sys2Proof.Machine.execRingReset ring s
  | .tadd ring amt => Sys2Proof.Machine.execTadd ring amt s
  | .leaseLapse => Sys2Proof.Machine.execLeaseLapse s
  | .qspiTransaction cmd space addr words data late => Sys2Proof.Machine.execQspiTransaction cmd space addr words data late s
  | .qspiHeldReadExpire => Sys2Proof.Machine.execQspiHeldReadExpire s
  | .hostQspiRead path => Sys2Proof.Machine.execHostQspiRead path s
  | .pcieMemoryRequest bar addr be dws wr => Sys2Proof.Machine.execPcieMemoryRequest bar addr be dws wr s
  | .pcieConfigRequest => Sys2Proof.Machine.execPcieConfigRequest s
  | .pcieLinkDown => Sys2Proof.Machine.execPcieLinkDown s
  | .pcieLinkUp speed width => Sys2Proof.Machine.execPcieLinkUp speed width s
  | .functionLevelReset => Sys2Proof.Machine.execFunctionLevelReset s
  | .winRefusedRead path => Sys2Proof.Machine.execWinRefusedRead path s
  | .eyeMissedRead path => Sys2Proof.Machine.execEyeMissedRead path s
  | .rigFrameTrialDone pass => Sys2Proof.Machine.execRigFrameTrialDone pass s
  | .liveCopyRow bank => Sys2Proof.Machine.execLiveCopyRow bank s
  | .liveCopyDone bank => Sys2Proof.Machine.execLiveCopyDone bank s
  | .coxWatchdogTrip cox => Sys2Proof.Machine.execCoxWatchdogTrip cox s
  | .coxTakeover cox => Sys2Proof.Machine.execCoxTakeover cox s
  | .coxRestartDone cox ok => Sys2Proof.Machine.execCoxRestartDone cox ok s
  | .selftestStart u => Sys2Proof.Machine.execSelftestStart u s
  | .selftestDone u pass => Sys2Proof.Machine.execSelftestDone u pass s
  | .repairRecordWrite => Sys2Proof.Machine.execRepairRecordWrite s
  | .governorTick late mw => Sys2Proof.Machine.execGovernorTick late mw s
  | .railRequest mv => Sys2Proof.Machine.execRailRequest mv s
  | .pmbusTransactionDone ack voutMode => Sys2Proof.Machine.execPmbusTransactionDone ack voutMode s
  | .railConfirm mv => Sys2Proof.Machine.execRailConfirm mv s
  | .railRetry => Sys2Proof.Machine.execRailRetry s
  | .railFrozenRetry => Sys2Proof.Machine.execRailFrozenRetry s
  | .pgCoreLow mv => Sys2Proof.Machine.execPgCoreLow mv s
  | .pmAlert status => Sys2Proof.Machine.execPmAlert status s
  | .fieldLockArm path => Sys2Proof.Machine.execFieldLockArm path s
  | .fieldLockBurn path => Sys2Proof.Machine.execFieldLockBurn path s
  | .fieldLockDisarm => Sys2Proof.Machine.execFieldLockDisarm s
  | .fuseBurnDone => Sys2Proof.Machine.execFuseBurnDone s
  | .tapInstruction ir => Sys2Proof.Machine.execTapInstruction ir s
  | .idcodeCapture => Sys2Proof.Machine.execIdcodeCapture s
  | .respCapture => Sys2Proof.Machine.execRespCapture s
  | .stringStatus arg data => Sys2Proof.Machine.execStringStatus arg data s
  | .halt arg data => Sys2Proof.Machine.execHalt arg data s
  | .resume arg data => Sys2Proof.Machine.execResume arg data s
  | .step arg data => Sys2Proof.Machine.execStep arg data s
  | .stepDone => Sys2Proof.Machine.execStepDone s
  | .counter arg data => Sys2Proof.Machine.execCounter arg data s
  | .breakSet arg data => Sys2Proof.Machine.execBreakSet arg data s
  | .breakClear arg data => Sys2Proof.Machine.execBreakClear arg data s
  | .rd32 arg data => Sys2Proof.Machine.execRd32 arg data s
  | .wr32 arg data => Sys2Proof.Machine.execWr32 arg data s
  | .setaddr arg data => Sys2Proof.Machine.execSetaddr arg data s
  | .rdmem arg data => Sys2Proof.Machine.execRdmem arg data s
  | .wrmem arg data => Sys2Proof.Machine.execWrmem arg data s
  | .strSessionIdle => Sys2Proof.Machine.execStrSessionIdle s
  | .strTrst => Sys2Proof.Machine.execStrTrst s
  | .registerWrite path off v => Sys2Proof.Machine.execRegisterWrite path off v s
  | .vddAoLost => Sys2Proof.Machine.execVddAoLost s
  | .eventQueueLatch => Sys2Proof.Machine.execEventQueueLatch s
  | .irPulseEdge rise => Sys2Proof.Machine.execIrPulseEdge rise s
  | .callCtsNChange high => Sys2Proof.Machine.execCallCtsNChange high s
  | .statWindowEnd => Sys2Proof.Machine.execStatWindowEnd s
  | .firmEraseDone => Sys2Proof.Machine.execFirmEraseDone s

end Sys2Proof.Machine
end

