-- ==== Sys2Proof/Machine/Step.lean ====
section
/-! DEFINITION. One step: the command at the front of the queue, or, on an empty queue, one tick of REF
(notes/assumptions/1, 2). -/

namespace Sys2Proof.Machine
open Sys2Proof

/-- The queue without its front command. -/
def State.popped (s : State) : State := { s with pending := s.pending.tail }

/-- Take the command at the front of the queue and run it with the queue's rest; with none, time passes. -/
def step (s : State) : Host.Outcome State Fault Refusal :=
  match s.pending with
  | c :: _ => exec c s.popped
  | [] => .next (if s.start.vddAo then elapse 1 s else s)

/-- The state with the command that a table word spells at the front of its queue. -/
def State.withFetchWord (s : State) (nbits w : Nat) : State :=
  match decodeTableWord nbits w with
  | some c => { s with pending := c :: s.pending }
  | none => s

end Sys2Proof.Machine
end

