-- ==== Sys2Proof/Safety.lean ====
section
/-! DEFINITION. What statements about runs speak of: safe runs, the canonical form of the memories, when a call is taken, its reply,
and a state without its output. -/

namespace Sys2Proof
open Sys2Proof.Machine

/-- The memories of the machine are in canonical form: addresses strictly rising, and no byte listed that an unlisted address
reads as. -/
def Machine.State.memWf (s : State) : Bool := s.mem.dram.wf && s.mem.bh.wf && s.flash.wf && s.shells.all fun x => x.sram.wf && x.table.wf

/-- Every step from s, for as long as the run goes on, answers a next state. -/
def SafeFor : Nat → State → Prop
  | 0, _ => True
  | n + 1, s => match step s with
    | .next t => SafeFor n t
    | .fault _ => False
    | .refused _ => False

/-- A call of c is taken now: start-up has ended, its line is free, and the engine is not in recovery (R336, R341, R352). -/
abbrev Takes (c : Caller) (s : State) : Prop := s.start.banner = true ∧ s.lineBusy c = false ∧ s.keys.recovery = false

/-- A line stands among what waits to go out on the caller's path. -/
def Replied (c : Caller) (l : Line) (t : State) : Prop :=
  match c.path with
  | .call => TxItem.line l ∈ t.call.tx
  | .host => ∃ e ∈ t.host.ring[c.ring].out, e.line = l

/-- A state without what waits to go out on the Call line and in the completion rings. -/
def Machine.State.quiet (s : State) : State :=
  { s with
    call := { s.call with tx := [], running := none }
    host := { s.host with ring := s.host.ring.map fun (r : Ring) => { r with out := [] } } }

/-- s at the time of t: REF ticks, SLOW edges, timers and the lease have gone on, and nothing else. -/
def Machine.State.timed (s t : State) : State :=
  { s with
    clk := { s.clk with tick := t.clk.tick, slow := t.clk.slow, slowDiv := t.clk.slowDiv }, tmr := t.tmr, free := t.free
    host := { s.host with leaseLeft := t.host.leaseLeft } }

/-- Only shell i, its stroke counts, tallies, the heats' runs, the String Port's halts, the decoders and the requests for them change. -/
def ShellOnly (i : ShellId) (s t : State) : Prop :=
  t = { s with
    shells := t.shells, stat := t.stat, tallies := t.tallies, lanes := t.lanes, str := t.str
    mem := { s.mem with decNext := t.mem.decNext, decQueue := t.mem.decQueue, decoder := t.mem.decoder } } ∧
  (∀ l : LaneId, t.lanes[l] = { s.lanes[l] with runs := (t.lanes[l]).runs }) ∧ ∀ j, j ≠ i → t.shell j = s.shell j

/-- The add of a stroke word is made to its tally, and no other tally changes (R54). -/
def WordAdds (l : LaneId) (w : W64) (s t : State) : Prop :=
  ∀ k, t.tally k = if wAE w = true ∧ k = laneTally l (wAtal w) then s.tally k + w32 (wAmt w) else s.tally k

/-- The state after a list of commands, one exec after another. -/
def execAll : List Instr → State → State
  | [], s => s
  | c :: r, s => match exec c s with
    | .next t => execAll r t
    | .fault _ => s
    | .refused _ => s

end Sys2Proof
end

