-- ==== Sys2Proof/WellFormed.lean ====
section
/-! DEFINITION. Well-formed commands: what the form of a call, an envelope, an access or an event already says of its operands. A
value that the manual answers with an error is well formed: the error is the command's effect. -/

namespace Sys2Proof
open Sys2Proof.Machine

/-- A character of a tag (R328). -/
def isTagChar (b : Byte) : Bool :=
  let n := b.toNat
  decide ((48 ≤ n ∧ n ≤ 57) ∨ (65 ≤ n ∧ n ≤ 90) ∨ (97 ≤ n ∧ n ≤ 122) ∨ n = 95 ∨ n = 45 ∨ n = 46)

/-- A call on the Call line has no envelope; a tag is 1 to 16 tag characters (R328, R350). -/
def Machine.Caller.wf (c : Caller) : Bool :=
  (c.tag.all fun t => decide (1 ≤ t.length ∧ t.length ≤ 16) && t.all isTagChar) &&
    (c.path == .host || (c.ring == 0 && c.seq == 0#32 && c.at_ == none))

/-- A unit that a call can name (R347). -/
def Machine.UnitRef.callable : UnitRef → Bool
  | .shell _ | .bank _ | .slice _ | .cox _ | .decoder _ | .aes _ => true
  | .row _ _ | .page _ | .clock _ | .lane _ => false

/-- A region begins on a 64-byte boundary (R345). -/
def Machine.HeatArg.wf : HeatArg → Bool
  | .region a _ => decide (a % 64 = 0)
  | .const _ | .adapter _ => true

/-- Arguments of a heat: at most a0 to a7 (R345). -/
def argsOk (l : List HeatArg) : Bool := decide (l.length ≤ 8) && l.all HeatArg.wf

/-- The data of a write of one 64-byte unit (R242, R250). -/
def unitData (wr : Option (List Byte)) : Bool := wr.all fun b => decide (b.length = 64)

/-- T0000 to T1023 (R63). -/
def tallyOk (t : Option Nat) : Bool := t.all fun n => decide (n < 1024)

/-- The data words of a Quad-SPI write (R357). -/
def dataOk (write : Bool) (words : Nat) (data : List W32) : Bool := !write || decide (data.length = words + 1)

def Instr.wf : Instr → Bool
  | .powerOnReset _ => true
  | .coldReset _ => true
  | .warmReset => true
  | .noCoxWarmReset => true
  | .refSteady => true
  | .refStartupTimeout => true
  | .corePowerGood _ => true
  | .prestartRailFaultTick _ => true
  | .firmwareCopied => true
  | .firmwareVerified _ => true
  | .dramTrainingDone _ _ _ _ => true
  | .banner => true
  | .bootBundleLoad _ => true
  | .firmNeededTick => true
  | .domainFirstAccess _ => true
  | .domainReady _ => true
  | .domainBringupTimeout _ => true
  | .fabricStopFloor _ => true
  | .fabricResume _ => true
  | .clockLost _ => true
  | .clockReturn _ => true
  | .pllRelock _ _ => true
  | .stroke _ _ => true
  | .endWord _ => true
  | .runWord _ _ => true
  | .rigWord _ => true
  | .ldrigWord _ => true
  | .ldrigComplete _ _ _ => true
  | .moveWord _ => true
  | .moveLanded _ _ units => decide (0 < units)
  | .setaWord _ => true
  | .setwWord _ => true
  | .loopWord _ => true
  | .markWord _ => true
  | .waitSatisfied _ => true
  | .arbiterGrant _ _ _ => true
  | .crossingTransfer _ _ _ => true
  | .streamFetch _ _ => true
  | .decoderAssign _ _ => true
  | .decoderTableLoaded _ => true
  | .segmentStart _ _ => true
  | .checkPoint _ _ => true
  | .heatStart _ _ => true
  | .heatRestart _ _ => true
  | .deadlineTrip _ _ => true
  | .heatRetire _ _ _ => true
  | .logRecordWrite _ _ => true
  | .dramAccess _ _ wr _ => unitData wr
  | .patrolRead _ => true
  | .pageRetire _ => true
  | .pageRetireDone _ => true
  | .rotationBlockStart _ => true
  | .rotationCopyDone _ => true
  | .rotationRewriteDone _ => true
  | .hostWindowAccess _ wr => unitData wr
  | .aesKat _ _ => true
  | .regionMake _ _ => true
  | .regionDelete _ _ => true
  | .bhPartWrite _ _ _ _ => true
  | .bhRetainWrite _ _ _ => true
  | .spinLoWrite _ _ _ => true
  | .spinHiWrite _ _ _ => true
  | .loRegisterRead _ _ => true
  | .adapterGrantWrite _ _ _ => true
  | .eyeTrigger _ => true
  | .snap _ => true
  | .exposureStart => true
  | .exposureEnd => true
  | .irLimitCut => true
  | .frameComplete _ => true
  | .frameAbandoned => true
  | .calReferenceDone _ => true
  | .calShadowDone _ _ => true
  | .sliceSwap => true
  | .foregroundCal _ => true
  | .stalecalTimeout => true
  | .eyeReady _ => true
  | .eyeHoldWrite _ _ => true
  | .lookoutEventDeliver => true
  | .earCtrlStart _ => true
  | .earCtrlStop _ => true
  | .earCaptureStart => true
  | .earOutputBoundary _ => true
  | .earChWrite _ _ _ => true
  | .earEnableWrite _ _ => true
  | .earResultRead _ _ => true
  | .earRingWrite _ _ _ => true
  | .captureSetWrite => true
  | .captureBlockComplete _ => true
  | .micbiasReady _ => true
  | .audoCtrlStart _ => true
  | .audoCtrlStop _ => true
  | .audoPlaybackStart => true
  | .audoFrame => true
  | .audoUnderRead _ => true
  | .sensePassStart => true
  | .senseSettleDone => true
  | .senseConversionDone _ => true
  | .senseUrgentGo _ _ => true
  | .urgentRequestStart => true
  | .senseDataRead _ => true
  | .btnChange _ _ => true
  | .btnDebounced _ => true
  | .plugChange _ _ => true
  | .plugDebounced _ => true
  | .eventDeliver => true
  | .edgeLostRead _ => true
  | .pwmPeriodBoundary _ => true
  | .pwmGo _ _ => true
  | .pwmBurstEnd _ => true
  | .tmrStart _ _ => true
  | .tmrStop _ _ => true
  | .periodEvent _ => true
  | .compareEvent _ => true
  | .pulse _ => true
  | .trigOutPulseEnd => true
  | .trigInEdge _ => true
  | .callCharReceived _ rate => decide (0 < rate)
  | .lineBreak => true
  | .callLineRun => true
  | .callTxLine => true
  | .hello c => c.wf
  | .info c => c.wf
  | .help c _ => c.wf
  | .verbList c => c.wf
  | .echo c _ => c.wf
  | .mode c _ _ _ _ => c.wf
  | .resetCall c => c.wf
  | .resetWarm c => c.wf
  | .lease c _ => c.wf
  | .get c _ _ _ => c.wf
  | .set c _ v => c.wf && decide (v < 2 ^ 32)
  | .setField c _ _ _ => c.wf
  | .load c _ _ _ _ => c.wf
  | .drop c _ => c.wf
  | .laneOpen c _ _ _ => c.wf
  | .laneClose c _ => c.wf
  | .laneCloseDiscard c _ => c.wf
  | .laneClaim c _ => c.wf
  | .laneState c _ => c.wf
  | .laneKey c _ => c.wf
  | .heat c _ _ _ _ args => c.wf && argsOk args
  | .take c _ _ => c.wf
  | .wait c _ _ ms => c.wf && decide (1 ≤ ms ∧ ms ≤ 60000)
  | .waitTimeout c => c.wf
  | .scrub c _ => c.wf
  | .scrubStepDone _ => true
  | .eyeState c => c.wf
  | .eyeHold c _ => c.wf
  | .eyeSet c _ => c.wf
  | .eyeSnap c => c.wf
  | .eyeLook c _ _ _ => c.wf
  | .eyeCopy c _ _ _ => c.wf
  | .eyeCopyOff c => c.wf
  | .earState c => c.wf
  | .earStart c _ _ _ => c.wf
  | .earStop c => c.wf
  | .earCh c _ _ _ _ => c.wf
  | .earBias c _ _ _ => c.wf
  | .earRing c _ _ _ _ tally => c.wf && tallyOk tally
  | .earRingOff c => c.wf
  | .earOut c _ _ _ _ _ _ fill done => c.wf && tallyOk fill && tallyOk done
  | .earOutStart c => c.wf
  | .earOutStop c => c.wf
  | .senseState c => c.wf
  | .senseRead c _ _ _ => c.wf
  | .senseSeq c _ _ _ _ => c.wf
  | .senseSeqOff c _ => c.wf
  | .sensePeriod c _ => c.wf
  | .edgeState c => c.wf
  | .edgeBtn c _ _ _ _ => c.wf
  | .edgePlug c _ _ _ _ => c.wf
  | .edgeTouch c _ _ _ _ => c.wf
  | .edgePwm c _ _ _ _ _ _ _ => c.wf
  | .edgeBind c _ _ _ _ _ args => c.wf && argsOk args
  | .edgeUnbind c _ => c.wf
  | .trigState c => c.wf
  | .trigTmr c _ _ _ _ => c.wf
  | .trigOut c _ => c.wf
  | .trigPulse c _ => c.wf
  | .rail c => c.wf
  | .railCeiling c _ => c.wf
  | .railFix c _ => c.wf
  | .railAuto c => c.wf
  | .fence c u => c.wf && u.callable
  | .spare c => c.wf
  | .repairTest c u => c.wf && u.callable
  | .repairRejoin c u => c.wf && u.callable
  | .repairRecord c u => c.wf && u.callable
  | .logLane c _ n => c.wf && decide (1 ≤ n ∧ n ≤ 128)
  | .logFault c n => c.wf && decide (1 ≤ n ∧ n ≤ 512)
  | .logBundle c => c.wf
  | .statLane c _ => c.wf
  | .statDevice c => c.wf
  | .keyState c => c.wf
  | .keyRotatePlan c => c.wf
  | .keyVkLoad c _ _ => c.wf
  | .keyVkRevoke c _ => c.wf
  | .firmState c => c.wf
  | .firmBegin c _ => c.wf
  | .firmData c _ data => c.wf && decide (data.length ≤ 96)
  | .firmAddr c _ _ => c.wf
  | .firmEnd c => c.wf
  | .doorbell _ _ => true
  | .callEnvelope _ => true
  | .completionRingWrite _ => true
  | .eventRingWrite _ => true
  | .cqHeadWrite _ _ => true
  | .evHeadWrite _ _ => true
  | .ringReset _ => true
  | .tadd _ _ => true
  | .leaseLapse => true
  | .qspiTransaction cmd _ _ words data _ => dataOk (cmd == 0x02#8) words.val data
  | .qspiHeldReadExpire => true
  | .hostQspiRead _ => true
  | .pcieMemoryRequest _ _ _ dws wr => wr.all fun ws => decide (ws.length = dws.val + 1 ∧ ws.length ≤ 64)
  | .pcieConfigRequest => true
  | .pcieLinkDown => true
  | .pcieLinkUp _ _ => true
  | .functionLevelReset => true
  | .winRefusedRead _ => true
  | .eyeMissedRead _ => true
  | .rigFrameTrialDone _ => true
  | .liveCopyRow _ => true
  | .liveCopyDone _ => true
  | .coxWatchdogTrip _ => true
  | .coxTakeover _ => true
  | .coxRestartDone _ _ => true
  | .selftestStart u => u.callable
  | .selftestDone u _ => u.callable
  | .repairRecordWrite => true
  | .governorTick _ _ => true
  | .railRequest _ => true
  | .pmbusTransactionDone _ _ => true
  | .railConfirm _ => true
  | .railRetry => true
  | .railFrozenRetry => true
  | .pgCoreLow _ => true
  | .pmAlert _ => true
  | .fieldLockArm _ => true
  | .fieldLockBurn _ => true
  | .fieldLockDisarm => true
  | .fuseBurnDone => true
  | .tapInstruction _ => true
  | .idcodeCapture => true
  | .respCapture => true
  | .stringStatus _ _ => true
  | .halt _ _ => true
  | .resume _ _ => true
  | .step _ _ => true
  | .stepDone => true
  | .counter _ _ => true
  | .breakSet _ _ => true
  | .breakClear _ _ => true
  | .rd32 _ _ => true
  | .wr32 _ _ => true
  | .setaddr _ _ => true
  | .rdmem _ _ => true
  | .wrmem _ _ => true
  | .strSessionIdle => true
  | .strTrst => true
  | .registerWrite _ off _ => decide (off.toNat % 4 = 0)
  | .vddAoLost => true
  | .eventQueueLatch => true
  | .irPulseEdge _ => true
  | .callCtsNChange _ => true
  | .statWindowEnd => true
  | .firmEraseDone => true

end Sys2Proof
end

