-- ==== Sys2Proof/Certificates/Slice0/Obligations.lean ====
section
/-! DEFINITION. The statements for the provers. -/

open Sys2Proof Sys2Proof.Machine

/-- A step runs the command at the front of the queue (R336). For every state, command c and queue rest: when the queue is c
followed by rest, a step is exec of c on the state with the queue rest. The queue is the model's own (log 1). -/
def Obligations.StepRunsFrontCommand : Prop :=
  ∀ (s : State) (c : Instr) (rest : List Instr), s.pending = c :: rest → step s = exec c { s with pending := rest }

/-- A step on an empty queue is one REF tick while VDD_AO is valid (R455, R31). With no command waiting and VDD_AO valid, a step
answers a next state whose tick count is one higher, whose SLOW count, by the exact 8/9,375 divider, is higher by the edges that
fall into the tick, and whose timer channels have counted one tick; beside the lease, which counts SLOW edges, nothing else
changes. While REF ticks come from the ring oscillator and SLOW keeps its crystal, a tick takes between 0.91 and 1.112 of its
nominal time. Without VDD_AO the step changes nothing. That the empty queue stands for a tick is the model's choice (log 2), as
is how a tick drifts (log 39). -/
def Obligations.IdleStepIsOneTick : Prop :=
  (∀ s : State, s.pending = [] → s.start.vddAo = true → s.clk.drifts = false →
    ∃ t, step s = .next t ∧ t.clk.tick = s.clk.tick + 1#64 ∧
      t.clk.slow = s.clk.slow + BitVec.ofNat 32 ((s.clk.slowDiv + 8) / 9375) ∧ t.clk.slowDiv = (s.clk.slowDiv + 8) % 9375 ∧
      t = { s with
        clk := { s.clk with tick := t.clk.tick, slow := t.clk.slow, slowDiv := t.clk.slowDiv }
        tmr := s.tmr.advance 1, host := { s.host with leaseLeft := t.host.leaseLeft } }) ∧
  (∀ s : State, s.pending = [] → s.start.vddAo = true → s.clk.drifts = true →
    ∃ t d, step s = .next t ∧ t.clk.tick = s.clk.tick + 1#64 ∧ 910 ≤ d ∧ d < 1112 ∧
      t.clk.slow = s.clk.slow + BitVec.ofNat 32 ((s.clk.slowDiv * 1000 + 8 * d) / 1000 / 9375) ∧
      t = { s with
        clk := { s.clk with tick := t.clk.tick, slow := t.clk.slow, slowDiv := t.clk.slowDiv }
        tmr := s.tmr.advance 1, host := { s.host with leaseLeft := t.host.leaseLeft }, free := t.free }) ∧
  (∀ s : State, s.pending = [] → s.start.vddAo = false → step s = .next s)

/-- No command faults and none is refused (R339, R372). For every command and every state exec answers a next state; so every
run of any length from any state goes on. -/
def Obligations.EveryCommandCompletes : Prop :=
  (∀ (c : Instr) (s : State), ∃ t, exec c s = .next t) ∧ ∀ (n : Nat) (s : State), SafeFor n s

/-- A command leaves the queue alone (R336). Whatever the command and the state, the queue of the next state of exec is the
queue of the state it ran on; so the queue after a step is the queue before it without its front. -/
def Obligations.QueueIsLeftAlone : Prop :=
  (∀ (c : Instr) (s t : State), exec c s = .next t → t.pending = s.pending) ∧
  ∀ s t : State, step s = .next t → t.pending = s.pending.tail

/-- Every step keeps the memories in canonical form (R234, R237, R416). If the Boathouse, the DRAM, the boot flash and every
shell's data SRAM and table stores list their bytes at strictly rising addresses and list no byte that an unlisted address reads
as, then so they do after any step. -/
def Obligations.MemoryStaysCanonical : Prop :=
  ∀ s t : State, s.memWf = true → step s = .next t → t.memWf = true

/-- The memories are in canonical form after reset (R234, R410). The reset state lists no byte in any memory, and its memories
are in canonical form. -/
def Obligations.MemoryCanonicalAtReset : Prop :=
  State.reset.memWf = true ∧ State.reset.mem.bh = [] ∧ State.reset.mem.dram = [] ∧ State.reset.flash = []

/-- No step un-burns an OTP fuse (R462). A burnt bit of the OTP is burnt after every step: no command, reset or loss of supply
clears it. -/
def Obligations.FusesStayBurnt : Prop :=
  ∀ (s t : State) (k : Nat), k ∈ s.fuse.otp → step s = .next t → k ∈ t.fuse.otp

/-- Some registers as reset leaves them (R208, R421, R455, R239). In the reset state GLB_CALL reads 0x3000_0000, GLB_STATUS
reads 0x1400_0000, TICK_LO reads 0, RAIL_CTRL is 0x1D4C_0000, L0 is open and owned by the engine, the priorities of L0 to L3 are
0, 1, 1 and 2, L1 to L3 are free, BH_PART0 to BH_PART3 are their reset partitions, and no command waits. -/
def Obligations.ResetColumn : Prop :=
  (readReg .cox 0x1014 State.reset).1 = 0x30000000#32 ∧ (readReg .cox 0x1000 State.reset).1 = 0x14000000#32 ∧
  (readReg .cox 0x1004 State.reset).1 = 0#32 ∧ State.reset.rail.ctrl = 0x1D4C0000#32 ∧
  (State.reset.lanes[0]).st = .opened ∧ (State.reset.lanes[0]).owner = .engine ∧
  (State.reset.lanes.map fun (l : Lane) => l.prio) = ⟨#[0#2, 1#2, 1#2, 2#2], rfl⟩ ∧
  (∀ l : LaneId, l ≠ 0 → (State.reset.lanes[l]).st = .free) ∧
  State.reset.mem.part = ⟨#[0xFF#64, 0xFFFF0000#64, 0xFFFF00000000#64, 0xFF00#64], rfl⟩ ∧ State.reset.pending = []

/-- Cases of what each kind of reset leaves (R409, R410, R342). A power-on leaves START=0, VDD_AO valid, the lanes, the memory
and the shells of reset, no tallies, an empty fault log, tick count 0 and no superblock copy; the flash stays where nothing was
being erased, and the fuses where nothing was being burnt. A cold reset while VDD_AO is valid leaves START=1 and the lanes,
memory, shells, adapter slots and bundle records of reset, no tallies and tick count 0; it keeps the superblock copies, and the
fault log and its numbering where a copy is valid, and otherwise leaves them empty. Both take the level of the Quad-SPI strap.
VDD_AO_LOST leaves VDD_AO not valid and the lanes and memory of reset. A warm reset that is asked for, with nothing on CALL_TX,
leaves START=2 and its kind as the last reset; where a superblock copy is valid it keeps the tick count, the SLOW count, the
fault log, the event queue, the buttons' levels and the strap's level, and leaves no tallies, an empty DRAM, and the adapter
slots, key slots and timer channels of reset; where neither copy is valid it keeps the tick count and leaves the lanes and
bundle records of reset, an empty fault log, no tallies, and an empty Boathouse and DRAM. With no Cox processor able to run,
AO's warm reset leaves START=2, its kind, and the tick count. These forms answer a next state, with their own effect, where
their clauses say: POWER_ON_RESET, COLD_RESET, WARM_RESET, NO_COX_WARM_RESET, VDD_AO_LOST. -/
def Obligations.ResetsInitialise : Prop :=
  (∀ (h : Bool) (s : State),
      ∃ t, exec (.powerOnReset h) s = .next t ∧
      t.start.startKind = 0#2 ∧ t.start.vddAo = true ∧ t.host.qspi = h ∧ t.lanes = State.reset.lanes ∧ t.tallies = [] ∧
      t.mem = State.reset.mem ∧ t.shells = State.reset.shells ∧ t.faults.log = [] ∧ t.faults.logNum = 0 ∧ t.clk.tick = 0#64 ∧
      t.start.superA = none ∧ t.start.superB = none ∧
      (s.firm.erasing = none → t.flash = s.flash) ∧ (s.fuse.burning = none → t.fuse.otp = s.fuse.otp)) ∧
  (∀ (h : Bool) (s : State),
      s.start.vddAo = true → 
      ∃ t, exec (.coldReset h) s = .next t ∧
      t.start.startKind = 1#2 ∧ t.start.lastReset = .resetN ∧ t.host.qspi = h ∧ t.lanes = State.reset.lanes ∧ t.tallies = [] ∧
      t.mem = State.reset.mem ∧ t.shells = State.reset.shells ∧ t.ads = State.reset.ads ∧ t.bundles = State.reset.bundles ∧
      t.clk.tick = 0#64 ∧ t.start.superA = s.start.superA ∧ t.start.superB = s.start.superB ∧
      t.faults.log = (if s.start.superA.isNone && s.start.superB.isNone then [] else s.faults.log) ∧
      t.faults.logNum = (if s.start.superA.isNone && s.start.superB.isNone then 0 else s.faults.logNum)) ∧
  (∀ (s : State),
      ∃ t, exec .vddAoLost s = .next t ∧ t.start.vddAo = false ∧ t.lanes = State.reset.lanes ∧ t.mem = State.reset.mem) ∧
  (∀ (s : State) (k : ResetKind),
      s.start.warmPending = some k → s.call.tx = [] → (s.start.superA.isSome || s.start.superB.isSome) = true → 
      ∃ t, exec .warmReset s = .next t ∧ t.start.startKind = 2#2 ∧ t.start.lastReset = k ∧ t.clk.tick = s.clk.tick ∧
        t.clk.slow = s.clk.slow ∧ t.faults.log = s.faults.log ∧ t.edge.queue = s.edge.queue ∧ t.edge.btn = s.edge.btn ∧
        t.tallies = [] ∧ t.ads = State.reset.ads ∧ t.mem.kslot = State.reset.mem.kslot ∧ t.mem.dram = [] ∧ t.tmr.chan = State.reset.tmr.chan ∧
        t.host.qspi = s.host.qspi) ∧
  (∀ (s : State) (k : ResetKind),
      s.start.warmPending = some k → s.call.tx = [] → s.start.superA = none → s.start.superB = none → 
      ∃ t, exec .warmReset s = .next t ∧ t.start.startKind = 2#2 ∧ t.start.lastReset = k ∧ t.clk.tick = s.clk.tick ∧ t.lanes = State.reset.lanes ∧
        t.bundles = State.reset.bundles ∧ t.faults.log = [] ∧ t.mem.bh = [] ∧ t.mem.dram = [] ∧ t.tallies = []) ∧
  (∀ (s : State),
      s.start.vddAo = true → s.coxAble = false → 
      ∃ t, exec .noCoxWarmReset s = .next t ∧
      t.start.startKind = 2#2 ∧ t.start.lastReset = .noCox ∧ t.clk.tick = s.clk.tick)

/-- Cases of the steps of a start-up (R411, R412, R414, R415, R418, R420, R11). Under the premises of the clauses: REF_STEADY,
REF not yet decided: it is decided and not degraded. REF_STARTUP_TIMEOUT, REF not yet decided: it is decided and DEGRADED, REF
is lost and absent, NOREF is set, and a tick count up to 768,000 becomes 768,000. PRESTART_RAIL_FAULT_TICK, waiting for power:
the RAIL FAULT line waits on CALL_TX and FAULT_N is low. CORE_POWER_GOOD, with REF decided and at least 500 mV: the body is
being copied, the start domains are up, the fuses are loaded, the rail is confirmed at the reading, and the Eye has its fuse
values. FIRMWARE_COPIED: verification begins, with the reason for a refused header or digest, if any. FIRMWARE_VERIFIED: the
endpoint is ready for configuration requests; an image found wrong before, or whose signature does not verify, leaves start-up
ready with its reason; one that verifies runs, with its version, and DRAM training begins, or, when DEGRADED, start-up is ready
and training is owed. DRAM_TRAINING_DONE: training that succeeds with a supported fitting leaves DRAM trained with the fitting's
usable blocks; another end changes nothing but the phase; either ends the step, or begins it again where training was owed and
REF is back. BANNER, start-up ready, no buffered line and no latched doorbell: start-up has ended, a BANNER line waits on
CALL_TX, and recovery holds exactly if a reason stands. FIRM_NEEDED_TICK, in recovery with no update begun, raises its line.
BOOT_BUNDLE_LOAD of the entry that is due, outside recovery: an entry that is not VALID is skipped; one whose load succeeds is
LOADED with flash as its source at a handle that was free or waiting; a failed load leaves bundles and lanes and writes one
fault record with the entry's number. These forms answer a next state, with their own effect, where their clauses say:
CORE_POWER_GOOD, PRESTART_RAIL_FAULT_TICK, FIRMWARE_VERIFIED, DRAM_TRAINING_DONE, BOOT_BUNDLE_LOAD, REF_STEADY,
REF_STARTUP_TIMEOUT, FIRMWARE_COPIED, BANNER, FIRM_NEEDED_TICK. -/
def Obligations.StartUpSteps : Prop :=
  (∀ (s : State),
      s.start.vddAo = true → s.start.refDecided = false → 
      exec .refSteady s = .next { s with start := { s.start with refDecided := true }, clk := { s.clk with degraded := false } }) ∧
  (∀ (s : State),
      s.start.vddAo = true → s.start.refDecided = false → 
      ∃ t, exec .refStartupTimeout s = .next t ∧
      t.start = { s.start with refDecided := true } ∧ t.clk.degraded = true ∧ t.clk.lost = s.clk.lost ||| 1#14 ∧
      t.clk.absent = s.clk.absent ||| 1#14 ∧ t.mem = { s.mem with noref := true } ∧ t.lanes = s.lanes ∧ t.rail = s.rail ∧
      (s.clk.tick.toNat ≤ 768000 → t.clk.tick = 768000#64)) ∧
  (∀ (mv : BitVec 10) (s : State),
      s.start.phase = .waitPower → 
      exec (.prestartRailFaultTick mv) s = .next { s with
        call := { s.call with tx := s.call.tx ++ [.line (Line.evt "RAIL FAULT" [decF "core" mv.toNat])] }
        rail := { s.rail with faultN := true, meas := mv } }) ∧
  (∀ (mv : BitVec 10) (s : State),
      s.start.phase = .waitPower → s.start.vddAo = true → s.start.refDecided = true → 500 ≤ mv.toNat → 
      exec (.corePowerGood mv) s = .next { s with
        start := { s.start with phase := .copying }
        rail := { s.rail with pgCore := true, faultN := false, floor := false, meas := mv, confirmed := mv }
        power := { s.power with up := s.power.up ||| 0x65C00000#32 }
        fuse := { s.fuse with shadow := s.fuse.otp, loaded := true }
        eye := s.eye.load s.fuse.otp }) ∧
  (∀ (s : State),
      s.start.phase = .copying → 
      exec .firmwareCopied s = .next { s with start := { s.start with
        phase := .verifying, firmReason := (firmHeader s).orElse fun _ => if firmDigest s then none else some "DIGEST" } }) ∧
  (∀ (kat : BitVec 3) (why : String) (s : State),
      s.start.phase = .verifying → s.start.firmReason = some why → 
      ∃ t, exec (.firmwareVerified kat) s = .next t ∧ t.start.phase = .ready ∧ t.start.firmReason = some why ∧ t.host.configReady = true ∧
        t.start.banner = s.start.banner ∧ t.firm = s.firm) ∧
  (∀ (kat : BitVec 3) (s : State),
      s.start.phase = .verifying → s.start.firmReason = none → firmSigned (keyCheck s) = false → 
      ∃ t, exec (.firmwareVerified kat) s = .next t ∧ t.start.phase = .ready ∧ t.start.firmReason = some "SIGNATURE" ∧ t.host.configReady = true ∧
        t.firm = s.firm) ∧
  (∀ (kat : BitVec 3) (s : State),
      s.start.phase = .verifying → s.start.firmReason = none → firmSigned (keyCheck s) = true → s.clk.degraded = false → 
      ∃ t, exec (.firmwareVerified kat) s = .next t ∧ t.start.phase = .training ∧ t.start.firmReason = none ∧ t.host.configReady = true ∧
        t.firm.running = true ∧ t.firm.version = BitVec.ofNat 24 (s.flash.nat 4 4) ∧ t.domUp Dom.mem = true) ∧
  (∀ (kat : BitVec 3) (s : State),
      s.start.phase = .verifying → s.start.firmReason = none → firmSigned (keyCheck s) = true → s.clk.degraded = true → 
      ∃ t, exec (.firmwareVerified kat) s = .next t ∧ t.start.phase = .ready ∧ t.start.firmReason = none ∧ t.start.trainOwed = true ∧
        t.host.configReady = true ∧ t.firm.running = true ∧ t.firm.version = BitVec.ofNat 24 (s.flash.nat 4 4)) ∧
  (∀ (f : Byte) (rate : BitVec 4) (ranks : BitVec 2) (s : State),
      s.start.phase = .training → fittingOk f rate ranks = true → 
      ∃ t, exec (.dramTrainingDone true f rate ranks) s = .next t ∧ t.start.phase = (if s.start.trainOwed && !s.mem.noref then .training else .ready) ∧
        t.start.trainOwed = false ∧ t.mem = { s.mem with
          trained := true, fitted := f, rate := rate, ranks := ranks
          usable := BitVec.ofNat 18 (f.toNat * 8192 - f.toNat * 256 - 260), retired := t.mem.retired }) ∧
  (∀ (ok : Bool) (f : Byte) (rate : BitVec 4) (ranks : BitVec 2) (s : State),
      s.start.phase = .training → s.start.trainOwed = false → (ok && fittingOk f rate ranks) = false → 
      exec (.dramTrainingDone ok f rate ranks) s = .next { s with start := { s.start with phase := .ready, trainOwed := false } }) ∧
  (∀ (s : State),
      s.start.phase = .ready → s.start.vddAo = true → s.call.lines = [] → ∀ l : LaneId, s.host.ring[l].latched = none → 
      ∃ t, exec .banner s = .next t ∧ t.start.banner = true ∧ t.start.phase = .up ∧ t.keys.startup = false ∧
        t.keys.recovery = s.start.firmReason.isSome ∧ (∃ l : Line, l.head = "BANNER" ∧ TxItem.line l ∈ t.call.tx)) ∧
  (∀ (s : State) (r : String),
      s.keys.recovery = true → s.start.banner = true → s.firm.size = none → s.start.firmReason = some r → 
      exec .firmNeededTick s = .next (s.raise (Line.evt "FIRM NEEDED" [symF "reason" r]))) ∧
  (∀ (k : Fin 16) (s : State),
      s.start.banner = true → s.keys.recovery = false → k.val = s.start.bootNext → (bootEntry s k).2.2.2 = false → 
      exec (.bootBundleLoad k) s = .next { s with start := { s.start with bootNext := s.start.bootNext + 1 } }) ∧
  (∀ (k : Fin 16) (s u : State),
      s.start.banner = true → s.keys.recovery = false → k.val = s.start.bootNext → (bootEntry s k).2.2.2 = true → bootLoad k { s with start := { s.start with bootNext := s.start.bootNext + 1 } } = .ok u → 
      exec (.bootBundleLoad k) s = .next u ∧ u.start.bootNext = s.start.bootNext + 1 ∧
        ∃ h : Fin 16, (s.handleFree h = true ∨ (s.bundle h).st = .waiting) ∧ (u.bundle h).st = .loaded ∧ (u.bundle h).source = 2) ∧
  (∀ (k : Fin 16) (e : Err) (s : State),
      s.start.banner = true → s.keys.recovery = false → k.val = s.start.bootNext → (bootEntry s k).2.2.2 = true → bootLoad k { s with start := { s.start with bootNext := s.start.bootNext + 1 } } = .error e → 
      ∃ t, exec (.bootBundleLoad k) s = .next t ∧ t.start.bootNext = s.start.bootNext + 1 ∧ t.bundles = s.bundles ∧ t.lanes = s.lanes ∧
        t.faults.logNum = s.faults.logNum + 1 ∧ ∃ r ∈ t.faults.log, r.number = s.faults.logNum + 1 ∧ r.kind = .fault ∧ r.detail = BitVec.ofNat 64 k.val)

/-- Cases of a domain's first access and of its coming up (R406, R407, R235). A first access (DOMAIN_FIRST_ACCESS) to a domain
that is off, not fenced, not waking and not queued starts its bring-up while fewer than two run, and otherwise puts it at the
end of the queue; either way one more access waits for it. An access to a domain that is up or fenced changes nothing. A waking
domain that reports ready (DOMAIN_READY) is up and no access waits for it; where one domain, off and not fenced, is queued and
fewer than two then wake, that one starts. Nothing but the power block changes. These forms answer a next state, with their own
effect, where their clauses say: DOMAIN_FIRST_ACCESS, DOMAIN_READY. -/
def Obligations.PowerDomainsComeUp : Prop :=
  (∀ (d : Dom) (s : State),
      s.domUp d = false → s.domFenced d = false → s.power.waking.getLsbD d.val = false → s.power.queue.contains d = false → s.power.busy < 2 → 
      exec (.domainFirstAccess d) s = .next { s with power := { s.power with
        waking := s.power.waking ||| domBit d
        waiters := Tab.set s.power.waiters d.val ((Tab.get? s.power.waiters d.val).getD 0 + 1) } }) ∧
  (∀ (d : Dom) (s : State),
      s.domUp d = false → s.domFenced d = false → s.power.waking.getLsbD d.val = false → s.power.queue.contains d = false → 2 ≤ s.power.busy → 
      exec (.domainFirstAccess d) s = .next { s with power := { s.power with
        queue := s.power.queue ++ [d]
        waiters := Tab.set s.power.waiters d.val ((Tab.get? s.power.waiters d.val).getD 0 + 1) } }) ∧
  (∀ (d : Dom) (s : State),
      (s.domUp d || s.domFenced d) = true → 
      exec (.domainFirstAccess d) s = .next s) ∧
  (∀ (d : Dom) (s : State),
      s.power.waking.getLsbD d.val = true → s.power.queue = [] → 
      exec (.domainReady d) s = .next { s with power := { s.power with
        up := s.power.up ||| domBit d, waking := s.power.waking &&& ~~~domBit d, waiters := Tab.erase s.power.waiters d.val } }) ∧
  (∀ (d e : Dom) (s : State),
      s.power.waking.getLsbD d.val = true → s.power.queue = [e] → (s.power.up ||| domBit d).getLsbD e.val = false → (s.power.waking &&& ~~~domBit d).getLsbD e.val = false → s.power.fenced.getLsbD e.val = false → Power.busy { s.power with waking := s.power.waking &&& ~~~domBit d } < 2 → 
      exec (.domainReady d) s = .next { s with power := { s.power with
        up := s.power.up ||| domBit d, waking := (s.power.waking &&& ~~~domBit d) ||| domBit e, queue := []
        waiters := Tab.erase s.power.waiters d.val } })

/-- The fabric stops below 500 mV and goes on at 500 mV (R14, R403). FABRIC_STOP_FLOOR with a reading below 500 mV sets FLOOR,
holds FAULT_N low, keeps the reading and stops the running deadline counts at the present tick; nothing else changes. With a
reading of 500 mV or more it changes nothing. FABRIC_RESUME with 500 mV or more while FLOOR is set clears FLOOR, releases
FAULT_N and keeps the reading, and the deadline counts that may run go on. These forms answer a next state, with their own
effect, where their clauses say: FABRIC_STOP_FLOOR, FABRIC_RESUME. -/
def Obligations.FabricStopsBelowFloor : Prop :=
  (∀ (mv : BitVec 10) (s : State),
      mv.toNat < 500 → 
      exec (.fabricStopFloor mv) s = .next ({ s with rail := { s.rail with floor := true, faultN := true, meas := mv } } : State).watch ∧
      ({ s with rail := { s.rail with floor := true, faultN := true, meas := mv } } : State).watch =
        { s with
          rail := { s.rail with floor := true, faultN := true, meas := mv }
          lanes := mapIdx s.lanes fun _ (L : Lane) => { L with runs := L.runs.map fun r => r.watch s.clk.tick true } }) ∧
  (∀ (mv : BitVec 10) (s : State),
      500 ≤ mv.toNat → 
      exec (.fabricStopFloor mv) s = .next s) ∧
  (∀ (mv : BitVec 10) (s : State),
      500 ≤ mv.toNat → s.rail.floor = true → 
      exec (.fabricResume mv) s = .next ({ s with rail := { s.rail with floor := false, faultN := false, meas := mv } } : State).watch)

/-- Cases of how a rail request is sent, acknowledged, confirmed, retried and given up (R399, R400, R302). A request
(RAIL_REQUEST) with none in flight is sent; with one in flight it waits. With no alert waiting, an acknowledged transaction
(PMBUS_TRANSACTION_DONE) whose VOUT_MODE, the one read at the first contact, is linear leaves the request settling and asks for
its urgent reading of VDD_CORE; with another VOUT_MODE, or not acknowledged, a request sent fewer than 3 times again waits for
its retry. A reading (RAIL_CONFIRM) within 15 mV of the request, with no other request due, confirms it: no request is in
flight, the confirmed voltage is the request's, FAULT is clear and a frozen governor goes on; one further off makes a request
retried fewer than 3 times wait for its retry. A reading of 500 mV or more above the floor becomes the measured voltage and the
request for it leaves the engine's queue. RAIL_RETRY sends the request again as its next attempt. With no alert waiting, the
third retry that is not acknowledged freezes the governor, sets FAULT, ends the request and writes a fault record of cause rail
fault; beside rail, log and event output nothing changes. RAIL_FROZEN_RETRY with the governor frozen and no request in flight
sends the last confirmed voltage as a last attempt. These forms answer a next state, with their own effect, where their clauses
say: RAIL_REQUEST, PMBUS_TRANSACTION_DONE, RAIL_CONFIRM, RAIL_RETRY, RAIL_FROZEN_RETRY. -/
def Obligations.RailRequestsRun : Prop :=
  (∀ (mv : Nat) (s : State),
      s.rail.req = none → 
      exec (.railRequest mv) s = .next { s with rail := { s.rail with
        req := some ⟨mv, 0, .sending⟩, requested := BitVec.ofNat 10 mv, pmbLast := railBytes s mv } }) ∧
  (∀ (mv : Nat) (q : RailReq) (s : State),
      s.rail.req = some q → 
      exec (.railRequest mv) s = .next { s with rail := { s.rail with due := some mv } }) ∧
  (∀ (m md : Byte) (q : RailReq) (s : State),
      s.rail.req = some q → q.stage = .sending → (if s.rail.voutKnown then s.rail.voutMode else m) = md → linear16 md = true → s.rail.alert = none → 
      exec (.pmbusTransactionDone true m) s = .next { s with
        rail := { s.rail with
          voutKnown := true, voutMode := md, req := some { q with stage := .settling }
          pmbLast := railBytes { s with rail := { s.rail with voutMode := md } } q.mv }
        sense := { s.sense with engineQ := s.sense.engineQ ++ [{ by_ := .rail, input := 15#5, settle := 0#8, osr := 0#2 }] } }) ∧
  (∀ (m md : Byte) (q : RailReq) (s : State),
      s.rail.req = some q → q.stage = .sending → (if s.rail.voutKnown then s.rail.voutMode else m) = md → linear16 md = false → q.attempt < 3 → s.rail.alert = none → 
      exec (.pmbusTransactionDone true m) s = .next { s with rail := { s.rail with
        voutKnown := true, voutMode := md, req := some { q with stage := .retryWait } } }) ∧
  (∀ (m : Byte) (q : RailReq) (s : State),
      s.rail.req = some q → q.stage = .sending → q.attempt < 3 → s.rail.alert = none → 
      exec (.pmbusTransactionDone false m) s = .next { s with rail := { s.rail with req := some { q with stage := .retryWait } } }) ∧
  (∀ (mv : BitVec 10) (q : RailReq) (s u : State),
      s.rail.req = some q → q.stage = .settling → mv.toNat ≤ q.mv + 15 → q.mv ≤ mv.toNat + 15 → s.rail.due = none → railMeasured mv (railRead s) = u → 
      exec (.railConfirm mv) s = .next { u with
        rail := { u.rail with
          req := none, confirmed := BitVec.ofNat 10 q.mv, fault := false
          gov := if s.rail.gov = .frozen then (if bit s.rail.ctrl 31 then .fixed else .auto) else s.rail.gov } }) ∧
  (∀ (mv : BitVec 10) (q : RailReq) (s u : State),
      s.rail.req = some q → q.stage = .settling → ¬(mv.toNat ≤ q.mv + 15 ∧ q.mv ≤ mv.toNat + 15) → q.attempt < 3 → railMeasured mv (railRead s) = u → 
      exec (.railConfirm mv) s = .next { u with rail := { u.rail with req := some { q with stage := .retryWait } } }) ∧
  (∀ (mv : BitVec 10) (s : State),
      500 ≤ mv.toNat → s.rail.floor = false → 
      railMeasured mv (railRead s) = { s with
        rail := { s.rail with meas := mv }, sense := { s.sense with engineQ := s.sense.engineQ.filter fun u => u.by_ != .rail } }) ∧
  (∀ (q : RailReq) (s : State),
      s.rail.req = some q → q.stage = .retryWait → 
      exec .railRetry s = .next { s with rail := { s.rail with
        req := some ⟨q.mv, q.attempt + 1, .sending⟩, requested := BitVec.ofNat 10 q.mv, pmbLast := railBytes s q.mv } }) ∧
  (∀ (m : Byte) (q : RailReq) (s : State),
      s.rail.req = some q → q.stage = .sending → q.attempt = 3 → s.rail.gov ≠ .frozen → s.rail.alert = none → 
      ∃ t, exec (.pmbusTransactionDone false m) s = .next t ∧
        t.rail = { s.rail with gov := .frozen, fault := true, due := none, req := none } ∧
        t.faults.logNum = s.faults.logNum + 1 ∧ (∃ r ∈ t.faults.log, r.cause = some .railFault ∧ r.number = s.faults.logNum + 1) ∧
        t = { s with rail := t.rail, faults := { s.faults with log := t.faults.log, logNum := t.faults.logNum }
                     start := { s.start with early := t.start.early }, call := t.call, host := t.host }) ∧
  (∀ (s : State),
      s.rail.gov = .frozen → s.rail.req = none → 
      exec .railFrozenRetry s = .next { s with rail := { s.rail with
        req := some ⟨s.rail.confirmed.toNat, 3, .sending⟩, requested := s.rail.confirmed, pmbLast := railBytes s s.rail.confirmed.toNat } })

/-- Cases of PG_CORE low and PM_ALERT_N (R402). PG_CORE_LOW clears PG_CORE and keeps the reading of VDD_CORE; once start-up has
power it also writes a fault record of cause rail fault whose detail is the reading, and a reading below 500 mV also sets FLOOR
and holds FAULT_N low; before that it does nothing more. PM_ALERT writes STATUS_WORD into a fault record of cause rail fault and
sends CLEAR_FAULTS; while a request is being sent it only keeps the word, to be handled after it. That this is the order of the
two is read from R38. These forms answer a next state, with their own effect, where their clauses say: PG_CORE_LOW, PM_ALERT. -/
def Obligations.RailFaultsAreRecorded : Prop :=
  (∀ (mv : BitVec 10) (s : State),
      s.start.phase ≠ .waitPower → 500 ≤ mv.toNat → s.rail.floor = false → 
      ∃ t, exec (.pgCoreLow mv) s = .next t ∧ t.rail = { s.rail with pgCore := false, meas := mv } ∧ t.faults.logNum = s.faults.logNum + 1 ∧
        (∃ r ∈ t.faults.log, r.cause = some .railFault ∧ r.detail = BitVec.ofNat 64 mv.toNat ∧ r.number = s.faults.logNum + 1) ∧
        t = { s with rail := t.rail, faults := { s.faults with log := t.faults.log, logNum := t.faults.logNum } }) ∧
  (∀ (mv : BitVec 10) (s : State),
      s.start.phase ≠ .waitPower → mv.toNat < 500 → 
      ∃ t, exec (.pgCoreLow mv) s = .next t ∧ t.rail = { s.rail with pgCore := false, meas := mv, floor := true, faultN := true } ∧
        t.faults.logNum = s.faults.logNum + 1 ∧ (∃ r ∈ t.faults.log, r.cause = some .railFault ∧ r.detail = BitVec.ofNat 64 mv.toNat ∧ r.number = s.faults.logNum + 1) ∧
        t = { s with rail := t.rail, faults := { s.faults with log := t.faults.log, logNum := t.faults.logNum }, lanes := t.lanes }) ∧
  (∀ (mv : BitVec 10) (s : State),
      s.start.phase = .waitPower → 
      exec (.pgCoreLow mv) s = .next { s with rail := { s.rail with pgCore := false, meas := mv } }) ∧
  (∀ (w : W16) (s : State),
      s.railSending = false → 
      ∃ t, exec (.pmAlert w) s = .next t ∧ t.rail = { s.rail with alert := none, pmbLast := pmbWrite s 0x03#8 [] } ∧ t.faults.logNum = s.faults.logNum + 1 ∧
        (∃ r ∈ t.faults.log, r.cause = some .railFault ∧ r.detail = BitVec.ofNat 64 w.toNat ∧ r.number = s.faults.logNum + 1) ∧
        t = { s with rail := t.rail, faults := { s.faults with log := t.faults.log, logNum := t.faults.logNum } }) ∧
  (∀ (w : W16) (s : State),
      s.railSending = true → 
      exec (.pmAlert w) s = .next { s with rail := { s.rail with alert := some w } })

/-- Cases of RAIL, its ceiling, its fixed voltage and its automatic control (R347, R405, R421). Of a call that is taken: RAIL
replies with the rail's fields; RAIL CEILING of 500 to 7,500 mW stores it in RAIL_CTRL; RAIL FIX of 500 to 880 mV in steps of 5,
with the governor not frozen and no request in flight, stores FIXMV, sets FIXED and sends the request; RAIL AUTO with the
governor not frozen clears FIXED and returns it to AUTO; each replies OK with the rail's fields. A ceiling or a voltage out of
range fails with E.RANGE, and RAIL FIX in FROZEN with E.STATE. Beside that and the reply nothing changes. These forms answer a
next state, with their own effect, where their clauses say: RAIL, RAIL_CEILING, RAIL_FIX, RAIL_AUTO. -/
def Obligations.RailVerbsSetTheGovernor : Prop :=
  (∀ (c : Caller) (s : State),
      Takes c s → 
      ∃ t, exec (.rail c) s = .next t ∧ t.quiet = s.quiet ∧ Replied c (okLine c "RAIL" (railFields s)) t) ∧
  (∀ (c : Caller) (mw : Nat) (s : State),
      Takes c s → 500 ≤ mw → mw ≤ 7500 → 
      ∃ t, exec (.railCeiling c mw) s = .next t ∧ t.quiet = State.quiet { s with rail := { s.rail with ctrl := putFld s.rail.ctrl 16 13 mw } } ∧
        Replied c (okLine c "RAIL" (railFields { s with rail := { s.rail with ctrl := putFld s.rail.ctrl 16 13 mw } })) t) ∧
  (∀ (c : Caller) (mw : Nat) (s : State),
      Takes c s → mw < 500 ∨ 7500 < mw → 
      ∃ t, exec (.railCeiling c mw) s = .next t ∧ t.quiet = s.quiet ∧ Replied c ⟨.fail, "RAIL", c.tag, [bareF "E.RANGE"]⟩ t) ∧
  (∀ (c : Caller) (mv : Nat) (s : State),
      Takes c s → fixOk mv = true → s.rail.gov ≠ .frozen → s.rail.req = none → mv < 1024 → 
      ∃ t, exec (.railFix c mv) s = .next t ∧ t.rail.gov = .fixed ∧ t.rail.req = some ⟨mv, 0, .sending⟩ ∧ t.rail.requested = BitVec.ofNat 10 mv ∧
        t.rail.ctrl = putFld (putFld s.rail.ctrl 0 10 mv) 31 1 1 ∧ t.quiet = ({ s with rail := t.rail } : State).quiet ∧
        Replied c (okLine c "RAIL" (railFields t)) t) ∧
  (∀ (c : Caller) (mv : Nat) (s : State),
      Takes c s → fixOk mv = false → 
      ∃ t, exec (.railFix c mv) s = .next t ∧ t.quiet = s.quiet ∧ Replied c ⟨.fail, "RAIL", c.tag, [bareF "E.RANGE"]⟩ t) ∧
  (∀ (c : Caller) (mv : Nat) (s : State),
      Takes c s → fixOk mv = true → s.rail.gov = .frozen → 
      ∃ t, exec (.railFix c mv) s = .next t ∧ t.quiet = s.quiet ∧ Replied c ⟨.fail, "RAIL", c.tag, [bareF "E.STATE"]⟩ t) ∧
  (∀ (c : Caller) (s : State),
      Takes c s → s.rail.gov ≠ .frozen → 
      ∃ t, exec (.railAuto c) s = .next t ∧ t.quiet = State.quiet { s with rail := { s.rail with ctrl := putFld s.rail.ctrl 31 1 0, gov := .auto } } ∧
        Replied c (okLine c "RAIL" (railFields { s with rail := { s.rail with ctrl := putFld s.rail.ctrl 31 1 0, gov := .auto } })) t)

/-- Cases of the governor's tick (R29, R404, R403, R219). GOVERNOR_TICK above the floor, with a processor running and, once its
time has come, no lane in SCRUB, comes at the end of its 100 µs plus the REF ticks it is late; it keeps the rate of the busiest
ACTIVE shell, the power, the time and every shell's stroke count, and measures the running heats; in AUTO with no request in
flight, a step that is not 0 sends the request for the voltage set plus the step, held to 550 to 880 mV; another mode, or a step
of 0, leaves request and mode. Beside the rail and the lanes' measured rates nothing changes from the state at that time. Below
the floor nothing happens. Above the ceiling the step is −10 mV. That the tick moves time, and that it may be late, is the
model's choice (notes/assumptions/3). This form answers a next state, with its own effect, where the clauses say: GOVERNOR_TICK.
-/
def Obligations.GovernorSteps : Prop :=
  (∀ (late mw : W16) (s u : State),
      s.rail.floor = false → s.start.phase.coxRuns = true → elapseTo (s.rail.govTick.toNat + governorPeriod + late.toNat) s = u → (u.lanes.any fun l => l.st == .scrub) = false → u.rail.gov = .auto → u.rail.req = none → governorStep (u.topRate (u.shellsIn .active)) mw.toNat u.measureHeats.govRead ≠ 0 → 
      ∃ t, exec (.governorTick late mw) s = .next t ∧ t.rail.rate = BitVec.ofNat 16 (Nat.min (u.topRate (u.shellsIn .active)) 0xFFFF) ∧ t.rail.powerMw = mw ∧
        t.rail.req = some ⟨stepped u.rail.requested.toNat (governorStep (u.topRate (u.shellsIn .active)) mw.toNat u.measureHeats.govRead), 0, .sending⟩ ∧
        550 ≤ stepped u.rail.requested.toNat (governorStep (u.topRate (u.shellsIn .active)) mw.toNat u.measureHeats.govRead) ∧
        stepped u.rail.requested.toNat (governorStep (u.topRate (u.shellsIn .active)) mw.toNat u.measureHeats.govRead) ≤ 880 ∧
        t.rail.govTick = u.clk.tick ∧ (∀ i, t.rail.govCount[i] = (u.shell i).strokes) ∧
        t = { u with rail := t.rail, lanes := u.measureHeats.lanes }) ∧
  (∀ (late mw : W16) (s u : State),
      s.rail.floor = false → s.start.phase.coxRuns = true → elapseTo (s.rail.govTick.toNat + governorPeriod + late.toNat) s = u → (u.lanes.any fun l => l.st == .scrub) = false → u.rail.gov ≠ .auto ∨ governorStep (u.topRate (u.shellsIn .active)) mw.toNat u.measureHeats.govRead = 0 → 
      ∃ t, exec (.governorTick late mw) s = .next t ∧ t.rail.rate = BitVec.ofNat 16 (Nat.min (u.topRate (u.shellsIn .active)) 0xFFFF) ∧ t.rail.powerMw = mw ∧
        t.rail.govTick = u.clk.tick ∧ (∀ i, t.rail.govCount[i] = (u.shell i).strokes) ∧ t.rail.req = u.rail.req ∧ t.rail.gov = u.rail.gov ∧
        t = { u with rail := t.rail, lanes := u.measureHeats.lanes }) ∧
  (∀ (late mw : W16) (s : State),
      s.rail.floor = true → 
      exec (.governorTick late mw) s = .next s) ∧
  (∀ (rate mw : Nat) (s : State),
      fld s.rail.ctrl 16 13 < mw → 
      governorStep rate mw s = -10)

/-- Cases of SETA, SETW, LOOP, MARK and END (R53, R54, R56, R57, R59, R26). Each case is of a shell that may run the word at its
pc, a word of the form named. Where the word's stroke passes without a halt: SETA of each field from BASE to MODE sets that
field of the generator it names to the field's width of the value, starts that generator's steps from 0, leaves every field of
the other generators but their steps, and goes to the next word; SETW loads the wait register it names and goes to the next
word; LOOP counts and jumps back by its BACK while its counter is below ITER, and otherwise clears the counter and goes to the
next word; MARK goes to the next word; END, with no transfer in flight, ends the program, drops the shell's streams and takes
the shell out of the heat's open shells. Each then makes the word's add when AE is 1 and changes no other tally. Each but SETA
of STRIDE, for which it is not stated, adds to the stroke counter the one stroke that STROKE has not counted. END with a
transfer in flight waits. Only the shell, the tallies, its stroke statistics, the heats' runs, halts and decoder requests may
change, and no other shell. These forms answer a next state, with their own effect, where their clauses say: END, SETA, SETW,
LOOP, MARK. -/
def Obligations.OneStrokeWordsRun : Prop :=
  (∀ (i : ShellId) (w : W64) (l : LaneId) (q : W32) (s : State),
      s.wordAt i 8 = some (w, l, q) → (wordStrokes i 1 s).1 = true → 
      ∃ t, exec (.markWord i) s = .next t ∧ (t.shell i).pc = (s.shell i).pc + 1 ∧ (t.shell i).waited = false ∧ (t.shell i).sram = (s.shell i).sram ∧
        (∀ k : Fin 16, (t.shell i).ag[k] = { (s.shell i).ag[k] with step := (t.shell i).ag[k].step }) ∧ (t.shell i).wait = (s.shell i).wait ∧ (t.shell i).strokes = (s.shell i).strokes + BitVec.ofNat 48 (1 - (s.shell i).done) ∧ ShellOnly i s t ∧ WordAdds l w s t) ∧
  (∀ (i : ShellId) (w : W64) (l : LaneId) (q : W32) (s : State),
      s.wordAt i 5 = some (w, l, q) → wfld w 37 3 = 0 → (wordStrokes i 1 s).1 = true → 
      ∃ t, exec (.setaWord i) s = .next t ∧ (t.shell i).pc = (s.shell i).pc + 1 ∧
        (t.shell i).ag[wNum w 40] = { (s.shell i).ag[wNum w 40] with base := BitVec.ofNat 37 w.toNat, step := 0 } ∧
        (∀ k : Fin 16, k ≠ wNum w 40 → (t.shell i).ag[k] = { (s.shell i).ag[k] with step := (t.shell i).ag[k].step }) ∧
        (t.shell i).wait = (s.shell i).wait ∧ (t.shell i).sram = (s.shell i).sram ∧ (t.shell i).strokes = (s.shell i).strokes + BitVec.ofNat 48 (1 - (s.shell i).done) ∧ ShellOnly i s t ∧ WordAdds l w s t) ∧
  (∀ (i : ShellId) (w : W64) (l : LaneId) (q : W32) (s : State),
      s.wordAt i 5 = some (w, l, q) → wfld w 37 3 = 1 → (wordStrokes i 1 s).1 = true → 
      ∃ t, exec (.setaWord i) s = .next t ∧ (t.shell i).pc = (s.shell i).pc + 1 ∧
        (t.shell i).ag[wNum w 40] = { (s.shell i).ag[wNum w 40] with stride := BitVec.ofNat 37 w.toNat, step := 0 } ∧
        (∀ k : Fin 16, k ≠ wNum w 40 → (t.shell i).ag[k] = { (s.shell i).ag[k] with step := (t.shell i).ag[k].step }) ∧ ShellOnly i s t ∧
        WordAdds l w s t) ∧
  (∀ (i : ShellId) (w : W64) (l : LaneId) (q : W32) (s : State),
      s.wordAt i 5 = some (w, l, q) → wfld w 37 3 = 2 → (wordStrokes i 1 s).1 = true → 
      ∃ t, exec (.setaWord i) s = .next t ∧ (t.shell i).pc = (s.shell i).pc + 1 ∧
        (t.shell i).ag[wNum w 40] = { (s.shell i).ag[wNum w 40] with wrap := BitVec.ofNat 37 w.toNat, step := 0 } ∧
        (∀ k : Fin 16, k ≠ wNum w 40 → (t.shell i).ag[k] = { (s.shell i).ag[k] with step := (t.shell i).ag[k].step }) ∧ (t.shell i).strokes = (s.shell i).strokes + BitVec.ofNat 48 (1 - (s.shell i).done) ∧ ShellOnly i s t ∧
        WordAdds l w s t) ∧
  (∀ (i : ShellId) (w : W64) (l : LaneId) (q : W32) (s : State),
      s.wordAt i 5 = some (w, l, q) → wfld w 37 3 = 3 → (wordStrokes i 1 s).1 = true → 
      ∃ t, exec (.setaWord i) s = .next t ∧ (t.shell i).pc = (s.shell i).pc + 1 ∧
        (t.shell i).ag[wNum w 40] = { (s.shell i).ag[wNum w 40] with inner := BitVec.ofNat 37 w.toNat, step := 0 } ∧
        (∀ k : Fin 16, k ≠ wNum w 40 → (t.shell i).ag[k] = { (s.shell i).ag[k] with step := (t.shell i).ag[k].step }) ∧ (t.shell i).strokes = (s.shell i).strokes + BitVec.ofNat 48 (1 - (s.shell i).done) ∧ ShellOnly i s t ∧
        WordAdds l w s t) ∧
  (∀ (i : ShellId) (w : W64) (l : LaneId) (q : W32) (s : State),
      s.wordAt i 5 = some (w, l, q) → wfld w 37 3 = 4 → (wordStrokes i 1 s).1 = true → 
      ∃ t, exec (.setaWord i) s = .next t ∧ (t.shell i).pc = (s.shell i).pc + 1 ∧
        (t.shell i).ag[wNum w 40] = { (s.shell i).ag[wNum w 40] with outer := BitVec.ofNat 37 w.toNat, step := 0 } ∧
        (∀ k : Fin 16, k ≠ wNum w 40 → (t.shell i).ag[k] = { (s.shell i).ag[k] with step := (t.shell i).ag[k].step }) ∧ (t.shell i).strokes = (s.shell i).strokes + BitVec.ofNat 48 (1 - (s.shell i).done) ∧ ShellOnly i s t ∧
        WordAdds l w s t) ∧
  (∀ (i : ShellId) (w : W64) (l : LaneId) (q : W32) (s : State),
      s.wordAt i 5 = some (w, l, q) → wfld w 37 3 = 5 → (wordStrokes i 1 s).1 = true → 
      ∃ t, exec (.setaWord i) s = .next t ∧ (t.shell i).pc = (s.shell i).pc + 1 ∧
        (t.shell i).ag[wNum w 40] = { (s.shell i).ag[wNum w 40] with mode := BitVec.ofNat 2 w.toNat, step := 0 } ∧
        (∀ k : Fin 16, k ≠ wNum w 40 → (t.shell i).ag[k] = { (s.shell i).ag[k] with step := (t.shell i).ag[k].step }) ∧ (t.shell i).strokes = (s.shell i).strokes + BitVec.ofNat 48 (1 - (s.shell i).done) ∧ ShellOnly i s t ∧
        WordAdds l w s t) ∧
  (∀ (i : ShellId) (w : W64) (l : LaneId) (q : W32) (s : State),
      s.wordAt i 6 = some (w, l, q) → (wordStrokes i 1 s).1 = true → 
      ∃ t, exec (.setwWord i) s = .next t ∧ (t.shell i).pc = (s.shell i).pc + 1 ∧
        (t.shell i).wait = put (s.shell i).wait ⟨wfld w 41 3, Nat.mod_lt _ (by decide)⟩
          { tally := BitVec.ofNat 8 (wfld w 33 8), target := BitVec.ofNat 16 (wfld w 17 16), step := BitVec.ofNat 16 (wfld w 1 16) } ∧
        (∀ k : Fin 16, (t.shell i).ag[k] = { (s.shell i).ag[k] with step := (t.shell i).ag[k].step }) ∧ (t.shell i).sram = (s.shell i).sram ∧ (t.shell i).strokes = (s.shell i).strokes + BitVec.ofNat 48 (1 - (s.shell i).done) ∧ ShellOnly i s t ∧ WordAdds l w s t) ∧
  (∀ (i : ShellId) (w : W64) (l : LaneId) (q : W32) (s : State),
      s.wordAt i 7 = some (w, l, q) → (s.shell i).loops[wfld w 42 2]! < wfld w 22 20 → (wordStrokes i 1 s).1 = true → 
      ∃ t, exec (.loopWord i) s = .next t ∧ (t.shell i).pc = (s.shell i).pc - wfld w 6 16 ∧
        (t.shell i).loops[wfld w 42 2]! = (s.shell i).loops[wfld w 42 2]! + 1 ∧ (t.shell i).strokes = (s.shell i).strokes + BitVec.ofNat 48 (1 - (s.shell i).done) ∧ ShellOnly i s t ∧ WordAdds l w s t) ∧
  (∀ (i : ShellId) (w : W64) (l : LaneId) (q : W32) (s : State),
      s.wordAt i 7 = some (w, l, q) → wfld w 22 20 ≤ (s.shell i).loops[wfld w 42 2]! → (wordStrokes i 1 s).1 = true → 
      ∃ t, exec (.loopWord i) s = .next t ∧ (t.shell i).pc = (s.shell i).pc + 1 ∧
        (t.shell i).loops[wfld w 42 2]! = 0 ∧ (t.shell i).strokes = (s.shell i).strokes + BitVec.ofNat 48 (1 - (s.shell i).done) ∧ ShellOnly i s t ∧ WordAdds l w s t) ∧
  (∀ (i : ShellId) (w : W64) (l : LaneId) (q : W32) (s : State),
      s.wordAt i 0 = some (w, l, q) → (s.shell i).inbound = [] → (s.shell i).outbound = [] → (wordStrokes i 1 s).1 = true → 
      ∃ t, exec (.endWord i) s = .next t ∧ (t.shell i).ended = true ∧ (t.shell i).streams = [] ∧
        (t.shell i).sram = (s.shell i).sram ∧ (∀ r ∈ (t.lane l).runs, r.seq = q → i ∉ r.open_) ∧ (t.shell i).strokes = (s.shell i).strokes + BitVec.ofNat 48 (1 - (s.shell i).done) ∧ ShellOnly i s t ∧ WordAdds l w s t) ∧
  (∀ (i : ShellId) (w : W64) (l : LaneId) (q : W32) (s : State),
      s.wordAt i 0 = some (w, l, q) → (s.shell i).inbound ≠ [] ∨ (s.shell i).outbound ≠ [] → 
      exec (.endWord i) s = .next s)

/-- A wait register is satisfied when its tally has reached its target (R58). A wait register is satisfied when (count[15:0] −
TARGET) mod 2^16 < 2^15, count being the value of its tally: of a shell that makes strokes, whose word names a wait register and
still waits, the register's target then advances by its step and the word waits no more, and program counter, SRAM, tallies and
lanes stay. Where the difference is 2^15 or more, WAIT_SATISFIED changes nothing. This form answers a next state, with its own
effect, where the clauses say: WAIT_SATISFIED. -/
def Obligations.WaitsAreSatisfied : Prop :=
  (∀ (i : ShellId) (w : W64) (l : LaneId) (q : W32) (s : State),
      (s.shell i).running = some (l, q) → (s.shell i).word = some w → s.strokes i = true → wSel w ≠ 0 → (s.shell i).waited = false → ((s.tally (laneTally l (s.shell i).wait[wSel w].tally.toNat)).toNat % 65536 + 65536 - (s.shell i).wait[wSel w].target.toNat) % 65536 < 32768 → 
      ∃ t, exec (.waitSatisfied i) s = .next t ∧ (t.shell i).waited = true ∧
        (t.shell i).wait = upd (s.shell i).wait (wSel w) (fun r => { r with target := r.target + r.step }) ∧ (t.shell i).pc = (s.shell i).pc ∧
        (t.shell i).sram = (s.shell i).sram ∧ t.tallies = s.tallies ∧ t.lanes = s.lanes ∧ ShellOnly i s t) ∧
  (∀ (i : ShellId) (w : W64) (l : LaneId) (q : W32) (s : State),
      (s.shell i).running = some (l, q) → (s.shell i).word = some w → 32768 ≤ ((s.tally (laneTally l (s.shell i).wait[wSel w].tally.toNat)).toNat % 65536 + 65536 - (s.shell i).wait[wSel w].target.toNat) % 65536 → 
      exec (.waitSatisfied i) s = .next s)

/-- Cases of strokes, RIG, LDRIG and MOVE (R24, R26, R49, R55, R62, R67, R73). A fine stroke (STROKE) of a shell in service that
may run, whose word is not over and neither starved nor held from its SRAM port, adds 1 to the stroke counter and to the word's
strokes; where it is starved, held or the word's strokes are all made, it changes nothing. Where the word's strokes pass without
a halt: RIG of a slot that holds a frame and has no load pending makes it current, in 1 stroke when it was and in 200 when it
was not; LDRIG of a frame that its slot does not hold, with fewer than 8 inbound transfers, marks the slot loading and starts
the transfer; LDRIG of a frame that its slot holds starts none; MOVE with fewer than 8 transfers in its direction, and no stream
with consumed units, starts a transfer of LEN units from the two generators' next steps and steps them by LEN. Each goes on to
the next word. RIG of a slot with a load pending waits, and so do LDRIG of a frame not loaded and MOVE at 8 transfers in the
direction. Only the shell, the tallies, its stroke statistics, the heats' runs, halts and decoder requests may change, and no
other shell. These forms answer a next state, with their own effect, where their clauses say: STROKE, RIG, LDRIG, MOVE. -/
def Obligations.StrokesAndRigsRun : Prop :=
  (∀ (i : ShellId) (w : W64) (s : State),
      s.inService i = true → s.strokes i = true → (s.shell i).word = some w → s.strokeWaits i w = false → (s.shell i).done < (s.shell i).wordLen w → 
      ∃ t, exec (.stroke i .fine) s = .next t ∧ (t.shell i).strokes = (s.shell i).strokes + 1#48 ∧ (t.shell i).done = (s.shell i).done + 1 ∧
        (t.shell i).pc = (s.shell i).pc ∧ (t.shell i).sram = (s.shell i).sram ∧ t.tallies = s.tallies ∧
        t.clk = { s.clk with arbHeld := t.clk.arbHeld } ∧ ShellOnly i { s with clk := t.clk } t) ∧
  (∀ (i : ShellId) (w : W64) (s : State),
      (s.shell i).word = some w → s.strokeWaits i w = true → 
      exec (.stroke i .fine) s = .next s) ∧
  (∀ (i : ShellId) (w : W64) (s : State),
      (s.shell i).word = some w → (s.shell i).wordLen w ≤ (s.shell i).done → 
      exec (.stroke i .fine) s = .next s) ∧
  (∀ (i : ShellId) (w : W64) (l : LaneId) (q : W32) (s : State) (f : RigFrame),
      s.wordAt i 2 = some (w, l, q) → (s.shell i).slots[wNum w 40].pending = false → (s.shell i).slots[wNum w 40].frame = some f → (wordStrokes i ((s.shell i).wordLen w) s).1 = true → 
      ∃ t, exec (.rigWord i) s = .next t ∧ (t.shell i).cur = some (wNum w 40) ∧ (t.shell i).pc = (s.shell i).pc + 1 ∧
        (t.shell i).strokes = (s.shell i).strokes + BitVec.ofNat 48 ((if (s.shell i).cur = some (wNum w 40) then 1 else 200) - (s.shell i).done) ∧
        (t.shell i).slots = (s.shell i).slots ∧ ShellOnly i s t ∧ WordAdds l w s t) ∧
  (∀ (i : ShellId) (w : W64) (l : LaneId) (q : W32) (s : State),
      s.wordAt i 2 = some (w, l, q) → (s.shell i).slots[wNum w 40].pending = true → 
      exec (.rigWord i) s = .next s) ∧
  (∀ (i : ShellId) (w : W64) (l : LaneId) (q : W32) (s : State) (h : Fin 16),
      s.wordAt i 3 = some (w, l, q) → s.handleOf l q = some h → (s.shell i).slots[wNum w 40].frameAt ≠ some (wfld w 0 38, h) → (s.shell i).inbound.length < 8 → (wordStrokes i 1 s).1 = true → 
      ∃ t, exec (.ldrigWord i) s = .next t ∧ (t.shell i).pc = (s.shell i).pc + 1 ∧
        (t.shell i).slots = put (s.shell i).slots (wNum w 40) { frameAt := some (wfld w 0 38, h), frame := none, pending := true } ∧
        (t.shell i).inbound = (s.shell i).inbound ++ [{
          out := false, rig := some (wNum w 40), gl := {}, gr := {}, agr := 0, len := 64, landed := 0, lstep := 0, rstep := 0, tick := 15#4
          addTo := wordAddTo w, frameAt := wfld w 0 38 }] ∧ (t.shell i).strokes = (s.shell i).strokes + BitVec.ofNat 48 (1 - (s.shell i).done) ∧ t.tallies = s.tallies ∧ ShellOnly i s t) ∧
  (∀ (i : ShellId) (w : W64) (l : LaneId) (q : W32) (s : State) (h : Fin 16),
      s.wordAt i 3 = some (w, l, q) → s.handleOf l q = some h → (s.shell i).slots[wNum w 40].frameAt = some (wfld w 0 38, h) → (s.shell i).slots[wNum w 40].frame.isSome = true → (s.shell i).slots[wNum w 40].pending = false → (wordStrokes i 1 s).1 = true → 
      ∃ t, exec (.ldrigWord i) s = .next t ∧ (t.shell i).pc = (s.shell i).pc + 1 ∧ (t.shell i).slots = (s.shell i).slots ∧
        (t.shell i).inbound = (s.shell i).inbound ∧ ShellOnly i s t ∧ WordAdds l w s t) ∧
  (∀ (i : ShellId) (w : W64) (l : LaneId) (q : W32) (s : State),
      s.wordAt i 3 = some (w, l, q) → 8 ≤ (s.shell i).inbound.length → ∀ h : Fin 16, (s.shell i).slots[wNum w 40].frameAt ≠ some (wfld w 0 38, h) → 
      exec (.ldrigWord i) s = .next s) ∧
  (∀ (i : ShellId) (d : Bool) (w : W64) (l : LaneId) (q : W32) (x : Transfer) (s : State),
      s.wordAt i 4 = some (w, l, q) → w.getLsbD 43 = d → (if d then (s.shell i).outbound else (s.shell i).inbound).length < 8 → ∀ y ∈ (s.shell i).streams, y.off = 0 → x = {
        out := d, rig := none, gl := (s.shell i).ag[wNum w 39], gr := (s.shell i).ag[wNum w 35], agr := wNum w 35, len := wfld w 15 20 + 1, landed := 0
        lstep := (s.shell i).ag[wNum w 39].step, rstep := (s.shell i).ag[wNum w 35].step, tick := BitVec.ofNat 4 (wfld w 11 4), addTo := wordAddTo w
        frameAt := 0, dec := if (s.shell i).ag[wNum w 35].inView (s.shell i).ag[wNum w 35].step then some s.mem.decNext else none } → (wordStrokes i 1 s).1 = true → 
      ∃ t, exec (.moveWord i) s = .next t ∧ (t.shell i).pc = (s.shell i).pc + 1 ∧
        (t.shell i).outbound = (s.shell i).outbound ++ (if d then [x] else []) ∧ (t.shell i).inbound = (s.shell i).inbound ++ (if d then [] else [x]) ∧
        (t.shell i).ag[wNum w 39].step = (s.shell i).ag[wNum w 39].step + wfld w 15 20 + 1 ∧
        (t.shell i).ag[wNum w 35].step = (s.shell i).ag[wNum w 35].step + wfld w 15 20 + 1 ∧ (t.shell i).strokes = (s.shell i).strokes + BitVec.ofNat 48 (1 - (s.shell i).done) ∧ t.tallies = s.tallies ∧ ShellOnly i s t) ∧
  (∀ (i : ShellId) (w : W64) (l : LaneId) (q : W32) (s : State),
      s.wordAt i 4 = some (w, l, q) → w.getLsbD 43 = false → 8 ≤ (s.shell i).inbound.length → 
      exec (.moveWord i) s = .next s) ∧
  (∀ (i : ShellId) (w : W64) (l : LaneId) (q : W32) (s : State),
      s.wordAt i 4 = some (w, l, q) → w.getLsbD 43 = true → 8 ≤ (s.shell i).outbound.length → 
      exec (.moveWord i) s = .next s)

/-- Cases of how transfers, rig frames, streamed feeds and decoders complete (R52, R55, R56, R67, R189, R247, R248). MOVE_LANDED
above the floor, of a direction's oldest transfer, no frame load, whose units are not locked, not held at an SRAM port and,
where decoded, have their decoder: where the next n units (or what is left) move without error, the transfer has landed so much
more and is gone when it is whole, its tally adds as TICK says, and SRAM, program counter, generators, DRAM, Boathouse and the
other shells are as the moved units leave them; one inbound unit read from the Course is put at its SRAM address. Below the
floor, with a locked unit or a held port it changes nothing. LDRIG_COMPLETE with a good CRC of a frame read without stall or
error, whose image, if any, was read and has its CRC: the load is gone, the slot holds the frame and is not pending unless
another load of it waits, the image is in the table store, the load's tally adds once, and SRAM, memory and the other shells are
as the reads leave them. STREAM_FETCH for a feed of the RUN at hand that streams, is below its 32 units ahead and needs more,
with its decoder where decoded and no stall, puts the unit read at the end of the feed's units; at 32 ahead it changes nothing.
DECODER_ASSIGN of the oldest request gives it a free decoder, which loads its table unless the table is in its cache; with none
free it changes nothing. DECODER_TABLE_LOADED puts the table into the cache, of which the last 16 entries stay, and ends the
loading. These forms answer a next state, with their own effect, where their clauses say: LDRIG_COMPLETE, MOVE_LANDED,
STREAM_FETCH, DECODER_ASSIGN, DECODER_TABLE_LOADED. -/
def Obligations.TransfersLand : Prop :=
  (∀ (i : ShellId) (d : Bool) (l : LaneId) (q : W32) (x : Transfer) (rest : List Transfer) (n : Nat) (s u : State),
      (s.shell i).running = some (l, q) → (if d then (s.shell i).outbound else (s.shell i).inbound) = x :: rest → x.rig = none → (x.dec.isSome && !s.decodes (DecReq.isMove x.dec)) = false → s.rail.floor = false → s.transferLocked x (Nat.min n (x.len - x.landed)) = false → s.portsHeld i x (Nat.min n (x.len - x.landed)) = false → moveUnits i l q x x.landed (Nat.min n (x.len - x.landed)) s = (true, u) → 
      ∃ t, exec (.moveLanded i d n) s = .next t ∧
        (t.shell i).outbound = (if d then (if x.landed + Nat.min n (x.len - x.landed) = x.len then rest
          else { x with landed := x.landed + Nat.min n (x.len - x.landed) } :: rest) else (u.shell i).outbound) ∧ (t.shell i).inbound = (if d then (u.shell i).inbound else (if x.landed + Nat.min n (x.len - x.landed) = x.len then rest
          else { x with landed := x.landed + Nat.min n (x.len - x.landed) } :: rest)) ∧
        (∀ k, t.tally k = u.tally k + (match x.addTo with | some (a, m) => if k = laneTally l a.toNat then w32 (m * tickAdds x.tick.toNat x.len x.landed (x.landed + Nat.min n (x.len - x.landed))) else 0#32 | none => 0#32)) ∧
        (t.shell i).sram = (u.shell i).sram ∧ (t.shell i).pc = (u.shell i).pc ∧ (t.shell i).ag = (u.shell i).ag ∧
        t.mem.dram = u.mem.dram ∧ t.mem.bh = u.mem.bh ∧ ∀ j, j ≠ i → t.shell j = u.shell j) ∧
  (∀ (i : ShellId) (l : LaneId) (q : W32) (x : Transfer) (rest : List Transfer) (b : List Byte) (s u : State),
      (s.shell i).running = some (l, q) → (s.shell i).inbound = x :: rest → x.rig = none → (x.dec.isSome && !s.decodes (DecReq.isMove x.dec)) = false → s.rail.floor = false → x.landed < x.len → x.gl.off = false → x.gl.course = false → x.gl.addr (x.lstep + x.landed) + 64 ≤ 0x80000 → s.transferLocked x 1 = false → s.portsHeld i x 1 = false → unitRead i l q x.gr (x.rstep + x.landed) s = (some b, u) → 
      ∃ t, exec (.moveLanded i false 1) s = .next t ∧ (t.shell i).sram = (u.shell i).sram.put (x.gl.addr (x.lstep + x.landed)) b ∧
        (t.shell i).inbound = (if x.landed + 1 = x.len then rest else { x with landed := x.landed + 1 } :: rest) ∧
        (∀ k, t.tally k = u.tally k + (match x.addTo with | some (a, m) => if k = laneTally l a.toNat then w32 (m * tickAdds x.tick.toNat x.len x.landed (x.landed + 1)) else 0#32 | none => 0#32)) ∧ t.mem.dram = u.mem.dram ∧ t.mem.bh = u.mem.bh) ∧
  (∀ (i : ShellId) (l : LaneId) (q : W32) (x : Transfer) (rest : List Transfer) (n : Nat) (s : State),
      (s.shell i).running = some (l, q) → (s.shell i).inbound = x :: rest → s.rail.floor = true ∨ s.transferLocked x (Nat.min n (x.len - x.landed)) = true ∨ s.portsHeld i x (Nat.min n (x.len - x.landed)) = true → 
      exec (.moveLanded i false n) s = .next s) ∧
  (∀ (i : ShellId) (k : Fin 16) (l : LaneId) (q : W32) (x : Transfer) (rest : List Transfer) (b im : List Byte) (s u v : State),
      (s.shell i).running = some (l, q) → (s.shell i).inbound = x :: rest → x.rig = some k → s.rail.floor = false → s.unitsStall x.frameAt 64 = false → heatUnits l q x.frameAt 64 s = (some b, u) → rigCrcOk b = true → ((parseRig b).writesTable && s.unitsStall (x.frameAt + 64) (imageUnits (parseRig b))) = false → imageFetch l q x.frameAt (parseRig b) u = (some im, v) → (!(parseRig b).writesTable || nAt im (64 * (imageUnits (parseRig b) - 1)) 4 == (crc32 (im.take (imageBytes (parseRig b)))).toNat) = true → 
      ∃ t, exec (.ldrigComplete i k true) s = .next t ∧ (t.shell i).inbound = rest ∧
        (t.shell i).slots[k] = (if (rest.any fun y => y.rig == some k) = true then (v.shell i).slots[k]
          else { frameAt := some (x.frameAt, (s.handleOf l q).getD 0), frame := some (parseRig b), pending := false }) ∧
        (t.shell i).table = (if (parseRig b).writesTable = true then ((v.shell i).writeImage (parseRig b) im).table else (v.shell i).table) ∧
        (∀ k, t.tally k = v.tally k + (match x.addTo with | some (a, m) => if k = laneTally l a.toNat then w32 (m * 1) else 0#32 | none => 0#32)) ∧ (t.shell i).sram = (v.shell i).sram ∧ t.mem = v.mem ∧ ∀ j, j ≠ i → t.shell j = v.shell j) ∧
  (∀ (i : ShellId) (ag : Fin 16) (w : W64) (l : LaneId) (q : W32) (f : RigFrame) (b : List Byte) (s u : State),
      s.wordAt i 1 = some (w, l, q) → (s.shell i).frame = some f → (runAgs w).contains ag = true → (s.shell i).ag[ag].streams = true → feedBytesIn f (runAgs w) ag ≠ 0 → ((s.shell i).stream ag).ahead.length < (((s.shell i).stream ag).off + Nat.min (s.shell i).done (runCount w) * feedBytesIn f (runAgs w) ag) / 64 + 32 → chains w f = true ∨ 64 * ((s.shell i).stream ag).ahead.length < ((s.shell i).stream ag).off + runCount w * feedBytesIn f (runAgs w) ag → (s.shell i).ag[ag].inView ((s.shell i).ag[ag].step + ((s.shell i).stream ag).ahead.length) = true → s.decodes (DecReq.isStream i ag) = true → s.rail.floor = false → s.courseStalls false (64 * (s.shell i).ag[ag].addr ((s.shell i).ag[ag].step + ((s.shell i).stream ag).ahead.length)) = false → unitRead i l q (s.shell i).ag[ag] ((s.shell i).ag[ag].step + ((s.shell i).stream ag).ahead.length) s = (some b, u) → 
      ∃ t, exec (.streamFetch i ag) s = .next t ∧ t = u.setShell i fun x => { x with
        streams := x.streams.filter (fun y => y.ag != ag) ++ [{ (s.shell i).stream ag with ahead := ((s.shell i).stream ag).ahead ++ [b] }] }) ∧
  (∀ (i : ShellId) (ag : Fin 16) (w : W64) (l : LaneId) (q : W32) (f : RigFrame) (s : State),
      s.wordAt i 1 = some (w, l, q) → (s.shell i).frame = some f → (((s.shell i).stream ag).off + Nat.min (s.shell i).done (runCount w) * feedBytesIn f (runAgs w) ag) / 64 + 32 ≤ ((s.shell i).stream ag).ahead.length → 
      exec (.streamFetch i ag) s = .next s) ∧
  (∀ (i : ShellId) (ag : Fin 16) (r : DecReq) (rest : List DecReq) (d : Fin 4) (s : State),
      s.mem.decQueue = r :: rest → r.shell = i → r.ag = ag → freeDecoder s = some d → 
      ∃ t, exec (.decoderAssign i ag) s = .next t ∧ t.mem.decQueue = rest ∧
        t.mem.decoder[d].busy = some { r with table := (streamTable i ag r s).1 } ∧
        t.mem.decoder[d].loading = !s.mem.decoder[d].cache.contains (r.handle, (streamTable i ag r s).1) ∧
        t.mem.decoder[d].cache = s.mem.decoder[d].cache ∧ (∀ e, e ≠ d → t.mem.decoder[e] = s.mem.decoder[e]) ∧ t.shells = s.shells ∧ t.tallies = s.tallies) ∧
  (∀ (i : ShellId) (ag : Fin 16) (s : State),
      freeDecoder s = none → 
      exec (.decoderAssign i ag) s = .next s) ∧
  (∀ (d : Fin 4) (r : DecReq) (s : State),
      s.mem.decoder[d].busy = some r → s.mem.decoder[d].loading = true → 
      exec (.decoderTableLoaded d) s = .next { s with mem := { s.mem with decoder := upd s.mem.decoder d fun x =>
        { x with loading := false, cache := (s.mem.decoder[d].cache ++ [(r.handle, r.table)]).drop (s.mem.decoder[d].cache.length + 1 - 16) } } })

/-- Cases of what RUN does to its shell (R43, R54, R55, R56, R57). RUN_WORD of a shell whose current slot holds a frame, in a
heat that runs. Without a clear, where the word's strokes pass without a halt, no feed is starved, the given items are the RUN's
whole work, every item is done without a failure and the drained accumulators are as the word asks: the shell goes to the next
word with no stroke of it counted; SRAM, table store, accumulators and group sums, DRAM and Boathouse are as the items left
them, the generators' fields but their steps too, and the word's add is made when AE is 1. With a clear and no items, where the
frame's cells need none: the accumulators and group sums are empty, the stroke counter has gone on by the strokes that were
left, COUNT plus, with DRAIN, the frame's drain, and SRAM, the other shells, DRAM and Boathouse stay. With a starved feed, or
items that are not the RUN's whole work, nothing changes. Where the shell halts at a stroke boundary before the last stroke,
only the strokes up to there are counted. How a RUN's work is given as items is the model's own (notes/assumptions/11). This
form answers a next state, with its own effect, where the clauses say: RUN. -/
def Obligations.RunDoesItsItems : Prop :=
  (∀ (i : ShellId) (w : W64) (l : LaneId) (q : W32) (f : RigFrame) (r : HeatRun) (items : List WorkItem) (x : Rx) (s u : State),
      s.wordAt i 1 = some (w, l, q) → (s.shell i).frame = some f → (s.lane l).run q = some r → w.getLsbD 3 = false → wordStrokes i ((s.shell i).wordLen w) s = (true, u) → (s.shell i).starvedAt w (runCount w) = false → workWhole (runEnv i l q w f r s) items = true → doWork (runEnv i l q w f r u) items { s := u, begun := r.begun } = x → x.bad = false → drained (runEnv i l q w f r u) x = true → 
      ∃ t, exec (.runWord i { items := items, fault := .fine }) s = .next t ∧
        (t.shell i).pc = (x.s.shell i).pc + 1 ∧ (t.shell i).done = 0 ∧
        (t.shell i).sram = (x.s.shell i).sram ∧
        (t.shell i).table = (x.s.shell i).table ∧
        (t.shell i).acc = (x.s.shell i).acc ∧ (t.shell i).g32 = (x.s.shell i).g32 ∧
        (∀ k : Fin 16, (t.shell i).ag[k] = { (x.s.shell i).ag[k] with step := (t.shell i).ag[k].step }) ∧
        t.mem.dram = x.s.mem.dram ∧ t.mem.bh = x.s.mem.bh ∧
        (∀ k, t.tally k = if wAE w = true ∧ k = laneTally l (wAtal w) then x.s.tally k + w32 (wAmt w) else x.s.tally k)) ∧
  (∀ (i : ShellId) (w : W64) (l : LaneId) (q : W32) (f : RigFrame) (r : HeatRun) (s : State),
      s.wordAt i 1 = some (w, l, q) → (s.shell i).frame = some f → (s.lane l).run q = some r → w.getLsbD 3 = true → (wordStrokes i ((s.shell i).wordLen w) s).1 = true → (s.shell i).starvedAt w (runCount w) = false → workWhole (runEnv i l q w f r s) [] = true → 
      ∃ t, exec (.runWord i {}) s = .next t ∧ (t.shell i).acc = [] ∧ (t.shell i).g32 = [] ∧ (t.shell i).pc = (s.shell i).pc + 1 ∧
        (t.shell i).sram = (s.shell i).sram ∧
        (t.shell i).strokes = (s.shell i).strokes + BitVec.ofNat 48 ((s.shell i).wordLen w - (s.shell i).done) ∧
        (w.getLsbD 2 = true → (s.shell i).wordLen w = wfld w 24 20 + 1 + f.drain.toNat) ∧ (w.getLsbD 2 = false → (s.shell i).wordLen w = wfld w 24 20 + 1) ∧
        (∀ j, j ≠ i → t.shell j = s.shell j) ∧ t.mem.dram = s.mem.dram ∧ t.mem.bh = s.mem.bh) ∧
  (∀ (i : ShellId) (w : W64) (l : LaneId) (q : W32) (f : RigFrame) (r : HeatRun) (wk : RunWork) (s u : State),
      s.wordAt i 1 = some (w, l, q) → (s.shell i).frame = some f → (s.lane l).run q = some r → wordStrokes i ((s.shell i).wordLen w) s = (true, u) → (s.shell i).starvedAt w (runCount w) = true ∨ workWhole (runEnv i l q w f r s) wk.items = false → 
      exec (.runWord i wk) s = .next s) ∧
  (∀ (i : ShellId) (w : W64) (l : LaneId) (q : W32) (f : RigFrame) (r : HeatRun) (wk : RunWork) (s u : State),
      s.wordAt i 1 = some (w, l, q) → (s.shell i).frame = some f → (s.lane l).run q = some r → wordStrokes i ((s.shell i).wordLen w) s = (false, u) → wk.fault = .fine → 
      exec (.runWord i wk) s = .next u)

/-- A crossing is a first-in, first-out channel with room for 4 words (R31). Where the domain's clock runs, a word sent into a
crossing that holds fewer than 4 words, in either direction, goes to its end; the oldest word of an inbound crossing is taken
out and delivered. An inbound crossing with 4 words takes none. Without the domain's clock nothing crosses. Nothing else
changes. The form that completes is CROSSING_TRANSFER. This form answers a next state, with its own effect, where the clauses
say: CROSSING_TRANSFER. -/
def Obligations.CrossingsAreFifos : Prop :=
  (∀ (c : Clk) (w : W64) (s : State),
      s.clk.absent.getLsbD c.val = false → s.clk.inbound[c].length < 4 → 
      exec (.crossingTransfer c true (some w)) s = .next { s with clk := { s.clk with inbound := put s.clk.inbound c (s.clk.inbound[c] ++ [w]) } }) ∧
  (∀ (c : Clk) (w : W64) (s : State),
      s.clk.absent.getLsbD c.val = false → s.clk.outbound[c].length < 4 → 
      exec (.crossingTransfer c false (some w)) s = .next { s with clk := { s.clk with outbound := put s.clk.outbound c (s.clk.outbound[c] ++ [w]) } }) ∧
  (∀ (c : Clk) (w : W64) (s : State),
      4 ≤ s.clk.inbound[c].length → 
      exec (.crossingTransfer c true (some w)) s = .next s) ∧
  (∀ (c : Clk) (w : W64) (r : List W64) (s : State),
      s.clk.absent.getLsbD c.val = false → s.clk.inbound[c] = w :: r → 
      exec (.crossingTransfer c true none) s = .next { s with clk := { s.clk with inbound := put s.clk.inbound c r, delivered := put s.clk.delivered c (some w) } }) ∧
  (∀ (c : Clk) (b : Bool) (w : Option W64) (s : State),
      s.clk.absent.getLsbD c.val = true → 
      exec (.crossingTransfer c b w) s = .next s)

/-- A round-robin arbiter serves a waiting request within its bound (R34, R35). Of the arbiters that serve in turn, and that
have granted before: of n inputs, an input that waits at each of n grants is served by one of them. The first grant of such an
arbiter goes to the first input given, if it waits, and is kept as the last and as the held one. This form answers a next state,
with its own effect, where the clauses say: ARBITER_GRANT. -/
def Obligations.ArbitersAreFair : Prop :=
  (∀ (a : Arbiter) (k : Nat) (ws : List (BitVec 24 × Fin 24)) (s : State),
      a.key.1 < 520 → k < a.key.2 → ws.length = a.key.2 → ((ws.all fun w => w.1.getLsbD k) = true) → (Tab.get? s.clk.arbLast a.key.1).isSome = true → 
      ∃ n, n < a.key.2 ∧ Tab.get? (execAll ((ws.take (n + 1)).map fun w => Instr.arbiterGrant a w.1 w.2) s).clk.arbLast a.key.1 = some k) ∧
  (∀ (a : Arbiter) (w : BitVec 24) (f : Fin 24) (s : State),
      a.key.1 < 520 → Tab.get? s.clk.arbLast a.key.1 = none → f.val < a.key.2 → w.getLsbD f.val = true → 
      exec (.arbiterGrant a w f) s = .next { s with clk := { s.clk with
        arbLast := Tab.set s.clk.arbLast a.key.1 f.val, arbHeld := Tab.set s.clk.arbHeld a.key.1 f.val } })

/-- Cases of what the loss and the return of a clock do (R32, R387, R304). CLOCK_LOST of a clock that is watched: of SLOW, LOST
and absent are set, its crossings are emptied, what stood outbound waits for the NOCLOCK replies, and one clock-lost record is
written, and nothing else changes; of REF, the timebase is DEGRADED, NOREF, LOST and absent are set, and DRAM, key slots, Eye
and rail stay; of EYECK, the Eye is not READY and has no frame, LOST and absent are set, and memory, rail, Ear and Sensing stay;
of AUDO with EYECK present, capture and playback stop, the Call line and the boot flash run from the EPLL, LOST and absent are
set, and memory, rail and Eye stay. CLOCK_LOST of a clock that is absent changes nothing. CLOCK_RETURN of SLOW clears its
absence and writes one clock-back record, and of SNS frees a frozen governor that is not fixed. PLL_RELOCK that fails counts a
try below the third; of the EPLL with fewer than 3 tries one that succeeds brings EYECK back with no tries counted and the Eye
not READY; the APLL's third failure fences the Ear's domain and takes it down. These forms answer a next state, with their own
effect, where their clauses say: CLOCK_LOST, CLOCK_RETURN, PLL_RELOCK. -/
def Obligations.ClocksAreLostAndReturn : Prop :=
  (∀ (s : State),
      clockWatched Clk.slow s = true → 
      ∃ t, exec (.clockLost Clk.slow) s = .next t ∧ t.clk = { s.clk with
          lost := s.clk.lost ||| 2#14, absent := s.clk.absent ||| 2#14, inbound := put s.clk.inbound Clk.slow [], outbound := put s.clk.outbound Clk.slow []
          noclock := put s.clk.noclock Clk.slow s.clk.outbound[Clk.slow] } ∧
        t.faults.logNum = s.faults.logNum + 1 ∧ (∃ r ∈ t.faults.log, r.kind = .clockLost ∧ r.unit = (UnitRef.clock Clk.slow).code ∧ r.cause = some .clockAbsent) ∧
        t = { s with clk := t.clk, faults := { s.faults with log := t.faults.log, logNum := t.faults.logNum } }) ∧
  (∀ (s : State),
      clockWatched Clk.ref s = true → 
      ∃ t, exec (.clockLost Clk.ref) s = .next t ∧ t.clk.degraded = true ∧ t.mem.noref = true ∧ t.clk.lost.getLsbD 0 = true ∧ t.clk.absent.getLsbD 0 = true ∧
        t.mem.dram = s.mem.dram ∧ t.mem.kslot = s.mem.kslot ∧ t.eye = s.eye ∧ t.rail = s.rail) ∧
  (∀ (s : State),
      clockWatched Clk.eyeck s = true → 
      ∃ t, exec (.clockLost Clk.eyeck) s = .next t ∧ t.eye.ready = false ∧ t.eye.frame = none ∧ t.clk.lost.getLsbD 10 = true ∧ t.clk.absent.getLsbD 10 = true ∧
        t.mem = s.mem ∧ t.rail = s.rail ∧ t.ear = s.ear ∧ t.sense = s.sense) ∧
  (∀ (s : State),
      clockWatched Clk.audo s = true → s.absent Clk.eyeck = false → 
      ∃ t, exec (.clockLost Clk.audo) s = .next t ∧ t.ear.run = false ∧ t.ear.audo.run = false ∧ t.clk.callClock = .epll ∧ t.clk.bootClock = .epll ∧
        t.clk.lost.getLsbD 11 = true ∧ t.clk.absent.getLsbD 11 = true ∧ t.mem = s.mem ∧ t.rail = s.rail ∧ t.eye = s.eye) ∧
  (∀ (c : Clk) (s : State),
      s.absent c = true → 
      exec (.clockLost c) s = .next s) ∧
  (∀ (s : State),
      s.absent Clk.slow = true → 
      ∃ t, exec (.clockReturn Clk.slow) s = .next t ∧ t.clk = { s.clk with absent := s.clk.absent &&& ~~~(2#14) } ∧
        t.faults.logNum = s.faults.logNum + 1 ∧ (∃ r ∈ t.faults.log, r.kind = .clockBack ∧ r.unit = (UnitRef.clock Clk.slow).code ∧ r.cause = some .clockAbsent) ∧
        t = { s with clk := t.clk, faults := { s.faults with log := t.faults.log, logNum := t.faults.logNum } }) ∧
  (∀ (s : State),
      s.absent Clk.sns = true → s.rail.gov = .frozen → bit s.rail.ctrl 31 = false → 
      ∃ t, exec (.clockReturn Clk.sns) s = .next t ∧ t.rail = { s.rail with gov := .auto } ∧ t.clk.absent = s.clk.absent &&& ~~~(0x2000#14) ∧ t.mem = s.mem ∧ t.sense = s.sense) ∧
  (∀ (p : Pll) (s : State),
      p.down s = true → s.clk.tries p < 2 → 
      exec (.pllRelock p false) s = .next { s with clk := s.clk.setTries (s.clk.tries p + 1) p }) ∧
  (∀ (s : State),
      s.absent Clk.eyeck = true → s.clk.tries .epll < 3 → 
      ∃ t, exec (.pllRelock .epll true) s = .next t ∧ t.absent Clk.eyeck = false ∧ t.clk.epllTries = 0 ∧ t.eye = { s.eye with ready := false } ∧ t.mem = s.mem) ∧
  (∀ (s : State),
      Pll.down .apll s = true → s.clk.apllTries = 2 → 
      ∃ t, exec (.pllRelock .apll false) s = .next t ∧ t.power.fenced.getLsbD Dom.ear.val = true ∧ t.power.up.getLsbD Dom.ear.val = false ∧ t.clk.apllTries = 3 ∧
        t.mem = s.mem ∧ t.lanes = s.lanes)

/-- Cases of LANE STATE, OPEN, CLOSE and CLAIM (R209, R344, R345, R369). Of a call that is taken. LANE STATE replies with the
lane's state, owner, priority, numbers, counts and flags and changes nothing else. LANE OPEN of a free lane but L0 opens it for
the caller at the number given or 1 and the priority given or kept, with the record in force before kept, and leaves other
lanes, shells, memory and bundles; of a lane that is not free it fails with E.STATE, but of an ORPHANED lane from the host, and
of L0, with E.LANE. LANE CLOSE of the caller's lane, not L0 and not in SCRUB, without accepted or held heats frees it; with some
it fails with E.BUSY. LANE CLOSE discard of an ORPHANED lane but L0 frees it, passes over its heats and replies with both
counts; of a lane that is not ORPHANED it fails with E.STATE. LANE CLAIM of an ORPHANED lane but L0 gives it to the caller,
opened, with its numbers, heats and journal, and leaves the other lanes, shells and memory. These forms answer a next state,
with their own effect, where their clauses say: LANE_OPEN, LANE_CLOSE, LANE_CLOSE_DISCARD, LANE_CLAIM, LANE_STATE. -/
def Obligations.LanesOpenAndClose : Prop :=
  (∀ (c : Caller) (l : LaneId) (s : State),
      Takes c s → 
      ∃ t, exec (.laneState c l) s = .next t ∧ t.quiet = s.quiet ∧ Replied c (okLine c "LANE" [laneF l, symF "state" (s.lane l).st.text, ("owner", ownerText (s.lane l).owner),
          decF "prio" (s.lane l).prio.toNat, decF "next" (s.lane l).next.toNat, decF "oldest" (s.lane l).oldest.toNat,
          decF "accepted" (s.lane l).runs.length, decF "running" (s.lane l).running, decF "held" (s.lane l).heldSeqs.length,
          ("flags", .syms (laneFlags l s))]) t) ∧
  (∀ (c : Caller) (l : LaneId) (q : Option W32) (p : Option (BitVec 2)) (s : State),
      Takes c s → l ≠ 0 → (s.lane l).st = .free → 
      ∃ t, exec (.laneOpen c l q p) s = .next t ∧
        t.lane l = { s.lane l with
          st := .opened, owner := c.path.owner, next := q.getD 1#32, oldest := q.getD 1#32, shown := q.getD 1#32, first := q.getD 1#32, hc := 0#32
          prio := p.getD (s.lane l).prio, prev := some (s.lane l).record } ∧
        (∀ k, k ≠ l → t.lane k = s.lane k) ∧ t.shells = s.shells ∧ t.mem = s.mem ∧ t.bundles = s.bundles ∧
        Replied c (okLine c "LANE" [laneF l, bareF "OPEN", ("owner", ownerText c.path.owner), decF "next" (q.getD 1#32).toNat]) t) ∧
  (∀ (c : Caller) (l : LaneId) (q : Option W32) (p : Option (BitVec 2)) (s : State),
      Takes c s → l ≠ 0 → (s.lane l).st ≠ .free → ¬((s.lane l).st = .orphaned ∧ c.path = .host) → 
      ∃ t, exec (.laneOpen c l q p) s = .next t ∧ t.quiet = s.quiet ∧ Replied c ⟨.fail, "LANE", c.tag, [bareF "E.STATE"]⟩ t) ∧
  (∀ (c : Caller) (l : LaneId) (q : Option W32) (p : Option (BitVec 2)) (s : State),
      Takes c s → (s.lane l).st = .orphaned → c.path = .host → 
      ∃ t, exec (.laneOpen c l q p) s = .next t ∧ t.quiet = s.quiet ∧ Replied c ⟨.fail, "LANE", c.tag, [bareF "E.LANE"]⟩ t) ∧
  (∀ (c : Caller) (q : Option W32) (p : Option (BitVec 2)) (s : State),
      Takes c s → 
      ∃ t, exec (.laneOpen c 0 q p) s = .next t ∧ t.quiet = s.quiet ∧ Replied c ⟨.fail, "LANE", c.tag, [bareF "E.LANE"]⟩ t) ∧
  (∀ (c : Caller) (l : LaneId) (s : State),
      Takes c s → l ≠ 0 → (s.lane l).st ≠ .scrub → (s.lane l).owner = c.path.owner → (s.lane l).next = (s.lane l).oldest → 
      ∃ t, exec (.laneClose c l) s = .next t ∧
        t.lane l = { s.lane l with st := .free, owner := .nobody, runs := [], commits := [], recovering := false, prev := some (s.lane l).record } ∧
        (∀ k, k ≠ l → t.lane k = s.lane k) ∧ t.shells = s.shells ∧ t.mem = s.mem ∧ t.bundles = s.bundles ∧
        Replied c (okLine c "LANE" [laneF l, bareF "CLOSE"]) t) ∧
  (∀ (c : Caller) (l : LaneId) (s : State),
      Takes c s → l ≠ 0 → (s.lane l).st ≠ .scrub → (s.lane l).owner = c.path.owner → (s.lane l).next ≠ (s.lane l).oldest → 
      ∃ t, exec (.laneClose c l) s = .next t ∧ t.quiet = s.quiet ∧ Replied c ⟨.fail, "LANE", c.tag, [bareF "E.BUSY"]⟩ t) ∧
  (∀ (c : Caller) (l : LaneId) (s : State),
      Takes c s → l ≠ 0 → (s.lane l).st = .orphaned → 
      ∃ t, exec (.laneCloseDiscard c l) s = .next t ∧ (t.lane l).st = .free ∧ (t.lane l).owner = .nobody ∧ (t.lane l).runs = [] ∧
        (t.lane l).next = (s.lane l).next ∧ (t.lane l).oldest = (s.lane l).next ∧ (∀ k, k ≠ l → t.lane k = s.lane k) ∧
        Replied c (okLine c "LANE" [laneF l, bareF "CLOSE", decF "discarded" (s.lane l).runs.length,
          decF "released" ((s.lane l).runs.length + (s.lane l).heldSeqs.length)]) t) ∧
  (∀ (c : Caller) (l : LaneId) (s : State),
      Takes c s → (s.lane l).st ≠ .orphaned → 
      ∃ t, exec (.laneCloseDiscard c l) s = .next t ∧ t.quiet = s.quiet ∧ Replied c ⟨.fail, "LANE", c.tag, [bareF "E.STATE"]⟩ t) ∧
  (∀ (c : Caller) (l : LaneId) (s : State),
      Takes c s → l ≠ 0 → (s.lane l).st = .orphaned → 
      ∃ t, exec (.laneClaim c l) s = .next t ∧ (t.lane l).st = .opened ∧ (t.lane l).owner = c.path.owner ∧ (t.lane l).next = (s.lane l).next ∧ (t.lane l).oldest = (s.lane l).oldest ∧
        (t.lane l).runs = (s.lane l).runs ∧ (t.lane l).journal = (s.lane l).journal ∧ (t.lane l).prev = some (s.lane l).record ∧
        (∀ k, k ≠ l → t.lane k = s.lane k) ∧ t.shells = s.shells ∧ t.mem = s.mem ∧
        Replied c (okLine c "LANE" [laneF l, bareF "CLAIM", decF "next" (s.lane l).next.toNat, decF "held" (s.lane l).heldSeqs.length]) t)

/-- Cases of HEAT, TAKE, WAIT and the end of a WAIT (R211, R213, R224, R230, R345). Of a call that is taken. HEAT for the
caller's open lane, not recovering, with the next number (or none, from the Call line in TEXT mode), whose checks pass: the
lane's next number goes up by 1, the heat waits at the end of its runs, its block holds the ACCEPT record with source, bundle,
entry, arguments, tag and time and no RETIRE record, other lanes, shells, memory and tallies stay, and the reply is ACCEPTED.
With the lane recovering it fails with E.BUSY; for another's lane, not in SCRUB, with E.LANE. For the caller's lane, not in
SCRUB: TAKE of a held heat whose records stand replies with its completion and releases the numbers up to it; with none held it
fails with E.STATE. WAIT of a heat whose RETIRE record stands replies RETIRED with its status; of a number that has no block and
is not overwritten it fails with E.RANGE; of an accepted one that has not retired, from the Call line, it waits and replies
nothing. WAIT_TIMEOUT of a WAIT of the Call line ends it with E.BUSY timeout and leaves lanes and memory. These forms answer a
next state, with their own effect, where their clauses say: HEAT, TAKE, WAIT, WAIT_TIMEOUT. -/
def Obligations.HeatsAreSubmittedAndTaken : Prop :=
  (∀ (c : Caller) (l : LaneId) (sq : Option W32) (h e : Nat) (a : List HeatArg) (k : Fin 16) (x : Entry) (s : State),
      Takes c s → sq = some (s.lane l).next ∨ (sq = none ∧ c.path = .call ∧ s.call.terse = false) → (s.lane l).st = .opened → (s.lane l).owner = c.path.owner → (s.lane l).recovering = false → (heatChecks l h e a s).toOption = some (k, x) → 
      ∃ t, exec (.heat c l sq h e a) s = .next t ∧ (t.lane l).next = (s.lane l).next + 1#32 ∧
        (t.lane l).oldest = (s.lane l).oldest ∧ (∃ r, (t.lane l).runs.getLast? = some r ∧ r.seq = (s.lane l).next ∧ r.st = .waiting ∧ r.started = false) ∧ (t.lane l).runs.dropLast = (s.lane l).runs ∧
        (∃ b, (t.lane l).acceptOf (s.lane l).next = some b ∧ b.source = c.path.src ∧ b.handle = k ∧ b.entry = x.number ∧ b.args = a ∧
          b.tag = (c.tag.getD []).take 16 ∧ b.tAcc = s.clk.tick) ∧ (t.lane l).retireOf (s.lane l).next = none ∧
        (∀ k, k ≠ l → t.lane k = s.lane k) ∧ t.shells = s.shells ∧ t.mem = s.mem ∧ t.tallies = s.tallies ∧
        Replied c (okLine c "HEAT" [laneF l, ("", .dec (s.lane l).next.toNat), bareF "ACCEPTED"]) t) ∧
  (∀ (c : Caller) (l : LaneId) (q : W32) (h e : Nat) (a : List HeatArg) (s : State),
      Takes c s → (s.lane l).recovering = true → 
      ∃ t, exec (.heat c l (some q) h e a) s = .next t ∧ t.quiet = s.quiet ∧ Replied c ⟨.fail, "HEAT", c.tag, [bareF "E.BUSY"]⟩ t) ∧
  (∀ (c : Caller) (l : LaneId) (q : W32) (h e : Nat) (a : List HeatArg) (s : State),
      Takes c s → (s.lane l).recovering = false → (s.lane l).st ≠ .scrub → (s.lane l).owner ≠ c.path.owner → 
      ∃ t, exec (.heat c l (some q) h e a) s = .next t ∧ t.quiet = s.quiet ∧ Replied c ⟨.fail, "HEAT", c.tag, [bareF "E.LANE"]⟩ t) ∧
  (∀ (c : Caller) (l : LaneId) (q : W32) (a : AcceptRec) (st : StatsRec) (r : RetireRec) (s : State),
      Takes c s → (s.lane l).st ≠ .scrub → (s.lane l).owner = c.path.owner → (s.lane l).heldSeqs.contains q = true → (s.lane l).completion q = some (a, st, r) → 
      ∃ t, exec (.take c l (some q)) s = .next t ∧ t.quiet = (s.setLane l fun L => { L with oldest := q + 1#32, prev := some L.record }).quiet ∧
        Replied c (okLine c "TAKE" ([laneF l, ("", .dec q.toNat)] ++ completionFields a st r)) t) ∧
  (∀ (c : Caller) (l : LaneId) (q : Option W32) (s : State),
      Takes c s → (s.lane l).st ≠ .scrub → (s.lane l).owner = c.path.owner → (s.lane l).heldSeqs = [] → 
      ∃ t, exec (.take c l q) s = .next t ∧ t.quiet = s.quiet ∧ Replied c ⟨.fail, "TAKE", c.tag, [bareF "E.STATE"]⟩ t) ∧
  (∀ (c : Caller) (l : LaneId) (q : W32) (ms : Nat) (a : AcceptRec) (r : RetireRec) (s : State),
      Takes c s → (s.lane l).st ≠ .scrub → (s.lane l).owner = c.path.owner → (s.lane l).acceptOf q = some a → (s.lane l).retireOf q = some r → 
      ∃ t, exec (.wait c l (some q) ms) s = .next t ∧ t.quiet = s.quiet ∧
        Replied c (okLine c "WAIT" [laneF l, ("", .dec q.toNat), bareF "RETIRED", symF "status" r.status.text]) t) ∧
  (∀ (c : Caller) (l : LaneId) (q : W32) (ms : Nat) (s : State),
      Takes c s → (s.lane l).st ≠ .scrub → (s.lane l).owner = c.path.owner → (s.lane l).block q = none → (s.lane l).overwritten q = false → 
      ∃ t, exec (.wait c l (some q) ms) s = .next t ∧ t.quiet = s.quiet ∧ Replied c ⟨.fail, "WAIT", c.tag, [bareF "E.RANGE"]⟩ t) ∧
  (∀ (c : Caller) (l : LaneId) (q : W32) (ms : Nat) (a : AcceptRec) (s : State),
      Takes c s → c.path = .call → (s.lane l).st ≠ .scrub → (s.lane l).owner = .call → (s.lane l).acceptOf q = some a → (s.lane l).retireOf q = none → 
      exec (.wait c l (some q) ms) s = .next { s with call := { s.call with wait := some { lane := l, seq := q, caller := c }, running := some "WAIT" } }) ∧
  (∀ (w : WaitRec) (s : State),
      s.call.wait = some w → w.caller.path = .call → 
      ∃ t, exec (.waitTimeout Caller.line) s = .next t ∧ t.call.wait = none ∧ t.call.running = none ∧ t.lanes = s.lanes ∧ t.mem = s.mem ∧
        Replied w.caller ⟨.fail, "WAIT", w.caller.tag, [bareF "E.BUSY", bareF "timeout"]⟩ t)

/-- Cases of how a heat starts, passes segments, restarts, trips and retires (R216, R217, R218, R219, R220, R223, R61, R148,
R72). HEAT_START of an accepted heat that has not started, is ready, and is neither a training step that does not apply nor one
that updates an adapter: with a segment that can run and its shells free, the heat runs that segment with its variant and map
from the lane's spinner, the segment's shells run it from word 0, and no other shell nor memory changes; with no such segment it
ends with status NOSHELL. SEGMENT_START of a started heat does the same for its next segment. CHECK_POINT with every shell
ended: where no check point follows, the heat ends with its attempt's counts committed; where one follows without rule, span or
condition, whose first alternative is segment 7, the heat stands between segments with 7 next; nothing outside the lanes
changes. HEAT_RESTART of a started heat that has not failed drops its attempt and counts; below 7 restarts it waits with one
more, and at 7 it ends as FAULTED; its shells stop without transfers, and other lanes, DRAM and Boathouse stay. DEADLINE_TRIP of
a heat whose count runs: at the first trip, below 7 restarts, it restarts with one trip; at a later trip it ends with status
DEADLINE and its shells stop. HEAT_RETIRE of the oldest heat of a lane, ended, in a lane not recovering, not STALLED and not in
SCRUB (of L0, with HOLD set): its RETIRE record has status, restarts and time, it leaves the runs, its counts become the lane's
statistics, the window counts one retired heat, and other lanes and shells stay; of L0 with HOLD clear too the count goes up and
no other lane releases. These forms answer a next state, with their own effect, where their clauses say: SEGMENT_START,
CHECK_POINT, HEAT_START, HEAT_RESTART, DEADLINE_TRIP, HEAT_RETIRE. -/
def Obligations.HeatsRunTheirCourse : Prop :=
  (∀ (l : LaneId) (q : W32) (r : HeatRun) (a : AcceptRec) (e : Entry) (g : Segment) (v : Fin 3) (m : Vector (Option ShellId) 16) (s : State),
      (s.lane l).run q = some r → (s.lane l).acceptOf q = some a → s.entryOf l q = some e → r.started = false → heatReady l r s = true → noStep e a s = false → s.updates l q = none → nextSeg l r s = some (g, v, m) → shellsFree l r (segShells m g) s = true → 
      ∃ t, exec (.heatStart l q) s = .next t ∧ (∃ x, (t.lane l).run q = some x ∧ x.st = .segment ∧ x.started = true ∧ x.seg = g.number ∧ x.variant = v ∧ x.map = m ∧
          x.open_ = segShells m g ∧ x.spinKey = (s.lane l).spin ∧ x.restarts = r.restarts) ∧
        (∀ i ∈ segShells s.map g, (t.shell i).running = some (l, q) ∧ (t.shell i).ended = false ∧ (t.shell i).pc = 0) ∧
        (∀ k, (∀ i, i ∈ segShells s.map g → i ≠ k) → t.shell k = s.shell k) ∧ t.mem = s.mem) ∧
  (∀ (l : LaneId) (q : W32) (r : HeatRun) (a : AcceptRec) (e : Entry) (s : State),
      (s.lane l).run q = some r → (s.lane l).acceptOf q = some a → s.entryOf l q = some e → r.started = false → heatReady l r s = true → noStep e a s = false → s.updates l q = none → nextSeg l r s = none → 
      exec (.heatStart l q) s = .next (s.setRun l q fun r => { r with st := .ended, failed := some .noShell })) ∧
  (∀ (l : LaneId) (q : W32) (r : HeatRun) (a : AcceptRec) (e : Entry) (g : Segment) (v : Fin 3) (m : Vector (Option ShellId) 16) (s : State),
      (s.lane l).run q = some r → (s.lane l).acceptOf q = some a → s.entryOf l q = some e → r.started = true → nextSeg l r s = some (g, v, m) → shellsFree l r (segShells m g) s = true → 
      ∃ t, exec (.segmentStart l q) s = .next t ∧ (∃ x, (t.lane l).run q = some x ∧ x.st = .segment ∧ x.seg = g.number ∧ x.variant = v ∧ x.map = m ∧ x.open_ = segShells m g) ∧
        (∀ i ∈ segShells m g, (t.shell i).running = some (l, q) ∧ (t.shell i).ended = false ∧ (t.shell i).pc = 0) ∧
        (∀ k, (∀ i, i ∈ segShells m g → i ≠ k) → t.shell k = s.shell k) ∧ t.mem = s.mem ∧ t.tallies = s.tallies) ∧
  (∀ (l : LaneId) (q : W32) (r : HeatRun) (g : Segment) (s : State),
      (s.lane l).run q = some r → r.st = .segment → r.open_ = [] → (s.planOf l q).seg? r.seg = some g → g.next = none → 
      ∃ t, exec (.checkPoint l q) s = .next t ∧ (∃ x, (t.lane l).run q = some x ∧ x.st = .ended ∧ x.since = none ∧ x.attempt = [] ∧
          x.committed = r.attempt.foldl (fun (c : Counts) p => c.plus p.2) r.committed ∧ x.failed = r.failed ∧ x.restarts = r.restarts) ∧ t = { s with lanes := t.lanes }) ∧
  (∀ (l : LaneId) (q : W32) (r : HeatRun) (g : Segment) (c : Check) (s : State),
      (s.lane l).run q = some r → r.st = .segment → r.open_ = [] → (s.planOf l q).seg? r.seg = some g → g.next = some c.number → (s.planOf l q).checks.find? (fun x => x.number == c.number) = some c → c.span = none → c.rule = 0 → c.alts = [⟨some 7, 0, 65535⟩] → g.span = none → 
      ∃ t, exec (.checkPoint l q) s = .next t ∧ (∃ x, (t.lane l).run q = some x ∧ x.st = .between 7 ∧ x.since = none ∧ x.restarts = r.restarts) ∧ t = { s with lanes := t.lanes }) ∧
  (∀ (l : LaneId) (q : W32) (r : HeatRun) (s : State),
      (s.lane l).run q = some r → r.started = true → r.failed = none → 
      ∃ t, exec (.heatRestart l q) s = .next t ∧ (∃ x, (t.lane l).run q = some x ∧ x.open_ = [] ∧ x.attempt = [] ∧ x.committed = {} ∧ x.runTicks = 0 ∧
          (r.restarts ≠ 7 → x.st = .waiting ∧ x.failed = none ∧ x.restarts = r.restarts + 1) ∧ (r.restarts = 7 → x.st = .ended ∧ x.failed = some .faulted)) ∧
        (∀ i, (s.shell i).running = some (l, q) → (t.shell i).running = none ∧ (t.shell i).ended = true ∧ (t.shell i).inbound = [] ∧ (t.shell i).outbound = []) ∧
        (∀ k, k ≠ l → t.lane k = s.lane k) ∧ t.mem.dram = s.mem.dram ∧ t.mem.bh = s.mem.bh) ∧
  (∀ (l : LaneId) (q : W32) (r : HeatRun) (e : Entry) (s : State),
      (s.lane l).run q = some r → s.entryOf l q = some e → r.since.isSome = true → r.st = .segment → r.trips ≠ 0 → 
      ∃ t, exec (.deadlineTrip l q) s = .next t ∧ (∃ x, (t.lane l).run q = some x ∧ x.st = .ended ∧ x.failed = some .deadline ∧ x.open_ = [] ∧ x.since = none) ∧
        (∀ i, (s.shell i).running = some (l, q) → (t.shell i).running = none ∧ (t.shell i).ended = true) ∧ t.mem.dram = s.mem.dram ∧ t.mem.bh = s.mem.bh) ∧
  (∀ (l : LaneId) (q : W32) (r : HeatRun) (e : Entry) (s : State),
      (s.lane l).run q = some r → s.entryOf l q = some e → r.since.isSome = true → r.st = .segment → r.trips = 0 → r.started = true → r.failed = none → r.restarts ≠ 7 → 
      ∃ t, exec (.deadlineTrip l q) s = .next t ∧ ∃ x, (t.lane l).run q = some x ∧ x.st = .waiting ∧ x.trips = 1 ∧ x.restarts = r.restarts + 1) ∧
  (∀ (l : LaneId) (q : W32) (r : HeatRun) (rest : List HeatRun) (seen : LookSeen) (a : AcceptRec) (s : State),
      (s.lane l).runs = r :: rest → r.seq = q → r.st = .ended → r.writeFailed = false → (s.lane l).recovering = false → (s.lane l).stalled = false → (s.lane l).st ≠ .scrub → (s.lane l).acceptOf q = some a → l = 0 → s.eye.hold = true → 
      ∃ t, exec (.heatRetire l q seen) s = .next t ∧ (∃ x, (t.lane l).retireOf q = some x ∧ x.status = r.failed.getD .ok ∧ x.restarts = r.restarts ∧ x.tRet = s.clk.tick) ∧
        (t.lane l).runs = rest.filter (fun x => x.seq != q) ∧ (t.lane l).lastRetired = q ∧ (t.lane l).hs.counts = r.committed ∧ (t.lane l).next = (s.lane l).next ∧
        (∀ k, k ≠ l → t.lane k = s.lane k) ∧ t.stat.dev.retired = s.stat.dev.retired + 1 ∧ t.shells = s.shells) ∧
  (∀ (q : W32) (r : HeatRun) (rest : List HeatRun) (seen : LookSeen) (s : State),
      (s.lane 0).runs = r :: rest → r.seq = q → r.st = .ended → r.writeFailed = false → (s.lane 0).recovering = false → (s.lane 0).stalled = false → (s.lane 0).st ≠ .scrub → 
      ∃ t, exec (.heatRetire 0 q seen) s = .next t ∧ t.stat.dev.retired = s.stat.dev.retired + 1 ∧ ∀ k, k ≠ 0 → (t.lane k).oldest = (s.lane k).oldest)

/-- Cases of SCRUB and of the ends of its steps (R433, R434, R435, R436, R176). SCRUB of the Call line's open lane but L0, from
the Call line: the lane is in SCRUB at step 1 without an owner, its mailbox memory is cleared, other lanes stay, the reply has
both counts, and the BEGIN line is sent. SCRUB_STEP_DONE: step 1 drops the lane's heats and releases all its numbers, and leaves
the other lanes' journals and next numbers; step 2 only goes on; step 3 (of L3 once no heat reads an adapter; before, it waits)
leaves no key slot in use for the lane and the other lanes' heats; step 4 zeroes the lane's exponents, tallies, and the SRAM,
table stores and scales of the shells that ran it last, and leaves the other shells, lanes and DRAM; step 5 leaves no valid
region of the lane that is not sealed, and Boathouse, shells and other lanes stay; step 6, after the banner, leaves the lane as
new with its default priority and empty statistics, changes no other lane, memory, shell or tally, and sends DONE. These forms
answer a next state, with their own effect, where their clauses say: SCRUB, SCRUB_STEP_DONE. -/
def Obligations.ScrubForgetsALane : Prop :=
  (∀ (c : Caller) (l : LaneId) (s : State),
      Takes c s → c.path = .call → l ≠ 0 → (s.lane l).st = .opened → (s.lane l).owner = .call → 
      ∃ t, exec (.scrub c l) s = .next t ∧ t.lane l = { s.lane l with st := .scrub, owner := .nobody, scrubStep := some 1 } ∧
        t.mem.bh = s.mem.bh.clear (mailboxBase + 0x1C000 * l.val) 0x1C000 ∧ (∀ k, k ≠ l → t.lane k = s.lane k) ∧
        Replied c (okLine c "SCRUB" [laneF l, decF "discarded" (s.lane l).runs.length, decF "released" ((s.lane l).runs.length + (s.lane l).heldSeqs.length)]) t ∧
        TxItem.line (.evt "SCRUB" [laneF l, bareF "BEGIN"]) ∈ t.call.tx) ∧
  (∀ (l : LaneId) (s : State),
      (s.lane l).scrubStep = some 1 → 
      ∃ t, exec (.scrubStepDone l) s = .next t ∧ (t.lane l).scrubStep = some 2 ∧ (t.lane l).runs = [] ∧ (t.lane l).oldest = (s.lane l).next ∧
        (t.lane l).next = (s.lane l).next ∧ ∀ k, k ≠ l → (t.lane k).journal = (s.lane k).journal ∧ (t.lane k).next = (s.lane k).next) ∧
  (∀ (l : LaneId) (s : State),
      (s.lane l).scrubStep = some 2 → 
      exec (.scrubStepDone l) s = .next (s.setLane l fun L => { L with scrubStep := some 3 })) ∧
  (∀ (l : LaneId) (s : State),
      (s.lane l).scrubStep = some 3 → l = 3 → adapterReaders s = false → 
      ∃ t, exec (.scrubStepDone l) s = .next t ∧ (t.lane l).scrubStep = some 4 ∧
        (∀ k : Fin 8, t.mem.kslot[k].use ≠ .lane l ∧ t.mem.kslot[k].use ≠ .laneTarget l) ∧ ∀ k, k ≠ l → (t.lane k).runs = (s.lane k).runs) ∧
  (∀ (s : State),
      (s.lane 3).scrubStep = some 3 → adapterReaders s = true → 
      exec (.scrubStepDone 3) s = .next s) ∧
  (∀ (l : LaneId) (s : State),
      (s.lane l).scrubStep = some 4 → 
      ∃ t, exec (.scrubStepDone l) s = .next t ∧ (t.lane l).scrubStep = some 5 ∧ (t.lane l).exps = [] ∧ (∀ k : Fin 256, t.tally (laneTally l k.val) = 0#32) ∧
        (∀ i, (s.shell i).lastLane = some l → (t.shell i).sram = [] ∧ (t.shell i).table = [] ∧ (t.shell i).scale = []) ∧
        (∀ i, (s.shell i).lastLane ≠ some l → t.shell i = s.shell i) ∧ (∀ k, k ≠ l → t.lane k = s.lane k) ∧ t.mem.dram = s.mem.dram) ∧
  (∀ (l : LaneId) (s : State),
      (s.lane l).scrubStep = some 5 → 
      ∃ t, exec (.scrubStepDone l) s = .next t ∧ (t.lane l).scrubStep = some 6 ∧ t.mem.bh = s.mem.bh ∧ t.shells = s.shells ∧
        (∀ r : Fin 32, t.mem.region[r].valid = true → t.mem.region[r].sealed = false → t.mem.region[r].lane ≠ l) ∧ ∀ k, k ≠ l → t.lane k = s.lane k) ∧
  (∀ (l : LaneId) (s : State),
      (s.lane l).scrubStep = some 6 → s.start.banner = true → 
      ∃ t, exec (.scrubStepDone l) s = .next t ∧ t.lane l = { prio := defaultPrio l } ∧ (∀ k, k ≠ l → t.lane k = s.lane k) ∧ t.stat.lane[l] = {} ∧
        t.mem = s.mem ∧ t.shells = s.shells ∧ t.tallies = s.tallies ∧ TxItem.line (.evt "SCRUB" [laneF l, bareF "DONE"]) ∈ t.call.tx)

/-- Cases of DRAM accesses, the patrol, page retirement and the host window (R241, R242, R243, R250, R251, R254). Of a unit
below the usable space whose page is not locked, with DRAM up. DRAM_ACCESS: a fine read of a unit that is not poisoned counts 64
bytes read; a corrected one counts a correction and remembers the site; an uncorrectable one outside a heat counts and poisons
the unit; a write stores the 64 bytes under the key in force and clears the poison; a heat's uncorrectable write marks its run
as failed. A unit beyond the usable space, or of a locked page, is not accessed, and a locked page's window access waits as
well. PATROL_READ, with DRAM up, goes on to the next unit, and counts and poisons an uncorrectable one. PAGE_RETIRE of a bad
page below the usable space, neither retiring nor locked by a rotation, begins while fewer than 256 are retired or retiring, and
otherwise raises MEM NOSPARE. PAGE_RETIRE_DONE retires the page, queues one repair record, logs one fault record and leaves
DRAM's data. HOST_WINDOW_ACCESS: a read of an open unit that is not poisoned, holds data under the key in force and is no open
output answers the data and counts a window access; a write of an open unit stores its bytes under that key; a read where the
window is not open answers zeros and counts a refusal. A read of WIN_REFUSED answers the count and clears it. Beside what is
named, memory, Boathouse and lanes stay, as each clause says. These forms answer a next state, with their own effect, where
their clauses say: DRAM_ACCESS, PATROL_READ, PAGE_RETIRE, PAGE_RETIRE_DONE, HOST_WINDOW_ACCESS, WIN_REFUSED_READ. -/
def Obligations.DramIsReadWrittenAndChecked : Prop :=
  (∀ (h : Option (LaneId × W32)) (u : BitVec 28) (s : State),
      s.dramUp = true → s.pageLocked u.toNat = false → u.toNat < s.mem.usable.toNat * 1024 → s.mem.poison.contains u.toNat = false → 
      ∃ t, exec (.dramAccess h u none .fine) s = .next t ∧ t.stat.dev.dramRd = s.stat.dev.dramRd + 1 ∧
        t = { s with power := t.power, stat := t.stat, free := t.free }) ∧
  (∀ (h : Option (LaneId × W32)) (u : BitVec 28) (s : State),
      s.dramUp = true → s.pageLocked u.toNat = false → u.toNat < s.mem.usable.toNat * 1024 → s.mem.poison.contains u.toNat = false → 
      ∃ t, exec (.dramAccess h u none .corrected) s = .next t ∧ t.mem.ce = satInc s.mem.ce ∧ t.mem.ceSites.contains u.toNat = true ∧
        t = { s with power := t.power, stat := t.stat, free := t.free, mem := { s.mem with ce := t.mem.ce, ceSites := t.mem.ceSites } }) ∧
  (∀ (u : BitVec 28) (s : State),
      s.dramUp = true → s.pageLocked u.toNat = false → u.toNat < s.mem.usable.toNat * 1024 → 
      ∃ t, exec (.dramAccess none u none .uncorrectable) s = .next t ∧ t.mem.ue = satInc s.mem.ue ∧ t.mem.poison.contains u.toNat = true ∧
        t = { s with power := t.power, stat := t.stat, mem := { s.mem with ue := t.mem.ue, poison := t.mem.poison } }) ∧
  (∀ (h : Option (LaneId × W32)) (u : BitVec 28) (b : List Byte) (k : Nat) (s : State),
      s.dramUp = true → s.pageLocked u.toNat = false → u.toNat < s.mem.usable.toNat * 1024 → s.keyOf (u.toNat / 1024) = some k → 
      ∃ t, exec (.dramAccess h u (some b) .fine) s = .next t ∧ t.mem.dram = s.mem.dram.put (64 * u.toNat) ((List.range 64).map fun k => b.getD k 0#8) ∧
        Tab.get? t.mem.unitKey u.toNat = some k ∧ t.mem.poison.contains u.toNat = false ∧
        t = { s with power := t.power, stat := t.stat, mem := { s.mem with dram := t.mem.dram, unitKey := t.mem.unitKey, poison := t.mem.poison } }) ∧
  (∀ (l : LaneId) (q : W32) (r : HeatRun) (u : BitVec 28) (b : List Byte) (s : State),
      s.dramUp = true → s.pageLocked u.toNat = false → u.toNat < s.mem.usable.toNat * 1024 → (s.lane l).run q = some r → 
      ∃ t, exec (.dramAccess (some (l, q)) u (some b) .uncorrectable) s = .next t ∧ ∃ x, (t.lane l).run q = some x ∧ x = { r with writeFailed := true }) ∧
  (∀ (h : Option (LaneId × W32)) (u : BitVec 28) (w : Option (List Byte)) (e : DramErr) (s : State),
      s.mem.usable.toNat * 1024 ≤ u.toNat → 
      exec (.dramAccess h u w e) s = .next s) ∧
  (∀ (h : Option (LaneId × W32)) (u : BitVec 28) (w : Option (List Byte)) (e : DramErr) (x : Option (List Byte)) (s : State),
      s.pageLocked u.toNat = true → 
      exec (.dramAccess h u w e) s = .next s ∧ exec (.hostWindowAccess u x) s = .next s) ∧
  (∀ (s : State),
      s.dramUp = true → s.mem.usable ≠ 0#18 → 
      exec (.patrolRead .fine) s = .next { s with mem := { s.mem with patrolNext := (s.mem.patrolNext + 1) % (s.mem.usable.toNat * 1024) } }) ∧
  (∀ (s : State),
      s.dramUp = true → s.mem.usable ≠ 0#18 → 
      ∃ t, exec (.patrolRead .uncorrectable) s = .next t ∧ t.mem.ue = satInc s.mem.ue ∧ t.mem.poison.contains s.mem.patrolNext = true ∧
        t = { s with mem := { s.mem with patrolNext := (s.mem.patrolNext + 1) % (s.mem.usable.toNat * 1024), ue := t.mem.ue, poison := t.mem.poison } }) ∧
  (∀ (p : BitVec 18) (s : State),
      p.toNat < s.mem.usable.toNat → s.pageBad p.toNat = true → s.mem.retiring.contains p.toNat = false → s.rotationLocks p.toNat = false → s.mem.retired.length + s.mem.retiring.length < 256 → 
      exec (.pageRetire p) s = .next { s with mem := { s.mem with retiring := s.mem.retiring ++ [p.toNat] } }) ∧
  (∀ (p : BitVec 18) (s : State),
      p.toNat < s.mem.usable.toNat → s.pageBad p.toNat = true → s.mem.retiring.contains p.toNat = false → s.rotationLocks p.toNat = false → 256 ≤ s.mem.retired.length + s.mem.retiring.length → 
      exec (.pageRetire p) s = .next (s.raise (.evt "MEM" [bareF "NOSPARE"]))) ∧
  (∀ (p : BitVec 18) (s : State),
      s.mem.retiring.contains p.toNat = true → 
      ∃ t, exec (.pageRetireDone p) s = .next t ∧ t.mem.retired = s.mem.retired ++ [p.toNat] ∧ t.mem.retiring.contains p.toNat = false ∧
        t.faults.repairQueue.length = s.faults.repairQueue.length + 1 ∧ t.faults.logNum = s.faults.logNum + 1 ∧ t.mem.dram = s.mem.dram ∧
        t = { s with mem := t.mem, faults := t.faults }) ∧
  (∀ (u : BitVec 28) (k : Nat) (s : State),
      s.dramUp = true → s.pageLocked u.toNat = false → u.toNat < s.mem.usable.toNat * 1024 → s.windowOpen u.toNat = true → s.mem.poison.contains u.toNat = false → s.keyOf (u.toNat / 1024) = some k → Tab.get? s.mem.unitKey u.toNat = some k → k ≠ 0 → s.outOpen (64 * u.toNat) (s.mem.dram.range (64 * u.toNat) 64).length = false → 
      ∃ t, exec (.hostWindowAccess u none) s = .next t ∧ t.host.answer = (0#8, leWords (s.mem.dram.range (64 * u.toNat) 64)) ∧
        t.stat.dev.win = s.stat.dev.win + 1 ∧ t.mem = s.mem ∧ t.lanes = s.lanes) ∧
  (∀ (u : BitVec 28) (b : List Byte) (k : Nat) (s : State),
      s.dramUp = true → s.pageLocked u.toNat = false → u.toNat < s.mem.usable.toNat * 1024 → s.windowOpen u.toNat = true → s.keyOf (u.toNat / 1024) = some k → 
      ∃ t, exec (.hostWindowAccess u (some b)) s = .next t ∧ t.mem.dram = s.mem.dram.put (64 * u.toNat) ((List.range 64).map fun k => b.getD k 0#8) ∧
        Tab.get? t.mem.unitKey u.toNat = some k ∧ t.mem.bh = s.mem.bh ∧ t.lanes = s.lanes) ∧
  (∀ (u : BitVec 28) (s : State),
      s.pageLocked u.toNat = false → s.windowOpen u.toNat = false → 
      exec (.hostWindowAccess u none) s = .next { s with
        mem := { s.mem with winRefused := satInc s.mem.winRefused }, host := { s.host with answer := (0#8, List.replicate 16 0#32) } }) ∧
  (∀ (s : State),
      exec (.winRefusedRead .host) s = .next { s with mem := { s.mem with winRefused := 0#32 }, host := { s.host with answer := (0#8, [s.mem.winRefused]) } })

/-- Cases of regions, partitions, retain marks, adapter grants and spinner seeds (R238, R239, R244, R164, R175, R453).
REGION_MAKE of a region that is not valid, by its lane's owner: one of a size that is not 0, inside the usable space and
overlapping no valid region becomes valid, neither sealed nor rotating, in its lane's key slot, with no error, and its blocks'
generation bits are cleared; another party's gives error 4, size 0 or beyond the usable space error 2, an overlap error 1. Of a
valid region it changes nothing. REGION_DELETE by the owner of a valid region, not sealed, in no use, with no sweep and no
sealed region: it is no longer valid, and DRAM, key slots and lanes stay; of one in use the error is 5. BH_PART_WRITE of either
half by the owner of a lane with no heat running and no live copy: the partition becomes the written half with the other kept,
less the banks that other lanes have, and retain marks of its banks go to the lane, and what no longer fits of an Eye copy or a
ring is off, where the lane keeps its engine's bank; where it would lose it, and of another's lane or with a heat running,
nothing changes. BH_RETAIN_WRITE by the owner of the bank's lane into a slot without a mark, of a bank that no valid mark names,
stores mark, bank and lane; of another's bank it does nothing. ADAPTER_GRANT_WRITE by L3's owner sets both grants, and by
another nothing. SPIN_LO_WRITE by the lane's owner changes no seed until the SPIN_HI_WRITE after it by the same path sets both
halves; SPIN_HI_WRITE without one sets the upper half; by another both do nothing. These forms answer a next state, with their
own effect, where their clauses say: REGION_MAKE, REGION_DELETE, BH_PART_WRITE, BH_RETAIN_WRITE, SPIN_LO_WRITE, SPIN_HI_WRITE,
ADAPTER_GRANT_WRITE. -/
def Obligations.RegionsAndPartitionsAreMade : Prop :=
  (∀ (p : Path) (r : Fin 32) (k : Fin 8) (s : State),
      s.mem.region[r].valid = false → s.ownsLane p s.mem.region[r].lane = true → s.mem.region[r].size ≠ 0#18 → s.mem.region[r].hi ≤ s.mem.usable.toNat → ∀ i : Fin 32, s.mem.region[i].valid = true → s.mem.region[i].hi ≤ s.mem.region[r].lo ∨ s.mem.region[r].hi ≤ s.mem.region[i].lo → laneSlot s s.mem.region[r].lane = some k → 
      ∃ t, exec (.regionMake p r) s = .next t ∧ t.mem.region = put s.mem.region r { s.mem.region[r] with
            valid := true, sealed := false, adapter := false, rotating := false, gen := false, err := 0#3, slot0 := k, slot1 := k, left := 0#18, homeAlive := true } ∧
        (∀ b ∈ t.mem.genBits, b < s.mem.region[r].lo ∨ s.mem.region[r].hi ≤ b) ∧ t = { s with mem := { s.mem with region := t.mem.region, genBits := t.mem.genBits } }) ∧
  (∀ (p : Path) (r : Fin 32) (s : State),
      s.mem.region[r].valid = false → s.ownsLane p s.mem.region[r].lane = false → 
      exec (.regionMake p r) s = .next (s.setRegion r fun g => { g with err := 4#3 })) ∧
  (∀ (p : Path) (r : Fin 32) (s : State),
      s.mem.region[r].valid = false → s.ownsLane p s.mem.region[r].lane = true → s.mem.region[r].size = 0#18 ∨ s.mem.usable.toNat < s.mem.region[r].hi → 
      exec (.regionMake p r) s = .next (s.setRegion r fun g => { g with err := 2#3 })) ∧
  (∀ (p : Path) (r i : Fin 32) (s : State),
      s.mem.region[r].valid = false → s.ownsLane p s.mem.region[r].lane = true → s.mem.region[r].size ≠ 0#18 → s.mem.region[r].hi ≤ s.mem.usable.toNat → s.mem.region[i].valid = true → s.mem.region[i].lo < s.mem.region[r].hi → s.mem.region[r].lo < s.mem.region[i].hi → 
      exec (.regionMake p r) s = .next (s.setRegion r fun g => { g with err := 1#3 })) ∧
  (∀ (p : Path) (r : Fin 32) (s : State),
      s.mem.region[r].valid = true → 
      exec (.regionMake p r) s = .next s) ∧
  (∀ (p : Path) (r : Fin 32) (s : State),
      s.mem.region[r].valid = true → s.mem.region[r].sealed = false → s.ownsLane p s.mem.region[r].lane = true → s.regionUsed s.mem.region[r] = false → s.mem.sweeps = [] → ∀ i : Fin 32, s.mem.region[i].sealed = false → 
      ∃ t, exec (.regionDelete p r) s = .next t ∧ t.mem.region = put s.mem.region r { s.mem.region[r] with
            valid := false, adapter := false, rotating := false, gen := false, err := 0#3, slot0 := 0, slot1 := 0, left := 0#18 } ∧
        t.mem.dram = s.mem.dram ∧ t.mem.kslot = s.mem.kslot ∧ t.mem.sweeps = [] ∧ t.lanes = s.lanes) ∧
  (∀ (p : Path) (r : Fin 32) (s : State),
      s.mem.region[r].valid = true → s.mem.region[r].sealed = false → s.ownsLane p s.mem.region[r].lane = true → s.regionUsed s.mem.region[r] = true → 
      exec (.regionDelete p r) s = .next (s.setRegion r fun g => { g with err := 5#3 })) ∧
  (∀ (p : Path) (l : LaneId) (v : W32) (new : W64) (s : State),
      s.ownsLane p l = true → (s.lane l).running = 0 → s.copyBanks = [] → new = (v.setWidth 64 ||| (s.mem.part[l] &&& 0xFFFFFFFF00000000#64)) &&& ~~~takenBanks s l → new &&& bankMask (engineBank s.mem.part[l]).toList = bankMask (engineBank s.mem.part[l]).toList → 
      exec (.bhPartWrite p l false v) s = .next (refit { s with mem := { s.mem with
          part := put s.mem.part l new, retain := s.mem.retain.map fun r => if new.getLsbD r.bank.toNat = true then { r with lane := l } else r } })) ∧
  (∀ (p : Path) (l : LaneId) (v : W32) (new : W64) (b : Fin 64) (s : State),
      s.ownsLane p l = true → (s.lane l).running = 0 → s.copyBanks = [] → new = (v.setWidth 64 ||| (s.mem.part[l] &&& 0xFFFFFFFF00000000#64)) &&& ~~~takenBanks s l → engineBank s.mem.part[l] = some b → new.getLsbD b.val = false → 
      exec (.bhPartWrite p l false v) s = .next s) ∧
  (∀ (p : Path) (l : LaneId) (v : W32) (new : W64) (s : State),
      s.ownsLane p l = true → (s.lane l).running = 0 → s.copyBanks = [] → new = (v.setWidth 64 <<< 32 ||| (s.mem.part[l] &&& 0xFFFFFFFF#64)) &&& ~~~takenBanks s l → new &&& bankMask (engineBank s.mem.part[l]).toList = bankMask (engineBank s.mem.part[l]).toList → 
      exec (.bhPartWrite p l true v) s = .next (refit { s with mem := { s.mem with
          part := put s.mem.part l new, retain := s.mem.retain.map fun r => if new.getLsbD r.bank.toNat = true then { r with lane := l } else r } })) ∧
  (∀ (p : Path) (l : LaneId) (v : W32) (new : W64) (b : Fin 64) (s : State),
      s.ownsLane p l = true → (s.lane l).running = 0 → s.copyBanks = [] → new = (v.setWidth 64 <<< 32 ||| (s.mem.part[l] &&& 0xFFFFFFFF#64)) &&& ~~~takenBanks s l → engineBank s.mem.part[l] = some b → new.getLsbD b.val = false → 
      exec (.bhPartWrite p l true v) s = .next s) ∧
  (∀ (p : Path) (l : LaneId) (hi : Bool) (v : W32) (s : State),
      s.ownsLane p l = false ∨ (s.lane l).running ≠ 0 → 
      exec (.bhPartWrite p l hi v) s = .next s) ∧
  (∀ (p : Path) (k : Fin 4) (l : LaneId) (v : W32) (s : State),
      s.bankLane (fld v 0 6) = some l → s.ownsLane p l = true → s.mem.retain[k].valid = false → ∀ i : Fin 4, s.mem.retain[i].valid = true → s.mem.retain[i].bank.toNat ≠ fld v 0 6 → 
      exec (.bhRetainWrite p k v) s = .next { s with mem := { s.mem with retain := put s.mem.retain k { lane := l, valid := bit v 7, bank := BitVec.ofNat 6 (fld v 0 6) } } }) ∧
  (∀ (p : Path) (k : Fin 4) (l : LaneId) (v : W32) (s : State),
      s.bankLane (fld v 0 6) = some l → s.ownsLane p l = false → 
      exec (.bhRetainWrite p k v) s = .next s) ∧
  (∀ (p : Path) (n : Fin 8) (v : W32) (s : State),
      s.ownsLane p 3 = true → 
      exec (.adapterGrantWrite p n v) s = .next (s.setAd n fun d => { d with l1 := bit v 1, l2 := bit v 2 })) ∧
  (∀ (p : Path) (n : Fin 8) (v : W32) (s : State),
      s.ownsLane p 3 = false → 
      exec (.adapterGrantWrite p n v) s = .next s) ∧
  (∀ (p : Path) (l : LaneId) (lo hi : W32) (s : State),
      s.ownsLane p l = true → 
      ∃ t, exec (.spinLoWrite p l lo) s = .next t ∧ (t.lane l).spin = (s.lane l).spin ∧
        ∃ u, (match exec (.spinHiWrite p l hi) t with | .next u => some u | _ => none) = some u ∧ (u.lane l).spin = hi ++ lo ∧
          u = s.setLane l fun L => { L with spin := hi ++ lo, spinHeld := L.spinHeld.filter fun h => h.1 != p }) ∧
  (∀ (p : Path) (l : LaneId) (v : W32) (s : State),
      s.ownsLane p l = true → ((s.lane l).spinHeld.find? fun h => h.1 == p) = none → 
      ∃ t, exec (.spinHiWrite p l v) s = .next t ∧ (t.lane l).spin = v ++ (s.lane l).spin.setWidth 32 ∧ (∀ k, k ≠ l → t.lane k = s.lane k) ∧ t = { s with lanes := t.lanes }) ∧
  (∀ (p : Path) (l : LaneId) (v : W32) (s : State),
      s.ownsLane p l = false → 
      exec (.spinLoWrite p l v) s = .next s ∧ exec (.spinHiWrite p l v) s = .next s)

/-- Cases of key rotations, their blocks and the AES known-answer tests (R253, R255, R256, R257, R351, R373). Of a call that is
taken, with no key operation or repair in progress, no sweep, entropy, and a free key slot. LANE KEY for the caller's lane, not
in SCRUB, with a key and a valid region of its own, and no sealed region: a sweep to a fresh key in the free slot begins, the
region is to be swept to it, DRAM, generation bits and journals stay, and the reply names the slot; KEY ROTATE PLAN with a plan
key and a valid sealed region does the same for the plan key. With a key operation or a repair in progress KEY ROTATE PLAN fails
with E.BUSY. ROTATION_BLOCK_START of a sweep at rest that waits for nothing, for the next block, not being retired: the block is
in its copy, begun at the time it has come to, not before ROT_PACE after the block before, and DRAM, key slots, regions and
lanes stay. ROTATION_COPY_DONE goes on to the rewrite. ROTATION_REWRITE_DONE of a lane's only sweep over one region, with no
sealed region: with two or more blocks left the block's generation bit flips, its units of the old key are under the new one,
and one block less is left; with one left the sweep ends, the old slot is free, the new one is the lane's and one key operation
less is in progress; DRAM's data stays. AES_KAT of an ACTIVE pipeline: a pass clears its failures; a failure that is its first,
or of the last ACTIVE one, is counted and logged; the second of another fences it, logs two records and puts its test in line.
These forms answer a next state, with their own effect, where their clauses say: ROTATION_BLOCK_START, ROTATION_COPY_DONE,
ROTATION_REWRITE_DONE, AES_KAT, LANE_KEY, KEY_ROTATE_PLAN. -/
def Obligations.KeysRotate : Prop :=
  (∀ (c : Caller) (l : LaneId) (old new : Fin 8) (i : Fin 32) (s : State),
      Takes c s → s.keys.keyop = 0 → s.keys.repair = 0 → s.mem.sweeps = [] → s.keys.noent = false → freeSlot s = some new → (s.lane l).st ≠ .scrub → (s.lane l).owner = c.path.owner → slotWith s (.lane l) = some old → slotWith s (.laneTarget l) = none → s.mem.region[i].valid = true → s.mem.region[i].lane = l → s.mem.region[i].size ≠ 0#18 → ∀ i : Fin 32, s.mem.region[i].sealed = false → 
      ∃ t, exec (.laneKey c l) s = .next t ∧ t.mem.sweeps = [{ kind := .lane l, old := old, new := new, region := none }] ∧
        t.mem.kslot = put s.mem.kslot new { use := .laneTarget l, key := s.keys.nextKey } ∧ t.mem.region[i] = s.mem.region[i].sweepTo new ∧
        t.keys.keyop = 1 ∧ t.keys.nextKey = s.keys.nextKey + 1 ∧ t.mem.dram = s.mem.dram ∧ t.mem.genBits = s.mem.genBits ∧ t.lanes.map (·.journal) = s.lanes.map (·.journal) ∧
        Replied c (okLine c "LANE" [laneF l, bareF "KEY", bareF "ROTATING", symF "slot" ("K" ++ toString new.val)]) t) ∧
  (∀ (c : Caller) (old new : Fin 8) (i : Fin 32) (s : State),
      Takes c s → s.keys.keyop = 0 → s.keys.repair = 0 → s.mem.sweeps = [] → s.keys.noent = false → freeSlot s = some new → slotWith s .plan = some old → slotWith s .planTarget = none → s.mem.region[i].valid = true → s.mem.region[i].sealed = true → s.mem.region[i].size ≠ 0#18 → 
      ∃ t, exec (.keyRotatePlan c) s = .next t ∧ t.mem.sweeps = [{ kind := .plan, old := old, new := new, region := none }] ∧
        t.mem.kslot = put s.mem.kslot new { use := .planTarget, key := s.keys.nextKey } ∧ t.mem.region[i] = s.mem.region[i].sweepTo new ∧
        t.keys.keyop = 1 ∧ t.keys.nextKey = s.keys.nextKey + 1 ∧ t.mem.dram = s.mem.dram ∧
        Replied c (okLine c "KEY" [bareF "PLAN", bareF "ROTATING", symF "slot" ("K" ++ toString new.val)]) t) ∧
  (∀ (c : Caller) (s : State),
      Takes c s → s.keys.keyop ≠ 0 ∨ s.keys.repair ≠ 0 → 
      ∃ t, exec (.keyRotatePlan c) s = .next t ∧ t.quiet = s.quiet ∧ Replied c ⟨.fail, "KEY", c.tag, [bareF "E.BUSY"]⟩ t) ∧
  (∀ (k : Fin 32) (w : Sweep) (i : Fin 32) (b : Nat) (s : State),
      s.mem.sweeps[k.val]? = some w → w.phase = .idle → sweepWaits s w = false → sweepNext s w = some (i, b) → s.mem.retiring.contains b = false → 
      ∃ t, exec (.rotationBlockStart k) s = .next t ∧
        t.mem.sweeps = (s.setSweep k.val fun w => { w with phase := .copy, block := b, started := some t.clk.tick }).mem.sweeps ∧
        t.clk.tick = s.clk.tick + (match w.started with | some a => BitVec.ofNat 64 (a.toNat + usTicks s.mem.rotPace.toNat - s.clk.tick.toNat) | none => 0#64) ∧
        t.mem.dram = s.mem.dram ∧ t.mem.kslot = s.mem.kslot ∧ t.mem.region = s.mem.region ∧ t.lanes = s.lanes) ∧
  (∀ (k : Fin 32) (w : Sweep) (s : State),
      s.mem.sweeps[k.val]? = some w → w.phase = .copy → 
      exec (.rotationCopyDone k) s = .next (s.setSweep k.val fun w => { w with phase := .rewrite })) ∧
  (∀ (n : LaneId) (w : Sweep) (i : Fin 32) (s : State),
      s.mem.sweeps = [w] → w.kind = .lane n → w.region = none → w.phase = .rewrite → sweepRegions s w = [i] → s.mem.region[i].covers w.block = true → 2 ≤ s.mem.region[i].left.toNat → ∀ i : Fin 32, s.mem.region[i].sealed = false → 
      ∃ t, exec (.rotationRewriteDone 0) s = .next t ∧ t.mem.sweeps = [{ w with phase := .idle }] ∧ t.mem.genBits = flipGen s.mem.genBits w.block ∧
        t.mem.region[i] = { s.mem.region[i] with left := s.mem.region[i].left - 1#18 } ∧ t.mem.dram = s.mem.dram ∧ t.mem.kslot = s.mem.kslot ∧
        t.mem.unitKey = s.mem.unitKey.map (fun p => if p.1 / 1024 = w.block ∧ p.2 = s.mem.kslot[s.mem.region[i].slot !s.mem.region[i].gen].key
          then (p.1, s.mem.kslot[s.mem.region[i].slot s.mem.region[i].gen].key) else p)) ∧
  (∀ (n : LaneId) (w : Sweep) (i : Fin 32) (s : State),
      s.mem.sweeps = [w] → w.kind = .lane n → w.region = none → w.phase = .rewrite → sweepRegions s w = [i] → s.mem.region[i].covers w.block = true → s.mem.region[i].left = 1#18 → w.old ≠ w.new → ∀ i : Fin 32, s.mem.region[i].sealed = false → s.start.banner = true → 
      ∃ t, exec (.rotationRewriteDone 0) s = .next t ∧ t.mem.sweeps = [] ∧ t.mem.kslot[w.old] = {} ∧ t.mem.kslot[w.new] = { s.mem.kslot[w.new] with use := .lane n } ∧
        t.mem.region[i] = { s.mem.region[i] with left := 0#18 : Region }.settled ∧ t.keys.keyop = s.keys.keyop - 1 ∧ t.mem.dram = s.mem.dram) ∧
  (∀ (p : Fin 3) (s : State),
      s.faults.aes[p] = .active → 
      exec (.aesKat p true) s = .next { s with faults := { s.faults with aesFails := put s.faults.aesFails p 0 } }) ∧
  (∀ (p : Fin 3) (s : State),
      s.faults.aes[p] = .active → s.faults.aesFails[p] = 0 ∨ (s.faults.aes.toList.filter fun x => x == .active).length < 2 → 
      ∃ t, exec (.aesKat p false) s = .next t ∧ t.faults.aes = s.faults.aes ∧ t.faults.aesFails = put s.faults.aesFails p (s.faults.aesFails[p] + 1) ∧
        t.faults.logNum = s.faults.logNum + 1 ∧ t = { s with faults := t.faults }) ∧
  (∀ (p : Fin 3) (s : State),
      s.faults.aes[p] = .active → s.faults.aesFails[p] = 1 → 2 ≤ (s.faults.aes.toList.filter fun x => x == .active).length → 
      ∃ t, exec (.aesKat p false) s = .next t ∧ t.faults.aes = put s.faults.aes p .fenced ∧ t.faults.logNum = s.faults.logNum + 2 ∧
        t.faults.testsDue = s.faults.testsDue ++ [(.aes p, s.clk.tick)] ∧ t = { s with faults := t.faults })

/-- Cases of KEY STATE, VK LOAD, VK REVOKE, the field lock and fuse burns (R425, R428, R429, R438, R462, R463, R347). Of a call
that is taken; for LOAD and REVOKE with no key operation or repair in progress, not confidential. KEY STATE replies with mode,
status and key words and changes nothing else. KEY VK LOAD from the Call line into a slot without a hash, with no burn in
progress, of a readable record that holds: the record is in the flash, its hash is being burnt, and the reply waits; of one that
does not hold it fails with E.KEY and changes neither flash nor fuses; into a slot with a hash it fails with E.FULL. KEY VK
REVOKE from the Call line of a usable key, not the last, with no burn in progress begins its burn, and journals and memory stay;
of a key not usable, or the last, it fails with E.KEY. Not confidential and not locked: FIELD_LOCK_ARM by the Call line or the
host with nothing armed arms the lock for that path at the tick, FIELD_LOCK_BURN by that path, with no burn in progress, begins
the burn; in confidential mode or of a locked part neither does anything, nor does a burn by another path. FIELD_LOCK_DISARM of
an armed lock comes not before 3,840,000 ticks after the arming and disarms it; memory and lanes stay. FUSE_BURN_DONE: the
burn's bits are burnt and loaded, every burnt bit stays, no other is burnt, the next burn in line begins, and memory stays; of
the lock's burn the part is locked. These forms answer a next state, with their own effect, where their clauses say: KEY_STATE,
KEY_VK_LOAD, KEY_VK_REVOKE, FIELD_LOCK_ARM, FIELD_LOCK_BURN, FIELD_LOCK_DISARM, FUSE_BURN_DONE. -/
def Obligations.KeysAndFusesAreBurnt : Prop :=
  (∀ (c : Caller) (s : State),
      Takes c s → 
      ∃ t, exec (.keyState c) s = .next t ∧ t.quiet = s.quiet ∧ Replied c (okLine c "KEY" [symF "mode" (if s.confidential then "CONFIDENTIAL" else "NORMAL"),
          ("status", hexReg (keyStatus s)), ("fw", hexReg (keyFw s)), ("vk", hexReg (keyVk s))]) t) ∧
  (∀ (c : Caller) (k : Fin 4) (a : Nat) (p : List Byte × State) (s : State),
      Takes c s → c.path = .call → s.keys.keyop = 0 → s.keys.repair = 0 → s.confidential = false → vkHash s.fuse.shadow k = 0 → s.fuse.burning = none → (attachment c.path.path a 160 s).toOption = some p → recOk p.2 k p.1 = true → 
      ∃ t, exec (.keyVkLoad c k a) s = .next t ∧ t.fuse.burning = some (.vkLoad k (BitVec.ofNat 256 (recHash p.1)) (some c)) ∧
        t.flash = p.2.flash.put (vkRecordAt k) p.1 ∧ t.keys.keyop = 1 ∧ t.call.running = some "KEY" ) ∧
  (∀ (c : Caller) (k : Fin 4) (a : Nat) (p : List Byte × State) (s : State),
      Takes c s → c.path = .call → s.keys.keyop = 0 → s.keys.repair = 0 → s.confidential = false → vkHash s.fuse.shadow k = 0 → s.fuse.burning = none → (attachment c.path.path a 160 s).toOption = some p → recOk p.2 k p.1 = false → 
      ∃ t, exec (.keyVkLoad c k a) s = .next t ∧ t.flash = s.flash ∧ t.fuse = s.fuse ∧ t.keys = s.keys ∧ Replied c ⟨.fail, "KEY", c.tag, [bareF "E.KEY"]⟩ t) ∧
  (∀ (c : Caller) (k : Fin 4) (a : Nat) (s : State),
      Takes c s → s.keys.keyop = 0 → s.keys.repair = 0 → s.confidential = false → vkHash s.fuse.shadow k ≠ 0 → 
      ∃ t, exec (.keyVkLoad c k a) s = .next t ∧ t.quiet = s.quiet ∧ Replied c ⟨.fail, "KEY", c.tag, [bareF "E.FULL"]⟩ t) ∧
  (∀ (c : Caller) (k : Fin 4) (s : State),
      Takes c s → c.path = .call → s.keys.keyop = 0 → s.keys.repair = 0 → s.confidential = false → s.fuse.burning = none → s.keys.vkUsable.getLsbD k.val = true → s.keys.vkUsable ≠ BitVec.ofNat 4 (2 ^ k.val) → 
      ∃ t, exec (.keyVkRevoke c k) s = .next t ∧ t.fuse = { s.fuse with burning := some (.vkRevoke k (some c)) } ∧ t.keys = { s.keys with keyop := 1 } ∧ t.call.running = some "KEY" ∧
        t.lanes.map (·.journal) = s.lanes.map (·.journal) ∧ t.mem = s.mem) ∧
  (∀ (c : Caller) (k : Fin 4) (s : State),
      Takes c s → s.keys.keyop = 0 → s.keys.repair = 0 → s.confidential = false → s.keys.vkUsable.getLsbD k.val = false ∨ s.keys.vkUsable = BitVec.ofNat 4 (2 ^ k.val) → 
      ∃ t, exec (.keyVkRevoke c k) s = .next t ∧ t.quiet = s.quiet ∧ Replied c ⟨.fail, "KEY", c.tag, [bareF "E.KEY"]⟩ t) ∧
  (∀ (p : Path) (s : State),
      p = .call ∨ p = .host → s.confidential = false → s.locked = false → s.armedBy = none → 
      exec (.fieldLockArm p) s = .next { s with fuse := { s.fuse with armed := some (p, s.clk.tick) } }) ∧
  (∀ (p : Path) (s : State),
      p = .call ∨ p = .host → s.confidential = false → s.locked = false → s.armedBy = some p → s.fuse.burning = none → 
      exec (.fieldLockBurn p) s = .next { s with fuse := { s.fuse with armed := none, burning := some .lock } }) ∧
  (∀ (p : Path) (s : State),
      s.confidential = true ∨ s.locked = true → 
      exec (.fieldLockArm p) s = .next s ∧ exec (.fieldLockBurn p) s = .next s) ∧
  (∀ (p q : Path) (s : State),
      s.armedBy = some q → q ≠ p → 
      exec (.fieldLockBurn p) s = .next s) ∧
  (∀ (p : Path) (a : W64) (s : State),
      s.fuse.armed = some (p, a) → 
      ∃ t, exec .fieldLockDisarm s = .next t ∧ t.fuse = { s.fuse with armed := none } ∧ t.armedBy = none ∧
        t.clk.tick = s.clk.tick + BitVec.ofNat 64 (a.toNat + 3840000 - s.clk.tick.toNat) ∧ t.mem = s.mem ∧ t.lanes = s.lanes) ∧
  (∀ (b : Burn) (s : State),
      s.fuse.burning = some b → 
      ∃ t, exec .fuseBurnDone s = .next t ∧ (∀ k ∈ b.bits, k ∈ t.fuse.otp ∧ k ∈ t.fuse.shadow) ∧ (∀ k ∈ s.fuse.otp, k ∈ t.fuse.otp) ∧
        (∀ k ∈ t.fuse.otp, k ∈ s.fuse.otp ∨ k ∈ b.bits) ∧ t.fuse.burning = s.fuse.queue.head? ∧ t.fuse.queue = s.fuse.queue.tail ∧ t.fuse.armed = s.fuse.armed ∧ t.mem = s.mem) ∧
  (∀ (s : State),
      s.fuse.burning = some .lock → 
      ∃ t, exec .fuseBurnDone s = .next t ∧ t.locked = true)

/-- Cases of triggers, exposures, illumination pulses, frames, HOLD and Lookout events (R260, R261, R262, R263, R264, R265,
R266, R273, R275, R277, R279). EYE_TRIGGER of the source that TRIGSRC names, at the oldest trigger time that waits: where
nothing refuses it, a frame with the next number and the settings in force is in its delay; where the Eye is not READY, where it
is READY with a frame in delay or exposure, and where no frame was ever triggered and the ring has no slot, the trigger is used
up and counted in NOTREADY, BUSY or NOSLOT. A SNAP asked for with TRIGSRC 10, where nothing refuses it, triggers a frame now. A
source that TRIGSRC does not name does nothing. SNAP by who may, with TRIGSRC 10, asks for one. EXPOSURE_START comes at the
trigger plus the delay, EXPOSURE_END, with no readout, at its end, and begins the readout. IR_PULSE_EDGE up, with illumination
on for the Eye and the frame, not cut and IR_PWM low, comes LEAD before the exposure but not before the trigger; the edge down
comes TAIL after the exposure; IR_LIMIT_CUT, where the limit comes before that, takes IR_PWM low at the limit, counts IRCUT and
cuts the frame's pulse. FRAME_COMPLETE with a free slot, no other input at its bank's port and no copy writes the header and the
pixels into the slot, counts the frame and leaves DRAM; without a slot it does nothing, and FRAME_ABANDONED then ends the
readout and counts OVERFLOW; with a slot that one does nothing. EYE_MISSED_READ clears the miss counts, answers them on the
host's path, and leaves memory. EYE_HOLD_WRITE by who may: a 1 sets HOLD, a 0 clears it where it is set, and Lookout starts
again with no presence. LOOKOUT_EVENT_DELIVER, after the banner with events on the Call line, CALL_TX empty, no lapse and L0's
events not on the host, puts the oldest Lookout event, not taken before, on CALL_TX. The triggers change the Eye only and let
time pass. These forms answer a next state, with their own effect, where their clauses say: EYE_TRIGGER, SNAP, FRAME_COMPLETE,
EYE_HOLD_WRITE, EYE_MISSED_READ, IR_PULSE_EDGE, EXPOSURE_START, EXPOSURE_END, IR_LIMIT_CUT, FRAME_ABANDONED,
LOOKOUT_EVENT_DELIVER. -/
def Obligations.EyeTakesFrames : Prop :=
  (∀ (n : Fin 8) (a : W64) (r : List W64) (s : State),
      s.eye.trigSrc.toNat = n.val + 1 → s.eye.arriving = a :: r → s.eye.refuses a = none → 
      ∃ t, exec (.eyeTrigger (.tmr n)) s = .next t ∧ t.eye = { s.eye with
          arriving := r, first := false, lastTrig := some a, nextFrame := s.eye.nextFrame + 1#32
          frame := some { number := s.eye.nextFrame, tTrig := a, mode := s.eye.mode, delay := s.eye.delay, expose := s.eye.expose
                          stage := .delay, first := s.eye.first, irOn := s.eye.irEn } } ∧
        t.clk.tick.toNat = Nat.max s.clk.tick.toNat a.toNat ∧ t = { s.timed t with eye := t.eye }) ∧
  (∀ (a : W64) (r : List W64) (s : State),
      s.eye.trigSrc = 9#4 → s.eye.arriving = a :: r → s.eye.refuses a = none → 
      ∃ t, exec (.eyeTrigger .trigIn) s = .next t ∧ t.eye.arriving = r ∧ (t.eye.frame.map Frame.tTrig) = some a ∧ t.eye.nextFrame = s.eye.nextFrame + 1#32 ∧
        t = { s.timed t with eye := t.eye }) ∧
  (∀ (s : State),
      s.eye.trigSrc = 10#4 → s.eye.snapReq = true → s.eye.refuses s.clk.tick = none → 
      ∃ t, exec (.eyeTrigger .snap) s = .next t ∧ t.eye.snapReq = false ∧ t.eye.frame.isSome = true ∧ t.eye.nextFrame = s.eye.nextFrame + 1#32 ∧ t = { s with eye := t.eye }) ∧
  (∀ (n : Fin 8) (a : W64) (r : List W64) (s : State),
      s.eye.trigSrc.toNat = n.val + 1 → s.eye.arriving = a :: r → s.eye.ready = false → 
      ∃ t, exec (.eyeTrigger (.tmr n)) s = .next t ∧ t.eye = { s.eye with arriving := r, missNotReady := sat4 s.eye.missNotReady } ∧
        t = { s.timed t with eye := t.eye }) ∧
  (∀ (n : Fin 8) (a : W64) (r : List W64) (f : Frame) (s : State),
      s.eye.trigSrc.toNat = n.val + 1 → s.eye.arriving = a :: r → s.eye.ready = true → s.eye.frame = some f → 
      ∃ t, exec (.eyeTrigger (.tmr n)) s = .next t ∧ t.eye = { s.eye with arriving := r, missBusy := sat8 s.eye.missBusy } ∧
        t = { s.timed t with eye := t.eye }) ∧
  (∀ (n : Fin 8) (a : W64) (r : List W64) (s : State),
      s.eye.trigSrc.toNat = n.val + 1 → s.eye.arriving = a :: r → s.eye.ready = true → s.eye.frame = none → s.eye.lastTrig = none → s.eye.reading = none → s.eye.ringSlots ≤ s.eye.ringHeld.length → 
      ∃ t, exec (.eyeTrigger (.tmr n)) s = .next t ∧ t.eye = { s.eye with arriving := r, missNoSlot := sat4 s.eye.missNoSlot } ∧
        t = { s.timed t with eye := t.eye }) ∧
  (∀ (src : TrigSrc) (s : State),
      s.eye.trigSrc.toNat ≠ src.code → 
      exec (.eyeTrigger src) s = .next s) ∧
  (∀ (p : Path) (s : State),
      s.eyeMay p = true → s.eye.trigSrc = 10#4 → 
      ∃ t, exec (.snap p) s = .next t ∧ t.eye = { s.eye with snapReq := true } ∧ t = { s with eye := t.eye, power := t.power }) ∧
  (∀ (f : Frame) (s : State),
      s.eye.frame = some f → f.stage = .delay → f.tTrig.toNat + f.delay.toNat < 2 ^ 64 → 
      ∃ t, exec .exposureStart s = .next t ∧ t.eye = { s.eye with frame := some { f with stage := .exposing } } ∧
        t.clk.tick.toNat = Nat.max s.clk.tick.toNat (f.tTrig.toNat + f.delay.toNat) ∧ t = { s.timed t with eye := t.eye }) ∧
  (∀ (f : Frame) (s : State),
      s.eye.frame = some f → f.stage = .exposing → s.eye.reading = none → f.tTrig.toNat + f.delay.toNat + f.expose.toNat < 2 ^ 64 → 
      ∃ t, exec .exposureEnd s = .next t ∧ t.eye = { s.eye with frame := none, reading := some { f with stage := .readout, ended := t.clk.tick } } ∧
        t.clk.tick.toNat = Nat.max s.clk.tick.toNat (f.tTrig.toNat + f.delay.toNat + f.expose.toNat) ∧ t = { s.timed t with eye := t.eye }) ∧
  (∀ (f : Frame) (s : State),
      s.eye.frame = some f → s.eye.irEn = true → f.irOn = true → f.irCut = false → s.eye.irHigh = false → 
      ∃ t, exec (.irPulseEdge true) s = .next t ∧ t.eye = { s.eye with irHigh := true, irRose := t.clk.tick } ∧
        (Nat.max f.tTrig.toNat (f.tTrig.toNat + f.delay.toNat - usTicks s.eye.irLead) < 2 ^ 64 →
          t.clk.tick.toNat = Nat.max s.clk.tick.toNat (Nat.max f.tTrig.toNat (f.tTrig.toNat + f.delay.toNat - usTicks s.eye.irLead))) ∧
        t = { s.timed t with eye := t.eye }) ∧
  (∀ (f : Frame) (s : State),
      s.eye.frame = some f → s.eye.irHigh = true → 
      ∃ t, exec (.irPulseEdge false) s = .next t ∧ t.eye.irHigh = false ∧
        (f.tTrig.toNat + f.delay.toNat + f.expose.toNat + usTicks s.eye.irTail < 2 ^ 64 →
          t.clk.tick.toNat = Nat.max s.clk.tick.toNat (f.tTrig.toNat + f.delay.toNat + f.expose.toNat + usTicks s.eye.irTail)) ∧
        t.eye = { s.eye with irHigh := false, irLog := t.eye.irLog } ∧ t = { s.timed t with eye := t.eye }) ∧
  (∀ (f : Frame) (s : State),
      s.eye.irHigh = true → s.eye.frame = some f → s.eye.irLimit < f.tTrig.toNat + f.delay.toNat + f.expose.toNat + usTicks s.eye.irTail → 
      ∃ t, exec .irLimitCut s = .next t ∧ t.eye = { s.eye with
          irHigh := false, missIrCut := sat8 s.eye.missIrCut, frame := some { f with irCut := true }, irLog := t.eye.irLog } ∧
        (s.eye.irLimit < 2 ^ 64 → t.clk.tick.toNat = Nat.max s.clk.tick.toNat s.eye.irLimit) ∧ t = { s.timed t with eye := t.eye }) ∧
  (∀ (raws : List (BitVec 12)) (f : Frame) (b : Fin 64) (s : State),
      s.eye.reading = some f → s.frameSlot = some b → s.arbBusy (bankPort b.val) 1 3 = false → s.eye.copyEn = false → 
      ∃ t, exec (.frameComplete raws) s = .next t ∧ t.eye.reading = none ∧ t.eye.frames = s.eye.frames + 1#32 ∧ t.eye.nextFrame = s.eye.nextFrame ∧
        t.mem.bh = (s.mem.bh.put (b.val * 0x80000 + 64) (pixelBytes s.eye (modePixels f.mode) raws)).put (b.val * 0x80000)
          (frameHeader s.eye s.clk.degraded f) ∧ t.mem.dram = s.mem.dram) ∧
  (∀ (raws : List (BitVec 12)) (s : State),
      s.frameSlot = none → 
      exec (.frameComplete raws) s = .next s) ∧
  (∀ (f : Frame) (s : State),
      s.eye.reading = some f → s.frameSlot = none → 
      exec .frameAbandoned s = .next { s with eye := { s.eye.endRead s.clk.tick with missOverflow := sat8 s.eye.missOverflow } }) ∧
  (∀ (b : Fin 64) (s : State),
      s.frameSlot = some b → 
      exec .frameAbandoned s = .next s) ∧
  (∀ (p : Path) (s : State),
      ∃ t, exec (.eyeMissedRead p) s = .next t ∧ t.eye = { s.eye with missIrCut := 0#8, missOverflow := 0#8, missNotReady := 0#4, missNoSlot := 0#4, missBusy := 0#8 } ∧
        (p = .host → t.host.answer = (0#8, [(readEyeMissed s).1])) ∧ t.mem = s.mem) ∧
  (∀ (p : Path) (v : W32) (s : State),
      s.eyeOpen p = true → bit v 0 = true → 
      ∃ t, exec (.eyeHoldWrite p v) s = .next t ∧ t.eye = { s.eye with hold := true } ∧ t = { s with eye := t.eye, power := t.power }) ∧
  (∀ (p : Path) (v : W32) (s : State),
      s.eyeOpen p = true → bit v 0 = false → s.eye.hold = true → 
      ∃ t, exec (.eyeHoldWrite p v) s = .next t ∧ t.eye.hold = false ∧ t.eye.lookout.presence = false ∧ t.eye.lookout.quiet = s.eye.onFrames ∧ t.mem = s.mem) ∧
  (∀ (ev : LookEvent) (rest : List LookEvent) (s : State),
      s.eye.lookout.buffer = ev :: rest → ev.takenCall = false → ∀ e ∈ rest, e.takenCall = false → s.start.banner = true → s.call.events = true → s.call.tx = [] → s.host.evctl.getLsbD 0 = false → s.host.leaseLapsed = false → 
      ∃ t, exec .lookoutEventDeliver s = .next t ∧ t.eye = { s.eye with lookout := { s.eye.lookout with buffer := rest } } ∧ TxItem.line (.evt ev.name ev.fields) ∈ t.call.tx ∧
        t = { s with eye := t.eye, call := t.call, host := t.host })

/-- Cases of the shadow and foreground calibration of the slices (R268, R269, R270, R271, R272, R278). With the Eye READY and a
spare: CAL_REFERENCE_DONE keeps the fit of the sums and goes to the shadow; CAL_SHADOW_DONE of a fit that holds with a skew in
its range is a pass, with the slice's failures cleared and its number in the order of passes; one that fails with at most 1
failure before counts it and begins again; the third failure of a bad fit retires and fences the slice and no other slice
changes. SLICE_SWAP of a pass with no readout: the spare takes the oldest slice's place with its coefficients, that slice is the
spare, CALGEN goes up by 1 and a cycle begins. FOREGROUND_CAL, READY without a spare or readout, with a gap that fits, the
domain not fenced, and no slice that fails for the third time: it comes not before 420 µs after the last readout's end, sets the
coefficients of the active slices whose fit holds, counts a failure of the others, clears STALE and keeps CALGEN and every slice
not active. STALECAL_TIMEOUT, READY without a spare, comes STALE x 100 ms after the last calibration and sets STALE. EYE_READY
with the domain up and not fenced, EYECK present and every fit good: READY, FIRST, frame number 0, not stale, HOLD as before.
Outside the Eye nothing changes but, where stated, the passing of time. These forms answer a next state, with their own effect,
where their clauses say: CAL_REFERENCE_DONE, CAL_SHADOW_DONE, FOREGROUND_CAL, EYE_READY, SLICE_SWAP, STALECAL_TIMEOUT. -/
def Obligations.SlicesAreCalibrated : Prop :=
  (∀ (sums : List Nat) (k : Fin 9) (s : State),
      s.eye.ready = true → s.eye.spare = some k → s.eye.cal.stage = .reference → 
      exec (.calReferenceDone sums) s = .next { s with eye := { s.eye with cal := { s.eye.cal with
        stage := .shadow, offset := BitVec.ofInt 12 (fit sums).1, gain := BitVec.ofInt 14 (fit sums).2.1, bad := !fitOk (fit sums) } } }) ∧
  (∀ (skew : Int) (d : Bool) (k : Fin 9) (s : State),
      s.eye.ready = true → s.eye.spare = some k → s.eye.cal.stage = .shadow → s.eye.cal.bad = false → -128 ≤ skew → skew ≤ 127 → 
      ∃ t, exec (.calShadowDone skew d) s = .next t ∧ t.eye.slice = put s.eye.slice k { s.eye.slice[k] with fails := 0, lastGen := s.eye.calGen, calNo := s.eye.calCount + 1 } ∧
        t.eye.cal = { s.eye.cal with stage := .passed, skew := BitVec.ofInt 8 skew, urgent := d } ∧ t.eye.calCount = s.eye.calCount + 1 ∧ t.eye.calTick = s.clk.tick ∧ t.eye.sliceMap = s.eye.sliceMap ∧ t = { s with eye := t.eye }) ∧
  (∀ (skew : Int) (d : Bool) (k : Fin 9) (s : State),
      s.eye.ready = true → s.eye.spare = some k → s.eye.cal.stage = .shadow → s.eye.cal.bad = true ∨ skew < -128 ∨ 127 < skew → s.eye.slice[k].fails ≤ 1 → 
      ∃ t, exec (.calShadowDone skew d) s = .next t ∧ t.eye.slice = put s.eye.slice k { s.eye.slice[k] with fails := s.eye.slice[k].fails + 1 } ∧
        t.eye.cal = { began := s.clk.tick } ∧ t.eye.sliceMap = s.eye.sliceMap ∧ t = { s with eye := t.eye }) ∧
  (∀ (skew : Int) (d : Bool) (k : Fin 9) (s : State),
      s.eye.ready = true → s.eye.spare = some k → s.eye.cal.stage = .shadow → s.eye.cal.bad = true → s.eye.slice[k].fails = 2 → 
      ∃ t, exec (.calShadowDone skew d) s = .next t ∧ t.eye.slice[k].role = .retired ∧ t.eye.slice[k].st = .fenced ∧ (∀ j, j ≠ k → t.eye.slice[j] = s.eye.slice[j])) ∧
  (∀ (k j : Fin 9) (i : Fin 8) (s : State),
      s.eye.spare = some k → s.eye.oldest = some i → s.eye.sliceMap[i] = some j → j ≠ k → s.eye.cal.stage = .passed → s.eye.reading = none → 
      ∃ t, exec .sliceSwap s = .next t ∧ t.eye.sliceMap = put s.eye.sliceMap i (some k) ∧ t.eye.calGen = s.eye.calGen + 1#8 ∧ t.eye.cal.stage = .reference ∧
        t.eye.slice[k] = { s.eye.slice[k] with role := .active, offset := s.eye.cal.offset, gain := s.eye.cal.gain, skew := s.eye.cal.skew } ∧
        t.eye.slice[j] = { s.eye.slice[j] with role := .spare } ∧ t.eye.cal.began = t.clk.tick ∧ t = { s.timed t with eye := t.eye }) ∧
  (∀ (sums : List (List Nat)) (s : State),
      s.eye.ready = true → s.eye.spare = none → s.eye.reading = none → s.eye.gapFits = true → s.domFenced Dom.eye = false → s.eye.active.Nodup → ∀ k ∈ s.eye.active, fitOk (fit (sums.getD k.val [])) = true ∨ s.eye.slice[k].fails ≤ 1 → s.eye.readEnd.toNat + usTicks 420 < 2 ^ 64 → 
      ∃ t, exec (.foregroundCal sums) s = .next t ∧ t.eye.stale = false ∧ t.eye.calGen = s.eye.calGen ∧
        (∀ k ∈ s.eye.active, fitOk (fit (sums.getD k.val [])) = false → t.eye.slice[k] = { s.eye.slice[k] with fails := s.eye.slice[k].fails + 1 }) ∧
        (∀ k ∈ s.eye.active, fitOk (fit (sums.getD k.val [])) = true → t.eye.slice[k] = { s.eye.slice[k] with
            offset := BitVec.ofInt 12 (fit (sums.getD k.val [])).1, gain := BitVec.ofInt 14 (fit (sums.getD k.val [])).2.1
            fails := 0, lastGen := s.eye.calGen, calNo := t.eye.slice[k].calNo }) ∧
        (∀ k, k ∉ s.eye.active → t.eye.slice[k] = s.eye.slice[k]) ∧
        t.clk.tick.toNat = Nat.max s.clk.tick.toNat (s.eye.readEnd.toNat + usTicks 420) ∧ t = { s.timed t with eye := t.eye }) ∧
  (∀ (s : State),
      s.eye.spare = none → s.eye.ready = true → s.eye.calTick.toNat + msTicks (100 * (s.eye.calCtl.toNat / 256)) < 2 ^ 64 → 
      ∃ t, exec .stalecalTimeout s = .next t ∧ t.eye = { s.eye with stale := true } ∧
        t.clk.tick.toNat = Nat.max s.clk.tick.toNat (s.eye.calTick.toNat + msTicks (100 * (s.eye.calCtl.toNat / 256))) ∧ t = { s.timed t with eye := t.eye }) ∧
  (∀ (sums : List (List Nat)) (s : State),
      s.domUp Dom.eye = true → s.domFenced Dom.eye = false → s.eye.ready = false → s.clk.absent.getLsbD Clk.eyeck.val = false → ∀ k : Fin 9, fitOk (fit (sums.getD k.val [])) = true → 
      ∃ t, exec (.eyeReady sums) s = .next t ∧ t.eye.ready = true ∧ t.eye.first = true ∧ t.eye.nextFrame = 0#32 ∧ t.eye.stale = false ∧ t.eye.cal = { began := s.clk.tick } ∧
        t.eye.hold = s.eye.hold ∧ t = { s with eye := t.eye })

/-- Cases of the EYE calls (R346, R274, R277, R279, R407). Of a call that is taken, with the Eye's domain not fenced. EYE STATE
replies with READY, HOLD, frames, active slices, spare and CALGEN and leaves the Eye. Not confidential: EYE HOLD ON sets HOLD;
EYE HOLD OFF leaves HOLD clear, memory and lanes. With HOLD 1: EYE SET of values in range sets mode, illumination, trigger
source, delay, exposure and the pulse's lead and tail, those not given staying, and replies with them; with HOLD 0 it fails with
E.STATE and leaves the Eye; EYE SNAP with TRIGSRC 10 asks for a frame. EYE LOOK, not confidential, with ON and OFF of 1 to 255
sets them and the attention bit if given. EYE COPY, not confidential, for the caller's lane, not in SCRUB, with 1 to 4 banks
that the lane has, sets the copy from its first bank; EYE COPY OFF by the copy's lane's owner, or with no copy, clears it. Each
replies OK, and changes outside the Eye, but for EYE HOLD OFF, only the output and the domain's bring-up. With the domain fenced
EYE SNAP fails with E.FENCED. These forms answer a next state, with their own effect, where their clauses say: EYE_STATE,
EYE_HOLD, EYE_SET, EYE_SNAP, EYE_LOOK, EYE_COPY, EYE_COPY_OFF. -/
def Obligations.EyeVerbs : Prop :=
  (∀ (c : Caller) (s : State),
      Takes c s → s.domFenced Dom.eye = false → 
      ∃ t, exec (.eyeState c) s = .next t ∧ t.eye = s.eye ∧ t = { s with eye := t.eye, power := t.power, call := t.call, host := t.host } ∧ Replied c (okLine c "EYE" [bareF "STATE", decF "ready" (boolNat s.eye.ready),
          symF "hold" (onOff s.eye.hold), decF "frames" s.eye.frames.toNat, decF "active" s.eye.active.length,
          ("spare", match s.eye.spare with | some k => .sym ("SL" ++ toString k.val) | none => .dash), decF "calgen" s.eye.calGen.toNat]) t) ∧
  (∀ (c : Caller) (s : State),
      Takes c s → s.domFenced Dom.eye = false → s.confidential = false → 
      ∃ t, exec (.eyeHold c true) s = .next t ∧ t.eye = { s.eye with hold := true } ∧ t = { s with eye := t.eye, power := t.power, call := t.call, host := t.host } ∧ Replied c (okLine c "EYE" [bareF "HOLD", bareF "ON"]) t) ∧
  (∀ (c : Caller) (s : State),
      Takes c s → s.domFenced Dom.eye = false → s.confidential = false → 
      ∃ t, exec (.eyeHold c false) s = .next t ∧ t.eye.hold = false ∧ t.mem = s.mem ∧ t.lanes = s.lanes ∧ Replied c (okLine c "EYE" [bareF "HOLD", bareF "OFF"]) t) ∧
  (∀ (c : Caller) (a : EyeSetArgs) (s : State),
      Takes c s → s.domFenced Dom.eye = false → s.eye.hold = true → usOk 20 a.delay = true → usOk 22 a.expose = true → below 1024 a.lead = true → below 1024 a.tail = true → 
      ∃ t, exec (.eyeSet c a) s = .next t ∧ t.eye = { (if a.ir.getD s.eye.irEn then s.eye else s.eye.irDown s.clk.tick).setTrig (a.trig.getD s.eye.trigSrc) with
          mode := a.mode.getD s.eye.mode, irEn := a.ir.getD s.eye.irEn
          delay := (a.delay.map fun t => BitVec.ofNat 20 (usTicks t)).getD s.eye.delay
          expose := (a.expose.map fun t => BitVec.ofNat 22 (clampExpose (usTicks t))).getD s.eye.expose
          ir := BitVec.ofNat 20 (a.lead.getD (s.eye.ir.toNat / 1024) * 1024 + a.tail.getD (s.eye.ir.toNat % 1024)) } ∧
        t = { s with eye := t.eye, power := t.power, call := t.call, host := t.host } ∧ Replied c (okLine c "EYE" (bareF "SET" :: eyeSetFields t.eye)) t) ∧
  (∀ (c : Caller) (a : EyeSetArgs) (s : State),
      Takes c s → s.domFenced Dom.eye = false → s.eye.hold = false → usOk 20 a.delay = true → usOk 22 a.expose = true → below 1024 a.lead = true → below 1024 a.tail = true → 
      ∃ t, exec (.eyeSet c a) s = .next t ∧ t.eye = s.eye ∧ t = { s with eye := t.eye, power := t.power, call := t.call, host := t.host } ∧ Replied c ⟨.fail, "EYE", c.tag, [bareF "E.STATE"]⟩ t) ∧
  (∀ (c : Caller) (s : State),
      Takes c s → s.domFenced Dom.eye = false → s.eye.hold = true → s.eye.trigSrc = 10#4 → 
      ∃ t, exec (.eyeSnap c) s = .next t ∧ t.eye = { s.eye with snapReq := true } ∧ t = { s with eye := t.eye, power := t.power, call := t.call, host := t.host } ∧ Replied c (okLine c "EYE" [bareF "SNAP"]) t) ∧
  (∀ (c : Caller) (at_ : Option Bool) (on off : Nat) (s : State),
      Takes c s → s.domFenced Dom.eye = false → s.confidential = false → 1 ≤ on → on ≤ 255 → 1 ≤ off → off ≤ 255 → 
      ∃ t, exec (.eyeLook c at_ (some on) (some off)) s = .next t ∧ t.eye.onFrames = on ∧ t.eye.offFrames = off ∧ t.eye.look.getLsbD 16 = at_.getD (s.eye.look.getLsbD 16) ∧
        t.eye = { s.eye with look := t.eye.look } ∧ t = { s with eye := t.eye, power := t.power, call := t.call, host := t.host } ∧ Replied c (okLine c "EYE" (bareF "LOOK" :: eyeLookFields t.eye)) t) ∧
  (∀ (c : Caller) (l : LaneId) (b n : Nat) (s : State),
      Takes c s → s.domFenced Dom.eye = false → (s.lane l).st ≠ .scrub → (s.lane l).owner = c.path.owner → 1 ≤ n → n ≤ 4 → copyOk s l b n = true → s.confidential = false → 
      ∃ t, exec (.eyeCopy c l b n) s = .next t ∧ t.eye = { s.eye with
          copyEn := true, copyLane := l, copyBanks := BitVec.ofNat 2 (n - 1), copyBank := BitVec.ofNat 6 b, copyNext := 0 } ∧
        t = { s with eye := t.eye, power := t.power, call := t.call, host := t.host } ∧ Replied c (okLine c "EYE" (eyeCopyFields t.eye)) t) ∧
  (∀ (c : Caller) (s : State),
      Takes c s → s.domFenced Dom.eye = false → s.eye.copyEn = false ∨ (s.lane s.eye.copyLane).owner = c.path.owner → 
      ∃ t, exec (.eyeCopyOff c) s = .next t ∧ t.eye = { s.eye with copyEn := false } ∧ t = { s with eye := t.eye, power := t.power, call := t.call, host := t.host } ∧ Replied c (okLine c "EYE" [bareF "COPY", bareF "OFF"]) t) ∧
  (∀ (c : Caller) (s : State),
      Takes c s → s.domFenced Dom.eye = true → 
      ∃ t, exec (.eyeSnap c) s = .next t ∧ t.quiet = s.quiet ∧ Replied c ⟨.fail, "EYE", c.tag, [bareF "E.FENCED"]⟩ t)

/-- Cases of capture, channels, results, rings and microphone bias (R282, R283, R284, R287, R288, R290, R291, R292, R293, R305).
With the Ear's domain not fenced, by who may set the Ear: EAR_CTRL_START of a stopped Ear with TRIGSRC 0 asks for the start,
EAR_CTRL_STOP of a running one for the stop, EAR_CH_WRITE sets the channel's register, or keeps it for the next output where
capture runs, and EAR_ENABLE_WRITE sets ENABLE; by another EAR_CTRL_START leaves the Ear. EAR_CAPTURE_START with the clock
there, nothing buffered of an earlier capture and no block to close: with TRIGSRC 0 and a start asked for it starts now, with a
trigger that waits it starts at the trigger's time; run is set, the sample number is 0 and every channel starts; without a
trigger nothing happens. EAR_OUTPUT_BOUNDARY: without ring captures, writes that wait or a stop, the sample number goes up by 1
and a running, enabled channel past its invalid outputs holds the sample; with a stop asked for, capture stops. EAR_RESULT_READ
by the host answers the result and empties it, or, while rings capture, answers 0 and changes nothing of the Ear. EAR_RING_WRITE
of ring 1 by the lane's owner with capture stopped applies; of ring 0 by other than the engine it leaves the Ear.
CAPTURE_SET_WRITE of the oldest buffered set, for ring 1 alone, with room in the block, a bank that takes it and no other input
at its port, writes the 32 bytes at their place. CAPTURE_BLOCK_COMPLETE of a full block writes its header, goes to the next
block and slot, and adds 1 to the ring's tally where that is enabled. MICBIAS_READY of an enabled output sets its READY bit.
Outside the Ear nothing changes but what is named, the domain's bring-up and, at a trigger, the time. These forms answer a next
state, with their own effect, where their clauses say: EAR_CTRL_START, EAR_CTRL_STOP, EAR_OUTPUT_BOUNDARY, EAR_CH_WRITE,
EAR_ENABLE_WRITE, EAR_RESULT_READ, EAR_RING_WRITE, CAPTURE_BLOCK_COMPLETE, MICBIAS_READY, EAR_CAPTURE_START, CAPTURE_SET_WRITE.
-/
def Obligations.EarCaptures : Prop :=
  (∀ (p : Path) (s : State),
      s.domFenced Dom.ear = false → earBar s p = none → s.ear.run = false → trigOf s.ear.trigSrc = 0 → 
      ∃ t, exec (.earCtrlStart p) s = .next t ∧ t.ear = { s.ear with startReq := true } ∧ t = { s with ear := t.ear, power := t.power }) ∧
  (∀ (p : Path) (s : State),
      s.domFenced Dom.ear = false → earBar s p = none → s.ear.run = true → 
      ∃ t, exec (.earCtrlStop p) s = .next t ∧ t.ear = { s.ear with stopReq := true } ∧ t = { s with ear := t.ear, power := t.power }) ∧
  (∀ (p : Path) (s : State),
      s.domFenced Dom.ear = false → (earBar s p).isSome = true → 
      ∃ t, exec (.earCtrlStart p) s = .next t ∧ t.ear = s.ear ∧ t = { s with ear := t.ear, power := t.power }) ∧
  (∀ (s : State),
      s.ear.run = false → s.earClocked = true → s.ear.closing = false → s.ear.captures = false ∨ s.ear.buffer = [] → trigOf s.ear.trigSrc = 0 → s.ear.startReq = true → 
      ∃ t, exec .earCaptureStart s = .next t ∧ t.ear.run = true ∧ t.ear.startReq = false ∧ t.ear.nextSample = 0#64 ∧
        (∀ i : Fin 8, t.ear.chan[i] = s.ear.chan[i].start s.ear.osr (s.ear.enable.getLsbD i.val)) ∧ t = { s with ear := t.ear }) ∧
  (∀ (a : W64) (s : State),
      s.ear.run = false → s.earClocked = true → s.ear.closing = false → s.ear.captures = false ∨ s.ear.buffer = [] → trigOf s.ear.trigSrc ≠ 0 → s.ear.arriving = some a → 
      ∃ t, exec .earCaptureStart s = .next t ∧ t.ear.run = true ∧ t.ear.arriving = none ∧ t.ear.nextSample = 0#64 ∧
        (∀ i : Fin 8, t.ear.chan[i] = s.ear.chan[i].start s.ear.osr (s.ear.enable.getLsbD i.val)) ∧
        t.clk.tick.toNat = Nat.max s.clk.tick.toNat a.toNat ∧ t = { s.timed t with ear := t.ear }) ∧
  (∀ (s : State),
      s.ear.run = false → trigOf s.ear.trigSrc ≠ 0 → s.ear.arriving = none → 
      exec .earCaptureStart s = .next s) ∧
  (∀ (d : List (BitVec 24 × Bool)) (i : Fin 8) (s : State),
      s.ear.run = true → s.earClocked = true → s.ear.captures = false → s.ear.ring[(0 : Fin 2)].next = none → s.ear.ring[(1 : Fin 2)].next = none → s.ear.stopReq = false → s.ear.enable.getLsbD i.val = true → s.ear.chan[i].running = true → s.ear.chan[i].next = none → s.ear.chan[i].invalid = 0 → s.ear.chan[i].full = false → 
      ∃ t, exec (.earOutputBoundary d) s = .next t ∧ t.ear.nextSample = s.ear.nextSample + 1#64 ∧ t.ear.run = true ∧
        t.ear.chan[i] = { s.ear.chan[i] with result := micWord true false (d.getD i.val (0#24, false)).2 i.val (d.getD i.val (0#24, false)).1, full := true } ∧ t = { s with ear := t.ear }) ∧
  (∀ (d : List (BitVec 24 × Bool)) (s : State),
      s.ear.run = true → s.earClocked = true → s.ear.stopReq = true → 
      ∃ t, exec (.earOutputBoundary d) s = .next t ∧ t.ear.nextSample = s.ear.nextSample + 1#64 ∧ t.ear.run = false ∧ t.ear.stopReq = false ∧
        (∀ i : Fin 8, t.ear.chan[i].running = false ∧ t.ear.chan[i].next = none) ∧ t = { s with ear := t.ear }) ∧
  (∀ (p : Path) (n : Fin 8) (v : W32) (s : State),
      s.domFenced Dom.ear = false → earBar s p = none → s.ear.run = false → 
      ∃ t, exec (.earChWrite p n v) s = .next t ∧ t.ear = { s.ear with chan := put s.ear.chan n { s.ear.chan[n] with reg := chWord s.ear.chan[n].reg v } } ∧ t = { s with ear := t.ear, power := t.power }) ∧
  (∀ (p : Path) (n : Fin 8) (v : W32) (s : State),
      s.domFenced Dom.ear = false → earBar s p = none → s.ear.run = true → s.ear.chan[n].next = none → 
      ∃ t, exec (.earChWrite p n v) s = .next t ∧ t.ear = { s.ear with chan := put s.ear.chan n { s.ear.chan[n] with next := some (chWord s.ear.chan[n].reg v) } } ∧ t = { s with ear := t.ear, power := t.power }) ∧
  (∀ (p : Path) (v : W32) (s : State),
      s.domFenced Dom.ear = false → earBar s p = none → 
      ∃ t, exec (.earEnableWrite p v) s = .next t ∧ t.ear = { s.ear with enable := v.setWidth 8 } ∧ t = { s with ear := t.ear, power := t.power }) ∧
  (∀ (n : Fin 8) (s : State),
      s.domFenced Dom.ear = false → s.ear.captures = false → 
      ∃ t, exec (.earResultRead .host n) s = .next t ∧ t.host.answer = (0#8, [s.ear.chan[n].result]) ∧ t.ear.chan[n] = { s.ear.chan[n] with result := 0#32, full := false } ∧
        (∀ k, k ≠ n → t.ear.chan[k] = s.ear.chan[k]) ∧ t = { s with ear := t.ear, power := t.power, host := t.host }) ∧
  (∀ (n : Fin 8) (s : State),
      s.domFenced Dom.ear = false → s.ear.captures = true → 
      ∃ t, exec (.earResultRead .host n) s = .next t ∧ t.host.answer = (0#8, [0#32]) ∧ t.ear = s.ear) ∧
  (∀ (p : Path) (v : W32) (s : State),
      s.domFenced Dom.ear = false → s.ownsLane p (ringLane v) = true → s.ear.run = false → 
      ∃ t, exec (.earRingWrite p 1 v) s = .next t ∧ t.ear = { s.ear with ring := put s.ear.ring 1 (CapRing.apply (ringOk s 1 v) v 0#64 s.ear.ring[1]) } ∧ t = { s with ear := t.ear, power := t.power }) ∧
  (∀ (p : Path) (v : W32) (s : State),
      p ≠ .cox → 
      ∃ t, exec (.earRingWrite p 0 v) s = .next t ∧ t.ear = s.ear ∧ t = { s with ear := t.ear, power := t.power }) ∧
  (∀ (c : CapSet) (rest : List CapSet) (s : State),
      s.ear.buffer = c :: rest → s.ear.ring[0].takes c = false → s.ear.ring[1].takes c = true → s.ear.ring[1].sets < s.ear.ring[1].block.toNat → s.bankTakes ((s.ear.ring[1].slotAt + 64 + 32 * s.ear.ring[1].sets) / 0x80000) = true → s.arbBusy (bankPort ((s.ear.ring[1].slotAt + 64 + 32 * s.ear.ring[1].sets) / 0x80000)) 1 4 = false → 
      ∃ t, exec .captureSetWrite s = .next t ∧ t.ear.buffer = rest ∧ t.ear.ring[1].sets = s.ear.ring[1].sets + 1 ∧ t.ear.ring[0] = s.ear.ring[0] ∧
        t.mem.bh = s.mem.bh.put (s.ear.ring[1].slotAt + 64 + 32 * s.ear.ring[1].sets) (c.words.flatMap fun w => leBytes w.toNat 4) ∧
        t = { s with ear := t.ear, stat := t.stat, mem := { s.mem with bh := t.mem.bh } }) ∧
  (∀ (k : Fin 2) (s : State),
      s.ear.ring[k].en = true → s.ear.ring[k].sets = s.ear.ring[k].block.toNat → s.bankTakes (s.ear.ring[k].slotAt / 0x80000) = true → s.ear.ring[k].tallyEn = true → 
      ∃ t, exec (.captureBlockComplete k) s = .next t ∧ t.ear.ring[k] = { s.ear.ring[k] with blockNo := s.ear.ring[k].blockNo + 1#32, slot := s.ear.ring[k].slotNext, sets := 0, lost := 0, first := false, ovr := false } ∧
        t.tally s.ear.ring[k].tally.val = s.tally s.ear.ring[k].tally.val + 1#32 ∧
        t.mem.bh = s.mem.bh.put s.ear.ring[k].slotAt (s.ear.ring[k].header s.clk.degraded) ∧ t.mem.dram = s.mem.dram) ∧
  (∀ (n : Fin 2) (s : State),
      s.ear.biasEn[n] = true → 
      exec (.micbiasReady n) s = .next { s with ear := { s.ear with biasReady := put s.ear.biasReady n true } })

/-- Cases of audio output (R295, R296, R305). With the Ear's domain not fenced, by who may set the output: AUDO_CTRL_START of a
stopped output with TRIGSRC 0 asks for the start, AUDO_CTRL_STOP of a running one for the stop; by another AUDO_CTRL_STOP leaves
it. AUDO_PLAYBACK_START with the clock there starts from block 0: with TRIGSRC 0 and a start asked for now, with a trigger that
waits at its time. AUDO_FRAME of a running output with its clock: with a stop asked for it stops; inside a block, or with the
next block ready, before the block's last frame it sends the block's next frame; at a block's last frame it sends it, goes to
the next block and adds 1 to the DONE tally where that is enabled; with no block ready it sends a frame of zeros and counts an
underrun where a block was played. AUDO_UNDER_READ by the host answers the count and clears it. Nothing else changes but the
domain's bring-up and, at a trigger, the time. These forms answer a next state, with their own effect, where their clauses say:
AUDO_CTRL_START, AUDO_CTRL_STOP, AUDO_UNDER_READ, AUDO_PLAYBACK_START, AUDO_FRAME. -/
def Obligations.AudioOutPlays : Prop :=
  (∀ (p : Path) (s : State),
      s.domFenced Dom.ear = false → audoMay s p = true → s.ear.audo.run = false → trigOf s.ear.audo.trigSrc = 0 → 
      ∃ t, exec (.audoCtrlStart p) s = .next t ∧ t.ear = { s.ear with audo := { s.ear.audo with startReq := true } } ∧ t = { s with ear := t.ear, power := t.power }) ∧
  (∀ (p : Path) (s : State),
      s.domFenced Dom.ear = false → audoMay s p = true → s.ear.audo.run = true → 
      ∃ t, exec (.audoCtrlStop p) s = .next t ∧ t.ear = { s.ear with audo := { s.ear.audo with stopReq := true } } ∧ t = { s with ear := t.ear, power := t.power }) ∧
  (∀ (p : Path) (s : State),
      s.domFenced Dom.ear = false → audoMay s p = false → 
      ∃ t, exec (.audoCtrlStop p) s = .next t ∧ t.ear = s.ear ∧ t = { s with ear := t.ear, power := t.power }) ∧
  (∀ (s : State),
      s.ear.audo.run = false → s.audoClocked = true → trigOf s.ear.audo.trigSrc = 0 → s.ear.audo.startReq = true → 
      ∃ t, exec .audoPlaybackStart s = .next t ∧ t.ear = { s.ear with audo := { s.ear.audo with
          run := true, startReq := false, stopReq := false, arriving := none, block := 0, frame := 0, inBlock := false, played := false } } ∧
        t = { s with ear := t.ear }) ∧
  (∀ (a : W64) (s : State),
      s.ear.audo.run = false → s.audoClocked = true → trigOf s.ear.audo.trigSrc ≠ 0 → s.ear.audo.arriving = some a → 
      ∃ t, exec .audoPlaybackStart s = .next t ∧ t.ear = { s.ear with audo := { s.ear.audo with
          run := true, startReq := false, stopReq := false, arriving := none, block := 0, frame := 0, inBlock := false, played := false } } ∧
        t.clk.tick.toNat = Nat.max s.clk.tick.toNat a.toNat ∧ t = { s.timed t with ear := t.ear }) ∧
  (∀ (s : State),
      s.ear.audo.run = true → s.audoClocked = true → s.ear.audo.stopReq = true → 
      exec .audoFrame s = .next { s with ear := { s.ear with audo := { s.ear.audo with run := false, stopReq := false, inBlock := false, lastFrame := [] } } }) ∧
  (∀ (s : State),
      s.ear.audo.run = true → s.audoClocked = true → s.ear.audo.stopReq = false → s.ear.audo.inBlock = true ∨ audoReady s = true → s.ear.audo.frame + 1 < s.ear.audo.blockLen.toNat → 
      exec .audoFrame s = .next { s with ear := { s.ear with audo := { s.ear.audo with
        frame := s.ear.audo.frame + 1, inBlock := true, lastFrame := s.ear.audo.wire (audoSamples s s.ear.audo.frame) } } }) ∧
  (∀ (s : State),
      s.ear.audo.run = true → s.audoClocked = true → s.ear.audo.stopReq = false → s.ear.audo.inBlock = true → s.ear.audo.frame + 1 = s.ear.audo.blockLen.toNat → s.ear.audo.doneEn = true → 
      ∃ t, exec .audoFrame s = .next t ∧ t.ear = { s.ear with audo := { s.ear.audo with
          frame := 0, inBlock := false, block := s.ear.audo.block + 1, played := true, lastFrame := s.ear.audo.wire (audoSamples s s.ear.audo.frame) } } ∧
        t.tally s.ear.audo.done.val = s.tally s.ear.audo.done.val + 1#32 ∧ t.mem = s.mem) ∧
  (∀ (s : State),
      s.ear.audo.run = true → s.audoClocked = true → s.ear.audo.stopReq = false → s.ear.audo.inBlock = false → audoReady s = false → 
      exec .audoFrame s = .next { s with ear := { s.ear with audo := { s.ear.audo with
        lastFrame := s.ear.audo.wire [], under := if s.ear.audo.played then satInc s.ear.audo.under else s.ear.audo.under } } }) ∧
  (∀ (s : State),
      s.domFenced Dom.ear = false → 
      ∃ t, exec (.audoUnderRead .host) s = .next t ∧ t.ear = { s.ear with audo := { s.ear.audo with under := 0#32 } } ∧ t.host.answer = (0#8, [s.ear.audo.under]) ∧ t.mem = s.mem)

/-- Cases of the EAR calls (R346, R305, R407). Of a call that is taken, with the Ear's domain not fenced. EAR STATE replies with
the control settings. By who may set the Ear: EAR START of a stopped Ear with OSR, channels and trigger source 0 sets them and
asks for the start, of a running one it fails with E.STATE; EAR STOP of a running one asks for the stop; EAR CH of a stopped one
with values in range sets the channel's register; EAR BIAS sets an output's enable and level, its READY bit staying only where
it was and stays enabled; EAR RING OFF of a stopped one disables ring 1. For the caller's lane, not in SCRUB: EAR RING with a
ring that fits sets ring 1 and its tally; EAR OUT with the output off and not running, and a ring that fits the format, enables
it. By the output's lane's owner, enabled: EAR OUT START of a stopped output with TRIGSRC 0 asks for the start, EAR OUT STOP of
a running one for the stop; EAR OUT START of a disabled one fails with E.STATE. Each other form replies OK with the settings.
Outside the Ear only the output and the domain's bring-up change. These forms answer a next state, with their own effect, where
their clauses say: EAR_STATE, EAR_START, EAR_STOP, EAR_CH, EAR_BIAS, EAR_RING, EAR_RING_OFF, EAR_OUT, EAR_OUT_START,
EAR_OUT_STOP. -/
def Obligations.EarVerbs : Prop :=
  (∀ (c : Caller) (s : State),
      Takes c s → s.domFenced Dom.ear = false → 
      ∃ t, exec (.earState c) s = .next t ∧ t.ear = s.ear ∧ t = { s with ear := t.ear, power := t.power, call := t.call, host := t.host } ∧ Replied c (okLine c "EAR" (bareF "STATE" :: earCtrlFields s.ear)) t) ∧
  (∀ (c : Caller) (o : BitVec 2) (ch : Byte) (s : State),
      Takes c s → s.domFenced Dom.ear = false → earBar s c.path.path = none → s.ear.run = false → o ≠ 3#2 → 
      ∃ t, exec (.earStart c (some o) (some ch) (some 0#4)) s = .next t ∧ t.ear = { s.ear with osr := o, enable := ch, trigSrc := 0#4, startReq := true } ∧ t = { s with ear := t.ear, power := t.power, call := t.call, host := t.host } ∧ Replied c (okLine c "EAR" (bareF "START" :: earCtrlFields t.ear)) t) ∧
  (∀ (c : Caller) (o : Option (BitVec 2)) (ch : Option Byte) (g : Option (BitVec 4)) (s : State),
      Takes c s → s.domFenced Dom.ear = false → earBar s c.path.path = none → s.ear.run = true → 
      ∃ t, exec (.earStart c o ch g) s = .next t ∧ t.ear = s.ear ∧ t = { s with ear := t.ear, power := t.power, call := t.call, host := t.host } ∧ Replied c ⟨.fail, "EAR", c.tag, [bareF "E.STATE"]⟩ t) ∧
  (∀ (c : Caller) (s : State),
      Takes c s → s.domFenced Dom.ear = false → earBar s c.path.path = none → s.ear.run = true → 
      ∃ t, exec (.earStop c) s = .next t ∧ t.ear = { s.ear with stopReq := true } ∧ t = { s with ear := t.ear, power := t.power, call := t.call, host := t.host } ∧ Replied c (okLine c "EAR" (bareF "STOP" :: earCtrlFields t.ear)) t) ∧
  (∀ (c : Caller) (n : Fin 8) (g : Option Int) (o : Option (BitVec 2)) (f : Option (Option Nat)) (s : State),
      Takes c s → s.domFenced Dom.ear = false → earBar s c.path.path = none → s.ear.run = false → gainOk g = true → o ≠ some 3#2 → below 32768 (f.getD none) = true → 
      ∃ t, exec (.earCh c n g o f) s = .next t ∧ t.ear = { s.ear with chan := put s.ear.chan n { s.ear.chan[n] with reg := chSet g o f s.ear.chan[n].reg } } ∧
        t = { s with ear := t.ear, power := t.power, call := t.call, host := t.host } ∧ Replied c (okLine c "EAR" (earChFields n t.ear)) t) ∧
  (∀ (c : Caller) (n : Fin 2) (on : Bool) (l : BitVec 2) (s : State),
      Takes c s → s.domFenced Dom.ear = false → earBar s c.path.path = none → l ≠ 3#2 → 
      ∃ t, exec (.earBias c n on (some l)) s = .next t ∧ t.ear.biasEn = put s.ear.biasEn n on ∧ t.ear.biasLevel = put s.ear.biasLevel n l ∧
        t.ear.biasReady[n] = (on && s.ear.biasEn[n] && s.ear.biasReady[n]) ∧ t = { s with ear := t.ear, power := t.power, call := t.call, host := t.host } ∧ Replied c (okLine c "EAR" (earBiasFields n t.ear)) t) ∧
  (∀ (c : Caller) (l : LaneId) (b n k : Nat) (y : Option Nat) (s : State),
      Takes c s → s.domFenced Dom.ear = false → (s.lane l).st ≠ .scrub → (s.lane l).owner = c.path.owner → ringArgs l b n k [y] = true → ringOk s 1 (ringWordOf l b n k) = true → 
      ∃ t, exec (.earRing c l b n k y) s = .next t ∧ t.ear = (setCapTally 1 y.isSome (y.getD 0) (setCapRing 1 (ringWordOf l b n k) s)).ear ∧
        t = { s with ear := t.ear, power := t.power, call := t.call, host := t.host } ∧ Replied c (okLine c "EAR" (earRingFields 1 t)) t) ∧
  (∀ (c : Caller) (s : State),
      Takes c s → s.domFenced Dom.ear = false → earBar s c.path.path = none → s.ear.run = false → 
      ∃ t, exec (.earRingOff c) s = .next t ∧ t.ear.ring[1].en = false ∧ t.ear.ring[0] = s.ear.ring[0] ∧ t = { s with ear := t.ear, power := t.power, call := t.call, host := t.host } ∧ Replied c (okLine c "EAR" (earRingFields 1 t)) t) ∧
  (∀ (c : Caller) (l : LaneId) (b n k : Nat) (d : Option Bool) (sl f e : Option Nat) (s : State),
      Takes c s → s.domFenced Dom.ear = false → (s.lane l).st ≠ .scrub → (s.lane l).owner = c.path.owner → refit s = s → s.ear.audo.en = false → s.ear.audo.run = false → ringArgs l b n k [f, e] = true → (sl.all fun n => decide (1 ≤ n ∧ n ≤ 8)) = true → audoRingOk (setFormat ((d.map boolNat).getD s.ear.audo.format.toNat) ((sl.map fun n => n - 1).getD s.ear.audo.slots.toNat) s) (ringWordOf l b n k) = true → 
      ∃ t, exec (.earOut c l b n k d sl f e) s = .next t ∧ t.ear.audo.en = true ∧ t.ear.audo.run = false ∧ t.ear.ring = s.ear.ring ∧ t.ear.chan = s.ear.chan ∧
        t = { s with ear := t.ear, power := t.power, call := t.call, host := t.host } ∧ Replied c (okLine c "EAR" (earOutFields t.ear.audo)) t) ∧
  (∀ (c : Caller) (s : State),
      Takes c s → s.domFenced Dom.ear = false → s.ear.audo.en = true → s.ownsLane c.path.path s.ear.audo.lane = true → s.ear.audo.run = false → trigOf s.ear.audo.trigSrc = 0 → 
      ∃ t, exec (.earOutStart c) s = .next t ∧ t.ear = { s.ear with audo := { s.ear.audo with startReq := true } } ∧ t = { s with ear := t.ear, power := t.power, call := t.call, host := t.host } ∧ Replied c (okLine c "EAR" (earOutFields t.ear.audo)) t) ∧
  (∀ (c : Caller) (s : State),
      Takes c s → s.domFenced Dom.ear = false → s.ear.audo.en = true → s.ownsLane c.path.path s.ear.audo.lane = true → s.ear.audo.run = true → 
      ∃ t, exec (.earOutStop c) s = .next t ∧ t.ear = { s.ear with audo := { s.ear.audo with stopReq := true } } ∧ t = { s with ear := t.ear, power := t.power, call := t.call, host := t.host } ∧ Replied c (okLine c "EAR" (earOutFields t.ear.audo)) t) ∧
  (∀ (c : Caller) (s : State),
      Takes c s → s.domFenced Dom.ear = false → s.ear.audo.en = false → 
      ∃ t, exec (.earOutStart c) s = .next t ∧ t.ear = s.ear ∧ t = { s with ear := t.ear, power := t.power, call := t.call, host := t.host } ∧ Replied c ⟨.fail, "EAR", c.tag, [bareF "E.STATE"]⟩ t)

/-- Cases of passes, conversions, urgent requests and SENSE_DATA (R299, R300, R301, R302, R303, R305, R307). With the SNS clock
and its domain up. SENSE_PASS_START from idle begins the first enabled entry, settling or, with settle 0, converting;
SENSE_SETTLE_DONE goes on to the conversion, of an entry and of an urgent request; without clock or domain it does nothing.
SENSE_CONVERSION_DONE: the last enabled entry below 30 with a user input stores its word with pass and index in SENSE_LASTk and
SENSE_DATA and ends the pass; entry 30 gives the rail its measured voltage and goes on to entry 31, and below 500 mV stops the
fabric; a user's urgent request, not confidential, that interrupted an entry with settle 0 stores its word in SENSE_DATA and
begins that entry again. SENSE_URGENT_GO with GO clear of a real input queues the request and sets GO; with GO set it does
nothing. URGENT_REQUEST_START of a user's request interrupts a conversion that was interrupted less than twice; the engine's
oldest request starts from idle; a conversion interrupted twice is not interrupted. SENSE_DATA_READ by the host answers
SENSE_DATA and clears it. Beside sensing, and the rail where named, nothing changes. These forms answer a next state, with their
own effect, where their clauses say: SENSE_CONVERSION_DONE, SENSE_URGENT_GO, SENSE_DATA_READ, SENSE_PASS_START,
SENSE_SETTLE_DONE, URGENT_REQUEST_START. -/
def Obligations.SensingConverts : Prop :=
  (∀ (i : Fin 32) (s : State),
      s.snsRuns = true → s.sense.run = .idle → s.sense.nextFrom 0 = some i → seqSettle s.sense.seq[i] ≠ 0#8 → 
      exec .sensePassStart s = .next { s with sense := { s.sense with cur := s.sense.seq[i], run := .settling i } }) ∧
  (∀ (i : Fin 32) (s : State),
      s.snsRuns = true → s.sense.run = .idle → s.sense.nextFrom 0 = some i → seqSettle s.sense.seq[i] = 0#8 → 
      exec .sensePassStart s = .next { s with sense := { s.sense with cur := s.sense.seq[i], run := .converting i } }) ∧
  (∀ (i : Fin 32) (s : State),
      s.snsRuns = true → s.sense.run = .settling i → 
      exec .senseSettleDone s = .next { s with sense := { s.sense with run := .converting i } }) ∧
  (∀ (u : Urgent) (s : State),
      s.snsRuns = true → s.sense.run = .urgSettling u → 
      exec .senseSettleDone s = .next { s with sense := { s.sense with run := .urgConverting u } }) ∧
  (∀ (s : State),
      s.snsRuns = false → 
      exec .senseSettleDone s = .next s) ∧
  (∀ (i : Fin 32) (d : BitVec 20) (s : State),
      s.snsRuns = true → s.sense.run = .converting i → i.val < 30 → (seqInput s.sense.cur).toNat < 8 → s.sense.nextFrom (i.val + 1) = none → 
      ∃ t, exec (.senseConversionDone d) s = .next t ∧ t.sense.run = .idle ∧ t.sense.pass = s.sense.pass + 1#8 ∧
        t.sense.last = put s.sense.last i (senseWord false false i.val s.sense.pass.toNat d.toNat) ∧
        t.sense.data = senseWord (bit s.sense.data 31) false i.val s.sense.pass.toNat d.toNat ∧ t = { s with sense := t.sense }) ∧
  (∀ (d : BitVec 20) (s : State),
      s.snsRuns = true → s.sense.run = .converting 30 → s.sense.nextFrom 31 = some 31 → seqSettle s.sense.seq[(31 : Fin 32)] ≠ 0#8 → s.rail.floor = false → 500 ≤ milliVolts 1200 d.toNat → 
      ∃ t, exec (.senseConversionDone d) s = .next t ∧ t.sense.run = .settling 31 ∧ t.sense.pass = s.sense.pass ∧ t.sense.data = s.sense.data ∧
        t.rail = { s.rail with meas := BitVec.ofNat 10 (Nat.min (milliVolts 1200 d.toNat) 1023) } ∧ t = { s with sense := t.sense, rail := t.rail }) ∧
  (∀ (d : BitVec 20) (s : State),
      s.snsRuns = true → s.sense.run = .converting 30 → s.sense.nextFrom 31 = some 31 → seqSettle s.sense.seq[(31 : Fin 32)] ≠ 0#8 → s.rail.floor = false → milliVolts 1200 d.toNat < 500 → 
      ∃ t, exec (.senseConversionDone d) s = .next t ∧ t.sense.run = .settling 31 ∧
        t.rail = { s.rail with meas := BitVec.ofNat 10 (milliVolts 1200 d.toNat), floor := true, faultN := true } ∧ ∀ i, t.strokes i = false) ∧
  (∀ (u : Urgent) (i : Fin 32) (d : BitVec 20) (s : State),
      s.snsRuns = true → s.sense.run = .urgConverting u → u.by_ = .user → s.confidential = false → s.sense.interrupted = some i → seqSettle s.sense.seq[i] = 0#8 → 
      ∃ t, exec (.senseConversionDone d) s = .next t ∧ t.sense.run = .converting i ∧ t.sense.interrupted = none ∧ t.sense.go = false ∧ t.sense.userHold = true ∧
        t.sense.data = senseWord (bit s.sense.data 31) true u.input.toNat s.sense.pass.toNat d.toNat ∧ t = { s with sense := t.sense }) ∧
  (∀ (p : Path) (v : W32) (s : State),
      s.sense.go = false → bit v 31 = true → realInput (seqInput v) = true → 
      exec (.senseUrgentGo p v) s = .next { s with sense := { s.sense with urgent := v &&& 0x60FF001F#32, go := true, userQ := some { by_ := .user, input := seqInput v, settle := seqSettle v, osr := seqOsr v } } }) ∧
  (∀ (p : Path) (v : W32) (s : State),
      s.sense.go = true → 
      exec (.senseUrgentGo p v) s = .next s) ∧
  (∀ (u : Urgent) (i : Fin 32) (s : State),
      s.snsRuns = true → s.sense.run = .converting i → s.sense.aborts < 2 → s.sense.engineQ = [] → s.sense.userHold = false → s.sense.userQ = some u → u.settle = 0#8 → 
      exec .urgentRequestStart s = .next { s with sense := { s.sense with userQ := none, interrupted := some i, aborts := s.sense.aborts + 1, run := .urgConverting u } }) ∧
  (∀ (u : Urgent) (r : List Urgent) (s : State),
      s.snsRuns = true → s.sense.run = .idle → s.sense.engineQ = u :: r → u.settle ≠ 0#8 → 
      exec .urgentRequestStart s = .next { s with sense := { s.sense with engineQ := r, interrupted := none, run := .urgSettling u } }) ∧
  (∀ (i : Fin 32) (s : State),
      s.snsRuns = true → s.sense.run = .converting i → 2 ≤ s.sense.aborts → 
      exec .urgentRequestStart s = .next s) ∧
  (∀ (s : State),
      exec (.senseDataRead .host) s = .next { s with sense := { s.sense with data := 0#32 }, host := { s.host with answer := (0#8, [s.sense.data]) } })

/-- Cases of the SENSE calls (R346, R307, R423). Of a call that is taken. SENSE STATE replies with period and pass. SENSE READ
from the Call line, not confidential, with GO clear and a real input sets GO and queues the request, and its reply waits; with
GO set it fails with E.BUSY; in confidential mode, of an input hidden there, with E.STATE. SENSE SEQ of an entry below 30 with a
real input and a settle up to 255 sets the entry and replies with it; otherwise it fails with E.RANGE. SENSE SEQ OFF clears the
entry's enable and leaves the others. SENSE PERIOD up to 65,535 sets the period. Nothing else changes but the output. These
forms answer a next state, with their own effect, where their clauses say: SENSE_STATE, SENSE_READ, SENSE_SEQ, SENSE_SEQ_OFF,
SENSE_PERIOD. -/
def Obligations.SenseVerbs : Prop :=
  (∀ (c : Caller) (s : State),
      Takes c s → 
      ∃ t, exec (.senseState c) s = .next t ∧ t.quiet = s.quiet ∧ Replied c (okLine c "SENSE" [bareF "STATE", decF "period" s.sense.period.toNat, decF "pass" s.sense.pass.toNat]) t) ∧
  (∀ (c : Caller) (i : BitVec 5) (n : Nat) (o : BitVec 2) (s : State),
      Takes c s → c.path = .call → s.confidential = false → s.sense.go = false → n ≤ 255 → realInput i = true → 
      ∃ t, exec (.senseRead c i n o) s = .next t ∧ t.sense.go = true ∧ t.sense.userQ = some { by_ := .read c, input := i, settle := BitVec.ofNat 8 n, osr := o } ∧
        t.call = { s.call with running := some "SENSE" } ∧ t = { s with sense := t.sense, call := t.call }) ∧
  (∀ (c : Caller) (i : BitVec 5) (n : Nat) (o : BitVec 2) (s : State),
      Takes c s → s.confidential = false → s.sense.go = true → 
      ∃ t, exec (.senseRead c i n o) s = .next t ∧ t.quiet = s.quiet ∧ Replied c ⟨.fail, "SENSE", c.tag, [bareF "E.BUSY"]⟩ t) ∧
  (∀ (c : Caller) (i : BitVec 5) (n : Nat) (o : BitVec 2) (s : State),
      Takes c s → s.confidential = true → secretInput i = true → 
      ∃ t, exec (.senseRead c i n o) s = .next t ∧ t.quiet = s.quiet ∧ Replied c ⟨.fail, "SENSE", c.tag, [bareF "E.STATE"]⟩ t) ∧
  (∀ (c : Caller) (k : Fin 30) (i : BitVec 5) (n : Nat) (o : BitVec 2) (s : State),
      Takes c s → n ≤ 255 → realInput i = true → 
      ∃ t, exec (.senseSeq c k.val i n o) s = .next t ∧ t.sense = { s.sense with seq := s.sense.seq.set k.val (seqWordOf i n o &&& 0xE0FF001F#32) (by omega) } ∧
        t = { s with sense := t.sense, call := t.call, host := t.host } ∧ Replied c (okLine c "SENSE" (senseSeqFields k.val t)) t) ∧
  (∀ (c : Caller) (k : Nat) (i : BitVec 5) (n : Nat) (o : BitVec 2) (s : State),
      Takes c s → 30 ≤ k ∨ 256 ≤ n ∨ realInput i = false → 
      ∃ t, exec (.senseSeq c k i n o) s = .next t ∧ t.quiet = s.quiet ∧ Replied c ⟨.fail, "SENSE", c.tag, [bareF "E.RANGE"]⟩ t) ∧
  (∀ (c : Caller) (k : Fin 30) (s : State),
      Takes c s → realInput (seqInput s.sense.seq[k.val]) = true → 
      ∃ t, exec (.senseSeqOff c k.val) s = .next t ∧ seqEn t.sense.seq[k.val] = false ∧ (∀ j : Fin 32, j.val ≠ k.val → t.sense.seq[j] = s.sense.seq[j]) ∧
        t = { s with sense := t.sense, call := t.call, host := t.host }) ∧
  (∀ (c : Caller) (n : Nat) (s : State),
      Takes c s → n ≤ 65535 → 
      ∃ t, exec (.sensePeriod c n) s = .next t ∧ t.sense = { s.sense with period := BitVec.ofNat 16 n } ∧ t = { s with sense := t.sense, call := t.call, host := t.host } ∧
        Replied c (okLine c "SENSE" [bareF "PERIOD", ("", .dec n)]) t)

/-- Cases of how buttons and plugs change, are debounced, latched and delivered (R308, R311, R312, R313, R314). BTN_CHANGE and
PLUG_CHANGE to the other level keep the level and the tick, and the input waits to settle where the level differs from the
debounced one. BTN_DEBOUNCED of the one input that is due first: it comes at the end of its debounce time, the debounced level
follows, and, where its events are on, the queue has room and nothing is bound, its event enters the queue with that tick; with
its events off nothing enters. PLUG_DEBOUNCED of a plug that goes in, due first, with its check and its events on, room, SNS
present and nothing bound: its event enters, and its check begins with its readings asked for. Where a button and a plug that
goes out are due first at one tick, with room, the plug's event enters before the button's, whichever command comes first. A
plug whose check runs is not debounced. EDGE_LOST_READ by the host answers EDGE_LOST and clears it. EVENT_QUEUE_LATCH under
VDD_AO, not yet latching, begins it and leaves queue, buttons, lanes and memory. EVENT_DELIVER, after the banner with events on
the Call line and not on the host and CALL_TX empty, puts the oldest event's line on CALL_TX and takes it from the queue. These
forms answer a next state, with their own effect, where their clauses say: BTN_CHANGE, BTN_DEBOUNCED, PLUG_CHANGE,
PLUG_DEBOUNCED, EDGE_LOST_READ, EVENT_DELIVER, EVENT_QUEUE_LATCH. -/
def Obligations.InputsAreDebounced : Prop :=
  (∀ (n : Fin 12) (d : Bool) (s : State),
      s.edge.btn[n].level ≠ d → 
      exec (.btnChange n d) s = .next { s with edge := { s.edge with btn := put s.edge.btn n { s.edge.btn[n] with
        level := d, since := s.clk.tick, pending := d != s.edge.btn[n].deb } } }) ∧
  (∀ (n : Fin 2) (d : Bool) (s : State),
      s.edge.plug[n].level ≠ d → 
      exec (.plugChange n d) s = .next { s with edge := { s.edge with plug := put s.edge.plug n { s.edge.plug[n] with
        level := d, since := s.clk.tick, pending := d != s.edge.plug[n].deb } } }) ∧
  (∀ (n : Fin 12) (r : Fin 14) (u : Nat) (s : State),
      inputOf r = .inr n → s.dueAt r = some u → ∀ q : Fin 14, q ≠ r → (s.dueAt q).all (fun x => decide (u < x)) = true → u < 2 ^ 64 → (btnByte s.edge n).testBit 7 = true → s.edge.waiting < 32 → s.edge.lostRun = 0 → ∀ k : Fin 8, s.edge.bind[k].valid = false → 
      ∃ t, exec (.btnDebounced n) s = .next t ∧ t.edge = { s.edge with
          btn := put s.edge.btn n { s.edge.btn[n] with deb := s.edge.btn[n].level, pending := false }
          queue := s.edge.queue ++ [{ ev := .btn n s.edge.btn[n].level, tick := BitVec.ofNat 64 u, bound := none }] } ∧
        u = s.edge.btn[n].since.toNat + msTicks (dbMs (btnByte s.edge n)) ∧ t.clk.tick.toNat = Nat.max s.clk.tick.toNat u ∧ t = { s.timed t with edge := t.edge }) ∧
  (∀ (n : Fin 12) (r : Fin 14) (u : Nat) (s : State),
      inputOf r = .inr n → s.dueAt r = some u → ∀ q : Fin 14, q ≠ r → (s.dueAt q).all (fun x => decide (u < x)) = true → u < 2 ^ 64 → (btnByte s.edge n).testBit 7 = false → 
      ∃ t, exec (.btnDebounced n) s = .next t ∧ t.edge = { s.edge with
          btn := put s.edge.btn n { s.edge.btn[n] with deb := s.edge.btn[n].level, pending := false } } ∧ t.clk.tick.toNat = Nat.max s.clk.tick.toNat u ∧ t = { s.timed t with edge := t.edge }) ∧
  (∀ (n : Fin 2) (r : Fin 14) (u : Nat) (s : State),
      inputOf r = .inl n → s.dueAt r = some u → ∀ q : Fin 14, q ≠ r → (s.dueAt q).all (fun x => decide (u < x)) = true → u < 2 ^ 64 → s.edge.plug[n].level = true → (plugByte s.edge n).testBit 7 = true → (plugByte s.edge n).testBit 6 = true → s.clk.absent.getLsbD Clk.sns.val = false → s.edge.waiting < 32 → s.edge.lostRun = 0 → ∀ k : Fin 8, s.edge.bind[k].valid = false → 
      ∃ t, exec (.plugDebounced n) s = .next t ∧ t.edge = { s.edge with
          plug := put s.edge.plug n { s.edge.plug[n] with deb := true, pending := false }
          imp := put s.edge.imp n (some none)
          queue := s.edge.queue ++ [{ ev := .plug n true, tick := BitVec.ofNat 64 u, bound := none }] } ∧
        t.sense = { s.sense with engineQ := plugRequests n false s.sense.engineQ } ∧ t.clk.tick.toNat = Nat.max s.clk.tick.toNat u ∧ t = { s.timed t with edge := t.edge, sense := t.sense }) ∧
  (∀ (n : Fin 12) (m : Fin 2) (r p : Fin 14) (u : Nat) (s : State),
      inputOf r = .inr n → inputOf p = .inl m → s.dueAt r = some u → s.dueAt p = some u → ∀ q : Fin 14, q ≠ r → q ≠ p → (s.dueAt q).all (fun x => decide (u < x)) = true → u < 2 ^ 64 → (btnByte s.edge n).testBit 7 = true → (plugByte s.edge m).testBit 7 = true → s.edge.plug[m].level = false → s.edge.waiting < 31 → s.edge.lostRun = 0 → ∀ k : Fin 8, s.edge.bind[k].valid = false → 
      ∃ t, exec (.btnDebounced n) s = .next t ∧ exec (.plugDebounced m) s = .next t ∧
        t.edge.queue = s.edge.queue ++ [{ ev := .plug m false, tick := BitVec.ofNat 64 u, bound := none },
          { ev := .btn n s.edge.btn[n].level, tick := BitVec.ofNat 64 u, bound := none }]) ∧
  (∀ (n : Fin 2) (r : Fin 14) (s : State),
      inputOf r = .inl n → s.edge.imp[n].isSome = true → 
      exec (.plugDebounced n) s = .next s) ∧
  (∀ (s : State),
      exec (.edgeLostRead .host) s = .next { s with edge := { s.edge with lost := 0#16 }, host := { s.host with answer := (0#8, [s.edge.lost.setWidth 32]) } }) ∧
  (∀ (s : State),
      s.start.vddAo = true → s.start.latching = false → 
      ∃ t, exec .eventQueueLatch s = .next t ∧ t.start = { s.start with latching := true } ∧ t.edge.queue = s.edge.queue ∧
        (∀ n : Fin 12, t.edge.btn[n].deb = s.edge.btn[n].deb ∧ t.edge.btn[n].level = s.edge.btn[n].level) ∧ t.lanes = s.lanes ∧ t.mem = s.mem) ∧
  (∀ (e : QueueEntry) (rest : List QueueEntry) (s : State),
      s.start.banner = true → s.call.events = true → s.host.evctl.getLsbD 1 = false → s.edge.queue = e :: rest → e.takenCall = false → s.call.tx = [] → 
      ∃ t, exec .eventDeliver s = .next t ∧ TxItem.line e.line ∈ t.call.tx ∧ t.edge = { s.edge with queue := rest.dropWhile (·.takenCall) } ∧
        t = { s with edge := t.edge, call := t.call })

/-- What a new event, and a delivery, do to the event queue (R315). An event that arrives at a full queue leaves the queue, is
counted in EDGE_LOST up to 65,535 and in the losses to be told; one that arrives with room and losses to be told enters behind a
LOST entry with their number, and one without losses enters at the end, each with its tick and the result of its binding. A
button's event that is due first, with its events on, meets a full queue in that way. EVENT_DELIVER only takes entries from the
front: those that stay keep event, tick, result and order. These forms answer a next state, with their own effect, where their
clauses say: BTN_DEBOUNCED, EVENT_DELIVER. -/
def Obligations.EventQueueKeepsItsOrder : Prop :=
  (∀ (ev : EdgeEv) (u : W64) (s : State),
      32 ≤ s.edge.waiting → 
      (edgeEvent ev u s).edge.queue = s.edge.queue ∧ (edgeEvent ev u s).edge.lostRun = s.edge.lostRun + 1 ∧
        (edgeEvent ev u s).edge.lost = if s.edge.lost = 0xFFFF#16 then 0xFFFF#16 else s.edge.lost + 1#16) ∧
  (∀ (ev : EdgeEv) (u : W64) (s : State),
      s.edge.waiting < 32 → s.edge.lostRun ≠ 0 → 
      (edgeEvent ev u s).edge.queue = s.edge.queue ++ [{ ev := .lost s.edge.lostRun, tick := u, bound := none }, { ev := ev, tick := u, bound := (match ev.bindCode with | some c => (bindRun c s).1 | none => none) }] ∧
        (edgeEvent ev u s).edge.lostRun = 0) ∧
  (∀ (ev : EdgeEv) (u : W64) (s : State),
      s.edge.waiting < 32 → s.edge.lostRun = 0 → 
      (edgeEvent ev u s).edge.queue = s.edge.queue ++ [{ ev := ev, tick := u, bound := (match ev.bindCode with | some c => (bindRun c s).1 | none => none) }]) ∧
  (∀ (n : Fin 12) (r : Fin 14) (u : Nat) (s : State),
      inputOf r = .inr n → s.dueAt r = some u → ∀ q : Fin 14, q ≠ r → (s.dueAt q).all (fun x => decide (u < x)) = true → u < 2 ^ 64 → (btnByte s.edge n).testBit 7 = true → 32 ≤ s.edge.waiting → 
      ∃ t, exec (.btnDebounced n) s = .next t ∧ t.edge.queue = s.edge.queue ∧ t.edge.lostRun = s.edge.lostRun + 1) ∧
  (∀ (s : State),
      ∃ t k, exec .eventDeliver s = .next t ∧
        t.edge.queue.map (fun e => (e.ev, e.tick, e.bound)) = (s.edge.queue.drop k).map (fun e => (e.ev, e.tick, e.bound)))

/-- When a PWM output runs, and how a burst ends (R319). With BURST = 0 an output runs while EN is 1, and otherwise while GO is
set. With BURST > 0, by who may write the block: a write of GO with GO clear sets it and starts the count of BURST ms and a
period; during the run it starts the count of BURST ms again; with BURST = 0 and EN clear it does nothing. A read of PWMk_CTRL
shows GO as it is at that time. With a period that is not 0 and no setting held, GO has ended exactly when a period boundary at
or after the end of the BURST time has passed. PWM_BURST_END comes at the end of the BURST time, and where the period is 0 ends
GO then. PWM_PERIOD_BOUNDARY of a counting output comes at its next period boundary, applies a held setting, begins the next
period, and ends GO where the BURST time is over; no other output changes. These forms answer a next state, with their own
effect, where their clauses say: PWM_PERIOD_BOUNDARY, PWM_GO, PWM_BURST_END. -/
def Obligations.PwmRunsByEnableOrBurst : Prop :=
  (∀ (p : Pwm),
      p.burst = 0#16 → 
      p.runs = p.en) ∧
  (∀ (p : Pwm),
      p.burst ≠ 0#16 → 
      p.runs = p.go) ∧
  (∀ (p : Path) (k : Fin 4) (s : State),
      s.edgeMay p = true → s.edge.pwm[k].burst ≠ 0#16 → s.edge.pwm[k].go = false → 
      exec (.pwmGo p k) s = .next { s with edge := { s.edge with pwm := put s.edge.pwm k { s.edge.pwm[k] with go := true, started := s.clk.tick, phase := s.clk.tick } } }) ∧
  (∀ (p : Path) (k : Fin 4) (s : State),
      s.edgeMay p = true → s.edge.pwm[k].burst ≠ 0#16 → (s.edge.pwm[k].upTo s.clk.tick).go = true → 
      exec (.pwmGo p k) s = .next { s with edge := { s.edge with pwm := put s.edge.pwm k { s.edge.pwm[k].upTo s.clk.tick with started := s.clk.tick } } }) ∧
  (∀ (p : Path) (k : Fin 4) (s : State),
      s.edgeMay p = true → s.edge.pwm[k].burst = 0#16 → s.edge.pwm[k].en = false → 
      exec (.pwmGo p k) s = .next s) ∧
  (∀ (k : Fin 4) (s : State),
      bit (readEdge (0x60 + 8 * k.val) s) 31 = (s.edge.pwm[k].upTo s.clk.tick).go) ∧
  (∀ (now : W64) (p : Pwm),
      p.go = true → p.burst ≠ 0#16 → p.period ≠ 0 → p.next = none → 
      ((p.upTo now).go = false ↔ ∃ m, 1 ≤ m ∧ p.over ≤ p.phase.toNat + m * p.ticks ∧ p.phase.toNat + m * p.ticks ≤ now.toNat)) ∧
  (∀ (k : Fin 4) (s : State),
      s.edge.pwm[k].go = true → s.edge.pwm[k].burst ≠ 0#16 → s.edge.pwm[k].over < 2 ^ 64 → 
      ∃ t, exec (.pwmBurstEnd k) s = .next t ∧ t.clk.tick.toNat = Nat.max s.clk.tick.toNat s.edge.pwm[k].over ∧
        t.edge = { s.edge with pwm := put s.edge.pwm k (if s.edge.pwm[k].period = 0 then { s.edge.pwm[k] with go := false } else s.edge.pwm[k].upTo t.clk.tick) } ∧
        t = { s.timed t with edge := t.edge }) ∧
  (∀ (k : Fin 4) (s : State),
      s.edge.pwm[k].counts = true → s.edge.pwm[k].phase.toNat + s.edge.pwm[k].ticks < 2 ^ 64 → s.clk.tick.toNat ≤ s.edge.pwm[k].phase.toNat + s.edge.pwm[k].ticks → 
      ∃ t, exec (.pwmPeriodBoundary k) s = .next t ∧ t.clk.tick.toNat = s.edge.pwm[k].phase.toNat + s.edge.pwm[k].ticks ∧
        t.edge.pwm[k] = { s.edge.pwm[k] with duty := s.edge.pwm[k].next.getD s.edge.pwm[k].duty, next := none, phase := t.clk.tick, go := t.edge.pwm[k].go } ∧
        t.edge.pwm[k].go = (s.edge.pwm[k].go && !(decide (s.edge.pwm[k].burst ≠ 0#16) && decide (s.edge.pwm[k].over ≤ s.edge.pwm[k].phase.toNat + s.edge.pwm[k].ticks))) ∧
        (∀ j, j ≠ k → t.edge.pwm[j] = s.edge.pwm[j]) ∧ t = { s.timed t with edge := t.edge })

/-- Cases of the EDGE calls (R346, R316, R322). Of a call that is taken. EDGE STATE replies with the levels and the number of
queued events. Not confidential: EDGE BTN and EDGE PLUG with a debounce time in range set that input's byte of settings and no
other; EDGE TOUCH with values below 4,096 sets the pad; EDGE PWM of on with values in range sets the output's enable, polarity,
prescaler and burst, and its duty and period at once or at the next boundary, and no other output; for the caller's lane, not in
SCRUB, EDGE BIND of a free entry sets it, of a valid one fails with E.STATE, and EDGE UNBIND of a valid one clears it. In
confidential mode EDGE BTN with a debounce time in range replies with the settings and changes none. Beside what is named and
the output nothing changes. These forms answer a next state, with their own effect, where their clauses say: EDGE_STATE,
EDGE_BTN, EDGE_PLUG, EDGE_TOUCH, EDGE_PWM, EDGE_BIND, EDGE_UNBIND. -/
def Obligations.EdgeVerbs : Prop :=
  (∀ (c : Caller) (s : State),
      Takes c s → 
      ∃ t, exec (.edgeState c) s = .next t ∧ t.quiet = s.quiet ∧ Replied c (okLine c "EDGE" [bareF "STATE", ("level", hexReg (edgeLevel s.edge)), decF "queue" s.edge.waiting]) t) ∧
  (∀ (c : Caller) (n : Fin 12) (d : Option Nat) (a b : Option Bool) (s : State),
      Takes c s → s.confidential = false → dbOk d = true → 
      ∃ t, exec (.edgeBtn c n d a b) s = .next t ∧ btnByte t.edge n = settingByte (btnByte s.edge n) d a b ∧ (∀ m, m ≠ n → btnByte t.edge m = btnByte s.edge m) ∧
        t.edge = { s.edge with btnReg := t.edge.btnReg } ∧ t = { s with edge := t.edge, call := t.call, host := t.host } ∧ Replied c (okLine c "EDGE" (btnFields n t)) t) ∧
  (∀ (c : Caller) (n : Fin 2) (d : Option Nat) (a b : Option Bool) (s : State),
      Takes c s → s.confidential = false → dbOk d = true → 
      ∃ t, exec (.edgePlug c n d a b) s = .next t ∧ plugByte t.edge n = settingByte (plugByte s.edge n) d a b ∧ (∀ m, m ≠ n → plugByte t.edge m = plugByte s.edge m) ∧
        t.edge = { s.edge with plugReg := t.edge.plugReg } ∧ t = { s with edge := t.edge, call := t.call, host := t.host } ∧ Replied c (okLine c "EDGE" (plugFields n t)) t) ∧
  (∀ (c : Caller) (n : Fin 4) (a b : Option Nat) (e : Option Bool) (s : State),
      Takes c s → s.confidential = false → below 4096 a = true → below 4096 b = true → 
      ∃ t, exec (.edgeTouch c n a b e) s = .next t ∧ t.edge.touch = put s.edge.touch n (Touch.write
          (atBit (a.getD (fld s.edge.touch[n].reg 16 12)) 16 12 ||| atBit (b.getD (fld s.edge.touch[n].reg 0 12)) 0 12 ||| bitAt (e.getD (bit s.edge.touch[n].reg 31)) 31)
          s.edge.touch[n]) ∧ t.edge = { s.edge with touch := t.edge.touch } ∧ t = { s with edge := t.edge, call := t.call, host := t.host } ∧ Replied c (okLine c "EDGE" (touchFields n t)) t) ∧
  (∀ (c : Caller) (k : Fin 4) (x y : Nat) (q : Option Nat) (o : Option Bool) (b : Option Nat) (s : State),
      Takes c s → s.confidential = false → x < 65536 → y < 65536 → below 16 q = true → below 65536 b = true → 
      ∃ t, exec (.edgePwm c k (some x) (some y) q o b (some .on)) s = .next t ∧ t.edge.pwm[k].en = true ∧ t.edge.pwm[k].pol = o.getD s.edge.pwm[k].pol ∧
        t.edge.pwm[k].pre.toNat = q.getD s.edge.pwm[k].pre.toNat ∧ t.edge.pwm[k].burst.toNat = b.getD s.edge.pwm[k].burst.toNat ∧
        t.edge.pwm[k].next.getD t.edge.pwm[k].duty = (atBit x 16 16 ||| atBit y 0 16) ∧ (∀ j, j ≠ k → t.edge.pwm[j] = s.edge.pwm[j]) ∧
        t.edge = { s.edge with pwm := t.edge.pwm } ∧ t = { s with edge := t.edge, call := t.call, host := t.host } ∧ Replied c (okLine c "EDGE" (pwmFields k t)) t) ∧
  (∀ (c : Caller) (k : Fin 8) (v : Byte) (l : LaneId) (h : Fin 16) (e : Nat) (a : List HeatArg) (s : State),
      Takes c s → s.confidential = false → (s.lane l).st ≠ .scrub → (s.lane l).owner = c.path.owner → e ≤ 65535 → s.edge.bind[k].valid = false → 
      ∃ t, exec (.edgeBind c k v l h.val e a) s = .next t ∧
        t.edge = { s.edge with bind := put s.edge.bind k { valid := true, failed := false, lane := l, code := v, handle := h, entry := e, args := a } } ∧
        t = { s with edge := t.edge, call := t.call, host := t.host } ∧ Replied c (okLine c "EDGE" (bindFields k t)) t) ∧
  (∀ (c : Caller) (k : Fin 8) (v : Byte) (l : LaneId) (h : Fin 16) (e : Nat) (a : List HeatArg) (s : State),
      Takes c s → s.confidential = false → (s.lane l).st ≠ .scrub → (s.lane l).owner = c.path.owner → e ≤ 65535 → s.edge.bind[k].valid = true → 
      ∃ t, exec (.edgeBind c k v l h.val e a) s = .next t ∧ t.quiet = s.quiet ∧ Replied c ⟨.fail, "EDGE", c.tag, [bareF "E.STATE"]⟩ t) ∧
  (∀ (c : Caller) (k : Fin 8) (s : State),
      Takes c s → s.confidential = false → s.edge.bind[k].valid = true → (s.lane s.edge.bind[k].lane).st ≠ .scrub → (s.lane s.edge.bind[k].lane).owner = c.path.owner → 
      ∃ t, exec (.edgeUnbind c k) s = .next t ∧ t.edge = { s.edge with bind := put s.edge.bind k {} } ∧ t = { s with edge := t.edge, call := t.call, host := t.host } ∧ Replied c (okLine c "EDGE" [bareF "UNBIND", ("", .dec k.val)]) t) ∧
  (∀ (c : Caller) (n : Fin 12) (d : Option Nat) (a b : Option Bool) (s : State),
      Takes c s → s.confidential = true → dbOk d = true → 
      ∃ t, exec (.edgeBtn c n d a b) s = .next t ∧ t.quiet = s.quiet ∧ Replied c (okLine c "EDGE" (btnFields n s)) t)

/-- Cases of timers, triggers and the TRIG calls (R459, R460, R461, R346). TMR_START starts from 0 the channels of the mask that
the path may write and whose PERIOD is not 0, and changes no other channel; TMR_STOP stops a running one of them and puts its
held writes in force. PERIOD_EVENT of a running channel comes at its period's end; where its event is the period's, not
one-shot, with no held period, and TRIG_OUT follows it, the count begins again, TRIG_OUT pulses for its width, and an Eye whose
TRIGSRC names the channel has one trigger more to take; a one-shot channel stops. COMPARE_EVENT of a channel whose event is the
compare comes at the compare value, and TRIG_OUT, where it follows it, pulses. PULSE raises TRIG_OUT for its width, at least one
tick; TRIG_OUT_PULSE_END comes at its end and lowers it. TRIG_IN_EDGE keeps the level, counts a rise, and gives an Eye with
TRIGSRC 9 a trigger 2 ticks later. Of a call that is taken: TRIG STATE replies with width, level and edges; TRIG TMR of a free
channel at rest with a period that is not 0, compare and on sets and starts it and no other; of a held channel it fails with
E.STATE; TRIG OUT sets the source; TRIG PULSE sets the width and pulses. Each of these replies OK but the one named. These forms
answer a next state, with their own effect, where their clauses say: TMR_START, TMR_STOP, PERIOD_EVENT, COMPARE_EVENT, PULSE,
TRIG_IN_EDGE, TRIG_STATE, TRIG_TMR, TRIG_OUT, TRIG_PULSE, TRIG_OUT_PULSE_END. -/
def Obligations.TimersCountAndTrigger : Prop :=
  (∀ (p : Path) (m : Byte) (s : State),
      ∃ t, exec (.tmrStart p m) s = .next t ∧ (∀ n : Fin 8, t.tmr.chan[n] = if (m.getLsbD n.val && s.tmrMay p n) = true ∧ s.tmr.chan[n].period ≠ 0#32
            then { s.tmr.chan[n] with running := true, count := 0#32 } else s.tmr.chan[n]) ∧ t = { s with tmr := { s.tmr with chan := t.tmr.chan } }) ∧
  (∀ (p : Path) (m : Byte) (n : Fin 8) (s : State),
      m.getLsbD n.val = true → s.tmrMay p n = true → s.tmr.chan[n].running = true → 
      ∃ t, exec (.tmrStop p m) s = .next t ∧ t.tmr.chan[n] = { s.tmr.chan[n] with running := false, ctrl := s.tmr.chan[n].ctrlNext.getD s.tmr.chan[n].ctrl, period := s.tmr.chan[n].periodNext.getD s.tmr.chan[n].period, compare := s.tmr.chan[n].compareNext.getD s.tmr.chan[n].compare, ctrlNext := none, periodNext := none, compareNext := none } ∧
        t = { s with tmr := { s.tmr with chan := t.tmr.chan } }) ∧
  (∀ (n : Fin 8) (s : State),
      s.tmr.chan[n].running = true → s.tmr.chan[n].period ≠ 0#32 → s.tmr.chan[n].evsel = false → s.tmr.chan[n].oneshot = false → s.tmr.chan[n].periodNext = none → s.tmr.trigSrc.toNat = n.val + 1 → 
      ∃ t, exec (.periodEvent n) s = .next t ∧ t.tmr.chan[n].count = 0#32 ∧ t.tmr.chan[n].running = true ∧ t.tmr.chan[n].period = s.tmr.chan[n].period ∧
        t.tmr.trigOut = true ∧ t.tmr.pulseLeft = Nat.max s.tmr.trigWidth.toNat 1 ∧
        t.eye = (if s.eye.trigSrc.toNat = n.val + 1 then { s.eye with arriving := s.eye.arriving ++ [t.clk.tick] } else s.eye) ∧
        t.clk.tick = s.clk.tick + BitVec.ofNat 64 (s.tmr.chan[n].period.toNat - s.tmr.chan[n].count.toNat) ∧ t.mem = s.mem ∧ t.lanes = s.lanes) ∧
  (∀ (n : Fin 8) (s : State),
      s.tmr.chan[n].running = true → s.tmr.chan[n].period ≠ 0#32 → s.tmr.chan[n].oneshot = true → s.tmr.trigSrc = 0#4 → 
      ∃ t, exec (.periodEvent n) s = .next t ∧ t.tmr.chan[n].count = 0#32 ∧ t.tmr.chan[n].running = false ∧ t.mem = s.mem ∧ t.lanes = s.lanes) ∧
  (∀ (n : Fin 8) (s : State),
      s.tmr.chan[n].running = true → s.tmr.chan[n].compare ≠ 0#32 → s.tmr.chan[n].compare.toNat < s.tmr.chan[n].period.toNat → s.tmr.chan[n].count.toNat ≤ s.tmr.chan[n].compare.toNat → s.tmr.chan[n].evsel = true → s.tmr.trigSrc.toNat = n.val + 1 → 
      ∃ t, exec (.compareEvent n) s = .next t ∧ t.tmr.trigOut = true ∧ t.tmr.pulseLeft = Nat.max s.tmr.trigWidth.toNat 1 ∧ t.tmr.chan[n].count = s.tmr.chan[n].compare ∧
        t.clk.tick = s.clk.tick + BitVec.ofNat 64 (s.tmr.chan[n].compare.toNat - s.tmr.chan[n].count.toNat) ∧ t.mem = s.mem ∧ t.lanes = s.lanes) ∧
  (∀ (p : Path) (s : State),
      exec (.pulse p) s = .next { s with tmr := { s.tmr with trigOut := true, pulseReq := true, pulseLeft := Nat.max s.tmr.trigWidth.toNat 1 } }) ∧
  (∀ (s : State),
      s.tmr.trigOut = true → 
      ∃ t, exec .trigOutPulseEnd s = .next t ∧ t.tmr.trigOut = false ∧ t.tmr.pulseReq = false ∧ t.tmr.pulseLeft = 0 ∧
        t.clk.tick = s.clk.tick + BitVec.ofNat 64 s.tmr.pulseLeft ∧ t.mem = s.mem ∧ t.lanes = s.lanes) ∧
  (∀ (b : Bool) (s : State),
      ∃ t, exec (.trigInEdge b) s = .next t ∧ t.tmr = { s.tmr with
          trigInLevel := b, trigInEdges := if b && !s.tmr.trigInLevel then s.tmr.trigInEdges + 1#16 else s.tmr.trigInEdges } ∧
        t.eye = (if b && !s.tmr.trigInLevel && s.eye.trigSrc == 9#4 then { s.eye with arriving := s.eye.arriving ++ [s.clk.tick + 2#64] } else s.eye) ∧
        t = { s with tmr := t.tmr, eye := t.eye, ear := t.ear }) ∧
  (∀ (c : Caller) (s : State),
      Takes c s → 
      ∃ t, exec (.trigState c) s = .next t ∧ t.quiet = s.quiet ∧ Replied c (okLine c "TRIG" [bareF "STATE", usF "width" s.tmr.trigWidth.toNat,
          decF "trigin" (boolNat s.tmr.trigInLevel), decF "edges" s.tmr.trigInEdges.toNat]) t) ∧
  (∀ (c : Caller) (n : Fin 8) (a b : Nat) (s : State),
      Takes c s → usTicks a < 4294967296 → usTicks b < 4294967296 → usTicks a ≠ 0 → s.tmrHeld n = false → s.tmr.chan[n].running = false → 
      ∃ t, exec (.trigTmr c n (some a) (some b) (some true)) s = .next t ∧ t.tmr.chan[n].period = w32 (usTicks a) ∧ t.tmr.chan[n].compare = w32 (usTicks b) ∧
        t.tmr.chan[n].running = true ∧ t.tmr.chan[n].count = 0#32 ∧ (∀ m, m ≠ n → t.tmr.chan[m] = s.tmr.chan[m]) ∧
        t = { s with tmr := { s.tmr with chan := t.tmr.chan }, call := t.call, host := t.host } ∧ Replied c (okLine c "TRIG" (trigTmrFields n t)) t) ∧
  (∀ (c : Caller) (n : Fin 8) (a b : Option Nat) (o : Option Bool) (s : State),
      Takes c s → usOk 32 a = true → usOk 32 b = true → s.tmrHeld n = true → 
      ∃ t, exec (.trigTmr c n a b o) s = .next t ∧ t.quiet = s.quiet ∧ Replied c ⟨.fail, "TRIG", c.tag, [bareF "E.STATE"]⟩ t) ∧
  (∀ (c : Caller) (n : Option (Fin 8)) (s : State),
      Takes c s → 
      ∃ t, exec (.trigOut c n) s = .next t ∧ t.tmr = { s.tmr with trigSrc := BitVec.ofNat 4 ((n.map fun (n : Fin 8) => n.val + 1).getD 0) } ∧
        t = { s with tmr := t.tmr, call := t.call, host := t.host } ∧ Replied c (okLine c "TRIG" (trigOutFields t)) t) ∧
  (∀ (c : Caller) (w : Nat) (s : State),
      Takes c s → usTicks w < 65536 → 
      ∃ t, exec (.trigPulse c (some w)) s = .next t ∧ t.tmr = { s.tmr with trigWidth := BitVec.ofNat 16 (usTicks w), trigOut := true, pulseReq := true, pulseLeft := Nat.max (usTicks w) 1 } ∧
        t = { s with tmr := t.tmr, call := t.call, host := t.host } ∧ Replied c (okLine c "TRIG" [bareF "PULSE", usF "width" (usTicks w)]) t)

/-- Cases of characters, BREAK, lines, CALL_TX and CALL_CTS_N (R323, R324, R331, R333, R334, R335, R336, R337, R338, R348, R384,
R387). CALL_CHAR_RECEIVED while the rate is measured: a character whose bit 0 is 0, or of a rate below 9,600 or above 3,000,000,
or above 460,800 while the line runs from REF, changes nothing; a printable one with bit 0 at 1, in range, locks the rate and is
data. Once it is locked, after latching began: with room in buffer and line a printable character enters the line and is echoed
where echo acts; in TERSE mode a control character but tab, LF and CR enters and spoils the line; CR ends the line; an LF after
a CR is only echoed, where echo acts; in TEXT mode BS takes the last character, and 0x15 and 0x03 the whole line. At a full
buffer a character, but an LF after a CR, is lost, counted, and the line is damaged; a printable one beyond 256 makes the line
too long. BREAK empties what was received, ends a WAIT of the Call line with E.BUSY break, and measures the rate again; after
the banner it returns the options to TEXT mode and sends BREAK; before the banner that line is kept for after it. CALL_LINE_RUN,
after the banner, with no call running and its processor working: a line of spaces does nothing, one too long or damaged fails
with E.SYNTAX and a damaged one tells the characters lost, one that spells no call fails with its error, and one that spells
HEAT, LANE OPEN or GET runs as that call; HELLO, outside recovery, replies. Where the processor does not work the line waits.
CALL_TX_LINE sends the oldest item, whole, and waits while flow is on and CALL_CTS_N is high. CALL_CTS_N_CHANGE keeps the level.
That a BREAK or a line is taken in full at its moment is the model's choice (notes/assumptions/13). These forms answer a next
state, with their own effect, where their clauses say: CALL_CHAR_RECEIVED, CALL_CTS_N_CHANGE, BREAK, CALL_LINE_RUN,
CALL_TX_LINE. -/
def Obligations.CallLineReceives : Prop :=
  (∀ (b : Byte) (r : Nat) (s : State),
      s.call.measuring = true → b.getLsbD 0 = false ∨ r < 9600 ∨ 3000000 < r → 
      exec (.callCharReceived b r) s = .next s) ∧
  (∀ (b : Byte) (r : Nat) (s : State),
      s.call.measuring = true → s.clk.callClock = .ref → 460800 < r → 
      exec (.callCharReceived b r) s = .next s) ∧
  (∀ (b : Byte) (r : Nat) (s : State),
      s.start.latching = true → s.call.measuring = true → b.getLsbD 0 = true → 0x20 < b.toNat ∧ b.toNat < 0x7F → 9600 ≤ r ∧ r ≤ 3000000 → s.clk.callClock ≠ .ref ∨ r ≤ 460800 → s.call.held < 512 → s.call.part.length < 256 → 
      ∃ t, exec (.callCharReceived b r) s = .next t ∧ t.call.measuring = false ∧ t.call.locked = true ∧ t.call.baud = BitVec.ofNat 22 r ∧
        t.call.part = s.call.part ++ [b] ∧ t.call.lines = s.call.lines ∧ t = { s with call := t.call }) ∧
  (∀ (b : Byte) (r : Nat) (s : State),
      s.start.latching = true → s.call.measuring = false → 0x20 ≤ b.toNat ∧ b.toNat < 0x7F → s.call.held < 512 → s.call.part.length < 256 → 
      exec (.callCharReceived b r) s = .next { s with call := { s.call with
        part := s.call.part ++ [b], afterCr := false, tx := s.call.tx ++ (if s.echoing then [.chars [b]] else []) } }) ∧
  (∀ (b : Byte) (r : Nat) (s : State),
      s.start.latching = true → s.call.measuring = false → b.toNat < 0x20 ∨ 0x7E < b.toNat → b ≠ 0x09#8 ∧ b ≠ 0x0A#8 ∧ b ≠ 0x0D#8 → s.call.terse = true → s.call.held < 512 → s.call.part.length < 256 → 
      exec (.callCharReceived b r) s = .next { s with call := { s.call with part := s.call.part ++ [b], partBad := true, afterCr := false } }) ∧
  (∀ (r : Nat) (s : State),
      s.start.latching = true → s.call.measuring = false → s.call.held < 512 → 
      ∃ t, exec (.callCharReceived 0x0D#8 r) s = .next t ∧ t = { s with call := t.call } ∧ t.call.part = [] ∧ t.call.afterCr = true ∧
        t.call.lines = s.call.lines ++ [⟨s.call.part, s.call.partLong, s.call.partBad, s.call.partDamaged⟩]) ∧
  (∀ (r : Nat) (s : State),
      s.start.latching = true → s.call.measuring = false → s.call.afterCr = true → 
      exec (.callCharReceived 0x0A#8 r) s = .next { s with call := { s.call with afterCr := false, tx := s.call.tx ++ (if s.echoing then [.chars [0x0A#8]] else []) } }) ∧
  (∀ (r : Nat) (s : State),
      s.start.latching = true → s.call.measuring = false → s.call.held < 512 → s.call.terse = false → s.call.part ≠ [] → 
      ∃ t, exec (.callCharReceived 0x08#8 r) s = .next t ∧ t = { s with call := t.call } ∧ t.call.part = s.call.part.dropLast ∧ t.call.lines = s.call.lines) ∧
  (∀ (r : Nat) (s : State),
      s.start.latching = true → s.call.measuring = false → s.call.held < 512 → s.call.terse = false → 
      ∃ t, exec (.callCharReceived 0x15#8 r) s = .next t ∧ t = { s with call := t.call } ∧ t.call.part = [] ∧ t.call.lines = s.call.lines) ∧
  (∀ (r : Nat) (s : State),
      s.start.latching = true → s.call.measuring = false → s.call.held < 512 → s.call.terse = false → 
      ∃ t, exec (.callCharReceived 0x03#8 r) s = .next t ∧ t = { s with call := t.call } ∧ t.call.part = [] ∧ t.call.lines = s.call.lines) ∧
  (∀ (b : Byte) (r : Nat) (s : State),
      s.start.latching = true → s.call.measuring = false → b ≠ 0x0A#8 ∨ s.call.afterCr = false → 512 ≤ s.call.held → 
      exec (.callCharReceived b r) s = .next { s with call := { s.call with lost := s.call.lost + 1, partDamaged := true, afterCr := b == 0x0D#8 } }) ∧
  (∀ (b : Byte) (r : Nat) (s : State),
      s.start.latching = true → s.call.measuring = false → 0x20 ≤ b.toNat ∧ b.toNat < 0x7F → s.call.held < 512 → 256 ≤ s.call.part.length → 
      ∃ t, exec (.callCharReceived b r) s = .next t ∧ t = { s with call := t.call } ∧ t.call.part = s.call.part ∧ t.call.partLong = true) ∧
  (∀ (s : State),
      s.start.latching = true → s.start.banner = false → 
      ∃ t, exec .lineBreak s = .next t ∧ t.call.lines = [] ∧ t.call.part = [] ∧ t.call.measuring = true ∧
        t = { s with call := t.call, host := t.host, start := { s.start with early := s.start.early ++ [Line.evt "BREAK" []] } }) ∧
  (∀ (s : State),
      s.start.latching = true → s.start.banner = true → 
      ∃ t, exec .lineBreak s = .next t ∧ t = { s with call := t.call, host := t.host } ∧ t.call.lines = [] ∧ t.call.part = [] ∧ t.call.wait = none ∧
        t.call.terse = false ∧ t.call.echo = true ∧ t.call.events = true ∧ t.call.check = false ∧ t.call.flow = false ∧ t.call.measuring = true ∧
        TxItem.line (Line.evt "BREAK" []) ∈ t.call.tx) ∧
  (∀ (w : WaitRec) (s : State),
      s.start.latching = true → s.call.wait = some w → w.caller.path = .call → 
      ∃ t, exec .lineBreak s = .next t ∧ TxItem.line ⟨.fail, "WAIT", w.caller.tag, [bareF "E.BUSY", bareF "break"]⟩ ∈ t.call.tx ∧ t.call.running = none) ∧
  (∀ (x : RxLine) (rest : List RxLine) (s : State),
      s.start.banner = true → s.call.running = none → s.coxWorks s.faults.callCox = true → s.call.lines = x :: rest → x.damaged = false → x.long = false → x.badChar = false → x.text.all isSpace = true → 
      exec .callLineRun s = .next { s with call := { s.call with lines := rest } }) ∧
  (∀ (x : RxLine) (rest : List RxLine) (s : State),
      s.start.banner = true → s.call.running = none → s.coxWorks s.faults.callCox = true → s.call.lines = x :: rest → x.damaged = false → x.long = true → 
      ∃ t, exec .callLineRun s = .next t ∧ t.quiet = { s with call := { s.call with lines := rest } }.quiet ∧ TxItem.line ⟨.fail, "?", none, [bareF "E.SYNTAX", bareF "long"]⟩ ∈ t.call.tx) ∧
  (∀ (x : RxLine) (rest : List RxLine) (s : State),
      s.start.banner = true → s.call.running = none → s.coxWorks s.faults.callCox = true → s.call.lines = x :: rest → x.damaged = true → 
      ∃ t, exec .callLineRun s = .next t ∧ t.call.lost = 0 ∧ t.lanes = s.lanes ∧ TxItem.line ⟨.fail, "?", none, [bareF "E.SYNTAX"]⟩ ∈ t.call.tx ∧
        (s.call.lost ≠ 0 → TxItem.line (Line.evt "CALL LOST" [("", .dec s.call.lost)]) ∈ t.call.tx)) ∧
  (∀ (x : RxLine) (rest : List RxLine) (v : String) (g : Option (List Byte)) (e : Err) (d : List String) (s : State),
      s.start.banner = true → s.call.running = none → s.coxWorks s.faults.callCox = true → s.call.lines = x :: rest → x.damaged = false → x.long = false → x.badChar = false → x.text.all isSpace = false → parseLine Caller.line s.call.terse s.call.check x.text = .bad v g e d → 
      ∃ t, exec .callLineRun s = .next t ∧ t.quiet = { s with call := { s.call with lines := rest } }.quiet ∧ TxItem.line ⟨.fail, v, g, bareF e.text :: d.map bareF⟩ ∈ t.call.tx) ∧
  (∀ (x : RxLine) (rest : List RxLine) (c : Caller) (l : LaneId) (q : Option W32) (h e : Nat) (a : List HeatArg) (s : State),
      s.start.banner = true → s.call.running = none → s.coxWorks s.faults.callCox = true → s.call.lines = x :: rest → x.damaged = false → x.long = false → x.badChar = false → x.text.all isSpace = false → parseLine Caller.line s.call.terse s.call.check x.text = .call (.heat c l q h e a) → 
      exec .callLineRun s = exec (.heat c l q h e a) { s with call := { s.call with lines := rest } }) ∧
  (∀ (x : RxLine) (rest : List RxLine) (c : Caller) (l : LaneId) (q : Option W32) (p : Option (BitVec 2)) (s : State),
      s.start.banner = true → s.call.running = none → s.coxWorks s.faults.callCox = true → s.call.lines = x :: rest → x.damaged = false → x.long = false → x.badChar = false → x.text.all isSpace = false → parseLine Caller.line s.call.terse s.call.check x.text = .call (.laneOpen c l q p) → 
      exec .callLineRun s = exec (.laneOpen c l q p) { s with call := { s.call with lines := rest } }) ∧
  (∀ (x : RxLine) (rest : List RxLine) (c : Caller) (s : State),
      s.start.banner = true → s.call.running = none → s.coxWorks s.faults.callCox = true → s.call.lines = x :: rest → x.damaged = false → x.long = false → x.badChar = false → x.text.all isSpace = false → c.path = .call → s.keys.recovery = false → parseLine Caller.line s.call.terse s.call.check x.text = .call (.hello c) → 
      ∃ t, exec .callLineRun s = .next t ∧ t.quiet = { s with call := { s.call with lines := rest } }.quiet ∧ Replied c (okLine c "HELLO" [bareF "LZ-480", symF "call" "1.0",
          symF "path" "CALL", symF "mode" (if s.call.terse then "TERSE" else "TEXT")]) t) ∧
  (∀ (x : RxLine) (rest : List RxLine) (c : Caller) (r : RegRef) (f : Option (List Byte)) (n : Option Nat) (s : State),
      s.start.banner = true → s.call.running = none → s.coxWorks s.faults.callCox = true → s.call.lines = x :: rest → x.damaged = false → x.long = false → x.badChar = false → x.text.all isSpace = false → parseLine Caller.line s.call.terse s.call.check x.text = .call (.get c r f n) → 
      exec .callLineRun s = exec (.get c r f n) { s with call := { s.call with lines := rest } }) ∧
  (∀ (s : State),
      s.coxWorks s.faults.callCox = false → 
      exec .callLineRun s = .next s) ∧
  (∀ (i : TxItem) (rest : List TxItem) (s : State),
      s.call.tx = i :: rest → s.call.flow = false ∨ s.call.ctsN = false → 
      exec .callTxLine s = .next { s with call := { s.call with tx := rest, txLast := some i, sent := s.call.wire i } }) ∧
  (∀ (s : State),
      s.call.flow = true → s.call.ctsN = true → 
      exec .callTxLine s = .next s) ∧
  (∀ (h : Bool) (s : State),
      exec (.callCtsNChange h) s = .next { s with call := { s.call with ctsN := h } })

/-- Cases of HELLO, INFO, HELP, ECHO, MODE, RESET and LEASE (R330, R332, R342, R348, R350, R352, R367). After the banner, of a
caller whose line is free. HELLO and INFO reply with what they report; HELP and its list of verbs reply with a line for each
verb; HELP of a verb replies OK and of a word that is none fails with E.SYNTAX; none changes anything. On the Call line ECHO and
MODE set their options, those not given staying; on the host link both fail with E.STATE. RESET CALL empties the Call line,
returns it to TEXT mode, measures the rate again, replies and sends a banner; RESET WARM outside recovery replies and asks for
the warm reset, in recovery it fails with E.STATE. Outside recovery LEASE without a period reports from the Call line, where a
period fails with E.LANE; from the host link, with the lease active, 100 to 60,000 ms set the period and renew the lease, and
another period fails with E.RANGE. The wording of INFO and HELP is the model's (notes/assumptions/13). These forms answer a next
state, with their own effect, where their clauses say: HELLO, INFO, HELP, VERB_LIST, ECHO, MODE, RESET_CALL, RESET_WARM, LEASE.
-/
def Obligations.SessionVerbs : Prop :=
  (∀ (c : Caller) (s : State),
      s.start.banner = true → s.lineBusy c = false → 
      ∃ t, exec (.hello c) s = .next t ∧ t.quiet = s.quiet ∧ Replied c (okLine c "HELLO" [bareF "LZ-480", symF "call" "1.0",
          symF "path" (match c.path with | .call => "CALL" | .host => "HOST"), symF "mode" (if s.call.terse || c.path == .host then "TERSE" else "TEXT")]) t) ∧
  (∀ (c : Caller) (s : State),
      s.start.banner = true → s.lineBusy c = false → 
      ∃ t, exec (.info c) s = .next t ∧ t.quiet = s.quiet ∧ Replied c (okLine c "INFO" [bareF "LZ-480", decF "rev" (revision s), ("fw", fwText s),
          symF "service" (if s.keys.recovery then "RECOVERY" else if s.confidential then "CONFIDENTIAL" else "NORMAL"),
          symF "timebase" (if s.clk.degraded then "DEGRADED" else "REF"),
          symF "dram" (if s.mem.trained then toString (512 * s.mem.fitted.toNat) ++ "MIB" else "NONE"),
          symF "shells" (toString (s.serviceCount - (s.shellsIn .spare).length) ++ "+" ++ toString (s.shellsIn .spare).length),
          symF "variant" (variantText s.serviceCount), symF "lock" (if s.locked then "FIELD" else "OPEN"), decF "baud" s.call.baud.toNat]) t) ∧
  (∀ (c : Caller) (s : State),
      s.start.banner = true → s.lineBusy c = false → 
      ∃ t, exec (.help c none) s = .next t ∧ t.quiet = s.quiet ∧ Replied c (okLine c "HELP" []) t ∧
        ∀ l ∈ helpLines (s.call.terse || c.path == .host) (verbs.map fun v => v.1 ++ " " ++ verbShort v), Replied c (dataLine c l) t) ∧
  (∀ (c : Caller) (s : State),
      exec (.verbList c) s = exec (.help c none) s) ∧
  (∀ (c : Caller) (s : State),
      s.start.banner = true → s.lineBusy c = false → 
      ∃ t, exec (.verbList c) s = .next t ∧ t.quiet = s.quiet ∧ Replied c (okLine c "HELP" []) t ∧
        ∀ l ∈ helpLines (s.call.terse || c.path == .host) (verbs.map fun v => v.1 ++ " " ++ verbShort v), Replied c (dataLine c l) t) ∧
  (∀ (c : Caller) (w : List Byte) (v : String) (s : State),
      s.start.banner = true → s.lineBusy c = false → verbOf (s.call.terse || c.path == .host) w = .verb v → 
      ∃ t, exec (.help c (some w)) s = .next t ∧ t.quiet = s.quiet ∧ Replied c (okLine c "HELP" []) t) ∧
  (∀ (c : Caller) (w : List Byte) (s : State),
      s.start.banner = true → s.lineBusy c = false → verbOf (s.call.terse || c.path == .host) w = .unknown → 
      ∃ t, exec (.help c (some w)) s = .next t ∧ t.quiet = s.quiet ∧ Replied c ⟨.fail, "HELP", c.tag, [bareF "E.SYNTAX", bareF "verb"]⟩ t) ∧
  (∀ (c : Caller) (on : Bool) (s : State),
      s.start.banner = true → s.lineBusy c = false → c.path = .call → 
      ∃ t, exec (.echo c on) s = .next t ∧ t.call.echo = on ∧ t.quiet = { s with call := { s.call with echo := on } }.quiet ∧ Replied c (okLine c "ECHO" [bareF (onOff on)]) t) ∧
  (∀ (c : Caller) (on : Bool) (s : State),
      s.start.banner = true → s.lineBusy c = false → c.path = .host → 
      ∃ t, exec (.echo c on) s = .next t ∧ t.quiet = s.quiet ∧ Replied c ⟨.fail, "ECHO", c.tag, [bareF "E.STATE"]⟩ t) ∧
  (∀ (c : Caller) (m : Bool) (k e f : Option Bool) (s : State),
      s.start.banner = true → s.lineBusy c = false → c.path = .call → 
      ∃ t, exec (.mode c m k e f) s = .next t ∧ t.call.terse = m ∧ t.call.check = k.getD s.call.check ∧ t.call.events = e.getD s.call.events ∧
        t.call.flow = f.getD s.call.flow ∧ t.call.echo = s.call.echo ∧ t = { s with call := t.call } ∧
        Replied c (okLine c "MODE" [bareF (if m then "TERSE" else "TEXT"), symF "check" (onOff t.call.check), symF "events" (onOff t.call.events), symF "flow" (onOff t.call.flow)]) t) ∧
  (∀ (c : Caller) (m : Bool) (k e f : Option Bool) (s : State),
      s.start.banner = true → s.lineBusy c = false → c.path = .host → 
      ∃ t, exec (.mode c m k e f) s = .next t ∧ t.quiet = s.quiet ∧ Replied c ⟨.fail, "MODE", c.tag, [bareF "E.STATE"]⟩ t) ∧
  (∀ (c : Caller) (s : State),
      s.start.banner = true → s.lineBusy c = false → 
      ∃ t, exec (.resetCall c) s = .next t ∧ t = { s with call := t.call, host := t.host } ∧ t.call.lines = [] ∧ t.call.part = [] ∧ t.call.terse = false ∧
        t.call.echo = true ∧ t.call.events = true ∧ t.call.check = false ∧ t.call.flow = false ∧ t.call.measuring = true ∧
        TxItem.line (bannerLine "CALL" s) ∈ t.call.tx ∧ Replied c (okLine c "RESET" [bareF "CALL"]) t) ∧
  (∀ (c : Caller) (s : State),
      Takes c s → 
      ∃ t, exec (.resetWarm c) s = .next t ∧ t.start = { s.start with warmPending := some .resetWarm } ∧
        t.quiet = { s with start := { s.start with warmPending := some .resetWarm } }.quiet ∧ Replied c (okLine c "RESET" [bareF "WARM"]) t) ∧
  (∀ (c : Caller) (s : State),
      s.start.banner = true → s.lineBusy c = false → s.keys.recovery = true → 
      ∃ t, exec (.resetWarm c) s = .next t ∧ t.quiet = s.quiet ∧ Replied c ⟨.fail, "RESET", c.tag, [bareF "E.STATE"]⟩ t) ∧
  (∀ (c : Caller) (s : State),
      Takes c s → c.path = .call → 
      ∃ t, exec (.lease c none) s = .next t ∧ t.quiet = s.quiet ∧ Replied c (okLine c "LEASE" [decF "period" s.host.period.toNat, decF "left" (leaseMs s)]) t) ∧
  (∀ (c : Caller) (n : Nat) (s : State),
      Takes c s → c.path = .call → 
      ∃ t, exec (.lease c (some n)) s = .next t ∧ t.quiet = s.quiet ∧ Replied c ⟨.fail, "LEASE", c.tag, [bareF "E.LANE"]⟩ t) ∧
  (∀ (c : Caller) (n : Nat) (s : State),
      Takes c s → c.path = .host → 100 ≤ n ∧ n ≤ 60000 → s.host.leaseActive = true → 
      ∃ t, exec (.lease c (some n)) s = .next t ∧ t.host.period.toNat = n ∧ t.host.leaseLeft = msSlow n ∧ t.host.leaseActive = true ∧ t.lanes = s.lanes ∧
        t = { s with host := t.host } ∧ Replied c (okLine c "LEASE" [decF "period" n, decF "left" (leaseMs t)]) t) ∧
  (∀ (c : Caller) (n : Nat) (s : State),
      Takes c s → c.path = .host → n < 100 ∨ 60000 < n → 
      ∃ t, exec (.lease c (some n)) s = .next t ∧ t.quiet = s.quiet ∧ Replied c ⟨.fail, "LEASE", c.tag, [bareF "E.RANGE"]⟩ t)

/-- Cases of GET, SET and register accesses (R8, R9, R10, R37, R343, R371, R453, R454, R455, R458). REGISTER_WRITE: LANEn_PRIO
by the lane's owner sets the priority, with the record in force before kept, and by another does nothing; a 1 written to a LOST
bit of FAULT_CLOCK, to HOST_IRQ by the host or the String Port, or to bit 0 of GLB_STATUS clears it; MEM_ROTPACE and, by the
host or the String Port, HOST_IRQ_EN take what is written; HOST_IRQ by the Call line or a Cox processor, an offset below 0x1000,
and one that is no multiple of 4, change nothing; a free region's base takes the value, and a valid region's size stays. Of a
call that is taken: GET of a tally replies with it; GET of up to three of a lane's registers from LANEn_PRIO on replies with a
line for each, to the owner, and with 0 to another; GET of an offset beyond the window or no multiple of 4, and SET of a name
that no register has or of a value of 2^32 or more, fail with E.RANGE; SET and SET of the field PRIO of LANEn_PRIO by the owner
store the value and reply with the value read after it, and a value of 4 or more in the field fails with E.RANGE; beside the
named effect and the reply nothing changes. LO_REGISTER_READ of the tick count by the host answers its lower half and saves the
upper half for the path; of a lane's seed by its owner it saves its upper half. HOST_QSPI_READ by the host answers both counts
and clears them. These forms answer a next state, with their own effect, where their clauses say: LO_REGISTER_READ, GET, SET,
SET_FIELD, HOST_QSPI_READ, REGISTER_WRITE. -/
def Obligations.RegistersAreReadAndWritten : Prop :=
  (∀ (p : Path) (l : LaneId) (v : W32) (s : State),
      s.ownsLane p l = true → 
      exec (.registerWrite p (BitVec.ofNat 18 (0x2004 + 0x400 * l.val)) v) s = .next (s.setLane l fun L => { L with prio := v.setWidth 2, prev := some L.record })) ∧
  (∀ (p : Path) (l : LaneId) (v : W32) (s : State),
      s.ownsLane p l = false → 
      exec (.registerWrite p (BitVec.ofNat 18 (0x2004 + 0x400 * l.val)) v) s = .next s) ∧
  (∀ (p : Path) (v : W32) (s : State),
      exec (.registerWrite p (BitVec.ofNat 18 0x5000) v) s = .next { s with clk := { s.clk with lost := s.clk.lost &&& ~~~(v.setWidth 14) } }) ∧
  (∀ (p : Path) (v : W32) (s : State),
      p = .host ∨ p = .string → 
      exec (.registerWrite p (BitVec.ofNat 18 0xE00C) v) s = .next { s with host := { s.host with irq := s.host.irq &&& ~~~(v.setWidth 8) } }) ∧
  (∀ (p : Path) (v : W32) (s : State),
      p = .call ∨ p = .cox → 
      exec (.registerWrite p (BitVec.ofNat 18 0xE00C) v) s = .next s) ∧
  (∀ (p : Path) (v : W32) (s : State),
      p = .host ∨ p = .string → 
      exec (.registerWrite p (BitVec.ofNat 18 0xE010) v) s = .next { s with host := { s.host with irqEn := v &&& 0xFF#32 } }) ∧
  (∀ (p : Path) (v : W32) (s : State),
      p = .call ∨ p = .host → v.getLsbD 0 = true → 
      exec (.registerWrite p (BitVec.ofNat 18 0x1000) v) s = .next { s with start := { s.start with logLost := false } }) ∧
  (∀ (p : Path) (v : W32) (s : State),
      exec (.registerWrite p (BitVec.ofNat 18 0x8014) v) s = .next { s with mem := { s.mem with rotPace := v.setWidth 16 } }) ∧
  (∀ (p : Path) (r : Fin 32) (v : W32) (s : State),
      s.mem.region[r].valid = false → 
      exec (.registerWrite p (BitVec.ofNat 18 (0x8100 + 0x10 * r.val)) v) s = .next (s.setRegion r fun g => { g with base := v.setWidth 18 })) ∧
  (∀ (p : Path) (r : Fin 32) (v : W32) (s : State),
      s.mem.region[r].valid = true → 
      exec (.registerWrite p (BitVec.ofNat 18 (0x8104 + 0x10 * r.val)) v) s = .next s) ∧
  (∀ (p : Path) (o : BitVec 18) (v : W32) (s : State),
      o.toNat < 0x1000 ∨ o.toNat % 4 ≠ 0 → 
      exec (.registerWrite p o v) s = .next s) ∧
  (∀ (c : Caller) (k : Fin 1024) (s : State),
      Takes c s → 
      ∃ t, exec (.get c (.offset (0x3000 + 4 * k.val)) none none) s = .next t ∧ t.quiet = s.quiet ∧ Replied c (okLine c "GET" [("", hexOff (0x3000 + 4 * k.val)), bareF ("TALLY" ++ toString k.val), ("", hexReg (s.tally k.val))]) t) ∧
  (∀ (c : Caller) (l : LaneId) (n : Nat) (s : State),
      Takes c s → 1 ≤ n ∧ n ≤ 3 → (s.ownsLane c.path.path l) = true → 
      ∃ t, exec (.get c (.offset (0x2004 + 0x400 * l.val)) none (some n)) s = .next t ∧ t.quiet = s.quiet ∧ Replied c (okLine c "GET" [("", .dec n)]) t ∧
        ∀ k, k < n → Replied c (dataLine c (regLine (0x2004 + 0x400 * l.val + 4 * k)
          (hexReg ([(s.lane l).prio.setWidth 32, (s.lane l).next, (s.lane l).oldest].getD k 0#32)))) t) ∧
  (∀ (c : Caller) (l : LaneId) (s : State),
      Takes c s → (s.ownsLane c.path.path l) = false → 
      ∃ t, exec (.get c (.offset (0x2004 + 0x400 * l.val)) none none) s = .next t ∧ t.quiet = s.quiet ∧ Replied c (okLine c "GET" (regLine (0x2004 + 0x400 * l.val) (hexReg 0#32))) t) ∧
  (∀ (c : Caller) (o : Nat) (f : Option (List Byte)) (n : Option Nat) (s : State),
      Takes c s → o % 4 ≠ 0 ∨ 0x40000 ≤ o → 
      ∃ t, exec (.get c (.offset o) f n) s = .next t ∧ t.quiet = s.quiet ∧ Replied c ⟨.fail, "GET", c.tag, [bareF "E.RANGE"]⟩ t) ∧
  (∀ (c : Caller) (m : List Byte) (v : Nat) (s : State),
      Takes c s → regOffset m = none → 
      ∃ t, exec (.set c (.name m) v) s = .next t ∧ t.quiet = s.quiet ∧ Replied c ⟨.fail, "SET", c.tag, [bareF "E.RANGE"]⟩ t) ∧
  (∀ (c : Caller) (l : LaneId) (v : Nat) (s : State),
      Takes c s → v < 2 ^ 32 → s.ownsLane c.path.path l = true → 
      ∃ t, exec (.set c (.offset (0x2004 + 0x400 * l.val)) v) s = .next t ∧ (t.lane l).prio = BitVec.ofNat 2 v ∧
        t.quiet = (s.setLane l fun L => { L with prio := BitVec.ofNat 2 v, prev := some L.record }).quiet ∧ Replied c (okLine c "SET" (regLine (0x2004 + 0x400 * l.val) (hexReg (w32 (v % 4))))) t) ∧
  (∀ (c : Caller) (o v : Nat) (s : State),
      Takes c s → 2 ^ 32 ≤ v → 
      ∃ t, exec (.set c (.offset o) v) s = .next t ∧ t.quiet = s.quiet ∧ Replied c ⟨.fail, "SET", c.tag, [bareF "E.RANGE"]⟩ t) ∧
  (∀ (c : Caller) (l : LaneId) (v : Nat) (s : State),
      Takes c s → v < 4 → s.ownsLane c.path.path l = true → 
      ∃ t, exec (.setField c (.offset (0x2004 + 0x400 * l.val)) (ascii "PRIO") v) s = .next t ∧ (t.lane l).prio = BitVec.ofNat 2 v ∧
        t.quiet = (s.setLane l fun L => { L with prio := BitVec.ofNat 2 v, prev := some L.record }).quiet ∧ Replied c (okLine c "SET" (regLine (0x2004 + 0x400 * l.val) (hexReg (w32 v)))) t) ∧
  (∀ (c : Caller) (l : LaneId) (v : Nat) (s : State),
      Takes c s → 4 ≤ v → 
      ∃ t, exec (.setField c (.offset (0x2004 + 0x400 * l.val)) (ascii "PRIO") v) s = .next t ∧ t.quiet = s.quiet ∧ Replied c ⟨.fail, "SET", c.tag, [bareF "E.RANGE"]⟩ t) ∧
  (∀ (s : State),
      ∃ t, exec (.loRegisterRead .host .tick) s = .next t ∧ t.host = { s.host with answer := (0#8, [s.clk.tick.setWidth 32]) } ∧
        t.shadows[Path.host.idx].tick = some ((s.clk.tick >>> 32).setWidth 32) ∧ t = { s with host := t.host, shadows := t.shadows }) ∧
  (∀ (p : Path) (l : LaneId) (s : State),
      s.ownsLane p l = true → 
      ∃ t, exec (.loRegisterRead p (.spin l)) s = .next t ∧ t.shadows[p.idx].spin[l] = some (((s.lane l).spin >>> 32).setWidth 32) ∧ t.lanes = s.lanes ∧ t.mem = s.mem) ∧
  (∀ (s : State),
      exec (.hostQspiRead .host) s = .next { s with host := { s.host with
        answer := (0#8, [w32 (s.host.dropped.toNat * 65536 + s.host.notReady.toNat)]), dropped := 0#16, notReady := 0#16 } })

/-- Cases of LOAD and DROP (R191, R201, R203, R205, R344). Of a call that is taken. LOAD for a lane that is not the caller's
fails with E.LANE; for lanes that are, of an image in DRAM without DRAM with E.NOREF, and of an image that is not wholly
readable with E.RANGE; each changes nothing but the count of free values drawn. Where the image is read and every check passes,
the bundle is LOADED at a handle that was free or waited, a free one being 0 exactly for the Lookout bundle, with its lanes, id
and source, no other handle changes, and the reply names it; where a check fails the call fails with that error. DROP of a
LOADED bundle of the caller's lanes, not handle 0: with no accepted heat that names it its record is free, its rig frames and
exponents are forgotten, and no other handle changes; with one it fails with E.BUSY. DROP of handle 0 fails with E.LANE, of a
free one with E.STATE, and of 16 or more with E.RANGE. These forms answer a next state, with their own effect, where their
clauses say: LOAD, DROP. -/
def Obligations.BundlesLoadAndDrop : Prop :=
  (∀ (c : Caller) (a n : Nat) (ls : BitVec 4) (b : Bool) (l : LaneId) (s : State),
      Takes c s → ls.getLsbD l.val = true → s.laneOwner l ≠ c.path.owner → 
      ∃ t, exec (.load c a n ls b) s = .next t ∧ t.quiet = { s with free := t.free }.quiet ∧ Replied c ⟨.fail, "LOAD", c.tag, [bareF "E.LANE"]⟩ t) ∧
  (∀ (c : Caller) (a n : Nat) (ls : BitVec 4) (b : Bool) (s : State),
      Takes c s → ∀ l : LaneId, ls.getLsbD l.val = true → s.laneOwner l = c.path.owner → s.dramGone = true → a < 0x400000000 → 
      ∃ t, exec (.load c a n ls b) s = .next t ∧ t.quiet = { s with free := t.free }.quiet ∧ Replied c ⟨.fail, "LOAD", c.tag, [bareF "E.NOREF"]⟩ t) ∧
  (∀ (c : Caller) (a n : Nat) (ls : BitVec 4) (b : Bool) (s : State),
      Takes c s → ∀ l : LaneId, ls.getLsbD l.val = true → s.laneOwner l = c.path.owner → s.dramGone = false ∨ 0x400000000 ≤ a → (List.range (unitSpan a n)).all (fun k => s.readable c.path.path (a / 64 + k)) = false → 
      ∃ t, exec (.load c a n ls b) s = .next t ∧ t.quiet = { s with free := t.free }.quiet ∧ Replied c ⟨.fail, "LOAD", c.tag, [bareF "E.RANGE"]⟩ t) ∧
  (∀ (c : Caller) (a n : Nat) (ls : BitVec 4) (b : Bool) (k : Fin 16) (h : Header) (p : Parsed2) (u s : State),
      Takes c s → loadFor c.path a n ls s = .ok (k, h, p, u) → 
      ∃ t, exec (.load c a n ls b) s = .next t ∧ (s.handleFree k = true ∨ (s.bundle k).st = .waiting) ∧ (s.handleFree k = true → (k = 0 ↔ h.lookout = true)) ∧
        (t.bundle k).st = .loaded ∧ (t.bundle k).lanes = ls ∧ (t.bundle k).id = h.id ∧ (t.bundle k).source = c.path.source ∧ (∀ j, j ≠ k → t.bundle j = s.bundle j) ∧
        Replied c (okLine c "LOAD" [decF "h" k.val, ("id", .hex 16 h.id.toNat), decF "entries" p.entries.length,
          ("variants", .syms (variantNames p.entries)), ("banks", .syms ((t.bundle k).banks.map fun b => toString b.val))]) t) ∧
  (∀ (c : Caller) (a n : Nat) (ls : BitVec 4) (b : Bool) (e : Err) (s : State),
      Takes c s → loadFor c.path a n ls s = .error e → 
      ∃ t, exec (.load c a n ls b) s = .next t ∧ t.quiet = { s with free := t.free }.quiet ∧ Replied c ⟨.fail, "LOAD", c.tag, [bareF e.text]⟩ t) ∧
  (∀ (c : Caller) (h : Fin 16) (s : State),
      Takes c s → h ≠ 0 → (s.bundle h).st = .loaded → ∀ l : LaneId, (s.bundle h).lanes.getLsbD l.val = true → s.laneOwner l = c.path.owner → s.bundleUsed h = false → 
      ∃ t, exec (.drop c h.val) s = .next t ∧ (t.bundle h).st = .free ∧ (∀ k, k ≠ h → t.bundle k = s.bundle k) ∧
        (∀ (i : ShellId) (k : Fin 16), (s.shell i).slots[k].frameAt.any (fun f => f.2 == h) = true → (t.shell i).slots[k] = {}) ∧
        (∀ l : LaneId, (t.lane l).exps = (s.lane l).exps.filter (fun e => e.handle != h)) ∧ Replied c (okLine c "DROP" [("", .dec h.val)]) t) ∧
  (∀ (c : Caller) (h : Fin 16) (s : State),
      Takes c s → h ≠ 0 → (s.bundle h).st = .loaded → ∀ l : LaneId, (s.bundle h).lanes.getLsbD l.val = true → s.laneOwner l = c.path.owner → s.bundleUsed h = true → 
      ∃ t, exec (.drop c h.val) s = .next t ∧ t.quiet = s.quiet ∧ Replied c ⟨.fail, "DROP", c.tag, [bareF "E.BUSY"]⟩ t) ∧
  (∀ (c : Caller) (s : State),
      Takes c s → 
      ∃ t, exec (.drop c 0) s = .next t ∧ t.quiet = s.quiet ∧ Replied c ⟨.fail, "DROP", c.tag, [bareF "E.LANE"]⟩ t) ∧
  (∀ (c : Caller) (h : Fin 16) (s : State),
      Takes c s → h ≠ 0 → (s.bundle h).st = .free → 
      ∃ t, exec (.drop c h.val) s = .next t ∧ t.quiet = s.quiet ∧ Replied c ⟨.fail, "DROP", c.tag, [bareF "E.STATE"]⟩ t) ∧
  (∀ (c : Caller) (h : Nat) (s : State),
      Takes c s → 16 ≤ h → 
      ∃ t, exec (.drop c h) s = .next t ∧ t.quiet = s.quiet ∧ Replied c ⟨.fail, "DROP", c.tag, [bareF "E.RANGE"]⟩ t)

/-- Cases of LOG, STAT and the end of a window (R161, R347, R396, R423, R424, R457). Of a call that is taken (LOG FAULT in
recovery too). LOG FAULT of 1 to 512 sends the newest valid fault records up to that number and their count; of another number
it fails with E.RANGE. LOG of the caller's lane, 1 to 128, sends the newest lines of its journal and their count; of another's
it fails with E.LANE. LOG BUNDLE sends a line for every record in use and the count. STAT of the caller's lane replies with the
statistics of its last heat; of another's it fails with E.LANE. STAT DEVICE replies with the last window's counts, coarse, or,
in confidential mode or for a window that was in it, with -. None changes anything. STAT_WINDOW_END counts the window, shows its
counts, begins the next from 0, and a lane in SCRUB keeps what it showed. The order of a line's fields is the model's
(notes/assumptions/13). These forms answer a next state, with their own effect, where their clauses say: LOG_LANE, LOG_FAULT,
LOG_BUNDLE, STAT_LANE, STAT_DEVICE, STAT_WINDOW_END. -/
def Obligations.LogAndStat : Prop :=
  (∀ (c : Caller) (n : Nat) (s : State),
      s.start.banner = true → s.lineBusy c = false → 1 ≤ n ∧ n ≤ 512 → 
      ∃ t, exec (.logFault c n) s = .next t ∧ t.quiet = s.quiet ∧ (∀ r ∈ (newest n (s.faults.log.filter FaultRec.valid)), Replied c (dataLine c (faultLine r)) t) ∧
        Replied c (okLine c "LOG" [("", .dec (min n (s.faults.log.filter FaultRec.valid).length))]) t) ∧
  (∀ (c : Caller) (n : Nat) (s : State),
      s.start.banner = true → s.lineBusy c = false → n = 0 ∨ 512 < n → 
      ∃ t, exec (.logFault c n) s = .next t ∧ t.quiet = s.quiet ∧ Replied c ⟨.fail, "LOG", c.tag, [bareF "E.RANGE"]⟩ t) ∧
  (∀ (c : Caller) (l : LaneId) (n : Nat) (s : State),
      Takes c s → s.ownsLane c.path.path l = true → 1 ≤ n ∧ n ≤ 128 → 
      ∃ t, exec (.logLane c l n) s = .next t ∧ t.quiet = s.quiet ∧ (∀ x ∈ journalLines (s.lane l) l n, Replied c (dataLine c x) t) ∧
        Replied c (okLine c "LOG" [("", .dec (journalLines (s.lane l) l n).length)]) t) ∧
  (∀ (c : Caller) (l : LaneId) (n : Nat) (s : State),
      Takes c s → s.ownsLane c.path.path l = false → 1 ≤ n ∧ n ≤ 128 → 
      ∃ t, exec (.logLane c l n) s = .next t ∧ t.quiet = s.quiet ∧ Replied c ⟨.fail, "LOG", c.tag, [bareF "E.LANE"]⟩ t) ∧
  (∀ (c : Caller) (s : State),
      Takes c s → 
      ∃ t, exec (.logBundle c) s = .next t ∧ t.quiet = s.quiet ∧ (∀ h : Fin 16, (s.bundle h).st ≠ .free → Replied c (dataLine c (bundleLine h (s.bundle h))) t) ∧
        Replied c (okLine c "LOG" [("", .dec ((List.finRange 16).filter fun h => (s.bundle h).st != .free).length)]) t) ∧
  (∀ (c : Caller) (l : LaneId) (s : State),
      Takes c s → s.ownsLane c.path.path l = true → 
      ∃ t, exec (.statLane c l) s = .next t ∧ t.quiet = s.quiet ∧ Replied c (okLine c "STAT" [laneF l, decF "seq" (s.lane l).hs.seq.toNat, ("flags", .syms (hsFlagNames (s.lane l).hs.flags)),
          decF "i16" (fld (s.lane l).hs.flags 8 8), decF "h16" (fld (s.lane l).hs.flags 16 8), decF "cw" (sat32 (s.lane l).hs.counts.cw).toNat,
          decF "sw" (sat32 (s.lane l).hs.counts.sw).toNat, decF "fw" (sat32 (s.lane l).hs.counts.fw).toNat, decF "nw" (s.lane l).hs.counts.nw,
          decF "readcrab" (sat32 ((s.lane l).hs.counts.cr + (s.lane l).hs.counts.ca)).toNat]) t) ∧
  (∀ (c : Caller) (l : LaneId) (s : State),
      Takes c s → s.ownsLane c.path.path l = false → 
      ∃ t, exec (.statLane c l) s = .next t ∧ t.quiet = s.quiet ∧ Replied c ⟨.fail, "STAT", c.tag, [bareF "E.LANE"]⟩ t) ∧
  (∀ (c : Caller) (s : State),
      Takes c s → s.confidential = false → s.stat.hidden = false → 
      ∃ t, exec (.statDevice c) s = .next t ∧ t.quiet = s.quiet ∧ Replied c (okLine c "STAT" [bareF "DEVICE", decF "window" s.stat.window.toNat,
          decF "strokes" (coarse s.stat.devShown.strokes).toNat, decF "retired" (coarse s.stat.devShown.retired).toNat,
          decF "dramrd" (coarse s.stat.devShown.dramRd).toNat, decF "dramwr" (coarse s.stat.devShown.dramWr).toNat, decF "bh" (coarse s.stat.devShown.bh).toNat,
          decF "codes" (coarse s.stat.devShown.codes).toNat, decF "aes" (coarse s.stat.devShown.aes).toNat, decF "win" (coarse s.stat.devShown.win).toNat]) t) ∧
  (∀ (c : Caller) (s : State),
      Takes c s → s.confidential = true ∨ s.stat.hidden = true → 
      ∃ t, exec (.statDevice c) s = .next t ∧ t.quiet = s.quiet ∧ Replied c (okLine c "STAT" [bareF "DEVICE", decF "window" s.stat.window.toNat,
          ("strokes", .dash), ("retired", .dash), ("dramrd", .dash), ("dramwr", .dash), ("bh", .dash), ("codes", .dash), ("aes", .dash), ("win", .dash)]) t) ∧
  (∀ (s : State),
      ∃ t, exec .statWindowEnd s = .next t ∧ t = { s with stat := t.stat } ∧ t.stat.window = s.stat.window + 1#32 ∧ t.stat.dev = {} ∧ t.stat.devShown = s.stat.dev ∧
        t.stat.hidden = s.confidential ∧
        ∀ l : LaneId, t.stat.lane[l] = {} ∧ t.stat.laneShown[l] = (if (s.lane l).st = .scrub then s.stat.laneShown[l] else s.stat.lane[l]))

/-- Cases of the host rings: doorbells, envelopes, completions, events, heads and resets (R224, R225, R350, R359, R361, R362,
R363, R364, R365, R366, R367). After the banner, with no reset asked for, a DOORBELL at most 64 beyond the head and not behind
the tail moves the tail and renews an active lease; another sets ERR and the interrupt bit and moves nothing; before the banner
it is latched; with a reset asked for it does nothing. CALL_ENVELOPE, after the banner, with the lane's processor working, no
envelope in progress, no reset and one submitted, takes it: another version than 1 fails with E.VER, a bad lane, kind, flag,
mark or length with E.SYNTAX envelope, a wrong CRC with E.SYNTAX check; one that spells HEAT of the ring's lane runs as that
call with the envelope's sequence field, one that spells HELLO replies, and HEAT of another lane fails with E.LANE.
COMPLETION_RING_WRITE with room puts the oldest entry into mailbox memory, moves the tail and sets the interrupt bit; without an
entry or room it waits. EVENT_RING_WRITE of an enabled ring with room does the same; of a disabled one nothing. CQ_HEAD_WRITE up
to the tail moves the head; past the one completion that is to be released, of a host-owned lane that has not released it, it
releases up to that number; of a lane not the host's it releases nothing; beyond the tail it sets ERR and the interrupt bit.
EV_HEAD_WRITE up to the tail moves the head, and beyond it sets the interrupt bit. RING_RESET asked for, with no envelope in
progress, zeroes the ring's counts and empties it; not asked for it does nothing. No other ring of submissions changes, where
stated. These forms answer a next state, with their own effect, where their clauses say: DOORBELL, CALL_ENVELOPE,
COMPLETION_RING_WRITE, EVENT_RING_WRITE, CQ_HEAD_WRITE, EV_HEAD_WRITE, RING_RESET. -/
def Obligations.RingsCarryCalls : Prop :=
  (∀ (n : LaneId) (q : W16) (s : State),
      s.start.banner = true → s.host.ring[n].resetReq = false → (q - s.host.ring[n].sqHead).toNat ≤ 64 → (s.host.ring[n].sqTail - s.host.ring[n].sqHead).toNat ≤ (q - s.host.ring[n].sqHead).toNat → 
      ∃ t, exec (.doorbell n q) s = .next t ∧ t.host.ring[n] = { s.host.ring[n] with sqTail := q } ∧ (∀ k, k ≠ n → t.host.ring[k] = s.host.ring[k]) ∧ t = { s with host := t.host } ∧
        t.host.leaseLeft = (if s.host.leaseActive then msSlow s.host.period.toNat else s.host.leaseLeft) ∧ t.host.irq = s.host.irq) ∧
  (∀ (n : LaneId) (q : W16) (s : State),
      s.start.banner = true → s.host.ring[n].resetReq = false → 64 < (q - s.host.ring[n].sqHead).toNat ∨ (q - s.host.ring[n].sqHead).toNat < (s.host.ring[n].sqTail - s.host.ring[n].sqHead).toNat → 
      ∃ t, exec (.doorbell n q) s = .next t ∧ t.host.ring[n] = { s.host.ring[n] with err := true } ∧ (∀ k, k ≠ n → t.host.ring[k] = s.host.ring[k]) ∧ t = { s with host := t.host } ∧ t.host.irq = s.host.irq ||| 0x80#8) ∧
  (∀ (n : LaneId) (q : W16) (s : State),
      s.start.banner = false → s.host.ring[n].resetReq = false → 
      exec (.doorbell n q) s = .next (s.setRing n fun r => { r with latched := some q })) ∧
  (∀ (n : LaneId) (q : W16) (s : State),
      s.host.ring[n].resetReq = true → 
      exec (.doorbell n q) s = .next s) ∧
  (∀ (n : LaneId) (m : List Byte) (s : State),
      s.start.banner = true → s.coxWorks s.faults.laneCox[n] = true → s.host.ring[n].busy = none → s.host.ring[n].resetReq = false → s.host.ring[n].sqTail ≠ s.host.ring[n].taken → mailRead s (sqSlot n s.host.ring[n].taken) 320 = m → m.getD 4 0#8 ≠ 1#8 → 
      ∃ t, exec (.callEnvelope n) s = .next t ∧ t.quiet = (s.setRing n fun r => { r with busy := some r.taken, taken := r.taken + 1#16 }).quiet ∧ Replied ⟨.host, none, n, w32 (leNat ((m.drop 12).take 4)), some s.host.ring[n].taken⟩ ⟨.fail, "?", none, [bareF "E.VER"]⟩ t) ∧
  (∀ (n : LaneId) (m : List Byte) (s : State),
      s.start.banner = true → s.coxWorks s.faults.laneCox[n] = true → s.host.ring[n].busy = none → s.host.ring[n].resetReq = false → s.host.ring[n].sqTail ≠ s.host.ring[n].taken → mailRead s (sqSlot n s.host.ring[n].taken) 320 = m → m.getD 4 0#8 = 1#8 → m.getD 8 0#8 ≠ BitVec.ofNat 8 n.val ∨ m.getD 9 0#8 ≠ 1#8 ∨ (m.getD 10 0#8).getLsbD 0 = true ∨ leNat (m.take 4) ≠ 0x4C4C4143 ∨ leNat ((m.drop 6).take 2) = 0 ∨ 256 < leNat ((m.drop 6).take 2) → 
      ∃ t, exec (.callEnvelope n) s = .next t ∧ t.quiet = (s.setRing n fun r => { r with busy := some r.taken, taken := r.taken + 1#16 }).quiet ∧ Replied ⟨.host, none, n, w32 (leNat ((m.drop 12).take 4)), some s.host.ring[n].taken⟩ ⟨.fail, "?", none, [bareF "E.SYNTAX", bareF "envelope"]⟩ t) ∧
  (∀ (n : LaneId) (m : List Byte) (s : State),
      s.start.banner = true → s.coxWorks s.faults.laneCox[n] = true → s.host.ring[n].busy = none → s.host.ring[n].resetReq = false → s.host.ring[n].sqTail ≠ s.host.ring[n].taken → mailRead s (sqSlot n s.host.ring[n].taken) 320 = m → m.getD 4 0#8 = 1#8 → m.getD 8 0#8 = BitVec.ofNat 8 n.val ∧ m.getD 9 0#8 = 1#8 ∧ (m.getD 10 0#8).getLsbD 0 = false ∧ leNat (m.take 4) = 0x4C4C4143 ∧ 1 ≤ leNat ((m.drop 6).take 2) ∧ leNat ((m.drop 6).take 2) ≤ 256 → leNat ((m.drop 28).take 4) ≠ (crc32 (m.take 28 ++ (m.drop 32).take (leNat ((m.drop 6).take 2)))).toNat → 
      ∃ t, exec (.callEnvelope n) s = .next t ∧ t.quiet = (s.setRing n fun r => { r with busy := some r.taken, taken := r.taken + 1#16 }).quiet ∧ Replied ⟨.host, none, n, w32 (leNat ((m.drop 12).take 4)), some s.host.ring[n].taken⟩ ⟨.fail, "?", none, [bareF "E.SYNTAX", bareF "check"]⟩ t) ∧
  (∀ (n : LaneId) (m x : List Byte) (c : Caller) (q : Option W32) (h e : Nat) (a : List HeatArg) (s : State),
      s.start.banner = true → s.coxWorks s.faults.laneCox[n] = true → s.host.ring[n].busy = none → s.host.ring[n].resetReq = false → s.host.ring[n].sqTail ≠ s.host.ring[n].taken → mailRead s (sqSlot n s.host.ring[n].taken) 320 = m → (openEnvelope n m).toOption = some x → x.all (fun b => decide (0x20 ≤ b.toNat ∧ b.toNat ≤ 0x7E)) = true → parseLine ⟨.host, none, n, w32 (leNat ((m.drop 12).take 4)), some s.host.ring[n].taken⟩ true false x = .call (.heat c n q h e a) → 
      exec (.callEnvelope n) s = exec (.heat c n q h e a) (s.setRing n fun r => { r with busy := some r.taken, taken := r.taken + 1#16 })) ∧
  (∀ (n : LaneId) (m x : List Byte) (c : Caller) (s : State),
      s.start.banner = true → s.coxWorks s.faults.laneCox[n] = true → s.host.ring[n].busy = none → s.host.ring[n].resetReq = false → s.host.ring[n].sqTail ≠ s.host.ring[n].taken → mailRead s (sqSlot n s.host.ring[n].taken) 320 = m → (openEnvelope n m).toOption = some x → x.all (fun b => decide (0x20 ≤ b.toNat ∧ b.toNat ≤ 0x7E)) = true → c = ⟨.host, none, n, w32 (leNat ((m.drop 12).take 4)), some s.host.ring[n].taken⟩ → parseLine ⟨.host, none, n, w32 (leNat ((m.drop 12).take 4)), some s.host.ring[n].taken⟩ true false x = .call (.hello c) → 
      ∃ t, exec (.callEnvelope n) s = .next t ∧ t.quiet = (s.setRing n fun r => { r with busy := some r.taken, taken := r.taken + 1#16 }).quiet ∧ Replied c (okLine c "HELLO" [bareF "LZ-480", symF "call" "1.0", symF "path" "HOST", symF "mode" "TERSE"]) t) ∧
  (∀ (n l : LaneId) (m x : List Byte) (c : Caller) (q : Option W32) (h e : Nat) (a : List HeatArg) (s : State),
      s.start.banner = true → s.coxWorks s.faults.laneCox[n] = true → s.host.ring[n].busy = none → s.host.ring[n].resetReq = false → s.host.ring[n].sqTail ≠ s.host.ring[n].taken → mailRead s (sqSlot n s.host.ring[n].taken) 320 = m → (openEnvelope n m).toOption = some x → x.all (fun b => decide (0x20 ≤ b.toNat ∧ b.toNat ≤ 0x7E)) = true → parseLine ⟨.host, none, n, w32 (leNat ((m.drop 12).take 4)), some s.host.ring[n].taken⟩ true false x = .call (.heat c l q h e a) → l ≠ n → 
      ∃ t, exec (.callEnvelope n) s = .next t ∧ t.quiet = (s.setRing n fun r => { r with busy := some r.taken, taken := r.taken + 1#16 }).quiet ∧ ∃ v, Replied c ⟨.fail, v, c.tag, [bareF "E.LANE"]⟩ t) ∧
  (∀ (n : LaneId) (e : RingEntry) (rest : List RingEntry) (s : State),
      s.host.ring[n].out = e :: rest → e.line.text.length ≤ 256 → s.host.ring[n].cqTail - s.host.ring[n].cqHead < 256#16 → 
      ∃ t, exec (.completionRingWrite n) s = .next t ∧ t.host.ring[n].out = rest ∧ t.host.ring[n].cqTail = s.host.ring[n].cqTail + 1#16 ∧ t.host.ring[n].cqHead = s.host.ring[n].cqHead ∧
        t.mem.bh = s.mem.bh.put (mailboxBase + cqSlot n s.host.ring[n].cqTail) (envelope n e.kind false e.seq e.line.text) ∧
        t.host.irq = s.host.irq ||| BitVec.ofNat 8 (2 ^ n.val) ∧ (∀ k, k ≠ n → t.host.ring[k] = s.host.ring[k]) ∧ t = { s with host := t.host, mem := { s.mem with bh := t.mem.bh } }) ∧
  (∀ (n : LaneId) (s : State),
      s.host.ring[n].out = [] → 
      exec (.completionRingWrite n) s = .next s) ∧
  (∀ (n : LaneId) (e : RingEntry) (rest : List RingEntry) (s : State),
      s.host.ring[n].out = e :: rest → s.host.ring[n].cqTail - s.host.ring[n].cqHead = 256#16 → 
      exec (.completionRingWrite n) s = .next s) ∧
  (∀ (k : Fin 2) (x : Line) (rest : List Line) (s : State),
      s.host.ev[k].out = x :: rest → s.host.evctl.getLsbD k.val = true → x.text.length ≤ 256 → (s.host.ev[k].tail - s.host.ev[k].head).toNat < evSize k → 
      ∃ t, exec (.eventRingWrite k) s = .next t ∧ t.host.ev[k] = { s.host.ev[k] with tail := s.host.ev[k].tail + 1#16, out := rest } ∧
        t.mem.bh = s.mem.bh.put (mailboxBase + evSlot k s.host.ev[k].tail) (envelope 0 .event false 0#32 x.text) ∧
        t.host.irq = s.host.irq ||| BitVec.ofNat 8 (2 ^ (4 + k.val)) ∧ t.host.ring = s.host.ring) ∧
  (∀ (k : Fin 2) (s : State),
      s.host.evctl.getLsbD k.val = false → 
      exec (.eventRingWrite k) s = .next s) ∧
  (∀ (n : LaneId) (q : W16) (s : State),
      (q - s.host.ring[n].cqHead).toNat ≤ (s.host.ring[n].cqTail - s.host.ring[n].cqHead).toNat → s.host.ring[n].dones = [] → 
      exec (.cqHeadWrite n q) s = .next (s.setRing n fun r => { r with cqHead := q })) ∧
  (∀ (n : LaneId) (q d : W16) (v : W32) (s : State),
      (q - s.host.ring[n].cqHead).toNat ≤ (s.host.ring[n].cqTail - s.host.ring[n].cqHead).toNat → s.host.ring[n].dones = [(d, v)] → (d - s.host.ring[n].cqHead).toNat ≤ (q - s.host.ring[n].cqHead).toNat → (s.lane n).owner = .host → (s.lane n).unreleased v = true → 
      ∃ t, exec (.cqHeadWrite n q) s = .next t ∧ t.host.ring[n] = { s.host.ring[n] with cqHead := q, dones := [] } ∧ (t.lane n).oldest = v + 1#32 ∧ (t.lane n).next = (s.lane n).next ∧
        (∀ k, k ≠ n → t.lane k = s.lane k)) ∧
  (∀ (n : LaneId) (q : W16) (s : State),
      (q - s.host.ring[n].cqHead).toNat ≤ (s.host.ring[n].cqTail - s.host.ring[n].cqHead).toNat → (s.lane n).owner ≠ .host → 
      ∃ t, exec (.cqHeadWrite n q) s = .next t ∧ t.host.ring[n].cqHead = q ∧ t.lanes = s.lanes ∧ t = { s with host := t.host }) ∧
  (∀ (n : LaneId) (q : W16) (s : State),
      (s.host.ring[n].cqTail - s.host.ring[n].cqHead).toNat < (q - s.host.ring[n].cqHead).toNat → 
      ∃ t, exec (.cqHeadWrite n q) s = .next t ∧ t.host.ring[n] = { s.host.ring[n] with err := true } ∧ t.host.irq = s.host.irq ||| 0x80#8 ∧ t.lanes = s.lanes ∧ t = { s with host := t.host }) ∧
  (∀ (k : Fin 2) (q : W16) (s : State),
      (q - s.host.ev[k].head).toNat ≤ (s.host.ev[k].tail - s.host.ev[k].head).toNat → 
      ∃ t, exec (.evHeadWrite k q) s = .next t ∧ t.host.ev[k] = { s.host.ev[k] with head := q } ∧ t.host.irq = s.host.irq ∧ t = { s with host := t.host }) ∧
  (∀ (k : Fin 2) (q : W16) (s : State),
      (s.host.ev[k].tail - s.host.ev[k].head).toNat < (q - s.host.ev[k].head).toNat → 
      exec (.evHeadWrite k q) s = .next { s with host := { s.host with irq := s.host.irq ||| 0x80#8 } }) ∧
  (∀ (n : LaneId) (s : State),
      s.host.ring[n].resetReq = true → s.host.ring[n].busy = none → 
      ∃ t, exec (.ringReset n) s = .next t ∧ t.host.ring[n] = { s.host.ring[n] with
          sqTail := 0#16, sqHead := 0#16, cqTail := 0#16, cqHead := 0#16, taken := 0#16, busy := none, waits := [], out := [], dones := [], resetReq := false } ∧
        (∀ k, k ≠ n → t.host.ring[k] = s.host.ring[k]) ∧ t = { s with host := t.host }) ∧
  (∀ (n : LaneId) (s : State),
      s.host.ring[n].resetReq = false → 
      exec (.ringReset n) s = .next s)

/-- Cases of the host count, the lapse of a lease and a Function Level Reset (R356, R367, R368, R370). TADD for a host-owned
open lane adds to its host count modulo 2^32 and to no other; for another lane it sets TADDREF, ERR and the interrupt bit.
LEASE_LAPSE of an active lease above the floor: ACTIVE is clear, LAPSED and the interrupt bit 6 are set, HOST_EVCTL is 0, one
record is logged, every host-owned lane is ORPHANED without an owner, and the others keep state and owner; of no active lease
nothing happens. FUNCTION_LEVEL_RESET with PCIe and an active lease clears ACTIVE and HOST_EVCTL, sets LAPSED, makes host-owned
lanes ORPHANED, and empties the rings with no envelope in progress; with the Quad-SPI port nothing happens. These forms answer a
next state, with their own effect, where their clauses say: TADD, LEASE_LAPSE, FUNCTION_LEVEL_RESET. -/
def Obligations.LeasesLapse : Prop :=
  (∀ (n : LaneId) (v : W16) (s : State),
      (s.lane n).owner = .host → (s.lane n).st = .opened → 
      ∃ t, exec (.tadd n v) s = .next t ∧ (t.lane n).hc = (s.lane n).hc + v.setWidth 32 ∧ (∀ k, k ≠ n → (t.lane k).hc = (s.lane k).hc) ∧ t.host = s.host) ∧
  (∀ (n : LaneId) (v : W16) (s : State),
      (s.lane n).owner ≠ .host ∨ (s.lane n).st ≠ .opened → 
      ∃ t, exec (.tadd n v) s = .next t ∧ t.host.ring[n] = { s.host.ring[n] with taddRef := true } ∧ t.host.irq = s.host.irq ||| 0x80#8 ∧ t.lanes = s.lanes ∧ t = { s with host := t.host }) ∧
  (∀ (s : State),
      s.host.leaseActive = true → s.rail.floor = false → 
      ∃ t, exec .leaseLapse s = .next t ∧ t.host.leaseActive = false ∧ t.host.leaseLapsed = true ∧ t.host.evctl = 0#2 ∧ t.host.irq.getLsbD 6 = true ∧
        t.faults.logNum = s.faults.logNum + 1 ∧
        (∀ l, (s.lane l).owner = .host → (t.lane l).st = .orphaned ∧ (t.lane l).owner = .nobody) ∧
        (∀ l, (s.lane l).owner ≠ .host → (t.lane l).st = (s.lane l).st ∧ (t.lane l).owner = (s.lane l).owner)) ∧
  (∀ (s : State),
      s.host.leaseActive = false → 
      exec .leaseLapse s = .next s) ∧
  (∀ (s : State),
      s.host.qspi = false → s.host.leaseActive = true → 
      ∃ t, exec .functionLevelReset s = .next t ∧ t.host.leaseActive = false ∧ t.host.leaseLapsed = true ∧ t.host.evctl = 0#2 ∧
        (∀ l, (s.lane l).owner = .host → (t.lane l).st = .orphaned) ∧
        (∀ n : LaneId, s.host.ring[n].busy = none → t.host.ring[n].sqTail = 0#16 ∧ t.host.ring[n].cqTail = 0#16 ∧ t.host.ring[n].out = [])) ∧
  (∀ (s : State),
      s.host.qspi = true → 
      exec .functionLevelReset s = .next s)

/-- Cases of Quad-SPI transactions, PCIe requests and link events (R250, R355, R356, R357, R358, R359, R371, R451). With the
host's domain not fenced. On the Quad-SPI port: a read of a tally with nothing held, in time, answers READY and its value; one
that misses its turnaround answers NOTREADY, counts it and holds the data; the same read then collects what is held; a write
meanwhile answers NOTREADY and counts it; a bad command, space or alignment answers ERROR and does nothing; before the banner a
read of a tally answers NOTREADY; a write of HOST_IRQ_EN in time is performed. QSPI_HELD_READ_EXPIRE drops what is held and
counts it. With PCIe and the link up: a memory read of a tally completes with its value, a write of HOST_IRQ_EN with every byte
enable is performed, a register write without every byte enable is not, a write of mailbox memory with byte enables 0 and 2
writes those bytes, and before the banner a read of a tally completes with ones. A configuration request completes, and may set
BAR4's size, MSI-X and MSI; until the endpoint is ready it completes with retry status. PCIE_LINK_DOWN leaves speed and width 0,
BAR4 at its reset size and MSI-X and MSI off, PCIE_LINK_UP with the HOST clock sets them. The codes of completions in the answer
are the model's (notes/assumptions/38). These forms answer a next state, with their own effect, where their clauses say:
QSPI_TRANSACTION, PCIE_MEMORY_REQUEST, PCIE_LINK_UP, QSPI_HELD_READ_EXPIRE, PCIE_CONFIG_REQUEST, PCIE_LINK_DOWN. -/
def Obligations.HostPortsServe : Prop :=
  (∀ (k : Fin 1024) (s : State),
      s.host.qspi = true → s.domFenced Dom.host = false → s.start.banner = true → s.host.held = none → 
      exec (.qspiTransaction 0x0B#8 0#4 (BitVec.ofNat 36 (0x3000 + 4 * k.val)) 0 [] false) s = .next { s with host := { s.host with answer := (0x5A#8, [s.tally k.val]) } }) ∧
  (∀ (k : Fin 1024) (s : State),
      s.host.qspi = true → s.domFenced Dom.host = false → s.start.banner = true → s.host.held = none → s.host.notReady ≠ 0xFFFF#16 → 
      exec (.qspiTransaction 0x0B#8 0#4 (BitVec.ofNat 36 (0x3000 + 4 * k.val)) 0 [] true) s = .next { s with host := { s.host with
          answer := (0xA5#8, []), notReady := s.host.notReady + 1#16, held := some { space := 0, addr := 0x3000 + 4 * k.val, words := 1, data := [s.tally k.val] } } }) ∧
  (∀ (a : BitVec 36) (w : Fin 256) (h : HeldRead) (s : State),
      s.host.qspi = true → s.domFenced Dom.host = false → s.start.banner = true → a.toNat % 4 = 0 → s.host.held = some h → h.space = 0 ∧ h.addr = a.toNat ∧ h.words = w.val + 1 → 
      exec (.qspiTransaction 0x0B#8 0#4 a w [] false) s = .next { s with host := { s.host with answer := (0x5A#8, h.data), held := none } }) ∧
  (∀ (a : BitVec 36) (w : Fin 256) (d : List W32) (l : Bool) (h : HeldRead) (s : State),
      s.host.qspi = true → s.domFenced Dom.host = false → s.start.banner = true → a.toNat % 4 = 0 → s.host.held = some h → s.host.notReady ≠ 0xFFFF#16 → 
      exec (.qspiTransaction 0x02#8 0#4 a w d l) s = .next { s with host := { s.host with answer := (0xA5#8, []), notReady := s.host.notReady + 1#16 } }) ∧
  (∀ (cmd : Byte) (p : BitVec 4) (a : BitVec 36) (w : Fin 256) (d : List W32) (l : Bool) (s : State),
      s.host.qspi = true → s.domFenced Dom.host = false → 3 ≤ p.toNat ∨ (cmd ≠ 0x0B#8 ∧ cmd ≠ 0x02#8) ∨ a.toNat % 4 ≠ 0 → 
      exec (.qspiTransaction cmd p a w d l) s = .next { s with host := { s.host with answer := (0xC3#8, []) } }) ∧
  (∀ (k : Fin 1024) (l : Bool) (s : State),
      s.host.qspi = true → s.domFenced Dom.host = false → s.start.banner = false → s.host.notReady ≠ 0xFFFF#16 → 
      exec (.qspiTransaction 0x0B#8 0#4 (BitVec.ofNat 36 (0x3000 + 4 * k.val)) 0 [] l) s = .next { s with host := { s.host with answer := (0xA5#8, []), notReady := s.host.notReady + 1#16 } }) ∧
  (∀ (v : W32) (s : State),
      s.host.qspi = true → s.domFenced Dom.host = false → s.start.banner = true → s.host.held = none → 
      exec (.qspiTransaction 0x02#8 0#4 0xE010#36 0 [v] false) s = .next { s with host := { s.host with answer := (0x5A#8, []), irqEn := v &&& 0xFF#32 } }) ∧
  (∀ (h : HeldRead) (s : State),
      s.host.held = some h → 
      exec .qspiHeldReadExpire s = .next { s with host := { s.host with held := none, dropped := if s.host.dropped = 0xFFFF#16 then s.host.dropped else s.host.dropped + 1#16 } }) ∧
  (∀ (k : Fin 1024) (be : Byte) (s : State),
      s.host.qspi = false → s.domFenced Dom.host = false → 0 < s.host.width.val → s.start.banner = true → 
      exec (.pcieMemoryRequest 0 (BitVec.ofNat 34 (0x3000 + 4 * k.val)) be 0 none) s = .next { s with host := { s.host with answer := (0#8, [s.tally k.val]) } }) ∧
  (∀ (v : W32) (s : State),
      s.host.qspi = false → s.domFenced Dom.host = false → 0 < s.host.width.val → s.start.banner = true → 
      exec (.pcieMemoryRequest 0 0xE010#34 0x0F#8 0 (some [v])) s = .next { s with host := { s.host with irqEn := v &&& 0xFF#32 } }) ∧
  (∀ (a : BitVec 34) (be : Byte) (v : W32) (s : State),
      s.host.qspi = false → s.domFenced Dom.host = false → 0 < s.host.width.val → s.start.banner = true → be.toNat % 16 ≠ 15 → 
      exec (.pcieMemoryRequest 0 a be 0 (some [v])) s = .next s) ∧
  (∀ (a : Fin 0x20000) (v : W32) (s : State),
      s.host.qspi = false → s.domFenced Dom.host = false → 0 < s.host.width.val → s.start.banner = true → s.bankUp 63 = true → 
      ∃ t, exec (.pcieMemoryRequest 1 (BitVec.ofNat 34 (4 * a.val)) 0x05#8 0 (some [v])) s = .next t ∧
        t.mem.bh = (s.mem.bh.set (63 * 0x80000 + 4 * a.val) (v.setWidth 8)).set (63 * 0x80000 + 4 * a.val + 2) ((v >>> 16).setWidth 8) ∧ t.host = s.host ∧
        t.lanes = s.lanes) ∧
  (∀ (k : Fin 1024) (be : Byte) (s : State),
      s.host.qspi = false → s.domFenced Dom.host = false → 0 < s.host.width.val → s.start.banner = false → 
      exec (.pcieMemoryRequest 0 (BitVec.ofNat 34 (0x3000 + 4 * k.val)) be 0 none) s = .next { s with host := { s.host with answer := (0#8, [0xFFFFFFFF#32]) } }) ∧
  (∀ (s : State),
      s.host.qspi = false → s.domFenced Dom.host = false → 0 < s.host.width.val → s.host.configReady = false → 
      exec .pcieConfigRequest s = .next { s with host := { s.host with answer := (2#8, []) } }) ∧
  (∀ (s : State),
      s.host.qspi = false → s.domFenced Dom.host = false → 0 < s.host.width.val → s.host.configReady = true → 
      ∃ t, exec .pcieConfigRequest s = .next t ∧
        t.host = { s.host with answer := (0#8, []), barSize := t.host.barSize, msix := t.host.msix, msi := t.host.msi } ∧
        t = { s with host := t.host, free := t.free }) ∧
  (∀ (s : State),
      s.host.qspi = false → 
      exec .pcieLinkDown s = .next { s with host := { s.host with speed := 0, width := 0, barSize := 6, msix := false, msi := false } }) ∧
  (∀ (g : Fin 5) (w : Fin 3) (s : State),
      s.host.qspi = false → g ≠ 0 ∧ w ≠ 0 → s.clk.absent.getLsbD Clk.host.val = false → 
      exec (.pcieLinkUp g w) s = .next { s with host := { s.host with speed := g, width := w } })

/-- Cases of FENCE, SPARE, REPAIR, self-tests and repair records (R347, R351, R372, R375, R376, R377, R388, R390, R391, R392,
R397, R422). Of a call that is taken. FENCE of an ACTIVE mapped shell, neither running nor halted, with at least 13 in service
and a spare: it is FENCED with its domain, its logical shell goes to the first SPARE one, which is ACTIVE, three records are
logged, none waits for the flash, and lanes and memory stay; FENCE of a unit that is out fails with E.STATE, of a shell with
fewer than 13 in service with E.FENCED, of what calls do not name with E.RANGE; of an ACTIVE AES pipeline or an idle ACTIVE
decoder, not the last, it fences that one and no other; of an ACTIVE Cox processor that can be taken over it is a crash, its
lanes recover and the reply waits. SPARE replies with the spares' counts and a line for each spare shell. With no repair or key
operation in progress: REPAIR TEST of a unit that is out, with no test, begins its test, in confidential mode; of one not out it
fails with E.STATE, with a test running with E.BUSY; REPAIR REJOIN of a PASSED AES pipeline makes it ACTIVE and queues a
REJOINED record, of a PASSED shell with 16 in service makes it SPARE and its domain no longer fenced; of another unit it fails
with E.STATE; REPAIR RECORD from the Call line of a FENCED or PASSED unit, with a free entry and no burn, begins the burn, of
another fails with E.STATE. With such an operation in progress REPAIR TEST fails with E.BUSY. SELFTEST_START of a FENCED unit
whose test is due, with none running, begins it in confidential mode. SELFTEST_DONE of the one test, of a FENCED or PASSED unit,
makes it PASSED or FENCED, logs it, ends a call's operation, and sends its line. REPAIR_RECORD_WRITE of the oldest queued
record, but while start-up copies the firmware, appends it below 2,046 records, and otherwise merges the records under the next
serial number; with none it does nothing. These forms answer a next state, with their own effect, where their clauses say:
FENCE, SPARE, REPAIR_TEST, REPAIR_REJOIN, REPAIR_RECORD, SELFTEST_START, SELFTEST_DONE, REPAIR_RECORD_WRITE. -/
def Obligations.UnitsAreFencedAndRepaired : Prop :=
  (∀ (c : Caller) (i j : ShellId) (k : Fin 16) (s : State),
      Takes c s → s.faults.shells[i] = .active → 13 ≤ s.serviceCount → (s.shell i).running = none → s.str.halted.getLsbD i.val = false → (List.finRange 16).find? (fun m => s.map[m] == some i) = some k → (s.shellsIn .spare).head? = some j → s.start.banner = true → 
      ∃ t, exec (.fence c (.shell i)) s = .next t ∧ t.faults.shells[i] = .fenced ∧ t.faults.shells[j] = .active ∧ t.map[k] = some j ∧ (∀ m, m ≠ k → t.map[m] = s.map[m]) ∧
        t.power.fenced.getLsbD i.val = true ∧ t.faults.operator = s.faults.operator ++ [.shell i] ∧ t.faults.repairQueue = s.faults.repairQueue ∧
        t.faults.logNum = s.faults.logNum + 3 ∧ t.lanes = s.lanes ∧ t.mem = s.mem ∧ Replied c (okLine c "FENCE" [bareF (UnitRef.shell i).text]) t) ∧
  (∀ (c : Caller) (u : UnitRef) (x : UnitSt) (s : State),
      Takes c s → s.unitSt u = some x → x.out = true → 
      ∃ t, exec (.fence c u) s = .next t ∧ t.quiet = s.quiet ∧ Replied c ⟨.fail, "FENCE", c.tag, [bareF "E.STATE"]⟩ t) ∧
  (∀ (c : Caller) (i : ShellId) (s : State),
      Takes c s → s.faults.shells[i] = .active ∨ s.faults.shells[i] = .spare → s.serviceCount < 13 → 
      ∃ t, exec (.fence c (.shell i)) s = .next t ∧ t.quiet = s.quiet ∧ Replied c ⟨.fail, "FENCE", c.tag, [bareF "E.FENCED"]⟩ t) ∧
  (∀ (c : Caller) (u : UnitRef) (s : State),
      Takes c s → s.unitSt u = none → 
      ∃ t, exec (.fence c u) s = .next t ∧ t.quiet = s.quiet ∧ Replied c ⟨.fail, "FENCE", c.tag, [bareF "E.RANGE"]⟩ t) ∧
  (∀ (c : Caller) (p : Fin 3) (s : State),
      Takes c s → s.faults.aes[p] = .active → 2 ≤ (s.faults.aes.toList.filter fun x => x == .active).length → 
      ∃ t, exec (.fence c (.aes p)) s = .next t ∧ t.faults.aes[p] = .fenced ∧ (∀ k, k ≠ p → t.faults.aes[k] = s.faults.aes[k]) ∧ t.faults.shells = s.faults.shells ∧
        t.faults.logNum = s.faults.logNum + 2 ∧ Replied c (okLine c "FENCE" [bareF (UnitRef.aes p).text]) t) ∧
  (∀ (c : Caller) (d : Fin 4) (s : State),
      Takes c s → s.faults.decoders[d] = .active → 2 ≤ (s.faults.decoders.toList.filter fun x => x == .active).length → s.mem.decoder[d].busy = none → 
      ∃ t, exec (.fence c (.decoder d)) s = .next t ∧ t.faults.decoders[d] = .fenced ∧ (∀ k, k ≠ d → t.faults.decoders[k] = s.faults.decoders[k]) ∧ t.lanes = s.lanes ∧
        Replied c (okLine c "FENCE" [bareF (UnitRef.decoder d).text]) t) ∧
  (∀ (c : Caller) (i j : Fin 3) (s : State),
      Takes c s → c.path = .call → s.faults.coxRole[i] = .active → s.faults.crashed[i] = false → s.taker i = some j → 
      ∃ t, exec (.fence c (.cox i)) s = .next t ∧ t.faults.crashed[i] = true ∧ t.faults.fenceCall = s.faults.fenceCall ++ [(i, c)] ∧ t.call = { s.call with running := some "FENCE" } ∧
        (∀ l : LaneId, (t.lane l).recovering = ((s.lane l).recovering || s.faults.laneCox[l] == i)) ∧ t.mem = s.mem) ∧
  (∀ (c : Caller) (s : State),
      Takes c s → 
      ∃ t, exec (.spare c) s = .next t ∧ t.quiet = s.quiet ∧ Replied c (okLine c "SPARE" ([decF "shells" (s.shellsIn .spare).length,
          decF "banks" ((List.finRange 68).filter fun p => s.faults.banks[p] == .spare).length,
          decF "slices" ((List.finRange 9).filter fun k => s.eye.slice[k].role == .spare).length, decF "pages" (256 - s.mem.retired.length)] ++
          if fusesUsed s = 64 then [decF "fuses" 64] else [])) t ∧ ∀ i ∈ s.shellsIn .spare, Replied c (dataLine c [bareF (UnitRef.shell i).text]) t) ∧
  (∀ (c : Caller) (u : UnitRef) (x : UnitSt) (s : State),
      Takes c s → s.keys.repair = 0 → s.keys.keyop = 0 → s.unitSt u = some x → x.out = true → s.faults.tests = [] → s.confidential = false → 
      ∃ t, exec (.repairTest c u) s = .next t ∧ t.faults = { s.faults with tests := [{ unit := u, asked := true }], testsDue := s.faults.testsDue.filter fun y => y.1 != u } ∧
        t.keys = { s.keys with repair := 1 } ∧ t.confidential = true ∧ t.shells = s.shells ∧ t.mem = s.mem ∧ Replied c (okLine c "REPAIR" [bareF u.text, bareF "TEST", bareF "started"]) t) ∧
  (∀ (c : Caller) (u : UnitRef) (x : UnitSt) (s : State),
      Takes c s → s.keys.repair = 0 → s.keys.keyop = 0 → s.unitSt u = some x → x.out = false → 
      ∃ t, exec (.repairTest c u) s = .next t ∧ t.quiet = s.quiet ∧ Replied c ⟨.fail, "REPAIR", c.tag, [bareF "E.STATE"]⟩ t) ∧
  (∀ (c : Caller) (u : UnitRef) (x : UnitSt) (s : State),
      Takes c s → s.unitSt u = some x → s.keys.repair ≠ 0 ∨ s.keys.keyop ≠ 0 → 
      ∃ t, exec (.repairTest c u) s = .next t ∧ t.quiet = s.quiet ∧ Replied c ⟨.fail, "REPAIR", c.tag, [bareF "E.BUSY"]⟩ t) ∧
  (∀ (c : Caller) (u : UnitRef) (x : UnitSt) (s : State),
      Takes c s → s.keys.repair = 0 → s.keys.keyop = 0 → s.unitSt u = some x → x.out = true → s.faults.tests ≠ [] → 
      ∃ t, exec (.repairTest c u) s = .next t ∧ t.quiet = s.quiet ∧ Replied c ⟨.fail, "REPAIR", c.tag, [bareF "E.BUSY"]⟩ t) ∧
  (∀ (c : Caller) (p : Fin 3) (s : State),
      Takes c s → s.keys.repair = 0 → s.keys.keyop = 0 → s.faults.aes[p] = .passed → 
      ∃ t, exec (.repairRejoin c (.aes p)) s = .next t ∧ t.faults.aes[p] = .active ∧ t.keys = s.keys ∧ t.faults.logNum = s.faults.logNum + 1 ∧
        t.faults.repairQueue = s.faults.repairQueue ++ [{ unit := (UnitRef.aes p).code, kind := .rejoined, cause := none, gen := s.generation, detail := 0#64 }] ∧
        t.shells = s.shells ∧ t.mem = s.mem ∧ Replied c (okLine c "REPAIR" [bareF (UnitRef.aes p).text, bareF "REJOIN"]) t) ∧
  (∀ (c : Caller) (i : ShellId) (s : State),
      Takes c s → s.keys.repair = 0 → s.keys.keyop = 0 → s.faults.shells[i] = .passed → 16 ≤ s.serviceCount → 
      ∃ t, exec (.repairRejoin c (.shell i)) s = .next t ∧ t.faults.shells[i] = .spare ∧ t.map = s.map ∧ (∀ j, j ≠ i → t.faults.shells[j] = s.faults.shells[j]) ∧
        t.power.fenced.getLsbD i.val = false ∧ Replied c (okLine c "REPAIR" [bareF (UnitRef.shell i).text, bareF "REJOIN"]) t) ∧
  (∀ (c : Caller) (u : UnitRef) (x : UnitSt) (s : State),
      Takes c s → s.keys.repair = 0 → s.keys.keyop = 0 → s.unitSt u = some x → x ≠ .passed → 
      ∃ t, exec (.repairRejoin c u) s = .next t ∧ t.quiet = s.quiet ∧ Replied c ⟨.fail, "REPAIR", c.tag, [bareF "E.STATE"]⟩ t) ∧
  (∀ (c : Caller) (u : UnitRef) (x : UnitSt) (j : Fin 64) (s : State),
      Takes c s → s.keys.repair = 0 → s.keys.keyop = 0 → c.path = .call → s.unitSt u = some x → x = .fenced ∨ x = .passed → freeEntry s = some j → s.fuse.burning = none → 
      ∃ t, exec (.repairRecord c u) s = .next t ∧ t.fuse = { s.fuse with burning := some (.repair j u (some c)) } ∧ t.keys = { s.keys with repair := 1 } ∧
        t.call.running = some "REPAIR" ∧ t.faults = s.faults ∧ t.shells = s.shells) ∧
  (∀ (c : Caller) (u : UnitRef) (x : UnitSt) (s : State),
      Takes c s → s.keys.repair = 0 → s.keys.keyop = 0 → s.unitSt u = some x → x ≠ .fenced ∧ x ≠ .passed → 
      ∃ t, exec (.repairRecord c u) s = .next t ∧ t.quiet = s.quiet ∧ Replied c ⟨.fail, "REPAIR", c.tag, [bareF "E.STATE"]⟩ t) ∧
  (∀ (u : UnitRef) (k : W64) (s : State),
      s.faults.testsDue.find? (fun x => x.1 == u) = some (u, k) → s.unitSt u = some .fenced → s.faults.tests = [] → 
      ∃ t, exec (.selftestStart u) s = .next t ∧ t.faults.tests = [{ unit := u, asked := false }] ∧ t.faults.testsDue = s.faults.testsDue.filter (fun x => x.1 != u) ∧
        t.confidential = true ∧ t.shells = s.shells ∧ t.mem = s.mem ∧ t.faults.shells = s.faults.shells) ∧
  (∀ (u : UnitRef) (a ok : Bool) (x : UnitSt) (s : State),
      s.faults.tests = [{ unit := u, asked := a }] → s.unitSt u = some x → x = .fenced ∨ x = .passed → s.start.banner = true → s.call.events = true → 
      ∃ t, exec (.selftestDone u ok) s = .next t ∧ t.faults.tests = [] ∧ t.unitSt u = some (if ok then .passed else .fenced) ∧ t.faults.logNum = s.faults.logNum + 1 ∧
        t.keys.repair = s.keys.repair - (if a then 1 else 0) ∧ TxItem.line (Line.evt ("REPAIR " ++ u.text ++ (if ok then " PASS" else " FAIL")) []) ∈ t.call.tx ∧ t.mem = s.mem) ∧
  (∀ (r : RepairRec) (rest : List RepairRec) (s : State),
      s.start.phase ≠ .copying → s.faults.repairQueue = r :: rest → 
      ∃ t, exec .repairRecordWrite s = .next t ∧ t.faults.repairQueue = rest ∧ t.faults.logNum = s.faults.logNum + 1 ∧
        (s.faults.repairs.length < 2046 → t.faults.repairs = s.faults.repairs ++ [r] ∧ t.faults.repairSerial = s.faults.repairSerial) ∧
        (2046 ≤ s.faults.repairs.length → t.faults.repairs = mergeRecords (s.faults.repairs ++ [r]) ∧ t.faults.repairSerial = s.faults.repairSerial + 1) ∧
        t = { s with faults := t.faults }) ∧
  (∀ (s : State),
      s.faults.repairQueue = [] → 
      exec .repairRecordWrite s = .next s)

/-- Cases of crashes, takeovers, restarts, failed records and failed bring-up (R374, R383, R384, R385, R386, R403, R407).
COX_WATCHDOG_TRIP above the floor of an ACTIVE processor that has not crashed is a crash: it is logged and its lanes recover; of
the standby it is a logged restart; below the floor nothing happens. COX_TAKEOVER of a crashed processor with one to take over,
after the banner with its domain not fenced and fewer than 255 takeovers: it restarts, the taker is ACTIVE with its lanes and,
where it ran it, the Call interpreter, the lanes recover no more, it counts, and COX TAKEOVER is sent; a WAIT of the Call line
it ran ends with E.BUSY takeover, and the replies it owed are sent; of one not crashed it does nothing. COX_RESTART_DONE: a
restart that succeeds makes a standby with no failures; a failure below the third counts; the third fences the processor and its
domain and queues its record. LOG_RECORD_WRITE that passes changes nothing; a fault record that fails, with the Call
interpreter's processor ACTIVE and not crashed, is not valid, that processor crashes, and the journals stay; an ACCEPT record
that fails while its reply still waits on CALL_TX, of the lane's newest heat, not started, leaves the heat unaccepted, crashes
the lane's processor, and owes the reply E.BUSY takeover in place of that one. DOMAIN_BRINGUP_TIMEOUT of a waking shell in
service that does not run fences shell and domain; of the Ear with no accepted heat fences its domain only; of a domain not
waking nothing. These forms answer a next state, with their own effect, where their clauses say: DOMAIN_BRINGUP_TIMEOUT,
LOG_RECORD_WRITE, COX_WATCHDOG_TRIP, COX_TAKEOVER, COX_RESTART_DONE. -/
def Obligations.ProcessorsAreTakenOver : Prop :=
  (∀ (i : Fin 3) (s : State),
      s.rail.floor = false → s.faults.coxRole[i] = .active → s.faults.crashed[i] = false → 
      ∃ t, exec (.coxWatchdogTrip i) s = .next t ∧ t.faults.crashed[i] = true ∧ t.faults.coxRole = s.faults.coxRole ∧ t.faults.logNum = s.faults.logNum + 1 ∧
        (∀ l : LaneId, (t.lane l).recovering = ((s.lane l).recovering || s.faults.laneCox[l] == i)) ∧ t = { s with faults := t.faults, lanes := t.lanes }) ∧
  (∀ (i : Fin 3) (s : State),
      s.rail.floor = false → s.faults.coxRole[i] = .standby → 
      ∃ t, exec (.coxWatchdogTrip i) s = .next t ∧ t.faults.coxRole[i] = .restarting ∧ t.faults.logNum = s.faults.logNum + 1 ∧ t = { s with faults := t.faults }) ∧
  (∀ (i : Fin 3) (s : State),
      s.rail.floor = true → 
      exec (.coxWatchdogTrip i) s = .next s) ∧
  (∀ (i j : Fin 3) (s : State),
      s.faults.crashed[i] = true → s.taker i = some j → s.domFenced (Dom.cox i) = false → s.start.banner = true → s.call.events = true → s.faults.takeovers < 255 → 
      ∃ t, exec (.coxTakeover i) s = .next t ∧ t.faults.crashed[i] = false ∧ t.faults.coxRole[i] = .restarting ∧ t.faults.coxRole[j] = .active ∧
        (∀ l : LaneId, t.faults.laneCox[l] = if s.faults.laneCox[l] = i then j else s.faults.laneCox[l]) ∧
        (∀ l : LaneId, (t.lane l).recovering = ((s.lane l).recovering && s.faults.laneCox[l] != i)) ∧
        t.faults.callCox = (if s.faults.callCox = i then j else s.faults.callCox) ∧ t.faults.takeovers = s.faults.takeovers + 1 ∧
        TxItem.line (Line.evt "COX TAKEOVER" [symF "from" (coxName i), symF "by" (coxName j), ("lanes", .syms ((s.lanesOf i).map laneName)), decF "t" s.clk.tick.toNat]) ∈ t.call.tx) ∧
  (∀ (i j : Fin 3) (w : WaitRec) (s : State),
      s.faults.crashed[i] = true → s.taker i = some j → s.faults.callCox = i → s.call.wait = some w → w.caller.path = .call → 
      ∃ t, exec (.coxTakeover i) s = .next t ∧ t.call.wait = none ∧ TxItem.line ⟨.fail, "WAIT", w.caller.tag, [bareF "E.BUSY", bareF "takeover"]⟩ ∈ t.call.tx) ∧
  (∀ (i j : Fin 3) (x : Line) (s : State),
      s.faults.crashed[i] = true → s.taker i = some j → (i, Caller.line, x) ∈ s.faults.owed → 
      ∃ t, exec (.coxTakeover i) s = .next t ∧ TxItem.line x ∈ t.call.tx ∧ ∀ p ∈ t.faults.owed, p.1 ≠ i) ∧
  (∀ (i : Fin 3) (s : State),
      s.faults.crashed[i] = false → 
      exec (.coxTakeover i) s = .next s) ∧
  (∀ (i : Fin 3) (s : State),
      s.faults.coxRole[i] = .restarting → 
      exec (.coxRestartDone i true) s = .next { s with faults := { s.faults with coxRole := put s.faults.coxRole i .standby, restartFails := put s.faults.restartFails i 0 } }) ∧
  (∀ (i : Fin 3) (s : State),
      s.faults.coxRole[i] = .restarting → s.faults.restartFails[i] < 2 → 
      exec (.coxRestartDone i false) s = .next { s with faults := { s.faults with restartFails := put s.faults.restartFails i (s.faults.restartFails[i] + 1) } }) ∧
  (∀ (i : Fin 3) (s : State),
      s.faults.coxRole[i] = .restarting → 2 ≤ s.faults.restartFails[i] → 
      ∃ t, exec (.coxRestartDone i false) s = .next t ∧ t.faults.coxRole[i] = .fenced ∧ t.power.fenced.getLsbD (22 + i.val) = true ∧
        t.faults.repairQueue = s.faults.repairQueue ++ [{ unit := (UnitRef.cox i).code, kind := .fenced, cause := some .restartFailed, gen := s.generation, detail := 0#64 }] ∧ t.lanes = s.lanes) ∧
  (∀ (r : LogWhich) (s : State),
      exec (.logRecordWrite r true) s = .next s) ∧
  (∀ (n : Nat) (s : State),
      s.faults.coxRole[s.faults.callCox] = .active → s.faults.crashed[s.faults.callCox] = false → 
      ∃ t, exec (.logRecordWrite (.fault n) false) s = .next t ∧ t.faults.crashed[s.faults.callCox] = true ∧ (∀ x ∈ t.faults.log, x.number = n → n ≤ s.faults.logNum → x.valid = false) ∧
        (t.lanes.map fun (L : Lane) => L.journal) = s.lanes.map fun (L : Lane) => L.journal) ∧
  (∀ (l : LaneId) (q : W32) (r : HeatRun) (a : AcceptRec) (s : State),
      (s.lane l).run q = some r → (s.lane l).acceptOf q = some a → r.started = false → (s.lane l).next = q + 1#32 → a.source = .call → TxItem.line (okLine Caller.line "HEAT" [laneF l, ("", .dec q.toNat), bareF "ACCEPTED"]) ∈ s.call.tx → s.faults.coxRole[s.faults.laneCox[l]] = .active → s.faults.crashed[s.faults.laneCox[l]] = false → 
      ∃ t, exec (.logRecordWrite (.accept l q) false) s = .next t ∧ (t.lane l).next = q ∧ (∀ x ∈ (t.lane l).runs, x.seq ≠ q) ∧ t.faults.crashed[s.faults.laneCox[l]] = true ∧
        (t.lane l).recovering = true ∧ TxItem.line (okLine Caller.line "HEAT" [laneF l, ("", .dec q.toNat), bareF "ACCEPTED"]) ∉ t.call.tx ∧
        (s.faults.laneCox[l], Caller.line, ⟨.fail, "HEAT", none, [bareF "E.BUSY", bareF "takeover"]⟩) ∈ t.faults.owed) ∧
  (∀ (i : ShellId) (s : State),
      s.power.waking.getLsbD i.val = true → s.inService i = true → (s.shell i).running = none → 
      ∃ t, exec (.domainBringupTimeout (Dom.shell i)) s = .next t ∧ t.faults.shells[i] = .fenced ∧ t.power.fenced.getLsbD i.val = true ∧ t.power.waking.getLsbD i.val = false) ∧
  (∀ (s : State),
      s.power.waking.getLsbD Dom.ear.val = true → ∀ l : LaneId, (s.lane l).runs = [] → 
      exec (.domainBringupTimeout Dom.ear) s = .next { s with power := s.power.fence Dom.ear }) ∧
  (∀ (d : Dom) (s : State),
      s.power.waking.getLsbD d.val = false → 
      exec (.domainBringupTimeout d) s = .next s)

/-- Cases of live copies and rig-frame trials (R379, R380, R381, R480). LIVE_COPY_ROW of the one copy, not yet whole, copies one
row more, and without a copy does nothing. LIVE_COPY_DONE of the one copy, whole: a row's puts the spare row in use, queues its
repair record, logs it and leaves the bank map; a bank's gives the bank to the new unit, which is ACTIVE, fences the old one,
logs it and leaves the memory. RIG_FRAME_TRIAL_DONE of a trial that passes, of a frame read with a good CRC and no table image,
with the suspect shell in service and not running, fences that shell and remembers frame and spare; one that fails ends the
trial, empties the spare's slot 0 and changes no other shell nor the map; without a trial nothing happens. These forms answer a
next state, with their own effect, where their clauses say: RIG_FRAME_TRIAL_DONE, LIVE_COPY_ROW, LIVE_COPY_DONE. -/
def Obligations.CopiesAndTrialsEnd : Prop :=
  (∀ (b : Fin 64) (x : LiveCopy) (s : State),
      s.faults.copies = [x] → x.bank = b → x.copied < x.total → 
      exec (.liveCopyRow b) s = .next { s with faults := { s.faults with copies := [{ x with copied := x.copied + 1 }] } }) ∧
  (∀ (b : Fin 64) (s : State),
      s.faults.copies = [] → 
      exec (.liveCopyRow b) s = .next s) ∧
  (∀ (x : LiveCopy) (r : Fin 2048) (s : State),
      s.faults.copies = [x] → x.row = some r → x.copied = 1 → 
      ∃ t, exec (.liveCopyDone x.bank) s = .next t ∧ t.faults.copies = [] ∧ t.faults.rows = s.faults.rows ++ [(x.fromUnit, r)] ∧ t.faults.logNum = s.faults.logNum + 1 ∧
        t.faults.repairQueue = s.faults.repairQueue ++ [{ unit := (UnitRef.row x.fromUnit r).code, kind := .retired, cause := none, gen := s.generation, detail := BitVec.ofNat 64 r.val }] ∧
        t.faults.bankMap = s.faults.bankMap ∧ t = { s with faults := t.faults }) ∧
  (∀ (x : LiveCopy) (s : State),
      s.faults.copies = [x] → x.row = none → x.copied = 2048 → x.fromUnit ≠ x.toUnit → 
      ∃ t, exec (.liveCopyDone x.bank) s = .next t ∧ t.faults.copies = [] ∧ t.faults.bankMap = put s.faults.bankMap x.bank x.toUnit ∧ t.faults.banks[x.fromUnit] = .fenced ∧
        t.faults.banks[x.toUnit] = .active ∧ t.faults.logNum = s.faults.logNum + 1 ∧ t.mem = s.mem ∧ t = { s with faults := t.faults }) ∧
  (∀ (x : FrameTrial) (b : List Byte) (s u : State),
      s.faults.trial = some x → unitsAt x.frame 64 { s with faults := { s.faults with trial := none } } = (b, u) → rigCrcOk b = true → (parseRig b).writesTable = false → u.inService x.suspect = true → (u.shell x.suspect).running = none → x.spare ≠ x.suspect → 
      ∃ t, exec (.rigFrameTrialDone true) s = .next t ∧ t.faults.trial = none ∧ t.faults.shells[x.suspect] = .fenced ∧
        t.faults.passedFrames = u.faults.passedFrames ++ [(x.handle, x.frame, x.spare)]) ∧
  (∀ (x : FrameTrial) (s : State),
      s.faults.trial = some x → 
      ∃ t, exec (.rigFrameTrialDone false) s = .next t ∧ t.faults = { s.faults with trial := none } ∧ (t.shell x.spare).slots[(0 : Fin 16)] = {} ∧
        (∀ i, i ≠ x.spare → t.shell i = s.shell i) ∧ t.map = s.map) ∧
  (∀ (ok : Bool) (s : State),
      s.faults.trial = none → 
      exec (.rigFrameTrialDone ok) s = .next s)

/-- Cases of the FIRM calls and the end of an erase (R347, R352, R417, R419, R420, R430). Of a call after the banner on a free
line; but for BEGIN and STATE with no erase. FIRM STATE reports and changes nothing. FIRM BEGIN beyond 262,144 bytes fails with
E.RANGE; up to that, from the Call line, the erase begins and the reply waits. FIRM_ERASE_DONE erases the header block and the
body's blocks up to the size, leaves lanes, memory and keys, and replies; with no erase it does nothing. With an update begun:
FIRM DATA at a multiple of 16, in whole units or up to the size's end, and inside the size, writes its bytes at the offset but
for the word COMPLETE, leaves every other byte of the flash, marks its units and no others, keeps the highest byte written, and
leaves lanes, memory and keys; elsewhere it fails with E.RANGE; FIRM addr= from mailbox memory, aligned and inside the size,
puts what it reads after the highest byte written; in recovery an address below mailbox memory fails with E.RANGE; FIRM END with
a unit missing fails with E.STATE and the first missing offset, of another mark in the header with E.CONF, where digest or
signature fails with E.KEY; of an image that passes it writes COMPLETE and ends the update, and in recovery asks for the warm
reset. FIRM DATA without an update fails with E.STATE, and while an erase runs with E.BUSY. (An erased byte reads 0xFF,
notes/assumptions/34.) These forms answer a next state, with their own effect, where their clauses say: FIRM_STATE, FIRM_BEGIN,
FIRM_DATA, FIRM_ADDR, FIRM_END, FIRM_ERASE_DONE. -/
def Obligations.FirmwareUpdates : Prop :=
  (∀ (c : Caller) (s : State),
      s.start.banner = true → s.lineBusy c = false → 
      ∃ t, exec (.firmState c) s = .next t ∧ t.quiet = s.quiet ∧ Replied c (okLine c "FIRM" [if s.firm.running then symF "fw" (versionText s.firm.version) else ("fw", .dash),
          symF "image" (if (firmHeader s).isNone && firmDigest s && firmSigned s then "COMPLETE" else "INCOMPLETE"),
          match s.firm.size with | some n => decF "size" n | none => ("size", .dash), decF "written" (16 * s.firm.written.length)]) t) ∧
  (∀ (c : Caller) (n : Nat) (s : State),
      s.start.banner = true → s.lineBusy c = false → 262144 < n → 
      ∃ t, exec (.firmBegin c n) s = .next t ∧ t.quiet = s.quiet ∧ Replied c ⟨.fail, "FIRM", c.tag, [bareF "E.RANGE"]⟩ t) ∧
  (∀ (c : Caller) (n : Nat) (s : State),
      s.start.banner = true → s.lineBusy c = false → n ≤ 262144 → s.firm.erasing = none → c.path = .call → 
      exec (.firmBegin c n) s = .next { s with
        firm := { s.firm with size := some n, erasing := some c, written := [], highest := 0 }, call := { s.call with running := some "FIRM" } }) ∧
  (∀ (c : Caller) (n : Nat) (s : State),
      s.firm.erasing = some c → s.firm.size = some n → 
      ∃ t, exec .firmEraseDone s = .next t ∧ t.firm = { s.firm with erasing := none } ∧ t.flash = s.flash.put 0 (List.replicate (Nat.max 4096 ((n + 4095) / 4096 * 4096)) 0xFF#8) ∧
        t.lanes = s.lanes ∧ t.mem = s.mem ∧ t.keys = s.keys ∧ Replied c (okLine c "FIRM" [bareF "BEGIN", decF "size" n]) t) ∧
  (∀ (s : State),
      s.firm.erasing = none → 
      exec .firmEraseDone s = .next s) ∧
  (∀ (c : Caller) (n o : Nat) (b : List Byte) (s : State),
      s.start.banner = true → s.lineBusy c = false → s.firm.erasing = none → s.firm.size = some n → o % 16 = 0 → b.length % 16 = 0 ∨ o + b.length = n → o + b.length ≤ n → s.flash.wf = true → 
      ∃ t, exec (.firmData c o b) s = .next t ∧ (∀ k, k < b.length → (o + k < 4092 ∨ 4096 ≤ o + k) → t.flash.get (o + k) = b.getD k 0#8) ∧
        (∀ a : Nat, (a < o ∨ o + b.length ≤ a) → t.flash.get a = s.flash.get a) ∧ (∀ a : Nat, a < 4096 → 4092 ≤ a → t.flash.get a = s.flash.get a) ∧
        (∀ u, u < (n + 15) / 16 → (u ∈ t.firm.written ↔ u ∈ s.firm.written ∨ (o / 16 ≤ u ∧ 16 * u < o + b.length))) ∧
        t.firm.highest = Nat.max s.firm.highest (o + b.length) ∧ t.lanes = s.lanes ∧ t.mem = s.mem ∧ t.keys = s.keys ∧ Replied c (okLine c "FIRM" [bareF "DATA", ("", .dec o)]) t) ∧
  (∀ (c : Caller) (n o : Nat) (b : List Byte) (s : State),
      s.start.banner = true → s.lineBusy c = false → s.firm.erasing = none → s.firm.size = some n → o % 16 ≠ 0 ∨ n < o + b.length ∨ (b.length % 16 ≠ 0 ∧ o + b.length ≠ n) → 
      ∃ t, exec (.firmData c o b) s = .next t ∧ t.quiet = s.quiet ∧ Replied c ⟨.fail, "FIRM", c.tag, [bareF "E.RANGE"]⟩ t) ∧
  (∀ (c : Caller) (o : Nat) (b : List Byte) (s : State),
      s.start.banner = true → s.lineBusy c = false → s.firm.erasing = none → s.firm.size = none → 
      ∃ t, exec (.firmData c o b) s = .next t ∧ t.quiet = s.quiet ∧ Replied c ⟨.fail, "FIRM", c.tag, [bareF "E.STATE"]⟩ t) ∧
  (∀ (c d : Caller) (o : Nat) (b : List Byte) (s : State),
      s.start.banner = true → s.lineBusy c = false → s.firm.erasing = some d → 
      ∃ t, exec (.firmData c o b) s = .next t ∧ t.quiet = s.quiet ∧ Replied c ⟨.fail, "FIRM", c.tag, [bareF "E.BUSY"]⟩ t) ∧
  (∀ (c : Caller) (n m : Nat) (x : Fin 0x80000) (s : State),
      s.start.banner = true → s.lineBusy c = false → s.firm.erasing = none → s.firm.size = some n → s.firm.highest % 16 = 0 → m % 16 = 0 → s.firm.highest + m ≤ n → x.val + m ≤ 0x80000 → 
      ∃ t, exec (.firmAddr c (bhBase + 63 * 0x80000 + x.val) m) s = .next t ∧ t.flash = firmPut s.firm.highest (s.mem.bh.range (63 * 0x80000 + x.val) m) s.flash ∧
        t.firm.highest = s.firm.highest + m ∧ t.lanes = s.lanes ∧ t.mem = s.mem ∧ t.keys = s.keys ∧ Replied c (okLine c "FIRM" [("addr", hexAddr (bhBase + 63 * 0x80000 + x.val)), decF "len" m]) t) ∧
  (∀ (c : Caller) (n a m : Nat) (s : State),
      s.start.banner = true → s.lineBusy c = false → s.firm.erasing = none → s.firm.size = some n → s.keys.recovery = true → s.firm.highest % 16 = 0 → m % 16 = 0 → s.firm.highest + m ≤ n → a < bhBase + 63 * 0x80000 → 
      ∃ t, exec (.firmAddr c a m) s = .next t ∧ t.quiet = s.quiet ∧ Replied c ⟨.fail, "FIRM", c.tag, [bareF "E.RANGE"]⟩ t) ∧
  (∀ (c : Caller) (n u : Nat) (s : State),
      s.start.banner = true → s.lineBusy c = false → s.firm.erasing = none → s.firm.size = some n → u < (n + 15) / 16 → u ∉ s.firm.written → ∀ k, k < u → k ∈ s.firm.written → 
      ∃ t, exec (.firmEnd c) s = .next t ∧ t.quiet = s.quiet ∧ Replied c ⟨.fail, "FIRM", c.tag, [bareF "E.STATE", decF "missing" (16 * u)]⟩ t) ∧
  (∀ (c : Caller) (n : Nat) (s : State),
      s.start.banner = true → s.lineBusy c = false → s.firm.erasing = none → s.firm.size = some n → ∀ k, k < (n + 15) / 16 → k ∈ s.firm.written → s.flash.nat 0 4 ≠ 0x4D524946 → 
      ∃ t, exec (.firmEnd c) s = .next t ∧ t.quiet = s.quiet ∧ Replied c ⟨.fail, "FIRM", c.tag, [bareF "E.CONF"]⟩ t) ∧
  (∀ (c : Caller) (n : Nat) (s : State),
      s.start.banner = true → s.lineBusy c = false → s.firm.erasing = none → s.firm.size = some n → ∀ k, k < (n + 15) / 16 → k ∈ s.firm.written → s.flash.nat 0 4 = 0x4D524946 → 1 ≤ s.flash.nat 8 4 → 4096 + s.flash.nat 8 4 ≤ n → firmDigest s = true → firmSigned s = true → s.keys.recovery = false → 
      ∃ t, exec (.firmEnd c) s = .next t ∧ t.flash = s.flash.put 4092 [0x44#8, 0x4F#8, 0x4E#8, 0x45#8] ∧ t.firm.size = none ∧ t.start = s.start ∧
        t.lanes = s.lanes ∧ t.mem = s.mem ∧ Replied c (okLine c "FIRM" [bareF "END"]) t) ∧
  (∀ (c : Caller) (n : Nat) (s : State),
      s.start.banner = true → s.lineBusy c = false → s.firm.erasing = none → s.firm.size = some n → ∀ k, k < (n + 15) / 16 → k ∈ s.firm.written → s.flash.nat 0 4 = 0x4D524946 → 1 ≤ s.flash.nat 8 4 → 4096 + s.flash.nat 8 4 ≤ n → firmDigest s = true → firmSigned s = true → s.keys.recovery = true → 
      ∃ t, exec (.firmEnd c) s = .next t ∧ t.flash = s.flash.put 4092 [0x44#8, 0x4F#8, 0x4E#8, 0x45#8] ∧ t.firm.size = none ∧ t.start.warmPending = some .firmEnd ∧
        t.lanes = s.lanes ∧ t.mem = s.mem ∧ Replied c (okLine c "FIRM" [bareF "END"]) t) ∧
  (∀ (c : Caller) (n : Nat) (s : State),
      s.start.banner = true → s.lineBusy c = false → s.firm.erasing = none → s.firm.size = some n → ∀ k, k < (n + 15) / 16 → k ∈ s.firm.written → s.flash.nat 0 4 = 0x4D524946 → 1 ≤ s.flash.nat 8 4 → 4096 + s.flash.nat 8 4 ≤ n → firmDigest s = false ∨ firmSigned s = false → 
      ∃ t, exec (.firmEnd c) s = .next t ∧ t.quiet = s.quiet ∧ Replied c ⟨.fail, "FIRM", c.tag, [bareF "E.KEY"]⟩ t)

/-- Cases of the test access port and the halting commands of the String Port (R439, R440, R441, R443, R444, R447, R448, R449).
Of a part that is not locked: TAP_INSTRUCTION selects the instruction, IDCODE_CAPTURE under IDCODE shifts out the identity,
RESP_CAPTURE under RESP the status, OP and result of the last command; of a locked part the first does nothing and the other two
float STR_TDO. A command under CMD: with no session STATUS opens one, and halts, shells and lanes stay; HALT in confidential
mode answers CLOSED, while a STEP runs it does nothing, with a reserved field it answers BADOP, and none of these acts. In a
session, not confidential, with no STEP: STATUS answers halts, armed slots and the session bit; HALT and RESUME set and release
the halts of their mask, and HALT leaves every run where it is; STEP of 1 to 65,535 strokes of a halted shell with a program
begins and answers BUSY, of one not halted answers NOTHALTED; COUNTER answers a shell's stroke count; BREAK_SET of a tally slot
sets it, with the reserved bit 18 it answers BADOP; BREAK_CLEAR clears a slot. STEP_DONE with no strokes left, or no program,
ends the STEP with the strokes made; before that it does nothing. STR_SESSION_IDLE in a session and STR_TRST end the session,
release the halts and clear the slots, STR_TRST also selects IDCODE; without a session STR_SESSION_IDLE does nothing. But for
the lanes at a halt or its release only the String Port changes. These forms answer a next state, with their own effect, where
their clauses say: TAP_INSTRUCTION, STRING_STATUS, HALT, RESUME, STEP, COUNTER, BREAK_SET, BREAK_CLEAR, IDCODE_CAPTURE,
RESP_CAPTURE, STEP_DONE, STR_SESSION_IDLE, STR_TRST. -/
def Obligations.StringPortHaltsAndSteps : Prop :=
  (∀ (i : BitVec 4) (s : State),
      s.locked = false → 
      exec (.tapInstruction i) s = .next { s with str := { s.str with ir := i } }) ∧
  (∀ (i : BitVec 4) (s : State),
      s.locked = true → 
      exec (.tapInstruction i) s = .next s) ∧
  (∀ (s : State),
      s.locked = false → s.str.ir = 1#4 → 
      exec .idcodeCapture s = .next { s with str := { s.str with tdo := some (BitVec.ofNat 80 (revision s % 16 * 0x10000000 + 0x00480001)) } }) ∧
  (∀ (s : State),
      s.locked = true → 
      exec .idcodeCapture s = .next { s with str := { s.str with tdo := none } }) ∧
  (∀ (s : State),
      s.locked = false → s.str.ir = 9#4 → 
      exec .respCapture s = .next { s with str := { s.str with
        tdo := some (BitVec.ofNat 80 (s.str.status.code * 2 ^ 72 + s.str.lastOp.toNat * 2 ^ 64 + s.str.result.toNat)) } }) ∧
  (∀ (s : State),
      s.locked = true → 
      exec .respCapture s = .next { s with str := { s.str with tdo := none } }) ∧
  (∀ (s : State),
      s.locked = false → s.str.ir = 8#4 → s.str.stepping = none → s.confidential = false → s.str.session = false → 
      ∃ t, exec (.stringStatus 0#24 0#64) s = .next t ∧ t.str.session = true ∧ t.str.touch = none ∧ t.str.status = .done ∧ t.str.halted = s.str.halted ∧ t.shells = s.shells ∧ t.lanes = s.lanes) ∧
  (∀ (s : State),
      s.locked = false → s.str.ir = 8#4 → s.str.stepping = none → s.confidential = false → s.str.session = true → 
      ∃ t, exec (.stringStatus 0#24 0#64) s = .next t ∧ t.str = { s.str with status := .done, lastOp := 0x01#8, result := BitVec.ofNat 64 (2 ^ 26 + 2 ^ 18 * armedMask s + s.str.halted.toNat) } ∧ t = { s with str := t.str }) ∧
  (∀ (a : BitVec 24) (d : W64) (s : State),
      s.locked = false → s.str.ir = 8#4 → s.str.stepping = none → s.confidential = true → 
      ∃ t, exec (.halt a d) s = .next t ∧ t.str = { s.str with status := .closed, lastOp := 0x10#8, result := 0#64 } ∧ t = { s with str := t.str }) ∧
  (∀ (a : BitVec 24) (d : W64) (s : State),
      s.locked = false → s.str.ir = 8#4 → s.str.stepping ≠ none → 
      exec (.halt a d) s = .next s) ∧
  (∀ (a : BitVec 24) (d : W64) (s : State),
      s.locked = false → s.str.ir = 8#4 → s.str.stepping = none → s.confidential = false → s.str.session = true → 0x40000 ≤ a.toNat ∨ d ≠ 0#64 → 
      ∃ t, exec (.halt a d) s = .next t ∧ t.str = { s.str with status := .badop, lastOp := 0x10#8, result := 0#64 } ∧ t = { s with str := t.str }) ∧
  (∀ (a : BitVec 24) (s : State),
      s.locked = false → s.str.ir = 8#4 → s.str.stepping = none → s.confidential = false → s.str.session = true → a.toNat < 0x40000 → 
      ∃ t, exec (.halt a 0#64) s = .next t ∧ t.str = { s.str with status := .done, lastOp := 0x10#8, result := a.setWidth 64, halted := s.str.halted ||| a.setWidth 18 } ∧ t = { s with str := t.str, lanes := t.lanes } ∧
        ∀ l : LaneId, (t.lane l).runs.map (fun r => (r.seq, r.st, r.seg, r.open_)) = (s.lane l).runs.map fun r => (r.seq, r.st, r.seg, r.open_)) ∧
  (∀ (a : BitVec 24) (s : State),
      s.locked = false → s.str.ir = 8#4 → s.str.stepping = none → s.confidential = false → s.str.session = true → a.toNat < 0x40000 → 
      ∃ t, exec (.resume a 0#64) s = .next t ∧ t.str = { s.str with status := .done, lastOp := 0x11#8, result := (s.str.halted &&& a.setWidth 18).setWidth 64, halted := s.str.halted &&& ~~~(a.setWidth 18) } ∧ t = { s with str := t.str, lanes := t.lanes }) ∧
  (∀ (i : ShellId) (n : W64) (s : State),
      s.locked = false → s.str.ir = 8#4 → s.str.stepping = none → s.confidential = false → s.str.session = true → 1 ≤ n.toNat ∧ n.toNat ≤ 65535 → s.str.halted.getLsbD i.val = true → s.hasProgram i = true → 
      ∃ t, exec (.step (BitVec.ofNat 24 i.val) n) s = .next t ∧ t.str = { s.str with status := .busy, lastOp := 0x12#8, result := 0#64, stepping := some (i, n.toNat, 0) } ∧ t = { s with str := t.str }) ∧
  (∀ (i : ShellId) (n : W64) (s : State),
      s.locked = false → s.str.ir = 8#4 → s.str.stepping = none → s.confidential = false → s.str.session = true → 1 ≤ n.toNat ∧ n.toNat ≤ 65535 → s.str.halted.getLsbD i.val = false → 
      ∃ t, exec (.step (BitVec.ofNat 24 i.val) n) s = .next t ∧ t.str = { s.str with status := .notHalted, lastOp := 0x12#8, result := 0#64 } ∧ t = { s with str := t.str }) ∧
  (∀ (i : ShellId) (m r : Nat) (s : State),
      s.str.stepping = some (i, m, r) → m = 0 ∨ s.hasProgram i = false → 
      exec .stepDone s = .next { s with str := { s.str with stepping := none, status := .done, result := BitVec.ofNat 64 r } }) ∧
  (∀ (i : ShellId) (m r : Nat) (s : State),
      s.str.stepping = some (i, m, r) → m ≠ 0 → s.hasProgram i = true → 
      exec .stepDone s = .next s) ∧
  (∀ (i : ShellId) (s : State),
      s.locked = false → s.str.ir = 8#4 → s.str.stepping = none → s.confidential = false → s.str.session = true → 
      ∃ t, exec (.counter (BitVec.ofNat 24 i.val) 0#64) s = .next t ∧ t.str = { s.str with status := .done, lastOp := 0x13#8, result := (s.shell i).strokes.setWidth 64 } ∧ t = { s with str := t.str }) ∧
  (∀ (k : Fin 8) (m : BitVec 18) (q : W16) (g : Fin 1024) (s : State),
      s.locked = false → s.str.ir = 8#4 → s.str.stepping = none → s.confidential = false → s.str.session = true → 
      ∃ t, exec (.breakSet (BitVec.ofNat 24 (k.val * 2 ^ 21 + 2 ^ 19 + m.toNat)) (BitVec.ofNat 64 (g.val * 2 ^ 32 + q.toNat))) s = .next t ∧
        t.str = { s.str with status := .done, lastOp := 0x20#8, result := 0#64, slots := put s.str.slots k (some (.tally g q m)) } ∧ t = { s with str := t.str }) ∧
  (∀ (a : BitVec 24) (d : W64) (s : State),
      s.locked = false → s.str.ir = 8#4 → s.str.stepping = none → s.confidential = false → s.str.session = true → a.getLsbD 18 = true → 
      ∃ t, exec (.breakSet a d) s = .next t ∧ t.str = { s.str with status := .badop, lastOp := 0x20#8, result := 0#64 } ∧ t = { s with str := t.str }) ∧
  (∀ (k : Fin 8) (s : State),
      s.locked = false → s.str.ir = 8#4 → s.str.stepping = none → s.confidential = false → s.str.session = true → 
      ∃ t, exec (.breakClear (BitVec.ofNat 24 (k.val * 2 ^ 21)) 0#64) s = .next t ∧ t.str = { s.str with status := .done, lastOp := 0x21#8, result := 0#64, slots := put s.str.slots k none } ∧ t = { s with str := t.str }) ∧
  (∀ (s : State),
      s.str.session = true → 
      ∃ t, exec .strSessionIdle s = .next t ∧ t.str.session = false ∧ t.str.halted = 0#18 ∧ (∀ k : Fin 8, t.str.slots[k] = none) ∧ t.str.stepping = none ∧ t = { s with str := t.str, lanes := t.lanes }) ∧
  (∀ (s : State),
      s.str.session = false → 
      exec .strSessionIdle s = .next s) ∧
  (∀ (s : State),
      ∃ t, exec .strTrst s = .next t ∧ t.str.session = false ∧ t.str.halted = 0#18 ∧ t.str.ir = 1#4 ∧ (∀ k : Fin 8, t.str.slots[k] = none) ∧ t = { s with str := t.str, lanes := t.lanes })

/-- Cases of the register and memory commands of the String Port (R445, R446, R447, R441, R442). In a session of a part that is
not locked, not confidential, under CMD with no STEP. RD32 of a tally answers its value; WR32 of LANEn_PRIO sets the priority
and answers the value read after it, and no other lane changes; an offset beyond the window or no multiple of 4, and for WR32 a
value of 2^32 or more, answer BADOP. SETADDR sets a shell's SRAM or the Course as the space, and the pointer; a pointer that is
no multiple of 8 answers BADOP. RDMEM of a shell's SRAM, and of the Boathouse below mailbox memory with its bank up, not
poisoned and no open output, answers the 8 bytes at the pointer and moves it by 8; WRMEM writes them there, and in the Boathouse
shells, lanes and DRAM stay; of a shell that runs a started heat that has not failed, in the only such lane, the first WRMEM of
a session remembers that heat. Mailbox memory, and for RDMEM what lies beyond a table store, answer REFUSED, and the pointer
stays. These forms answer a next state, with their own effect, where their clauses say: RD32, WR32, SETADDR, RDMEM, WRMEM. -/
def Obligations.StringPortReadsAndWrites : Prop :=
  (∀ (k : Fin 1024) (s : State),
      s.locked = false → s.str.ir = 8#4 → s.str.stepping = none → s.confidential = false → s.str.session = true → 
      ∃ t, exec (.rd32 (BitVec.ofNat 24 (0x3000 + 4 * k.val)) 0#64) s = .next t ∧ t.str = { s.str with status := .done, lastOp := 0x30#8, result := (s.tally k.val).setWidth 64 } ∧ t = { s with str := t.str }) ∧
  (∀ (a : BitVec 24) (s : State),
      s.locked = false → s.str.ir = 8#4 → s.str.stepping = none → s.confidential = false → s.str.session = true → 0x40000 ≤ a.toNat ∨ a.toNat % 4 ≠ 0 → 
      ∃ t, exec (.rd32 a 0#64) s = .next t ∧ t.str = { s.str with status := .badop, lastOp := 0x30#8, result := 0#64 } ∧ t = { s with str := t.str }) ∧
  (∀ (l : LaneId) (d : W64) (s : State),
      s.locked = false → s.str.ir = 8#4 → s.str.stepping = none → s.confidential = false → s.str.session = true → d.toNat < 2 ^ 32 → 
      ∃ t, exec (.wr32 (BitVec.ofNat 24 (0x2004 + 0x400 * l.val)) d) s = .next t ∧ (t.lane l).prio = d.setWidth 2 ∧ (∀ k, k ≠ l → t.lane k = s.lane k) ∧
        t.str = { s.str with status := .done, lastOp := 0x31#8, result := (d.setWidth 2 : BitVec 2).setWidth 64 } ∧ t = { s with str := t.str, lanes := t.lanes }) ∧
  (∀ (a : BitVec 24) (d : W64) (s : State),
      s.locked = false → s.str.ir = 8#4 → s.str.stepping = none → s.confidential = false → s.str.session = true → 0x40000 ≤ a.toNat ∨ a.toNat % 4 ≠ 0 ∨ 2 ^ 32 ≤ d.toNat → 
      ∃ t, exec (.wr32 a d) s = .next t ∧ t.str = { s.str with status := .badop, lastOp := 0x31#8, result := 0#64 } ∧ t = { s with str := t.str }) ∧
  (∀ (i : ShellId) (d : W64) (s : State),
      s.locked = false → s.str.ir = 8#4 → s.str.stepping = none → s.confidential = false → s.str.session = true → d.toNat % 8 = 0 → 
      ∃ t, exec (.setaddr (BitVec.ofNat 24 (1 + 16 * i.val)) d) s = .next t ∧ t.str = { s.str with status := .done, lastOp := 0x40#8, result := 0#64, space := .sram i, pointer := d.toNat } ∧ t = { s with str := t.str }) ∧
  (∀ (d : W64) (s : State),
      s.locked = false → s.str.ir = 8#4 → s.str.stepping = none → s.confidential = false → s.str.session = true → d.toNat % 8 = 0 → 
      ∃ t, exec (.setaddr 0#24 d) s = .next t ∧ t.str = { s.str with status := .done, lastOp := 0x40#8, result := 0#64, space := .course, pointer := d.toNat } ∧ t = { s with str := t.str }) ∧
  (∀ (a : BitVec 24) (d : W64) (s : State),
      s.locked = false → s.str.ir = 8#4 → s.str.stepping = none → s.confidential = false → s.str.session = true → d.toNat % 8 ≠ 0 → 
      ∃ t, exec (.setaddr a d) s = .next t ∧ t.str = { s.str with status := .badop, lastOp := 0x40#8, result := 0#64 } ∧ t = { s with str := t.str }) ∧
  (∀ (i : ShellId) (s : State),
      s.locked = false → s.str.ir = 8#4 → s.str.stepping = none → s.confidential = false → s.str.session = true → s.str.space = .sram i → s.str.pointer < 0x80000 → (s.shell i).poisoned.contains (s.str.pointer / 8) = false → 
      ∃ t, exec (.rdmem 0#24 0#64) s = .next t ∧ t.str = { s.str with status := .done, lastOp := 0x41#8, result := BitVec.ofNat 64 (leNat ((s.shell i).sram.range s.str.pointer 8)), pointer := s.str.pointer + 8 } ∧
        t = { s with str := t.str, power := t.power }) ∧
  (∀ (o : Nat) (s : State),
      s.locked = false → s.str.ir = 8#4 → s.str.stepping = none → s.confidential = false → s.str.session = true → s.str.space = .course → s.str.pointer = bhBase + o → o < 63 * 0x80000 → o % 8 = 0 → s.bankUp (bankAt o) = true → s.faults.poisoned.contains (o / 8) = false → s.outOpen s.str.pointer 8 = false → 
      ∃ t, exec (.rdmem 0#24 0#64) s = .next t ∧ t.str = { s.str with status := .done, lastOp := 0x41#8, result := BitVec.ofNat 64 (leNat (s.mem.bh.range o 8)), pointer := s.str.pointer + 8 } ∧ t.mem = s.mem ∧ t.lanes = s.lanes) ∧
  (∀ (s : State),
      s.locked = false → s.str.ir = 8#4 → s.str.stepping = none → s.confidential = false → s.str.session = true → s.str.space = .course → bhBase + 63 * 0x80000 ≤ s.str.pointer ∧ s.str.pointer < bhBase + 64 * 0x80000 → 
      ∃ t, exec (.rdmem 0#24 0#64) s = .next t ∧ t.str = { s.str with status := .refused, lastOp := 0x41#8, result := 0#64 } ∧ t = { s with str := t.str }) ∧
  (∀ (i : ShellId) (s : State),
      s.locked = false → s.str.ir = 8#4 → s.str.stepping = none → s.confidential = false → s.str.session = true → s.str.space = .table i → 0x20000 ≤ s.str.pointer → 
      ∃ t, exec (.rdmem 0#24 0#64) s = .next t ∧ t.str = { s.str with status := .refused, lastOp := 0x41#8, result := 0#64 } ∧ t = { s with str := t.str }) ∧
  (∀ (i : ShellId) (d : W64) (s : State),
      s.locked = false → s.str.ir = 8#4 → s.str.stepping = none → s.confidential = false → s.str.session = true → s.str.space = .sram i → s.str.pointer < 0x80000 → 
      ∃ t, exec (.wrmem 0#24 d) s = .next t ∧ (t.shell i).sram = (s.shell i).sram.put s.str.pointer (leBytes d.toNat 8) ∧ (∀ j, j ≠ i → t.shell j = s.shell j) ∧
        t.str.status = .done ∧ t.str.pointer = s.str.pointer + 8 ∧ (s.str.touch ≠ none → t.str.touch = s.str.touch) ∧ t = { s with str := t.str, power := t.power, shells := t.shells }) ∧
  (∀ (l : LaneId) (q : W32) (r : HeatRun) (i : ShellId) (d : W64) (s : State),
      s.locked = false → s.str.ir = 8#4 → s.str.stepping = none → s.confidential = false → s.str.session = true → s.str.space = .sram i → s.str.pointer < 0x80000 → s.str.touch = none → (s.shell i).running = some (l, q) → ∀ k : LaneId, k.val < l.val → (s.lane k).runs = [] → (s.lane l).runs = [r] → r.seq = q → r.started = true → r.failed = none → 
      ∃ t, exec (.wrmem 0#24 d) s = .next t ∧ t.str.touch = some (l, q.setWidth 24)) ∧
  (∀ (o : Nat) (d : W64) (s : State),
      s.locked = false → s.str.ir = 8#4 → s.str.stepping = none → s.confidential = false → s.str.session = true → s.str.space = .course → s.str.pointer = bhBase + o → o < 63 * 0x80000 → o % 8 = 0 → s.bankUp (bankAt o) = true → 
      ∃ t, exec (.wrmem 0#24 d) s = .next t ∧ t.mem.bh = s.mem.bh.put o (leBytes d.toNat 8) ∧ t.mem.dram = s.mem.dram ∧ t.str.status = .done ∧ t.str.pointer = s.str.pointer + 8 ∧
        t.shells = s.shells ∧ t.lanes = s.lanes) ∧
  (∀ (d : W64) (s : State),
      s.locked = false → s.str.ir = 8#4 → s.str.stepping = none → s.confidential = false → s.str.session = true → s.str.space = .course → bhBase + 63 * 0x80000 ≤ s.str.pointer ∧ s.str.pointer < bhBase + 64 * 0x80000 → 
      ∃ t, exec (.wrmem 0#24 d) s = .next t ∧ t.str = { s.str with status := .refused, lastOp := 0x42#8, result := 0#64 } ∧ t = { s with str := t.str })
end

