-- ==== Sys2Proof/Machine/Book.lean ====
section
/-! DEFINITION. The records of the log book and of the repair area as bytes (R165, R205, R226 to R229, R391, R396): what the machine holds
as structures, in the layout of the manual, with the check of each record. -/

namespace Sys2Proof.Machine
open Sys2Proof

/-! ## Fields and checks -/

/-- A record: its bytes up to the CRC, then the CRC-32 over them. -/
def withCrc (l : List Byte) : List Byte := l ++ leBytes (crc32 l).toNat 4

/-- Reserved bytes. -/
def reserved (n : Nat) : List Byte := List.replicate n 0#8

/-- A number, and the last number that a field can show. -/
def satBytes (v n : Nat) : List Byte := leBytes (Nat.min v (256 ^ n - 1)) n

/-- The last four bytes of n are the CRC-32 over the bytes before them. -/
def crcHolds (n : Nat) (l : List Byte) : Bool := l.length == n && (l.drop (n - 4)) == leBytes (crc32 (l.take (n - 4))).toNat 4

/-! ## Heat blocks (R227, R228) -/

/-- The head of a journal record: TYPE, LANE, two bytes of the type, SEQ. -/
def recordHead (kind : Nat) (l : LaneId) (a b : Nat) (q : W32) : List Byte :=
  leBytes kind 1 ++ leBytes l.val 1 ++ leBytes a 1 ++ leBytes b 1 ++ leBytes q.toNat 4

def Source.code : Source → Nat
  | .call => 0 | .host => 1 | .engine => 2

def AcceptRec.bytes (l : LaneId) (q : W32) (a : AcceptRec) : List Byte :=
  withCrc (recordHead 1 l a.source.code a.args.length q ++ leBytes a.handle.val 1 ++
    leBytes (match a.adSlot with | some n => n.val | none => 0xFF) 1 ++ leBytes a.entry 2 ++ leBytes a.relDep 2 ++ leBytes a.relWait 2 ++
    (a.tag ++ reserved 16).take 16 ++ leBytes a.tAcc.toNat 8 ++ leBytes a.hcAcc.toNat 4 ++ reserved 16)

/-- An argument: the address and length of a region, or the value of a constant. An adapter argument is the record's ADSLOT, and its own
bytes are 0 (notes/assumptions/26). -/
def HeatArg.bytes : HeatArg → List Byte
  | .region a n => leBytes a 8 ++ leBytes n 4
  | .const v => leBytes v.toNat 4 ++ reserved 8
  | .adapter _ => reserved 12

/-- ARGS0 holds arguments 0 to 3, ARGS1 arguments 4 to 7. -/
def AcceptRec.argsBytes (l : LaneId) (q : W32) (second : Bool) (a : AcceptRec) : List Byte :=
  let xs := (a.args.drop (if second then 4 else 0)).take 4
  withCrc (recordHead 2 l 0 0 q ++ (xs.flatMap HeatArg.bytes ++ reserved 48).take 48 ++ reserved 4)

def StatsRec.bytes (l : LaneId) (q : W32) (t : StatsRec) : List Byte :=
  let c := t.counts
  withCrc (recordHead 3 l 0 0 q ++ satBytes c.cw 6 ++ satBytes c.sw 6 ++ satBytes c.fw 6 ++ satBytes c.nw 6 ++ satBytes c.cr 6 ++
    satBytes c.ca 6 ++ leBytes t.altMap.toNat 16)

/-- FLAGS of a RETIRE record. -/
def RetireRec.flags (r : RetireRec) : Nat :=
  boolNat r.widened + 2 * boolNat r.rerun + 4 * boolNat r.nan + 8 * boolNat r.accOvf + 16 * boolNat r.adaptOff + 32 * boolNat r.late +
    64 * boolNat r.pending

def RetireRec.bytes (l : LaneId) (q : W32) (r : RetireRec) : List Byte :=
  withCrc (recordHead 4 l r.status.code r.restarts q ++ leBytes r.flags 2 ++ satBytes r.i16n 1 ++ satBytes r.h16n 1 ++
    leBytes r.variant.val 1 ++ leBytes (boolNat r.adSet) 1 ++ reserved 2 ++ leBytes r.adVer.toNat 4 ++ reserved 4 ++
    leBytes r.tRet.toNat 8 ++ satBytes r.strokes 8 ++ reserved 20)

/-- A journal record is valid where its CRC holds and its TYPE and SEQ agree with its place. -/
def recordValid (kind : Nat) (q : W32) (l : List Byte) : Bool :=
  crcHolds 64 l && leNat (l.take 1) == kind && leNat ((l.drop 4).take 4) == q.toNat

/-- A heat block: its five records, each empty where it was never written. -/
def HeatBlock.bytes (l : LaneId) (b : HeatBlock) : List Byte :=
  ((b.accept.map fun a => a.bytes l b.seq ++ a.argsBytes l b.seq false ++ a.argsBytes l b.seq true).getD (reserved 192)) ++
    ((b.stats.map (StatsRec.bytes l b.seq)).getD (reserved 64)) ++ ((b.retire.map (RetireRec.bytes l b.seq)).getD (reserved 64))

/-! ## Lane, adapter and bundle records, the superblock (R165, R205, R229) -/

def Lane.recordBytes (L : Lane) : List Byte :=
  withCrc (leBytes L.st.code 1 ++ leBytes L.owner.code 1 ++ leBytes L.prio.toNat 1 ++ reserved 1 ++ leBytes L.next.toNat 4 ++
    leBytes L.oldest.toNat 4 ++ leBytes L.hc.toNat 4 ++ reserved 44)

def State.adapterRecord (s : State) (n : Fin 8) : List Byte :=
  let d := s.ads[n]
  withCrc (leBytes d.st.code 1 ++ leBytes d.rank.toNat 1 ++ leBytes d.tensors.toNat 1 ++
    leBytes (boolNat d.set + 2 * boolNat (s.adapterHeld n) + 4 * boolNat d.l1 + 8 * boolNat d.l2 + 16 * boolNat d.creating) 1 ++
    leBytes d.ver.toNat 4 ++ leBytes d.image 8 ++ leBytes d.params.toNat 4 ++ leBytes d.lastSeq.toNat 4 ++ reserved 36)

def BundleSt.code : BundleSt → Nat
  | .free => 0 | .loaded => 1 | .waiting => 2 | .damaged => 3

/-- RESSLOTS: four bits for each resident rig, 0xF for an unused position. -/
def Bundle.resBits (b : Bundle) : Nat :=
  (List.range 4).foldl (fun n k => n + (match b.resSlots[k]? with | some j => j.val | none => 15) * 16 ^ k) 0

def bundleMagic : Nat := 0x44425242

/-- The record of handle h; one that failed its check has its CRC field overwritten with 0 (R374). -/
def Bundle.recordBytes (h : Fin 16) (b : Bundle) : List Byte :=
  (if b.recBad then fun l => l ++ leBytes 0 4 else withCrc) (leBytes bundleMagic 4 ++ leBytes h.val 1 ++ leBytes b.st.code 1 ++ leBytes b.lanes.toNat 1 ++
    leBytes (boolNat b.onchip + 2 * boolNat b.lookout) 1 ++ leBytes b.id.toNat 8 ++ leBytes b.digest.toNat 32 ++ leBytes b.image 8 ++
    leBytes b.total 8 ++ leBytes b.resBits 2 ++ leBytes b.keySlot.val 1 ++ leBytes b.source.val 1 ++ reserved 184)

/-- A bundle record is valid where its CRC holds and its MAGIC and HANDLE agree with its place. -/
def bundleRecordValid (h : Fin 16) (l : List Byte) : Bool :=
  crcHolds 256 l && leNat (l.take 4) == bundleMagic && leNat ((l.drop 4).take 1) == h.val

/-- A superblock copy of a generation: MAGIC, VERSION 1, the generation, and the CRC over 2,044 bytes. -/
def superBytes (gen : Nat) : List Byte :=
  withCrc (leBytes 0x4B42474C 4 ++ leBytes 1 2 ++ reserved 2 ++ leBytes gen 8 ++ reserved 2028)

/-! ## The fault log and the repair area (R391, R396) -/

def FaultRec.bytes (r : FaultRec) : List Byte :=
  withCrc (leBytes r.number 4 ++ leBytes r.kind.code 2 ++ leBytes r.unit.toNat 2 ++ leBytes r.gen 8 ++ leBytes r.tick.toNat 8 ++
    leBytes (causeCode r.cause) 1 ++ leBytes (match r.lane with | some l => l.val | none => 0xFF) 1 ++ leBytes r.result.toNat 2 ++
    leBytes r.seqFirst.toNat 4 ++ leBytes r.seqLast.toNat 4 ++ leBytes r.count 4 ++ leBytes r.detail.toNat 8 ++ reserved 44)

def RepairKind.code : RepairKind → Nat
  | .fenced => 1 | .retired => 2 | .rejoined => 3 | .page => 4

def RepairRec.bytes (r : RepairRec) : List Byte :=
  withCrc (leBytes r.unit.toNat 2 ++ leBytes r.kind.code 1 ++ leBytes (causeCode r.cause) 1 ++ leBytes r.gen 8 ++
    leBytes r.detail.toNat 8 ++ reserved 8)

/-- The header of the copy in force. -/
def Faults.repairHeader (f : Faults) : List Byte :=
  withCrc (leBytes 0x50524C5A 4 ++ leBytes f.repairSerial 4 ++ leBytes f.repairs.length 4 ++ reserved 48)

/-! ## The areas of the log book (R226) -/

/-- The bytes of the bitmap's mirror that are not 0 (R254). -/
def State.mirrorBytes (s : State) : List (Nat × List Byte) :=
  (s.mem.genBits.map (· / 8)).eraseDups.map fun k =>
    (0x2B000 + k, [BitVec.ofNat 8 (bitsOf fun (i : Fin 8) => s.mem.genBits.contains (8 * k + i.val))])

def SweepPhase.code : SweepPhase → Nat
  | .idle => 0 | .copy => 1 | .rewrite => 2

/-- The rotation records of the regions that a sweep covers (R254). -/
def State.rotationRecords (s : State) : List (Nat × List Byte) :=
  s.mem.sweeps.zipIdx.flatMap fun w => (sweepRegions s w.1).map fun r =>
    (0x32C00 + 0x20 * r.val, withCrc (Config.rotationRecord w.1.block w.1.phase.code w.1.new.val w.2).toList)

/-- Where each valid record lies: its offset in the log book, and its bytes. -/
def State.bookRecords (s : State) : List (Nat × List Byte) :=
  [(0, s.start.superA), (0x800, s.start.superB)].filterMap (fun p => p.2.map fun g => (p.1, superBytes g)) ++
  ((List.finRange 4).flatMap fun l => (s.lane l).journal.map fun p => (0x1000 + 0xA000 * l.val + 0x140 * p.1, p.2.bytes l)) ++
  ((List.finRange 16).map fun h => (0x29000 + 0x100 * h.val, (s.bundle h).recordBytes h)) ++
  ((List.finRange 4).map fun l => (0x2A000 + 0x40 * l.val, (s.lane l).recordBytes)) ++
  ((List.finRange 8).map fun n => (0x2A400 + 0x40 * n.val, s.adapterRecord n)) ++
  s.mirrorBytes ++ s.rotationRecords ++
  ((s.faults.log.filter (·.valid)).map fun r => (0x33000 + 96 * ((r.number - 1) % 512), r.bytes))

end Sys2Proof.Machine
end

