-- ==== Sys2Proof/Laws/Book.lean ====
section
/-! SUPPORT. Every record that the machine writes in the log book and in the repair area has its length and passes its check. -/

namespace Sys2Proof.Laws
open Sys2Proof Sys2Proof.Machine

@[simp] theorem leBytes_length (v n : Nat) : (leBytes v n).length = n := by
  induction n generalizing v with
  | zero => rfl
  | succ n ih => simp [leBytes, ih]

@[simp] theorem reserved_length (n : Nat) : (reserved n).length = n := by simp [reserved]
@[simp] theorem satBytes_length (v n : Nat) : (satBytes v n).length = n := by simp [satBytes]
@[simp] theorem withCrc_length (l : List Byte) : (withCrc l).length = l.length + 4 := by simp [withCrc]

theorem crcHolds_withCrc {l : List Byte} {n : Nat} (h : l.length + 4 = n) : crcHolds n (withCrc l) = true := by
  subst h
  simp [crcHolds, withCrc]

@[simp] theorem recordHead_length (k : Nat) (l : LaneId) (a b : Nat) (q : W32) : (recordHead k l a b q).length = 8 := by
  simp [recordHead]

/-- A record that begins with its head is valid in its place. -/
theorem recordValid_head {k : Nat} (l : LaneId) (a b : Nat) (q : W32) {x : List Byte} (hk : k < 256) (h : x.length = 52) :
    recordValid k q (withCrc (recordHead k l a b q ++ x)) = true := by
  have hc : crcHolds 64 (withCrc (recordHead k l a b q ++ x)) = true := crcHolds_withCrc (by simp [h])
  have hq := q.isLt
  simp only [recordValid, hc]
  simp [withCrc, recordHead, leBytes, leNat]
  omega

theorem accept_valid (l : LaneId) (q : W32) (a : AcceptRec) : recordValid 1 q (a.bytes l q) = true := by
  simp only [AcceptRec.bytes, List.append_assoc]
  exact recordValid_head l _ _ q (by decide) (by simp)

theorem args_valid (l : LaneId) (q : W32) (second : Bool) (a : AcceptRec) : recordValid 2 q (a.argsBytes l q second) = true := by
  simp only [AcceptRec.argsBytes, List.append_assoc]
  exact recordValid_head l _ _ q (by decide) (by simp)

theorem stats_valid (l : LaneId) (q : W32) (t : StatsRec) : recordValid 3 q (t.bytes l q) = true := by
  simp only [StatsRec.bytes, List.append_assoc]
  exact recordValid_head l _ _ q (by decide) (by simp)

theorem retire_valid (l : LaneId) (q : W32) (r : RetireRec) : recordValid 4 q (r.bytes l q) = true := by
  simp only [RetireRec.bytes, List.append_assoc]
  exact recordValid_head l _ _ q (by decide) (by simp)

theorem lane_record_crc (L : Lane) : crcHolds 64 L.recordBytes = true := crcHolds_withCrc (by simp)
theorem adapter_record_crc (s : State) (n : Fin 8) : crcHolds 64 (s.adapterRecord n) = true := crcHolds_withCrc (by simp)
theorem super_crc (g : Nat) : crcHolds 2048 (superBytes g) = true := crcHolds_withCrc (by simp)
theorem fault_record_crc (r : FaultRec) : crcHolds 96 r.bytes = true := crcHolds_withCrc (by simp)
theorem repair_record_crc (r : RepairRec) : crcHolds 32 r.bytes = true := crcHolds_withCrc (by simp)
theorem repair_header_crc (f : Faults) : crcHolds 64 f.repairHeader = true := crcHolds_withCrc (by simp)

theorem bundle_record_valid (h : Fin 16) (b : Bundle) (good : b.recBad = false) : bundleRecordValid h (b.recordBytes h) = true := by
  have hh := h.isLt
  have hc : crcHolds 256 (b.recordBytes h) = true := by
    simp only [Bundle.recordBytes, good, Bool.false_eq_true, if_false]
    exact crcHolds_withCrc (by simp)
  simp only [bundleRecordValid, hc]
  simp [Bundle.recordBytes, good, withCrc, bundleMagic, leBytes, leNat]
  omega

end Sys2Proof.Laws
end

