-- ==== Sys2Proof/Laws/Bytes.lean ====
section
/-! SUPPORT. Laws of sparse bytes: every memory operation keeps the canonical form, and reads see what was written. -/

namespace Sys2Proof.Laws
open Sys2Proof Sys2Proof.Machine

theorem wfFrom_mono {m : Bytes} {lo hi : Nat} (h : lo ≤ hi) (w : Bytes.wfFrom hi m = true) : Bytes.wfFrom lo m = true := by
  cases m with
  | nil => rfl
  | cons p r =>
    obtain ⟨a, b⟩ := p
    simp only [Bytes.wfFrom, Bool.and_eq_true, decide_eq_true_eq] at w ⊢
    exact ⟨⟨by omega, w.1.2⟩, w.2⟩

theorem wfFrom_set (m : Bytes) (lo x : Nat) (v : Byte) (h : lo ≤ x) (w : Bytes.wfFrom lo m = true) :
    Bytes.wfFrom lo (m.set x v) = true := by
  induction m generalizing lo with
  | nil =>
    simp only [Bytes.set]
    split
    · rfl
    · rename_i hv; simp [Bytes.wfFrom, h, hv]
  | cons p r ih =>
    obtain ⟨a, b⟩ := p
    simp only [Bytes.wfFrom, Bool.and_eq_true, decide_eq_true_eq] at w
    obtain ⟨⟨ha, hb⟩, hr⟩ := w
    simp only [Bytes.set]
    split
    · rename_i hx
      split
      · simp [Bytes.wfFrom, ha, hb, hr]
      · rename_i hv; simp [Bytes.wfFrom, h, hv, hb, hr]; omega
    · rename_i hx
      split
      · rename_i hax
        subst hax
        split
        · exact wfFrom_mono (by omega) hr
        · rename_i hv; simp [Bytes.wfFrom, ha, hv, hr]
      · rename_i hax
        simp only [Bytes.wfFrom, Bool.and_eq_true, decide_eq_true_eq]
        exact ⟨⟨ha, hb⟩, ih (a + 1) (by omega) hr⟩

/-- A write of one byte keeps the canonical form. -/
theorem wf_set {m : Bytes} (x : Nat) (v : Byte) (w : m.wf = true) : (m.set x v).wf = true := wfFrom_set m 0 x v (Nat.zero_le x) w

/-- A write of bytes keeps the canonical form. -/
theorem wf_put {m : Bytes} (a : Nat) (l : List Byte) (w : m.wf = true) : (m.put a l).wf = true := by
  induction l generalizing m a with
  | nil => exact w
  | cons v r ih => exact ih (a + 1) (wf_set a v w)

theorem wfFrom_filter (m : Bytes) (lo : Nat) (p : Nat × Byte → Bool) (w : Bytes.wfFrom lo m = true) :
    Bytes.wfFrom lo (m.filter p) = true := by
  induction m generalizing lo with
  | nil => rfl
  | cons q r ih =>
    obtain ⟨a, b⟩ := q
    simp only [Bytes.wfFrom, Bool.and_eq_true, decide_eq_true_eq] at w
    obtain ⟨⟨ha, hb⟩, hr⟩ := w
    rw [List.filter_cons]
    split
    · simp only [Bytes.wfFrom, Bool.and_eq_true, decide_eq_true_eq]
      exact ⟨⟨ha, hb⟩, ih (a + 1) hr⟩
    · exact ih lo (wfFrom_mono (by omega) hr)

/-- Leaving entries out keeps the canonical form. -/
theorem wf_filter {m : Bytes} (p : Nat × Byte → Bool) (w : m.wf = true) : Bytes.wf (m.filter p) = true := wfFrom_filter m 0 p w

/-- Zero-filling keeps the canonical form. -/
theorem wf_clear {m : Bytes} (a n : Nat) (w : m.wf = true) : (m.clear a n).wf = true := wf_filter _ w

theorem get_below {m : Bytes} {lo x : Nat} (w : Bytes.wfFrom lo m = true) (h : x < lo) : m.get x = 0#8 := by
  cases m with
  | nil => rfl
  | cons p r =>
    obtain ⟨a, b⟩ := p
    simp only [Bytes.wfFrom, Bool.and_eq_true, decide_eq_true_eq] at w
    simp only [Bytes.get]
    rw [if_neg (by omega), if_pos (by omega)]

theorem getFrom_set (m : Bytes) (lo x : Nat) (v : Byte) (y : Nat) (w : Bytes.wfFrom lo m = true) :
    (m.set x v).get y = if y = x then v else m.get y := by
  induction m generalizing lo with
  | nil =>
    simp only [Bytes.set]
    split
    · rename_i hv; simp [Bytes.get, hv]
    · simp only [Bytes.get]
      by_cases hy : y = x
      · simp [hy]
      · have : ¬ x = y := fun e => hy e.symm
        simp [hy, this]
  | cons p r ih =>
    obtain ⟨a, b⟩ := p
    simp only [Bytes.wfFrom, Bool.and_eq_true, decide_eq_true_eq] at w
    obtain ⟨⟨ha, hb⟩, hr⟩ := w
    have below : ∀ z, z ≤ a → Bytes.get r z = 0#8 := fun z hz => get_below hr (by omega)
    simp only [Bytes.set]
    split
    · rename_i hx
      split
      · rename_i hv
        by_cases hy : y = x
        · subst hy; simp only [Bytes.get, if_true]; rw [if_neg (by omega), if_pos (by omega), hv]
        · rw [if_neg hy]
      · by_cases hy : y = x
        · subst hy; simp [Bytes.get]
        · rw [if_neg hy]
          simp only [Bytes.get]
          rw [if_neg (fun e => hy e.symm)]
          split
          · rw [if_neg (by omega), if_pos (by omega)]
          · rfl
    · rename_i hx
      split
      · rename_i hax
        subst hax
        split
        · rename_i hv
          by_cases hy : y = a
          · subst hy; rw [if_pos rfl, below y (by omega), hv]
          · rw [if_neg hy]
            simp only [Bytes.get]
            rw [if_neg (fun e => hy e.symm)]
            split
            · exact below y (by omega)
            · rfl
        · by_cases hy : y = a
          · subst hy; simp [Bytes.get]
          · have : ¬ a = y := fun e => hy e.symm
            simp [Bytes.get, hy, this]
      · rename_i hax
        simp only [Bytes.get]
        by_cases hy : y = x
        · subst hy
          rw [if_neg hax, if_neg (by omega), if_pos rfl, ih (a + 1) hr, if_pos rfl]
        · rw [if_neg hy]
          split
          · rfl
          · split
            · rfl
            · rw [ih (a + 1) hr, if_neg hy]

/-- A read after a write of one byte. -/
theorem get_set {m : Bytes} (x : Nat) (v : Byte) (y : Nat) (w : m.wf = true) :
    (m.set x v).get y = if y = x then v else m.get y := getFrom_set m 0 x v y w

/-- A read outside the bytes written. -/
theorem get_put_outside {m : Bytes} (a : Nat) (l : List Byte) (y : Nat) (w : m.wf = true) (h : y < a ∨ a + l.length ≤ y) :
    (m.put a l).get y = m.get y := by
  induction l generalizing m a with
  | nil => rfl
  | cons v r ih =>
    simp only [List.length_cons] at h
    rw [Bytes.put, ih (a + 1) (wf_set a v w) (by omega), get_set a v y w, if_neg (by omega)]

/-- A read of a byte written. -/
theorem get_put_inside {m : Bytes} (a : Nat) (l : List Byte) (k : Nat) (w : m.wf = true) (h : k < l.length) :
    (m.put a l).get (a + k) = l[k] := by
  induction l generalizing m a k with
  | nil => simp at h
  | cons v r ih =>
    rw [Bytes.put]
    cases k with
    | zero => rw [get_put_outside (a + 1) r (a + 0) (wf_set a v w) (by omega), get_set a v _ w, if_pos (by omega)]; rfl
    | succ k =>
      have := ih (m := m.set a v) (a + 1) k (wf_set a v w) (by simpa using h)
      rw [show a + (k + 1) = a + 1 + k by omega, this]; rfl

@[simp] theorem length_range (m : Bytes) (a n : Nat) : (m.range a n).length = n := by
  induction n generalizing a with
  | zero => rfl
  | succ n ih => simp [Bytes.range, ih]

theorem range_get (m : Bytes) (a n k : Nat) (h : k < n) : (m.range a n)[k]? = some (m.get (a + k)) := by
  induction n generalizing a k with
  | zero => omega
  | succ n ih =>
    cases k with
    | zero => simp [Bytes.range]
    | succ k =>
      rw [Bytes.range, List.getElem?_cons_succ, ih (a + 1) k (by omega), show a + 1 + k = a + (k + 1) by omega]

/-- A read of exactly the bytes written gives them back. -/
theorem range_put {m : Bytes} (a : Nat) (l : List Byte) (w : m.wf = true) : (m.put a l).range a l.length = l := by
  apply List.ext_getElem?
  intro k
  by_cases h : k < l.length
  · rw [range_get _ _ _ _ h, get_put_inside a l k w h, List.getElem?_eq_getElem h]
  · rw [List.getElem?_eq_none (by simpa using h), List.getElem?_eq_none (by omega)]

end Sys2Proof.Laws
end

