-- ==== Sys2Proof/Laws/Keeps.lean ====
section
/-! SUPPORT. What every operation keeps, said once: the queue, the burnt fuses, and the canonical form of the memories. -/

namespace Sys2Proof.Laws
open Sys2Proof Sys2Proof.Machine

/-- The DRAM and the Boathouse are in canonical form. -/
def MemOk (m : Memory) : Prop := m.dram.wf = true ∧ m.bh.wf = true

/-- A shell's data SRAM and table stores are in canonical form. -/
def ShellOk (x : Shell) : Prop := x.sram.wf = true ∧ x.table.wf = true

def ShellsOk (v : Vector Shell 18) : Prop := ∀ i : Nat, ∀ h : i < 18, ShellOk v[i]

/-- From s to t the queue stays, no fuse is un-burnt, and the memories keep their canonical form. -/
structure Keeps (s t : State) : Prop where
  pending : t.pending = s.pending
  otp : ∀ k, k ∈ s.fuse.otp → k ∈ t.fuse.otp
  mem : MemOk s.mem → MemOk t.mem
  flash : s.flash.wf = true → t.flash.wf = true
  shells : ShellsOk s.shells → ShellsOk t.shells

theorem Keeps.refl (s : State) : Keeps s s := ⟨rfl, fun _ h => h, id, id, id⟩

theorem Keeps.trans {s t u : State} (a : Keeps s t) (b : Keeps t u) : Keeps s u :=
  ⟨b.pending.trans a.pending, fun k h => b.otp k (a.otp k h), fun h => b.mem (a.mem h), fun h => b.flash (a.flash h),
    fun h => b.shells (a.shells h)⟩

/-- A record update keeps what its fields keep. -/
theorem Keeps.upd {s0 s : State} (h : Keeps s0 s) {start clk power rail faults fuse keys tmr stat call host str firm flash shells tallies
    map lanes ads bundles mem eye ear sense edge shadows free pending}
    (hp : pending = s.pending) (hf : ∀ k, k ∈ s.fuse.otp → k ∈ fuse.otp) (hm : MemOk s.mem → MemOk mem)
    (hl : s.flash.wf = true → Bytes.wf flash = true) (hs : ShellsOk s.shells → ShellsOk shells) :
    Keeps s0 (State.mk start clk power rail faults fuse keys tmr stat call host str firm flash shells tallies map lanes ads bundles mem
      eye ear sense edge shadows free pending) :=
  h.trans ⟨hp, hf, hm, hl, hs⟩

/-- A record update of the memory block keeps what its two memories keep. -/
theorem memOk_mk {m : Memory} {bh dram unitKey poison carried trained noref fitted rate ranks usable ce ue ceSites patrolNext rotPace
    winRefused kslot retain part region retired retiring genBits sweeps decoder decQueue decNext} (hb : m.bh.wf = true → Bytes.wf bh = true)
    (hd : m.dram.wf = true → Bytes.wf dram = true) : MemOk m → MemOk (Memory.mk bh dram unitKey poison carried trained noref fitted rate ranks usable ce
      ue ceSites patrolNext rotPace winRefused kslot retain part region retired retiring genBits sweeps decoder decQueue decNext) :=
  fun h => ⟨hd h.1, hb h.2⟩

theorem memOk_ite {c : Prop} [Decidable c] {p : Prop} {a b : Memory} (ha : p → MemOk a) (hb : p → MemOk b) : p → MemOk (if c then a else b) := by
  split <;> assumption

/-- The same for a part of an update that a projection leaves alone. -/
theorem Keeps.of_eq {α : Type} {s0 t : State} {p : α × State} {a : α} (h : Keeps s0 p.2) (e : p = (a, t)) : Keeps s0 t := by
  rw [e] at h; exact h

theorem Keeps.of_rx {α : Type} {s0 : State} {p : α × Rx} {a : α} {r : Rx} (h : Keeps s0 p.2.s) (e : p = (a, r)) : Keeps s0 r.s := by
  rw [e] at h; exact h

/-- The same over a RUN's intermediate states. -/
theorem Keeps.foldlRx {α : Type} {s0 : State} {f : Rx → α → Rx} (hf : ∀ r x, Keeps s0 r.s → Keeps s0 (f r x).s) (l : List α) {r : Rx}
    (h : Keeps s0 r.s) : Keeps s0 (l.foldl f r).s := by
  induction l generalizing r with
  | nil => exact h
  | cons x t ih => exact ih (hf r x h)

theorem Keeps.foldlRx2 {α β : Type} {s0 : State} {f : β × Rx → α → β × Rx} (hf : ∀ p x, Keeps s0 p.2.s → Keeps s0 (f p x).2.s) (l : List α)
    {p : β × Rx} (h : Keeps s0 p.2.s) : Keeps s0 (l.foldl f p).2.s := by
  induction l generalizing p with
  | nil => exact h
  | cons x t ih => exact ih (hf p x h)

theorem Keeps.foldl {α : Type} {s0 : State} {f : State → α → State} (hf : ∀ s x, Keeps s0 s → Keeps s0 (f s x)) (l : List α) {s : State}
    (h : Keeps s0 s) : Keeps s0 (l.foldl f s) := by
  induction l generalizing s with
  | nil => exact h
  | cons x r ih => exact ih (hf s x h)

theorem Keeps.foldl2 {α β : Type} {s0 : State} {f : β × State → α → β × State} (hf : ∀ p x, Keeps s0 p.2 → Keeps s0 (f p x).2) (l : List α)
    {p : β × State} (h : Keeps s0 p.2) : Keeps s0 (l.foldl f p).2 := by
  induction l generalizing p with
  | nil => exact h
  | cons x r ih => exact ih (hf p x h)

theorem Keeps.ite {s0 a b : State} {c : Prop} [Decidable c] (ha : Keeps s0 a) (hb : Keeps s0 b) : Keeps s0 (if c then a else b) := by
  split <;> assumption

theorem Keeps.ite2 {α : Type} {s0 : State} {a b : α × State} {c : Prop} [Decidable c] (ha : Keeps s0 a.2) (hb : Keeps s0 b.2) :
    Keeps s0 (if c then a else b).2 := by
  split <;> assumption

/-- Every state that an optional answer holds. -/
def KeepsO (s0 : State) (o : Option State) : Prop := ∀ t, o = some t → Keeps s0 t
def KeepsO2 {α : Type} (s0 : State) (o : Option (α × State)) : Prop := ∀ a t, o = some (a, t) → Keeps s0 t
def KeepsE {ε : Type} (s0 : State) (o : Except ε State) : Prop := ∀ t, o = .ok t → Keeps s0 t
def KeepsE2 {ε α : Type} (s0 : State) (o : Except ε (α × State)) : Prop := ∀ a t, o = .ok (a, t) → Keeps s0 t

theorem KeepsO.of_eq {s0 t : State} {o : Option State} (h : KeepsO s0 o) (e : o = some t) : Keeps s0 t := h t e
theorem KeepsO2.of_eq {α : Type} {s0 t : State} {o : Option (α × State)} {a : α} (h : KeepsO2 s0 o) (e : o = some (a, t)) : Keeps s0 t := h a t e
theorem KeepsE.of_eq {ε : Type} {s0 t : State} {o : Except ε State} (h : KeepsE s0 o) (e : o = .ok t) : Keeps s0 t := h t e
theorem KeepsE2.of_eq {ε α : Type} {s0 t : State} {o : Except ε (α × State)} {a : α} (h : KeepsE2 s0 o) (e : o = .ok (a, t)) : Keeps s0 t := h a t e
theorem KeepsO.none {s0 : State} : KeepsO s0 none := fun _ h => by cases h
theorem KeepsO.some {s0 t : State} (h : Keeps s0 t) : KeepsO s0 (some t) := fun _ e => by cases e; exact h
theorem KeepsO2.none {α : Type} {s0 : State} : KeepsO2 (α := α) s0 none := fun _ _ h => by cases h
theorem KeepsO2.some {α : Type} {s0 t : State} {a : α} (h : Keeps s0 t) : KeepsO2 s0 (some (a, t)) := fun _ _ e => by cases e; exact h
theorem KeepsE.error {ε : Type} {s0 : State} {x : ε} : KeepsE s0 (.error x) := fun _ h => by cases h
theorem KeepsE.ok {ε : Type} {s0 t : State} (h : Keeps s0 t) : KeepsE (ε := ε) s0 (.ok t) := fun _ e => by cases e; exact h
theorem KeepsE2.error {ε α : Type} {s0 : State} {x : ε} : KeepsE2 (α := α) s0 (.error x) := fun _ _ h => by cases h
theorem KeepsE2.ok {ε α : Type} {s0 t : State} {a : α} (h : Keeps s0 t) : KeepsE2 (ε := ε) s0 (.ok (a, t)) := fun _ _ e => by cases e; exact h

theorem KeepsE.bind {ε β : Type} {s0 : State} {x : Except ε β} {k : β → Except ε State} (h : ∀ b, x = .ok b → KeepsE s0 (k b)) :
    KeepsE s0 (x >>= k) := by
  cases x with
  | error e => exact fun _ h => by cases h
  | ok b => exact h b rfl

theorem KeepsE2.bind {ε α β : Type} {s0 : State} {x : Except ε β} {k : β → Except ε (α × State)} (h : ∀ b, x = .ok b → KeepsE2 s0 (k b)) :
    KeepsE2 s0 (x >>= k) := by
  cases x with
  | error e => exact fun _ _ h => by cases h
  | ok b => exact h b rfl

/-! ## Shells -/

theorem shellsOk_upd {v : Vector Shell 18} {i : Fin 18} {f : Shell → Shell} (hf : ∀ x : Shell, ShellOk x → ShellOk (f x))
    (h : ShellsOk v) : ShellsOk (upd v i f) := by
  intro k hk
  simp only [upd, Vector.getElem_set]
  split
  · exact hf _ (h i.val i.isLt)
  · exact h k hk

theorem shellsOk_map {v : Vector Shell 18} {f : Shell → Shell} (hf : ∀ x : Shell, ShellOk x → ShellOk (f x))
    (h : ShellsOk v) : ShellsOk (v.map f) := by
  intro k hk
  simp only [Vector.getElem_map]
  exact hf _ (h k hk)

theorem shellsOk_mapIdx {v : Vector Shell 18} {f : Fin 18 → Shell → Shell} (hf : ∀ i (x : Shell), ShellOk x → ShellOk (f i x))
    (h : ShellsOk v) : ShellsOk (mapIdx v f) := by
  intro k hk
  simp only [mapIdx, Vector.getElem_ofFn]
  exact hf _ _ (h k hk)

theorem shellsOk_reset : ShellsOk (Vector.replicate 18 ({} : Shell)) := by
  intro k hk
  simp only [Vector.getElem_replicate]
  exact ⟨rfl, rfl⟩

theorem shellOk_foldl {α : Type} {f : Shell → α → Shell} (hf : ∀ x p, ShellOk x → ShellOk (f x p)) (l : List α) {x : Shell} (h : ShellOk x) :
    ShellOk (l.foldl f x) := by
  induction l generalizing x with
  | nil => exact h
  | cons p r ih => exact ih (hf x p h)

theorem setShell_keeps {s0 s : State} {i : ShellId} {f : Shell → Shell} (h : Keeps s0 s)
    (hf : ∀ x : Shell, ShellOk x → ShellOk (f x)) : Keeps s0 (s.setShell i f) :=
  h.upd rfl (fun _ h => h) id id (shellsOk_upd hf)

/-! ## The two forms of the memory invariant -/

theorem memWf_iff (s : State) : s.memWf = true ↔ MemOk s.mem ∧ s.flash.wf = true ∧ ShellsOk s.shells := by
  simp only [State.memWf, Bool.and_eq_true, Vector.all_eq_true, MemOk, ShellsOk, ShellOk]
  exact and_assoc

end Sys2Proof.Laws
end

