-- ==== Sys2Proof/Laws/KeepOps.lean ====
section
/-! SUPPORT. What the operations of Ops keep. -/

namespace Sys2Proof.Laws
open Sys2Proof Sys2Proof.Machine

theorem draw_keeps {s0 : State} {s : State} (h : Keeps s0 s) : Keeps s0 (draw s).2 := by
  unfold draw
  try dsimp only
  repeat'
    first
    | with_reducible assumption
    | with_reducible exact id
    | dsimp only
    | with_reducible refine Keeps.upd ?_ rfl (fun _ h => h) ?_ ?_ ?_

theorem State_setLane_keeps {s0 : State} {s : State} {l : LaneId} {f : Lane → Lane} (h : Keeps s0 s) : Keeps s0 (State.setLane s l f) := by
  unfold State.setLane
  try dsimp only
  repeat'
    first
    | with_reducible assumption
    | with_reducible exact id
    | with_reducible refine shellsOk_upd (fun _ h => ?_)
    | with_reducible refine Keeps.upd ?_ rfl (fun _ h => h) ?_ ?_ ?_


theorem State_setBundle_keeps {s0 : State} {s : State} {h_1 : Fin 16} {f : Bundle → Bundle} (h : Keeps s0 s) : Keeps s0 (State.setBundle s h_1 f) := by
  unfold State.setBundle
  try dsimp only
  repeat'
    first
    | with_reducible assumption
    | with_reducible exact id
    | with_reducible refine shellsOk_upd (fun _ h => ?_)
    | with_reducible refine Keeps.upd ?_ rfl (fun _ h => h) ?_ ?_ ?_

theorem State_setAd_keeps {s0 : State} {s : State} {n : Fin 8} {f : AdSlot → AdSlot} (h : Keeps s0 s) : Keeps s0 (State.setAd s n f) := by
  unfold State.setAd
  try dsimp only
  repeat'
    first
    | with_reducible assumption
    | with_reducible exact id
    | with_reducible refine shellsOk_upd (fun _ h => ?_)
    | with_reducible refine Keeps.upd ?_ rfl (fun _ h => h) ?_ ?_ ?_

theorem State_setRing_keeps {s0 : State} {s : State} {n : LaneId} {f : Ring → Ring} (h : Keeps s0 s) : Keeps s0 (State.setRing s n f) := by
  unfold State.setRing
  try dsimp only
  repeat'
    first
    | with_reducible assumption
    | with_reducible exact id
    | with_reducible refine shellsOk_upd (fun _ h => ?_)
    | with_reducible refine Keeps.upd ?_ rfl (fun _ h => h) ?_ ?_ ?_

theorem State_arbServed_keeps {s0 : State} {s : State} {lo : Nat} {n : Nat} {input : Nat} (h : Keeps s0 s) : Keeps s0 (State.arbServed s lo n input) := by
  unfold State.arbServed
  try dsimp only
  repeat'
    first
    | with_reducible assumption
    | with_reducible exact id
    | with_reducible exact wf_filter _
    | with_reducible refine Keeps.upd ?_ rfl (fun _ h => h) ?_ ?_ ?_

theorem State_watch_keeps {s0 : State} {s : State} (h : Keeps s0 s) : Keeps s0 (State.watch s) := by
  unfold State.watch
  try dsimp only
  repeat'
    first
    | with_reducible assumption
    | with_reducible exact id
    | with_reducible refine shellsOk_mapIdx (fun _ _ h => ?_)
    | with_reducible refine Keeps.upd ?_ rfl (fun _ h => h) ?_ ?_ ?_

theorem strHit_keeps {s0 : State} {hit : Break → Option (BitVec 18)} {s : State} (h : Keeps s0 s) : Keeps s0 (strHit hit s) := by
  unfold strHit
  try dsimp only
  repeat'
    first
    | with_reducible assumption
    | with_reducible refine State_watch_keeps ?_
    | with_reducible exact id
    | split
    | with_reducible refine Keeps.foldl (fun _ _ _ => ?_) _ ?_
    | with_reducible refine Keeps.upd ?_ rfl (fun _ h => h) ?_ ?_ ?_

theorem State_tallyAdd_keeps {s0 : State} {s : State} {t : Nat} {amt : Nat} (h : Keeps s0 s) : Keeps s0 (State.tallyAdd s t amt) := by
  unfold State.tallyAdd
  try dsimp only
  repeat'
    first
    | with_reducible assumption
    | with_reducible refine strHit_keeps ?_
    | with_reducible exact id
    | split
    | with_reducible refine Keeps.upd ?_ rfl (fun _ h => h) ?_ ?_ ?_

theorem State_tallySet_keeps {s0 : State} {s : State} {t : Nat} {v : W32} (h : Keeps s0 s) : Keeps s0 (State.tallySet s t v) := by
  unfold State.tallySet
  try dsimp only
  repeat'
    first
    | with_reducible assumption
    | with_reducible exact id
    | with_reducible refine Keeps.upd ?_ rfl (fun _ h => h) ?_ ?_ ?_

theorem State_tx_keeps {s0 : State} {s : State} {l : Line} (h : Keeps s0 s) : Keeps s0 (State.tx s l) := by
  unfold State.tx
  try dsimp only
  repeat'
    first
    | with_reducible assumption
    | with_reducible exact id
    | with_reducible refine Keeps.upd ?_ rfl (fun _ h => h) ?_ ?_ ?_

theorem State_txChars_keeps {s0 : State} {s : State} {l : List Byte} (h : Keeps s0 s) : Keeps s0 (State.txChars s l) := by
  unfold State.txChars
  try dsimp only
  repeat'
    first
    | with_reducible assumption
    | with_reducible exact id
    | with_reducible refine Keeps.upd ?_ rfl (fun _ h => h) ?_ ?_ ?_

theorem State_prompt_keeps {s0 : State} {s : State} (h : Keeps s0 s) : Keeps s0 (State.prompt s) := by
  unfold State.prompt
  try dsimp only
  repeat'
    first
    | with_reducible assumption
    | with_reducible refine State_txChars_keeps ?_
    | split

theorem State_callEvent_keeps {s0 : State} {s : State} {l : Line} (h : Keeps s0 s) : Keeps s0 (State.callEvent s l) := by
  unfold State.callEvent
  try dsimp only
  repeat'
    first
    | with_reducible assumption
    | with_reducible refine State_txChars_keeps ?_
    | with_reducible refine State_prompt_keeps ?_
    | with_reducible refine State_tx_keeps ?_
    | split

theorem State_ringEvent_keeps {s0 : State} {s : State} {l : Line} (h : Keeps s0 s) : Keeps s0 (State.ringEvent s l) := by
  unfold State.ringEvent
  try dsimp only
  repeat'
    first
    | with_reducible assumption
    | with_reducible exact id
    | split
    | with_reducible refine shellsOk_upd (fun _ h => ?_)
    | with_reducible refine Keeps.upd ?_ rfl (fun _ h => h) ?_ ?_ ?_

theorem State_raise_keeps {s0 : State} {s : State} {l : Line} (h : Keeps s0 s) : Keeps s0 (State.raise s l) := by
  unfold State.raise
  try dsimp only
  repeat'
    first
    | with_reducible assumption
    | with_reducible refine State_ringEvent_keeps ?_
    | with_reducible refine State_callEvent_keeps ?_
    | with_reducible exact id
    | split
    | with_reducible refine Keeps.upd ?_ rfl (fun _ h => h) ?_ ?_ ?_

theorem State_irq_keeps {s0 : State} {s : State} {k : Fin 8} (h : Keeps s0 s) : Keeps s0 (State.irq s k) := by
  unfold State.irq
  try dsimp only
  repeat'
    first
    | with_reducible assumption
    | with_reducible exact id
    | with_reducible refine Keeps.upd ?_ rfl (fun _ h => h) ?_ ?_ ?_

theorem State_reply_keeps {s0 : State} {s : State} {c : Caller} {ls : List Line} (h : Keeps s0 s) : Keeps s0 (State.reply s c ls) := by
  unfold State.reply
  try dsimp only
  repeat'
    first
    | with_reducible assumption
    | with_reducible refine State_tx_keeps ?_
    | with_reducible refine State_prompt_keeps ?_
    | with_reducible refine State_setRing_keeps ?_
    | with_reducible exact id
    | split
    | with_reducible refine Keeps.foldl (fun _ _ _ => ?_) _ ?_
    | with_reducible refine Keeps.upd ?_ rfl (fun _ h => h) ?_ ?_ ?_

theorem State_okWith_keeps {s0 : State} {s : State} {c : Caller} {ds : List (List (String × Val))} {verb : String} {fs : List (String × Val)} (h : Keeps s0 s) : Keeps s0 (State.okWith s c ds verb fs) := by
  unfold State.okWith
  try dsimp only
  repeat'
    first
    | with_reducible assumption
    | with_reducible refine State_reply_keeps ?_

theorem State_ok_keeps {s0 : State} {s : State} {c : Caller} {verb : String} {fs : List (String × Val)} (h : Keeps s0 s) : Keeps s0 (State.ok s c verb fs) := by
  unfold State.ok
  try dsimp only
  repeat'
    first
    | with_reducible assumption
    | with_reducible refine State_okWith_keeps ?_

theorem State_failWith_keeps {s0 : State} {s : State} {c : Caller} {verb : String} {e : Err} {fs : List (String × Val)} (h : Keeps s0 s) : Keeps s0 (State.failWith s c verb e fs) := by
  unfold State.failWith
  try dsimp only
  repeat'
    first
    | with_reducible assumption
    | with_reducible refine State_reply_keeps ?_

theorem State_fail_keeps {s0 : State} {s : State} {c : Caller} {verb : String} {e : Err} (h : Keeps s0 s) : Keeps s0 (State.fail s c verb e) := by
  unfold State.fail
  try dsimp only
  repeat'
    first
    | with_reducible assumption
    | with_reducible refine State_failWith_keeps ?_

theorem State_logFault_keeps {s0 : State} {s : State} {r : FaultRec} (h : Keeps s0 s) : Keeps s0 (State.logFault s r) := by
  unfold State.logFault
  try dsimp only
  repeat'
    first
    | with_reducible assumption
    | with_reducible exact id
    | with_reducible refine Keeps.upd ?_ rfl (fun _ h => h) ?_ ?_ ?_

theorem State_gate_keeps {s0 s k : State} {c : Caller} {v : String} {r : Bool} (h : Keeps s0 s) (hk : Keeps s0 k) :
    Keeps s0 (s.gate c v r k) := by
  unfold State.gate
  split
  · exact h
  · split
    · exact State_fail_keeps h
    · exact hk

end Sys2Proof.Laws
end

