-- ==== Sys2Proof/Laws/KeepTime.lean ====
section
/-! SUPPORT. What the operations of Time keep. -/

namespace Sys2Proof.Laws
open Sys2Proof Sys2Proof.Machine

theorem State_slowEdges_keeps {s0 : State} {s : State} {k : Nat} (h : Keeps s0 s) : Keeps s0 (State.slowEdges s k) := by
  unfold State.slowEdges
  try dsimp only
  repeat'
    first
    | with_reducible assumption
    | with_reducible exact id
    | split
    | with_reducible refine Keeps.upd ?_ rfl (fun _ h => h) ?_ ?_ ?_

theorem passes_keeps {s0 : State} {ticks : Nat} {edges : Nat} {left : Nat} {s : State} (h : Keeps s0 s) : Keeps s0 (passes ticks edges left s) := by
  unfold passes
  try dsimp only
  repeat'
    first
    | with_reducible assumption
    | with_reducible refine State_slowEdges_keeps ?_
    | with_reducible exact id
    | with_reducible refine Keeps.upd ?_ rfl (fun _ h => h) ?_ ?_ ?_

theorem elapse_keeps {s0 : State} {n : Nat} {s : State} (h : Keeps s0 s) : Keeps s0 (elapse n s) := by
  unfold elapse
  try dsimp only
  repeat'
    first
    | with_reducible assumption
    | with_reducible refine draw_keeps ?_
    | refine Keeps.of_eq (draw_keeps ?_) ‹_›
    | with_reducible refine passes_keeps ?_
    | split
    | dsimp only
    | refine Keeps.of_eq ?_ ‹_ = (_, _)›

theorem elapseSteady_keeps {s0 : State} {k : Nat} {s : State} (h : Keeps s0 s) : Keeps s0 (elapseSteady k s) := by
  unfold elapseSteady
  try dsimp only
  repeat'
    first
    | with_reducible assumption
    | with_reducible refine draw_keeps ?_
    | refine Keeps.of_eq (draw_keeps ?_) ‹_›
    | with_reducible refine passes_keeps ?_
    | with_reducible refine elapse_keeps ?_
    | split
    | dsimp only
    | refine Keeps.of_eq ?_ ‹_ = (_, _)›

theorem elapseTo_keeps {s0 : State} {t : Nat} {s : State} (h : Keeps s0 s) : Keeps s0 (elapseTo t s) := by
  unfold elapseTo
  try dsimp only
  repeat'
    first
    | with_reducible assumption
    | with_reducible refine elapse_keeps ?_

theorem elapseSlow_keeps {s0 : State} {k : Nat} {s : State} (h : Keeps s0 s) : Keeps s0 (elapseSlow k s) := by
  unfold elapseSlow
  try dsimp only
  repeat'
    first
    | with_reducible assumption
    | with_reducible refine draw_keeps ?_
    | refine Keeps.of_eq (draw_keeps ?_) ‹_›
    | with_reducible refine passes_keeps ?_
    | with_reducible refine elapse_keeps ?_
    | split
    | dsimp only
    | refine Keeps.of_eq ?_ ‹_ = (_, _)›

end Sys2Proof.Laws
end

