-- ==== Sys2Proof/Laws/KeepRings.lean ====
section
/-! SUPPORT. What the operations of Rings keep. -/

namespace Sys2Proof.Laws
open Sys2Proof Sys2Proof.Machine

theorem mailWrite_keeps {s0 : State} {s : State} {a : Nat} {l : List Byte} (h : Keeps s0 s) : Keeps s0 (mailWrite s a l) := by
  unfold mailWrite
  try dsimp only
  repeat'
    first
    | with_reducible assumption
    | with_reducible exact id
    | with_reducible refine memOk_mk ?_ ?_
    | with_reducible exact wf_put _ _
    | with_reducible refine Keeps.upd ?_ rfl (fun _ h => h) ?_ ?_ ?_

theorem ringError_keeps {s0 : State} {ring : LaneId} {s : State} (h : Keeps s0 s) : Keeps s0 (ringError ring s) := by
  unfold ringError
  try dsimp only
  repeat'
    first
    | with_reducible assumption
    | with_reducible refine State_irq_keeps ?_
    | with_reducible refine State_setRing_keeps ?_

theorem leaseRenew_keeps {s0 : State} {s : State} (h : Keeps s0 s) : Keeps s0 (leaseRenew s) := by
  unfold leaseRenew
  try dsimp only
  repeat'
    first
    | with_reducible assumption
    | with_reducible exact id
    | split
    | with_reducible refine Keeps.upd ?_ rfl (fun _ h => h) ?_ ?_ ?_

theorem leaseStart_keeps {s0 : State} {s : State} (h : Keeps s0 s) : Keeps s0 (leaseStart s) := by
  unfold leaseStart
  try dsimp only
  repeat'
    first
    | with_reducible assumption
    | with_reducible refine leaseRenew_keeps ?_
    | with_reducible exact id
    | split
    | with_reducible refine Keeps.upd ?_ rfl (fun _ h => h) ?_ ?_ ?_

theorem leaseCheck_keeps {s0 : State} {s : State} (h : Keeps s0 s) : Keeps s0 (leaseCheck s) := by
  unfold leaseCheck
  try dsimp only
  repeat'
    first
    | with_reducible assumption
    | with_reducible exact id
    | split
    | with_reducible refine Keeps.upd ?_ rfl (fun _ h => h) ?_ ?_ ?_

theorem doorbell_keeps {s0 : State} {ring : LaneId} {tail : W16} {s : State} (h : Keeps s0 s) : Keeps s0 (doorbell ring tail s) := by
  unfold doorbell
  try dsimp only
  repeat'
    first
    | with_reducible assumption
    | with_reducible refine State_setRing_keeps ?_
    | with_reducible refine leaseRenew_keeps ?_
    | with_reducible refine ringError_keeps ?_
    | split

theorem latchedDoorbells_keeps {s0 : State} {s : State} (h : Keeps s0 s) : Keeps s0 (latchedDoorbells s) := by
  unfold latchedDoorbells
  try dsimp only
  repeat'
    first
    | with_reducible assumption
    | with_reducible refine doorbell_keeps ?_
    | with_reducible refine State_setRing_keeps ?_
    | split
    | with_reducible refine Keeps.foldl (fun _ _ _ => ?_) _ ?_

theorem putSlots_keeps {s0 : State} {slot : W16 → Nat} {tail : W16} {s : State} {a : List (List Byte)} (h : Keeps s0 s) : Keeps s0 (putSlots slot tail s a) := by
  induction a generalizing slot tail s with
  | nil => exact h
  | cons a l ih =>
    unfold putSlots
    try dsimp only
    repeat'
      first
      | with_reducible assumption
      | with_reducible refine ih ?_
      | with_reducible refine mailWrite_keeps ?_
      | split

theorem completionWrite_keeps {s0 : State} {ring : LaneId} {s : State} (h : Keeps s0 s) : Keeps s0 (completionWrite ring s) := by
  unfold completionWrite
  try dsimp only
  repeat'
    first
    | with_reducible assumption
    | with_reducible refine putSlots_keeps ?_
    | with_reducible refine State_setLane_keeps ?_
    | with_reducible refine State_irq_keeps ?_
    | with_reducible refine State_setRing_keeps ?_
    | split

theorem eventWrite_keeps {s0 : State} {k : Fin 2} {s : State} (h : Keeps s0 s) : Keeps s0 (eventWrite k s) := by
  unfold eventWrite
  try dsimp only
  repeat'
    first
    | with_reducible assumption
    | with_reducible refine putSlots_keeps ?_
    | with_reducible refine State_irq_keeps ?_
    | with_reducible exact id
    | split
    | with_reducible refine shellsOk_upd (fun _ h => ?_)
    | with_reducible refine Keeps.upd ?_ rfl (fun _ h => h) ?_ ?_ ?_

theorem evHeadWrite_keeps {s0 : State} {k : Fin 2} {head : W16} {s : State} (h : Keeps s0 s) : Keeps s0 (evHeadWrite k head s) := by
  unfold evHeadWrite
  try dsimp only
  repeat'
    first
    | with_reducible assumption
    | with_reducible refine State_irq_keeps ?_
    | with_reducible exact id
    | split
    | with_reducible refine shellsOk_upd (fun _ h => ?_)
    | with_reducible refine Keeps.upd ?_ rfl (fun _ h => h) ?_ ?_ ?_

theorem State_ringZero_keeps {s0 : State} {s : State} {ring : LaneId} (h : Keeps s0 s) : Keeps s0 (State.ringZero s ring) := by
  unfold State.ringZero
  try dsimp only
  repeat'
    first
    | with_reducible assumption
    | with_reducible refine State_setRing_keeps ?_
    | with_reducible exact id
    | with_reducible exact wf_filter _
    | with_reducible refine Keeps.upd ?_ rfl (fun _ h => h) ?_ ?_ ?_

theorem ringReset_keeps {s0 : State} {ring : LaneId} {s : State} (h : Keeps s0 s) : Keeps s0 (ringReset ring s) := by
  unfold ringReset
  try dsimp only
  repeat'
    first
    | with_reducible assumption
    | with_reducible refine State_ringZero_keeps ?_
    | split

end Sys2Proof.Laws
end

