-- ==== Sys2Proof/Laws/KeepHeats.lean ====
section
/-! SUPPORT. What the operations of Heats keep. -/

namespace Sys2Proof.Laws
open Sys2Proof Sys2Proof.Machine

theorem State_setRun_keeps {s0 : State} {s : State} {l : LaneId} {q : W32} {f : HeatRun → HeatRun} (h : Keeps s0 s) : Keeps s0 (State.setRun s l q f) := by
  unfold State.setRun
  try dsimp only
  repeat'
    first
    | with_reducible assumption
    | with_reducible refine State_setLane_keeps ?_

theorem relateRuns_keeps {s0 : State} {s : State} (h : Keeps s0 s) : Keeps s0 (relateRuns s) := by
  unfold relateRuns
  try dsimp only
  repeat'
    first
    | with_reducible assumption
    | with_reducible exact id
    | with_reducible refine shellsOk_mapIdx (fun _ _ h => ?_)
    | with_reducible refine Keeps.upd ?_ rfl (fun _ h => h) ?_ ?_ ?_

theorem State_bookLane_keeps {s0 : State} {s : State} {l : LaneId} {f : Lane → Lane} (h : Keeps s0 s) : Keeps s0 (State.bookLane s l f) := by
  unfold State.bookLane
  try dsimp only
  repeat'
    first
    | with_reducible assumption
    | with_reducible refine State_setLane_keeps ?_

theorem State_zeroTallies_keeps {s0 : State} {s : State} {l : LaneId} {a : AcceptRec} {e : Entry} (h : Keeps s0 s) : Keeps s0 (State.zeroTallies s l a e) := by
  unfold State.zeroTallies
  try dsimp only
  repeat'
    first
    | with_reducible assumption
    | with_reducible refine State_tallySet_keeps ?_
    | split
    | with_reducible refine Keeps.foldl (fun _ _ _ => ?_) _ ?_

theorem Shell_stop_keeps {l : LaneId} {x : Shell} (h : ShellOk x) : ShellOk (Shell.stop l x) := by
  unfold Shell.stop
  try dsimp only
  repeat'
    first
    | with_reducible assumption
    | with_reducible exact id
    | exact ⟨h.1, h.2⟩
    | exact ⟨rfl, rfl⟩

theorem State_stopShells_keeps {s0 : State} {s : State} {l : LaneId} {q : W32} (h : Keeps s0 s) : Keeps s0 (State.stopShells s l q) := by
  unfold State.stopShells
  try dsimp only
  repeat'
    first
    | with_reducible assumption
    | with_reducible exact Shell_stop_keeps ‹_›
    | with_reducible refine Shell_stop_keeps ?_
    | with_reducible exact id
    | with_reducible refine memOk_mk ?_ ?_
    | split
    | with_reducible refine shellsOk_map (fun _ h => ?_)
    | with_reducible exact wf_filter _
    | with_reducible refine Keeps.upd ?_ rfl (fun _ h => h) ?_ ?_ ?_

theorem restartOne_keeps {s0 : State} {l : LaneId} {q : W32} {s : State} (h : Keeps s0 s) : Keeps s0 (restartOne l q s) := by
  unfold restartOne
  try dsimp only
  repeat'
    first
    | with_reducible assumption
    | with_reducible refine State_setRun_keeps ?_
    | with_reducible refine State_stopShells_keeps ?_
    | with_reducible refine State_zeroTallies_keeps ?_
    | split

theorem restartHeat_keeps {s0 : State} {l : LaneId} {q : W32} {s : State} (h : Keeps s0 s) : Keeps s0 (restartHeat l q s) := by
  unfold restartHeat
  try dsimp only
  repeat'
    first
    | with_reducible assumption
    | with_reducible refine restartOne_keeps ?_
    | split
    | with_reducible refine Keeps.foldl (fun _ _ _ => ?_) _ ?_

theorem restartShell_keeps {s0 : State} {i : ShellId} {s : State} (h : Keeps s0 s) : Keeps s0 (restartShell i s) := by
  unfold restartShell
  try dsimp only
  repeat'
    first
    | with_reducible assumption
    | with_reducible refine restartHeat_keeps ?_
    | split

theorem restartWhere_keeps {s0 : State} {p : LaneId → HeatRun → Bool} {s : State} (h : Keeps s0 s) : Keeps s0 (restartWhere p s) := by
  unfold restartWhere
  try dsimp only
  repeat'
    first
    | with_reducible assumption
    | with_reducible refine restartHeat_keeps ?_
    | with_reducible refine Keeps.foldl (fun _ _ _ => ?_) _ ?_

theorem deliver_keeps {s0 : State} {l : LaneId} {q : W32} {s : State} (h : Keeps s0 s) : Keeps s0 (deliver l q s) := by
  unfold deliver
  try dsimp only
  repeat'
    first
    | with_reducible assumption
    | with_reducible refine State_setLane_keeps ?_
    | with_reducible refine State_raise_keeps ?_
    | with_reducible refine State_setRing_keeps ?_
    | split

theorem redeliver_keeps {s0 : State} {l : LaneId} {s : State} (h : Keeps s0 s) : Keeps s0 (redeliver l s) := by
  unfold redeliver
  try dsimp only
  repeat'
    first
    | with_reducible assumption
    | with_reducible refine deliver_keeps ?_
    | with_reducible refine Keeps.foldl (fun _ _ _ => ?_) _ ?_

theorem State_releaseTo_keeps {s0 : State} {s : State} {l : LaneId} {q : W32} (h : Keeps s0 s) : Keeps s0 (State.releaseTo s l q) := by
  unfold State.releaseTo
  try dsimp only
  repeat'
    first
    | with_reducible assumption
    | with_reducible refine State_bookLane_keeps ?_

theorem cqHeadWrite_keeps {s0 : State} {ring : LaneId} {head : W16} {s : State} (h : Keeps s0 s) : Keeps s0 (cqHeadWrite ring head s) := by
  unfold cqHeadWrite
  try dsimp only
  repeat'
    first
    | with_reducible assumption
    | with_reducible refine State_setRing_keeps ?_
    | with_reducible refine State_releaseTo_keeps ?_
    | with_reducible refine ringError_keeps ?_
    | split
    | with_reducible refine Keeps.foldl (fun _ _ _ => ?_) _ ?_

theorem hostTallies_keeps {s0 : State} {l : LaneId} {amt : Nat} {s : State} (h : Keeps s0 s) : Keeps s0 (hostTallies l amt s) := by
  unfold hostTallies
  try dsimp only
  repeat'
    first
    | with_reducible assumption
    | with_reducible refine State_tallyAdd_keeps ?_
    | split
    | with_reducible refine Keeps.foldl (fun _ _ _ => ?_) _ ?_

theorem taddRefused_keeps {s0 : State} {ring : LaneId} {s : State} (h : Keeps s0 s) : Keeps s0 (taddRefused ring s) := by
  unfold taddRefused
  try dsimp only
  repeat'
    first
    | with_reducible assumption
    | with_reducible refine State_irq_keeps ?_
    | with_reducible refine State_setRing_keeps ?_

theorem tadd_keeps {s0 : State} {ring : LaneId} {amt : W16} {s : State} (h : Keeps s0 s) : Keeps s0 (tadd ring amt s) := by
  unfold tadd
  try dsimp only
  repeat'
    first
    | with_reducible assumption
    | with_reducible refine hostTallies_keeps ?_
    | with_reducible refine State_bookLane_keeps ?_
    | with_reducible refine taddRefused_keeps ?_
    | split

theorem ownerLeft_keeps {s0 : State} {l : LaneId} {s : State} (h : Keeps s0 s) : Keeps s0 (ownerLeft l s) := by
  unfold ownerLeft
  try dsimp only
  repeat'
    first
    | with_reducible assumption
    | with_reducible exact id
    | split
    | with_reducible refine shellsOk_upd (fun _ h => ?_)
    | with_reducible refine shellsOk_map (fun _ h => ?_)
    | with_reducible refine Keeps.upd ?_ rfl (fun _ h => h) ?_ ?_ ?_

theorem lapse_keeps {s0 : State} {s : State} (h : Keeps s0 s) : Keeps s0 (lapse s) := by
  unfold lapse
  try dsimp only
  repeat'
    first
    | with_reducible assumption
    | with_reducible refine State_raise_keeps ?_
    | with_reducible refine State_setRing_keeps ?_
    | with_reducible refine ownerLeft_keeps ?_
    | with_reducible refine State_irq_keeps ?_
    | with_reducible refine State_logFault_keeps ?_
    | with_reducible exact id
    | with_reducible refine Keeps.foldl (fun _ _ _ => ?_) _ ?_
    | with_reducible refine shellsOk_map (fun _ h => ?_)
    | with_reducible exact wf_filter _
    | with_reducible refine Keeps.upd ?_ rfl (fun _ h => h) ?_ ?_ ?_

theorem leaseLapse_keeps {s0 : State} {s : State} (h : Keeps s0 s) : Keeps s0 (leaseLapse s) := by
  unfold leaseLapse
  try dsimp only
  repeat'
    first
    | with_reducible assumption
    | with_reducible refine lapse_keeps ?_
    | with_reducible refine elapseSlow_keeps ?_
    | split

end Sys2Proof.Laws
end

