-- ==== Sys2Proof/Laws/KeepPower.lean ====
section
/-! SUPPORT. What the operations of Power keep. -/

namespace Sys2Proof.Laws
open Sys2Proof Sys2Proof.Machine

theorem wake_keeps {s0 : State} {d : Dom} {s : State} (h : Keeps s0 s) : Keeps s0 (wake d s) := by
  unfold wake
  try dsimp only
  repeat'
    first
    | with_reducible assumption
    | with_reducible exact id
    | with_reducible refine Keeps.upd ?_ rfl (fun _ h => h) ?_ ?_ ?_

theorem touch_keeps {s0 : State} {d : Dom} {s : State} (h : Keeps s0 s) : Keeps s0 (touch d s) := by
  unfold touch
  try dsimp only
  repeat'
    first
    | with_reducible assumption
    | with_reducible exact id
    | with_reducible refine Keeps.upd ?_ rfl (fun _ h => h) ?_ ?_ ?_

theorem domainFirstAccess_keeps {s0 : State} {d : Dom} {s : State} (h : Keeps s0 s) : Keeps s0 (domainFirstAccess d s) := by
  unfold domainFirstAccess
  try dsimp only
  repeat'
    first
    | with_reducible assumption
    | with_reducible refine wake_keeps ?_
    | with_reducible exact id
    | split
    | with_reducible refine Keeps.upd ?_ rfl (fun _ h => h) ?_ ?_ ?_

theorem rotationResume_keeps {s0 : State} {s : State} (h : Keeps s0 s) : Keeps s0 (rotationResume s) := by
  unfold rotationResume
  try dsimp only
  repeat'
    first
    | with_reducible assumption
    | with_reducible exact id
    | with_reducible refine memOk_mk ?_ ?_
    | split
    | with_reducible refine Keeps.upd ?_ rfl (fun _ h => h) ?_ ?_ ?_

theorem domainReady_keeps {s0 : State} {d : Dom} {s : State} (h : Keeps s0 s) : Keeps s0 (domainReady d s) := by
  unfold domainReady
  try dsimp only
  repeat'
    first
    | with_reducible assumption
    | with_reducible refine rotationResume_keeps ?_
    | with_reducible exact id
    | split
    | with_reducible refine Keeps.upd ?_ rfl (fun _ h => h) ?_ ?_ ?_

end Sys2Proof.Laws
end

