-- ==== Sys2Proof/Laws/KeepSecrecy.lean ====
section
/-! SUPPORT. What the operations of Secrecy keep. -/

namespace Sys2Proof.Laws
open Sys2Proof Sys2Proof.Machine

theorem strEnd_keeps {s0 : State} {s : State} (h : Keeps s0 s) : Keeps s0 (strEnd s) := by
  unfold strEnd
  try dsimp only
  repeat'
    first
    | with_reducible assumption
    | with_reducible refine State_watch_keeps ?_
    | with_reducible exact id
    | split
    | with_reducible refine Keeps.upd ?_ rfl (fun _ h => h) ?_ ?_ ?_

theorem strFree_keeps {s0 : State} {m : BitVec 18} {s : State} (h : Keeps s0 s) : Keeps s0 (strFree m s) := by
  unfold strFree
  try dsimp only
  repeat'
    first
    | with_reducible assumption
    | with_reducible refine State_watch_keeps ?_
    | with_reducible exact id
    | with_reducible refine Keeps.upd ?_ rfl (fun _ h => h) ?_ ?_ ?_

theorem strFence_keeps {s0 : State} {i : ShellId} {s : State} (h : Keeps s0 s) : Keeps s0 (strFence i s) := by
  unfold strFence
  try dsimp only
  repeat'
    first
    | with_reducible assumption
    | with_reducible refine strFree_keeps ?_
    | with_reducible exact id
    | split
    | with_reducible refine shellsOk_map (fun _ h => ?_)
    | with_reducible refine Keeps.upd ?_ rfl (fun _ h => h) ?_ ?_ ?_

theorem closeUp_keeps {s0 : State} {s : State} (h : Keeps s0 s) : Keeps s0 (closeUp s) := by
  unfold closeUp
  try dsimp only
  repeat'
    first
    | with_reducible assumption
    | with_reducible refine strEnd_keeps ?_
    | with_reducible exact id
    | with_reducible refine Keeps.upd ?_ rfl (fun _ h => h) ?_ ?_ ?_

theorem State_entering_keeps {s0 s : State} {f : State → State} (h : Keeps s0 s) (hf : ∀ s, Keeps s0 s → Keeps s0 (f s)) :
    Keeps s0 (s.entering f) := by
  unfold State.entering
  dsimp only
  split
  · exact closeUp_keeps (hf s h)
  · exact hf s h

theorem keyopStart_keeps {s0 : State} {s : State} (h : Keeps s0 s) : Keeps s0 (keyopStart s) := by
  unfold keyopStart
  try dsimp only
  repeat'
    first
    | with_reducible assumption
    | with_reducible refine State_entering_keeps ?_ (fun _ _ => ?_)
    | with_reducible exact id
    | with_reducible refine Keeps.upd ?_ rfl (fun _ h => h) ?_ ?_ ?_

theorem keyopEnd_keeps {s0 : State} {s : State} (h : Keeps s0 s) : Keeps s0 (keyopEnd s) := by
  unfold keyopEnd
  try dsimp only
  repeat'
    first
    | with_reducible assumption
    | with_reducible exact id
    | with_reducible refine Keeps.upd ?_ rfl (fun _ h => h) ?_ ?_ ?_

theorem repairStart_keeps {s0 : State} {s : State} (h : Keeps s0 s) : Keeps s0 (repairStart s) := by
  unfold repairStart
  try dsimp only
  repeat'
    first
    | with_reducible assumption
    | with_reducible refine State_entering_keeps ?_ (fun _ _ => ?_)
    | with_reducible exact id
    | with_reducible refine Keeps.upd ?_ rfl (fun _ h => h) ?_ ?_ ?_

theorem repairEnd_keeps {s0 : State} {s : State} (h : Keeps s0 s) : Keeps s0 (repairEnd s) := by
  unfold repairEnd
  try dsimp only
  repeat'
    first
    | with_reducible assumption
    | with_reducible exact id
    | with_reducible refine Keeps.upd ?_ rfl (fun _ h => h) ?_ ?_ ?_

theorem State_answered_keeps {s0 : State} {s : State} {p : Path} {v : W32} (h : Keeps s0 s) : Keeps s0 (State.answered s p v) := by
  unfold State.answered
  try dsimp only
  repeat'
    first
    | with_reducible assumption
    | with_reducible exact id
    | split
    | with_reducible refine Keeps.upd ?_ rfl (fun _ h => h) ?_ ?_ ?_

end Sys2Proof.Laws
end

