-- ==== Sys2Proof/Laws/KeepCourse.lean ====
section
/-! SUPPORT. What the operations of Course keep. -/

namespace Sys2Proof.Laws
open Sys2Proof Sys2Proof.Machine

theorem freeBytes_keeps {s0 : State} {n : Nat} {s : State} (h : Keeps s0 s) : Keeps s0 (freeBytes n s).2 := by
  unfold freeBytes
  try dsimp only
  repeat'
    first
    | with_reducible assumption
    | with_reducible exact id
    | dsimp only
    | with_reducible refine Keeps.upd ?_ rfl (fun _ h => h) ?_ ?_ ?_

theorem State_countDram_keeps {s0 : State} {s : State} {l : Option LaneId} {write : Bool} (h : Keeps s0 s) : Keeps s0 (State.countDram s l write) := by
  unfold State.countDram
  try dsimp only
  repeat'
    first
    | with_reducible assumption
    | with_reducible exact id
    | split
    | with_reducible refine shellsOk_upd (fun _ h => ?_)
    | with_reducible refine Keeps.upd ?_ rfl (fun _ h => h) ?_ ?_ ?_

theorem State_countBh_keeps {s0 : State} {s : State} {l : Option LaneId} (h : Keeps s0 s) : Keeps s0 (State.countBh s l) := by
  unfold State.countBh
  try dsimp only
  repeat'
    first
    | with_reducible assumption
    | with_reducible exact id
    | split
    | with_reducible refine shellsOk_upd (fun _ h => ?_)
    | with_reducible refine Keeps.upd ?_ rfl (fun _ h => h) ?_ ?_ ?_

theorem dramRead_keeps {s0 : State} {l : Option LaneId} {unit : Nat} {s : State} (h : Keeps s0 s) : Keeps s0 (dramRead l unit s).2 := by
  unfold dramRead
  try dsimp only
  repeat'
    first
    | with_reducible assumption
    | with_reducible refine State_countDram_keeps ?_
    | with_reducible refine touch_keeps ?_
    | with_reducible refine freeBytes_keeps ?_
    | refine Keeps.of_eq (freeBytes_keeps ?_) ‹_›
    | with_reducible exact id
    | with_reducible refine memOk_mk ?_ ?_
    | split
    | refine Keeps.of_eq ?_ ‹_ = (_, _)›
    | dsimp only
    | with_reducible refine Keeps.upd ?_ rfl (fun _ h => h) ?_ ?_ ?_

theorem State_dramStore_keeps {s0 : State} {s : State} {unit : Nat} {key : Nat} {b : List Byte} (h : Keeps s0 s) : Keeps s0 (State.dramStore s unit key b) := by
  unfold State.dramStore
  try dsimp only
  repeat'
    first
    | with_reducible assumption
    | with_reducible exact id
    | with_reducible refine memOk_mk ?_ ?_
    | with_reducible exact wf_put _ _
    | with_reducible exact wf_filter _
    | with_reducible refine Keeps.upd ?_ rfl (fun _ h => h) ?_ ?_ ?_

theorem dramWrite_keeps {s0 : State} {l : Option LaneId} {unit : Nat} {b : List Byte} {s : State} (h : Keeps s0 s) : Keeps s0 (dramWrite l unit b s).2 := by
  unfold dramWrite
  try dsimp only
  repeat'
    first
    | with_reducible assumption
    | with_reducible refine State_countDram_keeps ?_
    | with_reducible refine touch_keeps ?_
    | with_reducible refine State_dramStore_keeps ?_
    | dsimp only
    | split

theorem bhRead_keeps {s0 : State} {l : Option LaneId} {off : Nat} {s : State} (h : Keeps s0 s) : Keeps s0 (bhRead l off s).2 := by
  unfold bhRead
  try dsimp only
  repeat'
    first
    | with_reducible assumption
    | with_reducible refine State_countBh_keeps ?_
    | with_reducible refine touch_keeps ?_
    | dsimp only
    | split

theorem bhWrite_keeps {s0 : State} {l : Option LaneId} {off : Nat} {v : List Byte} {s : State} (h : Keeps s0 s) : Keeps s0 (bhWrite l off v s).2 := by
  unfold bhWrite
  try dsimp only
  repeat'
    first
    | with_reducible assumption
    | with_reducible refine State_countBh_keeps ?_
    | with_reducible refine touch_keeps ?_
    | with_reducible exact id
    | with_reducible refine memOk_mk ?_ ?_
    | split
    | with_reducible exact wf_put _ _
    | with_reducible exact wf_filter _
    | dsimp only
    | with_reducible refine Keeps.upd ?_ rfl (fun _ h => h) ?_ ?_ ?_

theorem dramUnits_keeps {s0 : State} {l : Option LaneId} {unit : Nat} {a : Nat} {a_3 : State} (h : Keeps s0 a_3) : Keeps s0 (dramUnits l unit a a_3).2 := by
  induction a generalizing l unit a_3 with
  | zero => exact h
  | succ n ih =>
    unfold dramUnits
    try dsimp only
    repeat'
      first
      | with_reducible assumption
      | with_reducible refine ih ?_
      | refine Keeps.of_eq (ih ?_) ‹_›
      | with_reducible refine dramRead_keeps ?_
      | refine Keeps.of_eq (dramRead_keeps ?_) ‹_›
      | split
      | dsimp only
      | refine Keeps.of_eq ?_ ‹_ = (_, _)›

theorem viewRead_keeps {s0 : State} {l : Option LaneId} {head : Nat} {x : Nat} {s : State} (h : Keeps s0 s) : Keeps s0 (viewRead l head x s).2 := by
  unfold viewRead
  try dsimp only
  repeat'
    first
    | with_reducible assumption
    | with_reducible refine dramRead_keeps ?_
    | refine Keeps.of_eq (dramRead_keeps ?_) ‹_›
    | with_reducible refine dramUnits_keeps ?_
    | refine Keeps.of_eq (dramUnits_keeps ?_) ‹_›
    | with_reducible exact id
    | split
    | refine Keeps.of_eq ?_ ‹_ = (_, _)›
    | dsimp only
    | with_reducible refine Keeps.upd ?_ rfl (fun _ h => h) ?_ ?_ ?_

theorem courseRead_keeps {s0 : State} {l : Option LaneId} {map : Vector (Option ShellId) 16} {c : CourseAt} {s : State} (h : Keeps s0 s) : Keeps s0 (courseRead l map c s).2 := by
  unfold courseRead
  try dsimp only
  repeat'
    first
    | with_reducible assumption
    | with_reducible refine dramRead_keeps ?_
    | refine Keeps.of_eq (dramRead_keeps ?_) ‹_›
    | with_reducible refine bhRead_keeps ?_
    | refine Keeps.of_eq (bhRead_keeps ?_) ‹_›
    | with_reducible refine touch_keeps ?_
    | with_reducible refine viewRead_keeps ?_
    | refine Keeps.of_eq (viewRead_keeps ?_) ‹_›
    | split
    | dsimp only
    | refine Keeps.of_eq ?_ ‹_ = (_, _)›

theorem Shell_store_keeps {x : Shell} {off : Nat} {b : List Byte} (h : ShellOk x) : ShellOk (Shell.store x off b) := by
  unfold Shell.store
  try dsimp only
  repeat'
    first
    | with_reducible assumption
    | with_reducible exact id
    | exact ⟨h.1, h.2⟩
    | exact ⟨wf_put _ _ h.1, h.2⟩
    | exact ⟨h.1, wf_put _ _ h.2⟩
    | exact ⟨rfl, rfl⟩

theorem courseWrite_keeps {s0 : State} {l : Option LaneId} {map : Vector (Option ShellId) 16} {c : CourseAt} {b : List Byte} {s : State} (h : Keeps s0 s) : Keeps s0 (courseWrite l map c b s).2 := by
  unfold courseWrite
  try dsimp only
  repeat'
    first
    | with_reducible assumption
    | with_reducible refine setShell_keeps ?_ (fun _ h => ?_)
    | with_reducible refine dramWrite_keeps ?_
    | refine Keeps.of_eq (dramWrite_keeps ?_) ‹_›
    | with_reducible refine bhWrite_keeps ?_
    | refine Keeps.of_eq (bhWrite_keeps ?_) ‹_›
    | with_reducible refine touch_keeps ?_
    | with_reducible exact Shell_store_keeps ‹_›
    | with_reducible refine Shell_store_keeps ?_
    | with_reducible exact id
    | split
    | dsimp only
    | refine Keeps.of_eq ?_ ‹_ = (_, _)›

theorem portHit_keeps {s0 : State} {write : Bool} {a : Nat} {s : State} (h : Keeps s0 s) : Keeps s0 (portHit write a s) := by
  unfold portHit
  try dsimp only
  repeat'
    first
    | with_reducible assumption
    | with_reducible refine strHit_keeps ?_
    | split

theorem heatRead_keeps {s0 : State} {l : LaneId} {q : W32} {a : Nat} {s : State} (h : Keeps s0 s) : Keeps s0 (heatRead l q a s).2 := by
  unfold heatRead
  try dsimp only
  repeat'
    first
    | with_reducible assumption
    | with_reducible refine portHit_keeps ?_
    | with_reducible refine courseRead_keeps ?_
    | refine Keeps.of_eq (courseRead_keeps ?_) ‹_›
    | split
    | dsimp only
    | refine Keeps.of_eq ?_ ‹_ = (_, _)›

theorem heatWrite_keeps {s0 : State} {l : LaneId} {q : W32} {a : Nat} {b : List Byte} {s : State} (h : Keeps s0 s) : Keeps s0 (heatWrite l q a b s).2 := by
  unfold heatWrite
  try dsimp only
  repeat'
    first
    | with_reducible assumption
    | with_reducible refine portHit_keeps ?_
    | with_reducible refine courseWrite_keeps ?_
    | refine Keeps.of_eq (courseWrite_keeps ?_) ‹_›
    | split
    | dsimp only
    | refine Keeps.of_eq ?_ ‹_ = (_, _)›

end Sys2Proof.Laws
end

