-- ==== Sys2Proof/Laws/KeepMemory.lean ====
section
/-! SUPPORT. What the operations of Memory keep. -/

namespace Sys2Proof.Laws
open Sys2Proof Sys2Proof.Machine

theorem dramCorrected_keeps {s0 : State} {unit : Nat} {s : State} (h : Keeps s0 s) : Keeps s0 (dramCorrected unit s) := by
  unfold dramCorrected
  try dsimp only
  repeat'
    first
    | with_reducible assumption
    | with_reducible exact id
    | with_reducible refine memOk_mk ?_ ?_
    | split
    | with_reducible refine Keeps.upd ?_ rfl (fun _ h => h) ?_ ?_ ?_

theorem dramPoison_keeps {s0 : State} {unit : Nat} {s : State} (h : Keeps s0 s) : Keeps s0 (dramPoison unit s) := by
  unfold dramPoison
  try dsimp only
  repeat'
    first
    | with_reducible assumption
    | with_reducible exact id
    | with_reducible refine memOk_mk ?_ ?_
    | split
    | with_reducible refine Keeps.upd ?_ rfl (fun _ h => h) ?_ ?_ ?_

theorem dramCheckPoison_keeps {s0 : State} {unit : Nat} {s : State} (h : Keeps s0 s) : Keeps s0 (dramCheckPoison unit s) := by
  unfold dramCheckPoison
  try dsimp only
  repeat'
    first
    | with_reducible assumption
    | with_reducible refine dramPoison_keeps ?_
    | with_reducible refine Keeps.foldl (fun _ _ _ => ?_) _ ?_

theorem dramUncorrectable_keeps {s0 : State} {unit : Nat} {s : State} (h : Keeps s0 s) : Keeps s0 (dramUncorrectable unit s) := by
  unfold dramUncorrectable
  try dsimp only
  repeat'
    first
    | with_reducible assumption
    | with_reducible refine dramPoison_keeps ?_
    | with_reducible exact id
    | with_reducible refine memOk_mk ?_ ?_
    | with_reducible refine Keeps.upd ?_ rfl (fun _ h => h) ?_ ?_ ?_

theorem dramAccess_keeps {s0 : State} {heat : Option (LaneId × W32)} {unit : BitVec 28} {wr : Option (List Byte)} {e : DramErr} {s : State} (h : Keeps s0 s) : Keeps s0 (dramAccess heat unit wr e s) := by
  unfold dramAccess
  try dsimp only
  repeat'
    first
    | with_reducible assumption
    | with_reducible refine dramRead_keeps ?_
    | refine Keeps.of_eq (dramRead_keeps ?_) ‹_›
    | with_reducible refine dramCorrected_keeps ?_
    | with_reducible refine dramPoison_keeps ?_
    | with_reducible refine dramCheckPoison_keeps ?_
    | with_reducible refine restartHeat_keeps ?_
    | with_reducible refine dramWrite_keeps ?_
    | refine Keeps.of_eq (dramWrite_keeps ?_) ‹_›
    | with_reducible refine State_setRun_keeps ?_
    | split
    | dsimp only
    | refine Keeps.of_eq ?_ ‹_ = (_, _)›

theorem patrolRead_keeps {s0 : State} {e : DramErr} {s : State} (h : Keeps s0 s) : Keeps s0 (patrolRead e s) := by
  unfold patrolRead
  try dsimp only
  repeat'
    first
    | with_reducible assumption
    | with_reducible refine dramCorrected_keeps ?_
    | with_reducible refine dramUncorrectable_keeps ?_
    | with_reducible refine dramCheckPoison_keeps ?_
    | with_reducible exact id
    | with_reducible refine memOk_mk ?_ ?_
    | split
    | with_reducible refine Keeps.upd ?_ rfl (fun _ h => h) ?_ ?_ ?_

theorem pageRetire_keeps {s0 : State} {page : Nat} {s : State} (h : Keeps s0 s) : Keeps s0 (pageRetire page s) := by
  unfold pageRetire
  try dsimp only
  repeat'
    first
    | with_reducible assumption
    | with_reducible refine State_raise_keeps ?_
    | with_reducible exact id
    | with_reducible refine memOk_mk ?_ ?_
    | split
    | with_reducible refine Keeps.upd ?_ rfl (fun _ h => h) ?_ ?_ ?_

theorem pageRetireDone_keeps {s0 : State} {page : Nat} {s : State} (h : Keeps s0 s) : Keeps s0 (pageRetireDone page s) := by
  unfold pageRetireDone
  try dsimp only
  repeat'
    first
    | with_reducible assumption
    | with_reducible refine State_logFault_keeps ?_
    | with_reducible exact id
    | with_reducible refine memOk_mk ?_ ?_
    | split
    | with_reducible exact wf_filter _
    | with_reducible refine Keeps.upd ?_ rfl (fun _ h => h) ?_ ?_ ?_

theorem drawKey_keeps {s0 : State} {k : Fin 8} {use : KUse} {s : State} (h : Keeps s0 s) : Keeps s0 (drawKey k use s) := by
  unfold drawKey
  try dsimp only
  repeat'
    first
    | with_reducible assumption
    | with_reducible exact id
    | with_reducible refine memOk_mk ?_ ?_
    | with_reducible refine Keeps.upd ?_ rfl (fun _ h => h) ?_ ?_ ?_

theorem zeroSlot_keeps {s0 : State} {k : Fin 8} {s : State} (h : Keeps s0 s) : Keeps s0 (zeroSlot k s) := by
  unfold zeroSlot
  try dsimp only
  repeat'
    first
    | with_reducible assumption
    | with_reducible exact id
    | with_reducible refine memOk_mk ?_ ?_
    | with_reducible refine Keeps.upd ?_ rfl (fun _ h => h) ?_ ?_ ?_

theorem needLaneSlot_keeps {s0 : State} {l : LaneId} {s : State} (h : Keeps s0 s) : KeepsO2 s0 (needLaneSlot l s) := by
  unfold needLaneSlot
  try dsimp only
  repeat'
    first
    | with_reducible assumption
    | with_reducible refine drawKey_keeps ?_
    | split
    | with_reducible exact KeepsO2.none
    | with_reducible refine KeepsO2.some ?_

theorem needPlanSlot_keeps {s0 : State} {s : State} (h : Keeps s0 s) : KeepsO2 s0 (needPlanSlot s) := by
  unfold needPlanSlot
  try dsimp only
  repeat'
    first
    | with_reducible assumption
    | with_reducible refine drawKey_keeps ?_
    | split
    | with_reducible exact KeepsO2.none
    | with_reducible refine KeepsO2.some ?_

theorem State_setRegion_keeps {s0 : State} {s : State} {r : Fin 32} {f : Region → Region} (h : Keeps s0 s) : Keeps s0 (State.setRegion s r f) := by
  unfold State.setRegion
  try dsimp only
  repeat'
    first
    | with_reducible assumption
    | with_reducible exact id
    | with_reducible refine memOk_mk ?_ ?_
    | with_reducible refine shellsOk_upd (fun _ h => ?_)
    | with_reducible refine Keeps.upd ?_ rfl (fun _ h => h) ?_ ?_ ?_

theorem clearGen_keeps {s0 : State} {lo : Nat} {hi : Nat} {s : State} (h : Keeps s0 s) : Keeps s0 (clearGen lo hi s) := by
  unfold clearGen
  try dsimp only
  repeat'
    first
    | with_reducible assumption
    | with_reducible exact id
    | with_reducible refine memOk_mk ?_ ?_
    | with_reducible exact wf_filter _
    | with_reducible refine Keeps.upd ?_ rfl (fun _ h => h) ?_ ?_ ?_

theorem forgetUnits_keeps {s0 : State} {lo : Nat} {hi : Nat} {s : State} (h : Keeps s0 s) : Keeps s0 (forgetUnits lo hi s) := by
  unfold forgetUnits
  try dsimp only
  repeat'
    first
    | with_reducible assumption
    | with_reducible exact id
    | with_reducible refine memOk_mk ?_ ?_
    | with_reducible exact wf_clear _ _
    | with_reducible exact wf_filter _
    | with_reducible refine Keeps.upd ?_ rfl (fun _ h => h) ?_ ?_ ?_

theorem regionMake_keeps {s0 : State} {p : Path} {r : Fin 32} {s : State} (h : Keeps s0 s) : Keeps s0 (regionMake p r s) := by
  unfold regionMake
  try dsimp only
  repeat'
    first
    | with_reducible assumption
    | with_reducible refine State_setRegion_keeps ?_
    | with_reducible refine needLaneSlot_keeps ?_
    | refine KeepsO2.of_eq (needLaneSlot_keeps ?_) ‹_›
    | with_reducible refine forgetUnits_keeps ?_
    | with_reducible refine clearGen_keeps ?_
    | split

theorem emptyAdapters_keeps {s0 : State} {r : Fin 32} {s : State} (h : Keeps s0 s) : Keeps s0 (emptyAdapters r s) := by
  unfold emptyAdapters
  try dsimp only
  repeat'
    first
    | with_reducible assumption
    | with_reducible exact id
    | split
    | with_reducible refine shellsOk_mapIdx (fun _ _ h => ?_)
    | with_reducible refine Keeps.upd ?_ rfl (fun _ h => h) ?_ ?_ ?_

theorem sealingGoOn_keeps {s0 : State} {n : LaneId} {slot : Fin 8} {s : State} (h : Keeps s0 s) : Keeps s0 (sealingGoOn n slot s) := by
  unfold sealingGoOn
  try dsimp only
  repeat'
    first
    | with_reducible assumption
    | with_reducible refine State_setRegion_keeps ?_
    | with_reducible exact id
    | with_reducible refine memOk_mk ?_ ?_
    | split
    | with_reducible refine Keeps.foldl (fun _ _ _ => ?_) _ ?_
    | with_reducible exact wf_filter _
    | with_reducible refine Keeps.upd ?_ rfl (fun _ h => h) ?_ ?_ ?_

theorem sweepEnd_keeps {s0 : State} {w : Sweep} {rs : List (Fin 32)} {s : State} (h : Keeps s0 s) : Keeps s0 (sweepEnd w rs s) := by
  unfold sweepEnd
  try dsimp only
  repeat'
    first
    | with_reducible assumption
    | with_reducible refine State_setRegion_keeps ?_
    | with_reducible refine zeroSlot_keeps ?_
    | with_reducible refine keyopEnd_keeps ?_
    | with_reducible refine State_raise_keeps ?_
    | with_reducible refine sealingGoOn_keeps ?_
    | with_reducible exact id
    | with_reducible refine memOk_mk ?_ ?_
    | split
    | with_reducible refine Keeps.foldl (fun _ _ _ => ?_) _ ?_
    | with_reducible refine shellsOk_upd (fun _ h => ?_)
    | with_reducible refine Keeps.upd ?_ rfl (fun _ h => h) ?_ ?_ ?_

theorem unsealRegion_keeps {s0 : State} {i : Fin 32} {s : State} (h : Keeps s0 s) : Keeps s0 (unsealRegion i s) := by
  unfold unsealRegion
  try dsimp only
  repeat'
    first
    | with_reducible assumption
    | with_reducible refine State_setRegion_keeps ?_
    | with_reducible refine forgetUnits_keeps ?_
    | with_reducible refine clearGen_keeps ?_
    | with_reducible exact id
    | with_reducible refine memOk_mk ?_ ?_
    | split
    | with_reducible refine Keeps.upd ?_ rfl (fun _ h => h) ?_ ?_ ?_

theorem unsealDue_keeps {s0 : State} {s : State} (h : Keeps s0 s) : Keeps s0 (unsealDue s) := by
  unfold unsealDue
  try dsimp only
  repeat'
    first
    | with_reducible assumption
    | with_reducible refine unsealRegion_keeps ?_
    | with_reducible refine Keeps.foldl (fun _ _ _ => ?_) _ ?_

theorem sweepCheck_keeps {s0 : State} {s : State} (h : Keeps s0 s) : Keeps s0 (sweepCheck s) := by
  unfold sweepCheck
  try dsimp only
  repeat'
    first
    | with_reducible assumption
    | with_reducible refine unsealDue_keeps ?_
    | with_reducible refine sweepEnd_keeps ?_
    | with_reducible exact id
    | with_reducible refine memOk_mk ?_ ?_
    | with_reducible refine Keeps.foldl (fun _ _ _ => ?_) _ ?_
    | with_reducible refine Keeps.foldl2 (fun _ _ _ => ?_) _ ?_
    | with_reducible exact wf_filter _
    | with_reducible refine Keeps.upd ?_ rfl (fun _ h => h) ?_ ?_ ?_

theorem regionDelete_keeps {s0 : State} {p : Path} {r : Fin 32} {s : State} (h : Keeps s0 s) : Keeps s0 (regionDelete p r s) := by
  unfold regionDelete
  try dsimp only
  repeat'
    first
    | with_reducible assumption
    | with_reducible refine State_setRegion_keeps ?_
    | with_reducible refine sweepCheck_keeps ?_
    | with_reducible refine emptyAdapters_keeps ?_
    | split

theorem refit_keeps {s0 : State} {s : State} (h : Keeps s0 s) : Keeps s0 (refit s) := by
  unfold refit
  try dsimp only
  repeat'
    first
    | with_reducible assumption
    | with_reducible exact id
    | with_reducible refine shellsOk_mapIdx (fun _ _ h => ?_)
    | with_reducible refine Keeps.upd ?_ rfl (fun _ h => h) ?_ ?_ ?_

theorem bhPartWrite_keeps {s0 : State} {p : Path} {l : LaneId} {hi : Bool} {v : W32} {s : State} (h : Keeps s0 s) : Keeps s0 (bhPartWrite p l hi v s) := by
  unfold bhPartWrite
  try dsimp only
  repeat'
    first
    | with_reducible assumption
    | with_reducible refine refit_keeps ?_
    | with_reducible exact id
    | with_reducible refine memOk_mk ?_ ?_
    | split
    | with_reducible refine shellsOk_map (fun _ h => ?_)
    | with_reducible refine Keeps.upd ?_ rfl (fun _ h => h) ?_ ?_ ?_

theorem bhRetainWrite_keeps {s0 : State} {p : Path} {k : Fin 4} {v : W32} {s : State} (h : Keeps s0 s) : Keeps s0 (bhRetainWrite p k v s) := by
  unfold bhRetainWrite
  try dsimp only
  repeat'
    first
    | with_reducible assumption
    | with_reducible exact id
    | with_reducible refine memOk_mk ?_ ?_
    | split
    | with_reducible refine Keeps.upd ?_ rfl (fun _ h => h) ?_ ?_ ?_

theorem openRead_keeps {s0 : State} {a : Nat} {b : List Byte} {s : State} (h : Keeps s0 s) : Keeps s0 (openRead a b s).2 := by
  unfold openRead
  try dsimp only
  repeat'
    first
    | with_reducible assumption
    | with_reducible refine freeBytes_keeps ?_
    | refine Keeps.of_eq (freeBytes_keeps ?_) ‹_›
    | split
    | dsimp only
    | refine Keeps.of_eq ?_ ‹_ = (_, _)›

theorem unitsAt_keeps {s0 : State} {unit : Nat} {a : Nat} {a_2 : State} (h : Keeps s0 a_2) : Keeps s0 (unitsAt unit a a_2).2 := by
  induction a generalizing unit a_2 with
  | zero => exact h
  | succ n ih =>
    unfold unitsAt
    try dsimp only
    repeat'
      first
      | with_reducible assumption
      | with_reducible refine ih ?_
      | refine Keeps.of_eq (ih ?_) ‹_›
      | with_reducible refine courseRead_keeps ?_
      | refine Keeps.of_eq (courseRead_keeps ?_) ‹_›
      | with_reducible refine openRead_keeps ?_
      | refine Keeps.of_eq (openRead_keeps ?_) ‹_›
      | with_reducible refine freeBytes_keeps ?_
      | refine Keeps.of_eq (freeBytes_keeps ?_) ‹_›
      | split
      | dsimp only
      | refine Keeps.of_eq ?_ ‹_ = (_, _)›

theorem spoilOutputs_keeps {s0 : State} {map : Vector (Option ShellId) 16} {rs : List (Nat × Nat)} {s : State} (h : Keeps s0 s) : Keeps s0 (spoilOutputs map rs s) := by
  unfold spoilOutputs
  try dsimp only
  repeat'
    first
    | with_reducible assumption
    | with_reducible refine setShell_keeps ?_ (fun _ h => ?_)
    | with_reducible refine freeBytes_keeps ?_
    | refine Keeps.of_eq (freeBytes_keeps ?_) ‹_›
    | with_reducible exact id
    | with_reducible refine memOk_mk ?_ ?_
    | exact ⟨h.1, h.2⟩
    | exact ⟨wf_put _ _ h.1, h.2⟩
    | exact ⟨h.1, wf_put _ _ h.2⟩
    | exact ⟨rfl, rfl⟩
    | split
    | with_reducible refine Keeps.foldl (fun _ _ _ => ?_) _ ?_
    | with_reducible exact wf_put _ _
    | with_reducible exact wf_filter _
    | refine Keeps.of_eq ?_ ‹_ = (_, _)›
    | dsimp only
    | with_reducible refine Keeps.upd ?_ rfl (fun _ h => h) ?_ ?_ ?_

theorem windowAccess_keeps {s0 : State} {unit : Nat} {wr : Option (List Byte)} {s : State} (h : Keeps s0 s) : Keeps s0 (windowAccess unit wr s).2 := by
  unfold windowAccess
  try dsimp only
  repeat'
    first
    | with_reducible assumption
    | with_reducible refine dramWrite_keeps ?_
    | refine Keeps.of_eq (dramWrite_keeps ?_) ‹_›
    | with_reducible refine dramRead_keeps ?_
    | refine Keeps.of_eq (dramRead_keeps ?_) ‹_›
    | with_reducible refine openRead_keeps ?_
    | refine Keeps.of_eq (openRead_keeps ?_) ‹_›
    | with_reducible refine freeBytes_keeps ?_
    | refine Keeps.of_eq (freeBytes_keeps ?_) ‹_›
    | with_reducible exact id
    | with_reducible refine memOk_mk ?_ ?_
    | split
    | refine Keeps.of_eq ?_ ‹_ = (_, _)›
    | dsimp only
    | with_reducible refine Keeps.upd ?_ rfl (fun _ h => h) ?_ ?_ ?_

theorem hostWindowAccess_keeps {s0 : State} {unit : BitVec 28} {wr : Option (List Byte)} {s : State} (h : Keeps s0 s) : Keeps s0 (hostWindowAccess unit wr s) := by
  unfold hostWindowAccess
  try dsimp only
  repeat'
    first
    | with_reducible assumption
    | with_reducible refine windowAccess_keeps ?_
    | refine Keeps.of_eq (windowAccess_keeps ?_) ‹_›
    | with_reducible exact id
    | split
    | refine Keeps.of_eq ?_ ‹_ = (_, _)›
    | dsimp only
    | with_reducible refine Keeps.upd ?_ rfl (fun _ h => h) ?_ ?_ ?_

theorem readWinRefused_keeps {s0 : State} {s : State} (h : Keeps s0 s) : Keeps s0 (readWinRefused s).2 := by
  unfold readWinRefused
  try dsimp only
  repeat'
    first
    | with_reducible assumption
    | with_reducible exact id
    | with_reducible refine memOk_mk ?_ ?_
    | dsimp only
    | with_reducible refine Keeps.upd ?_ rfl (fun _ h => h) ?_ ?_ ?_

theorem winRefusedRead_keeps {s0 : State} {path : Path} {s : State} (h : Keeps s0 s) : Keeps s0 (winRefusedRead path s) := by
  unfold winRefusedRead
  try dsimp only
  repeat'
    first
    | with_reducible assumption
    | with_reducible refine readWinRefused_keeps ?_
    | refine Keeps.of_eq (readWinRefused_keeps ?_) ‹_›
    | with_reducible refine State_answered_keeps ?_
    | split
    | dsimp only
    | refine Keeps.of_eq ?_ ‹_ = (_, _)›

theorem startRotation_keeps {s0 : State} {plan : Bool} {l : LaneId} {s : State} (h : Keeps s0 s) : KeepsE s0 (startRotation plan l s) := by
  unfold startRotation
  try dsimp only
  repeat'
    first
    | with_reducible assumption
    | with_reducible refine drawKey_keeps ?_
    | with_reducible exact id
    | with_reducible refine memOk_mk ?_ ?_
    | split
    | with_reducible refine shellsOk_map (fun _ h => ?_)
    | with_reducible refine Keeps.upd ?_ rfl (fun _ h => h) ?_ ?_ ?_
    | with_reducible exact KeepsE.error
    | with_reducible refine KeepsE.ok ?_

theorem State_setSweep_keeps {s0 : State} {s : State} {k : Nat} {f : Sweep → Sweep} (h : Keeps s0 s) : Keeps s0 (State.setSweep s k f) := by
  unfold State.setSweep
  try dsimp only
  repeat'
    first
    | with_reducible assumption
    | with_reducible exact id
    | with_reducible refine memOk_mk ?_ ?_
    | split
    | with_reducible refine Keeps.upd ?_ rfl (fun _ h => h) ?_ ?_ ?_

theorem rotationBlockStart_keeps {s0 : State} {k : Nat} {s : State} (h : Keeps s0 s) : Keeps s0 (rotationBlockStart k s) := by
  unfold rotationBlockStart
  try dsimp only
  repeat'
    first
    | with_reducible assumption
    | with_reducible refine elapseTo_keeps ?_
    | with_reducible refine State_setSweep_keeps ?_
    | split

theorem rotationCopyDone_keeps {s0 : State} {k : Nat} {s : State} (h : Keeps s0 s) : Keeps s0 (rotationCopyDone k s) := by
  unfold rotationCopyDone
  try dsimp only
  repeat'
    first
    | with_reducible assumption
    | with_reducible refine State_setSweep_keeps ?_
    | split

theorem rotationRewriteDone_keeps {s0 : State} {k : Nat} {s : State} (h : Keeps s0 s) : Keeps s0 (rotationRewriteDone k s) := by
  unfold rotationRewriteDone
  try dsimp only
  repeat'
    first
    | with_reducible assumption
    | with_reducible refine sweepCheck_keeps ?_
    | with_reducible refine State_setSweep_keeps ?_
    | with_reducible refine State_setRegion_keeps ?_
    | with_reducible exact id
    | with_reducible refine memOk_mk ?_ ?_
    | split
    | with_reducible refine Keeps.upd ?_ rfl (fun _ h => h) ?_ ?_ ?_

end Sys2Proof.Laws
end

