-- ==== Sys2Proof/Laws/KeepFaults.lean ====
section
/-! SUPPORT. What the operations of Faults keep. -/

namespace Sys2Proof.Laws
open Sys2Proof Sys2Proof.Machine

theorem fenceRecords_keeps {s0 : State} {u : UnitRef} {cause : Option Cause} {heat : Option (LaneId × W32)} {s : State} (h : Keeps s0 s) : Keeps s0 (fenceRecords u cause heat s) := by
  unfold fenceRecords
  try dsimp only
  repeat'
    first
    | with_reducible assumption
    | with_reducible refine State_logFault_keeps ?_
    | with_reducible exact id
    | split
    | with_reducible refine Keeps.upd ?_ rfl (fun _ h => h) ?_ ?_ ?_

theorem logSubstitute_keeps {s0 : State} {u : UnitRef} {v : UnitRef} {s : State} (h : Keeps s0 s) : Keeps s0 (logSubstitute u v s) := by
  unfold logSubstitute
  try dsimp only
  repeat'
    first
    | with_reducible assumption
    | with_reducible refine State_logFault_keeps ?_

theorem State_setShellSt_keeps {s0 : State} {s : State} {i : ShellId} {t : UnitSt} (h : Keeps s0 s) : Keeps s0 (State.setShellSt s i t) := by
  unfold State.setShellSt
  try dsimp only
  repeat'
    first
    | with_reducible assumption
    | with_reducible exact id
    | with_reducible refine Keeps.upd ?_ rfl (fun _ h => h) ?_ ?_ ?_

theorem Shell_writeImage_keeps {f : RigFrame} {img : List Byte} {x : Shell} (h : ShellOk x) : ShellOk (Shell.writeImage f img x) := by
  refine ⟨h.1, ?_⟩
  unfold Shell.writeImage
  dsimp only
  generalize (List.filter _ _) = l
  have : ∀ (t : Bytes × List Byte), Bytes.wf t.1 = true → Bytes.wf (l.foldl (fun (acc : Bytes × List Byte) p =>
      (acc.1.put (2048 * p.2 + p.1.tsBase.toNat * 32) (acc.2.take (p.1.tsLen.toNat * 32)), acc.2.drop (p.1.tsLen.toNat * 32))) t).1 = true := by
    induction l with
    | nil => exact fun _ h => h
    | cons a r ih => exact fun t ht => ih _ (wf_put _ _ ht)
  exact this _ h.2

theorem Shell_resident_keeps {h_0 : Fin 16} {k : Fin 16} {r : Nat × RigFrame × List Byte} {x : Shell} (h : ShellOk x) : ShellOk (Shell.resident h_0 k r x) := by
  unfold Shell.resident
  try dsimp only
  repeat'
    first
    | with_reducible assumption
    | with_reducible exact Shell_writeImage_keeps ‹_›
    | with_reducible refine Shell_writeImage_keeps ?_
    | with_reducible exact id
    | exact ⟨h.1, h.2⟩
    | exact ⟨(Shell_writeImage_keeps h).1, (Shell_writeImage_keeps h).2⟩
    | exact ⟨rfl, rfl⟩
    | split

theorem bundleInto_keeps {s0 : State} {h_0 : Fin 16} {i : ShellId} {s : State} (h : Keeps s0 s) : Keeps s0 (bundleInto h_0 i s) := by
  unfold bundleInto
  try dsimp only
  repeat'
    first
    | with_reducible assumption
    | with_reducible refine setShell_keeps ?_ (fun _ h => ?_)
    | with_reducible refine touch_keeps ?_
    | with_reducible exact Shell_resident_keeps ‹_›
    | with_reducible refine Shell_resident_keeps ?_
    | with_reducible exact id
    | with_reducible refine Keeps.foldl (fun _ _ _ => ?_) _ ?_

theorem residentInto_keeps {s0 : State} {i : ShellId} {s : State} (h : Keeps s0 s) : Keeps s0 (residentInto i s) := by
  unfold residentInto
  try dsimp only
  repeat'
    first
    | with_reducible assumption
    | with_reducible refine bundleInto_keeps ?_
    | split
    | with_reducible refine Keeps.foldl (fun _ _ _ => ?_) _ ?_

theorem remap_keeps {s0 : State} {s : State} (h : Keeps s0 s) : Keeps s0 (remap s) := by
  unfold remap
  try dsimp only
  repeat'
    first
    | with_reducible assumption
    | with_reducible refine residentInto_keeps ?_
    | with_reducible exact id
    | split
    | with_reducible refine Keeps.foldl (fun _ _ _ => ?_) _ ?_
    | with_reducible refine shellsOk_mapIdx (fun _ _ h => ?_)
    | with_reducible exact wf_filter _
    | with_reducible refine Keeps.upd ?_ rfl (fun _ h => h) ?_ ?_ ?_

theorem substituteShell_keeps {s0 : State} {i : ShellId} {s : State} (h : Keeps s0 s) : Keeps s0 (substituteShell i s) := by
  unfold substituteShell
  try dsimp only
  repeat'
    first
    | with_reducible assumption
    | with_reducible refine logSubstitute_keeps ?_
    | with_reducible refine residentInto_keeps ?_
    | with_reducible refine State_setShellSt_keeps ?_
    | with_reducible refine remap_keeps ?_
    | with_reducible exact id
    | split
    | with_reducible refine Keeps.upd ?_ rfl (fun _ h => h) ?_ ?_ ?_

theorem fenceShell_keeps {s0 : State} {i : ShellId} {cause : Option Cause} {s : State} (h : Keeps s0 s) : Keeps s0 (fenceShell i cause s) := by
  unfold fenceShell
  try dsimp only
  repeat'
    first
    | with_reducible assumption
    | with_reducible refine setShell_keeps ?_ (fun _ h => ?_)
    | with_reducible refine State_setShellSt_keeps ?_
    | with_reducible refine restartShell_keeps ?_
    | with_reducible refine strFence_keeps ?_
    | with_reducible refine fenceRecords_keeps ?_
    | with_reducible refine substituteShell_keeps ?_
    | with_reducible exact id
    | exact ⟨h.1, h.2⟩
    | exact ⟨rfl, rfl⟩
    | split
    | with_reducible refine Keeps.upd ?_ rfl (fun _ h => h) ?_ ?_ ?_

theorem State_setBankSt_keeps {s0 : State} {s : State} {p : Fin 68} {t : UnitSt} (h : Keeps s0 s) : Keeps s0 (State.setBankSt s p t) := by
  unfold State.setBankSt
  try dsimp only
  repeat'
    first
    | with_reducible assumption
    | with_reducible exact id
    | with_reducible refine Keeps.upd ?_ rfl (fun _ h => h) ?_ ?_ ?_

theorem fenceBank_keeps {s0 : State} {p : Fin 68} {cause : Option Cause} {s : State} (h : Keeps s0 s) : Keeps s0 (fenceBank p cause s) := by
  unfold fenceBank
  try dsimp only
  repeat'
    first
    | with_reducible assumption
    | with_reducible refine fenceRecords_keeps ?_
    | with_reducible refine State_setBankSt_keeps ?_
    | with_reducible exact id
    | split
    | with_reducible refine Keeps.upd ?_ rfl (fun _ h => h) ?_ ?_ ?_

theorem replaceRow_keeps {s0 : State} {p : Fin 68} {row : Fin 2048} {s : State} (h : Keeps s0 s) : Keeps s0 (replaceRow p row s) := by
  unfold replaceRow
  try dsimp only
  repeat'
    first
    | with_reducible assumption
    | with_reducible refine fenceBank_keeps ?_
    | with_reducible exact id
    | split
    | with_reducible exact wf_filter _
    | with_reducible refine Keeps.upd ?_ rfl (fun _ h => h) ?_ ?_ ?_

theorem rowCorrected_keeps {s0 : State} {p : Fin 68} {row : Fin 2048} {w : Fin 32} {s : State} (h : Keeps s0 s) : Keeps s0 (rowCorrected p row w s) := by
  unfold rowCorrected
  try dsimp only
  repeat'
    first
    | with_reducible assumption
    | with_reducible refine replaceRow_keeps ?_
    | with_reducible exact id
    | split
    | with_reducible refine Keeps.upd ?_ rfl (fun _ h => h) ?_ ?_ ?_

theorem damageBundle_keeps {s0 : State} {h_0 : Fin 16} {s : State} (h : Keeps s0 s) : Keeps s0 (damageBundle h_0 s) := by
  unfold damageBundle
  try dsimp only
  repeat'
    first
    | with_reducible assumption
    | with_reducible refine State_setBundle_keeps ?_
    | with_reducible exact id
    | split
    | with_reducible refine shellsOk_map (fun _ h => ?_)
    | with_reducible refine Keeps.upd ?_ rfl (fun _ h => h) ?_ ?_ ?_

theorem placeOneWord_keeps {s0 : State} {b : Fin 64} {word : Nat} {s : State} (h : Keeps s0 s) : Keeps s0 (placeOneWord b word s) := by
  unfold placeOneWord
  try dsimp only
  repeat'
    first
    | with_reducible assumption
    | with_reducible refine damageBundle_keeps ?_
    | with_reducible exact id
    | split
    | with_reducible exact wf_filter _
    | with_reducible refine Keeps.upd ?_ rfl (fun _ h => h) ?_ ?_ ?_

theorem rowUncorrectable_keeps {s0 : State} {p : Fin 68} {row : Fin 2048} {w : Fin 32} {s : State} (h : Keeps s0 s) : Keeps s0 (rowUncorrectable p row w s) := by
  unfold rowUncorrectable
  try dsimp only
  repeat'
    first
    | with_reducible assumption
    | with_reducible refine placeOneWord_keeps ?_
    | with_reducible refine replaceRow_keeps ?_
    | with_reducible exact id
    | split
    | with_reducible refine Keeps.upd ?_ rfl (fun _ h => h) ?_ ?_ ?_

theorem liveCopyRow_keeps {s0 : State} {bank : Fin 64} {s : State} (h : Keeps s0 s) : Keeps s0 (liveCopyRow bank s) := by
  unfold liveCopyRow
  try dsimp only
  repeat'
    first
    | with_reducible assumption
    | with_reducible exact id
    | split
    | with_reducible refine Keeps.upd ?_ rfl (fun _ h => h) ?_ ?_ ?_

theorem liveCopyDone_keeps {s0 : State} {bank : Fin 64} {s : State} (h : Keeps s0 s) : Keeps s0 (liveCopyDone bank s) := by
  unfold liveCopyDone
  try dsimp only
  repeat'
    first
    | with_reducible assumption
    | with_reducible refine State_logFault_keeps ?_
    | with_reducible refine logSubstitute_keeps ?_
    | with_reducible refine State_setBankSt_keeps ?_
    | with_reducible exact id
    | split
    | with_reducible exact wf_filter _
    | with_reducible refine Keeps.upd ?_ rfl (fun _ h => h) ?_ ?_ ?_

theorem fenceDecoder_keeps {s0 : State} {d : Fin 4} {cause : Option Cause} {s : State} (h : Keeps s0 s) : Keeps s0 (fenceDecoder d cause s) := by
  unfold fenceDecoder
  try dsimp only
  repeat'
    first
    | with_reducible assumption
    | with_reducible refine restartShell_keeps ?_
    | with_reducible refine fenceRecords_keeps ?_
    | with_reducible exact id
    | with_reducible refine memOk_mk ?_ ?_
    | split
    | with_reducible refine Keeps.upd ?_ rfl (fun _ h => h) ?_ ?_ ?_

theorem fenceAes_keeps {s0 : State} {p : Fin 3} {cause : Option Cause} {s : State} (h : Keeps s0 s) : Keeps s0 (fenceAes p cause s) := by
  unfold fenceAes
  try dsimp only
  repeat'
    first
    | with_reducible assumption
    | with_reducible refine fenceRecords_keeps ?_
    | with_reducible exact id
    | split
    | with_reducible refine Keeps.upd ?_ rfl (fun _ h => h) ?_ ?_ ?_

theorem aesKat_keeps {s0 : State} {p : Fin 3} {pass : Bool} {s : State} (h : Keeps s0 s) : Keeps s0 (aesKat p pass s) := by
  unfold aesKat
  try dsimp only
  repeat'
    first
    | with_reducible assumption
    | with_reducible refine fenceAes_keeps ?_
    | with_reducible refine State_logFault_keeps ?_
    | with_reducible exact id
    | split
    | with_reducible refine Keeps.upd ?_ rfl (fun _ h => h) ?_ ?_ ?_

theorem State_setHist_keeps {s0 : State} {s : State} {i : ShellId} {f : ShellHist → ShellHist} (h : Keeps s0 s) : Keeps s0 (State.setHist s i f) := by
  unfold State.setHist
  try dsimp only
  repeat'
    first
    | with_reducible assumption
    | with_reducible exact id
    | with_reducible refine shellsOk_upd (fun _ h => ?_)
    | with_reducible refine Keeps.upd ?_ rfl (fun _ h => h) ?_ ?_ ?_

theorem logUnitFault_keeps {s0 : State} {i : ShellId} {u : UnitRef} {cause : Cause} {s : State} (h : Keeps s0 s) : Keeps s0 (logUnitFault i u cause s) := by
  unfold logUnitFault
  try dsimp only
  repeat'
    first
    | with_reducible assumption
    | with_reducible refine State_logFault_keeps ?_

theorem logShellFault_keeps {s0 : State} {i : ShellId} {cause : Cause} {s : State} (h : Keeps s0 s) : Keeps s0 (logShellFault i cause s) := by
  unfold logShellFault
  try dsimp only
  repeat'
    first
    | with_reducible assumption
    | with_reducible refine logUnitFault_keeps ?_

theorem strokeFault_keeps {s0 : State} {i : ShellId} {f : StrokeFault} {s : State} (h : Keeps s0 s) : Keeps s0 (strokeFault i f s) := by
  unfold strokeFault
  try dsimp only
  repeat'
    first
    | with_reducible assumption
    | with_reducible refine setShell_keeps ?_ (fun _ h => ?_)
    | with_reducible refine State_setHist_keeps ?_
    | with_reducible refine fenceShell_keeps ?_
    | with_reducible refine restartShell_keeps ?_
    | with_reducible refine logShellFault_keeps ?_
    | with_reducible refine rowCorrected_keeps ?_
    | with_reducible refine rowUncorrectable_keeps ?_
    | with_reducible refine logUnitFault_keeps ?_
    | with_reducible exact id
    | exact ⟨h.1, h.2⟩
    | exact ⟨rfl, rfl⟩
    | split

theorem rigFrameError_keeps {s0 : State} {i : ShellId} {frame : Nat} {h_2 : Fin 16} {s : State} (h : Keeps s0 s) : Keeps s0 (rigFrameError i frame h_2 s) := by
  unfold rigFrameError
  try dsimp only
  repeat'
    first
    | with_reducible assumption
    | with_reducible refine setShell_keeps ?_ (fun _ h => ?_)
    | with_reducible refine logShellFault_keeps ?_
    | with_reducible refine State_setHist_keeps ?_
    | with_reducible refine restartShell_keeps ?_
    | with_reducible refine fenceShell_keeps ?_
    | with_reducible refine touch_keeps ?_
    | with_reducible exact id
    | exact ⟨h.1, h.2⟩
    | exact ⟨rfl, rfl⟩
    | split
    | with_reducible refine Keeps.upd ?_ rfl (fun _ h => h) ?_ ?_ ?_

end Sys2Proof.Laws
end

