-- ==== Sys2Proof/Laws/KeepOperands.lean ====
section
/-! SUPPORT. What the operations of Operands keep. -/

namespace Sys2Proof.Laws
open Sys2Proof Sys2Proof.Machine

theorem Rx_mapShell_keeps {s0 : State} {r : Rx} {e : RunEnv} {f : Shell → Shell} (h : Keeps s0 r.s) (hf : ∀ x, ShellOk x → ShellOk (f x)) :
    Keeps s0 (r.mapShell e f).s := setShell_keeps h hf

theorem Rx_count_keeps {s0 : State} {r : Rx} {e : RunEnv} {t : Nat} {f : Counts → Counts} (h : Keeps s0 r.s) : Keeps s0 (Rx.count r e t f).s := by
  unfold Rx.count
  try dsimp only
  repeat'
    first
    | with_reducible assumption
    | split
    | dsimp only

theorem readByte_keeps {s0 : State} {e : RunEnv} {f : Fin 16} {p : Nat} {r : Rx} (h : Keeps s0 r.s) : Keeps s0 (readByte e f p r).2.s := by
  unfold readByte
  try dsimp only
  repeat'
    first
    | with_reducible assumption
    | with_reducible refine heatRead_keeps ?_
    | refine Keeps.of_eq (heatRead_keeps ?_) ‹_›
    | split
    | refine Keeps.of_eq ?_ ‹_ = (_, _)›
    | dsimp only

theorem writeByte_keeps {s0 : State} {e : RunEnv} {f : Fin 16} {p : Nat} {v : Byte} {r : Rx} (h : Keeps s0 r.s) : Keeps s0 (writeByte e f p v r).s := by
  unfold writeByte
  try dsimp only
  repeat'
    first
    | with_reducible assumption
    | with_reducible refine Rx_mapShell_keeps ?_ (fun _ h => ?_)
    | with_reducible refine courseRead_keeps ?_
    | refine Keeps.of_eq (courseRead_keeps ?_) ‹_›
    | with_reducible refine freeBytes_keeps ?_
    | refine Keeps.of_eq (freeBytes_keeps ?_) ‹_›
    | with_reducible refine heatWrite_keeps ?_
    | refine Keeps.of_eq (heatWrite_keeps ?_) ‹_›
    | with_reducible exact id
    | exact ⟨h.1, h.2⟩
    | exact ⟨wf_set _ _ h.1, h.2⟩
    | exact ⟨rfl, rfl⟩
    | split
    | refine Keeps.of_eq ?_ ‹_ = (_, _)›
    | dsimp only

theorem readBytes_keeps {s0 : State} {e : RunEnv} {f : Fin 16} {p : Nat} {a : Nat} {a_4 : Rx} (h : Keeps s0 a_4.s) : Keeps s0 (readBytes e f p a a_4).2.s := by
  induction a generalizing e f p a_4 with
  | zero => exact h
  | succ n ih =>
    unfold readBytes
    try dsimp only
    repeat'
      first
      | with_reducible assumption
      | with_reducible refine ih ?_
      | with_reducible refine readByte_keeps ?_
      | refine Keeps.of_rx (readByte_keeps ?_) ‹_›
      | split
      | dsimp only

theorem writeBytes_keeps {s0 : State} {e : RunEnv} {f : Fin 16} {p : Nat} {a : List Byte} {a_4 : Rx} (h : Keeps s0 a_4.s) : Keeps s0 (writeBytes e f p a a_4).s := by
  induction a generalizing e f p a_4 with
  | nil => exact h
  | cons a l ih =>
    unfold writeBytes
    try dsimp only
    repeat'
      first
      | with_reducible assumption
      | with_reducible refine ih ?_
      | with_reducible refine writeByte_keeps ?_
      | split
      | dsimp only

theorem srcBytes_keeps {s0 : State} {e : RunEnv} {c : CellRec} {cell : Fin 64} {src : Src} {p : Nat} {n : Nat} {r : Rx} (h : Keeps s0 r.s) : Keeps s0 (srcBytes e c cell src p n r).2.s := by
  unfold srcBytes
  try dsimp only
  repeat'
    first
    | with_reducible assumption
    | with_reducible refine readBytes_keeps ?_
    | refine Keeps.of_rx (readBytes_keeps ?_) ‹_›
    | split
    | dsimp only

theorem readElem_keeps {s0 : State} {e : RunEnv} {c : CellRec} {cell : Fin 64} {b : Nat} {src : Src} {r : Rx} (h : Keeps s0 r.s) : Keeps s0 (readElem e c cell b src r).2.s := by
  unfold readElem
  try dsimp only
  repeat'
    first
    | with_reducible assumption
    | with_reducible refine srcBytes_keeps ?_
    | refine Keeps.of_rx (srcBytes_keeps ?_) ‹_›
    | split
    | dsimp only

theorem writeElem_keeps {s0 : State} {e : RunEnv} {c : CellRec} {cell : Fin 64} {b : Nat} {src : Src} {v : Nat} {r : Rx} (h : Keeps s0 r.s) : Keeps s0 (writeElem e c cell b src v r).s := by
  unfold writeElem
  try dsimp only
  repeat'
    first
    | with_reducible assumption
    | with_reducible refine srcBytes_keeps ?_
    | refine Keeps.of_rx (srcBytes_keeps ?_) ‹_›
    | with_reducible refine writeBytes_keeps ?_
    | with_reducible refine Rx_mapShell_keeps ?_ (fun _ h => ?_)
    | with_reducible exact id
    | exact ⟨h.1, h.2⟩
    | exact ⟨wf_put _ _ h.1, h.2⟩
    | exact ⟨h.1, wf_put _ _ h.2⟩
    | exact ⟨rfl, rfl⟩
    | split
    | dsimp only

theorem readCrab_keeps {s0 : State} {e : RunEnv} {c : CellRec} {cell : Fin 64} {src : Src} {r : Rx} (h : Keeps s0 r.s) : Keeps s0 (readCrab e c cell src r).s := by
  unfold readCrab
  try dsimp only
  repeat'
    first
    | with_reducible assumption
    | with_reducible refine Rx_count_keeps ?_
    | split
    | dsimp only

theorem readExp_keeps {s0 : State} {e : RunEnv} {x : Option (Fin 16 × Nat)} {r : Rx} (h : Keeps s0 r.s) : Keeps s0 (readExp e x r).2.s := by
  unfold readExp
  try dsimp only
  repeat'
    first
    | with_reducible assumption
    | with_reducible refine readByte_keeps ?_
    | refine Keeps.of_rx (readByte_keeps ?_) ‹_›
    | split
    | dsimp only

theorem readOpCode_keeps {s0 : State} {e : RunEnv} {c : CellRec} {cell : Fin 64} {fmt : Nat} {src : Src} {r : Rx} (h : Keeps s0 r.s) :
    Keeps s0 (readOpCode e c cell fmt src r).2.2.s := by
  unfold readOpCode
  dsimp only
  repeat'
    first
    | with_reducible assumption
    | with_reducible refine readElem_keeps ?_
    | split

theorem readOpnd_keeps {s0 : State} {e : RunEnv} {c : CellRec} {cell : Fin 64} {fmt : Nat} {word : Option (Fin 16)} {o : Opnd} {r : Rx}
    (h : Keeps s0 r.s) : Keeps s0 (readOpnd e c cell fmt word o r).2.s := by
  have hc : ∀ {x : Machine.Num} {b : Bool} {t : Rx}, readOpCode e c cell fmt o.at_ r = (x, b, t) → Keeps s0 t.s := fun e' => by
    have := readOpCode_keeps (e := e) (c := c) (cell := cell) (fmt := fmt) (src := o.at_) h
    rw [e'] at this
    exact this
  unfold readOpnd
  split
  · have := hc ‹_›
    dsimp only
    split
    · exact readCrab_keeps this
    · exact this
  · have := hc ‹_›
    exact this
  · have := hc ‹_›
    split
    · exact readCrab_keeps this
    · dsimp only
      split
      · exact readCrab_keeps (readBytes_keeps this)
      · split
        · dsimp only
          split
          · exact readCrab_keeps (readBytes_keeps this)
          · exact readBytes_keeps this
        · exact readBytes_keeps this

theorem readValue_keeps {s0 : State} {e : RunEnv} {c : CellRec} {cell : Fin 64} {fmt : Nat} {o : Opnd} {r : Rx} (h : Keeps s0 r.s) : Keeps s0 (readValue e c cell fmt o r).2.s := by
  unfold readValue
  try dsimp only
  repeat'
    first
    | with_reducible assumption
    | with_reducible refine readExp_keeps ?_
    | refine Keeps.of_rx (readExp_keeps ?_) ‹_›
    | with_reducible refine readOpnd_keeps ?_
    | refine Keeps.of_rx (readOpnd_keeps ?_) ‹_›
    | split
    | dsimp only

theorem outBlock_keeps {s0 : State} {e : RunEnv} {c : CellRec} {o : Opnd} {r : Rx} (h : Keeps s0 r.s) : Keeps s0 (outBlock e c o r).2.s := by
  unfold outBlock
  try dsimp only
  repeat'
    first
    | with_reducible assumption
    | with_reducible refine readBytes_keeps ?_
    | refine Keeps.of_rx (readBytes_keeps ?_) ‹_›
    | split
    | dsimp only

theorem sideWrite_keeps {s0 : State} {e : RunEnv} {c : CellRec} {cell : Fin 64} {o : Opnd} {v : Nat} {l : List (Nat × Nat)} {r : Rx} (h : Keeps s0 r.s) : Keeps s0 (sideWrite e c cell o v l r).s := by
  unfold sideWrite
  try dsimp only
  repeat'
    first
    | with_reducible assumption
    | with_reducible refine writeBytes_keeps ?_
    | with_reducible refine writeElem_keeps ?_
    | with_reducible refine Rx_count_keeps ?_
    | split
    | dsimp only

theorem padRow_keeps {s0 : State} {e : RunEnv} {c : CellRec} {cell : Fin 64} {o : Opnd} {r : Rx} (h : Keeps s0 r.s) :
    Keeps s0 (padRow e c cell o r).s := by
  unfold padRow
  dsimp only
  split
  · exact Keeps.foldlRx (fun _ _ h => writeElem_keeps h) _ h
  · exact h

theorem putCode_keeps {s0 : State} {e : RunEnv} {c : CellRec} {cell : Fin 64} {o : Opnd} {x : Machine.Num} {r : Rx} (h : Keeps s0 r.s) : Keeps s0 (putCode e c cell o x r).s := by
  unfold putCode
  try dsimp only
  repeat'
    first
    | with_reducible assumption
    | with_reducible refine outBlock_keeps ?_
    | refine Keeps.of_rx (outBlock_keeps ?_) ‹_›
    | with_reducible refine writeElem_keeps ?_
    | with_reducible refine sideWrite_keeps ?_
    | with_reducible refine Rx_count_keeps ?_
    | with_reducible refine padRow_keeps ?_
    | split
    | dsimp only

theorem writeExp_keeps {s0 : State} {e : RunEnv} {o : Opnd} {b : Byte} {r : Rx} (h : Keeps s0 r.s) : Keeps s0 (writeExp e o b r).s := by
  unfold writeExp
  try dsimp only
  repeat'
    first
    | with_reducible assumption
    | with_reducible refine writeByte_keeps ?_
    | split
    | dsimp only

theorem Rx_noteRow_keeps {s0 : State} {r : Rx} {e : RunEnv} {c : CellRec} {row : List Machine.Num} (h : Keeps s0 r.s) : Keeps s0 (Rx.noteRow r e c row).s := by
  unfold Rx.noteRow
  try dsimp only
  repeat'
    first
    | with_reducible assumption
    | split
    | dsimp only

theorem Rx_noteValue_keeps {s0 : State} {r : Rx} {e : RunEnv} {c : CellRec} {o : Opnd} {x : Machine.Num} (h : Keeps s0 r.s) : Keeps s0 (Rx.noteValue r e c o x).s := by
  unfold Rx.noteValue
  try dsimp only
  repeat'
    first
    | with_reducible assumption
    | split
    | dsimp only

theorem putValue_keeps {s0 : State} {e : RunEnv} {c : CellRec} {cell : Fin 64} {o : Opnd} {x : Machine.Num} {r : Rx} (h : Keeps s0 r.s) : Keeps s0 (putValue e c cell o x r).s := by
  unfold putValue
  try dsimp only
  repeat'
    first
    | with_reducible assumption
    | with_reducible refine putCode_keeps ?_
    | with_reducible refine writeExp_keeps ?_
    | with_reducible refine Rx_noteValue_keeps ?_
    | split
    | dsimp only

theorem putCodes_keeps {s0 : State} {e : RunEnv} {c : CellRec} {cell : Fin 64} {a : List (Opnd × Machine.Num)} {a_4 : Rx} (h : Keeps s0 a_4.s) : Keeps s0 (putCodes e c cell a a_4).s := by
  induction a generalizing e c cell a_4 with
  | nil => exact h
  | cons a l ih =>
    unfold putCodes
    try dsimp only
    repeat'
      first
      | with_reducible assumption
      | with_reducible refine ih ?_
      | with_reducible refine putCode_keeps ?_
      | split
      | dsimp only

theorem putRow_keeps {s0 : State} {e : RunEnv} {c : CellRec} {cell : Fin 64} {outs : List Opnd} {vs : List Machine.Num} {r : Rx} (h : Keeps s0 r.s) : Keeps s0 (putRow e c cell outs vs r).s := by
  unfold putRow
  try dsimp only
  repeat'
    first
    | with_reducible assumption
    | with_reducible refine Rx_noteRow_keeps ?_
    | with_reducible refine writeExp_keeps ?_
    | with_reducible refine putCodes_keeps ?_
    | split
    | dsimp only

end Sys2Proof.Laws
end

