-- ==== Sys2Proof/Laws/KeepRunUnit.lean ====
section
/-! SUPPORT. What the operations of RunUnit keep. -/

namespace Sys2Proof.Laws
open Sys2Proof Sys2Proof.Machine

theorem Rx_setAcc_keeps {s0 : State} {r : Rx} {e : RunEnv} {k : Nat} {a : Acc} (h : Keeps s0 r.s) : Keeps s0 (Rx.setAcc r e k a).s := by
  unfold Rx.setAcc
  try dsimp only
  repeat'
    first
    | with_reducible assumption
    | with_reducible refine Rx_mapShell_keeps ?_ (fun _ h => ?_)
    | with_reducible exact id
    | exact ⟨h.1, h.2⟩
    | exact ⟨rfl, rfl⟩
    | dsimp only

theorem Rx_dropAcc_keeps {s0 : State} {r : Rx} {e : RunEnv} {k : Nat} (h : Keeps s0 r.s) : Keeps s0 (Rx.dropAcc r e k).s := by
  unfold Rx.dropAcc
  try dsimp only
  repeat'
    first
    | with_reducible assumption
    | with_reducible refine Rx_mapShell_keeps ?_ (fun _ h => ?_)
    | with_reducible exact id
    | exact ⟨h.1, h.2⟩
    | exact ⟨rfl, rfl⟩
    | dsimp only

theorem product_keeps {s0 : State} {e : RunEnv} {c : CellRec} {cell : Fin 64} {word : Option (Fin 16)} {t : Term} {r : Rx} (h : Keeps s0 r.s) : Keeps s0 (product e c cell word t r).2.s := by
  unfold product
  try dsimp only
  repeat'
    first
    | with_reducible assumption
    | with_reducible refine readOpnd_keeps ?_
    | refine Keeps.of_rx (readOpnd_keeps ?_) ‹_›
    | with_reducible refine readElem_keeps ?_
    | refine Keeps.of_rx (readElem_keeps ?_) ‹_›
    | split
    | dsimp only

theorem products_keeps {s0 : State} {e : RunEnv} {c : CellRec} {cell : Fin 64} {word : Option (Fin 16)} {a : List Term} {a_5 : Rx} (h : Keeps s0 a_5.s) : Keeps s0 (products e c cell word a a_5).2.s := by
  induction a generalizing e c cell word a_5 with
  | nil => exact h
  | cons a l ih =>
    unfold products
    try dsimp only
    repeat'
      first
      | with_reducible assumption
      | with_reducible refine ih ?_
      | with_reducible refine product_keeps ?_
      | refine Keeps.of_rx (product_keeps ?_) ‹_›
      | split
      | dsimp only

theorem Rx_setG32_keeps {s0 : State} {r : Rx} {e : RunEnv} {c : CellRec} {cell : Fin 64} {acc : Fin 32} {k : Nat} {s : Dy} (h : Keeps s0 r.s) : Keeps s0 (Rx.setG32 r e c cell acc k s).s := by
  unfold Rx.setG32
  try dsimp only
  repeat'
    first
    | with_reducible assumption
    | with_reducible refine Rx_mapShell_keeps ?_ (fun _ h => ?_)
    | with_reducible exact id
    | exact ⟨h.1, h.2⟩
    | exact ⟨rfl, rfl⟩
    | split
    | dsimp only

theorem groupTerms_keeps {s0 : State} {e : RunEnv} {c : CellRec} {cell : Fin 64} {acc : Fin 32} {er : Int} {k : Nat} {g : Group} {r : Rx} (h : Keeps s0 r.s) : Keeps s0 (groupTerms e c cell acc er k g r).2.s := by
  unfold groupTerms
  try dsimp only
  repeat'
    first
    | with_reducible assumption
    | with_reducible refine products_keeps ?_
    | refine Keeps.of_rx (products_keeps ?_) ‹_›
    | with_reducible refine Rx_setG32_keeps ?_
    | with_reducible refine readBytes_keeps ?_
    | refine Keeps.of_rx (readBytes_keeps ?_) ‹_›
    | split
    | dsimp only

theorem rowTerms_keeps {s0 : State} {e : RunEnv} {c : CellRec} {cell : Fin 64} {acc : Fin 32} {er : Int} {k : Nat} {a : List Group} {a_7 : Rx} (h : Keeps s0 a_7.s) : Keeps s0 (rowTerms e c cell acc er k a a_7).2.s := by
  induction a generalizing e c cell acc er k a_7 with
  | nil => exact h
  | cons a l ih =>
    unfold rowTerms
    try dsimp only
    repeat'
      first
      | with_reducible assumption
      | with_reducible refine ih ?_
      | with_reducible refine groupTerms_keeps ?_
      | refine Keeps.of_rx (groupTerms_keeps ?_) ‹_›
      | split
      | dsimp only

theorem Rx_overflow_keeps {s0 : State} {r : Rx} {e : RunEnv} {c : CellRec} {o : Bool} (h : Keeps s0 r.s) : Keeps s0 (Rx.overflow r e c o).s := by
  unfold Rx.overflow
  try dsimp only
  repeat'
    first
    | with_reducible assumption
    | with_reducible refine Rx_count_keeps ?_
    | split
    | dsimp only

theorem channelEntry_keeps {s0 : State} {e : RunEnv} {c : CellRec} {r : Rx} (h : Keeps s0 r.s) : Keeps s0 (channelEntry e c r).2.s := by
  unfold channelEntry
  try dsimp only
  repeat'
    first
    | with_reducible assumption
    | split
    | with_reducible refine Keeps.foldl (fun _ _ _ => ?_) _ ?_
    | with_reducible refine Keeps.foldl2 (fun _ _ _ => ?_) _ ?_
    | dsimp only

theorem doRow_keeps {s0 : State} {e : RunEnv} {c : CellRec} {cell : Fin 64} {ch : Option W32} {row : Row} {r : Rx} (h : Keeps s0 r.s) : Keeps s0 (doRow e c cell ch row r).s := by
  unfold doRow
  try dsimp only
  repeat'
    first
    | with_reducible assumption
    | with_reducible refine readExp_keeps ?_
    | refine Keeps.of_rx (readExp_keeps ?_) ‹_›
    | with_reducible refine rowTerms_keeps ?_
    | refine Keeps.of_rx (rowTerms_keeps ?_) ‹_›
    | with_reducible refine Rx_setAcc_keeps ?_
    | with_reducible refine putValue_keeps ?_
    | with_reducible refine Rx_overflow_keeps ?_
    | with_reducible refine Rx_dropAcc_keeps ?_
    | split
    | dsimp only

theorem doRows_keeps {s0 : State} {e : RunEnv} {c : CellRec} {cell : Fin 64} {ch : Option W32} {a : List Row} {a_5 : Rx} (h : Keeps s0 a_5.s) : Keeps s0 (doRows e c cell ch a a_5).s := by
  induction a generalizing e c cell ch a_5 with
  | nil => exact h
  | cons a l ih =>
    unfold doRows
    try dsimp only
    repeat'
      first
      | with_reducible assumption
      | with_reducible refine ih ?_
      | with_reducible refine doRow_keeps ?_
      | split
      | dsimp only

theorem doChannel_keeps {s0 : State} {e : RunEnv} {c : CellRec} {cell : Fin 64} {rows : List Row} {r : Rx} (h : Keeps s0 r.s) : Keeps s0 (doChannel e c cell rows r).s := by
  unfold doChannel
  try dsimp only
  repeat'
    first
    | with_reducible assumption
    | with_reducible refine channelEntry_keeps ?_
    | refine Keeps.of_rx (channelEntry_keeps ?_) ‹_›
    | with_reducible refine doRows_keeps ?_
    | split
    | dsimp only

theorem doHop_keeps {s0 : State} {e : RunEnv} {c : CellRec} {cell : Fin 64} {a : Fin 32} {out : Src} {r : Rx} (h : Keeps s0 r.s) : Keeps s0 (doHop e c cell a out r).s := by
  unfold doHop
  try dsimp only
  repeat'
    first
    | with_reducible assumption
    | with_reducible refine Rx_overflow_keeps ?_
    | with_reducible refine Rx_dropAcc_keeps ?_
    | with_reducible refine Rx_count_keeps ?_
    | with_reducible refine writeElem_keeps ?_
    | split
    | dsimp only

theorem doCombine_keeps {s0 : State} {e : RunEnv} {cell : Fin 64} {a : Fin 32} {from_ : List (Fin 64 × Fin 32)} {r : Rx}
    (h : Keeps s0 r.s) : Keeps s0 (doCombine e cell a from_ r).s :=
  Keeps.foldlRx (fun _ _ h => Rx_setAcc_keeps (Rx_dropAcc_keeps h)) _ h

theorem readNums_keeps {s0 : State} {e : RunEnv} {c : CellRec} {cell : Fin 64} {fmt : Nat} {a : List Src} {a_5 : Rx} (h : Keeps s0 a_5.s) : Keeps s0 (readNums e c cell fmt a a_5).2.s := by
  induction a generalizing e c cell fmt a_5 with
  | nil => exact h
  | cons a l ih =>
    unfold readNums
    try dsimp only
    repeat'
      first
      | with_reducible assumption
      | with_reducible refine ih ?_
      | with_reducible refine readValue_keeps ?_
      | refine Keeps.of_rx (readValue_keeps ?_) ‹_›
      | split
      | dsimp only

theorem doMerge_keeps {s0 : State} {e : RunEnv} {c : CellRec} {cell : Fin 64} {a : Fin 32} {ins : List Src} {r : Rx} (h : Keeps s0 r.s) : Keeps s0 (doMerge e c cell a ins r).s := by
  unfold doMerge
  try dsimp only
  repeat'
    first
    | with_reducible assumption
    | with_reducible refine readNums_keeps ?_
    | refine Keeps.of_rx (readNums_keeps ?_) ‹_›
    | with_reducible refine Rx_overflow_keeps ?_
    | with_reducible refine Rx_setAcc_keeps ?_
    | split
    | dsimp only

theorem doBuild_keeps {s0 : State} {e : RunEnv} {c : CellRec} {cell : Fin 64} {a : Opnd} {j : Nat} {r : Rx} (h : Keeps s0 r.s) : Keeps s0 (doBuild e c cell a j r).s := by
  unfold doBuild
  try dsimp only
  repeat'
    first
    | with_reducible assumption
    | with_reducible refine readOpnd_keeps ?_
    | refine Keeps.of_rx (readOpnd_keeps ?_) ‹_›
    | with_reducible refine Rx_mapShell_keeps ?_ (fun _ h => ?_)
    | with_reducible exact id
    | exact ⟨h.1, h.2⟩
    | exact ⟨wf_put _ _ h.1, h.2⟩
    | exact ⟨h.1, wf_put _ _ h.2⟩
    | exact ⟨rfl, rfl⟩
    | split
    | dsimp only

theorem readValues_keeps {s0 : State} {e : RunEnv} {c : CellRec} {cell : Fin 64} {fmt : Nat} {a : List Opnd} {a_5 : Rx} (h : Keeps s0 a_5.s) : Keeps s0 (readValues e c cell fmt a a_5).2.s := by
  induction a generalizing e c cell fmt a_5 with
  | nil => exact h
  | cons a l ih =>
    unfold readValues
    try dsimp only
    repeat'
      first
      | with_reducible assumption
      | with_reducible refine ih ?_
      | with_reducible refine readValue_keeps ?_
      | refine Keeps.of_rx (readValue_keeps ?_) ‹_›
      | split
      | dsimp only

theorem doConvert_keeps {s0 : State} {e : RunEnv} {c : CellRec} {cell : Fin 64} {row : List (Opnd × Opnd)} {r : Rx} (h : Keeps s0 r.s) : Keeps s0 (doConvert e c cell row r).s := by
  unfold doConvert
  try dsimp only
  repeat'
    first
    | with_reducible assumption
    | with_reducible refine readValues_keeps ?_
    | refine Keeps.of_rx (readValues_keeps ?_) ‹_›
    | with_reducible refine putRow_keeps ?_
    | split
    | dsimp only

theorem readElems_keeps {s0 : State} {e : RunEnv} {c : CellRec} {cell : Fin 64} {k : Nat} {a : List Opnd} {a_5 : Rx} (h : Keeps s0 a_5.s) : Keeps s0 (readElems e c cell k a a_5).2.s := by
  induction a generalizing e c cell k a_5 with
  | nil => exact h
  | cons a l ih =>
    unfold readElems
    try dsimp only
    repeat'
      first
      | with_reducible assumption
      | with_reducible refine ih ?_
      | with_reducible refine readValue_keeps ?_
      | refine Keeps.of_rx (readValue_keeps ?_) ‹_›
      | split
      | dsimp only

theorem elemRow_keeps {s0 : State} {e : RunEnv} {c : CellRec} {cell : Fin 64} {op : Elem} {a : List (List Opnd × Opnd)} {a_5 : Rx} (h : Keeps s0 a_5.s) : Keeps s0 (elemRow e c cell op a a_5).2.s := by
  induction a generalizing e c cell op a_5 with
  | nil => exact h
  | cons a l ih =>
    unfold elemRow
    try dsimp only
    repeat'
      first
      | with_reducible assumption
      | with_reducible refine ih ?_
      | with_reducible refine readElems_keeps ?_
      | refine Keeps.of_rx (readElems_keeps ?_) ‹_›
      | split
      | dsimp only

theorem doElem_keeps {s0 : State} {e : RunEnv} {c : CellRec} {cell : Fin 64} {op : Elem} {row : List (List Opnd × Opnd)} {r : Rx} (h : Keeps s0 r.s) : Keeps s0 (doElem e c cell op row r).s := by
  unfold doElem
  try dsimp only
  repeat'
    first
    | with_reducible assumption
    | with_reducible refine elemRow_keeps ?_
    | refine Keeps.of_rx (elemRow_keeps ?_) ‹_›
    | with_reducible refine putRow_keeps ?_
    | split
    | dsimp only

theorem putWritten_keeps {s0 : State} {e : RunEnv} {c : CellRec} {cell : Fin 64} {out : Src} {w : Written} {r : Rx} (h : Keeps s0 r.s) : Keeps s0 (putWritten e c cell out w r).s := by
  unfold putWritten
  try dsimp only
  repeat'
    first
    | with_reducible assumption
    | with_reducible refine writeElem_keeps ?_
    | with_reducible refine Rx_count_keeps ?_
    | split
    | dsimp only

theorem doTrans_keeps {s0 : State} {e : RunEnv} {c : CellRec} {cell : Fin 64} {f : Trans} {x : Opnd} {out : Opnd} {r : Rx} (h : Keeps s0 r.s) : Keeps s0 (doTrans e c cell f x out r).s := by
  unfold doTrans
  try dsimp only
  repeat'
    first
    | with_reducible assumption
    | with_reducible refine readElem_keeps ?_
    | refine Keeps.of_rx (readElem_keeps ?_) ‹_›
    | with_reducible refine readValue_keeps ?_
    | refine Keeps.of_rx (readValue_keeps ?_) ‹_›
    | with_reducible refine putWritten_keeps ?_
    | split
    | dsimp only

theorem putAll_keeps {s0 : State} {e : RunEnv} {c : CellRec} {cell : Fin 64} {a : List (Opnd × Written)} {a_4 : Rx} (h : Keeps s0 a_4.s) : Keeps s0 (putAll e c cell a a_4).s := by
  induction a generalizing e c cell a_4 with
  | nil => exact h
  | cons a l ih =>
    unfold putAll
    try dsimp only
    repeat'
      first
      | with_reducible assumption
      | with_reducible refine ih ?_
      | with_reducible refine putWritten_keeps ?_
      | split
      | dsimp only

theorem doSoftmax_keeps {s0 : State} {e : RunEnv} {c : CellRec} {cell : Fin 64} {row : List (Opnd × Opnd)} {r : Rx} (h : Keeps s0 r.s) : Keeps s0 (doSoftmax e c cell row r).s := by
  unfold doSoftmax
  try dsimp only
  repeat'
    first
    | with_reducible assumption
    | with_reducible refine readValues_keeps ?_
    | refine Keeps.of_rx (readValues_keeps ?_) ‹_›
    | with_reducible refine putAll_keeps ?_
    | split
    | dsimp only

theorem doNormalise_keeps {s0 : State} {e : RunEnv} {c : CellRec} {cell : Fin 64} {row : List (Opnd × Opnd × Opnd)} {eps : Src} {r : Rx} (h : Keeps s0 r.s) : Keeps s0 (doNormalise e c cell row eps r).s := by
  unfold doNormalise
  try dsimp only
  repeat'
    first
    | with_reducible assumption
    | with_reducible refine readValues_keeps ?_
    | refine Keeps.of_rx (readValues_keeps ?_) ‹_›
    | with_reducible refine readValue_keeps ?_
    | refine Keeps.of_rx (readValue_keeps ?_) ‹_›
    | with_reducible refine putAll_keeps ?_
    | split
    | dsimp only

theorem doReduce_keeps {s0 : State} {e : RunEnv} {c : CellRec} {cell : Fin 64} {mx : Bool} {ins : List Opnd} {out : Opnd} {r : Rx} (h : Keeps s0 r.s) : Keeps s0 (doReduce e c cell mx ins out r).s := by
  unfold doReduce
  try dsimp only
  repeat'
    first
    | with_reducible assumption
    | with_reducible refine readValues_keeps ?_
    | refine Keeps.of_rx (readValues_keeps ?_) ‹_›
    | with_reducible refine putRow_keeps ?_
    | with_reducible refine Rx_overflow_keeps ?_
    | with_reducible refine Rx_dropAcc_keeps ?_
    | with_reducible refine Rx_setAcc_keeps ?_
    | split
    | with_reducible refine Keeps.foldl (fun _ _ _ => ?_) _ ?_
    | dsimp only

theorem doMoves_keeps {s0 : State} {e : RunEnv} {a : List ((Fin 16 × Nat) × Fin 16 × Nat)} {a_2 : Rx} (h : Keeps s0 a_2.s) : Keeps s0 (doMoves e a a_2).s := by
  induction a generalizing e a_2 with
  | nil => exact h
  | cons a l ih =>
    unfold doMoves
    try dsimp only
    repeat'
      first
      | with_reducible assumption
      | with_reducible refine ih ?_
      | with_reducible refine readBytes_keeps ?_
      | refine Keeps.of_rx (readBytes_keeps ?_) ‹_›
      | with_reducible refine writeBytes_keeps ?_
      | split
      | dsimp only

theorem passTake_keeps {s0 : State} {e : RunEnv} {c : CellRec} {cell : Fin 64} {stroke : Nat} {b : Byte} {side : Nat} {r : Rx} (h : Keeps s0 r.s) : Keeps s0 (passTake e c cell stroke b side r).2.s := by
  unfold passTake
  try dsimp only
  repeat'
    first
    | with_reducible assumption
    | with_reducible refine readBytes_keeps ?_
    | refine Keeps.of_rx (readBytes_keeps ?_) ‹_›
    | with_reducible refine freeBytes_keeps ?_
    | refine Keeps.of_eq (freeBytes_keeps ?_) ‹_›
    | split
    | refine Keeps.of_eq ?_ ‹_ = (_, _)›
    | dsimp only

theorem passPut_keeps {s0 : State} {e : RunEnv} {c : CellRec} {cell : Fin 64} {stroke : Nat} {l : List Byte} {b : Byte} {side : Nat} {r : Rx} (h : Keeps s0 r.s) : Keeps s0 (passPut e c cell stroke l b side r).s := by
  unfold passPut
  try dsimp only
  repeat'
    first
    | with_reducible assumption
    | with_reducible refine Rx_mapShell_keeps ?_ (fun _ h => ?_)
    | with_reducible refine writeBytes_keeps ?_
    | with_reducible exact id
    | exact ⟨h.1, h.2⟩
    | exact ⟨wf_put _ _ h.1, h.2⟩
    | exact ⟨h.1, wf_put _ _ h.2⟩
    | exact ⟨rfl, rfl⟩
    | split
    | dsimp only

theorem passPuts_keeps {s0 : State} {e : RunEnv} {c : CellRec} {cell : Fin 64} {stroke : Nat} {l : List Byte} {a : List (Byte × Nat)} {a_6 : Rx} (h : Keeps s0 a_6.s) : Keeps s0 (passPuts e c cell stroke l a a_6).s := by
  induction a generalizing e c cell stroke l a_6 with
  | nil => exact h
  | cons a l ih =>
    unfold passPuts
    try dsimp only
    repeat'
      first
      | with_reducible assumption
      | with_reducible refine ih ?_
      | with_reducible refine passPut_keeps ?_
      | split
      | dsimp only

theorem doPass_keeps {s0 : State} {e : RunEnv} {c : CellRec} {cell : Fin 64} {stroke : Nat} {r : Rx} (h : Keeps s0 r.s) : Keeps s0 (doPass e c cell stroke r).s := by
  unfold doPass
  try dsimp only
  repeat'
    first
    | with_reducible assumption
    | with_reducible refine passTake_keeps ?_
    | refine Keeps.of_rx (passTake_keeps ?_) ‹_›
    | with_reducible refine passPuts_keeps ?_
    | split
    | dsimp only

theorem putLine_keeps {s0 : State} {e : RunEnv} {c : CellRec} {cell : Fin 64} {outs : List Src} {vs : List Machine.Num} {r : Rx} (h : Keeps s0 r.s) : Keeps s0 (putLine e c cell outs vs r).s := by
  unfold putLine
  try dsimp only
  repeat'
    first
    | with_reducible assumption
    | with_reducible refine putRow_keeps ?_
    | dsimp only

theorem doButterfly_keeps {s0 : State} {e : RunEnv} {c : CellRec} {cell : Fin 64} {a : Src × Src} {b : Src × Src} {w : Src × Src} {sum : Src × Src} {diff : Src × Src} {r : Rx} (h : Keeps s0 r.s) : Keeps s0 (doButterfly e c cell a b w sum diff r).s := by
  unfold doButterfly
  try dsimp only
  repeat'
    first
    | with_reducible assumption
    | with_reducible refine readNums_keeps ?_
    | refine Keeps.of_rx (readNums_keeps ?_) ‹_›
    | with_reducible refine putLine_keeps ?_
    | split
    | dsimp only

theorem doGather_keeps {s0 : State} {e : RunEnv} {c : CellRec} {cell : Fin 64} {scatter : Bool} {wide : Bool} {index : Src} {data : Fin 16 × Nat} {rowFeed : Fin 16} {bytes : Nat} {r : Rx} (h : Keeps s0 r.s) : Keeps s0 (doGather e c cell scatter wide index data rowFeed bytes r).s := by
  unfold doGather
  try dsimp only
  repeat'
    first
    | with_reducible assumption
    | with_reducible refine readElem_keeps ?_
    | refine Keeps.of_rx (readElem_keeps ?_) ‹_›
    | with_reducible refine readBytes_keeps ?_
    | refine Keeps.of_rx (readBytes_keeps ?_) ‹_›
    | with_reducible refine writeBytes_keeps ?_
    | split
    | dsimp only

theorem addNoise_keeps {s0 : State} {e : RunEnv} {a : List (Nat × Machine.Num)} {a_2 : Rx} (h : Keeps s0 a_2.s) : Keeps s0 (addNoise e a a_2).2.s := by
  induction a generalizing e a_2 with
  | nil => exact h
  | cons a l ih =>
    unfold addNoise
    try dsimp only
    repeat'
      first
      | with_reducible assumption
      | with_reducible refine ih ?_
      | split
      | dsimp only

theorem putIndices_keeps {s0 : State} {e : RunEnv} {c : CellRec} {cell : Fin 64} {a : List (Src × Nat)} {a_4 : Rx} (h : Keeps s0 a_4.s) : Keeps s0 (putIndices e c cell a a_4).s := by
  induction a generalizing e c cell a_4 with
  | nil => exact h
  | cons a l ih =>
    unfold putIndices
    try dsimp only
    repeat'
      first
      | with_reducible assumption
      | with_reducible refine ih ?_
      | with_reducible refine writeElem_keeps ?_
      | split
      | dsimp only

theorem doTopk_keeps {s0 : State} {e : RunEnv} {c : CellRec} {cell : Fin 64} {sample : Bool} {scores : List Src} {idx : List Src} {outs : List Src} {r : Rx} (h : Keeps s0 r.s) : Keeps s0 (doTopk e c cell sample scores idx outs r).s := by
  unfold doTopk
  try dsimp only
  repeat'
    first
    | with_reducible assumption
    | with_reducible refine readNums_keeps ?_
    | refine Keeps.of_rx (readNums_keeps ?_) ‹_›
    | with_reducible refine addNoise_keeps ?_
    | refine Keeps.of_rx (addNoise_keeps ?_) ‹_›
    | with_reducible refine putIndices_keeps ?_
    | with_reducible refine putLine_keeps ?_
    | split
    | dsimp only

theorem optRsqrt_keeps {s0 : State} {e : RunEnv} {c : CellRec} {cell : Fin 64} {k : Int} {x : Machine.Num} {r : Rx} (h : Keeps s0 r.s) : Keeps s0 (optRsqrt e c cell k x r).2.s := by
  unfold optRsqrt
  try dsimp only
  repeat'
    first
    | with_reducible assumption
    | with_reducible refine Rx_count_keeps ?_
    | split
    | dsimp only

theorem optRsqrts_keeps {s0 : State} {e : RunEnv} {c : CellRec} {cell : Fin 64} {k : Int} {a : List Machine.Num} {a_5 : Rx} (h : Keeps s0 a_5.s) : Keeps s0 (optRsqrts e c cell k a a_5).2.s := by
  induction a generalizing e c cell k a_5 with
  | nil => exact h
  | cons a l ih =>
    unfold optRsqrts
    try dsimp only
    repeat'
      first
      | with_reducible assumption
      | with_reducible refine ih ?_
      | with_reducible refine optRsqrt_keeps ?_
      | refine Keeps.of_rx (optRsqrt_keeps ?_) ‹_›
      | split
      | dsimp only

theorem doOptimise_keeps {s0 : State} {e : RunEnv} {c : CellRec} {cell : Fin 64} {row : List OptElem} {r : Rx} (h : Keeps s0 r.s) : Keeps s0 (doOptimise e c cell row r).s := by
  unfold doOptimise
  try dsimp only
  repeat'
    first
    | with_reducible assumption
    | with_reducible refine readValues_keeps ?_
    | refine Keeps.of_rx (readValues_keeps ?_) ‹_›
    | with_reducible refine optRsqrts_keeps ?_
    | refine Keeps.of_rx (optRsqrts_keeps ?_) ‹_›
    | with_reducible refine putRow_keeps ?_
    | split
    | dsimp only

theorem doSpin_keeps {s0 : State} {e : RunEnv} {c : CellRec} {cell : Fin 64} {scale : Src} {row : List Opnd} {r : Rx} (h : Keeps s0 r.s) : Keeps s0 (doSpin e c cell scale row r).s := by
  unfold doSpin
  try dsimp only
  repeat'
    first
    | with_reducible assumption
    | with_reducible refine readValue_keeps ?_
    | refine Keeps.of_rx (readValue_keeps ?_) ‹_›
    | with_reducible refine putRow_keeps ?_
    | split
    | dsimp only

theorem doItem_keeps {s0 : State} {e : RunEnv} {i : WorkItem} {r : Rx} (h : Keeps s0 r.s) : Keeps s0 (doItem e i r).s := by
  unfold doItem
  try dsimp only
  repeat'
    first
    | with_reducible assumption
    | with_reducible refine doChannel_keeps ?_
    | with_reducible refine doCombine_keeps ?_
    | with_reducible refine doHop_keeps ?_
    | with_reducible refine doMerge_keeps ?_
    | with_reducible refine doBuild_keeps ?_
    | with_reducible refine doConvert_keeps ?_
    | with_reducible refine doElem_keeps ?_
    | with_reducible refine doTrans_keeps ?_
    | with_reducible refine doSoftmax_keeps ?_
    | with_reducible refine doNormalise_keeps ?_
    | with_reducible refine doReduce_keeps ?_
    | with_reducible refine doPass_keeps ?_
    | with_reducible refine doMoves_keeps ?_
    | with_reducible refine doButterfly_keeps ?_
    | with_reducible refine doGather_keeps ?_
    | with_reducible refine doOptimise_keeps ?_
    | with_reducible refine doSpin_keeps ?_
    | with_reducible refine doTopk_keeps ?_
    | split
    | dsimp only

theorem doItems_keeps {s0 : State} {e : RunEnv} {a : List WorkItem} {a_2 : Rx} (h : Keeps s0 a_2.s) : Keeps s0 (doItems e a a_2).s := by
  induction a generalizing e a_2 with
  | nil => exact h
  | cons a l ih =>
    unfold doItems
    try dsimp only
    repeat'
      first
      | with_reducible assumption
      | with_reducible refine ih ?_
      | with_reducible refine doItem_keeps ?_
      | split
      | dsimp only

theorem clearSide_keeps {s0 : State} {e : RunEnv} {a : List (Fin 64 × Opnd)} {a_2 : Rx} (h : Keeps s0 a_2.s) : Keeps s0 (clearSide e a a_2).s := by
  induction a generalizing e a_2 with
  | nil => exact h
  | cons a l ih =>
    unfold clearSide
    try dsimp only
    repeat'
      first
      | with_reducible assumption
      | with_reducible refine ih ?_
      | with_reducible refine writeBytes_keeps ?_
      | split
      | dsimp only

theorem doWork_keeps {s0 : State} {e : RunEnv} {items : List WorkItem} {r : Rx} (h : Keeps s0 r.s) : Keeps s0 (doWork e items r).s := by
  unfold doWork
  try dsimp only
  repeat'
    first
    | with_reducible assumption
    | with_reducible refine doItems_keeps ?_
    | with_reducible refine clearSide_keeps ?_
    | dsimp only

end Sys2Proof.Laws
end

