-- ==== Sys2Proof/Laws/KeepFabric.lean ====
section
/-! SUPPORT. What the operations of Fabric keep. -/

namespace Sys2Proof.Laws
open Sys2Proof Sys2Proof.Machine

theorem countStrokes_keeps {s0 : State} {i : ShellId} {n : Nat} {s : State} (h : Keeps s0 s) : Keeps s0 (countStrokes i n s) := by
  unfold countStrokes
  try dsimp only
  repeat'
    first
    | with_reducible assumption
    | with_reducible refine setShell_keeps ?_ (fun _ h => ?_)
    | with_reducible refine State_setRun_keeps ?_
    | with_reducible refine strHit_keeps ?_
    | with_reducible exact id
    | exact ⟨h.1, h.2⟩
    | exact ⟨rfl, rfl⟩
    | split
    | with_reducible refine shellsOk_upd (fun _ h => ?_)
    | with_reducible refine Keeps.upd ?_ rfl (fun _ h => h) ?_ ?_ ?_

theorem wordStrokes_keeps {s0 : State} {i : ShellId} {n : Nat} {s : State} (h : Keeps s0 s) : Keeps s0 (wordStrokes i n s).2 := by
  unfold wordStrokes
  try dsimp only
  repeat'
    first
    | with_reducible assumption
    | with_reducible refine setShell_keeps ?_ (fun _ h => ?_)
    | with_reducible refine countStrokes_keeps ?_
    | with_reducible exact id
    | exact ⟨h.1, h.2⟩
    | exact ⟨rfl, rfl⟩
    | dsimp only
    | split

theorem stroke_keeps {s0 : State} {i : ShellId} {f : StrokeFault} {s : State} (h : Keeps s0 s) : Keeps s0 (stroke i f s) := by
  unfold stroke
  try dsimp only
  repeat'
    first
    | with_reducible assumption
    | with_reducible refine setShell_keeps ?_ (fun _ h => ?_)
    | with_reducible refine State_arbServed_keeps ?_
    | with_reducible refine countStrokes_keeps ?_
    | with_reducible refine strokeFault_keeps ?_
    | with_reducible exact id
    | exact ⟨h.1, h.2⟩
    | exact ⟨rfl, rfl⟩
    | split

theorem Shell_next_keeps {x : Shell} (h : ShellOk x) : ShellOk (Shell.next x) := by
  unfold Shell.next
  try dsimp only
  repeat'
    first
    | with_reducible assumption
    | with_reducible exact id
    | exact ⟨h.1, h.2⟩
    | exact ⟨rfl, rfl⟩

theorem freeDecoders_keeps {s0 : State} {mine : DecReq → Bool} {s : State} (h : Keeps s0 s) : Keeps s0 (freeDecoders mine s) := by
  unfold freeDecoders
  try dsimp only
  repeat'
    first
    | with_reducible assumption
    | with_reducible exact id
    | with_reducible refine memOk_mk ?_ ?_
    | split
    | with_reducible refine shellsOk_map (fun _ h => ?_)
    | with_reducible exact wf_filter _
    | with_reducible refine Keeps.upd ?_ rfl (fun _ h => h) ?_ ?_ ?_

theorem askDecoder_keeps {s0 : State} {i : ShellId} {ag : Fin 16} {stream : Bool} {h_3 : Fin 16} {s : State} (h : Keeps s0 s) : Keeps s0 (askDecoder i ag stream h_3 s) := by
  unfold askDecoder
  try dsimp only
  repeat'
    first
    | with_reducible assumption
    | with_reducible exact id
    | with_reducible refine memOk_mk ?_ ?_
    | with_reducible refine Keeps.upd ?_ rfl (fun _ h => h) ?_ ?_ ?_

theorem Shell_keepStreams_keeps {x : Shell} {ags : List (Fin 16)} (h : ShellOk x) : ShellOk (Shell.keepStreams x ags) := by
  unfold Shell.keepStreams
  try dsimp only
  repeat'
    first
    | with_reducible assumption
    | with_reducible exact id
    | exact ⟨h.1, h.2⟩
    | exact ⟨rfl, rfl⟩
    | split
    | with_reducible refine Keeps.foldl (fun _ _ _ => ?_) _ ?_

theorem beginRun_keeps {s0 : State} {i : ShellId} {s : State} (h : Keeps s0 s) : Keeps s0 (beginRun i s) := by
  unfold beginRun
  try dsimp only
  repeat'
    first
    | with_reducible assumption
    | with_reducible refine setShell_keeps ?_ (fun _ h => ?_)
    | with_reducible refine freeDecoders_keeps ?_
    | with_reducible exact Shell_keepStreams_keeps ‹_›
    | with_reducible refine Shell_keepStreams_keeps ?_
    | with_reducible refine askDecoder_keeps ?_
    | with_reducible exact id
    | split
    | with_reducible refine Keeps.foldl (fun _ _ _ => ?_) _ ?_

theorem State_goOn_keeps {s0 s : State} {i : ShellId} {f : Shell → Shell} (h : Keeps s0 s) (hf : ∀ x : Shell, ShellOk x → ShellOk (f x)) :
    Keeps s0 (s.goOn i f) := beginRun_keeps (setShell_keeps h hf)

theorem wordAdd_keeps {s0 : State} {l : LaneId} {w : W64} {s : State} (h : Keeps s0 s) : Keeps s0 (wordAdd l w s) := by
  unfold wordAdd
  try dsimp only
  repeat'
    first
    | with_reducible assumption
    | with_reducible refine State_tallyAdd_keeps ?_
    | split

theorem seta_keeps {s0 : State} {i : ShellId} {s : State} (h : Keeps s0 s) : Keeps s0 (seta i s) := by
  unfold seta
  try dsimp only
  repeat'
    first
    | with_reducible assumption
    | with_reducible refine wordStrokes_keeps ?_
    | refine Keeps.of_eq (wordStrokes_keeps ?_) ‹_›
    | with_reducible refine wordAdd_keeps ?_
    | with_reducible refine State_goOn_keeps ?_ (fun _ h => ?_)
    | with_reducible refine freeDecoders_keeps ?_
    | with_reducible exact Shell_next_keeps ‹_›
    | with_reducible refine Shell_next_keeps ?_
    | with_reducible exact id
    | exact ⟨h.1, h.2⟩
    | exact ⟨(Shell_next_keeps h).1, (Shell_next_keeps h).2⟩
    | exact ⟨rfl, rfl⟩
    | split
    | dsimp only
    | refine Keeps.of_eq ?_ ‹_ = (_, _)›

theorem setw_keeps {s0 : State} {i : ShellId} {s : State} (h : Keeps s0 s) : Keeps s0 (setw i s) := by
  unfold setw
  try dsimp only
  repeat'
    first
    | with_reducible assumption
    | with_reducible refine wordStrokes_keeps ?_
    | refine Keeps.of_eq (wordStrokes_keeps ?_) ‹_›
    | with_reducible refine wordAdd_keeps ?_
    | with_reducible refine State_goOn_keeps ?_ (fun _ h => ?_)
    | with_reducible exact Shell_next_keeps ‹_›
    | with_reducible refine Shell_next_keeps ?_
    | with_reducible exact id
    | exact ⟨h.1, h.2⟩
    | exact ⟨(Shell_next_keeps h).1, (Shell_next_keeps h).2⟩
    | exact ⟨rfl, rfl⟩
    | split
    | dsimp only
    | refine Keeps.of_eq ?_ ‹_ = (_, _)›

theorem loop_keeps {s0 : State} {i : ShellId} {s : State} (h : Keeps s0 s) : Keeps s0 (loop i s) := by
  unfold loop
  try dsimp only
  repeat'
    first
    | with_reducible assumption
    | with_reducible exact Shell_next_keeps ‹_›
    | with_reducible refine Shell_next_keeps ?_
    | with_reducible refine wordStrokes_keeps ?_
    | refine Keeps.of_eq (wordStrokes_keeps ?_) ‹_›
    | with_reducible refine wordAdd_keeps ?_
    | with_reducible refine State_goOn_keeps ?_ (fun _ h => ?_)
    | with_reducible exact id
    | exact ⟨h.1, h.2⟩
    | exact ⟨(Shell_next_keeps h).1, (Shell_next_keeps h).2⟩
    | exact ⟨rfl, rfl⟩
    | split
    | dsimp only
    | refine Keeps.of_eq ?_ ‹_ = (_, _)›

theorem mark_keeps {s0 : State} {i : ShellId} {s : State} (h : Keeps s0 s) : Keeps s0 (mark i s) := by
  unfold mark
  try dsimp only
  repeat'
    first
    | with_reducible assumption
    | with_reducible refine wordStrokes_keeps ?_
    | refine Keeps.of_eq (wordStrokes_keeps ?_) ‹_›
    | with_reducible refine wordAdd_keeps ?_
    | with_reducible refine State_goOn_keeps ?_ (fun _ h => ?_)
    | with_reducible exact Shell_next_keeps ‹_›
    | with_reducible refine Shell_next_keeps ?_
    | split
    | dsimp only
    | refine Keeps.of_eq ?_ ‹_ = (_, _)›

theorem waitSatisfied_keeps {s0 : State} {i : ShellId} {s : State} (h : Keeps s0 s) : Keeps s0 (waitSatisfied i s) := by
  unfold waitSatisfied
  try dsimp only
  repeat'
    first
    | with_reducible assumption
    | with_reducible refine State_goOn_keeps ?_ (fun _ h => ?_)
    | with_reducible exact id
    | exact ⟨h.1, h.2⟩
    | exact ⟨rfl, rfl⟩
    | split

theorem endWord_keeps {s0 : State} {i : ShellId} {s : State} (h : Keeps s0 s) : Keeps s0 (endWord i s) := by
  unfold endWord
  split
  · dsimp only
    split
    · split
      · have hw := Keeps.of_eq (wordStrokes_keeps h) ‹_›
        exact wordAdd_keeps (State_setRun_keeps (setShell_keeps (freeDecoders_keeps hw) fun _ hx => ⟨hx.1, hx.2⟩))
      · exact Keeps.of_eq (wordStrokes_keeps h) ‹_›
    · exact h
  · exact h

theorem rig_keeps {s0 : State} {i : ShellId} {s : State} (h : Keeps s0 s) : Keeps s0 (rig i s) := by
  unfold rig
  try dsimp only
  repeat'
    first
    | with_reducible assumption
    | with_reducible refine fenceShell_keeps ?_
    | with_reducible refine wordStrokes_keeps ?_
    | refine Keeps.of_eq (wordStrokes_keeps ?_) ‹_›
    | with_reducible refine wordAdd_keeps ?_
    | with_reducible refine State_goOn_keeps ?_ (fun _ h => ?_)
    | with_reducible exact Shell_next_keeps ‹_›
    | with_reducible refine Shell_next_keeps ?_
    | with_reducible exact id
    | exact ⟨h.1, h.2⟩
    | exact ⟨(Shell_next_keeps h).1, (Shell_next_keeps h).2⟩
    | exact ⟨rfl, rfl⟩
    | split
    | dsimp only
    | refine Keeps.of_eq ?_ ‹_ = (_, _)›

theorem ldrig_keeps {s0 : State} {i : ShellId} {s : State} (h : Keeps s0 s) : Keeps s0 (ldrig i s) := by
  unfold ldrig
  try dsimp only
  repeat'
    first
    | with_reducible assumption
    | with_reducible refine wordStrokes_keeps ?_
    | refine Keeps.of_eq (wordStrokes_keeps ?_) ‹_›
    | with_reducible refine wordAdd_keeps ?_
    | with_reducible refine State_goOn_keeps ?_ (fun _ h => ?_)
    | with_reducible exact Shell_next_keeps ‹_›
    | with_reducible refine Shell_next_keeps ?_
    | with_reducible exact id
    | exact ⟨h.1, h.2⟩
    | exact ⟨(Shell_next_keeps h).1, (Shell_next_keeps h).2⟩
    | exact ⟨rfl, rfl⟩
    | split
    | dsimp only
    | refine Keeps.of_eq ?_ ‹_ = (_, _)›

theorem heatUnits_keeps {s0 : State} {l : LaneId} {q : W32} {unit : Nat} {a : Nat} {a_4 : State} (h : Keeps s0 a_4) : Keeps s0 (heatUnits l q unit a a_4).2 := by
  induction a generalizing l q unit a_4 with
  | zero => exact h
  | succ n ih =>
    unfold heatUnits
    try dsimp only
    repeat'
      first
      | with_reducible assumption
      | with_reducible refine ih ?_
      | refine Keeps.of_eq (ih ?_) ‹_›
      | with_reducible refine heatRead_keeps ?_
      | refine Keeps.of_eq (heatRead_keeps ?_) ‹_›
      | split
      | dsimp only
      | refine Keeps.of_eq ?_ ‹_ = (_, _)›

theorem addTo_keeps {s0 : State} {l : LaneId} {a : Option (Byte × Nat)} {n : Nat} {s : State} (h : Keeps s0 s) : Keeps s0 (addTo l a n s) := by
  unfold addTo
  try dsimp only
  repeat'
    first
    | with_reducible assumption
    | with_reducible refine State_tallyAdd_keeps ?_
    | split

theorem imageFetch_keeps {s0 : State} {l : LaneId} {q : W32} {a : Nat} {f : RigFrame} {s : State} (h : Keeps s0 s) : Keeps s0 (imageFetch l q a f s).2 := by
  unfold imageFetch
  try dsimp only
  repeat'
    first
    | with_reducible assumption
    | with_reducible refine heatUnits_keeps ?_
    | refine Keeps.of_eq (heatUnits_keeps ?_) ‹_›
    | split
    | dsimp only
    | refine Keeps.of_eq ?_ ‹_ = (_, _)›

theorem writeImage_if_keeps {c : Prop} [Decidable c] {f : RigFrame} {im : List Byte} {x : Shell} (h : ShellOk x) :
    ShellOk (if c then Shell.writeImage f im x else x) := by
  split
  · exact Shell_writeImage_keeps h
  · exact h

theorem ldrigComplete_keeps {s0 s : State} {i : ShellId} {k : Fin 16} {ok : Bool} (h : Keeps s0 s) :
    Keeps s0 (ldrigComplete i k ok s) := by
  unfold ldrigComplete
  dsimp only
  split
  · split
    · split
      · exact restartHeat_keeps (Keeps.of_eq (heatUnits_keeps h) ‹_›)
      · have hs := Keeps.of_eq (heatUnits_keeps h) ‹_›
        split
        · exact h
        · split
          · exact restartHeat_keeps (Keeps.of_eq (imageFetch_keeps hs) ‹_›)
          · have hp := Keeps.of_eq (imageFetch_keeps hs) ‹_›
            split
            · refine addTo_keeps (Keeps.upd (setShell_keeps hp fun x hx => ?_) rfl (fun _ m => m) id id id)
              exact ⟨(writeImage_if_keeps hx).1, (writeImage_if_keeps hx).2⟩
            · exact rigFrameError_keeps (setShell_keeps hp fun _ hx => hx)
    · exact h
  · exact h

theorem rigFrameTrialDone_keeps {s0 : State} {pass : Bool} {s : State} (h : Keeps s0 s) : Keeps s0 (rigFrameTrialDone pass s) := by
  unfold rigFrameTrialDone
  split
  · exact h
  · rename_i t _
    dsimp only
    have h1 : Keeps s0 (unitsAt t.frame 64 { s with faults := { s.faults with trial := none } }).2 :=
      unitsAt_keeps (Keeps.upd h rfl (fun _ m => m) id id id)
    generalize unitsAt t.frame 64 { s with faults := { s.faults with trial := none } } = p at h1 ⊢
    generalize hq : (if (parseRig p.1).writesTable then unitsAt (t.frame + 64) (imageUnits (parseRig p.1)) p.2 else ([], p.2)) = q
    have h2 : Keeps s0 q.2 := by
      rw [← hq]
      split
      · exact unitsAt_keeps h1
      · exact h1
    split
    · refine fenceShell_keeps (Keeps.upd (setShell_keeps h2 fun x hx => ?_) rfl (fun _ m => m) id id id)
      split
      · exact Shell_writeImage_keeps hx
      · exact hx
    · exact setShell_keeps h2 fun _ hx => hx

theorem decoderErred_keeps {s0 : State} {mine : DecReq → Bool} {i : ShellId} {a : Nat} {s : State} (h : Keeps s0 s) : Keeps s0 (decoderErred mine i a s) := by
  unfold decoderErred
  try dsimp only
  repeat'
    first
    | with_reducible assumption
    | with_reducible refine fenceDecoder_keeps ?_
    | with_reducible refine logUnitFault_keeps ?_
    | split

theorem move_keeps {s0 : State} {i : ShellId} {s : State} (h : Keeps s0 s) : Keeps s0 (move i s) := by
  unfold move
  try dsimp only
  repeat'
    first
    | with_reducible assumption
    | with_reducible refine wordStrokes_keeps ?_
    | refine Keeps.of_eq (wordStrokes_keeps ?_) ‹_›
    | with_reducible refine askDecoder_keeps ?_
    | with_reducible refine State_goOn_keeps ?_ (fun _ h => ?_)
    | with_reducible exact Shell_next_keeps ‹_›
    | with_reducible refine Shell_next_keeps ?_
    | with_reducible exact id
    | exact ⟨h.1, h.2⟩
    | exact ⟨(Shell_next_keeps h).1, (Shell_next_keeps h).2⟩
    | exact ⟨rfl, rfl⟩
    | split
    | dsimp only
    | refine Keeps.of_eq ?_ ‹_ = (_, _)›

theorem unitRead_keeps {s0 : State} {i : ShellId} {l : LaneId} {q : W32} {g : AddrGen} {k : Nat} {s : State} (h : Keeps s0 s) : Keeps s0 (unitRead i l q g k s).2 := by
  unfold unitRead
  try dsimp only
  repeat'
    first
    | with_reducible assumption
    | with_reducible refine heatRead_keeps ?_
    | refine Keeps.of_eq (heatRead_keeps ?_) ‹_›
    | split
    | dsimp only
    | refine Keeps.of_eq ?_ ‹_ = (_, _)›

theorem unitWrite_keeps {s0 : State} {i : ShellId} {l : LaneId} {q : W32} {g : AddrGen} {k : Nat} {b : List Byte} {s : State} (h : Keeps s0 s) : Keeps s0 (unitWrite i l q g k b s).2 := by
  unfold unitWrite
  try dsimp only
  repeat'
    first
    | with_reducible assumption
    | with_reducible refine setShell_keeps ?_ (fun _ h => ?_)
    | with_reducible refine heatWrite_keeps ?_
    | refine Keeps.of_eq (heatWrite_keeps ?_) ‹_›
    | with_reducible exact Shell_store_keeps ‹_›
    | with_reducible refine Shell_store_keeps ?_
    | with_reducible exact id
    | split
    | dsimp only
    | refine Keeps.of_eq ?_ ‹_ = (_, _)›

theorem moveUnit_keeps {s0 : State} {i : ShellId} {l : LaneId} {q : W32} {t : Transfer} {k : Nat} {s : State} (h : Keeps s0 s) : Keeps s0 (moveUnit i l q t k s).2 := by
  unfold moveUnit
  try dsimp only
  repeat'
    first
    | with_reducible assumption
    | with_reducible refine unitRead_keeps ?_
    | refine Keeps.of_eq (unitRead_keeps ?_) ‹_›
    | with_reducible refine unitWrite_keeps ?_
    | refine Keeps.of_eq (unitWrite_keeps ?_) ‹_›
    | split
    | dsimp only
    | refine Keeps.of_eq ?_ ‹_ = (_, _)›

theorem moveUnits_keeps {s0 : State} {i : ShellId} {l : LaneId} {q : W32} {t : Transfer} {k : Nat} {a : Nat} {a_6 : State} (h : Keeps s0 a_6) : Keeps s0 (moveUnits i l q t k a a_6).2 := by
  induction a generalizing i l q t k a_6 with
  | zero => exact h
  | succ n ih =>
    unfold moveUnits
    try dsimp only
    repeat'
      first
      | with_reducible assumption
      | with_reducible refine ih ?_
      | refine Keeps.of_eq (ih ?_) ‹_›
      | with_reducible refine moveUnit_keeps ?_
      | refine Keeps.of_eq (moveUnit_keeps ?_) ‹_›
      | split
      | dsimp only
      | refine Keeps.of_eq ?_ ‹_ = (_, _)›

theorem moveLanded_keeps {s0 : State} {i : ShellId} {out : Bool} {units : Nat} {s : State} (h : Keeps s0 s) : Keeps s0 (moveLanded i out units s) := by
  unfold moveLanded
  try dsimp only
  repeat'
    first
    | with_reducible assumption
    | with_reducible refine setShell_keeps ?_ (fun _ h => ?_)
    | with_reducible refine moveUnits_keeps ?_
    | refine Keeps.of_eq (moveUnits_keeps ?_) ‹_›
    | with_reducible refine restartHeat_keeps ?_
    | with_reducible refine decoderErred_keeps ?_
    | with_reducible refine State_arbServed_keeps ?_
    | with_reducible refine freeDecoders_keeps ?_
    | with_reducible refine addTo_keeps ?_
    | with_reducible exact id
    | exact ⟨h.1, h.2⟩
    | exact ⟨rfl, rfl⟩
    | split
    | dsimp only
    | refine Keeps.of_eq ?_ ‹_ = (_, _)›

theorem run_keeps {s0 : State} {i : ShellId} {work : RunWork} {s : State} (h : Keeps s0 s) : Keeps s0 (run i work s) := by
  unfold run
  try dsimp only
  repeat'
    first
    | with_reducible assumption
    | with_reducible refine setShell_keeps ?_ (fun _ h => ?_)
    | with_reducible refine wordStrokes_keeps ?_
    | refine Keeps.of_eq (wordStrokes_keeps ?_) ‹_›
    | with_reducible refine strokeFault_keeps ?_
    | with_reducible refine doWork_keeps ?_
    | with_reducible refine State_setRun_keeps ?_
    | with_reducible refine freeDecoders_keeps ?_
    | with_reducible refine State_goOn_keeps ?_ (fun _ h => ?_)
    | with_reducible exact Shell_next_keeps ‹_›
    | with_reducible refine Shell_next_keeps ?_
    | with_reducible refine restartHeat_keeps ?_
    | with_reducible refine wordAdd_keeps ?_
    | with_reducible exact id
    | exact ⟨h.1, h.2⟩
    | exact ⟨(Shell_next_keeps h).1, (Shell_next_keeps h).2⟩
    | exact ⟨rfl, rfl⟩
    | split
    | with_reducible refine Keeps.foldl (fun _ _ _ => ?_) _ ?_
    | refine Keeps.of_eq ?_ ‹_ = (_, _)›
    | dsimp only

theorem streamFetch_keeps {s0 : State} {i : ShellId} {ag : Fin 16} {s : State} (h : Keeps s0 s) : Keeps s0 (streamFetch i ag s) := by
  unfold streamFetch
  try dsimp only
  repeat'
    first
    | with_reducible assumption
    | with_reducible refine setShell_keeps ?_ (fun _ h => ?_)
    | with_reducible refine unitRead_keeps ?_
    | refine Keeps.of_eq (unitRead_keeps ?_) ‹_›
    | with_reducible refine restartHeat_keeps ?_
    | with_reducible refine decoderErred_keeps ?_
    | with_reducible exact id
    | exact ⟨h.1, h.2⟩
    | exact ⟨rfl, rfl⟩
    | split
    | dsimp only
    | refine Keeps.of_eq ?_ ‹_ = (_, _)›

theorem streamTable_keeps {s0 : State} {i : ShellId} {ag : Fin 16} {r : DecReq} {s : State} (h : Keeps s0 s) : Keeps s0 (streamTable i ag r s).2 := by
  unfold streamTable
  try dsimp only
  repeat'
    first
    | with_reducible assumption
    | with_reducible refine dramRead_keeps ?_
    | refine Keeps.of_eq (dramRead_keeps ?_) ‹_›
    | split
    | dsimp only
    | refine Keeps.of_eq ?_ ‹_ = (_, _)›

theorem decoderAssign_keeps {s0 : State} {i : ShellId} {ag : Fin 16} {s : State} (h : Keeps s0 s) : Keeps s0 (decoderAssign i ag s) := by
  unfold decoderAssign
  try dsimp only
  repeat'
    first
    | with_reducible assumption
    | with_reducible refine streamTable_keeps ?_
    | refine Keeps.of_eq (streamTable_keeps ?_) ‹_›
    | with_reducible exact id
    | with_reducible refine memOk_mk ?_ ?_
    | split
    | with_reducible refine shellsOk_upd (fun _ h => ?_)
    | refine Keeps.of_eq ?_ ‹_ = (_, _)›
    | dsimp only
    | with_reducible refine Keeps.upd ?_ rfl (fun _ h => h) ?_ ?_ ?_

theorem decoderTableLoaded_keeps {s0 : State} {d : Fin 4} {s : State} (h : Keeps s0 s) : Keeps s0 (decoderTableLoaded d s) := by
  unfold decoderTableLoaded
  try dsimp only
  repeat'
    first
    | with_reducible assumption
    | with_reducible exact id
    | with_reducible refine memOk_mk ?_ ?_
    | split
    | with_reducible refine shellsOk_upd (fun _ h => ?_)
    | with_reducible refine Keeps.upd ?_ rfl (fun _ h => h) ?_ ?_ ?_

theorem crossingTransfer_keeps {s0 : State} {c : Clk} {inbound : Bool} {word : Option W64} {s : State} (h : Keeps s0 s) : Keeps s0 (crossingTransfer c inbound word s) := by
  unfold crossingTransfer
  try dsimp only
  repeat'
    first
    | with_reducible assumption
    | with_reducible exact id
    | split
    | with_reducible refine Keeps.upd ?_ rfl (fun _ h => h) ?_ ?_ ?_

theorem waitedEdge_keeps {s0 : State} {k : Nat} {n : Nat} {waiting : BitVec 24} {win : Nat} {s : State} (h : Keeps s0 s) : Keeps s0 (waitedEdge k n waiting win s) := by
  unfold waitedEdge
  try dsimp only
  repeat'
    first
    | with_reducible assumption
    | with_reducible exact id
    | split
    | with_reducible refine Keeps.foldl (fun _ _ _ => ?_) _ ?_
    | with_reducible refine Keeps.upd ?_ rfl (fun _ h => h) ?_ ?_ ?_

theorem arbiterGrant_keeps {s0 : State} {a : Arbiter} {waiting : BitVec 24} {first : Fin 24} {s : State} (h : Keeps s0 s) : Keeps s0 (arbiterGrant a waiting first s) := by
  unfold arbiterGrant
  try dsimp only
  repeat'
    first
    | with_reducible assumption
    | with_reducible refine waitedEdge_keeps ?_
    | with_reducible exact id
    | split
    | with_reducible refine Keeps.upd ?_ rfl (fun _ h => h) ?_ ?_ ?_

end Sys2Proof.Laws
end

