-- ==== Sys2Proof/Laws/KeepRails.lean ====
section
/-! SUPPORT. What the operations of Rails keep. -/

namespace Sys2Proof.Laws
open Sys2Proof Sys2Proof.Machine

theorem State_setRail_keeps {s0 : State} {s : State} {f : Rail → Rail} (h : Keeps s0 s) : Keeps s0 (State.setRail s f) := by
  unfold State.setRail
  try dsimp only
  repeat'
    first
    | with_reducible assumption
    | with_reducible exact id
    | with_reducible refine Keeps.upd ?_ rfl (fun _ h => h) ?_ ?_ ?_

theorem State_govRead_keeps {s0 : State} {s : State} (h : Keeps s0 s) : Keeps s0 (State.govRead s) := by
  unfold State.govRead
  try dsimp only
  repeat'
    first
    | with_reducible assumption
    | with_reducible refine State_setRail_keeps ?_

theorem railSend_keeps {s0 : State} {mv : Nat} {attempt : Nat} {s : State} (h : Keeps s0 s) : Keeps s0 (railSend mv attempt s) := by
  unfold railSend
  try dsimp only
  repeat'
    first
    | with_reducible assumption
    | with_reducible refine State_setRail_keeps ?_

theorem railRequest_keeps {s0 : State} {mv : Nat} {s : State} (h : Keeps s0 s) : Keeps s0 (railRequest mv s) := by
  unfold railRequest
  try dsimp only
  repeat'
    first
    | with_reducible assumption
    | with_reducible refine State_setRail_keeps ?_
    | with_reducible refine railSend_keeps ?_
    | split

theorem railNext_keeps {s0 : State} {s : State} (h : Keeps s0 s) : Keeps s0 (railNext s) := by
  unfold railNext
  try dsimp only
  repeat'
    first
    | with_reducible assumption
    | with_reducible refine railSend_keeps ?_
    | with_reducible refine State_setRail_keeps ?_
    | split

theorem railFailed_keeps {s0 : State} {s : State} (h : Keeps s0 s) : Keeps s0 (railFailed s) := by
  unfold railFailed
  try dsimp only
  repeat'
    first
    | with_reducible assumption
    | with_reducible refine State_setRail_keeps ?_
    | with_reducible refine railNext_keeps ?_
    | with_reducible refine State_logFault_keeps ?_
    | with_reducible refine State_raise_keeps ?_
    | split

theorem railConfirmed_keeps {s0 : State} {s : State} (h : Keeps s0 s) : Keeps s0 (railConfirmed s) := by
  unfold railConfirmed
  try dsimp only
  repeat'
    first
    | with_reducible assumption
    | with_reducible refine railNext_keeps ?_
    | with_reducible refine State_setRail_keeps ?_
    | split

theorem railReading_keeps {s0 : State} {s : State} (h : Keeps s0 s) : Keeps s0 (railReading s) := by
  unfold railReading
  try dsimp only
  repeat'
    first
    | with_reducible assumption
    | with_reducible exact id
    | with_reducible refine Keeps.upd ?_ rfl (fun _ h => h) ?_ ?_ ?_

theorem railRead_keeps {s0 : State} {s : State} (h : Keeps s0 s) : Keeps s0 (railRead s) := by
  unfold railRead
  try dsimp only
  repeat'
    first
    | with_reducible assumption
    | with_reducible exact id
    | with_reducible exact wf_filter _
    | with_reducible refine Keeps.upd ?_ rfl (fun _ h => h) ?_ ?_ ?_

theorem alertServe_keeps {s0 : State} {status : W16} {s : State} (h : Keeps s0 s) : Keeps s0 (alertServe status s) := by
  unfold alertServe
  try dsimp only
  repeat'
    first
    | with_reducible assumption
    | with_reducible refine State_logFault_keeps ?_
    | with_reducible refine State_setRail_keeps ?_

theorem pmAlert_keeps {s0 : State} {status : W16} {s : State} (h : Keeps s0 s) : Keeps s0 (pmAlert status s) := by
  unfold pmAlert
  try dsimp only
  repeat'
    first
    | with_reducible assumption
    | with_reducible refine State_setRail_keeps ?_
    | with_reducible refine alertServe_keeps ?_
    | split

theorem alertDue_keeps {s0 : State} {s : State} (h : Keeps s0 s) : Keeps s0 (alertDue s) := by
  unfold alertDue
  try dsimp only
  repeat'
    first
    | with_reducible assumption
    | with_reducible refine pmAlert_keeps ?_
    | split

theorem pmbusEnd_keeps {s0 : State} {ack : Bool} {mode : Byte} {s : State} (h : Keeps s0 s) : Keeps s0 (pmbusEnd ack mode s) := by
  unfold pmbusEnd
  try dsimp only
  repeat'
    first
    | with_reducible assumption
    | with_reducible refine State_setRail_keeps ?_
    | with_reducible refine railReading_keeps ?_
    | with_reducible refine railFailed_keeps ?_
    | split

theorem pmbusDone_keeps {s0 : State} {ack : Bool} {mode : Byte} {s : State} (h : Keeps s0 s) : Keeps s0 (pmbusDone ack mode s) := by
  unfold pmbusDone
  try dsimp only
  repeat'
    first
    | with_reducible assumption
    | with_reducible refine alertDue_keeps ?_
    | with_reducible refine pmbusEnd_keeps ?_

theorem railMeasured_keeps {s0 : State} {mv : BitVec 10} {s : State} (h : Keeps s0 s) : Keeps s0 (railMeasured mv s) := by
  unfold railMeasured
  try dsimp only
  repeat'
    first
    | with_reducible assumption
    | with_reducible refine State_setRail_keeps ?_
    | with_reducible refine State_watch_keeps ?_
    | split

theorem railConfirm_keeps {s0 : State} {mv : BitVec 10} {s : State} (h : Keeps s0 s) : Keeps s0 (railConfirm mv s) := by
  unfold railConfirm
  try dsimp only
  repeat'
    first
    | with_reducible assumption
    | with_reducible refine railMeasured_keeps ?_
    | with_reducible refine railRead_keeps ?_
    | with_reducible refine railConfirmed_keeps ?_
    | with_reducible refine railFailed_keeps ?_
    | split

theorem railRetry_keeps {s0 : State} {s : State} (h : Keeps s0 s) : Keeps s0 (railRetry s) := by
  unfold railRetry
  try dsimp only
  repeat'
    first
    | with_reducible assumption
    | with_reducible refine railSend_keeps ?_
    | split

theorem frozenRetry_keeps {s0 : State} {s : State} (h : Keeps s0 s) : Keeps s0 (frozenRetry s) := by
  unfold frozenRetry
  try dsimp only
  repeat'
    first
    | with_reducible assumption
    | with_reducible refine railSend_keeps ?_
    | split

theorem pgCoreLow_keeps {s0 : State} {mv : BitVec 10} {s : State} (h : Keeps s0 s) : Keeps s0 (pgCoreLow mv s) := by
  unfold pgCoreLow
  try dsimp only
  repeat'
    first
    | with_reducible assumption
    | with_reducible refine State_setRail_keeps ?_
    | with_reducible refine railMeasured_keeps ?_
    | with_reducible refine State_logFault_keeps ?_
    | split

theorem fabricStopFloor_keeps {s0 : State} {mv : BitVec 10} {s : State} (h : Keeps s0 s) : Keeps s0 (fabricStopFloor mv s) := by
  unfold fabricStopFloor
  try dsimp only
  repeat'
    first
    | with_reducible assumption
    | with_reducible refine railMeasured_keeps ?_
    | split

theorem fabricResume_keeps {s0 : State} {mv : BitVec 10} {s : State} (h : Keeps s0 s) : Keeps s0 (fabricResume mv s) := by
  unfold fabricResume
  try dsimp only
  repeat'
    first
    | with_reducible assumption
    | with_reducible refine railMeasured_keeps ?_
    | split

theorem prestartRailFaultTick_keeps {s0 : State} {mv : BitVec 10} {s : State} (h : Keeps s0 s) : Keeps s0 (prestartRailFaultTick mv s) := by
  unfold prestartRailFaultTick
  try dsimp only
  repeat'
    first
    | with_reducible assumption
    | with_reducible refine State_setRail_keeps ?_
    | with_reducible refine State_tx_keeps ?_
    | split

theorem governorFollow_keeps {s0 : State} {s : State} (h : Keeps s0 s) : Keeps s0 (governorFollow s) := by
  unfold governorFollow
  try dsimp only
  repeat'
    first
    | with_reducible assumption
    | with_reducible refine railRequest_keeps ?_
    | with_reducible refine State_setRail_keeps ?_
    | split

theorem writeRailCtrl_keeps {s0 : State} {v : W32} {s : State} (h : Keeps s0 s) : Keeps s0 (writeRailCtrl v s) := by
  unfold writeRailCtrl
  try dsimp only
  repeat'
    first
    | with_reducible assumption
    | with_reducible refine State_setRail_keeps ?_
    | with_reducible refine governorFollow_keeps ?_
    | split

theorem writeRail_keeps {s0 : State} {p : Path} {o : Nat} {v : W32} {s : State} (h : Keeps s0 s) : Keeps s0 (writeRail p o v s) := by
  unfold writeRail
  try dsimp only
  repeat'
    first
    | with_reducible assumption
    | with_reducible refine writeRailCtrl_keeps ?_
    | split

theorem doRail_keeps {s0 : State} {c : Caller} {s : State} (h : Keeps s0 s) : Keeps s0 (doRail c s) := by
  unfold doRail
  try dsimp only
  repeat'
    first
    | with_reducible assumption
    | with_reducible refine State_gate_keeps ?_ ?_
    | with_reducible refine State_ok_keeps ?_

theorem doRailCeiling_keeps {s0 : State} {c : Caller} {mw : Nat} {s : State} (h : Keeps s0 s) : Keeps s0 (doRailCeiling c mw s) := by
  unfold doRailCeiling
  try dsimp only
  repeat'
    first
    | with_reducible assumption
    | with_reducible refine State_gate_keeps ?_ ?_
    | with_reducible refine State_setRail_keeps ?_
    | with_reducible refine State_ok_keeps ?_
    | with_reducible refine State_fail_keeps ?_
    | split

theorem doRailFix_keeps {s0 : State} {c : Caller} {mv : Nat} {s : State} (h : Keeps s0 s) : Keeps s0 (doRailFix c mv s) := by
  unfold doRailFix
  try dsimp only
  repeat'
    first
    | with_reducible assumption
    | with_reducible refine State_gate_keeps ?_ ?_
    | with_reducible refine State_fail_keeps ?_
    | with_reducible refine governorFollow_keeps ?_
    | with_reducible refine State_setRail_keeps ?_
    | with_reducible refine State_ok_keeps ?_
    | split

theorem doRailAuto_keeps {s0 : State} {c : Caller} {s : State} (h : Keeps s0 s) : Keeps s0 (doRailAuto c s) := by
  unfold doRailAuto
  try dsimp only
  repeat'
    first
    | with_reducible assumption
    | with_reducible refine State_gate_keeps ?_ ?_
    | with_reducible refine frozenRetry_keeps ?_
    | with_reducible refine governorFollow_keeps ?_
    | with_reducible refine State_setRail_keeps ?_
    | with_reducible refine State_ok_keeps ?_

end Sys2Proof.Laws
end

