-- ==== Sys2Proof/Laws/KeepTimers.lean ====
section
/-! SUPPORT. What the operations of Timers keep. -/

namespace Sys2Proof.Laws
open Sys2Proof Sys2Proof.Machine

theorem State_fires_keeps {s0 : State} {k : Nat} {t : W64} {s : State} (h : Keeps s0 s) : Keeps s0 (State.fires k t s) := by
  unfold State.fires
  try dsimp only
  repeat'
    first
    | with_reducible assumption
    | with_reducible exact id
    | split
    | with_reducible refine Keeps.upd ?_ rfl (fun _ h => h) ?_ ?_ ?_

theorem State_setChan_keeps {s0 : State} {s : State} {n : Fin 8} {f : TmrChan → TmrChan} (h : Keeps s0 s) : Keeps s0 (State.setChan s n f) := by
  unfold State.setChan
  try dsimp only
  repeat'
    first
    | with_reducible assumption
    | with_reducible exact id
    | with_reducible refine shellsOk_upd (fun _ h => ?_)
    | with_reducible refine Keeps.upd ?_ rfl (fun _ h => h) ?_ ?_ ?_

theorem tmrStart_keeps {s0 : State} {p : Path} {mask : Byte} {s : State} (h : Keeps s0 s) : Keeps s0 (tmrStart p mask s) := by
  unfold tmrStart
  try dsimp only
  repeat'
    first
    | with_reducible assumption
    | with_reducible exact id
    | split
    | with_reducible refine shellsOk_mapIdx (fun _ _ h => ?_)
    | with_reducible refine Keeps.upd ?_ rfl (fun _ h => h) ?_ ?_ ?_

theorem tmrStop_keeps {s0 : State} {p : Path} {mask : Byte} {s : State} (h : Keeps s0 s) : Keeps s0 (tmrStop p mask s) := by
  unfold tmrStop
  try dsimp only
  repeat'
    first
    | with_reducible assumption
    | with_reducible exact id
    | split
    | with_reducible refine shellsOk_mapIdx (fun _ _ h => ?_)
    | with_reducible refine Keeps.upd ?_ rfl (fun _ h => h) ?_ ?_ ?_

theorem trigPulse_keeps {s0 : State} {s : State} (h : Keeps s0 s) : Keeps s0 (trigPulse s) := by
  unfold trigPulse
  try dsimp only
  repeat'
    first
    | with_reducible assumption
    | with_reducible exact id
    | with_reducible refine Keeps.upd ?_ rfl (fun _ h => h) ?_ ?_ ?_

theorem tmrEvent_keeps {s0 : State} {n : Fin 8} {s : State} (h : Keeps s0 s) : Keeps s0 (tmrEvent n s) := by
  unfold tmrEvent
  try dsimp only
  repeat'
    first
    | with_reducible assumption
    | with_reducible refine State_fires_keeps ?_
    | with_reducible refine trigPulse_keeps ?_
    | split

theorem periodEvent_keeps {s0 : State} {n : Fin 8} {s : State} (h : Keeps s0 s) : Keeps s0 (periodEvent n s) := by
  unfold periodEvent
  try dsimp only
  repeat'
    first
    | with_reducible assumption
    | with_reducible refine elapse_keeps ?_
    | with_reducible refine State_setChan_keeps ?_
    | with_reducible refine tmrEvent_keeps ?_
    | split

theorem compareEvent_keeps {s0 : State} {n : Fin 8} {s : State} (h : Keeps s0 s) : Keeps s0 (compareEvent n s) := by
  unfold compareEvent
  try dsimp only
  repeat'
    first
    | with_reducible assumption
    | with_reducible refine elapse_keeps ?_
    | with_reducible refine tmrEvent_keeps ?_
    | split

theorem doPulse_keeps {s0 : State} {s : State} (h : Keeps s0 s) : Keeps s0 (doPulse s) := by
  unfold doPulse
  try dsimp only
  repeat'
    first
    | with_reducible assumption
    | with_reducible refine trigPulse_keeps ?_
    | with_reducible exact id
    | with_reducible refine Keeps.upd ?_ rfl (fun _ h => h) ?_ ?_ ?_

theorem trigOutPulseEnd_keeps {s0 : State} {s : State} (h : Keeps s0 s) : Keeps s0 (trigOutPulseEnd s) := by
  unfold trigOutPulseEnd
  try dsimp only
  repeat'
    first
    | with_reducible assumption
    | with_reducible refine elapse_keeps ?_
    | with_reducible exact id
    | split
    | with_reducible refine Keeps.upd ?_ rfl (fun _ h => h) ?_ ?_ ?_

theorem trigInEdge_keeps {s0 : State} {high : Bool} {s : State} (h : Keeps s0 s) : Keeps s0 (trigInEdge high s) := by
  unfold trigInEdge
  try dsimp only
  repeat'
    first
    | with_reducible assumption
    | with_reducible refine State_fires_keeps ?_
    | with_reducible exact id
    | split
    | with_reducible refine Keeps.upd ?_ rfl (fun _ h => h) ?_ ?_ ?_

theorem writeTmr_keeps {s0 : State} {p : Path} {o : Nat} {v : W32} {s : State} (h : Keeps s0 s) : Keeps s0 (writeTmr p o v s) := by
  unfold writeTmr
  try dsimp only
  repeat'
    first
    | with_reducible assumption
    | with_reducible refine tmrStart_keeps ?_
    | with_reducible refine tmrStop_keeps ?_
    | with_reducible refine doPulse_keeps ?_
    | with_reducible refine State_setChan_keeps ?_
    | with_reducible exact id
    | split
    | with_reducible refine Keeps.upd ?_ rfl (fun _ h => h) ?_ ?_ ?_

end Sys2Proof.Laws
end

