-- ==== Sys2Proof/Laws/KeepBundle.lean ====
section
/-! SUPPORT. What the operations of Bundle keep. -/

namespace Sys2Proof.Laws
open Sys2Proof Sys2Proof.Machine

theorem bytesAt_keeps {s0 : State} {addr : Nat} {len : Nat} {s : State} (h : Keeps s0 s) : Keeps s0 (bytesAt addr len s).2 := by
  unfold bytesAt
  try dsimp only
  repeat'
    first
    | with_reducible assumption
    | with_reducible refine unitsAt_keeps ?_
    | refine Keeps.of_eq (unitsAt_keeps ?_) ‹_›
    | split
    | dsimp only
    | refine Keeps.of_eq ?_ ‹_ = (_, _)›

theorem attachment_keeps {s0 : State} {p : Path} {addr : Nat} {len : Nat} {s : State} (h : Keeps s0 s) : KeepsE2 s0 (attachment p addr len s) := by
  unfold attachment
  try dsimp only
  repeat'
    first
    | with_reducible assumption
    | with_reducible refine bytesAt_keeps ?_
    | refine Keeps.of_eq (bytesAt_keeps ?_) ‹_›
    | split
    | refine Keeps.of_eq ?_ ‹_ = (_, _)›
    | with_reducible exact KeepsE2.error
    | dsimp only
    | with_reducible refine KeepsE2.ok ?_

theorem sealExtent_keeps {s0 s : State} {h : Fin 16} {addr total : Nat} {lanes : BitVec 4} (hk : Keeps s0 s) :
    KeepsE s0 (sealExtent h addr total lanes s) := by
  unfold sealExtent
  refine KeepsE.bind fun _ _ => ?_
  split
  · exact KeepsE.error
  · refine KeepsE.bind fun _ _ => KeepsE.bind fun _ _ => ?_
    split
    · have := (needPlanSlot_keeps hk).of_eq ‹_›
      refine KeepsE.ok ?_
      refine Keeps.upd ?_ rfl (fun _ h => h) id (fun h => h) (fun h => h)
      refine State_setRegion_keeps ?_
      repeat' first | assumption | with_reducible refine State_setRegion_keeps ?_ | split
    · exact KeepsE.error
    · exact KeepsE.error

theorem initExps_keeps {s0 : State} {h_0 : Fin 16} {ts : List Tensor} {l : LaneId} {s : State} (h : Keeps s0 s) : Keeps s0 (initExps h_0 ts l s) := by
  unfold initExps
  try dsimp only
  repeat'
    first
    | with_reducible assumption
    | with_reducible refine State_setLane_keeps ?_

theorem copySections_keeps {s0 : State} {im : List Byte} {ss : List Sect} {p1 : List (Nat × Nat)} {s : State} (h : Keeps s0 s) : Keeps s0 (copySections im ss p1 s) := by
  unfold copySections
  try dsimp only
  repeat'
    first
    | with_reducible assumption
    | with_reducible refine touch_keeps ?_
    | with_reducible exact id
    | with_reducible refine memOk_mk ?_ ?_
    | split
    | with_reducible refine Keeps.foldl (fun _ _ _ => ?_) _ ?_
    | with_reducible exact wf_put _ _
    | with_reducible refine Keeps.upd ?_ rfl (fun _ h => h) ?_ ?_ ?_

theorem loadCommit_keeps {s0 s : State} {a : LoadAsk} {hd : Header} {ss : List Sect} {p : Parsed2}
    {place : Fin 16 → State → Except Err State} (hp : ∀ k s, Keeps s0 s → KeepsE s0 (place k s)) (h : Keeps s0 s) :
    KeepsE2 s0 (loadCommit a hd ss p place s) := by
  unfold loadCommit
  refine KeepsE2.bind fun k _ => KeepsE2.bind fun _ _ => KeepsE2.bind fun _ _ => KeepsE2.bind fun _ _ => ?_
  dsimp only
  split
  · exact KeepsE2.error
  · refine KeepsE2.bind fun _ _ => KeepsE2.bind fun s' e => ?_
    have hs := hp _ _ h _ e
    refine KeepsE2.ok ?_
    exact relateRuns_keeps (Keeps.foldl (fun _ _ h => bundleInto_keeps h) _ (Keeps.foldl (fun _ _ h => initExps_keeps h) _
      (copySections_keeps (State_setBundle_keeps hs))))

theorem loadImage_keeps {s0 s : State} {a : LoadAsk} {place : Fin 16 → State → Except Err State}
    (hp : ∀ k s, Keeps s0 s → KeepsE s0 (place k s)) (h : Keeps s0 s) :
    ∀ r, loadImage a place s = .ok r → Keeps s0 r.2.2.2 := by
  intro r hr
  unfold loadImage at hr
  cases hc : loadChecks s a with
  | error e => rw [hc] at hr; cases hr
  | ok v =>
    rw [hc] at hr
    cases hk : loadCommit a v.1 v.2.1 v.2.2 place s with
    | error e => simp [bind, Except.bind, hk] at hr
    | ok w =>
      simp only [bind, Except.bind, hk] at hr
      cases hr
      exact loadCommit_keeps hp h _ _ hk

theorem loadFor_keeps {s0 s : State} {p : CallPath} {addr len : Nat} {lanes : BitVec 4} (h : Keeps s0 s) :
    ∀ r, loadFor p addr len lanes s = .ok r → Keeps s0 r.2.2.2 := by
  intro r hr
  unfold loadFor at hr
  simp only [bind, Except.bind] at hr
  split at hr
  · cases hr
  · split at hr
    · cases hr
    · rename_i v hv
      split at hr
      · cases hr
      · refine loadImage_keeps (fun k s h => ?_) (attachment_keeps h _ _ hv) r hr
        split
        · exact sealExtent_keeps h
        · exact KeepsE.ok h

theorem doLoad_keeps {s0 s : State} {c : Caller} {addr len : Nat} {lanes : BitVec 4} {budgets : Bool} (h : Keeps s0 s) :
    Keeps s0 (doLoad c addr len lanes budgets s) := by
  unfold doLoad
  refine State_gate_keeps h ?_
  split
  · exact State_fail_keeps (Keeps.upd h rfl (fun _ m => m) id id id)
  · rename_i hr
    exact State_okWith_keeps (loadFor_keeps h _ hr)

theorem Shell_forget_keeps {h_0 : Fin 16} {x : Shell} (h : ShellOk x) : ShellOk (Shell.forget h_0 x) := by
  unfold Shell.forget
  try dsimp only
  repeat'
    first
    | with_reducible assumption
    | with_reducible exact id
    | exact ⟨h.1, h.2⟩
    | exact ⟨rfl, rfl⟩
    | split

theorem dropBundle_keeps {s0 : State} {h_0 : Fin 16} {s : State} (h : Keeps s0 s) : Keeps s0 (dropBundle h_0 s) := by
  unfold dropBundle
  try dsimp only
  repeat'
    first
    | with_reducible assumption
    | with_reducible refine State_setBundle_keeps ?_
    | with_reducible refine unsealDue_keeps ?_
    | with_reducible exact Shell_forget_keeps ‹_›
    | with_reducible refine Shell_forget_keeps ?_
    | with_reducible exact id
    | with_reducible refine memOk_mk ?_ ?_
    | with_reducible refine shellsOk_map (fun _ h => ?_)
    | with_reducible exact wf_filter _
    | with_reducible refine Keeps.upd ?_ rfl (fun _ h => h) ?_ ?_ ?_

theorem doDrop_keeps {s0 : State} {c : Caller} {h_1 : Nat} {s : State} (h : Keeps s0 s) : Keeps s0 (doDrop c h_1 s) := by
  unfold doDrop
  try dsimp only
  repeat'
    first
    | with_reducible assumption
    | with_reducible refine State_gate_keeps ?_ ?_
    | with_reducible refine State_fail_keeps ?_
    | with_reducible refine State_ok_keeps ?_
    | with_reducible refine dropBundle_keeps ?_
    | split

theorem storeUnits_keeps {s0 : State} {unit : Nat} {key : Nat} {im : List Byte} {a : Nat} {a_4 : State} (h : Keeps s0 a_4) : Keeps s0 (storeUnits unit key im a a_4) := by
  induction a generalizing unit key im a_4 with
  | zero => exact h
  | succ n ih =>
    unfold storeUnits
    try dsimp only
    repeat'
      first
      | with_reducible assumption
      | with_reducible refine ih ?_
      | with_reducible refine State_dramStore_keeps ?_
      | split

theorem bootExtent_keeps {s0 : State} {im : List Byte} {b0 : Nat} {s : State} (h : Keeps s0 s) : KeepsE s0 (bootExtent im b0 s) := by
  unfold bootExtent
  try dsimp only
  repeat'
    first
    | with_reducible assumption
    | with_reducible refine needPlanSlot_keeps ?_
    | refine KeepsO2.of_eq (needPlanSlot_keeps ?_) ‹_›
    | with_reducible refine State_setRegion_keeps ?_
    | with_reducible refine clearGen_keeps ?_
    | with_reducible refine storeUnits_keeps ?_
    | split
    | with_reducible exact KeepsE.error
    | with_reducible refine KeepsE.ok ?_

theorem bootLoad_keeps {s0 s : State} {k : Fin 16} (h : Keeps s0 s) : KeepsE s0 (bootLoad k s) := by
  have hm : ∀ (x : Except Err (Fin 16 × Header × Parsed2 × State)), (∀ r, x = .ok r → Keeps s0 r.2.2.2) → KeepsE s0 (x.map fun r => r.2.2.2) := by
    intro x hx t ht
    cases x with
    | error e => cases ht
    | ok r => cases ht; exact hx r rfl
  unfold bootLoad
  dsimp only
  split
  · exact hm _ (loadImage_keeps (fun _ _ h => KeepsE.ok h) h)
  · split
    · exact KeepsE.error
    · split
      · exact KeepsE.error
      · exact hm _ (loadImage_keeps (fun _ _ h => bootExtent_keeps h) h)

end Sys2Proof.Laws
end

