-- ==== Sys2Proof/Laws/KeepAccept.lean ====
section
/-! SUPPORT. What the operations of Accept keep. -/

namespace Sys2Proof.Laws
open Sys2Proof Sys2Proof.Machine

theorem countRetire_keeps {s0 : State} {l : LaneId} {s : State} (h : Keeps s0 s) : Keeps s0 (countRetire l s) := by
  unfold countRetire
  try dsimp only
  repeat'
    first
    | with_reducible assumption
    | with_reducible exact id
    | with_reducible refine shellsOk_upd (fun _ h => ?_)
    | with_reducible refine Keeps.upd ?_ rfl (fun _ h => h) ?_ ?_ ?_

theorem endWaits_keeps {s0 : State} {l : LaneId} {q : W32} {st : Status} {s : State} (h : Keeps s0 s) : Keeps s0 (endWaits l q st s) := by
  unfold endWaits
  try dsimp only
  repeat'
    first
    | with_reducible assumption
    | with_reducible refine State_ok_keeps ?_
    | with_reducible exact id
    | split
    | with_reducible refine Keeps.foldl (fun _ _ _ => ?_) _ ?_
    | with_reducible refine Keeps.foldl2 (fun _ _ _ => ?_) _ ?_
    | with_reducible exact wf_filter _
    | with_reducible refine Keeps.upd ?_ rfl (fun _ h => h) ?_ ?_ ?_

theorem adapterGive_keeps {s0 : State} {l : LaneId} {q : W32} {s : State} (h : Keeps s0 s) : Keeps s0 (adapterGive l q s) := by
  unfold adapterGive
  try dsimp only
  repeat'
    first
    | with_reducible assumption
    | with_reducible refine State_setAd_keeps ?_
    | split

theorem journalAccept_keeps {s0 : State} {src : Source} {l : LaneId} {k : Fin 16} {x : Entry} {args : List HeatArg} {tag : List Byte} {s : State} (h : Keeps s0 s) : Keeps s0 (journalAccept src l k x args tag s) := by
  unfold journalAccept
  try dsimp only
  repeat'
    first
    | with_reducible assumption
    | with_reducible refine State_bookLane_keeps ?_
    | with_reducible refine State_setAd_keeps ?_
    | split

theorem submit_keeps {s0 s : State} {who : Option Owner} {src : Source} {l : LaneId} {seq : Option W32} {hd e : Nat} {args : List HeatArg}
    {tag : List Byte} (h : Keeps s0 s) : KeepsE2 s0 (submit who src l seq hd e args tag s) := by
  unfold submit
  exact KeepsE2.bind fun _ _ => KeepsE2.bind fun _ _ => KeepsE2.bind fun _ _ => KeepsE2.bind fun _ _ => KeepsE2.bind fun _ _ =>
    KeepsE2.bind fun x _ => KeepsE2.ok (journalAccept_keeps h)

theorem doHeat_keeps {s0 : State} {c : Caller} {l : LaneId} {seq : Option W32} {h_3 : Nat} {e : Nat} {args : List HeatArg} {s : State} (h : Keeps s0 s) : Keeps s0 (doHeat c l seq h_3 e args s) := by
  unfold doHeat
  try dsimp only
  repeat'
    first
    | with_reducible assumption
    | with_reducible refine State_gate_keeps ?_ ?_
    | with_reducible refine State_fail_keeps ?_
    | with_reducible refine submit_keeps ?_
    | refine KeepsE2.of_eq (submit_keeps ?_) ‹_›
    | with_reducible refine State_ok_keeps ?_
    | with_reducible refine State_failWith_keeps ?_
    | split

theorem ownerChanged_keeps {s0 : State} {l : LaneId} {s : State} (h : Keeps s0 s) : Keeps s0 (ownerChanged l s) := by
  unfold ownerChanged
  try dsimp only
  repeat'
    first
    | with_reducible assumption
    | with_reducible refine ownerLeft_keeps ?_
    | with_reducible exact id
    | split
    | with_reducible refine shellsOk_map (fun _ h => ?_)
    | with_reducible refine Keeps.upd ?_ rfl (fun _ h => h) ?_ ?_ ?_

theorem doLaneState_keeps {s0 : State} {c : Caller} {l : LaneId} {s : State} (h : Keeps s0 s) : Keeps s0 (doLaneState c l s) := by
  unfold doLaneState
  try dsimp only
  repeat'
    first
    | with_reducible assumption
    | with_reducible refine State_gate_keeps ?_ ?_
    | with_reducible refine State_ok_keeps ?_

theorem openLane_keeps {s0 : State} {o : Owner} {l : LaneId} {seq : Option W32} {prio : Option (BitVec 2)} {s : State} (h : Keeps s0 s) : Keeps s0 (openLane o l seq prio s) := by
  unfold openLane
  try dsimp only
  repeat'
    first
    | with_reducible assumption
    | with_reducible refine State_bookLane_keeps ?_
    | with_reducible refine ownerChanged_keeps ?_
    | with_reducible refine leaseStart_keeps ?_
    | split

theorem doLaneOpen_keeps {s0 : State} {c : Caller} {l : LaneId} {seq : Option W32} {prio : Option (BitVec 2)} {s : State} (h : Keeps s0 s) : Keeps s0 (doLaneOpen c l seq prio s) := by
  unfold doLaneOpen
  try dsimp only
  repeat'
    first
    | with_reducible assumption
    | with_reducible refine State_gate_keeps ?_ ?_
    | with_reducible refine State_fail_keeps ?_
    | with_reducible refine openLane_keeps ?_
    | with_reducible refine redeliver_keeps ?_
    | with_reducible refine State_ok_keeps ?_
    | split

theorem freeLane_keeps {s0 : State} {l : LaneId} {s : State} (h : Keeps s0 s) : Keeps s0 (freeLane l s) := by
  unfold freeLane
  try dsimp only
  repeat'
    first
    | with_reducible assumption
    | with_reducible refine State_bookLane_keeps ?_
    | with_reducible refine leaseCheck_keeps ?_
    | with_reducible refine ownerChanged_keeps ?_

theorem doLaneClose_keeps {s0 : State} {c : Caller} {l : LaneId} {s : State} (h : Keeps s0 s) : Keeps s0 (doLaneClose c l s) := by
  unfold doLaneClose
  try dsimp only
  repeat'
    first
    | with_reducible assumption
    | with_reducible refine State_gate_keeps ?_ ?_
    | with_reducible refine State_fail_keeps ?_
    | with_reducible refine State_ok_keeps ?_
    | with_reducible refine freeLane_keeps ?_
    | split

theorem discardOne_keeps {s0 : State} {counts : Bool} {l : LaneId} {q : W32} {s : State} (h : Keeps s0 s) : Keeps s0 (discardOne counts l q s) := by
  unfold discardOne
  try dsimp only
  repeat'
    first
    | with_reducible assumption
    | with_reducible refine spoilOutputs_keeps ?_
    | with_reducible refine adapterGive_keeps ?_
    | with_reducible refine State_stopShells_keeps ?_
    | with_reducible refine State_setLane_keeps ?_
    | with_reducible refine endWaits_keeps ?_
    | with_reducible refine countRetire_keeps ?_
    | split

theorem discardLane_keeps {s0 : State} {counts : Bool} {l : LaneId} {s : State} (h : Keeps s0 s) : Keeps s0 (discardLane counts l s) := by
  unfold discardLane
  try dsimp only
  repeat'
    first
    | with_reducible assumption
    | with_reducible refine discardOne_keeps ?_
    | with_reducible refine State_setLane_keeps ?_
    | with_reducible refine State_logFault_keeps ?_
    | with_reducible refine Keeps.foldl (fun _ _ _ => ?_) _ ?_

theorem doLaneCloseDiscard_keeps {s0 : State} {c : Caller} {l : LaneId} {s : State} (h : Keeps s0 s) : Keeps s0 (doLaneCloseDiscard c l s) := by
  unfold doLaneCloseDiscard
  try dsimp only
  repeat'
    first
    | with_reducible assumption
    | with_reducible refine State_gate_keeps ?_ ?_
    | with_reducible refine State_fail_keeps ?_
    | with_reducible refine State_ok_keeps ?_
    | with_reducible refine freeLane_keeps ?_
    | with_reducible refine discardLane_keeps ?_
    | split

theorem claimLane_keeps {s0 : State} {c : Caller} {l : LaneId} {s : State} (h : Keeps s0 s) : Keeps s0 (claimLane c l s) := by
  unfold claimLane
  try dsimp only
  repeat'
    first
    | with_reducible assumption
    | with_reducible refine State_bookLane_keeps ?_
    | with_reducible refine ownerChanged_keeps ?_
    | with_reducible refine leaseStart_keeps ?_
    | with_reducible refine State_ok_keeps ?_
    | with_reducible refine redeliver_keeps ?_
    | with_reducible refine State_setRing_keeps ?_
    | split

theorem doLaneClaim_keeps {s0 : State} {c : Caller} {l : LaneId} {s : State} (h : Keeps s0 s) : Keeps s0 (doLaneClaim c l s) := by
  unfold doLaneClaim
  try dsimp only
  repeat'
    first
    | with_reducible assumption
    | with_reducible refine State_gate_keeps ?_ ?_
    | with_reducible refine State_fail_keeps ?_
    | with_reducible refine claimLane_keeps ?_
    | split

theorem doLaneKey_keeps {s0 : State} {c : Caller} {l : LaneId} {s : State} (h : Keeps s0 s) : Keeps s0 (doLaneKey c l s) := by
  unfold doLaneKey
  try dsimp only
  repeat'
    first
    | with_reducible assumption
    | with_reducible refine State_gate_keeps ?_ ?_
    | with_reducible refine State_fail_keeps ?_
    | with_reducible refine startRotation_keeps ?_
    | refine KeepsE.of_eq (startRotation_keeps ?_) ‹_›
    | with_reducible refine sweepCheck_keeps ?_
    | with_reducible refine State_ok_keeps ?_
    | with_reducible refine keyopStart_keeps ?_
    | split

theorem doTake_keeps {s0 : State} {c : Caller} {l : LaneId} {seq : Option W32} {s : State} (h : Keeps s0 s) : Keeps s0 (doTake c l seq s) := by
  unfold doTake
  try dsimp only
  repeat'
    first
    | with_reducible assumption
    | with_reducible refine State_gate_keeps ?_ ?_
    | with_reducible refine State_fail_keeps ?_
    | with_reducible refine State_ok_keeps ?_
    | with_reducible refine State_releaseTo_keeps ?_
    | split

theorem waitStart_keeps {s0 : State} {w : WaitRec} {s : State} (h : Keeps s0 s) : Keeps s0 (waitStart w s) := by
  unfold waitStart
  try dsimp only
  repeat'
    first
    | with_reducible assumption
    | with_reducible refine State_setRing_keeps ?_
    | with_reducible exact id
    | split
    | with_reducible refine Keeps.upd ?_ rfl (fun _ h => h) ?_ ?_ ?_

theorem doWait_keeps {s0 : State} {c : Caller} {l : LaneId} {seq : Option W32} {s : State} (h : Keeps s0 s) : Keeps s0 (doWait c l seq s) := by
  unfold doWait
  try dsimp only
  repeat'
    first
    | with_reducible assumption
    | with_reducible refine State_gate_keeps ?_ ?_
    | with_reducible refine State_fail_keeps ?_
    | with_reducible refine State_ok_keeps ?_
    | with_reducible refine waitStart_keeps ?_
    | split

theorem waitTimeout_keeps {s0 : State} {c : Caller} {s : State} (h : Keeps s0 s) : Keeps s0 (waitTimeout c s) := by
  unfold waitTimeout
  try dsimp only
  repeat'
    first
    | with_reducible assumption
    | with_reducible refine State_reply_keeps ?_
    | with_reducible exact id
    | split
    | with_reducible exact wf_filter _
    | with_reducible refine Keeps.upd ?_ rfl (fun _ h => h) ?_ ?_ ?_

theorem ringWipe_keeps {s0 : State} {l : LaneId} {s : State} (h : Keeps s0 s) : Keeps s0 (ringWipe l s) := by
  unfold ringWipe
  try dsimp only
  repeat'
    first
    | with_reducible assumption
    | with_reducible refine State_ringZero_keeps ?_
    | with_reducible exact id
    | with_reducible refine memOk_mk ?_ ?_
    | with_reducible exact wf_clear _ _
    | with_reducible refine Keeps.upd ?_ rfl (fun _ h => h) ?_ ?_ ?_

theorem scrubBegin_keeps {s0 : State} {c : Caller} {l : LaneId} {s : State} (h : Keeps s0 s) : Keeps s0 (scrubBegin c l s) := by
  unfold scrubBegin
  try dsimp only
  repeat'
    first
    | with_reducible assumption
    | with_reducible refine State_setLane_keeps ?_
    | with_reducible refine ringWipe_keeps ?_
    | with_reducible refine leaseCheck_keeps ?_
    | with_reducible refine ownerChanged_keeps ?_
    | with_reducible refine State_raise_keeps ?_
    | with_reducible refine State_ok_keeps ?_
    | split

theorem doScrub_keeps {s0 : State} {c : Caller} {l : LaneId} {s : State} (h : Keeps s0 s) : Keeps s0 (doScrub c l s) := by
  unfold doScrub
  try dsimp only
  repeat'
    first
    | with_reducible assumption
    | with_reducible refine State_gate_keeps ?_ ?_
    | with_reducible refine State_fail_keeps ?_
    | with_reducible refine scrubBegin_keeps ?_
    | split

theorem loseKeys_keeps {s0 : State} {l : LaneId} {s : State} (h : Keeps s0 s) : Keeps s0 (loseKeys l s) := by
  unfold loseKeys
  try dsimp only
  repeat'
    first
    | with_reducible assumption
    | with_reducible refine keyopEnd_keeps ?_
    | with_reducible exact id
    | with_reducible refine memOk_mk ?_ ?_
    | split
    | with_reducible refine shellsOk_map (fun _ h => ?_)
    | with_reducible refine shellsOk_mapIdx (fun _ _ h => ?_)
    | with_reducible exact wf_filter _
    | with_reducible refine Keeps.upd ?_ rfl (fun _ h => h) ?_ ?_ ?_

theorem scrubKeys_keeps {s0 : State} {l : LaneId} {s : State} (h : Keeps s0 s) : Keeps s0 (scrubKeys l s) := by
  unfold scrubKeys
  try dsimp only
  repeat'
    first
    | with_reducible assumption
    | with_reducible refine loseKeys_keeps ?_
    | with_reducible refine dropBundle_keeps ?_
    | with_reducible exact id
    | split
    | with_reducible refine Keeps.foldl (fun _ _ _ => ?_) _ ?_
    | with_reducible refine shellsOk_map (fun _ h => ?_)
    | with_reducible refine Keeps.upd ?_ rfl (fun _ h => h) ?_ ?_ ?_

theorem Shell_wipe_keeps {l : LaneId} {x : Shell} (h : ShellOk x) : ShellOk (Shell.wipe l x) := by
  unfold Shell.wipe
  try dsimp only
  repeat'
    first
    | with_reducible assumption
    | with_reducible exact id
    | exact ⟨h.1, h.2⟩
    | exact ⟨rfl, rfl⟩
    | split

theorem wipeBank_keeps {s0 : State} {b : Fin 64} {s : State} (h : Keeps s0 s) : Keeps s0 (wipeBank b s) := by
  unfold wipeBank
  try dsimp only
  repeat'
    first
    | with_reducible assumption
    | with_reducible exact id
    | with_reducible refine memOk_mk ?_ ?_
    | with_reducible exact wf_clear _ _
    | with_reducible refine Keeps.upd ?_ rfl (fun _ h => h) ?_ ?_ ?_

theorem clearTallies_keeps {s0 : State} {l : LaneId} {s : State} (h : Keeps s0 s) : Keeps s0 (clearTallies l s) := by
  unfold clearTallies
  try dsimp only
  repeat'
    first
    | with_reducible assumption
    | with_reducible exact id
    | with_reducible exact wf_filter _
    | with_reducible refine Keeps.upd ?_ rfl (fun _ h => h) ?_ ?_ ?_

theorem scrubLocal_keeps {s0 : State} {l : LaneId} {s : State} (h : Keeps s0 s) : Keeps s0 (scrubLocal l s) := by
  unfold scrubLocal
  try dsimp only
  repeat'
    first
    | with_reducible assumption
    | with_reducible refine wipeBank_keeps ?_
    | with_reducible exact Shell_wipe_keeps ‹_›
    | with_reducible refine Shell_wipe_keeps ?_
    | with_reducible refine clearTallies_keeps ?_
    | with_reducible refine State_setLane_keeps ?_
    | with_reducible exact id
    | with_reducible refine memOk_mk ?_ ?_
    | split
    | with_reducible refine Keeps.foldl (fun _ _ _ => ?_) _ ?_
    | with_reducible refine shellsOk_map (fun _ h => ?_)
    | with_reducible exact wf_filter _
    | with_reducible refine Keeps.upd ?_ rfl (fun _ h => h) ?_ ?_ ?_

theorem scrubDram_keeps {s0 : State} {l : LaneId} {s : State} (h : Keeps s0 s) : Keeps s0 (scrubDram l s) := by
  unfold scrubDram
  try dsimp only
  repeat'
    first
    | with_reducible assumption
    | with_reducible refine State_setRegion_keeps ?_
    | with_reducible refine forgetUnits_keeps ?_
    | with_reducible refine clearGen_keeps ?_
    | with_reducible refine Keeps.foldl (fun _ _ _ => ?_) _ ?_

theorem scrubEnd_keeps {s0 : State} {l : LaneId} {s : State} (h : Keeps s0 s) : Keeps s0 (scrubEnd l s) := by
  unfold scrubEnd
  try dsimp only
  repeat'
    first
    | with_reducible assumption
    | with_reducible refine State_setLane_keeps ?_
    | with_reducible refine State_raise_keeps ?_
    | with_reducible exact id
    | with_reducible refine Keeps.upd ?_ rfl (fun _ h => h) ?_ ?_ ?_

theorem scrubStepDone_keeps {s0 s : State} {l : LaneId} (h : Keeps s0 s) : Keeps s0 (scrubStepDone l s) := by
  have hs : ∀ k, Keeps s0 (s.setLane l fun L => { L with scrubStep := some k }) := fun _ => State_setLane_keeps h
  unfold scrubStepDone
  split
  · dsimp only
    split
    · exact strFree_keeps (discardLane_keeps (hs _))
    · exact hs _
    · split
      · exact h
      · exact scrubKeys_keeps (hs _)
    · exact scrubLocal_keeps (hs _)
    · exact scrubDram_keeps (hs _)
    · exact scrubEnd_keeps h
  · exact h

end Sys2Proof.Laws
end

