-- ==== Sys2Proof/Laws/KeepEdge.lean ====
section
/-! SUPPORT. What the operations of Edge keep. -/

namespace Sys2Proof.Laws
open Sys2Proof Sys2Proof.Machine

theorem bindSubmit_keeps {s0 : State} {k : Fin 8} {s : State} (h : Keeps s0 s) : Keeps s0 (bindSubmit k s).2 := by
  unfold bindSubmit
  try dsimp only
  repeat'
    first
    | with_reducible assumption
    | with_reducible refine submit_keeps ?_
    | refine KeepsE2.of_eq (submit_keeps ?_) ‹_›
    | with_reducible exact id
    | split
    | with_reducible refine shellsOk_upd (fun _ h => ?_)
    | dsimp only
    | with_reducible refine Keeps.upd ?_ rfl (fun _ h => h) ?_ ?_ ?_

theorem bindRun_keeps {s0 : State} {code : Nat} {s : State} (h : Keeps s0 s) : Keeps s0 (bindRun code s).2 := by
  unfold bindRun
  try dsimp only
  repeat'
    first
    | with_reducible assumption
    | with_reducible refine bindSubmit_keeps ?_
    | refine Keeps.of_eq (bindSubmit_keeps ?_) ‹_›
    | split
    | with_reducible refine Keeps.foldl (fun _ _ _ => ?_) _ ?_
    | with_reducible refine Keeps.foldl2 (fun _ _ _ => ?_) _ ?_
    | dsimp only
    | refine Keeps.of_eq ?_ ‹_ = (_, _)›

theorem enqueue_keeps {s0 : State} {ev : EdgeEv} {t : W64} {bound : Option BindResult} {s : State} (h : Keeps s0 s) : Keeps s0 (enqueue ev t bound s) := by
  unfold enqueue
  try dsimp only
  repeat'
    first
    | with_reducible assumption
    | with_reducible exact id
    | split
    | with_reducible refine Keeps.upd ?_ rfl (fun _ h => h) ?_ ?_ ?_

theorem edgeEvent_keeps {s0 : State} {ev : EdgeEv} {t : W64} {s : State} (h : Keeps s0 s) : Keeps s0 (edgeEvent ev t s) := by
  unfold edgeEvent
  try dsimp only
  repeat'
    first
    | with_reducible assumption
    | with_reducible refine bindRun_keeps ?_
    | refine Keeps.of_eq (bindRun_keeps ?_) ‹_›
    | with_reducible refine enqueue_keeps ?_
    | split
    | dsimp only
    | refine Keeps.of_eq ?_ ‹_ = (_, _)›

theorem setQueue_keeps {s0 : State} {s : State} {q : List QueueEntry} (h : Keeps s0 s) : Keeps s0 (setQueue s q) := by
  unfold setQueue
  try dsimp only
  repeat'
    first
    | with_reducible assumption
    | with_reducible exact id
    | with_reducible refine Keeps.upd ?_ rfl (fun _ h => h) ?_ ?_ ?_

theorem callTakes_keeps {s0 : State} {s : State} (h : Keeps s0 s) : Keeps s0 (callTakes s) := by
  unfold callTakes
  try dsimp only
  repeat'
    first
    | with_reducible assumption
    | with_reducible refine State_callEvent_keeps ?_
    | with_reducible refine setQueue_keeps ?_
    | split

theorem hostTakes_keeps {s0 : State} {s : State} (h : Keeps s0 s) : Keeps s0 (hostTakes s) := by
  unfold hostTakes
  try dsimp only
  repeat'
    first
    | with_reducible assumption
    | with_reducible refine State_ringEvent_keeps ?_
    | with_reducible refine setQueue_keeps ?_
    | split

theorem eventDeliver_keeps {s0 : State} {s : State} (h : Keeps s0 s) : Keeps s0 (eventDeliver s) := by
  unfold eventDeliver
  try dsimp only
  repeat'
    first
    | with_reducible assumption
    | with_reducible refine hostTakes_keeps ?_
    | with_reducible refine callTakes_keeps ?_
    | with_reducible refine setQueue_keeps ?_
    | split

theorem eventQueueLatch_keeps {s0 : State} {s : State} (h : Keeps s0 s) : Keeps s0 (eventQueueLatch s) := by
  unfold eventQueueLatch
  try dsimp only
  repeat'
    first
    | with_reducible assumption
    | with_reducible refine elapseTo_keeps ?_
    | with_reducible exact id
    | split
    | with_reducible refine shellsOk_map (fun _ h => ?_)
    | with_reducible refine Keeps.upd ?_ rfl (fun _ h => h) ?_ ?_ ?_

theorem readEdgeLost_keeps {s0 : State} {s : State} (h : Keeps s0 s) : Keeps s0 (readEdgeLost s).2 := by
  unfold readEdgeLost
  try dsimp only
  repeat'
    first
    | with_reducible assumption
    | with_reducible exact id
    | dsimp only
    | with_reducible refine Keeps.upd ?_ rfl (fun _ h => h) ?_ ?_ ?_

theorem edgeLostRead_keeps {s0 : State} {path : Path} {s : State} (h : Keeps s0 s) : Keeps s0 (edgeLostRead path s) := by
  unfold edgeLostRead
  try dsimp only
  repeat'
    first
    | with_reducible assumption
    | with_reducible refine readEdgeLost_keeps ?_
    | refine Keeps.of_eq (readEdgeLost_keeps ?_) ‹_›
    | with_reducible refine State_answered_keeps ?_
    | split
    | dsimp only
    | refine Keeps.of_eq ?_ ‹_ = (_, _)›

theorem setBtn_keeps {s0 : State} {n : Fin 12} {f : Debounce → Debounce} {s : State} (h : Keeps s0 s) : Keeps s0 (setBtn n f s) := by
  unfold setBtn
  try dsimp only
  repeat'
    first
    | with_reducible assumption
    | with_reducible exact id
    | with_reducible refine shellsOk_upd (fun _ h => ?_)
    | with_reducible refine Keeps.upd ?_ rfl (fun _ h => h) ?_ ?_ ?_

theorem setPlug_keeps {s0 : State} {n : Fin 2} {f : Debounce → Debounce} {s : State} (h : Keeps s0 s) : Keeps s0 (setPlug n f s) := by
  unfold setPlug
  try dsimp only
  repeat'
    first
    | with_reducible assumption
    | with_reducible exact id
    | with_reducible refine shellsOk_upd (fun _ h => ?_)
    | with_reducible refine Keeps.upd ?_ rfl (fun _ h => h) ?_ ?_ ?_

theorem btnChange_keeps {s0 : State} {n : Fin 12} {down : Bool} {s : State} (h : Keeps s0 s) : Keeps s0 (btnChange n down s) := by
  unfold btnChange
  try dsimp only
  repeat'
    first
    | with_reducible assumption
    | with_reducible refine setBtn_keeps ?_

theorem plugChange_keeps {s0 : State} {n : Fin 2} {present : Bool} {s : State} (h : Keeps s0 s) : Keeps s0 (plugChange n present s) := by
  unfold plugChange
  try dsimp only
  repeat'
    first
    | with_reducible assumption
    | with_reducible refine setPlug_keeps ?_

theorem pushUrgent_keeps {s0 : State} {n : Fin 2} {second : Bool} {s : State} (h : Keeps s0 s) : Keeps s0 (pushUrgent n second s) := by
  unfold pushUrgent
  try dsimp only
  repeat'
    first
    | with_reducible assumption
    | with_reducible exact id
    | with_reducible refine Keeps.upd ?_ rfl (fun _ h => h) ?_ ?_ ?_

theorem impStart_keeps {s0 : State} {n : Fin 2} {s : State} (h : Keeps s0 s) : Keeps s0 (impStart n s) := by
  unfold impStart
  try dsimp only
  repeat'
    first
    | with_reducible assumption
    | with_reducible refine pushUrgent_keeps ?_
    | with_reducible exact id
    | split
    | with_reducible refine Keeps.upd ?_ rfl (fun _ h => h) ?_ ?_ ?_

theorem decideInput_keeps {s0 : State} {r : Fin 14} {t : Nat} {s : State} (h : Keeps s0 s) : Keeps s0 (decideInput r t s) := by
  unfold decideInput
  try dsimp only
  repeat'
    first
    | with_reducible assumption
    | with_reducible refine elapseTo_keeps ?_
    | with_reducible refine setPlug_keeps ?_
    | with_reducible refine edgeEvent_keeps ?_
    | with_reducible refine impStart_keeps ?_
    | with_reducible refine setBtn_keeps ?_
    | split

theorem decideUpTo_keeps {s0 : State} {a : Nat} {a_1 : Nat} {a_2 : State} (h : Keeps s0 a_2) : Keeps s0 (decideUpTo a a_1 a_2) := by
  induction a generalizing a_1 a_2 with
  | zero => exact h
  | succ n ih =>
    unfold decideUpTo
    try dsimp only
    repeat'
      first
      | with_reducible assumption
      | with_reducible refine ih ?_
      | with_reducible refine decideInput_keeps ?_
      | split

theorem inputDebounced_keeps {s0 : State} {r : Fin 14} {s : State} (h : Keeps s0 s) : Keeps s0 (inputDebounced r s) := by
  unfold inputDebounced
  try dsimp only
  repeat'
    first
    | with_reducible assumption
    | with_reducible refine decideUpTo_keeps ?_
    | split

theorem btnDebounced_keeps {s0 : State} {n : Fin 12} {s : State} (h : Keeps s0 s) : Keeps s0 (btnDebounced n s) := by
  unfold btnDebounced
  try dsimp only
  repeat'
    first
    | with_reducible assumption
    | with_reducible refine inputDebounced_keeps ?_

theorem plugDebounced_keeps {s0 : State} {n : Fin 2} {s : State} (h : Keeps s0 s) : Keeps s0 (plugDebounced n s) := by
  unfold plugDebounced
  try dsimp only
  repeat'
    first
    | with_reducible assumption
    | with_reducible refine inputDebounced_keeps ?_

theorem eventNow_keeps {s0 : State} {ev : EdgeEv} {s : State} (h : Keeps s0 s) : Keeps s0 (eventNow ev s) := by
  unfold eventNow
  try dsimp only
  repeat'
    first
    | with_reducible assumption
    | with_reducible refine decideUpTo_keeps ?_
    | with_reducible refine edgeEvent_keeps ?_

theorem plugResult_keeps {s0 : State} {n : Fin 2} {second : Bool} {data : Nat} {s : State} (h : Keeps s0 s) : Keeps s0 (plugResult n second data s) := by
  unfold plugResult
  try dsimp only
  repeat'
    first
    | with_reducible assumption
    | with_reducible refine eventNow_keeps ?_
    | with_reducible refine setPlug_keeps ?_
    | with_reducible refine pushUrgent_keeps ?_
    | with_reducible exact id
    | split
    | with_reducible refine Keeps.upd ?_ rfl (fun _ h => h) ?_ ?_ ?_

theorem touchResult_keeps {s0 : State} {n : Fin 4} {data : Nat} {s : State} (h : Keeps s0 s) : Keeps s0 (touchResult n data s) := by
  unfold touchResult
  try dsimp only
  repeat'
    first
    | with_reducible assumption
    | with_reducible refine eventNow_keeps ?_
    | with_reducible exact id
    | split
    | with_reducible refine Keeps.upd ?_ rfl (fun _ h => h) ?_ ?_ ?_

theorem setPwm_keeps {s0 : State} {k : Fin 4} {f : Pwm → Pwm} {s : State} (h : Keeps s0 s) : Keeps s0 (setPwm k f s) := by
  unfold setPwm
  try dsimp only
  repeat'
    first
    | with_reducible assumption
    | with_reducible exact id
    | with_reducible refine shellsOk_upd (fun _ h => ?_)
    | with_reducible refine Keeps.upd ?_ rfl (fun _ h => h) ?_ ?_ ?_

theorem pwmBoundary_keeps {s0 : State} {k : Fin 4} {s : State} (h : Keeps s0 s) : Keeps s0 (pwmBoundary k s) := by
  unfold pwmBoundary
  try dsimp only
  repeat'
    first
    | with_reducible assumption
    | with_reducible refine elapseTo_keeps ?_
    | with_reducible refine setPwm_keeps ?_
    | split

theorem pwmGo_keeps {s0 : State} {k : Fin 4} {s : State} (h : Keeps s0 s) : Keeps s0 (pwmGo k s) := by
  unfold pwmGo
  try dsimp only
  repeat'
    first
    | with_reducible assumption
    | with_reducible refine setPwm_keeps ?_

theorem pwmGoDo_keeps {s0 : State} {path : Path} {k : Fin 4} {s : State} (h : Keeps s0 s) : Keeps s0 (pwmGoDo path k s) := by
  unfold pwmGoDo
  try dsimp only
  repeat'
    first
    | with_reducible assumption
    | with_reducible refine pwmGo_keeps ?_
    | split

theorem pwmBurstEnd_keeps {s0 : State} {k : Fin 4} {s : State} (h : Keeps s0 s) : Keeps s0 (pwmBurstEnd k s) := by
  unfold pwmBurstEnd
  try dsimp only
  repeat'
    first
    | with_reducible assumption
    | with_reducible refine elapseTo_keeps ?_
    | with_reducible refine setPwm_keeps ?_
    | split

theorem setTouchReg_keeps {s0 : State} {n : Fin 4} {v : W32} {s : State} (h : Keeps s0 s) : Keeps s0 (setTouchReg n v s) := by
  unfold setTouchReg
  try dsimp only
  repeat'
    first
    | with_reducible assumption
    | with_reducible exact id
    | with_reducible refine shellsOk_upd (fun _ h => ?_)
    | with_reducible refine Keeps.upd ?_ rfl (fun _ h => h) ?_ ?_ ?_

theorem writeEdge_keeps {s0 : State} {p : Path} {o : Nat} {v : W32} {s : State} (h : Keeps s0 s) : Keeps s0 (writeEdge p o v s) := by
  unfold writeEdge
  try dsimp only
  repeat'
    first
    | with_reducible assumption
    | with_reducible refine setTouchReg_keeps ?_
    | with_reducible refine setPwm_keeps ?_
    | with_reducible refine pwmGo_keeps ?_
    | with_reducible exact id
    | split
    | with_reducible refine Keeps.upd ?_ rfl (fun _ h => h) ?_ ?_ ?_

theorem doEdgeState_keeps {s0 : State} {c : Caller} {s : State} (h : Keeps s0 s) : Keeps s0 (doEdgeState c s) := by
  unfold doEdgeState
  try dsimp only
  repeat'
    first
    | with_reducible assumption
    | with_reducible refine State_gate_keeps ?_ ?_
    | with_reducible refine State_okWith_keeps ?_

theorem setBtnByte_keeps {s0 : State} {n : Fin 12} {v : Nat} {s : State} (h : Keeps s0 s) : Keeps s0 (setBtnByte n v s) := by
  unfold setBtnByte
  try dsimp only
  repeat'
    first
    | with_reducible assumption
    | with_reducible exact id
    | with_reducible refine shellsOk_upd (fun _ h => ?_)
    | with_reducible refine Keeps.upd ?_ rfl (fun _ h => h) ?_ ?_ ?_

theorem setPlugByte_keeps {s0 : State} {n : Fin 2} {v : Nat} {s : State} (h : Keeps s0 s) : Keeps s0 (setPlugByte n v s) := by
  unfold setPlugByte
  try dsimp only
  repeat'
    first
    | with_reducible assumption
    | with_reducible exact id
    | with_reducible refine Keeps.upd ?_ rfl (fun _ h => h) ?_ ?_ ?_

theorem edgeGate_keeps {s0 s k : State} {c : Caller} (h : Keeps s0 s) (hk : Keeps s0 k) : Keeps s0 (edgeGate c s k) := by
  unfold edgeGate
  exact State_gate_keeps h hk

theorem edgeWrite_keeps {s0 s : State} {f : State → State} {c : Caller} (h : Keeps s0 s) (hf : ∀ s, Keeps s0 s → Keeps s0 (f s)) :
    Keeps s0 (edgeWrite c f s) := by
  unfold edgeWrite
  split
  · exact hf _ h
  · exact h

theorem doEdgeBtn_keeps {s0 : State} {c : Caller} {n : Fin 12} {db : Option Nat} {en : Option Bool} {pu : Option Bool} {s : State} (h : Keeps s0 s) :
    Keeps s0 (doEdgeBtn c n db en pu s) := by
  unfold doEdgeBtn
  refine edgeGate_keeps h ?_
  split
  · exact State_fail_keeps h
  · exact State_ok_keeps (edgeWrite_keeps h fun _ h => setBtnByte_keeps h)

theorem doEdgePlug_keeps {s0 : State} {c : Caller} {n : Fin 2} {db : Option Nat} {en : Option Bool} {imp : Option Bool} {s : State} (h : Keeps s0 s) :
    Keeps s0 (doEdgePlug c n db en imp s) := by
  unfold doEdgePlug
  refine edgeGate_keeps h ?_
  split
  · exact State_fail_keeps h
  · exact State_ok_keeps (edgeWrite_keeps h fun _ h => setPlugByte_keeps h)

theorem doEdgeTouch_keeps {s0 : State} {c : Caller} {n : Fin 4} {on : Option Nat} {off : Option Nat} {en : Option Bool} {s : State} (h : Keeps s0 s) :
    Keeps s0 (doEdgeTouch c n on off en s) := by
  unfold doEdgeTouch
  refine edgeGate_keeps h ?_
  split
  · exact State_fail_keeps h
  · exact State_ok_keeps (edgeWrite_keeps h fun _ h => setTouchReg_keeps h)

theorem pwmSet_keeps {s0 : State} {k : Fin 4} {period : Option Nat} {duty : Option Nat} {pre : Option Nat} {pol : Option Bool} {burst : Option Nat} {act : Option PwmAct} {s : State} (h : Keeps s0 s) : Keeps s0 (pwmSet k period duty pre pol burst act s) := by
  unfold pwmSet
  try dsimp only
  repeat'
    first
    | with_reducible assumption
    | with_reducible refine setPwm_keeps ?_
    | with_reducible refine pwmGo_keeps ?_
    | split

theorem doEdgePwm_keeps {s0 : State} {c : Caller} {k : Fin 4} {period : Option Nat} {duty : Option Nat} {pre : Option Nat} {pol : Option Bool} {burst : Option Nat} {act : Option PwmAct} {s : State} (h : Keeps s0 s) :
    Keeps s0 (doEdgePwm c k period duty pre pol burst act s) := by
  unfold doEdgePwm
  refine edgeGate_keeps h ?_
  split
  · exact State_fail_keeps h
  · exact State_ok_keeps (edgeWrite_keeps h fun _ h => pwmSet_keeps h)

theorem doEdgeBind_keeps {s0 : State} {c : Caller} {k : Fin 8} {code : Byte} {l : LaneId} {h_4 : Nat} {e : Nat} {args : List HeatArg} {s : State} (h : Keeps s0 s) : Keeps s0 (doEdgeBind c k code l h_4 e args s) := by
  unfold doEdgeBind
  try dsimp only
  repeat'
    first
    | with_reducible assumption
    | with_reducible refine edgeGate_keeps ?_ ?_
    | with_reducible refine State_fail_keeps ?_
    | with_reducible refine State_ok_keeps ?_
    | with_reducible exact id
    | split
    | with_reducible refine Keeps.upd ?_ rfl (fun _ h => h) ?_ ?_ ?_

theorem doEdgeUnbind_keeps {s0 : State} {c : Caller} {k : Fin 8} {s : State} (h : Keeps s0 s) : Keeps s0 (doEdgeUnbind c k s) := by
  unfold doEdgeUnbind
  try dsimp only
  repeat'
    first
    | with_reducible assumption
    | with_reducible refine edgeGate_keeps ?_ ?_
    | with_reducible refine State_fail_keeps ?_
    | with_reducible refine State_ok_keeps ?_
    | with_reducible exact id
    | split
    | with_reducible refine Keeps.upd ?_ rfl (fun _ h => h) ?_ ?_ ?_

theorem doTrigState_keeps {s0 : State} {c : Caller} {s : State} (h : Keeps s0 s) : Keeps s0 (doTrigState c s) := by
  unfold doTrigState
  try dsimp only
  repeat'
    first
    | with_reducible assumption
    | with_reducible refine State_gate_keeps ?_ ?_
    | with_reducible refine State_okWith_keeps ?_

theorem doTrigTmr_keeps {s0 : State} {c : Caller} {n : Fin 8} {period : Option Nat} {compare : Option Nat} {on : Option Bool} {s : State} (h : Keeps s0 s) : Keeps s0 (doTrigTmr c n period compare on s) := by
  unfold doTrigTmr
  try dsimp only
  repeat'
    first
    | with_reducible assumption
    | with_reducible refine State_gate_keeps ?_ ?_
    | with_reducible refine State_fail_keeps ?_
    | with_reducible refine State_setChan_keeps ?_
    | with_reducible refine tmrStart_keeps ?_
    | with_reducible refine tmrStop_keeps ?_
    | with_reducible refine State_ok_keeps ?_
    | split

theorem doTrigOut_keeps {s0 : State} {c : Caller} {src : Option (Fin 8)} {s : State} (h : Keeps s0 s) : Keeps s0 (doTrigOut c src s) := by
  unfold doTrigOut
  try dsimp only
  repeat'
    first
    | with_reducible assumption
    | with_reducible refine State_gate_keeps ?_ ?_
    | with_reducible refine State_ok_keeps ?_
    | with_reducible exact id
    | with_reducible refine Keeps.upd ?_ rfl (fun _ h => h) ?_ ?_ ?_

theorem doTrigPulse_keeps {s0 : State} {c : Caller} {width : Option Nat} {s : State} (h : Keeps s0 s) : Keeps s0 (doTrigPulse c width s) := by
  unfold doTrigPulse
  try dsimp only
  repeat'
    first
    | with_reducible assumption
    | with_reducible refine State_gate_keeps ?_ ?_
    | with_reducible refine State_fail_keeps ?_
    | with_reducible refine doPulse_keeps ?_
    | with_reducible refine State_ok_keeps ?_
    | with_reducible exact id
    | split
    | with_reducible refine Keeps.upd ?_ rfl (fun _ h => h) ?_ ?_ ?_

end Sys2Proof.Laws
end

