-- ==== Sys2Proof/Laws/KeepEye.lean ====
section
/-! SUPPORT. What the operations of Eye keep. -/

namespace Sys2Proof.Laws
open Sys2Proof Sys2Proof.Machine

theorem State_setEye_keeps {s0 : State} {s : State} {f : Eye → Eye} (h : Keeps s0 s) : Keeps s0 (State.setEye s f) := by
  unfold State.setEye
  try dsimp only
  repeat'
    first
    | with_reducible assumption
    | with_reducible exact id
    | with_reducible refine Keeps.upd ?_ rfl (fun _ h => h) ?_ ?_ ?_

theorem State_freshCycle_keeps {s0 : State} {s : State} (h : Keeps s0 s) : Keeps s0 (State.freshCycle s) := by
  unfold State.freshCycle
  try dsimp only
  repeat'
    first
    | with_reducible assumption
    | with_reducible refine State_setEye_keeps ?_

theorem abandonFrame_keeps {s0 : State} {s : State} (h : Keeps s0 s) : Keeps s0 (abandonFrame s) := by
  unfold abandonFrame
  try dsimp only
  repeat'
    first
    | with_reducible assumption
    | with_reducible refine State_setEye_keeps ?_
    | split

theorem abandonFrames_keeps {s0 : State} {s : State} (h : Keeps s0 s) : Keeps s0 (abandonFrames s) := by
  unfold abandonFrames
  try dsimp only
  repeat'
    first
    | with_reducible assumption
    | with_reducible refine abandonFrame_keeps ?_
    | with_reducible refine State_setEye_keeps ?_
    | split

theorem eyeFault_keeps {s0 : State} {s : State} (h : Keeps s0 s) : Keeps s0 (eyeFault s) := by
  unfold eyeFault
  try dsimp only
  repeat'
    first
    | with_reducible assumption
    | with_reducible refine State_setEye_keeps ?_
    | with_reducible refine State_raise_keeps ?_
    | with_reducible exact id
    | with_reducible refine Keeps.upd ?_ rfl (fun _ h => h) ?_ ?_ ?_

theorem retireSlice_keeps {s0 : State} {k : Fin 9} {cause : Cause} {s : State} (h : Keeps s0 s) : Keeps s0 (retireSlice k cause s) := by
  unfold retireSlice
  try dsimp only
  repeat'
    first
    | with_reducible assumption
    | with_reducible refine State_setEye_keeps ?_
    | with_reducible refine fenceRecords_keeps ?_
    | with_reducible refine eyeFault_keeps ?_
    | split

theorem calFail_keeps {s0 : State} {k : Fin 9} {s : State} (h : Keeps s0 s) : Keeps s0 (calFail k s) := by
  unfold calFail
  try dsimp only
  repeat'
    first
    | with_reducible assumption
    | with_reducible refine State_setEye_keeps ?_
    | with_reducible refine retireSlice_keeps ?_
    | split

theorem calReferenceDone_keeps {s0 : State} {sums : List Nat} {s : State} (h : Keeps s0 s) : Keeps s0 (calReferenceDone sums s) := by
  unfold calReferenceDone
  try dsimp only
  repeat'
    first
    | with_reducible assumption
    | with_reducible refine State_setEye_keeps ?_
    | split

theorem calShadowDone_keeps {s0 : State} {skew : Int} {differs : Bool} {s : State} (h : Keeps s0 s) : Keeps s0 (calShadowDone skew differs s) := by
  unfold calShadowDone
  try dsimp only
  repeat'
    first
    | with_reducible assumption
    | with_reducible refine State_freshCycle_keeps ?_
    | with_reducible refine calFail_keeps ?_
    | with_reducible refine State_setEye_keeps ?_
    | split

theorem sliceSwap_keeps {s0 : State} {s : State} (h : Keeps s0 s) : Keeps s0 (sliceSwap s) := by
  unfold sliceSwap
  try dsimp only
  repeat'
    first
    | with_reducible assumption
    | with_reducible refine elapseTo_keeps ?_
    | with_reducible refine State_freshCycle_keeps ?_
    | with_reducible refine State_setEye_keeps ?_
    | split

theorem calOne_keeps {s0 : State} {sums : List (List Nat)} {k : Fin 9} {s : State} (h : Keeps s0 s) : Keeps s0 (calOne sums k s) := by
  unfold calOne
  try dsimp only
  repeat'
    first
    | with_reducible assumption
    | with_reducible refine State_setEye_keeps ?_
    | with_reducible refine calFail_keeps ?_
    | split

theorem foregroundCal_keeps {s0 : State} {sums : List (List Nat)} {s : State} (h : Keeps s0 s) : Keeps s0 (foregroundCal sums s) := by
  unfold foregroundCal
  try dsimp only
  repeat'
    first
    | with_reducible assumption
    | with_reducible refine elapseTo_keeps ?_
    | with_reducible refine State_setEye_keeps ?_
    | with_reducible refine calOne_keeps ?_
    | split
    | with_reducible refine Keeps.foldl (fun _ _ _ => ?_) _ ?_

theorem stalecalTimeout_keeps {s0 : State} {s : State} (h : Keeps s0 s) : Keeps s0 (stalecalTimeout s) := by
  unfold stalecalTimeout
  try dsimp only
  repeat'
    first
    | with_reducible assumption
    | with_reducible refine State_setEye_keeps ?_
    | with_reducible refine elapseTo_keeps ?_
    | split

theorem eyeReady_keeps {s0 : State} {sums : List (List Nat)} {s : State} (h : Keeps s0 s) : Keeps s0 (eyeReady sums s) := by
  unfold eyeReady
  try dsimp only
  repeat'
    first
    | with_reducible assumption
    | with_reducible refine State_setEye_keeps ?_
    | with_reducible refine calOne_keeps ?_
    | with_reducible refine State_freshCycle_keeps ?_
    | split
    | with_reducible refine Keeps.foldl (fun _ _ _ => ?_) _ ?_

theorem trigger_keeps {s0 : State} {t : W64} {s : State} (h : Keeps s0 s) : Keeps s0 (trigger t s) := by
  unfold trigger
  try dsimp only
  repeat'
    first
    | with_reducible assumption
    | with_reducible refine State_setEye_keeps ?_
    | split

theorem eyeTrigger_keeps {s0 : State} {src : TrigSrc} {s : State} (h : Keeps s0 s) : Keeps s0 (eyeTrigger src s) := by
  unfold eyeTrigger
  try dsimp only
  repeat'
    first
    | with_reducible assumption
    | with_reducible refine trigger_keeps ?_
    | with_reducible refine State_setEye_keeps ?_
    | with_reducible refine elapseTo_keeps ?_
    | split

theorem exposureStart_keeps {s0 : State} {s : State} (h : Keeps s0 s) : Keeps s0 (exposureStart s) := by
  unfold exposureStart
  try dsimp only
  repeat'
    first
    | with_reducible assumption
    | with_reducible refine State_setEye_keeps ?_
    | with_reducible refine elapseTo_keeps ?_
    | split

theorem exposureEnd_keeps {s0 : State} {s : State} (h : Keeps s0 s) : Keeps s0 (exposureEnd s) := by
  unfold exposureEnd
  try dsimp only
  repeat'
    first
    | with_reducible assumption
    | with_reducible refine elapseTo_keeps ?_
    | with_reducible refine State_setEye_keeps ?_
    | split

theorem irPulseEdge_keeps {s0 : State} {rise : Bool} {s : State} (h : Keeps s0 s) : Keeps s0 (irPulseEdge rise s) := by
  unfold irPulseEdge
  try dsimp only
  repeat'
    first
    | with_reducible assumption
    | with_reducible refine elapseTo_keeps ?_
    | with_reducible refine State_setEye_keeps ?_
    | split

theorem irLimitCut_keeps {s0 : State} {s : State} (h : Keeps s0 s) : Keeps s0 (irLimitCut s) := by
  unfold irLimitCut
  try dsimp only
  repeat'
    first
    | with_reducible assumption
    | with_reducible refine elapseTo_keeps ?_
    | with_reducible refine State_setEye_keeps ?_
    | split

theorem putFrame_keeps {s0 s : State} {b : Fin 64} {head px : List Byte} (h : Keeps s0 s) : Keeps s0 (putFrame b head px s) := by
  unfold putFrame
  split
  · exact Keeps.upd h rfl (fun _ h => h) (fun m => ⟨m.1, wf_put _ _ (wf_put _ _ m.2)⟩) id id
  · exact h

theorem copyFrame_keeps {s0 : State} {head : List Byte} {px : List Byte} {s : State} (h : Keeps s0 s) : Keeps s0 (copyFrame head px s) := by
  unfold copyFrame
  try dsimp only
  repeat'
    first
    | with_reducible assumption
    | with_reducible refine putFrame_keeps ?_
    | with_reducible refine State_setEye_keeps ?_
    | split

theorem lookSubmit_keeps {s0 : State} {slot : Fin 64} {units : Nat} {f : Frame} {s : State} (h : Keeps s0 s) : Keeps s0 (lookSubmit slot units f s) := by
  unfold lookSubmit
  try dsimp only
  repeat'
    first
    | with_reducible assumption
    | with_reducible refine submit_keeps ?_
    | refine KeepsE2.of_eq (submit_keeps ?_) ‹_›
    | with_reducible refine State_setEye_keeps ?_
    | split

theorem eyeTally_keeps {s0 : State} {s : State} (h : Keeps s0 s) : Keeps s0 (eyeTally s) := by
  unfold eyeTally
  try dsimp only
  repeat'
    first
    | with_reducible assumption
    | with_reducible refine State_tallyAdd_keeps ?_
    | split

theorem frameComplete_keeps {s0 : State} {raws : List (BitVec 12)} {s : State} (h : Keeps s0 s) : Keeps s0 (frameComplete raws s) := by
  unfold frameComplete
  try dsimp only
  repeat'
    first
    | with_reducible assumption
    | with_reducible refine State_arbServed_keeps ?_
    | with_reducible refine putFrame_keeps ?_
    | with_reducible refine State_setEye_keeps ?_
    | with_reducible refine copyFrame_keeps ?_
    | with_reducible refine eyeTally_keeps ?_
    | with_reducible refine lookSubmit_keeps ?_
    | split

theorem frameAbandoned_keeps {s0 : State} {s : State} (h : Keeps s0 s) : Keeps s0 (frameAbandoned s) := by
  unfold frameAbandoned
  try dsimp only
  repeat'
    first
    | with_reducible assumption
    | with_reducible refine abandonFrame_keeps ?_
    | split

theorem lookConfigure_keeps {s0 : State} {attending : Bool} {s : State} (h : Keeps s0 s) : Keeps s0 (lookConfigure attending s) := by
  unfold lookConfigure
  try dsimp only
  repeat'
    first
    | with_reducible assumption
    | with_reducible refine State_setEye_keeps ?_
    | with_reducible refine State_setChan_keeps ?_
    | with_reducible refine tmrStart_keeps ?_
    | split

theorem lookBind_keeps {s0 : State} {s : State} (h : Keeps s0 s) : Keeps s0 (lookBind s) := by
  unfold lookBind
  try dsimp only
  repeat'
    first
    | with_reducible assumption
    | with_reducible refine draw_keeps ?_
    | refine Keeps.of_eq (draw_keeps ?_) ‹_›
    | with_reducible refine State_setEye_keeps ?_
    | split
    | dsimp only
    | refine Keeps.of_eq ?_ ‹_ = (_, _)›

theorem lookStore_keeps {s0 : State} {ev : LookEvent} {s : State} (h : Keeps s0 s) : Keeps s0 (lookStore ev s) := by
  unfold lookStore
  try dsimp only
  repeat'
    first
    | with_reducible assumption
    | with_reducible refine State_setEye_keeps ?_
    | split

theorem lookRaise_keeps {s0 : State} {f : W32 × W64} {name : String} {fields : List (String × Val)} {code : Option Nat} {s : State} (h : Keeps s0 s) : Keeps s0 (lookRaise f name fields code s) := by
  unfold lookRaise
  try dsimp only
  repeat'
    first
    | with_reducible assumption
    | with_reducible refine bindRun_keeps ?_
    | refine Keeps.of_eq (bindRun_keeps ?_) ‹_›
    | with_reducible refine lookStore_keeps ?_
    | split
    | dsimp only
    | refine Keeps.of_eq ?_ ‹_ = (_, _)›

theorem presence_keeps {s0 : State} {f : W32 × W64} {faces : Nat} {s : State} (h : Keeps s0 s) : Keeps s0 (presence f faces s) := by
  unfold presence
  try dsimp only
  repeat'
    first
    | with_reducible assumption
    | with_reducible refine State_setEye_keeps ?_
    | with_reducible refine lookRaise_keeps ?_
    | with_reducible refine lookConfigure_keeps ?_
    | split

theorem lookFaces_keeps {s0 : State} {f : W32 × W64} {seen : List FaceSeen} {s : State} (h : Keeps s0 s) : Keeps s0 (lookFaces f seen s) := by
  unfold lookFaces
  try dsimp only
  repeat'
    first
    | with_reducible assumption
    | with_reducible refine lookRaise_keeps ?_
    | with_reducible refine State_setEye_keeps ?_
    | split
    | with_reducible refine Keeps.foldl (fun _ _ _ => ?_) _ ?_
    | with_reducible refine Keeps.foldl2 (fun _ _ _ => ?_) _ ?_

theorem lookSpeech_keeps {s0 : State} {f : W32 × W64} {seen : List FaceSeen} {s : State} (h : Keeps s0 s) : Keeps s0 (lookSpeech f seen s) := by
  unfold lookSpeech
  try dsimp only
  repeat'
    first
    | with_reducible assumption
    | with_reducible refine lookRaise_keeps ?_
    | with_reducible refine State_setEye_keeps ?_
    | split
    | with_reducible refine Keeps.foldl (fun _ _ _ => ?_) _ ?_

theorem lookEvents_keeps {s0 : State} {f : W32 × W64} {seen : LookSeen} {attending : Bool} {s : State} (h : Keeps s0 s) : Keeps s0 (lookEvents f seen attending s) := by
  unfold lookEvents
  try dsimp only
  repeat'
    first
    | with_reducible assumption
    | with_reducible refine lookFaces_keeps ?_
    | with_reducible refine lookRaise_keeps ?_
    | with_reducible refine lookSpeech_keeps ?_
    | split

theorem lookDecide_keeps {s0 : State} {f : W32 × W64} {seen : LookSeen} {s : State} (h : Keeps s0 s) : Keeps s0 (lookDecide f seen s) := by
  unfold lookDecide
  try dsimp only
  repeat'
    first
    | with_reducible assumption
    | with_reducible refine State_setEye_keeps ?_
    | with_reducible refine lookEvents_keeps ?_
    | with_reducible refine presence_keeps ?_
    | split

theorem lookRetire_keeps {s0 : State} {q : W32} {seen : LookSeen} {s : State} (h : Keeps s0 s) : Keeps s0 (lookRetire q seen s) := by
  unfold lookRetire
  try dsimp only
  repeat'
    first
    | with_reducible assumption
    | with_reducible refine lookDecide_keeps ?_
    | with_reducible refine State_setEye_keeps ?_
    | split

theorem setLook_keeps {s0 : State} {s : State} {l : List LookEvent} (h : Keeps s0 s) : Keeps s0 (setLook s l) := by
  unfold setLook
  try dsimp only
  repeat'
    first
    | with_reducible assumption
    | with_reducible refine State_setEye_keeps ?_

theorem lookCall_keeps {s0 : State} {s : State} (h : Keeps s0 s) : Keeps s0 (lookCall s) := by
  unfold lookCall
  try dsimp only
  repeat'
    first
    | with_reducible assumption
    | with_reducible refine State_callEvent_keeps ?_
    | with_reducible refine setLook_keeps ?_
    | split
    | with_reducible refine Keeps.foldl (fun _ _ _ => ?_) _ ?_

theorem lookRing_keeps {s0 : State} {s : State} (h : Keeps s0 s) : Keeps s0 (lookRing s) := by
  unfold lookRing
  try dsimp only
  repeat'
    first
    | with_reducible assumption
    | with_reducible refine State_ringEvent_keeps ?_
    | with_reducible refine setLook_keeps ?_
    | split
    | with_reducible refine Keeps.foldl (fun _ _ _ => ?_) _ ?_

theorem lookDeliver_keeps {s0 : State} {s : State} (h : Keeps s0 s) : Keeps s0 (lookDeliver s) := by
  unfold lookDeliver
  try dsimp only
  repeat'
    first
    | with_reducible assumption
    | with_reducible refine lookRing_keeps ?_
    | with_reducible refine lookCall_keeps ?_
    | with_reducible refine setLook_keeps ?_
    | split

theorem readEyeMissed_keeps {s0 : State} {s : State} (h : Keeps s0 s) : Keeps s0 (readEyeMissed s).2 := by
  unfold readEyeMissed
  try dsimp only
  repeat'
    first
    | with_reducible assumption
    | dsimp only
    | with_reducible refine State_setEye_keeps ?_

theorem eyeMissedRead_keeps {s0 : State} {path : Path} {s : State} (h : Keeps s0 s) : Keeps s0 (eyeMissedRead path s) := by
  unfold eyeMissedRead
  try dsimp only
  repeat'
    first
    | with_reducible assumption
    | with_reducible refine readEyeMissed_keeps ?_
    | refine Keeps.of_eq (readEyeMissed_keeps ?_) ‹_›
    | with_reducible refine touch_keeps ?_
    | with_reducible refine State_answered_keeps ?_
    | split
    | dsimp only
    | refine Keeps.of_eq ?_ ‹_ = (_, _)›

theorem setHold_keeps {s0 : State} {on : Bool} {s : State} (h : Keeps s0 s) : Keeps s0 (setHold on s) := by
  unfold setHold
  try dsimp only
  repeat'
    first
    | with_reducible assumption
    | with_reducible refine State_setEye_keeps ?_
    | with_reducible refine lookConfigure_keeps ?_
    | split

theorem setCopy_keeps {s0 : State} {en : Bool} {l : LaneId} {bank : Nat} {n : Nat} {s : State} (h : Keeps s0 s) : Keeps s0 (setCopy en l bank n s) := by
  unfold setCopy
  try dsimp only
  repeat'
    first
    | with_reducible assumption
    | with_reducible refine State_setEye_keeps ?_

theorem snap_keeps {s0 : State} {s : State} (h : Keeps s0 s) : Keeps s0 (snap s) := by
  unfold snap
  try dsimp only
  repeat'
    first
    | with_reducible assumption
    | with_reducible refine State_setEye_keeps ?_
    | split

theorem writeEye_keeps {s0 : State} {p : Path} {o : Nat} {v : W32} {s : State} (h : Keeps s0 s) : Keeps s0 (writeEye p o v s) := by
  unfold writeEye
  try dsimp only
  repeat'
    first
    | with_reducible assumption
    | with_reducible refine setHold_keeps ?_
    | with_reducible refine State_setEye_keeps ?_
    | with_reducible refine setCopy_keeps ?_
    | with_reducible refine snap_keeps ?_
    | with_reducible refine Keeps.ite ?_ ?_
    | split

theorem eyeHoldWrite_keeps {s0 : State} {path : Path} {v : W32} {s : State} (h : Keeps s0 s) : Keeps s0 (eyeHoldWrite path v s) := by
  unfold eyeHoldWrite
  try dsimp only
  repeat'
    first
    | with_reducible assumption
    | with_reducible refine writeEye_keeps ?_
    | with_reducible refine touch_keeps ?_

theorem snapDo_keeps {s0 : State} {path : Path} {s : State} (h : Keeps s0 s) : Keeps s0 (snapDo path s) := by
  unfold snapDo
  try dsimp only
  repeat'
    first
    | with_reducible assumption
    | with_reducible refine snap_keeps ?_
    | with_reducible refine touch_keeps ?_
    | split

theorem domGate_keeps {s0 s : State} {c : Caller} {v : String} {d : Dom} {k : State → State} (h : Keeps s0 s)
    (hk : ∀ s, Keeps s0 s → Keeps s0 (k s)) : Keeps s0 (domGate c v d s k) := by
  unfold domGate
  refine State_gate_keeps h ?_
  split
  · exact State_fail_keeps h
  · exact hk _ (touch_keeps h)

theorem doEyeState_keeps {s0 : State} {c : Caller} {s : State} (h : Keeps s0 s) : Keeps s0 (doEyeState c s) := by
  unfold doEyeState
  try dsimp only
  repeat'
    first
    | with_reducible assumption
    | with_reducible refine domGate_keeps ?_ (fun _ _ => ?_)
    | with_reducible refine State_okWith_keeps ?_
    | split

theorem doEyeHold_keeps {s0 : State} {c : Caller} {on : Bool} {s : State} (h : Keeps s0 s) : Keeps s0 (doEyeHold c on s) := by
  unfold doEyeHold
  try dsimp only
  repeat'
    first
    | with_reducible assumption
    | with_reducible refine domGate_keeps ?_ (fun _ _ => ?_)
    | with_reducible refine State_ok_keeps ?_
    | with_reducible refine setHold_keeps ?_
    | with_reducible refine State_fail_keeps ?_
    | split

theorem doEyeSet_keeps {s0 : State} {c : Caller} {a : EyeSetArgs} {s : State} (h : Keeps s0 s) : Keeps s0 (doEyeSet c a s) := by
  unfold doEyeSet
  try dsimp only
  repeat'
    first
    | with_reducible assumption
    | with_reducible refine domGate_keeps ?_ (fun _ _ => ?_)
    | with_reducible refine State_fail_keeps ?_
    | with_reducible refine State_setEye_keeps ?_
    | with_reducible refine State_ok_keeps ?_
    | split

theorem doEyeSnap_keeps {s0 : State} {c : Caller} {s : State} (h : Keeps s0 s) : Keeps s0 (doEyeSnap c s) := by
  unfold doEyeSnap
  try dsimp only
  repeat'
    first
    | with_reducible assumption
    | with_reducible refine domGate_keeps ?_ (fun _ _ => ?_)
    | with_reducible refine State_ok_keeps ?_
    | with_reducible refine snap_keeps ?_
    | with_reducible refine State_fail_keeps ?_
    | split

theorem doEyeLook_keeps {s0 : State} {c : Caller} {attend : Option Bool} {on : Option Nat} {off : Option Nat} {s : State} (h : Keeps s0 s) : Keeps s0 (doEyeLook c attend on off s) := by
  unfold doEyeLook
  try dsimp only
  repeat'
    first
    | with_reducible assumption
    | with_reducible refine domGate_keeps ?_ (fun _ _ => ?_)
    | with_reducible refine State_fail_keeps ?_
    | with_reducible refine State_setEye_keeps ?_
    | with_reducible refine State_ok_keeps ?_
    | split

theorem doEyeCopy_keeps {s0 : State} {c : Caller} {l : LaneId} {bank : Nat} {n : Nat} {s : State} (h : Keeps s0 s) : Keeps s0 (doEyeCopy c l bank n s) := by
  unfold doEyeCopy
  try dsimp only
  repeat'
    first
    | with_reducible assumption
    | with_reducible refine domGate_keeps ?_ (fun _ _ => ?_)
    | with_reducible refine State_fail_keeps ?_
    | with_reducible refine setCopy_keeps ?_
    | with_reducible refine State_ok_keeps ?_
    | split

theorem doEyeCopyOff_keeps {s0 : State} {c : Caller} {s : State} (h : Keeps s0 s) : Keeps s0 (doEyeCopyOff c s) := by
  unfold doEyeCopyOff
  try dsimp only
  repeat'
    first
    | with_reducible assumption
    | with_reducible refine domGate_keeps ?_ (fun _ _ => ?_)
    | with_reducible refine State_fail_keeps ?_
    | with_reducible refine State_setEye_keeps ?_
    | with_reducible refine State_ok_keeps ?_
    | split

end Sys2Proof.Laws
end

