-- ==== Sys2Proof/Laws/KeepFlow.lean ====
section
/-! SUPPORT. What the operations of Flow keep. -/

namespace Sys2Proof.Laws
open Sys2Proof Sys2Proof.Machine

theorem Shell_bindArgs_keeps {ad : AdapterBase} {eta : Option W32} {args : List (ArgDesc × HeatArg)} {x : Shell} (h : ShellOk x) :
    ShellOk (Shell.bindArgs ad eta args x) := by
  refine shellOk_foldl (fun x p h => ?_) _ h
  obtain ⟨d, a⟩ := p
  cases a with
  | region a u => exact h
  | const v => exact Shell_store_keeps h
  | adapter d => cases ad <;> exact h

theorem Shell_scaleImage_keeps {g : ScaleImage} {x : Shell} (h : ShellOk x) : ShellOk (Shell.scaleImage g x) := by
  unfold Shell.scaleImage
  try dsimp only
  repeat'
    first
    | with_reducible assumption
    | with_reducible exact id
    | exact ⟨h.1, h.2⟩
    | exact ⟨rfl, rfl⟩
    | with_reducible refine Keeps.foldl (fun _ _ _ => ?_) _ ?_

theorem Shell_begin_keeps {l : LaneId} {q : W32} {words : List W64} {x : Shell} (h : ShellOk x) : ShellOk (Shell.begin l q words x) := by
  unfold Shell.begin
  try dsimp only
  repeat'
    first
    | with_reducible assumption
    | with_reducible exact id
    | exact ⟨h.1, h.2⟩
    | exact ⟨rfl, rfl⟩
    | split

theorem segBegin_keeps {s0 : State} {l : LaneId} {q : W32} {g : Segment} {s : State} (h : Keeps s0 s) : Keeps s0 (segBegin l q g s) := by
  unfold segBegin
  try dsimp only
  repeat'
    first
    | with_reducible assumption
    | with_reducible refine setShell_keeps ?_ (fun _ h => ?_)
    | with_reducible refine wake_keeps ?_
    | with_reducible exact Shell_begin_keeps ‹_›
    | with_reducible refine Shell_begin_keeps ?_
    | with_reducible exact Shell_scaleImage_keeps ‹_›
    | with_reducible refine Shell_scaleImage_keeps ?_
    | with_reducible exact Shell_bindArgs_keeps ‹_›
    | with_reducible refine Shell_bindArgs_keeps ?_
    | with_reducible refine State_watch_keeps ?_
    | with_reducible refine State_setRun_keeps ?_
    | with_reducible exact id
    | split
    | with_reducible refine Keeps.foldl (fun _ _ _ => ?_) _ ?_

theorem endFailed_keeps {s0 : State} {l : LaneId} {q : W32} {st : Status} {s : State} (h : Keeps s0 s) : Keeps s0 (endFailed l q st s) := by
  unfold endFailed
  try dsimp only
  repeat'
    first
    | with_reducible assumption
    | with_reducible refine State_setRun_keeps ?_

theorem stepRate_keeps {s0 : State} {d : AdSlot} {t : W32} {s : State} (h : Keeps s0 s) : Keeps s0 (stepRate d t s).2 := by
  unfold stepRate
  try dsimp only
  repeat'
    first
    | with_reducible assumption
    | with_reducible refine draw_keeps ?_
    | refine Keeps.of_eq (draw_keeps ?_) ‹_›
    | split
    | dsimp only
    | refine Keeps.of_eq ?_ ‹_ = (_, _)›

theorem fixRun_keeps {s0 : State} {l : LaneId} {q : W32} {v : Fin 3} {a : AcceptRec} {e : Entry} {s : State} (h : Keeps s0 s) : Keeps s0 (fixRun l q v a e s) := by
  unfold fixRun
  try dsimp only
  repeat'
    first
    | with_reducible assumption
    | with_reducible refine stepRate_keeps ?_
    | refine Keeps.of_eq (stepRate_keeps ?_) ‹_›
    | with_reducible refine State_setRun_keeps ?_
    | with_reducible refine State_zeroTallies_keeps ?_
    | with_reducible refine State_setAd_keeps ?_
    | split
    | dsimp only
    | refine Keeps.of_eq ?_ ‹_ = (_, _)›

theorem heatStart_go_keeps {s0 : State} {l : LaneId} {q : W32} {s : State} {r : HeatRun} {a : AcceptRec} {e : Entry} (h : Keeps s0 s) : Keeps s0 (heatStart.go l q s r a e) := by
  unfold heatStart.go
  try dsimp only
  repeat'
    first
    | with_reducible assumption
    | with_reducible refine segBegin_keeps ?_
    | with_reducible refine fixRun_keeps ?_
    | with_reducible refine endFailed_keeps ?_
    | split

theorem heatStart_keeps {s0 : State} {l : LaneId} {q : W32} {s : State} (h : Keeps s0 s) : Keeps s0 (heatStart l q s) := by
  unfold heatStart
  try dsimp only
  repeat'
    first
    | with_reducible assumption
    | with_reducible refine endFailed_keeps ?_
    | with_reducible refine heatStart_go_keeps ?_
    | split

theorem segmentStart_keeps {s0 : State} {l : LaneId} {q : W32} {s : State} (h : Keeps s0 s) : Keeps s0 (segmentStart l q s) := by
  unfold segmentStart
  try dsimp only
  repeat'
    first
    | with_reducible assumption
    | with_reducible refine segBegin_keeps ?_
    | with_reducible refine State_setRun_keeps ?_
    | with_reducible refine endFailed_keeps ?_
    | split

theorem checkPoint_keeps {s0 : State} {l : LaneId} {q : W32} {s : State} (h : Keeps s0 s) : Keeps s0 (checkPoint l q s) := by
  unfold checkPoint
  try dsimp only
  repeat'
    first
    | with_reducible assumption
    | with_reducible refine State_setRun_keeps ?_
    | split

theorem deadlineTrip_keeps {s0 : State} {l : LaneId} {q : W32} {s : State} (h : Keeps s0 s) : Keeps s0 (deadlineTrip l q s) := by
  unfold deadlineTrip
  try dsimp only
  repeat'
    first
    | with_reducible assumption
    | with_reducible refine elapseSteady_keeps ?_
    | with_reducible refine restartHeat_keeps ?_
    | with_reducible refine State_setRun_keeps ?_
    | with_reducible refine State_stopShells_keeps ?_
    | split

theorem adapterCreate_keeps {s0 : State} {n : Fin 8} {q : W32} {a : AcceptRec} {e : Entry} {s : State} (h : Keeps s0 s) : Keeps s0 (adapterCreate n q a e s) := by
  unfold adapterCreate
  try dsimp only
  repeat'
    first
    | with_reducible assumption
    | with_reducible refine State_setAd_keeps ?_
    | with_reducible refine State_setRegion_keeps ?_
    | split

theorem adapterFlip_keeps {s0 : State} {n : Fin 8} {q : W32} {s : State} (h : Keeps s0 s) : Keeps s0 (adapterFlip n q s) := by
  unfold adapterFlip
  try dsimp only
  repeat'
    first
    | with_reducible assumption
    | with_reducible refine State_setAd_keeps ?_
    | split

theorem commitHeat_keeps {s0 : State} {l : LaneId} {r : HeatRun} {a : AcceptRec} {e : Entry} {s : State} (h : Keeps s0 s) : Keeps s0 (commitHeat l r a e s) := by
  unfold commitHeat
  try dsimp only
  repeat'
    first
    | with_reducible assumption
    | with_reducible refine State_setLane_keeps ?_
    | with_reducible refine adapterCreate_keeps ?_
    | with_reducible refine adapterFlip_keeps ?_
    | split

theorem retireHeat_keeps {s0 : State} {l : LaneId} {q : W32} {r : HeatRun} {seen : LookSeen} {s : State} (h : Keeps s0 s) : Keeps s0 (retireHeat l q r seen s) := by
  unfold retireHeat
  try dsimp only
  repeat'
    first
    | with_reducible assumption
    | with_reducible refine commitHeat_keeps ?_
    | with_reducible refine adapterGive_keeps ?_
    | with_reducible refine spoilOutputs_keeps ?_
    | with_reducible refine endWaits_keeps ?_
    | with_reducible refine countRetire_keeps ?_
    | with_reducible refine State_setLane_keeps ?_
    | with_reducible refine deliver_keeps ?_
    | with_reducible refine lookRetire_keeps ?_
    | split

theorem heatRetire_keeps {s0 : State} {l : LaneId} {q : W32} {seen : LookSeen} {s : State} (h : Keeps s0 s) : Keeps s0 (heatRetire l q seen s) := by
  unfold heatRetire
  try dsimp only
  repeat'
    first
    | with_reducible assumption
    | with_reducible refine restartHeat_keeps ?_
    | with_reducible refine retireHeat_keeps ?_
    | split

theorem adapterGrantWrite_keeps {s0 : State} {p : Path} {n : Fin 8} {v : W32} {s : State} (h : Keeps s0 s) : Keeps s0 (adapterGrantWrite p n v s) := by
  unfold adapterGrantWrite
  try dsimp only
  repeat'
    first
    | with_reducible assumption
    | with_reducible refine State_setAd_keeps ?_
    | split

theorem spinLoWrite_keeps {s0 : State} {p : Path} {l : LaneId} {v : W32} {s : State} (h : Keeps s0 s) : Keeps s0 (spinLoWrite p l v s) := by
  unfold spinLoWrite
  try dsimp only
  repeat'
    first
    | with_reducible assumption
    | with_reducible refine State_setLane_keeps ?_
    | split

theorem spinHiWrite_keeps {s0 : State} {p : Path} {l : LaneId} {v : W32} {s : State} (h : Keeps s0 s) : Keeps s0 (spinHiWrite p l v s) := by
  unfold spinHiWrite
  try dsimp only
  repeat'
    first
    | with_reducible assumption
    | with_reducible refine State_setLane_keeps ?_
    | split

end Sys2Proof.Laws
end

