-- ==== Sys2Proof/Laws/KeepGovernor.lean ====
section
/-! SUPPORT. What the operations of Governor keep. -/

namespace Sys2Proof.Laws
open Sys2Proof Sys2Proof.Machine

theorem State_measureHeats_keeps {s0 : State} {s : State} (h : Keeps s0 s) : Keeps s0 (State.measureHeats s) := by
  unfold State.measureHeats
  try dsimp only
  repeat'
    first
    | with_reducible assumption
    | with_reducible exact id
    | with_reducible refine shellsOk_map (fun _ h => ?_)
    | with_reducible refine Keeps.upd ?_ rfl (fun _ h => h) ?_ ?_ ?_

theorem governorTick_keeps {s0 : State} {late : W16} {mw : W16} {s : State} (h : Keeps s0 s) : Keeps s0 (governorTick late mw s) := by
  unfold governorTick
  try dsimp only
  repeat'
    first
    | with_reducible assumption
    | with_reducible refine elapseTo_keeps ?_
    | with_reducible refine State_govRead_keeps ?_
    | with_reducible refine State_measureHeats_keeps ?_
    | with_reducible refine State_setRail_keeps ?_
    | with_reducible refine railRequest_keeps ?_
    | split

theorem statWindowEnd_keeps {s0 : State} {s : State} (h : Keeps s0 s) : Keeps s0 (statWindowEnd s) := by
  unfold statWindowEnd
  try dsimp only
  repeat'
    first
    | with_reducible assumption
    | with_reducible exact id
    | split
    | with_reducible refine shellsOk_mapIdx (fun _ _ h => ?_)
    | with_reducible refine Keeps.upd ?_ rfl (fun _ h => h) ?_ ?_ ?_

theorem State_setShadow_keeps {s0 : State} {s : State} {p : Path} {f : Shadows → Shadows} (h : Keeps s0 s) : Keeps s0 (State.setShadow s p f) := by
  unfold State.setShadow
  try dsimp only
  repeat'
    first
    | with_reducible assumption
    | with_reducible exact id
    | with_reducible refine shellsOk_upd (fun _ h => ?_)
    | with_reducible refine Keeps.upd ?_ rfl (fun _ h => h) ?_ ?_ ?_

theorem readLo_keeps {s0 : State} {p : Path} {v : W64} {set : W32 → Shadows → Shadows} {s : State} (h : Keeps s0 s) : Keeps s0 (readLo p v set s).2 := by
  unfold readLo
  try dsimp only
  repeat'
    first
    | with_reducible assumption
    | dsimp only
    | with_reducible refine State_setShadow_keeps ?_

theorem readHs_keeps {s0 : State} {p : Path} {l : LaneId} {o : Nat} {s : State} (h : Keeps s0 s) : Keeps s0 (readHs p l o s).2 := by
  unfold readHs
  try dsimp only
  repeat'
    first
    | with_reducible assumption
    | with_reducible refine readLo_keeps ?_
    | refine Keeps.of_eq (readLo_keeps ?_) ‹_›
    | split
    | dsimp only
    | refine Keeps.of_eq ?_ ‹_ = (_, _)›

theorem readStat_keeps {s0 : State} {p : Path} {o : Nat} {s : State} (h : Keeps s0 s) : Keeps s0 (readStat p o s).2 := by
  unfold readStat
  try dsimp only
  repeat'
    first
    | with_reducible assumption
    | with_reducible refine readHs_keeps ?_
    | refine Keeps.of_eq (readHs_keeps ?_) ‹_›
    | split
    | dsimp only
    | refine Keeps.of_eq ?_ ‹_ = (_, _)›

end Sys2Proof.Laws
end

