-- ==== Sys2Proof/Laws/KeepEar.lean ====
section
/-! SUPPORT. What the operations of Ear keep. -/

namespace Sys2Proof.Laws
open Sys2Proof Sys2Proof.Machine

theorem State_setEar_keeps {s0 : State} {s : State} {f : Ear → Ear} (h : Keeps s0 s) : Keeps s0 (State.setEar s f) := by
  unfold State.setEar
  try dsimp only
  repeat'
    first
    | with_reducible assumption
    | with_reducible exact id
    | with_reducible refine Keeps.upd ?_ rfl (fun _ h => h) ?_ ?_ ?_

theorem setCh_keeps {s0 : State} {n : Fin 8} {f : BitVec 24 → BitVec 24} {s : State} (h : Keeps s0 s) : Keeps s0 (setCh n f s) := by
  unfold setCh
  try dsimp only
  repeat'
    first
    | with_reducible assumption
    | with_reducible refine State_setEar_keeps ?_
    | split

theorem earAccess_keeps {s0 s : State} {f : State → State} (h : Keeps s0 s) (hf : ∀ s, Keeps s0 s → Keeps s0 (f s)) :
    Keeps s0 (earAccess s f) := by
  unfold earAccess
  split
  · exact h
  · exact hf _ (touch_keeps h)

theorem earGate_keeps {s0 s : State} {c : Caller} {k : State → State} (h : Keeps s0 s)
    (hk : ∀ s, Keeps s0 s → Keeps s0 (k s)) : Keeps s0 (earGate c s k) := domGate_keeps h hk

theorem earSettings_keeps {s0 s : State} {c : Caller} {k : State → State} (h : Keeps s0 s)
    (hk : ∀ s, Keeps s0 s → Keeps s0 (k s)) : Keeps s0 (earSettings c s k) := by
  refine earGate_keeps h fun s h => ?_
  split
  · exact State_fail_keeps h
  · exact hk s h

theorem audoVerb_keeps {s0 s : State} {c : Caller} {k : State → State} (h : Keeps s0 s)
    (hk : ∀ s, Keeps s0 s → Keeps s0 (k s)) : Keeps s0 (audoVerb c s k) := by
  refine earGate_keeps h fun s h => ?_
  split
  · exact State_fail_keeps h
  · split
    · exact State_fail_keeps h
    · exact hk s h

theorem earChWrite_keeps {s0 : State} {p : Path} {n : Fin 8} {v : W32} {s : State} (h : Keeps s0 s) : Keeps s0 (earChWrite p n v s) := by
  unfold earChWrite
  try dsimp only
  repeat'
    first
    | with_reducible assumption
    | with_reducible refine earAccess_keeps ?_ (fun _ _ => ?_)
    | with_reducible refine setCh_keeps ?_
    | split

theorem earEnableWrite_keeps {s0 : State} {p : Path} {v : W32} {s : State} (h : Keeps s0 s) : Keeps s0 (earEnableWrite p v s) := by
  unfold earEnableWrite
  try dsimp only
  repeat'
    first
    | with_reducible assumption
    | with_reducible refine earAccess_keeps ?_ (fun _ _ => ?_)
    | with_reducible refine State_setEar_keeps ?_
    | split

theorem earStartBit_keeps {s0 : State} {s : State} (h : Keeps s0 s) : Keeps s0 (earStartBit s) := by
  unfold earStartBit
  try dsimp only
  repeat'
    first
    | with_reducible assumption
    | with_reducible refine State_setEar_keeps ?_
    | split

theorem earStopBit_keeps {s0 : State} {s : State} (h : Keeps s0 s) : Keeps s0 (earStopBit s) := by
  unfold earStopBit
  try dsimp only
  repeat'
    first
    | with_reducible assumption
    | with_reducible refine State_setEar_keeps ?_
    | split

theorem earCtrlStart_keeps {s0 : State} {path : Path} {s : State} (h : Keeps s0 s) : Keeps s0 (earCtrlStart path s) := by
  unfold earCtrlStart
  try dsimp only
  repeat'
    first
    | with_reducible assumption
    | with_reducible refine earAccess_keeps ?_ (fun _ _ => ?_)
    | with_reducible refine earStartBit_keeps ?_
    | split

theorem earCtrlStop_keeps {s0 : State} {path : Path} {s : State} (h : Keeps s0 s) : Keeps s0 (earCtrlStop path s) := by
  unfold earCtrlStop
  try dsimp only
  repeat'
    first
    | with_reducible assumption
    | with_reducible refine earAccess_keeps ?_ (fun _ _ => ?_)
    | with_reducible refine earStopBit_keeps ?_
    | split

theorem triggered_keeps {s0 : State} {src : Nat} {req : Bool} {arriving : Option W64} {s : State} (h : Keeps s0 s) :
    KeepsO s0 (triggered src req arriving s) := by
  unfold triggered
  split
  · split
    · exact KeepsO.some h
    · exact KeepsO.none
  · cases arriving with
    | none => exact KeepsO.none
    | some t => exact KeepsO.some (elapseTo_keeps h)

theorem earCaptureStart_keeps {s0 : State} {s : State} (h : Keeps s0 s) : Keeps s0 (earCaptureStart s) := by
  unfold earCaptureStart
  try dsimp only
  repeat'
    first
    | with_reducible assumption
    | with_reducible refine triggered_keeps ?_
    | refine KeepsO.of_eq (triggered_keeps ?_) ‹_›
    | with_reducible refine State_setEar_keeps ?_
    | split

theorem ringsDue_keeps {s0 : State} {s : State} (h : Keeps s0 s) : Keeps s0 (ringsDue s) := by
  unfold ringsDue
  try dsimp only
  repeat'
    first
    | with_reducible assumption
    | with_reducible refine State_setEar_keeps ?_
    | split
    | with_reducible refine Keeps.foldl (fun _ _ _ => ?_) _ ?_

theorem takeSet_keeps {s0 : State} {s : State} (h : Keeps s0 s) : Keeps s0 (takeSet s) := by
  unfold takeSet
  try dsimp only
  repeat'
    first
    | with_reducible assumption
    | with_reducible refine State_setEar_keeps ?_
    | split

theorem earBoundary_keeps {s0 : State} {samples : List (BitVec 24 × Bool)} {s : State} (h : Keeps s0 s) : Keeps s0 (earBoundary samples s) := by
  unfold earBoundary
  try dsimp only
  repeat'
    first
    | with_reducible assumption
    | with_reducible refine State_setEar_keeps ?_
    | with_reducible refine ringsDue_keeps ?_
    | with_reducible refine takeSet_keeps ?_
    | split

theorem readEarResult_keeps {s0 : State} {n : Fin 8} {s : State} (h : Keeps s0 s) : Keeps s0 (readEarResult n s).2 := by
  unfold readEarResult
  try dsimp only
  repeat'
    first
    | with_reducible assumption
    | with_reducible refine State_setEar_keeps ?_
    | dsimp only
    | split

theorem earResultRead_keeps {s0 : State} {path : Path} {n : Fin 8} {s : State} (h : Keeps s0 s) : Keeps s0 (earResultRead path n s) := by
  unfold earResultRead
  try dsimp only
  repeat'
    first
    | with_reducible assumption
    | with_reducible refine earAccess_keeps ?_ (fun _ _ => ?_)
    | with_reducible refine readEarResult_keeps ?_
    | refine Keeps.of_eq (readEarResult_keeps ?_) ‹_›
    | with_reducible refine State_answered_keeps ?_
    | split
    | dsimp only
    | refine Keeps.of_eq ?_ ‹_ = (_, _)›

theorem streamWrite_keeps {s0 : State} {off : Nat} {b : List Byte} {s : State} (h : Keeps s0 s) : Keeps s0 (streamWrite off b s) := by
  unfold streamWrite
  try dsimp only
  repeat'
    first
    | with_reducible assumption
    | with_reducible refine State_countBh_keeps ?_
    | with_reducible exact id
    | with_reducible refine memOk_mk ?_ ?_
    | with_reducible refine Keeps.foldl (fun _ _ _ => ?_) _ ?_
    | with_reducible exact wf_put _ _
    | with_reducible refine Keeps.upd ?_ rfl (fun _ h => h) ?_ ?_ ?_

theorem captureSetWrite_keeps {s0 : State} {s : State} (h : Keeps s0 s) : Keeps s0 (captureSetWrite s) := by
  unfold captureSetWrite
  try dsimp only
  repeat'
    first
    | with_reducible assumption
    | with_reducible refine State_setEar_keeps ?_
    | with_reducible refine streamWrite_keeps ?_
    | split

theorem captureBlockComplete_keeps {s0 : State} {k : Fin 2} {s : State} (h : Keeps s0 s) : Keeps s0 (captureBlockComplete k s) := by
  unfold captureBlockComplete
  try dsimp only
  repeat'
    first
    | with_reducible assumption
    | with_reducible refine streamWrite_keeps ?_
    | with_reducible refine State_tallyAdd_keeps ?_
    | with_reducible refine State_setEar_keeps ?_
    | split

theorem setCapRing_keeps {s0 : State} {k : Fin 2} {v : W32} {s : State} (h : Keeps s0 s) : Keeps s0 (setCapRing k v s) := by
  unfold setCapRing
  try dsimp only
  repeat'
    first
    | with_reducible assumption
    | with_reducible refine State_setEar_keeps ?_
    | split

theorem setAudoRing_keeps {s0 : State} {v : W32} {s : State} (h : Keeps s0 s) : Keeps s0 (setAudoRing v s) := by
  unfold setAudoRing
  try dsimp only
  repeat'
    first
    | with_reducible assumption
    | with_reducible refine State_setEar_keeps ?_

theorem earRingWrite_keeps {s0 : State} {p : Path} {k : Fin 3} {v : W32} {s : State} (h : Keeps s0 s) : Keeps s0 (earRingWrite p k v s) := by
  unfold earRingWrite
  try dsimp only
  repeat'
    first
    | with_reducible assumption
    | with_reducible refine earAccess_keeps ?_ (fun _ _ => ?_)
    | with_reducible refine setCapRing_keeps ?_
    | with_reducible refine setAudoRing_keeps ?_
    | split

theorem micbiasReady_keeps {s0 : State} {n : Fin 2} {s : State} (h : Keeps s0 s) : Keeps s0 (micbiasReady n s) := by
  unfold micbiasReady
  try dsimp only
  repeat'
    first
    | with_reducible assumption
    | with_reducible refine State_setEar_keeps ?_
    | split

theorem setBias_keeps {s0 : State} {n : Fin 2} {on : Bool} {level : Nat} {s : State} (h : Keeps s0 s) : Keeps s0 (setBias n on level s) := by
  unfold setBias
  try dsimp only
  repeat'
    first
    | with_reducible assumption
    | with_reducible refine State_setEar_keeps ?_
    | split

theorem audoStartBit_keeps {s0 : State} {s : State} (h : Keeps s0 s) : Keeps s0 (audoStartBit s) := by
  unfold audoStartBit
  try dsimp only
  repeat'
    first
    | with_reducible assumption
    | with_reducible refine State_setEar_keeps ?_
    | split

theorem audoStopBit_keeps {s0 : State} {s : State} (h : Keeps s0 s) : Keeps s0 (audoStopBit s) := by
  unfold audoStopBit
  try dsimp only
  repeat'
    first
    | with_reducible assumption
    | with_reducible refine State_setEar_keeps ?_
    | split

theorem audoCtrlStart_keeps {s0 : State} {path : Path} {s : State} (h : Keeps s0 s) : Keeps s0 (audoCtrlStart path s) := by
  unfold audoCtrlStart
  try dsimp only
  repeat'
    first
    | with_reducible assumption
    | with_reducible refine earAccess_keeps ?_ (fun _ _ => ?_)
    | with_reducible refine audoStartBit_keeps ?_
    | split

theorem audoCtrlStop_keeps {s0 : State} {path : Path} {s : State} (h : Keeps s0 s) : Keeps s0 (audoCtrlStop path s) := by
  unfold audoCtrlStop
  try dsimp only
  repeat'
    first
    | with_reducible assumption
    | with_reducible refine earAccess_keeps ?_ (fun _ _ => ?_)
    | with_reducible refine audoStopBit_keeps ?_
    | split

theorem audoPlaybackStart_keeps {s0 : State} {s : State} (h : Keeps s0 s) : Keeps s0 (audoPlaybackStart s) := by
  unfold audoPlaybackStart
  try dsimp only
  repeat'
    first
    | with_reducible assumption
    | with_reducible refine triggered_keeps ?_
    | refine KeepsO.of_eq (triggered_keeps ?_) ‹_›
    | with_reducible refine State_setEar_keeps ?_
    | split

theorem audoPlay_keeps {s0 : State} {s : State} (h : Keeps s0 s) : Keeps s0 (audoPlay s) := by
  unfold audoPlay
  try dsimp only
  repeat'
    first
    | with_reducible assumption
    | with_reducible refine State_setEar_keeps ?_
    | with_reducible refine State_tallyAdd_keeps ?_
    | split

theorem audoFrame_keeps {s0 : State} {s : State} (h : Keeps s0 s) : Keeps s0 (audoFrame s) := by
  unfold audoFrame
  try dsimp only
  repeat'
    first
    | with_reducible assumption
    | with_reducible refine State_setEar_keeps ?_
    | with_reducible refine audoPlay_keeps ?_
    | split

theorem readUnder_keeps {s0 : State} {s : State} (h : Keeps s0 s) : Keeps s0 (readUnder s).2 := by
  unfold readUnder
  try dsimp only
  repeat'
    first
    | with_reducible assumption
    | dsimp only
    | with_reducible refine State_setEar_keeps ?_

theorem audoUnderRead_keeps {s0 : State} {path : Path} {s : State} (h : Keeps s0 s) : Keeps s0 (audoUnderRead path s) := by
  unfold audoUnderRead
  try dsimp only
  repeat'
    first
    | with_reducible assumption
    | with_reducible refine earAccess_keeps ?_ (fun _ _ => ?_)
    | with_reducible refine readUnder_keeps ?_
    | refine Keeps.of_eq (readUnder_keeps ?_) ‹_›
    | with_reducible refine State_answered_keeps ?_
    | split
    | dsimp only
    | refine Keeps.of_eq ?_ ‹_ = (_, _)›

theorem readEar_keeps {s0 s : State} {p : Path} {o : Nat} (h : Keeps s0 s) : Keeps s0 (readEar p o s).2 := by
  unfold readEar
  exact Keeps.ite2 (readEarResult_keeps h) (Keeps.ite2 (readLo_keeps h) (Keeps.ite2 (readUnder_keeps h) h))

theorem setCapTally_keeps {s0 : State} {k : Fin 2} {en : Bool} {t : Nat} {s : State} (h : Keeps s0 s) : Keeps s0 (setCapTally k en t s) := by
  unfold setCapTally
  try dsimp only
  repeat'
    first
    | with_reducible assumption
    | with_reducible refine State_setEar_keeps ?_
    | split

theorem setOsr_keeps {s0 : State} {v : Nat} {s : State} (h : Keeps s0 s) : Keeps s0 (setOsr v s) := by
  unfold setOsr
  try dsimp only
  repeat'
    first
    | with_reducible assumption
    | with_reducible refine State_setEar_keeps ?_
    | split

theorem earCtrl_keeps {s0 : State} {v : W32} {s : State} (h : Keeps s0 s) : Keeps s0 (earCtrl v s) := by
  unfold earCtrl
  try dsimp only
  repeat'
    first
    | with_reducible assumption
    | with_reducible refine State_setEar_keeps ?_
    | with_reducible refine setOsr_keeps ?_
    | with_reducible refine earStartBit_keeps ?_
    | with_reducible refine earStopBit_keeps ?_
    | split

theorem setFormat_keeps {s0 : State} {f : Nat} {sl : Nat} {s : State} (h : Keeps s0 s) : Keeps s0 (setFormat f sl s) := by
  unfold setFormat
  try dsimp only
  repeat'
    first
    | with_reducible assumption
    | with_reducible refine refit_keeps ?_
    | with_reducible refine State_setEar_keeps ?_
    | split

theorem audoCtrl_keeps {s0 : State} {v : W32} {s : State} (h : Keeps s0 s) : Keeps s0 (audoCtrl v s) := by
  unfold audoCtrl
  try dsimp only
  repeat'
    first
    | with_reducible assumption
    | with_reducible refine State_setEar_keeps ?_
    | with_reducible refine setFormat_keeps ?_
    | with_reducible refine audoStartBit_keeps ?_
    | with_reducible refine audoStopBit_keeps ?_
    | split

theorem audoTally_keeps {s0 : State} {v : W32} {s : State} (h : Keeps s0 s) : Keeps s0 (audoTally v s) := by
  unfold audoTally
  try dsimp only
  repeat'
    first
    | with_reducible assumption
    | with_reducible refine State_setEar_keeps ?_

theorem writeEar_keeps {s0 : State} {p : Path} {o : Nat} {v : W32} {s : State} (h : Keeps s0 s) : Keeps s0 (writeEar p o v s) := by
  unfold writeEar
  try dsimp only
  repeat'
    first
    | with_reducible assumption
    | with_reducible refine earCtrl_keeps ?_
    | with_reducible refine earEnableWrite_keeps ?_
    | with_reducible refine State_setEar_keeps ?_
    | with_reducible refine earChWrite_keeps ?_
    | with_reducible refine setBias_keeps ?_
    | with_reducible refine earRingWrite_keeps ?_
    | with_reducible refine setCapTally_keeps ?_
    | with_reducible refine audoCtrl_keeps ?_
    | with_reducible refine audoTally_keeps ?_
    | with_reducible refine Keeps.ite ?_ ?_
    | split

theorem doEarState_keeps {s0 : State} {c : Caller} {s : State} (h : Keeps s0 s) : Keeps s0 (doEarState c s) := by
  unfold doEarState
  try dsimp only
  repeat'
    first
    | with_reducible assumption
    | with_reducible refine earGate_keeps ?_ (fun _ _ => ?_)
    | with_reducible refine State_okWith_keeps ?_

theorem doEarStart_keeps {s0 : State} {c : Caller} {osr : Option (BitVec 2)} {ch : Option Byte} {trig : Option (BitVec 4)} {s : State} (h : Keeps s0 s) : Keeps s0 (doEarStart c osr ch trig s) := by
  unfold doEarStart
  try dsimp only
  repeat'
    first
    | with_reducible assumption
    | with_reducible refine earSettings_keeps ?_ (fun _ _ => ?_)
    | with_reducible refine State_fail_keeps ?_
    | with_reducible refine State_setEar_keeps ?_
    | with_reducible refine earStartBit_keeps ?_
    | with_reducible refine State_ok_keeps ?_
    | split

theorem doEarStop_keeps {s0 : State} {c : Caller} {s : State} (h : Keeps s0 s) : Keeps s0 (doEarStop c s) := by
  unfold doEarStop
  try dsimp only
  repeat'
    first
    | with_reducible assumption
    | with_reducible refine earSettings_keeps ?_ (fun _ _ => ?_)
    | with_reducible refine earStopBit_keeps ?_
    | with_reducible refine State_ok_keeps ?_

theorem doEarCh_keeps {s0 : State} {c : Caller} {n : Fin 8} {gain : Option Int} {order : Option (BitVec 2)} {notch : Option (Option Nat)} {s : State} (h : Keeps s0 s) : Keeps s0 (doEarCh c n gain order notch s) := by
  unfold doEarCh
  try dsimp only
  repeat'
    first
    | with_reducible assumption
    | with_reducible refine earSettings_keeps ?_ (fun _ _ => ?_)
    | with_reducible refine State_fail_keeps ?_
    | with_reducible refine setCh_keeps ?_
    | with_reducible refine State_ok_keeps ?_
    | split

theorem doEarBias_keeps {s0 : State} {c : Caller} {n : Fin 2} {on : Bool} {level : Option (BitVec 2)} {s : State} (h : Keeps s0 s) : Keeps s0 (doEarBias c n on level s) := by
  unfold doEarBias
  try dsimp only
  repeat'
    first
    | with_reducible assumption
    | with_reducible refine earSettings_keeps ?_ (fun _ _ => ?_)
    | with_reducible refine State_fail_keeps ?_
    | with_reducible refine setBias_keeps ?_
    | with_reducible refine State_ok_keeps ?_
    | split

theorem doEarRing_keeps {s0 : State} {c : Caller} {l : LaneId} {bank : Nat} {nblk : Nat} {block : Nat} {tally : Option Nat} {s : State} (h : Keeps s0 s) : Keeps s0 (doEarRing c l bank nblk block tally s) := by
  unfold doEarRing
  try dsimp only
  repeat'
    first
    | with_reducible assumption
    | with_reducible refine earGate_keeps ?_ (fun _ _ => ?_)
    | with_reducible refine State_fail_keeps ?_
    | with_reducible refine setCapTally_keeps ?_
    | with_reducible refine setCapRing_keeps ?_
    | with_reducible refine State_ok_keeps ?_
    | split

theorem doEarRingOff_keeps {s0 : State} {c : Caller} {s : State} (h : Keeps s0 s) : Keeps s0 (doEarRingOff c s) := by
  unfold doEarRingOff
  try dsimp only
  repeat'
    first
    | with_reducible assumption
    | with_reducible refine earSettings_keeps ?_ (fun _ _ => ?_)
    | with_reducible refine setCapRing_keeps ?_
    | with_reducible refine State_ok_keeps ?_

theorem doEarOut_keeps {s0 : State} {c : Caller} {l : LaneId} {bank : Nat} {nblk : Nat} {block : Nat} {tdm : Option Bool} {slots : Option Nat} {fill : Option Nat} {done : Option Nat} {s : State} (h : Keeps s0 s) : Keeps s0 (doEarOut c l bank nblk block tdm slots fill done s) := by
  unfold doEarOut
  try dsimp only
  repeat'
    first
    | with_reducible assumption
    | with_reducible refine earGate_keeps ?_ (fun _ _ => ?_)
    | with_reducible refine State_fail_keeps ?_
    | with_reducible refine setFormat_keeps ?_
    | with_reducible refine audoTally_keeps ?_
    | with_reducible refine setAudoRing_keeps ?_
    | with_reducible refine State_ok_keeps ?_
    | split

theorem doEarOutStart_keeps {s0 : State} {c : Caller} {s : State} (h : Keeps s0 s) : Keeps s0 (doEarOutStart c s) := by
  unfold doEarOutStart
  try dsimp only
  repeat'
    first
    | with_reducible assumption
    | with_reducible refine audoVerb_keeps ?_ (fun _ _ => ?_)
    | with_reducible refine State_fail_keeps ?_
    | with_reducible refine audoStartBit_keeps ?_
    | with_reducible refine State_ok_keeps ?_
    | split

theorem doEarOutStop_keeps {s0 : State} {c : Caller} {s : State} (h : Keeps s0 s) : Keeps s0 (doEarOutStop c s) := by
  unfold doEarOutStop
  try dsimp only
  repeat'
    first
    | with_reducible assumption
    | with_reducible refine audoVerb_keeps ?_ (fun _ _ => ?_)
    | with_reducible refine audoStopBit_keeps ?_
    | with_reducible refine State_ok_keeps ?_

end Sys2Proof.Laws
end

