-- ==== Sys2Proof/Laws/KeepSense.lean ====
section
/-! SUPPORT. What the operations of Sense keep. -/

namespace Sys2Proof.Laws
open Sys2Proof Sys2Proof.Machine

theorem State_setSense_keeps {s0 : State} {s : State} {f : Sense → Sense} (h : Keeps s0 s) : Keeps s0 (State.setSense s f) := by
  unfold State.setSense
  try dsimp only
  repeat'
    first
    | with_reducible assumption
    | with_reducible exact id
    | with_reducible refine Keeps.upd ?_ rfl (fun _ h => h) ?_ ?_ ?_

theorem sensePassStart_keeps {s0 : State} {s : State} (h : Keeps s0 s) : Keeps s0 (sensePassStart s) := by
  unfold sensePassStart
  try dsimp only
  repeat'
    first
    | with_reducible assumption
    | with_reducible refine State_setSense_keeps ?_
    | split

theorem senseSettleDone_keeps {s0 : State} {s : State} (h : Keeps s0 s) : Keeps s0 (senseSettleDone s) := by
  unfold senseSettleDone
  try dsimp only
  repeat'
    first
    | with_reducible assumption
    | with_reducible refine State_setSense_keeps ?_
    | split

theorem senseData_keeps {s0 : State} {urg : Bool} {src : Nat} {input : BitVec 5} {data : Nat} {s : State} (h : Keeps s0 s) : Keeps s0 (senseData urg src input data s) := by
  unfold senseData
  try dsimp only
  repeat'
    first
    | with_reducible assumption
    | with_reducible refine State_setSense_keeps ?_
    | split

theorem coreMv_keeps {s0 : State} {data : Nat} {s : State} (h : Keeps s0 s) : Keeps s0 (coreMv data s) := by
  unfold coreMv
  try dsimp only
  repeat'
    first
    | with_reducible assumption
    | with_reducible refine railMeasured_keeps ?_

theorem roundStep_keeps {s0 : State} {data : Nat} {s : State} (h : Keeps s0 s) : Keeps s0 (roundStep data s) := by
  unfold roundStep
  try dsimp only
  repeat'
    first
    | with_reducible assumption
    | with_reducible refine State_setSense_keeps ?_
    | split

theorem entryResult_keeps {s0 : State} {i : Fin 32} {data : Nat} {s : State} (h : Keeps s0 s) : Keeps s0 (entryResult i data s) := by
  unfold entryResult
  try dsimp only
  repeat'
    first
    | with_reducible assumption
    | with_reducible refine State_setSense_keeps ?_
    | with_reducible refine roundStep_keeps ?_
    | with_reducible refine coreMv_keeps ?_
    | with_reducible refine senseData_keeps ?_
    | with_reducible refine touchResult_keeps ?_
    | split

theorem senseReply_keeps {s0 : State} {c : Caller} {input : BitVec 5} {data : Nat} {s : State} (h : Keeps s0 s) : Keeps s0 (senseReply c input data s) := by
  unfold senseReply
  try dsimp only
  repeat'
    first
    | with_reducible assumption
    | with_reducible refine State_ok_keeps ?_
    | split

theorem urgentResult_keeps {s0 : State} {u : Urgent} {data : Nat} {s : State} (h : Keeps s0 s) : Keeps s0 (urgentResult u data s) := by
  unfold urgentResult
  try dsimp only
  repeat'
    first
    | with_reducible assumption
    | with_reducible refine senseData_keeps ?_
    | with_reducible refine State_setSense_keeps ?_
    | with_reducible refine senseReply_keeps ?_
    | with_reducible refine railConfirm_keeps ?_
    | with_reducible refine plugResult_keeps ?_
    | split

theorem senseConversionDone_keeps {s0 : State} {data : BitVec 20} {s : State} (h : Keeps s0 s) : Keeps s0 (senseConversionDone data s) := by
  unfold senseConversionDone
  try dsimp only
  repeat'
    first
    | with_reducible assumption
    | with_reducible refine entryResult_keeps ?_
    | with_reducible refine State_setSense_keeps ?_
    | with_reducible refine urgentResult_keeps ?_
    | split

theorem urgentStart_keeps {s0 : State} {s : State} (h : Keeps s0 s) : Keeps s0 (urgentStart s) := by
  unfold urgentStart
  try dsimp only
  repeat'
    first
    | with_reducible assumption
    | with_reducible refine State_setSense_keeps ?_
    | split

theorem setUrgent_keeps {s0 : State} {by_ : UrgentBy} {v : W32} {s : State} (h : Keeps s0 s) : Keeps s0 (setUrgent by_ v s) := by
  unfold setUrgent
  try dsimp only
  repeat'
    first
    | with_reducible assumption
    | with_reducible refine State_setSense_keeps ?_

theorem senseUrgentGo_keeps {s0 : State} {v : W32} {s : State} (h : Keeps s0 s) : Keeps s0 (senseUrgentGo v s) := by
  unfold senseUrgentGo
  try dsimp only
  repeat'
    first
    | with_reducible assumption
    | with_reducible refine setUrgent_keeps ?_
    | with_reducible refine State_setSense_keeps ?_
    | split

theorem readSenseData_keeps {s0 : State} {s : State} (h : Keeps s0 s) : Keeps s0 (readSenseData s).2 := by
  unfold readSenseData
  try dsimp only
  repeat'
    first
    | with_reducible assumption
    | dsimp only
    | with_reducible refine State_setSense_keeps ?_

theorem senseDataRead_keeps {s0 : State} {path : Path} {s : State} (h : Keeps s0 s) : Keeps s0 (senseDataRead path s) := by
  unfold senseDataRead
  try dsimp only
  repeat'
    first
    | with_reducible assumption
    | with_reducible refine readSenseData_keeps ?_
    | refine Keeps.of_eq (readSenseData_keeps ?_) ‹_›
    | with_reducible refine State_answered_keeps ?_
    | split
    | dsimp only
    | refine Keeps.of_eq ?_ ‹_ = (_, _)›

theorem senseSeqWrite_keeps {s0 : State} {k : Nat} {v : W32} {s : State} (h : Keeps s0 s) : Keeps s0 (senseSeqWrite k v s) := by
  unfold senseSeqWrite
  try dsimp only
  repeat'
    first
    | with_reducible assumption
    | with_reducible refine State_setSense_keeps ?_
    | split

theorem writeSense_keeps {s0 : State} {o : Nat} {v : W32} {s : State} (h : Keeps s0 s) : Keeps s0 (writeSense o v s) := by
  unfold writeSense
  try dsimp only
  repeat'
    first
    | with_reducible assumption
    | with_reducible refine State_setSense_keeps ?_
    | with_reducible refine senseUrgentGo_keeps ?_
    | with_reducible refine senseSeqWrite_keeps ?_
    | split

theorem doSenseState_keeps {s0 : State} {c : Caller} {s : State} (h : Keeps s0 s) : Keeps s0 (doSenseState c s) := by
  unfold doSenseState
  try dsimp only
  repeat'
    first
    | with_reducible assumption
    | with_reducible refine State_gate_keeps ?_ ?_
    | with_reducible refine State_okWith_keeps ?_

theorem doSenseRead_keeps {s0 : State} {c : Caller} {input : BitVec 5} {settle : Nat} {osr : BitVec 2} {s : State} (h : Keeps s0 s) : Keeps s0 (doSenseRead c input settle osr s) := by
  unfold doSenseRead
  try dsimp only
  repeat'
    first
    | with_reducible assumption
    | with_reducible refine State_gate_keeps ?_ ?_
    | with_reducible refine State_fail_keeps ?_
    | with_reducible refine setUrgent_keeps ?_
    | with_reducible exact id
    | split
    | with_reducible refine Keeps.upd ?_ rfl (fun _ h => h) ?_ ?_ ?_

theorem doSenseSeq_keeps {s0 : State} {c : Caller} {k : Nat} {input : BitVec 5} {settle : Nat} {osr : BitVec 2} {s : State} (h : Keeps s0 s) : Keeps s0 (doSenseSeq c k input settle osr s) := by
  unfold doSenseSeq
  try dsimp only
  repeat'
    first
    | with_reducible assumption
    | with_reducible refine State_gate_keeps ?_ ?_
    | with_reducible refine State_fail_keeps ?_
    | with_reducible refine senseSeqWrite_keeps ?_
    | with_reducible refine State_ok_keeps ?_
    | split

theorem doSenseSeqOff_keeps {s0 : State} {c : Caller} {k : Nat} {s : State} (h : Keeps s0 s) : Keeps s0 (doSenseSeqOff c k s) := by
  unfold doSenseSeqOff
  try dsimp only
  repeat'
    first
    | with_reducible assumption
    | with_reducible refine State_gate_keeps ?_ ?_
    | with_reducible refine State_fail_keeps ?_
    | with_reducible refine senseSeqWrite_keeps ?_
    | with_reducible refine State_ok_keeps ?_
    | split

theorem doSensePeriod_keeps {s0 : State} {c : Caller} {us : Nat} {s : State} (h : Keeps s0 s) : Keeps s0 (doSensePeriod c us s) := by
  unfold doSensePeriod
  try dsimp only
  repeat'
    first
    | with_reducible assumption
    | with_reducible refine State_gate_keeps ?_ ?_
    | with_reducible refine State_fail_keeps ?_
    | with_reducible refine State_ok_keeps ?_
    | with_reducible refine State_setSense_keeps ?_
    | split

end Sys2Proof.Laws
end

