-- ==== Sys2Proof/Laws/KeepUnits.lean ====
section
/-! SUPPORT. What the operations of Units keep. -/

namespace Sys2Proof.Laws
open Sys2Proof Sys2Proof.Machine

theorem State_setUnitSt_keeps {s0 : State} {s : State} {u : UnitRef} {t : UnitSt} (h : Keeps s0 s) : Keeps s0 (State.setUnitSt s u t) := by
  unfold State.setUnitSt
  try dsimp only
  repeat'
    first
    | with_reducible assumption
    | with_reducible refine State_setShellSt_keeps ?_
    | with_reducible refine State_setBankSt_keeps ?_
    | with_reducible refine State_setEye_keeps ?_
    | with_reducible exact id
    | split
    | with_reducible refine Keeps.upd ?_ rfl (fun _ h => h) ?_ ?_ ?_

theorem State_setRole_keeps {s0 : State} {s : State} {i : Fin 3} {r : CoxRole} (h : Keeps s0 s) : Keeps s0 (State.setRole s i r) := by
  unfold State.setRole
  try dsimp only
  repeat'
    first
    | with_reducible assumption
    | with_reducible exact id
    | with_reducible refine Keeps.upd ?_ rfl (fun _ h => h) ?_ ?_ ?_

theorem coxRestartDone_keeps {s0 : State} {i : Fin 3} {ok : Bool} {s : State} (h : Keeps s0 s) : Keeps s0 (coxRestartDone i ok s) := by
  unfold coxRestartDone
  try dsimp only
  repeat'
    first
    | with_reducible assumption
    | with_reducible refine State_setRole_keeps ?_
    | with_reducible refine fenceRecords_keeps ?_
    | with_reducible exact id
    | split
    | with_reducible refine Keeps.upd ?_ rfl (fun _ h => h) ?_ ?_ ?_

theorem coxCrash_keeps {s0 : State} {i : Fin 3} {cause : Cause} {s : State} (h : Keeps s0 s) : Keeps s0 (coxCrash i cause s) := by
  unfold coxCrash
  try dsimp only
  repeat'
    first
    | with_reducible assumption
    | with_reducible refine State_logFault_keeps ?_
    | with_reducible refine State_setRole_keeps ?_
    | with_reducible refine coxRestartDone_keeps ?_
    | with_reducible exact id
    | split
    | with_reducible refine shellsOk_mapIdx (fun _ _ h => ?_)
    | with_reducible refine Keeps.upd ?_ rfl (fun _ h => h) ?_ ?_ ?_

theorem coxWatchdogTrip_keeps {s0 : State} {i : Fin 3} {s : State} (h : Keeps s0 s) : Keeps s0 (coxWatchdogTrip i s) := by
  unfold coxWatchdogTrip
  try dsimp only
  repeat'
    first
    | with_reducible assumption
    | with_reducible refine coxCrash_keeps ?_
    | split

theorem takeoverReply_keeps {s0 : State} {c : Caller} {verb : String} {s : State} (h : Keeps s0 s) : Keeps s0 (takeoverReply c verb s) := by
  unfold takeoverReply
  try dsimp only
  repeat'
    first
    | with_reducible assumption
    | with_reducible refine State_failWith_keeps ?_

theorem takeoverReplies_keeps {s0 : State} {s : State} (h : Keeps s0 s) : Keeps s0 (takeoverReplies s) := by
  unfold takeoverReplies
  try dsimp only
  repeat'
    first
    | with_reducible assumption
    | with_reducible refine takeoverReply_keeps ?_
    | with_reducible refine State_setSense_keeps ?_
    | with_reducible exact id
    | split
    | with_reducible refine Keeps.foldl (fun _ _ _ => ?_) _ ?_
    | with_reducible refine Keeps.upd ?_ rfl (fun _ h => h) ?_ ?_ ?_

theorem laneTaken_keeps {s0 : State} {l : LaneId} {s : State} (h : Keeps s0 s) : Keeps s0 (laneTaken l s) := by
  unfold laneTaken
  try dsimp only
  repeat'
    first
    | with_reducible assumption
    | with_reducible refine State_setLane_keeps ?_
    | with_reducible refine restartOne_keeps ?_
    | with_reducible refine redeliver_keeps ?_
    | with_reducible refine Keeps.foldl (fun _ _ _ => ?_) _ ?_

theorem owedReply_keeps {s0 : State} {p : Caller × Line} {s : State} (h : Keeps s0 s) : Keeps s0 (owedReply p s) := by
  unfold owedReply
  try dsimp only
  repeat'
    first
    | with_reducible assumption
    | with_reducible refine State_tx_keeps ?_
    | with_reducible refine State_reply_keeps ?_
    | split

theorem coxTakeover_keeps {s0 : State} {i : Fin 3} {s : State} (h : Keeps s0 s) : Keeps s0 (coxTakeover i s) := by
  unfold coxTakeover
  try dsimp only
  repeat'
    first
    | with_reducible assumption
    | with_reducible refine State_setRole_keeps ?_
    | with_reducible refine State_logFault_keeps ?_
    | with_reducible refine State_raise_keeps ?_
    | with_reducible refine owedReply_keeps ?_
    | with_reducible refine takeoverReplies_keeps ?_
    | with_reducible refine laneTaken_keeps ?_
    | with_reducible refine State_ok_keeps ?_
    | with_reducible exact id
    | split
    | with_reducible refine Keeps.foldl (fun _ _ _ => ?_) _ ?_
    | with_reducible refine Keeps.foldl2 (fun _ _ _ => ?_) _ ?_
    | with_reducible refine shellsOk_map (fun _ h => ?_)
    | with_reducible exact wf_filter _
    | with_reducible refine Keeps.upd ?_ rfl (fun _ h => h) ?_ ?_ ?_

theorem acceptFailed_keeps {s0 : State} {l : LaneId} {q : W32} {s : State} (h : Keeps s0 s) : Keeps s0 (acceptFailed l q s) := by
  unfold acceptFailed
  try dsimp only
  repeat'
    first
    | with_reducible assumption
    | with_reducible refine adapterGive_keeps ?_
    | with_reducible refine State_setLane_keeps ?_
    | with_reducible refine State_setRing_keeps ?_
    | with_reducible refine coxCrash_keeps ?_
    | with_reducible exact id
    | split
    | with_reducible exact wf_filter _
    | with_reducible refine Keeps.upd ?_ rfl (fun _ h => h) ?_ ?_ ?_

theorem retireFailed_keeps {s0 : State} {l : LaneId} {q : W32} {s : State} (h : Keeps s0 s) : Keeps s0 (retireFailed l q s) := by
  unfold retireFailed
  try dsimp only
  repeat'
    first
    | with_reducible assumption
    | with_reducible refine coxCrash_keeps ?_
    | split

theorem restartBundle_keeps {s0 : State} {h_0 : Fin 16} {s : State} (h : Keeps s0 s) : Keeps s0 (restartBundle h_0 s) := by
  unfold restartBundle
  try dsimp only
  repeat'
    first
    | with_reducible assumption
    | with_reducible refine restartWhere_keeps ?_

theorem bundleFailed_keeps {s0 : State} {h_0 : Fin 16} {s : State} (h : Keeps s0 s) : Keeps s0 (bundleFailed h_0 s) := by
  unfold bundleFailed
  try dsimp only
  repeat'
    first
    | with_reducible assumption
    | with_reducible refine State_setBundle_keeps ?_
    | with_reducible refine dropBundle_keeps ?_
    | with_reducible refine restartBundle_keeps ?_
    | with_reducible exact id
    | split
    | with_reducible refine shellsOk_map (fun _ h => ?_)
    | with_reducible exact wf_filter _
    | with_reducible refine Keeps.upd ?_ rfl (fun _ h => h) ?_ ?_ ?_

theorem logRecordFailed_keeps {s0 : State} {r : LogWhich} {s : State} (h : Keeps s0 s) : Keeps s0 (logRecordFailed r s) := by
  unfold logRecordFailed
  try dsimp only
  repeat'
    first
    | with_reducible assumption
    | with_reducible refine coxCrash_keeps ?_
    | with_reducible refine acceptFailed_keeps ?_
    | with_reducible refine retireFailed_keeps ?_
    | with_reducible refine State_setLane_keeps ?_
    | with_reducible refine State_setAd_keeps ?_
    | with_reducible refine bundleFailed_keeps ?_
    | with_reducible exact id
    | split
    | with_reducible refine Keeps.upd ?_ rfl (fun _ h => h) ?_ ?_ ?_

theorem logRecordWrite_keeps {s0 : State} {r : LogWhich} {ok : Bool} {s : State} (h : Keeps s0 s) : Keeps s0 (logRecordWrite r ok s) := by
  unfold logRecordWrite
  try dsimp only
  repeat'
    first
    | with_reducible assumption
    | with_reducible refine logRecordFailed_keeps ?_
    | split

theorem fenceSlice_keeps {s0 : State} {k : Fin 9} {s : State} (h : Keeps s0 s) : Keeps s0 (fenceSlice k s) := by
  unfold fenceSlice
  try dsimp only
  repeat'
    first
    | with_reducible assumption
    | with_reducible refine retireSlice_keeps ?_
    | with_reducible refine State_setEye_keeps ?_
    | with_reducible refine logSubstitute_keeps ?_
    | with_reducible refine fenceRecords_keeps ?_
    | split

theorem fenceUnit_keeps {s0 : State} {u : UnitRef} {s : State} (h : Keeps s0 s) : Keeps s0 (fenceUnit u s) := by
  unfold fenceUnit
  try dsimp only
  repeat'
    first
    | with_reducible assumption
    | with_reducible refine fenceShell_keeps ?_
    | with_reducible refine fenceBank_keeps ?_
    | with_reducible refine fenceSlice_keeps ?_
    | with_reducible refine fenceDecoder_keeps ?_
    | with_reducible refine fenceAes_keeps ?_
    | with_reducible refine coxCrash_keeps ?_
    | split

theorem doFence_keeps {s0 : State} {c : Caller} {u : UnitRef} {s : State} (h : Keeps s0 s) : Keeps s0 (doFence c u s) := by
  unfold doFence
  try dsimp only
  repeat'
    first
    | with_reducible assumption
    | with_reducible refine State_gate_keeps ?_ ?_
    | with_reducible refine State_fail_keeps ?_
    | with_reducible refine fenceUnit_keeps ?_
    | with_reducible refine State_ok_keeps ?_
    | with_reducible exact id
    | split
    | with_reducible refine Keeps.upd ?_ rfl (fun _ h => h) ?_ ?_ ?_

theorem doSpare_keeps {s0 : State} {c : Caller} {s : State} (h : Keeps s0 s) : Keeps s0 (doSpare c s) := by
  unfold doSpare
  try dsimp only
  repeat'
    first
    | with_reducible assumption
    | with_reducible refine State_gate_keeps ?_ ?_
    | with_reducible refine State_okWith_keeps ?_
    | split

theorem testBegin_keeps {s0 : State} {u : UnitRef} {asked : Bool} {s : State} (h : Keeps s0 s) : Keeps s0 (testBegin u asked s) := by
  unfold testBegin
  try dsimp only
  repeat'
    first
    | with_reducible assumption
    | with_reducible refine State_entering_keeps ?_ (fun _ _ => ?_)
    | with_reducible exact id
    | split
    | with_reducible exact wf_filter _
    | with_reducible refine Keeps.upd ?_ rfl (fun _ h => h) ?_ ?_ ?_

theorem selftestStart_keeps {s0 : State} {u : UnitRef} {s : State} (h : Keeps s0 s) : Keeps s0 (selftestStart u s) := by
  unfold selftestStart
  try dsimp only
  repeat'
    first
    | with_reducible assumption
    | with_reducible refine testBegin_keeps ?_
    | with_reducible refine elapseTo_keeps ?_
    | split

theorem selftestDone_keeps {s0 : State} {u : UnitRef} {pass : Bool} {s : State} (h : Keeps s0 s) : Keeps s0 (selftestDone u pass s) := by
  unfold selftestDone
  try dsimp only
  repeat'
    first
    | with_reducible assumption
    | with_reducible refine repairEnd_keeps ?_
    | with_reducible refine State_setUnitSt_keeps ?_
    | with_reducible refine State_logFault_keeps ?_
    | with_reducible refine State_raise_keeps ?_
    | with_reducible exact id
    | split
    | with_reducible exact wf_filter _
    | with_reducible refine Keeps.upd ?_ rfl (fun _ h => h) ?_ ?_ ?_

theorem repairGate_keeps {s0 s : State} {c : Caller} {u : UnitRef} {k : UnitSt → State} (h : Keeps s0 s)
    (hk : ∀ t, Keeps s0 (k t)) : Keeps s0 (repairGate c u s k) := by
  unfold repairGate
  refine State_gate_keeps h ?_
  split
  · exact State_fail_keeps h
  · split
    · exact State_fail_keeps h
    · exact hk _

theorem doRepairTest_keeps {s0 : State} {c : Caller} {u : UnitRef} {s : State} (h : Keeps s0 s) : Keeps s0 (doRepairTest c u s) := by
  unfold doRepairTest
  try dsimp only
  repeat'
    first
    | with_reducible assumption
    | with_reducible refine repairGate_keeps ?_ (fun _ => ?_)
    | with_reducible refine State_fail_keeps ?_
    | with_reducible refine testBegin_keeps ?_
    | with_reducible refine State_ok_keeps ?_
    | with_reducible refine repairStart_keeps ?_
    | split

theorem rejoin_keeps {s0 : State} {u : UnitRef} {s : State} (h : Keeps s0 s) : Keeps s0 (rejoin u s) := by
  unfold rejoin
  try dsimp only
  repeat'
    first
    | with_reducible assumption
    | with_reducible refine State_setShellSt_keeps ?_
    | with_reducible refine residentInto_keeps ?_
    | with_reducible refine remap_keeps ?_
    | with_reducible refine State_setBankSt_keeps ?_
    | with_reducible refine State_freshCycle_keeps ?_
    | with_reducible refine State_setEye_keeps ?_
    | with_reducible refine State_setRole_keeps ?_
    | with_reducible refine wake_keeps ?_
    | with_reducible refine State_setUnitSt_keeps ?_
    | with_reducible exact id
    | split
    | with_reducible refine Keeps.upd ?_ rfl (fun _ h => h) ?_ ?_ ?_

theorem doRepairRejoin_keeps {s0 : State} {c : Caller} {u : UnitRef} {s : State} (h : Keeps s0 s) : Keeps s0 (doRepairRejoin c u s) := by
  unfold doRepairRejoin
  try dsimp only
  repeat'
    first
    | with_reducible assumption
    | with_reducible refine repairGate_keeps ?_ (fun _ => ?_)
    | with_reducible refine State_fail_keeps ?_
    | with_reducible refine rejoin_keeps ?_
    | with_reducible refine repairStart_keeps ?_
    | with_reducible refine State_logFault_keeps ?_
    | with_reducible refine repairEnd_keeps ?_
    | with_reducible refine State_ok_keeps ?_
    | with_reducible exact id
    | split
    | with_reducible exact wf_filter _
    | with_reducible refine Keeps.upd ?_ rfl (fun _ h => h) ?_ ?_ ?_

theorem repairRecordWrite_keeps {s0 : State} {s : State} (h : Keeps s0 s) : Keeps s0 (repairRecordWrite s) := by
  unfold repairRecordWrite
  try dsimp only
  repeat'
    first
    | with_reducible assumption
    | with_reducible refine State_logFault_keeps ?_
    | with_reducible exact id
    | split
    | with_reducible refine Keeps.upd ?_ rfl (fun _ h => h) ?_ ?_ ?_

theorem messageFailed_keeps {s0 : State} {u : UnitRef} {again : Bool} {s : State} (h : Keeps s0 s) : Keeps s0 (messageFailed u again s) := by
  unfold messageFailed
  try dsimp only
  repeat'
    first
    | with_reducible assumption
    | with_reducible refine coxCrash_keeps ?_
    | with_reducible refine restartShell_keeps ?_
    | with_reducible refine logShellFault_keeps ?_
    | with_reducible refine State_logFault_keeps ?_
    | split

theorem bringupTimeout_keeps {s0 : State} {d : Dom} {s : State} (h : Keeps s0 s) : Keeps s0 (bringupTimeout d s) := by
  unfold bringupTimeout
  try dsimp only
  repeat'
    first
    | with_reducible assumption
    | with_reducible refine fenceShell_keeps ?_
    | with_reducible refine coxCrash_keeps ?_
    | with_reducible refine fenceRecords_keeps ?_
    | with_reducible refine State_setRole_keeps ?_
    | with_reducible refine restartWhere_keeps ?_
    | with_reducible refine eyeFault_keeps ?_
    | with_reducible exact id
    | split
    | with_reducible refine Keeps.upd ?_ rfl (fun _ h => h) ?_ ?_ ?_

end Sys2Proof.Laws
end

