-- ==== Sys2Proof/Laws/KeepKeys.lean ====
section
/-! SUPPORT. What the operations of Keys keep. -/

namespace Sys2Proof.Laws
open Sys2Proof Sys2Proof.Machine

theorem burnStart_keeps {s0 : State} {b : Burn} {s : State} (h : Keeps s0 s) : Keeps s0 (burnStart b s) := by
  unfold burnStart
  try dsimp only
  repeat'
    first
    | with_reducible assumption
    | with_reducible exact id
    | split
    | with_reducible refine Keeps.upd ?_ rfl (fun _ h => h) ?_ ?_ ?_

theorem keyCheck_keeps {s0 : State} {s : State} (h : Keeps s0 s) : Keeps s0 (keyCheck s) := by
  unfold keyCheck
  try dsimp only
  repeat'
    first
    | with_reducible assumption
    | with_reducible exact id
    | with_reducible refine Keeps.upd ?_ rfl (fun _ h => h) ?_ ?_ ?_

theorem burnReply_keeps {s0 : State} {b : Burn} {s : State} (h : Keeps s0 s) : Keeps s0 (burnReply b s) := by
  unfold burnReply
  try dsimp only
  repeat'
    first
    | with_reducible assumption
    | with_reducible refine keyopEnd_keeps ?_
    | with_reducible refine State_ok_keeps ?_
    | with_reducible refine State_setUnitSt_keeps ?_
    | with_reducible refine repairEnd_keeps ?_
    | split

theorem mem_otpAdd {a k : Nat} (l : List Nat) (h : a ∈ l) : a ∈ otpAdd k l := by
  induction l with
  | nil => cases h
  | cons b r ih =>
    unfold otpAdd
    split
    · exact List.mem_cons_of_mem _ h
    · split
      · exact h
      · cases h with
        | head => exact List.mem_cons_self
        | tail _ h => exact List.mem_cons_of_mem _ (ih h)

theorem mem_otpAdd_foldl {a : Nat} (bits l : List Nat) (h : a ∈ l) : a ∈ bits.foldl (fun o k => otpAdd k o) l := by
  induction bits generalizing l with
  | nil => exact h
  | cons b r ih => exact ih _ (mem_otpAdd _ h)

theorem burnDone_keeps {s0 s : State} (h : Keeps s0 s) : Keeps s0 (burnDone s) := by
  unfold burnDone
  split
  · exact burnReply_keeps (keyCheck_keeps (Keeps.upd h rfl (fun _ m => mem_otpAdd_foldl _ _ m) id id id))
  · exact h

theorem writeFuseLock_keeps {s0 : State} {p : Path} {v : W32} {s : State} (h : Keeps s0 s) : Keeps s0 (writeFuseLock p v s) := by
  unfold writeFuseLock
  try dsimp only
  repeat'
    first
    | with_reducible assumption
    | with_reducible refine burnStart_keeps ?_
    | with_reducible exact id
    | split
    | with_reducible refine Keeps.upd ?_ rfl (fun _ h => h) ?_ ?_ ?_

theorem fieldLockDisarm_keeps {s0 : State} {s : State} (h : Keeps s0 s) : Keeps s0 (fieldLockDisarm s) := by
  unfold fieldLockDisarm
  try dsimp only
  repeat'
    first
    | with_reducible assumption
    | with_reducible refine elapseTo_keeps ?_
    | with_reducible exact id
    | split
    | with_reducible refine Keeps.upd ?_ rfl (fun _ h => h) ?_ ?_ ?_

theorem State_await_keeps {s0 : State} {s : State} {c : Caller} {verb : String} (h : Keeps s0 s) : Keeps s0 (State.await s c verb) := by
  unfold State.await
  try dsimp only
  repeat'
    first
    | with_reducible assumption
    | with_reducible exact id
    | split
    | with_reducible refine Keeps.upd ?_ rfl (fun _ h => h) ?_ ?_ ?_

theorem doRepairRecord_keeps {s0 : State} {c : Caller} {u : UnitRef} {s : State} (h : Keeps s0 s) : Keeps s0 (doRepairRecord c u s) := by
  unfold doRepairRecord
  try dsimp only
  repeat'
    first
    | with_reducible assumption
    | with_reducible refine repairGate_keeps ?_ (fun _ => ?_)
    | with_reducible refine State_fail_keeps ?_
    | with_reducible refine burnStart_keeps ?_
    | with_reducible refine State_await_keeps ?_
    | with_reducible refine repairStart_keeps ?_
    | split

theorem doKeyState_keeps {s0 : State} {c : Caller} {s : State} (h : Keeps s0 s) : Keeps s0 (doKeyState c s) := by
  unfold doKeyState
  try dsimp only
  repeat'
    first
    | with_reducible assumption
    | with_reducible refine State_gate_keeps ?_ ?_
    | with_reducible refine State_ok_keeps ?_
    | split

theorem doKeyRotatePlan_keeps {s0 : State} {c : Caller} {s : State} (h : Keeps s0 s) : Keeps s0 (doKeyRotatePlan c s) := by
  unfold doKeyRotatePlan
  try dsimp only
  repeat'
    first
    | with_reducible assumption
    | with_reducible refine State_gate_keeps ?_ ?_
    | with_reducible refine State_fail_keeps ?_
    | with_reducible refine startRotation_keeps ?_
    | refine KeepsE.of_eq (startRotation_keeps ?_) ‹_›
    | with_reducible refine sweepCheck_keeps ?_
    | with_reducible refine State_ok_keeps ?_
    | with_reducible refine keyopStart_keeps ?_
    | split

theorem vkGate_keeps {s0 s k : State} {c : Caller} (h : Keeps s0 s) (hk : Keeps s0 k) : Keeps s0 (vkGate c s k) := by
  unfold vkGate
  refine State_gate_keeps h ?_
  split
  · exact State_fail_keeps h
  · split
    · exact State_fail_keeps h
    · exact hk

theorem doKeyVkLoad_keeps {s0 s : State} {c : Caller} {k : Fin 4} {addr : Nat} (h : Keeps s0 s) : Keeps s0 (doKeyVkLoad c k addr s) := by
  refine vkGate_keeps h ?_
  split
  · exact State_fail_keeps h
  · split
    · exact State_fail_keeps h
    · have ha := KeepsE2.of_eq (attachment_keeps h) ‹_›
      split
      · exact State_fail_keeps ha
      · exact burnStart_keeps (State_await_keeps (keyopStart_keeps (Keeps.upd ha rfl (fun _ m => m) id (wf_put _ _) id)))

theorem doKeyVkRevoke_keeps {s0 : State} {c : Caller} {k : Fin 4} {s : State} (h : Keeps s0 s) : Keeps s0 (doKeyVkRevoke c k s) := by
  unfold doKeyVkRevoke
  try dsimp only
  repeat'
    first
    | with_reducible assumption
    | with_reducible refine vkGate_keeps ?_ ?_
    | with_reducible refine State_fail_keeps ?_
    | with_reducible refine burnStart_keeps ?_
    | with_reducible refine State_await_keeps ?_
    | with_reducible refine keyopStart_keeps ?_
    | split

end Sys2Proof.Laws
end

