-- ==== Sys2Proof/Laws/KeepFirm.lean ====
section
/-! SUPPORT. What the operations of Firm keep. -/

namespace Sys2Proof.Laws
open Sys2Proof Sys2Proof.Machine

theorem firmAccepted_keeps {s0 : State} {s : State} (h : Keeps s0 s) : Keeps s0 (firmAccepted s) := by
  unfold firmAccepted
  try dsimp only
  repeat'
    first
    | with_reducible assumption
    | with_reducible refine burnStart_keeps ?_
    | split

theorem State_setFirm_keeps {s0 : State} {s : State} {f : Firm → Firm} (h : Keeps s0 s) : Keeps s0 (State.setFirm s f) := by
  unfold State.setFirm
  try dsimp only
  repeat'
    first
    | with_reducible assumption
    | with_reducible exact id
    | with_reducible refine Keeps.upd ?_ rfl (fun _ h => h) ?_ ?_ ?_

theorem doFirmState_keeps {s0 : State} {c : Caller} {s : State} (h : Keeps s0 s) : Keeps s0 (doFirmState c s) := by
  unfold doFirmState
  try dsimp only
  repeat'
    first
    | with_reducible assumption
    | with_reducible refine State_gate_keeps ?_ ?_
    | with_reducible refine State_ok_keeps ?_
    | split

theorem doFirmBegin_keeps {s0 : State} {c : Caller} {size : Nat} {s : State} (h : Keeps s0 s) : Keeps s0 (doFirmBegin c size s) := by
  unfold doFirmBegin
  try dsimp only
  repeat'
    first
    | with_reducible assumption
    | with_reducible refine State_gate_keeps ?_ ?_
    | with_reducible refine State_fail_keeps ?_
    | with_reducible refine State_await_keeps ?_
    | with_reducible refine State_setFirm_keeps ?_
    | split

theorem firmErased_wf {n : Nat} {m : Bytes} (h : m.wf = true) : (firmErased n m).wf = true := wf_put _ _ h
theorem firmPut_wf {off : Nat} {l : List Byte} {m : Bytes} (h : m.wf = true) : (firmPut off l m).wf = true := wf_put _ _ (wf_put _ _ h)

theorem firmEraseDone_keeps {s0 s : State} (h : Keeps s0 s) : Keeps s0 (firmEraseDone s) := by
  unfold firmEraseDone
  split
  · exact State_ok_keeps (State_setFirm_keeps (Keeps.upd h rfl (fun _ m => m) id firmErased_wf id))
  · exact h

theorem firmWrite_keeps {s0 s : State} {size off : Nat} {l : List Byte} (h : Keeps s0 s) : Keeps s0 (firmWrite size off l s) :=
  Keeps.upd h rfl (fun _ m => m) id firmPut_wf id

theorem firmOpen_keeps {s0 s : State} {c : Caller} {k : Nat → State} (h : Keeps s0 s)
    (hk : ∀ t, Keeps s0 (k t)) : Keeps s0 (firmOpen c s k) := by
  unfold firmOpen
  refine State_gate_keeps h ?_
  split
  · exact State_fail_keeps h
  · split
    · exact hk _
    · exact State_fail_keeps h

theorem doFirmData_keeps {s0 : State} {c : Caller} {off : Nat} {l : List Byte} {s : State} (h : Keeps s0 s) : Keeps s0 (doFirmData c off l s) := by
  unfold doFirmData
  try dsimp only
  repeat'
    first
    | with_reducible assumption
    | with_reducible refine firmOpen_keeps ?_ (fun _ => ?_)
    | with_reducible refine State_ok_keeps ?_
    | with_reducible refine firmWrite_keeps ?_
    | with_reducible refine State_fail_keeps ?_
    | split

theorem firmBytes_keeps {s0 : State} {c : Caller} {addr : Nat} {len : Nat} {s : State} (h : Keeps s0 s) : KeepsE2 s0 (firmBytes c addr len s) := by
  unfold firmBytes
  try dsimp only
  repeat'
    first
    | with_reducible assumption
    | with_reducible refine attachment_keeps ?_
    | refine KeepsE2.of_eq (attachment_keeps ?_) ‹_›
    | split
    | with_reducible exact KeepsE2.error
    | with_reducible refine KeepsE2.ok ?_

theorem doFirmAddr_keeps {s0 : State} {c : Caller} {addr : Nat} {len : Nat} {s : State} (h : Keeps s0 s) : Keeps s0 (doFirmAddr c addr len s) := by
  unfold doFirmAddr
  try dsimp only
  repeat'
    first
    | with_reducible assumption
    | with_reducible refine firmOpen_keeps ?_ (fun _ => ?_)
    | with_reducible refine State_fail_keeps ?_
    | with_reducible refine firmBytes_keeps ?_
    | refine KeepsE2.of_eq (firmBytes_keeps ?_) ‹_›
    | with_reducible refine State_ok_keeps ?_
    | with_reducible refine firmWrite_keeps ?_
    | split

theorem doFirmEnd_keeps {s0 s : State} {c : Caller} (h : Keeps s0 s) : Keeps s0 (doFirmEnd c s) := by
  refine firmOpen_keeps h fun n => ?_
  split
  · exact State_failWith_keeps h
  · split
    · exact State_fail_keeps h
    · split
      · exact State_fail_keeps h
      · have hw : Keeps s0 { s with flash := s.flash.put 4092 (leBytes firmComplete 4) } :=
          Keeps.upd h rfl (fun _ m => m) id (wf_put _ _) id
        have ho : ∀ x : State, Keeps s0 x → Keeps s0 ((firmAccepted (x.setFirm fun f => { f with size := none, written := [], highest := 0 })).ok c
            "FIRM" [bareF "END"]) := fun x hx => State_ok_keeps (firmAccepted_keeps (State_setFirm_keeps hx))
        dsimp only
        split
        · exact Keeps.upd (ho _ hw) rfl (fun _ m => m) id id id
        · exact ho _ hw

theorem firmNeeded_keeps {s0 : State} {s : State} (h : Keeps s0 s) : Keeps s0 (firmNeeded s) := by
  unfold firmNeeded
  try dsimp only
  repeat'
    first
    | with_reducible assumption
    | with_reducible refine State_raise_keeps ?_
    | split

theorem firmNeededTick_keeps {s0 : State} {s : State} (h : Keeps s0 s) : Keeps s0 (firmNeededTick s) := by
  unfold firmNeededTick
  try dsimp only
  repeat'
    first
    | with_reducible assumption
    | with_reducible refine firmNeeded_keeps ?_
    | split

end Sys2Proof.Laws
end

