-- ==== Sys2Proof/Laws/KeepStartup.lean ====
section
/-! SUPPORT. What the operations of Startup keep. -/

namespace Sys2Proof.Laws
open Sys2Proof Sys2Proof.Machine

theorem burnCut_keeps {s0 s : State} (h : Keeps s0 s) : Keeps s0 (burnCut s) := by
  unfold burnCut
  split
  · exact Keeps.upd h rfl (fun _ m => mem_otpAdd_foldl _ _ m) id id id
  · exact Keeps.upd h rfl (fun _ m => m) id id id

theorem eraseCut_keeps {s0 s : State} (h : Keeps s0 s) : Keeps s0 (eraseCut s) := by
  unfold eraseCut
  split
  · exact Keeps.upd h rfl (fun _ m => m) id firmErased_wf id
  · exact h

theorem State_blank_keeps {s0 s : State} (h : Keeps s0 s) : Keeps s0 (State.blank s) :=
  Keeps.upd (eraseCut_keeps (burnCut_keeps h)) rfl (fun _ m => m) (fun _ => ⟨rfl, rfl⟩) id (fun _ => shellsOk_reset)

theorem powerOn_keeps {s0 : State} {hostsel : Bool} {s : State} (h : Keeps s0 s) : Keeps s0 (powerOn hostsel s) := by
  unfold powerOn
  try dsimp only
  repeat'
    first
    | with_reducible assumption
    | with_reducible refine State_blank_keeps ?_
    | with_reducible exact id
    | with_reducible refine Keeps.upd ?_ rfl (fun _ h => h) ?_ ?_ ?_

theorem vddAoLost_keeps {s0 : State} {s : State} (h : Keeps s0 s) : Keeps s0 (vddAoLost s) := by
  unfold vddAoLost
  try dsimp only
  repeat'
    first
    | with_reducible assumption
    | with_reducible refine State_blank_keeps ?_
    | with_reducible exact id
    | with_reducible refine Keeps.upd ?_ rfl (fun _ h => h) ?_ ?_ ?_

theorem coldReset_keeps {s0 : State} {hostsel : Bool} {s : State} (h : Keeps s0 s) : Keeps s0 (coldReset hostsel s) := by
  unfold coldReset
  try dsimp only
  repeat'
    first
    | with_reducible assumption
    | with_reducible refine State_blank_keeps ?_
    | with_reducible exact id
    | split
    | with_reducible refine Keeps.upd ?_ rfl (fun _ h => h) ?_ ?_ ?_

theorem coldResetDo_keeps {s0 : State} {hostsel : Bool} {s : State} (h : Keeps s0 s) : Keeps s0 (coldResetDo hostsel s) := by
  unfold coldResetDo
  try dsimp only
  repeat'
    first
    | with_reducible assumption
    | with_reducible refine coldReset_keeps ?_
    | split

theorem warmReset_keeps {s0 s : State} {k : ResetKind} (h : Keeps s0 s) : Keeps s0 (warmReset k s) := by
  unfold warmReset
  dsimp only
  split
  · exact Keeps.upd h (State_blank_keeps (Keeps.refl s)).pending (State_blank_keeps (Keeps.refl s)).otp (fun _ => ⟨rfl, rfl⟩) (State_blank_keeps (Keeps.refl s)).flash
      (fun _ => shellsOk_reset)
  · exact Keeps.upd h (State_blank_keeps (Keeps.refl s)).pending (State_blank_keeps (Keeps.refl s)).otp (fun m => ⟨rfl, wf_filter _ m.2⟩) (State_blank_keeps (Keeps.refl s)).flash
      (fun _ => shellsOk_reset)

theorem warmResetDo_keeps {s0 : State} {s : State} (h : Keeps s0 s) : Keeps s0 (warmResetDo s) := by
  unfold warmResetDo
  try dsimp only
  repeat'
    first
    | with_reducible assumption
    | with_reducible refine warmReset_keeps ?_
    | split

theorem noCoxWarmReset_keeps {s0 : State} {s : State} (h : Keeps s0 s) : Keeps s0 (noCoxWarmReset s) := by
  unfold noCoxWarmReset
  try dsimp only
  repeat'
    first
    | with_reducible assumption
    | with_reducible refine warmReset_keeps ?_
    | split

theorem refSteady_keeps {s0 : State} {s : State} (h : Keeps s0 s) : Keeps s0 (refSteady s) := by
  unfold refSteady
  try dsimp only
  repeat'
    first
    | with_reducible assumption
    | with_reducible exact id
    | split
    | with_reducible refine Keeps.upd ?_ rfl (fun _ h => h) ?_ ?_ ?_

theorem refStartupTimeout_keeps {s0 : State} {s : State} (h : Keeps s0 s) : Keeps s0 (refStartupTimeout s) := by
  unfold refStartupTimeout
  try dsimp only
  repeat'
    first
    | with_reducible assumption
    | with_reducible refine elapseTo_keeps ?_
    | with_reducible exact id
    | with_reducible refine memOk_mk ?_ ?_
    | split
    | with_reducible refine Keeps.upd ?_ rfl (fun _ h => h) ?_ ?_ ?_

theorem corePowerGood_keeps {s0 : State} {mv : BitVec 10} {s : State} (h : Keeps s0 s) : Keeps s0 (corePowerGood mv s) := by
  unfold corePowerGood
  try dsimp only
  repeat'
    first
    | with_reducible assumption
    | with_reducible exact id
    | split
    | with_reducible refine Keeps.upd ?_ rfl (fun _ h => h) ?_ ?_ ?_

theorem firmwareCopied_keeps {s0 : State} {s : State} (h : Keeps s0 s) : Keeps s0 (firmwareCopied s) := by
  unfold firmwareCopied
  try dsimp only
  repeat'
    first
    | with_reducible assumption
    | with_reducible exact id
    | split
    | with_reducible refine Keeps.upd ?_ rfl (fun _ h => h) ?_ ?_ ?_

theorem outAtStart_keeps {s0 : State} {t : UnitSt} {u : UnitRef} {s : State} (h : Keeps s0 s) : Keeps s0 (outAtStart t u s) := by
  unfold outAtStart
  try dsimp only
  repeat'
    first
    | with_reducible assumption
    | with_reducible refine State_setUnitSt_keeps ?_
    | with_reducible refine State_setBankSt_keeps ?_
    | with_reducible exact id
    | split
    | with_reducible refine Keeps.upd ?_ rfl (fun _ h => h) ?_ ?_ ?_

theorem coxDivide_keeps {s0 : State} {s : State} (h : Keeps s0 s) : Keeps s0 (coxDivide s) := by
  unfold coxDivide
  try dsimp only
  repeat'
    first
    | with_reducible assumption
    | with_reducible exact id
    | split
    | with_reducible refine shellsOk_mapIdx (fun _ _ h => ?_)
    | with_reducible exact wf_filter _
    | with_reducible refine Keeps.upd ?_ rfl (fun _ h => h) ?_ ?_ ?_

theorem recordsApply_keeps {s0 : State} {s : State} (h : Keeps s0 s) : Keeps s0 (recordsApply s) := by
  unfold recordsApply
  try dsimp only
  repeat'
    first
    | with_reducible assumption
    | with_reducible refine outAtStart_keeps ?_
    | with_reducible refine State_setEye_keeps ?_
    | with_reducible refine coxDivide_keeps ?_
    | with_reducible refine remap_keeps ?_
    | with_reducible exact id
    | split
    | with_reducible refine Keeps.foldl (fun _ _ _ => ?_) _ ?_
    | with_reducible exact wf_filter _
    | with_reducible refine Keeps.upd ?_ rfl (fun _ h => h) ?_ ?_ ?_

theorem bootFailed_keeps {s0 : State} {k : Fin 16} {s : State} (h : Keeps s0 s) : Keeps s0 (bootFailed k s) := by
  unfold bootFailed
  try dsimp only
  repeat'
    first
    | with_reducible assumption
    | with_reducible refine State_logFault_keeps ?_
    | split

theorem lookoutLoad_keeps {s0 : State} {s : State} (h : Keeps s0 s) : Keeps s0 (lookoutLoad s) := by
  unfold lookoutLoad
  try dsimp only
  repeat'
    first
    | with_reducible assumption
    | with_reducible refine bootLoad_keeps ?_
    | refine KeepsE.of_eq (bootLoad_keeps ?_) ‹_›
    | with_reducible refine bootFailed_keeps ?_
    | with_reducible exact id
    | split
    | with_reducible refine Keeps.upd ?_ rfl (fun _ h => h) ?_ ?_ ?_

theorem plugsAtStart_keeps {s0 : State} {s : State} (h : Keeps s0 s) : Keeps s0 (plugsAtStart s) := by
  unfold plugsAtStart
  try dsimp only
  repeat'
    first
    | with_reducible assumption
    | with_reducible refine impStart_keeps ?_
    | split
    | with_reducible refine Keeps.foldl (fun _ _ _ => ?_) _ ?_

theorem firmChecks_keeps {s0 : State} {kat : BitVec 3} {s : State} (h : Keeps s0 s) : Keeps s0 (firmChecks kat s) := by
  unfold firmChecks
  try dsimp only
  repeat'
    first
    | with_reducible assumption
    | with_reducible refine keyCheck_keeps ?_
    | with_reducible refine aesKat_keeps ?_
    | with_reducible refine State_govRead_keeps ?_
    | with_reducible refine railRequest_keeps ?_
    | with_reducible refine plugsAtStart_keeps ?_
    | with_reducible refine recordsApply_keeps ?_
    | with_reducible exact id
    | split
    | with_reducible refine Keeps.foldl (fun _ _ _ => ?_) _ ?_
    | with_reducible refine Keeps.upd ?_ rfl (fun _ h => h) ?_ ?_ ?_

theorem firmStarts_keeps {s0 : State} {s : State} (h : Keeps s0 s) : Keeps s0 (firmStarts s) := by
  unfold firmStarts
  try dsimp only
  repeat'
    first
    | with_reducible assumption
    | with_reducible refine firmAccepted_keeps ?_
    | with_reducible refine State_setFirm_keeps ?_
    | with_reducible refine lookoutLoad_keeps ?_
    | with_reducible exact id
    | split
    | with_reducible refine Keeps.upd ?_ rfl (fun _ h => h) ?_ ?_ ?_

theorem firmwareVerified_keeps {s0 : State} {kat : BitVec 3} {s : State} (h : Keeps s0 s) : Keeps s0 (firmwareVerified kat s) := by
  unfold firmwareVerified
  try dsimp only
  repeat'
    first
    | with_reducible assumption
    | with_reducible refine firmChecks_keeps ?_
    | with_reducible refine firmStarts_keeps ?_
    | with_reducible exact id
    | split
    | with_reducible refine Keeps.upd ?_ rfl (fun _ h => h) ?_ ?_ ?_

theorem pagesApply_keeps {s0 : State} {s : State} (h : Keeps s0 s) : Keeps s0 (pagesApply s) := by
  unfold pagesApply
  try dsimp only
  repeat'
    first
    | with_reducible assumption
    | with_reducible refine State_logFault_keeps ?_
    | with_reducible exact id
    | with_reducible refine memOk_mk ?_ ?_
    | split
    | with_reducible refine Keeps.foldl (fun _ _ _ => ?_) _ ?_
    | with_reducible exact wf_filter _
    | with_reducible refine Keeps.upd ?_ rfl (fun _ h => h) ?_ ?_ ?_

theorem dramTrainingDone_keeps {s0 : State} {ok : Bool} {fitted : Byte} {rate : BitVec 4} {ranks : BitVec 2} {s : State} (h : Keeps s0 s) : Keeps s0 (dramTrainingDone ok fitted rate ranks s) := by
  unfold dramTrainingDone
  try dsimp only
  repeat'
    first
    | with_reducible assumption
    | with_reducible refine pagesApply_keeps ?_
    | with_reducible exact id
    | with_reducible refine memOk_mk ?_ ?_
    | split
    | with_reducible refine Keeps.upd ?_ rfl (fun _ h => h) ?_ ?_ ?_

theorem bootBundleLoad_keeps {s0 : State} {k : Fin 16} {s : State} (h : Keeps s0 s) : Keeps s0 (bootBundleLoad k s) := by
  unfold bootBundleLoad
  try dsimp only
  repeat'
    first
    | with_reducible assumption
    | with_reducible refine bootLoad_keeps ?_
    | refine KeepsE.of_eq (bootLoad_keeps ?_) ‹_›
    | with_reducible refine bootFailed_keeps ?_
    | with_reducible exact id
    | split
    | with_reducible refine Keeps.upd ?_ rfl (fun _ h => h) ?_ ?_ ?_

end Sys2Proof.Laws
end

