-- ==== Sys2Proof/Laws/KeepBus.lean ====
section
/-! SUPPORT. What the operations of Bus keep. -/

namespace Sys2Proof.Laws
open Sys2Proof Sys2Proof.Machine

theorem readGlobal_keeps {s0 : State} {p : Path} {o : Nat} {s : State} (h : Keeps s0 s) : Keeps s0 (readGlobal p o s).2 := by
  unfold readGlobal
  try dsimp only
  repeat'
    first
    | with_reducible assumption
    | with_reducible refine readLo_keeps ?_
    | refine Keeps.of_eq (readLo_keeps ?_) ‹_›
    | split
    | dsimp only
    | refine Keeps.of_eq ?_ ‹_ = (_, _)›

theorem writeGlobal_keeps {s0 : State} {p : Path} {o : Nat} {v : W32} {s : State} (h : Keeps s0 s) : Keeps s0 (writeGlobal p o v s) := by
  unfold writeGlobal
  try dsimp only
  repeat'
    first
    | with_reducible assumption
    | with_reducible exact id
    | split
    | with_reducible refine Keeps.upd ?_ rfl (fun _ h => h) ?_ ?_ ?_

theorem readLane_keeps {s0 : State} {p : Path} {l : LaneId} {o : Nat} {s : State} (h : Keeps s0 s) : Keeps s0 (readLane p l o s).2 := by
  unfold readLane
  try dsimp only
  repeat'
    first
    | with_reducible assumption
    | with_reducible refine readLo_keeps ?_
    | refine Keeps.of_eq (readLo_keeps ?_) ‹_›
    | split
    | dsimp only
    | refine Keeps.of_eq ?_ ‹_ = (_, _)›

theorem writeLane_keeps {s0 : State} {p : Path} {l : LaneId} {o : Nat} {v : W32} {s : State} (h : Keeps s0 s) : Keeps s0 (writeLane p l o v s) := by
  unfold writeLane
  try dsimp only
  repeat'
    first
    | with_reducible assumption
    | with_reducible refine State_bookLane_keeps ?_
    | with_reducible refine spinLoWrite_keeps ?_
    | with_reducible refine spinHiWrite_keeps ?_
    | split

theorem readLanes_keeps {s0 : State} {p : Path} {o : Nat} {s : State} (h : Keeps s0 s) : Keeps s0 (readLanes p o s).2 := by
  unfold readLanes
  try dsimp only
  repeat'
    first
    | with_reducible assumption
    | with_reducible refine readLane_keeps ?_
    | refine Keeps.of_eq (readLane_keeps ?_) ‹_›
    | split
    | dsimp only
    | refine Keeps.of_eq ?_ ‹_ = (_, _)›

theorem writeLanes_keeps {s0 : State} {p : Path} {o : Nat} {v : W32} {s : State} (h : Keeps s0 s) : Keeps s0 (writeLanes p o v s) := by
  unfold writeLanes
  try dsimp only
  repeat'
    first
    | with_reducible assumption
    | with_reducible refine adapterGrantWrite_keeps ?_
    | with_reducible refine writeLane_keeps ?_
    | split

theorem writeFault_keeps {s0 : State} {o : Nat} {v : W32} {s : State} (h : Keeps s0 s) : Keeps s0 (writeFault o v s) := by
  unfold writeFault
  try dsimp only
  repeat'
    first
    | with_reducible assumption
    | with_reducible exact id
    | split
    | with_reducible refine Keeps.upd ?_ rfl (fun _ h => h) ?_ ?_ ?_

theorem writeRegCtrl_keeps {s0 : State} {p : Path} {r : Fin 32} {v : W32} {s : State} (h : Keeps s0 s) : Keeps s0 (writeRegCtrl p r v s) := by
  unfold writeRegCtrl
  try dsimp only
  repeat'
    first
    | with_reducible assumption
    | with_reducible refine State_setRegion_keeps ?_
    | with_reducible refine regionDelete_keeps ?_
    | with_reducible refine regionMake_keeps ?_
    | split

theorem writeRegion_keeps {s0 : State} {p : Path} {r : Fin 32} {o : Nat} {v : W32} {s : State} (h : Keeps s0 s) : Keeps s0 (writeRegion p r o v s) := by
  unfold writeRegion
  try dsimp only
  repeat'
    first
    | with_reducible assumption
    | with_reducible refine State_setRegion_keeps ?_
    | with_reducible refine writeRegCtrl_keeps ?_
    | split

theorem readMem_keeps {s0 s : State} {p : Path} {o : Nat} (h : Keeps s0 s) : Keeps s0 (readMem p o s).2 := by
  unfold readMem
  exact Keeps.ite2 (readWinRefused_keeps h) h

theorem writeMem_keeps {s0 : State} {p : Path} {o : Nat} {v : W32} {s : State} (h : Keeps s0 s) : Keeps s0 (writeMem p o v s) := by
  unfold writeMem
  try dsimp only
  repeat'
    first
    | with_reducible assumption
    | with_reducible refine bhRetainWrite_keeps ?_
    | with_reducible refine bhPartWrite_keeps ?_
    | with_reducible refine writeRegion_keeps ?_
    | with_reducible exact id
    | with_reducible refine memOk_mk ?_ ?_
    | split
    | with_reducible refine Keeps.upd ?_ rfl (fun _ h => h) ?_ ?_ ?_

theorem readHostQspi_keeps {s0 : State} {s : State} (h : Keeps s0 s) : Keeps s0 (readHostQspi s).2 := by
  unfold readHostQspi
  try dsimp only
  repeat'
    first
    | with_reducible assumption
    | with_reducible exact id
    | dsimp only
    | with_reducible refine Keeps.upd ?_ rfl (fun _ h => h) ?_ ?_ ?_

theorem writeRing_keeps {s0 : State} {n : LaneId} {o : Nat} {v : W32} {s : State} (h : Keeps s0 s) : Keeps s0 (writeRing n o v s) := by
  unfold writeRing
  try dsimp only
  repeat'
    first
    | with_reducible assumption
    | with_reducible refine doorbell_keeps ?_
    | with_reducible refine cqHeadWrite_keeps ?_
    | with_reducible refine State_setRing_keeps ?_
    | with_reducible refine tadd_keeps ?_
    | split

theorem readHost_keeps {s0 : State} {p : Path} {o : Nat} {s : State} (h : Keeps s0 s) : Keeps s0 (readHost p o s).2 := by
  unfold readHost
  try dsimp only
  repeat'
    first
    | with_reducible assumption
    | with_reducible refine readHostQspi_keeps ?_
    | refine Keeps.of_eq (readHostQspi_keeps ?_) ‹_›
    | split
    | dsimp only
    | refine Keeps.of_eq ?_ ‹_ = (_, _)›

theorem writeHost_keeps {s0 : State} {p : Path} {o : Nat} {v : W32} {s : State} (h : Keeps s0 s) : Keeps s0 (writeHost p o v s) := by
  unfold writeHost
  try dsimp only
  repeat'
    first
    | with_reducible assumption
    | with_reducible refine taddRefused_keeps ?_
    | with_reducible refine writeRing_keeps ?_
    | with_reducible refine evHeadWrite_keeps ?_
    | with_reducible exact id
    | split
    | with_reducible refine Keeps.upd ?_ rfl (fun _ h => h) ?_ ?_ ?_

theorem writeString_keeps {s0 : State} {o : Nat} {v : W32} {s : State} (h : Keeps s0 s) : Keeps s0 (writeString o v s) := by
  unfold writeString
  try dsimp only
  repeat'
    first
    | with_reducible assumption
    | with_reducible exact id
    | split
    | with_reducible refine Keeps.upd ?_ rfl (fun _ h => h) ?_ ?_ ?_

theorem regTouch_keeps {s0 : State} {off : Nat} {s : State} (h : Keeps s0 s) : Keeps s0 (regTouch off s) := by
  unfold regTouch
  try dsimp only
  repeat'
    first
    | with_reducible assumption
    | with_reducible refine touch_keeps ?_
    | split

theorem readBlock_keeps {s0 : State} {p : Path} {off : Nat} {s : State} (h : Keeps s0 s) : Keeps s0 (readBlock p off s).2 := by
  unfold readBlock
  try dsimp only
  repeat'
    first
    | with_reducible assumption
    | with_reducible refine readGlobal_keeps ?_
    | refine Keeps.of_eq (readGlobal_keeps ?_) ‹_›
    | with_reducible refine readLanes_keeps ?_
    | refine Keeps.of_eq (readLanes_keeps ?_) ‹_›
    | with_reducible refine readStat_keeps ?_
    | refine Keeps.of_eq (readStat_keeps ?_) ‹_›
    | with_reducible refine readMem_keeps ?_
    | refine Keeps.of_eq (readMem_keeps ?_) ‹_›
    | with_reducible refine readEyeMissed_keeps ?_
    | refine Keeps.of_eq (readEyeMissed_keeps ?_) ‹_›
    | with_reducible refine readEar_keeps ?_
    | refine Keeps.of_eq (readEar_keeps ?_) ‹_›
    | with_reducible refine readSenseData_keeps ?_
    | refine Keeps.of_eq (readSenseData_keeps ?_) ‹_›
    | with_reducible refine readEdgeLost_keeps ?_
    | refine Keeps.of_eq (readEdgeLost_keeps ?_) ‹_›
    | with_reducible refine readHost_keeps ?_
    | refine Keeps.of_eq (readHost_keeps ?_) ‹_›
    | split
    | dsimp only
    | refine Keeps.of_eq ?_ ‹_ = (_, _)›

theorem readReg_keeps {s0 : State} {p : Path} {off : Nat} {s : State} (h : Keeps s0 s) : Keeps s0 (readReg p off s).2 := by
  unfold readReg
  try dsimp only
  repeat'
    first
    | with_reducible assumption
    | with_reducible refine draw_keeps ?_
    | refine Keeps.of_eq (draw_keeps ?_) ‹_›
    | with_reducible refine readBlock_keeps ?_
    | refine Keeps.of_eq (readBlock_keeps ?_) ‹_›
    | with_reducible refine regTouch_keeps ?_
    | split
    | dsimp only
    | refine Keeps.of_eq ?_ ‹_ = (_, _)›

theorem writeBlock_keeps {s0 : State} {p : Path} {off : Nat} {v : W32} {s : State} (h : Keeps s0 s) : Keeps s0 (writeBlock p off v s) := by
  unfold writeBlock
  try dsimp only
  repeat'
    first
    | with_reducible assumption
    | with_reducible refine writeGlobal_keeps ?_
    | with_reducible refine writeLanes_keeps ?_
    | with_reducible refine writeRail_keeps ?_
    | with_reducible refine writeFault_keeps ?_
    | with_reducible refine writeMem_keeps ?_
    | with_reducible refine writeEye_keeps ?_
    | with_reducible refine writeEar_keeps ?_
    | with_reducible refine writeSense_keeps ?_
    | with_reducible refine writeEdge_keeps ?_
    | with_reducible refine writeTmr_keeps ?_
    | with_reducible refine writeHost_keeps ?_
    | with_reducible refine writeFuseLock_keeps ?_
    | with_reducible refine writeString_keeps ?_
    | split

theorem writeReg_keeps {s0 : State} {p : Path} {off : Nat} {v : W32} {s : State} (h : Keeps s0 s) : Keeps s0 (writeReg p off v s) := by
  unfold writeReg
  try dsimp only
  repeat'
    first
    | with_reducible assumption
    | with_reducible refine writeBlock_keeps ?_
    | with_reducible refine regTouch_keeps ?_
    | split

theorem loRegisterRead_keeps {s0 : State} {path : Path} {r : LoReg} {s : State} (h : Keeps s0 s) : Keeps s0 (loRegisterRead path r s) := by
  unfold loRegisterRead
  try dsimp only
  repeat'
    first
    | with_reducible assumption
    | with_reducible refine readReg_keeps ?_
    | refine Keeps.of_eq (readReg_keeps ?_) ‹_›
    | with_reducible refine State_answered_keeps ?_
    | split
    | dsimp only
    | refine Keeps.of_eq ?_ ‹_ = (_, _)›

theorem hostQspiRead_keeps {s0 : State} {path : Path} {s : State} (h : Keeps s0 s) : Keeps s0 (hostQspiRead path s) := by
  unfold hostQspiRead
  try dsimp only
  repeat'
    first
    | with_reducible assumption
    | with_reducible refine readHostQspi_keeps ?_
    | refine Keeps.of_eq (readHostQspi_keeps ?_) ‹_›
    | with_reducible refine State_answered_keeps ?_
    | split
    | dsimp only
    | refine Keeps.of_eq ?_ ‹_ = (_, _)›

end Sys2Proof.Laws
end

