-- ==== Sys2Proof/Laws/KeepStringPort.lean ====
section
/-! SUPPORT. What the operations of StringPort keep. -/

namespace Sys2Proof.Laws
open Sys2Proof Sys2Proof.Machine

theorem tapInstruction_keeps {s0 : State} {ir : BitVec 4} {s : State} (h : Keeps s0 s) : Keeps s0 (tapInstruction ir s) := by
  unfold tapInstruction
  try dsimp only
  repeat'
    first
    | with_reducible assumption
    | with_reducible exact id
    | split
    | with_reducible refine Keeps.upd ?_ rfl (fun _ h => h) ?_ ?_ ?_

theorem State_shiftOut_keeps {s0 : State} {s : State} {v : Option (BitVec 80)} (h : Keeps s0 s) : Keeps s0 (State.shiftOut s v) := by
  unfold State.shiftOut
  try dsimp only
  repeat'
    first
    | with_reducible assumption
    | with_reducible exact id
    | with_reducible refine Keeps.upd ?_ rfl (fun _ h => h) ?_ ?_ ?_

theorem idcodeCapture_keeps {s0 : State} {s : State} (h : Keeps s0 s) : Keeps s0 (idcodeCapture s) := by
  unfold idcodeCapture
  try dsimp only
  repeat'
    first
    | with_reducible assumption
    | with_reducible refine State_shiftOut_keeps ?_
    | split

theorem respCapture_keeps {s0 : State} {s : State} (h : Keeps s0 s) : Keeps s0 (respCapture s) := by
  unfold respCapture
  try dsimp only
  repeat'
    first
    | with_reducible assumption
    | with_reducible refine State_shiftOut_keeps ?_
    | split

theorem strOpen_keeps {s0 : State} {s : State} (h : Keeps s0 s) : Keeps s0 (strOpen s) := by
  unfold strOpen
  try dsimp only
  repeat'
    first
    | with_reducible assumption
    | with_reducible refine touch_keeps ?_
    | with_reducible exact id
    | split
    | with_reducible refine Keeps.upd ?_ rfl (fun _ h => h) ?_ ?_ ?_

theorem State_strSays_keeps {s0 : State} {s : State} {op : Byte} {st : StrStatus} {v : W64} (h : Keeps s0 s) : Keeps s0 (State.strSays s op st v) := by
  unfold State.strSays
  try dsimp only
  repeat'
    first
    | with_reducible assumption
    | with_reducible exact id
    | with_reducible refine Keeps.upd ?_ rfl (fun _ h => h) ?_ ?_ ?_

theorem strCmd_keeps {s0 s : State} {op : Byte} {run : State → StrAns} (h : Keeps s0 s)
    (hk : ∀ s, Keeps s0 s → Keeps s0 (run s).2.2) : Keeps s0 (strCmd op run s) := by
  unfold strCmd
  split
  · exact h
  · split
    · exact State_strSays_keeps h
    · exact State_strSays_keeps (hk _ (strOpen_keeps h))

theorem strBad_keeps {s0 s : State} (h : Keeps s0 s) : Keeps s0 (strBad s).2.2 := h
theorem strRefused_keeps {s0 s : State} (h : Keeps s0 s) : Keeps s0 (strRefused s).2.2 := h
theorem strDone_keeps {s0 s : State} {v : W64} (h : Keeps s0 s) : Keeps s0 (strDone v s).2.2 := h

theorem doStringStatus_keeps {s0 : State} {arg : BitVec 24} {data : W64} {a : State} (h : Keeps s0 a) : Keeps s0 (doStringStatus arg data a) := by
  unfold doStringStatus
  try dsimp only
  repeat'
    first
    | with_reducible assumption
    | with_reducible refine strBad_keeps ?_
    | with_reducible refine strRefused_keeps ?_
    | with_reducible refine strDone_keeps ?_
    | with_reducible refine strCmd_keeps ?_ (fun _ _ => ?_)
    | split

theorem doHalt_keeps {s0 : State} {arg : BitVec 24} {data : W64} {a : State} (h : Keeps s0 a) : Keeps s0 (doHalt arg data a) := by
  unfold doHalt
  try dsimp only
  repeat'
    first
    | with_reducible assumption
    | with_reducible refine strBad_keeps ?_
    | with_reducible refine strRefused_keeps ?_
    | with_reducible refine strDone_keeps ?_
    | with_reducible refine strCmd_keeps ?_ (fun _ _ => ?_)
    | with_reducible refine State_watch_keeps ?_
    | with_reducible exact id
    | split
    | with_reducible refine Keeps.upd ?_ rfl (fun _ h => h) ?_ ?_ ?_

theorem doResume_keeps {s0 : State} {arg : BitVec 24} {data : W64} {a : State} (h : Keeps s0 a) : Keeps s0 (doResume arg data a) := by
  unfold doResume
  try dsimp only
  repeat'
    first
    | with_reducible assumption
    | with_reducible refine strBad_keeps ?_
    | with_reducible refine strRefused_keeps ?_
    | with_reducible refine strDone_keeps ?_
    | with_reducible refine strCmd_keeps ?_ (fun _ _ => ?_)
    | with_reducible refine strFree_keeps ?_
    | split

theorem doStep_keeps {s0 : State} {arg : BitVec 24} {data : W64} {a : State} (h : Keeps s0 a) : Keeps s0 (doStep arg data a) := by
  unfold doStep
  try dsimp only
  repeat'
    first
    | with_reducible assumption
    | with_reducible refine strBad_keeps ?_
    | with_reducible refine strRefused_keeps ?_
    | with_reducible refine strDone_keeps ?_
    | with_reducible refine strCmd_keeps ?_ (fun _ _ => ?_)
    | with_reducible exact id
    | split
    | with_reducible refine Keeps.upd ?_ rfl (fun _ h => h) ?_ ?_ ?_

theorem stepDone_keeps {s0 : State} {s : State} (h : Keeps s0 s) : Keeps s0 (stepDone s) := by
  unfold stepDone
  try dsimp only
  repeat'
    first
    | with_reducible assumption
    | with_reducible exact id
    | split
    | with_reducible refine Keeps.upd ?_ rfl (fun _ h => h) ?_ ?_ ?_

theorem doCounter_keeps {s0 : State} {arg : BitVec 24} {data : W64} {a : State} (h : Keeps s0 a) : Keeps s0 (doCounter arg data a) := by
  unfold doCounter
  try dsimp only
  repeat'
    first
    | with_reducible assumption
    | with_reducible refine strBad_keeps ?_
    | with_reducible refine strRefused_keeps ?_
    | with_reducible refine strDone_keeps ?_
    | with_reducible refine strCmd_keeps ?_ (fun _ _ => ?_)
    | split

theorem State_setSlot_keeps {s0 : State} {s : State} {k : Fin 8} {b : Option Break} (h : Keeps s0 s) : Keeps s0 (State.setSlot s k b) := by
  unfold State.setSlot
  try dsimp only
  repeat'
    first
    | with_reducible assumption
    | with_reducible exact id
    | with_reducible refine Keeps.upd ?_ rfl (fun _ h => h) ?_ ?_ ?_

theorem strArmed_keeps {s0 : State} {b : Break} {s : State} (h : Keeps s0 s) : Keeps s0 (strArmed b s) := by
  unfold strArmed
  try dsimp only
  repeat'
    first
    | with_reducible assumption
    | with_reducible refine State_watch_keeps ?_
    | with_reducible exact id
    | split
    | with_reducible refine Keeps.upd ?_ rfl (fun _ h => h) ?_ ?_ ?_

theorem doBreakSet_keeps {s0 : State} {arg : BitVec 24} {data : W64} {a : State} (h : Keeps s0 a) : Keeps s0 (doBreakSet arg data a) := by
  unfold doBreakSet
  try dsimp only
  repeat'
    first
    | with_reducible assumption
    | with_reducible refine strBad_keeps ?_
    | with_reducible refine strRefused_keeps ?_
    | with_reducible refine strDone_keeps ?_
    | with_reducible refine strCmd_keeps ?_ (fun _ _ => ?_)
    | with_reducible refine strArmed_keeps ?_
    | with_reducible refine State_setSlot_keeps ?_
    | split

theorem doBreakClear_keeps {s0 : State} {arg : BitVec 24} {data : W64} {a : State} (h : Keeps s0 a) : Keeps s0 (doBreakClear arg data a) := by
  unfold doBreakClear
  try dsimp only
  repeat'
    first
    | with_reducible assumption
    | with_reducible refine strBad_keeps ?_
    | with_reducible refine strRefused_keeps ?_
    | with_reducible refine strDone_keeps ?_
    | with_reducible refine strCmd_keeps ?_ (fun _ _ => ?_)
    | with_reducible refine State_setSlot_keeps ?_
    | split

theorem strTouch_keeps {s0 : State} {p : LaneId → HeatRun → Bool} {s : State} (h : Keeps s0 s) : Keeps s0 (strTouch p s) := by
  unfold strTouch
  try dsimp only
  repeat'
    first
    | with_reducible assumption
    | with_reducible exact id
    | split
    | with_reducible refine Keeps.upd ?_ rfl (fun _ h => h) ?_ ?_ ?_

theorem doRd32_keeps {s0 : State} {arg : BitVec 24} {data : W64} {a : State} (h : Keeps s0 a) : Keeps s0 (doRd32 arg data a) := by
  unfold doRd32
  try dsimp only
  repeat'
    first
    | with_reducible assumption
    | with_reducible refine strBad_keeps ?_
    | with_reducible refine strRefused_keeps ?_
    | with_reducible refine strDone_keeps ?_
    | with_reducible refine strCmd_keeps ?_ (fun _ _ => ?_)
    | with_reducible refine readReg_keeps ?_
    | refine Keeps.of_eq (readReg_keeps ?_) ‹_›
    | split
    | dsimp only
    | refine Keeps.of_eq ?_ ‹_ = (_, _)›

theorem doWr32_keeps {s0 : State} {arg : BitVec 24} {data : W64} {a : State} (h : Keeps s0 a) : Keeps s0 (doWr32 arg data a) := by
  unfold doWr32
  try dsimp only
  repeat'
    first
    | with_reducible assumption
    | with_reducible refine strBad_keeps ?_
    | with_reducible refine strRefused_keeps ?_
    | with_reducible refine strDone_keeps ?_
    | with_reducible refine strCmd_keeps ?_ (fun _ _ => ?_)
    | with_reducible refine writeReg_keeps ?_
    | with_reducible refine strTouch_keeps ?_
    | with_reducible refine readReg_keeps ?_
    | refine Keeps.of_eq (readReg_keeps ?_) ‹_›
    | split
    | dsimp only
    | refine Keeps.of_eq ?_ ‹_ = (_, _)›

theorem doSetaddr_keeps {s0 : State} {arg : BitVec 24} {data : W64} {a : State} (h : Keeps s0 a) : Keeps s0 (doSetaddr arg data a) := by
  unfold doSetaddr
  try dsimp only
  repeat'
    first
    | with_reducible assumption
    | with_reducible refine strBad_keeps ?_
    | with_reducible refine strRefused_keeps ?_
    | with_reducible refine strDone_keeps ?_
    | with_reducible refine strCmd_keeps ?_ (fun _ _ => ?_)
    | with_reducible exact id
    | split
    | with_reducible refine Keeps.upd ?_ rfl (fun _ h => h) ?_ ?_ ?_

theorem strUnit_keeps {s0 : State} {unit : Nat} {s : State} (h : Keeps s0 s) : Keeps s0 (strUnit unit s).2 := by
  unfold strUnit
  try dsimp only
  repeat'
    first
    | with_reducible assumption
    | with_reducible refine dramRead_keeps ?_
    | refine Keeps.of_eq (dramRead_keeps ?_) ‹_›
    | with_reducible refine freeBytes_keeps ?_
    | refine Keeps.of_eq (freeBytes_keeps ?_) ‹_›
    | split
    | dsimp only
    | refine Keeps.of_eq ?_ ‹_ = (_, _)›

theorem strCourseRead_keeps {s0 : State} {a : Nat} {s : State} (h : Keeps s0 s) : Keeps s0 (strCourseRead a s).2 := by
  unfold strCourseRead
  try dsimp only
  repeat'
    first
    | with_reducible assumption
    | with_reducible refine State_countBh_keeps ?_
    | with_reducible refine touch_keeps ?_
    | with_reducible refine freeBytes_keeps ?_
    | refine Keeps.of_eq (freeBytes_keeps ?_) ‹_›
    | with_reducible refine openRead_keeps ?_
    | refine Keeps.of_eq (openRead_keeps ?_) ‹_›
    | with_reducible refine strUnit_keeps ?_
    | refine Keeps.of_eq (strUnit_keeps ?_) ‹_›
    | split
    | dsimp only
    | refine Keeps.of_eq ?_ ‹_ = (_, _)›

theorem strCourseWrite_keeps {s0 : State} {a : Nat} {w : W64} {s : State} (h : Keeps s0 s) : Keeps s0 (strCourseWrite a w s) := by
  unfold strCourseWrite
  try dsimp only
  repeat'
    first
    | with_reducible assumption
    | with_reducible refine State_countBh_keeps ?_
    | with_reducible refine touch_keeps ?_
    | with_reducible refine strUnit_keeps ?_
    | refine Keeps.of_eq (strUnit_keeps ?_) ‹_›
    | with_reducible refine dramWrite_keeps ?_
    | refine Keeps.of_eq (dramWrite_keeps ?_) ‹_›
    | with_reducible exact id
    | with_reducible refine memOk_mk ?_ ?_
    | split
    | with_reducible exact wf_put _ _
    | with_reducible exact wf_filter _
    | refine Keeps.of_eq ?_ ‹_ = (_, _)›
    | dsimp only
    | with_reducible refine Keeps.upd ?_ rfl (fun _ h => h) ?_ ?_ ?_

theorem strReadAt_keeps {s0 : State} {p : StrSpace} {a : Nat} {s : State} (h : Keeps s0 s) : Keeps s0 (strReadAt p a s).2 := by
  unfold strReadAt
  try dsimp only
  repeat'
    first
    | with_reducible assumption
    | with_reducible refine strCourseRead_keeps ?_
    | refine Keeps.of_eq (strCourseRead_keeps ?_) ‹_›
    | with_reducible refine touch_keeps ?_
    | with_reducible refine freeBytes_keeps ?_
    | refine Keeps.of_eq (freeBytes_keeps ?_) ‹_›
    | split
    | dsimp only
    | refine Keeps.of_eq ?_ ‹_ = (_, _)›

theorem strWriteAt_keeps {s0 : State} {p : StrSpace} {a : Nat} {w : W64} {s : State} (h : Keeps s0 s) : KeepsO s0 (strWriteAt p a w s) := by
  unfold strWriteAt
  try dsimp only
  repeat'
    first
    | with_reducible assumption
    | with_reducible refine setShell_keeps ?_ (fun _ h => ?_)
    | with_reducible refine strCourseWrite_keeps ?_
    | with_reducible refine strTouch_keeps ?_
    | with_reducible refine touch_keeps ?_
    | with_reducible exact Shell_store_keeps ‹_›
    | with_reducible refine Shell_store_keeps ?_
    | with_reducible exact id
    | exact ⟨h.1, h.2⟩
    | exact ⟨wf_put _ _ h.1, h.2⟩
    | exact ⟨h.1, wf_put _ _ h.2⟩
    | exact ⟨(Shell_store_keeps h).1, (Shell_store_keeps h).2⟩
    | exact ⟨rfl, rfl⟩
    | split
    | with_reducible exact KeepsO.none
    | with_reducible refine KeepsO.some ?_

theorem State_strAdvance_keeps {s0 : State} {s : State} (h : Keeps s0 s) : Keeps s0 (State.strAdvance s) := by
  unfold State.strAdvance
  try dsimp only
  repeat'
    first
    | with_reducible assumption
    | with_reducible exact id
    | with_reducible refine Keeps.upd ?_ rfl (fun _ h => h) ?_ ?_ ?_

theorem doRdmem_keeps {s0 : State} {arg : BitVec 24} {data : W64} {s : State} (h : Keeps s0 s) : Keeps s0 (doRdmem arg data s) := by
  unfold doRdmem
  try dsimp only
  repeat'
    first
    | with_reducible assumption
    | with_reducible refine strBad_keeps ?_
    | with_reducible refine strRefused_keeps ?_
    | with_reducible refine strDone_keeps ?_
    | with_reducible refine strCmd_keeps ?_ (fun _ _ => ?_)
    | with_reducible refine strReadAt_keeps ?_
    | refine Keeps.of_eq (strReadAt_keeps ?_) ‹_›
    | with_reducible refine State_strAdvance_keeps ?_
    | split
    | dsimp only
    | refine Keeps.of_eq ?_ ‹_ = (_, _)›

theorem doWrmem_keeps {s0 : State} {arg : BitVec 24} {data : W64} {s : State} (h : Keeps s0 s) : Keeps s0 (doWrmem arg data s) := by
  unfold doWrmem
  try dsimp only
  repeat'
    first
    | with_reducible assumption
    | with_reducible refine strBad_keeps ?_
    | with_reducible refine strRefused_keeps ?_
    | with_reducible refine strDone_keeps ?_
    | with_reducible refine strCmd_keeps ?_ (fun _ _ => ?_)
    | with_reducible refine strWriteAt_keeps ?_
    | refine KeepsO.of_eq (strWriteAt_keeps ?_) ‹_›
    | with_reducible refine State_strAdvance_keeps ?_
    | split

theorem strSessionIdle_keeps {s0 : State} {s : State} (h : Keeps s0 s) : Keeps s0 (strSessionIdle s) := by
  unfold strSessionIdle
  try dsimp only
  repeat'
    first
    | with_reducible assumption
    | with_reducible refine strEnd_keeps ?_
    | split

theorem strTrst_keeps {s0 : State} {s : State} (h : Keeps s0 s) : Keeps s0 (strTrst s) := by
  unfold strTrst
  try dsimp only
  repeat'
    first
    | with_reducible assumption
    | with_reducible refine strEnd_keeps ?_
    | with_reducible exact id
    | with_reducible refine Keeps.upd ?_ rfl (fun _ h => h) ?_ ?_ ?_

end Sys2Proof.Laws
end

