-- ==== Sys2Proof/Laws/KeepCallLine.lean ====
section
/-! SUPPORT. What the operations of CallLine keep. -/

namespace Sys2Proof.Laws
open Sys2Proof Sys2Proof.Machine

theorem State_echoChars_keeps {s0 : State} {s : State} {l : List Byte} (h : Keeps s0 s) : Keeps s0 (State.echoChars s l) := by
  unfold State.echoChars
  try dsimp only
  repeat'
    first
    | with_reducible assumption
    | with_reducible refine State_txChars_keeps ?_
    | split

theorem State_edit_keeps {s0 : State} {s : State} {b : Byte} (h : Keeps s0 s) : KeepsO s0 (State.edit s b) := by
  unfold State.edit
  try dsimp only
  repeat'
    first
    | with_reducible assumption
    | with_reducible refine State_echoChars_keeps ?_
    | with_reducible exact id
    | split
    | with_reducible refine Keeps.upd ?_ rfl (fun _ h => h) ?_ ?_ ?_
    | with_reducible exact KeepsO.none
    | with_reducible refine KeepsO.some ?_

theorem State_takeChar_keeps {s0 s : State} {b : Byte} (h : Keeps s0 s) : Keeps s0 (s.takeChar b) := by
  have hc : ∀ c, Keeps s0 { s with call := c } := fun _ => Keeps.upd h rfl (fun _ m => m) id id id
  have hcc : ∀ (c c' : CallLine), Keeps s0 { ({ s with call := c } : State) with call := c' } := fun _ _ => Keeps.upd h rfl (fun _ m => m) id id id
  unfold State.takeChar
  dsimp only
  split
  · exact State_echoChars_keeps (hc _)
  · split
    · exact hc _
    · split
      · exact State_echoChars_keeps (hc _)
      · split
        · rename_i heq
          split at heq
          · exact KeepsO.of_eq (State_edit_keeps (hc _)) heq
          · cases heq
        · exact State_echoChars_keeps (hc _)

theorem callCharReceived_keeps {s0 : State} {b : Byte} {rate : Nat} {s : State} (h : Keeps s0 s) : Keeps s0 (callCharReceived b rate s) := by
  unfold callCharReceived
  try dsimp only
  repeat'
    first
    | with_reducible assumption
    | with_reducible refine State_takeChar_keeps ?_
    | with_reducible exact id
    | split
    | with_reducible refine Keeps.upd ?_ rfl (fun _ h => h) ?_ ?_ ?_

theorem State_endWait_keeps {s0 : State} {s : State} {why : String} (h : Keeps s0 s) : Keeps s0 (State.endWait s why) := by
  unfold State.endWait
  try dsimp only
  repeat'
    first
    | with_reducible assumption
    | with_reducible refine State_reply_keeps ?_
    | with_reducible exact id
    | split
    | with_reducible refine Keeps.upd ?_ rfl (fun _ h => h) ?_ ?_ ?_

theorem lineBreak_keeps {s0 : State} {s : State} (h : Keeps s0 s) : Keeps s0 (lineBreak s) := by
  unfold lineBreak
  try dsimp only
  repeat'
    first
    | with_reducible assumption
    | with_reducible refine State_endWait_keeps ?_
    | with_reducible refine State_raise_keeps ?_
    | with_reducible refine State_prompt_keeps ?_
    | with_reducible exact id
    | split
    | with_reducible refine Keeps.upd ?_ rfl (fun _ h => h) ?_ ?_ ?_

theorem callTxLine_keeps {s0 : State} {s : State} (h : Keeps s0 s) : Keeps s0 (callTxLine s) := by
  unfold callTxLine
  try dsimp only
  repeat'
    first
    | with_reducible assumption
    | with_reducible exact id
    | split
    | with_reducible refine Keeps.upd ?_ rfl (fun _ h => h) ?_ ?_ ?_

theorem callCtsNChange_keeps {s0 : State} {high : Bool} {s : State} (h : Keeps s0 s) : Keeps s0 (callCtsNChange high s) := by
  unfold callCtsNChange
  try dsimp only
  repeat'
    first
    | with_reducible assumption
    | with_reducible exact id
    | with_reducible refine Keeps.upd ?_ rfl (fun _ h => h) ?_ ?_ ?_

end Sys2Proof.Laws
end

