-- ==== Sys2Proof/Laws/KeepVerbs.lean ====
section
/-! SUPPORT. What the operations of Verbs keep. -/

namespace Sys2Proof.Laws
open Sys2Proof Sys2Proof.Machine

theorem doHello_keeps {s0 : State} {c : Caller} {s : State} (h : Keeps s0 s) : Keeps s0 (doHello c s) := by
  unfold doHello
  try dsimp only
  repeat'
    first
    | with_reducible assumption
    | with_reducible refine State_gate_keeps ?_ ?_
    | with_reducible refine State_ok_keeps ?_

theorem doInfo_keeps {s0 : State} {c : Caller} {s : State} (h : Keeps s0 s) : Keeps s0 (doInfo c s) := by
  unfold doInfo
  try dsimp only
  repeat'
    first
    | with_reducible assumption
    | with_reducible refine State_gate_keeps ?_ ?_
    | with_reducible refine State_ok_keeps ?_
    | split

theorem doHelp_keeps {s0 : State} {c : Caller} {verb : Option (List Byte)} {s : State} (h : Keeps s0 s) : Keeps s0 (doHelp c verb s) := by
  unfold doHelp
  try dsimp only
  repeat'
    first
    | with_reducible assumption
    | with_reducible refine State_gate_keeps ?_ ?_
    | with_reducible refine State_okWith_keeps ?_
    | with_reducible refine State_failWith_keeps ?_
    | split

theorem doVerbList_keeps {s0 : State} {c : Caller} {s : State} (h : Keeps s0 s) : Keeps s0 (doVerbList c s) := by
  unfold doVerbList
  try dsimp only
  repeat'
    first
    | with_reducible assumption
    | with_reducible refine doHelp_keeps ?_

theorem doEcho_keeps {s0 : State} {c : Caller} {on : Bool} {s : State} (h : Keeps s0 s) : Keeps s0 (doEcho c on s) := by
  unfold doEcho
  try dsimp only
  repeat'
    first
    | with_reducible assumption
    | with_reducible refine State_gate_keeps ?_ ?_
    | with_reducible refine State_fail_keeps ?_
    | with_reducible refine State_ok_keeps ?_
    | with_reducible exact id
    | split
    | with_reducible refine Keeps.upd ?_ rfl (fun _ h => h) ?_ ?_ ?_

theorem doMode_keeps {s0 : State} {c : Caller} {terse : Bool} {check : Option Bool} {events : Option Bool} {flow : Option Bool} {s : State} (h : Keeps s0 s) : Keeps s0 (doMode c terse check events flow s) := by
  unfold doMode
  try dsimp only
  repeat'
    first
    | with_reducible assumption
    | with_reducible refine State_gate_keeps ?_ ?_
    | with_reducible refine State_fail_keeps ?_
    | with_reducible refine State_ok_keeps ?_
    | with_reducible exact id
    | split
    | with_reducible refine Keeps.upd ?_ rfl (fun _ h => h) ?_ ?_ ?_

theorem sayBanner_keeps {s0 : State} {reset : String} {s : State} (h : Keeps s0 s) : Keeps s0 (sayBanner reset s) := by
  unfold sayBanner
  try dsimp only
  repeat'
    first
    | with_reducible assumption
    | with_reducible refine State_tx_keeps ?_
    | with_reducible refine State_ringEvent_keeps ?_
    | split

theorem doResetCall_keeps {s0 : State} {c : Caller} {s : State} (h : Keeps s0 s) : Keeps s0 (doResetCall c s) := by
  unfold doResetCall
  try dsimp only
  repeat'
    first
    | with_reducible assumption
    | with_reducible refine State_gate_keeps ?_ ?_
    | with_reducible refine State_ok_keeps ?_
    | with_reducible refine sayBanner_keeps ?_
    | with_reducible exact id
    | with_reducible refine Keeps.upd ?_ rfl (fun _ h => h) ?_ ?_ ?_

theorem doResetWarm_keeps {s0 : State} {c : Caller} {s : State} (h : Keeps s0 s) : Keeps s0 (doResetWarm c s) := by
  unfold doResetWarm
  try dsimp only
  repeat'
    first
    | with_reducible assumption
    | with_reducible refine State_gate_keeps ?_ ?_
    | with_reducible refine State_ok_keeps ?_
    | with_reducible exact id
    | with_reducible refine Keeps.upd ?_ rfl (fun _ h => h) ?_ ?_ ?_

theorem doLease_keeps {s0 : State} {c : Caller} {period : Option Nat} {s : State} (h : Keeps s0 s) : Keeps s0 (doLease c period s) := by
  unfold doLease
  try dsimp only
  repeat'
    first
    | with_reducible assumption
    | with_reducible refine State_gate_keeps ?_ ?_
    | with_reducible refine State_ok_keeps ?_
    | with_reducible refine State_fail_keeps ?_
    | with_reducible refine leaseRenew_keeps ?_
    | with_reducible exact id
    | split
    | with_reducible refine Keeps.upd ?_ rfl (fun _ h => h) ?_ ?_ ?_

theorem readRegs_keeps {s0 : State} {p : Path} {off : Nat} {a : Nat} {a_3 : State} (h : Keeps s0 a_3) : Keeps s0 (readRegs p off a a_3).2 := by
  induction a generalizing p off a_3 with
  | zero => exact h
  | succ n ih =>
    unfold readRegs
    try dsimp only
    repeat'
      first
      | with_reducible assumption
      | with_reducible refine ih ?_
      | refine Keeps.of_eq (ih ?_) ‹_›
      | with_reducible refine readReg_keeps ?_
      | refine Keeps.of_eq (readReg_keeps ?_) ‹_›
      | split
      | dsimp only
      | refine Keeps.of_eq ?_ ‹_ = (_, _)›

theorem getField_keeps {s0 : State} {c : Caller} {off : Nat} {f : List Byte} {s : State} (h : Keeps s0 s) : Keeps s0 (getField c off f s) := by
  unfold getField
  try dsimp only
  repeat'
    first
    | with_reducible assumption
    | with_reducible refine State_fail_keeps ?_
    | with_reducible refine readReg_keeps ?_
    | refine Keeps.of_eq (readReg_keeps ?_) ‹_›
    | with_reducible refine State_ok_keeps ?_
    | split
    | dsimp only
    | refine Keeps.of_eq ?_ ‹_ = (_, _)›

theorem doGet_keeps {s0 : State} {c : Caller} {reg : RegRef} {field : Option (List Byte)} {n : Option Nat} {s : State} (h : Keeps s0 s) : Keeps s0 (doGet c reg field n s) := by
  unfold doGet
  try dsimp only
  repeat'
    first
    | with_reducible assumption
    | with_reducible refine State_gate_keeps ?_ ?_
    | with_reducible refine State_fail_keeps ?_
    | with_reducible refine getField_keeps ?_
    | with_reducible refine readReg_keeps ?_
    | refine Keeps.of_eq (readReg_keeps ?_) ‹_›
    | with_reducible refine State_ok_keeps ?_
    | with_reducible refine readRegs_keeps ?_
    | refine Keeps.of_eq (readRegs_keeps ?_) ‹_›
    | with_reducible refine State_okWith_keeps ?_
    | split
    | dsimp only
    | refine Keeps.of_eq ?_ ‹_ = (_, _)›

theorem setAnswer_keeps {s0 : State} {c : Caller} {off : Nat} {v : W32} {s : State} (h : Keeps s0 s) : Keeps s0 (setAnswer c off v s) := by
  unfold setAnswer
  try dsimp only
  repeat'
    first
    | with_reducible assumption
    | with_reducible refine writeReg_keeps ?_
    | with_reducible refine State_ok_keeps ?_
    | with_reducible refine readReg_keeps ?_
    | refine Keeps.of_eq (readReg_keeps ?_) ‹_›
    | split
    | dsimp only
    | refine Keeps.of_eq ?_ ‹_ = (_, _)›

theorem doSet_keeps {s0 : State} {c : Caller} {reg : RegRef} {v : Nat} {s : State} (h : Keeps s0 s) : Keeps s0 (doSet c reg v s) := by
  unfold doSet
  try dsimp only
  repeat'
    first
    | with_reducible assumption
    | with_reducible refine State_gate_keeps ?_ ?_
    | with_reducible refine State_fail_keeps ?_
    | with_reducible refine setAnswer_keeps ?_
    | split

theorem doSetField_keeps {s0 : State} {c : Caller} {reg : RegRef} {field : List Byte} {v : Nat} {s : State} (h : Keeps s0 s) : Keeps s0 (doSetField c reg field v s) := by
  unfold doSetField
  try dsimp only
  repeat'
    first
    | with_reducible assumption
    | with_reducible refine State_gate_keeps ?_ ?_
    | with_reducible refine State_fail_keeps ?_
    | with_reducible refine readReg_keeps ?_
    | refine Keeps.of_eq (readReg_keeps ?_) ‹_›
    | with_reducible refine setAnswer_keeps ?_
    | split
    | dsimp only
    | refine Keeps.of_eq ?_ ‹_ = (_, _)›

theorem logReply_keeps {s0 : State} {c : Caller} {ls : List (List (String × Val))} {s : State} (h : Keeps s0 s) : Keeps s0 (logReply c ls s) := by
  unfold logReply
  try dsimp only
  repeat'
    first
    | with_reducible assumption
    | with_reducible refine State_okWith_keeps ?_

theorem doLogFault_keeps {s0 : State} {c : Caller} {n : Nat} {s : State} (h : Keeps s0 s) : Keeps s0 (doLogFault c n s) := by
  unfold doLogFault
  try dsimp only
  repeat'
    first
    | with_reducible assumption
    | with_reducible refine State_gate_keeps ?_ ?_
    | with_reducible refine State_fail_keeps ?_
    | with_reducible refine logReply_keeps ?_
    | split

theorem doLogLane_keeps {s0 : State} {c : Caller} {l : LaneId} {n : Nat} {s : State} (h : Keeps s0 s) : Keeps s0 (doLogLane c l n s) := by
  unfold doLogLane
  try dsimp only
  repeat'
    first
    | with_reducible assumption
    | with_reducible refine State_gate_keeps ?_ ?_
    | with_reducible refine State_fail_keeps ?_
    | with_reducible refine logReply_keeps ?_
    | split

theorem doLogBundle_keeps {s0 : State} {c : Caller} {s : State} (h : Keeps s0 s) : Keeps s0 (doLogBundle c s) := by
  unfold doLogBundle
  try dsimp only
  repeat'
    first
    | with_reducible assumption
    | with_reducible refine State_gate_keeps ?_ ?_
    | with_reducible refine logReply_keeps ?_

theorem doStatLane_keeps {s0 : State} {c : Caller} {l : LaneId} {s : State} (h : Keeps s0 s) : Keeps s0 (doStatLane c l s) := by
  unfold doStatLane
  try dsimp only
  repeat'
    first
    | with_reducible assumption
    | with_reducible refine State_gate_keeps ?_ ?_
    | with_reducible refine State_fail_keeps ?_
    | with_reducible refine State_ok_keeps ?_
    | split

theorem doStatDevice_keeps {s0 : State} {c : Caller} {s : State} (h : Keeps s0 s) : Keeps s0 (doStatDevice c s) := by
  unfold doStatDevice
  try dsimp only
  repeat'
    first
    | with_reducible assumption
    | with_reducible refine State_gate_keeps ?_ ?_
    | with_reducible refine State_ok_keeps ?_
    | split

end Sys2Proof.Laws
end

