-- ==== Sys2Proof/Laws/KeepHostPort.lean ====
section
/-! SUPPORT. What the operations of HostPort keep. -/

namespace Sys2Proof.Laws
open Sys2Proof Sys2Proof.Machine

theorem State_setHost_keeps {s0 : State} {s : State} {f : HostLink → HostLink} (h : Keeps s0 s) : Keeps s0 (State.setHost s f) := by
  unfold State.setHost
  try dsimp only
  repeat'
    first
    | with_reducible assumption
    | with_reducible exact id
    | with_reducible refine Keeps.upd ?_ rfl (fun _ h => h) ?_ ?_ ?_

theorem State_answers_keeps {s0 : State} {s : State} {code : Byte} {ws : List W32} (h : Keeps s0 s) : Keeps s0 (State.answers s code ws) := by
  unfold State.answers
  try dsimp only
  repeat'
    first
    | with_reducible assumption
    | with_reducible refine State_setHost_keeps ?_

theorem hostRegs_keeps {s0 : State} {off : Nat} {a : Nat} {a_2 : State} (h : Keeps s0 a_2) : Keeps s0 (hostRegs off a a_2).2 := by
  induction a generalizing off a_2 with
  | zero => exact h
  | succ n ih =>
    unfold hostRegs
    try dsimp only
    repeat'
      first
      | with_reducible assumption
      | with_reducible refine ih ?_
      | refine Keeps.of_eq (ih ?_) ‹_›
      | with_reducible refine readReg_keeps ?_
      | refine Keeps.of_eq (readReg_keeps ?_) ‹_›
      | split
      | dsimp only
      | refine Keeps.of_eq ?_ ‹_ = (_, _)›

theorem hostSetRegs_keeps {s0 : State} {off : Nat} {ws : List W32} {s : State} (h : Keeps s0 s) : Keeps s0 (hostSetRegs off ws s) := by
  unfold hostSetRegs
  try dsimp only
  repeat'
    first
    | with_reducible assumption
    | with_reducible refine writeReg_keeps ?_
    | with_reducible refine Keeps.foldl (fun _ _ _ => ?_) _ ?_

theorem mailGet_keeps {s0 : State} {a : Nat} {n : Nat} {s : State} (h : Keeps s0 s) : Keeps s0 (mailGet a n s).2 := by
  unfold mailGet
  try dsimp only
  repeat'
    first
    | with_reducible assumption
    | with_reducible refine touch_keeps ?_
    | with_reducible refine freeBytes_keeps ?_
    | refine Keeps.of_eq (freeBytes_keeps ?_) ‹_›
    | split
    | dsimp only
    | refine Keeps.of_eq ?_ ‹_ = (_, _)›

theorem mailPut_keeps {s0 s : State} {a : Nat} {bs : List (Option Byte)} (h : Keeps s0 s) : Keeps s0 (mailPut a bs s) := by
  have hw : ∀ (l : List (Option Byte × Nat)) (m : Bytes), m.wf = true → Bytes.wf (l.foldl (fun (m : Bytes) p => match p.1 with
      | some b => if a + p.2 < 0x80000 then m.set (mailboxBase + a + p.2) b else m
      | none => m) m) = true := by
    intro l
    induction l with
    | nil => exact fun _ h => h
    | cons p r ih =>
      refine fun m hm => ih _ ?_
      obtain ⟨x, n⟩ := p
      cases x with
      | none => exact hm
      | some b =>
        dsimp only
        split
        · exact wf_set _ _ hm
        · exact hm
  unfold mailPut
  split
  · exact Keeps.upd h rfl (fun _ h => h) (fun m => ⟨m.1, hw _ _ m.2⟩) id id
  · exact h

theorem windowGet_keeps {s0 : State} {a : Nat} {n : Nat} {s : State} (h : Keeps s0 s) : Keeps s0 (windowGet a n s).2 := by
  unfold windowGet
  try dsimp only
  repeat'
    first
    | with_reducible assumption
    | with_reducible refine windowAccess_keeps ?_
    | refine Keeps.of_eq (windowAccess_keeps ?_) ‹_›
    | split
    | with_reducible refine Keeps.foldl (fun _ _ _ => ?_) _ ?_
    | with_reducible refine Keeps.foldl2 (fun _ _ _ => ?_) _ ?_
    | dsimp only
    | refine Keeps.of_eq ?_ ‹_ = (_, _)›

theorem windowUnit_keeps {s0 : State} {u : Nat} {bs : List (Option Byte)} {s : State} (h : Keeps s0 s) : Keeps s0 (windowUnit u bs s) := by
  unfold windowUnit
  try dsimp only
  repeat'
    first
    | with_reducible assumption
    | with_reducible refine windowAccess_keeps ?_
    | refine Keeps.of_eq (windowAccess_keeps ?_) ‹_›
    | with_reducible refine strUnit_keeps ?_
    | refine Keeps.of_eq (strUnit_keeps ?_) ‹_›
    | with_reducible exact id
    | with_reducible refine memOk_mk ?_ ?_
    | split
    | refine Keeps.of_eq ?_ ‹_ = (_, _)›
    | dsimp only
    | with_reducible refine Keeps.upd ?_ rfl (fun _ h => h) ?_ ?_ ?_

theorem windowPut_keeps {s0 : State} {a : Nat} {bs : List (Option Byte)} {s : State} (h : Keeps s0 s) : Keeps s0 (windowPut a bs s) := by
  unfold windowPut
  try dsimp only
  repeat'
    first
    | with_reducible assumption
    | with_reducible refine windowUnit_keeps ?_
    | with_reducible refine Keeps.foldl (fun _ _ _ => ?_) _ ?_

theorem spaceRead_keeps {s0 : State} {space : Fin 3} {a : Nat} {n : Nat} {s : State} (h : Keeps s0 s) : Keeps s0 (spaceRead space a n s).2 := by
  unfold spaceRead
  try dsimp only
  repeat'
    first
    | with_reducible assumption
    | with_reducible refine hostRegs_keeps ?_
    | refine Keeps.of_eq (hostRegs_keeps ?_) ‹_›
    | with_reducible refine mailGet_keeps ?_
    | refine Keeps.of_eq (mailGet_keeps ?_) ‹_›
    | with_reducible refine windowGet_keeps ?_
    | refine Keeps.of_eq (windowGet_keeps ?_) ‹_›
    | split
    | dsimp only
    | refine Keeps.of_eq ?_ ‹_ = (_, _)›

theorem spaceWrite_keeps {s0 : State} {space : Fin 3} {a : Nat} {ws : List W32} {s : State} (h : Keeps s0 s) : Keeps s0 (spaceWrite space a ws s) := by
  unfold spaceWrite
  try dsimp only
  repeat'
    first
    | with_reducible assumption
    | with_reducible refine hostSetRegs_keeps ?_
    | with_reducible refine mailPut_keeps ?_
    | with_reducible refine windowPut_keeps ?_
    | split

theorem notReady_keeps {s0 : State} {s : State} (h : Keeps s0 s) : Keeps s0 (notReady s) := by
  unfold notReady
  try dsimp only
  repeat'
    first
    | with_reducible assumption
    | with_reducible refine State_setHost_keeps ?_
    | with_reducible refine State_answers_keeps ?_
    | split

theorem qspiRead_keeps {s0 : State} {space : Fin 3} {a : Nat} {n : Nat} {late : Bool} {s : State} (h : Keeps s0 s) : Keeps s0 (qspiRead space a n late s) := by
  unfold qspiRead
  try dsimp only
  repeat'
    first
    | with_reducible assumption
    | with_reducible refine notReady_keeps ?_
    | with_reducible refine spaceRead_keeps ?_
    | refine Keeps.of_eq (spaceRead_keeps ?_) ‹_›
    | with_reducible refine State_setHost_keeps ?_
    | with_reducible refine State_answers_keeps ?_
    | split
    | dsimp only
    | refine Keeps.of_eq ?_ ‹_ = (_, _)›

theorem qspiTransaction_keeps {s0 : State} {cmd : Byte} {space : BitVec 4} {addr : BitVec 36} {words : Fin 256} {data : List W32} {late : Bool} {s : State} (h : Keeps s0 s) : Keeps s0 (qspiTransaction cmd space addr words data late s) := by
  unfold qspiTransaction
  try dsimp only
  repeat'
    first
    | with_reducible assumption
    | with_reducible refine State_answers_keeps ?_
    | with_reducible refine notReady_keeps ?_
    | with_reducible refine State_setHost_keeps ?_
    | with_reducible refine qspiRead_keeps ?_
    | with_reducible refine spaceWrite_keeps ?_
    | split

theorem qspiHeldReadExpire_keeps {s0 : State} {s : State} (h : Keeps s0 s) : Keeps s0 (qspiHeldReadExpire s) := by
  unfold qspiHeldReadExpire
  try dsimp only
  repeat'
    first
    | with_reducible assumption
    | with_reducible refine State_setHost_keeps ?_
    | split

theorem pcieRead_keeps {s0 : State} {bar : Fin 3} {a : Nat} {n : Nat} {s : State} (h : Keeps s0 s) : Keeps s0 (pcieRead bar a n s) := by
  unfold pcieRead
  try dsimp only
  repeat'
    first
    | with_reducible assumption
    | with_reducible refine State_answers_keeps ?_
    | with_reducible refine spaceRead_keeps ?_
    | refine Keeps.of_eq (spaceRead_keeps ?_) ‹_›
    | split
    | dsimp only
    | refine Keeps.of_eq ?_ ‹_ = (_, _)›

theorem pcieWrite_keeps {s0 : State} {bar : Fin 3} {a : Nat} {be : Byte} {ws : List W32} {s : State} (h : Keeps s0 s) : Keeps s0 (pcieWrite bar a be ws s) := by
  unfold pcieWrite
  try dsimp only
  repeat'
    first
    | with_reducible assumption
    | with_reducible refine hostSetRegs_keeps ?_
    | with_reducible refine mailPut_keeps ?_
    | with_reducible refine windowPut_keeps ?_
    | split

theorem pcieMemoryRequest_keeps {s0 : State} {bar : Fin 3} {addr : BitVec 34} {be : Byte} {dws : Fin 1024} {wr : Option (List W32)} {s : State} (h : Keeps s0 s) : Keeps s0 (pcieMemoryRequest bar addr be dws wr s) := by
  unfold pcieMemoryRequest
  try dsimp only
  repeat'
    first
    | with_reducible assumption
    | with_reducible refine pcieRead_keeps ?_
    | with_reducible refine pcieWrite_keeps ?_
    | split

theorem pcieConfigure_keeps {s0 : State} {s : State} (h : Keeps s0 s) : Keeps s0 (pcieConfigure s) := by
  unfold pcieConfigure
  try dsimp only
  repeat'
    first
    | with_reducible assumption
    | with_reducible refine freeBytes_keeps ?_
    | refine Keeps.of_eq (freeBytes_keeps ?_) ‹_›
    | with_reducible refine State_setHost_keeps ?_
    | split
    | dsimp only
    | refine Keeps.of_eq ?_ ‹_ = (_, _)›

theorem pcieConfigRequest_keeps {s0 : State} {s : State} (h : Keeps s0 s) : Keeps s0 (pcieConfigRequest s) := by
  unfold pcieConfigRequest
  try dsimp only
  repeat'
    first
    | with_reducible assumption
    | with_reducible refine State_answers_keeps ?_
    | with_reducible refine pcieConfigure_keeps ?_
    | split

theorem pcieLinkDown_keeps {s0 : State} {s : State} (h : Keeps s0 s) : Keeps s0 (pcieLinkDown s) := by
  unfold pcieLinkDown
  try dsimp only
  repeat'
    first
    | with_reducible assumption
    | with_reducible refine State_setHost_keeps ?_
    | split

theorem pcieLinkUp_keeps {s0 : State} {speed : Fin 5} {width : Fin 3} {s : State} (h : Keeps s0 s) : Keeps s0 (pcieLinkUp speed width s) := by
  unfold pcieLinkUp
  try dsimp only
  repeat'
    first
    | with_reducible assumption
    | with_reducible refine State_setHost_keeps ?_
    | split

theorem ringAsked_keeps {s0 : State} {n : LaneId} {s : State} (h : Keeps s0 s) : Keeps s0 (ringAsked n s) := by
  unfold ringAsked
  try dsimp only
  repeat'
    first
    | with_reducible assumption
    | with_reducible refine ringReset_keeps ?_
    | with_reducible refine State_setRing_keeps ?_

theorem functionLevelReset_keeps {s0 : State} {s : State} (h : Keeps s0 s) : Keeps s0 (functionLevelReset s) := by
  unfold functionLevelReset
  try dsimp only
  repeat'
    first
    | with_reducible assumption
    | with_reducible refine lapse_keeps ?_
    | with_reducible refine State_setHost_keeps ?_
    | with_reducible refine ringAsked_keeps ?_
    | split
    | with_reducible refine Keeps.foldl (fun _ _ _ => ?_) _ ?_

end Sys2Proof.Laws
end

