-- ==== Sys2Proof/Laws/KeepClocks.lean ====
section
/-! SUPPORT. What the operations of Clocks keep. -/

namespace Sys2Proof.Laws
open Sys2Proof Sys2Proof.Machine

theorem State_setClk_keeps {s0 : State} {s : State} {f : Clocks → Clocks} (h : Keeps s0 s) : Keeps s0 (State.setClk s f) := by
  unfold State.setClk
  try dsimp only
  repeat'
    first
    | with_reducible assumption
    | with_reducible exact id
    | with_reducible refine Keeps.upd ?_ rfl (fun _ h => h) ?_ ?_ ?_

theorem dramStops_keeps {s0 : State} {s : State} (h : Keeps s0 s) : Keeps s0 (dramStops s) := by
  unfold dramStops
  try dsimp only
  repeat'
    first
    | with_reducible assumption
    | with_reducible refine restartWhere_keeps ?_
    | with_reducible exact id
    | with_reducible refine memOk_mk ?_ ?_
    | with_reducible refine Keeps.upd ?_ rfl (fun _ h => h) ?_ ?_ ?_

theorem refStops_keeps {s0 : State} {s : State} (h : Keeps s0 s) : Keeps s0 (refStops s) := by
  unfold refStops
  try dsimp only
  repeat'
    first
    | with_reducible assumption
    | with_reducible refine dramStops_keeps ?_
    | with_reducible refine State_setClk_keeps ?_

theorem callFromRef_keeps {s0 : State} {s : State} (h : Keeps s0 s) : Keeps s0 (callFromRef s) := by
  unfold callFromRef
  try dsimp only
  repeat'
    first
    | with_reducible assumption
    | with_reducible refine State_setClk_keeps ?_
    | with_reducible exact id
    | with_reducible refine Keeps.upd ?_ rfl (fun _ h => h) ?_ ?_ ?_

theorem callMoves_keeps {s0 : State} {s : State} (h : Keeps s0 s) : Keeps s0 (callMoves s) := by
  unfold callMoves
  try dsimp only
  repeat'
    first
    | with_reducible assumption
    | with_reducible refine callFromRef_keeps ?_
    | with_reducible refine State_setClk_keeps ?_
    | split

theorem apllStops_keeps {s0 : State} {c : Clk} {s : State} (h : Keeps s0 s) : Keeps s0 (apllStops c s) := by
  unfold apllStops
  try dsimp only
  repeat'
    first
    | with_reducible assumption
    | with_reducible refine State_setEar_keeps ?_
    | with_reducible refine callMoves_keeps ?_
    | with_reducible refine State_raise_keeps ?_
    | split

theorem epllStops_keeps {s0 : State} {s : State} (h : Keeps s0 s) : Keeps s0 (epllStops s) := by
  unfold epllStops
  try dsimp only
  repeat'
    first
    | with_reducible assumption
    | with_reducible refine State_setEye_keeps ?_
    | with_reducible refine abandonFrames_keeps ?_
    | with_reducible refine callFromRef_keeps ?_
    | split

theorem noclockUrgent_keeps {s0 : State} {s : State} {u : Urgent} (h : Keeps s0 s) : Keeps s0 (noclockUrgent s u) := by
  unfold noclockUrgent
  try dsimp only
  repeat'
    first
    | with_reducible assumption
    | with_reducible refine State_fail_keeps ?_
    | with_reducible exact id
    | split
    | with_reducible refine Keeps.upd ?_ rfl (fun _ h => h) ?_ ?_ ?_

theorem railHolds_keeps {s0 : State} {s : State} (h : Keeps s0 s) : Keeps s0 (railHolds s) := by
  unfold railHolds
  try dsimp only
  repeat'
    first
    | with_reducible assumption
    | with_reducible refine State_setRail_keeps ?_
    | with_reducible refine State_logFault_keeps ?_
    | with_reducible refine State_raise_keeps ?_
    | split

theorem snsStops_keeps {s0 : State} {s : State} (h : Keeps s0 s) : Keeps s0 (snsStops s) := by
  unfold snsStops
  try dsimp only
  repeat'
    first
    | with_reducible assumption
    | with_reducible refine noclockUrgent_keeps ?_
    | with_reducible refine State_setSense_keeps ?_
    | with_reducible refine railHolds_keeps ?_
    | with_reducible refine State_setClk_keeps ?_
    | split
    | with_reducible refine Keeps.foldl (fun _ _ _ => ?_) _ ?_

theorem pmbStops_keeps {s0 : State} {s : State} (h : Keeps s0 s) : Keeps s0 (pmbStops s) := by
  unfold pmbStops
  try dsimp only
  repeat'
    first
    | with_reducible assumption
    | with_reducible refine railFailed_keeps ?_
    | split

theorem crossingsEnd_keeps {s0 : State} {c : Clk} {s : State} (h : Keeps s0 s) : Keeps s0 (crossingsEnd c s) := by
  unfold crossingsEnd
  try dsimp only
  repeat'
    first
    | with_reducible assumption
    | with_reducible refine State_setClk_keeps ?_

theorem clockFalls_keeps {s0 : State} {c : Clk} {s : State} (h : Keeps s0 s) : Keeps s0 (clockFalls c s) := by
  unfold clockFalls
  try dsimp only
  repeat'
    first
    | with_reducible assumption
    | with_reducible refine refStops_keeps ?_
    | with_reducible refine dramStops_keeps ?_
    | with_reducible refine pcieLinkDown_keeps ?_
    | with_reducible refine apllStops_keeps ?_
    | with_reducible refine pmbStops_keeps ?_
    | with_reducible refine epllStops_keeps ?_
    | with_reducible refine snsStops_keeps ?_
    | split

theorem logClock_keeps {s0 : State} {k : LogType} {c : Clk} {s : State} (h : Keeps s0 s) : Keeps s0 (logClock k c s) := by
  unfold logClock
  try dsimp only
  repeat'
    first
    | with_reducible assumption
    | with_reducible refine State_logFault_keeps ?_

theorem clockLost_keeps {s0 : State} {c : Clk} {s : State} (h : Keeps s0 s) : Keeps s0 (clockLost c s) := by
  unfold clockLost
  try dsimp only
  repeat'
    first
    | with_reducible assumption
    | with_reducible refine State_setClk_keeps ?_
    | with_reducible refine clockFalls_keeps ?_
    | with_reducible refine crossingsEnd_keeps ?_
    | with_reducible refine logClock_keeps ?_
    | split

theorem dramBack_keeps {s0 : State} {s : State} (h : Keeps s0 s) : Keeps s0 (dramBack s) := by
  unfold dramBack
  try dsimp only
  repeat'
    first
    | with_reducible assumption
    | with_reducible refine wake_keeps ?_
    | with_reducible exact id
    | with_reducible refine memOk_mk ?_ ?_
    | split
    | with_reducible refine Keeps.upd ?_ rfl (fun _ h => h) ?_ ?_ ?_

theorem refBack_keeps {s0 : State} {s : State} (h : Keeps s0 s) : Keeps s0 (refBack s) := by
  unfold refBack
  try dsimp only
  repeat'
    first
    | with_reducible assumption
    | with_reducible refine dramBack_keeps ?_
    | with_reducible refine State_setClk_keeps ?_
    | split

theorem apllBack_keeps {s0 : State} {s : State} (h : Keeps s0 s) : Keeps s0 (apllBack s) := by
  unfold apllBack
  try dsimp only
  repeat'
    first
    | with_reducible assumption
    | with_reducible refine State_setClk_keeps ?_
    | split

theorem epllBack_keeps {s0 : State} {s : State} (h : Keeps s0 s) : Keeps s0 (epllBack s) := by
  unfold epllBack
  try dsimp only
  repeat'
    first
    | with_reducible assumption
    | with_reducible refine State_setEye_keeps ?_
    | with_reducible refine State_setClk_keeps ?_

theorem snsBack_keeps {s0 : State} {s : State} (h : Keeps s0 s) : Keeps s0 (snsBack s) := by
  unfold snsBack
  try dsimp only
  repeat'
    first
    | with_reducible assumption
    | with_reducible refine State_setRail_keeps ?_
    | split

theorem clockRises_keeps {s0 : State} {c : Clk} {s : State} (h : Keeps s0 s) : Keeps s0 (clockRises c s) := by
  unfold clockRises
  try dsimp only
  repeat'
    first
    | with_reducible assumption
    | with_reducible refine refBack_keeps ?_
    | with_reducible refine dramBack_keeps ?_
    | with_reducible refine apllBack_keeps ?_
    | with_reducible refine epllBack_keeps ?_
    | with_reducible refine snsBack_keeps ?_
    | split

theorem clockReturn_keeps {s0 : State} {c : Clk} {s : State} (h : Keeps s0 s) : Keeps s0 (clockReturn c s) := by
  unfold clockReturn
  try dsimp only
  repeat'
    first
    | with_reducible assumption
    | with_reducible refine clockRises_keeps ?_
    | with_reducible refine logClock_keeps ?_
    | with_reducible refine State_setClk_keeps ?_
    | split

theorem relockGivenUp_keeps {s0 : State} {p : Pll} {s : State} (h : Keeps s0 s) : Keeps s0 (relockGivenUp p s) := by
  unfold relockGivenUp
  try dsimp only
  repeat'
    first
    | with_reducible assumption
    | with_reducible refine State_logFault_keeps ?_
    | with_reducible refine eyeFault_keeps ?_
    | with_reducible exact id
    | split
    | with_reducible refine Keeps.upd ?_ rfl (fun _ h => h) ?_ ?_ ?_

theorem pllRelock_keeps {s0 : State} {p : Pll} {ok : Bool} {s : State} (h : Keeps s0 s) : Keeps s0 (pllRelock p ok s) := by
  unfold pllRelock
  try dsimp only
  repeat'
    first
    | with_reducible assumption
    | with_reducible refine State_setClk_keeps ?_
    | with_reducible refine clockReturn_keeps ?_
    | with_reducible refine relockGivenUp_keeps ?_
    | split
    | with_reducible refine Keeps.foldl (fun _ _ _ => ?_) _ ?_

end Sys2Proof.Laws
end

