-- ==== Sys2Proof/Laws/KeepCallRun.lean ====
section
/-! SUPPORT. What the operations of CallRun keep. -/

namespace Sys2Proof.Laws
open Sys2Proof Sys2Proof.Machine

theorem runVerb_keeps {s0 s : State} {i : Instr} (h : Keeps s0 s) : Keeps s0 (runVerb i s) := by
  cases i with
  | hello => exact doHello_keeps h
  | info => exact doInfo_keeps h
  | help => exact doHelp_keeps h
  | verbList => exact doVerbList_keeps h
  | echo => exact doEcho_keeps h
  | mode => exact doMode_keeps h
  | resetCall => exact doResetCall_keeps h
  | resetWarm => exact doResetWarm_keeps h
  | lease => exact doLease_keeps h
  | get => exact doGet_keeps h
  | set => exact doSet_keeps h
  | setField => exact doSetField_keeps h
  | load => exact doLoad_keeps h
  | drop => exact doDrop_keeps h
  | laneOpen => exact doLaneOpen_keeps h
  | laneClose => exact doLaneClose_keeps h
  | laneCloseDiscard => exact doLaneCloseDiscard_keeps h
  | laneClaim => exact doLaneClaim_keeps h
  | laneState => exact doLaneState_keeps h
  | laneKey => exact doLaneKey_keeps h
  | heat => exact doHeat_keeps h
  | take => exact doTake_keeps h
  | wait => exact doWait_keeps h
  | scrub => exact doScrub_keeps h
  | eyeState => exact doEyeState_keeps h
  | eyeHold => exact doEyeHold_keeps h
  | eyeSet => exact doEyeSet_keeps h
  | eyeSnap => exact doEyeSnap_keeps h
  | eyeLook => exact doEyeLook_keeps h
  | eyeCopy => exact doEyeCopy_keeps h
  | eyeCopyOff => exact doEyeCopyOff_keeps h
  | earState => exact doEarState_keeps h
  | earStart => exact doEarStart_keeps h
  | earStop => exact doEarStop_keeps h
  | earCh => exact doEarCh_keeps h
  | earBias => exact doEarBias_keeps h
  | earRing => exact doEarRing_keeps h
  | earRingOff => exact doEarRingOff_keeps h
  | earOut => exact doEarOut_keeps h
  | earOutStart => exact doEarOutStart_keeps h
  | earOutStop => exact doEarOutStop_keeps h
  | senseState => exact doSenseState_keeps h
  | senseRead => exact doSenseRead_keeps h
  | senseSeq => exact doSenseSeq_keeps h
  | senseSeqOff => exact doSenseSeqOff_keeps h
  | sensePeriod => exact doSensePeriod_keeps h
  | edgeState => exact doEdgeState_keeps h
  | edgeBtn => exact doEdgeBtn_keeps h
  | edgePlug => exact doEdgePlug_keeps h
  | edgeTouch => exact doEdgeTouch_keeps h
  | edgePwm => exact doEdgePwm_keeps h
  | edgeBind => exact doEdgeBind_keeps h
  | edgeUnbind => exact doEdgeUnbind_keeps h
  | trigState => exact doTrigState_keeps h
  | trigTmr => exact doTrigTmr_keeps h
  | trigOut => exact doTrigOut_keeps h
  | trigPulse => exact doTrigPulse_keeps h
  | rail => exact doRail_keeps h
  | railCeiling => exact doRailCeiling_keeps h
  | railFix => exact doRailFix_keeps h
  | railAuto => exact doRailAuto_keeps h
  | fence => exact doFence_keeps h
  | spare => exact doSpare_keeps h
  | repairTest => exact doRepairTest_keeps h
  | repairRejoin => exact doRepairRejoin_keeps h
  | repairRecord => exact doRepairRecord_keeps h
  | logLane => exact doLogLane_keeps h
  | logFault => exact doLogFault_keeps h
  | logBundle => exact doLogBundle_keeps h
  | statLane => exact doStatLane_keeps h
  | statDevice => exact doStatDevice_keeps h
  | keyState => exact doKeyState_keeps h
  | keyRotatePlan => exact doKeyRotatePlan_keeps h
  | keyVkLoad => exact doKeyVkLoad_keeps h
  | keyVkRevoke => exact doKeyVkRevoke_keeps h
  | firmState => exact doFirmState_keeps h
  | firmBegin => exact doFirmBegin_keeps h
  | firmData => exact doFirmData_keeps h
  | firmAddr => exact doFirmAddr_keeps h
  | firmEnd => exact doFirmEnd_keeps h
  | _ => exact h

theorem refuseLine_keeps {s0 : State} {c : Caller} {verb : String} {e : Err} {detail : List String} {s : State} (h : Keeps s0 s) : Keeps s0 (refuseLine c verb e detail s) := by
  unfold refuseLine
  try dsimp only
  repeat'
    first
    | with_reducible assumption
    | with_reducible refine State_failWith_keeps ?_

theorem runText_keeps {s0 : State} {t : List Byte} {s : State} (h : Keeps s0 s) : Keeps s0 (runText t s) := by
  unfold runText
  try dsimp only
  repeat'
    first
    | with_reducible assumption
    | with_reducible refine runVerb_keeps ?_
    | with_reducible refine refuseLine_keeps ?_
    | split

theorem runRx_keeps {s0 : State} {x : RxLine} {s : State} (h : Keeps s0 s) : Keeps s0 (runRx x s) := by
  unfold runRx
  try dsimp only
  repeat'
    first
    | with_reducible assumption
    | with_reducible refine State_raise_keeps ?_
    | with_reducible refine refuseLine_keeps ?_
    | with_reducible refine runText_keeps ?_
    | with_reducible exact id
    | split
    | with_reducible refine Keeps.upd ?_ rfl (fun _ h => h) ?_ ?_ ?_

theorem callLineRun_keeps {s0 : State} {s : State} (h : Keeps s0 s) : Keeps s0 (callLineRun s) := by
  unfold callLineRun
  try dsimp only
  repeat'
    first
    | with_reducible assumption
    | with_reducible refine runRx_keeps ?_
    | with_reducible exact id
    | split
    | with_reducible refine Keeps.upd ?_ rfl (fun _ h => h) ?_ ?_ ?_

theorem runEnvelope_keeps {s0 : State} {c : Caller} {t : List Byte} {s : State} (h : Keeps s0 s) : Keeps s0 (runEnvelope c t s) := by
  unfold runEnvelope
  try dsimp only
  repeat'
    first
    | with_reducible assumption
    | with_reducible refine refuseLine_keeps ?_
    | with_reducible refine runVerb_keeps ?_
    | with_reducible refine State_fail_keeps ?_
    | split

theorem callEnvelope_keeps {s0 : State} {ring : LaneId} {s : State} (h : Keeps s0 s) : Keeps s0 (callEnvelope ring s) := by
  unfold callEnvelope
  try dsimp only
  repeat'
    first
    | with_reducible assumption
    | with_reducible refine State_setRing_keeps ?_
    | with_reducible refine refuseLine_keeps ?_
    | with_reducible refine runEnvelope_keeps ?_
    | split

end Sys2Proof.Laws
end

