-- ==== Sys2Proof/Laws/KeepBanner.lean ====
section
/-! SUPPORT. What the operations of Banner keep. -/

namespace Sys2Proof.Laws
open Sys2Proof Sys2Proof.Machine

theorem superblock_keeps {s0 : State} {s : State} (h : Keeps s0 s) : Keeps s0 (superblock s) := by
  unfold superblock
  try dsimp only
  repeat'
    first
    | with_reducible assumption
    | with_reducible exact id
    | split
    | with_reducible refine Keeps.upd ?_ rfl (fun _ h => h) ?_ ?_ ?_

theorem bannerEvents_keeps {s0 : State} {s : State} (h : Keeps s0 s) : Keeps s0 (bannerEvents s) := by
  unfold bannerEvents
  try dsimp only
  repeat'
    first
    | with_reducible assumption
    | with_reducible refine State_raise_keeps ?_
    | with_reducible refine firmNeeded_keeps ?_
    | with_reducible refine State_setLane_keeps ?_
    | split
    | with_reducible refine Keeps.foldl (fun _ _ _ => ?_) _ ?_

theorem bufferedLines_keeps {s0 : State} {s : State} (h : Keeps s0 s) : Keeps s0 (bufferedLines s) := by
  unfold bufferedLines
  try dsimp only
  repeat'
    first
    | with_reducible assumption
    | with_reducible refine callLineRun_keeps ?_
    | with_reducible refine Keeps.foldl (fun _ _ _ => ?_) _ ?_

theorem lanesRebuilt_keeps {s0 : State} {s : State} (h : Keeps s0 s) : Keeps s0 (lanesRebuilt s) := by
  unfold lanesRebuilt
  try dsimp only
  repeat'
    first
    | with_reducible assumption
    | with_reducible refine State_setLane_keeps ?_
    | with_reducible refine Keeps.foldl (fun _ _ _ => ?_) _ ?_

theorem lanesBack_keeps {s0 : State} {s : State} (h : Keeps s0 s) : Keeps s0 (lanesBack s) := by
  unfold lanesBack
  try dsimp only
  repeat'
    first
    | with_reducible assumption
    | with_reducible refine redeliver_keeps ?_
    | with_reducible refine Keeps.foldl (fun _ _ _ => ?_) _ ?_

theorem leaseBack_keeps {s0 : State} {s : State} (h : Keeps s0 s) : Keeps s0 (leaseBack s) := by
  unfold leaseBack
  try dsimp only
  repeat'
    first
    | with_reducible assumption
    | with_reducible refine leaseStart_keeps ?_
    | split

theorem earlyEvents_keeps {s0 : State} {s : State} (h : Keeps s0 s) : Keeps s0 (earlyEvents s) := by
  unfold earlyEvents
  try dsimp only
  repeat'
    first
    | with_reducible assumption
    | with_reducible refine State_prompt_keeps ?_
    | with_reducible refine State_raise_keeps ?_
    | with_reducible exact id
    | split
    | with_reducible refine Keeps.foldl (fun _ _ _ => ?_) _ ?_
    | with_reducible refine Keeps.upd ?_ rfl (fun _ h => h) ?_ ?_ ?_

theorem lookoutRuns_keeps {s0 : State} {s : State} (h : Keeps s0 s) : Keeps s0 (lookoutRuns s) := by
  unfold lookoutRuns
  try dsimp only
  repeat'
    first
    | with_reducible assumption
    | with_reducible refine lookBind_keeps ?_
    | with_reducible refine touch_keeps ?_
    | with_reducible refine lookConfigure_keeps ?_
    | split

theorem startUp_keeps {s0 : State} {s : State} (h : Keeps s0 s) : Keeps s0 (startUp s) := by
  unfold startUp
  try dsimp only
  repeat'
    first
    | with_reducible assumption
    | with_reducible exact id
    | with_reducible refine Keeps.upd ?_ rfl (fun _ h => h) ?_ ?_ ?_

theorem banner_keeps {s0 : State} {s : State} (h : Keeps s0 s) : Keeps s0 (banner s) := by
  unfold banner
  try dsimp only
  repeat'
    first
    | with_reducible assumption
    | with_reducible refine sayBanner_keeps ?_
    | with_reducible refine startUp_keeps ?_
    | with_reducible refine superblock_keeps ?_
    | with_reducible refine lanesRebuilt_keeps ?_
    | with_reducible refine lanesBack_keeps ?_
    | with_reducible refine bufferedLines_keeps ?_
    | with_reducible refine leaseBack_keeps ?_
    | with_reducible refine bannerEvents_keeps ?_
    | with_reducible refine lookoutRuns_keeps ?_
    | with_reducible refine earlyEvents_keeps ?_
    | with_reducible refine latchedDoorbells_keeps ?_
    | split

end Sys2Proof.Laws
end

