-- ==== Sys2Proof/Laws/State.lean ====
section
/-! SUPPORT. What each field of the state is after each update of a part of the state. -/

namespace Sys2Proof.Laws
open Sys2Proof Sys2Proof.Machine

@[simp] theorem setLane_start {s : State} {l : LaneId} {f : Lane → Lane} : (s.setLane l f).start = s.start := rfl
@[simp] theorem setLane_clk {s : State} {l : LaneId} {f : Lane → Lane} : (s.setLane l f).clk = s.clk := rfl
@[simp] theorem setLane_power {s : State} {l : LaneId} {f : Lane → Lane} : (s.setLane l f).power = s.power := rfl
@[simp] theorem setLane_rail {s : State} {l : LaneId} {f : Lane → Lane} : (s.setLane l f).rail = s.rail := rfl
@[simp] theorem setLane_faults {s : State} {l : LaneId} {f : Lane → Lane} : (s.setLane l f).faults = s.faults := rfl
@[simp] theorem setLane_fuse {s : State} {l : LaneId} {f : Lane → Lane} : (s.setLane l f).fuse = s.fuse := rfl
@[simp] theorem setLane_keys {s : State} {l : LaneId} {f : Lane → Lane} : (s.setLane l f).keys = s.keys := rfl
@[simp] theorem setLane_tmr {s : State} {l : LaneId} {f : Lane → Lane} : (s.setLane l f).tmr = s.tmr := rfl
@[simp] theorem setLane_stat {s : State} {l : LaneId} {f : Lane → Lane} : (s.setLane l f).stat = s.stat := rfl
@[simp] theorem setLane_call {s : State} {l : LaneId} {f : Lane → Lane} : (s.setLane l f).call = s.call := rfl
@[simp] theorem setLane_host {s : State} {l : LaneId} {f : Lane → Lane} : (s.setLane l f).host = s.host := rfl
@[simp] theorem setLane_str {s : State} {l : LaneId} {f : Lane → Lane} : (s.setLane l f).str = s.str := rfl
@[simp] theorem setLane_firm {s : State} {l : LaneId} {f : Lane → Lane} : (s.setLane l f).firm = s.firm := rfl
@[simp] theorem setLane_flash {s : State} {l : LaneId} {f : Lane → Lane} : (s.setLane l f).flash = s.flash := rfl
@[simp] theorem setLane_shells {s : State} {l : LaneId} {f : Lane → Lane} : (s.setLane l f).shells = s.shells := rfl
@[simp] theorem setLane_tallies {s : State} {l : LaneId} {f : Lane → Lane} : (s.setLane l f).tallies = s.tallies := rfl
@[simp] theorem setLane_map {s : State} {l : LaneId} {f : Lane → Lane} : (s.setLane l f).map = s.map := rfl
@[simp] theorem setLane_lanes {s : State} {l : LaneId} {f : Lane → Lane} : (s.setLane l f).lanes = upd s.lanes l f := rfl
@[simp] theorem setLane_ads {s : State} {l : LaneId} {f : Lane → Lane} : (s.setLane l f).ads = s.ads := rfl
@[simp] theorem setLane_bundles {s : State} {l : LaneId} {f : Lane → Lane} : (s.setLane l f).bundles = s.bundles := rfl
@[simp] theorem setLane_mem {s : State} {l : LaneId} {f : Lane → Lane} : (s.setLane l f).mem = s.mem := rfl
@[simp] theorem setLane_eye {s : State} {l : LaneId} {f : Lane → Lane} : (s.setLane l f).eye = s.eye := rfl
@[simp] theorem setLane_ear {s : State} {l : LaneId} {f : Lane → Lane} : (s.setLane l f).ear = s.ear := rfl
@[simp] theorem setLane_sense {s : State} {l : LaneId} {f : Lane → Lane} : (s.setLane l f).sense = s.sense := rfl
@[simp] theorem setLane_edge {s : State} {l : LaneId} {f : Lane → Lane} : (s.setLane l f).edge = s.edge := rfl
@[simp] theorem setLane_shadows {s : State} {l : LaneId} {f : Lane → Lane} : (s.setLane l f).shadows = s.shadows := rfl
@[simp] theorem setLane_free {s : State} {l : LaneId} {f : Lane → Lane} : (s.setLane l f).free = s.free := rfl
@[simp] theorem setLane_pending {s : State} {l : LaneId} {f : Lane → Lane} : (s.setLane l f).pending = s.pending := rfl

@[simp] theorem setShell_start {s : State} {i : ShellId} {f : Shell → Shell} : (s.setShell i f).start = s.start := rfl
@[simp] theorem setShell_clk {s : State} {i : ShellId} {f : Shell → Shell} : (s.setShell i f).clk = s.clk := rfl
@[simp] theorem setShell_power {s : State} {i : ShellId} {f : Shell → Shell} : (s.setShell i f).power = s.power := rfl
@[simp] theorem setShell_rail {s : State} {i : ShellId} {f : Shell → Shell} : (s.setShell i f).rail = s.rail := rfl
@[simp] theorem setShell_faults {s : State} {i : ShellId} {f : Shell → Shell} : (s.setShell i f).faults = s.faults := rfl
@[simp] theorem setShell_fuse {s : State} {i : ShellId} {f : Shell → Shell} : (s.setShell i f).fuse = s.fuse := rfl
@[simp] theorem setShell_keys {s : State} {i : ShellId} {f : Shell → Shell} : (s.setShell i f).keys = s.keys := rfl
@[simp] theorem setShell_tmr {s : State} {i : ShellId} {f : Shell → Shell} : (s.setShell i f).tmr = s.tmr := rfl
@[simp] theorem setShell_stat {s : State} {i : ShellId} {f : Shell → Shell} : (s.setShell i f).stat = s.stat := rfl
@[simp] theorem setShell_call {s : State} {i : ShellId} {f : Shell → Shell} : (s.setShell i f).call = s.call := rfl
@[simp] theorem setShell_host {s : State} {i : ShellId} {f : Shell → Shell} : (s.setShell i f).host = s.host := rfl
@[simp] theorem setShell_str {s : State} {i : ShellId} {f : Shell → Shell} : (s.setShell i f).str = s.str := rfl
@[simp] theorem setShell_firm {s : State} {i : ShellId} {f : Shell → Shell} : (s.setShell i f).firm = s.firm := rfl
@[simp] theorem setShell_flash {s : State} {i : ShellId} {f : Shell → Shell} : (s.setShell i f).flash = s.flash := rfl
@[simp] theorem setShell_shells {s : State} {i : ShellId} {f : Shell → Shell} : (s.setShell i f).shells = upd s.shells i f := rfl
@[simp] theorem setShell_tallies {s : State} {i : ShellId} {f : Shell → Shell} : (s.setShell i f).tallies = s.tallies := rfl
@[simp] theorem setShell_map {s : State} {i : ShellId} {f : Shell → Shell} : (s.setShell i f).map = s.map := rfl
@[simp] theorem setShell_lanes {s : State} {i : ShellId} {f : Shell → Shell} : (s.setShell i f).lanes = s.lanes := rfl
@[simp] theorem setShell_ads {s : State} {i : ShellId} {f : Shell → Shell} : (s.setShell i f).ads = s.ads := rfl
@[simp] theorem setShell_bundles {s : State} {i : ShellId} {f : Shell → Shell} : (s.setShell i f).bundles = s.bundles := rfl
@[simp] theorem setShell_mem {s : State} {i : ShellId} {f : Shell → Shell} : (s.setShell i f).mem = s.mem := rfl
@[simp] theorem setShell_eye {s : State} {i : ShellId} {f : Shell → Shell} : (s.setShell i f).eye = s.eye := rfl
@[simp] theorem setShell_ear {s : State} {i : ShellId} {f : Shell → Shell} : (s.setShell i f).ear = s.ear := rfl
@[simp] theorem setShell_sense {s : State} {i : ShellId} {f : Shell → Shell} : (s.setShell i f).sense = s.sense := rfl
@[simp] theorem setShell_edge {s : State} {i : ShellId} {f : Shell → Shell} : (s.setShell i f).edge = s.edge := rfl
@[simp] theorem setShell_shadows {s : State} {i : ShellId} {f : Shell → Shell} : (s.setShell i f).shadows = s.shadows := rfl
@[simp] theorem setShell_free {s : State} {i : ShellId} {f : Shell → Shell} : (s.setShell i f).free = s.free := rfl
@[simp] theorem setShell_pending {s : State} {i : ShellId} {f : Shell → Shell} : (s.setShell i f).pending = s.pending := rfl

@[simp] theorem setBundle_start {s : State} {h : Fin 16} {f : Bundle → Bundle} : (s.setBundle h f).start = s.start := rfl
@[simp] theorem setBundle_clk {s : State} {h : Fin 16} {f : Bundle → Bundle} : (s.setBundle h f).clk = s.clk := rfl
@[simp] theorem setBundle_power {s : State} {h : Fin 16} {f : Bundle → Bundle} : (s.setBundle h f).power = s.power := rfl
@[simp] theorem setBundle_rail {s : State} {h : Fin 16} {f : Bundle → Bundle} : (s.setBundle h f).rail = s.rail := rfl
@[simp] theorem setBundle_faults {s : State} {h : Fin 16} {f : Bundle → Bundle} : (s.setBundle h f).faults = s.faults := rfl
@[simp] theorem setBundle_fuse {s : State} {h : Fin 16} {f : Bundle → Bundle} : (s.setBundle h f).fuse = s.fuse := rfl
@[simp] theorem setBundle_keys {s : State} {h : Fin 16} {f : Bundle → Bundle} : (s.setBundle h f).keys = s.keys := rfl
@[simp] theorem setBundle_tmr {s : State} {h : Fin 16} {f : Bundle → Bundle} : (s.setBundle h f).tmr = s.tmr := rfl
@[simp] theorem setBundle_stat {s : State} {h : Fin 16} {f : Bundle → Bundle} : (s.setBundle h f).stat = s.stat := rfl
@[simp] theorem setBundle_call {s : State} {h : Fin 16} {f : Bundle → Bundle} : (s.setBundle h f).call = s.call := rfl
@[simp] theorem setBundle_host {s : State} {h : Fin 16} {f : Bundle → Bundle} : (s.setBundle h f).host = s.host := rfl
@[simp] theorem setBundle_str {s : State} {h : Fin 16} {f : Bundle → Bundle} : (s.setBundle h f).str = s.str := rfl
@[simp] theorem setBundle_firm {s : State} {h : Fin 16} {f : Bundle → Bundle} : (s.setBundle h f).firm = s.firm := rfl
@[simp] theorem setBundle_flash {s : State} {h : Fin 16} {f : Bundle → Bundle} : (s.setBundle h f).flash = s.flash := rfl
@[simp] theorem setBundle_shells {s : State} {h : Fin 16} {f : Bundle → Bundle} : (s.setBundle h f).shells = s.shells := rfl
@[simp] theorem setBundle_tallies {s : State} {h : Fin 16} {f : Bundle → Bundle} : (s.setBundle h f).tallies = s.tallies := rfl
@[simp] theorem setBundle_map {s : State} {h : Fin 16} {f : Bundle → Bundle} : (s.setBundle h f).map = s.map := rfl
@[simp] theorem setBundle_lanes {s : State} {h : Fin 16} {f : Bundle → Bundle} : (s.setBundle h f).lanes = s.lanes := rfl
@[simp] theorem setBundle_ads {s : State} {h : Fin 16} {f : Bundle → Bundle} : (s.setBundle h f).ads = s.ads := rfl
@[simp] theorem setBundle_bundles {s : State} {h : Fin 16} {f : Bundle → Bundle} : (s.setBundle h f).bundles = upd s.bundles h f := rfl
@[simp] theorem setBundle_mem {s : State} {h : Fin 16} {f : Bundle → Bundle} : (s.setBundle h f).mem = s.mem := rfl
@[simp] theorem setBundle_eye {s : State} {h : Fin 16} {f : Bundle → Bundle} : (s.setBundle h f).eye = s.eye := rfl
@[simp] theorem setBundle_ear {s : State} {h : Fin 16} {f : Bundle → Bundle} : (s.setBundle h f).ear = s.ear := rfl
@[simp] theorem setBundle_sense {s : State} {h : Fin 16} {f : Bundle → Bundle} : (s.setBundle h f).sense = s.sense := rfl
@[simp] theorem setBundle_edge {s : State} {h : Fin 16} {f : Bundle → Bundle} : (s.setBundle h f).edge = s.edge := rfl
@[simp] theorem setBundle_shadows {s : State} {h : Fin 16} {f : Bundle → Bundle} : (s.setBundle h f).shadows = s.shadows := rfl
@[simp] theorem setBundle_free {s : State} {h : Fin 16} {f : Bundle → Bundle} : (s.setBundle h f).free = s.free := rfl
@[simp] theorem setBundle_pending {s : State} {h : Fin 16} {f : Bundle → Bundle} : (s.setBundle h f).pending = s.pending := rfl

@[simp] theorem setAd_start {s : State} {n : Fin 8} {f : AdSlot → AdSlot} : (s.setAd n f).start = s.start := rfl
@[simp] theorem setAd_clk {s : State} {n : Fin 8} {f : AdSlot → AdSlot} : (s.setAd n f).clk = s.clk := rfl
@[simp] theorem setAd_power {s : State} {n : Fin 8} {f : AdSlot → AdSlot} : (s.setAd n f).power = s.power := rfl
@[simp] theorem setAd_rail {s : State} {n : Fin 8} {f : AdSlot → AdSlot} : (s.setAd n f).rail = s.rail := rfl
@[simp] theorem setAd_faults {s : State} {n : Fin 8} {f : AdSlot → AdSlot} : (s.setAd n f).faults = s.faults := rfl
@[simp] theorem setAd_fuse {s : State} {n : Fin 8} {f : AdSlot → AdSlot} : (s.setAd n f).fuse = s.fuse := rfl
@[simp] theorem setAd_keys {s : State} {n : Fin 8} {f : AdSlot → AdSlot} : (s.setAd n f).keys = s.keys := rfl
@[simp] theorem setAd_tmr {s : State} {n : Fin 8} {f : AdSlot → AdSlot} : (s.setAd n f).tmr = s.tmr := rfl
@[simp] theorem setAd_stat {s : State} {n : Fin 8} {f : AdSlot → AdSlot} : (s.setAd n f).stat = s.stat := rfl
@[simp] theorem setAd_call {s : State} {n : Fin 8} {f : AdSlot → AdSlot} : (s.setAd n f).call = s.call := rfl
@[simp] theorem setAd_host {s : State} {n : Fin 8} {f : AdSlot → AdSlot} : (s.setAd n f).host = s.host := rfl
@[simp] theorem setAd_str {s : State} {n : Fin 8} {f : AdSlot → AdSlot} : (s.setAd n f).str = s.str := rfl
@[simp] theorem setAd_firm {s : State} {n : Fin 8} {f : AdSlot → AdSlot} : (s.setAd n f).firm = s.firm := rfl
@[simp] theorem setAd_flash {s : State} {n : Fin 8} {f : AdSlot → AdSlot} : (s.setAd n f).flash = s.flash := rfl
@[simp] theorem setAd_shells {s : State} {n : Fin 8} {f : AdSlot → AdSlot} : (s.setAd n f).shells = s.shells := rfl
@[simp] theorem setAd_tallies {s : State} {n : Fin 8} {f : AdSlot → AdSlot} : (s.setAd n f).tallies = s.tallies := rfl
@[simp] theorem setAd_map {s : State} {n : Fin 8} {f : AdSlot → AdSlot} : (s.setAd n f).map = s.map := rfl
@[simp] theorem setAd_lanes {s : State} {n : Fin 8} {f : AdSlot → AdSlot} : (s.setAd n f).lanes = s.lanes := rfl
@[simp] theorem setAd_ads {s : State} {n : Fin 8} {f : AdSlot → AdSlot} : (s.setAd n f).ads = upd s.ads n f := rfl
@[simp] theorem setAd_bundles {s : State} {n : Fin 8} {f : AdSlot → AdSlot} : (s.setAd n f).bundles = s.bundles := rfl
@[simp] theorem setAd_mem {s : State} {n : Fin 8} {f : AdSlot → AdSlot} : (s.setAd n f).mem = s.mem := rfl
@[simp] theorem setAd_eye {s : State} {n : Fin 8} {f : AdSlot → AdSlot} : (s.setAd n f).eye = s.eye := rfl
@[simp] theorem setAd_ear {s : State} {n : Fin 8} {f : AdSlot → AdSlot} : (s.setAd n f).ear = s.ear := rfl
@[simp] theorem setAd_sense {s : State} {n : Fin 8} {f : AdSlot → AdSlot} : (s.setAd n f).sense = s.sense := rfl
@[simp] theorem setAd_edge {s : State} {n : Fin 8} {f : AdSlot → AdSlot} : (s.setAd n f).edge = s.edge := rfl
@[simp] theorem setAd_shadows {s : State} {n : Fin 8} {f : AdSlot → AdSlot} : (s.setAd n f).shadows = s.shadows := rfl
@[simp] theorem setAd_free {s : State} {n : Fin 8} {f : AdSlot → AdSlot} : (s.setAd n f).free = s.free := rfl
@[simp] theorem setAd_pending {s : State} {n : Fin 8} {f : AdSlot → AdSlot} : (s.setAd n f).pending = s.pending := rfl

@[simp] theorem setRing_start {s : State} {l : LaneId} {f : Ring → Ring} : (s.setRing l f).start = s.start := rfl
@[simp] theorem setRing_clk {s : State} {l : LaneId} {f : Ring → Ring} : (s.setRing l f).clk = s.clk := rfl
@[simp] theorem setRing_power {s : State} {l : LaneId} {f : Ring → Ring} : (s.setRing l f).power = s.power := rfl
@[simp] theorem setRing_rail {s : State} {l : LaneId} {f : Ring → Ring} : (s.setRing l f).rail = s.rail := rfl
@[simp] theorem setRing_faults {s : State} {l : LaneId} {f : Ring → Ring} : (s.setRing l f).faults = s.faults := rfl
@[simp] theorem setRing_fuse {s : State} {l : LaneId} {f : Ring → Ring} : (s.setRing l f).fuse = s.fuse := rfl
@[simp] theorem setRing_keys {s : State} {l : LaneId} {f : Ring → Ring} : (s.setRing l f).keys = s.keys := rfl
@[simp] theorem setRing_tmr {s : State} {l : LaneId} {f : Ring → Ring} : (s.setRing l f).tmr = s.tmr := rfl
@[simp] theorem setRing_stat {s : State} {l : LaneId} {f : Ring → Ring} : (s.setRing l f).stat = s.stat := rfl
@[simp] theorem setRing_call {s : State} {l : LaneId} {f : Ring → Ring} : (s.setRing l f).call = s.call := rfl
@[simp] theorem setRing_host {s : State} {l : LaneId} {f : Ring → Ring} : (s.setRing l f).host = { s.host with ring := upd s.host.ring l f } := rfl
@[simp] theorem setRing_str {s : State} {l : LaneId} {f : Ring → Ring} : (s.setRing l f).str = s.str := rfl
@[simp] theorem setRing_firm {s : State} {l : LaneId} {f : Ring → Ring} : (s.setRing l f).firm = s.firm := rfl
@[simp] theorem setRing_flash {s : State} {l : LaneId} {f : Ring → Ring} : (s.setRing l f).flash = s.flash := rfl
@[simp] theorem setRing_shells {s : State} {l : LaneId} {f : Ring → Ring} : (s.setRing l f).shells = s.shells := rfl
@[simp] theorem setRing_tallies {s : State} {l : LaneId} {f : Ring → Ring} : (s.setRing l f).tallies = s.tallies := rfl
@[simp] theorem setRing_map {s : State} {l : LaneId} {f : Ring → Ring} : (s.setRing l f).map = s.map := rfl
@[simp] theorem setRing_lanes {s : State} {l : LaneId} {f : Ring → Ring} : (s.setRing l f).lanes = s.lanes := rfl
@[simp] theorem setRing_ads {s : State} {l : LaneId} {f : Ring → Ring} : (s.setRing l f).ads = s.ads := rfl
@[simp] theorem setRing_bundles {s : State} {l : LaneId} {f : Ring → Ring} : (s.setRing l f).bundles = s.bundles := rfl
@[simp] theorem setRing_mem {s : State} {l : LaneId} {f : Ring → Ring} : (s.setRing l f).mem = s.mem := rfl
@[simp] theorem setRing_eye {s : State} {l : LaneId} {f : Ring → Ring} : (s.setRing l f).eye = s.eye := rfl
@[simp] theorem setRing_ear {s : State} {l : LaneId} {f : Ring → Ring} : (s.setRing l f).ear = s.ear := rfl
@[simp] theorem setRing_sense {s : State} {l : LaneId} {f : Ring → Ring} : (s.setRing l f).sense = s.sense := rfl
@[simp] theorem setRing_edge {s : State} {l : LaneId} {f : Ring → Ring} : (s.setRing l f).edge = s.edge := rfl
@[simp] theorem setRing_shadows {s : State} {l : LaneId} {f : Ring → Ring} : (s.setRing l f).shadows = s.shadows := rfl
@[simp] theorem setRing_free {s : State} {l : LaneId} {f : Ring → Ring} : (s.setRing l f).free = s.free := rfl
@[simp] theorem setRing_pending {s : State} {l : LaneId} {f : Ring → Ring} : (s.setRing l f).pending = s.pending := rfl

@[simp] theorem setHost_start {s : State} {f : HostLink → HostLink} : (s.setHost f).start = s.start := rfl
@[simp] theorem setHost_clk {s : State} {f : HostLink → HostLink} : (s.setHost f).clk = s.clk := rfl
@[simp] theorem setHost_power {s : State} {f : HostLink → HostLink} : (s.setHost f).power = s.power := rfl
@[simp] theorem setHost_rail {s : State} {f : HostLink → HostLink} : (s.setHost f).rail = s.rail := rfl
@[simp] theorem setHost_faults {s : State} {f : HostLink → HostLink} : (s.setHost f).faults = s.faults := rfl
@[simp] theorem setHost_fuse {s : State} {f : HostLink → HostLink} : (s.setHost f).fuse = s.fuse := rfl
@[simp] theorem setHost_keys {s : State} {f : HostLink → HostLink} : (s.setHost f).keys = s.keys := rfl
@[simp] theorem setHost_tmr {s : State} {f : HostLink → HostLink} : (s.setHost f).tmr = s.tmr := rfl
@[simp] theorem setHost_stat {s : State} {f : HostLink → HostLink} : (s.setHost f).stat = s.stat := rfl
@[simp] theorem setHost_call {s : State} {f : HostLink → HostLink} : (s.setHost f).call = s.call := rfl
@[simp] theorem setHost_host {s : State} {f : HostLink → HostLink} : (s.setHost f).host = f s.host := rfl
@[simp] theorem setHost_str {s : State} {f : HostLink → HostLink} : (s.setHost f).str = s.str := rfl
@[simp] theorem setHost_firm {s : State} {f : HostLink → HostLink} : (s.setHost f).firm = s.firm := rfl
@[simp] theorem setHost_flash {s : State} {f : HostLink → HostLink} : (s.setHost f).flash = s.flash := rfl
@[simp] theorem setHost_shells {s : State} {f : HostLink → HostLink} : (s.setHost f).shells = s.shells := rfl
@[simp] theorem setHost_tallies {s : State} {f : HostLink → HostLink} : (s.setHost f).tallies = s.tallies := rfl
@[simp] theorem setHost_map {s : State} {f : HostLink → HostLink} : (s.setHost f).map = s.map := rfl
@[simp] theorem setHost_lanes {s : State} {f : HostLink → HostLink} : (s.setHost f).lanes = s.lanes := rfl
@[simp] theorem setHost_ads {s : State} {f : HostLink → HostLink} : (s.setHost f).ads = s.ads := rfl
@[simp] theorem setHost_bundles {s : State} {f : HostLink → HostLink} : (s.setHost f).bundles = s.bundles := rfl
@[simp] theorem setHost_mem {s : State} {f : HostLink → HostLink} : (s.setHost f).mem = s.mem := rfl
@[simp] theorem setHost_eye {s : State} {f : HostLink → HostLink} : (s.setHost f).eye = s.eye := rfl
@[simp] theorem setHost_ear {s : State} {f : HostLink → HostLink} : (s.setHost f).ear = s.ear := rfl
@[simp] theorem setHost_sense {s : State} {f : HostLink → HostLink} : (s.setHost f).sense = s.sense := rfl
@[simp] theorem setHost_edge {s : State} {f : HostLink → HostLink} : (s.setHost f).edge = s.edge := rfl
@[simp] theorem setHost_shadows {s : State} {f : HostLink → HostLink} : (s.setHost f).shadows = s.shadows := rfl
@[simp] theorem setHost_free {s : State} {f : HostLink → HostLink} : (s.setHost f).free = s.free := rfl
@[simp] theorem setHost_pending {s : State} {f : HostLink → HostLink} : (s.setHost f).pending = s.pending := rfl

@[simp] theorem setClk_start {s : State} {f : Clocks → Clocks} : (s.setClk f).start = s.start := rfl
@[simp] theorem setClk_clk {s : State} {f : Clocks → Clocks} : (s.setClk f).clk = f s.clk := rfl
@[simp] theorem setClk_power {s : State} {f : Clocks → Clocks} : (s.setClk f).power = s.power := rfl
@[simp] theorem setClk_rail {s : State} {f : Clocks → Clocks} : (s.setClk f).rail = s.rail := rfl
@[simp] theorem setClk_faults {s : State} {f : Clocks → Clocks} : (s.setClk f).faults = s.faults := rfl
@[simp] theorem setClk_fuse {s : State} {f : Clocks → Clocks} : (s.setClk f).fuse = s.fuse := rfl
@[simp] theorem setClk_keys {s : State} {f : Clocks → Clocks} : (s.setClk f).keys = s.keys := rfl
@[simp] theorem setClk_tmr {s : State} {f : Clocks → Clocks} : (s.setClk f).tmr = s.tmr := rfl
@[simp] theorem setClk_stat {s : State} {f : Clocks → Clocks} : (s.setClk f).stat = s.stat := rfl
@[simp] theorem setClk_call {s : State} {f : Clocks → Clocks} : (s.setClk f).call = s.call := rfl
@[simp] theorem setClk_host {s : State} {f : Clocks → Clocks} : (s.setClk f).host = s.host := rfl
@[simp] theorem setClk_str {s : State} {f : Clocks → Clocks} : (s.setClk f).str = s.str := rfl
@[simp] theorem setClk_firm {s : State} {f : Clocks → Clocks} : (s.setClk f).firm = s.firm := rfl
@[simp] theorem setClk_flash {s : State} {f : Clocks → Clocks} : (s.setClk f).flash = s.flash := rfl
@[simp] theorem setClk_shells {s : State} {f : Clocks → Clocks} : (s.setClk f).shells = s.shells := rfl
@[simp] theorem setClk_tallies {s : State} {f : Clocks → Clocks} : (s.setClk f).tallies = s.tallies := rfl
@[simp] theorem setClk_map {s : State} {f : Clocks → Clocks} : (s.setClk f).map = s.map := rfl
@[simp] theorem setClk_lanes {s : State} {f : Clocks → Clocks} : (s.setClk f).lanes = s.lanes := rfl
@[simp] theorem setClk_ads {s : State} {f : Clocks → Clocks} : (s.setClk f).ads = s.ads := rfl
@[simp] theorem setClk_bundles {s : State} {f : Clocks → Clocks} : (s.setClk f).bundles = s.bundles := rfl
@[simp] theorem setClk_mem {s : State} {f : Clocks → Clocks} : (s.setClk f).mem = s.mem := rfl
@[simp] theorem setClk_eye {s : State} {f : Clocks → Clocks} : (s.setClk f).eye = s.eye := rfl
@[simp] theorem setClk_ear {s : State} {f : Clocks → Clocks} : (s.setClk f).ear = s.ear := rfl
@[simp] theorem setClk_sense {s : State} {f : Clocks → Clocks} : (s.setClk f).sense = s.sense := rfl
@[simp] theorem setClk_edge {s : State} {f : Clocks → Clocks} : (s.setClk f).edge = s.edge := rfl
@[simp] theorem setClk_shadows {s : State} {f : Clocks → Clocks} : (s.setClk f).shadows = s.shadows := rfl
@[simp] theorem setClk_free {s : State} {f : Clocks → Clocks} : (s.setClk f).free = s.free := rfl
@[simp] theorem setClk_pending {s : State} {f : Clocks → Clocks} : (s.setClk f).pending = s.pending := rfl

@[simp] theorem setRail_start {s : State} {f : Rail → Rail} : (s.setRail f).start = s.start := rfl
@[simp] theorem setRail_clk {s : State} {f : Rail → Rail} : (s.setRail f).clk = s.clk := rfl
@[simp] theorem setRail_power {s : State} {f : Rail → Rail} : (s.setRail f).power = s.power := rfl
@[simp] theorem setRail_rail {s : State} {f : Rail → Rail} : (s.setRail f).rail = f s.rail := rfl
@[simp] theorem setRail_faults {s : State} {f : Rail → Rail} : (s.setRail f).faults = s.faults := rfl
@[simp] theorem setRail_fuse {s : State} {f : Rail → Rail} : (s.setRail f).fuse = s.fuse := rfl
@[simp] theorem setRail_keys {s : State} {f : Rail → Rail} : (s.setRail f).keys = s.keys := rfl
@[simp] theorem setRail_tmr {s : State} {f : Rail → Rail} : (s.setRail f).tmr = s.tmr := rfl
@[simp] theorem setRail_stat {s : State} {f : Rail → Rail} : (s.setRail f).stat = s.stat := rfl
@[simp] theorem setRail_call {s : State} {f : Rail → Rail} : (s.setRail f).call = s.call := rfl
@[simp] theorem setRail_host {s : State} {f : Rail → Rail} : (s.setRail f).host = s.host := rfl
@[simp] theorem setRail_str {s : State} {f : Rail → Rail} : (s.setRail f).str = s.str := rfl
@[simp] theorem setRail_firm {s : State} {f : Rail → Rail} : (s.setRail f).firm = s.firm := rfl
@[simp] theorem setRail_flash {s : State} {f : Rail → Rail} : (s.setRail f).flash = s.flash := rfl
@[simp] theorem setRail_shells {s : State} {f : Rail → Rail} : (s.setRail f).shells = s.shells := rfl
@[simp] theorem setRail_tallies {s : State} {f : Rail → Rail} : (s.setRail f).tallies = s.tallies := rfl
@[simp] theorem setRail_map {s : State} {f : Rail → Rail} : (s.setRail f).map = s.map := rfl
@[simp] theorem setRail_lanes {s : State} {f : Rail → Rail} : (s.setRail f).lanes = s.lanes := rfl
@[simp] theorem setRail_ads {s : State} {f : Rail → Rail} : (s.setRail f).ads = s.ads := rfl
@[simp] theorem setRail_bundles {s : State} {f : Rail → Rail} : (s.setRail f).bundles = s.bundles := rfl
@[simp] theorem setRail_mem {s : State} {f : Rail → Rail} : (s.setRail f).mem = s.mem := rfl
@[simp] theorem setRail_eye {s : State} {f : Rail → Rail} : (s.setRail f).eye = s.eye := rfl
@[simp] theorem setRail_ear {s : State} {f : Rail → Rail} : (s.setRail f).ear = s.ear := rfl
@[simp] theorem setRail_sense {s : State} {f : Rail → Rail} : (s.setRail f).sense = s.sense := rfl
@[simp] theorem setRail_edge {s : State} {f : Rail → Rail} : (s.setRail f).edge = s.edge := rfl
@[simp] theorem setRail_shadows {s : State} {f : Rail → Rail} : (s.setRail f).shadows = s.shadows := rfl
@[simp] theorem setRail_free {s : State} {f : Rail → Rail} : (s.setRail f).free = s.free := rfl
@[simp] theorem setRail_pending {s : State} {f : Rail → Rail} : (s.setRail f).pending = s.pending := rfl

@[simp] theorem setFirm_start {s : State} {f : Firm → Firm} : (s.setFirm f).start = s.start := rfl
@[simp] theorem setFirm_clk {s : State} {f : Firm → Firm} : (s.setFirm f).clk = s.clk := rfl
@[simp] theorem setFirm_power {s : State} {f : Firm → Firm} : (s.setFirm f).power = s.power := rfl
@[simp] theorem setFirm_rail {s : State} {f : Firm → Firm} : (s.setFirm f).rail = s.rail := rfl
@[simp] theorem setFirm_faults {s : State} {f : Firm → Firm} : (s.setFirm f).faults = s.faults := rfl
@[simp] theorem setFirm_fuse {s : State} {f : Firm → Firm} : (s.setFirm f).fuse = s.fuse := rfl
@[simp] theorem setFirm_keys {s : State} {f : Firm → Firm} : (s.setFirm f).keys = s.keys := rfl
@[simp] theorem setFirm_tmr {s : State} {f : Firm → Firm} : (s.setFirm f).tmr = s.tmr := rfl
@[simp] theorem setFirm_stat {s : State} {f : Firm → Firm} : (s.setFirm f).stat = s.stat := rfl
@[simp] theorem setFirm_call {s : State} {f : Firm → Firm} : (s.setFirm f).call = s.call := rfl
@[simp] theorem setFirm_host {s : State} {f : Firm → Firm} : (s.setFirm f).host = s.host := rfl
@[simp] theorem setFirm_str {s : State} {f : Firm → Firm} : (s.setFirm f).str = s.str := rfl
@[simp] theorem setFirm_firm {s : State} {f : Firm → Firm} : (s.setFirm f).firm = f s.firm := rfl
@[simp] theorem setFirm_flash {s : State} {f : Firm → Firm} : (s.setFirm f).flash = s.flash := rfl
@[simp] theorem setFirm_shells {s : State} {f : Firm → Firm} : (s.setFirm f).shells = s.shells := rfl
@[simp] theorem setFirm_tallies {s : State} {f : Firm → Firm} : (s.setFirm f).tallies = s.tallies := rfl
@[simp] theorem setFirm_map {s : State} {f : Firm → Firm} : (s.setFirm f).map = s.map := rfl
@[simp] theorem setFirm_lanes {s : State} {f : Firm → Firm} : (s.setFirm f).lanes = s.lanes := rfl
@[simp] theorem setFirm_ads {s : State} {f : Firm → Firm} : (s.setFirm f).ads = s.ads := rfl
@[simp] theorem setFirm_bundles {s : State} {f : Firm → Firm} : (s.setFirm f).bundles = s.bundles := rfl
@[simp] theorem setFirm_mem {s : State} {f : Firm → Firm} : (s.setFirm f).mem = s.mem := rfl
@[simp] theorem setFirm_eye {s : State} {f : Firm → Firm} : (s.setFirm f).eye = s.eye := rfl
@[simp] theorem setFirm_ear {s : State} {f : Firm → Firm} : (s.setFirm f).ear = s.ear := rfl
@[simp] theorem setFirm_sense {s : State} {f : Firm → Firm} : (s.setFirm f).sense = s.sense := rfl
@[simp] theorem setFirm_edge {s : State} {f : Firm → Firm} : (s.setFirm f).edge = s.edge := rfl
@[simp] theorem setFirm_shadows {s : State} {f : Firm → Firm} : (s.setFirm f).shadows = s.shadows := rfl
@[simp] theorem setFirm_free {s : State} {f : Firm → Firm} : (s.setFirm f).free = s.free := rfl
@[simp] theorem setFirm_pending {s : State} {f : Firm → Firm} : (s.setFirm f).pending = s.pending := rfl

@[simp] theorem setEye_start {s : State} {f : Eye → Eye} : (s.setEye f).start = s.start := rfl
@[simp] theorem setEye_clk {s : State} {f : Eye → Eye} : (s.setEye f).clk = s.clk := rfl
@[simp] theorem setEye_power {s : State} {f : Eye → Eye} : (s.setEye f).power = s.power := rfl
@[simp] theorem setEye_rail {s : State} {f : Eye → Eye} : (s.setEye f).rail = s.rail := rfl
@[simp] theorem setEye_faults {s : State} {f : Eye → Eye} : (s.setEye f).faults = s.faults := rfl
@[simp] theorem setEye_fuse {s : State} {f : Eye → Eye} : (s.setEye f).fuse = s.fuse := rfl
@[simp] theorem setEye_keys {s : State} {f : Eye → Eye} : (s.setEye f).keys = s.keys := rfl
@[simp] theorem setEye_tmr {s : State} {f : Eye → Eye} : (s.setEye f).tmr = s.tmr := rfl
@[simp] theorem setEye_stat {s : State} {f : Eye → Eye} : (s.setEye f).stat = s.stat := rfl
@[simp] theorem setEye_call {s : State} {f : Eye → Eye} : (s.setEye f).call = s.call := rfl
@[simp] theorem setEye_host {s : State} {f : Eye → Eye} : (s.setEye f).host = s.host := rfl
@[simp] theorem setEye_str {s : State} {f : Eye → Eye} : (s.setEye f).str = s.str := rfl
@[simp] theorem setEye_firm {s : State} {f : Eye → Eye} : (s.setEye f).firm = s.firm := rfl
@[simp] theorem setEye_flash {s : State} {f : Eye → Eye} : (s.setEye f).flash = s.flash := rfl
@[simp] theorem setEye_shells {s : State} {f : Eye → Eye} : (s.setEye f).shells = s.shells := rfl
@[simp] theorem setEye_tallies {s : State} {f : Eye → Eye} : (s.setEye f).tallies = s.tallies := rfl
@[simp] theorem setEye_map {s : State} {f : Eye → Eye} : (s.setEye f).map = s.map := rfl
@[simp] theorem setEye_lanes {s : State} {f : Eye → Eye} : (s.setEye f).lanes = s.lanes := rfl
@[simp] theorem setEye_ads {s : State} {f : Eye → Eye} : (s.setEye f).ads = s.ads := rfl
@[simp] theorem setEye_bundles {s : State} {f : Eye → Eye} : (s.setEye f).bundles = s.bundles := rfl
@[simp] theorem setEye_mem {s : State} {f : Eye → Eye} : (s.setEye f).mem = s.mem := rfl
@[simp] theorem setEye_eye {s : State} {f : Eye → Eye} : (s.setEye f).eye = f s.eye := rfl
@[simp] theorem setEye_ear {s : State} {f : Eye → Eye} : (s.setEye f).ear = s.ear := rfl
@[simp] theorem setEye_sense {s : State} {f : Eye → Eye} : (s.setEye f).sense = s.sense := rfl
@[simp] theorem setEye_edge {s : State} {f : Eye → Eye} : (s.setEye f).edge = s.edge := rfl
@[simp] theorem setEye_shadows {s : State} {f : Eye → Eye} : (s.setEye f).shadows = s.shadows := rfl
@[simp] theorem setEye_free {s : State} {f : Eye → Eye} : (s.setEye f).free = s.free := rfl
@[simp] theorem setEye_pending {s : State} {f : Eye → Eye} : (s.setEye f).pending = s.pending := rfl

@[simp] theorem setEar_start {s : State} {f : Ear → Ear} : (s.setEar f).start = s.start := rfl
@[simp] theorem setEar_clk {s : State} {f : Ear → Ear} : (s.setEar f).clk = s.clk := rfl
@[simp] theorem setEar_power {s : State} {f : Ear → Ear} : (s.setEar f).power = s.power := rfl
@[simp] theorem setEar_rail {s : State} {f : Ear → Ear} : (s.setEar f).rail = s.rail := rfl
@[simp] theorem setEar_faults {s : State} {f : Ear → Ear} : (s.setEar f).faults = s.faults := rfl
@[simp] theorem setEar_fuse {s : State} {f : Ear → Ear} : (s.setEar f).fuse = s.fuse := rfl
@[simp] theorem setEar_keys {s : State} {f : Ear → Ear} : (s.setEar f).keys = s.keys := rfl
@[simp] theorem setEar_tmr {s : State} {f : Ear → Ear} : (s.setEar f).tmr = s.tmr := rfl
@[simp] theorem setEar_stat {s : State} {f : Ear → Ear} : (s.setEar f).stat = s.stat := rfl
@[simp] theorem setEar_call {s : State} {f : Ear → Ear} : (s.setEar f).call = s.call := rfl
@[simp] theorem setEar_host {s : State} {f : Ear → Ear} : (s.setEar f).host = s.host := rfl
@[simp] theorem setEar_str {s : State} {f : Ear → Ear} : (s.setEar f).str = s.str := rfl
@[simp] theorem setEar_firm {s : State} {f : Ear → Ear} : (s.setEar f).firm = s.firm := rfl
@[simp] theorem setEar_flash {s : State} {f : Ear → Ear} : (s.setEar f).flash = s.flash := rfl
@[simp] theorem setEar_shells {s : State} {f : Ear → Ear} : (s.setEar f).shells = s.shells := rfl
@[simp] theorem setEar_tallies {s : State} {f : Ear → Ear} : (s.setEar f).tallies = s.tallies := rfl
@[simp] theorem setEar_map {s : State} {f : Ear → Ear} : (s.setEar f).map = s.map := rfl
@[simp] theorem setEar_lanes {s : State} {f : Ear → Ear} : (s.setEar f).lanes = s.lanes := rfl
@[simp] theorem setEar_ads {s : State} {f : Ear → Ear} : (s.setEar f).ads = s.ads := rfl
@[simp] theorem setEar_bundles {s : State} {f : Ear → Ear} : (s.setEar f).bundles = s.bundles := rfl
@[simp] theorem setEar_mem {s : State} {f : Ear → Ear} : (s.setEar f).mem = s.mem := rfl
@[simp] theorem setEar_eye {s : State} {f : Ear → Ear} : (s.setEar f).eye = s.eye := rfl
@[simp] theorem setEar_ear {s : State} {f : Ear → Ear} : (s.setEar f).ear = f s.ear := rfl
@[simp] theorem setEar_sense {s : State} {f : Ear → Ear} : (s.setEar f).sense = s.sense := rfl
@[simp] theorem setEar_edge {s : State} {f : Ear → Ear} : (s.setEar f).edge = s.edge := rfl
@[simp] theorem setEar_shadows {s : State} {f : Ear → Ear} : (s.setEar f).shadows = s.shadows := rfl
@[simp] theorem setEar_free {s : State} {f : Ear → Ear} : (s.setEar f).free = s.free := rfl
@[simp] theorem setEar_pending {s : State} {f : Ear → Ear} : (s.setEar f).pending = s.pending := rfl

@[simp] theorem setSense_start {s : State} {f : Sense → Sense} : (s.setSense f).start = s.start := rfl
@[simp] theorem setSense_clk {s : State} {f : Sense → Sense} : (s.setSense f).clk = s.clk := rfl
@[simp] theorem setSense_power {s : State} {f : Sense → Sense} : (s.setSense f).power = s.power := rfl
@[simp] theorem setSense_rail {s : State} {f : Sense → Sense} : (s.setSense f).rail = s.rail := rfl
@[simp] theorem setSense_faults {s : State} {f : Sense → Sense} : (s.setSense f).faults = s.faults := rfl
@[simp] theorem setSense_fuse {s : State} {f : Sense → Sense} : (s.setSense f).fuse = s.fuse := rfl
@[simp] theorem setSense_keys {s : State} {f : Sense → Sense} : (s.setSense f).keys = s.keys := rfl
@[simp] theorem setSense_tmr {s : State} {f : Sense → Sense} : (s.setSense f).tmr = s.tmr := rfl
@[simp] theorem setSense_stat {s : State} {f : Sense → Sense} : (s.setSense f).stat = s.stat := rfl
@[simp] theorem setSense_call {s : State} {f : Sense → Sense} : (s.setSense f).call = s.call := rfl
@[simp] theorem setSense_host {s : State} {f : Sense → Sense} : (s.setSense f).host = s.host := rfl
@[simp] theorem setSense_str {s : State} {f : Sense → Sense} : (s.setSense f).str = s.str := rfl
@[simp] theorem setSense_firm {s : State} {f : Sense → Sense} : (s.setSense f).firm = s.firm := rfl
@[simp] theorem setSense_flash {s : State} {f : Sense → Sense} : (s.setSense f).flash = s.flash := rfl
@[simp] theorem setSense_shells {s : State} {f : Sense → Sense} : (s.setSense f).shells = s.shells := rfl
@[simp] theorem setSense_tallies {s : State} {f : Sense → Sense} : (s.setSense f).tallies = s.tallies := rfl
@[simp] theorem setSense_map {s : State} {f : Sense → Sense} : (s.setSense f).map = s.map := rfl
@[simp] theorem setSense_lanes {s : State} {f : Sense → Sense} : (s.setSense f).lanes = s.lanes := rfl
@[simp] theorem setSense_ads {s : State} {f : Sense → Sense} : (s.setSense f).ads = s.ads := rfl
@[simp] theorem setSense_bundles {s : State} {f : Sense → Sense} : (s.setSense f).bundles = s.bundles := rfl
@[simp] theorem setSense_mem {s : State} {f : Sense → Sense} : (s.setSense f).mem = s.mem := rfl
@[simp] theorem setSense_eye {s : State} {f : Sense → Sense} : (s.setSense f).eye = s.eye := rfl
@[simp] theorem setSense_ear {s : State} {f : Sense → Sense} : (s.setSense f).ear = s.ear := rfl
@[simp] theorem setSense_sense {s : State} {f : Sense → Sense} : (s.setSense f).sense = f s.sense := rfl
@[simp] theorem setSense_edge {s : State} {f : Sense → Sense} : (s.setSense f).edge = s.edge := rfl
@[simp] theorem setSense_shadows {s : State} {f : Sense → Sense} : (s.setSense f).shadows = s.shadows := rfl
@[simp] theorem setSense_free {s : State} {f : Sense → Sense} : (s.setSense f).free = s.free := rfl
@[simp] theorem setSense_pending {s : State} {f : Sense → Sense} : (s.setSense f).pending = s.pending := rfl

@[simp] theorem setShadow_start {s : State} {p : Path} {f : Shadows → Shadows} : (s.setShadow p f).start = s.start := rfl
@[simp] theorem setShadow_clk {s : State} {p : Path} {f : Shadows → Shadows} : (s.setShadow p f).clk = s.clk := rfl
@[simp] theorem setShadow_power {s : State} {p : Path} {f : Shadows → Shadows} : (s.setShadow p f).power = s.power := rfl
@[simp] theorem setShadow_rail {s : State} {p : Path} {f : Shadows → Shadows} : (s.setShadow p f).rail = s.rail := rfl
@[simp] theorem setShadow_faults {s : State} {p : Path} {f : Shadows → Shadows} : (s.setShadow p f).faults = s.faults := rfl
@[simp] theorem setShadow_fuse {s : State} {p : Path} {f : Shadows → Shadows} : (s.setShadow p f).fuse = s.fuse := rfl
@[simp] theorem setShadow_keys {s : State} {p : Path} {f : Shadows → Shadows} : (s.setShadow p f).keys = s.keys := rfl
@[simp] theorem setShadow_tmr {s : State} {p : Path} {f : Shadows → Shadows} : (s.setShadow p f).tmr = s.tmr := rfl
@[simp] theorem setShadow_stat {s : State} {p : Path} {f : Shadows → Shadows} : (s.setShadow p f).stat = s.stat := rfl
@[simp] theorem setShadow_call {s : State} {p : Path} {f : Shadows → Shadows} : (s.setShadow p f).call = s.call := rfl
@[simp] theorem setShadow_host {s : State} {p : Path} {f : Shadows → Shadows} : (s.setShadow p f).host = s.host := rfl
@[simp] theorem setShadow_str {s : State} {p : Path} {f : Shadows → Shadows} : (s.setShadow p f).str = s.str := rfl
@[simp] theorem setShadow_firm {s : State} {p : Path} {f : Shadows → Shadows} : (s.setShadow p f).firm = s.firm := rfl
@[simp] theorem setShadow_flash {s : State} {p : Path} {f : Shadows → Shadows} : (s.setShadow p f).flash = s.flash := rfl
@[simp] theorem setShadow_shells {s : State} {p : Path} {f : Shadows → Shadows} : (s.setShadow p f).shells = s.shells := rfl
@[simp] theorem setShadow_tallies {s : State} {p : Path} {f : Shadows → Shadows} : (s.setShadow p f).tallies = s.tallies := rfl
@[simp] theorem setShadow_map {s : State} {p : Path} {f : Shadows → Shadows} : (s.setShadow p f).map = s.map := rfl
@[simp] theorem setShadow_lanes {s : State} {p : Path} {f : Shadows → Shadows} : (s.setShadow p f).lanes = s.lanes := rfl
@[simp] theorem setShadow_ads {s : State} {p : Path} {f : Shadows → Shadows} : (s.setShadow p f).ads = s.ads := rfl
@[simp] theorem setShadow_bundles {s : State} {p : Path} {f : Shadows → Shadows} : (s.setShadow p f).bundles = s.bundles := rfl
@[simp] theorem setShadow_mem {s : State} {p : Path} {f : Shadows → Shadows} : (s.setShadow p f).mem = s.mem := rfl
@[simp] theorem setShadow_eye {s : State} {p : Path} {f : Shadows → Shadows} : (s.setShadow p f).eye = s.eye := rfl
@[simp] theorem setShadow_ear {s : State} {p : Path} {f : Shadows → Shadows} : (s.setShadow p f).ear = s.ear := rfl
@[simp] theorem setShadow_sense {s : State} {p : Path} {f : Shadows → Shadows} : (s.setShadow p f).sense = s.sense := rfl
@[simp] theorem setShadow_edge {s : State} {p : Path} {f : Shadows → Shadows} : (s.setShadow p f).edge = s.edge := rfl
@[simp] theorem setShadow_shadows {s : State} {p : Path} {f : Shadows → Shadows} : (s.setShadow p f).shadows = upd s.shadows p.idx f := rfl
@[simp] theorem setShadow_free {s : State} {p : Path} {f : Shadows → Shadows} : (s.setShadow p f).free = s.free := rfl
@[simp] theorem setShadow_pending {s : State} {p : Path} {f : Shadows → Shadows} : (s.setShadow p f).pending = s.pending := rfl

@[simp] theorem touch_start {s : State} {d : Dom} : (touch d s).start = s.start := rfl
@[simp] theorem touch_clk {s : State} {d : Dom} : (touch d s).clk = s.clk := rfl
@[simp] theorem touch_power {s : State} {d : Dom} : (touch d s).power = s.power.bring d := rfl
@[simp] theorem touch_rail {s : State} {d : Dom} : (touch d s).rail = s.rail := rfl
@[simp] theorem touch_faults {s : State} {d : Dom} : (touch d s).faults = s.faults := rfl
@[simp] theorem touch_fuse {s : State} {d : Dom} : (touch d s).fuse = s.fuse := rfl
@[simp] theorem touch_keys {s : State} {d : Dom} : (touch d s).keys = s.keys := rfl
@[simp] theorem touch_tmr {s : State} {d : Dom} : (touch d s).tmr = s.tmr := rfl
@[simp] theorem touch_stat {s : State} {d : Dom} : (touch d s).stat = s.stat := rfl
@[simp] theorem touch_call {s : State} {d : Dom} : (touch d s).call = s.call := rfl
@[simp] theorem touch_host {s : State} {d : Dom} : (touch d s).host = s.host := rfl
@[simp] theorem touch_str {s : State} {d : Dom} : (touch d s).str = s.str := rfl
@[simp] theorem touch_firm {s : State} {d : Dom} : (touch d s).firm = s.firm := rfl
@[simp] theorem touch_flash {s : State} {d : Dom} : (touch d s).flash = s.flash := rfl
@[simp] theorem touch_shells {s : State} {d : Dom} : (touch d s).shells = s.shells := rfl
@[simp] theorem touch_tallies {s : State} {d : Dom} : (touch d s).tallies = s.tallies := rfl
@[simp] theorem touch_map {s : State} {d : Dom} : (touch d s).map = s.map := rfl
@[simp] theorem touch_lanes {s : State} {d : Dom} : (touch d s).lanes = s.lanes := rfl
@[simp] theorem touch_ads {s : State} {d : Dom} : (touch d s).ads = s.ads := rfl
@[simp] theorem touch_bundles {s : State} {d : Dom} : (touch d s).bundles = s.bundles := rfl
@[simp] theorem touch_mem {s : State} {d : Dom} : (touch d s).mem = s.mem := rfl
@[simp] theorem touch_eye {s : State} {d : Dom} : (touch d s).eye = s.eye := rfl
@[simp] theorem touch_ear {s : State} {d : Dom} : (touch d s).ear = s.ear := rfl
@[simp] theorem touch_sense {s : State} {d : Dom} : (touch d s).sense = s.sense := rfl
@[simp] theorem touch_edge {s : State} {d : Dom} : (touch d s).edge = s.edge := rfl
@[simp] theorem touch_shadows {s : State} {d : Dom} : (touch d s).shadows = s.shadows := rfl
@[simp] theorem touch_free {s : State} {d : Dom} : (touch d s).free = s.free := rfl
@[simp] theorem touch_pending {s : State} {d : Dom} : (touch d s).pending = s.pending := rfl

@[simp] theorem tx_start {s : State} {l : Line} : (s.tx l).start = s.start := rfl
@[simp] theorem tx_clk {s : State} {l : Line} : (s.tx l).clk = s.clk := rfl
@[simp] theorem tx_power {s : State} {l : Line} : (s.tx l).power = s.power := rfl
@[simp] theorem tx_rail {s : State} {l : Line} : (s.tx l).rail = s.rail := rfl
@[simp] theorem tx_faults {s : State} {l : Line} : (s.tx l).faults = s.faults := rfl
@[simp] theorem tx_fuse {s : State} {l : Line} : (s.tx l).fuse = s.fuse := rfl
@[simp] theorem tx_keys {s : State} {l : Line} : (s.tx l).keys = s.keys := rfl
@[simp] theorem tx_tmr {s : State} {l : Line} : (s.tx l).tmr = s.tmr := rfl
@[simp] theorem tx_stat {s : State} {l : Line} : (s.tx l).stat = s.stat := rfl
@[simp] theorem tx_call {s : State} {l : Line} : (s.tx l).call = { s.call with tx := s.call.tx ++ [.line l] } := rfl
@[simp] theorem tx_host {s : State} {l : Line} : (s.tx l).host = s.host := rfl
@[simp] theorem tx_str {s : State} {l : Line} : (s.tx l).str = s.str := rfl
@[simp] theorem tx_firm {s : State} {l : Line} : (s.tx l).firm = s.firm := rfl
@[simp] theorem tx_flash {s : State} {l : Line} : (s.tx l).flash = s.flash := rfl
@[simp] theorem tx_shells {s : State} {l : Line} : (s.tx l).shells = s.shells := rfl
@[simp] theorem tx_tallies {s : State} {l : Line} : (s.tx l).tallies = s.tallies := rfl
@[simp] theorem tx_map {s : State} {l : Line} : (s.tx l).map = s.map := rfl
@[simp] theorem tx_lanes {s : State} {l : Line} : (s.tx l).lanes = s.lanes := rfl
@[simp] theorem tx_ads {s : State} {l : Line} : (s.tx l).ads = s.ads := rfl
@[simp] theorem tx_bundles {s : State} {l : Line} : (s.tx l).bundles = s.bundles := rfl
@[simp] theorem tx_mem {s : State} {l : Line} : (s.tx l).mem = s.mem := rfl
@[simp] theorem tx_eye {s : State} {l : Line} : (s.tx l).eye = s.eye := rfl
@[simp] theorem tx_ear {s : State} {l : Line} : (s.tx l).ear = s.ear := rfl
@[simp] theorem tx_sense {s : State} {l : Line} : (s.tx l).sense = s.sense := rfl
@[simp] theorem tx_edge {s : State} {l : Line} : (s.tx l).edge = s.edge := rfl
@[simp] theorem tx_shadows {s : State} {l : Line} : (s.tx l).shadows = s.shadows := rfl
@[simp] theorem tx_free {s : State} {l : Line} : (s.tx l).free = s.free := rfl
@[simp] theorem tx_pending {s : State} {l : Line} : (s.tx l).pending = s.pending := rfl

@[simp] theorem txChars_start {s : State} {l : List Byte} : (s.txChars l).start = s.start := rfl
@[simp] theorem txChars_clk {s : State} {l : List Byte} : (s.txChars l).clk = s.clk := rfl
@[simp] theorem txChars_power {s : State} {l : List Byte} : (s.txChars l).power = s.power := rfl
@[simp] theorem txChars_rail {s : State} {l : List Byte} : (s.txChars l).rail = s.rail := rfl
@[simp] theorem txChars_faults {s : State} {l : List Byte} : (s.txChars l).faults = s.faults := rfl
@[simp] theorem txChars_fuse {s : State} {l : List Byte} : (s.txChars l).fuse = s.fuse := rfl
@[simp] theorem txChars_keys {s : State} {l : List Byte} : (s.txChars l).keys = s.keys := rfl
@[simp] theorem txChars_tmr {s : State} {l : List Byte} : (s.txChars l).tmr = s.tmr := rfl
@[simp] theorem txChars_stat {s : State} {l : List Byte} : (s.txChars l).stat = s.stat := rfl
@[simp] theorem txChars_call {s : State} {l : List Byte} : (s.txChars l).call = { s.call with tx := s.call.tx ++ [.chars l] } := rfl
@[simp] theorem txChars_host {s : State} {l : List Byte} : (s.txChars l).host = s.host := rfl
@[simp] theorem txChars_str {s : State} {l : List Byte} : (s.txChars l).str = s.str := rfl
@[simp] theorem txChars_firm {s : State} {l : List Byte} : (s.txChars l).firm = s.firm := rfl
@[simp] theorem txChars_flash {s : State} {l : List Byte} : (s.txChars l).flash = s.flash := rfl
@[simp] theorem txChars_shells {s : State} {l : List Byte} : (s.txChars l).shells = s.shells := rfl
@[simp] theorem txChars_tallies {s : State} {l : List Byte} : (s.txChars l).tallies = s.tallies := rfl
@[simp] theorem txChars_map {s : State} {l : List Byte} : (s.txChars l).map = s.map := rfl
@[simp] theorem txChars_lanes {s : State} {l : List Byte} : (s.txChars l).lanes = s.lanes := rfl
@[simp] theorem txChars_ads {s : State} {l : List Byte} : (s.txChars l).ads = s.ads := rfl
@[simp] theorem txChars_bundles {s : State} {l : List Byte} : (s.txChars l).bundles = s.bundles := rfl
@[simp] theorem txChars_mem {s : State} {l : List Byte} : (s.txChars l).mem = s.mem := rfl
@[simp] theorem txChars_eye {s : State} {l : List Byte} : (s.txChars l).eye = s.eye := rfl
@[simp] theorem txChars_ear {s : State} {l : List Byte} : (s.txChars l).ear = s.ear := rfl
@[simp] theorem txChars_sense {s : State} {l : List Byte} : (s.txChars l).sense = s.sense := rfl
@[simp] theorem txChars_edge {s : State} {l : List Byte} : (s.txChars l).edge = s.edge := rfl
@[simp] theorem txChars_shadows {s : State} {l : List Byte} : (s.txChars l).shadows = s.shadows := rfl
@[simp] theorem txChars_free {s : State} {l : List Byte} : (s.txChars l).free = s.free := rfl
@[simp] theorem txChars_pending {s : State} {l : List Byte} : (s.txChars l).pending = s.pending := rfl

@[simp] theorem irq_start {s : State} {k : Fin 8} : (s.irq k).start = s.start := rfl
@[simp] theorem irq_clk {s : State} {k : Fin 8} : (s.irq k).clk = s.clk := rfl
@[simp] theorem irq_power {s : State} {k : Fin 8} : (s.irq k).power = s.power := rfl
@[simp] theorem irq_rail {s : State} {k : Fin 8} : (s.irq k).rail = s.rail := rfl
@[simp] theorem irq_faults {s : State} {k : Fin 8} : (s.irq k).faults = s.faults := rfl
@[simp] theorem irq_fuse {s : State} {k : Fin 8} : (s.irq k).fuse = s.fuse := rfl
@[simp] theorem irq_keys {s : State} {k : Fin 8} : (s.irq k).keys = s.keys := rfl
@[simp] theorem irq_tmr {s : State} {k : Fin 8} : (s.irq k).tmr = s.tmr := rfl
@[simp] theorem irq_stat {s : State} {k : Fin 8} : (s.irq k).stat = s.stat := rfl
@[simp] theorem irq_call {s : State} {k : Fin 8} : (s.irq k).call = s.call := rfl
@[simp] theorem irq_host {s : State} {k : Fin 8} : (s.irq k).host = { s.host.signal k with irq := s.host.irq ||| BitVec.ofNat 8 (2 ^ k.val) } := rfl
@[simp] theorem irq_str {s : State} {k : Fin 8} : (s.irq k).str = s.str := rfl
@[simp] theorem irq_firm {s : State} {k : Fin 8} : (s.irq k).firm = s.firm := rfl
@[simp] theorem irq_flash {s : State} {k : Fin 8} : (s.irq k).flash = s.flash := rfl
@[simp] theorem irq_shells {s : State} {k : Fin 8} : (s.irq k).shells = s.shells := rfl
@[simp] theorem irq_tallies {s : State} {k : Fin 8} : (s.irq k).tallies = s.tallies := rfl
@[simp] theorem irq_map {s : State} {k : Fin 8} : (s.irq k).map = s.map := rfl
@[simp] theorem irq_lanes {s : State} {k : Fin 8} : (s.irq k).lanes = s.lanes := rfl
@[simp] theorem irq_ads {s : State} {k : Fin 8} : (s.irq k).ads = s.ads := rfl
@[simp] theorem irq_bundles {s : State} {k : Fin 8} : (s.irq k).bundles = s.bundles := rfl
@[simp] theorem irq_mem {s : State} {k : Fin 8} : (s.irq k).mem = s.mem := rfl
@[simp] theorem irq_eye {s : State} {k : Fin 8} : (s.irq k).eye = s.eye := rfl
@[simp] theorem irq_ear {s : State} {k : Fin 8} : (s.irq k).ear = s.ear := rfl
@[simp] theorem irq_sense {s : State} {k : Fin 8} : (s.irq k).sense = s.sense := rfl
@[simp] theorem irq_edge {s : State} {k : Fin 8} : (s.irq k).edge = s.edge := rfl
@[simp] theorem irq_shadows {s : State} {k : Fin 8} : (s.irq k).shadows = s.shadows := rfl
@[simp] theorem irq_free {s : State} {k : Fin 8} : (s.irq k).free = s.free := rfl
@[simp] theorem irq_pending {s : State} {k : Fin 8} : (s.irq k).pending = s.pending := rfl

@[simp] theorem tallySet_start {s : State} {t : Nat} {v : W32} : (s.tallySet t v).start = s.start := rfl
@[simp] theorem tallySet_clk {s : State} {t : Nat} {v : W32} : (s.tallySet t v).clk = s.clk := rfl
@[simp] theorem tallySet_power {s : State} {t : Nat} {v : W32} : (s.tallySet t v).power = s.power := rfl
@[simp] theorem tallySet_rail {s : State} {t : Nat} {v : W32} : (s.tallySet t v).rail = s.rail := rfl
@[simp] theorem tallySet_faults {s : State} {t : Nat} {v : W32} : (s.tallySet t v).faults = s.faults := rfl
@[simp] theorem tallySet_fuse {s : State} {t : Nat} {v : W32} : (s.tallySet t v).fuse = s.fuse := rfl
@[simp] theorem tallySet_keys {s : State} {t : Nat} {v : W32} : (s.tallySet t v).keys = s.keys := rfl
@[simp] theorem tallySet_tmr {s : State} {t : Nat} {v : W32} : (s.tallySet t v).tmr = s.tmr := rfl
@[simp] theorem tallySet_stat {s : State} {t : Nat} {v : W32} : (s.tallySet t v).stat = s.stat := rfl
@[simp] theorem tallySet_call {s : State} {t : Nat} {v : W32} : (s.tallySet t v).call = s.call := rfl
@[simp] theorem tallySet_host {s : State} {t : Nat} {v : W32} : (s.tallySet t v).host = s.host := rfl
@[simp] theorem tallySet_str {s : State} {t : Nat} {v : W32} : (s.tallySet t v).str = s.str := rfl
@[simp] theorem tallySet_firm {s : State} {t : Nat} {v : W32} : (s.tallySet t v).firm = s.firm := rfl
@[simp] theorem tallySet_flash {s : State} {t : Nat} {v : W32} : (s.tallySet t v).flash = s.flash := rfl
@[simp] theorem tallySet_shells {s : State} {t : Nat} {v : W32} : (s.tallySet t v).shells = s.shells := rfl
@[simp] theorem tallySet_tallies {s : State} {t : Nat} {v : W32} : (s.tallySet t v).tallies = Tab.setWord s.tallies t v := rfl
@[simp] theorem tallySet_map {s : State} {t : Nat} {v : W32} : (s.tallySet t v).map = s.map := rfl
@[simp] theorem tallySet_lanes {s : State} {t : Nat} {v : W32} : (s.tallySet t v).lanes = s.lanes := rfl
@[simp] theorem tallySet_ads {s : State} {t : Nat} {v : W32} : (s.tallySet t v).ads = s.ads := rfl
@[simp] theorem tallySet_bundles {s : State} {t : Nat} {v : W32} : (s.tallySet t v).bundles = s.bundles := rfl
@[simp] theorem tallySet_mem {s : State} {t : Nat} {v : W32} : (s.tallySet t v).mem = s.mem := rfl
@[simp] theorem tallySet_eye {s : State} {t : Nat} {v : W32} : (s.tallySet t v).eye = s.eye := rfl
@[simp] theorem tallySet_ear {s : State} {t : Nat} {v : W32} : (s.tallySet t v).ear = s.ear := rfl
@[simp] theorem tallySet_sense {s : State} {t : Nat} {v : W32} : (s.tallySet t v).sense = s.sense := rfl
@[simp] theorem tallySet_edge {s : State} {t : Nat} {v : W32} : (s.tallySet t v).edge = s.edge := rfl
@[simp] theorem tallySet_shadows {s : State} {t : Nat} {v : W32} : (s.tallySet t v).shadows = s.shadows := rfl
@[simp] theorem tallySet_free {s : State} {t : Nat} {v : W32} : (s.tallySet t v).free = s.free := rfl
@[simp] theorem tallySet_pending {s : State} {t : Nat} {v : W32} : (s.tallySet t v).pending = s.pending := rfl

@[simp] theorem bookLane_start {s : State} {l : LaneId} {f : Lane → Lane} : (s.bookLane l f).start = s.start := rfl
@[simp] theorem bookLane_clk {s : State} {l : LaneId} {f : Lane → Lane} : (s.bookLane l f).clk = s.clk := rfl
@[simp] theorem bookLane_power {s : State} {l : LaneId} {f : Lane → Lane} : (s.bookLane l f).power = s.power := rfl
@[simp] theorem bookLane_rail {s : State} {l : LaneId} {f : Lane → Lane} : (s.bookLane l f).rail = s.rail := rfl
@[simp] theorem bookLane_faults {s : State} {l : LaneId} {f : Lane → Lane} : (s.bookLane l f).faults = s.faults := rfl
@[simp] theorem bookLane_fuse {s : State} {l : LaneId} {f : Lane → Lane} : (s.bookLane l f).fuse = s.fuse := rfl
@[simp] theorem bookLane_keys {s : State} {l : LaneId} {f : Lane → Lane} : (s.bookLane l f).keys = s.keys := rfl
@[simp] theorem bookLane_tmr {s : State} {l : LaneId} {f : Lane → Lane} : (s.bookLane l f).tmr = s.tmr := rfl
@[simp] theorem bookLane_stat {s : State} {l : LaneId} {f : Lane → Lane} : (s.bookLane l f).stat = s.stat := rfl
@[simp] theorem bookLane_call {s : State} {l : LaneId} {f : Lane → Lane} : (s.bookLane l f).call = s.call := rfl
@[simp] theorem bookLane_host {s : State} {l : LaneId} {f : Lane → Lane} : (s.bookLane l f).host = s.host := rfl
@[simp] theorem bookLane_str {s : State} {l : LaneId} {f : Lane → Lane} : (s.bookLane l f).str = s.str := rfl
@[simp] theorem bookLane_firm {s : State} {l : LaneId} {f : Lane → Lane} : (s.bookLane l f).firm = s.firm := rfl
@[simp] theorem bookLane_flash {s : State} {l : LaneId} {f : Lane → Lane} : (s.bookLane l f).flash = s.flash := rfl
@[simp] theorem bookLane_shells {s : State} {l : LaneId} {f : Lane → Lane} : (s.bookLane l f).shells = s.shells := rfl
@[simp] theorem bookLane_tallies {s : State} {l : LaneId} {f : Lane → Lane} : (s.bookLane l f).tallies = s.tallies := rfl
@[simp] theorem bookLane_map {s : State} {l : LaneId} {f : Lane → Lane} : (s.bookLane l f).map = s.map := rfl
@[simp] theorem bookLane_lanes {s : State} {l : LaneId} {f : Lane → Lane} : (s.bookLane l f).lanes = upd s.lanes l fun L => { f L with prev := some L.record } := rfl
@[simp] theorem bookLane_ads {s : State} {l : LaneId} {f : Lane → Lane} : (s.bookLane l f).ads = s.ads := rfl
@[simp] theorem bookLane_bundles {s : State} {l : LaneId} {f : Lane → Lane} : (s.bookLane l f).bundles = s.bundles := rfl
@[simp] theorem bookLane_mem {s : State} {l : LaneId} {f : Lane → Lane} : (s.bookLane l f).mem = s.mem := rfl
@[simp] theorem bookLane_eye {s : State} {l : LaneId} {f : Lane → Lane} : (s.bookLane l f).eye = s.eye := rfl
@[simp] theorem bookLane_ear {s : State} {l : LaneId} {f : Lane → Lane} : (s.bookLane l f).ear = s.ear := rfl
@[simp] theorem bookLane_sense {s : State} {l : LaneId} {f : Lane → Lane} : (s.bookLane l f).sense = s.sense := rfl
@[simp] theorem bookLane_edge {s : State} {l : LaneId} {f : Lane → Lane} : (s.bookLane l f).edge = s.edge := rfl
@[simp] theorem bookLane_shadows {s : State} {l : LaneId} {f : Lane → Lane} : (s.bookLane l f).shadows = s.shadows := rfl
@[simp] theorem bookLane_free {s : State} {l : LaneId} {f : Lane → Lane} : (s.bookLane l f).free = s.free := rfl
@[simp] theorem bookLane_pending {s : State} {l : LaneId} {f : Lane → Lane} : (s.bookLane l f).pending = s.pending := rfl

@[simp] theorem setRun_start {s : State} {l : LaneId} {q : W32} {f : HeatRun → HeatRun} : (s.setRun l q f).start = s.start := rfl
@[simp] theorem setRun_clk {s : State} {l : LaneId} {q : W32} {f : HeatRun → HeatRun} : (s.setRun l q f).clk = s.clk := rfl
@[simp] theorem setRun_power {s : State} {l : LaneId} {q : W32} {f : HeatRun → HeatRun} : (s.setRun l q f).power = s.power := rfl
@[simp] theorem setRun_rail {s : State} {l : LaneId} {q : W32} {f : HeatRun → HeatRun} : (s.setRun l q f).rail = s.rail := rfl
@[simp] theorem setRun_faults {s : State} {l : LaneId} {q : W32} {f : HeatRun → HeatRun} : (s.setRun l q f).faults = s.faults := rfl
@[simp] theorem setRun_fuse {s : State} {l : LaneId} {q : W32} {f : HeatRun → HeatRun} : (s.setRun l q f).fuse = s.fuse := rfl
@[simp] theorem setRun_keys {s : State} {l : LaneId} {q : W32} {f : HeatRun → HeatRun} : (s.setRun l q f).keys = s.keys := rfl
@[simp] theorem setRun_tmr {s : State} {l : LaneId} {q : W32} {f : HeatRun → HeatRun} : (s.setRun l q f).tmr = s.tmr := rfl
@[simp] theorem setRun_stat {s : State} {l : LaneId} {q : W32} {f : HeatRun → HeatRun} : (s.setRun l q f).stat = s.stat := rfl
@[simp] theorem setRun_call {s : State} {l : LaneId} {q : W32} {f : HeatRun → HeatRun} : (s.setRun l q f).call = s.call := rfl
@[simp] theorem setRun_host {s : State} {l : LaneId} {q : W32} {f : HeatRun → HeatRun} : (s.setRun l q f).host = s.host := rfl
@[simp] theorem setRun_str {s : State} {l : LaneId} {q : W32} {f : HeatRun → HeatRun} : (s.setRun l q f).str = s.str := rfl
@[simp] theorem setRun_firm {s : State} {l : LaneId} {q : W32} {f : HeatRun → HeatRun} : (s.setRun l q f).firm = s.firm := rfl
@[simp] theorem setRun_flash {s : State} {l : LaneId} {q : W32} {f : HeatRun → HeatRun} : (s.setRun l q f).flash = s.flash := rfl
@[simp] theorem setRun_shells {s : State} {l : LaneId} {q : W32} {f : HeatRun → HeatRun} : (s.setRun l q f).shells = s.shells := rfl
@[simp] theorem setRun_tallies {s : State} {l : LaneId} {q : W32} {f : HeatRun → HeatRun} : (s.setRun l q f).tallies = s.tallies := rfl
@[simp] theorem setRun_map {s : State} {l : LaneId} {q : W32} {f : HeatRun → HeatRun} : (s.setRun l q f).map = s.map := rfl
@[simp] theorem setRun_lanes {s : State} {l : LaneId} {q : W32} {f : HeatRun → HeatRun} : (s.setRun l q f).lanes = upd s.lanes l fun L => L.setRun q f := rfl
@[simp] theorem setRun_ads {s : State} {l : LaneId} {q : W32} {f : HeatRun → HeatRun} : (s.setRun l q f).ads = s.ads := rfl
@[simp] theorem setRun_bundles {s : State} {l : LaneId} {q : W32} {f : HeatRun → HeatRun} : (s.setRun l q f).bundles = s.bundles := rfl
@[simp] theorem setRun_mem {s : State} {l : LaneId} {q : W32} {f : HeatRun → HeatRun} : (s.setRun l q f).mem = s.mem := rfl
@[simp] theorem setRun_eye {s : State} {l : LaneId} {q : W32} {f : HeatRun → HeatRun} : (s.setRun l q f).eye = s.eye := rfl
@[simp] theorem setRun_ear {s : State} {l : LaneId} {q : W32} {f : HeatRun → HeatRun} : (s.setRun l q f).ear = s.ear := rfl
@[simp] theorem setRun_sense {s : State} {l : LaneId} {q : W32} {f : HeatRun → HeatRun} : (s.setRun l q f).sense = s.sense := rfl
@[simp] theorem setRun_edge {s : State} {l : LaneId} {q : W32} {f : HeatRun → HeatRun} : (s.setRun l q f).edge = s.edge := rfl
@[simp] theorem setRun_shadows {s : State} {l : LaneId} {q : W32} {f : HeatRun → HeatRun} : (s.setRun l q f).shadows = s.shadows := rfl
@[simp] theorem setRun_free {s : State} {l : LaneId} {q : W32} {f : HeatRun → HeatRun} : (s.setRun l q f).free = s.free := rfl
@[simp] theorem setRun_pending {s : State} {l : LaneId} {q : W32} {f : HeatRun → HeatRun} : (s.setRun l q f).pending = s.pending := rfl

@[simp] theorem govRead_start {s : State} : (s.govRead).start = s.start := rfl
@[simp] theorem govRead_clk {s : State} : (s.govRead).clk = s.clk := rfl
@[simp] theorem govRead_power {s : State} : (s.govRead).power = s.power := rfl
@[simp] theorem govRead_rail {s : State} : (s.govRead).rail = { s.rail with govTick := s.now, govCount := s.shells.map fun (x : Shell) => x.strokes } := rfl
@[simp] theorem govRead_faults {s : State} : (s.govRead).faults = s.faults := rfl
@[simp] theorem govRead_fuse {s : State} : (s.govRead).fuse = s.fuse := rfl
@[simp] theorem govRead_keys {s : State} : (s.govRead).keys = s.keys := rfl
@[simp] theorem govRead_tmr {s : State} : (s.govRead).tmr = s.tmr := rfl
@[simp] theorem govRead_stat {s : State} : (s.govRead).stat = s.stat := rfl
@[simp] theorem govRead_call {s : State} : (s.govRead).call = s.call := rfl
@[simp] theorem govRead_host {s : State} : (s.govRead).host = s.host := rfl
@[simp] theorem govRead_str {s : State} : (s.govRead).str = s.str := rfl
@[simp] theorem govRead_firm {s : State} : (s.govRead).firm = s.firm := rfl
@[simp] theorem govRead_flash {s : State} : (s.govRead).flash = s.flash := rfl
@[simp] theorem govRead_shells {s : State} : (s.govRead).shells = s.shells := rfl
@[simp] theorem govRead_tallies {s : State} : (s.govRead).tallies = s.tallies := rfl
@[simp] theorem govRead_map {s : State} : (s.govRead).map = s.map := rfl
@[simp] theorem govRead_lanes {s : State} : (s.govRead).lanes = s.lanes := rfl
@[simp] theorem govRead_ads {s : State} : (s.govRead).ads = s.ads := rfl
@[simp] theorem govRead_bundles {s : State} : (s.govRead).bundles = s.bundles := rfl
@[simp] theorem govRead_mem {s : State} : (s.govRead).mem = s.mem := rfl
@[simp] theorem govRead_eye {s : State} : (s.govRead).eye = s.eye := rfl
@[simp] theorem govRead_ear {s : State} : (s.govRead).ear = s.ear := rfl
@[simp] theorem govRead_sense {s : State} : (s.govRead).sense = s.sense := rfl
@[simp] theorem govRead_edge {s : State} : (s.govRead).edge = s.edge := rfl
@[simp] theorem govRead_shadows {s : State} : (s.govRead).shadows = s.shadows := rfl
@[simp] theorem govRead_free {s : State} : (s.govRead).free = s.free := rfl
@[simp] theorem govRead_pending {s : State} : (s.govRead).pending = s.pending := rfl

@[simp] theorem measureHeats_start {s : State} : (s.measureHeats).start = s.start := rfl
@[simp] theorem measureHeats_clk {s : State} : (s.measureHeats).clk = s.clk := rfl
@[simp] theorem measureHeats_power {s : State} : (s.measureHeats).power = s.power := rfl
@[simp] theorem measureHeats_rail {s : State} : (s.measureHeats).rail = s.rail := rfl
@[simp] theorem measureHeats_faults {s : State} : (s.measureHeats).faults = s.faults := rfl
@[simp] theorem measureHeats_fuse {s : State} : (s.measureHeats).fuse = s.fuse := rfl
@[simp] theorem measureHeats_keys {s : State} : (s.measureHeats).keys = s.keys := rfl
@[simp] theorem measureHeats_tmr {s : State} : (s.measureHeats).tmr = s.tmr := rfl
@[simp] theorem measureHeats_stat {s : State} : (s.measureHeats).stat = s.stat := rfl
@[simp] theorem measureHeats_call {s : State} : (s.measureHeats).call = s.call := rfl
@[simp] theorem measureHeats_host {s : State} : (s.measureHeats).host = s.host := rfl
@[simp] theorem measureHeats_str {s : State} : (s.measureHeats).str = s.str := rfl
@[simp] theorem measureHeats_firm {s : State} : (s.measureHeats).firm = s.firm := rfl
@[simp] theorem measureHeats_flash {s : State} : (s.measureHeats).flash = s.flash := rfl
@[simp] theorem measureHeats_shells {s : State} : (s.measureHeats).shells = s.shells := rfl
@[simp] theorem measureHeats_tallies {s : State} : (s.measureHeats).tallies = s.tallies := rfl
@[simp] theorem measureHeats_map {s : State} : (s.measureHeats).map = s.map := rfl
@[simp] theorem measureHeats_lanes {s : State} : (s.measureHeats).lanes = s.lanes.map fun (L : Lane) => { L with runs := L.runs.map (HeatRun.measure s) } := rfl
@[simp] theorem measureHeats_ads {s : State} : (s.measureHeats).ads = s.ads := rfl
@[simp] theorem measureHeats_bundles {s : State} : (s.measureHeats).bundles = s.bundles := rfl
@[simp] theorem measureHeats_mem {s : State} : (s.measureHeats).mem = s.mem := rfl
@[simp] theorem measureHeats_eye {s : State} : (s.measureHeats).eye = s.eye := rfl
@[simp] theorem measureHeats_ear {s : State} : (s.measureHeats).ear = s.ear := rfl
@[simp] theorem measureHeats_sense {s : State} : (s.measureHeats).sense = s.sense := rfl
@[simp] theorem measureHeats_edge {s : State} : (s.measureHeats).edge = s.edge := rfl
@[simp] theorem measureHeats_shadows {s : State} : (s.measureHeats).shadows = s.shadows := rfl
@[simp] theorem measureHeats_free {s : State} : (s.measureHeats).free = s.free := rfl
@[simp] theorem measureHeats_pending {s : State} : (s.measureHeats).pending = s.pending := rfl

@[simp] theorem popped_start {s : State} : (s.popped).start = s.start := rfl
@[simp] theorem popped_clk {s : State} : (s.popped).clk = s.clk := rfl
@[simp] theorem popped_power {s : State} : (s.popped).power = s.power := rfl
@[simp] theorem popped_rail {s : State} : (s.popped).rail = s.rail := rfl
@[simp] theorem popped_faults {s : State} : (s.popped).faults = s.faults := rfl
@[simp] theorem popped_fuse {s : State} : (s.popped).fuse = s.fuse := rfl
@[simp] theorem popped_keys {s : State} : (s.popped).keys = s.keys := rfl
@[simp] theorem popped_tmr {s : State} : (s.popped).tmr = s.tmr := rfl
@[simp] theorem popped_stat {s : State} : (s.popped).stat = s.stat := rfl
@[simp] theorem popped_call {s : State} : (s.popped).call = s.call := rfl
@[simp] theorem popped_host {s : State} : (s.popped).host = s.host := rfl
@[simp] theorem popped_str {s : State} : (s.popped).str = s.str := rfl
@[simp] theorem popped_firm {s : State} : (s.popped).firm = s.firm := rfl
@[simp] theorem popped_flash {s : State} : (s.popped).flash = s.flash := rfl
@[simp] theorem popped_shells {s : State} : (s.popped).shells = s.shells := rfl
@[simp] theorem popped_tallies {s : State} : (s.popped).tallies = s.tallies := rfl
@[simp] theorem popped_map {s : State} : (s.popped).map = s.map := rfl
@[simp] theorem popped_lanes {s : State} : (s.popped).lanes = s.lanes := rfl
@[simp] theorem popped_ads {s : State} : (s.popped).ads = s.ads := rfl
@[simp] theorem popped_bundles {s : State} : (s.popped).bundles = s.bundles := rfl
@[simp] theorem popped_mem {s : State} : (s.popped).mem = s.mem := rfl
@[simp] theorem popped_eye {s : State} : (s.popped).eye = s.eye := rfl
@[simp] theorem popped_ear {s : State} : (s.popped).ear = s.ear := rfl
@[simp] theorem popped_sense {s : State} : (s.popped).sense = s.sense := rfl
@[simp] theorem popped_edge {s : State} : (s.popped).edge = s.edge := rfl
@[simp] theorem popped_shadows {s : State} : (s.popped).shadows = s.shadows := rfl
@[simp] theorem popped_free {s : State} : (s.popped).free = s.free := rfl
@[simp] theorem popped_pending {s : State} : (s.popped).pending = s.pending.tail := rfl

@[simp] theorem prompt_start {s : State} : (s.prompt).start = s.start := by
  unfold State.prompt; split <;> rfl
@[simp] theorem prompt_clk {s : State} : (s.prompt).clk = s.clk := by
  unfold State.prompt; split <;> rfl
@[simp] theorem prompt_power {s : State} : (s.prompt).power = s.power := by
  unfold State.prompt; split <;> rfl
@[simp] theorem prompt_rail {s : State} : (s.prompt).rail = s.rail := by
  unfold State.prompt; split <;> rfl
@[simp] theorem prompt_faults {s : State} : (s.prompt).faults = s.faults := by
  unfold State.prompt; split <;> rfl
@[simp] theorem prompt_fuse {s : State} : (s.prompt).fuse = s.fuse := by
  unfold State.prompt; split <;> rfl
@[simp] theorem prompt_keys {s : State} : (s.prompt).keys = s.keys := by
  unfold State.prompt; split <;> rfl
@[simp] theorem prompt_tmr {s : State} : (s.prompt).tmr = s.tmr := by
  unfold State.prompt; split <;> rfl
@[simp] theorem prompt_stat {s : State} : (s.prompt).stat = s.stat := by
  unfold State.prompt; split <;> rfl
@[simp] theorem prompt_host {s : State} : (s.prompt).host = s.host := by
  unfold State.prompt; split <;> rfl
@[simp] theorem prompt_str {s : State} : (s.prompt).str = s.str := by
  unfold State.prompt; split <;> rfl
@[simp] theorem prompt_firm {s : State} : (s.prompt).firm = s.firm := by
  unfold State.prompt; split <;> rfl
@[simp] theorem prompt_flash {s : State} : (s.prompt).flash = s.flash := by
  unfold State.prompt; split <;> rfl
@[simp] theorem prompt_shells {s : State} : (s.prompt).shells = s.shells := by
  unfold State.prompt; split <;> rfl
@[simp] theorem prompt_tallies {s : State} : (s.prompt).tallies = s.tallies := by
  unfold State.prompt; split <;> rfl
@[simp] theorem prompt_map {s : State} : (s.prompt).map = s.map := by
  unfold State.prompt; split <;> rfl
@[simp] theorem prompt_lanes {s : State} : (s.prompt).lanes = s.lanes := by
  unfold State.prompt; split <;> rfl
@[simp] theorem prompt_ads {s : State} : (s.prompt).ads = s.ads := by
  unfold State.prompt; split <;> rfl
@[simp] theorem prompt_bundles {s : State} : (s.prompt).bundles = s.bundles := by
  unfold State.prompt; split <;> rfl
@[simp] theorem prompt_mem {s : State} : (s.prompt).mem = s.mem := by
  unfold State.prompt; split <;> rfl
@[simp] theorem prompt_eye {s : State} : (s.prompt).eye = s.eye := by
  unfold State.prompt; split <;> rfl
@[simp] theorem prompt_ear {s : State} : (s.prompt).ear = s.ear := by
  unfold State.prompt; split <;> rfl
@[simp] theorem prompt_sense {s : State} : (s.prompt).sense = s.sense := by
  unfold State.prompt; split <;> rfl
@[simp] theorem prompt_edge {s : State} : (s.prompt).edge = s.edge := by
  unfold State.prompt; split <;> rfl
@[simp] theorem prompt_shadows {s : State} : (s.prompt).shadows = s.shadows := by
  unfold State.prompt; split <;> rfl
@[simp] theorem prompt_free {s : State} : (s.prompt).free = s.free := by
  unfold State.prompt; split <;> rfl
@[simp] theorem prompt_pending {s : State} : (s.prompt).pending = s.pending := by
  unfold State.prompt; split <;> rfl

@[simp] theorem callEvent_start {s : State} {l : Line} : (s.callEvent l).start = s.start := by
  unfold State.callEvent; split
  · split
    · simp
    · rfl
  · rfl
@[simp] theorem callEvent_clk {s : State} {l : Line} : (s.callEvent l).clk = s.clk := by
  unfold State.callEvent; split
  · split
    · simp
    · rfl
  · rfl
@[simp] theorem callEvent_power {s : State} {l : Line} : (s.callEvent l).power = s.power := by
  unfold State.callEvent; split
  · split
    · simp
    · rfl
  · rfl
@[simp] theorem callEvent_rail {s : State} {l : Line} : (s.callEvent l).rail = s.rail := by
  unfold State.callEvent; split
  · split
    · simp
    · rfl
  · rfl
@[simp] theorem callEvent_faults {s : State} {l : Line} : (s.callEvent l).faults = s.faults := by
  unfold State.callEvent; split
  · split
    · simp
    · rfl
  · rfl
@[simp] theorem callEvent_fuse {s : State} {l : Line} : (s.callEvent l).fuse = s.fuse := by
  unfold State.callEvent; split
  · split
    · simp
    · rfl
  · rfl
@[simp] theorem callEvent_keys {s : State} {l : Line} : (s.callEvent l).keys = s.keys := by
  unfold State.callEvent; split
  · split
    · simp
    · rfl
  · rfl
@[simp] theorem callEvent_tmr {s : State} {l : Line} : (s.callEvent l).tmr = s.tmr := by
  unfold State.callEvent; split
  · split
    · simp
    · rfl
  · rfl
@[simp] theorem callEvent_stat {s : State} {l : Line} : (s.callEvent l).stat = s.stat := by
  unfold State.callEvent; split
  · split
    · simp
    · rfl
  · rfl
@[simp] theorem callEvent_host {s : State} {l : Line} : (s.callEvent l).host = s.host := by
  unfold State.callEvent; split
  · split
    · simp
    · rfl
  · rfl
@[simp] theorem callEvent_str {s : State} {l : Line} : (s.callEvent l).str = s.str := by
  unfold State.callEvent; split
  · split
    · simp
    · rfl
  · rfl
@[simp] theorem callEvent_firm {s : State} {l : Line} : (s.callEvent l).firm = s.firm := by
  unfold State.callEvent; split
  · split
    · simp
    · rfl
  · rfl
@[simp] theorem callEvent_flash {s : State} {l : Line} : (s.callEvent l).flash = s.flash := by
  unfold State.callEvent; split
  · split
    · simp
    · rfl
  · rfl
@[simp] theorem callEvent_shells {s : State} {l : Line} : (s.callEvent l).shells = s.shells := by
  unfold State.callEvent; split
  · split
    · simp
    · rfl
  · rfl
@[simp] theorem callEvent_tallies {s : State} {l : Line} : (s.callEvent l).tallies = s.tallies := by
  unfold State.callEvent; split
  · split
    · simp
    · rfl
  · rfl
@[simp] theorem callEvent_map {s : State} {l : Line} : (s.callEvent l).map = s.map := by
  unfold State.callEvent; split
  · split
    · simp
    · rfl
  · rfl
@[simp] theorem callEvent_lanes {s : State} {l : Line} : (s.callEvent l).lanes = s.lanes := by
  unfold State.callEvent; split
  · split
    · simp
    · rfl
  · rfl
@[simp] theorem callEvent_ads {s : State} {l : Line} : (s.callEvent l).ads = s.ads := by
  unfold State.callEvent; split
  · split
    · simp
    · rfl
  · rfl
@[simp] theorem callEvent_bundles {s : State} {l : Line} : (s.callEvent l).bundles = s.bundles := by
  unfold State.callEvent; split
  · split
    · simp
    · rfl
  · rfl
@[simp] theorem callEvent_mem {s : State} {l : Line} : (s.callEvent l).mem = s.mem := by
  unfold State.callEvent; split
  · split
    · simp
    · rfl
  · rfl
@[simp] theorem callEvent_eye {s : State} {l : Line} : (s.callEvent l).eye = s.eye := by
  unfold State.callEvent; split
  · split
    · simp
    · rfl
  · rfl
@[simp] theorem callEvent_ear {s : State} {l : Line} : (s.callEvent l).ear = s.ear := by
  unfold State.callEvent; split
  · split
    · simp
    · rfl
  · rfl
@[simp] theorem callEvent_sense {s : State} {l : Line} : (s.callEvent l).sense = s.sense := by
  unfold State.callEvent; split
  · split
    · simp
    · rfl
  · rfl
@[simp] theorem callEvent_edge {s : State} {l : Line} : (s.callEvent l).edge = s.edge := by
  unfold State.callEvent; split
  · split
    · simp
    · rfl
  · rfl
@[simp] theorem callEvent_shadows {s : State} {l : Line} : (s.callEvent l).shadows = s.shadows := by
  unfold State.callEvent; split
  · split
    · simp
    · rfl
  · rfl
@[simp] theorem callEvent_free {s : State} {l : Line} : (s.callEvent l).free = s.free := by
  unfold State.callEvent; split
  · split
    · simp
    · rfl
  · rfl
@[simp] theorem callEvent_pending {s : State} {l : Line} : (s.callEvent l).pending = s.pending := by
  unfold State.callEvent; split
  · split
    · simp
    · rfl
  · rfl

@[simp] theorem ringEvent_start {s : State} {l : Line} : (s.ringEvent l).start = s.start := by
  unfold State.ringEvent; dsimp only; generalize (if l.look = true then (0 : Fin 2) else 1) = k; split <;> rfl
@[simp] theorem ringEvent_clk {s : State} {l : Line} : (s.ringEvent l).clk = s.clk := by
  unfold State.ringEvent; dsimp only; generalize (if l.look = true then (0 : Fin 2) else 1) = k; split <;> rfl
@[simp] theorem ringEvent_power {s : State} {l : Line} : (s.ringEvent l).power = s.power := by
  unfold State.ringEvent; dsimp only; generalize (if l.look = true then (0 : Fin 2) else 1) = k; split <;> rfl
@[simp] theorem ringEvent_rail {s : State} {l : Line} : (s.ringEvent l).rail = s.rail := by
  unfold State.ringEvent; dsimp only; generalize (if l.look = true then (0 : Fin 2) else 1) = k; split <;> rfl
@[simp] theorem ringEvent_faults {s : State} {l : Line} : (s.ringEvent l).faults = s.faults := by
  unfold State.ringEvent; dsimp only; generalize (if l.look = true then (0 : Fin 2) else 1) = k; split <;> rfl
@[simp] theorem ringEvent_fuse {s : State} {l : Line} : (s.ringEvent l).fuse = s.fuse := by
  unfold State.ringEvent; dsimp only; generalize (if l.look = true then (0 : Fin 2) else 1) = k; split <;> rfl
@[simp] theorem ringEvent_keys {s : State} {l : Line} : (s.ringEvent l).keys = s.keys := by
  unfold State.ringEvent; dsimp only; generalize (if l.look = true then (0 : Fin 2) else 1) = k; split <;> rfl
@[simp] theorem ringEvent_tmr {s : State} {l : Line} : (s.ringEvent l).tmr = s.tmr := by
  unfold State.ringEvent; dsimp only; generalize (if l.look = true then (0 : Fin 2) else 1) = k; split <;> rfl
@[simp] theorem ringEvent_stat {s : State} {l : Line} : (s.ringEvent l).stat = s.stat := by
  unfold State.ringEvent; dsimp only; generalize (if l.look = true then (0 : Fin 2) else 1) = k; split <;> rfl
@[simp] theorem ringEvent_call {s : State} {l : Line} : (s.ringEvent l).call = s.call := by
  unfold State.ringEvent; dsimp only; generalize (if l.look = true then (0 : Fin 2) else 1) = k; split <;> rfl
@[simp] theorem ringEvent_str {s : State} {l : Line} : (s.ringEvent l).str = s.str := by
  unfold State.ringEvent; dsimp only; generalize (if l.look = true then (0 : Fin 2) else 1) = k; split <;> rfl
@[simp] theorem ringEvent_firm {s : State} {l : Line} : (s.ringEvent l).firm = s.firm := by
  unfold State.ringEvent; dsimp only; generalize (if l.look = true then (0 : Fin 2) else 1) = k; split <;> rfl
@[simp] theorem ringEvent_flash {s : State} {l : Line} : (s.ringEvent l).flash = s.flash := by
  unfold State.ringEvent; dsimp only; generalize (if l.look = true then (0 : Fin 2) else 1) = k; split <;> rfl
@[simp] theorem ringEvent_shells {s : State} {l : Line} : (s.ringEvent l).shells = s.shells := by
  unfold State.ringEvent; dsimp only; generalize (if l.look = true then (0 : Fin 2) else 1) = k; split <;> rfl
@[simp] theorem ringEvent_tallies {s : State} {l : Line} : (s.ringEvent l).tallies = s.tallies := by
  unfold State.ringEvent; dsimp only; generalize (if l.look = true then (0 : Fin 2) else 1) = k; split <;> rfl
@[simp] theorem ringEvent_map {s : State} {l : Line} : (s.ringEvent l).map = s.map := by
  unfold State.ringEvent; dsimp only; generalize (if l.look = true then (0 : Fin 2) else 1) = k; split <;> rfl
@[simp] theorem ringEvent_lanes {s : State} {l : Line} : (s.ringEvent l).lanes = s.lanes := by
  unfold State.ringEvent; dsimp only; generalize (if l.look = true then (0 : Fin 2) else 1) = k; split <;> rfl
@[simp] theorem ringEvent_ads {s : State} {l : Line} : (s.ringEvent l).ads = s.ads := by
  unfold State.ringEvent; dsimp only; generalize (if l.look = true then (0 : Fin 2) else 1) = k; split <;> rfl
@[simp] theorem ringEvent_bundles {s : State} {l : Line} : (s.ringEvent l).bundles = s.bundles := by
  unfold State.ringEvent; dsimp only; generalize (if l.look = true then (0 : Fin 2) else 1) = k; split <;> rfl
@[simp] theorem ringEvent_mem {s : State} {l : Line} : (s.ringEvent l).mem = s.mem := by
  unfold State.ringEvent; dsimp only; generalize (if l.look = true then (0 : Fin 2) else 1) = k; split <;> rfl
@[simp] theorem ringEvent_eye {s : State} {l : Line} : (s.ringEvent l).eye = s.eye := by
  unfold State.ringEvent; dsimp only; generalize (if l.look = true then (0 : Fin 2) else 1) = k; split <;> rfl
@[simp] theorem ringEvent_ear {s : State} {l : Line} : (s.ringEvent l).ear = s.ear := by
  unfold State.ringEvent; dsimp only; generalize (if l.look = true then (0 : Fin 2) else 1) = k; split <;> rfl
@[simp] theorem ringEvent_sense {s : State} {l : Line} : (s.ringEvent l).sense = s.sense := by
  unfold State.ringEvent; dsimp only; generalize (if l.look = true then (0 : Fin 2) else 1) = k; split <;> rfl
@[simp] theorem ringEvent_edge {s : State} {l : Line} : (s.ringEvent l).edge = s.edge := by
  unfold State.ringEvent; dsimp only; generalize (if l.look = true then (0 : Fin 2) else 1) = k; split <;> rfl
@[simp] theorem ringEvent_shadows {s : State} {l : Line} : (s.ringEvent l).shadows = s.shadows := by
  unfold State.ringEvent; dsimp only; generalize (if l.look = true then (0 : Fin 2) else 1) = k; split <;> rfl
@[simp] theorem ringEvent_free {s : State} {l : Line} : (s.ringEvent l).free = s.free := by
  unfold State.ringEvent; dsimp only; generalize (if l.look = true then (0 : Fin 2) else 1) = k; split <;> rfl
@[simp] theorem ringEvent_pending {s : State} {l : Line} : (s.ringEvent l).pending = s.pending := by
  unfold State.ringEvent; dsimp only; generalize (if l.look = true then (0 : Fin 2) else 1) = k; split <;> rfl

@[simp] theorem raise_clk {s : State} {l : Line} : (s.raise l).clk = s.clk := by
  unfold State.raise; split
  · simp
  · rfl
@[simp] theorem raise_power {s : State} {l : Line} : (s.raise l).power = s.power := by
  unfold State.raise; split
  · simp
  · rfl
@[simp] theorem raise_rail {s : State} {l : Line} : (s.raise l).rail = s.rail := by
  unfold State.raise; split
  · simp
  · rfl
@[simp] theorem raise_faults {s : State} {l : Line} : (s.raise l).faults = s.faults := by
  unfold State.raise; split
  · simp
  · rfl
@[simp] theorem raise_fuse {s : State} {l : Line} : (s.raise l).fuse = s.fuse := by
  unfold State.raise; split
  · simp
  · rfl
@[simp] theorem raise_keys {s : State} {l : Line} : (s.raise l).keys = s.keys := by
  unfold State.raise; split
  · simp
  · rfl
@[simp] theorem raise_tmr {s : State} {l : Line} : (s.raise l).tmr = s.tmr := by
  unfold State.raise; split
  · simp
  · rfl
@[simp] theorem raise_stat {s : State} {l : Line} : (s.raise l).stat = s.stat := by
  unfold State.raise; split
  · simp
  · rfl
@[simp] theorem raise_str {s : State} {l : Line} : (s.raise l).str = s.str := by
  unfold State.raise; split
  · simp
  · rfl
@[simp] theorem raise_firm {s : State} {l : Line} : (s.raise l).firm = s.firm := by
  unfold State.raise; split
  · simp
  · rfl
@[simp] theorem raise_flash {s : State} {l : Line} : (s.raise l).flash = s.flash := by
  unfold State.raise; split
  · simp
  · rfl
@[simp] theorem raise_shells {s : State} {l : Line} : (s.raise l).shells = s.shells := by
  unfold State.raise; split
  · simp
  · rfl
@[simp] theorem raise_tallies {s : State} {l : Line} : (s.raise l).tallies = s.tallies := by
  unfold State.raise; split
  · simp
  · rfl
@[simp] theorem raise_map {s : State} {l : Line} : (s.raise l).map = s.map := by
  unfold State.raise; split
  · simp
  · rfl
@[simp] theorem raise_lanes {s : State} {l : Line} : (s.raise l).lanes = s.lanes := by
  unfold State.raise; split
  · simp
  · rfl
@[simp] theorem raise_ads {s : State} {l : Line} : (s.raise l).ads = s.ads := by
  unfold State.raise; split
  · simp
  · rfl
@[simp] theorem raise_bundles {s : State} {l : Line} : (s.raise l).bundles = s.bundles := by
  unfold State.raise; split
  · simp
  · rfl
@[simp] theorem raise_mem {s : State} {l : Line} : (s.raise l).mem = s.mem := by
  unfold State.raise; split
  · simp
  · rfl
@[simp] theorem raise_eye {s : State} {l : Line} : (s.raise l).eye = s.eye := by
  unfold State.raise; split
  · simp
  · rfl
@[simp] theorem raise_ear {s : State} {l : Line} : (s.raise l).ear = s.ear := by
  unfold State.raise; split
  · simp
  · rfl
@[simp] theorem raise_sense {s : State} {l : Line} : (s.raise l).sense = s.sense := by
  unfold State.raise; split
  · simp
  · rfl
@[simp] theorem raise_edge {s : State} {l : Line} : (s.raise l).edge = s.edge := by
  unfold State.raise; split
  · simp
  · rfl
@[simp] theorem raise_shadows {s : State} {l : Line} : (s.raise l).shadows = s.shadows := by
  unfold State.raise; split
  · simp
  · rfl
@[simp] theorem raise_free {s : State} {l : Line} : (s.raise l).free = s.free := by
  unfold State.raise; split
  · simp
  · rfl
@[simp] theorem raise_pending {s : State} {l : Line} : (s.raise l).pending = s.pending := by
  unfold State.raise; split
  · simp
  · rfl

@[simp] theorem txLines_start {s : State} {ls : List Line} : (ls.foldl State.tx s).start = s.start := by
  induction ls generalizing s with
  | nil => rfl
  | cons l r ih => simp [ih]
@[simp] theorem txLines_clk {s : State} {ls : List Line} : (ls.foldl State.tx s).clk = s.clk := by
  induction ls generalizing s with
  | nil => rfl
  | cons l r ih => simp [ih]
@[simp] theorem txLines_power {s : State} {ls : List Line} : (ls.foldl State.tx s).power = s.power := by
  induction ls generalizing s with
  | nil => rfl
  | cons l r ih => simp [ih]
@[simp] theorem txLines_rail {s : State} {ls : List Line} : (ls.foldl State.tx s).rail = s.rail := by
  induction ls generalizing s with
  | nil => rfl
  | cons l r ih => simp [ih]
@[simp] theorem txLines_faults {s : State} {ls : List Line} : (ls.foldl State.tx s).faults = s.faults := by
  induction ls generalizing s with
  | nil => rfl
  | cons l r ih => simp [ih]
@[simp] theorem txLines_fuse {s : State} {ls : List Line} : (ls.foldl State.tx s).fuse = s.fuse := by
  induction ls generalizing s with
  | nil => rfl
  | cons l r ih => simp [ih]
@[simp] theorem txLines_keys {s : State} {ls : List Line} : (ls.foldl State.tx s).keys = s.keys := by
  induction ls generalizing s with
  | nil => rfl
  | cons l r ih => simp [ih]
@[simp] theorem txLines_tmr {s : State} {ls : List Line} : (ls.foldl State.tx s).tmr = s.tmr := by
  induction ls generalizing s with
  | nil => rfl
  | cons l r ih => simp [ih]
@[simp] theorem txLines_stat {s : State} {ls : List Line} : (ls.foldl State.tx s).stat = s.stat := by
  induction ls generalizing s with
  | nil => rfl
  | cons l r ih => simp [ih]
@[simp] theorem txLines_host {s : State} {ls : List Line} : (ls.foldl State.tx s).host = s.host := by
  induction ls generalizing s with
  | nil => rfl
  | cons l r ih => simp [ih]
@[simp] theorem txLines_str {s : State} {ls : List Line} : (ls.foldl State.tx s).str = s.str := by
  induction ls generalizing s with
  | nil => rfl
  | cons l r ih => simp [ih]
@[simp] theorem txLines_firm {s : State} {ls : List Line} : (ls.foldl State.tx s).firm = s.firm := by
  induction ls generalizing s with
  | nil => rfl
  | cons l r ih => simp [ih]
@[simp] theorem txLines_flash {s : State} {ls : List Line} : (ls.foldl State.tx s).flash = s.flash := by
  induction ls generalizing s with
  | nil => rfl
  | cons l r ih => simp [ih]
@[simp] theorem txLines_shells {s : State} {ls : List Line} : (ls.foldl State.tx s).shells = s.shells := by
  induction ls generalizing s with
  | nil => rfl
  | cons l r ih => simp [ih]
@[simp] theorem txLines_tallies {s : State} {ls : List Line} : (ls.foldl State.tx s).tallies = s.tallies := by
  induction ls generalizing s with
  | nil => rfl
  | cons l r ih => simp [ih]
@[simp] theorem txLines_map {s : State} {ls : List Line} : (ls.foldl State.tx s).map = s.map := by
  induction ls generalizing s with
  | nil => rfl
  | cons l r ih => simp [ih]
@[simp] theorem txLines_lanes {s : State} {ls : List Line} : (ls.foldl State.tx s).lanes = s.lanes := by
  induction ls generalizing s with
  | nil => rfl
  | cons l r ih => simp [ih]
@[simp] theorem txLines_ads {s : State} {ls : List Line} : (ls.foldl State.tx s).ads = s.ads := by
  induction ls generalizing s with
  | nil => rfl
  | cons l r ih => simp [ih]
@[simp] theorem txLines_bundles {s : State} {ls : List Line} : (ls.foldl State.tx s).bundles = s.bundles := by
  induction ls generalizing s with
  | nil => rfl
  | cons l r ih => simp [ih]
@[simp] theorem txLines_mem {s : State} {ls : List Line} : (ls.foldl State.tx s).mem = s.mem := by
  induction ls generalizing s with
  | nil => rfl
  | cons l r ih => simp [ih]
@[simp] theorem txLines_eye {s : State} {ls : List Line} : (ls.foldl State.tx s).eye = s.eye := by
  induction ls generalizing s with
  | nil => rfl
  | cons l r ih => simp [ih]
@[simp] theorem txLines_ear {s : State} {ls : List Line} : (ls.foldl State.tx s).ear = s.ear := by
  induction ls generalizing s with
  | nil => rfl
  | cons l r ih => simp [ih]
@[simp] theorem txLines_sense {s : State} {ls : List Line} : (ls.foldl State.tx s).sense = s.sense := by
  induction ls generalizing s with
  | nil => rfl
  | cons l r ih => simp [ih]
@[simp] theorem txLines_edge {s : State} {ls : List Line} : (ls.foldl State.tx s).edge = s.edge := by
  induction ls generalizing s with
  | nil => rfl
  | cons l r ih => simp [ih]
@[simp] theorem txLines_shadows {s : State} {ls : List Line} : (ls.foldl State.tx s).shadows = s.shadows := by
  induction ls generalizing s with
  | nil => rfl
  | cons l r ih => simp [ih]
@[simp] theorem txLines_free {s : State} {ls : List Line} : (ls.foldl State.tx s).free = s.free := by
  induction ls generalizing s with
  | nil => rfl
  | cons l r ih => simp [ih]
@[simp] theorem txLines_pending {s : State} {ls : List Line} : (ls.foldl State.tx s).pending = s.pending := by
  induction ls generalizing s with
  | nil => rfl
  | cons l r ih => simp [ih]

@[simp] theorem reply_start {s : State} {c : Caller} {ls : List Line} : (s.reply c ls).start = s.start := by
  unfold State.reply; split
  · simp
  · simp
@[simp] theorem reply_clk {s : State} {c : Caller} {ls : List Line} : (s.reply c ls).clk = s.clk := by
  unfold State.reply; split
  · simp
  · simp
@[simp] theorem reply_power {s : State} {c : Caller} {ls : List Line} : (s.reply c ls).power = s.power := by
  unfold State.reply; split
  · simp
  · simp
@[simp] theorem reply_rail {s : State} {c : Caller} {ls : List Line} : (s.reply c ls).rail = s.rail := by
  unfold State.reply; split
  · simp
  · simp
@[simp] theorem reply_faults {s : State} {c : Caller} {ls : List Line} : (s.reply c ls).faults = s.faults := by
  unfold State.reply; split
  · simp
  · simp
@[simp] theorem reply_fuse {s : State} {c : Caller} {ls : List Line} : (s.reply c ls).fuse = s.fuse := by
  unfold State.reply; split
  · simp
  · simp
@[simp] theorem reply_keys {s : State} {c : Caller} {ls : List Line} : (s.reply c ls).keys = s.keys := by
  unfold State.reply; split
  · simp
  · simp
@[simp] theorem reply_tmr {s : State} {c : Caller} {ls : List Line} : (s.reply c ls).tmr = s.tmr := by
  unfold State.reply; split
  · simp
  · simp
@[simp] theorem reply_stat {s : State} {c : Caller} {ls : List Line} : (s.reply c ls).stat = s.stat := by
  unfold State.reply; split
  · simp
  · simp
@[simp] theorem reply_str {s : State} {c : Caller} {ls : List Line} : (s.reply c ls).str = s.str := by
  unfold State.reply; split
  · simp
  · simp
@[simp] theorem reply_firm {s : State} {c : Caller} {ls : List Line} : (s.reply c ls).firm = s.firm := by
  unfold State.reply; split
  · simp
  · simp
@[simp] theorem reply_flash {s : State} {c : Caller} {ls : List Line} : (s.reply c ls).flash = s.flash := by
  unfold State.reply; split
  · simp
  · simp
@[simp] theorem reply_shells {s : State} {c : Caller} {ls : List Line} : (s.reply c ls).shells = s.shells := by
  unfold State.reply; split
  · simp
  · simp
@[simp] theorem reply_tallies {s : State} {c : Caller} {ls : List Line} : (s.reply c ls).tallies = s.tallies := by
  unfold State.reply; split
  · simp
  · simp
@[simp] theorem reply_map {s : State} {c : Caller} {ls : List Line} : (s.reply c ls).map = s.map := by
  unfold State.reply; split
  · simp
  · simp
@[simp] theorem reply_lanes {s : State} {c : Caller} {ls : List Line} : (s.reply c ls).lanes = s.lanes := by
  unfold State.reply; split
  · simp
  · simp
@[simp] theorem reply_ads {s : State} {c : Caller} {ls : List Line} : (s.reply c ls).ads = s.ads := by
  unfold State.reply; split
  · simp
  · simp
@[simp] theorem reply_bundles {s : State} {c : Caller} {ls : List Line} : (s.reply c ls).bundles = s.bundles := by
  unfold State.reply; split
  · simp
  · simp
@[simp] theorem reply_mem {s : State} {c : Caller} {ls : List Line} : (s.reply c ls).mem = s.mem := by
  unfold State.reply; split
  · simp
  · simp
@[simp] theorem reply_eye {s : State} {c : Caller} {ls : List Line} : (s.reply c ls).eye = s.eye := by
  unfold State.reply; split
  · simp
  · simp
@[simp] theorem reply_ear {s : State} {c : Caller} {ls : List Line} : (s.reply c ls).ear = s.ear := by
  unfold State.reply; split
  · simp
  · simp
@[simp] theorem reply_sense {s : State} {c : Caller} {ls : List Line} : (s.reply c ls).sense = s.sense := by
  unfold State.reply; split
  · simp
  · simp
@[simp] theorem reply_edge {s : State} {c : Caller} {ls : List Line} : (s.reply c ls).edge = s.edge := by
  unfold State.reply; split
  · simp
  · simp
@[simp] theorem reply_shadows {s : State} {c : Caller} {ls : List Line} : (s.reply c ls).shadows = s.shadows := by
  unfold State.reply; split
  · simp
  · simp
@[simp] theorem reply_free {s : State} {c : Caller} {ls : List Line} : (s.reply c ls).free = s.free := by
  unfold State.reply; split
  · simp
  · simp
@[simp] theorem reply_pending {s : State} {c : Caller} {ls : List Line} : (s.reply c ls).pending = s.pending := by
  unfold State.reply; split
  · simp
  · simp

@[simp] theorem okWith_start {s : State} {c : Caller} {ds : List (List (String × Val))} {v : String} {fs : List (String × Val)} : (s.okWith c ds v fs).start = s.start := by
  simp [State.okWith]
@[simp] theorem okWith_clk {s : State} {c : Caller} {ds : List (List (String × Val))} {v : String} {fs : List (String × Val)} : (s.okWith c ds v fs).clk = s.clk := by
  simp [State.okWith]
@[simp] theorem okWith_power {s : State} {c : Caller} {ds : List (List (String × Val))} {v : String} {fs : List (String × Val)} : (s.okWith c ds v fs).power = s.power := by
  simp [State.okWith]
@[simp] theorem okWith_rail {s : State} {c : Caller} {ds : List (List (String × Val))} {v : String} {fs : List (String × Val)} : (s.okWith c ds v fs).rail = s.rail := by
  simp [State.okWith]
@[simp] theorem okWith_faults {s : State} {c : Caller} {ds : List (List (String × Val))} {v : String} {fs : List (String × Val)} : (s.okWith c ds v fs).faults = s.faults := by
  simp [State.okWith]
@[simp] theorem okWith_fuse {s : State} {c : Caller} {ds : List (List (String × Val))} {v : String} {fs : List (String × Val)} : (s.okWith c ds v fs).fuse = s.fuse := by
  simp [State.okWith]
@[simp] theorem okWith_keys {s : State} {c : Caller} {ds : List (List (String × Val))} {v : String} {fs : List (String × Val)} : (s.okWith c ds v fs).keys = s.keys := by
  simp [State.okWith]
@[simp] theorem okWith_tmr {s : State} {c : Caller} {ds : List (List (String × Val))} {v : String} {fs : List (String × Val)} : (s.okWith c ds v fs).tmr = s.tmr := by
  simp [State.okWith]
@[simp] theorem okWith_stat {s : State} {c : Caller} {ds : List (List (String × Val))} {v : String} {fs : List (String × Val)} : (s.okWith c ds v fs).stat = s.stat := by
  simp [State.okWith]
@[simp] theorem okWith_str {s : State} {c : Caller} {ds : List (List (String × Val))} {v : String} {fs : List (String × Val)} : (s.okWith c ds v fs).str = s.str := by
  simp [State.okWith]
@[simp] theorem okWith_firm {s : State} {c : Caller} {ds : List (List (String × Val))} {v : String} {fs : List (String × Val)} : (s.okWith c ds v fs).firm = s.firm := by
  simp [State.okWith]
@[simp] theorem okWith_flash {s : State} {c : Caller} {ds : List (List (String × Val))} {v : String} {fs : List (String × Val)} : (s.okWith c ds v fs).flash = s.flash := by
  simp [State.okWith]
@[simp] theorem okWith_shells {s : State} {c : Caller} {ds : List (List (String × Val))} {v : String} {fs : List (String × Val)} : (s.okWith c ds v fs).shells = s.shells := by
  simp [State.okWith]
@[simp] theorem okWith_tallies {s : State} {c : Caller} {ds : List (List (String × Val))} {v : String} {fs : List (String × Val)} : (s.okWith c ds v fs).tallies = s.tallies := by
  simp [State.okWith]
@[simp] theorem okWith_map {s : State} {c : Caller} {ds : List (List (String × Val))} {v : String} {fs : List (String × Val)} : (s.okWith c ds v fs).map = s.map := by
  simp [State.okWith]
@[simp] theorem okWith_lanes {s : State} {c : Caller} {ds : List (List (String × Val))} {v : String} {fs : List (String × Val)} : (s.okWith c ds v fs).lanes = s.lanes := by
  simp [State.okWith]
@[simp] theorem okWith_ads {s : State} {c : Caller} {ds : List (List (String × Val))} {v : String} {fs : List (String × Val)} : (s.okWith c ds v fs).ads = s.ads := by
  simp [State.okWith]
@[simp] theorem okWith_bundles {s : State} {c : Caller} {ds : List (List (String × Val))} {v : String} {fs : List (String × Val)} : (s.okWith c ds v fs).bundles = s.bundles := by
  simp [State.okWith]
@[simp] theorem okWith_mem {s : State} {c : Caller} {ds : List (List (String × Val))} {v : String} {fs : List (String × Val)} : (s.okWith c ds v fs).mem = s.mem := by
  simp [State.okWith]
@[simp] theorem okWith_eye {s : State} {c : Caller} {ds : List (List (String × Val))} {v : String} {fs : List (String × Val)} : (s.okWith c ds v fs).eye = s.eye := by
  simp [State.okWith]
@[simp] theorem okWith_ear {s : State} {c : Caller} {ds : List (List (String × Val))} {v : String} {fs : List (String × Val)} : (s.okWith c ds v fs).ear = s.ear := by
  simp [State.okWith]
@[simp] theorem okWith_sense {s : State} {c : Caller} {ds : List (List (String × Val))} {v : String} {fs : List (String × Val)} : (s.okWith c ds v fs).sense = s.sense := by
  simp [State.okWith]
@[simp] theorem okWith_edge {s : State} {c : Caller} {ds : List (List (String × Val))} {v : String} {fs : List (String × Val)} : (s.okWith c ds v fs).edge = s.edge := by
  simp [State.okWith]
@[simp] theorem okWith_shadows {s : State} {c : Caller} {ds : List (List (String × Val))} {v : String} {fs : List (String × Val)} : (s.okWith c ds v fs).shadows = s.shadows := by
  simp [State.okWith]
@[simp] theorem okWith_free {s : State} {c : Caller} {ds : List (List (String × Val))} {v : String} {fs : List (String × Val)} : (s.okWith c ds v fs).free = s.free := by
  simp [State.okWith]
@[simp] theorem okWith_pending {s : State} {c : Caller} {ds : List (List (String × Val))} {v : String} {fs : List (String × Val)} : (s.okWith c ds v fs).pending = s.pending := by
  simp [State.okWith]

@[simp] theorem ok_start {s : State} {c : Caller} {v : String} {fs : List (String × Val)} : (s.ok c v fs).start = s.start := by
  simp [State.ok]
@[simp] theorem ok_clk {s : State} {c : Caller} {v : String} {fs : List (String × Val)} : (s.ok c v fs).clk = s.clk := by
  simp [State.ok]
@[simp] theorem ok_power {s : State} {c : Caller} {v : String} {fs : List (String × Val)} : (s.ok c v fs).power = s.power := by
  simp [State.ok]
@[simp] theorem ok_rail {s : State} {c : Caller} {v : String} {fs : List (String × Val)} : (s.ok c v fs).rail = s.rail := by
  simp [State.ok]
@[simp] theorem ok_faults {s : State} {c : Caller} {v : String} {fs : List (String × Val)} : (s.ok c v fs).faults = s.faults := by
  simp [State.ok]
@[simp] theorem ok_fuse {s : State} {c : Caller} {v : String} {fs : List (String × Val)} : (s.ok c v fs).fuse = s.fuse := by
  simp [State.ok]
@[simp] theorem ok_keys {s : State} {c : Caller} {v : String} {fs : List (String × Val)} : (s.ok c v fs).keys = s.keys := by
  simp [State.ok]
@[simp] theorem ok_tmr {s : State} {c : Caller} {v : String} {fs : List (String × Val)} : (s.ok c v fs).tmr = s.tmr := by
  simp [State.ok]
@[simp] theorem ok_stat {s : State} {c : Caller} {v : String} {fs : List (String × Val)} : (s.ok c v fs).stat = s.stat := by
  simp [State.ok]
@[simp] theorem ok_str {s : State} {c : Caller} {v : String} {fs : List (String × Val)} : (s.ok c v fs).str = s.str := by
  simp [State.ok]
@[simp] theorem ok_firm {s : State} {c : Caller} {v : String} {fs : List (String × Val)} : (s.ok c v fs).firm = s.firm := by
  simp [State.ok]
@[simp] theorem ok_flash {s : State} {c : Caller} {v : String} {fs : List (String × Val)} : (s.ok c v fs).flash = s.flash := by
  simp [State.ok]
@[simp] theorem ok_shells {s : State} {c : Caller} {v : String} {fs : List (String × Val)} : (s.ok c v fs).shells = s.shells := by
  simp [State.ok]
@[simp] theorem ok_tallies {s : State} {c : Caller} {v : String} {fs : List (String × Val)} : (s.ok c v fs).tallies = s.tallies := by
  simp [State.ok]
@[simp] theorem ok_map {s : State} {c : Caller} {v : String} {fs : List (String × Val)} : (s.ok c v fs).map = s.map := by
  simp [State.ok]
@[simp] theorem ok_lanes {s : State} {c : Caller} {v : String} {fs : List (String × Val)} : (s.ok c v fs).lanes = s.lanes := by
  simp [State.ok]
@[simp] theorem ok_ads {s : State} {c : Caller} {v : String} {fs : List (String × Val)} : (s.ok c v fs).ads = s.ads := by
  simp [State.ok]
@[simp] theorem ok_bundles {s : State} {c : Caller} {v : String} {fs : List (String × Val)} : (s.ok c v fs).bundles = s.bundles := by
  simp [State.ok]
@[simp] theorem ok_mem {s : State} {c : Caller} {v : String} {fs : List (String × Val)} : (s.ok c v fs).mem = s.mem := by
  simp [State.ok]
@[simp] theorem ok_eye {s : State} {c : Caller} {v : String} {fs : List (String × Val)} : (s.ok c v fs).eye = s.eye := by
  simp [State.ok]
@[simp] theorem ok_ear {s : State} {c : Caller} {v : String} {fs : List (String × Val)} : (s.ok c v fs).ear = s.ear := by
  simp [State.ok]
@[simp] theorem ok_sense {s : State} {c : Caller} {v : String} {fs : List (String × Val)} : (s.ok c v fs).sense = s.sense := by
  simp [State.ok]
@[simp] theorem ok_edge {s : State} {c : Caller} {v : String} {fs : List (String × Val)} : (s.ok c v fs).edge = s.edge := by
  simp [State.ok]
@[simp] theorem ok_shadows {s : State} {c : Caller} {v : String} {fs : List (String × Val)} : (s.ok c v fs).shadows = s.shadows := by
  simp [State.ok]
@[simp] theorem ok_free {s : State} {c : Caller} {v : String} {fs : List (String × Val)} : (s.ok c v fs).free = s.free := by
  simp [State.ok]
@[simp] theorem ok_pending {s : State} {c : Caller} {v : String} {fs : List (String × Val)} : (s.ok c v fs).pending = s.pending := by
  simp [State.ok]

@[simp] theorem failWith_start {s : State} {c : Caller} {v : String} {e : Err} {fs : List (String × Val)} : (s.failWith c v e fs).start = s.start := by
  simp [State.failWith]
@[simp] theorem failWith_clk {s : State} {c : Caller} {v : String} {e : Err} {fs : List (String × Val)} : (s.failWith c v e fs).clk = s.clk := by
  simp [State.failWith]
@[simp] theorem failWith_power {s : State} {c : Caller} {v : String} {e : Err} {fs : List (String × Val)} : (s.failWith c v e fs).power = s.power := by
  simp [State.failWith]
@[simp] theorem failWith_rail {s : State} {c : Caller} {v : String} {e : Err} {fs : List (String × Val)} : (s.failWith c v e fs).rail = s.rail := by
  simp [State.failWith]
@[simp] theorem failWith_faults {s : State} {c : Caller} {v : String} {e : Err} {fs : List (String × Val)} : (s.failWith c v e fs).faults = s.faults := by
  simp [State.failWith]
@[simp] theorem failWith_fuse {s : State} {c : Caller} {v : String} {e : Err} {fs : List (String × Val)} : (s.failWith c v e fs).fuse = s.fuse := by
  simp [State.failWith]
@[simp] theorem failWith_keys {s : State} {c : Caller} {v : String} {e : Err} {fs : List (String × Val)} : (s.failWith c v e fs).keys = s.keys := by
  simp [State.failWith]
@[simp] theorem failWith_tmr {s : State} {c : Caller} {v : String} {e : Err} {fs : List (String × Val)} : (s.failWith c v e fs).tmr = s.tmr := by
  simp [State.failWith]
@[simp] theorem failWith_stat {s : State} {c : Caller} {v : String} {e : Err} {fs : List (String × Val)} : (s.failWith c v e fs).stat = s.stat := by
  simp [State.failWith]
@[simp] theorem failWith_str {s : State} {c : Caller} {v : String} {e : Err} {fs : List (String × Val)} : (s.failWith c v e fs).str = s.str := by
  simp [State.failWith]
@[simp] theorem failWith_firm {s : State} {c : Caller} {v : String} {e : Err} {fs : List (String × Val)} : (s.failWith c v e fs).firm = s.firm := by
  simp [State.failWith]
@[simp] theorem failWith_flash {s : State} {c : Caller} {v : String} {e : Err} {fs : List (String × Val)} : (s.failWith c v e fs).flash = s.flash := by
  simp [State.failWith]
@[simp] theorem failWith_shells {s : State} {c : Caller} {v : String} {e : Err} {fs : List (String × Val)} : (s.failWith c v e fs).shells = s.shells := by
  simp [State.failWith]
@[simp] theorem failWith_tallies {s : State} {c : Caller} {v : String} {e : Err} {fs : List (String × Val)} : (s.failWith c v e fs).tallies = s.tallies := by
  simp [State.failWith]
@[simp] theorem failWith_map {s : State} {c : Caller} {v : String} {e : Err} {fs : List (String × Val)} : (s.failWith c v e fs).map = s.map := by
  simp [State.failWith]
@[simp] theorem failWith_lanes {s : State} {c : Caller} {v : String} {e : Err} {fs : List (String × Val)} : (s.failWith c v e fs).lanes = s.lanes := by
  simp [State.failWith]
@[simp] theorem failWith_ads {s : State} {c : Caller} {v : String} {e : Err} {fs : List (String × Val)} : (s.failWith c v e fs).ads = s.ads := by
  simp [State.failWith]
@[simp] theorem failWith_bundles {s : State} {c : Caller} {v : String} {e : Err} {fs : List (String × Val)} : (s.failWith c v e fs).bundles = s.bundles := by
  simp [State.failWith]
@[simp] theorem failWith_mem {s : State} {c : Caller} {v : String} {e : Err} {fs : List (String × Val)} : (s.failWith c v e fs).mem = s.mem := by
  simp [State.failWith]
@[simp] theorem failWith_eye {s : State} {c : Caller} {v : String} {e : Err} {fs : List (String × Val)} : (s.failWith c v e fs).eye = s.eye := by
  simp [State.failWith]
@[simp] theorem failWith_ear {s : State} {c : Caller} {v : String} {e : Err} {fs : List (String × Val)} : (s.failWith c v e fs).ear = s.ear := by
  simp [State.failWith]
@[simp] theorem failWith_sense {s : State} {c : Caller} {v : String} {e : Err} {fs : List (String × Val)} : (s.failWith c v e fs).sense = s.sense := by
  simp [State.failWith]
@[simp] theorem failWith_edge {s : State} {c : Caller} {v : String} {e : Err} {fs : List (String × Val)} : (s.failWith c v e fs).edge = s.edge := by
  simp [State.failWith]
@[simp] theorem failWith_shadows {s : State} {c : Caller} {v : String} {e : Err} {fs : List (String × Val)} : (s.failWith c v e fs).shadows = s.shadows := by
  simp [State.failWith]
@[simp] theorem failWith_free {s : State} {c : Caller} {v : String} {e : Err} {fs : List (String × Val)} : (s.failWith c v e fs).free = s.free := by
  simp [State.failWith]
@[simp] theorem failWith_pending {s : State} {c : Caller} {v : String} {e : Err} {fs : List (String × Val)} : (s.failWith c v e fs).pending = s.pending := by
  simp [State.failWith]

@[simp] theorem fail_start {s : State} {c : Caller} {v : String} {e : Err} : (s.fail c v e).start = s.start := by
  simp [State.fail]
@[simp] theorem fail_clk {s : State} {c : Caller} {v : String} {e : Err} : (s.fail c v e).clk = s.clk := by
  simp [State.fail]
@[simp] theorem fail_power {s : State} {c : Caller} {v : String} {e : Err} : (s.fail c v e).power = s.power := by
  simp [State.fail]
@[simp] theorem fail_rail {s : State} {c : Caller} {v : String} {e : Err} : (s.fail c v e).rail = s.rail := by
  simp [State.fail]
@[simp] theorem fail_faults {s : State} {c : Caller} {v : String} {e : Err} : (s.fail c v e).faults = s.faults := by
  simp [State.fail]
@[simp] theorem fail_fuse {s : State} {c : Caller} {v : String} {e : Err} : (s.fail c v e).fuse = s.fuse := by
  simp [State.fail]
@[simp] theorem fail_keys {s : State} {c : Caller} {v : String} {e : Err} : (s.fail c v e).keys = s.keys := by
  simp [State.fail]
@[simp] theorem fail_tmr {s : State} {c : Caller} {v : String} {e : Err} : (s.fail c v e).tmr = s.tmr := by
  simp [State.fail]
@[simp] theorem fail_stat {s : State} {c : Caller} {v : String} {e : Err} : (s.fail c v e).stat = s.stat := by
  simp [State.fail]
@[simp] theorem fail_str {s : State} {c : Caller} {v : String} {e : Err} : (s.fail c v e).str = s.str := by
  simp [State.fail]
@[simp] theorem fail_firm {s : State} {c : Caller} {v : String} {e : Err} : (s.fail c v e).firm = s.firm := by
  simp [State.fail]
@[simp] theorem fail_flash {s : State} {c : Caller} {v : String} {e : Err} : (s.fail c v e).flash = s.flash := by
  simp [State.fail]
@[simp] theorem fail_shells {s : State} {c : Caller} {v : String} {e : Err} : (s.fail c v e).shells = s.shells := by
  simp [State.fail]
@[simp] theorem fail_tallies {s : State} {c : Caller} {v : String} {e : Err} : (s.fail c v e).tallies = s.tallies := by
  simp [State.fail]
@[simp] theorem fail_map {s : State} {c : Caller} {v : String} {e : Err} : (s.fail c v e).map = s.map := by
  simp [State.fail]
@[simp] theorem fail_lanes {s : State} {c : Caller} {v : String} {e : Err} : (s.fail c v e).lanes = s.lanes := by
  simp [State.fail]
@[simp] theorem fail_ads {s : State} {c : Caller} {v : String} {e : Err} : (s.fail c v e).ads = s.ads := by
  simp [State.fail]
@[simp] theorem fail_bundles {s : State} {c : Caller} {v : String} {e : Err} : (s.fail c v e).bundles = s.bundles := by
  simp [State.fail]
@[simp] theorem fail_mem {s : State} {c : Caller} {v : String} {e : Err} : (s.fail c v e).mem = s.mem := by
  simp [State.fail]
@[simp] theorem fail_eye {s : State} {c : Caller} {v : String} {e : Err} : (s.fail c v e).eye = s.eye := by
  simp [State.fail]
@[simp] theorem fail_ear {s : State} {c : Caller} {v : String} {e : Err} : (s.fail c v e).ear = s.ear := by
  simp [State.fail]
@[simp] theorem fail_sense {s : State} {c : Caller} {v : String} {e : Err} : (s.fail c v e).sense = s.sense := by
  simp [State.fail]
@[simp] theorem fail_edge {s : State} {c : Caller} {v : String} {e : Err} : (s.fail c v e).edge = s.edge := by
  simp [State.fail]
@[simp] theorem fail_shadows {s : State} {c : Caller} {v : String} {e : Err} : (s.fail c v e).shadows = s.shadows := by
  simp [State.fail]
@[simp] theorem fail_free {s : State} {c : Caller} {v : String} {e : Err} : (s.fail c v e).free = s.free := by
  simp [State.fail]
@[simp] theorem fail_pending {s : State} {c : Caller} {v : String} {e : Err} : (s.fail c v e).pending = s.pending := by
  simp [State.fail]

/-! ## Parts of a lane and of the host link -/

theorem show_shown {L : Lane} {q : W32} : (L.show q).shown = if (q + 1#32 - L.shown).toNat < 2 ^ 31 then q + 1#32 else L.shown := by
  unfold Lane.show; split <;> rfl
@[simp] theorem show_st {L : Lane} {q : W32} : (L.show q).st = L.st := by unfold Lane.show; split <;> rfl
@[simp] theorem show_owner {L : Lane} {q : W32} : (L.show q).owner = L.owner := by unfold Lane.show; split <;> rfl
@[simp] theorem show_next {L : Lane} {q : W32} : (L.show q).next = L.next := by unfold Lane.show; split <;> rfl
@[simp] theorem show_oldest {L : Lane} {q : W32} : (L.show q).oldest = L.oldest := by unfold Lane.show; split <;> rfl
@[simp] theorem show_journal {L : Lane} {q : W32} : (L.show q).journal = L.journal := by unfold Lane.show; split <;> rfl
@[simp] theorem show_runs {L : Lane} {q : W32} : (L.show q).runs = L.runs := by unfold Lane.show; split <;> rfl

@[simp] theorem signal_irq {h : HostLink} {k : Fin 8} : (h.signal k).irq = h.irq := by
  unfold HostLink.signal; split <;> (try split) <;> (try split) <;> rfl
@[simp] theorem signal_ring {h : HostLink} {k : Fin 8} : (h.signal k).ring = h.ring := by
  unfold HostLink.signal; split <;> (try split) <;> (try split) <;> rfl
@[simp] theorem signal_ev {h : HostLink} {k : Fin 8} : (h.signal k).ev = h.ev := by
  unfold HostLink.signal; split <;> (try split) <;> (try split) <;> rfl
/-- A disabled bit sends no message. -/
theorem signal_disabled {h : HostLink} {k : Fin 8} (d : h.irqEn.getLsbD k.val = false) : h.signal k = h := by
  simp [HostLink.signal, d]

/-! ## A call's reply: the path's output takes its lines, and nothing else of the state changes -/

@[simp] theorem reply_host_irq {s : State} {c : Caller} {ls : List Line} : (s.reply c ls).host.irq = s.host.irq := by
  unfold State.reply; split <;> simp

theorem tx_foldl_call {s : State} {ls : List Line} :
    (ls.foldl State.tx s).call = { s.call with tx := s.call.tx ++ ls.map TxItem.line } := by
  induction ls generalizing s with
  | nil => simp
  | cons l r ih => simp [ih]

theorem ring_out_quiet {v : Vector Ring 4} {i : LaneId} {f : Ring → Ring} (hf : ∀ r : Ring, { f r with out := [] } = { r with out := [] }) :
    (upd v i f).map (fun (r : Ring) => { r with out := [] }) = v.map fun (r : Ring) => { r with out := [] } := by
  apply Vector.ext
  intro k hk
  simp only [upd, Vector.getElem_map, Vector.getElem_set]
  split
  · rename_i h; subst h; exact hf _
  · rfl

theorem tx_quiet {s : State} {l : Line} : (s.tx l).quiet = s.quiet := rfl

theorem txLines_quiet {s : State} {ls : List Line} : (ls.foldl State.tx s).quiet = s.quiet := by
  induction ls generalizing s with
  | nil => rfl
  | cons l r ih => exact ih.trans tx_quiet

@[simp] theorem reply_quiet {s : State} {c : Caller} {ls : List Line} : (s.reply c ls).quiet = s.quiet := by
  unfold State.reply
  split
  · refine Eq.trans ?_ (txLines_quiet (ls := ls))
    dsimp only
    unfold State.prompt
    split <;> rfl
  · exact congrArg (fun v => ({ s with call := { s.call with tx := [], running := none }, host := { s.host with ring := v } } : State))
      (ring_out_quiet (fun _ => rfl))

@[simp] theorem okWith_quiet {s : State} {c : Caller} {ds : List (List (String × Val))} {v : String} {fs : List (String × Val)} :
    (s.okWith c ds v fs).quiet = s.quiet := reply_quiet
@[simp] theorem ok_quiet {s : State} {c : Caller} {v : String} {fs : List (String × Val)} : (s.ok c v fs).quiet = s.quiet := reply_quiet
@[simp] theorem failWith_quiet {s : State} {c : Caller} {v : String} {e : Err} {fs : List (String × Val)} :
    (s.failWith c v e fs).quiet = s.quiet := reply_quiet
@[simp] theorem fail_quiet {s : State} {c : Caller} {v : String} {e : Err} : (s.fail c v e).quiet = s.quiet := reply_quiet

theorem prompt_tx {s : State} {x : TxItem} (h : x ∈ s.call.tx) : x ∈ s.prompt.call.tx := by
  unfold State.prompt
  split
  · simp [h]
  · exact h

/-- Every line of a reply stands in the caller's output. -/
theorem reply_replied {s : State} {c : Caller} {ls : List Line} {l : Line} (h : l ∈ ls) : Replied c l (s.reply c ls) := by
  unfold Replied State.reply
  cases c.path with
  | call =>
    refine prompt_tx ?_
    simp [tx_foldl_call, h]
  | host =>
    obtain ⟨k, hk, rfl⟩ := List.mem_iff_getElem.mp h
    refine ⟨{ kind := .reply, seq := c.seq, line := ls[k], last := if k + 1 = ls.length then c.at_ else none }, ?_, rfl⟩
    simp only [setRing_host, upd, Fin.getElem_fin, Vector.getElem_set_self, List.mem_append]
    right
    refine List.mem_map.mpr ⟨(ls[k], k), ?_, rfl⟩
    exact List.mem_zipIdx_iff_getElem?.mpr (by simp [hk])

theorem okWith_replied {s : State} {c : Caller} {ds : List (List (String × Val))} {v : String} {fs : List (String × Val)} :
    Replied c (okLine c v fs) (s.okWith c ds v fs) := reply_replied (by simp)
theorem okWith_data {s : State} {c : Caller} {ds : List (List (String × Val))} {v : String} {fs d : List (String × Val)} (h : d ∈ ds) :
    Replied c (dataLine c d) (s.okWith c ds v fs) := reply_replied (by simp; exact .inl ⟨d, h, rfl⟩)
theorem ok_replied {s : State} {c : Caller} {v : String} {fs : List (String × Val)} : Replied c (okLine c v fs) (s.ok c v fs) :=
  okWith_replied
theorem failWith_replied {s : State} {c : Caller} {v : String} {e : Err} {fs : List (String × Val)} :
    Replied c ⟨.fail, v, c.tag, bareF e.text :: fs⟩ (s.failWith c v e fs) := reply_replied (by simp)
theorem fail_replied {s : State} {c : Caller} {v : String} {e : Err} :
    Replied c ⟨.fail, v, c.tag, [bareF e.text]⟩ (s.fail c v e) := failWith_replied

/-- A call that is taken runs. -/
theorem gate_takes {s k : State} {c : Caller} {v : String} {r : Bool} (h : Takes c s) : s.gate c v r k = k := by
  obtain ⟨hb, hl, hr⟩ := h
  simp [State.gate, hb, hl, hr]

end Sys2Proof.Laws
end

