-- ==== Sys2Proof/Tests/Slice0.lean ====
section
/-! SUPPORT. Tests: ill-formed commands, and for each statement a state that meets its premises. -/

namespace Sys2Proof.Tests
open Sys2Proof Sys2Proof.Machine
set_option Elab.async false

/-- In service: start-up has ended and the banner is sent. -/
def up : State := { State.reset with
  start := { banner := true, phase := .up, refDecided := true, latching := true }
  keys := { startup := false } }

/-- Bytes of 64-bit words. -/
def words (l : List Nat) : List Byte := l.flatMap fun w => leBytes w 8

/-- A public key and its SHA-256 as a fuse field. -/
def testKey : List Byte :=
  words [0x300628703187B2A3, 0x7EF9F8B8A80FEF5B, 0x25BB30667C01FB60, 0x8E533B6FA0BF7B46, 0xC55E1A86C1F400B4, 0x53C73633CB041B21, 0x6D069F83A6F59000, 0x73EB1DBDE0331836]
def keyHash : Nat := 0xDE912F3BCB3926FFFD671F2BF245D43938BA7855227B10C4E8FCC9BB41DFC690

/-- A firmware header with its signature under that key, over a body of 16 bytes. -/
def fwHead : List Byte :=
  words [0x103004D524946, 0x10, 0xF38B31DFEEABFB5D, 0xF530763DC427093C, 0x3501037451F3821B, 0x2E13F051FCD7A34F, 0x433391D374BC21D1, 0x16742ED0255048BF] ++
  words [0x638379DB0C21CDA, 0x3ED113B7883B4C59, 0xD867FD12FDA68251, 0x5E9950C07100800F, 0x4D1D4E87BEFD5FF5, 0x1064618132CFE3B6]

/-- A record of that key for bundle-key slot 1, signed under it. -/
def keyRec : List Byte :=
  words [0x131594B56, 0x0, 0x300628703187B2A3, 0x7EF9F8B8A80FEF5B, 0x25BB30667C01FB60, 0x8E533B6FA0BF7B46, 0xC55E1A86C1F400B4, 0x53C73633CB041B21] ++
  words [0x6D069F83A6F59000, 0x73EB1DBDE0331836, 0x433391D374BC21D1, 0x16742ED0255048BF, 0x638379DB0C21CDA, 0x3ED113B7883B4C59, 0x87A92FECC59909C1, 0xA50C5FB0F0417189] ++
  words [0x7AAD50665EC3DF59, 0x9F06DA9F1DECEB08, 0x0, 0x0]

/-- A bundle of one entry without variants, ONCHIP, signed under that key. -/
def bundleIm : List Byte :=
  words [0x14C444E42, 0x48000000001, 0x180, 0x1, 0x10000010001] ++
  List.replicate 88 0#8 ++
  words [0x2000001, 0xC0, 0x40, 0x1, 0x318916DE27538A7B, 0xE519D462A97BF37B, 0xECD102F673C9567A, 0x806D61DB5FA5047C] ++
  words [0x3E800000000] ++
  List.replicate 32 0#8 ++
  words [0xFFFF, 0xFFFF, 0xFFFF, 0x131474953, 0x433391D374BC21D1, 0x16742ED0255048BF, 0x638379DB0C21CDA, 0x3ED113B7883B4C59] ++
  words [0xBE65A310419EEFD5, 0xB0C099613ABF0E86, 0x7AEB6CF675B9FF78, 0x8623B46892F4F630] ++
  List.replicate 56 0#8

/-- The listed bytes of some runs of bytes, at rising addresses. -/
def cells (l : List (Nat × List Byte)) : Bytes :=
  l.flatMap fun p => (p.2.zipIdx.map fun x => (p.1 + x.2, x.1)).filter fun x => x.2 != 0#8

/-- The firmware copied, with its header, its body and its key in the boot flash and the hash of the key in the fuses. -/
def fwUp : State :=
  { State.reset with
    start := { State.reset.start with phase := .verifying, refDecided := true }
    flash := cells [(0, fwHead), (4092, leBytes 0x454E4F44 4), (0x1000, (List.range 16).map fun k => BitVec.ofNat 8 (k + 1)), (0x400410, testKey)]
    fuse := { otp := bitsAt 0 256 keyHash, shadow := bitsAt 0 256 keyHash, loaded := true } }

/-- In service, with bundle key 0 usable and `bundleIm` as boot entry 1. -/
def bundleUp : State :=
  { up with
    flash := cells [(0x400020, leBytes 0x401000 8 ++ leBytes 384 8 ++ [2#8, 1#8]), (0x400550, testKey), (0x401000, bundleIm)]
    keys := { up.keys with vkUsable := 1#4 }, start := { up.start with bootNext := 1 } }

/-- The load of `bundleIm` as boot entry 1, and of an entry whose image is not one. -/
def bootTry (s : State) : Except Err State := bootLoad 1 { s with start := { s.start with bootNext := s.start.bootNext + 1 } }
def bootLoaded : State := match bootTry bundleUp with
  | .ok u => u
  | .error _ => bundleUp

theorem boot_loaded : bootLoad 1 { bundleUp with start := { bundleUp.start with bootNext := bundleUp.start.bootNext + 1 } } = .ok bootLoaded := by
  have h : (bootTry bundleUp).isOk = true := by decide +kernel
  unfold bootLoaded
  change bootTry bundleUp = _
  generalize bootTry bundleUp = p at h
  cases p with
  | error e => cases h
  | ok u => rfl

def noBoot : State := { up with start := { up.start with bootNext := 1 }, flash := [(0x400031, 1#8)] }

theorem boot_failed : bootLoad 1 { noBoot with start := { noBoot.start with bootNext := noBoot.start.bootNext + 1 } } = .error .noref := by
  have h : (match bootTry noBoot with | .error .noref => true | _ => false) = true := by decide +kernel
  change bootTry noBoot = _
  generalize bootTry noBoot = p at h
  cases p with
  | error e => cases e <;> first | rfl | cases h
  | ok u => cases h

/-- Shell S00 runs heat 0 of L1 and meets the word w. -/
def fab (w : W64) : State := { up with
  power := { up := 1#32 }
  shells := put up.shells 0 { prog := [w], running := some (1, 0#32), ended := false }
  lanes := put up.lanes 1 {
    st := .opened, owner := .call, next := 1#32, runs := [{ seq := 0#32, st := .segment, started := true, open_ := [0] }]
    journal := [(0, { seq := 0#32, stats := none, retire := none, accept := some {
      source := .call, handle := 0, adSlot := none, entry := 0
      relDep := 0, relWait := 0, tag := [], tAcc := 0#64, hcAcc := 0#32, args := [] } })] } }

/-- The same with a rig frame of zeros, with its magic and its CRC, at the start of bank 16, and a load of it landing. -/
def fabRig (w : W64) : State :=
  { (fab w).setShell 0 fun x => { x with
      inbound := [{
        out := false, rig := some 0, gl := {}, gr := {}, agr := 0, len := 64, landed := 0, lstep := 0, rstep := 0, tick := 15#4
        addTo := none, frameAt := 0x400020000 }]
      ag := put x.ag 0 { base := BitVec.ofNat 37 0x400020000, mode := 3#2 }
      slots := put x.slots 0 { frame := some (parseRig []) }
      cur := some 0 } with
    mem := { up.mem with bh := [(0x800000, 0x52#8), (0x800001, 0x49#8), (0x800002, 0x47#8), (0x800003, 0x46#8), (0x800038, 0xEF#8),
      (0x800039, 0xEB#8), (0x80003A, 0xBA#8), (0x80003B, 0xF1#8)] } }

/-- What the load of `fabRig` reads. -/
def rigRead : Option (List Byte) × State := heatUnits 1 0#32 0x400020000 64 (fabRig 0#64)

theorem rig_read : heatUnits 1 0#32 0x400020000 64 (fabRig 0#64) = (some (rigRead.1.getD []), rigRead.2) := by
  have h : rigRead.1.isSome = true := by decide +kernel
  change rigRead = _
  generalize rigRead = p at h
  obtain ⟨a, b⟩ := p
  cases a with
  | none => cases h
  | some a => rfl

/-- That load, in flight. -/
def rigLoad : Transfer :=
  { out := false, rig := some 0, gl := {}, gr := {}, agr := 0, len := 64, landed := 0, lstep := 0, rstep := 0, tick := 15#4, addTo := none
    frameAt := 0x400020000 }

/-- One unit of bank 16 on its way into the SRAM of S00. -/
def moveIn : Transfer :=
  { out := false, rig := none, gl := {}, gr := { base := BitVec.ofNat 37 0x400020000, mode := 1#2 }, agr := 0, len := 2, landed := 0, lstep := 0
    rstep := 0, tick := 0#4, addTo := some (2#8, 3), frameAt := 0 }
def moving (x : Transfer) : State := (fabRig 0#64).setShell 0 fun y => { y with inbound := [x] }

/-- A frame with one feed in of a byte a stroke, and S00 at a RUN that streams it. -/
def streamRig : RigFrame := { parseRig [] with feed := [{ side := 0#8, pos := 0#8, dir := 0#8, bytesPerStroke := 1#8, gen := 0#8, skew := 0#8 }] }
def fabStream : State := (fabRig 0x1000000000000000#64).setShell 0 fun x => { x with slots := put x.slots 0 { frame := some streamRig } }

/-- A trial of that frame for S03 on S16, and what its load reads. -/
def trialRig : State := { fabRig 0#64 with faults := { up.faults with trial := some ⟨3, 16, 0, 0x400020000⟩ } }
def trialRead : List Byte × State := unitsAt 0x400020000 64 { trialRig with faults := { trialRig.faults with trial := none } }

/-- An entry without arguments, and its one segment on logical shell 0. -/
def entry0 : Entry :=
  { number := 0, create := false, update := false, readsAdapter := false, l0only := false, hostAdd := false, deadline := 1000, htal := 0#8
    tallies := 0#256, variants := Vector.replicate 3 { firstSeg := some 0, work := 0 }, args := [] }
def seg0 : Segment :=
  { number := 0, variant := 0, kind := 0, span := none, lsmask := 1#16, prog := 0, scale := 0, oper := 0, strokes := 1, next := none }

/-- The ACCEPT record of a heat of `entry0`, from the Call line. -/
def acc0 : AcceptRec :=
  { source := .call, handle := 0, adSlot := none, entry := 0, relDep := 0, relWait := 0, tag := [], tAcc := 0#64, hcAcc := 0#32, args := [] }

def ret0 : RetireRec :=
  { status := .ok, restarts := 0, widened := false, rerun := false, nan := false, accOvf := false, adaptOff := false, late := false
    pending := false, i16n := 0, h16n := 0, variant := 0, adSet := false, adVer := 0#32, tRet := 5#64, strokes := 0 }

/-- L1 is OPEN for the Call line, and bundle 0 holds `entry0` for it. -/
def rdy : State := { up with
  lanes := put up.lanes 1 { st := .opened, owner := .call }
  bundles := put up.bundles 0 { st := .loaded, lanes := 2#4, onchip := true, plan := { entries := [entry0], segments := [seg0] } } }

/-- The same with `keyRec` at the start of L1's Boathouse and the firmware key that signed it in place. -/
def recUp : State := { rdy with
  mem := { rdy.mem with bh := cells [(0x800000, keyRec)] }, flash := cells [(0x400410, testKey)]
  fuse := { rdy.fuse with shadow := bitsAt 0 256 keyHash } }

theorem ok_of_some {α : Type} (e : Except Err α) (h : e.toOption.isSome = true) : e = .ok (e.toOption.get h) := by
  cases e with
  | error e => cases h
  | ok a => rfl

/-- `bundleIm` at the start of L1's Boathouse, its key usable, and what LOAD makes of it. -/
def loadUp : State := { rdy with
  mem := { rdy.mem with bh := cells [(0x800000, bundleIm)] }, flash := cells [(0x400550, testKey)], keys := { rdy.keys with vkUsable := 1#4 } }
def loadTry : Except Err (Fin 16 × Header × Parsed2 × State) := loadFor .call 0x10000800000 384 2#4 loadUp
theorem load_ok : loadTry.toOption.isSome = true := by decide +kernel
def loaded : Fin 16 × Header × Parsed2 × State := loadTry.toOption.get load_ok
theorem ok_parts {α β γ δ : Type} {e : Except Err (α × β × γ × δ)} {x : α × β × γ × δ} (h : e = .ok x) :
    e = .ok (x.1, x.2.1, x.2.2.1, x.2.2.2) := h
theorem load_loaded : loadFor .call 0x10000800000 384 2#4 loadUp = .ok (loaded.1, loaded.2.1, loaded.2.2.1, loaded.2.2.2) :=
  ok_parts (ok_of_some loadTry load_ok)

theorem load_failed : loadFor .call 0x10000800000 384 2#4 rdy = .error .range := by
  have h : (match loadFor .call 0x10000800000 384 2#4 rdy with | .error .range => true | _ => false) = true := by decide +kernel
  generalize loadFor .call 0x10000800000 384 2#4 rdy = p at h ⊢
  cases p with
  | error e => cases e <;> first | rfl | cases h
  | ok u => cases h

/-- The image of `fwUp` written whole, but for COMPLETE. -/
def fwDone (recovery : Bool) : State := { up with
  firm := { up.firm with size := some 4112, written := List.range 257, highest := 4112 }
  flash := cells [(0, fwHead), (0x1000, (List.range 16).map fun k => BitVec.ofNat 8 (k + 1)), (0x400410, testKey)]
  fuse := fwUp.fuse, keys := { up.keys with recovery := recovery } }

/-- Heat 0 of L1 in a given state of its run. -/
def heat0 (r : HeatRun) : State := rdy.setLane 1 fun L => { L with
  next := 1#32, runs := [r], journal := [(0, { seq := 0#32, accept := some acc0, stats := none, retire := none })] }

/-- The completion of heat 0 of L1 is held. -/
def held0 : State := rdy.setLane 1 fun L => { L with
  next := 1#32, journal := [(0, { seq := 0#32, accept := some acc0, stats := none, retire := some ret0 })] }

/-- 1 MiB of DRAM is trained; region 0, of L1, takes its first two blocks under key 1 in slot K0; unit 5 has been written. -/
def mem1 : State := { rdy with
  keys := { rdy.keys with nextKey := 2 }
  mem := { rdy.mem with
    trained := true, usable := 16#18, dram := [(320, 9#8)], unitKey := [(5, 1)]
    region := put rdy.mem.region 0 { size := 2#18, lane := 1, valid := true }
    kslot := put rdy.mem.kslot 0 { use := .lane 1, key := 1 } } }

/-- The key of L1 rotates from K0 to K1; n blocks are left, and block 1 is being rewritten. -/
def rot1 (n : BitVec 18) : State := { mem1 with
  keys := { mem1.keys with nextKey := 3, keyop := 1 }
  mem := { mem1.mem with
    region := put mem1.mem.region 0 { size := 2#18, lane := 1, valid := true, gen := true, rotating := true, slot1 := 1, left := n }
    kslot := put mem1.mem.kslot 1 { use := .laneTarget 1, key := 2 }
    sweeps := [{ kind := .lane 1, old := 0, new := 1, region := none, phase := .rewrite, block := 0 }] } }

/-- PD_EYE is up and the Eye ready, triggered by TMR0, with a frame given. -/
def eye1 (f : Option Frame) : State := { up with power := { up := domBit Dom.eye }, eye := { ready := true, trigSrc := 1#4, frame := f } }
def frame0 (g : FrameStage) : Frame :=
  { number := 0#32, tTrig := 0#64, mode := 2#2, delay := 768#20, expose := 38400#22, stage := g, first := true, irOn := true }

/-- A trigger is on its way to the Eye. -/
def arrive (s : State) : State := { s with eye := { s.eye with arriving := [5#64] } }

/-- Reference sums that fit a line within R269. -/
def sums0 : List Nat := (List.range 16).map fun l => 65536 * l + 32768

/-- PD_SNS is up. -/
def snsUp : State := { up with power := { up := domBit Dom.sns } }

/-- PD_EAR is up, with given Ear settings; ring 1 is L1's, of the Call line. -/
def ear1 (e : Ear) : State := { rdy with
  power := { up := domBit Dom.ear }
  ear := { e with ring := put e.ring 1 { e.ring[1] with en := true, lane := 1, bank := 16#6, block := 16#16 } } }

/-! Ill-formed commands, one for each check. -/

theorem test_wf_wait_zero : (Instr.wait Caller.line 0 none 0).wf = false := by decide
theorem test_wf_wait_long : (Instr.wait Caller.line 0 none 60001).wf = false := by decide
theorem test_wf_tag_long : (Instr.hello { Caller.line with tag := some (List.replicate 17 0x41#8) }).wf = false := by decide
theorem test_wf_tag_char : (Instr.hello { Caller.line with tag := some [0x21#8] }).wf = false := by decide
theorem test_wf_line_ring : (Instr.hello { Caller.line with ring := 1 }).wf = false := by decide
theorem test_wf_no_units : (Instr.moveLanded 0 true 0).wf = false := by decide
theorem test_wf_no_rate : (Instr.callCharReceived 0x0D#8 0).wf = false := by decide
theorem test_wf_part_of_unit : (Instr.hostWindowAccess 5 (some [1#8])).wf = false := by decide
theorem test_wf_set_wide : (Instr.set Caller.line (.offset 0) (2 ^ 32)).wf = false := by decide
theorem test_wf_nine_arguments : (Instr.heat Caller.line 1 none 0 0 (List.replicate 9 (.const 0#32))).wf = false := by decide
theorem test_wf_region_boundary : (Instr.heat Caller.line 1 none 0 0 [.region 8 1]).wf = false := by decide
theorem test_wf_tally : (Instr.earRing Caller.line 1 0 2 16 (some 1024)).wf = false := by decide
theorem test_wf_row : (Instr.fence Caller.line (.row 0 0)).wf = false := by decide
theorem test_wf_log_lane : (Instr.logLane Caller.line 1 129).wf = false := by decide
theorem test_wf_log_fault : (Instr.logFault Caller.line 513).wf = false := by decide
theorem test_wf_firm_data : (Instr.firmData Caller.line 0 (List.replicate 97 0#8)).wf = false := by decide
theorem test_wf_qspi_data : (Instr.qspiTransaction 0x02#8 0#4 0#36 1 [0#32] false).wf = false := by decide
theorem test_wf_pcie_data : (Instr.pcieMemoryRequest 0 0#34 0xF#8 1 (some [0#32])).wf = false := by decide
theorem test_wf_odd_offset : (Instr.registerWrite .host 2#18 0#32).wf = false := by decide

/-! Worked examples of the manual. -/

/-- "Call Language", after R329: the check of `TAKE L1`. -/
theorem test_line_check : checkChars (ascii "TAKE L1") = ascii "TAKE L1~3274" := by decide +kernel
theorem test_line_check_space : parseLine Caller.line false false (ascii "TAKE L1 ~3274") = .bad "?" none .syntaxErr ["check"] := by
  decide +kernel

/-- "Call Language", after R341: the banner line. -/
theorem test_banner_line :
    (bannerLine "COLD" { up with start := { up.start with logFieldLost := false }, firm := { running := true, version := 0x010300#24 } }).text =
      ascii "* BANNER LZ-480 call=1.0 fw=1.3.0 reset=COLD log=OK timebase=REF service=NORMAL" := by decide +kernel

/-- "Register Map", after R453: the REF tick count by GET with n=2. -/
theorem test_get_tick : (readRegs .call 0x1004 2 { up with clk := { up.clk with tick := 5005969344#64 } }).1.map (fun l => (dataLine Caller.line l).text) =
    [ascii "= 0x0_1004 GLB_TICK_LO 0x2A61_07C0", ascii "= 0x0_1008 GLB_TICK_HI 0x0000_0001"] := by decide +kernel

/-- "Register Map", the timers: TMR2 at 1 kHz with a compare at 250 µs. -/
theorem test_tmr_example : (usTicks 1000, usTicks 250) = (38400, 9600) := by decide

/-- "The Shell Fabric": the RUN word 0x1102_001F_FF10_230E. -/
theorem test_run_word : (wKind 0x1102001FFF10230E#64, wSel 0x1102001FFF10230E#64, wAE 0x1102001FFF10230E#64, wAtal 0x1102001FFF10230E#64,
    wAmt 0x1102001FFF10230E#64, wfld 0x1102001FFF10230E#64 24 20) = (1, 0, true, 2, 1, 0x1FFF) := by decide

/-- "Number Formats": one row quantised to I8 at the scale 2^−3, with room for one side-list entry at element 5. -/
theorem test_row_to_i8 :
    ([(49, -1, false), (-1, -4, false), (96, 0, false), (-1017, -3, false), (1, -1, false), (255, -1, true), (-32, 0, false), (0, 0, false)].map
      fun (p : Int × Int × Bool) => let w := convertTo 3 0 p.2.2 (.val ⟨p.1, p.2.1⟩); (w.code, w.cls)) =
    [(0x19, .plain), (0x00, .feather), (0x60, .plain), (0x81, .plain), (0x01, .plain), (0x80, .crab), (0xE0, .plain), (0x00, .plain)] := by
  decide +kernel
theorem test_row_clipped : (convertTo 3 0 false (.val ⟨255, -1⟩)).code = 0x7F := by decide +kernel

/-- "Scales, Zero Points and De-quantisation", step 1 of the worked example: the exponent −4 of the row. -/
theorem test_row_exponent : rowExponent ([(3, -1), (-3, -2), (13, -2), (1, -3), (-2, 0), (13, -5), (101, -4), (-1, 0)].map fun (p : Int × Int) =>
    Machine.Num.val ⟨p.1, p.2⟩) 127 127 = some (-4) := by decide +kernel

/-- "The Eye": the coefficients of slice SL3 from one cycle. -/
theorem test_eye_fit : fit ((List.range 16).map fun l => (349120 + 710016 * l + 5) / 11) = (33, 9196, true) := by decide +kernel

/-- "The Ear and Sensing", after R288 and R289: a changed channel's invalid words, and the word of −1,000 on channel 3. -/
theorem test_mic_change : ((MicChan.boundary 1#2 true { running := true, reg := 0x618032#24, next := some 0x728032#24 : MicChan }).invalid,
    (MicChan.boundary 1#2 true { running := true, invalid := 6, reg := 0x728032#24, next := some 0x628032#24 : MicChan }).invalid) = (10, 6) := by
  decide +kernel
theorem test_mic_word : (micWord true false false 3 (BitVec.ofInt 24 (-1000)), micWord true true false 3 (BitVec.ofInt 24 (-1000))) =
    (0x83FFFC18#32, 0xC3FFFC18#32) := by decide

/-- "The String Port": RD32 of LANE1_STATE, which the host link owns and which is OPEN. -/
theorem test_string_read :
    (strResp (doRd32 0x002400#24 0#64 { up with
      str := { ir := 8#4 }, lanes := put up.lanes 1 { st := .opened, owner := .host } }).str).toNat = 0x00300000000000000031 := by decide +kernel


/-- The premises of the whole-machine statements are met. -/
theorem witness_StepRunsFrontCommand : ∃ (s : State) (c : Instr) (rest : List Instr), s.pending = c :: rest :=
  ⟨{ up with pending := [.refSteady] }, .refSteady, [], rfl⟩

theorem witness_IdleStepIsOneTick :
    (∃ s : State, s.pending = [] ∧ s.start.vddAo = true) ∧ ∃ s : State, s.pending = [] ∧ s.start.vddAo = false :=
  ⟨⟨up, rfl, rfl⟩, ⟨{ up with start := { up.start with vddAo := false } }, rfl, rfl⟩⟩

theorem witness_QueueIsLeftAlone : (∃ (c : Instr) (s t : State), exec c s = .next t) ∧ ∃ s t : State, step s = .next t :=
  ⟨⟨.refSteady, up, _, rfl⟩, ⟨up, _, rfl⟩⟩

theorem witness_MemoryStaysCanonical : ∃ s t : State, s.memWf = true ∧ step s = .next t := ⟨mem1, _, by decide +kernel, rfl⟩

theorem witness_FusesStayBurnt : ∃ (s t : State) (k : Nat), k ∈ s.fuse.otp ∧ step s = .next t := ⟨up, _, 2938, by decide, rfl⟩

/-- Every clause of ResetsInitialise has its premises met. -/
theorem witness_ResetsInitialise :
    (∃ _h : Bool, ∃ s : State, s.start.vddAo = true) ∧
    (∃ s : State, ∃ k : ResetKind, s.start.warmPending = some k ∧ s.call.tx = [] ∧ (s.start.superA.isSome || s.start.superB.isSome) = true) ∧
    (∃ s : State, ∃ k : ResetKind, s.start.warmPending = some k ∧ s.call.tx = [] ∧ s.start.superA = none ∧ s.start.superB = none) ∧
    (∃ s : State, s.start.vddAo = true ∧ s.coxAble = false) :=
  ⟨⟨true, heat0 { seq := 0#32 }, by decide +kernel⟩,
   ⟨{ mem1 with start := { mem1.start with warmPending := some .resetWarm, superA := some 1 } }, .resetWarm, by decide +kernel⟩,
   ⟨{ mem1 with start := { mem1.start with warmPending := some .firmEnd } }, .firmEnd, by decide +kernel⟩,
   ⟨{ rdy with faults := { rdy.faults with coxRole := Vector.replicate 3 .fenced } }, by decide +kernel⟩⟩

/-- Every clause of StartUpSteps has its premises met. -/
theorem witness_StartUpSteps :
    (∃ s : State, s.start.vddAo = true ∧ s.start.refDecided = false) ∧
    (∃ s : State, s.start.vddAo = true ∧ s.start.refDecided = false) ∧
    (∃ _mv : BitVec 10, ∃ s : State, s.start.phase = .waitPower) ∧
    (∃ mv : BitVec 10, ∃ s : State, s.start.phase = .waitPower ∧ s.start.vddAo = true ∧ s.start.refDecided = true ∧ 500 ≤ mv.toNat) ∧
    (∃ s : State, s.start.phase = .copying) ∧
    (∃ _kat : BitVec 3, ∃ why : String, ∃ s : State, s.start.phase = .verifying ∧ s.start.firmReason = some why) ∧
    (∃ _kat : BitVec 3, ∃ s : State, s.start.phase = .verifying ∧ s.start.firmReason = none ∧ firmSigned (keyCheck s) = false) ∧
    (∃ _kat : BitVec 3, ∃ s : State, s.start.phase = .verifying ∧ s.start.firmReason = none ∧ firmSigned (keyCheck s) = true ∧ s.clk.degraded = false) ∧
    (∃ _kat : BitVec 3, ∃ s : State, s.start.phase = .verifying ∧ s.start.firmReason = none ∧ firmSigned (keyCheck s) = true ∧ s.clk.degraded = true) ∧
    (∃ f : Byte, ∃ rate : BitVec 4, ∃ ranks : BitVec 2, ∃ s : State, s.start.phase = .training ∧ fittingOk f rate ranks = true) ∧
    (∃ ok : Bool, ∃ f : Byte, ∃ rate : BitVec 4, ∃ ranks : BitVec 2, ∃ s : State, s.start.phase = .training ∧ s.start.trainOwed = false ∧ (ok && fittingOk f rate ranks) = false) ∧
    (∃ s : State, s.start.phase = .ready ∧ s.start.vddAo = true ∧ s.call.lines = [] ∧ (∀ l : LaneId, s.host.ring[l].latched = none)) ∧
    (∃ s : State, ∃ r : String, s.keys.recovery = true ∧ s.start.banner = true ∧ s.firm.size = none ∧ s.start.firmReason = some r) ∧
    (∃ k : Fin 16, ∃ s : State, s.start.banner = true ∧ s.keys.recovery = false ∧ k.val = s.start.bootNext ∧ (bootEntry s k).2.2.2 = false) ∧
    (∃ k : Fin 16, ∃ s u : State, s.start.banner = true ∧ s.keys.recovery = false ∧ k.val = s.start.bootNext ∧ (bootEntry s k).2.2.2 = true ∧ bootLoad k { s with start := { s.start with bootNext := s.start.bootNext + 1 } } = .ok u) ∧
    (∃ k : Fin 16, ∃ e : Err, ∃ s : State, s.start.banner = true ∧ s.keys.recovery = false ∧ k.val = s.start.bootNext ∧ (bootEntry s k).2.2.2 = true ∧ bootLoad k { s with start := { s.start with bootNext := s.start.bootNext + 1 } } = .error e) :=
  ⟨⟨State.reset, by decide +kernel⟩,
   ⟨State.reset, by decide +kernel⟩,
   ⟨450#10, State.reset, by decide +kernel⟩,
   ⟨720#10, { State.reset with start := { State.reset.start with refDecided := true } }, by decide +kernel⟩,
   ⟨{ State.reset with start := { State.reset.start with phase := .copying } }, by decide +kernel⟩,
   ⟨7#3, "DIGEST", { State.reset with start := { State.reset.start with phase := .verifying, firmReason := some "DIGEST" } }, by decide +kernel⟩,
   ⟨7#3, { State.reset with start := { State.reset.start with phase := .verifying } }, by decide +kernel⟩,
   ⟨7#3, fwUp, by decide +kernel⟩,
   ⟨7#3, { fwUp with clk := { fwUp.clk with degraded := true } }, by decide +kernel⟩,
   ⟨32#8, 4#4, 2#2, { State.reset with start := { State.reset.start with phase := .training } }, by decide +kernel⟩,
   ⟨false, 0#8, 0#4, 0#2, { State.reset with start := { State.reset.start with phase := .training } }, by decide +kernel⟩,
   ⟨{ State.reset with start := { State.reset.start with phase := .ready, lookoutOff := some "MISSING" } }, by decide +kernel⟩,
   ⟨{ up with start := { up.start with firmReason := some "DIGEST" }, keys := { up.keys with recovery := true } }, "DIGEST", by decide +kernel⟩,
   ⟨1, { up with start := { up.start with bootNext := 1 } }, by decide +kernel⟩,
   ⟨1, bundleUp, bootLoaded, by decide +kernel, by decide +kernel, by decide +kernel, by decide +kernel, boot_loaded⟩,
   ⟨1, .noref, noBoot, by decide +kernel, by decide +kernel, by decide +kernel, by decide +kernel, boot_failed⟩⟩

/-- Every clause of PowerDomainsComeUp has its premises met. -/
theorem witness_PowerDomainsComeUp :
    (∃ d : Dom, ∃ s : State, s.domUp d = false ∧ s.domFenced d = false ∧ s.power.waking.getLsbD d.val = false ∧ s.power.queue.contains d = false ∧ s.power.busy < 2) ∧
    (∃ d : Dom, ∃ s : State, s.domUp d = false ∧ s.domFenced d = false ∧ s.power.waking.getLsbD d.val = false ∧ s.power.queue.contains d = false ∧ 2 ≤ s.power.busy) ∧
    (∃ d : Dom, ∃ s : State, (s.domUp d || s.domFenced d) = true) ∧
    (∃ d : Dom, ∃ s : State, s.power.waking.getLsbD d.val = true ∧ s.power.queue = []) ∧
    (∃ d e : Dom, ∃ s : State, s.power.waking.getLsbD d.val = true ∧ s.power.queue = [e] ∧ (s.power.up ||| domBit d).getLsbD e.val = false ∧ (s.power.waking &&& ~~~domBit d).getLsbD e.val = false ∧ s.power.fenced.getLsbD e.val = false ∧ Power.busy { s.power with waking := s.power.waking &&& ~~~domBit d } < 2) :=
  ⟨⟨Dom.eye, State.reset, by decide +kernel⟩,
   ⟨Dom.eye, { State.reset with power := { waking := 3#32 } }, by decide +kernel⟩,
   ⟨Dom.eye, { State.reset with power := { up := domBit Dom.eye } }, by decide +kernel⟩,
   ⟨Dom.eye, { State.reset with power := { waking := domBit Dom.eye } }, by decide +kernel⟩,
   ⟨Dom.eye, Dom.ear, { State.reset with power := { waking := domBit Dom.eye ||| 1#32, queue := [Dom.ear] } }, by decide +kernel⟩⟩

/-- Every clause of FabricStopsBelowFloor has its premises met. -/
theorem witness_FabricStopsBelowFloor :
    (∃ mv : BitVec 10, ∃ _s : State, mv.toNat < 500) ∧
    (∃ mv : BitVec 10, ∃ _s : State, 500 ≤ mv.toNat) ∧
    (∃ mv : BitVec 10, ∃ s : State, 500 ≤ mv.toNat ∧ s.rail.floor = true) :=
  ⟨⟨499#10, State.reset, by decide +kernel⟩,
   ⟨500#10, State.reset, by decide +kernel⟩,
   ⟨500#10, { State.reset with rail := { floor := true } }, by decide +kernel⟩⟩

/-- Every clause of RailRequestsRun has its premises met. -/
theorem witness_RailRequestsRun :
    (∃ _mv : Nat, ∃ s : State, s.rail.req = none) ∧
    (∃ _mv : Nat, ∃ q : RailReq, ∃ s : State, s.rail.req = some q) ∧
    (∃ m md : Byte, ∃ q : RailReq, ∃ s : State, s.rail.req = some q ∧ q.stage = .sending ∧ (if s.rail.voutKnown then s.rail.voutMode else m) = md ∧ linear16 md = true ∧ s.rail.alert = none) ∧
    (∃ m md : Byte, ∃ q : RailReq, ∃ s : State, s.rail.req = some q ∧ q.stage = .sending ∧ (if s.rail.voutKnown then s.rail.voutMode else m) = md ∧ linear16 md = false ∧ q.attempt < 3 ∧ s.rail.alert = none) ∧
    (∃ _m : Byte, ∃ q : RailReq, ∃ s : State, s.rail.req = some q ∧ q.stage = .sending ∧ q.attempt < 3 ∧ s.rail.alert = none) ∧
    (∃ mv : BitVec 10, ∃ q : RailReq, ∃ s u : State, s.rail.req = some q ∧ q.stage = .settling ∧ mv.toNat ≤ q.mv + 15 ∧ q.mv ≤ mv.toNat + 15 ∧ s.rail.due = none ∧ railMeasured mv (railRead s) = u) ∧
    (∃ mv : BitVec 10, ∃ q : RailReq, ∃ s u : State, s.rail.req = some q ∧ q.stage = .settling ∧ (¬(mv.toNat ≤ q.mv + 15 ∧ q.mv ≤ mv.toNat + 15)) ∧ q.attempt < 3 ∧ railMeasured mv (railRead s) = u) ∧
    (∃ mv : BitVec 10, ∃ s : State, 500 ≤ mv.toNat ∧ s.rail.floor = false) ∧
    (∃ q : RailReq, ∃ s : State, s.rail.req = some q ∧ q.stage = .retryWait) ∧
    (∃ _m : Byte, ∃ q : RailReq, ∃ s : State, s.rail.req = some q ∧ q.stage = .sending ∧ q.attempt = 3 ∧ s.rail.gov ≠ .frozen ∧ s.rail.alert = none) ∧
    (∃ s : State, s.rail.gov = .frozen ∧ s.rail.req = none) :=
  ⟨⟨720, State.reset, by decide +kernel⟩,
   ⟨720, ⟨700, 0, .sending⟩, { State.reset with rail := { req := some ⟨700, 0, .sending⟩ } }, by decide +kernel⟩,
   ⟨0x14#8, 0x14#8, ⟨700, 0, .sending⟩, { State.reset with rail := { req := some ⟨700, 0, .sending⟩ } }, by decide +kernel⟩,
   ⟨0x20#8, 0x20#8, ⟨700, 0, .sending⟩, { State.reset with rail := { req := some ⟨700, 0, .sending⟩ } }, by decide +kernel⟩,
   ⟨0#8, ⟨700, 2, .sending⟩, { State.reset with rail := { req := some ⟨700, 2, .sending⟩ } }, by decide +kernel⟩,
   ⟨715#10, ⟨700, 0, .settling⟩, { State.reset with rail := { req := some ⟨700, 0, .settling⟩ } }, railMeasured 715#10 { State.reset with rail := { req := some ⟨700, 0, .settling⟩ } }, by decide +kernel⟩,
   ⟨716#10, ⟨700, 0, .settling⟩, { State.reset with rail := { req := some ⟨700, 0, .settling⟩ } }, railMeasured 716#10 { State.reset with rail := { req := some ⟨700, 0, .settling⟩ } }, by decide +kernel⟩,
   ⟨500#10, State.reset, by decide +kernel⟩,
   ⟨⟨700, 2, .retryWait⟩, { State.reset with rail := { req := some ⟨700, 2, .retryWait⟩ } }, by decide +kernel⟩,
   ⟨0#8, ⟨700, 3, .sending⟩, { State.reset with rail := { req := some ⟨700, 3, .sending⟩ } }, by decide +kernel⟩,
   ⟨{ State.reset with rail := { gov := .frozen } }, by decide +kernel⟩⟩

/-- Every clause of RailFaultsAreRecorded has its premises met. -/
theorem witness_RailFaultsAreRecorded :
    (∃ mv : BitVec 10, ∃ s : State, s.start.phase ≠ .waitPower ∧ 500 ≤ mv.toNat ∧ s.rail.floor = false) ∧
    (∃ mv : BitVec 10, ∃ s : State, s.start.phase ≠ .waitPower ∧ mv.toNat < 500) ∧
    (∃ _mv : BitVec 10, ∃ s : State, s.start.phase = .waitPower) ∧
    (∃ _w : W16, ∃ s : State, s.railSending = false) ∧
    (∃ _w : W16, ∃ s : State, s.railSending = true) :=
  ⟨⟨500#10, up, by decide +kernel⟩,
   ⟨499#10, up, by decide +kernel⟩,
   ⟨400#10, State.reset, by decide +kernel⟩,
   ⟨5#16, up, by decide +kernel⟩,
   ⟨5#16, { up with rail := { req := some ⟨700, 0, .sending⟩ } }, by decide +kernel⟩⟩

/-- Every clause of RailVerbsSetTheGovernor has its premises met. -/
theorem witness_RailVerbsSetTheGovernor :
    (∃ c : Caller, ∃ s : State, Takes c s) ∧
    (∃ c : Caller, ∃ mw : Nat, ∃ s : State, Takes c s ∧ 500 ≤ mw ∧ mw ≤ 7500) ∧
    (∃ c : Caller, ∃ mw : Nat, ∃ s : State, Takes c s ∧ (mw < 500 ∨ 7500 < mw)) ∧
    (∃ c : Caller, ∃ mv : Nat, ∃ s : State, Takes c s ∧ fixOk mv = true ∧ s.rail.gov ≠ .frozen ∧ s.rail.req = none ∧ mv < 1024) ∧
    (∃ c : Caller, ∃ mv : Nat, ∃ s : State, Takes c s ∧ fixOk mv = false) ∧
    (∃ c : Caller, ∃ mv : Nat, ∃ s : State, Takes c s ∧ fixOk mv = true ∧ s.rail.gov = .frozen) ∧
    (∃ c : Caller, ∃ s : State, Takes c s ∧ s.rail.gov ≠ .frozen) :=
  ⟨⟨Caller.line, up, by decide +kernel⟩,
   ⟨Caller.line, 7500, up, by decide +kernel⟩,
   ⟨Caller.line, 7501, up, by decide +kernel⟩,
   ⟨Caller.line, 880, up, by decide +kernel⟩,
   ⟨Caller.line, 885, up, by decide +kernel⟩,
   ⟨Caller.line, 720, { up with rail := { gov := .frozen } }, by decide +kernel⟩,
   ⟨Caller.line, up, by decide +kernel⟩⟩

/-- Every clause of GovernorSteps has its premises met. -/
theorem witness_GovernorSteps :
    (∃ late mw : W16, ∃ s u : State, s.rail.floor = false ∧ s.start.phase.coxRuns = true ∧ elapseTo (s.rail.govTick.toNat + governorPeriod + late.toNat) s = u ∧ (u.lanes.any fun l => l.st == .scrub) = false ∧ u.rail.gov = .auto ∧ u.rail.req = none ∧ governorStep (u.topRate (u.shellsIn .active)) mw.toNat u.measureHeats.govRead ≠ 0) ∧
    (∃ late mw : W16, ∃ s u : State, s.rail.floor = false ∧ s.start.phase.coxRuns = true ∧ elapseTo (s.rail.govTick.toNat + governorPeriod + late.toNat) s = u ∧ (u.lanes.any fun l => l.st == .scrub) = false ∧ (u.rail.gov ≠ .auto ∨ governorStep (u.topRate (u.shellsIn .active)) mw.toNat u.measureHeats.govRead = 0)) ∧
    (∃ _late _mw : W16, ∃ s : State, s.rail.floor = true) ∧
    (∃ _rate mw : Nat, ∃ s : State, fld s.rail.ctrl 16 13 < mw) :=
  ⟨⟨5#16, 100#16, { up with clk := { up.clk with tick := 3845#64 } }, { up with clk := { up.clk with tick := 3845#64 } }, by decide +kernel⟩,
   ⟨5#16, 100#16, { { up with clk := { up.clk with tick := 3845#64 } } with rail := { gov := .fixed } }, { { up with clk := { up.clk with tick := 3845#64 } } with rail := { gov := .fixed } }, by decide +kernel⟩,
   ⟨5#16, 100#16, { State.reset with rail := { floor := true } }, by decide +kernel⟩,
   ⟨560, 7501, State.reset, by decide +kernel⟩⟩

/-- Every clause of OneStrokeWordsRun has its premises met. -/
theorem witness_OneStrokeWordsRun :
    (∃ i : ShellId, ∃ w : W64, ∃ l : LaneId, ∃ q : W32, ∃ s : State, s.wordAt i 8 = some (w, l, q) ∧ (wordStrokes i 1 s).1 = true) ∧
    (∃ i : ShellId, ∃ w : W64, ∃ l : LaneId, ∃ q : W32, ∃ s : State, s.wordAt i 5 = some (w, l, q) ∧ wfld w 37 3 = 0 ∧ (wordStrokes i 1 s).1 = true) ∧
    (∃ i : ShellId, ∃ w : W64, ∃ l : LaneId, ∃ q : W32, ∃ s : State, s.wordAt i 5 = some (w, l, q) ∧ wfld w 37 3 = 1 ∧ (wordStrokes i 1 s).1 = true) ∧
    (∃ i : ShellId, ∃ w : W64, ∃ l : LaneId, ∃ q : W32, ∃ s : State, s.wordAt i 5 = some (w, l, q) ∧ wfld w 37 3 = 2 ∧ (wordStrokes i 1 s).1 = true) ∧
    (∃ i : ShellId, ∃ w : W64, ∃ l : LaneId, ∃ q : W32, ∃ s : State, s.wordAt i 5 = some (w, l, q) ∧ wfld w 37 3 = 3 ∧ (wordStrokes i 1 s).1 = true) ∧
    (∃ i : ShellId, ∃ w : W64, ∃ l : LaneId, ∃ q : W32, ∃ s : State, s.wordAt i 5 = some (w, l, q) ∧ wfld w 37 3 = 4 ∧ (wordStrokes i 1 s).1 = true) ∧
    (∃ i : ShellId, ∃ w : W64, ∃ l : LaneId, ∃ q : W32, ∃ s : State, s.wordAt i 5 = some (w, l, q) ∧ wfld w 37 3 = 5 ∧ (wordStrokes i 1 s).1 = true) ∧
    (∃ i : ShellId, ∃ w : W64, ∃ l : LaneId, ∃ q : W32, ∃ s : State, s.wordAt i 6 = some (w, l, q) ∧ (wordStrokes i 1 s).1 = true) ∧
    (∃ i : ShellId, ∃ w : W64, ∃ l : LaneId, ∃ q : W32, ∃ s : State, s.wordAt i 7 = some (w, l, q) ∧ (s.shell i).loops[wfld w 42 2]! < wfld w 22 20 ∧ (wordStrokes i 1 s).1 = true) ∧
    (∃ i : ShellId, ∃ w : W64, ∃ l : LaneId, ∃ q : W32, ∃ s : State, s.wordAt i 7 = some (w, l, q) ∧ wfld w 22 20 ≤ (s.shell i).loops[wfld w 42 2]! ∧ (wordStrokes i 1 s).1 = true) ∧
    (∃ i : ShellId, ∃ w : W64, ∃ l : LaneId, ∃ q : W32, ∃ s : State, s.wordAt i 0 = some (w, l, q) ∧ (s.shell i).inbound = [] ∧ (s.shell i).outbound = [] ∧ (wordStrokes i 1 s).1 = true) ∧
    (∃ i : ShellId, ∃ w : W64, ∃ l : LaneId, ∃ q : W32, ∃ s : State, s.wordAt i 0 = some (w, l, q) ∧ ((s.shell i).inbound ≠ [] ∨ (s.shell i).outbound ≠ [])) :=
  ⟨⟨0, 0x8100000000000000#64, 1, 0#32, fab 0x8100000000000000#64, by decide +kernel⟩,
   ⟨0, 0x5000010000000007#64, 1, 0#32, fab 0x5000010000000007#64, by decide +kernel⟩,
   ⟨0, 0x5000002000000007#64, 1, 0#32, fab 0x5000002000000007#64, by decide +kernel⟩,
   ⟨0, 0x5000004000000007#64, 1, 0#32, fab 0x5000004000000007#64, by decide +kernel⟩,
   ⟨0, 0x5000006000000007#64, 1, 0#32, fab 0x5000006000000007#64, by decide +kernel⟩,
   ⟨0, 0x5000008000000007#64, 1, 0#32, fab 0x5000008000000007#64, by decide +kernel⟩,
   ⟨0, 0x500000A000000003#64, 1, 0#32, fab 0x500000A000000003#64, by decide +kernel⟩,
   ⟨0, 0x6000020000020002#64, 1, 0#32, fab 0x6000020000020002#64, by decide +kernel⟩,
   ⟨0, 0x7000000000400000#64, 1, 0#32, fab 0x7000000000400000#64, by decide +kernel⟩,
   ⟨0, 0x7000000000000000#64, 1, 0#32, fab 0x7000000000000000#64, by decide +kernel⟩,
   ⟨0, 0#64, 1, 0#32, fab 0#64, by decide +kernel⟩,
   ⟨0, 0#64, 1, 0#32, (fab 0#64).setShell 0 fun x => { x with inbound := [{ out := false, rig := none, gl := {}, gr := {}, agr := 0, len := 1, landed := 0, lstep := 0, rstep := 0, tick := 15#4, addTo := none, frameAt := 0 }] }, by decide +kernel⟩⟩

/-- Every clause of WaitsAreSatisfied has its premises met. -/
theorem witness_WaitsAreSatisfied :
    (∃ i : ShellId, ∃ w : W64, ∃ l : LaneId, ∃ q : W32, ∃ s : State, (s.shell i).running = some (l, q) ∧ (s.shell i).word = some w ∧ s.strokes i = true ∧ wSel w ≠ 0 ∧ (s.shell i).waited = false ∧ ((s.tally (laneTally l (s.shell i).wait[wSel w].tally.toNat)).toNat % 65536 + 65536 - (s.shell i).wait[wSel w].target.toNat) % 65536 < 32768) ∧
    (∃ i : ShellId, ∃ w : W64, ∃ l : LaneId, ∃ q : W32, ∃ s : State, (s.shell i).running = some (l, q) ∧ (s.shell i).word = some w ∧ 32768 ≤ ((s.tally (laneTally l (s.shell i).wait[wSel w].tally.toNat)).toNat % 65536 + 65536 - (s.shell i).wait[wSel w].target.toNat) % 65536) :=
  ⟨⟨0, 0x8200000000000000#64, 1, 0#32, fab 0x8200000000000000#64, by decide +kernel⟩,
   ⟨0, 0x8200000000000000#64, 1, 0#32, { fab 0x8200000000000000#64 with tallies := [(256, 32768#32)] }, by decide +kernel⟩⟩

/-- Every clause of StrokesAndRigsRun has its premises met. -/
theorem witness_StrokesAndRigsRun :
    (∃ i : ShellId, ∃ w : W64, ∃ s : State, s.inService i = true ∧ s.strokes i = true ∧ (s.shell i).word = some w ∧ s.strokeWaits i w = false ∧ (s.shell i).done < (s.shell i).wordLen w) ∧
    (∃ i : ShellId, ∃ w : W64, ∃ s : State, (s.shell i).word = some w ∧ s.strokeWaits i w = true) ∧
    (∃ i : ShellId, ∃ w : W64, ∃ s : State, (s.shell i).word = some w ∧ (s.shell i).wordLen w ≤ (s.shell i).done) ∧
    (∃ i : ShellId, ∃ w : W64, ∃ l : LaneId, ∃ q : W32, ∃ s : State, ∃ f : RigFrame, s.wordAt i 2 = some (w, l, q) ∧ (s.shell i).slots[wNum w 40].pending = false ∧ (s.shell i).slots[wNum w 40].frame = some f ∧ (wordStrokes i ((s.shell i).wordLen w) s).1 = true) ∧
    (∃ i : ShellId, ∃ w : W64, ∃ l : LaneId, ∃ q : W32, ∃ s : State, s.wordAt i 2 = some (w, l, q) ∧ (s.shell i).slots[wNum w 40].pending = true) ∧
    (∃ i : ShellId, ∃ w : W64, ∃ l : LaneId, ∃ q : W32, ∃ s : State, ∃ h : Fin 16, s.wordAt i 3 = some (w, l, q) ∧ s.handleOf l q = some h ∧ (s.shell i).slots[wNum w 40].frameAt ≠ some (wfld w 0 38, h) ∧ (s.shell i).inbound.length < 8 ∧ (wordStrokes i 1 s).1 = true) ∧
    (∃ i : ShellId, ∃ w : W64, ∃ l : LaneId, ∃ q : W32, ∃ s : State, ∃ h : Fin 16, s.wordAt i 3 = some (w, l, q) ∧ s.handleOf l q = some h ∧ (s.shell i).slots[wNum w 40].frameAt = some (wfld w 0 38, h) ∧ (s.shell i).slots[wNum w 40].frame.isSome = true ∧ (s.shell i).slots[wNum w 40].pending = false ∧ (wordStrokes i 1 s).1 = true) ∧
    (∃ i : ShellId, ∃ w : W64, ∃ l : LaneId, ∃ q : W32, ∃ s : State, s.wordAt i 3 = some (w, l, q) ∧ 8 ≤ (s.shell i).inbound.length ∧ (∀ h : Fin 16, (s.shell i).slots[wNum w 40].frameAt ≠ some (wfld w 0 38, h))) ∧
    (∃ i : ShellId, ∃ d : Bool, ∃ w : W64, ∃ l : LaneId, ∃ q : W32, ∃ x : Transfer, ∃ s : State, s.wordAt i 4 = some (w, l, q) ∧ w.getLsbD 43 = d ∧ (if d then (s.shell i).outbound else (s.shell i).inbound).length < 8 ∧ (∀ y ∈ (s.shell i).streams, y.off = 0) ∧ x = {
        out := d, rig := none, gl := (s.shell i).ag[wNum w 39], gr := (s.shell i).ag[wNum w 35], agr := wNum w 35, len := wfld w 15 20 + 1, landed := 0
        lstep := (s.shell i).ag[wNum w 39].step, rstep := (s.shell i).ag[wNum w 35].step, tick := BitVec.ofNat 4 (wfld w 11 4), addTo := wordAddTo w
        frameAt := 0, dec := if (s.shell i).ag[wNum w 35].inView (s.shell i).ag[wNum w 35].step then some s.mem.decNext else none } ∧ (wordStrokes i 1 s).1 = true) ∧
    (∃ i : ShellId, ∃ w : W64, ∃ l : LaneId, ∃ q : W32, ∃ s : State, s.wordAt i 4 = some (w, l, q) ∧ w.getLsbD 43 = false ∧ 8 ≤ (s.shell i).inbound.length) ∧
    (∃ i : ShellId, ∃ w : W64, ∃ l : LaneId, ∃ q : W32, ∃ s : State, s.wordAt i 4 = some (w, l, q) ∧ w.getLsbD 43 = true ∧ 8 ≤ (s.shell i).outbound.length) :=
  ⟨⟨0, 0x1000000000000000#64, (fab 0x8000000000000000#64).setShell 0 fun x => { x with prog := [0x1000000000000000#64] }, by decide +kernel⟩,
   ⟨0, 0x8200000000000000#64, fab 0x8200000000000000#64, by decide +kernel⟩,
   ⟨0, 0x8000000000000000#64, (fab 0x8000000000000000#64).setShell 0 fun x => { x with done := 1 }, by decide +kernel⟩,
   ⟨0, 0x2000000000000000#64, 1, 0#32, (fab 0x2000000000000000#64).setShell 0 fun x => { x with slots := put x.slots 0 { frame := some (parseRig []) } }, parseRig [], by decide +kernel⟩,
   ⟨0, 0x2000000000000000#64, 1, 0#32, (fab 0x2000000000000000#64).setShell 0 fun x => { x with slots := put x.slots 0 { pending := true } }, by decide +kernel⟩,
   ⟨0, 0x3000000000000001#64, 1, 0#32, fab 0x3000000000000001#64, 0, by decide +kernel⟩,
   ⟨0, 0x3000000000000001#64, 1, 0#32, (fab 0x3000000000000001#64).setShell 0 fun x => { x with slots := put x.slots 0 { frameAt := some (1, 0), frame := some (parseRig []) } }, 0, by decide +kernel⟩,
   ⟨0, 0x3000000000000001#64, 1, 0#32, (fab 0x3000000000000001#64).setShell 0 fun x => { x with inbound := List.replicate 8 { out := false, rig := none, gl := {}, gr := {}, agr := 0, len := 1, landed := 0, lstep := 0, rstep := 0, tick := 15#4, addTo := none, frameAt := 0 } }, by decide +kernel⟩,
   ⟨0, false, 0x4000000800000000#64, 1, 0#32, { out := false, rig := none, gl := {}, gr := {}, agr := 1, len := 1, landed := 0, lstep := 0, rstep := 0, tick := 0#4, addTo := none, frameAt := 0, dec := none }, fab 0x4000000800000000#64, by decide +kernel⟩,
   ⟨0, 0x4000000800000000#64, 1, 0#32, (fab 0x4000000800000000#64).setShell 0 fun x => { x with inbound := List.replicate 8 { out := false, rig := none, gl := {}, gr := {}, agr := 0, len := 1, landed := 0, lstep := 0, rstep := 0, tick := 15#4, addTo := none, frameAt := 0 } }, by decide +kernel⟩,
   ⟨0, 0x4000080800000000#64, 1, 0#32, (fab 0x4000080800000000#64).setShell 0 fun x => { x with outbound := List.replicate 8 { out := true, rig := none, gl := {}, gr := {}, agr := 0, len := 1, landed := 0, lstep := 0, rstep := 0, tick := 15#4, addTo := none, frameAt := 0 } }, by decide +kernel⟩⟩

/-- Every clause of TransfersLand has its premises met. -/
theorem witness_TransfersLand :
    (∃ i : ShellId, ∃ d : Bool, ∃ l : LaneId, ∃ q : W32, ∃ x : Transfer, ∃ rest : List Transfer, ∃ n : Nat, ∃ s u : State, (s.shell i).running = some (l, q) ∧ (if d then (s.shell i).outbound else (s.shell i).inbound) = x :: rest ∧ x.rig = none ∧ (x.dec.isSome && !s.decodes (DecReq.isMove x.dec)) = false ∧ s.rail.floor = false ∧ s.transferLocked x (Nat.min n (x.len - x.landed)) = false ∧ s.portsHeld i x (Nat.min n (x.len - x.landed)) = false ∧ moveUnits i l q x x.landed (Nat.min n (x.len - x.landed)) s = (true, u)) ∧
    (∃ i : ShellId, ∃ l : LaneId, ∃ q : W32, ∃ x : Transfer, ∃ rest : List Transfer, ∃ b : List Byte, ∃ s u : State, (s.shell i).running = some (l, q) ∧ (s.shell i).inbound = x :: rest ∧ x.rig = none ∧ (x.dec.isSome && !s.decodes (DecReq.isMove x.dec)) = false ∧ s.rail.floor = false ∧ x.landed < x.len ∧ x.gl.off = false ∧ x.gl.course = false ∧ x.gl.addr (x.lstep + x.landed) + 64 ≤ 0x80000 ∧ s.transferLocked x 1 = false ∧ s.portsHeld i x 1 = false ∧ unitRead i l q x.gr (x.rstep + x.landed) s = (some b, u)) ∧
    (∃ i : ShellId, ∃ l : LaneId, ∃ q : W32, ∃ x : Transfer, ∃ rest : List Transfer, ∃ n : Nat, ∃ s : State, (s.shell i).running = some (l, q) ∧ (s.shell i).inbound = x :: rest ∧ (s.rail.floor = true ∨ s.transferLocked x (Nat.min n (x.len - x.landed)) = true ∨ s.portsHeld i x (Nat.min n (x.len - x.landed)) = true)) ∧
    (∃ i : ShellId, ∃ k : Fin 16, ∃ l : LaneId, ∃ q : W32, ∃ x : Transfer, ∃ rest : List Transfer, ∃ b im : List Byte, ∃ s u v : State, (s.shell i).running = some (l, q) ∧ (s.shell i).inbound = x :: rest ∧ x.rig = some k ∧ s.rail.floor = false ∧ s.unitsStall x.frameAt 64 = false ∧ heatUnits l q x.frameAt 64 s = (some b, u) ∧ rigCrcOk b = true ∧ ((parseRig b).writesTable && s.unitsStall (x.frameAt + 64) (imageUnits (parseRig b))) = false ∧ imageFetch l q x.frameAt (parseRig b) u = (some im, v) ∧ (!(parseRig b).writesTable || nAt im (64 * (imageUnits (parseRig b) - 1)) 4 == (crc32 (im.take (imageBytes (parseRig b)))).toNat) = true) ∧
    (∃ i : ShellId, ∃ ag : Fin 16, ∃ w : W64, ∃ l : LaneId, ∃ q : W32, ∃ f : RigFrame, ∃ b : List Byte, ∃ s u : State, s.wordAt i 1 = some (w, l, q) ∧ (s.shell i).frame = some f ∧ (runAgs w).contains ag = true ∧ (s.shell i).ag[ag].streams = true ∧ feedBytesIn f (runAgs w) ag ≠ 0 ∧ ((s.shell i).stream ag).ahead.length < (((s.shell i).stream ag).off + Nat.min (s.shell i).done (runCount w) * feedBytesIn f (runAgs w) ag) / 64 + 32 ∧ (chains w f = true ∨ 64 * ((s.shell i).stream ag).ahead.length < ((s.shell i).stream ag).off + runCount w * feedBytesIn f (runAgs w) ag) ∧ (s.shell i).ag[ag].inView ((s.shell i).ag[ag].step + ((s.shell i).stream ag).ahead.length) = true → s.decodes (DecReq.isStream i ag) = true ∧ s.rail.floor = false ∧ s.courseStalls false (64 * (s.shell i).ag[ag].addr ((s.shell i).ag[ag].step + ((s.shell i).stream ag).ahead.length)) = false ∧ unitRead i l q (s.shell i).ag[ag] ((s.shell i).ag[ag].step + ((s.shell i).stream ag).ahead.length) s = (some b, u)) ∧
    (∃ i : ShellId, ∃ ag : Fin 16, ∃ w : W64, ∃ l : LaneId, ∃ q : W32, ∃ f : RigFrame, ∃ s : State, s.wordAt i 1 = some (w, l, q) ∧ (s.shell i).frame = some f ∧ (((s.shell i).stream ag).off + Nat.min (s.shell i).done (runCount w) * feedBytesIn f (runAgs w) ag) / 64 + 32 ≤ ((s.shell i).stream ag).ahead.length) ∧
    (∃ i : ShellId, ∃ ag : Fin 16, ∃ r : DecReq, ∃ rest : List DecReq, ∃ d : Fin 4, ∃ s : State, s.mem.decQueue = r :: rest ∧ r.shell = i ∧ r.ag = ag ∧ freeDecoder s = some d) ∧
    (∃ _i : ShellId, ∃ _ag : Fin 16, ∃ s : State, freeDecoder s = none) ∧
    (∃ d : Fin 4, ∃ r : DecReq, ∃ s : State, s.mem.decoder[d].busy = some r ∧ s.mem.decoder[d].loading = true) :=
  ⟨⟨0, false, 1, 0#32, { out := false, rig := none, gl := {}, gr := { base := 1#37 }, agr := 0, len := 1, landed := 0, lstep := 0, rstep := 0, tick := 15#4, addTo := none, frameAt := 0 }, [], 0, (fab 0#64).setShell 0 fun x => { x with inbound := [{ out := false, rig := none, gl := {}, gr := { base := 1#37 }, agr := 0, len := 1, landed := 0, lstep := 0, rstep := 0, tick := 15#4, addTo := none, frameAt := 0 }] }, (fab 0#64).setShell 0 fun x => { x with inbound := [{ out := false, rig := none, gl := {}, gr := { base := 1#37 }, agr := 0, len := 1, landed := 0, lstep := 0, rstep := 0, tick := 15#4, addTo := none, frameAt := 0 }] }, by decide +kernel⟩,
   ⟨0, 1, 0#32, { moveIn with len := 1 }, [], (unitRead 0 1 0#32 moveIn.gr 0 (moving moveIn)).1.getD [], moving { moveIn with len := 1 }, (unitRead 0 1 0#32 moveIn.gr 0 (moving { moveIn with len := 1 })).2, by decide +kernel⟩,
   ⟨0, 1, 0#32, { out := false, rig := none, gl := {}, gr := { base := 1#37 }, agr := 0, len := 1, landed := 0, lstep := 0, rstep := 0, tick := 15#4, addTo := none, frameAt := 0 }, [], 1, { (moving { out := false, rig := none, gl := {}, gr := { base := 1#37 }, agr := 0, len := 1, landed := 0, lstep := 0, rstep := 0, tick := 15#4, addTo := none, frameAt := 0 }) with rail := { floor := true } }, by decide +kernel⟩,
   ⟨0, 0, 1, 0#32, rigLoad, [], rigRead.1.getD [], [], fabRig 0#64, rigRead.2, rigRead.2, by decide +kernel, by decide +kernel, by decide +kernel, by decide +kernel, by decide +kernel, rig_read, by decide +kernel, by decide +kernel, by decide +kernel, by decide +kernel⟩,
   ⟨0, 0, 0x1000000000000000#64, 1, 0#32, streamRig, (unitRead 0 1 0#32 (fabStream.shell 0).ag[0] 0 fabStream).1.getD [], fabStream, (unitRead 0 1 0#32 (fabStream.shell 0).ag[0] 0 fabStream).2, by decide +kernel⟩,
   ⟨0, 0, 0x1000000000000000#64, 1, 0#32, streamRig, fabStream.setShell 0 fun x => { x with streams := [{ ag := 0, ahead := List.replicate 32 [] }] }, by decide +kernel⟩,
   ⟨0, 0, { shell := 0, ag := 0, table := 0, handle := 0 }, [], 0, { up with mem := { up.mem with decQueue := [{ shell := 0, ag := 0, table := 0, handle := 0 }] } }, by decide +kernel⟩,
   ⟨0, 0, { up with faults := { up.faults with decoders := Vector.replicate 4 .fenced } }, by decide +kernel⟩,
   ⟨0, { shell := 0, ag := 0, table := 0, handle := 0 }, { up with mem := { up.mem with decoder := put up.mem.decoder 0 { busy := some { shell := 0, ag := 0, table := 0, handle := 0 }, loading := true } } }, by decide +kernel⟩⟩

/-- Every clause of RunDoesItsItems has its premises met. -/
theorem witness_RunDoesItsItems :
    (∃ i : ShellId, ∃ w : W64, ∃ l : LaneId, ∃ q : W32, ∃ f : RigFrame, ∃ r : HeatRun, ∃ items : List WorkItem, ∃ x : Rx, ∃ s u : State, s.wordAt i 1 = some (w, l, q) ∧ (s.shell i).frame = some f ∧ (s.lane l).run q = some r ∧ w.getLsbD 3 = false ∧ wordStrokes i ((s.shell i).wordLen w) s = (true, u) ∧ (s.shell i).starvedAt w (runCount w) = false ∧ workWhole (runEnv i l q w f r s) items = true ∧ doWork (runEnv i l q w f r u) items { s := u, begun := r.begun } = x ∧ x.bad = false ∧ drained (runEnv i l q w f r u) x = true) ∧
    (∃ i : ShellId, ∃ w : W64, ∃ l : LaneId, ∃ q : W32, ∃ f : RigFrame, ∃ r : HeatRun, ∃ s : State, s.wordAt i 1 = some (w, l, q) ∧ (s.shell i).frame = some f ∧ (s.lane l).run q = some r ∧ w.getLsbD 3 = true ∧ (wordStrokes i ((s.shell i).wordLen w) s).1 = true ∧ (s.shell i).starvedAt w (runCount w) = false ∧ workWhole (runEnv i l q w f r s) [] = true) ∧
    (∃ i : ShellId, ∃ w : W64, ∃ l : LaneId, ∃ q : W32, ∃ f : RigFrame, ∃ r : HeatRun, ∃ wk : RunWork, ∃ s u : State, s.wordAt i 1 = some (w, l, q) ∧ (s.shell i).frame = some f ∧ (s.lane l).run q = some r ∧ wordStrokes i ((s.shell i).wordLen w) s = (true, u) ∧ ((s.shell i).starvedAt w (runCount w) = true ∨ workWhole (runEnv i l q w f r s) wk.items = false)) ∧
    (∃ i : ShellId, ∃ w : W64, ∃ l : LaneId, ∃ q : W32, ∃ f : RigFrame, ∃ r : HeatRun, ∃ wk : RunWork, ∃ s u : State, s.wordAt i 1 = some (w, l, q) ∧ (s.shell i).frame = some f ∧ (s.lane l).run q = some r ∧ wordStrokes i ((s.shell i).wordLen w) s = (false, u) ∧ wk.fault = .fine) :=
  ⟨⟨0, 0x1000000000000000#64, 1, 0#32, parseRig [], { seq := 0#32, st := .segment, started := true, open_ := [0] }, [], doWork (runEnv 0 1 0#32 0x1000000000000000#64 (parseRig []) { seq := 0#32, st := .segment, started := true, open_ := [0] } (wordStrokes 0 1 (fabRig 0x1000000000000000#64)).2) [] { s := (wordStrokes 0 1 (fabRig 0x1000000000000000#64)).2 }, fabRig 0x1000000000000000#64, (wordStrokes 0 1 (fabRig 0x1000000000000000#64)).2, by decide +kernel, by decide +kernel, by decide +kernel, by decide +kernel, by decide +kernel, by decide +kernel, by decide +kernel, rfl, by decide +kernel, by decide +kernel⟩,
   ⟨0, 0x100000000000000C#64, 1, 0#32, parseRig [], { seq := 0#32, st := .segment, started := true, open_ := [0] }, fabRig 0x100000000000000C#64, by decide +kernel⟩,
   ⟨0, 0x1000000000000000#64, 1, 0#32, streamRig, { seq := 0#32, st := .segment, started := true, open_ := [0] }, {}, fabStream, (wordStrokes 0 1 fabStream).2, by decide +kernel⟩,
   ⟨0, 0x1000000000000000#64, 1, 0#32, parseRig [], { seq := 0#32, st := .segment, started := true, open_ := [0] }, {}, { fabRig 0x1000000000000000#64 with str := { stepping := some (0, 0, 0) } }, (wordStrokes 0 1 { fabRig 0x1000000000000000#64 with str := { stepping := some (0, 0, 0) } }).2, by decide +kernel⟩⟩

/-- Every clause of CrossingsAreFifos has its premises met. -/
theorem witness_CrossingsAreFifos :
    (∃ c : Clk, ∃ _w : W64, ∃ s : State, s.clk.absent.getLsbD c.val = false ∧ s.clk.inbound[c].length < 4) ∧
    (∃ c : Clk, ∃ _w : W64, ∃ s : State, s.clk.absent.getLsbD c.val = false ∧ s.clk.outbound[c].length < 4) ∧
    (∃ c : Clk, ∃ _w : W64, ∃ s : State, 4 ≤ s.clk.inbound[c].length) ∧
    (∃ c : Clk, ∃ w : W64, ∃ r : List W64, ∃ s : State, s.clk.absent.getLsbD c.val = false ∧ s.clk.inbound[c] = w :: r) ∧
    (∃ c : Clk, ∃ _b : Bool, ∃ _w : Option W64, ∃ s : State, s.clk.absent.getLsbD c.val = true) :=
  ⟨⟨0, 7#64, up, by decide +kernel⟩,
   ⟨0, 7#64, up, by decide +kernel⟩,
   ⟨0, 7#64, { up with clk := { up.clk with inbound := put up.clk.inbound 0 [1#64, 2#64, 3#64, 4#64] } }, by decide +kernel⟩,
   ⟨0, 1#64, [2#64], { up with clk := { up.clk with inbound := put up.clk.inbound 0 [1#64, 2#64] } }, by decide +kernel⟩,
   ⟨0, true, none, { up with clk := { up.clk with absent := 1#14 } }, by decide +kernel⟩⟩

/-- Every clause of ArbitersAreFair has its premises met. -/
theorem witness_ArbitersAreFair :
    (∃ a : Arbiter, ∃ k : Nat, ∃ ws : List (BitVec 24 × Fin 24), ∃ s : State, a.key.1 < 520 ∧ k < a.key.2 ∧ ws.length = a.key.2 ∧ ((ws.all fun w => w.1.getLsbD k) = true) ∧ (Tab.get? s.clk.arbLast a.key.1).isSome = true) ∧
    (∃ a : Arbiter, ∃ w : BitVec 24, ∃ f : Fin 24, ∃ s : State, a.key.1 < 520 ∧ Tab.get? s.clk.arbLast a.key.1 = none ∧ f.val < a.key.2 ∧ w.getLsbD f.val = true) :=
  ⟨⟨.window, 4, List.replicate 5 (0x1F#24, 0), { up with clk := { up.clk with arbLast := [(511, 4)] } }, by decide +kernel⟩,
   ⟨.window, 0x1F#24, 4, up, by decide +kernel⟩⟩

/-- Every clause of ClocksAreLostAndReturn has its premises met. -/
theorem witness_ClocksAreLostAndReturn :
    (∃ s : State, clockWatched Clk.slow s = true) ∧
    (∃ s : State, clockWatched Clk.ref s = true) ∧
    (∃ s : State, clockWatched Clk.eyeck s = true) ∧
    (∃ s : State, clockWatched Clk.audo s = true ∧ s.absent Clk.eyeck = false) ∧
    (∃ c : Clk, ∃ s : State, s.absent c = true) ∧
    (∃ s : State, s.absent Clk.slow = true) ∧
    (∃ s : State, s.absent Clk.sns = true ∧ s.rail.gov = .frozen ∧ bit s.rail.ctrl 31 = false) ∧
    (∃ p : Pll, ∃ s : State, p.down s = true ∧ s.clk.tries p < 2) ∧
    (∃ s : State, s.absent Clk.eyeck = true ∧ s.clk.tries .epll < 3) ∧
    (∃ s : State, Pll.down .apll s = true ∧ s.clk.apllTries = 2) :=
  ⟨⟨up, by decide +kernel⟩,
   ⟨up, by decide +kernel⟩,
   ⟨up, by decide +kernel⟩,
   ⟨up, by decide +kernel⟩,
   ⟨1, { up with clk := { up.clk with absent := 2#14 } }, by decide +kernel⟩,
   ⟨{ up with clk := { up.clk with absent := 2#14 } }, by decide +kernel⟩,
   ⟨{ up with clk := { up.clk with absent := 0x2000#14 }, rail := { gov := .frozen } }, by decide +kernel⟩,
   ⟨.ddr, { up with clk := { up.clk with absent := 4#14, ddrTries := 1 } }, by decide +kernel⟩,
   ⟨{ up with clk := { up.clk with absent := 0x400#14, epllTries := 2 } }, by decide +kernel⟩,
   ⟨{ up with clk := { up.clk with absent := 0x200#14, apllTries := 2 } }, by decide +kernel⟩⟩

/-- Every clause of LanesOpenAndClose has its premises met. -/
theorem witness_LanesOpenAndClose :
    (∃ c : Caller, ∃ _l : LaneId, ∃ s : State, Takes c s) ∧
    (∃ c : Caller, ∃ l : LaneId, ∃ _q : Option W32, ∃ _p : Option (BitVec 2), ∃ s : State, Takes c s ∧ l ≠ 0 ∧ (s.lane l).st = .free) ∧
    (∃ c : Caller, ∃ l : LaneId, ∃ _q : Option W32, ∃ _p : Option (BitVec 2), ∃ s : State, Takes c s ∧ l ≠ 0 ∧ (s.lane l).st ≠ .free ∧ (¬((s.lane l).st = .orphaned ∧ c.path = .host))) ∧
    (∃ c : Caller, ∃ l : LaneId, ∃ _q : Option W32, ∃ _p : Option (BitVec 2), ∃ s : State, Takes c s ∧ (s.lane l).st = .orphaned ∧ c.path = .host) ∧
    (∃ c : Caller, ∃ _q : Option W32, ∃ _p : Option (BitVec 2), ∃ s : State, Takes c s) ∧
    (∃ c : Caller, ∃ l : LaneId, ∃ s : State, Takes c s ∧ l ≠ 0 ∧ (s.lane l).st ≠ .scrub ∧ (s.lane l).owner = c.path.owner ∧ (s.lane l).next = (s.lane l).oldest) ∧
    (∃ c : Caller, ∃ l : LaneId, ∃ s : State, Takes c s ∧ l ≠ 0 ∧ (s.lane l).st ≠ .scrub ∧ (s.lane l).owner = c.path.owner ∧ (s.lane l).next ≠ (s.lane l).oldest) ∧
    (∃ c : Caller, ∃ l : LaneId, ∃ s : State, Takes c s ∧ l ≠ 0 ∧ (s.lane l).st = .orphaned) ∧
    (∃ c : Caller, ∃ l : LaneId, ∃ s : State, Takes c s ∧ (s.lane l).st ≠ .orphaned) ∧
    (∃ c : Caller, ∃ l : LaneId, ∃ s : State, Takes c s ∧ l ≠ 0 ∧ (s.lane l).st = .orphaned) :=
  ⟨⟨Caller.line, 1, rdy, by decide +kernel⟩,
   ⟨Caller.line, 2, some 7#32, none, rdy, by decide +kernel⟩,
   ⟨Caller.line, 1, none, none, rdy, by decide +kernel⟩,
   ⟨{ Caller.line with path := .host }, 1, none, none, rdy.setLane 1 fun L => { L with st := .orphaned, owner := .nobody }, by decide +kernel⟩,
   ⟨Caller.line, none, none, rdy, by decide +kernel⟩,
   ⟨Caller.line, 1, rdy, by decide +kernel⟩,
   ⟨Caller.line, 1, held0, by decide +kernel⟩,
   ⟨Caller.line, 1, (heat0 { seq := 0#32 }).setLane 1 fun L => { L with st := .orphaned, owner := .nobody }, by decide +kernel⟩,
   ⟨Caller.line, 0, rdy, by decide +kernel⟩,
   ⟨Caller.line, 1, held0.setLane 1 fun L => { L with st := .orphaned, owner := .nobody }, by decide +kernel⟩⟩

/-- Every clause of HeatsAreSubmittedAndTaken has its premises met. -/
theorem witness_HeatsAreSubmittedAndTaken :
    (∃ c : Caller, ∃ l : LaneId, ∃ sq : Option W32, ∃ h e : Nat, ∃ a : List HeatArg, ∃ k : Fin 16, ∃ x : Entry, ∃ s : State, Takes c s ∧ (sq = some (s.lane l).next ∨ (sq = none ∧ c.path = .call ∧ s.call.terse = false)) ∧ (s.lane l).st = .opened ∧ (s.lane l).owner = c.path.owner ∧ (s.lane l).recovering = false ∧ (heatChecks l h e a s).toOption = some (k, x)) ∧
    (∃ c : Caller, ∃ l : LaneId, ∃ _q : W32, ∃ _h _e : Nat, ∃ _a : List HeatArg, ∃ s : State, Takes c s ∧ (s.lane l).recovering = true) ∧
    (∃ c : Caller, ∃ l : LaneId, ∃ _q : W32, ∃ _h _e : Nat, ∃ _a : List HeatArg, ∃ s : State, Takes c s ∧ (s.lane l).recovering = false ∧ (s.lane l).st ≠ .scrub ∧ (s.lane l).owner ≠ c.path.owner) ∧
    (∃ c : Caller, ∃ l : LaneId, ∃ q : W32, ∃ a : AcceptRec, ∃ st : StatsRec, ∃ r : RetireRec, ∃ s : State, Takes c s ∧ (s.lane l).st ≠ .scrub ∧ (s.lane l).owner = c.path.owner ∧ (s.lane l).heldSeqs.contains q = true ∧ (s.lane l).completion q = some (a, st, r)) ∧
    (∃ c : Caller, ∃ l : LaneId, ∃ _q : Option W32, ∃ s : State, Takes c s ∧ (s.lane l).st ≠ .scrub ∧ (s.lane l).owner = c.path.owner ∧ (s.lane l).heldSeqs = []) ∧
    (∃ c : Caller, ∃ l : LaneId, ∃ q : W32, ∃ _ms : Nat, ∃ a : AcceptRec, ∃ r : RetireRec, ∃ s : State, Takes c s ∧ (s.lane l).st ≠ .scrub ∧ (s.lane l).owner = c.path.owner ∧ (s.lane l).acceptOf q = some a ∧ (s.lane l).retireOf q = some r) ∧
    (∃ c : Caller, ∃ l : LaneId, ∃ q : W32, ∃ _ms : Nat, ∃ s : State, Takes c s ∧ (s.lane l).st ≠ .scrub ∧ (s.lane l).owner = c.path.owner ∧ (s.lane l).block q = none ∧ (s.lane l).overwritten q = false) ∧
    (∃ c : Caller, ∃ l : LaneId, ∃ q : W32, ∃ _ms : Nat, ∃ a : AcceptRec, ∃ s : State, Takes c s ∧ c.path = .call ∧ (s.lane l).st ≠ .scrub ∧ (s.lane l).owner = .call ∧ (s.lane l).acceptOf q = some a ∧ (s.lane l).retireOf q = none) ∧
    (∃ w : WaitRec, ∃ s : State, s.call.wait = some w ∧ w.caller.path = .call) :=
  ⟨⟨Caller.line, 1, none, 0, 0, [], 0, entry0, rdy, by decide +kernel⟩,
   ⟨Caller.line, 1, 0#32, 0, 0, [], rdy.setLane 1 fun L => { L with recovering := true }, by decide +kernel⟩,
   ⟨Caller.line, 2, 0#32, 0, 0, [], rdy, by decide +kernel⟩,
   ⟨Caller.line, 1, 0#32, acc0, { counts := {}, altMap := 0#128 }, ret0, held0, by decide +kernel⟩,
   ⟨Caller.line, 1, none, rdy, by decide +kernel⟩,
   ⟨Caller.line, 1, 0#32, 5, acc0, ret0, held0, by decide +kernel⟩,
   ⟨Caller.line, 1, 872#32, 5, rdy, by decide +kernel⟩,
   ⟨Caller.line, 1, 0#32, 5, acc0, heat0 { seq := 0#32 }, by decide +kernel⟩,
   ⟨{ lane := 1, seq := 0#32, caller := Caller.line }, { (heat0 { seq := 0#32 }) with call := { wait := some { lane := 1, seq := 0#32, caller := Caller.line }, running := some "WAIT" } }, by decide +kernel⟩⟩

/-- Every clause of HeatsRunTheirCourse has its premises met. -/
theorem witness_HeatsRunTheirCourse :
    (∃ l : LaneId, ∃ q : W32, ∃ r : HeatRun, ∃ a : AcceptRec, ∃ e : Entry, ∃ g : Segment, ∃ v : Fin 3, ∃ m : Vector (Option ShellId) 16, ∃ s : State, (s.lane l).run q = some r ∧ (s.lane l).acceptOf q = some a ∧ s.entryOf l q = some e ∧ r.started = false ∧ heatReady l r s = true ∧ noStep e a s = false ∧ s.updates l q = none ∧ nextSeg l r s = some (g, v, m) ∧ shellsFree l r (segShells m g) s = true) ∧
    (∃ l : LaneId, ∃ q : W32, ∃ r : HeatRun, ∃ a : AcceptRec, ∃ e : Entry, ∃ s : State, (s.lane l).run q = some r ∧ (s.lane l).acceptOf q = some a ∧ s.entryOf l q = some e ∧ r.started = false ∧ heatReady l r s = true ∧ noStep e a s = false ∧ s.updates l q = none ∧ nextSeg l r s = none) ∧
    (∃ l : LaneId, ∃ q : W32, ∃ r : HeatRun, ∃ a : AcceptRec, ∃ e : Entry, ∃ g : Segment, ∃ v : Fin 3, ∃ m : Vector (Option ShellId) 16, ∃ s : State, (s.lane l).run q = some r ∧ (s.lane l).acceptOf q = some a ∧ s.entryOf l q = some e ∧ r.started = true ∧ nextSeg l r s = some (g, v, m) ∧ shellsFree l r (segShells m g) s = true) ∧
    (∃ l : LaneId, ∃ q : W32, ∃ r : HeatRun, ∃ g : Segment, ∃ s : State, (s.lane l).run q = some r ∧ r.st = .segment ∧ r.open_ = [] ∧ (s.planOf l q).seg? r.seg = some g ∧ g.next = none) ∧
    (∃ l : LaneId, ∃ q : W32, ∃ r : HeatRun, ∃ g : Segment, ∃ c : Check, ∃ s : State, (s.lane l).run q = some r ∧ r.st = .segment ∧ r.open_ = [] ∧ (s.planOf l q).seg? r.seg = some g ∧ g.next = some c.number ∧ (s.planOf l q).checks.find? (fun x => x.number == c.number) = some c ∧ c.span = none ∧ c.rule = 0 ∧ c.alts = [⟨some 7, 0, 65535⟩] ∧ g.span = none) ∧
    (∃ l : LaneId, ∃ q : W32, ∃ r : HeatRun, ∃ s : State, (s.lane l).run q = some r ∧ r.started = true ∧ r.failed = none) ∧
    (∃ l : LaneId, ∃ q : W32, ∃ r : HeatRun, ∃ e : Entry, ∃ s : State, (s.lane l).run q = some r ∧ s.entryOf l q = some e ∧ r.since.isSome = true ∧ r.st = .segment ∧ r.trips ≠ 0) ∧
    (∃ l : LaneId, ∃ q : W32, ∃ r : HeatRun, ∃ e : Entry, ∃ s : State, (s.lane l).run q = some r ∧ s.entryOf l q = some e ∧ r.since.isSome = true ∧ r.st = .segment ∧ r.trips = 0 ∧ r.started = true ∧ r.failed = none ∧ r.restarts ≠ 7) ∧
    (∃ l : LaneId, ∃ q : W32, ∃ r : HeatRun, ∃ rest : List HeatRun, ∃ _seen : LookSeen, ∃ a : AcceptRec, ∃ s : State, (s.lane l).runs = r :: rest ∧ r.seq = q ∧ r.st = .ended ∧ r.writeFailed = false ∧ (s.lane l).recovering = false ∧ (s.lane l).stalled = false ∧ (s.lane l).st ≠ .scrub ∧ (s.lane l).acceptOf q = some a ∧ l = 0 → s.eye.hold = true) ∧
    (∃ q : W32, ∃ r : HeatRun, ∃ rest : List HeatRun, ∃ _seen : LookSeen, ∃ s : State, (s.lane 0).runs = r :: rest ∧ r.seq = q ∧ r.st = .ended ∧ r.writeFailed = false ∧ (s.lane 0).recovering = false ∧ (s.lane 0).stalled = false ∧ (s.lane 0).st ≠ .scrub) :=
  ⟨⟨1, 0#32, { seq := 0#32 }, acc0, entry0, seg0, 0, up.map, heat0 { seq := 0#32 }, by decide +kernel⟩,
   ⟨1, 0#32, { seq := 0#32 }, acc0, entry0, { (heat0 { seq := 0#32 }) with map := Vector.replicate 16 none }, by decide +kernel⟩,
   ⟨1, 0#32, { seq := 0#32, st := .between 0, started := true, map := up.map }, acc0, entry0, seg0, 0, up.map, heat0 { seq := 0#32, st := .between 0, started := true, map := up.map }, by decide +kernel⟩,
   ⟨1, 0#32, { seq := 0#32, st := .segment, started := true, since := some 0#64, map := up.map }, seg0, heat0 { seq := 0#32, st := .segment, started := true, since := some 0#64, map := up.map }, by decide +kernel⟩,
   ⟨1, 0#32, { seq := 0#32, st := .segment, started := true, since := some 0#64, map := up.map }, { seg0 with next := some 3 }, { number := 3, rule := 0, span := none, i16seg := none, h16seg := none, source := 0, param := 0#32, alts := [⟨some 7, 0, 65535⟩] }, (heat0 { seq := 0#32, st := .segment, started := true, since := some 0#64, map := up.map }).setBundle 0 fun b => { b with plan := { b.plan with segments := [{ seg0 with next := some 3 }], checks := [{ number := 3, rule := 0, span := none, i16seg := none, h16seg := none, source := 0, param := 0#32, alts := [⟨some 7, 0, 65535⟩] }] } }, by decide +kernel⟩,
   ⟨1, 0#32, { seq := 0#32, st := .segment, started := true, since := some 0#64, map := up.map }, heat0 { seq := 0#32, st := .segment, started := true, since := some 0#64, map := up.map }, by decide +kernel⟩,
   ⟨1, 0#32, { seq := 0#32, st := .segment, started := true, since := some 0#64, trips := 1 }, entry0, heat0 { seq := 0#32, st := .segment, started := true, since := some 0#64, trips := 1 }, by decide +kernel⟩,
   ⟨1, 0#32, { seq := 0#32, st := .segment, started := true, since := some 0#64, map := up.map }, entry0, heat0 { seq := 0#32, st := .segment, started := true, since := some 0#64, map := up.map }, by decide +kernel⟩,
   ⟨1, 0#32, { seq := 0#32, st := .ended, started := true }, [], {}, acc0, heat0 { seq := 0#32, st := .ended, started := true }, by decide +kernel⟩,
   ⟨0#32, { seq := 0#32, st := .ended, started := true }, [], {}, { up with lanes := put up.lanes 0 { st := .opened, owner := .engine, next := 1#32, runs := [{ seq := 0#32, st := .ended, started := true }], journal := [(0, { seq := 0#32, accept := some acc0, stats := none, retire := none })] } }, by decide +kernel⟩⟩

/-- Every clause of ScrubForgetsALane has its premises met. -/
theorem witness_ScrubForgetsALane :
    (∃ c : Caller, ∃ l : LaneId, ∃ s : State, Takes c s ∧ c.path = .call ∧ l ≠ 0 ∧ (s.lane l).st = .opened ∧ (s.lane l).owner = .call) ∧
    (∃ l : LaneId, ∃ s : State, (s.lane l).scrubStep = some 1) ∧
    (∃ l : LaneId, ∃ s : State, (s.lane l).scrubStep = some 2) ∧
    (∃ l : LaneId, ∃ s : State, (s.lane l).scrubStep = some 3 ∧ l = 3 → adapterReaders s = false) ∧
    (∃ s : State, (s.lane 3).scrubStep = some 3 ∧ adapterReaders s = true) ∧
    (∃ l : LaneId, ∃ s : State, (s.lane l).scrubStep = some 4) ∧
    (∃ l : LaneId, ∃ s : State, (s.lane l).scrubStep = some 5) ∧
    (∃ l : LaneId, ∃ s : State, (s.lane l).scrubStep = some 6 ∧ s.start.banner = true) :=
  ⟨⟨Caller.line, 1, held0, by decide +kernel⟩,
   ⟨1, (heat0 { seq := 0#32 }).setLane 1 fun L => { L with st := .scrub, owner := .nobody, scrubStep := some 1 }, by decide +kernel⟩,
   ⟨1, up.setLane 1 fun L => { L with st := .scrub, scrubStep := some 2 }, by decide +kernel⟩,
   ⟨1, up.setLane 1 fun L => { L with st := .scrub, scrubStep := some 3 }, by decide +kernel⟩,
   ⟨{ (fab 0#64) with lanes := (up.setLane 3 fun L => { L with st := .scrub, scrubStep := some 3 }).lanes.set 1 { runs := [{ seq := 0#32, started := true, ad := some { slot := 0, ver := 1#32, set := false } }] } }, by decide +kernel⟩,
   ⟨1, { (fab 0#64).setLane 1 fun L => { L with st := .scrub, scrubStep := some 4 } with tallies := [(256, 5#32), (512, 6#32)] }, by decide +kernel⟩,
   ⟨1, up.setLane 1 fun L => { L with st := .scrub, scrubStep := some 5 }, by decide +kernel⟩,
   ⟨1, up.setLane 1 fun L => { L with st := .scrub, scrubStep := some 6 }, by decide +kernel⟩⟩

/-- Every clause of DramIsReadWrittenAndChecked has its premises met. -/
theorem witness_DramIsReadWrittenAndChecked :
    (∃ _h : Option (LaneId × W32), ∃ u : BitVec 28, ∃ s : State, s.dramUp = true ∧ s.pageLocked u.toNat = false ∧ u.toNat < s.mem.usable.toNat * 1024 ∧ s.mem.poison.contains u.toNat = false) ∧
    (∃ _h : Option (LaneId × W32), ∃ u : BitVec 28, ∃ s : State, s.dramUp = true ∧ s.pageLocked u.toNat = false ∧ u.toNat < s.mem.usable.toNat * 1024 ∧ s.mem.poison.contains u.toNat = false) ∧
    (∃ u : BitVec 28, ∃ s : State, s.dramUp = true ∧ s.pageLocked u.toNat = false ∧ u.toNat < s.mem.usable.toNat * 1024) ∧
    (∃ _h : Option (LaneId × W32), ∃ u : BitVec 28, ∃ _b : List Byte, ∃ k : Nat, ∃ s : State, s.dramUp = true ∧ s.pageLocked u.toNat = false ∧ u.toNat < s.mem.usable.toNat * 1024 ∧ s.keyOf (u.toNat / 1024) = some k) ∧
    (∃ l : LaneId, ∃ q : W32, ∃ r : HeatRun, ∃ u : BitVec 28, ∃ _b : List Byte, ∃ s : State, s.dramUp = true ∧ s.pageLocked u.toNat = false ∧ u.toNat < s.mem.usable.toNat * 1024 ∧ (s.lane l).run q = some r) ∧
    (∃ _h : Option (LaneId × W32), ∃ u : BitVec 28, ∃ _w : Option (List Byte), ∃ _e : DramErr, ∃ s : State, s.mem.usable.toNat * 1024 ≤ u.toNat) ∧
    (∃ _h : Option (LaneId × W32), ∃ u : BitVec 28, ∃ _w : Option (List Byte), ∃ _e : DramErr, ∃ _x : Option (List Byte), ∃ s : State, s.pageLocked u.toNat = true) ∧
    (∃ s : State, s.dramUp = true ∧ s.mem.usable ≠ 0#18) ∧
    (∃ s : State, s.dramUp = true ∧ s.mem.usable ≠ 0#18) ∧
    (∃ p : BitVec 18, ∃ s : State, p.toNat < s.mem.usable.toNat ∧ s.pageBad p.toNat = true ∧ s.mem.retiring.contains p.toNat = false ∧ s.rotationLocks p.toNat = false ∧ s.mem.retired.length + s.mem.retiring.length < 256) ∧
    (∃ p : BitVec 18, ∃ s : State, p.toNat < s.mem.usable.toNat ∧ s.pageBad p.toNat = true ∧ s.mem.retiring.contains p.toNat = false ∧ s.rotationLocks p.toNat = false ∧ 256 ≤ s.mem.retired.length + s.mem.retiring.length) ∧
    (∃ p : BitVec 18, ∃ s : State, s.mem.retiring.contains p.toNat = true) ∧
    (∃ u : BitVec 28, ∃ k : Nat, ∃ s : State, s.dramUp = true ∧ s.pageLocked u.toNat = false ∧ u.toNat < s.mem.usable.toNat * 1024 ∧ s.windowOpen u.toNat = true ∧ s.mem.poison.contains u.toNat = false ∧ s.keyOf (u.toNat / 1024) = some k ∧ Tab.get? s.mem.unitKey u.toNat = some k ∧ k ≠ 0 ∧ s.outOpen (64 * u.toNat) (s.mem.dram.range (64 * u.toNat) 64).length = false) ∧
    (∃ u : BitVec 28, ∃ _b : List Byte, ∃ k : Nat, ∃ s : State, s.dramUp = true ∧ s.pageLocked u.toNat = false ∧ u.toNat < s.mem.usable.toNat * 1024 ∧ s.windowOpen u.toNat = true ∧ s.keyOf (u.toNat / 1024) = some k) ∧
    (∃ u : BitVec 28, ∃ s : State, s.pageLocked u.toNat = false ∧ s.windowOpen u.toNat = false) :=
  ⟨⟨none, 5#28, mem1, by decide +kernel⟩,
   ⟨none, 5#28, mem1, by decide +kernel⟩,
   ⟨5#28, mem1, by decide +kernel⟩,
   ⟨some (1, 0#32), 6#28, [1#8, 2#8], 1, mem1, by decide +kernel⟩,
   ⟨1, 0#32, { seq := 0#32 }, 6#28, [1#8], mem1.setLane 1 fun L => { L with runs := [{ seq := 0#32 }] }, by decide +kernel⟩,
   ⟨none, 0x10000#28, none, .fine, mem1, by decide +kernel⟩,
   ⟨none, 5#28, none, .fine, none, { mem1 with mem := { mem1.mem with retiring := [0] } }, by decide +kernel⟩,
   ⟨mem1, by decide +kernel⟩,
   ⟨mem1, by decide +kernel⟩,
   ⟨0#18, { mem1 with mem := { mem1.mem with poison := [5] } }, by decide +kernel⟩,
   ⟨0#18, { mem1 with mem := { mem1.mem with poison := [5], retired := List.replicate 256 9 } }, by decide +kernel⟩,
   ⟨0#18, { mem1 with mem := { mem1.mem with poison := [5], retiring := [0] } }, by decide +kernel⟩,
   ⟨5#28, 1, { (mem1.setRegion 0 fun g => { g with window := true }) with lanes := (mem1.setLane 1 fun L => { L with owner := .host }).lanes }, by decide +kernel⟩,
   ⟨7#28, [3#8], 1, { (mem1.setRegion 0 fun g => { g with window := true }) with lanes := (mem1.setLane 1 fun L => { L with owner := .host }).lanes }, by decide +kernel⟩,
   ⟨5#28, mem1, by decide +kernel⟩⟩

/-- Every clause of RegionsAndPartitionsAreMade has its premises met. -/
theorem witness_RegionsAndPartitionsAreMade :
    (∃ p : Path, ∃ r : Fin 32, ∃ k : Fin 8, ∃ s : State, s.mem.region[r].valid = false ∧ s.ownsLane p s.mem.region[r].lane = true ∧ s.mem.region[r].size ≠ 0#18 ∧ s.mem.region[r].hi ≤ s.mem.usable.toNat ∧ (∀ i : Fin 32, s.mem.region[i].valid = true → s.mem.region[i].hi ≤ s.mem.region[r].lo ∨ s.mem.region[r].hi ≤ s.mem.region[i].lo) ∧ laneSlot s s.mem.region[r].lane = some k) ∧
    (∃ p : Path, ∃ r : Fin 32, ∃ s : State, s.mem.region[r].valid = false ∧ s.ownsLane p s.mem.region[r].lane = false) ∧
    (∃ p : Path, ∃ r : Fin 32, ∃ s : State, s.mem.region[r].valid = false ∧ s.ownsLane p s.mem.region[r].lane = true ∧ (s.mem.region[r].size = 0#18 ∨ s.mem.usable.toNat < s.mem.region[r].hi)) ∧
    (∃ p : Path, ∃ r i : Fin 32, ∃ s : State, s.mem.region[r].valid = false ∧ s.ownsLane p s.mem.region[r].lane = true ∧ s.mem.region[r].size ≠ 0#18 ∧ s.mem.region[r].hi ≤ s.mem.usable.toNat ∧ s.mem.region[i].valid = true ∧ s.mem.region[i].lo < s.mem.region[r].hi ∧ s.mem.region[r].lo < s.mem.region[i].hi) ∧
    (∃ _p : Path, ∃ r : Fin 32, ∃ s : State, s.mem.region[r].valid = true) ∧
    (∃ p : Path, ∃ r : Fin 32, ∃ s : State, s.mem.region[r].valid = true ∧ s.mem.region[r].sealed = false ∧ s.ownsLane p s.mem.region[r].lane = true ∧ s.regionUsed s.mem.region[r] = false ∧ s.mem.sweeps = [] ∧ (∀ i : Fin 32, s.mem.region[i].sealed = false)) ∧
    (∃ p : Path, ∃ r : Fin 32, ∃ s : State, s.mem.region[r].valid = true ∧ s.mem.region[r].sealed = false ∧ s.ownsLane p s.mem.region[r].lane = true ∧ s.regionUsed s.mem.region[r] = true) ∧
    (∃ p : Path, ∃ l : LaneId, ∃ v : W32, ∃ new : W64, ∃ s : State, s.ownsLane p l = true ∧ (s.lane l).running = 0 ∧ s.copyBanks = [] ∧ new = (v.setWidth 64 ||| (s.mem.part[l] &&& 0xFFFFFFFF00000000#64)) &&& ~~~takenBanks s l ∧ new &&& bankMask (engineBank s.mem.part[l]).toList = bankMask (engineBank s.mem.part[l]).toList) ∧
    (∃ p : Path, ∃ l : LaneId, ∃ v : W32, ∃ new : W64, ∃ b : Fin 64, ∃ s : State, s.ownsLane p l = true ∧ (s.lane l).running = 0 ∧ s.copyBanks = [] ∧ new = (v.setWidth 64 ||| (s.mem.part[l] &&& 0xFFFFFFFF00000000#64)) &&& ~~~takenBanks s l ∧ engineBank s.mem.part[l] = some b ∧ new.getLsbD b.val = false) ∧
    (∃ p : Path, ∃ l : LaneId, ∃ v : W32, ∃ new : W64, ∃ s : State, s.ownsLane p l = true ∧ (s.lane l).running = 0 ∧ s.copyBanks = [] ∧ new = (v.setWidth 64 <<< 32 ||| (s.mem.part[l] &&& 0xFFFFFFFF#64)) &&& ~~~takenBanks s l ∧ new &&& bankMask (engineBank s.mem.part[l]).toList = bankMask (engineBank s.mem.part[l]).toList) ∧
    (∃ p : Path, ∃ l : LaneId, ∃ v : W32, ∃ new : W64, ∃ b : Fin 64, ∃ s : State, s.ownsLane p l = true ∧ (s.lane l).running = 0 ∧ s.copyBanks = [] ∧ new = (v.setWidth 64 <<< 32 ||| (s.mem.part[l] &&& 0xFFFFFFFF#64)) &&& ~~~takenBanks s l ∧ engineBank s.mem.part[l] = some b ∧ new.getLsbD b.val = false) ∧
    (∃ p : Path, ∃ l : LaneId, ∃ _hi : Bool, ∃ _v : W32, ∃ s : State, (s.ownsLane p l = false ∨ (s.lane l).running ≠ 0)) ∧
    (∃ p : Path, ∃ k : Fin 4, ∃ l : LaneId, ∃ v : W32, ∃ s : State, s.bankLane (fld v 0 6) = some l ∧ s.ownsLane p l = true ∧ s.mem.retain[k].valid = false ∧ (∀ i : Fin 4, s.mem.retain[i].valid = true → s.mem.retain[i].bank.toNat ≠ fld v 0 6)) ∧
    (∃ p : Path, ∃ _k : Fin 4, ∃ l : LaneId, ∃ v : W32, ∃ s : State, s.bankLane (fld v 0 6) = some l ∧ s.ownsLane p l = false) ∧
    (∃ p : Path, ∃ _n : Fin 8, ∃ _v : W32, ∃ s : State, s.ownsLane p 3 = true) ∧
    (∃ p : Path, ∃ _n : Fin 8, ∃ _v : W32, ∃ s : State, s.ownsLane p 3 = false) ∧
    (∃ p : Path, ∃ l : LaneId, ∃ _lo _hi : W32, ∃ s : State, s.ownsLane p l = true) ∧
    (∃ p : Path, ∃ l : LaneId, ∃ _v : W32, ∃ s : State, s.ownsLane p l = true ∧ ((s.lane l).spinHeld.find? fun h => h.1 == p) = none) ∧
    (∃ p : Path, ∃ l : LaneId, ∃ _v : W32, ∃ s : State, s.ownsLane p l = false) :=
  ⟨⟨.call, 1, 0, mem1.setRegion 1 fun g => { g with base := 2#18, size := 3#18, lane := 1 }, by decide +kernel⟩,
   ⟨.host, 1, mem1.setRegion 1 fun g => { g with base := 2#18, size := 3#18, lane := 1 }, by decide +kernel⟩,
   ⟨.call, 1, mem1.setRegion 1 fun g => { g with base := 14#18, size := 3#18, lane := 1 }, by decide +kernel⟩,
   ⟨.call, 1, 0, mem1.setRegion 1 fun g => { g with base := 1#18, size := 3#18, lane := 1 }, by decide +kernel⟩,
   ⟨.call, 0, mem1, by decide +kernel⟩,
   ⟨.call, 0, mem1, by decide +kernel⟩,
   ⟨.call, 0, mem1.setLane 1 fun L => { L with next := 1#32, runs := [{ seq := 0#32 }], journal := [(0, { seq := 0#32, accept := some { acc0 with args := [.region 64 1] }, stats := none, retire := none })] }, by decide +kernel⟩,
   ⟨.call, 1, 0x800000FF#32, 0x80000000#64, rdy, by decide +kernel⟩,
   ⟨.call, 1, 0x00FF0000#32, 0xFF0000#64, 31, rdy, by decide +kernel⟩,
   ⟨.call, 1, 0x80010000#32, 0x1000000010000#64, { rdy with mem := { rdy.mem with part := put rdy.mem.part 1 0x1000000010000#64 } }, by decide +kernel⟩,
   ⟨.call, 1, 0x20000#32, 0x2000000010000#64, 48, { rdy with mem := { rdy.mem with part := put rdy.mem.part 1 0x1000000010000#64 } }, by decide +kernel⟩,
   ⟨.host, 1, true, 5#32, rdy, by decide +kernel⟩,
   ⟨.call, 2, 1, 0x92#32, rdy, by decide +kernel⟩,
   ⟨.host, 2, 1, 0x92#32, rdy, by decide +kernel⟩,
   ⟨.host, 4, 6#32, up.setLane 3 fun L => { L with st := .opened, owner := .host }, by decide +kernel⟩,
   ⟨.call, 4, 6#32, up, by decide +kernel⟩,
   ⟨.call, 1, 7#32, 9#32, rdy, by decide +kernel⟩,
   ⟨.call, 1, 7#32, rdy, by decide +kernel⟩,
   ⟨.host, 1, 7#32, rdy, by decide +kernel⟩⟩

/-- Every clause of KeysRotate has its premises met. -/
theorem witness_KeysRotate :
    (∃ c : Caller, ∃ l : LaneId, ∃ old new : Fin 8, ∃ i : Fin 32, ∃ s : State, Takes c s ∧ s.keys.keyop = 0 ∧ s.keys.repair = 0 ∧ s.mem.sweeps = [] ∧ s.keys.noent = false ∧ freeSlot s = some new ∧ (s.lane l).st ≠ .scrub ∧ (s.lane l).owner = c.path.owner ∧ slotWith s (.lane l) = some old ∧ slotWith s (.laneTarget l) = none ∧ s.mem.region[i].valid = true ∧ s.mem.region[i].lane = l ∧ s.mem.region[i].size ≠ 0#18 ∧ (∀ i : Fin 32, s.mem.region[i].sealed = false)) ∧
    (∃ c : Caller, ∃ old new : Fin 8, ∃ i : Fin 32, ∃ s : State, Takes c s ∧ s.keys.keyop = 0 ∧ s.keys.repair = 0 ∧ s.mem.sweeps = [] ∧ s.keys.noent = false ∧ freeSlot s = some new ∧ slotWith s .plan = some old ∧ slotWith s .planTarget = none ∧ s.mem.region[i].valid = true ∧ s.mem.region[i].sealed = true ∧ s.mem.region[i].size ≠ 0#18) ∧
    (∃ c : Caller, ∃ s : State, Takes c s ∧ (s.keys.keyop ≠ 0 ∨ s.keys.repair ≠ 0)) ∧
    (∃ k : Fin 32, ∃ w : Sweep, ∃ i : Fin 32, ∃ b : Nat, ∃ s : State, s.mem.sweeps[k.val]? = some w ∧ w.phase = .idle ∧ sweepWaits s w = false ∧ sweepNext s w = some (i, b) ∧ s.mem.retiring.contains b = false) ∧
    (∃ k : Fin 32, ∃ w : Sweep, ∃ s : State, s.mem.sweeps[k.val]? = some w ∧ w.phase = .copy) ∧
    (∃ n : LaneId, ∃ w : Sweep, ∃ i : Fin 32, ∃ s : State, s.mem.sweeps = [w] ∧ w.kind = .lane n ∧ w.region = none ∧ w.phase = .rewrite ∧ sweepRegions s w = [i] ∧ s.mem.region[i].covers w.block = true ∧ 2 ≤ s.mem.region[i].left.toNat ∧ (∀ i : Fin 32, s.mem.region[i].sealed = false)) ∧
    (∃ n : LaneId, ∃ w : Sweep, ∃ i : Fin 32, ∃ s : State, s.mem.sweeps = [w] ∧ w.kind = .lane n ∧ w.region = none ∧ w.phase = .rewrite ∧ sweepRegions s w = [i] ∧ s.mem.region[i].covers w.block = true ∧ s.mem.region[i].left = 1#18 ∧ w.old ≠ w.new ∧ (∀ i : Fin 32, s.mem.region[i].sealed = false) ∧ s.start.banner = true) ∧
    (∃ p : Fin 3, ∃ s : State, s.faults.aes[p] = .active) ∧
    (∃ p : Fin 3, ∃ s : State, s.faults.aes[p] = .active ∧ (s.faults.aesFails[p] = 0 ∨ (s.faults.aes.toList.filter fun x => x == .active).length < 2)) ∧
    (∃ p : Fin 3, ∃ s : State, s.faults.aes[p] = .active ∧ s.faults.aesFails[p] = 1 ∧ 2 ≤ (s.faults.aes.toList.filter fun x => x == .active).length) :=
  ⟨⟨Caller.line, 1, 0, 1, 0, mem1, by decide +kernel⟩,
   ⟨Caller.line, 0, 1, 0, { mem1 with mem := { mem1.mem with kslot := put mem1.mem.kslot 0 { use := .plan, key := 1 }, region := put mem1.mem.region 0 { size := 2#18, lane := 1, valid := true, sealed := true } } }, by decide +kernel⟩,
   ⟨Caller.line, rot1 2#18, by decide +kernel⟩,
   ⟨0, { kind := .lane 1, old := 0, new := 1, region := none }, 0, 0, (rot1 2#18).setSweep 0 fun w => { w with phase := .idle }, by decide +kernel⟩,
   ⟨0, { kind := .lane 1, old := 0, new := 1, region := none, phase := .copy, block := 0 }, (rot1 2#18).setSweep 0 fun w => { w with phase := .copy }, by decide +kernel⟩,
   ⟨1, { kind := .lane 1, old := 0, new := 1, region := none, phase := .rewrite, block := 0 }, 0, rot1 2#18, by decide +kernel⟩,
   ⟨1, { kind := .lane 1, old := 0, new := 1, region := none, phase := .rewrite, block := 0 }, 0, rot1 1#18, by decide +kernel⟩,
   ⟨1, up, by decide +kernel⟩,
   ⟨1, up, by decide +kernel⟩,
   ⟨1, { up with faults := { aesFails := put up.faults.aesFails 1 1 } }, by decide +kernel⟩⟩

/-- Every clause of KeysAndFusesAreBurnt has its premises met. -/
theorem witness_KeysAndFusesAreBurnt :
    (∃ c : Caller, ∃ s : State, Takes c s) ∧
    (∃ c : Caller, ∃ k : Fin 4, ∃ a : Nat, ∃ p : List Byte × State, ∃ s : State, Takes c s ∧ c.path = .call ∧ s.keys.keyop = 0 ∧ s.keys.repair = 0 ∧ s.confidential = false ∧ vkHash s.fuse.shadow k = 0 ∧ s.fuse.burning = none ∧ (attachment c.path.path a 160 s).toOption = some p ∧ recOk p.2 k p.1 = true) ∧
    (∃ c : Caller, ∃ k : Fin 4, ∃ a : Nat, ∃ p : List Byte × State, ∃ s : State, Takes c s ∧ c.path = .call ∧ s.keys.keyop = 0 ∧ s.keys.repair = 0 ∧ s.confidential = false ∧ vkHash s.fuse.shadow k = 0 ∧ s.fuse.burning = none ∧ (attachment c.path.path a 160 s).toOption = some p ∧ recOk p.2 k p.1 = false) ∧
    (∃ c : Caller, ∃ k : Fin 4, ∃ _a : Nat, ∃ s : State, Takes c s ∧ s.keys.keyop = 0 ∧ s.keys.repair = 0 ∧ s.confidential = false ∧ vkHash s.fuse.shadow k ≠ 0) ∧
    (∃ c : Caller, ∃ k : Fin 4, ∃ s : State, Takes c s ∧ c.path = .call ∧ s.keys.keyop = 0 ∧ s.keys.repair = 0 ∧ s.confidential = false ∧ s.fuse.burning = none ∧ s.keys.vkUsable.getLsbD k.val = true ∧ s.keys.vkUsable ≠ BitVec.ofNat 4 (2 ^ k.val)) ∧
    (∃ c : Caller, ∃ k : Fin 4, ∃ s : State, Takes c s ∧ s.keys.keyop = 0 ∧ s.keys.repair = 0 ∧ s.confidential = false ∧ (s.keys.vkUsable.getLsbD k.val = false ∨ s.keys.vkUsable = BitVec.ofNat 4 (2 ^ k.val))) ∧
    (∃ p : Path, ∃ s : State, (p = .call ∨ p = .host) ∧ s.confidential = false ∧ s.locked = false ∧ s.armedBy = none) ∧
    (∃ p : Path, ∃ s : State, (p = .call ∨ p = .host) ∧ s.confidential = false ∧ s.locked = false ∧ s.armedBy = some p ∧ s.fuse.burning = none) ∧
    (∃ _p : Path, ∃ s : State, (s.confidential = true ∨ s.locked = true)) ∧
    (∃ p q : Path, ∃ s : State, s.armedBy = some q ∧ q ≠ p) ∧
    (∃ p : Path, ∃ a : W64, ∃ s : State, s.fuse.armed = some (p, a)) ∧
    (∃ b : Burn, ∃ s : State, s.fuse.burning = some b) ∧
    (∃ s : State, s.fuse.burning = some .lock) :=
  ⟨⟨Caller.line, up, by decide +kernel⟩,
   ⟨Caller.line, 1, 0x10000800000, (attachment .call 0x10000800000 160 recUp).toOption.getD ([], recUp), recUp, by decide +kernel⟩,
   ⟨Caller.line, 1, 0x10000800000, (attachment .call 0x10000800000 160 rdy).toOption.getD ([], rdy), rdy, by decide +kernel⟩,
   ⟨Caller.line, 1, 0, { up with fuse := { shadow := [768] } }, by decide +kernel⟩,
   ⟨Caller.line, 1, { up with keys := { startup := false, vkUsable := 3#4 } }, by decide +kernel⟩,
   ⟨Caller.line, 1, { up with keys := { startup := false, vkUsable := 2#4 } }, by decide +kernel⟩,
   ⟨.host, up, by decide +kernel⟩,
   ⟨.host, { up with fuse := { armed := some (.host, 0#64) } }, by decide +kernel⟩,
   ⟨.host, State.reset, by decide +kernel⟩,
   ⟨.call, .host, { up with fuse := { armed := some (.host, 0#64) } }, by decide +kernel⟩,
   ⟨.host, 0#64, { up with fuse := { armed := some (.host, 0#64) } }, by decide +kernel⟩,
   ⟨.vkLoad 1 5#256 none, { up with fuse := { burning := some (.vkLoad 1 5#256 none), queue := [.lock] } }, by decide +kernel⟩,
   ⟨{ up with fuse := { burning := some .lock } }, by decide +kernel⟩⟩

/-- Every clause of EyeTakesFrames has its premises met. -/
theorem witness_EyeTakesFrames :
    (∃ n : Fin 8, ∃ a : W64, ∃ r : List W64, ∃ s : State, s.eye.trigSrc.toNat = n.val + 1 ∧ s.eye.arriving = a :: r ∧ s.eye.refuses a = none) ∧
    (∃ a : W64, ∃ r : List W64, ∃ s : State, s.eye.trigSrc = 9#4 ∧ s.eye.arriving = a :: r ∧ s.eye.refuses a = none) ∧
    (∃ s : State, s.eye.trigSrc = 10#4 ∧ s.eye.snapReq = true ∧ s.eye.refuses s.clk.tick = none) ∧
    (∃ n : Fin 8, ∃ a : W64, ∃ r : List W64, ∃ s : State, s.eye.trigSrc.toNat = n.val + 1 ∧ s.eye.arriving = a :: r ∧ s.eye.ready = false) ∧
    (∃ n : Fin 8, ∃ a : W64, ∃ r : List W64, ∃ f : Frame, ∃ s : State, s.eye.trigSrc.toNat = n.val + 1 ∧ s.eye.arriving = a :: r ∧ s.eye.ready = true ∧ s.eye.frame = some f) ∧
    (∃ n : Fin 8, ∃ a : W64, ∃ r : List W64, ∃ s : State, s.eye.trigSrc.toNat = n.val + 1 ∧ s.eye.arriving = a :: r ∧ s.eye.ready = true ∧ s.eye.frame = none ∧ s.eye.lastTrig = none ∧ s.eye.reading = none ∧ s.eye.ringSlots ≤ s.eye.ringHeld.length) ∧
    (∃ src : TrigSrc, ∃ s : State, s.eye.trigSrc.toNat ≠ src.code) ∧
    (∃ p : Path, ∃ s : State, s.eyeMay p = true ∧ s.eye.trigSrc = 10#4) ∧
    (∃ f : Frame, ∃ s : State, s.eye.frame = some f ∧ f.stage = .delay ∧ f.tTrig.toNat + f.delay.toNat < 2 ^ 64) ∧
    (∃ f : Frame, ∃ s : State, s.eye.frame = some f ∧ f.stage = .exposing ∧ s.eye.reading = none ∧ f.tTrig.toNat + f.delay.toNat + f.expose.toNat < 2 ^ 64) ∧
    (∃ f : Frame, ∃ s : State, s.eye.frame = some f ∧ s.eye.irEn = true ∧ f.irOn = true ∧ f.irCut = false ∧ s.eye.irHigh = false) ∧
    (∃ f : Frame, ∃ s : State, s.eye.frame = some f ∧ s.eye.irHigh = true) ∧
    (∃ f : Frame, ∃ s : State, s.eye.irHigh = true ∧ s.eye.frame = some f ∧ s.eye.irLimit < f.tTrig.toNat + f.delay.toNat + f.expose.toNat + usTicks s.eye.irTail) ∧
    (∃ _raws : List (BitVec 12), ∃ f : Frame, ∃ b : Fin 64, ∃ s : State, s.eye.reading = some f ∧ s.frameSlot = some b ∧ s.arbBusy (bankPort b.val) 1 3 = false ∧ s.eye.copyEn = false) ∧
    (∃ _raws : List (BitVec 12), ∃ s : State, s.frameSlot = none) ∧
    (∃ f : Frame, ∃ s : State, s.eye.reading = some f ∧ s.frameSlot = none) ∧
    (∃ b : Fin 64, ∃ s : State, s.frameSlot = some b) ∧
    (∃ p : Path, ∃ v : W32, ∃ s : State, s.eyeOpen p = true ∧ bit v 0 = true) ∧
    (∃ p : Path, ∃ v : W32, ∃ s : State, s.eyeOpen p = true ∧ bit v 0 = false ∧ s.eye.hold = true) ∧
    (∃ ev : LookEvent, ∃ rest : List LookEvent, ∃ s : State, s.eye.lookout.buffer = ev :: rest ∧ ev.takenCall = false ∧ (∀ e ∈ rest, e.takenCall = false) ∧ s.start.banner = true ∧ s.call.events = true ∧ s.call.tx = [] ∧ s.host.evctl.getLsbD 0 = false ∧ s.host.leaseLapsed = false) :=
  ⟨⟨0, 5#64, [], arrive (eye1 none), by decide +kernel⟩,
   ⟨5#64, [], arrive { eye1 none with eye := { (eye1 none).eye with trigSrc := 9#4 } }, by decide +kernel⟩,
   ⟨{ eye1 none with eye := { (eye1 none).eye with trigSrc := 10#4, snapReq := true } }, by decide +kernel⟩,
   ⟨0, 5#64, [], arrive { up with eye := { trigSrc := 1#4 } }, by decide +kernel⟩,
   ⟨0, 5#64, [], frame0 .exposing, arrive (eye1 (some (frame0 .exposing))), by decide +kernel⟩,
   ⟨0, 5#64, [], arrive { eye1 none with eye := { (eye1 none).eye with ringHeld := [(0#32, 0#64, 0#32), (1#32, 0#64, 1#32)] } }, by decide +kernel⟩,
   ⟨.trigIn, eye1 none, by decide +kernel⟩,
   ⟨.cox, { eye1 none with eye := { (eye1 none).eye with trigSrc := 10#4 } }, by decide +kernel⟩,
   ⟨frame0 .delay, eye1 (some (frame0 .delay)), by decide +kernel⟩,
   ⟨frame0 .exposing, eye1 (some (frame0 .exposing)), by decide +kernel⟩,
   ⟨frame0 .delay, { eye1 (some (frame0 .delay)) with eye := { (eye1 (some (frame0 .delay))).eye with irEn := true } }, by decide +kernel⟩,
   ⟨frame0 .exposing, { eye1 (some (frame0 .exposing)) with eye := { (eye1 (some (frame0 .exposing))).eye with irHigh := true } }, by decide +kernel⟩,
   ⟨frame0 .exposing, { eye1 (some (frame0 .exposing)) with eye := { (eye1 (some (frame0 .exposing))).eye with irHigh := true, irMax := 0x400001#24 } }, by decide +kernel⟩,
   ⟨[], { frame0 .readout with mode := 2#2 }, 6, { eye1 none with eye := { (eye1 none).eye with reading := some (frame0 .readout), sliceMap := Vector.replicate 8 none } }, by decide +kernel⟩,
   ⟨[], { eye1 none with eye := { (eye1 none).eye with reading := some (frame0 .readout), ringNext := 9 } }, by decide +kernel⟩,
   ⟨frame0 .readout, { eye1 none with eye := { (eye1 none).eye with reading := some (frame0 .readout), ringNext := 9 } }, by decide +kernel⟩,
   ⟨6, { eye1 none with eye := { (eye1 none).eye with reading := some (frame0 .readout) } }, by decide +kernel⟩,
   ⟨.call, 1#32, eye1 none, by decide +kernel⟩,
   ⟨.call, 0#32, { eye1 none with eye := { hold := true } }, by decide +kernel⟩,
   ⟨{ name := "PRESENCE", fields := [], code := none, frame := 0#32, tTrig := 0#64 }, [], { eye1 none with eye := { lookout := { buffer := [{ name := "PRESENCE", fields := [], code := none, frame := 0#32, tTrig := 0#64 }] } } }, by decide +kernel⟩⟩

/-- Every clause of SlicesAreCalibrated has its premises met. -/
theorem witness_SlicesAreCalibrated :
    (∃ _sums : List Nat, ∃ k : Fin 9, ∃ s : State, s.eye.ready = true ∧ s.eye.spare = some k ∧ s.eye.cal.stage = .reference) ∧
    (∃ skew : Int, ∃ _d : Bool, ∃ k : Fin 9, ∃ s : State, s.eye.ready = true ∧ s.eye.spare = some k ∧ s.eye.cal.stage = .shadow ∧ s.eye.cal.bad = false ∧ -128 ≤ skew ∧ skew ≤ 127) ∧
    (∃ skew : Int, ∃ _d : Bool, ∃ k : Fin 9, ∃ s : State, s.eye.ready = true ∧ s.eye.spare = some k ∧ s.eye.cal.stage = .shadow ∧ (s.eye.cal.bad = true ∨ skew < -128 ∨ 127 < skew) ∧ s.eye.slice[k].fails ≤ 1) ∧
    (∃ _skew : Int, ∃ _d : Bool, ∃ k : Fin 9, ∃ s : State, s.eye.ready = true ∧ s.eye.spare = some k ∧ s.eye.cal.stage = .shadow ∧ s.eye.cal.bad = true ∧ s.eye.slice[k].fails = 2) ∧
    (∃ k j : Fin 9, ∃ i : Fin 8, ∃ s : State, s.eye.spare = some k ∧ s.eye.oldest = some i ∧ s.eye.sliceMap[i] = some j ∧ j ≠ k ∧ s.eye.cal.stage = .passed ∧ s.eye.reading = none) ∧
    (∃ sums : List (List Nat), ∃ s : State, s.eye.ready = true ∧ s.eye.spare = none ∧ s.eye.reading = none ∧ s.eye.gapFits = true ∧ s.domFenced Dom.eye = false ∧ s.eye.active.Nodup ∧ (∀ k ∈ s.eye.active, fitOk (fit (sums.getD k.val [])) = true ∨ s.eye.slice[k].fails ≤ 1) ∧ s.eye.readEnd.toNat + usTicks 420 < 2 ^ 64) ∧
    (∃ s : State, s.eye.spare = none ∧ s.eye.ready = true ∧ s.eye.calTick.toNat + msTicks (100 * (s.eye.calCtl.toNat / 256)) < 2 ^ 64) ∧
    (∃ sums : List (List Nat), ∃ s : State, s.domUp Dom.eye = true ∧ s.domFenced Dom.eye = false ∧ s.eye.ready = false ∧ s.clk.absent.getLsbD Clk.eyeck.val = false ∧ (∀ k : Fin 9, fitOk (fit (sums.getD k.val [])) = true)) :=
  ⟨⟨sums0, 8, eye1 none, by decide +kernel⟩,
   ⟨-128, false, 8, { eye1 none with eye := { (eye1 none).eye with cal := { stage := .shadow } } }, by decide +kernel⟩,
   ⟨128, false, 8, { eye1 none with eye := { (eye1 none).eye with cal := { stage := .shadow } } }, by decide +kernel⟩,
   ⟨0, false, 8, { eye1 none with eye := { (eye1 none).eye with cal := { stage := .shadow, bad := true }, slice := put (eye1 none).eye.slice 8 { role := .spare, fails := 2 } } }, by decide +kernel⟩,
   ⟨8, 0, 0, { eye1 none with eye := { (eye1 none).eye with cal := { stage := .passed } } }, by decide +kernel⟩,
   ⟨[] :: List.replicate 8 sums0, { eye1 none with eye := { (eye1 none).eye with slice := Vector.replicate 9 {} } }, by decide +kernel⟩,
   ⟨{ eye1 none with eye := { (eye1 none).eye with slice := Vector.replicate 9 {} } }, by decide +kernel⟩,
   ⟨List.replicate 9 sums0, { up with power := { up := domBit Dom.eye } }, by decide +kernel⟩⟩

/-- Every clause of EyeVerbs has its premises met. -/
theorem witness_EyeVerbs :
    (∃ c : Caller, ∃ s : State, Takes c s ∧ s.domFenced Dom.eye = false) ∧
    (∃ c : Caller, ∃ s : State, Takes c s ∧ s.domFenced Dom.eye = false ∧ s.confidential = false) ∧
    (∃ c : Caller, ∃ s : State, Takes c s ∧ s.domFenced Dom.eye = false ∧ s.confidential = false) ∧
    (∃ c : Caller, ∃ a : EyeSetArgs, ∃ s : State, Takes c s ∧ s.domFenced Dom.eye = false ∧ s.eye.hold = true ∧ usOk 20 a.delay = true ∧ usOk 22 a.expose = true ∧ below 1024 a.lead = true ∧ below 1024 a.tail = true) ∧
    (∃ c : Caller, ∃ a : EyeSetArgs, ∃ s : State, Takes c s ∧ s.domFenced Dom.eye = false ∧ s.eye.hold = false ∧ usOk 20 a.delay = true ∧ usOk 22 a.expose = true ∧ below 1024 a.lead = true ∧ below 1024 a.tail = true) ∧
    (∃ c : Caller, ∃ s : State, Takes c s ∧ s.domFenced Dom.eye = false ∧ s.eye.hold = true ∧ s.eye.trigSrc = 10#4) ∧
    (∃ c : Caller, ∃ _at_ : Option Bool, ∃ on off : Nat, ∃ s : State, Takes c s ∧ s.domFenced Dom.eye = false ∧ s.confidential = false ∧ 1 ≤ on ∧ on ≤ 255 ∧ 1 ≤ off ∧ off ≤ 255) ∧
    (∃ c : Caller, ∃ l : LaneId, ∃ b n : Nat, ∃ s : State, Takes c s ∧ s.domFenced Dom.eye = false ∧ (s.lane l).st ≠ .scrub ∧ (s.lane l).owner = c.path.owner ∧ 1 ≤ n ∧ n ≤ 4 ∧ copyOk s l b n = true ∧ s.confidential = false) ∧
    (∃ c : Caller, ∃ s : State, Takes c s ∧ s.domFenced Dom.eye = false ∧ (s.eye.copyEn = false ∨ (s.lane s.eye.copyLane).owner = c.path.owner)) ∧
    (∃ c : Caller, ∃ s : State, Takes c s ∧ s.domFenced Dom.eye = true) :=
  ⟨⟨Caller.line, eye1 none, by decide +kernel⟩,
   ⟨Caller.line, eye1 none, by decide +kernel⟩,
   ⟨Caller.line, { eye1 none with eye := { hold := true } }, by decide +kernel⟩,
   ⟨Caller.line, { mode := some 1#2, trig := none, delay := some 100, expose := none, ir := some false, lead := some 3, tail := none }, { eye1 none with eye := { hold := true } }, by decide +kernel⟩,
   ⟨Caller.line, { mode := some 1#2, trig := none, delay := none, expose := none, ir := none, lead := none, tail := none }, eye1 none, by decide +kernel⟩,
   ⟨Caller.line, { eye1 none with eye := { hold := true, trigSrc := 10#4 } }, by decide +kernel⟩,
   ⟨Caller.line, none, 7, 255, eye1 none, by decide +kernel⟩,
   ⟨Caller.line, 1, 16, 4, { eye1 none with lanes := rdy.lanes }, by decide +kernel⟩,
   ⟨Caller.line, { eye1 none with lanes := rdy.lanes, eye := { copyEn := true, copyLane := 1 } }, by decide +kernel⟩,
   ⟨Caller.line, { up with power := { fenced := domBit Dom.eye } }, by decide +kernel⟩⟩

/-- Every clause of EarCaptures has its premises met. -/
theorem witness_EarCaptures :
    (∃ p : Path, ∃ s : State, s.domFenced Dom.ear = false ∧ earBar s p = none ∧ s.ear.run = false ∧ trigOf s.ear.trigSrc = 0) ∧
    (∃ p : Path, ∃ s : State, s.domFenced Dom.ear = false ∧ earBar s p = none ∧ s.ear.run = true) ∧
    (∃ p : Path, ∃ s : State, s.domFenced Dom.ear = false ∧ (earBar s p).isSome = true) ∧
    (∃ s : State, s.ear.run = false ∧ s.earClocked = true ∧ s.ear.closing = false ∧ (s.ear.captures = false ∨ s.ear.buffer = []) ∧ trigOf s.ear.trigSrc = 0 ∧ s.ear.startReq = true) ∧
    (∃ a : W64, ∃ s : State, s.ear.run = false ∧ s.earClocked = true ∧ s.ear.closing = false ∧ (s.ear.captures = false ∨ s.ear.buffer = []) ∧ trigOf s.ear.trigSrc ≠ 0 ∧ s.ear.arriving = some a) ∧
    (∃ s : State, s.ear.run = false ∧ trigOf s.ear.trigSrc ≠ 0 ∧ s.ear.arriving = none) ∧
    (∃ _d : List (BitVec 24 × Bool), ∃ i : Fin 8, ∃ s : State, s.ear.run = true ∧ s.earClocked = true ∧ s.ear.captures = false ∧ s.ear.ring[(0 : Fin 2)].next = none ∧ s.ear.ring[(1 : Fin 2)].next = none ∧ s.ear.stopReq = false ∧ s.ear.enable.getLsbD i.val = true ∧ s.ear.chan[i].running = true ∧ s.ear.chan[i].next = none ∧ s.ear.chan[i].invalid = 0 ∧ s.ear.chan[i].full = false) ∧
    (∃ _d : List (BitVec 24 × Bool), ∃ s : State, s.ear.run = true ∧ s.earClocked = true ∧ s.ear.stopReq = true) ∧
    (∃ p : Path, ∃ _n : Fin 8, ∃ _v : W32, ∃ s : State, s.domFenced Dom.ear = false ∧ earBar s p = none ∧ s.ear.run = false) ∧
    (∃ p : Path, ∃ n : Fin 8, ∃ _v : W32, ∃ s : State, s.domFenced Dom.ear = false ∧ earBar s p = none ∧ s.ear.run = true ∧ s.ear.chan[n].next = none) ∧
    (∃ p : Path, ∃ _v : W32, ∃ s : State, s.domFenced Dom.ear = false ∧ earBar s p = none) ∧
    (∃ _n : Fin 8, ∃ s : State, s.domFenced Dom.ear = false ∧ s.ear.captures = false) ∧
    (∃ _n : Fin 8, ∃ s : State, s.domFenced Dom.ear = false ∧ s.ear.captures = true) ∧
    (∃ p : Path, ∃ v : W32, ∃ s : State, s.domFenced Dom.ear = false ∧ s.ownsLane p (ringLane v) = true ∧ s.ear.run = false) ∧
    (∃ p : Path, ∃ _v : W32, ∃ _s : State, p ≠ .cox) ∧
    (∃ c : CapSet, ∃ rest : List CapSet, ∃ s : State, s.ear.buffer = c :: rest ∧ s.ear.ring[0].takes c = false ∧ s.ear.ring[1].takes c = true ∧ s.ear.ring[1].sets < s.ear.ring[1].block.toNat ∧ s.bankTakes ((s.ear.ring[1].slotAt + 64 + 32 * s.ear.ring[1].sets) / 0x80000) = true ∧ s.arbBusy (bankPort ((s.ear.ring[1].slotAt + 64 + 32 * s.ear.ring[1].sets) / 0x80000)) 1 4 = false) ∧
    (∃ k : Fin 2, ∃ s : State, s.ear.ring[k].en = true ∧ s.ear.ring[k].sets = s.ear.ring[k].block.toNat ∧ s.bankTakes (s.ear.ring[k].slotAt / 0x80000) = true ∧ s.ear.ring[k].tallyEn = true) ∧
    (∃ n : Fin 2, ∃ s : State, s.ear.biasEn[n] = true) :=
  ⟨⟨.call, ear1 {}, by decide +kernel⟩,
   ⟨.cox, ear1 { run := true }, by decide +kernel⟩,
   ⟨.host, ear1 {}, by decide +kernel⟩,
   ⟨ear1 { startReq := true, enable := 1#8 }, by decide +kernel⟩,
   ⟨9#64, ear1 { trigSrc := 3#4, arriving := some 9#64, enable := 1#8 }, by decide +kernel⟩,
   ⟨ear1 { trigSrc := 9#4 }, by decide +kernel⟩,
   ⟨[(5#24, false)], 0, { ear1 {} with ear := { run := true, enable := 1#8, chan := put up.ear.chan 0 { running := true } } }, by decide +kernel⟩,
   ⟨[], ear1 { run := true, stopReq := true }, by decide +kernel⟩,
   ⟨.call, 3, 0x200064#32, ear1 {}, by decide +kernel⟩,
   ⟨.call, 3, 0x200064#32, ear1 { run := true }, by decide +kernel⟩,
   ⟨.call, 0x1FF#32, ear1 {}, by decide +kernel⟩,
   ⟨2, { up with ear := { chan := put up.ear.chan 2 { result := 7#32, full := true } } }, by decide +kernel⟩,
   ⟨2, ear1 {}, by decide +kernel⟩,
   ⟨.call, 0x81100010#32, ear1 {}, by decide +kernel⟩,
   ⟨.call, 0x81100010#32, ear1 {}, by decide +kernel⟩,
   ⟨{ number := 0#64, tick := 5#64, mask := 1#8, osr := 1#2, words := List.replicate 8 7#32 }, [], ear1 { buffer := [{ number := 0#64, tick := 5#64, mask := 1#8, osr := 1#2, words := List.replicate 8 7#32 }] }, by decide +kernel⟩,
   ⟨1, ear1 { ring := put up.ear.ring 1 { sets := 16, tallyEn := true, tally := 256 } }, by decide +kernel⟩,
   ⟨1, ear1 { biasEn := put up.ear.biasEn 1 true }, by decide +kernel⟩⟩

/-- Every clause of AudioOutPlays has its premises met. -/
theorem witness_AudioOutPlays :
    (∃ p : Path, ∃ s : State, s.domFenced Dom.ear = false ∧ audoMay s p = true ∧ s.ear.audo.run = false ∧ trigOf s.ear.audo.trigSrc = 0) ∧
    (∃ p : Path, ∃ s : State, s.domFenced Dom.ear = false ∧ audoMay s p = true ∧ s.ear.audo.run = true) ∧
    (∃ p : Path, ∃ s : State, s.domFenced Dom.ear = false ∧ audoMay s p = false) ∧
    (∃ s : State, s.ear.audo.run = false ∧ s.audoClocked = true ∧ trigOf s.ear.audo.trigSrc = 0 ∧ s.ear.audo.startReq = true) ∧
    (∃ a : W64, ∃ s : State, s.ear.audo.run = false ∧ s.audoClocked = true ∧ trigOf s.ear.audo.trigSrc ≠ 0 ∧ s.ear.audo.arriving = some a) ∧
    (∃ s : State, s.ear.audo.run = true ∧ s.audoClocked = true ∧ s.ear.audo.stopReq = true) ∧
    (∃ s : State, s.ear.audo.run = true ∧ s.audoClocked = true ∧ s.ear.audo.stopReq = false ∧ (s.ear.audo.inBlock = true ∨ audoReady s = true) ∧ s.ear.audo.frame + 1 < s.ear.audo.blockLen.toNat) ∧
    (∃ s : State, s.ear.audo.run = true ∧ s.audoClocked = true ∧ s.ear.audo.stopReq = false ∧ s.ear.audo.inBlock = true ∧ s.ear.audo.frame + 1 = s.ear.audo.blockLen.toNat ∧ s.ear.audo.doneEn = true) ∧
    (∃ s : State, s.ear.audo.run = true ∧ s.audoClocked = true ∧ s.ear.audo.stopReq = false ∧ s.ear.audo.inBlock = false ∧ audoReady s = false) ∧
    (∃ s : State, s.domFenced Dom.ear = false) :=
  ⟨⟨.call, ear1 { audo := { lane := 1 } }, by decide +kernel⟩,
   ⟨.call, ear1 { audo := { lane := 1, run := true } }, by decide +kernel⟩,
   ⟨.host, ear1 { audo := { lane := 1, run := true } }, by decide +kernel⟩,
   ⟨ear1 { audo := { startReq := true } }, by decide +kernel⟩,
   ⟨9#64, ear1 { audo := { trigSrc := 3#4, arriving := some 9#64 } }, by decide +kernel⟩,
   ⟨ear1 { audo := { run := true, stopReq := true } }, by decide +kernel⟩,
   ⟨ear1 { audo := { run := true, inBlock := true, blockLen := 16#16 } }, by decide +kernel⟩,
   ⟨ear1 { audo := { run := true, inBlock := true, blockLen := 16#16, frame := 15, doneEn := true, done := 300 } }, by decide +kernel⟩,
   ⟨ear1 { audo := { run := true, played := true } }, by decide +kernel⟩,
   ⟨ear1 { audo := { under := 3#32 } }, by decide +kernel⟩⟩

/-- Every clause of EarVerbs has its premises met. -/
theorem witness_EarVerbs :
    (∃ c : Caller, ∃ s : State, Takes c s ∧ s.domFenced Dom.ear = false) ∧
    (∃ c : Caller, ∃ o : BitVec 2, ∃ _ch : Byte, ∃ s : State, Takes c s ∧ s.domFenced Dom.ear = false ∧ earBar s c.path.path = none ∧ s.ear.run = false ∧ o ≠ 3#2) ∧
    (∃ c : Caller, ∃ _o : Option (BitVec 2), ∃ _ch : Option Byte, ∃ _g : Option (BitVec 4), ∃ s : State, Takes c s ∧ s.domFenced Dom.ear = false ∧ earBar s c.path.path = none ∧ s.ear.run = true) ∧
    (∃ c : Caller, ∃ s : State, Takes c s ∧ s.domFenced Dom.ear = false ∧ earBar s c.path.path = none ∧ s.ear.run = true) ∧
    (∃ c : Caller, ∃ _n : Fin 8, ∃ g : Option Int, ∃ o : Option (BitVec 2), ∃ f : Option (Option Nat), ∃ s : State, Takes c s ∧ s.domFenced Dom.ear = false ∧ earBar s c.path.path = none ∧ s.ear.run = false ∧ gainOk g = true ∧ o ≠ some 3#2 ∧ below 32768 (f.getD none) = true) ∧
    (∃ c : Caller, ∃ _n : Fin 2, ∃ _on : Bool, ∃ l : BitVec 2, ∃ s : State, Takes c s ∧ s.domFenced Dom.ear = false ∧ earBar s c.path.path = none ∧ l ≠ 3#2) ∧
    (∃ c : Caller, ∃ l : LaneId, ∃ b n k : Nat, ∃ y : Option Nat, ∃ s : State, Takes c s ∧ s.domFenced Dom.ear = false ∧ (s.lane l).st ≠ .scrub ∧ (s.lane l).owner = c.path.owner ∧ ringArgs l b n k [y] = true ∧ ringOk s 1 (ringWordOf l b n k) = true) ∧
    (∃ c : Caller, ∃ s : State, Takes c s ∧ s.domFenced Dom.ear = false ∧ earBar s c.path.path = none ∧ s.ear.run = false) ∧
    (∃ c : Caller, ∃ l : LaneId, ∃ b n k : Nat, ∃ d : Option Bool, ∃ sl f e : Option Nat, ∃ s : State, Takes c s ∧ s.domFenced Dom.ear = false ∧ (s.lane l).st ≠ .scrub ∧ (s.lane l).owner = c.path.owner ∧ refit s = s ∧ s.ear.audo.en = false ∧ s.ear.audo.run = false ∧ ringArgs l b n k [f, e] = true ∧ ((sl.all fun n => decide (1 ≤ n ∧ n ≤ 8)) = true) ∧ audoRingOk (setFormat ((d.map boolNat).getD s.ear.audo.format.toNat) ((sl.map fun n => n - 1).getD s.ear.audo.slots.toNat) s) (ringWordOf l b n k) = true) ∧
    (∃ c : Caller, ∃ s : State, Takes c s ∧ s.domFenced Dom.ear = false ∧ s.ear.audo.en = true ∧ s.ownsLane c.path.path s.ear.audo.lane = true ∧ s.ear.audo.run = false ∧ trigOf s.ear.audo.trigSrc = 0) ∧
    (∃ c : Caller, ∃ s : State, Takes c s ∧ s.domFenced Dom.ear = false ∧ s.ear.audo.en = true ∧ s.ownsLane c.path.path s.ear.audo.lane = true ∧ s.ear.audo.run = true) ∧
    (∃ c : Caller, ∃ s : State, Takes c s ∧ s.domFenced Dom.ear = false ∧ s.ear.audo.en = false) :=
  ⟨⟨Caller.line, ear1 {}, by decide +kernel⟩,
   ⟨Caller.line, 2#2, 0xF#8, ear1 {}, by decide +kernel⟩,
   ⟨Caller.line, none, none, none, ear1 { run := true }, by decide +kernel⟩,
   ⟨Caller.line, ear1 { run := true }, by decide +kernel⟩,
   ⟨Caller.line, 2, some 12, some 1#2, some (some 50), ear1 {}, by decide +kernel⟩,
   ⟨Caller.line, 1, true, 2#2, ear1 {}, by decide +kernel⟩,
   ⟨Caller.line, 1, 17, 2, 32, some 256, ear1 {}, by decide +kernel⟩,
   ⟨Caller.line, ear1 {}, by decide +kernel⟩,
   ⟨Caller.line, 1, 18, 2, 32, some true, some 4, some 260, none, ear1 {}, by decide +kernel⟩,
   ⟨Caller.line, ear1 { audo := { en := true, lane := 1 } }, by decide +kernel⟩,
   ⟨Caller.line, ear1 { audo := { en := true, lane := 1, run := true } }, by decide +kernel⟩,
   ⟨Caller.line, ear1 {}, by decide +kernel⟩⟩

/-- Every clause of SensingConverts has its premises met. -/
theorem witness_SensingConverts :
    (∃ i : Fin 32, ∃ s : State, s.snsRuns = true ∧ s.sense.run = .idle ∧ s.sense.nextFrom 0 = some i ∧ seqSettle s.sense.seq[i] ≠ 0#8) ∧
    (∃ i : Fin 32, ∃ s : State, s.snsRuns = true ∧ s.sense.run = .idle ∧ s.sense.nextFrom 0 = some i ∧ seqSettle s.sense.seq[i] = 0#8) ∧
    (∃ i : Fin 32, ∃ s : State, s.snsRuns = true ∧ s.sense.run = .settling i) ∧
    (∃ u : Urgent, ∃ s : State, s.snsRuns = true ∧ s.sense.run = .urgSettling u) ∧
    (∃ s : State, s.snsRuns = false) ∧
    (∃ i : Fin 32, ∃ _d : BitVec 20, ∃ s : State, s.snsRuns = true ∧ s.sense.run = .converting i ∧ i.val < 30 ∧ (seqInput s.sense.cur).toNat < 8 ∧ s.sense.nextFrom (i.val + 1) = none) ∧
    (∃ d : BitVec 20, ∃ s : State, s.snsRuns = true ∧ s.sense.run = .converting 30 ∧ s.sense.nextFrom 31 = some 31 ∧ seqSettle s.sense.seq[(31 : Fin 32)] ≠ 0#8 ∧ s.rail.floor = false ∧ 500 ≤ milliVolts 1200 d.toNat) ∧
    (∃ d : BitVec 20, ∃ s : State, s.snsRuns = true ∧ s.sense.run = .converting 30 ∧ s.sense.nextFrom 31 = some 31 ∧ seqSettle s.sense.seq[(31 : Fin 32)] ≠ 0#8 ∧ s.rail.floor = false ∧ milliVolts 1200 d.toNat < 500) ∧
    (∃ u : Urgent, ∃ i : Fin 32, ∃ _d : BitVec 20, ∃ s : State, s.snsRuns = true ∧ s.sense.run = .urgConverting u ∧ u.by_ = .user ∧ s.confidential = false ∧ s.sense.interrupted = some i ∧ seqSettle s.sense.seq[i] = 0#8) ∧
    (∃ _p : Path, ∃ v : W32, ∃ s : State, s.sense.go = false ∧ bit v 31 = true ∧ realInput (seqInput v) = true) ∧
    (∃ _p : Path, ∃ _v : W32, ∃ s : State, s.sense.go = true) ∧
    (∃ u : Urgent, ∃ i : Fin 32, ∃ s : State, s.snsRuns = true ∧ s.sense.run = .converting i ∧ s.sense.aborts < 2 ∧ s.sense.engineQ = [] ∧ s.sense.userHold = false ∧ s.sense.userQ = some u ∧ u.settle = 0#8) ∧
    (∃ u : Urgent, ∃ r : List Urgent, ∃ s : State, s.snsRuns = true ∧ s.sense.run = .idle ∧ s.sense.engineQ = u :: r ∧ u.settle ≠ 0#8) ∧
    (∃ i : Fin 32, ∃ s : State, s.snsRuns = true ∧ s.sense.run = .converting i ∧ 2 ≤ s.sense.aborts) :=
  ⟨⟨31, { snsUp with sense := { seq := put up.sense.seq 30 0#32 } }, by decide +kernel⟩,
   ⟨30, snsUp, by decide +kernel⟩,
   ⟨31, { snsUp with sense := { run := .settling 31 } }, by decide +kernel⟩,
   ⟨{ by_ := .user, input := 2#5, settle := 1#8, osr := 0#2 }, { snsUp with sense := { run := .urgSettling { by_ := .user, input := 2#5, settle := 1#8, osr := 0#2 } } }, by decide +kernel⟩,
   ⟨{ up with clk := { up.clk with absent := 0x2000#14 } }, by decide +kernel⟩,
   ⟨3, 9#20, { snsUp with sense := { run := .converting 3, cur := 0x80000002#32, seq := Vector.replicate 32 0#32 } }, by decide +kernel⟩,
   ⟨0xB0000#20, { snsUp with sense := { run := .converting 30 } }, by decide +kernel⟩,
   ⟨0x60000#20, { snsUp with sense := { run := .converting 30 } }, by decide +kernel⟩,
   ⟨{ by_ := .user, input := 2#5, settle := 0#8, osr := 0#2 }, 30, 9#20, { snsUp with sense := { run := .urgConverting { by_ := .user, input := 2#5, settle := 0#8, osr := 0#2 }, interrupted := some 30, go := true } }, by decide +kernel⟩,
   ⟨.host, 0x8001001B#32, up, by decide +kernel⟩,
   ⟨.host, 0x8001001B#32, { snsUp with sense := { go := true } }, by decide +kernel⟩,
   ⟨{ by_ := .user, input := 2#5, settle := 0#8, osr := 0#2 }, 30, { snsUp with sense := { run := .converting 30, userQ := some { by_ := .user, input := 2#5, settle := 0#8, osr := 0#2 } } }, by decide +kernel⟩,
   ⟨{ by_ := .rail, input := 15#5, settle := 4#8, osr := 0#2 }, [], { snsUp with sense := { engineQ := [{ by_ := .rail, input := 15#5, settle := 4#8, osr := 0#2 }] } }, by decide +kernel⟩,
   ⟨30, { snsUp with sense := { run := .converting 30, aborts := 2 } }, by decide +kernel⟩⟩

/-- Every clause of SenseVerbs has its premises met. -/
theorem witness_SenseVerbs :
    (∃ c : Caller, ∃ s : State, Takes c s) ∧
    (∃ c : Caller, ∃ i : BitVec 5, ∃ n : Nat, ∃ _o : BitVec 2, ∃ s : State, Takes c s ∧ c.path = .call ∧ s.confidential = false ∧ s.sense.go = false ∧ n ≤ 255 ∧ realInput i = true) ∧
    (∃ c : Caller, ∃ _i : BitVec 5, ∃ _n : Nat, ∃ _o : BitVec 2, ∃ s : State, Takes c s ∧ s.confidential = false ∧ s.sense.go = true) ∧
    (∃ c : Caller, ∃ i : BitVec 5, ∃ _n : Nat, ∃ _o : BitVec 2, ∃ s : State, Takes c s ∧ s.confidential = true ∧ secretInput i = true) ∧
    (∃ c : Caller, ∃ _k : Fin 30, ∃ i : BitVec 5, ∃ n : Nat, ∃ _o : BitVec 2, ∃ s : State, Takes c s ∧ n ≤ 255 ∧ realInput i = true) ∧
    (∃ c : Caller, ∃ k : Nat, ∃ i : BitVec 5, ∃ n : Nat, ∃ _o : BitVec 2, ∃ s : State, Takes c s ∧ (30 ≤ k ∨ 256 ≤ n ∨ realInput i = false)) ∧
    (∃ c : Caller, ∃ k : Fin 30, ∃ s : State, Takes c s ∧ realInput (seqInput s.sense.seq[k.val]) = true) ∧
    (∃ c : Caller, ∃ n : Nat, ∃ s : State, Takes c s ∧ n ≤ 65535) :=
  ⟨⟨Caller.line, up, by decide +kernel⟩,
   ⟨Caller.line, 27#5, 255, 3#2, up, by decide +kernel⟩,
   ⟨Caller.line, 27#5, 255, 3#2, { up with sense := { go := true } }, by decide +kernel⟩,
   ⟨Caller.line, 14#5, 255, 3#2, { up with keys := { startup := false, keyop := 1 } }, by decide +kernel⟩,
   ⟨Caller.line, 29, 27#5, 255, 3#2, up, by decide +kernel⟩,
   ⟨Caller.line, 30, 27#5, 255, 3#2, up, by decide +kernel⟩,
   ⟨Caller.line, 3, { up with sense := { seq := put up.sense.seq 3 0x80000002#32 } }, by decide +kernel⟩,
   ⟨Caller.line, 65535, up, by decide +kernel⟩⟩

/-- Every clause of InputsAreDebounced has its premises met. -/
theorem witness_InputsAreDebounced :
    (∃ n : Fin 12, ∃ d : Bool, ∃ s : State, s.edge.btn[n].level ≠ d) ∧
    (∃ n : Fin 2, ∃ d : Bool, ∃ s : State, s.edge.plug[n].level ≠ d) ∧
    (∃ n : Fin 12, ∃ r : Fin 14, ∃ u : Nat, ∃ s : State, inputOf r = .inr n ∧ s.dueAt r = some u ∧ (∀ q : Fin 14, q ≠ r → (s.dueAt q).all (fun x => decide (u < x)) = true) ∧ u < 2 ^ 64 ∧ (btnByte s.edge n).testBit 7 = true ∧ s.edge.waiting < 32 ∧ s.edge.lostRun = 0 ∧ (∀ k : Fin 8, s.edge.bind[k].valid = false)) ∧
    (∃ n : Fin 12, ∃ r : Fin 14, ∃ u : Nat, ∃ s : State, inputOf r = .inr n ∧ s.dueAt r = some u ∧ (∀ q : Fin 14, q ≠ r → (s.dueAt q).all (fun x => decide (u < x)) = true) ∧ u < 2 ^ 64 ∧ (btnByte s.edge n).testBit 7 = false) ∧
    (∃ n : Fin 2, ∃ r : Fin 14, ∃ u : Nat, ∃ s : State, inputOf r = .inl n ∧ s.dueAt r = some u ∧ (∀ q : Fin 14, q ≠ r → (s.dueAt q).all (fun x => decide (u < x)) = true) ∧ u < 2 ^ 64 ∧ s.edge.plug[n].level = true ∧ (plugByte s.edge n).testBit 7 = true ∧ (plugByte s.edge n).testBit 6 = true ∧ s.clk.absent.getLsbD Clk.sns.val = false ∧ s.edge.waiting < 32 ∧ s.edge.lostRun = 0 ∧ (∀ k : Fin 8, s.edge.bind[k].valid = false)) ∧
    (∃ n : Fin 12, ∃ m : Fin 2, ∃ r p : Fin 14, ∃ u : Nat, ∃ s : State, inputOf r = .inr n ∧ inputOf p = .inl m ∧ s.dueAt r = some u ∧ s.dueAt p = some u ∧ (∀ q : Fin 14, q ≠ r → q ≠ p → (s.dueAt q).all (fun x => decide (u < x)) = true) ∧ u < 2 ^ 64 ∧ (btnByte s.edge n).testBit 7 = true ∧ (plugByte s.edge m).testBit 7 = true ∧ s.edge.plug[m].level = false ∧ s.edge.waiting < 31 ∧ s.edge.lostRun = 0 ∧ (∀ k : Fin 8, s.edge.bind[k].valid = false)) ∧
    (∃ n : Fin 2, ∃ r : Fin 14, ∃ s : State, inputOf r = .inl n ∧ s.edge.imp[n].isSome = true) ∧
    (∃ s : State, s.start.vddAo = true ∧ s.start.latching = false) ∧
    (∃ e : QueueEntry, ∃ rest : List QueueEntry, ∃ s : State, s.start.banner = true ∧ s.call.events = true ∧ s.host.evctl.getLsbD 1 = false ∧ s.edge.queue = e :: rest ∧ e.takenCall = false ∧ s.call.tx = []) :=
  ⟨⟨3, true, up, by decide +kernel⟩,
   ⟨1, true, up, by decide +kernel⟩,
   ⟨3, 5, 768000, { up with edge := { up.edge with btn := put up.edge.btn 3 { level := true, pending := true } } }, by decide +kernel⟩,
   ⟨3, 5, 38400, { up with edge := { up.edge with btn := put up.edge.btn 3 { level := true, pending := true }, btnReg := Vector.replicate 3 0#32 } }, by decide +kernel⟩,
   ⟨1, 1, 2457600, { up with edge := { up.edge with plug := put up.edge.plug 1 { level := true, pending := true } } }, by decide +kernel⟩,
   ⟨3, 1, 5, 1, 768000, { up with edge := { up.edge with btn := put up.edge.btn 3 { level := true, pending := true }, plugReg := 0xD3D3#16, plug := put up.edge.plug 1 { level := false, deb := true, pending := true } } }, by decide +kernel⟩,
   ⟨1, 1, { up with edge := { up.edge with plug := put up.edge.plug 1 { level := true, pending := true }, imp := put up.edge.imp 1 (some none) } }, by decide +kernel⟩,
   ⟨State.reset, by decide +kernel⟩,
   ⟨{ ev := .btn 1 true, tick := 0#64, bound := none }, [], { up with edge := { up.edge with queue := [{ ev := .btn 1 true, tick := 0#64, bound := none }] } }, by decide +kernel⟩⟩

/-- Every clause of EventQueueKeepsItsOrder has its premises met. -/
theorem witness_EventQueueKeepsItsOrder :
    (∃ _ev : EdgeEv, ∃ _u : W64, ∃ s : State, 32 ≤ s.edge.waiting) ∧
    (∃ _ev : EdgeEv, ∃ _u : W64, ∃ s : State, s.edge.waiting < 32 ∧ s.edge.lostRun ≠ 0) ∧
    (∃ _ev : EdgeEv, ∃ _u : W64, ∃ s : State, s.edge.waiting < 32 ∧ s.edge.lostRun = 0) ∧
    (∃ n : Fin 12, ∃ r : Fin 14, ∃ u : Nat, ∃ s : State, inputOf r = .inr n ∧ s.dueAt r = some u ∧ (∀ q : Fin 14, q ≠ r → (s.dueAt q).all (fun x => decide (u < x)) = true) ∧ u < 2 ^ 64 ∧ (btnByte s.edge n).testBit 7 = true ∧ 32 ≤ s.edge.waiting) :=
  ⟨⟨.touch 2 true, 7#64, { up with edge := { up.edge with queue := List.replicate 32 { ev := .btn 1 true, tick := 0#64, bound := none } } }, by decide +kernel⟩,
   ⟨.touch 2 true, 7#64, { up with edge := { up.edge with lostRun := 3 } }, by decide +kernel⟩,
   ⟨.plug 1 true, 7#64, up, by decide +kernel⟩,
   ⟨3, 5, 768000, { up with edge := { up.edge with btn := put up.edge.btn 3 { level := true, pending := true }, queue := List.replicate 32 { ev := .btn 1 true, tick := 0#64, bound := none } } }, by decide +kernel⟩⟩

/-- Every clause of PwmRunsByEnableOrBurst has its premises met. -/
theorem witness_PwmRunsByEnableOrBurst :
    (∃ p : Pwm, p.burst = 0#16) ∧
    (∃ p : Pwm, p.burst ≠ 0#16) ∧
    (∃ p : Path, ∃ k : Fin 4, ∃ s : State, s.edgeMay p = true ∧ s.edge.pwm[k].burst ≠ 0#16 ∧ s.edge.pwm[k].go = false) ∧
    (∃ p : Path, ∃ k : Fin 4, ∃ s : State, s.edgeMay p = true ∧ s.edge.pwm[k].burst ≠ 0#16 ∧ (s.edge.pwm[k].upTo s.clk.tick).go = true) ∧
    (∃ p : Path, ∃ k : Fin 4, ∃ s : State, s.edgeMay p = true ∧ s.edge.pwm[k].burst = 0#16 ∧ s.edge.pwm[k].en = false) ∧
    (∃ _now : W64, ∃ p : Pwm, p.go = true ∧ p.burst ≠ 0#16 ∧ p.period ≠ 0 ∧ p.next = none) ∧
    (∃ k : Fin 4, ∃ s : State, s.edge.pwm[k].go = true ∧ s.edge.pwm[k].burst ≠ 0#16 ∧ s.edge.pwm[k].over < 2 ^ 64) ∧
    (∃ k : Fin 4, ∃ s : State, s.edge.pwm[k].counts = true ∧ s.edge.pwm[k].phase.toNat + s.edge.pwm[k].ticks < 2 ^ 64 ∧ s.clk.tick.toNat ≤ s.edge.pwm[k].phase.toNat + s.edge.pwm[k].ticks) :=
  ⟨⟨{ en := true }, by decide +kernel⟩,
   ⟨{ burst := 5#16 }, by decide +kernel⟩,
   ⟨.call, 1, { up with edge := { up.edge with pwm := put up.edge.pwm 1 { burst := 5#16 } } }, by decide +kernel⟩,
   ⟨.call, 1, { up with edge := { up.edge with pwm := put up.edge.pwm 1 { burst := 5#16, go := true } } }, by decide +kernel⟩,
   ⟨.call, 1, up, by decide +kernel⟩,
   ⟨192100#64, { burst := 5#16, go := true, duty := 0x100001#32, pre := 4#4 }, by decide +kernel⟩,
   ⟨1, { up with edge := { up.edge with pwm := put up.edge.pwm 1 { burst := 5#16, go := true, duty := 0x100001#32 } } }, by decide +kernel⟩,
   ⟨1, { up with edge := { up.edge with pwm := put up.edge.pwm 1 { en := true, duty := 0x100001#32, next := some 0x200001#32 } } }, by decide +kernel⟩⟩

/-- Every clause of EdgeVerbs has its premises met. -/
theorem witness_EdgeVerbs :
    (∃ c : Caller, ∃ s : State, Takes c s) ∧
    (∃ c : Caller, ∃ _n : Fin 12, ∃ d : Option Nat, ∃ _a _b : Option Bool, ∃ s : State, Takes c s ∧ s.confidential = false ∧ dbOk d = true) ∧
    (∃ c : Caller, ∃ _n : Fin 2, ∃ d : Option Nat, ∃ _a _b : Option Bool, ∃ s : State, Takes c s ∧ s.confidential = false ∧ dbOk d = true) ∧
    (∃ c : Caller, ∃ _n : Fin 4, ∃ a b : Option Nat, ∃ _e : Option Bool, ∃ s : State, Takes c s ∧ s.confidential = false ∧ below 4096 a = true ∧ below 4096 b = true) ∧
    (∃ c : Caller, ∃ _k : Fin 4, ∃ x y : Nat, ∃ q : Option Nat, ∃ _o : Option Bool, ∃ b : Option Nat, ∃ s : State, Takes c s ∧ s.confidential = false ∧ x < 65536 ∧ y < 65536 ∧ below 16 q = true ∧ below 65536 b = true) ∧
    (∃ c : Caller, ∃ k : Fin 8, ∃ _v : Byte, ∃ l : LaneId, ∃ _h : Fin 16, ∃ e : Nat, ∃ _a : List HeatArg, ∃ s : State, Takes c s ∧ s.confidential = false ∧ (s.lane l).st ≠ .scrub ∧ (s.lane l).owner = c.path.owner ∧ e ≤ 65535 ∧ s.edge.bind[k].valid = false) ∧
    (∃ c : Caller, ∃ k : Fin 8, ∃ _v : Byte, ∃ l : LaneId, ∃ _h : Fin 16, ∃ e : Nat, ∃ _a : List HeatArg, ∃ s : State, Takes c s ∧ s.confidential = false ∧ (s.lane l).st ≠ .scrub ∧ (s.lane l).owner = c.path.owner ∧ e ≤ 65535 ∧ s.edge.bind[k].valid = true) ∧
    (∃ c : Caller, ∃ k : Fin 8, ∃ s : State, Takes c s ∧ s.confidential = false ∧ s.edge.bind[k].valid = true ∧ (s.lane s.edge.bind[k].lane).st ≠ .scrub ∧ (s.lane s.edge.bind[k].lane).owner = c.path.owner) ∧
    (∃ c : Caller, ∃ _n : Fin 12, ∃ d : Option Nat, ∃ _a _b : Option Bool, ∃ s : State, Takes c s ∧ s.confidential = true ∧ dbOk d = true) :=
  ⟨⟨Caller.line, up, by decide +kernel⟩,
   ⟨Caller.line, 5, some 64, some false, none, up, by decide +kernel⟩,
   ⟨Caller.line, 1, some 1, some false, none, up, by decide +kernel⟩,
   ⟨Caller.line, 1, some 300, none, some true, up, by decide +kernel⟩,
   ⟨Caller.line, 2, 100, 30, some 3, some true, none, up, by decide +kernel⟩,
   ⟨Caller.line, 7, 0x44#8, 1, 15, 65535, [], rdy, by decide +kernel⟩,
   ⟨Caller.line, 7, 0x44#8, 1, 15, 65535, [], { rdy with edge := { up.edge with bind := put up.edge.bind 7 { valid := true } } }, by decide +kernel⟩,
   ⟨Caller.line, 7, { rdy with edge := { up.edge with bind := put up.edge.bind 7 { valid := true, lane := 1 } } }, by decide +kernel⟩,
   ⟨Caller.line, 5, some 64, some false, none, { up with keys := { startup := false, keyop := 1 } }, by decide +kernel⟩⟩

/-- Every clause of TimersCountAndTrigger has its premises met. -/
theorem witness_TimersCountAndTrigger :
    (∃ p : Path, ∃ m : Byte, ∃ n : Fin 8, ∃ s : State, m.getLsbD n.val = true ∧ s.tmrMay p n = true ∧ s.tmr.chan[n].running = true) ∧
    (∃ n : Fin 8, ∃ s : State, s.tmr.chan[n].running = true ∧ s.tmr.chan[n].period ≠ 0#32 ∧ s.tmr.chan[n].evsel = false ∧ s.tmr.chan[n].oneshot = false ∧ s.tmr.chan[n].periodNext = none ∧ s.tmr.trigSrc.toNat = n.val + 1) ∧
    (∃ n : Fin 8, ∃ s : State, s.tmr.chan[n].running = true ∧ s.tmr.chan[n].period ≠ 0#32 ∧ s.tmr.chan[n].oneshot = true ∧ s.tmr.trigSrc = 0#4) ∧
    (∃ n : Fin 8, ∃ s : State, s.tmr.chan[n].running = true ∧ s.tmr.chan[n].compare ≠ 0#32 ∧ s.tmr.chan[n].compare.toNat < s.tmr.chan[n].period.toNat ∧ s.tmr.chan[n].count.toNat ≤ s.tmr.chan[n].compare.toNat ∧ s.tmr.chan[n].evsel = true ∧ s.tmr.trigSrc.toNat = n.val + 1) ∧
    (∃ s : State, s.tmr.trigOut = true) ∧
    (∃ c : Caller, ∃ s : State, Takes c s) ∧
    (∃ c : Caller, ∃ n : Fin 8, ∃ a b : Nat, ∃ s : State, Takes c s ∧ usTicks a < 4294967296 ∧ usTicks b < 4294967296 ∧ usTicks a ≠ 0 ∧ s.tmrHeld n = false ∧ s.tmr.chan[n].running = false) ∧
    (∃ c : Caller, ∃ n : Fin 8, ∃ a b : Option Nat, ∃ _o : Option Bool, ∃ s : State, Takes c s ∧ usOk 32 a = true ∧ usOk 32 b = true ∧ s.tmrHeld n = true) ∧
    (∃ c : Caller, ∃ _n : Option (Fin 8), ∃ s : State, Takes c s) ∧
    (∃ c : Caller, ∃ w : Nat, ∃ s : State, Takes c s ∧ usTicks w < 65536) :=
  ⟨⟨.host, 4#8, 2, { up with tmr := { up.tmr with chan := put up.tmr.chan 2 { running := true, period := 5#32, periodNext := some 6#32 }, trigSrc := 3#4, trigWidth := 7#16 } }, by decide +kernel⟩,
   ⟨2, { up with tmr := { up.tmr with chan := put up.tmr.chan 2 { running := true, period := 5#32 }, trigSrc := 3#4, trigWidth := 7#16 } }, by decide +kernel⟩,
   ⟨2, { up with tmr := { up.tmr with chan := put up.tmr.chan 2 { running := true, period := 5#32, ctrl := 0x80#32 } } }, by decide +kernel⟩,
   ⟨2, { up with tmr := { up.tmr with chan := put up.tmr.chan 2 { running := true, period := 5#32, compare := 3#32, ctrl := 0x10#32 }, trigSrc := 3#4, trigWidth := 7#16 } }, by decide +kernel⟩,
   ⟨{ up with tmr := { up.tmr with trigOut := true, pulseLeft := 5 } }, by decide +kernel⟩,
   ⟨Caller.line, up, by decide +kernel⟩,
   ⟨Caller.line, 3, 1000, 10, up, by decide +kernel⟩,
   ⟨Caller.line, 0, none, none, some true, { up with eye := { trigSrc := 1#4 } }, by decide +kernel⟩,
   ⟨Caller.line, some 7, up, by decide +kernel⟩,
   ⟨Caller.line, 1706, up, by decide +kernel⟩⟩

/-- Every clause of CallLineReceives has its premises met. -/
theorem witness_CallLineReceives :
    (∃ b : Byte, ∃ r : Nat, ∃ s : State, s.call.measuring = true ∧ (b.getLsbD 0 = false ∨ r < 9600 ∨ 3000000 < r)) ∧
    (∃ _b : Byte, ∃ r : Nat, ∃ s : State, s.call.measuring = true ∧ s.clk.callClock = .ref ∧ 460800 < r) ∧
    (∃ b : Byte, ∃ r : Nat, ∃ s : State, s.start.latching = true ∧ s.call.measuring = true ∧ b.getLsbD 0 = true ∧ (0x20 < b.toNat ∧ b.toNat < 0x7F) ∧ (9600 ≤ r ∧ r ≤ 3000000) ∧ (s.clk.callClock ≠ .ref ∨ r ≤ 460800) ∧ s.call.held < 512 ∧ s.call.part.length < 256) ∧
    (∃ b : Byte, ∃ _r : Nat, ∃ s : State, s.start.latching = true ∧ s.call.measuring = false ∧ (0x20 ≤ b.toNat ∧ b.toNat < 0x7F) ∧ s.call.held < 512 ∧ s.call.part.length < 256) ∧
    (∃ b : Byte, ∃ _r : Nat, ∃ s : State, s.start.latching = true ∧ s.call.measuring = false ∧ (b.toNat < 0x20 ∨ 0x7E < b.toNat) ∧ (b ≠ 0x09#8 ∧ b ≠ 0x0A#8 ∧ b ≠ 0x0D#8) ∧ s.call.terse = true ∧ s.call.held < 512 ∧ s.call.part.length < 256) ∧
    (∃ _r : Nat, ∃ s : State, s.start.latching = true ∧ s.call.measuring = false ∧ s.call.held < 512) ∧
    (∃ _r : Nat, ∃ s : State, s.start.latching = true ∧ s.call.measuring = false ∧ s.call.afterCr = true) ∧
    (∃ _r : Nat, ∃ s : State, s.start.latching = true ∧ s.call.measuring = false ∧ s.call.held < 512 ∧ s.call.terse = false ∧ s.call.part ≠ []) ∧
    (∃ _r : Nat, ∃ s : State, s.start.latching = true ∧ s.call.measuring = false ∧ s.call.held < 512 ∧ s.call.terse = false) ∧
    (∃ _r : Nat, ∃ s : State, s.start.latching = true ∧ s.call.measuring = false ∧ s.call.held < 512 ∧ s.call.terse = false) ∧
    (∃ b : Byte, ∃ _r : Nat, ∃ s : State, s.start.latching = true ∧ s.call.measuring = false ∧ (b ≠ 0x0A#8 ∨ s.call.afterCr = false) ∧ 512 ≤ s.call.held) ∧
    (∃ b : Byte, ∃ _r : Nat, ∃ s : State, s.start.latching = true ∧ s.call.measuring = false ∧ (0x20 ≤ b.toNat ∧ b.toNat < 0x7F) ∧ s.call.held < 512 ∧ 256 ≤ s.call.part.length) ∧
    (∃ s : State, s.start.latching = true ∧ s.start.banner = false) ∧
    (∃ s : State, s.start.latching = true ∧ s.start.banner = true) ∧
    (∃ w : WaitRec, ∃ s : State, s.start.latching = true ∧ s.call.wait = some w ∧ w.caller.path = .call) ∧
    (∃ x : RxLine, ∃ rest : List RxLine, ∃ s : State, s.start.banner = true ∧ s.call.running = none ∧ s.coxWorks s.faults.callCox = true ∧ s.call.lines = x :: rest ∧ x.damaged = false ∧ x.long = false ∧ x.badChar = false ∧ x.text.all isSpace = true) ∧
    (∃ x : RxLine, ∃ rest : List RxLine, ∃ s : State, s.start.banner = true ∧ s.call.running = none ∧ s.coxWorks s.faults.callCox = true ∧ s.call.lines = x :: rest ∧ x.damaged = false ∧ x.long = true) ∧
    (∃ x : RxLine, ∃ rest : List RxLine, ∃ s : State, s.start.banner = true ∧ s.call.running = none ∧ s.coxWorks s.faults.callCox = true ∧ s.call.lines = x :: rest ∧ x.damaged = true) ∧
    (∃ x : RxLine, ∃ rest : List RxLine, ∃ v : String, ∃ g : Option (List Byte), ∃ e : Err, ∃ d : List String, ∃ s : State, s.start.banner = true ∧ s.call.running = none ∧ s.coxWorks s.faults.callCox = true ∧ s.call.lines = x :: rest ∧ x.damaged = false ∧ x.long = false ∧ x.badChar = false ∧ x.text.all isSpace = false ∧ parseLine Caller.line s.call.terse s.call.check x.text = .bad v g e d) ∧
    (∃ x : RxLine, ∃ rest : List RxLine, ∃ c : Caller, ∃ l : LaneId, ∃ q : Option W32, ∃ h e : Nat, ∃ a : List HeatArg, ∃ s : State, s.start.banner = true ∧ s.call.running = none ∧ s.coxWorks s.faults.callCox = true ∧ s.call.lines = x :: rest ∧ x.damaged = false ∧ x.long = false ∧ x.badChar = false ∧ x.text.all isSpace = false ∧ parseLine Caller.line s.call.terse s.call.check x.text = .call (.heat c l q h e a)) ∧
    (∃ x : RxLine, ∃ rest : List RxLine, ∃ c : Caller, ∃ l : LaneId, ∃ q : Option W32, ∃ p : Option (BitVec 2), ∃ s : State, s.start.banner = true ∧ s.call.running = none ∧ s.coxWorks s.faults.callCox = true ∧ s.call.lines = x :: rest ∧ x.damaged = false ∧ x.long = false ∧ x.badChar = false ∧ x.text.all isSpace = false ∧ parseLine Caller.line s.call.terse s.call.check x.text = .call (.laneOpen c l q p)) ∧
    (∃ x : RxLine, ∃ rest : List RxLine, ∃ c : Caller, ∃ s : State, s.start.banner = true ∧ s.call.running = none ∧ s.coxWorks s.faults.callCox = true ∧ s.call.lines = x :: rest ∧ x.damaged = false ∧ x.long = false ∧ x.badChar = false ∧ x.text.all isSpace = false ∧ c.path = .call ∧ s.keys.recovery = false ∧ parseLine Caller.line s.call.terse s.call.check x.text = .call (.hello c)) ∧
    (∃ x : RxLine, ∃ rest : List RxLine, ∃ c : Caller, ∃ r : RegRef, ∃ f : Option (List Byte), ∃ n : Option Nat, ∃ s : State, s.start.banner = true ∧ s.call.running = none ∧ s.coxWorks s.faults.callCox = true ∧ s.call.lines = x :: rest ∧ x.damaged = false ∧ x.long = false ∧ x.badChar = false ∧ x.text.all isSpace = false ∧ parseLine Caller.line s.call.terse s.call.check x.text = .call (.get c r f n)) ∧
    (∃ s : State, s.coxWorks s.faults.callCox = false) ∧
    (∃ i : TxItem, ∃ rest : List TxItem, ∃ s : State, s.call.tx = i :: rest ∧ (s.call.flow = false ∨ s.call.ctsN = false)) ∧
    (∃ s : State, s.call.flow = true ∧ s.call.ctsN = true) :=
  ⟨⟨0x0A#8, 115200, up, by decide +kernel⟩,
   ⟨0x0D#8, 921600, { up with clk := { up.clk with callClock := .ref } }, by decide +kernel⟩,
   ⟨0x41#8, 115200, up, by decide +kernel⟩,
   ⟨0x48#8, 0, { up with call := { up.call with measuring := false, locked := true } }, by decide +kernel⟩,
   ⟨0x08#8, 0, { up with call := { up.call with measuring := false, locked := true, terse := true } }, by decide +kernel⟩,
   ⟨0, { up with call := { up.call with measuring := false, locked := true, part := ascii "HELLO" } }, by decide +kernel⟩,
   ⟨0, { up with call := { up.call with measuring := false, locked := true, afterCr := true } }, by decide +kernel⟩,
   ⟨0, { up with call := { up.call with measuring := false, locked := true, part := ascii "HX" } }, by decide +kernel⟩,
   ⟨0, { up with call := { up.call with measuring := false, locked := true, part := ascii "HX" } }, by decide +kernel⟩,
   ⟨0, { up with call := { up.call with measuring := false, locked := true, part := ascii "HX" } }, by decide +kernel⟩,
   ⟨0x41#8, 0, { up with call := { up.call with measuring := false, locked := true, lines := [⟨List.replicate 255 0x41#8, false, false, false⟩, ⟨List.replicate 255 0x41#8, false, false, false⟩] } }, by decide +kernel⟩,
   ⟨0x41#8, 0, { up with call := { up.call with measuring := false, locked := true, part := List.replicate 256 0x41#8 } }, by decide +kernel⟩,
   ⟨{ up with start := { up.start with banner := false } }, by decide +kernel⟩,
   ⟨{ up with call := { up.call with measuring := false, locked := true, terse := true, flow := true, part := ascii "H" } }, by decide +kernel⟩,
   ⟨⟨1, 0#32, Caller.line⟩, { up with call := { up.call with measuring := false, locked := true, running := some "WAIT", wait := some ⟨1, 0#32, Caller.line⟩ } }, by decide +kernel⟩,
   ⟨⟨ascii "  ", false, false, false⟩, [], { up with call := { up.call with measuring := false, locked := true, lines := [⟨ascii "  ", false, false, false⟩] } }, by decide +kernel⟩,
   ⟨⟨[], true, false, false⟩, [], { up with call := { up.call with measuring := false, locked := true, lines := [⟨[], true, false, false⟩] } }, by decide +kernel⟩,
   ⟨⟨[], false, false, true⟩, [], { up with call := { up.call with measuring := false, locked := true, lost := 3, lines := [⟨[], false, false, true⟩] } }, by decide +kernel⟩,
   ⟨⟨ascii "XYZZY", false, false, false⟩, [], "?", none, .syntaxErr, ["verb"], { up with call := { up.call with measuring := false, locked := true, lines := [⟨ascii "XYZZY", false, false, false⟩] } }, by decide +kernel⟩,
   ⟨⟨ascii "HEAT L1 NEXT h=0 e=3", false, false, false⟩, [], Caller.line, 1, none, 0, 3, [], { up with call := { up.call with measuring := false, locked := true, lines := [⟨ascii "HEAT L1 NEXT h=0 e=3", false, false, false⟩] } }, by decide +kernel⟩,
   ⟨⟨ascii "LANE OPEN L1", false, false, false⟩, [], Caller.line, 1, none, none, { up with call := { up.call with measuring := false, locked := true, lines := [⟨ascii "LANE OPEN L1", false, false, false⟩] } }, by decide +kernel⟩,
   ⟨⟨ascii "HELLO", false, false, false⟩, [], Caller.line, { up with call := { up.call with measuring := false, locked := true, lines := [⟨ascii "HELLO", false, false, false⟩] } }, by decide +kernel⟩,
   ⟨⟨ascii "GET 0x1000", false, false, false⟩, [], Caller.line, .offset 0x1000, none, none, { up with call := { up.call with measuring := false, locked := true, lines := [⟨ascii "GET 0x1000", false, false, false⟩] } }, by decide +kernel⟩,
   ⟨{ up with faults := { up.faults with crashed := ⟨#[true, false, false], rfl⟩ } }, by decide +kernel⟩,
   ⟨.chars [0x41#8], [], { up with call := { up.call with measuring := false, locked := true, tx := [.chars [0x41#8]], ctsN := true } }, by decide +kernel⟩,
   ⟨{ up with call := { up.call with measuring := false, locked := true, flow := true, ctsN := true, tx := [.chars []] } }, by decide +kernel⟩⟩

/-- Every clause of SessionVerbs has its premises met. -/
theorem witness_SessionVerbs :
    (∃ c : Caller, ∃ s : State, s.start.banner = true ∧ s.lineBusy c = false) ∧
    (∃ c : Caller, ∃ s : State, s.start.banner = true ∧ s.lineBusy c = false) ∧
    (∃ c : Caller, ∃ s : State, s.start.banner = true ∧ s.lineBusy c = false) ∧
    (∃ c : Caller, ∃ s : State, s.start.banner = true ∧ s.lineBusy c = false) ∧
    (∃ c : Caller, ∃ w : List Byte, ∃ v : String, ∃ s : State, s.start.banner = true ∧ s.lineBusy c = false ∧ verbOf (s.call.terse || c.path == .host) w = .verb v) ∧
    (∃ c : Caller, ∃ w : List Byte, ∃ s : State, s.start.banner = true ∧ s.lineBusy c = false ∧ verbOf (s.call.terse || c.path == .host) w = .unknown) ∧
    (∃ c : Caller, ∃ _on : Bool, ∃ s : State, s.start.banner = true ∧ s.lineBusy c = false ∧ c.path = .call) ∧
    (∃ c : Caller, ∃ _on : Bool, ∃ s : State, s.start.banner = true ∧ s.lineBusy c = false ∧ c.path = .host) ∧
    (∃ c : Caller, ∃ _m : Bool, ∃ _k _e _f : Option Bool, ∃ s : State, s.start.banner = true ∧ s.lineBusy c = false ∧ c.path = .call) ∧
    (∃ c : Caller, ∃ _m : Bool, ∃ _k _e _f : Option Bool, ∃ s : State, s.start.banner = true ∧ s.lineBusy c = false ∧ c.path = .host) ∧
    (∃ c : Caller, ∃ s : State, s.start.banner = true ∧ s.lineBusy c = false) ∧
    (∃ c : Caller, ∃ s : State, Takes c s) ∧
    (∃ c : Caller, ∃ s : State, s.start.banner = true ∧ s.lineBusy c = false ∧ s.keys.recovery = true) ∧
    (∃ c : Caller, ∃ s : State, Takes c s ∧ c.path = .call) ∧
    (∃ c : Caller, ∃ _n : Nat, ∃ s : State, Takes c s ∧ c.path = .call) ∧
    (∃ c : Caller, ∃ n : Nat, ∃ s : State, Takes c s ∧ c.path = .host ∧ (100 ≤ n ∧ n ≤ 60000) ∧ s.host.leaseActive = true) ∧
    (∃ c : Caller, ∃ n : Nat, ∃ s : State, Takes c s ∧ c.path = .host ∧ (n < 100 ∨ 60000 < n)) :=
  ⟨⟨Caller.line, up, by decide +kernel⟩,
   ⟨Caller.line, up, by decide +kernel⟩,
   ⟨Caller.line, up, by decide +kernel⟩,
   ⟨Caller.line, up, by decide +kernel⟩,
   ⟨Caller.line, ascii "HEAT", "HEAT", up, by decide +kernel⟩,
   ⟨Caller.line, ascii "XYZZY", up, by decide +kernel⟩,
   ⟨Caller.line, false, up, by decide +kernel⟩,
   ⟨{ Caller.line with path := .host }, false, up, by decide +kernel⟩,
   ⟨Caller.line, true, some true, none, none, up, by decide +kernel⟩,
   ⟨{ Caller.line with path := .host }, true, none, none, none, up, by decide +kernel⟩,
   ⟨Caller.line, { up with call := { up.call with measuring := false, locked := true, terse := true, part := ascii "H" } }, by decide +kernel⟩,
   ⟨Caller.line, up, by decide +kernel⟩,
   ⟨Caller.line, { up with keys := { up.keys with recovery := true } }, by decide +kernel⟩,
   ⟨Caller.line, up, by decide +kernel⟩,
   ⟨Caller.line, 1000, up, by decide +kernel⟩,
   ⟨{ Caller.line with path := .host }, 500, { up with host := { up.host with leaseActive := true } }, by decide +kernel⟩,
   ⟨{ Caller.line with path := .host }, 99, up, by decide +kernel⟩⟩

/-- Every clause of RegistersAreReadAndWritten has its premises met. -/
theorem witness_RegistersAreReadAndWritten :
    (∃ p : Path, ∃ l : LaneId, ∃ _v : W32, ∃ s : State, s.ownsLane p l = true) ∧
    (∃ p : Path, ∃ l : LaneId, ∃ _v : W32, ∃ s : State, s.ownsLane p l = false) ∧
    (∃ p : Path, ∃ _v : W32, ∃ _s : State, (p = .host ∨ p = .string)) ∧
    (∃ p : Path, ∃ _v : W32, ∃ _s : State, (p = .call ∨ p = .cox)) ∧
    (∃ p : Path, ∃ _v : W32, ∃ _s : State, (p = .host ∨ p = .string)) ∧
    (∃ p : Path, ∃ v : W32, ∃ _s : State, (p = .call ∨ p = .host) ∧ v.getLsbD 0 = true) ∧
    (∃ _p : Path, ∃ r : Fin 32, ∃ _v : W32, ∃ s : State, s.mem.region[r].valid = false) ∧
    (∃ _p : Path, ∃ r : Fin 32, ∃ _v : W32, ∃ s : State, s.mem.region[r].valid = true) ∧
    (∃ _p : Path, ∃ o : BitVec 18, ∃ _v : W32, ∃ _s : State, (o.toNat < 0x1000 ∨ o.toNat % 4 ≠ 0)) ∧
    (∃ c : Caller, ∃ _k : Fin 1024, ∃ s : State, Takes c s) ∧
    (∃ c : Caller, ∃ l : LaneId, ∃ n : Nat, ∃ s : State, Takes c s ∧ (1 ≤ n ∧ n ≤ 3) ∧ (s.ownsLane c.path.path l) = true) ∧
    (∃ c : Caller, ∃ l : LaneId, ∃ s : State, Takes c s ∧ (s.ownsLane c.path.path l) = false) ∧
    (∃ c : Caller, ∃ o : Nat, ∃ _f : Option (List Byte), ∃ _n : Option Nat, ∃ s : State, Takes c s ∧ (o % 4 ≠ 0 ∨ 0x40000 ≤ o)) ∧
    (∃ c : Caller, ∃ m : List Byte, ∃ _v : Nat, ∃ s : State, Takes c s ∧ regOffset m = none) ∧
    (∃ c : Caller, ∃ l : LaneId, ∃ v : Nat, ∃ s : State, Takes c s ∧ v < 2 ^ 32 ∧ s.ownsLane c.path.path l = true) ∧
    (∃ c : Caller, ∃ _o v : Nat, ∃ s : State, Takes c s ∧ 2 ^ 32 ≤ v) ∧
    (∃ c : Caller, ∃ l : LaneId, ∃ v : Nat, ∃ s : State, Takes c s ∧ v < 4 ∧ s.ownsLane c.path.path l = true) ∧
    (∃ c : Caller, ∃ _l : LaneId, ∃ v : Nat, ∃ s : State, Takes c s ∧ 4 ≤ v) ∧
    (∃ p : Path, ∃ l : LaneId, ∃ s : State, s.ownsLane p l = true) :=
  ⟨⟨.call, 1, 3#32, rdy, by decide +kernel⟩,
   ⟨.host, 1, 3#32, rdy, by decide +kernel⟩,
   ⟨.host, 1#32, up, by decide +kernel⟩,
   ⟨.call, 1#32, up, by decide +kernel⟩,
   ⟨.host, 0x1FF#32, up, by decide +kernel⟩,
   ⟨.call, 1#32, up, by decide +kernel⟩,
   ⟨.call, 3, 5#32, up, by decide +kernel⟩,
   ⟨.call, 0, 5#32, mem1, by decide +kernel⟩,
   ⟨.host, 4#18, 1#32, up, by decide +kernel⟩,
   ⟨Caller.line, 517, { up with tallies := [(517, 9#32)] }, by decide +kernel⟩,
   ⟨Caller.line, 1, 3, rdy, by decide +kernel⟩,
   ⟨Caller.line, 2, rdy, by decide +kernel⟩,
   ⟨Caller.line, 0x40000, none, none, up, by decide +kernel⟩,
   ⟨Caller.line, ascii "NO_SUCH", 1, up, by decide +kernel⟩,
   ⟨Caller.line, 1, 6, rdy, by decide +kernel⟩,
   ⟨Caller.line, 0x2404, 2 ^ 32, rdy, by decide +kernel⟩,
   ⟨Caller.line, 1, 2, rdy, by decide +kernel⟩,
   ⟨Caller.line, 1, 4, rdy, by decide +kernel⟩,
   ⟨.call, 1, rdy, by decide +kernel⟩⟩

/-- Every clause of BundlesLoadAndDrop has its premises met. -/
theorem witness_BundlesLoadAndDrop :
    (∃ c : Caller, ∃ _a _n : Nat, ∃ ls : BitVec 4, ∃ _b : Bool, ∃ l : LaneId, ∃ s : State, Takes c s ∧ ls.getLsbD l.val = true ∧ s.laneOwner l ≠ c.path.owner) ∧
    (∃ c : Caller, ∃ a _n : Nat, ∃ ls : BitVec 4, ∃ _b : Bool, ∃ s : State, Takes c s ∧ (∀ l : LaneId, ls.getLsbD l.val = true → s.laneOwner l = c.path.owner) ∧ s.dramGone = true ∧ a < 0x400000000) ∧
    (∃ c : Caller, ∃ a n : Nat, ∃ ls : BitVec 4, ∃ _b : Bool, ∃ s : State, Takes c s ∧ (∀ l : LaneId, ls.getLsbD l.val = true → s.laneOwner l = c.path.owner) ∧ (s.dramGone = false ∨ 0x400000000 ≤ a) ∧ (List.range (unitSpan a n)).all (fun k => s.readable c.path.path (a / 64 + k)) = false) ∧
    (∃ c : Caller, ∃ a n : Nat, ∃ ls : BitVec 4, ∃ _b : Bool, ∃ k : Fin 16, ∃ h : Header, ∃ p : Parsed2, ∃ u s : State, Takes c s ∧ loadFor c.path a n ls s = .ok (k, h, p, u)) ∧
    (∃ c : Caller, ∃ a n : Nat, ∃ ls : BitVec 4, ∃ _b : Bool, ∃ e : Err, ∃ s : State, Takes c s ∧ loadFor c.path a n ls s = .error e) ∧
    (∃ c : Caller, ∃ h : Fin 16, ∃ s : State, Takes c s ∧ h ≠ 0 ∧ (s.bundle h).st = .loaded ∧ (∀ l : LaneId, (s.bundle h).lanes.getLsbD l.val = true → s.laneOwner l = c.path.owner) ∧ s.bundleUsed h = false) ∧
    (∃ c : Caller, ∃ h : Fin 16, ∃ s : State, Takes c s ∧ h ≠ 0 ∧ (s.bundle h).st = .loaded ∧ (∀ l : LaneId, (s.bundle h).lanes.getLsbD l.val = true → s.laneOwner l = c.path.owner) ∧ s.bundleUsed h = true) ∧
    (∃ c : Caller, ∃ s : State, Takes c s) ∧
    (∃ c : Caller, ∃ h : Fin 16, ∃ s : State, Takes c s ∧ h ≠ 0 ∧ (s.bundle h).st = .free) ∧
    (∃ c : Caller, ∃ h : Nat, ∃ s : State, Takes c s ∧ 16 ≤ h) :=
  ⟨⟨Caller.line, 0, 64, 4#4, false, 2, rdy, by decide +kernel⟩,
   ⟨Caller.line, 0, 64, 2#4, false, { rdy with clk := { rdy.clk with degraded := true } }, by decide +kernel⟩,
   ⟨Caller.line, 0x800000000, 64, 2#4, false, rdy, by decide +kernel⟩,
   ⟨Caller.line, 0x10000800000, 384, 2#4, true, loaded.1, loaded.2.1, loaded.2.2.1, loaded.2.2.2, loadUp, by decide +kernel, load_loaded⟩,
   ⟨Caller.line, 0x10000800000, 384, 2#4, true, .range, rdy, by decide +kernel, load_failed⟩,
   ⟨Caller.line, 1, { rdy with bundles := put rdy.bundles 1 { st := .loaded, lanes := 2#4 } }, by decide +kernel⟩,
   ⟨Caller.line, 1, { (heat0 { seq := 0#32 }).setLane 1 fun L => { L with
      journal := [(0, { seq := 0#32, accept := some { acc0 with handle := 1 }, stats := none, retire := none })] } with
      bundles := put rdy.bundles 1 { st := .loaded, lanes := 2#4 } }, by decide +kernel⟩,
   ⟨Caller.line, rdy, by decide +kernel⟩,
   ⟨Caller.line, 2, rdy, by decide +kernel⟩,
   ⟨Caller.line, 16, rdy, by decide +kernel⟩⟩

/-- Every clause of LogAndStat has its premises met. -/
theorem witness_LogAndStat :
    (∃ c : Caller, ∃ n : Nat, ∃ s : State, s.start.banner = true ∧ s.lineBusy c = false ∧ (1 ≤ n ∧ n ≤ 512)) ∧
    (∃ c : Caller, ∃ n : Nat, ∃ s : State, s.start.banner = true ∧ s.lineBusy c = false ∧ (n = 0 ∨ 512 < n)) ∧
    (∃ c : Caller, ∃ l : LaneId, ∃ n : Nat, ∃ s : State, Takes c s ∧ s.ownsLane c.path.path l = true ∧ (1 ≤ n ∧ n ≤ 128)) ∧
    (∃ c : Caller, ∃ l : LaneId, ∃ n : Nat, ∃ s : State, Takes c s ∧ s.ownsLane c.path.path l = false ∧ (1 ≤ n ∧ n ≤ 128)) ∧
    (∃ c : Caller, ∃ s : State, Takes c s) ∧
    (∃ c : Caller, ∃ l : LaneId, ∃ s : State, Takes c s ∧ s.ownsLane c.path.path l = true) ∧
    (∃ c : Caller, ∃ l : LaneId, ∃ s : State, Takes c s ∧ s.ownsLane c.path.path l = false) ∧
    (∃ c : Caller, ∃ s : State, Takes c s ∧ s.confidential = false ∧ s.stat.hidden = false) ∧
    (∃ c : Caller, ∃ s : State, Takes c s ∧ (s.confidential = true ∨ s.stat.hidden = true)) :=
  ⟨⟨Caller.line, 5, rdy.logFault ({ State.faultRec rdy .fault (.shell 3) (some .uncorrectable) with number := 1 }), by decide +kernel⟩,
   ⟨Caller.line, 513, rdy, by decide +kernel⟩,
   ⟨Caller.line, 1, 5, held0, by decide +kernel⟩,
   ⟨Caller.line, 2, 5, rdy, by decide +kernel⟩,
   ⟨Caller.line, rdy, by decide +kernel⟩,
   ⟨Caller.line, 1, held0, by decide +kernel⟩,
   ⟨Caller.line, 3, rdy, by decide +kernel⟩,
   ⟨Caller.line, { rdy with stat := { hidden := false, devShown := { strokes := 5000 } } }, by decide +kernel⟩,
   ⟨Caller.line, rdy, by decide +kernel⟩⟩

/-- Every clause of RingsCarryCalls has its premises met. -/
theorem witness_RingsCarryCalls :
    (∃ n : LaneId, ∃ q : W16, ∃ s : State, s.start.banner = true ∧ s.host.ring[n].resetReq = false ∧ (q - s.host.ring[n].sqHead).toNat ≤ 64 ∧ (s.host.ring[n].sqTail - s.host.ring[n].sqHead).toNat ≤ (q - s.host.ring[n].sqHead).toNat) ∧
    (∃ n : LaneId, ∃ q : W16, ∃ s : State, s.start.banner = true ∧ s.host.ring[n].resetReq = false ∧ (64 < (q - s.host.ring[n].sqHead).toNat ∨ (q - s.host.ring[n].sqHead).toNat < (s.host.ring[n].sqTail - s.host.ring[n].sqHead).toNat)) ∧
    (∃ n : LaneId, ∃ _q : W16, ∃ s : State, s.start.banner = false ∧ s.host.ring[n].resetReq = false) ∧
    (∃ n : LaneId, ∃ _q : W16, ∃ s : State, s.host.ring[n].resetReq = true) ∧
    (∃ n : LaneId, ∃ m : List Byte, ∃ s : State, s.start.banner = true ∧ s.coxWorks s.faults.laneCox[n] = true ∧ s.host.ring[n].busy = none ∧ s.host.ring[n].resetReq = false ∧ s.host.ring[n].sqTail ≠ s.host.ring[n].taken ∧ mailRead s (sqSlot n s.host.ring[n].taken) 320 = m ∧ m.getD 4 0#8 ≠ 1#8) ∧
    (∃ n : LaneId, ∃ m : List Byte, ∃ s : State, s.start.banner = true ∧ s.coxWorks s.faults.laneCox[n] = true ∧ s.host.ring[n].busy = none ∧ s.host.ring[n].resetReq = false ∧ s.host.ring[n].sqTail ≠ s.host.ring[n].taken ∧ mailRead s (sqSlot n s.host.ring[n].taken) 320 = m ∧ m.getD 4 0#8 = 1#8 ∧ (m.getD 8 0#8 ≠ BitVec.ofNat 8 n.val ∨ m.getD 9 0#8 ≠ 1#8 ∨ (m.getD 10 0#8).getLsbD 0 = true ∨ leNat (m.take 4) ≠ 0x4C4C4143 ∨ leNat ((m.drop 6).take 2) = 0 ∨ 256 < leNat ((m.drop 6).take 2))) ∧
    (∃ n : LaneId, ∃ m : List Byte, ∃ s : State, s.start.banner = true ∧ s.coxWorks s.faults.laneCox[n] = true ∧ s.host.ring[n].busy = none ∧ s.host.ring[n].resetReq = false ∧ s.host.ring[n].sqTail ≠ s.host.ring[n].taken ∧ mailRead s (sqSlot n s.host.ring[n].taken) 320 = m ∧ m.getD 4 0#8 = 1#8 ∧ (m.getD 8 0#8 = BitVec.ofNat 8 n.val ∧ m.getD 9 0#8 = 1#8 ∧ (m.getD 10 0#8).getLsbD 0 = false ∧ leNat (m.take 4) = 0x4C4C4143 ∧ 1 ≤ leNat ((m.drop 6).take 2) ∧ leNat ((m.drop 6).take 2) ≤ 256) ∧ leNat ((m.drop 28).take 4) ≠ (crc32 (m.take 28 ++ (m.drop 32).take (leNat ((m.drop 6).take 2)))).toNat) ∧
    (∃ n : LaneId, ∃ m x : List Byte, ∃ c : Caller, ∃ q : Option W32, ∃ h e : Nat, ∃ a : List HeatArg, ∃ s : State, s.start.banner = true ∧ s.coxWorks s.faults.laneCox[n] = true ∧ s.host.ring[n].busy = none ∧ s.host.ring[n].resetReq = false ∧ s.host.ring[n].sqTail ≠ s.host.ring[n].taken ∧ mailRead s (sqSlot n s.host.ring[n].taken) 320 = m ∧ (openEnvelope n m).toOption = some x ∧ (x.all (fun b => decide (0x20 ≤ b.toNat ∧ b.toNat ≤ 0x7E)) = true) ∧ parseLine ⟨.host, none, n, w32 (leNat ((m.drop 12).take 4)), some s.host.ring[n].taken⟩ true false x = .call (.heat c n q h e a)) ∧
    (∃ n : LaneId, ∃ m x : List Byte, ∃ c : Caller, ∃ s : State, s.start.banner = true ∧ s.coxWorks s.faults.laneCox[n] = true ∧ s.host.ring[n].busy = none ∧ s.host.ring[n].resetReq = false ∧ s.host.ring[n].sqTail ≠ s.host.ring[n].taken ∧ mailRead s (sqSlot n s.host.ring[n].taken) 320 = m ∧ (openEnvelope n m).toOption = some x ∧ (x.all (fun b => decide (0x20 ≤ b.toNat ∧ b.toNat ≤ 0x7E)) = true) ∧ c = ⟨.host, none, n, w32 (leNat ((m.drop 12).take 4)), some s.host.ring[n].taken⟩ ∧ parseLine ⟨.host, none, n, w32 (leNat ((m.drop 12).take 4)), some s.host.ring[n].taken⟩ true false x = .call (.hello c)) ∧
    (∃ n l : LaneId, ∃ m x : List Byte, ∃ c : Caller, ∃ q : Option W32, ∃ h e : Nat, ∃ a : List HeatArg, ∃ s : State, s.start.banner = true ∧ s.coxWorks s.faults.laneCox[n] = true ∧ s.host.ring[n].busy = none ∧ s.host.ring[n].resetReq = false ∧ s.host.ring[n].sqTail ≠ s.host.ring[n].taken ∧ mailRead s (sqSlot n s.host.ring[n].taken) 320 = m ∧ (openEnvelope n m).toOption = some x ∧ (x.all (fun b => decide (0x20 ≤ b.toNat ∧ b.toNat ≤ 0x7E)) = true) ∧ parseLine ⟨.host, none, n, w32 (leNat ((m.drop 12).take 4)), some s.host.ring[n].taken⟩ true false x = .call (.heat c l q h e a) ∧ l ≠ n) ∧
    (∃ n : LaneId, ∃ e : RingEntry, ∃ rest : List RingEntry, ∃ s : State, s.host.ring[n].out = e :: rest ∧ e.line.text.length ≤ 256 ∧ s.host.ring[n].cqTail - s.host.ring[n].cqHead < 256#16) ∧
    (∃ n : LaneId, ∃ s : State, s.host.ring[n].out = []) ∧
    (∃ n : LaneId, ∃ e : RingEntry, ∃ rest : List RingEntry, ∃ s : State, s.host.ring[n].out = e :: rest ∧ s.host.ring[n].cqTail - s.host.ring[n].cqHead = 256#16) ∧
    (∃ k : Fin 2, ∃ x : Line, ∃ rest : List Line, ∃ s : State, s.host.ev[k].out = x :: rest ∧ s.host.evctl.getLsbD k.val = true ∧ x.text.length ≤ 256 ∧ (s.host.ev[k].tail - s.host.ev[k].head).toNat < evSize k) ∧
    (∃ k : Fin 2, ∃ s : State, s.host.evctl.getLsbD k.val = false) ∧
    (∃ n : LaneId, ∃ q : W16, ∃ s : State, (q - s.host.ring[n].cqHead).toNat ≤ (s.host.ring[n].cqTail - s.host.ring[n].cqHead).toNat ∧ s.host.ring[n].dones = []) ∧
    (∃ n : LaneId, ∃ q d : W16, ∃ v : W32, ∃ s : State, (q - s.host.ring[n].cqHead).toNat ≤ (s.host.ring[n].cqTail - s.host.ring[n].cqHead).toNat ∧ s.host.ring[n].dones = [(d, v)] ∧ (d - s.host.ring[n].cqHead).toNat ≤ (q - s.host.ring[n].cqHead).toNat ∧ (s.lane n).owner = .host ∧ (s.lane n).unreleased v = true) ∧
    (∃ n : LaneId, ∃ q : W16, ∃ s : State, (q - s.host.ring[n].cqHead).toNat ≤ (s.host.ring[n].cqTail - s.host.ring[n].cqHead).toNat ∧ (s.lane n).owner ≠ .host) ∧
    (∃ n : LaneId, ∃ q : W16, ∃ s : State, (s.host.ring[n].cqTail - s.host.ring[n].cqHead).toNat < (q - s.host.ring[n].cqHead).toNat) ∧
    (∃ k : Fin 2, ∃ q : W16, ∃ s : State, (q - s.host.ev[k].head).toNat ≤ (s.host.ev[k].tail - s.host.ev[k].head).toNat) ∧
    (∃ k : Fin 2, ∃ q : W16, ∃ s : State, (s.host.ev[k].tail - s.host.ev[k].head).toNat < (q - s.host.ev[k].head).toNat) ∧
    (∃ n : LaneId, ∃ s : State, s.host.ring[n].resetReq = true ∧ s.host.ring[n].busy = none) ∧
    (∃ n : LaneId, ∃ s : State, s.host.ring[n].resetReq = false) :=
  ⟨⟨1, 3#16, { rdy with host := { rdy.host with leaseActive := true, ring := put rdy.host.ring 1 { sqTail := 2#16 } } }, by decide +kernel⟩,
   ⟨1, 1#16, { rdy with host := { rdy.host with ring := put rdy.host.ring 1 { sqTail := 2#16 } } }, by decide +kernel⟩,
   ⟨1, 3#16, State.reset, by decide +kernel⟩,
   ⟨1, 3#16, { rdy with host := { rdy.host with ring := put rdy.host.ring 1 { resetReq := true } } }, by decide +kernel⟩,
   ⟨1, mailRead rdy 0 320, { rdy with host := { rdy.host with ring := put rdy.host.ring 1 { sqTail := 1#16 } } }, by decide +kernel⟩,
   ⟨1, mailRead (mailWrite ({ rdy with host := { rdy.host with ring := put rdy.host.ring 1 { sqTail := 1#16 } }, lanes := put rdy.lanes 1 { st := .opened, owner := .host } }) 0x1C000 (envelope 2 .call false 5#32 (ascii "HELLO"))) 0x1C000 320, (mailWrite ({ rdy with host := { rdy.host with ring := put rdy.host.ring 1 { sqTail := 1#16 } }, lanes := put rdy.lanes 1 { st := .opened, owner := .host } }) 0x1C000 (envelope 2 .call false 5#32 (ascii "HELLO"))), by decide +kernel⟩,
   ⟨1, mailRead (mailWrite (mailWrite ({ rdy with host := { rdy.host with ring := put rdy.host.ring 1 { sqTail := 1#16 } }, lanes := put rdy.lanes 1 { st := .opened, owner := .host } }) 0x1C000 (envelope 1 .call false 5#32 (ascii "HELLO"))) 0x1C01C [0#8]) 0x1C000 320, mailWrite (mailWrite ({ rdy with host := { rdy.host with ring := put rdy.host.ring 1 { sqTail := 1#16 } }, lanes := put rdy.lanes 1 { st := .opened, owner := .host } }) 0x1C000 (envelope 1 .call false 5#32 (ascii "HELLO"))) 0x1C01C [0#8], by decide +kernel⟩,
   ⟨1, mailRead (mailWrite ({ rdy with host := { rdy.host with ring := put rdy.host.ring 1 { sqTail := 1#16 } }, lanes := put rdy.lanes 1 { st := .opened, owner := .host } }) 0x1C000 (envelope 1 .call false 5#32 (ascii "HEAT L1 NEXT h=0 e=3"))) 0x1C000 320, ascii "HEAT L1 NEXT h=0 e=3", ⟨.host, none, 1, 5#32, some 0#16⟩, none, 0, 3, [], (mailWrite ({ rdy with host := { rdy.host with ring := put rdy.host.ring 1 { sqTail := 1#16 } }, lanes := put rdy.lanes 1 { st := .opened, owner := .host } }) 0x1C000 (envelope 1 .call false 5#32 (ascii "HEAT L1 NEXT h=0 e=3"))), by decide +kernel⟩,
   ⟨1, mailRead (mailWrite ({ rdy with host := { rdy.host with ring := put rdy.host.ring 1 { sqTail := 1#16 } }, lanes := put rdy.lanes 1 { st := .opened, owner := .host } }) 0x1C000 (envelope 1 .call false 5#32 (ascii "HELLO"))) 0x1C000 320, ascii "HELLO", ⟨.host, none, 1, 5#32, some 0#16⟩, (mailWrite ({ rdy with host := { rdy.host with ring := put rdy.host.ring 1 { sqTail := 1#16 } }, lanes := put rdy.lanes 1 { st := .opened, owner := .host } }) 0x1C000 (envelope 1 .call false 5#32 (ascii "HELLO"))), by decide +kernel⟩,
   ⟨1, 2, mailRead (mailWrite ({ rdy with host := { rdy.host with ring := put rdy.host.ring 1 { sqTail := 1#16 } }, lanes := put rdy.lanes 1 { st := .opened, owner := .host } }) 0x1C000 (envelope 1 .call false 5#32 (ascii "HEAT L2 NEXT h=0 e=3"))) 0x1C000 320, ascii "HEAT L2 NEXT h=0 e=3", ⟨.host, none, 1, 5#32, some 0#16⟩, none, 0, 3, [], (mailWrite ({ rdy with host := { rdy.host with ring := put rdy.host.ring 1 { sqTail := 1#16 } }, lanes := put rdy.lanes 1 { st := .opened, owner := .host } }) 0x1C000 (envelope 1 .call false 5#32 (ascii "HEAT L2 NEXT h=0 e=3"))), by decide +kernel⟩,
   ⟨1, { kind := .reply, seq := 5#32, line := Line.evt "X" [], last := some 0#16 }, [], { rdy with host := { rdy.host with ring := put rdy.host.ring 1 { out := [{ kind := .reply, seq := 5#32, line := Line.evt "X" [], last := some 0#16 }], busy := some 0#16, taken := 1#16 } } }, by decide +kernel⟩,
   ⟨1, rdy, by decide +kernel⟩,
   ⟨1, { kind := .reply, seq := 5#32, line := Line.evt "X" [], last := some 0#16 }, [], { rdy with host := { rdy.host with ring := put rdy.host.ring 1 { cqTail := 256#16, out := [{ kind := .reply, seq := 5#32, line := Line.evt "X" [], last := some 0#16 }] } } }, by decide +kernel⟩,
   ⟨1, Line.evt "X" [], [], { rdy with host := { rdy.host with evctl := 2#2, ev := put rdy.host.ev 1 { out := [Line.evt "X" []] } } }, by decide +kernel⟩,
   ⟨1, rdy, by decide +kernel⟩,
   ⟨1, 1#16, { rdy with host := { rdy.host with ring := put rdy.host.ring 1 { cqTail := 2#16 } } }, by decide +kernel⟩,
   ⟨1, 1#16, 1#16, 0#32, (held0.setLane 1 fun L => { L with owner := .host }).setRing 1 fun r => { r with cqTail := 1#16, dones := [(1#16, 0#32)] }, by decide +kernel⟩,
   ⟨1, 1#16, held0.setRing 1 fun r => { r with cqTail := 1#16, dones := [(1#16, 0#32)] }, by decide +kernel⟩,
   ⟨1, 3#16, { rdy with host := { rdy.host with ring := put rdy.host.ring 1 { cqTail := 2#16 } } }, by decide +kernel⟩,
   ⟨1, 1#16, { rdy with host := { rdy.host with ev := put rdy.host.ev 1 { tail := 2#16 } } }, by decide +kernel⟩,
   ⟨1, 1#16, rdy, by decide +kernel⟩,
   ⟨1, { rdy with host := { rdy.host with ring := put rdy.host.ring 1 { resetReq := true, cqTail := 2#16 } } }, by decide +kernel⟩,
   ⟨1, rdy, by decide +kernel⟩⟩

/-- Every clause of LeasesLapse has its premises met. -/
theorem witness_LeasesLapse :
    (∃ n : LaneId, ∃ _v : W16, ∃ s : State, (s.lane n).owner = .host ∧ (s.lane n).st = .opened) ∧
    (∃ n : LaneId, ∃ _v : W16, ∃ s : State, ((s.lane n).owner ≠ .host ∨ (s.lane n).st ≠ .opened)) ∧
    (∃ s : State, s.host.leaseActive = true ∧ s.rail.floor = false) ∧
    (∃ s : State, s.host.leaseActive = false) ∧
    (∃ s : State, s.host.qspi = false ∧ s.host.leaseActive = true) ∧
    (∃ s : State, s.host.qspi = true) :=
  ⟨⟨1, 7#16, { rdy with lanes := put rdy.lanes 1 { st := .opened, owner := .host }, host := { rdy.host with leaseActive := true, evctl := 3#2, leaseLeft := 2 } }, by decide +kernel⟩,
   ⟨1, 7#16, rdy, by decide +kernel⟩,
   ⟨{ rdy with lanes := put rdy.lanes 1 { st := .opened, owner := .host }, host := { rdy.host with leaseActive := true, evctl := 3#2, leaseLeft := 2 } }, by decide +kernel⟩,
   ⟨rdy, by decide +kernel⟩,
   ⟨{ rdy with lanes := put rdy.lanes 1 { st := .opened, owner := .host }, host := { rdy.host with leaseActive := true, evctl := 3#2, leaseLeft := 2 } }, by decide +kernel⟩,
   ⟨{ rdy with host := { rdy.host with qspi := true } }, by decide +kernel⟩⟩

/-- Every clause of HostPortsServe has its premises met. -/
theorem witness_HostPortsServe :
    (∃ _k : Fin 1024, ∃ s : State, s.host.qspi = true ∧ s.domFenced Dom.host = false ∧ s.start.banner = true ∧ s.host.held = none) ∧
    (∃ _k : Fin 1024, ∃ s : State, s.host.qspi = true ∧ s.domFenced Dom.host = false ∧ s.start.banner = true ∧ s.host.held = none ∧ s.host.notReady ≠ 0xFFFF#16) ∧
    (∃ a : BitVec 36, ∃ w : Fin 256, ∃ h : HeldRead, ∃ s : State, s.host.qspi = true ∧ s.domFenced Dom.host = false ∧ s.start.banner = true ∧ a.toNat % 4 = 0 ∧ s.host.held = some h ∧ (h.space = 0 ∧ h.addr = a.toNat ∧ h.words = w.val + 1)) ∧
    (∃ a : BitVec 36, ∃ _w : Fin 256, ∃ _d : List W32, ∃ _l : Bool, ∃ h : HeldRead, ∃ s : State, s.host.qspi = true ∧ s.domFenced Dom.host = false ∧ s.start.banner = true ∧ a.toNat % 4 = 0 ∧ s.host.held = some h ∧ s.host.notReady ≠ 0xFFFF#16) ∧
    (∃ cmd : Byte, ∃ p : BitVec 4, ∃ a : BitVec 36, ∃ _w : Fin 256, ∃ _d : List W32, ∃ _l : Bool, ∃ s : State, s.host.qspi = true ∧ s.domFenced Dom.host = false ∧ (3 ≤ p.toNat ∨ (cmd ≠ 0x0B#8 ∧ cmd ≠ 0x02#8) ∨ a.toNat % 4 ≠ 0)) ∧
    (∃ _k : Fin 1024, ∃ _l : Bool, ∃ s : State, s.host.qspi = true ∧ s.domFenced Dom.host = false ∧ s.start.banner = false ∧ s.host.notReady ≠ 0xFFFF#16) ∧
    (∃ _v : W32, ∃ s : State, s.host.qspi = true ∧ s.domFenced Dom.host = false ∧ s.start.banner = true ∧ s.host.held = none) ∧
    (∃ h : HeldRead, ∃ s : State, s.host.held = some h) ∧
    (∃ _k : Fin 1024, ∃ _be : Byte, ∃ s : State, s.host.qspi = false ∧ s.domFenced Dom.host = false ∧ 0 < s.host.width.val ∧ s.start.banner = true) ∧
    (∃ _v : W32, ∃ s : State, s.host.qspi = false ∧ s.domFenced Dom.host = false ∧ 0 < s.host.width.val ∧ s.start.banner = true) ∧
    (∃ _a : BitVec 34, ∃ be : Byte, ∃ _v : W32, ∃ s : State, s.host.qspi = false ∧ s.domFenced Dom.host = false ∧ 0 < s.host.width.val ∧ s.start.banner = true ∧ be.toNat % 16 ≠ 15) ∧
    (∃ _a : Fin 0x20000, ∃ _v : W32, ∃ s : State, s.host.qspi = false ∧ s.domFenced Dom.host = false ∧ 0 < s.host.width.val ∧ s.start.banner = true ∧ s.bankUp 63 = true) ∧
    (∃ _k : Fin 1024, ∃ _be : Byte, ∃ s : State, s.host.qspi = false ∧ s.domFenced Dom.host = false ∧ 0 < s.host.width.val ∧ s.start.banner = false) ∧
    (∃ s : State, s.host.qspi = false ∧ s.domFenced Dom.host = false ∧ 0 < s.host.width.val ∧ s.host.configReady = false) ∧
    (∃ s : State, s.host.qspi = false ∧ s.domFenced Dom.host = false ∧ 0 < s.host.width.val ∧ s.host.configReady = true) ∧
    (∃ s : State, s.host.qspi = false) ∧
    (∃ g : Fin 5, ∃ w : Fin 3, ∃ s : State, s.host.qspi = false ∧ (g ≠ 0 ∧ w ≠ 0) ∧ s.clk.absent.getLsbD Clk.host.val = false) :=
  ⟨⟨7, { rdy with host := { rdy.host with qspi := true } }, by decide +kernel⟩,
   ⟨7, { rdy with host := { rdy.host with qspi := true } }, by decide +kernel⟩,
   ⟨4#36, 0, ⟨0, 4, 1, [9#32]⟩, { rdy with host := { rdy.host with qspi := true, held := some ⟨0, 4, 1, [9#32]⟩ } }, by decide +kernel⟩,
   ⟨4#36, 0, [1#32], false, ⟨0, 4, 1, [9#32]⟩, { rdy with host := { rdy.host with qspi := true, held := some ⟨0, 4, 1, [9#32]⟩ } }, by decide +kernel⟩,
   ⟨3#8, 0#4, 0#36, 0, [], false, { rdy with host := { rdy.host with qspi := true } }, by decide +kernel⟩,
   ⟨7, false, { State.reset with host := { rdy.host with qspi := true } }, by decide +kernel⟩,
   ⟨0x1FF#32, { rdy with host := { rdy.host with qspi := true } }, by decide +kernel⟩,
   ⟨⟨0, 4, 1, [9#32]⟩, { rdy with host := { rdy.host with qspi := true, held := some ⟨0, 4, 1, [9#32]⟩ } }, by decide +kernel⟩,
   ⟨7, 0xF#8, { rdy with host := { rdy.host with speed := 4, width := 2 } }, by decide +kernel⟩,
   ⟨0x1FF#32, { rdy with host := { rdy.host with speed := 4, width := 2 } }, by decide +kernel⟩,
   ⟨0xE010#34, 3#8, 1#32, { rdy with host := { rdy.host with speed := 4, width := 2 } }, by decide +kernel⟩,
   ⟨1, 0x01020304#32, { rdy with host := { rdy.host with speed := 4, width := 2 } }, by decide +kernel⟩,
   ⟨7, 0xF#8, { State.reset with host := { rdy.host with speed := 4, width := 2 } }, by decide +kernel⟩,
   ⟨{ rdy with host := { rdy.host with speed := 4, width := 2, configReady := false } }, by decide +kernel⟩,
   ⟨{ rdy with host := { rdy.host with speed := 4, width := 2, configReady := true } }, by decide +kernel⟩,
   ⟨{ rdy with host := { rdy.host with speed := 4, width := 2 } }, by decide +kernel⟩,
   ⟨4, 1, rdy, by decide +kernel⟩⟩

/-- Every clause of UnitsAreFencedAndRepaired has its premises met. -/
theorem witness_UnitsAreFencedAndRepaired :
    (∃ c : Caller, ∃ i j : ShellId, ∃ k : Fin 16, ∃ s : State, Takes c s ∧ s.faults.shells[i] = .active ∧ 13 ≤ s.serviceCount ∧ (s.shell i).running = none ∧ s.str.halted.getLsbD i.val = false ∧ (List.finRange 16).find? (fun m => s.map[m] == some i) = some k ∧ (s.shellsIn .spare).head? = some j ∧ s.start.banner = true) ∧
    (∃ c : Caller, ∃ u : UnitRef, ∃ x : UnitSt, ∃ s : State, Takes c s ∧ s.unitSt u = some x ∧ x.out = true) ∧
    (∃ c : Caller, ∃ i : ShellId, ∃ s : State, Takes c s ∧ (s.faults.shells[i] = .active ∨ s.faults.shells[i] = .spare) ∧ s.serviceCount < 13) ∧
    (∃ c : Caller, ∃ u : UnitRef, ∃ s : State, Takes c s ∧ s.unitSt u = none) ∧
    (∃ c : Caller, ∃ p : Fin 3, ∃ s : State, Takes c s ∧ s.faults.aes[p] = .active ∧ 2 ≤ (s.faults.aes.toList.filter fun x => x == .active).length) ∧
    (∃ c : Caller, ∃ d : Fin 4, ∃ s : State, Takes c s ∧ s.faults.decoders[d] = .active ∧ 2 ≤ (s.faults.decoders.toList.filter fun x => x == .active).length ∧ s.mem.decoder[d].busy = none) ∧
    (∃ c : Caller, ∃ i j : Fin 3, ∃ s : State, Takes c s ∧ c.path = .call ∧ s.faults.coxRole[i] = .active ∧ s.faults.crashed[i] = false ∧ s.taker i = some j) ∧
    (∃ c : Caller, ∃ s : State, Takes c s) ∧
    (∃ c : Caller, ∃ u : UnitRef, ∃ x : UnitSt, ∃ s : State, Takes c s ∧ s.keys.repair = 0 ∧ s.keys.keyop = 0 ∧ s.unitSt u = some x ∧ x.out = true ∧ s.faults.tests = [] ∧ s.confidential = false) ∧
    (∃ c : Caller, ∃ u : UnitRef, ∃ x : UnitSt, ∃ s : State, Takes c s ∧ s.keys.repair = 0 ∧ s.keys.keyop = 0 ∧ s.unitSt u = some x ∧ x.out = false) ∧
    (∃ c : Caller, ∃ u : UnitRef, ∃ x : UnitSt, ∃ s : State, Takes c s ∧ s.unitSt u = some x ∧ (s.keys.repair ≠ 0 ∨ s.keys.keyop ≠ 0)) ∧
    (∃ c : Caller, ∃ u : UnitRef, ∃ x : UnitSt, ∃ s : State, Takes c s ∧ s.keys.repair = 0 ∧ s.keys.keyop = 0 ∧ s.unitSt u = some x ∧ x.out = true ∧ s.faults.tests ≠ []) ∧
    (∃ c : Caller, ∃ p : Fin 3, ∃ s : State, Takes c s ∧ s.keys.repair = 0 ∧ s.keys.keyop = 0 ∧ s.faults.aes[p] = .passed) ∧
    (∃ c : Caller, ∃ i : ShellId, ∃ s : State, Takes c s ∧ s.keys.repair = 0 ∧ s.keys.keyop = 0 ∧ s.faults.shells[i] = .passed ∧ 16 ≤ s.serviceCount) ∧
    (∃ c : Caller, ∃ u : UnitRef, ∃ x : UnitSt, ∃ s : State, Takes c s ∧ s.keys.repair = 0 ∧ s.keys.keyop = 0 ∧ s.unitSt u = some x ∧ x ≠ .passed) ∧
    (∃ c : Caller, ∃ u : UnitRef, ∃ x : UnitSt, ∃ j : Fin 64, ∃ s : State, Takes c s ∧ s.keys.repair = 0 ∧ s.keys.keyop = 0 ∧ c.path = .call ∧ s.unitSt u = some x ∧ (x = .fenced ∨ x = .passed) ∧ freeEntry s = some j ∧ s.fuse.burning = none) ∧
    (∃ c : Caller, ∃ u : UnitRef, ∃ x : UnitSt, ∃ s : State, Takes c s ∧ s.keys.repair = 0 ∧ s.keys.keyop = 0 ∧ s.unitSt u = some x ∧ (x ≠ .fenced ∧ x ≠ .passed)) ∧
    (∃ u : UnitRef, ∃ k : W64, ∃ s : State, s.faults.testsDue.find? (fun x => x.1 == u) = some (u, k) ∧ s.unitSt u = some .fenced ∧ s.faults.tests = []) ∧
    (∃ u : UnitRef, ∃ a _ok : Bool, ∃ x : UnitSt, ∃ s : State, s.faults.tests = [{ unit := u, asked := a }] ∧ s.unitSt u = some x ∧ (x = .fenced ∨ x = .passed) ∧ s.start.banner = true ∧ s.call.events = true) ∧
    (∃ r : RepairRec, ∃ rest : List RepairRec, ∃ s : State, s.start.phase ≠ .copying ∧ s.faults.repairQueue = r :: rest) ∧
    (∃ s : State, s.faults.repairQueue = []) :=
  ⟨⟨Caller.line, 3, 16, 3, rdy, by decide +kernel⟩,
   ⟨Caller.line, .shell 3, .fenced, { rdy with faults := { rdy.faults with shells := put rdy.faults.shells 3 .fenced } }, by decide +kernel⟩,
   ⟨Caller.line, 0, { rdy with faults := { rdy.faults with shells := Vector.ofFn fun i => if i.val < 12 then .active else .fenced } }, by decide +kernel⟩,
   ⟨Caller.line, .page 7, rdy, by decide +kernel⟩,
   ⟨Caller.line, 1, rdy, by decide +kernel⟩,
   ⟨Caller.line, 3, rdy, by decide +kernel⟩,
   ⟨Caller.line, 0, 2, rdy, by decide +kernel⟩,
   ⟨Caller.line, rdy, by decide +kernel⟩,
   ⟨Caller.line, .shell 3, .fenced, { rdy with faults := { rdy.faults with shells := put rdy.faults.shells 3 .fenced } }, by decide +kernel⟩,
   ⟨Caller.line, .shell 3, .active, rdy, by decide +kernel⟩,
   ⟨Caller.line, .shell 3, .fenced, { { rdy with faults := { rdy.faults with shells := put rdy.faults.shells 3 .fenced } } with keys := { rdy.keys with repair := 1 } }, by decide +kernel⟩,
   ⟨Caller.line, .shell 3, .fenced, { rdy with faults := { rdy.faults with shells := put rdy.faults.shells 3 .fenced, tests := [{ unit := .shell 3, asked := false }] } }, by decide +kernel⟩,
   ⟨Caller.line, 1, { rdy with faults := { rdy.faults with aes := put rdy.faults.aes 1 .passed } }, by decide +kernel⟩,
   ⟨Caller.line, 17, { rdy with faults := { rdy.faults with shells := put rdy.faults.shells 17 .passed } }, by decide +kernel⟩,
   ⟨Caller.line, .shell 3, .fenced, { rdy with faults := { rdy.faults with shells := put rdy.faults.shells 3 .fenced } }, by decide +kernel⟩,
   ⟨Caller.line, .shell 3, .fenced, 0, { rdy with faults := { rdy.faults with shells := put rdy.faults.shells 3 .fenced } }, by decide +kernel⟩,
   ⟨Caller.line, .shell 3, .active, rdy, by decide +kernel⟩,
   ⟨.shell 3, 0#64, { rdy with faults := { rdy.faults with shells := put rdy.faults.shells 3 .fenced, testsDue := [(.shell 3, 0#64)] } }, by decide +kernel⟩,
   ⟨.shell 3, true, true, .fenced, { rdy with faults := { rdy.faults with shells := put rdy.faults.shells 3 .fenced, tests := [{ unit := .shell 3, asked := true }] } }, by decide +kernel⟩,
   ⟨⟨3#16, .fenced, none, 1, 0#64⟩, [], { rdy with faults := { rdy.faults with repairQueue := [⟨3#16, .fenced, none, 1, 0#64⟩] } }, by decide +kernel⟩,
   ⟨rdy, by decide +kernel⟩⟩

/-- Every clause of ProcessorsAreTakenOver has its premises met. -/
theorem witness_ProcessorsAreTakenOver :
    (∃ i : Fin 3, ∃ s : State, s.rail.floor = false ∧ s.faults.coxRole[i] = .active ∧ s.faults.crashed[i] = false) ∧
    (∃ i : Fin 3, ∃ s : State, s.rail.floor = false ∧ s.faults.coxRole[i] = .standby) ∧
    (∃ _i : Fin 3, ∃ s : State, s.rail.floor = true) ∧
    (∃ i j : Fin 3, ∃ s : State, s.faults.crashed[i] = true ∧ s.taker i = some j ∧ s.domFenced (Dom.cox i) = false ∧ s.start.banner = true ∧ s.call.events = true ∧ s.faults.takeovers < 255) ∧
    (∃ i j : Fin 3, ∃ w : WaitRec, ∃ s : State, s.faults.crashed[i] = true ∧ s.taker i = some j ∧ s.faults.callCox = i ∧ s.call.wait = some w ∧ w.caller.path = .call) ∧
    (∃ i j : Fin 3, ∃ x : Line, ∃ s : State, s.faults.crashed[i] = true ∧ s.taker i = some j ∧ (i, Caller.line, x) ∈ s.faults.owed) ∧
    (∃ i : Fin 3, ∃ s : State, s.faults.crashed[i] = false) ∧
    (∃ i : Fin 3, ∃ s : State, s.faults.coxRole[i] = .restarting) ∧
    (∃ i : Fin 3, ∃ s : State, s.faults.coxRole[i] = .restarting ∧ s.faults.restartFails[i] < 2) ∧
    (∃ i : Fin 3, ∃ s : State, s.faults.coxRole[i] = .restarting ∧ 2 ≤ s.faults.restartFails[i]) ∧
    (∃ _n : Nat, ∃ s : State, s.faults.coxRole[s.faults.callCox] = .active ∧ s.faults.crashed[s.faults.callCox] = false) ∧
    (∃ l : LaneId, ∃ q : W32, ∃ r : HeatRun, ∃ a : AcceptRec, ∃ s : State, (s.lane l).run q = some r ∧ (s.lane l).acceptOf q = some a ∧ r.started = false ∧ (s.lane l).next = q + 1#32 ∧ a.source = .call ∧ TxItem.line (okLine Caller.line "HEAT" [laneF l, ("", .dec q.toNat), bareF "ACCEPTED"]) ∈ s.call.tx ∧ s.faults.coxRole[s.faults.laneCox[l]] = .active ∧ s.faults.crashed[s.faults.laneCox[l]] = false) ∧
    (∃ i : ShellId, ∃ s : State, s.power.waking.getLsbD i.val = true ∧ s.inService i = true ∧ (s.shell i).running = none) ∧
    (∃ s : State, s.power.waking.getLsbD Dom.ear.val = true ∧ (∀ l : LaneId, (s.lane l).runs = [])) ∧
    (∃ d : Dom, ∃ s : State, s.power.waking.getLsbD d.val = false) :=
  ⟨⟨0, rdy, by decide +kernel⟩,
   ⟨2, rdy, by decide +kernel⟩,
   ⟨0, { rdy with rail := { rdy.rail with floor := true } }, by decide +kernel⟩,
   ⟨0, 2, { rdy with faults := { rdy.faults with crashed := put rdy.faults.crashed 0 true } }, by decide +kernel⟩,
   ⟨0, 2, ⟨1, 0#32, Caller.line⟩, { { rdy with faults := { rdy.faults with crashed := put rdy.faults.crashed 0 true } } with call := { rdy.call with wait := some ⟨1, 0#32, Caller.line⟩, running := some "WAIT" } }, by decide +kernel⟩,
   ⟨0, 2, ⟨.fail, "HEAT", none, [bareF "E.BUSY"]⟩, { rdy with faults := { rdy.faults with crashed := put rdy.faults.crashed 0 true, owed := [(0, Caller.line, ⟨.fail, "HEAT", none, [bareF "E.BUSY"]⟩)] } }, by decide +kernel⟩,
   ⟨0, rdy, by decide +kernel⟩,
   ⟨0, { rdy with faults := { rdy.faults with coxRole := put rdy.faults.coxRole 0 .restarting } }, by decide +kernel⟩,
   ⟨0, { rdy with faults := { rdy.faults with coxRole := put rdy.faults.coxRole 0 .restarting } }, by decide +kernel⟩,
   ⟨0, { rdy with faults := { rdy.faults with coxRole := put rdy.faults.coxRole 0 .restarting, restartFails := put rdy.faults.restartFails 0 2 } }, by decide +kernel⟩,
   ⟨1, rdy.logFault (State.faultRec rdy .fault (.shell 3) none), by decide +kernel⟩,
   ⟨1, 0#32, { seq := 0#32 }, acc0, { (heat0 { seq := 0#32 }) with call := { rdy.call with tx := [.line (okLine Caller.line "HEAT" [laneF 1, ("", .dec 0), bareF "ACCEPTED"])] } }, by decide +kernel⟩,
   ⟨3, { rdy with power := { waking := 8#32 } }, by decide +kernel⟩,
   ⟨{ rdy with power := { waking := domBit Dom.ear } }, by decide +kernel⟩,
   ⟨28, rdy, by decide +kernel⟩⟩

/-- Every clause of CopiesAndTrialsEnd has its premises met. -/
theorem witness_CopiesAndTrialsEnd :
    (∃ b : Fin 64, ∃ x : LiveCopy, ∃ s : State, s.faults.copies = [x] ∧ x.bank = b ∧ x.copied < x.total) ∧
    (∃ _b : Fin 64, ∃ s : State, s.faults.copies = []) ∧
    (∃ x : LiveCopy, ∃ r : Fin 2048, ∃ s : State, s.faults.copies = [x] ∧ x.row = some r ∧ x.copied = 1) ∧
    (∃ x : LiveCopy, ∃ s : State, s.faults.copies = [x] ∧ x.row = none ∧ x.copied = 2048 ∧ x.fromUnit ≠ x.toUnit) ∧
    (∃ x : FrameTrial, ∃ b : List Byte, ∃ s u : State, s.faults.trial = some x ∧ unitsAt x.frame 64 { s with faults := { s.faults with trial := none } } = (b, u) ∧ rigCrcOk b = true ∧ (parseRig b).writesTable = false ∧ u.inService x.suspect = true ∧ (u.shell x.suspect).running = none ∧ x.spare ≠ x.suspect) ∧
    (∃ x : FrameTrial, ∃ s : State, s.faults.trial = some x) ∧
    (∃ _ok : Bool, ∃ s : State, s.faults.trial = none) :=
  ⟨⟨5, { bank := 5, row := none, fromUnit := 5, toUnit := 64, copied := 7 }, { rdy with faults := { rdy.faults with copies := [{ bank := 5, row := none, fromUnit := 5, toUnit := 64, copied := 7 }] } }, by decide +kernel⟩,
   ⟨5, rdy, by decide +kernel⟩,
   ⟨{ bank := 5, row := some 9, fromUnit := 5, toUnit := 5, copied := 1 }, 9, { rdy with faults := { rdy.faults with copies := [{ bank := 5, row := some 9, fromUnit := 5, toUnit := 5, copied := 1 }] } }, by decide +kernel⟩,
   ⟨{ bank := 5, row := none, fromUnit := 5, toUnit := 64, copied := 2048 }, { rdy with faults := { rdy.faults with copies := [{ bank := 5, row := none, fromUnit := 5, toUnit := 64, copied := 2048 }] } }, by decide +kernel⟩,
   ⟨⟨3, 16, 0, 0x400020000⟩, trialRead.1, trialRig, trialRead.2, by decide +kernel, rfl, by decide +kernel, by decide +kernel, by decide +kernel, by decide +kernel, by decide +kernel⟩,
   ⟨⟨3, 16, 0, 77⟩, { rdy with faults := { rdy.faults with trial := some ⟨3, 16, 0, 77⟩ } }, by decide +kernel⟩,
   ⟨true, rdy, by decide +kernel⟩⟩

/-- Every clause of FirmwareUpdates has its premises met. -/
theorem witness_FirmwareUpdates :
    (∃ c : Caller, ∃ s : State, s.start.banner = true ∧ s.lineBusy c = false) ∧
    (∃ c : Caller, ∃ n : Nat, ∃ s : State, s.start.banner = true ∧ s.lineBusy c = false ∧ 262144 < n) ∧
    (∃ c : Caller, ∃ n : Nat, ∃ s : State, s.start.banner = true ∧ s.lineBusy c = false ∧ n ≤ 262144 ∧ s.firm.erasing = none ∧ c.path = .call) ∧
    (∃ c : Caller, ∃ n : Nat, ∃ s : State, s.firm.erasing = some c ∧ s.firm.size = some n) ∧
    (∃ s : State, s.firm.erasing = none) ∧
    (∃ c : Caller, ∃ n o : Nat, ∃ b : List Byte, ∃ s : State, s.start.banner = true ∧ s.lineBusy c = false ∧ s.firm.erasing = none ∧ s.firm.size = some n ∧ o % 16 = 0 ∧ (b.length % 16 = 0 ∨ o + b.length = n) ∧ o + b.length ≤ n ∧ s.flash.wf = true) ∧
    (∃ c : Caller, ∃ n o : Nat, ∃ b : List Byte, ∃ s : State, s.start.banner = true ∧ s.lineBusy c = false ∧ s.firm.erasing = none ∧ s.firm.size = some n ∧ (o % 16 ≠ 0 ∨ n < o + b.length ∨ (b.length % 16 ≠ 0 ∧ o + b.length ≠ n))) ∧
    (∃ c : Caller, ∃ _o : Nat, ∃ _b : List Byte, ∃ s : State, s.start.banner = true ∧ s.lineBusy c = false ∧ s.firm.erasing = none ∧ s.firm.size = none) ∧
    (∃ c d : Caller, ∃ _o : Nat, ∃ _b : List Byte, ∃ s : State, s.start.banner = true ∧ s.lineBusy c = false ∧ s.firm.erasing = some d) ∧
    (∃ c : Caller, ∃ n m : Nat, ∃ x : Fin 0x80000, ∃ s : State, s.start.banner = true ∧ s.lineBusy c = false ∧ s.firm.erasing = none ∧ s.firm.size = some n ∧ s.firm.highest % 16 = 0 ∧ m % 16 = 0 ∧ s.firm.highest + m ≤ n ∧ x.val + m ≤ 0x80000) ∧
    (∃ c : Caller, ∃ n a m : Nat, ∃ s : State, s.start.banner = true ∧ s.lineBusy c = false ∧ s.firm.erasing = none ∧ s.firm.size = some n ∧ s.keys.recovery = true ∧ s.firm.highest % 16 = 0 ∧ m % 16 = 0 ∧ s.firm.highest + m ≤ n ∧ a < bhBase + 63 * 0x80000) ∧
    (∃ c : Caller, ∃ n u : Nat, ∃ s : State, s.start.banner = true ∧ s.lineBusy c = false ∧ s.firm.erasing = none ∧ s.firm.size = some n ∧ u < (n + 15) / 16 ∧ u ∉ s.firm.written ∧ (∀ k, k < u → k ∈ s.firm.written)) ∧
    (∃ c : Caller, ∃ n : Nat, ∃ s : State, s.start.banner = true ∧ s.lineBusy c = false ∧ s.firm.erasing = none ∧ s.firm.size = some n ∧ (∀ k, k < (n + 15) / 16 → k ∈ s.firm.written) ∧ s.flash.nat 0 4 ≠ 0x4D524946) ∧
    (∃ c : Caller, ∃ n : Nat, ∃ s : State, s.start.banner = true ∧ s.lineBusy c = false ∧ s.firm.erasing = none ∧ s.firm.size = some n ∧ (∀ k, k < (n + 15) / 16 → k ∈ s.firm.written) ∧ s.flash.nat 0 4 = 0x4D524946 ∧ 1 ≤ s.flash.nat 8 4 ∧ 4096 + s.flash.nat 8 4 ≤ n ∧ firmDigest s = true ∧ firmSigned s = true ∧ s.keys.recovery = false) ∧
    (∃ c : Caller, ∃ n : Nat, ∃ s : State, s.start.banner = true ∧ s.lineBusy c = false ∧ s.firm.erasing = none ∧ s.firm.size = some n ∧ (∀ k, k < (n + 15) / 16 → k ∈ s.firm.written) ∧ s.flash.nat 0 4 = 0x4D524946 ∧ 1 ≤ s.flash.nat 8 4 ∧ 4096 + s.flash.nat 8 4 ≤ n ∧ firmDigest s = true ∧ firmSigned s = true ∧ s.keys.recovery = true) ∧
    (∃ c : Caller, ∃ n : Nat, ∃ s : State, s.start.banner = true ∧ s.lineBusy c = false ∧ s.firm.erasing = none ∧ s.firm.size = some n ∧ (∀ k, k < (n + 15) / 16 → k ∈ s.firm.written) ∧ s.flash.nat 0 4 = 0x4D524946 ∧ 1 ≤ s.flash.nat 8 4 ∧ 4096 + s.flash.nat 8 4 ≤ n ∧ (firmDigest s = false ∨ firmSigned s = false)) :=
  ⟨⟨Caller.line, up, by decide +kernel⟩,
   ⟨Caller.line, 262145, up, by decide +kernel⟩,
   ⟨Caller.line, 4160, up, by decide +kernel⟩,
   ⟨Caller.line, 16, { up with firm := { up.firm with size := some 16, erasing := some Caller.line } }, by decide +kernel⟩,
   ⟨up, by decide +kernel⟩,
   ⟨Caller.line, 4160, 4080, List.replicate 32 7#8, { up with firm := { up.firm with size := some 4160, written := [], highest := 0 } }, by decide +kernel⟩,
   ⟨Caller.line, 4160, 8, [7#8], { up with firm := { up.firm with size := some 4160, written := [], highest := 0 } }, by decide +kernel⟩,
   ⟨Caller.line, 16, [7#8], up, by decide +kernel⟩,
   ⟨Caller.line, { Caller.line with path := .host }, 16, [7#8], { up with firm := { up.firm with size := some 16, erasing := some { Caller.line with path := .host } } }, by decide +kernel⟩,
   ⟨Caller.line, 4160, 32, 64, { up with firm := { up.firm with size := some 4160, written := [], highest := 16 } }, by decide +kernel⟩,
   ⟨Caller.line, 4160, 0, 16, { up with firm := { up.firm with size := some 4160, written := [], highest := 0 }, keys := { up.keys with recovery := true } }, by decide +kernel⟩,
   ⟨Caller.line, 4160, 0, { up with firm := { up.firm with size := some 4160, written := [], highest := 0 } }, by decide +kernel⟩,
   ⟨Caller.line, 16, { up with firm := { up.firm with size := some 16, written := [0], highest := 16 } }, by decide +kernel⟩,
   ⟨Caller.line, 4112, fwDone false, by decide +kernel⟩,
   ⟨Caller.line, 4112, fwDone true, by decide +kernel⟩,
   ⟨Caller.line, 4112, { up with firm := { up.firm with size := some 4112, written := List.range 257, highest := 4112 }, flash := [(0, 0x46#8), (1, 0x49#8), (2, 0x52#8), (3, 0x4D#8), (8, 16#8)] }, by decide +kernel⟩⟩

/-- Every clause of StringPortHaltsAndSteps has its premises met. -/
theorem witness_StringPortHaltsAndSteps :
    (∃ _i : BitVec 4, ∃ s : State, s.locked = false) ∧
    (∃ _i : BitVec 4, ∃ s : State, s.locked = true) ∧
    (∃ s : State, s.locked = false ∧ s.str.ir = 1#4) ∧
    (∃ s : State, s.locked = true) ∧
    (∃ s : State, s.locked = false ∧ s.str.ir = 9#4) ∧
    (∃ s : State, s.locked = true) ∧
    (∃ s : State, s.locked = false ∧ s.str.ir = 8#4 ∧ s.str.stepping = none ∧ s.confidential = false ∧ s.str.session = false) ∧
    (∃ s : State, s.locked = false ∧ s.str.ir = 8#4 ∧ s.str.stepping = none ∧ s.confidential = false ∧ s.str.session = true) ∧
    (∃ _a : BitVec 24, ∃ _d : W64, ∃ s : State, s.locked = false ∧ s.str.ir = 8#4 ∧ s.str.stepping = none ∧ s.confidential = true) ∧
    (∃ _a : BitVec 24, ∃ _d : W64, ∃ s : State, s.locked = false ∧ s.str.ir = 8#4 ∧ s.str.stepping ≠ none) ∧
    (∃ a : BitVec 24, ∃ d : W64, ∃ s : State, s.locked = false ∧ s.str.ir = 8#4 ∧ s.str.stepping = none ∧ s.confidential = false ∧ s.str.session = true ∧ (0x40000 ≤ a.toNat ∨ d ≠ 0#64)) ∧
    (∃ a : BitVec 24, ∃ s : State, s.locked = false ∧ s.str.ir = 8#4 ∧ s.str.stepping = none ∧ s.confidential = false ∧ s.str.session = true ∧ a.toNat < 0x40000) ∧
    (∃ a : BitVec 24, ∃ s : State, s.locked = false ∧ s.str.ir = 8#4 ∧ s.str.stepping = none ∧ s.confidential = false ∧ s.str.session = true ∧ a.toNat < 0x40000) ∧
    (∃ i : ShellId, ∃ n : W64, ∃ s : State, s.locked = false ∧ s.str.ir = 8#4 ∧ s.str.stepping = none ∧ s.confidential = false ∧ s.str.session = true ∧ (1 ≤ n.toNat ∧ n.toNat ≤ 65535) ∧ s.str.halted.getLsbD i.val = true ∧ s.hasProgram i = true) ∧
    (∃ i : ShellId, ∃ n : W64, ∃ s : State, s.locked = false ∧ s.str.ir = 8#4 ∧ s.str.stepping = none ∧ s.confidential = false ∧ s.str.session = true ∧ (1 ≤ n.toNat ∧ n.toNat ≤ 65535) ∧ s.str.halted.getLsbD i.val = false) ∧
    (∃ i : ShellId, ∃ m r : Nat, ∃ s : State, s.str.stepping = some (i, m, r) ∧ (m = 0 ∨ s.hasProgram i = false)) ∧
    (∃ i : ShellId, ∃ m r : Nat, ∃ s : State, s.str.stepping = some (i, m, r) ∧ m ≠ 0 ∧ s.hasProgram i = true) ∧
    (∃ _i : ShellId, ∃ s : State, s.locked = false ∧ s.str.ir = 8#4 ∧ s.str.stepping = none ∧ s.confidential = false ∧ s.str.session = true) ∧
    (∃ _k : Fin 8, ∃ _m : BitVec 18, ∃ _q : W16, ∃ _g : Fin 1024, ∃ s : State, s.locked = false ∧ s.str.ir = 8#4 ∧ s.str.stepping = none ∧ s.confidential = false ∧ s.str.session = true) ∧
    (∃ a : BitVec 24, ∃ _d : W64, ∃ s : State, s.locked = false ∧ s.str.ir = 8#4 ∧ s.str.stepping = none ∧ s.confidential = false ∧ s.str.session = true ∧ a.getLsbD 18 = true) ∧
    (∃ _k : Fin 8, ∃ s : State, s.locked = false ∧ s.str.ir = 8#4 ∧ s.str.stepping = none ∧ s.confidential = false ∧ s.str.session = true) ∧
    (∃ s : State, s.str.session = true) ∧
    (∃ s : State, s.str.session = false) :=
  ⟨⟨9#4, rdy, by decide +kernel⟩,
   ⟨9#4, { rdy with fuse := { rdy.fuse with shadow := [1542] } }, by decide +kernel⟩,
   ⟨rdy, by decide +kernel⟩,
   ⟨{ rdy with fuse := { rdy.fuse with shadow := [1542] } }, by decide +kernel⟩,
   ⟨{ rdy with str := { ir := 9#4, result := 5#64 } }, by decide +kernel⟩,
   ⟨{ rdy with fuse := { rdy.fuse with shadow := [1542] } }, by decide +kernel⟩,
   ⟨{ rdy with str := { ir := 8#4 } }, by decide +kernel⟩,
   ⟨{ rdy with str := { ir := 8#4, session := true, halted := 4#18 } }, by decide +kernel⟩,
   ⟨1#24, 0#64, { { rdy with keys := { rdy.keys with repair := 1 } } with str := { ir := 8#4, session := true } }, by decide +kernel⟩,
   ⟨1#24, 0#64, { rdy with str := { ir := 8#4, session := true, stepping := some (0, 3, 0) } }, by decide +kernel⟩,
   ⟨1#24, 1#64, { rdy with str := { ir := 8#4, session := true } }, by decide +kernel⟩,
   ⟨5#24, { rdy with str := { ir := 8#4, session := true } }, by decide +kernel⟩,
   ⟨5#24, { rdy with str := { ir := 8#4, session := true, halted := 0xF#18 } }, by decide +kernel⟩,
   ⟨0, 3#64, { (fab 0#64) with str := { ir := 8#4, session := true, halted := 1#18 } }, by decide +kernel⟩,
   ⟨0, 3#64, { rdy with str := { ir := 8#4, session := true } }, by decide +kernel⟩,
   ⟨0, 0, 3, { rdy with str := { ir := 8#4, session := true, stepping := some (0, 0, 3) } }, by decide +kernel⟩,
   ⟨0, 2, 1, { (fab 0#64) with str := { ir := 8#4, session := true, stepping := some (0, 2, 1) } }, by decide +kernel⟩,
   ⟨3, { rdy with str := { ir := 8#4, session := true } }, by decide +kernel⟩,
   ⟨7, 3#18, 9#16, 517, { rdy with str := { ir := 8#4, session := true } }, by decide +kernel⟩,
   ⟨0x40000#24, 0#64, { rdy with str := { ir := 8#4, session := true } }, by decide +kernel⟩,
   ⟨7, { rdy with str := { ir := 8#4, session := true, slots := put rdy.str.slots 7 (some (.tally 1 1#16 1#18)) } }, by decide +kernel⟩,
   ⟨{ rdy with str := { ir := 8#4, session := true, halted := 4#18 } }, by decide +kernel⟩,
   ⟨rdy, by decide +kernel⟩⟩

/-- Every clause of StringPortReadsAndWrites has its premises met. -/
theorem witness_StringPortReadsAndWrites :
    (∃ _k : Fin 1024, ∃ s : State, s.locked = false ∧ s.str.ir = 8#4 ∧ s.str.stepping = none ∧ s.confidential = false ∧ s.str.session = true) ∧
    (∃ a : BitVec 24, ∃ s : State, s.locked = false ∧ s.str.ir = 8#4 ∧ s.str.stepping = none ∧ s.confidential = false ∧ s.str.session = true ∧ (0x40000 ≤ a.toNat ∨ a.toNat % 4 ≠ 0)) ∧
    (∃ _l : LaneId, ∃ d : W64, ∃ s : State, s.locked = false ∧ s.str.ir = 8#4 ∧ s.str.stepping = none ∧ s.confidential = false ∧ s.str.session = true ∧ d.toNat < 2 ^ 32) ∧
    (∃ a : BitVec 24, ∃ d : W64, ∃ s : State, s.locked = false ∧ s.str.ir = 8#4 ∧ s.str.stepping = none ∧ s.confidential = false ∧ s.str.session = true ∧ (0x40000 ≤ a.toNat ∨ a.toNat % 4 ≠ 0 ∨ 2 ^ 32 ≤ d.toNat)) ∧
    (∃ _i : ShellId, ∃ d : W64, ∃ s : State, s.locked = false ∧ s.str.ir = 8#4 ∧ s.str.stepping = none ∧ s.confidential = false ∧ s.str.session = true ∧ d.toNat % 8 = 0) ∧
    (∃ d : W64, ∃ s : State, s.locked = false ∧ s.str.ir = 8#4 ∧ s.str.stepping = none ∧ s.confidential = false ∧ s.str.session = true ∧ d.toNat % 8 = 0) ∧
    (∃ _a : BitVec 24, ∃ d : W64, ∃ s : State, s.locked = false ∧ s.str.ir = 8#4 ∧ s.str.stepping = none ∧ s.confidential = false ∧ s.str.session = true ∧ d.toNat % 8 ≠ 0) ∧
    (∃ i : ShellId, ∃ s : State, s.locked = false ∧ s.str.ir = 8#4 ∧ s.str.stepping = none ∧ s.confidential = false ∧ s.str.session = true ∧ s.str.space = .sram i ∧ s.str.pointer < 0x80000 ∧ (s.shell i).poisoned.contains (s.str.pointer / 8) = false) ∧
    (∃ o : Nat, ∃ s : State, s.locked = false ∧ s.str.ir = 8#4 ∧ s.str.stepping = none ∧ s.confidential = false ∧ s.str.session = true ∧ s.str.space = .course ∧ s.str.pointer = bhBase + o ∧ o < 63 * 0x80000 ∧ o % 8 = 0 ∧ s.bankUp (bankAt o) = true ∧ s.faults.poisoned.contains (o / 8) = false ∧ s.outOpen s.str.pointer 8 = false) ∧
    (∃ s : State, s.locked = false ∧ s.str.ir = 8#4 ∧ s.str.stepping = none ∧ s.confidential = false ∧ s.str.session = true ∧ s.str.space = .course ∧ (bhBase + 63 * 0x80000 ≤ s.str.pointer ∧ s.str.pointer < bhBase + 64 * 0x80000)) ∧
    (∃ i : ShellId, ∃ s : State, s.locked = false ∧ s.str.ir = 8#4 ∧ s.str.stepping = none ∧ s.confidential = false ∧ s.str.session = true ∧ s.str.space = .table i ∧ 0x20000 ≤ s.str.pointer) ∧
    (∃ i : ShellId, ∃ _d : W64, ∃ s : State, s.locked = false ∧ s.str.ir = 8#4 ∧ s.str.stepping = none ∧ s.confidential = false ∧ s.str.session = true ∧ s.str.space = .sram i ∧ s.str.pointer < 0x80000) ∧
    (∃ l : LaneId, ∃ q : W32, ∃ r : HeatRun, ∃ i : ShellId, ∃ _d : W64, ∃ s : State, s.locked = false ∧ s.str.ir = 8#4 ∧ s.str.stepping = none ∧ s.confidential = false ∧ s.str.session = true ∧ s.str.space = .sram i ∧ s.str.pointer < 0x80000 ∧ s.str.touch = none ∧ (s.shell i).running = some (l, q) ∧ (∀ k : LaneId, k.val < l.val → (s.lane k).runs = []) ∧ (s.lane l).runs = [r] ∧ r.seq = q ∧ r.started = true ∧ r.failed = none) ∧
    (∃ o : Nat, ∃ _d : W64, ∃ s : State, s.locked = false ∧ s.str.ir = 8#4 ∧ s.str.stepping = none ∧ s.confidential = false ∧ s.str.session = true ∧ s.str.space = .course ∧ s.str.pointer = bhBase + o ∧ o < 63 * 0x80000 ∧ o % 8 = 0 ∧ s.bankUp (bankAt o) = true) ∧
    (∃ _d : W64, ∃ s : State, s.locked = false ∧ s.str.ir = 8#4 ∧ s.str.stepping = none ∧ s.confidential = false ∧ s.str.session = true ∧ s.str.space = .course ∧ (bhBase + 63 * 0x80000 ≤ s.str.pointer ∧ s.str.pointer < bhBase + 64 * 0x80000)) :=
  ⟨⟨517, { { rdy with tallies := [(517, 9#32)] } with str := { ir := 8#4, session := true } }, by decide +kernel⟩,
   ⟨2#24, { rdy with str := { ir := 8#4, session := true } }, by decide +kernel⟩,
   ⟨1, 7#64, { rdy with str := { ir := 8#4, session := true, touch := none } }, by decide +kernel⟩,
   ⟨2#24, 0#64, { rdy with str := { ir := 8#4, session := true } }, by decide +kernel⟩,
   ⟨3, 64#64, { rdy with str := { ir := 8#4, session := true } }, by decide +kernel⟩,
   ⟨64#64, { rdy with str := { ir := 8#4, session := true } }, by decide +kernel⟩,
   ⟨0#24, 4#64, { rdy with str := { ir := 8#4, session := true } }, by decide +kernel⟩,
   ⟨3, { rdy with str := { ir := 8#4, session := true, space := .sram 3, pointer := 64 } }, by decide +kernel⟩,
   ⟨64, { rdy with str := { ir := 8#4, session := true, pointer := bhBase + 64 } }, by decide +kernel⟩,
   ⟨{ rdy with str := { ir := 8#4, session := true, pointer := bhBase + 63 * 0x80000 } }, by decide +kernel⟩,
   ⟨3, { rdy with str := { ir := 8#4, session := true, space := .table 3, pointer := 0x20000 } }, by decide +kernel⟩,
   ⟨3, 5#64, { rdy with str := { ir := 8#4, session := true, space := .sram 3, pointer := 64 } }, by decide +kernel⟩,
   ⟨1, 0#32, { seq := 0#32, st := .segment, started := true, open_ := [0] }, 0, 5#64, { (fab 0#64) with str := { ir := 8#4, session := true, space := .sram 0, pointer := 64 } }, by decide +kernel⟩,
   ⟨64, 5#64, { rdy with str := { ir := 8#4, session := true, pointer := bhBase + 64 } }, by decide +kernel⟩,
   ⟨5#64, { rdy with str := { ir := 8#4, session := true, pointer := bhBase + 63 * 0x80000 } }, by decide +kernel⟩⟩

end Sys2Proof.Tests
end

section
/-! PROOFS. The register window: what a read and a write at an offset do, block by block (R8, R371, R453 to R455), what the
register table says of the offsets that GET and SET name (R343), and the statement about GET, SET and register accesses. -/

namespace Sys2Proof.Registers
open Sys2Proof Sys2Proof.Machine Sys2Proof.Laws

/-! ## Lanes -/

theorem lane_setLane_self (s : State) (l : LaneId) (f : Lane → Lane) : (s.setLane l f).lane l = f (s.lane l) := by
  simp [State.lane, State.setLane, upd]

theorem ownsLane_setLane {f : Lane → Lane} (hf : ∀ L : Lane, (f L).owner = L.owner) (s : State) (p : Path) (l : LaneId) :
    (s.setLane l f).ownsLane p l = s.ownsLane p l := by
  simp [State.ownsLane, State.laneOwner, lane_setLane_self, hf]

/-! ## The window: a register outside the shells, the Eye and the Ear stands in a domain that stays up -/

theorem regDom_eq_none {o : Nat} (h : o < 0x9000 ∨ 0xB000 ≤ o ∧ o < 0x10000) : regDom o = none := by
  have h1 : ¬(0x10000 ≤ o ∧ o < 0x22000) := by omega
  have h2 : o / 0x1000 ≠ 0x9 := by omega
  have h3 : o / 0x1000 ≠ 0xA := by omega
  simp only [regDom, h1, h2, h3, if_false]

theorem regFenced_of_noDom {o : Nat} (s : State) (h : regDom o = none) : regFenced o s = false := by
  simp [regFenced, h]

theorem regTouch_of_noDom {o : Nat} (s : State) (h : regDom o = none) : regTouch o s = s := by
  simp [regTouch, h]

theorem readReg_eq_readBlock {o : Nat} (h4 : o % 4 = 0) (h : regDom o = none) (p : Path) (s : State) :
    readReg p o s = readBlock p o s := by
  simp [readReg, h4, regFenced_of_noDom s h, regTouch_of_noDom s h]

theorem writeReg_eq_writeBlock {o : Nat} (h4 : o % 4 = 0) (h : regDom o = none) (p : Path) (v : W32) (s : State) :
    writeReg p o v s = writeBlock p o v s := by
  simp [writeReg, h4, regFenced_of_noDom s h, regTouch_of_noDom s h]

theorem writeReg_misaligned {o : Nat} (h : o % 4 ≠ 0) (p : Path) (v : W32) (s : State) : writeReg p o v s = s := by
  simp [writeReg, h]

/-- Writes to the ID block are ignored (R454). -/
theorem writeReg_id {o : Nat} (h : o < 0x1000) (p : Path) (v : W32) (s : State) : writeReg p o v s = s := by
  by_cases h4 : o % 4 = 0
  · have hb : o / 0x1000 = 0 := by omega
    rw [writeReg_eq_writeBlock h4 (regDom_eq_none (by omega))]
    simp [writeBlock, hb]
  · exact writeReg_misaligned h4 p v s

/-! ## The LANE block: register k of lane l stands at 0x2000 + 0x400 l + k, below the adapter slots -/

theorem laneOfOff_add (l : LaneId) {k : Nat} (hk : k < 0x400) : laneOfOff (0x400 * l.val + k) = l := by
  apply Fin.ext
  simp only [laneOfOff]
  omega

/-- The parts of the offset of register k of lane l. -/
theorem laneOffset_parts {o k : Nat} {l : LaneId} (ho : o = 0x2000 + 0x400 * l.val + k) (hk : k < 0x300) :
    o / 0x1000 = 2 ∧ o % 0x1000 = 0x400 * l.val + k ∧ ¬(0xF00 ≤ 0x400 * l.val + k ∧ 0x400 * l.val + k < 0xF80) ∧
      (0x400 * l.val + k) % 0x400 = k := by
  omega

theorem readReg_lane {o k : Nat} {l : LaneId} (ho : o = 0x2000 + 0x400 * l.val + k) (hk : k < 0x300) (h4 : k % 4 = 0) (p : Path)
    (s : State) : readReg p o s = readLane p l k s := by
  obtain ⟨hb, hm, had, hr⟩ := laneOffset_parts ho hk
  rw [readReg_eq_readBlock (by omega) (regDom_eq_none (by omega))]
  simp only [readBlock, hb, hm, readLanes, had, if_false, hr, laneOfOff_add l (show k < 0x400 by omega)]

theorem writeReg_lane {o k : Nat} {l : LaneId} (ho : o = 0x2000 + 0x400 * l.val + k) (hk : k < 0x300) (h4 : k % 4 = 0) (p : Path)
    (v : W32) (s : State) : writeReg p o v s = writeLane p l k v s := by
  obtain ⟨hb, hm, had, hr⟩ := laneOffset_parts ho hk
  rw [writeReg_eq_writeBlock (by omega) (regDom_eq_none (by omega))]
  simp only [writeBlock, hb, hm, writeLanes, had, if_false, hr, laneOfOff_add l (show k < 0x400 by omega)]

theorem regFenced_lane {o k : Nat} {l : LaneId} (ho : o = 0x2000 + 0x400 * l.val + k) (hk : k < 0x300) (s : State) :
    regFenced o s = false :=
  regFenced_of_noDom s (regDom_eq_none (by omega))

/-- LANEn_PRIO, LANEn_NEXTSEQ and LANEn_OLDEST, by their number from LANEn_PRIO on. -/
def laneWord (L : Lane) (k : Nat) : W32 := [L.prio.setWidth 32, L.next, L.oldest].getD k 0#32

theorem readReg_laneWord {p : Path} {l : LaneId} {s : State} (h : s.ownsLane p l = true) {k : Nat} (hk : k < 3) :
    readReg p (0x2004 + 0x400 * l.val + 4 * k) s = (laneWord (s.lane l) k, s) := by
  rw [readReg_lane (l := l) (k := 4 + 4 * k) (by omega) (by omega) (by omega)]
  match k, hk with
  | 0, _ | 1, _ | 2, _ => simp [readLane, h, laneWord]

theorem readReg_prio {p : Path} {l : LaneId} {s : State} (h : s.ownsLane p l = true) :
    readReg p (0x2004 + 0x400 * l.val) s = ((s.lane l).prio.setWidth 32, s) :=
  readReg_laneWord h (k := 0) (by omega)

theorem readReg_prio_other {p : Path} {l : LaneId} {s : State} (h : s.ownsLane p l = false) :
    readReg p (0x2004 + 0x400 * l.val) s = (0#32, s) := by
  rw [readReg_lane (l := l) (k := 4) (by omega) (by omega) (by omega)]
  simp [readLane, h]

/-- The state with a lane's priority set and the record in force before kept. -/
def withPrio (s : State) (l : LaneId) (v : BitVec 2) : State := s.setLane l fun L => { L with prio := v, prev := some L.record }

theorem lane_withPrio (s : State) (l : LaneId) (v : BitVec 2) :
    (withPrio s l v).lane l = { s.lane l with prio := v, prev := some (s.lane l).record } :=
  lane_setLane_self s l _

theorem ownsLane_withPrio (s : State) (p : Path) (l : LaneId) (v : BitVec 2) : (withPrio s l v).ownsLane p l = s.ownsLane p l :=
  ownsLane_setLane (f := fun L => { L with prio := v, prev := some L.record }) (fun _ => rfl) s p l

theorem writeReg_prio {p : Path} {l : LaneId} {s : State} (h : s.ownsLane p l = true) (v : W32) :
    writeReg p (0x2004 + 0x400 * l.val) v s = withPrio s l (v.setWidth 2) := by
  rw [writeReg_lane (l := l) (k := 4) (by omega) (by omega) (by omega)]
  simp [writeLane, h, State.bookLane, withPrio]

theorem writeReg_prio_other {p : Path} {l : LaneId} {s : State} (h : s.ownsLane p l = false) (v : W32) :
    writeReg p (0x2004 + 0x400 * l.val) v s = s := by
  rw [writeReg_lane (l := l) (k := 4) (by omega) (by omega) (by omega)]
  simp [writeLane, h]

/-! ## The TALLY and MEM blocks -/

theorem readReg_tally (p : Path) (k : Fin 1024) (s : State) : readReg p (0x3000 + 4 * k.val) s = (s.tally k.val, s) := by
  have hb : (0x3000 + 4 * k.val) / 0x1000 = 3 := by omega
  have hk : (0x3000 + 4 * k.val) % 0x1000 / 4 = k.val := by omega
  rw [readReg_eq_readBlock (by omega) (regDom_eq_none (by omega))]
  simp only [readBlock, hb, hk]

/-- Register k of region slot r stands at 0x8100 + 0x10 r + k. -/
theorem writeReg_region {o k : Nat} {r : Fin 32} (ho : o = 0x8100 + 0x10 * r.val + k) (hk : k < 0x10) (h4 : k % 4 = 0) (p : Path)
    (v : W32) (s : State) : writeReg p o v s = writeRegion p r k v s := by
  have hb : o / 0x1000 = 8 := by omega
  have hm : o % 0x1000 = 0x100 + 0x10 * r.val + k := by omega
  have h14 : 0x100 + 0x10 * r.val + k ≠ 0x14 := by omega
  have h20 : ¬(0x20 ≤ 0x100 + 0x10 * r.val + k ∧ 0x100 + 0x10 * r.val + k < 0x30) := by omega
  have h40 : ¬(0x40 ≤ 0x100 + 0x10 * r.val + k ∧ 0x100 + 0x10 * r.val + k < 0x60) := by omega
  have h100 : 0x100 ≤ 0x100 + 0x10 * r.val + k ∧ 0x100 + 0x10 * r.val + k < 0x300 := by omega
  have hr : regionOff (0x100 + 0x10 * r.val + k) = r := by
    apply Fin.ext
    simp only [regionOff]
    omega
  have hrk : (0x100 + 0x10 * r.val + k) % 0x10 = k := by omega
  rw [writeReg_eq_writeBlock (by omega) (regDom_eq_none (by omega))]
  simp only [writeBlock, hb, hm, writeMem, h14, h20, h40, if_false, if_pos h100, hr, hrk]

theorem writeRegion_base_free {r : Fin 32} {s : State} (h : s.mem.region[r].valid = false) (p : Path) (v : W32) :
    writeRegion p r 0 v s = s.setRegion r fun g => { g with base := v.setWidth 18 } := by
  simp only [writeRegion, if_true, h, Bool.false_eq_true, if_false]

theorem writeRegion_size_valid {r : Fin 32} {s : State} (h : s.mem.region[r].valid = true) (p : Path) (v : W32) :
    writeRegion p r 4 v s = s := by
  simp only [writeRegion, h, if_true]
  rfl

theorem writeReg_regionBase_free {r : Fin 32} {s : State} (h : s.mem.region[r].valid = false) (p : Path) (v : W32) :
    writeReg p (0x8100 + 0x10 * r.val) v s = s.setRegion r fun g => { g with base := v.setWidth 18 } := by
  rw [writeReg_region (r := r) (k := 0) (by omega) (by decide) (by decide), writeRegion_base_free h]

theorem writeReg_regionSize_valid {r : Fin 32} {s : State} (h : s.mem.region[r].valid = true) (p : Path) (v : W32) :
    writeReg p (0x8104 + 0x10 * r.val) v s = s := by
  rw [writeReg_region (r := r) (k := 4) (by omega) (by decide) (by decide), writeRegion_size_valid h]

/-! ## The HOST block -/

theorem writeReg_host {k : Nat} (hk : k < 0x1000) (h4 : k % 4 = 0) (p : Path) (v : W32) (s : State) :
    writeReg p (0xE000 + k) v s = writeHost p k v s := by
  have hb : (0xE000 + k) / 0x1000 = 0xE := by omega
  have hm : (0xE000 + k) % 0x1000 = k := by omega
  rw [writeReg_eq_writeBlock (by omega) (regDom_eq_none (by omega))]
  simp only [writeBlock, hb, hm]

/-- Paths that may not write the HOST block change none of its registers below the rings (R371). -/
theorem writeHost_other {p : Path} (hp : p ≠ .host ∧ p ≠ .string) {k : Nat} (hk : k < 0x100) (v : W32) (s : State) :
    writeHost p k v s = s := by
  have hr : ¬(0x100 ≤ k ∧ k < 0x180 ∧ k % 0x20 = 0x14) := by omega
  simp only [writeHost, if_pos hp, if_neg hr]

theorem writeHost_irq {p : Path} (hp : p = .host ∨ p = .string) (v : W32) (s : State) :
    writeHost p 0x0C v s = { s with host := { s.host with irq := s.host.irq &&& ~~~(v.setWidth 8) } } := by
  rcases hp with rfl | rfl <;> rfl

theorem writeHost_irqEn {p : Path} (hp : p = .host ∨ p = .string) (v : W32) (s : State) :
    writeHost p 0x10 v s = { s with host := { s.host with irqEn := v &&& 0xFF#32 } } := by
  rcases hp with rfl | rfl <;> rfl

theorem writeReg_irq {p : Path} (hp : p = .host ∨ p = .string) (v : W32) (s : State) :
    writeReg p 0xE00C v s = { s with host := { s.host with irq := s.host.irq &&& ~~~(v.setWidth 8) } } := by
  rw [writeReg_host (k := 0x0C) (by decide) (by decide), writeHost_irq hp]

theorem writeReg_irq_other {p : Path} (hp : p = .call ∨ p = .cox) (v : W32) (s : State) : writeReg p 0xE00C v s = s := by
  have hp' : p ≠ .host ∧ p ≠ .string := by rcases hp with rfl | rfl <;> decide
  rw [writeReg_host (k := 0x0C) (by decide) (by decide), writeHost_other hp' (by decide)]

theorem writeReg_irqEn {p : Path} (hp : p = .host ∨ p = .string) (v : W32) (s : State) :
    writeReg p 0xE010 v s = { s with host := { s.host with irqEn := v &&& 0xFF#32 } } := by
  rw [writeReg_host (k := 0x10) (by decide) (by decide), writeHost_irqEn hp]

/-- Two counts of 16 bits, side by side in one word. -/
theorem atBit_halves (a b : W16) : atBit a.toNat 16 16 ||| atBit b.toNat 0 16 = w32 (a.toNat * 65536 + b.toNat) := by
  have ha := a.isLt
  have hb := b.isLt
  have e : a.toNat * 65536 ||| b.toNat = a.toNat * 65536 + b.toNat := by
    rw [Nat.mul_comm]
    exact (Nat.two_pow_add_eq_or_of_lt hb a.toNat).symm
  apply BitVec.eq_of_toNat_eq
  simp only [atBit, BitVec.toNat_or, BitVec.toNat_ofNat, Nat.shiftLeft_eq, Nat.mod_eq_of_lt ha, Nat.mod_eq_of_lt hb, Nat.pow_zero,
    Nat.mul_one, ← e]
  rw [Nat.mod_eq_of_lt (a := a.toNat * 2 ^ 16) (by omega), Nat.mod_eq_of_lt (a := b.toNat) (by omega), e, Nat.mod_eq_of_lt (by omega)]

/-! ## Single registers -/

/-- A 1 clears a LOST bit of FAULT_CLOCK (R8). -/
theorem writeReg_lost (p : Path) (v : W32) (s : State) :
    writeReg p 0x5000 v s = { s with clk := { s.clk with lost := s.clk.lost &&& ~~~(v.setWidth 14) } } := by
  rw [writeReg_eq_writeBlock (by decide) (regDom_eq_none (by decide))]
  rfl

/-- A 1 in bit 0 of GLB_STATUS clears LOGLOST, for the Call line and the host (R455). -/
theorem writeReg_logLost {p : Path} (hp : p = .call ∨ p = .host) {v : W32} (hv : v.getLsbD 0 = true) (s : State) :
    writeReg p 0x1000 v s = { s with start := { s.start with logLost := false } } := by
  rw [writeReg_eq_writeBlock (by decide) (regDom_eq_none (by decide))]
  exact if_pos ⟨rfl, hv, hp⟩

theorem writeReg_rotPace (p : Path) (v : W32) (s : State) :
    writeReg p 0x8014 v s = { s with mem := { s.mem with rotPace := v.setWidth 16 } } := by
  rw [writeReg_eq_writeBlock (by decide) (regDom_eq_none (by decide))]
  rfl

/-! ## The commands of the window -/

/-- REGISTER_WRITE answers what the write of the register leaves. -/
theorem next_of_write {p : Path} {o : Nat} {v : W32} {s t : State} (ho : o < 2 ^ 18) (h : writeReg p o v s = t) :
    exec (.registerWrite p (BitVec.ofNat 18 o) v) s = .next t := by
  subst h
  exact congrArg (fun n => Host.Outcome.next (writeReg p n v s)) (Nat.mod_eq_of_lt ho)

/-- An offset of the ID block, or one that is no multiple of 4. -/
theorem registerWrite_unwritable {o : BitVec 18} (h : o.toNat < 0x1000 ∨ o.toNat % 4 ≠ 0) (p : Path) (v : W32) (s : State) :
    exec (.registerWrite p o v) s = .next s := by
  have hw : writeReg p o.toNat v s = s := h.elim (fun h => writeReg_id h p v s) fun h => writeReg_misaligned h p v s
  simpa using next_of_write o.isLt hw

theorem exec_get (c : Caller) (r : RegRef) (f : Option (List Byte)) (n : Option Nat) (s : State) :
    exec (.get c r f n) s = .next (doGet c r f n s) := rfl

theorem exec_set (c : Caller) (r : RegRef) (v : Nat) (s : State) : exec (.set c r v) s = .next (doSet c r v s) := rfl

theorem exec_setField (c : Caller) (r : RegRef) (f : List Byte) (v : Nat) (s : State) :
    exec (.setField c r f v) s = .next (doSetField c r f v s) := rfl

/-- A call that fails changes nothing but the output, which takes its line. -/
theorem next_of_fail {i : Instr} {c : Caller} {verb : String} {e : Err} {s : State} (h : exec i s = .next (s.fail c verb e)) :
    ∃ t, exec i s = .next t ∧ t.quiet = s.quiet ∧ Replied c ⟨.fail, verb, c.tag, [bareF e.text]⟩ t :=
  ⟨_, h, fail_quiet, fail_replied⟩

/-- A call that succeeds on a state changes nothing of it but the output, which takes its line. -/
theorem next_of_ok {i : Instr} {c : Caller} {verb : String} {fs : List (String × Val)} {s u : State}
    (h : exec i s = .next (u.ok c verb fs)) : ∃ t, exec i s = .next t ∧ t.quiet = u.quiet ∧ Replied c (okLine c verb fs) t :=
  ⟨_, h, ok_quiet, ok_replied⟩

/-! ## The register table -/

/-- The last offset of a family of registers. -/
def lastOffset (r : RegRow) : Nat := r.base + r.stride * (r.count - 1)

/-- A row, if an offset is one of its, with the offset's index in it. -/
def rowAt (o : Nat) (r : RegRow) : Option (RegRow × Nat) :=
  if r.base ≤ o then
    if r.stride = 0 then (if r.base = o then some (r, 0) else none)
    else if (o - r.base) % r.stride = 0 ∧ (o - r.base) / r.stride < r.count then some (r, (o - r.base) / r.stride) else none
  else none

theorem regRowAt_eq (o : Nat) : regRowAt o = regRows.findSome? (rowAt o) := rfl

theorem rowAt_beyond {r : RegRow} {o : Nat} (h : lastOffset r < o) : rowAt o r = none := by
  unfold lastOffset at h
  have hrow : ¬(r.stride = 0 ∧ r.base = o) := fun ⟨hs, he⟩ => by
    rw [hs, Nat.zero_mul] at h
    omega
  have hfamily : ¬((o - r.base) % r.stride = 0 ∧ (o - r.base) / r.stride < r.count) := fun ⟨hd, hc⟩ => by
    have hm : r.stride * ((o - r.base) / r.stride) = o - r.base := Nat.mul_div_cancel' (Nat.dvd_of_mod_eq_zero hd)
    have hl : r.stride * ((o - r.base) / r.stride) ≤ r.stride * (r.count - 1) := Nat.mul_le_mul_left _ (by omega)
    omega
  rw [rowAt, if_neg hfamily]
  by_cases hs : r.stride = 0
  · rw [if_pos hs, if_neg fun he => hrow ⟨hs, he⟩, ite_self]
  · rw [if_neg hs, ite_self]

theorem rowAt_index {r : RegRow} {i : Nat} (hs : 0 < r.stride) (hi : i < r.count) : rowAt (r.base + r.stride * i) r = some (r, i) := by
  have hd : r.base + r.stride * i - r.base = r.stride * i := by omega
  simp [rowAt, hd, Nat.mul_div_cancel_left i hs, hi, Nat.ne_of_gt hs]

/-- The row that holds an offset, where the rows before it all end below the offset. -/
theorem regRowAt_of_split {pre post : List RegRow} {r : RegRow} {i : Nat} (h : regRows = pre ++ r :: post)
    (hp : ∀ x ∈ pre, lastOffset x < r.base) (hs : 0 < r.stride) (hi : i < r.count) :
    regRowAt (r.base + r.stride * i) = some (r, i) := by
  have hn : pre.findSome? (rowAt (r.base + r.stride * i)) = none :=
    List.findSome?_eq_none_iff.mpr fun x hx => rowAt_beyond (Nat.lt_of_lt_of_le (hp x hx) (Nat.le_add_right _ _))
  simp [regRowAt_eq, h, hn, rowAt_index hs hi]

def tallyRow : RegRow := ⟨"TALLY", "", 0x3000, 0x4, 1024, [⟨"COUNT", 0, 32, .ro⟩]⟩

theorem regRowAt_tally (k : Fin 1024) : regRowAt (0x3000 + 4 * k.val) = some (tallyRow, k.val) :=
  regRowAt_of_split (pre := regRows.take 24) (post := regRows.drop 25) (r := tallyRow) rfl (by decide) (by decide) k.isLt

theorem regName_tally (k : Fin 1024) : regName (0x3000 + 4 * k.val) = some ("TALLY" ++ toString k.val) := by
  simp [regName, regRowAt_tally, tallyRow]

/-- LANEn_PRIO has one field, which is read and written. -/
def prioField : FieldRow := ⟨"PRIO", 0, 2, .rw⟩

theorem regFields_prio (l : LaneId) : regFields (0x2004 + 0x400 * l.val) = [prioField] := by
  revert l
  decide

theorem fieldAt_prio (l : LaneId) : fieldAt (0x2004 + 0x400 * l.val) (ascii "PRIO") = some prioField := by
  simp [fieldAt, regFields_prio, prioField]

theorem holdsRc_prio (l : LaneId) : holdsRc (0x2004 + 0x400 * l.val) = false := by
  simp [holdsRc, regFields_prio, prioField]

theorem setWidth_putFld_low (w : W32) (v : Nat) : (putFld w 0 2 v).setWidth 2 = BitVec.ofNat 2 v := by
  have hm : (~~~atBit (2 ^ 2 - 1) 0 2).setWidth 2 = 0#2 := by decide
  have hv : (atBit v 0 2).setWidth 2 = BitVec.ofNat 2 v := by
    apply BitVec.eq_of_toNat_eq
    simp only [atBit, BitVec.toNat_setWidth, BitVec.toNat_ofNat, Nat.shiftLeft_zero]
    omega
  rw [putFld, BitVec.setWidth_or, BitVec.setWidth_and, hm, hv, BitVec.and_zero, BitVec.zero_or]

theorem setWidth_two_roundTrip (v : Nat) : (BitVec.ofNat 2 v).setWidth 32 = w32 (v % 4) := by
  apply BitVec.eq_of_toNat_eq
  simp only [BitVec.toNat_setWidth, BitVec.toNat_ofNat]

/-! ## GET (R343) -/

theorem offset?_of_valid {o : Nat} (h4 : o % 4 = 0) (h : o < 0x40000) : (RegRef.offset o).offset? = some o := by
  simp [RegRef.offset?, h4, h]

theorem offset?_of_invalid {o : Nat} (h : o % 4 ≠ 0 ∨ 0x40000 ≤ o) : (RegRef.offset o).offset? = none := by
  have hn : ¬(o % 4 = 0 ∧ o < 0x40000) := by omega
  simp only [RegRef.offset?, if_neg hn]

/-- n registers that stand outside every domain that can be fenced. -/
theorem anyFenced_of_noDom {o n : Nat} (s : State) (h : ∀ k, k < n → regDom (o + 4 * k) = none) : anyFenced o n s = false := by
  simp only [anyFenced, List.any_eq_false, List.mem_range, Bool.not_eq_true]
  exact fun k hk => regFenced_of_noDom s (h k hk)

/-- GET of a register outside every domain that can be fenced, whose read changes nothing: the reply gives its value. -/
theorem doGet_one {c : Caller} {o : Nat} {s : State} {v : W32} (ht : Takes c s) (h4 : o % 4 = 0) (h : o < 0x40000)
    (hd : regDom o = none) (hr : readReg c.path.path o s = (v, s)) :
    doGet c (.offset o) none none s = s.ok c "GET" (regLine o (hexReg v)) := by
  have hf : anyFenced o 1 s = false := anyFenced_of_noDom s fun k hk => by
    obtain rfl : k = 0 := by omega
    exact hd
  have hk : ¬(0x40000 < o + 4 * 1) := by omega
  simp [doGet, gate_takes ht, offset?_of_valid h4 h, hf, hr, hk]

/-- Registers whose reads change nothing, read one after another. -/
theorem readRegs_of_reads {p : Path} {s : State} {f : Nat → W32} {n o : Nat} (h : ∀ k, k < n → readReg p (o + 4 * k) s = (f k, s)) :
    readRegs p o n s = ((List.range n).map fun k => regLine (o + 4 * k) (hexReg (f k)), s) := by
  induction n generalizing o f with
  | zero => rfl
  | succ n ih =>
    have h0 : readReg p o s = (f 0, s) := h 0 (by omega)
    have hr : ∀ k, k < n → readReg p (o + 4 + 4 * k) s = (f (k + 1), s) := fun k hk => by
      have := h (k + 1) (by omega)
      rwa [show o + 4 * (k + 1) = o + 4 + 4 * k by omega] at this
    simp only [readRegs, h0, ih (f := fun k => f (k + 1)) hr, List.range_succ_eq_map, List.map_cons, List.map_map]
    congr 3
    funext k
    simp only [Function.comp, Nat.succ_eq_add_one, show o + 4 * (k + 1) = o + 4 + 4 * k by omega]

/-- GET of n registers outside every domain that can be fenced, whose reads change nothing: a line for each. -/
theorem doGet_many {c : Caller} {o n : Nat} {s : State} {f : Nat → W32} (ht : Takes c s) (h4 : o % 4 = 0) (hn : 1 ≤ n ∧ n ≤ 64)
    (h : o + 4 * n ≤ 0x40000) (hd : ∀ k, k < n → regDom (o + 4 * k) = none)
    (hr : ∀ k, k < n → readReg c.path.path (o + 4 * k) s = (f k, s)) :
    doGet c (.offset o) none (some n) s =
      s.okWith c ((List.range n).map fun k => regLine (o + 4 * k) (hexReg (f k))) "GET" [("", .dec n)] := by
  have hk : ¬(n = 0 ∨ 64 < n ∨ 0x40000 < o + 4 * n) := by omega
  simp only [doGet, gate_takes ht, offset?_of_valid h4 (show o < 0x40000 by omega), Option.getD_some, if_neg hk,
    anyFenced_of_noDom s hd, Bool.false_eq_true, if_false, readRegs_of_reads hr]

theorem get_tally {c : Caller} {s : State} (ht : Takes c s) (k : Fin 1024) :
    exec (.get c (.offset (0x3000 + 4 * k.val)) none none) s = .next (s.ok c "GET"
      [("", hexOff (0x3000 + 4 * k.val)), bareF ("TALLY" ++ toString k.val), ("", hexReg (s.tally k.val))]) := by
  rw [exec_get, doGet_one ht (by omega) (by omega) (regDom_eq_none (by omega)) (readReg_tally _ k s)]
  simp only [regLine, regShown, regName_tally]

theorem get_laneWords {c : Caller} {l : LaneId} {n : Nat} {s : State} (ht : Takes c s) (hn : 1 ≤ n ∧ n ≤ 3)
    (h : s.ownsLane c.path.path l = true) :
    exec (.get c (.offset (0x2004 + 0x400 * l.val)) none (some n)) s = .next (s.okWith c
      ((List.range n).map fun k => regLine (0x2004 + 0x400 * l.val + 4 * k) (hexReg (laneWord (s.lane l) k))) "GET" [("", .dec n)]) := by
  rw [exec_get, doGet_many ht (by omega) (by omega) (by omega) (fun k hk => regDom_eq_none (by omega))
    fun k hk => readReg_laneWord h (by omega)]

theorem get_prio_other {c : Caller} {l : LaneId} {s : State} (ht : Takes c s) (h : s.ownsLane c.path.path l = false) :
    exec (.get c (.offset (0x2004 + 0x400 * l.val)) none none) s =
      .next (s.ok c "GET" (regLine (0x2004 + 0x400 * l.val) (hexReg 0#32))) := by
  rw [exec_get, doGet_one ht (by omega) (by omega) (regDom_eq_none (by omega)) (readReg_prio_other h)]

theorem get_invalid {c : Caller} {o : Nat} {s : State} (ht : Takes c s) (h : o % 4 ≠ 0 ∨ 0x40000 ≤ o) (f : Option (List Byte))
    (n : Option Nat) : exec (.get c (.offset o) f n) s = .next (s.fail c "GET" .range) := by
  simp only [exec_get, doGet, gate_takes ht, offset?_of_invalid h]

/-! ## SET (R343) -/

/-- A write of LANEn_PRIO by the lane's owner, and the reply with the value read after it. -/
theorem setAnswer_prio {c : Caller} {l : LaneId} {s : State} (h : s.ownsLane c.path.path l = true) (v : W32) :
    setAnswer c (0x2004 + 0x400 * l.val) v s =
      (withPrio s l (v.setWidth 2)).ok c "SET" (regLine (0x2004 + 0x400 * l.val) (hexReg ((v.setWidth 2).setWidth 32))) := by
  have h' : (withPrio s l (v.setWidth 2)).ownsLane c.path.path l = true := (ownsLane_withPrio s _ l _).trans h
  simp only [setAnswer, writeReg_prio h, holdsRc_prio, Bool.false_eq_true, if_false, readReg_prio h', lane_withPrio]

theorem offset?_prio (l : LaneId) : (RegRef.offset (0x2004 + 0x400 * l.val)).offset? = some (0x2004 + 0x400 * l.val) :=
  offset?_of_valid (by omega) (by omega)

theorem regFenced_prio (l : LaneId) (s : State) : regFenced (0x2004 + 0x400 * l.val) s = false :=
  regFenced_lane (l := l) (k := 4) (by omega) (by omega) s

theorem doSet_prio {c : Caller} {l : LaneId} {v : Nat} {s : State} (ht : Takes c s) (hv : v < 2 ^ 32) :
    doSet c (.offset (0x2004 + 0x400 * l.val)) v s = setAnswer c (0x2004 + 0x400 * l.val) (w32 v) s := by
  simp only [doSet, gate_takes ht, offset?_prio, if_neg (Nat.not_le.mpr hv), regFenced_prio, Bool.false_eq_true, if_false]

theorem set_unknown {c : Caller} {m : List Byte} {s : State} (ht : Takes c s) (h : regOffset m = none) (v : Nat) :
    exec (.set c (.name m) v) s = .next (s.fail c "SET" .range) := by
  simp only [exec_set, doSet, gate_takes ht, RegRef.offset?, h]

theorem set_large {c : Caller} {v : Nat} {s : State} (ht : Takes c s) (hv : 2 ^ 32 ≤ v) (r : RegRef) :
    exec (.set c r v) s = .next (s.fail c "SET" .range) := by
  simp only [exec_set, doSet, gate_takes ht, if_pos hv]
  cases r.offset? <;> rfl

theorem clearOnes_prio (w : W32) : clearOnes [prioField] w = w := rfl

theorem doSetField_prio {c : Caller} {l : LaneId} {v : Nat} {s : State} (ht : Takes c s) (hv : v < 4)
    (h : s.ownsLane c.path.path l = true) :
    doSetField c (.offset (0x2004 + 0x400 * l.val)) (ascii "PRIO") v s =
      setAnswer c (0x2004 + 0x400 * l.val) (putFld ((s.lane l).prio.setWidth 32) 0 2 v) s := by
  have hw : ¬2 ^ prioField.width ≤ v := Nat.not_le.mpr hv
  simp only [doSetField, gate_takes ht, offset?_prio, fieldAt_prio, if_neg hw, holdsRc_prio, regFenced_prio, Bool.false_eq_true,
    if_false, readReg_prio h, regFields_prio, clearOnes_prio]
  rfl

theorem setField_prio_large {c : Caller} {v : Nat} {s : State} (ht : Takes c s) (hv : 4 ≤ v) (l : LaneId) :
    exec (.setField c (.offset (0x2004 + 0x400 * l.val)) (ascii "PRIO") v) s = .next (s.fail c "SET" .range) := by
  have hw : 2 ^ prioField.width ≤ v := hv
  simp only [exec_setField, doSetField, gate_takes ht, offset?_prio, fieldAt_prio, if_pos hw]

theorem set_prio {c : Caller} {l : LaneId} {v : Nat} {s : State} (ht : Takes c s) (hv : v < 2 ^ 32)
    (h : s.ownsLane c.path.path l = true) :
    exec (.set c (.offset (0x2004 + 0x400 * l.val)) v) s =
      .next ((withPrio s l (BitVec.ofNat 2 v)).ok c "SET" (regLine (0x2004 + 0x400 * l.val) (hexReg (w32 (v % 4))))) := by
  have e : (w32 v).setWidth 2 = BitVec.ofNat 2 v := BitVec.setWidth_ofNat_of_le (by decide) v
  rw [exec_set, doSet_prio ht hv, setAnswer_prio h, e, setWidth_two_roundTrip]

theorem setField_prio {c : Caller} {l : LaneId} {v : Nat} {s : State} (ht : Takes c s) (hv : v < 4)
    (h : s.ownsLane c.path.path l = true) :
    exec (.setField c (.offset (0x2004 + 0x400 * l.val)) (ascii "PRIO") v) s =
      .next ((withPrio s l (BitVec.ofNat 2 v)).ok c "SET" (regLine (0x2004 + 0x400 * l.val) (hexReg (w32 v)))) := by
  rw [exec_setField, doSetField_prio ht hv h, setAnswer_prio h, setWidth_putFld_low, setWidth_two_roundTrip, Nat.mod_eq_of_lt hv]

/-- The priority that a call left is the lane's, once its reply waits to go out. -/
theorem prio_ok_withPrio (s : State) (l : LaneId) (v : BitVec 2) (c : Caller) (verb : String) (fs : List (String × Val)) :
    (((withPrio s l v).ok c verb fs).lane l).prio = v := by
  have hl : ((withPrio s l v).ok c verb fs).lane l = (withPrio s l v).lane l := by simp [State.lane]
  rw [hl, lane_withPrio]

/-- A call that sets a lane's priority and succeeds. -/
theorem next_of_prio {i : Instr} {c : Caller} {l : LaneId} {p : BitVec 2} {fs : List (String × Val)} {s : State}
    (h : exec i s = .next ((withPrio s l p).ok c "SET" fs)) :
    ∃ t, exec i s = .next t ∧ (t.lane l).prio = p ∧ t.quiet = (withPrio s l p).quiet ∧ Replied c (okLine c "SET" fs) t :=
  ⟨_, h, prio_ok_withPrio s l p c _ fs, ok_quiet, ok_replied⟩

/-! ## The two-word registers and the Quad-SPI counts (R453, R371) -/

@[simp] theorem answered_lanes {s : State} {p : Path} {v : W32} : (s.answered p v).lanes = s.lanes := by cases p <;> rfl
@[simp] theorem answered_mem {s : State} {p : Path} {v : W32} : (s.answered p v).mem = s.mem := by cases p <;> rfl
@[simp] theorem answered_shadows {s : State} {p : Path} {v : W32} : (s.answered p v).shadows = s.shadows := by cases p <;> rfl

/-- A read of the tick count's lower half saves the upper half for the path. -/
theorem loRegisterRead_tick (p : Path) (s : State) :
    loRegisterRead p .tick s =
      (s.setShadow p fun x => { x with tick := some ((s.clk.tick >>> 32).setWidth 32) }).answered p (s.clk.tick.setWidth 32) := by
  have hr : readReg p LoReg.tick.offset s = readGlobal p 4 s :=
    readReg_eq_readBlock (o := 0x1004) (by decide) (regDom_eq_none (by decide)) p s
  simp [loRegisterRead, hr, readGlobal, readLo]

/-- A read of the lower half of a lane's seed by its owner saves the upper half for the path. -/
theorem loRegisterRead_spin {p : Path} {l : LaneId} {s : State} (h : s.ownsLane p l = true) :
    loRegisterRead p (.spin l) s =
      (s.setShadow p fun x => { x with spin := put x.spin l (some (((s.lane l).spin >>> 32).setWidth 32)) }).answered p
        ((s.lane l).spin.setWidth 32) := by
  have ho : (LoReg.spin l).offset = 0x2000 + 0x400 * l.val + 0x18 := by simp only [LoReg.offset]; omega
  have hr : readReg p (LoReg.spin l).offset s = readLane p l 0x18 s := readReg_lane ho (by decide) (by decide) p s
  simp [loRegisterRead, hr, readLane, h, readLo]

theorem loRegisterRead_tick_host (s : State) :
    ∃ t, exec (.loRegisterRead .host .tick) s = .next t ∧ t.host = { s.host with answer := (0#8, [s.clk.tick.setWidth 32]) } ∧
      t.shadows[Path.host.idx].tick = some ((s.clk.tick >>> 32).setWidth 32) ∧ t = { s with host := t.host, shadows := t.shadows } := by
  refine ⟨_, congrArg Host.Outcome.next (loRegisterRead_tick .host s), rfl, ?_, rfl⟩
  simp [upd]

theorem loRegisterRead_spin_saves {p : Path} {l : LaneId} {s : State} (h : s.ownsLane p l = true) :
    ∃ t, exec (.loRegisterRead p (.spin l)) s = .next t ∧
      t.shadows[p.idx].spin[l] = some (((s.lane l).spin >>> 32).setWidth 32) ∧ t.lanes = s.lanes ∧ t.mem = s.mem := by
  refine ⟨_, congrArg Host.Outcome.next (loRegisterRead_spin h), ?_, by simp, by simp⟩
  simp [upd, put]

theorem hostQspiRead_host (s : State) :
    hostQspiRead .host s = { s with host := { s.host with
      answer := (0#8, [w32 (s.host.dropped.toNat * 65536 + s.host.notReady.toNat)]), dropped := 0#16, notReady := 0#16 } } := by
  simp only [hostQspiRead, readHostQspi, atBit_halves, State.answered]

/-! ## The statement -/

/-- Settles O48: its clauses in their order, each from the lemma on its command and register. -/
theorem registersAreReadAndWritten : Obligations.RegistersAreReadAndWritten :=
  ⟨fun _ _ v _ h => next_of_write (by omega) (writeReg_prio h v),
   fun _ _ v _ h => next_of_write (by omega) (writeReg_prio_other h v),
   fun p v s => next_of_write (by decide) (writeReg_lost p v s),
   fun _ v s hp => next_of_write (by decide) (writeReg_irq hp v s),
   fun _ v s hp => next_of_write (by decide) (writeReg_irq_other hp v s),
   fun _ v s hp => next_of_write (by decide) (writeReg_irqEn hp v s),
   fun _ _ s hp hv => next_of_write (by decide) (writeReg_logLost hp hv s),
   fun p v s => next_of_write (by decide) (writeReg_rotPace p v s),
   fun p _ v _ h => next_of_write (by omega) (writeReg_regionBase_free h p v),
   fun p _ v _ h => next_of_write (by omega) (writeReg_regionSize_valid h p v),
   fun p _ v s h => registerWrite_unwritable h p v s,
   fun _ k _ ht => next_of_ok (get_tally ht k),
   fun _ _ _ _ ht hn h => ⟨_, get_laneWords ht hn h, okWith_quiet, okWith_replied, fun k hk =>
     okWith_data (List.mem_map.mpr ⟨k, List.mem_range.mpr hk, rfl⟩)⟩,
   fun _ _ _ ht h => next_of_ok (get_prio_other ht h),
   fun c o f n s ht h => next_of_fail (get_invalid ht h f n),
   fun _ _ v _ ht h => next_of_fail (set_unknown ht h v),
   fun _ _ _ _ ht hv h => next_of_prio (set_prio ht hv h),
   fun _ o _ _ ht hv => next_of_fail (set_large ht hv (.offset o)),
   fun _ _ _ _ ht hv h => next_of_prio (setField_prio ht hv h),
   fun _ l _ _ ht hv => next_of_fail (setField_prio_large ht hv l),
   loRegisterRead_tick_host,
   fun _ _ _ h => loRegisterRead_spin_saves h,
   fun s => congrArg Host.Outcome.next (hostQspiRead_host s)⟩

end Sys2Proof.Registers
end

section
/-! PROOFS. The floor of VDD_CORE (R14, R403): what a reading below 500 mV does to the rail and to the deadline counts, and the
statement about FABRIC_STOP_FLOOR and FABRIC_RESUME. The counts stop in steady time, which goes with SLOW (R31, R387), where the
statement reads the REF tick count: the two part while REF comes from the drifting ring oscillator. -/

namespace Sys2Proof.Floor
open Sys2Proof Sys2Proof.Machine Sys2Proof.Laws Sys2Proof.Registers

/-! ## Deadline counts that stop (R219) -/

theorem watch_stopped (now : W64) (r : HeatRun) : r.watch now true = r.pause now := by simp [HeatRun.watch]

theorem runTicks_pause_of_counting {r : HeatRun} {t : W64} (h : r.since = some t) (now : W64) :
    (r.pause now).runTicks = r.runTicks + steadySpan t now := by simp [HeatRun.pause, h]

/-! ## The floor (R14, R403) -/

/-- The rail block after a reading below the floor. -/
def railStopped (mv : BitVec 10) (r : Rail) : Rail := { r with floor := true, faultN := true, meas := mv }

/-- The lanes, with every deadline count stopped at the time `now`. -/
def lanesStopped (now : W64) (s : State) : Vector Lane 4 :=
  mapIdx s.lanes fun _ (L : Lane) => { L with runs := L.runs.map fun r => r.watch now true }

theorem getElem_lanesStopped (now : W64) (s : State) (l : LaneId) :
    (lanesStopped now s)[l] = { s.lane l with runs := (s.lane l).runs.map fun r => r.pause now } := by
  simp [lanesStopped, mapIdx, State.lane, watch_stopped]

/-- Below the floor no String Port halt matters: every count stops, at the steady count. -/
theorem watch_of_floor {s : State} (h : s.rail.floor = true) : s.watch = { s with lanes := lanesStopped s.steady s } := by
  simp [State.watch, lanesStopped, h]

theorem railMeasured_of_lt {mv : BitVec 10} (h : mv.toNat < 500) (s : State) :
    railMeasured mv s = { s with rail := railStopped mv s.rail, lanes := lanesStopped s.steady s } := by
  rw [railMeasured, if_pos h]
  exact watch_of_floor rfl

theorem exec_fabricStopFloor (mv : BitVec 10) (s : State) : exec (.fabricStopFloor mv) s = .next (fabricStopFloor mv s) := rfl

/-- FABRIC_STOP_FLOOR below 500 mV stops the deadline counts at the steady count, not at the REF tick count. -/
theorem exec_fabricStopFloor_of_lt {mv : BitVec 10} (h : mv.toNat < 500) (s : State) :
    exec (.fabricStopFloor mv) s =
      .next { s with rail := railStopped mv s.rail, lanes := lanesStopped s.steady s } := by
  rw [exec_fabricStopFloor, fabricStopFloor, if_pos h, railMeasured_of_lt h]

/-! ## A timebase that has drifted (R31) -/

/-- A heat of L1 whose segment has run, and counted, since steady time 0. -/
def countingRun : HeatRun := { seq := 0#32, st := .segment, started := true, open_ := [0], since := some 0#64 }

/-- Eight SLOW edges after that start, which are 9,375 steady ticks, the ring oscillator has made 10,000 REF ticks. -/
def drifted : State :=
  { State.reset with clk := { tick := 10000#64, slow := 8#32, degraded := true } }.setLane 1 fun L => { L with runs := [countingRun] }

theorem lane_drifted : (drifted.lane 1).runs = [countingRun] := by rw [drifted, lane_setLane_self]

/-- What the deadline watchdog of L1 has counted, once the counts stop at `now`. -/
theorem runTicks_lanesStopped_drifted (now : W64) :
    (lanesStopped now drifted)[(1 : LaneId)].runs.map HeatRun.runTicks = [steadySpan 0#64 now] := by
  have hrun : (countingRun.pause now).runTicks = steadySpan 0#64 now := (runTicks_pause_of_counting rfl now).trans (Nat.zero_add _)
  rw [getElem_lanesStopped, lane_drifted]
  simp only [List.map_cons, List.map_nil, hrun]

/-! ## The statement -/

/-- Refutes O12, in its first clause: 499 mV stops the count of `drifted` at its 9,375 steady ticks, where the statement has it
stop at the 10,000 of the REF tick count. -/
theorem not_fabricStopsBelowFloor : ¬ Obligations.FabricStopsBelowFloor := by
  intro h
  obtain ⟨hexec, hwatch⟩ := h.1 499#10 drifted (by decide)
  have hlanes : lanesStopped drifted.steady drifted = lanesStopped drifted.clk.tick drifted := by
    rw [exec_fabricStopFloor_of_lt (by decide), hwatch] at hexec
    exact congrArg State.lanes (Host.Outcome.next.inj hexec)
  have hcount : [steadySpan 0#64 drifted.steady] = [steadySpan 0#64 drifted.clk.tick] := by
    rw [← runTicks_lanesStopped_drifted, hlanes, runTicks_lanesStopped_drifted]
  exact absurd hcount (by decide)

end Sys2Proof.Floor
end

section
/-! PROOFS. Crossings and arbiters: the crossing as a channel (R31), the round-robin order and who a grant serves (R34, R35), and
the statements about CROSSING_TRANSFER and ARBITER_GRANT. -/

namespace Sys2Proof.Arbiters
open Sys2Proof Sys2Proof.Machine

/-! ## Crossings (R31) -/

theorem crossingTransfer_absent {c : Clk} {s : State} (h : s.clk.absent.getLsbD c.val = true) (inbound : Bool) (word : Option W64) :
    crossingTransfer c inbound word s = s := by rw [crossingTransfer, if_pos h]

theorem crossingTransfer_send_inbound {c : Clk} {s : State} (h : s.clk.absent.getLsbD c.val = false)
    (hroom : s.clk.inbound[c].length < 4) (w : W64) :
    crossingTransfer c true (some w) s =
      { s with clk := { s.clk with inbound := put s.clk.inbound c (s.clk.inbound[c] ++ [w]) } } := by
  simp only [crossingTransfer, h, hroom, Bool.false_eq_true, ↓reduceIte]

theorem crossingTransfer_send_outbound {c : Clk} {s : State} (h : s.clk.absent.getLsbD c.val = false)
    (hroom : s.clk.outbound[c].length < 4) (w : W64) :
    crossingTransfer c false (some w) s =
      { s with clk := { s.clk with outbound := put s.clk.outbound c (s.clk.outbound[c] ++ [w]) } } := by
  simp only [crossingTransfer, h, hroom, Bool.false_eq_true, ↓reduceIte]

theorem crossingTransfer_full_inbound {c : Clk} {s : State} (hfull : 4 ≤ s.clk.inbound[c].length) (w : W64) :
    crossingTransfer c true (some w) s = s := by
  cases h : s.clk.absent.getLsbD c.val with
  | true => exact crossingTransfer_absent h _ _
  | false => simp only [crossingTransfer, h, Nat.not_lt.mpr hfull, Bool.false_eq_true, ↓reduceIte]

theorem crossingTransfer_take_inbound {c : Clk} {s : State} {w : W64} {r : List W64}
    (h : s.clk.absent.getLsbD c.val = false) (hq : s.clk.inbound[c] = w :: r) :
    crossingTransfer c true none s =
      { s with clk := { s.clk with inbound := put s.clk.inbound c r, delivered := put s.clk.delivered c (some w) } } := by
  simp only [crossingTransfer, h, hq, Bool.false_eq_true, ↓reduceIte]

/-- Settles O22, clause by clause from what a transfer does with a word, with room, and without the clock. -/
theorem crossingsAreFifos : Obligations.CrossingsAreFifos :=
  ⟨fun _ w _ h hroom => congrArg Host.Outcome.next (crossingTransfer_send_inbound h hroom w),
   fun _ w _ h hroom => congrArg Host.Outcome.next (crossingTransfer_send_outbound h hroom w),
   fun _ w _ hfull => congrArg Host.Outcome.next (crossingTransfer_full_inbound hfull w),
   fun _ _ _ _ h hq => congrArg Host.Outcome.next (crossingTransfer_take_inbound h hq),
   fun _ b w _ h => congrArg Host.Outcome.next (crossingTransfer_absent h b w)⟩

/-! ## The round-robin order (R35): place d after the last winner is input (last + 1 + d) mod n -/

/-- Every input has a place in the order. -/
theorem exists_place {n k : Nat} (hk : k < n) (last : Nat) : ∃ d, d < n ∧ (last + 1 + d) % n = k := by
  have hn : 0 < n := Nat.zero_lt_of_lt hk
  refine ⟨(k + (n - (last + 1) % n)) % n, Nat.mod_lt _ hn, ?_⟩
  have hcycle : (last + 1) % n + (k + (n - (last + 1) % n)) = k + n := by
    have := Nat.mod_lt (last + 1) hn
    omega
  rw [Nat.add_mod_mod, ← Nat.mod_add_mod, hcycle, Nat.add_mod_right, Nat.mod_eq_of_lt hk]

/-- A grant to an input at an earlier place brings a waiting one nearer. -/
theorem place_after {n last d e : Nat} (h : e < d) : ((last + 1 + e) % n + 1 + (d - e - 1)) % n = (last + 1 + d) % n := by
  rw [Nat.add_assoc, Nat.mod_add_mod]
  congr 1
  omega

/-- An input that waits is passed over only for one at an earlier place. -/
theorem nextInput_of_waiting {n last d : Nat} {w : BitVec 24} (hd : d < n) (hw : w.getLsbD ((last + 1 + d) % n) = true) :
    ∃ e, e ≤ d ∧ nextInput n last w = some ((last + 1 + e) % n) := by
  have hsome : ((List.range n).find? fun e => w.getLsbD ((last + 1 + e) % n)).isSome = true :=
    List.find?_isSome.mpr ⟨d, List.mem_range.mpr hd, hw⟩
  obtain ⟨e, he⟩ := Option.isSome_iff_exists.mp hsome
  refine ⟨e, ?_, ?_⟩
  · rw [List.find?_range_eq_some] at he
    obtain ⟨-, -, hfirst⟩ := he
    refine Nat.le_of_not_lt fun hlt => ?_
    have hpassed := hfirst d hlt
    rw [hw] at hpassed
    exact Bool.noConfusion hpassed
  · rw [nextInput, List.find?_map]
    exact congrArg (Option.map fun e => (last + 1 + e) % n) he

/-! ## Grants (R34, R35) -/

theorem get?_set_self {α : Type} (t : Tab α) (k : Nat) (v : α) : Tab.get? (Tab.set t k v) k = some v := by
  induction t with
  | nil => simp [Tab.set, Tab.get?]
  | cons p r ih =>
    obtain ⟨j, x⟩ := p
    rw [Tab.set]
    split
    · simp [Tab.get?]
    · split
      · simp [Tab.get?]
      · next hne => simpa [Tab.get?, hne] using ih

/-- The arbiter of number k has served input w, which holds its resource. -/
def grantTo (k w : Nat) (s : State) : State :=
  { s with clk := { s.clk with arbLast := Tab.set s.clk.arbLast k w, arbHeld := Tab.set s.clk.arbHeld k w } }

theorem last_grantTo (k w : Nat) (s : State) : Tab.get? (grantTo k w s).clk.arbLast k = some w := get?_set_self _ k w

/-- Whom an arbiter that serves in turn serves next. -/
def turnWinner (a : Arbiter) (waiting : BitVec 24) (first : Fin 24) (s : State) : Option Nat :=
  match Tab.get? s.clk.arbLast a.key.1 with
  | some last => nextInput a.key.2 last waiting
  | none => if first.val < a.key.2 ∧ waiting.getLsbD first.val = true then some first.val else none

theorem exec_arbiterGrant (a : Arbiter) (waiting : BitVec 24) (first : Fin 24) (s : State) :
    exec (.arbiterGrant a waiting first) s = .next (arbiterGrant a waiting first s) := rfl

/-- The arbiters of the clocked domains, which serve by rank (R38), have the numbers from 520 up. -/
theorem domain_key (d : Ranked) : 520 ≤ (Arbiter.domain d).key.1 := by cases d <;> decide

theorem arbiterGrant_eq {a : Arbiter} (ha : a.key.1 < 520) (waiting : BitVec 24) (first : Fin 24) (s : State) :
    arbiterGrant a waiting first s =
      match turnWinner a waiting first s with
      | some w => grantTo a.key.1 w s
      | none => s := by
  cases a with
  | domain d => exact absurd ha (Nat.not_lt.mpr (domain_key d))
  | _ => rfl

theorem arbiterGrant_of_turnWinner {a : Arbiter} (ha : a.key.1 < 520) {waiting : BitVec 24} {first : Fin 24} {s : State} {w : Nat}
    (hw : turnWinner a waiting first s = some w) : arbiterGrant a waiting first s = grantTo a.key.1 w s := by
  rw [arbiterGrant_eq ha, hw]

/-- Of an arbiter that has granted before, an input that waits at place d is served by one of the next d + 1 grants. -/
theorem served_in_turn {a : Arbiter} (ha : a.key.1 < 520) (ws : List (BitVec 24 × Fin 24)) :
    ∀ (d last : Nat) (s : State), Tab.get? s.clk.arbLast a.key.1 = some last → d < ws.length → d < a.key.2 →
      (∀ w ∈ ws, w.1.getLsbD ((last + 1 + d) % a.key.2) = true) →
      ∃ m, m ≤ d ∧ Tab.get? (execAll ((ws.take (m + 1)).map fun w => Instr.arbiterGrant a w.1 w.2) s).clk.arbLast a.key.1 =
        some ((last + 1 + d) % a.key.2) := by
  induction ws with
  | nil => intro d _ _ _ hd; exact absurd hd (Nat.not_lt_zero d)
  | cons w ws ih =>
    intro d last s hlast hlen hd hwait
    obtain ⟨e, hed, hnext⟩ := nextInput_of_waiting hd (hwait w List.mem_cons_self)
    have hgrant : exec (.arbiterGrant a w.1 w.2) s = .next (grantTo a.key.1 ((last + 1 + e) % a.key.2) s) := by
      rw [exec_arbiterGrant, arbiterGrant_of_turnWinner ha (by rw [turnWinner, hlast]; exact hnext)]
    rcases Nat.eq_or_lt_of_le hed with rfl | hlt
    · exact ⟨0, Nat.zero_le _, by simp [execAll, hgrant, last_grantTo]⟩
    · have hplace := place_after (n := a.key.2) (last := last) hlt
      rw [List.length_cons] at hlen
      obtain ⟨m, hm, hserved⟩ := ih (d - e - 1) _ _ (last_grantTo _ _ s) (by omega) (by omega)
        fun v hv => hplace ▸ hwait v (List.mem_cons_of_mem _ hv)
      rw [hplace] at hserved
      exact ⟨m + 1, by omega, by simpa [execAll, hgrant] using hserved⟩

/-- Settles O23: each of the n grants serves the input or brings its place in the order nearer. -/
theorem arbitersAreFair : Obligations.ArbitersAreFair := by
  refine ⟨fun a k ws s ha hk hlen hwait hlast => ?_, fun a w f s ha hlast hf hw => ?_⟩
  · obtain ⟨last, hlast⟩ := Option.isSome_iff_exists.mp hlast
    obtain ⟨d, hd, rfl⟩ := exists_place hk last
    obtain ⟨m, hm, hserved⟩ := served_in_turn ha ws d last s hlast (hlen ▸ hd) hd (List.all_eq_true.mp hwait)
    exact ⟨m, Nat.lt_of_le_of_lt hm hd, hserved⟩
  · have hfirst : turnWinner a w f s = some f.val := by rw [turnWinner, hlast]; exact if_pos ⟨hf, hw⟩
    exact congrArg Host.Outcome.next (arbiterGrant_of_turnWinner ha hfirst)

end Sys2Proof.Arbiters
end

section
/-! PROOFS. The governor's tick (R404): its step, and what the tick leaves of the rail, with and without a request, and the
statement about GOVERNOR_TICK. -/

namespace Sys2Proof.Governor
open Sys2Proof Sys2Proof.Machine Sys2Proof.Laws

/-! ## The step (R404) -/

theorem governorStep_above_ceiling {mw : Nat} {s : State} (h : fld s.rail.ctrl 16 13 < mw) (rate : Nat) :
    governorStep rate mw s = -10 := by simp [governorStep, h]

/-- The rail is held to 550 to 880 mV. -/
theorem stepped_bounds (set : Nat) (step : Int) : 550 ≤ stepped set step ∧ stepped set step ≤ 880 := by
  unfold stepped
  omega

/-! ## The tick, at the time `u` that it moves to -/

/-- The step that the governor takes at `u` for a power of `mw`, from the rates measured there. -/
def stepAt (mw : W16) (u : State) : Int := governorStep (u.topRate (u.shellsIn .active)) mw.toNat u.measureHeats.govRead

/-- The state at `u` once the rate, the power, the time and the stroke counts are read and the heats measured. -/
def measured (mw : W16) (u : State) : State :=
  u.measureHeats.govRead.setRail fun r => { r with
    rate := BitVec.ofNat 16 (Nat.min (u.topRate (u.shellsIn .active)) 0xFFFF), powerMw := mw, hidden := u.confidential }

/-- What a tick shows on the rail whatever its step. -/
def Reads (mw : W16) (u : State) (r : Rail) : Prop :=
  r.rate = BitVec.ofNat 16 (Nat.min (u.topRate (u.shellsIn .active)) 0xFFFF) ∧ r.powerMw = mw ∧
    r.govTick = u.clk.tick ∧ ∀ i : ShellId, r.govCount[i] = (u.shell i).strokes

theorem measured_reads (mw : W16) (u : State) : Reads mw u (measured mw u).rail :=
  ⟨rfl, rfl, rfl, fun i => by simp [measured, State.shell]⟩

theorem governorTick_of_floor {s : State} (h : s.rail.floor = true) (late mw : W16) : governorTick late mw s = s := by
  simp [governorTick, h]

section
variable {late mw : W16} {s u : State} (hfloor : s.rail.floor = false) (hcox : s.start.phase.coxRuns = true)
  (hu : elapseTo (s.rail.govTick.toNat + governorPeriod + late.toNat) s = u) (hscrub : (u.lanes.any fun l => l.st == .scrub) = false)
include hfloor hcox hu hscrub

theorem governorTick_eq :
    governorTick late mw s =
      if u.rail.gov = .auto ∧ stepAt mw u ≠ 0 then railRequest (stepped u.rail.requested.toNat (stepAt mw u)) (measured mw u)
      else measured mw u := by
  have hruns : (s.rail.floor || !s.start.phase.coxRuns) = false := by rw [hfloor, hcox]; rfl
  unfold governorTick
  rw [hruns, hu]
  simp only [hscrub]
  rfl

theorem governorTick_of_step (hauto : u.rail.gov = .auto) (hreq : u.rail.req = none) (hstep : stepAt mw u ≠ 0) :
    governorTick late mw s = railSend (stepped u.rail.requested.toNat (stepAt mw u)) 0 (measured mw u) := by
  have hidle : (measured mw u).rail.req.isSome = false := by simp [measured, hreq]
  rw [governorTick_eq hfloor hcox hu hscrub, if_pos ⟨hauto, hstep⟩, railRequest, hidle]
  rfl

theorem governorTick_of_no_step (h : u.rail.gov ≠ .auto ∨ stepAt mw u = 0) : governorTick late mw s = measured mw u := by
  rw [governorTick_eq hfloor hcox hu hscrub, if_neg]
  rintro ⟨hauto, hstep⟩
  exact h.elim (absurd hauto) hstep

end

/-- Settles O16: with a step the tick sends a request from what it measured, and without one it only measures. -/
theorem governorSteps : Obligations.GovernorSteps := by
  refine ⟨fun late mw s u hfloor hcox hu hscrub hauto hreq hstep => ?_, fun late mw s u hfloor hcox hu hscrub h => ?_,
    fun late mw s h => congrArg Host.Outcome.next (governorTick_of_floor h late mw), fun rate _ _ h => governorStep_above_ceiling h rate⟩
  · obtain ⟨hlow, hhigh⟩ := stepped_bounds u.rail.requested.toNat (stepAt mw u)
    obtain ⟨hrate, hpower, htick, hcount⟩ := measured_reads mw u
    exact ⟨_, congrArg Host.Outcome.next (governorTick_of_step hfloor hcox hu hscrub hauto hreq hstep),
      hrate, hpower, rfl, hlow, hhigh, htick, hcount, rfl⟩
  · obtain ⟨hrate, hpower, htick, hcount⟩ := measured_reads mw u
    exact ⟨_, congrArg Host.Outcome.next (governorTick_of_no_step hfloor hcox hu hscrub h),
      hrate, hpower, htick, hcount, rfl, rfl, rfl⟩

end Sys2Proof.Governor
end

section
/-! PROOFS. What a restart cause changes (R218, R222): shells, lanes, tallies and decoders, and nothing else. -/

namespace Sys2Proof.Restarts
open Sys2Proof Sys2Proof.Machine

/-- From s to t heats restart: beside shells, lanes, tallies and the decoders with their requests nothing changes. -/
def RestartOnly (s t : State) : Prop :=
  ∃ shells lanes tallies decoder decQueue, t = { s with
    shells := shells, lanes := lanes, tallies := tallies, mem := { s.mem with decoder := decoder, decQueue := decQueue } }

namespace RestartOnly

theorem refl (s : State) : RestartOnly s s := ⟨_, _, _, _, _, rfl⟩

theorem trans {s t u : State} : RestartOnly s t → RestartOnly t u → RestartOnly s u := by
  rintro ⟨_, _, _, _, _, rfl⟩ ⟨_, _, _, _, _, rfl⟩
  exact ⟨_, _, _, _, _, rfl⟩

theorem foldl {α : Type} {f : State → α → State} (hf : ∀ s x, RestartOnly s (f s x)) (l : List α) (s : State) :
    RestartOnly s (l.foldl f s) := List.foldlRecOn l f (refl s) fun t ht x _ => ht.trans (hf t x)

theorem clk {s t : State} : RestartOnly s t → t.clk = s.clk := by rintro ⟨_, _, _, _, _, rfl⟩; rfl
theorem rail {s t : State} : RestartOnly s t → t.rail = s.rail := by rintro ⟨_, _, _, _, _, rfl⟩; rfl
theorem eye {s t : State} : RestartOnly s t → t.eye = s.eye := by rintro ⟨_, _, _, _, _, rfl⟩; rfl
theorem noref {s t : State} : RestartOnly s t → t.mem.noref = s.mem.noref := by rintro ⟨_, _, _, _, _, rfl⟩; rfl
theorem dram {s t : State} : RestartOnly s t → t.mem.dram = s.mem.dram := by rintro ⟨_, _, _, _, _, rfl⟩; rfl
theorem kslot {s t : State} : RestartOnly s t → t.mem.kslot = s.mem.kslot := by rintro ⟨_, _, _, _, _, rfl⟩; rfl

end RestartOnly

theorem stopShells_only (s : State) (l : LaneId) (q : W32) : RestartOnly s (s.stopShells l q) := ⟨_, _, _, _, _, rfl⟩

theorem setRun_only (s : State) (l : LaneId) (q : W32) (f : HeatRun → HeatRun) : RestartOnly s (s.setRun l q f) := ⟨_, _, _, _, _, rfl⟩

theorem tallySet_only (s : State) (k : Nat) (v : W32) : RestartOnly s (s.tallySet k v) := ⟨_, _, _, _, _, rfl⟩

theorem zeroTallies_only (s : State) (l : LaneId) (a : AcceptRec) (e : Entry) : RestartOnly s (s.zeroTallies l a e) := by
  refine RestartOnly.foldl (fun s k => ?_) _ s
  split
  · exact tallySet_only s _ _
  · exact .refl s

theorem restartOne_only (l : LaneId) (q : W32) (s : State) : RestartOnly s (restartOne l q s) := by
  have hrun : RestartOnly s ((s.stopShells l q).setRun l q fun r => (r.pause s.steady).restart) :=
    (stopShells_only s l q).trans (setRun_only _ l q _)
  unfold restartOne
  dsimp only
  split
  · exact hrun.trans (zeroTallies_only _ l _ _)
  · exact hrun

theorem restartHeat_only (l : LaneId) (q : W32) (s : State) : RestartOnly s (restartHeat l q s) := by
  unfold restartHeat
  split
  · split
    · exact RestartOnly.foldl (fun s k => restartOne_only l k s) _ s
    · exact .refl s
  · exact .refl s

theorem restartWhere_only (p : LaneId → HeatRun → Bool) (s : State) : RestartOnly s (restartWhere p s) := by
  unfold restartWhere
  refine RestartOnly.foldl (fun s l => ?_) _ s
  exact RestartOnly.foldl (fun s (r : HeatRun) => restartHeat_only l r.seq s) _ s

end Sys2Proof.Restarts
end

section
/-! PROOFS. Clocks: the clock's bit in LOST and in the absences, what every loss and return does (R32), what those of each clock
add (R304, R387), relocking, and the statement about CLOCK_LOST, CLOCK_RETURN and PLL_RELOCK. -/

namespace Sys2Proof.ClockLoss
open Sys2Proof Sys2Proof.Machine Sys2Proof.Laws Sys2Proof.Restarts

/-! ## Bits of clocks and domains -/

theorem getLsbD_oneBit {n k j : Nat} (hj : j < n) : (BitVec.ofNat n (2 ^ k)).getLsbD j = decide (k = j) := by
  rw [BitVec.getLsbD_ofNat, Nat.testBit_two_pow]
  simp [hj]

theorem getLsbD_or_self {n : Nat} (x : BitVec n) (c : Fin n) : (x ||| BitVec.ofNat n (2 ^ c.val)).getLsbD c.val = true := by
  rw [BitVec.getLsbD_or, getLsbD_oneBit c.isLt]
  simp

theorem getLsbD_or_ne {n : Nat} (x : BitVec n) {c d : Fin n} (h : c ≠ d) :
    (x ||| BitVec.ofNat n (2 ^ c.val)).getLsbD d.val = x.getLsbD d.val := by
  rw [BitVec.getLsbD_or, getLsbD_oneBit d.isLt, decide_eq_false (Fin.val_ne_of_ne h), Bool.or_false]

theorem getLsbD_clear_self {n : Nat} (x : BitVec n) (c : Fin n) : (x &&& ~~~BitVec.ofNat n (2 ^ c.val)).getLsbD c.val = false := by
  rw [BitVec.getLsbD_and, BitVec.getLsbD_not, getLsbD_oneBit c.isLt]
  simp

/-! ## Fenced domains (R2, R407): a bring-up that starts makes no domain up or fenced -/

theorem start_up_fenced (p : Power) (d : Dom) : (p.start d).up = p.up ∧ (p.start d).fenced = p.fenced := by
  unfold Power.start
  split
  · exact ⟨rfl, rfl⟩
  · split <;> exact ⟨rfl, rfl⟩

theorem next_up_fenced (p : Power) : p.next.up = p.up ∧ p.next.fenced = p.fenced :=
  List.foldlRecOn (motive := fun q : Power => q.up = p.up ∧ q.fenced = p.fenced) p.queue _ ⟨rfl, rfl⟩
    fun q ⟨hup, hfenced⟩ d _ => ⟨(start_up_fenced q d).1.trans hup, (start_up_fenced q d).2.trans hfenced⟩

theorem fence_fenced (p : Power) (d : Dom) : (p.fence d).fenced.getLsbD d.val = true := by
  rw [Power.fence, (next_up_fenced _).2]
  exact getLsbD_or_self p.fenced d

theorem fence_up (p : Power) (d : Dom) : (p.fence d).up.getLsbD d.val = false := by
  rw [Power.fence, (next_up_fenced _).1]
  exact getLsbD_clear_self p.up d

/-! ## The record of a clock -/

/-- A record goes to the end of the log, which holds the newest 512. -/
theorem logFault_eq (s : State) (r : FaultRec) :
    ∃ log, s.logFault r = { s with faults := { s.faults with log := log, logNum := s.faults.logNum + 1 } } ∧ r ∈ log := by
  have hkept : (s.faults.log ++ [r]).length - 512 ≤ s.faults.log.length := by simp
  refine ⟨_, rfl, ?_⟩
  rw [List.drop_append_of_le_length hkept]
  exact List.mem_append_right _ List.mem_cons_self

theorem logClock_eq (k : LogType) (c : Clk) (s : State) :
    ∃ log, logClock k c s = { s with faults := { s.faults with log := log, logNum := s.faults.logNum + 1 } } ∧
      ∃ r ∈ log, r.kind = k ∧ r.unit = (UnitRef.clock c).code ∧ r.cause = some .clockAbsent := by
  obtain ⟨log, hlog, hmem⟩ := logFault_eq s (s.faultRec k (.clock c) (some .clockAbsent))
  exact ⟨log, hlog, _, hmem, rfl, rfl, rfl⟩

/-! ## What every loss does (R32) -/

/-- Clock c shows in LOST and is absent. -/
def outOf (c : Clk) (s : State) : State := s.setClk fun k => { k with lost := k.lost ||| clkBit c, absent := k.absent ||| clkBit c }

/-- Clock c is out, one record tells it, and its crossings are empty. -/
def lossNoted (c : Clk) (s : State) : State := crossingsEnd c (logClock .clockLost c (outOf c s))

theorem clockLost_of_watched {c : Clk} {s : State} (h : clockWatched c s = true) : clockLost c s = clockFalls c (lossNoted c s) := if_pos h

theorem clockLost_of_absent {c : Clk} {s : State} (h : s.absent c = true) : clockLost c s = s := by simp [clockLost, clockWatched, h]

theorem lossNoted_lost (c : Clk) (s : State) : (lossNoted c s).clk.lost.getLsbD c.val = true := getLsbD_or_self s.clk.lost c

theorem lossNoted_absent (c : Clk) (s : State) : (lossNoted c s).clk.absent.getLsbD c.val = true := getLsbD_or_self s.clk.absent c

theorem lossNoted_absent_ne {c d : Clk} (h : c ≠ d) (s : State) : (lossNoted c s).absent d = s.absent d := getLsbD_or_ne s.clk.absent h

/-! ## What the loss of REF, of EYECK and of AUDO adds (R278, R304, R387) -/

/-- REF: the timebase is DEGRADED and DRAM in self-refresh, and heats that use it restart. -/
theorem refStops_only (s : State) :
    RestartOnly { s with clk := { s.clk with degraded := true }, mem := { s.mem with noref := true } } (refStops s) := by
  unfold refStops dramStops
  exact restartWhere_only _ _

theorem irDown_frame (now : W64) (e : Eye) : (e.irDown now).frame = e.frame := by
  unfold Eye.irDown
  split <;> rfl

theorem abandonFrame_eye (s : State) : ∃ e, abandonFrame s = { s with eye := e } := by
  unfold abandonFrame
  split <;> exact ⟨_, rfl⟩

/-- No frame is in progress any more, and nothing but the Eye changes. -/
theorem abandonFrames_eye (s : State) : ∃ e, abandonFrames s = { s with eye := e } ∧ e.frame = none := by
  obtain ⟨e, he⟩ := abandonFrame_eye s
  unfold abandonFrames
  rw [he]
  cases hframe : e.frame with
  | none => exact ⟨e, by simp [hframe], hframe⟩
  | some f => exact ⟨_, by simp only [hframe]; rfl, rfl⟩

/-- EPLL: beside the Eye, which loses READY and its frame, only the Call line and its clocks may change. -/
theorem epllStops_eye (s : State) : ∃ e call callClock bootClock,
    epllStops s = { s with eye := e, call := call, clk := { s.clk with callClock := callClock, bootClock := bootClock } } ∧
      e.ready = false ∧ e.frame = none := by
  obtain ⟨e, he, hframe⟩ := abandonFrames_eye s
  unfold epllStops
  rw [he]
  dsimp only
  split
  · exact ⟨_, _, _, _, rfl, rfl, (irDown_frame _ e).trans hframe⟩
  · exact ⟨_, _, _, _, rfl, rfl, (irDown_frame _ e).trans hframe⟩

/-- Capture and playback stop, and the Call line and the boot flash run from the EPLL. -/
def apllHalts (s : State) : State :=
  (s.setClk fun k => { k with callClock := .epll, bootClock := .epll }).setEar fun e => { e with audo := e.audo.halt }.halt

theorem apllStops_audo {s : State} (h : s.absent Clk.eyeck = false) :
    apllStops Clk.audo s = (apllHalts s).raise (.evt "EAR FAULT" []) := by
  have hmoves : callMoves s = s.setClk fun k => { k with callClock := .epll, bootClock := .epll } := by
    rw [callMoves, h]
    rfl
  rw [apllStops, hmoves]
  rfl

/-! ## Returns (R32) -/

/-- Clock c is not absent. -/
def backIn (c : Clk) (s : State) : State := s.setClk fun k => { k with absent := k.absent &&& ~~~clkBit c }

/-- Clock c runs again, and one record tells it. -/
def returnNoted (c : Clk) (s : State) : State := logClock .clockBack c (backIn c s)

theorem clockReturn_of_absent {c : Clk} {s : State} (h : s.absent c = true) : clockReturn c s = clockRises c (returnNoted c s) := if_pos h

theorem returnNoted_absent (c : Clk) (s : State) : (returnNoted c s).absent c = false := getLsbD_clear_self s.clk.absent c

/-- A frozen governor that is not fixed goes on by itself. -/
theorem snsBack_of_frozen {s : State} (hfrozen : s.rail.gov = .frozen) (hfix : bit s.rail.ctrl 31 = false) :
    snsBack s = { s with rail := { s.rail with gov := .auto } } := by
  simp [snsBack, State.setRail, hfrozen, hfix]

/-! ## Relocking (R387) -/

@[simp] theorem tries_setTries (k : Clocks) (n : Nat) (p : Pll) : (k.setTries n p).tries p = n := by cases p <;> rfl

/-- One more relock of loop p has failed. -/
def tried (p : Pll) (s : State) : State := s.setClk fun k => k.setTries (k.tries p + 1) p

section
variable {p : Pll} {s : State} (hdown : p.down s = true)
include hdown

theorem pllRelock_failed (htries : s.clk.tries p < 3) :
    pllRelock p false s = if s.clk.tries p + 1 = 3 then relockGivenUp p (tried p s) else tried p s := by
  simp [pllRelock, hdown, htries, tried]

theorem pllRelock_locked (htries : s.clk.tries p < 3) :
    pllRelock p true s = (p.clocks.foldl (fun s c => clockReturn c s) s).setClk fun k => k.setTries 0 p := by
  simp [pllRelock, hdown, htries]

end

theorem epll_down {s : State} (h : s.absent Clk.eyeck = true) : Pll.down .epll s = true := by simp [Pll.down, Pll.clocks, h]

/-- EPLL has locked: EYECK is back, no tries are counted, and the Eye is to be calibrated. -/
theorem pllRelock_epll_locked {s : State} (h : s.absent Clk.eyeck = true) (htries : s.clk.tries .epll < 3) :
    pllRelock .epll true s =
      ((returnNoted Clk.eyeck s).setClk fun k => { k with epllTries := 0 }).setEye fun e => { e with ready := false } := by
  rw [pllRelock_locked (epll_down h) htries]
  show (clockReturn Clk.eyeck s).setClk (fun k => k.setTries 0 .epll) = _
  rw [clockReturn_of_absent h]
  rfl

/-- APLL fails for the third time: the Ear's domain is fenced, which a record tells. -/
theorem pllRelock_apll_givenUp {s : State} (hdown : Pll.down .apll s = true) (htries : s.clk.apllTries = 2) :
    pllRelock .apll false s = relockGivenUp .apll (tried .apll s) := by
  have htries : s.clk.tries .apll = 2 := htries
  rw [pllRelock_failed hdown (by omega), if_pos (by omega)]

/-! ## The statement -/

/-- Settles O24: what every loss or return does, then what the clock or the loop of the clause adds. -/
theorem clocksAreLostAndReturn : Obligations.ClocksAreLostAndReturn := by
  refine ⟨fun s h => ?slowLost, fun s h => ?refLost, fun s h => ?eyeckLost, fun s h heyeck => ?audoLost,
    fun c s h => congrArg Host.Outcome.next (clockLost_of_absent h), fun s h => ?slowBack, fun s h hfrozen hfix => ?snsBack,
    fun p s hdown htries => ?failed, fun s h htries => ?epllLocked, fun s hdown htries => ?apllGivenUp⟩
  case slowLost =>
    have hlost : clockLost Clk.slow s = lossNoted Clk.slow s := clockLost_of_watched h
    obtain ⟨log, hlog, hrecord⟩ := logClock_eq .clockLost Clk.slow (outOf Clk.slow s)
    rw [lossNoted, hlog] at hlost
    exact ⟨_, congrArg Host.Outcome.next hlost, rfl, rfl, hrecord, rfl⟩
  case refLost =>
    have honly := refStops_only (lossNoted Clk.ref s)
    have hlost : clockLost Clk.ref s = refStops (lossNoted Clk.ref s) := clockLost_of_watched h
    refine ⟨refStops (lossNoted Clk.ref s), congrArg Host.Outcome.next hlost, ?_, honly.noref, ?_, ?_, honly.dram, honly.kslot,
      honly.eye, honly.rail⟩
    · rw [honly.clk]
    · rw [honly.clk]; exact lossNoted_lost Clk.ref s
    · rw [honly.clk]; exact lossNoted_absent Clk.ref s
  case eyeckLost =>
    obtain ⟨e, call, callClock, bootClock, hstops, hready, hframe⟩ := epllStops_eye (lossNoted Clk.eyeck s)
    have hlost : clockLost Clk.eyeck s = _ := (clockLost_of_watched h).trans hstops
    exact ⟨_, congrArg Host.Outcome.next hlost, hready, hframe, lossNoted_lost Clk.eyeck s, lossNoted_absent Clk.eyeck s,
      rfl, rfl, rfl, rfl⟩
  case audoLost =>
    have habsent : (lossNoted Clk.audo s).absent Clk.eyeck = false := (lossNoted_absent_ne (by decide) s).trans heyeck
    have hlost : clockLost Clk.audo s = _ := (clockLost_of_watched h).trans (apllStops_audo habsent)
    refine ⟨_, congrArg Host.Outcome.next hlost, ?_⟩
    simp only [raise_clk, raise_ear, raise_mem, raise_rail, raise_eye]
    exact ⟨rfl, rfl, rfl, rfl, lossNoted_lost Clk.audo s, lossNoted_absent Clk.audo s, rfl, rfl, rfl⟩
  case slowBack =>
    have hback : clockReturn Clk.slow s = returnNoted Clk.slow s := clockReturn_of_absent h
    obtain ⟨log, hlog, hrecord⟩ := logClock_eq .clockBack Clk.slow (backIn Clk.slow s)
    rw [returnNoted, hlog] at hback
    exact ⟨_, congrArg Host.Outcome.next hback, rfl, rfl, hrecord, rfl⟩
  case snsBack =>
    have hback : clockReturn Clk.sns s = _ := (clockReturn_of_absent h).trans (snsBack_of_frozen hfrozen hfix)
    exact ⟨_, congrArg Host.Outcome.next hback, rfl, rfl, rfl, rfl⟩
  case failed =>
    have hfailed := pllRelock_failed hdown (by omega)
    rw [if_neg (by omega)] at hfailed
    exact congrArg Host.Outcome.next hfailed
  case epllLocked =>
    exact ⟨_, congrArg Host.Outcome.next (pllRelock_epll_locked h htries), returnNoted_absent Clk.eyeck s, rfl, rfl, rfl⟩
  case apllGivenUp =>
    refine ⟨_, congrArg Host.Outcome.next (pllRelock_apll_givenUp hdown htries), fence_fenced s.power Dom.ear, fence_up s.power Dom.ear,
      ?_, rfl, rfl⟩
    exact congrArg (· + 1) htries

end Sys2Proof.ClockLoss
end

section
/-! PROOFS. A shell's words: the tables of tallies, what stroke counts, adds and decoder requests leave alone, and how a word that
is done goes on (R54, R56, R57, R67). -/

namespace Sys2Proof.Words
open Sys2Proof Sys2Proof.Machine

/-! ## Numbered parts -/

theorem getElem_upd_self {α : Type} {n : Nat} (v : Vector α n) (i : Fin n) (f : α → α) : (upd v i f)[i] = f v[i] := by simp [upd]

theorem getElem_upd_ne {α : Type} {n : Nat} (v : Vector α n) {i j : Fin n} (h : j ≠ i) (f : α → α) : (upd v i f)[j] = v[j] := by
  simp [upd, Fin.val_ne_of_ne h.symm]

@[simp] theorem shell_setShell_self (s : State) (i : ShellId) (f : Shell → Shell) : (s.setShell i f).shell i = f (s.shell i) :=
  getElem_upd_self s.shells i f

theorem shell_setShell_ne (s : State) {i j : ShellId} (h : j ≠ i) (f : Shell → Shell) : (s.setShell i f).shell j = s.shell j :=
  getElem_upd_ne s.shells h f

/-! ## Tallies (R36, R64) -/

theorem get?_set_ne {α : Type} (t : Tab α) {k j : Nat} (h : j ≠ k) (v : α) : Tab.get? (Tab.set t k v) j = Tab.get? t j := by
  induction t with
  | nil => simp [Tab.set, Tab.get?, h.symm]
  | cons p r ih =>
    obtain ⟨a, x⟩ := p
    rw [Tab.set]
    split
    · simp [Tab.get?, h.symm]
    · split
      · next heq => simp [Tab.get?, heq, h.symm]
      · by_cases haj : a = j
        · simp [Tab.get?, haj]
        · simpa [Tab.get?, haj] using ih

theorem get?_erase_self {α : Type} (t : Tab α) (k : Nat) : Tab.get? (Tab.erase t k) k = none := by
  simp [Tab.get?, Tab.erase, List.find?_filter]

theorem get?_erase_ne {α : Type} (t : Tab α) {k j : Nat} (h : j ≠ k) : Tab.get? (Tab.erase t k) j = Tab.get? t j := by
  have hkey (a : Nat × α) : decide ((a.1 != k) = true ∧ (a.1 == j) = true) = (a.1 == j) := by
    by_cases ha : a.1 = j <;> simp [ha, h]
  simp only [Tab.get?, Tab.erase, List.find?_filter, hkey]

theorem word_setWord (t : Tab W32) (k : Nat) (v : W32) (j : Nat) :
    Tab.word (Tab.setWord t k v) j = if j = k then v else Tab.word t j := by
  unfold Tab.setWord Tab.word
  by_cases hv : v = 0#32 <;> by_cases hj : j = k
  · rw [if_pos hv, if_pos hj, hj, get?_erase_self, hv]; rfl
  · rw [if_pos hv, if_neg hj, get?_erase_ne t hj]
  · rw [if_neg hv, if_pos hj, hj, Arbiters.get?_set_self]; rfl
  · rw [if_neg hv, if_neg hj, get?_set_ne t hj]

/-! ## Frames: what a command leaves alone beside one shell -/

theorem shellOnly_refl (i : ShellId) (s : State) : ShellOnly i s s := ⟨rfl, fun _ => rfl, fun _ _ => rfl⟩

theorem shellOnly_trans {i : ShellId} {s t u : State} (h : ShellOnly i s t) (g : ShellOnly i t u) : ShellOnly i s u := by
  obtain ⟨hst, hlanes, hshells⟩ := h
  obtain ⟨gst, glanes, gshells⟩ := g
  refine ⟨gst.trans (congrArg (fun x : State => { x with
      shells := u.shells, stat := u.stat, tallies := u.tallies, lanes := u.lanes, str := u.str
      mem := { x.mem with decNext := u.mem.decNext, decQueue := u.mem.decQueue, decoder := u.mem.decoder } }) hst),
    fun l => ?_, fun j hj => (gshells j hj).trans (hshells j hj)⟩
  rw [glanes l, hlanes l]

theorem setShell_shellOnly (s : State) (i : ShellId) (f : Shell → Shell) : ShellOnly i s (s.setShell i f) :=
  ⟨rfl, fun _ => rfl, fun _ hj => shell_setShell_ne s hj f⟩

theorem mem_of_shellOnly {i : ShellId} {s t : State} (h : ShellOnly i s t) : t.mem.dram = s.mem.dram ∧ t.mem.bh = s.mem.bh := by
  obtain ⟨hst, -, -⟩ := h
  rw [hst]
  exact ⟨rfl, rfl⟩

/-- From s to t neither a shell nor a tally changes: stroke statistics, runs, halts, decoders and their requests may. -/
structure RunsOnly (s t : State) : Prop where
  shells : t.shells = s.shells
  tallies : t.tallies = s.tallies
  only : ∀ i, ShellOnly i s t

namespace RunsOnly

theorem refl (s : State) : RunsOnly s s := ⟨rfl, rfl, fun i => shellOnly_refl i s⟩

theorem trans {s t u : State} (h : RunsOnly s t) (g : RunsOnly t u) : RunsOnly s u :=
  ⟨g.shells.trans h.shells, g.tallies.trans h.tallies, fun i => shellOnly_trans (h.only i) (g.only i)⟩

theorem shell {s t : State} (h : RunsOnly s t) (i : ShellId) : t.shell i = s.shell i :=
  congrArg (fun v : Vector Shell 18 => v[i]) h.shells

end RunsOnly

/-- From s to t only decoders and their requests change. -/
def DecodersOnly (s t : State) : Prop :=
  ∃ decNext decQueue decoder, t = { s with mem := { s.mem with decNext := decNext, decQueue := decQueue, decoder := decoder } }

namespace DecodersOnly

theorem refl (s : State) : DecodersOnly s s := ⟨_, _, _, rfl⟩

theorem trans {s t u : State} : DecodersOnly s t → DecodersOnly t u → DecodersOnly s u := by
  rintro ⟨_, _, _, rfl⟩ ⟨_, _, _, rfl⟩
  exact ⟨_, _, _, rfl⟩

theorem foldl {α : Type} {f : State → α → State} (hf : ∀ s x, DecodersOnly s (f s x)) (l : List α) (s : State) :
    DecodersOnly s (l.foldl f s) := List.foldlRecOn l f (refl s) fun t ht x _ => ht.trans (hf t x)

theorem runsOnly {s t : State} : DecodersOnly s t → RunsOnly s t := by
  rintro ⟨_, _, _, rfl⟩
  exact ⟨rfl, rfl, fun _ => ⟨rfl, fun _ => rfl, fun _ _ => rfl⟩⟩

theorem lanes {s t : State} : DecodersOnly s t → t.lanes = s.lanes := by rintro ⟨_, _, _, rfl⟩; rfl

end DecodersOnly

theorem freeDecoders_only (mine : DecReq → Bool) (s : State) : DecodersOnly s (freeDecoders mine s) := ⟨_, _, _, rfl⟩

theorem askDecoder_only (i : ShellId) (ag : Fin 16) (stream : Bool) (h : Fin 16) (s : State) :
    DecodersOnly s (askDecoder i ag stream h s) := ⟨_, _, _, rfl⟩

/-! ## Heats' runs and halts -/

theorem runsOnly_of_runs {s : State} {stat str lanes} (h : ∀ l : LaneId, lanes[l] = { s.lanes[l] with runs := lanes[l].runs }) :
    RunsOnly s { s with stat := stat, str := str, lanes := lanes } := ⟨rfl, rfl, fun _ => ⟨rfl, h, fun _ _ => rfl⟩⟩

theorem setRun_runsOnly (s : State) (l : LaneId) (q : W32) (f : HeatRun → HeatRun) : RunsOnly s (s.setRun l q f) := by
  refine runsOnly_of_runs (stat := s.stat) (str := s.str) fun k => ?_
  by_cases hk : k = l
  · rw [hk, getElem_upd_self]; rfl
  · rw [getElem_upd_ne _ hk]

theorem strHit_runsOnly (hit : Break → Option (BitVec 18)) (s : State) : RunsOnly s (strHit hit s) := by
  unfold strHit State.watch
  dsimp only
  split
  · exact .refl s
  · exact runsOnly_of_runs (stat := s.stat) fun l => by simp [mapIdx]

theorem pause_open (now : W64) (r : HeatRun) : (r.pause now).seq = r.seq ∧ (r.pause now).open_ = r.open_ := by
  unfold HeatRun.pause
  split <;> exact ⟨rfl, rfl⟩

/-- A halt stops or starts deadline counts, and changes no heat's open shells. -/
theorem watch_open (now : W64) (stop : Bool) (r : HeatRun) :
    (r.watch now stop).seq = r.seq ∧ (r.watch now stop).open_ = r.open_ := by
  unfold HeatRun.watch
  split
  · split <;> exact ⟨rfl, rfl⟩
  · exact pause_open now r

/-! ## Stroke counts (R24, R26) -/

/-- From s to u, n strokes of shell i have been counted. -/
structure Counted (i : ShellId) (n : Nat) (s u : State) : Prop where
  shell : u.shell i = { s.shell i with strokes := (s.shell i).strokes + BitVec.ofNat 48 n }
  only : ShellOnly i s u
  tallies : u.tallies = s.tallies

theorem Counted.then {i : ShellId} {n : Nat} {s u v : State} (h : Counted i n s u) (g : RunsOnly u v) : Counted i n s v :=
  ⟨(g.shell i).trans h.shell, shellOnly_trans h.only (g.only i), g.tallies.trans h.tallies⟩

theorem stat_runsOnly (s : State) (stat : Stat) : RunsOnly s { s with stat := stat } :=
  runsOnly_of_runs (str := s.str) fun _ => rfl

theorem str_runsOnly (s : State) (str : StringPort) : RunsOnly s { s with str := str } :=
  runsOnly_of_runs (stat := s.stat) fun _ => rfl

theorem countStrokes_counted (i : ShellId) (n : Nat) (s : State) : Counted i n s (countStrokes i n s) := by
  unfold countStrokes
  extract_lets _ counted _ _ dev _ heat _ stepped
  have hcounted : Counted i n s counted := ⟨shell_setShell_self s i _, setShell_shellOnly s i _, rfl⟩
  have hheat : RunsOnly dev heat := by
    unfold heat
    split
    · exact (stat_runsOnly dev _).trans (setRun_runsOnly _ _ _ _)
    · exact .refl dev
  have hstepped : RunsOnly heat stepped := by
    unfold stepped
    split
    · split
      · exact str_runsOnly heat _
      · exact .refl heat
    · exact .refl heat
  exact (((hcounted.then (stat_runsOnly counted _)).then hheat).then hstepped).then (strHit_runsOnly _ stepped)

theorem wordStrokes_of_pass {i : ShellId} {n : Nat} {s : State} (h : (wordStrokes i n s).1 = true) :
    ∃ u, wordStrokes i n s = (true, u) ∧ Counted i (n - (s.shell i).done) s u := by
  by_cases hfree : s.strokesFree i (n - (s.shell i).done) = n - (s.shell i).done
  · exact ⟨_, by simp only [wordStrokes, if_pos hfree], countStrokes_counted i _ s⟩
  · simp [wordStrokes, if_neg hfree] at h

/-! ## Adds (R54) -/

/-- The table of tallies after an add, before a breakpoint on the tally hits. -/
def added (s : State) (k amt : Nat) : State := { s with tallies := Tab.setWord s.tallies k (s.tally k + w32 amt) }

theorem tallyAdd_eq (s : State) (k amt : Nat) : ∃ hit, s.tallyAdd k amt = strHit hit (added s k amt) := ⟨_, rfl⟩

theorem tallyAdd_shellOnly (s : State) (k amt : Nat) (i : ShellId) :
    ShellOnly i s (s.tallyAdd k amt) ∧ (s.tallyAdd k amt).shells = s.shells := by
  obtain ⟨hit, heq⟩ := tallyAdd_eq s k amt
  have hhit := strHit_runsOnly hit (added s k amt)
  have hadded : ShellOnly i s (added s k amt) := ⟨rfl, fun _ => rfl, fun _ _ => rfl⟩
  rw [heq]
  exact ⟨shellOnly_trans hadded (hhit.only i), hhit.shells⟩

theorem tally_tallyAdd (s : State) (k amt j : Nat) :
    (s.tallyAdd k amt).tally j = if j = k then s.tally j + w32 amt else s.tally j := by
  obtain ⟨hit, heq⟩ := tallyAdd_eq s k amt
  rw [heq, State.tally, (strHit_runsOnly hit (added s k amt)).tallies, added, word_setWord]
  split
  · next h => rw [h]
  · rfl

/-! ## Generators whose steps alone change (R57) -/

/-- From v to w no generator changes but in its step counter. -/
def StepsOnly (v w : Vector AddrGen 16) : Prop := ∀ k : Fin 16, w[k] = { v[k] with step := w[k].step }

namespace StepsOnly

theorem refl (v : Vector AddrGen 16) : StepsOnly v v := fun _ => rfl

theorem trans {u v w : Vector AddrGen 16} (h : StepsOnly u v) (g : StepsOnly v w) : StepsOnly u w := fun k => by rw [g k, h k]

theorem upd (v : Vector AddrGen 16) (j : Fin 16) (n : AddrGen → Nat) :
    StepsOnly v (Machine.upd v j fun g => { g with step := n g }) := by
  intro k
  by_cases hk : k = j
  · rw [hk, getElem_upd_self]
  · rw [getElem_upd_ne v hk]

theorem foldl {α : Type} (j : α → Fin 16) (n : α → AddrGen → Nat) (l : List α) (v : Vector AddrGen 16) :
    StepsOnly v (l.foldl (fun (v : Vector AddrGen 16) x => Machine.upd v (j x) fun g => { g with step := n x g }) v) :=
  List.foldlRecOn l _ (refl v) fun w hw x _ => hw.trans (upd w (j x) (n x))

end StepsOnly

/-- A generator that none of the updates names stays. -/
theorem getElem_foldl_upd_of_forall_ne {α : Type} {j : α → Fin 16} {f : α → AddrGen → AddrGen} {l : List α} {k : Fin 16}
    (h : ∀ x ∈ l, j x ≠ k) (v : Vector AddrGen 16) :
    (l.foldl (fun (v : Vector AddrGen 16) x => upd v (j x) (f x)) v)[k] = v[k] :=
  List.foldlRecOn (motive := fun w : Vector AddrGen 16 => w[k] = v[k]) l _ rfl fun w hw x hx =>
    (getElem_upd_ne w (h x hx).symm _).trans hw

/-! ## A word that is done (R54, R67): the shell goes on, and a RUN without a wait begins -/

/-- From x to y streams end, and of the generators only the steps of those that had one may change. -/
structure StreamsEnd (x y : Shell) : Prop where
  rest : y = { x with ag := y.ag, streams := y.streams }
  steps : StepsOnly x.ag y.ag
  unstreamed : ∀ k : Fin 16, (∀ t ∈ x.streams, t.ag ≠ k) → y.ag[k] = x.ag[k]

namespace StreamsEnd

theorem refl (x : Shell) : StreamsEnd x x := ⟨rfl, .refl _, fun _ _ => rfl⟩

section
variable {x y : Shell} (h : StreamsEnd x y)
include h

theorem pc : y.pc = x.pc := by rw [h.rest]
theorem waited : y.waited = x.waited := by rw [h.rest]
theorem done : y.done = x.done := by rw [h.rest]
theorem strokes : y.strokes = x.strokes := by rw [h.rest]
theorem wait : y.wait = x.wait := by rw [h.rest]
theorem loops : y.loops = x.loops := by rw [h.rest]
theorem sram : y.sram = x.sram := by rw [h.rest]
theorem table : y.table = x.table := by rw [h.rest]
theorem acc : y.acc = x.acc := by rw [h.rest]
theorem g32 : y.g32 = x.g32 := by rw [h.rest]

end

end StreamsEnd

theorem keepStreams_streamsEnd (x : Shell) (ags : List (Fin 16)) : StreamsEnd x (x.keepStreams ags) where
  rest := rfl
  steps := StepsOnly.foldl (fun t : Stream => t.ag) (fun t g => g.step + boolNat (t.off != 0)) _ x.ag
  unstreamed := fun _ hk => getElem_foldl_upd_of_forall_ne (fun t ht => hk t (List.mem_partition.mpr (.inl ht))) x.ag

theorem beginRun_eq (i : ShellId) (s : State) :
    ∃ f : Shell → Shell, StreamsEnd (s.shell i) (f (s.shell i)) ∧ DecodersOnly (s.setShell i f) (beginRun i s) := by
  have hstay : s.setShell i id = s := by simp [State.setShell, upd]
  have hno : ∃ f : Shell → Shell, StreamsEnd (s.shell i) (f (s.shell i)) ∧ DecodersOnly (s.setShell i f) s :=
    ⟨id, .refl _, by rw [hstay]; exact .refl s⟩
  unfold beginRun
  dsimp only
  split
  · next w _ _ =>
    split
    · refine ⟨fun x => x.keepStreams (runAgs w), keepStreams_streamsEnd _ _,
        (freeDecoders_only _ _).trans (.foldl (fun t ag => ?_) _ _)⟩
      split
      · exact askDecoder_only _ _ _ _ t
      · exact .refl t
    · exact hno
  · exact hno

theorem goOn_spec (s : State) (i : ShellId) (f : Shell → Shell) :
    StreamsEnd (f (s.shell i)) ((s.goOn i f).shell i) ∧ ShellOnly i s (s.goOn i f) ∧
      (s.goOn i f).tallies = s.tallies ∧ (s.goOn i f).lanes = s.lanes := by
  obtain ⟨g, hg, hbegin⟩ := beginRun_eq i (s.setShell i f)
  have hruns := hbegin.runsOnly
  rw [shell_setShell_self] at hg
  refine ⟨?_, shellOnly_trans (setShell_shellOnly s i f) (shellOnly_trans (setShell_shellOnly _ i g) (hruns.only i)), hruns.tallies,
    hbegin.lanes⟩
  rw [State.goOn, hruns.shell i, shell_setShell_self, shell_setShell_self]
  exact hg

theorem wordAdd_spec (i : ShellId) (l : LaneId) (w : W64) (s : State) :
    ShellOnly i s (wordAdd l w s) ∧ (wordAdd l w s).shells = s.shells ∧ WordAdds l w s (wordAdd l w s) := by
  unfold wordAdd WordAdds
  cases wAE w
  · exact ⟨shellOnly_refl i s, rfl, fun _ => by simp⟩
  · obtain ⟨honly, hshells⟩ := tallyAdd_shellOnly s (laneTally l (wAtal w)) (wAmt w) i
    exact ⟨honly, hshells, fun k => by simpa using tally_tallyAdd s _ _ k⟩

/-- A word is done, and its add is made. -/
theorem wordAdd_goOn_spec (i : ShellId) (l : LaneId) (w : W64) (s : State) (f : Shell → Shell) :
    StreamsEnd (f (s.shell i)) ((wordAdd l w (s.goOn i f)).shell i) ∧ ShellOnly i s (wordAdd l w (s.goOn i f)) ∧
      WordAdds l w s (wordAdd l w (s.goOn i f)) := by
  obtain ⟨hshell, honly, htallies, -⟩ := goOn_spec s i f
  obtain ⟨hadd, hshells, htally⟩ := wordAdd_spec i l w (s.goOn i f)
  refine ⟨?_, shellOnly_trans honly hadd, fun k => ?_⟩
  · have hstay : (wordAdd l w (s.goOn i f)).shell i = (s.goOn i f).shell i := congrArg (fun v : Vector Shell 18 => v[i]) hshells
    rw [hstay]; exact hshell
  · rw [htally k, State.tally, State.tally, htallies]

end Sys2Proof.Words
end

section
/-! PROOFS. The words of one stroke and WAIT_SATISFIED (R54, R56 to R59): what each does to its shell, and the statements about
SETA, SETW, LOOP, MARK and END, and about WAIT_SATISFIED. -/

namespace Sys2Proof.OneStroke
open Sys2Proof Sys2Proof.Machine Sys2Proof.Words

/-! ## What each word does once its stroke has passed -/

/-- SETA's field of a generator (R57). -/
def setField (w : W64) (g : AddrGen) : AddrGen := match wfld w 37 3 with
  | 0 => { g with base := BitVec.ofNat 37 w.toNat, step := 0 }
  | 1 => { g with stride := BitVec.ofNat 37 w.toNat, step := 0 }
  | 2 => { g with wrap := BitVec.ofNat 37 w.toNat, step := 0 }
  | 3 => { g with inner := BitVec.ofNat 37 w.toNat, step := 0 }
  | 4 => { g with outer := BitVec.ofNat 37 w.toNat, step := 0 }
  | _ => { g with mode := BitVec.ofNat 2 w.toNat, step := 0 }

/-- The shell after a SETA: the generator is set, and its streamed feed ends. -/
def afterSeta (w : W64) (x : Shell) : Shell :=
  { x with ag := upd x.ag (wNum w 40) (setField w), streams := x.streams.filter fun t => t.ag != wNum w 40 }.next

/-- The wait register that a SETW loads. -/
def setwReg (w : W64) : WaitReg :=
  { tally := BitVec.ofNat 8 (wfld w 33 8), target := BitVec.ofNat 16 (wfld w 17 16), step := BitVec.ofNat 16 (wfld w 1 16) }

def afterSetw (w : W64) (x : Shell) : Shell :=
  { x with wait := put x.wait ⟨wfld w 41 3, Nat.mod_lt _ (by decide)⟩ (setwReg w) }.next

/-- The level of a LOOP. -/
def loopLevel (w : W64) : Fin 4 := ⟨wfld w 42 2, Nat.mod_lt _ (by decide)⟩

def afterLoop (w : W64) (x : Shell) : Shell :=
  if x.loops[loopLevel w] < wfld w 22 20 then
    { x with loops := put x.loops (loopLevel w) (x.loops[loopLevel w] + 1), pc := x.pc - wfld w 6 16, waited := false, done := 0 }
  else { x with loops := put x.loops (loopLevel w) 0 }.next

/-- The program has ended, and its streams with it. -/
def afterEnd (x : Shell) : Shell := { x.next with ended := true, streams := [] }

/-- Shell i has no part in the heat's segment any more; with the last shell its deadline count pauses. -/
def shellLeaves (i : ShellId) (now : W64) (r : HeatRun) : HeatRun :=
  if (r.open_.filter (· != i)).isEmpty then { r with open_ := r.open_.filter (· != i) }.pause now
  else { r with open_ := r.open_.filter (· != i) }

section
variable {i : ShellId} {w : W64} {l : LaneId} {q : W32} {s u : State}

theorem mark_eq (hw : s.wordAt i 8 = some (w, l, q)) (hu : wordStrokes i 1 s = (true, u)) :
    mark i s = wordAdd l w (u.goOn i Shell.next) := by
  simp only [mark, hw, hu]

theorem seta_eq (hw : s.wordAt i 5 = some (w, l, q)) (hu : wordStrokes i 1 s = (true, u)) :
    seta i s = wordAdd l w ((freeDecoders (DecReq.isStream i (wNum w 40)) u).goOn i (afterSeta w)) := by
  simp only [seta, hw, hu]
  rfl

theorem setw_eq (hw : s.wordAt i 6 = some (w, l, q)) (hu : wordStrokes i 1 s = (true, u)) :
    setw i s = wordAdd l w (u.goOn i (afterSetw w)) := by
  simp only [setw, hw, hu]
  rfl

theorem loop_eq (hw : s.wordAt i 7 = some (w, l, q)) (hu : wordStrokes i 1 s = (true, u)) :
    loop i s = wordAdd l w (u.goOn i (afterLoop w)) := by
  simp only [loop, hw, hu]
  rfl

theorem endWord_eq (hw : s.wordAt i 0 = some (w, l, q)) (hin : (s.shell i).inbound = []) (hout : (s.shell i).outbound = [])
    (hu : wordStrokes i 1 s = (true, u)) :
    endWord i s = wordAdd l w (((freeDecoders (fun r => r.shell == i && r.stream) u).setShell i afterEnd).setRun l q
      (shellLeaves i u.steady)) := by
  simp only [endWord, hw, hin, hout, hu, List.isEmpty_nil, Bool.and_self, if_true]
  rfl

theorem endWord_waits (hw : s.wordAt i 0 = some (w, l, q)) (h : (s.shell i).inbound ≠ [] ∨ (s.shell i).outbound ≠ []) :
    endWord i s = s := by
  have hbusy : ((s.shell i).inbound.isEmpty && (s.shell i).outbound.isEmpty) = false := by
    rw [Bool.and_eq_false_iff, List.isEmpty_eq_false_iff, List.isEmpty_eq_false_iff]
    exact h
  simp only [endWord, hw, hbusy, Bool.false_eq_true, if_false]

/-! ## The stroke, the word and its add together -/

/-- The shell once the one stroke of its word is counted. -/
def strokeCounted (x : Shell) : Shell := { x with strokes := x.strokes + BitVec.ofNat 48 (1 - x.done) }

/-- Where the stroke of a word passes, the word is done on the shell as it was, but for the stroke, and its add is made. -/
theorem word_done {v : State} (hu : Counted i (1 - (s.shell i).done) s u) (hv : RunsOnly u v) (f : Shell → Shell) :
    StreamsEnd (f (strokeCounted (s.shell i))) ((wordAdd l w (v.goOn i f)).shell i) ∧ ShellOnly i s (wordAdd l w (v.goOn i f)) ∧
      WordAdds l w s (wordAdd l w (v.goOn i f)) := by
  obtain ⟨hshell, honly, htallies⟩ := hu.then hv
  obtain ⟨hdone, hrest, hadds⟩ := wordAdd_goOn_spec i l w v f
  rw [hshell] at hdone
  exact ⟨hdone, shellOnly_trans honly hrest, fun k => by rw [hadds k, State.tally, State.tally, htallies]⟩

end

theorem seta_spec {i : ShellId} {w : W64} {l : LaneId} {q : W32} {s : State} (hw : s.wordAt i 5 = some (w, l, q))
    (hpass : (wordStrokes i 1 s).1 = true) :
    ((seta i s).shell i).pc = (s.shell i).pc + 1 ∧
      ((seta i s).shell i).ag[wNum w 40] = setField w (s.shell i).ag[wNum w 40] ∧
      (∀ k : Fin 16, k ≠ wNum w 40 →
        ((seta i s).shell i).ag[k] = { (s.shell i).ag[k] with step := ((seta i s).shell i).ag[k].step }) ∧
      ((seta i s).shell i).wait = (s.shell i).wait ∧ ((seta i s).shell i).sram = (s.shell i).sram ∧
      ((seta i s).shell i).strokes = (s.shell i).strokes + BitVec.ofNat 48 (1 - (s.shell i).done) ∧
      ShellOnly i s (seta i s) ∧ WordAdds l w s (seta i s) := by
  obtain ⟨u, hu, hcounted⟩ := wordStrokes_of_pass hpass
  obtain ⟨hdone, honly, hadds⟩ :=
    word_done (l := l) (w := w) hcounted (freeDecoders_only (DecReq.isStream i (wNum w 40)) u).runsOnly (afterSeta w)
  rw [← seta_eq hw hu] at hdone honly hadds
  refine ⟨hdone.pc, ?_, fun k hk => ?_, hdone.wait, hdone.sram, hdone.strokes, honly, hadds⟩
  · rw [hdone.unstreamed _ (by simp [afterSeta, Shell.next])]
    exact getElem_upd_self _ _ _
  · have hother : (afterSeta w (strokeCounted (s.shell i))).ag[k] = (s.shell i).ag[k] := getElem_upd_ne _ hk _
    rw [← hother]
    exact hdone.steps k

theorem mark_spec {i : ShellId} {w : W64} {l : LaneId} {q : W32} {s : State} (hw : s.wordAt i 8 = some (w, l, q))
    (hpass : (wordStrokes i 1 s).1 = true) :
    StreamsEnd (strokeCounted (s.shell i)).next ((mark i s).shell i) ∧ ShellOnly i s (mark i s) ∧ WordAdds l w s (mark i s) := by
  obtain ⟨u, hu, hcounted⟩ := wordStrokes_of_pass hpass
  rw [mark_eq hw hu]
  exact word_done hcounted (.refl u) Shell.next

theorem setw_spec {i : ShellId} {w : W64} {l : LaneId} {q : W32} {s : State} (hw : s.wordAt i 6 = some (w, l, q))
    (hpass : (wordStrokes i 1 s).1 = true) :
    StreamsEnd (afterSetw w (strokeCounted (s.shell i))) ((setw i s).shell i) ∧ ShellOnly i s (setw i s) ∧
      WordAdds l w s (setw i s) := by
  obtain ⟨u, hu, hcounted⟩ := wordStrokes_of_pass hpass
  rw [setw_eq hw hu]
  exact word_done hcounted (.refl u) (afterSetw w)

theorem loop_spec {i : ShellId} {w : W64} {l : LaneId} {q : W32} {s : State} (hw : s.wordAt i 7 = some (w, l, q))
    (hpass : (wordStrokes i 1 s).1 = true) :
    StreamsEnd (afterLoop w (strokeCounted (s.shell i))) ((loop i s).shell i) ∧ ShellOnly i s (loop i s) ∧
      WordAdds l w s (loop i s) := by
  obtain ⟨u, hu, hcounted⟩ := wordStrokes_of_pass hpass
  rw [loop_eq hw hu]
  exact word_done hcounted (.refl u) (afterLoop w)

/-- The counter of a LOOP's level, as the statements read it. -/
theorem loops_level (v : Vector Nat 4) (w : W64) : v[wfld w 42 2]! = v[loopLevel w] := getElem!_pos v _ (loopLevel w).isLt

theorem afterLoop_jumps {w : W64} {x : Shell} (h : x.loops[wfld w 42 2]! < wfld w 22 20) :
    (afterLoop w x).pc = x.pc - wfld w 6 16 ∧ (afterLoop w x).loops[wfld w 42 2]! = x.loops[wfld w 42 2]! + 1 ∧
      (afterLoop w x).strokes = x.strokes := by
  rw [loops_level] at h
  rw [loops_level, loops_level, afterLoop, if_pos h]
  exact ⟨rfl, by simp [put], rfl⟩

theorem afterLoop_passes {w : W64} {x : Shell} (h : wfld w 22 20 ≤ x.loops[wfld w 42 2]!) :
    (afterLoop w x).pc = x.pc + 1 ∧ (afterLoop w x).loops[wfld w 42 2]! = 0 ∧ (afterLoop w x).strokes = x.strokes := by
  rw [loops_level] at h
  rw [loops_level, afterLoop, if_neg (Nat.not_lt.mpr h)]
  exact ⟨rfl, by simp [put, Shell.next], rfl⟩

/-! ## END (R55) -/

/-- The shell has no part in heat q of lane l any more. -/
def HasLeft (i : ShellId) (l : LaneId) (q : W32) (s : State) : Prop := ∀ r ∈ (s.lane l).runs, r.seq = q → i ∉ r.open_

theorem shellLeaves_open (i : ShellId) (now : W64) (r : HeatRun) : (shellLeaves i now r).open_ = r.open_.filter (· != i) := by
  unfold shellLeaves
  split
  · exact (pause_open now _).2
  · rfl

theorem setRun_hasLeft (s : State) (i : ShellId) (l : LaneId) (q : W32) (now : W64) :
    HasLeft i l q (s.setRun l q (shellLeaves i now)) := by
  intro r hr hq
  rw [State.setRun, Registers.lane_setLane_self] at hr
  obtain ⟨r0, -, rfl⟩ := List.mem_map.mp hr
  by_cases h0 : r0.seq = q
  · rw [if_pos h0, shellLeaves_open]
    simp
  · rw [if_neg h0] at hq
    exact absurd hq h0

theorem strHit_hasLeft {i : ShellId} {l : LaneId} {q : W32} {s : State} (h : HasLeft i l q s) (hit : Break → Option (BitVec 18)) :
    HasLeft i l q (strHit hit s) := by
  unfold strHit State.watch
  dsimp only
  split
  · exact h
  · intro r hr hq
    simp only [State.lane, mapIdx, Fin.getElem_fin, Vector.getElem_ofFn] at hr
    obtain ⟨r0, hr0, rfl⟩ := List.mem_map.mp hr
    rw [(watch_open _ _ r0).1] at hq
    rw [(watch_open _ _ r0).2]
    exact h r0 hr0 hq

theorem wordAdd_hasLeft {i : ShellId} {l k : LaneId} {q : W32} {w : W64} {s : State} (h : HasLeft i l q s) :
    HasLeft i l q (wordAdd k w s) := by
  unfold wordAdd
  split
  · obtain ⟨hit, heq⟩ := tallyAdd_eq s (laneTally k (wAtal w)) (wAmt w)
    rw [heq]
    exact strHit_hasLeft (s := added s _ _) h hit
  · exact h

theorem endWord_spec {i : ShellId} {w : W64} {l : LaneId} {q : W32} {s : State} (hw : s.wordAt i 0 = some (w, l, q))
    (hin : (s.shell i).inbound = []) (hout : (s.shell i).outbound = []) (hpass : (wordStrokes i 1 s).1 = true) :
    (endWord i s).shell i = afterEnd (strokeCounted (s.shell i)) ∧ HasLeft i l q (endWord i s) ∧ ShellOnly i s (endWord i s) ∧
      WordAdds l w s (endWord i s) := by
  obtain ⟨u, hu, hcounted⟩ := wordStrokes_of_pass hpass
  rw [endWord_eq hw hin hout hu]
  obtain ⟨hshell, honly, htallies⟩ := hcounted.then (freeDecoders_only (fun r => r.shell == i && r.stream) u).runsOnly
  generalize freeDecoders (fun r => r.shell == i && r.stream) u = v at hshell honly htallies ⊢
  have hruns := setRun_runsOnly (v.setShell i afterEnd) l q (shellLeaves i u.steady)
  obtain ⟨hadd, hshells, hadds⟩ := wordAdd_spec i l w ((v.setShell i afterEnd).setRun l q (shellLeaves i u.steady))
  refine ⟨?_, wordAdd_hasLeft (setRun_hasLeft _ i l q _),
    shellOnly_trans (shellOnly_trans honly (setShell_shellOnly v i afterEnd)) (shellOnly_trans (hruns.only i) hadd), fun k => ?_⟩
  · have hstay := congrArg (fun v : Vector Shell 18 => v[i]) hshells
    refine hstay.trans ((hruns.shell i).trans ?_)
    rw [shell_setShell_self, hshell]
    rfl
  · rw [hadds k, State.tally, State.tally, ← htallies]
    rfl

/-! ## WAIT_SATISFIED (R58) -/

theorem satisfied_iff (count : W32) (target : W16) :
    satisfied count target = true ↔ (count.toNat % 65536 + 65536 - target.toNat) % 65536 < 32768 := by
  have ht := target.isLt
  have hsub : (count.setWidth 16 - target).toNat = (count.toNat % 65536 + 65536 - target.toNat) % 65536 := by
    rw [BitVec.toNat_sub, BitVec.toNat_setWidth]
    omega
  simp [satisfied, hsub]

/-- The shell once its word's register k has been satisfied. -/
def afterWait (k : Fin 8) (x : Shell) : Shell :=
  { x with waited := true, wait := upd x.wait k fun r => { r with target := r.target + r.step } }

section
variable {i : ShellId} {w : W64} {l : LaneId} {q : W32} {s : State} (hrun : (s.shell i).running = some (l, q))
  (hw : (s.shell i).word = some w)
include hrun hw

theorem waitSatisfied_eq (hs : s.strokes i = true) (hk : wSel w ≠ 0) (hwaits : (s.shell i).waited = false)
    (hsat : satisfied (s.tally (laneTally l (s.shell i).wait[wSel w].tally.toNat)) (s.shell i).wait[wSel w].target = true) :
    waitSatisfied i s = s.goOn i (afterWait (wSel w)) := by
  have hne : (wSel w != 0) = true := by simpa using hk
  simp only [waitSatisfied, hrun, hw, hs, hne, hwaits, hsat, Bool.not_false, Bool.and_self, if_true]
  rfl

theorem waitSatisfied_short
    (hsat : satisfied (s.tally (laneTally l (s.shell i).wait[wSel w].tally.toNat)) (s.shell i).wait[wSel w].target = false) :
    waitSatisfied i s = s := by
  simp only [waitSatisfied, hrun, hw, hsat, Bool.and_false, Bool.false_eq_true, if_false]

end

/-! ## The statements -/

/-- Settles O18: the register is satisfied exactly when the difference is below 2^15, and then the word goes on. -/
theorem waitsAreSatisfied : Obligations.WaitsAreSatisfied := by
  refine ⟨fun i w l q s hrun hw hs hk hwaits hdiff => ?_, fun i w l q s hrun hw hdiff => ?_⟩
  · have heq := waitSatisfied_eq hrun hw hs hk hwaits ((satisfied_iff _ _).mpr hdiff)
    obtain ⟨hgoes, honly, htallies, hlanes⟩ := goOn_spec s i (afterWait (wSel w))
    exact ⟨_, congrArg Host.Outcome.next heq, hgoes.waited, hgoes.wait, hgoes.pc, hgoes.sram, htallies, hlanes, honly⟩
  · refine congrArg Host.Outcome.next (waitSatisfied_short hrun hw ?_)
    rw [← Bool.not_eq_true, satisfied_iff]
    exact Nat.not_lt.mpr hdiff

/-- Settles O17: each word's clause from what its word does to the shell whose stroke has been counted. -/
theorem oneStrokeWordsRun : Obligations.OneStrokeWordsRun := by
  refine ⟨fun i w l q s hw hpass => ?mark, fun i w l q s hw hfield hpass => ?base, fun i w l q s hw hfield hpass => ?stride,
    fun i w l q s hw hfield hpass => ?wrap, fun i w l q s hw hfield hpass => ?inner, fun i w l q s hw hfield hpass => ?outer,
    fun i w l q s hw hfield hpass => ?mode, fun i w l q s hw hpass => ?setw, fun i w l q s hw hbelow hpass => ?jumps,
    fun i w l q s hw hlast hpass => ?passes, fun i w l q s hw hin hout hpass => ?ends,
    fun i w l q s hw hbusy => congrArg Host.Outcome.next (endWord_waits hw hbusy)⟩
  case mark =>
    obtain ⟨hdone, honly, hadds⟩ := mark_spec hw hpass
    exact ⟨_, rfl, hdone.pc, hdone.waited, hdone.sram, hdone.steps, hdone.wait, hdone.strokes, honly, hadds⟩
  case base =>
    obtain ⟨hpc, hset, hothers, hwait, hsram, hstrokes, honly, hadds⟩ := seta_spec hw hpass
    exact ⟨_, rfl, hpc, by simpa only [setField, hfield] using hset, hothers, hwait, hsram, hstrokes, honly, hadds⟩
  case stride =>
    obtain ⟨hpc, hset, hothers, -, -, -, honly, hadds⟩ := seta_spec hw hpass
    exact ⟨_, rfl, hpc, by simpa only [setField, hfield] using hset, hothers, honly, hadds⟩
  case wrap | inner | outer | mode =>
    obtain ⟨hpc, hset, hothers, -, -, hstrokes, honly, hadds⟩ := seta_spec hw hpass
    exact ⟨_, rfl, hpc, by simpa only [setField, hfield] using hset, hothers, hstrokes, honly, hadds⟩
  case setw =>
    obtain ⟨hdone, honly, hadds⟩ := setw_spec hw hpass
    exact ⟨_, rfl, hdone.pc, hdone.wait, hdone.steps, hdone.sram, hdone.strokes, honly, hadds⟩
  case jumps =>
    obtain ⟨hdone, honly, hadds⟩ := loop_spec hw hpass
    obtain ⟨hpc, hloops, hstrokes⟩ := afterLoop_jumps (x := strokeCounted (s.shell i)) hbelow
    exact ⟨_, rfl, hdone.pc.trans hpc, (congrArg (fun v : Vector Nat 4 => v[wfld w 42 2]!) hdone.loops).trans hloops,
      hdone.strokes.trans hstrokes, honly, hadds⟩
  case passes =>
    obtain ⟨hdone, honly, hadds⟩ := loop_spec hw hpass
    obtain ⟨hpc, hloops, hstrokes⟩ := afterLoop_passes (x := strokeCounted (s.shell i)) hlast
    exact ⟨_, rfl, hdone.pc.trans hpc, (congrArg (fun v : Vector Nat 4 => v[wfld w 42 2]!) hdone.loops).trans hloops,
      hdone.strokes.trans hstrokes, honly, hadds⟩
  case ends =>
    obtain ⟨hshell, hleft, honly, hadds⟩ := endWord_spec hw hin hout hpass
    exact ⟨_, rfl, by rw [hshell]; rfl, by rw [hshell]; rfl, by rw [hshell]; rfl, hleft, by rw [hshell]; rfl, honly, hadds⟩

end Sys2Proof.OneStroke
end

section
/-! PROOFS. RUN (R43, R54 to R57): what a RUN leaves whose work has been done, when it does not complete, and the statement about
RUN_WORD. -/

namespace Sys2Proof.Runs
open Sys2Proof Sys2Proof.Machine Sys2Proof.Words

/-! ## What follows the work -/

/-- The shell after a RUN: its generators have gone on, and only a chained RUN leaves streams. -/
def afterRun (w : W64) (f : RigFrame) (e : RunEnv) (x : Rx) (y : Shell) : Shell :=
  { y with ag := runSteps f e.ags e.count e.offs (chains w f) x.rescales y.ag, streams := runStreams w f y }.next

/-- The decoders of the feeds that a RUN ends are free (R247). -/
def feedsFreed (i : ShellId) (w : W64) (f : RigFrame) (s : State) : State :=
  if chains w f then s else (runAgs w).foldl (fun s ag => freeDecoders (DecReq.isStream i ag) s) s

/-- The machine once the work x of a RUN is done. -/
def runDone (i : ShellId) (l : LaneId) (q : W32) (w : W64) (f : RigFrame) (e : RunEnv) (x : Rx) : State :=
  wordAdd l w ((feedsFreed i w f (x.s.setRun l q fun r => r.gather x)).goOn i (afterRun w f e x))

theorem feedsFreed_only (i : ShellId) (w : W64) (f : RigFrame) (s : State) : DecodersOnly s (feedsFreed i w f s) := by
  unfold feedsFreed
  split
  · exact .refl s
  · exact .foldl (fun t ag => freeDecoders_only _ t) _ s

theorem runSteps_stepsOnly (f : RigFrame) (ags : List (Fin 16)) (count : Nat) (offs : List (Fin 16 × Nat)) (chain : Bool)
    (resc : List (Fin 16 × Nat)) (v : Vector AddrGen 16) : StepsOnly v (runSteps f ags count offs chain resc v) :=
  (StepsOnly.foldl (fun k => k) (fun k g =>
      g.step + feedSteps f ags k g count (((offs.find? fun p => p.1 == k).map Prod.snd).getD 0) chain) ags.eraseDups v).trans
    (StepsOnly.foldl Prod.fst (fun p g => g.step + p.2) resc _)

theorem runDone_spec (i : ShellId) (l : LaneId) (q : W32) (w : W64) (f : RigFrame) (e : RunEnv) (x : Rx) :
    StreamsEnd (afterRun w f e x (x.s.shell i)) ((runDone i l q w f e x).shell i) ∧ ShellOnly i x.s (runDone i l q w f e x) ∧
      WordAdds l w x.s (runDone i l q w f e x) := by
  have hruns := (setRun_runsOnly x.s l q fun r => r.gather x).trans (feedsFreed_only i w f _).runsOnly
  obtain ⟨hdone, hrest, hadds⟩ := wordAdd_goOn_spec i l w (feedsFreed i w f (x.s.setRun l q fun r => r.gather x)) (afterRun w f e x)
  rw [hruns.shell i] at hdone
  exact ⟨hdone, shellOnly_trans (hruns.only i) hrest, fun k => by rw [runDone, hadds k, State.tally, State.tally, hruns.tallies]⟩

/-! ## When a RUN completes -/

/-- ACCZ: the accumulators and group sums are cleared before the work (R56). -/
def accCleared (i : ShellId) (w : W64) (s : State) : State :=
  if w.getLsbD 3 then s.setShell i fun x => { x with acc := [], g32 := [] } else s

section
variable {i : ShellId} {w : W64} {l : LaneId} {q : W32} {f : RigFrame} {r : HeatRun} {s u : State}
  (hw : s.wordAt i 1 = some (w, l, q)) (hf : (s.shell i).frame = some f) (hr : (s.lane l).run q = some r)
include hw hf hr

theorem run_completes {items : List WorkItem} {x : Rx} (hu : wordStrokes i ((s.shell i).wordLen w) s = (true, u))
    (hfed : (s.shell i).starvedAt w (runCount w) = false) (hwhole : workWhole (runEnv i l q w f r s) items = true)
    (hx : doWork (runEnv i l q w f r (accCleared i w u)) items { s := accCleared i w u, begun := r.begun } = x)
    (hbad : x.bad = false) (hdrained : drained (runEnv i l q w f r (accCleared i w u)) x = true) :
    run i { items := items } s = runDone i l q w f (runEnv i l q w f r (accCleared i w u)) x := by
  unfold accCleared at hx hdrained ⊢
  simp only [run, hw, hf, hr, hu, hfed, hwhole, hx, hbad, hdrained, Bool.not_true, Bool.not_false, Bool.or_self, Bool.and_false,
    Bool.false_eq_true, if_false]
  rfl

theorem run_waits {wk : RunWork} (hu : wordStrokes i ((s.shell i).wordLen w) s = (true, u))
    (hshort : (s.shell i).starvedAt w (runCount w) = true ∨ workWhole (runEnv i l q w f r s) wk.items = false) :
    run i wk s = s := by
  have hstop : ((s.shell i).starvedAt w (runCount w) || !workWhole (runEnv i l q w f r s) wk.items) = true := by
    rw [Bool.or_eq_true, Bool.not_eq_true']
    exact hshort
  simp only [run, hw, hf, hr, hu, hstop, if_true]

theorem run_halts {wk : RunWork} (hu : wordStrokes i ((s.shell i).wordLen w) s = (false, u)) (hfine : wk.fault = .fine) :
    run i wk s = u := by
  simp only [run, hw, hf, hr, hu, hfine]
  rfl

end

/-! ## The words of the statement -/

theorem wKind_of_wordAt {i : ShellId} {k : Nat} {w : W64} {l : LaneId} {q : W32} {s : State} (h : s.wordAt i k = some (w, l, q)) :
    wKind w = k := by
  unfold State.wordAt at h
  dsimp only at h
  split at h
  · split at h
    · next hok =>
      obtain ⟨rfl, -⟩ := Prod.mk.inj (Option.some.inj h)
      simp only [Bool.and_eq_true, beq_iff_eq] at hok
      obtain ⟨⟨⟨-, hkind⟩, -⟩, -⟩ := hok
      exact hkind
    · cases h
  · cases h

theorem wordLen_of_run {w : W64} {x : Shell} {f : RigFrame} (hkind : wKind w = 1) (hf : x.frame = some f) :
    x.wordLen w = wfld w 24 20 + 1 + if w.getLsbD 2 then f.drain.toNat else 0 := by
  simp only [Shell.wordLen, hkind, hf]
  rfl

theorem accCleared_of_clear {i : ShellId} {w : W64} (h : w.getLsbD 3 = true) (s : State) :
    accCleared i w s = s.setShell i fun x => { x with acc := [], g32 := [] } := if_pos h

theorem accCleared_of_keep {i : ShellId} {w : W64} (h : w.getLsbD 3 = false) (s : State) : accCleared i w s = s := by
  rw [accCleared, h]
  rfl

/-- Without an accumulator in use there is nothing to drain. -/
theorem drained_of_empty {e : RunEnv} {x : Rx} (h : (x.s.shell e.shell).acc = []) : drained e x = true := by simp [drained, h]

/-- Settles O21: a RUN whose work is whole and done leaves what its items left, and goes on; a RUN that clears and has no items has
nothing to drain. -/
theorem runDoesItsItems : Obligations.RunDoesItsItems := by
  refine ⟨fun i w l q f r items x s u hw hf hr hkeep hu hfed hwhole hx hbad hdrained => ?items,
    fun i w l q f r s hw hf hr hclear hpass hfed hwhole => ?clear,
    fun i w l q f r wk s u hw hf hr hu hshort => congrArg Host.Outcome.next (run_waits hw hf hr hu hshort),
    fun i w l q f r wk s u hw hf hr hu hfine => congrArg Host.Outcome.next (run_halts hw hf hr hu hfine)⟩
  case items =>
    rw [← accCleared_of_keep (i := i) hkeep u] at hx hdrained
    obtain ⟨hdone, honly, hadds⟩ := runDone_spec i l q w f (runEnv i l q w f r (accCleared i w u)) x
    obtain ⟨hdram, hbh⟩ := mem_of_shellOnly honly
    exact ⟨_, congrArg Host.Outcome.next (run_completes hw hf hr hu hfed hwhole hx hbad hdrained),
      hdone.pc, hdone.done, hdone.sram, hdone.table, hdone.acc, hdone.g32, (runSteps_stepsOnly _ _ _ _ _ _ _).trans hdone.steps,
      hdram, hbh, hadds⟩
  case clear =>
    obtain ⟨u, hu, hcounted, honly, -⟩ := wordStrokes_of_pass hpass
    have hempty : (accCleared i w u).shell i = { u.shell i with acc := [], g32 := [] } := by
      rw [accCleared_of_clear hclear, shell_setShell_self]
    have hcleared : ShellOnly i s (accCleared i w u) := by
      rw [accCleared_of_clear hclear]
      exact shellOnly_trans honly (setShell_shellOnly u i _)
    have hrun := run_completes hw hf hr hu hfed hwhole (x := { s := accCleared i w u, begun := r.begun }) rfl rfl
      (drained_of_empty (congrArg Shell.acc hempty))
    obtain ⟨hdone, hrest, -⟩ :=
      runDone_spec i l q w f (runEnv i l q w f r (accCleared i w u)) { s := accCleared i w u, begun := r.begun }
    have hall := shellOnly_trans hcleared hrest
    obtain ⟨hdram, hbh⟩ := mem_of_shellOnly hall
    obtain ⟨-, -, hothers⟩ := hall
    have hlen := wordLen_of_run (wKind_of_wordAt hw) hf
    rw [hempty, hcounted] at hdone
    exact ⟨_, congrArg Host.Outcome.next hrun, hdone.acc, hdone.g32, hdone.pc, hdone.sram, hdone.strokes,
      fun hdrain => by rw [hlen, if_pos hdrain], fun hkept => by rw [hlen, hkept]; rfl, hothers, hdram, hbh⟩

end Sys2Proof.Runs
end

section
/-! PROOFS. MOVE_LANDED (R55): a unit lands the way that its transfer says, wherever the transfer stands, and the statement about
how transfers, rig frames, feeds and decoders complete takes every transfer among the inbound ones for an inbound one. -/

namespace Sys2Proof.Landings
open Sys2Proof Sys2Proof.Machine Sys2Proof.Words

theorem exec_moveLanded (i : ShellId) (out : Bool) (n : Nat) (s : State) :
    exec (.moveLanded i out n) s = .next (moveLanded i out n s) := rfl

/-! ## An outbound transfer among the inbound ones: no MOVE issues it there, and no premise of the statement excludes it -/

/-- One unit of SRAM on its way from address 0 to address 64, outbound. -/
def strayMove : Transfer :=
  { out := true, rig := none, gl := {}, gr := { base := 64#37 }, agr := 0, len := 1, landed := 0, lstep := 0, rstep := 0
    tick := 0#4, addTo := none, frameAt := 0 }

/-- Shell S00 runs a heat of L1, has a 1 at address 0 of its SRAM, and that transfer as its only inbound one. -/
def strayed : State :=
  State.reset.setShell 0 fun x => { x with running := some (1, 0#32), sram := [(0, 1#8)], inbound := [strayMove] }

theorem shell_strayed : strayed.shell 0 =
    { State.reset.shell 0 with running := some (1, 0#32), sram := [(0, 1#8)], inbound := [strayMove] } := shell_setShell_self _ _ _

/-- The unit that the statement has landing at address 0: the zeros that the remote generator names. -/
theorem unitRead_strayed : unitRead 0 1 0#32 strayMove.gr 0 strayed = (some (List.replicate 64 0#8), strayed) := by
  rfl

/-- The unit that lands is read at address 0 and leaves it as it was. -/
theorem moveLanded_strayed : ((moveLanded 0 false 1 strayed).shell 0).sram.get 0 = 1#8 := by decide

/-- Refutes O20, in its second clause: the 1 at address 0 of `strayed` stays, where the statement has the zeros of address 64 put
over it. -/
theorem not_transfersLand : ¬ Obligations.TransfersLand := by
  rintro ⟨-, hone, -⟩
  obtain ⟨t, hexec, hsram, -⟩ := hone 0 1 0#32 strayMove [] (List.replicate 64 0#8) strayed strayed
    (congrArg Shell.running shell_strayed) (congrArg Shell.inbound shell_strayed) rfl rfl rfl (by decide) rfl (by decide)
    (by decide) (by decide) (by decide) unitRead_strayed
  rw [exec_moveLanded] at hexec
  have hstays : ((strayed.shell 0).sram.put 0 (List.replicate 64 0#8)).get 0 = 1#8 :=
    calc ((strayed.shell 0).sram.put 0 (List.replicate 64 0#8)).get 0
      _ = (t.shell 0).sram.get 0 := (congrArg (fun m : Bytes => m.get 0) hsram).symm
      _ = ((moveLanded 0 false 1 strayed).shell 0).sram.get 0 := by rw [Host.Outcome.next.inj hexec]
      _ = 1#8 := moveLanded_strayed
  rw [shell_strayed] at hstays
  exact absurd hstays (by decide)

end Sys2Proof.Landings
end

section
/-! PROOFS. The log, the statistics and the activity windows (R161, R347, R396, R423, R424, R457): what each form of LOG and STAT
answers, what the end of a window leaves, and the statement about them. -/

namespace Sys2Proof.LogStat
open Sys2Proof Sys2Proof.Machine Sys2Proof.Laws Sys2Proof.Registers

/-! ## Replies of LOG: a line for each entry, and their count -/

/-- A call that recovery allows runs when start-up has ended and its line is free (R352). -/
theorem gate_inRecovery {s k : State} {c : Caller} {v : String} (hb : s.start.banner = true) (hl : s.lineBusy c = false) :
    s.gate c v true k = k := by
  simp [State.gate, hb, hl]

/-- A LOG that is answered changes nothing but the output, which takes its lines and their count. -/
theorem next_of_logReply {i : Instr} {c : Caller} {ls : List (List (String × Val))} {s : State}
    (h : exec i s = .next (logReply c ls s)) :
    ∃ t, exec i s = .next t ∧ t.quiet = s.quiet ∧ (∀ d ∈ ls, Replied c (dataLine c d) t) ∧
      Replied c (okLine c "LOG" [("", .dec ls.length)]) t :=
  ⟨_, h, okWith_quiet, fun _ => okWith_data, okWith_replied⟩

/-- The same of a LOG whose lines are those of the members of a list. -/
theorem next_of_logReply_map {α : Type} {i : Instr} {c : Caller} {f : α → List (String × Val)} {xs : List α} {n : Nat} {s : State}
    (h : exec i s = .next (logReply c (xs.map f) s)) (hn : xs.length = n) :
    ∃ t, exec i s = .next t ∧ t.quiet = s.quiet ∧ (∀ x ∈ xs, Replied c (dataLine c (f x)) t) ∧
      Replied c (okLine c "LOG" [("", .dec n)]) t := by
  obtain ⟨t, hexec, hquiet, hlines, hcount⟩ := next_of_logReply h
  rw [List.length_map, hn] at hcount
  exact ⟨t, hexec, hquiet, fun x hx => hlines (f x) (List.mem_map_of_mem hx), hcount⟩

theorem length_newest {α : Type} (n : Nat) (l : List α) : (newest n l).length = min n l.length := by
  simp only [newest, List.length_reverse, List.length_drop]
  omega

/-! ## LOG (R347, R396) -/

theorem exec_logFault (c : Caller) (n : Nat) (s : State) : exec (.logFault c n) s = .next (doLogFault c n s) := rfl

theorem exec_logLane (c : Caller) (l : LaneId) (n : Nat) (s : State) : exec (.logLane c l n) s = .next (doLogLane c l n s) := rfl

theorem exec_logBundle (c : Caller) (s : State) : exec (.logBundle c) s = .next (doLogBundle c s) := rfl

theorem logFault_records {c : Caller} {n : Nat} {s : State} (hb : s.start.banner = true) (hl : s.lineBusy c = false)
    (hn : 1 ≤ n ∧ n ≤ 512) :
    exec (.logFault c n) s = .next (logReply c ((newest n (s.faults.log.filter FaultRec.valid)).map faultLine) s) := by
  rw [exec_logFault, doLogFault, gate_inRecovery hb hl, if_neg (by omega)]

theorem logFault_outOfRange {c : Caller} {n : Nat} {s : State} (hb : s.start.banner = true) (hl : s.lineBusy c = false)
    (hn : n = 0 ∨ 512 < n) : exec (.logFault c n) s = .next (s.fail c "LOG" .range) := by
  rw [exec_logFault, doLogFault, gate_inRecovery hb hl, if_pos hn]

theorem logLane_own {c : Caller} {l : LaneId} {n : Nat} {s : State} (ht : Takes c s) (h : s.ownsLane c.path.path l = true)
    (hn : 1 ≤ n ∧ n ≤ 128) : exec (.logLane c l n) s = .next (logReply c (journalLines (s.lane l) l n) s) := by
  rw [exec_logLane, doLogLane, gate_takes ht, if_neg (by omega), if_neg (by simp [h])]

theorem logLane_other {c : Caller} {l : LaneId} {n : Nat} {s : State} (ht : Takes c s) (h : s.ownsLane c.path.path l = false)
    (hn : 1 ≤ n ∧ n ≤ 128) : exec (.logLane c l n) s = .next (s.fail c "LOG" .lane) := by
  rw [exec_logLane, doLogLane, gate_takes ht, if_neg (by omega), if_pos (by simp [h])]

/-- The handles of the records in use, from the lowest. -/
def usedHandles (s : State) : List (Fin 16) := (List.finRange 16).filter fun h => (s.bundle h).st != .free

theorem mem_usedHandles {s : State} {h : Fin 16} : h ∈ usedHandles s ↔ (s.bundle h).st ≠ .free := by
  simp [usedHandles]

theorem logBundle_records {c : Caller} {s : State} (ht : Takes c s) :
    exec (.logBundle c) s = .next (logReply c ((usedHandles s).reverse.map fun h => bundleLine h (s.bundle h)) s) := by
  rw [exec_logBundle, doLogBundle, gate_takes ht, List.filter_reverse, usedHandles]

/-- LOG BUNDLE sends its lines from the highest handle; the statement names them by their handles. -/
theorem logBundle_answers {c : Caller} {s : State} (ht : Takes c s) :
    ∃ t, exec (.logBundle c) s = .next t ∧ t.quiet = s.quiet ∧
      (∀ h : Fin 16, (s.bundle h).st ≠ .free → Replied c (dataLine c (bundleLine h (s.bundle h))) t) ∧
      Replied c (okLine c "LOG" [("", .dec (usedHandles s).length)]) t := by
  obtain ⟨t, hexec, hquiet, hlines, hcount⟩ := next_of_logReply_map (logBundle_records ht) List.length_reverse
  exact ⟨t, hexec, hquiet, fun h hu => hlines h (List.mem_reverse.mpr (mem_usedHandles.mpr hu)), hcount⟩

/-! ## STAT (R161, R347, R423, R424) -/

theorem exec_statLane (c : Caller) (l : LaneId) (s : State) : exec (.statLane c l) s = .next (doStatLane c l s) := rfl

theorem exec_statDevice (c : Caller) (s : State) : exec (.statDevice c) s = .next (doStatDevice c s) := rfl

/-- The fields of STAT for a heat's statistics. -/
def heatFields (l : LaneId) (h : HeatStat) : List (String × Val) :=
  [laneF l, decF "seq" h.seq.toNat, ("flags", .syms (hsFlagNames h.flags)), decF "i16" (fld h.flags 8 8),
   decF "h16" (fld h.flags 16 8), decF "cw" (sat32 h.counts.cw).toNat, decF "sw" (sat32 h.counts.sw).toNat,
   decF "fw" (sat32 h.counts.fw).toNat, decF "nw" h.counts.nw, decF "readcrab" (sat32 (h.counts.cr + h.counts.ca)).toNat]

theorem statLane_own {c : Caller} {l : LaneId} {s : State} (ht : Takes c s) (h : s.ownsLane c.path.path l = true) :
    exec (.statLane c l) s = .next (s.ok c "STAT" (heatFields l (s.lane l).hs)) := by
  rw [exec_statLane, doStatLane, gate_takes ht, if_neg (by simp [h])]
  rfl

theorem statLane_other {c : Caller} {l : LaneId} {s : State} (ht : Takes c s) (h : s.ownsLane c.path.path l = false) :
    exec (.statLane c l) s = .next (s.fail c "STAT" .lane) := by
  rw [exec_statLane, doStatLane, gate_takes ht, if_pos (by simp [h])]

/-- The fields of STAT DEVICE, each count shown by f. -/
def deviceFields (s : State) (f : Nat → Val) : List (String × Val) :=
  [bareF "DEVICE", decF "window" s.stat.window.toNat, ("strokes", f s.stat.devShown.strokes), ("retired", f s.stat.devShown.retired),
   ("dramrd", f s.stat.devShown.dramRd), ("dramwr", f s.stat.devShown.dramWr), ("bh", f s.stat.devShown.bh),
   ("codes", f s.stat.devShown.codes), ("aes", f s.stat.devShown.aes), ("win", f s.stat.devShown.win)]

theorem statDevice_fields {c : Caller} {s : State} (ht : Takes c s) :
    exec (.statDevice c) s =
      .next (s.ok c "STAT" (deviceFields s fun v => if s.statHidden then .dash else .dec (coarse v).toNat)) := by
  rw [exec_statDevice, doStatDevice, gate_takes ht]
  rfl

theorem statDevice_shown {c : Caller} {s : State} (ht : Takes c s) (hc : s.confidential = false) (hw : s.stat.hidden = false) :
    exec (.statDevice c) s = .next (s.ok c "STAT" (deviceFields s fun v => .dec (coarse v).toNat)) := by
  have h : s.statHidden = false := by simp [State.statHidden, hc, hw]
  simp only [statDevice_fields ht, h, Bool.false_eq_true, if_false]

theorem statDevice_hidden {c : Caller} {s : State} (ht : Takes c s) (h : s.confidential = true ∨ s.stat.hidden = true) :
    exec (.statDevice c) s = .next (s.ok c "STAT" (deviceFields s fun _ => .dash)) := by
  have hs : s.statHidden = true := by simpa [State.statHidden] using h
  simp only [statDevice_fields ht, hs, if_true]

/-! ## The end of a window (R457, R458) -/

theorem exec_statWindowEnd (s : State) : exec .statWindowEnd s = .next (statWindowEnd s) := rfl

theorem lane_statWindowEnd (s : State) (l : LaneId) : (statWindowEnd s).stat.lane[l] = {} := by
  simp [statWindowEnd]

theorem laneShown_statWindowEnd (s : State) (l : LaneId) :
    (statWindowEnd s).stat.laneShown[l] = if (s.lane l).st = .scrub then s.stat.laneShown[l] else s.stat.lane[l] := by
  simp [statWindowEnd, mapIdx]

/-! ## The statement -/

/-- Settles O50: its clauses in their order, each from the lemma on its form. -/
theorem logAndStat : Obligations.LogAndStat :=
  ⟨fun _ n _ hb hl hn => next_of_logReply_map (logFault_records hb hl hn) (length_newest n _),
   fun _ _ _ hb hl hn => next_of_fail (logFault_outOfRange hb hl hn),
   fun _ _ _ _ ht h hn => next_of_logReply (logLane_own ht h hn),
   fun _ _ _ _ ht h hn => next_of_fail (logLane_other ht h hn),
   fun _ _ ht => logBundle_answers ht,
   fun _ _ _ ht h => next_of_ok (statLane_own ht h),
   fun _ _ _ ht h => next_of_fail (statLane_other ht h),
   fun _ _ ht hc hw => next_of_ok (statDevice_shown ht hc hw),
   fun _ _ ht h => next_of_ok (statDevice_hidden ht h),
   fun s => ⟨_, exec_statWindowEnd s, rfl, rfl, rfl, rfl, rfl, fun l => ⟨lane_statWindowEnd s l, laneShown_statWindowEnd s l⟩⟩⟩

end Sys2Proof.LogStat
end

section
/-! PROOFS. The completion rings (R224, R364, R366): an entry that delivers a completion moves the lane's record of what has been
delivered, and the statement about the rings leaves that out. -/

namespace Sys2Proof.Completions
open Sys2Proof Sys2Proof.Machine Sys2Proof.Laws Sys2Proof.Registers

/-! ## An entry that fits one slot (R364) -/

theorem exec_completionRingWrite (n : LaneId) (s : State) : exec (.completionRingWrite n) s = .next (completionWrite n s) := rfl

theorem envelopes_short {text : List Byte} (h : text.length ≤ 256) (l : LaneId) (k : EnvKind) (q : W32) :
    envelopes l k q text = [envelope l k false q text] := by
  simp [envelopes, pieces, h]

/-- The entry of a completion is its delivery: the lane shows the heat as delivered (R224). -/
theorem lane_completionWrite {n : LaneId} {e : RingEntry} {rest : List RingEntry} {s : State} (hout : s.host.ring[n].out = e :: rest)
    (hkind : e.kind = .completion) (hlen : e.line.text.length ≤ 256)
    (hroom : held16 s.host.ring[n].cqTail s.host.ring[n].cqHead < 256) :
    (completionWrite n s).lane n = (s.lane n).show e.seq := by
  have hfree : ¬256 < held16 s.host.ring[n].cqTail s.host.ring[n].cqHead + 1 := by omega
  unfold completionWrite
  simp only [hout, hkind, envelopes_short hlen, List.length_singleton, hfree, if_false, if_true]
  have hslot : ((mailWrite s (cqSlot n s.host.ring[n].cqTail) (envelope n .completion false e.seq e.line.text)).setLane n
      fun L => L.show e.seq).lane n = (s.lane n).show e.seq := lane_setLane_self _ n _
  simpa only [State.lane, irq_lanes, setRing_lanes, putSlots] using hslot

/-! ## A completion that waits for its slot -/

/-- The completion of heat 0 of L1 as an entry of its ring. -/
def doneEntry : RingEntry := { kind := .completion, seq := 0#32, line := .evt "DONE" [laneF 1, decF "" 0, bareF "OK"], last := none }

/-- It waits in the empty ring of L1, which has delivered no completion yet. -/
def owing : State := State.reset.setRing 1 fun r => { r with out := [doneEntry] }

theorem shown_owing : (owing.lane 1).shown = 0#32 := rfl

theorem shown_completionWrite_owing : ((completionWrite 1 owing).lane 1).shown = 1#32 := by
  rw [lane_completionWrite (e := doneEntry) (rest := []) rfl rfl (by decide) (by decide), show_shown, shown_owing]
  rfl

/-! ## The statement -/

/-- Refutes O51, in its clause on COMPLETION_RING_WRITE with room: the completion that `owing` holds counts as delivered once it
stands in the ring, where the statement has nothing of the lanes change. -/
theorem not_ringsCarryCalls : ¬ Obligations.RingsCarryCalls := by
  rintro ⟨-, -, -, -, -, -, -, -, -, -, hwrite, -⟩
  obtain ⟨t, hexec, -, -, -, -, -, -, hframe⟩ := hwrite 1 doneEntry [] owing rfl (by decide) (by decide)
  have ht : t = completionWrite 1 owing := (Host.Outcome.next.inj hexec).symm
  have hlanes : (t.lane 1).shown = (owing.lane 1).shown := by rw [hframe]; rfl
  rw [ht, shown_completionWrite_owing, shown_owing] at hlanes
  exact absurd hlanes (by decide)

end Sys2Proof.Completions
end

section
/-! PROOFS. The Reset columns that the statement on reset values names (R208, R239, R421, R455). -/

namespace Sys2Proof.ResetValues
open Sys2Proof Sys2Proof.Machine

/-! ## The global registers, as the window reads them (R421, R455) -/

theorem glbStatus_reset : (readReg .cox 0x1000 State.reset).1 = 0x14000000#32 := by decide

theorem tickLo_reset : (readReg .cox 0x1004 State.reset).1 = 0#32 := by decide

theorem glbCall_reset : (readReg .cox 0x1014 State.reset).1 = 0x30000000#32 := by decide

/-! ## The lanes (R208) -/

theorem prio_reset : (State.reset.lanes.map fun (l : Lane) => l.prio) = ⟨#[0#2, 1#2, 1#2, 2#2], rfl⟩ := by
  simp [State.reset]

theorem free_reset : ∀ l : LaneId, l ≠ 0 → (State.reset.lanes[l]).st = .free := by decide

/-! ## The statement -/

/-- Settles O8: each value stands in the reset state as its register table has it. -/
theorem resetColumn : Obligations.ResetColumn :=
  ⟨glbCall_reset, glbStatus_reset, tickLo_reset, rfl, rfl, rfl, prio_reset, free_reset, rfl, rfl⟩

end Sys2Proof.ResetValues
end

section
/-! PROOFS. Changes of one lane: what a command that changes one lane leaves of the others, the shells, the memory, the bundles and
the tallies, what a change of owner and a delivery add (R175, R224, R225, R367), and what a reply that stands in the output
outlasts. -/

namespace Sys2Proof.LaneChanges
open Sys2Proof Sys2Proof.Machine Sys2Proof.Laws Sys2Proof.Registers Sys2Proof.Words

/-! ## Frames -/

theorem lane_setLane_ne (s : State) {l k : LaneId} (h : k ≠ l) (f : Lane → Lane) : (s.setLane l f).lane k = s.lane k :=
  getElem_upd_ne s.lanes h f

/-- The lanes, the shells, the memory, the bundles and the tallies stay. -/
structure Aside (s t : State) : Prop where
  lanes : t.lanes = s.lanes
  shells : t.shells = s.shells
  mem : t.mem = s.mem
  bundles : t.bundles = s.bundles
  tallies : t.tallies = s.tallies

namespace Aside

theorem refl (s : State) : Aside s s := ⟨rfl, rfl, rfl, rfl, rfl⟩

theorem trans {s t u : State} (h : Aside s t) (g : Aside t u) : Aside s u :=
  ⟨g.lanes.trans h.lanes, g.shells.trans h.shells, g.mem.trans h.mem, g.bundles.trans h.bundles, g.tallies.trans h.tallies⟩

theorem lane {s t : State} (h : Aside s t) (k : LaneId) : t.lane k = s.lane k := congrArg (fun v : Vector Lane 4 => v[k]) h.lanes

end Aside

/-- Lane l has become L; the other lanes, the shells, the memory, the bundles and the tallies stay. -/
structure LaneBecomes (l : LaneId) (L : Lane) (s t : State) : Prop where
  lane : t.lane l = L
  others : ∀ k, k ≠ l → t.lane k = s.lane k
  shells : t.shells = s.shells
  mem : t.mem = s.mem
  bundles : t.bundles = s.bundles
  tallies : t.tallies = s.tallies

theorem setLane_becomes (s : State) (l : LaneId) (f : Lane → Lane) : LaneBecomes l (f (s.lane l)) s (s.setLane l f) :=
  ⟨lane_setLane_self s l f, fun _ h => lane_setLane_ne s h f, rfl, rfl, rfl, rfl⟩

/-- A change that the lane's record shows keeps the record before it. -/
theorem bookLane_becomes {s : State} {l : LaneId} {f : Lane → Lane} {L : Lane}
    (h : { f (s.lane l) with prev := some (s.lane l).record } = L) : LaneBecomes l L s (s.bookLane l f) :=
  h ▸ setLane_becomes s l fun L => { f L with prev := some L.record }

namespace LaneBecomes

theorem refl (s : State) (l : LaneId) : LaneBecomes l (s.lane l) s s := ⟨rfl, fun _ _ => rfl, rfl, rfl, rfl, rfl⟩

theorem trans {l : LaneId} {L M : Lane} {s t u : State} (h : LaneBecomes l L s t) (g : LaneBecomes l M t u) : LaneBecomes l M s u :=
  ⟨g.lane, fun k hk => (g.others k hk).trans (h.others k hk), g.shells.trans h.shells, g.mem.trans h.mem, g.bundles.trans h.bundles,
   g.tallies.trans h.tallies⟩

theorem aside {l : LaneId} {L : Lane} {s t u : State} (h : LaneBecomes l L s t) (g : Aside t u) : LaneBecomes l L s u :=
  ⟨(g.lane l).trans h.lane, fun k hk => (g.lane k).trans (h.others k hk), g.shells.trans h.shells, g.mem.trans h.mem,
   g.bundles.trans h.bundles, g.tallies.trans h.tallies⟩

end LaneBecomes

/-! ## Replies, events, leases and owners -/

theorem ok_aside (s : State) (c : Caller) (verb : String) (fs : List (String × Val)) : Aside s (s.ok c verb fs) :=
  ⟨ok_lanes, ok_shells, ok_mem, ok_bundles, ok_tallies⟩

/-- A call that succeeds once lane l has become L leaves it so, and its reply in the output. -/
theorem next_of_becomes {i : Instr} {c : Caller} {verb : String} {fs : List (String × Val)} {l : LaneId} {L : Lane}
    {s r u : State} (h : exec i s = .next (u.ok c verb fs)) (hu : LaneBecomes l L r u) :
    ∃ t, exec i s = .next t ∧ LaneBecomes l L r t ∧ Replied c (okLine c verb fs) t :=
  ⟨_, h, hu.aside (ok_aside u c verb fs), ok_replied⟩

theorem raise_aside (s : State) (x : Line) : Aside s (s.raise x) :=
  ⟨raise_lanes, raise_shells, raise_mem, raise_bundles, raise_tallies⟩

theorem setRing_aside (s : State) (n : LaneId) (f : Ring → Ring) : Aside s (s.setRing n f) := ⟨rfl, rfl, rfl, rfl, rfl⟩

theorem leaseRenew_aside (s : State) : Aside s (leaseRenew s) := by
  unfold leaseRenew
  split
  · exact ⟨rfl, rfl, rfl, rfl, rfl⟩
  · exact .refl s

theorem setHost_aside (s : State) (f : HostLink → HostLink) : Aside s (s.setHost f) := ⟨rfl, rfl, rfl, rfl, rfl⟩

theorem leaseStart_aside (s : State) : Aside s (leaseStart s) := by
  unfold leaseStart
  split
  · exact .refl s
  · exact (setHost_aside s fun h => { h with leaseActive := true, leaseLapsed := false }).trans (leaseRenew_aside _)

theorem leaseCheck_aside (s : State) : Aside s (leaseCheck s) := by
  unfold leaseCheck
  split
  · exact .refl s
  · exact ⟨rfl, rfl, rfl, rfl, rfl⟩

theorem ownerChanged_aside (l : LaneId) (s : State) : Aside s (ownerChanged l s) := ⟨rfl, rfl, rfl, rfl, rfl⟩

/-! ## Held completions (R224) -/

theorem mem_seqs {L : Lane} {q : W32} (h : q ∈ L.seqs) : L.unreleased q = true := by
  obtain ⟨k, hk, rfl⟩ := List.mem_map.mp h
  have hlt : k < Nat.min 128 (L.next - L.oldest).toNat := List.mem_range.mp hk
  have h128 : k < 128 := Nat.lt_of_lt_of_le hlt (Nat.min_le_left _ _)
  have hspan : k < (L.next - L.oldest).toNat := Nat.lt_of_lt_of_le hlt (Nat.min_le_right _ _)
  have hback : (L.oldest + w32 k - L.oldest).toNat = k := by
    rw [BitVec.add_comm, BitVec.add_sub_cancel, w32, BitVec.toNat_ofNat, Nat.mod_eq_of_lt (by omega)]
  simpa only [Lane.unreleased, hback, decide_eq_true_eq] using hspan

theorem unreleased_of_held {L : Lane} {q : W32} (h : L.heldSeqs.contains q = true) : L.unreleased q = true :=
  mem_seqs (List.mem_filter.mp (List.contains_iff_mem.mp h)).1

theorem heldSeqs_of_next {L : Lane} (h : L.next = L.oldest) : L.heldSeqs = [] := by simp [Lane.heldSeqs, Lane.seqs, h]

/-! ## Deliveries (R224, R225) -/

/-- What waits to go out on the Call line and in the completion rings still waits. -/
structure OutputStays (s t : State) : Prop where
  tx : ∀ x ∈ s.call.tx, x ∈ t.call.tx
  out : ∀ n : LaneId, ∀ e ∈ s.host.ring[n].out, e ∈ t.host.ring[n].out

theorem OutputStays.refl (s : State) : OutputStays s s := ⟨fun _ h => h, fun _ _ h => h⟩

theorem OutputStays.trans {s t u : State} (h : OutputStays s t) (g : OutputStays t u) : OutputStays s u :=
  ⟨fun x hx => g.tx x (h.tx x hx), fun n e he => g.out n e (h.out n e he)⟩

theorem OutputStays.replied {s t : State} (g : OutputStays s t) {c : Caller} {x : Line} (h : Replied c x s) : Replied c x t := by
  unfold Replied at *
  cases hp : c.path with
  | call =>
    rw [hp] at h
    exact g.tx _ h
  | host =>
    rw [hp] at h
    obtain ⟨e, he, hx⟩ := h
    exact ⟨e, g.out c.ring e he, hx⟩

theorem setLane_output (s : State) (l : LaneId) (f : Lane → Lane) : OutputStays s (s.setLane l f) :=
  ⟨fun _ h => h, fun _ _ h => h⟩

theorem callEvent_tx {s : State} {x : TxItem} (h : x ∈ s.call.tx) (y : Line) : x ∈ (s.callEvent y).call.tx := by
  unfold State.callEvent
  split
  · split
    · refine List.mem_append_left _ (prompt_tx ?_)
      simp [State.txChars, h]
    · exact List.mem_append_left _ h
  · exact h

theorem ringEvent_ring (s : State) (y : Line) : (s.ringEvent y).host.ring = s.host.ring := by
  unfold State.ringEvent
  simp only
  generalize (if y.look then (0 : Fin 2) else 1) = k
  split <;> rfl

theorem raise_output (s : State) (y : Line) : OutputStays s (s.raise y) := by
  unfold State.raise
  split
  · constructor
    · intro x hx
      rw [ringEvent_call]
      exact callEvent_tx hx y
    · intro n e he
      simpa only [ringEvent_ring, callEvent_host] using he
  · exact ⟨fun _ h => h, fun _ _ h => h⟩

theorem ring_setRing_self (s : State) (n : LaneId) (f : Ring → Ring) : (s.setRing n f).host.ring[n] = f s.host.ring[n] :=
  getElem_upd_self s.host.ring n f

theorem ring_setRing_ne (s : State) {n k : LaneId} (h : k ≠ n) (f : Ring → Ring) : (s.setRing n f).host.ring[k] = s.host.ring[k] :=
  getElem_upd_ne s.host.ring h f

theorem setRing_output (s : State) {n : LaneId} {f : Ring → Ring} (hf : ∀ e ∈ s.host.ring[n].out, e ∈ (f s.host.ring[n]).out) :
    OutputStays s (s.setRing n f) := by
  refine ⟨fun _ h => h, fun k e he => ?_⟩
  by_cases hk : k = n
  · subst hk
    simpa only [ring_setRing_self] using hf e he
  · simpa only [ring_setRing_ne s hk] using he

/-- A delivery to a party outside the engine: lane l alone changes, and there only how far it has been delivered; what waits to go
out still waits. -/
structure Delivers (l : LaneId) (s t : State) : Prop where
  shown : ∃ n, LaneBecomes l { s.lane l with shown := n } s t
  output : OutputStays s t

namespace Delivers

theorem refl (l : LaneId) (s : State) : Delivers l s s := ⟨⟨_, .refl s l⟩, .refl s⟩

theorem trans {l : LaneId} {s t u : State} (h : Delivers l s t) (g : Delivers l t u) : Delivers l s u := by
  obtain ⟨⟨n, hn⟩, hr⟩ := h
  obtain ⟨⟨m, hm⟩, gr⟩ := g
  rw [hn.lane] at hm
  exact ⟨⟨m, hn.trans hm⟩, hr.trans gr⟩

theorem owner {l : LaneId} {s t : State} (h : Delivers l s t) : (t.lane l).owner = (s.lane l).owner := by
  obtain ⟨n, hn⟩ := h.shown
  rw [hn.lane]

end Delivers

theorem show_eq (L : Lane) (q : W32) : ∃ n, L.show q = { L with shown := n } := by
  unfold Lane.show
  split
  · exact ⟨_, rfl⟩
  · exact ⟨_, rfl⟩

theorem deliver_delivers {l : LaneId} {s : State} (h : (s.lane l).owner ≠ .engine) (q : W32) : Delivers l s (deliver l q s) := by
  unfold deliver
  split
  · exact .refl l s
  · dsimp only
    split
    · exact .refl l s
    · contradiction
    · obtain ⟨n, hn⟩ := show_eq (s.lane l) q
      have hshow := setLane_becomes s l fun L => L.show q
      rw [hn] at hshow
      exact ⟨⟨n, hshow.aside (raise_aside _ _)⟩, (setLane_output s l _).trans (raise_output _ _)⟩
    · exact ⟨⟨_, (LaneBecomes.refl s l).aside (setRing_aside _ _ _)⟩, setRing_output s fun _ => List.mem_append_left _⟩

theorem redeliver_delivers {l : LaneId} {s : State} (h : (s.lane l).owner ≠ .engine) : Delivers l s (redeliver l s) := by
  unfold redeliver
  generalize (s.lane l).heldSeqs = qs
  induction qs generalizing s with
  | nil => exact .refl l s
  | cons q qs ih =>
    have hq := deliver_delivers h q
    exact hq.trans (ih (hq.owner ▸ h))

theorem redeliver_of_none {l : LaneId} {s : State} (h : (s.lane l).heldSeqs = []) : redeliver l s = s := by
  rw [redeliver, h, List.foldl_nil]

end Sys2Proof.LaneChanges
end

section
/-! PROOFS. The calls on lanes (R208, R209, R344, R369): what LANE STATE, OPEN, CLOSE, CLOSE discard and CLAIM answer and leave, and
the statement about them. -/

namespace Sys2Proof.LaneCalls
open Sys2Proof Sys2Proof.Machine Sys2Proof.Laws Sys2Proof.Registers Sys2Proof.Words Sys2Proof.LaneChanges

theorem exec_laneState (c : Caller) (l : LaneId) (s : State) : exec (.laneState c l) s = .next (doLaneState c l s) := rfl

theorem exec_laneOpen (c : Caller) (l : LaneId) (q : Option W32) (p : Option (BitVec 2)) (s : State) :
    exec (.laneOpen c l q p) s = .next (doLaneOpen c l q p s) := rfl

theorem exec_laneClose (c : Caller) (l : LaneId) (s : State) : exec (.laneClose c l) s = .next (doLaneClose c l s) := rfl

theorem exec_laneCloseDiscard (c : Caller) (l : LaneId) (s : State) :
    exec (.laneCloseDiscard c l) s = .next (doLaneCloseDiscard c l s) := rfl

theorem exec_laneClaim (c : Caller) (l : LaneId) (s : State) : exec (.laneClaim c l) s = .next (doLaneClaim c l s) := rfl

theorem laneMay_own {c : Caller} {l : LaneId} {s : State} (hst : (s.lane l).st ≠ .scrub) (h : (s.lane l).owner = c.path.owner) :
    laneMay c l s = .ok () := by
  simp [laneMay, State.laneOwner, chk, hst, h, bind, Except.bind]

/-! ## LANE STATE (R344) -/

/-- The fields of LANE STATE. -/
def stateFields (l : LaneId) (s : State) : List (String × Val) :=
  [laneF l, symF "state" (s.lane l).st.text, ("owner", ownerText (s.lane l).owner), decF "prio" (s.lane l).prio.toNat,
   decF "next" (s.lane l).next.toNat, decF "oldest" (s.lane l).oldest.toNat, decF "accepted" (s.lane l).runs.length,
   decF "running" (s.lane l).running, decF "held" (s.lane l).heldSeqs.length, ("flags", .syms (laneFlags l s))]

theorem laneState_eq {c : Caller} {s : State} (ht : Takes c s) (l : LaneId) :
    exec (.laneState c l) s = .next (s.ok c "LANE" (stateFields l s)) := by
  rw [exec_laneState, doLaneState, gate_takes ht]
  rfl

/-! ## LANE OPEN (R209, R344) -/

/-- A lane as OPEN leaves it: with its owner, its next number and its priority, and the record before kept. -/
def opened (o : Owner) (q : Option W32) (p : Option (BitVec 2)) (L : Lane) : Lane :=
  { L with
    st := .opened, owner := o, next := q.getD 1#32, oldest := q.getD 1#32, shown := q.getD 1#32, first := q.getD 1#32, hc := 0#32
    prio := p.getD L.prio, prev := some L.record }

theorem openLane_becomes (o : Owner) (l : LaneId) (q : Option W32) (p : Option (BitVec 2)) (s : State) :
    LaneBecomes l (opened o q p (s.lane l)) s (openLane o l q p s) := by
  unfold openLane
  refine LaneBecomes.aside ?_ (ownerChanged_aside l _)
  split
  · refine LaneBecomes.aside ?_ (leaseStart_aside _)
    exact bookLane_becomes rfl
  · exact bookLane_becomes rfl

section
variable {c : Caller} {l : LaneId} {q : Option W32} {p : Option (BitVec 2)} {s : State} (ht : Takes c s)
include ht

theorem laneOpen_free (hl : l ≠ 0) (h : (s.lane l).st = .free) :
    exec (.laneOpen c l q p) s = .next ((openLane c.path.owner l q p s).ok c "LANE"
      [laneF l, bareF "OPEN", ("owner", ownerText c.path.owner), decF "next" (q.getD 1#32).toNat]) := by
  have hlane := (openLane_becomes c.path.owner l q p s).lane
  have hnone : ((openLane c.path.owner l q p s).lane l).heldSeqs = [] := by rw [hlane]; exact heldSeqs_of_next rfl
  rw [exec_laneOpen, doLaneOpen, gate_takes ht, if_neg hl, if_neg (by simp [h]), if_neg (by simp [h])]
  simp only
  rw [redeliver_of_none (((ok_aside _ _ _ _).lane l).symm ▸ hnone), hlane]
  rfl

theorem laneOpen_taken (hl : l ≠ 0) (h : (s.lane l).st ≠ .free) (ho : ¬((s.lane l).st = .orphaned ∧ c.path = .host)) :
    exec (.laneOpen c l q p) s = .next (s.fail c "LANE" .state) := by
  rw [exec_laneOpen, doLaneOpen, gate_takes ht, if_neg hl, if_neg ho, if_pos h]

theorem laneOpen_orphaned (h : (s.lane l).st = .orphaned) (hp : c.path = .host) :
    exec (.laneOpen c l q p) s = .next (s.fail c "LANE" .lane) := by
  rw [exec_laneOpen, doLaneOpen, gate_takes ht]
  simp only [h, hp, and_self, if_true, ite_self]

theorem laneOpen_zero : exec (.laneOpen c 0 q p) s = .next (s.fail c "LANE" .lane) := by
  rw [exec_laneOpen, doLaneOpen, gate_takes ht, if_pos rfl]

end

/-! ## LANE CLOSE (R209, R344) -/

/-- A lane as its end leaves it, with the record before kept. -/
def freed (L : Lane) : Lane :=
  { L with st := .free, owner := .nobody, runs := [], commits := [], recovering := false, prev := some L.record }

theorem freeLane_becomes (l : LaneId) (s : State) : LaneBecomes l (freed (s.lane l)) s (freeLane l s) := by
  refine LaneBecomes.aside ?_ ((ownerChanged_aside l _).trans (leaseCheck_aside _))
  exact bookLane_becomes rfl

section
variable {c : Caller} {l : LaneId} {s : State} (ht : Takes c s) (hl : l ≠ 0) (hst : (s.lane l).st ≠ .scrub)
  (hown : (s.lane l).owner = c.path.owner)
include ht hl hst hown

theorem laneClose_empty (h : (s.lane l).next = (s.lane l).oldest) :
    exec (.laneClose c l) s = .next ((freeLane l s).ok c "LANE" [laneF l, bareF "CLOSE"]) := by
  rw [exec_laneClose, doLaneClose, gate_takes ht, if_neg hl, laneMay_own hst hown]
  simp only [h, ne_eq, not_true, if_false]

theorem laneClose_busy (h : (s.lane l).next ≠ (s.lane l).oldest) : exec (.laneClose c l) s = .next (s.fail c "LANE" .busy) := by
  rw [exec_laneClose, doLaneClose, gate_takes ht, if_neg hl, laneMay_own hst hown]
  simp only [h, ne_eq, not_false_iff, if_true]

end

/-! ## LANE CLOSE discard (R214, R369) -/

/-- The other lanes stay, and the next number of lane l. -/
structure Discards (l : LaneId) (s t : State) : Prop where
  next : (t.lane l).next = (s.lane l).next
  others : ∀ k, k ≠ l → t.lane k = s.lane k

namespace Discards

theorem of_lanes {l : LaneId} {s t : State} (h : t.lanes = s.lanes) : Discards l s t :=
  ⟨by simp only [State.lane, h], fun k _ => by simp only [State.lane, h]⟩

theorem trans {l : LaneId} {s t u : State} (h : Discards l s t) (g : Discards l t u) : Discards l s u :=
  ⟨g.next.trans h.next, fun k hk => (g.others k hk).trans (h.others k hk)⟩

theorem foldl {α : Type} {l : LaneId} {f : State → α → State} (hf : ∀ s x, Discards l s (f s x)) (xs : List α) (s : State) :
    Discards l s (xs.foldl f s) := by
  induction xs generalizing s with
  | nil => exact of_lanes rfl
  | cons x xs ih => exact (hf s x).trans (ih _)

end Discards

theorem adapterGive_lanes (l : LaneId) (q : W32) (s : State) : (adapterGive l q s).lanes = s.lanes := by
  unfold adapterGive
  split
  · split
    · split
      · rfl
      · split <;> rfl
    · rfl
  · rfl

theorem spoilOutputs_lanes (m : Vector (Option ShellId) 16) (rs : List (Nat × Nat)) (s : State) :
    (spoilOutputs m rs s).lanes = s.lanes := by
  unfold spoilOutputs
  induction rs generalizing s with
  | nil => rfl
  | cons x rs ih =>
    rw [List.foldl_cons, ih]
    split
    · rfl
    · split <;> rfl
    · rfl
    · rfl
    · rfl

theorem foldl_lanes {α : Type} (f : State → α → State) (hf : ∀ s x, (f s x).lanes = s.lanes) (xs : List α) (s : State) :
    (xs.foldl f s).lanes = s.lanes := by
  induction xs generalizing s with
  | nil => rfl
  | cons x xs ih => exact (ih _).trans (hf s x)

theorem endWaits_lanes (l : LaneId) (q : W32) (st : Status) (s : State) : (endWaits l q st s).lanes = s.lanes := by
  unfold endWaits
  simp only
  rw [foldl_lanes _ fun _ _ => ok_lanes]
  split
  · split
    · exact ok_lanes
    · rfl
  · rfl

theorem retire_discards (s : State) (l : LaneId) (r : HeatRun) (t : RetireRec) : Discards l s (s.setLane l fun L => L.retire r t) :=
  have h := setLane_becomes s l fun L => L.retire r t
  ⟨by rw [h.lane]; rfl, h.others⟩

theorem ended_discards (counts : Bool) (l : LaneId) (q : W32) (s : State) :
    Discards l s (endWaits l q .discarded (if counts then countRetire l s else s)) := by
  refine .of_lanes ?_
  rw [endWaits_lanes]
  split <;> rfl

theorem discardOne_discards (counts : Bool) (l : LaneId) (s : State) (q : W32) : Discards l s (discardOne counts l q s) := by
  cases hrun : (s.lane l).run q with
  | none =>
    simp only [discardOne, hrun]
    exact .of_lanes rfl
  | some r =>
    have hspoil : (spoilOutputs r.map (s.outputsOf l q) (adapterGive l q (s.stopShells l q))).lanes = s.lanes := by
      rw [spoilOutputs_lanes, adapterGive_lanes]
      rfl
    simp only [discardOne, hrun]
    exact (Discards.of_lanes hspoil).trans ((retire_discards _ l _ _).trans (ended_discards counts l q _))

/-- Each accepted heat of the lane discarded, in their order. -/
def heatsDiscarded (counts : Bool) (l : LaneId) (s : State) : State :=
  ((s.lane l).runs.map (·.seq)).foldl (fun s q => discardOne counts l q s) s

/-- The lane with every number released. -/
def released (L : Lane) : Lane := { L with oldest := L.next, commits := [] }

theorem discardLane_lanes (counts : Bool) (l : LaneId) (s : State) :
    (discardLane counts l s).lanes = ((heatsDiscarded counts l s).setLane l released).lanes := rfl

theorem lane_discardLane (counts : Bool) (l : LaneId) (s : State) :
    (discardLane counts l s).lane l = released ((heatsDiscarded counts l s).lane l) := by
  rw [State.lane, discardLane_lanes]
  exact lane_setLane_self _ l released

theorem heatsDiscarded_discards (counts : Bool) (l : LaneId) (s : State) : Discards l s (heatsDiscarded counts l s) :=
  .foldl (discardOne_discards counts l) _ s

theorem discardLane_discards (counts : Bool) (l : LaneId) (s : State) : Discards l s (discardLane counts l s) := by
  refine (heatsDiscarded_discards counts l s).trans ⟨by rw [lane_discardLane]; rfl, fun k hk => ?_⟩
  rw [State.lane, discardLane_lanes]
  exact lane_setLane_ne _ hk released

theorem oldest_discardLane (counts : Bool) (l : LaneId) (s : State) : ((discardLane counts l s).lane l).oldest = (s.lane l).next := by
  rw [lane_discardLane]
  exact (heatsDiscarded_discards counts l s).next

section
variable {c : Caller} {l : LaneId} {s : State} (ht : Takes c s)
include ht

theorem laneCloseDiscard_orphaned (h : (s.lane l).st = .orphaned) :
    exec (.laneCloseDiscard c l) s = .next ((freeLane l (discardLane true l s)).ok c "LANE"
      [laneF l, bareF "CLOSE", decF "discarded" (s.lane l).runs.length,
       decF "released" ((s.lane l).runs.length + (s.lane l).heldSeqs.length)]) := by
  rw [exec_laneCloseDiscard, doLaneCloseDiscard, gate_takes ht, if_neg (not_not_intro h)]
  rfl

theorem laneCloseDiscard_other (h : (s.lane l).st ≠ .orphaned) :
    exec (.laneCloseDiscard c l) s = .next (s.fail c "LANE" .state) := by
  rw [exec_laneCloseDiscard, doLaneCloseDiscard, gate_takes ht, if_pos h]

end

/-! ## LANE CLAIM (R209, R369) -/

/-- A lane as CLAIM leaves it, with the record before kept. -/
def claimed (c : Caller) (L : Lane) : Lane := { L with st := .opened, owner := c.path.owner, prev := some L.record }

theorem claimed_owner (c : Caller) (L : Lane) : (claimed c L).owner ≠ .engine := by
  unfold claimed
  cases c.path <;> exact Owner.noConfusion

/-- The ORPHANED lane claimed, before the reply. -/
def claiming (c : Caller) (l : LaneId) (s : State) : State :=
  let u := ownerChanged l (s.bookLane l fun L => { L with st := .opened, owner := c.path.owner })
  if c.path = .host then leaseStart u else u

theorem claiming_becomes (c : Caller) (l : LaneId) (s : State) : LaneBecomes l (claimed c (s.lane l)) s (claiming c l s) := by
  unfold claiming
  simp only
  split
  · refine LaneBecomes.aside ?_ ((ownerChanged_aside l _).trans (leaseStart_aside _))
    exact bookLane_becomes rfl
  · refine LaneBecomes.aside ?_ (ownerChanged_aside l _)
    exact bookLane_becomes rfl

/-- A ring without the completions that wait for it: their deliveries follow again. -/
def withoutCompletions (r : Ring) : Ring := { r with out := r.out.filter fun e => e.kind != .completion }

/-- The fields of a CLAIM's reply. -/
def claimFields (l : LaneId) (L : Lane) : List (String × Val) :=
  [laneF l, bareF "CLAIM", decF "next" L.next.toNat, decF "held" L.heldSeqs.length]

theorem claimLane_orphaned {c : Caller} {l : LaneId} {s : State} (h : (s.lane l).st = .orphaned) :
    claimLane c l s = redeliver l (((claiming c l s).ok c "LANE" (claimFields l ((claiming c l s).lane l))).setRing l
      withoutCompletions) := by
  rw [claimLane]
  simp only [h, if_true]
  rfl

theorem laneClaim_orphaned {c : Caller} {l : LaneId} {s : State} (ht : Takes c s) (hl : l ≠ 0) (h : (s.lane l).st = .orphaned) :
    exec (.laneClaim c l) s =
      .next (redeliver l (((claiming c l s).ok c "LANE" (claimFields l (s.lane l))).setRing l withoutCompletions)) := by
  rw [exec_laneClaim, doLaneClaim, gate_takes ht, if_neg hl, h]
  simp only
  rw [claimLane_orphaned h, (claiming_becomes c l s).lane]
  rfl

/-- A reply's entry in the host's ring. -/
def replyEntry (c : Caller) (x : Line) : RingEntry := { kind := .reply, seq := c.seq, line := x, last := c.at_ }

theorem ok_host {c : Caller} (h : c.path = .host) (s : State) (verb : String) (fs : List (String × Val)) :
    s.ok c verb fs = s.setRing c.ring fun r => { r with out := r.out ++ [replyEntry c (okLine c verb fs)] } := by
  simp [State.ok, State.okWith, State.reply, h, replyEntry]

/-- A reply in the host's ring is no completion, which the deliveries after a CLAIM put there again. -/
theorem ok_withoutCompletions (s : State) (c : Caller) (verb : String) (fs : List (String × Val)) (l : LaneId) :
    Replied c (okLine c verb fs) ((s.ok c verb fs).setRing l withoutCompletions) := by
  have hr : Replied c (okLine c verb fs) (s.ok c verb fs) := ok_replied
  unfold Replied at *
  cases hp : c.path with
  | call =>
    rw [hp] at hr
    exact hr
  | host =>
    refine ⟨replyEntry c (okLine c verb fs), ?_, rfl⟩
    have hentry : replyEntry c (okLine c verb fs) ∈ (s.ok c verb fs).host.ring[c.ring].out := by
      rw [ok_host hp, ring_setRing_self]
      exact List.mem_append_right _ (List.mem_singleton_self _)
    by_cases hl : c.ring = l
    · subst hl
      rw [ring_setRing_self]
      exact List.mem_filter.mpr ⟨hentry, rfl⟩
    · rwa [ring_setRing_ne _ hl]

/-! ## The statement -/

/-- Settles O25: its clauses in their order, each from the lemma on its form. -/
theorem lanesOpenAndClose : Obligations.LanesOpenAndClose := by
  refine ⟨fun c l s ht => next_of_ok (laneState_eq ht l),
    fun c l q p s ht hl h => ?openFree,
    fun c l q p s ht hl h ho => next_of_fail (laneOpen_taken ht hl h ho),
    fun c l q p s ht h hp => next_of_fail (laneOpen_orphaned ht h hp),
    fun c q p s ht => next_of_fail (laneOpen_zero ht),
    fun c l s ht hl hst hown h => ?closeEmpty,
    fun c l s ht hl hst hown h => next_of_fail (laneClose_busy ht hl hst hown h),
    fun c l s ht hl h => ?closeDiscard,
    fun c l s ht h => next_of_fail (laneCloseDiscard_other ht h),
    fun c l s ht hl h => ?claim⟩
  case openFree =>
    obtain ⟨t, hexec, ho, hr⟩ := next_of_becomes (laneOpen_free ht hl h) (openLane_becomes c.path.owner l q p s)
    exact ⟨t, hexec, ho.lane, ho.others, ho.shells, ho.mem, ho.bundles, hr⟩
  case closeEmpty =>
    obtain ⟨t, hexec, hf, hr⟩ := next_of_becomes (laneClose_empty ht hl hst hown h) (freeLane_becomes l s)
    exact ⟨t, hexec, hf.lane, hf.others, hf.shells, hf.mem, hf.bundles, hr⟩
  case closeDiscard =>
    have hd := discardLane_discards true l s
    have hf := freeLane_becomes l (discardLane true l s)
    obtain ⟨t, hexec, hc, hr⟩ := next_of_becomes (laneCloseDiscard_orphaned ht h) hf
    refine ⟨t, hexec, ?_, ?_, ?_, ?_, ?_, fun k hk => (hc.others k hk).trans (hd.others k hk), hr⟩ <;> rw [hc.lane]
    · rfl
    · rfl
    · rfl
    · exact hd.next
    · exact oldest_discardLane true l s
  case claim =>
    have hu := ((claiming_becomes c l s).aside (ok_aside _ c "LANE" (claimFields l (s.lane l)))).aside
      (setRing_aside _ l withoutCompletions)
    have hd := redeliver_delivers (hu.lane ▸ claimed_owner c (s.lane l))
    obtain ⟨n, hn⟩ := hd.shown
    rw [hu.lane] at hn
    have hc := hu.trans hn
    refine ⟨_, laneClaim_orphaned ht hl h, ?_, ?_, ?_, ?_, ?_, ?_, ?_, hc.others, hc.shells, hc.mem,
      hd.output.replied (ok_withoutCompletions _ _ _ _ _)⟩ <;> rw [hc.lane] <;> rfl

end Sys2Proof.LaneCalls
end

section
/-! PROOFS. The calls on heats (R211, R213, R224, R230, R345): what HEAT, TAKE, WAIT and the end of a WAIT answer and leave, and the
statement about them. -/

namespace Sys2Proof.HeatCalls
open Sys2Proof Sys2Proof.Machine Sys2Proof.Laws Sys2Proof.Registers Sys2Proof.LaneChanges Sys2Proof.LaneCalls

theorem exec_heat (c : Caller) (l : LaneId) (sq : Option W32) (h e : Nat) (a : List HeatArg) (s : State) :
    exec (.heat c l sq h e a) s = .next (doHeat c l sq h e a s) := rfl

theorem exec_take (c : Caller) (l : LaneId) (q : Option W32) (s : State) : exec (.take c l q) s = .next (doTake c l q s) := rfl

theorem exec_wait (c : Caller) (l : LaneId) (q : Option W32) (ms : Nat) (s : State) :
    exec (.wait c l q ms) s = .next (doWait c l q s) := rfl

theorem exec_waitTimeout (c : Caller) (s : State) : exec (.waitTimeout c) s = .next (waitTimeout c s) := rfl

/-! ## Acceptance (R213, R214, R227) -/

/-- The ACCEPT record of a heat that l accepts next. -/
def acceptRec (src : Source) (l : LaneId) (k : Fin 16) (x : Entry) (a : List HeatArg) (tag : List Byte) (s : State) : AcceptRec :=
  { source := src, handle := k, adSlot := adapterOf a, entry := x.number
    relDep := distBack (s.lane l).next (relations l x a s).1, relWait := distBack (s.lane l).next (relations l x a s).2
    tag := tag.take 16, tAcc := s.now, hcAcc := if x.hostAdd then (s.lane l).hc else 0#32, args := a }

/-- Its run, which waits. -/
def acceptRun (l : LaneId) (x : Entry) (a : List HeatArg) (s : State) : HeatRun :=
  { seq := (s.lane l).next, ord := s.nextOrd, after := (relations l x a s).1, behind := (relations l x a s).2 }

/-- A lane that has accepted a heat with a record and a run. -/
def accepted (b : AcceptRec) (r : HeatRun) (L : Lane) : Lane :=
  { L with
    next := L.next + 1#32
    journal := Tab.set L.journal (L.next.toNat % 128) { seq := L.next, accept := some b, stats := none, retire := none }
    runs := L.runs ++ [r]
    prev := some L.record }

theorem block_accepted (b : AcceptRec) (r : HeatRun) (L : Lane) :
    (accepted b r L).block L.next = some { seq := L.next, accept := some b, stats := none, retire := none } := by
  simp [Lane.block, accepted, Arbiters.get?_set_self]

theorem acceptOf_accepted (b : AcceptRec) (r : HeatRun) (L : Lane) : (accepted b r L).acceptOf L.next = some b := by
  rw [Lane.acceptOf, block_accepted]
  rfl

theorem retireOf_accepted (b : AcceptRec) (r : HeatRun) (L : Lane) : (accepted b r L).retireOf L.next = none := by
  rw [Lane.retireOf, block_accepted]
  rfl

theorem setAd_aside (s : State) (n : Fin 8) (f : AdSlot → AdSlot) : Aside s (s.setAd n f) := ⟨rfl, rfl, rfl, rfl, rfl⟩

theorem journalAccept_becomes (src : Source) (l : LaneId) (k : Fin 16) (x : Entry) (a : List HeatArg) (tag : List Byte) (s : State) :
    LaneBecomes l (accepted (acceptRec src l k x a tag s) (acceptRun l x a s) (s.lane l)) s (journalAccept src l k x a tag s) := by
  unfold journalAccept
  simp only
  split
  · refine LaneBecomes.aside ?_ (setAd_aside _ _ _)
    exact bookLane_becomes rfl
  · exact bookLane_becomes rfl

section
variable {o : Owner} {src : Source} {l : LaneId} {sq : Option W32} {h e : Nat} {a : List HeatArg} {tag : List Byte} {s : State}

theorem submit_accepts {k : Fin 16} {x : Entry} (hr : (s.lane l).recovering = false) (hst : (s.lane l).st = .opened)
    (hown : (s.lane l).owner = o) (hq : sq.getD (s.lane l).next = (s.lane l).next)
    (hchecks : (heatChecks l h e a s).toOption = some (k, x)) :
    submit (some o) src l sq h e a tag s = .ok ((s.lane l).next, journalAccept src l k x a tag s) := by
  have hok : heatChecks l h e a s = .ok (k, x) := by
    cases hc : heatChecks l h e a s with
    | error d => simp [hc, Except.toOption] at hchecks
    | ok y => simpa [hc, Except.toOption] using hchecks
  simp [submit, hr, hst, hown, hq, hok, chk, liftErr, seqCheck, bind, Except.bind]

theorem submit_recovering (hr : (s.lane l).recovering = true) : submit (some o) src l sq h e a tag s = .error (.busy, []) := by
  simp [submit, hr, chk, liftErr, bind, Except.bind]

theorem submit_other (hr : (s.lane l).recovering = false) (hst : (s.lane l).st ≠ .scrub) (hown : (s.lane l).owner ≠ o) :
    submit (some o) src l sq h e a tag s = .error (.lane, []) := by
  simp [submit, hr, hst, hown, chk, liftErr, bind, Except.bind]

end

/-! ## HEAT (R345) -/

section
variable {c : Caller} {l : LaneId} {sq : Option W32} {h e : Nat} {a : List HeatArg} {s : State} (ht : Takes c s)
include ht

theorem doHeat_submits (hnext : sq ≠ none ∨ c.path = .call ∧ s.call.terse = false) :
    doHeat c l sq h e a s =
      match submit (some c.path.owner) c.path.src l sq h e a (c.tag.getD []) s with
      | .ok (q, s) => s.ok c "HEAT" [laneF l, ("", .dec q.toNat), bareF "ACCEPTED"]
      | .error (d, fs) => s.failWith c "HEAT" d fs := by
  have hspelt : (sq.isNone && (c.path == .host || s.call.terse)) = false := by
    obtain hsome | ⟨hp, hm⟩ := hnext
    · simp [hsome]
    · simp [hp, hm]
  rw [doHeat, gate_takes ht, hspelt]
  rfl

theorem heat_accepts {k : Fin 16} {x : Entry}
    (hq : sq = some (s.lane l).next ∨ (sq = none ∧ c.path = .call ∧ s.call.terse = false))
    (hst : (s.lane l).st = .opened) (hown : (s.lane l).owner = c.path.owner) (hr : (s.lane l).recovering = false)
    (hchecks : (heatChecks l h e a s).toOption = some (k, x)) :
    exec (.heat c l sq h e a) s = .next ((journalAccept c.path.src l k x a (c.tag.getD []) s).ok c "HEAT"
      [laneF l, ("", .dec (s.lane l).next.toNat), bareF "ACCEPTED"]) := by
  have hnext : sq ≠ none ∨ c.path = .call ∧ s.call.terse = false := hq.imp (fun hs => by simp only [hs, ne_eq, reduceCtorEq, not_false_iff]) And.right
  have hnum : sq.getD (s.lane l).next = (s.lane l).next := by obtain rfl | ⟨rfl, -⟩ := hq <;> rfl
  rw [exec_heat, doHeat_submits ht hnext, submit_accepts hr hst hown hnum hchecks]

theorem heat_recovering (q : W32) (hr : (s.lane l).recovering = true) :
    exec (.heat c l (some q) h e a) s = .next (s.fail c "HEAT" .busy) := by
  rw [exec_heat, doHeat_submits ht (.inl (Option.some_ne_none q)), submit_recovering hr]
  rfl

theorem heat_other (q : W32) (hr : (s.lane l).recovering = false) (hst : (s.lane l).st ≠ .scrub)
    (hown : (s.lane l).owner ≠ c.path.owner) :
    exec (.heat c l (some q) h e a) s = .next (s.fail c "HEAT" .lane) := by
  rw [exec_heat, doHeat_submits ht (.inl (Option.some_ne_none q)), submit_other hr hst hown]
  rfl

end

/-! ## TAKE (R224, R345) -/

theorem setLane_congr {s : State} {l : LaneId} {f g : Lane → Lane} (h : f (s.lane l) = g (s.lane l)) :
    s.setLane l f = s.setLane l g :=
  congrArg (fun L => { s with lanes := s.lanes.set l.val L l.isLt }) h

theorem releaseTo_held {l : LaneId} {q : W32} {s : State} (h : (s.lane l).heldSeqs.contains q = true) :
    s.releaseTo l q = s.setLane l fun L => { L with oldest := q + 1#32, prev := some L.record } := by
  have hlane : (s.lane l).release q = { s.lane l with oldest := q + 1#32 } := if_pos (unreleased_of_held h)
  exact setLane_congr (congrArg (fun M : Lane => { M with prev := some (s.lane l).record }) hlane)

section
variable {c : Caller} {l : LaneId} {q : W32} {s : State} (ht : Takes c s) (hst : (s.lane l).st ≠ .scrub)
  (hown : (s.lane l).owner = c.path.owner)
include ht hst hown

theorem take_held {a : AcceptRec} {st : StatsRec} {r : RetireRec} (h : (s.lane l).heldSeqs.contains q = true)
    (hc : (s.lane l).completion q = some (a, st, r)) :
    exec (.take c l (some q)) s = .next ((s.releaseTo l q).ok c "TAKE" ([laneF l, ("", .dec q.toNat)] ++ completionFields a st r)) := by
  rw [exec_take, doTake, gate_takes ht, laneMay_own hst hown]
  cases hheld : (s.lane l).heldSeqs with
  | nil => simp [hheld] at h
  | cons q0 qs =>
    rw [hheld] at h
    simp only [hheld, Option.getD_some, h, hc]

theorem take_none {sq : Option W32} (h : (s.lane l).heldSeqs = []) : exec (.take c l sq) s = .next (s.fail c "TAKE" .state) := by
  rw [exec_take, doTake, gate_takes ht, laneMay_own hst hown]
  simp only [h]

/-! ## WAIT (R345) -/

theorem wait_retired (ms : Nat) {a : AcceptRec} {r : RetireRec} (ha : (s.lane l).acceptOf q = some a)
    (hr : (s.lane l).retireOf q = some r) :
    exec (.wait c l (some q) ms) s =
      .next (s.ok c "WAIT" [laneF l, ("", .dec q.toNat), bareF "RETIRED", symF "status" r.status.text]) := by
  obtain ⟨b, hb, hba⟩ := Option.bind_eq_some_iff.mp ha
  have hbr : b.retire = some r := by simpa [Lane.retireOf, hb] using hr
  rw [exec_wait, doWait, gate_takes ht, laneMay_own hst hown]
  simp only [Option.getD_some, hb, hba, hbr]
  rfl

theorem wait_waits (ms : Nat) {a : AcceptRec} (ha : (s.lane l).acceptOf q = some a) (hr : (s.lane l).retireOf q = none) :
    exec (.wait c l (some q) ms) s = .next (waitStart { lane := l, seq := q, caller := c } s) := by
  obtain ⟨b, hb, hba⟩ := Option.bind_eq_some_iff.mp ha
  have hbr : b.retire = none := by simpa [Lane.retireOf, hb] using hr
  rw [exec_wait, doWait, gate_takes ht, laneMay_own hst hown]
  simp only [Option.getD_some, hb, hba, hbr]

theorem wait_unknown (ms : Nat) (hb : (s.lane l).block q = none) (ho : (s.lane l).overwritten q = false) :
    exec (.wait c l (some q) ms) s = .next (s.fail c "WAIT" .range) := by
  rw [exec_wait, doWait, gate_takes ht, laneMay_own hst hown]
  simp only [Option.getD_some, hb, ho, Bool.false_eq_true, if_false]

end

theorem waitStart_line {w : WaitRec} (h : w.caller.path = .call) (s : State) :
    waitStart w s = { s with call := { s.call with wait := some w, running := some "WAIT" } } := by
  rw [waitStart, h]

/-- The Call line as a WAIT that has ended on it leaves it. -/
theorem waitTimeout_line {w : WaitRec} {s : State} (h : s.call.wait = some w) :
    exec (.waitTimeout Caller.line) s = .next ({ s with call := { s.call with wait := none } }.failWith w.caller "WAIT" .busy
      [bareF "timeout"]) := by
  rw [exec_waitTimeout, waitTimeout]
  simp only [Caller.line, h]
  rfl

theorem prompt_call (s : State) : s.prompt.call.wait = s.call.wait ∧ s.prompt.call.running = s.call.running := by
  unfold State.prompt
  split <;> exact ⟨rfl, rfl⟩

/-- A call of the Call line that is answered leaves it free for the next. -/
theorem reply_line {c : Caller} (h : c.path = .call) (s : State) (ls : List Line) :
    (s.reply c ls).call.wait = s.call.wait ∧ (s.reply c ls).call.running = none := by
  unfold State.reply
  rw [h]
  simp only [prompt_call, tx_foldl_call, and_self]

/-! ## The statement -/

/-- Settles O26: its clauses in their order, each from the lemma on its form. -/
theorem heatsAreSubmittedAndTaken : Obligations.HeatsAreSubmittedAndTaken := by
  refine ⟨fun c l sq h e a k x s ht hq hst hown hr hchecks => ?heat,
    fun c l q h e a s ht hr => next_of_fail (heat_recovering ht q hr),
    fun c l q h e a s ht hr hst hown => next_of_fail (heat_other ht q hr hst hown),
    fun c l q a st r s ht hst hown hheld hc => ?take,
    fun c l q s ht hst hown h => next_of_fail (take_none ht hst hown h),
    fun c l q ms a r s ht hst hown ha hr => next_of_ok (wait_retired ht hst hown ms ha hr),
    fun c l q ms s ht hst hown hb ho => next_of_fail (wait_unknown ht hst hown ms hb ho),
    fun c l q ms a s ht hp hst hown ha hr => ?wait,
    fun w s hw hp => ?timeout⟩
  case heat =>
    obtain ⟨t, hexec, hb, hreply⟩ :=
      next_of_becomes (heat_accepts ht hq hst hown hr hchecks) (journalAccept_becomes _ l k x a _ s)
    refine ⟨t, hexec, ?_, ?_, ⟨acceptRun l x a s, ?_, rfl, rfl, rfl⟩, ?_,
      ⟨acceptRec c.path.src l k x a (c.tag.getD []) s, ?_, rfl, rfl, rfl, rfl, rfl, rfl⟩, ?_, hb.others, hb.shells, hb.mem, hb.tallies,
      hreply⟩ <;> rw [hb.lane]
    · rfl
    · rfl
    · exact List.getLast?_concat
    · exact List.dropLast_concat
    · exact acceptOf_accepted _ _ _
    · exact retireOf_accepted _ _ _
  case take =>
    rw [← releaseTo_held hheld]
    exact next_of_ok (take_held ht hst hown hheld hc)
  case wait =>
    rw [wait_waits ht hst (by rw [hown, hp]; rfl) ms ha hr, waitStart_line hp]
  case timeout =>
    obtain ⟨hwait, hrun⟩ := reply_line hp { s with call := { s.call with wait := none } } _
    exact ⟨_, waitTimeout_line hw, hwait, hrun, failWith_lanes, failWith_mem, failWith_replied⟩

end Sys2Proof.HeatCalls
end

section
/-! PROOFS. The canonical form of the memories: no command breaks it, nor does the tick of an empty queue (R234, R237, R416), and
reset has it (R410). -/

namespace Sys2Proof.Memories
open Sys2Proof Sys2Proof.Machine Sys2Proof.Laws

/-! ## Every command keeps what Keeps says, by the law of its operation -/

theorem next_keeps {s t : State} (h : Keeps s t) : ∃ u, (.next t : Host.Outcome State Fault Refusal) = .next u ∧ Keeps s u := ⟨t, rfl, h⟩

theorem exec_keeps (c : Instr) (s : State) : ∃ t, exec c s = .next t ∧ Keeps s t := by
  have h := Keeps.refl s
  cases c with
  | powerOnReset => exact next_keeps (powerOn_keeps h)
  | coldReset => exact next_keeps (coldResetDo_keeps h)
  | warmReset => exact next_keeps (warmResetDo_keeps h)
  | noCoxWarmReset => exact next_keeps (noCoxWarmReset_keeps h)
  | refSteady => exact next_keeps (refSteady_keeps h)
  | refStartupTimeout => exact next_keeps (refStartupTimeout_keeps h)
  | corePowerGood => exact next_keeps (corePowerGood_keeps h)
  | prestartRailFaultTick => exact next_keeps (prestartRailFaultTick_keeps h)
  | firmwareCopied => exact next_keeps (firmwareCopied_keeps h)
  | firmwareVerified => exact next_keeps (firmwareVerified_keeps h)
  | dramTrainingDone => exact next_keeps (dramTrainingDone_keeps h)
  | banner => exact next_keeps (banner_keeps h)
  | bootBundleLoad => exact next_keeps (bootBundleLoad_keeps h)
  | firmNeededTick => exact next_keeps (firmNeededTick_keeps h)
  | domainFirstAccess => exact next_keeps (domainFirstAccess_keeps h)
  | domainReady => exact next_keeps (domainReady_keeps h)
  | domainBringupTimeout => exact next_keeps (bringupTimeout_keeps h)
  | fabricStopFloor => exact next_keeps (fabricStopFloor_keeps h)
  | fabricResume => exact next_keeps (fabricResume_keeps h)
  | clockLost => exact next_keeps (clockLost_keeps h)
  | clockReturn => exact next_keeps (clockReturn_keeps h)
  | pllRelock => exact next_keeps (pllRelock_keeps h)
  | stroke => exact next_keeps (stroke_keeps h)
  | endWord => exact next_keeps (endWord_keeps h)
  | runWord => exact next_keeps (run_keeps h)
  | rigWord => exact next_keeps (rig_keeps h)
  | ldrigWord => exact next_keeps (ldrig_keeps h)
  | ldrigComplete => exact next_keeps (ldrigComplete_keeps h)
  | moveWord => exact next_keeps (move_keeps h)
  | moveLanded => exact next_keeps (moveLanded_keeps h)
  | setaWord => exact next_keeps (seta_keeps h)
  | setwWord => exact next_keeps (setw_keeps h)
  | loopWord => exact next_keeps (loop_keeps h)
  | markWord => exact next_keeps (mark_keeps h)
  | waitSatisfied => exact next_keeps (waitSatisfied_keeps h)
  | arbiterGrant => exact next_keeps (arbiterGrant_keeps h)
  | crossingTransfer => exact next_keeps (crossingTransfer_keeps h)
  | streamFetch => exact next_keeps (streamFetch_keeps h)
  | decoderAssign => exact next_keeps (decoderAssign_keeps h)
  | decoderTableLoaded => exact next_keeps (decoderTableLoaded_keeps h)
  | segmentStart => exact next_keeps (segmentStart_keeps h)
  | checkPoint => exact next_keeps (checkPoint_keeps h)
  | heatStart => exact next_keeps (heatStart_keeps h)
  | heatRestart => exact next_keeps (restartHeat_keeps h)
  | deadlineTrip => exact next_keeps (deadlineTrip_keeps h)
  | heatRetire => exact next_keeps (heatRetire_keeps h)
  | logRecordWrite => exact next_keeps (logRecordWrite_keeps h)
  | dramAccess => exact next_keeps (dramAccess_keeps h)
  | patrolRead => exact next_keeps (patrolRead_keeps h)
  | pageRetire => exact next_keeps (pageRetire_keeps h)
  | pageRetireDone => exact next_keeps (pageRetireDone_keeps h)
  | rotationBlockStart => exact next_keeps (rotationBlockStart_keeps h)
  | rotationCopyDone => exact next_keeps (rotationCopyDone_keeps h)
  | rotationRewriteDone => exact next_keeps (rotationRewriteDone_keeps h)
  | hostWindowAccess => exact next_keeps (hostWindowAccess_keeps h)
  | aesKat => exact next_keeps (aesKat_keeps h)
  | regionMake => exact next_keeps (regionMake_keeps h)
  | regionDelete => exact next_keeps (regionDelete_keeps h)
  | bhPartWrite => exact next_keeps (bhPartWrite_keeps h)
  | bhRetainWrite => exact next_keeps (bhRetainWrite_keeps h)
  | spinLoWrite => exact next_keeps (spinLoWrite_keeps h)
  | spinHiWrite => exact next_keeps (spinHiWrite_keeps h)
  | loRegisterRead => exact next_keeps (loRegisterRead_keeps h)
  | adapterGrantWrite => exact next_keeps (adapterGrantWrite_keeps h)
  | eyeTrigger => exact next_keeps (eyeTrigger_keeps h)
  | snap => exact next_keeps (snapDo_keeps h)
  | exposureStart => exact next_keeps (exposureStart_keeps h)
  | exposureEnd => exact next_keeps (exposureEnd_keeps h)
  | irLimitCut => exact next_keeps (irLimitCut_keeps h)
  | frameComplete => exact next_keeps (frameComplete_keeps h)
  | frameAbandoned => exact next_keeps (frameAbandoned_keeps h)
  | calReferenceDone => exact next_keeps (calReferenceDone_keeps h)
  | calShadowDone => exact next_keeps (calShadowDone_keeps h)
  | sliceSwap => exact next_keeps (sliceSwap_keeps h)
  | foregroundCal => exact next_keeps (foregroundCal_keeps h)
  | stalecalTimeout => exact next_keeps (stalecalTimeout_keeps h)
  | eyeReady => exact next_keeps (eyeReady_keeps h)
  | eyeHoldWrite => exact next_keeps (eyeHoldWrite_keeps h)
  | lookoutEventDeliver => exact next_keeps (lookDeliver_keeps h)
  | earCtrlStart => exact next_keeps (earCtrlStart_keeps h)
  | earCtrlStop => exact next_keeps (earCtrlStop_keeps h)
  | earCaptureStart => exact next_keeps (earCaptureStart_keeps h)
  | earOutputBoundary => exact next_keeps (earBoundary_keeps h)
  | earChWrite => exact next_keeps (earChWrite_keeps h)
  | earEnableWrite => exact next_keeps (earEnableWrite_keeps h)
  | earResultRead => exact next_keeps (earResultRead_keeps h)
  | earRingWrite => exact next_keeps (earRingWrite_keeps h)
  | captureSetWrite => exact next_keeps (captureSetWrite_keeps h)
  | captureBlockComplete => exact next_keeps (captureBlockComplete_keeps h)
  | micbiasReady => exact next_keeps (micbiasReady_keeps h)
  | audoCtrlStart => exact next_keeps (audoCtrlStart_keeps h)
  | audoCtrlStop => exact next_keeps (audoCtrlStop_keeps h)
  | audoPlaybackStart => exact next_keeps (audoPlaybackStart_keeps h)
  | audoFrame => exact next_keeps (audoFrame_keeps h)
  | audoUnderRead => exact next_keeps (audoUnderRead_keeps h)
  | sensePassStart => exact next_keeps (sensePassStart_keeps h)
  | senseSettleDone => exact next_keeps (senseSettleDone_keeps h)
  | senseConversionDone => exact next_keeps (senseConversionDone_keeps h)
  | senseUrgentGo => exact next_keeps (senseUrgentGo_keeps h)
  | urgentRequestStart => exact next_keeps (urgentStart_keeps h)
  | senseDataRead => exact next_keeps (senseDataRead_keeps h)
  | btnChange => exact next_keeps (btnChange_keeps h)
  | btnDebounced => exact next_keeps (btnDebounced_keeps h)
  | plugChange => exact next_keeps (plugChange_keeps h)
  | plugDebounced => exact next_keeps (plugDebounced_keeps h)
  | eventDeliver => exact next_keeps (eventDeliver_keeps h)
  | edgeLostRead => exact next_keeps (edgeLostRead_keeps h)
  | pwmPeriodBoundary => exact next_keeps (pwmBoundary_keeps h)
  | pwmGo => exact next_keeps (pwmGoDo_keeps h)
  | pwmBurstEnd => exact next_keeps (pwmBurstEnd_keeps h)
  | tmrStart => exact next_keeps (tmrStart_keeps h)
  | tmrStop => exact next_keeps (tmrStop_keeps h)
  | periodEvent => exact next_keeps (periodEvent_keeps h)
  | compareEvent => exact next_keeps (compareEvent_keeps h)
  | pulse => exact next_keeps (doPulse_keeps h)
  | trigOutPulseEnd => exact next_keeps (trigOutPulseEnd_keeps h)
  | trigInEdge => exact next_keeps (trigInEdge_keeps h)
  | callCharReceived => exact next_keeps (callCharReceived_keeps h)
  | lineBreak => exact next_keeps (lineBreak_keeps h)
  | callLineRun => exact next_keeps (callLineRun_keeps h)
  | callTxLine => exact next_keeps (callTxLine_keeps h)
  | hello => exact next_keeps (doHello_keeps h)
  | info => exact next_keeps (doInfo_keeps h)
  | help => exact next_keeps (doHelp_keeps h)
  | verbList => exact next_keeps (doVerbList_keeps h)
  | echo => exact next_keeps (doEcho_keeps h)
  | mode => exact next_keeps (doMode_keeps h)
  | resetCall => exact next_keeps (doResetCall_keeps h)
  | resetWarm => exact next_keeps (doResetWarm_keeps h)
  | lease => exact next_keeps (doLease_keeps h)
  | get => exact next_keeps (doGet_keeps h)
  | set => exact next_keeps (doSet_keeps h)
  | setField => exact next_keeps (doSetField_keeps h)
  | load => exact next_keeps (doLoad_keeps h)
  | drop => exact next_keeps (doDrop_keeps h)
  | laneOpen => exact next_keeps (doLaneOpen_keeps h)
  | laneClose => exact next_keeps (doLaneClose_keeps h)
  | laneCloseDiscard => exact next_keeps (doLaneCloseDiscard_keeps h)
  | laneClaim => exact next_keeps (doLaneClaim_keeps h)
  | laneState => exact next_keeps (doLaneState_keeps h)
  | laneKey => exact next_keeps (doLaneKey_keeps h)
  | heat => exact next_keeps (doHeat_keeps h)
  | take => exact next_keeps (doTake_keeps h)
  | wait => exact next_keeps (doWait_keeps h)
  | waitTimeout => exact next_keeps (waitTimeout_keeps h)
  | scrub => exact next_keeps (doScrub_keeps h)
  | scrubStepDone => exact next_keeps (scrubStepDone_keeps h)
  | eyeState => exact next_keeps (doEyeState_keeps h)
  | eyeHold => exact next_keeps (doEyeHold_keeps h)
  | eyeSet => exact next_keeps (doEyeSet_keeps h)
  | eyeSnap => exact next_keeps (doEyeSnap_keeps h)
  | eyeLook => exact next_keeps (doEyeLook_keeps h)
  | eyeCopy => exact next_keeps (doEyeCopy_keeps h)
  | eyeCopyOff => exact next_keeps (doEyeCopyOff_keeps h)
  | earState => exact next_keeps (doEarState_keeps h)
  | earStart => exact next_keeps (doEarStart_keeps h)
  | earStop => exact next_keeps (doEarStop_keeps h)
  | earCh => exact next_keeps (doEarCh_keeps h)
  | earBias => exact next_keeps (doEarBias_keeps h)
  | earRing => exact next_keeps (doEarRing_keeps h)
  | earRingOff => exact next_keeps (doEarRingOff_keeps h)
  | earOut => exact next_keeps (doEarOut_keeps h)
  | earOutStart => exact next_keeps (doEarOutStart_keeps h)
  | earOutStop => exact next_keeps (doEarOutStop_keeps h)
  | senseState => exact next_keeps (doSenseState_keeps h)
  | senseRead => exact next_keeps (doSenseRead_keeps h)
  | senseSeq => exact next_keeps (doSenseSeq_keeps h)
  | senseSeqOff => exact next_keeps (doSenseSeqOff_keeps h)
  | sensePeriod => exact next_keeps (doSensePeriod_keeps h)
  | edgeState => exact next_keeps (doEdgeState_keeps h)
  | edgeBtn => exact next_keeps (doEdgeBtn_keeps h)
  | edgePlug => exact next_keeps (doEdgePlug_keeps h)
  | edgeTouch => exact next_keeps (doEdgeTouch_keeps h)
  | edgePwm => exact next_keeps (doEdgePwm_keeps h)
  | edgeBind => exact next_keeps (doEdgeBind_keeps h)
  | edgeUnbind => exact next_keeps (doEdgeUnbind_keeps h)
  | trigState => exact next_keeps (doTrigState_keeps h)
  | trigTmr => exact next_keeps (doTrigTmr_keeps h)
  | trigOut => exact next_keeps (doTrigOut_keeps h)
  | trigPulse => exact next_keeps (doTrigPulse_keeps h)
  | rail => exact next_keeps (doRail_keeps h)
  | railCeiling => exact next_keeps (doRailCeiling_keeps h)
  | railFix => exact next_keeps (doRailFix_keeps h)
  | railAuto => exact next_keeps (doRailAuto_keeps h)
  | fence => exact next_keeps (doFence_keeps h)
  | spare => exact next_keeps (doSpare_keeps h)
  | repairTest => exact next_keeps (doRepairTest_keeps h)
  | repairRejoin => exact next_keeps (doRepairRejoin_keeps h)
  | repairRecord => exact next_keeps (doRepairRecord_keeps h)
  | logLane => exact next_keeps (doLogLane_keeps h)
  | logFault => exact next_keeps (doLogFault_keeps h)
  | logBundle => exact next_keeps (doLogBundle_keeps h)
  | statLane => exact next_keeps (doStatLane_keeps h)
  | statDevice => exact next_keeps (doStatDevice_keeps h)
  | keyState => exact next_keeps (doKeyState_keeps h)
  | keyRotatePlan => exact next_keeps (doKeyRotatePlan_keeps h)
  | keyVkLoad => exact next_keeps (doKeyVkLoad_keeps h)
  | keyVkRevoke => exact next_keeps (doKeyVkRevoke_keeps h)
  | firmState => exact next_keeps (doFirmState_keeps h)
  | firmBegin => exact next_keeps (doFirmBegin_keeps h)
  | firmData => exact next_keeps (doFirmData_keeps h)
  | firmAddr => exact next_keeps (doFirmAddr_keeps h)
  | firmEnd => exact next_keeps (doFirmEnd_keeps h)
  | doorbell => exact next_keeps (doorbell_keeps h)
  | callEnvelope => exact next_keeps (callEnvelope_keeps h)
  | completionRingWrite => exact next_keeps (completionWrite_keeps h)
  | eventRingWrite => exact next_keeps (eventWrite_keeps h)
  | cqHeadWrite => exact next_keeps (cqHeadWrite_keeps h)
  | evHeadWrite => exact next_keeps (evHeadWrite_keeps h)
  | ringReset => exact next_keeps (ringReset_keeps h)
  | tadd => exact next_keeps (tadd_keeps h)
  | leaseLapse => exact next_keeps (leaseLapse_keeps h)
  | qspiTransaction => exact next_keeps (qspiTransaction_keeps h)
  | qspiHeldReadExpire => exact next_keeps (qspiHeldReadExpire_keeps h)
  | hostQspiRead => exact next_keeps (hostQspiRead_keeps h)
  | pcieMemoryRequest => exact next_keeps (pcieMemoryRequest_keeps h)
  | pcieConfigRequest => exact next_keeps (pcieConfigRequest_keeps h)
  | pcieLinkDown => exact next_keeps (pcieLinkDown_keeps h)
  | pcieLinkUp => exact next_keeps (pcieLinkUp_keeps h)
  | functionLevelReset => exact next_keeps (functionLevelReset_keeps h)
  | winRefusedRead => exact next_keeps (winRefusedRead_keeps h)
  | eyeMissedRead => exact next_keeps (eyeMissedRead_keeps h)
  | rigFrameTrialDone => exact next_keeps (rigFrameTrialDone_keeps h)
  | liveCopyRow => exact next_keeps (liveCopyRow_keeps h)
  | liveCopyDone => exact next_keeps (liveCopyDone_keeps h)
  | coxWatchdogTrip => exact next_keeps (coxWatchdogTrip_keeps h)
  | coxTakeover => exact next_keeps (coxTakeover_keeps h)
  | coxRestartDone => exact next_keeps (coxRestartDone_keeps h)
  | selftestStart => exact next_keeps (selftestStart_keeps h)
  | selftestDone => exact next_keeps (selftestDone_keeps h)
  | repairRecordWrite => exact next_keeps (repairRecordWrite_keeps h)
  | governorTick => exact next_keeps (governorTick_keeps h)
  | railRequest => exact next_keeps (railRequest_keeps h)
  | pmbusTransactionDone => exact next_keeps (pmbusDone_keeps h)
  | railConfirm => exact next_keeps (railConfirm_keeps h)
  | railRetry => exact next_keeps (railRetry_keeps h)
  | railFrozenRetry => exact next_keeps (frozenRetry_keeps h)
  | pgCoreLow => exact next_keeps (pgCoreLow_keeps h)
  | pmAlert => exact next_keeps (pmAlert_keeps h)
  | fieldLockArm => exact next_keeps (writeFuseLock_keeps h)
  | fieldLockBurn => exact next_keeps (writeFuseLock_keeps h)
  | fieldLockDisarm => exact next_keeps (fieldLockDisarm_keeps h)
  | fuseBurnDone => exact next_keeps (burnDone_keeps h)
  | tapInstruction => exact next_keeps (tapInstruction_keeps h)
  | idcodeCapture => exact next_keeps (idcodeCapture_keeps h)
  | respCapture => exact next_keeps (respCapture_keeps h)
  | stringStatus => exact next_keeps (doStringStatus_keeps h)
  | halt => exact next_keeps (doHalt_keeps h)
  | resume => exact next_keeps (doResume_keeps h)
  | step => exact next_keeps (doStep_keeps h)
  | stepDone => exact next_keeps (stepDone_keeps h)
  | counter => exact next_keeps (doCounter_keeps h)
  | breakSet => exact next_keeps (doBreakSet_keeps h)
  | breakClear => exact next_keeps (doBreakClear_keeps h)
  | rd32 => exact next_keeps (doRd32_keeps h)
  | wr32 => exact next_keeps (doWr32_keeps h)
  | setaddr => exact next_keeps (doSetaddr_keeps h)
  | rdmem => exact next_keeps (doRdmem_keeps h)
  | wrmem => exact next_keeps (doWrmem_keeps h)
  | strSessionIdle => exact next_keeps (strSessionIdle_keeps h)
  | strTrst => exact next_keeps (strTrst_keeps h)
  | registerWrite => exact next_keeps (writeReg_keeps h)
  | vddAoLost => exact next_keeps (vddAoLost_keeps h)
  | eventQueueLatch => exact next_keeps (eventQueueLatch_keeps h)
  | irPulseEdge => exact next_keeps (irPulseEdge_keeps h)
  | callCtsNChange => exact next_keeps (callCtsNChange_keeps h)
  | statWindowEnd => exact next_keeps (statWindowEnd_keeps h)
  | firmEraseDone => exact next_keeps (firmEraseDone_keeps h)

/-- A step keeps what its command keeps of the state that the command has been taken from; with none, what the tick keeps. -/
theorem step_keeps {s t : State} (h : step s = .next t) : Keeps s.popped t := by
  unfold step at h
  split at h
  · rename_i c _ _
    obtain ⟨u, hu, hk⟩ := exec_keeps c s.popped
    rw [hu] at h
    cases h
    exact hk
  · rename_i hq
    have hp : s.popped = s := by rw [State.popped, hq, List.tail_nil, ← hq]
    cases h
    rw [hp]
    exact Keeps.ite (elapse_keeps (.refl s)) (.refl s)

theorem memWf_of_keeps {s t : State} (h : Keeps s t) (w : s.memWf = true) : t.memWf = true := by
  obtain ⟨hmem, hflash, hshells⟩ := (memWf_iff s).1 w
  exact (memWf_iff t).2 ⟨h.mem hmem, h.flash hflash, h.shells hshells⟩

/-! ## The statements -/

/-- Settles O5: a step keeps each memory's form, since the law of its operation does. -/
theorem memoryStaysCanonical : Obligations.MemoryStaysCanonical :=
  fun s _ w h => memWf_of_keeps (step_keeps h) (show s.popped.memWf = true from w)

/-- Settles O6: every memory of the reset state is empty. -/
theorem memoryCanonicalAtReset : Obligations.MemoryCanonicalAtReset :=
  ⟨(memWf_iff State.reset).2 ⟨⟨rfl, rfl⟩, rfl, shellsOk_reset⟩, rfl, rfl, rfl⟩

end Sys2Proof.Memories
end

section
/-! PROOFS. DRAM accesses: one that meets a locked block waits, also where the lock is a rotation's and not a retirement's (R243,
R255). -/

namespace Sys2Proof.DramLocks
open Sys2Proof Sys2Proof.Machine

theorem exec_dramAccess (h : Option (LaneId × W32)) (u : BitVec 28) (w : Option (List Byte)) (e : DramErr) (s : State) :
    exec (.dramAccess h u w e) s = .next (dramAccess h u w e s) := rfl

theorem dramAccess_of_stall {w : Option (List Byte)} {u : BitVec 28} {s : State} (hu : s.unitStalls w.isSome u.toNat = true)
    (h : Option (LaneId × W32)) (e : DramErr) : dramAccess h u w e s = s := by
  simp [dramAccess, hu]

/-- The block in REWRITE stalls reads and writes alike (R255). -/
theorem unitStalls_of_rewrite {w : Sweep} {u : Nat} {s : State} (hw : w ∈ s.mem.sweeps) (hb : w.block = u / 1024)
    (hp : w.phase = .rewrite) (write : Bool) : s.unitStalls write u = true := by
  simp only [State.unitStalls, Bool.or_eq_true, List.any_eq_true]
  exact .inr ⟨w, hw, by simp [hb, hp]⟩

/-! ## The counterexample -/

/-- The rotation of L1's key from K0 to K1, its first block in REWRITE. -/
def rewriteSweep : Sweep := { kind := .lane 1, old := 0, new := 1, region := none, phase := .rewrite, block := 0 }

/-- DRAM is up with one usable page, the one block of a region of L1; no page is retiring, and the block is being rewritten. -/
def rewriting : State := { State.reset with
  mem := { State.reset.mem with
    trained := true, usable := 1#18, sweeps := [rewriteSweep]
    region := put State.reset.mem.region 0 { size := 1#18, lane := 1, valid := true, gen := true, rotating := true, slot1 := 1, left := 1#18 }
    kslot := put (put State.reset.mem.kslot 0 { use := .lane 1, key := 1 }) 1 { use := .laneTarget 1, key := 2 } } }

/-- A read of its unit 0, outside a heat, waits. -/
theorem dramAccess_rewriting : exec (.dramAccess none 0#28 none .fine) rewriting = .next rewriting := by
  have hstall := unitStalls_of_rewrite (w := rewriteSweep) (u := (0#28).toNat) (s := rewriting) (List.mem_singleton.2 rfl) rfl rfl
  rw [exec_dramAccess, dramAccess_of_stall (hstall _)]

/-- Refutes O29: its premises ask that the unit's page is not locked for a retirement, and not that no rotation rewrites its block.
A fine read of a unit of a block in REWRITE stalls (R255), so that no 64 bytes are counted. -/
theorem not_dramIsReadWrittenAndChecked : ¬ Obligations.DramIsReadWrittenAndChecked := by
  intro ⟨hread, _⟩
  obtain ⟨t, hexec, hcount, -⟩ := hread none 0#28 rewriting (by decide) (by decide) (by decide) (by decide)
  rw [dramAccess_rewriting] at hexec
  cases hexec
  omega

end Sys2Proof.DramLocks
end

section
/-! PROOFS. The host's two ports: Quad-SPI transactions (R357 to R359), and PCIe requests and link events (R354 to R356, R359,
R451). -/

namespace Sys2Proof.HostPorts
open Sys2Proof Sys2Proof.Machine Sys2Proof.Laws Sys2Proof.Registers

/-! ## One register by the host -/

theorem hostRegs_one {o : Nat} {v : W32} {s : State} (h : readReg .host o s = (v, s)) : hostRegs o 1 s = ([v], s) := by
  simp [hostRegs, h]

theorem hostSetRegs_one (o : Nat) (v : W32) (s : State) : hostSetRegs o [v] s = writeReg .host o v s := by
  simp [hostSetRegs]

theorem hostRegs_tally (k : Fin 1024) (s : State) : hostRegs (0x3000 + 4 * k.val) 1 s = ([s.tally k.val], s) :=
  hostRegs_one (readReg_tally .host k s)

/-- The window of engine DRAM apart, no access meets a locked block. -/
theorem spaceStalls_of_ne {space : Fin 3} (h : space ≠ 2) (write : Bool) (a n : Nat) (s : State) :
    spaceStalls write space a n s = false := by
  simp [spaceStalls, h]

theorem spaceOff_register {o : Nat} (h : regDom o = none) (s : State) : spaceOff 0 o 1 s = false := by
  simp [spaceOff, spaceDoms, h]

theorem regDom_tally (k : Fin 1024) : regDom (0x3000 + 4 * k.val) = none := regDom_eq_none (by omega)

theorem inHostBlock_tally (k : Fin 1024) : inHostBlock (0x3000 + 4 * k.val) 1 = false := by
  simp only [inHostBlock, decide_eq_false_iff_not]
  omega

/-- The offset of a tally, as an address of n bits. -/
theorem toNat_tallyAddr {n : Nat} (hn : 15 ≤ n) (k : Fin 1024) : (BitVec.ofNat n (0x3000 + 4 * k.val)).toNat = 0x3000 + 4 * k.val := by
  have hpow : 2 ^ 15 ≤ 2 ^ n := Nat.pow_le_pow_right (by decide) hn
  exact Nat.mod_eq_of_lt (by omega)

/-! ## Quad-SPI (R357, R358, R359) -/

theorem exec_qspiTransaction (cmd : Byte) (p : BitVec 4) (a : BitVec 36) (w : Fin 256) (d : List W32) (l : Bool) (s : State) :
    exec (.qspiTransaction cmd p a w d l) s = .next (qspiTransaction cmd p a w d l s) := rfl

/-- NOTREADY is counted below the count's top. -/
theorem notReady_counted {s : State} (h : s.host.notReady ≠ 0xFFFF#16) :
    notReady s = { s with host := { s.host with answer := (0xA5#8, []), notReady := s.host.notReady + 1#16 } } := by
  simp [notReady, State.answers, State.setHost, h, qspiNot]

section Quad
variable {s : State} (hq : s.host.qspi = true) (hf : s.domFenced Dom.host = false)
include hq hf

theorem qspi_malformed {cmd : Byte} {p : BitVec 4} {a : BitVec 36}
    (h : 3 ≤ p.toNat ∨ (cmd ≠ 0x0B#8 ∧ cmd ≠ 0x02#8) ∨ a.toNat % 4 ≠ 0) (w : Fin 256) (d : List W32) (l : Bool) :
    qspiTransaction cmd p a w d l s = s.answers qspiError [] := by
  by_cases hp : 3 ≤ p.toNat
  · have hsp : fin? 3 p.toNat = none := dif_neg (by omega)
    simp [qspiTransaction, hq, hf, hsp]
  · have hsp : fin? 3 p.toNat = some ⟨p.toNat, by omega⟩ := dif_pos (by omega)
    have hbad := h.resolve_left hp
    simp [qspiTransaction, hq, hf, hsp, hbad]

/-- Before the banner a well-formed read outside the HOST block is not ready. -/
theorem qspi_early (hb : s.start.banner = false) {a : BitVec 36} {w : Fin 256} (ha : a.toNat % 4 = 0)
    (hh : inHostBlock a.toNat (w.val + 1) = false) (d : List W32) (l : Bool) :
    qspiTransaction 0x0B#8 0#4 a w d l s = notReady s := by
  simp [qspiTransaction, hq, hf, hb, ha, hh, fin?]

section Ready
variable (hb : s.start.banner = true)
include hb

theorem qspi_collects {h : HeldRead} (hh : s.host.held = some h) {a : BitVec 36} {w : Fin 256} (ha : a.toNat % 4 = 0)
    (his : h.is 0 a.toNat (w.val + 1) = true) (d : List W32) (l : Bool) :
    qspiTransaction 0x0B#8 0#4 a w d l s = (s.answers qspiReady h.data).setHost fun h => { h with held := none } := by
  simp [qspiTransaction, hq, hf, hb, hh, ha, his, fin?]

theorem qspi_write_held {h : HeldRead} (hh : s.host.held = some h) {a : BitVec 36} (ha : a.toNat % 4 = 0) (w : Fin 256) (d : List W32)
    (l : Bool) : qspiTransaction 0x02#8 0#4 a w d l s = notReady s := by
  simp [qspiTransaction, hq, hf, hb, hh, ha, fin?]

variable (hh : s.host.held = none)
include hh

theorem qspi_reads {a : BitVec 36} (ha : a.toNat % 4 = 0) (d : List W32) (l : Bool) :
    qspiTransaction 0x0B#8 0#4 a 0 d l s = qspiRead 0 a.toNat 1 l s := by
  simp [qspiTransaction, hq, hf, hb, hh, ha, fin?]

/-- A register write whose buffer has room. -/
theorem qspi_writes {a : BitVec 36} (ha : a.toNat % 4 = 0) (v : W32) :
    qspiTransaction 0x02#8 0#4 a 0 [v] false s = (writeReg .host a.toNat v s).answers qspiReady [] := by
  simp [qspiTransaction, hq, hf, hb, hh, ha, fin?, spaceWrite, spaceStalls_of_ne, hostSetRegs_one]

end Ready
end Quad

theorem qspiRead_tally_inTime (k : Fin 1024) (s : State) :
    qspiRead 0 (0x3000 + 4 * k.val) 1 false s = s.answers qspiReady [s.tally k.val] := by
  simp [qspiRead, spaceRead, spaceStalls_of_ne, spaceOff_register (regDom_tally k), hostRegs_tally]

theorem qspiRead_tally_late (k : Fin 1024) (s : State) :
    qspiRead 0 (0x3000 + 4 * k.val) 1 true s =
      (notReady s).setHost fun h =>
        { h with held := some { space := 0, addr := 0x3000 + 4 * k.val, words := 1, data := [s.tally k.val] } } := by
  simp [qspiRead, spaceRead, spaceStalls_of_ne, hostRegs_tally]

/-! ## PCIe memory requests (R354, R355, R359) -/

theorem exec_pcieMemoryRequest (bar : Fin 3) (a : BitVec 34) (be : Byte) (n : Fin 1024) (w : Option (List W32)) (s : State) :
    exec (.pcieMemoryRequest bar a be n w) s = .next (pcieMemoryRequest bar a be n w s) := rfl

section Pcie
variable {s : State} (hq : s.host.qspi = false) (hf : s.domFenced Dom.host = false) (hw : 0 < s.host.width.val)
include hq hf hw

theorem pcieUp_of_link : pcieUp s = true := by simp [pcieUp, hq, hf, hw]

/-- A read of one word of the register window or of mailbox memory meets no locked block. -/
theorem pcie_reads {bar : Fin 3} (hbar : bar ≠ 2) (a : BitVec 34) (be : Byte) :
    pcieMemoryRequest bar a be 0 none s = pcieRead bar (barAddr bar (a.toNat / 4 * 4) s) 1 s := by
  simp [pcieMemoryRequest, pcieUp_of_link hq hf hw, spaceStalls_of_ne hbar]

/-- Nor does a write of one word there. -/
theorem pcie_writes {bar : Fin 3} (hbar : bar ≠ 2) (a : BitVec 34) (be : Byte) (v : W32) :
    pcieMemoryRequest bar a be 0 (some [v]) s = pcieWrite bar (barAddr bar (a.toNat / 4 * 4) s) be [v] s := by
  simp [pcieMemoryRequest, pcieUp_of_link hq hf hw, spaceStalls_of_ne hbar]

end Pcie

theorem barAddr_tally (k : Fin 1024) (s : State) :
    barAddr 0 ((BitVec.ofNat 34 (0x3000 + 4 * k.val)).toNat / 4 * 4) s = 0x3000 + 4 * k.val := by
  have hk : (0x3000 + 4 * k.val) / 4 * 4 % 0x40000 = 0x3000 + 4 * k.val := by omega
  rw [toNat_tallyAddr (by decide)]
  exact hk

theorem barAddr_mailbox (a : Fin 0x20000) (s : State) :
    barAddr 1 ((BitVec.ofNat 34 (4 * a.val)).toNat / 4 * 4) s = 4 * a.val := by
  have ha : (BitVec.ofNat 34 (4 * a.val)).toNat = 4 * a.val := Nat.mod_eq_of_lt (by omega)
  have hk : 4 * a.val / 4 * 4 % 0x80000 = 4 * a.val := by omega
  rw [ha]
  exact hk

theorem pcieRead_tally {s : State} (hb : s.start.banner = true) (k : Fin 1024) :
    pcieRead 0 (0x3000 + 4 * k.val) 1 s = s.answers pcieOk [s.tally k.val] := by
  simp [pcieRead, hb, spaceRead, hostRegs_tally]

theorem pcieRead_tally_early {s : State} (hb : s.start.banner = false) (k : Fin 1024) :
    pcieRead 0 (0x3000 + 4 * k.val) 1 s = s.answers pcieOk [0xFFFFFFFF#32] := by
  simp [pcieRead, hb, inHostBlock_tally]

theorem pcieWrite_register {s : State} (hb : s.start.banner = true) (o : Nat) (be : Byte) (v : W32) :
    pcieWrite 0 o be [v] s = if be.toNat % 16 = 15 then writeReg .host o v s else s := by
  simp [pcieWrite, hb, allEnabled, hostSetRegs_one]

/-- Byte enables 0 and 2 leave the first and the third byte of the word. -/
theorem enabled_bytes02 (v : W32) :
    enabled 0x05#8 [v] = [some (v.setWidth 8), none, some ((v >>> 16).setWidth 8), none] := by
  have hy : BitVec.ofNat 8 (v.toNat / 256 / 256) = (v >>> 16).setWidth 8 := by bv_omega
  simp [enabled, leBytes, hy, Nat.testBit]

theorem mailPut_bytes02 {s : State} (hu : s.bankUp 63 = true) {a : Nat} (ha : a + 2 < 0x80000) (x y : Byte) :
    mailPut a [some x, none, some y, none] s = { touch (bankDom 63) s with
      mem := { s.mem with bh := (s.mem.bh.set (mailboxBase + a) x).set (mailboxBase + a + 2) y } } := by
  have h0 : a < 0x80000 := by omega
  simp [mailPut, mailUp, hu, h0, ha]

theorem pcieWrite_mailbox {s : State} (hb : s.start.banner = true) (a : Nat) (be : Byte) (ws : List W32) :
    pcieWrite 1 a be ws s = mailPut a (enabled be ws) s := by
  simp [pcieWrite, hb]

/-! ## The configuration and the link (R354, R355, R356) -/

theorem exec_pcieConfigRequest (s : State) : exec .pcieConfigRequest s = .next (pcieConfigRequest s) := rfl

theorem exec_pcieLinkUp (g : Fin 5) (w : Fin 3) (s : State) : exec (.pcieLinkUp g w) s = .next (pcieLinkUp g w s) := rfl

theorem exec_pcieLinkDown (s : State) : exec .pcieLinkDown s = .next (pcieLinkDown s) := rfl

theorem exec_qspiHeldReadExpire (s : State) : exec .qspiHeldReadExpire s = .next (qspiHeldReadExpire s) := rfl

theorem pcieConfigRequest_retry {s : State} (hup : pcieUp s = true) (h : s.host.configReady = false) :
    pcieConfigRequest s = s.answers pcieRetry [] := by
  simp [pcieConfigRequest, hup, h]

theorem pcieConfigRequest_ready {s : State} (hup : pcieUp s = true) (h : s.host.configReady = true) :
    pcieConfigRequest s = (pcieConfigure s).answers pcieOk [] := by
  simp [pcieConfigRequest, hup, h]

theorem pcieLinkDown_pcie {s : State} (h : s.host.qspi = false) :
    pcieLinkDown s = s.setHost fun h => { h with speed := 0, width := 0, barSize := 6, msix := false, msi := false } := by
  simp [pcieLinkDown, h]

theorem pcieLinkUp_trains {g : Fin 5} {w : Fin 3} {s : State} (hq : s.host.qspi = false) (hgw : g ≠ 0 ∧ w ≠ 0)
    (hc : s.clk.absent.getLsbD Clk.host.val = false) :
    pcieLinkUp g w s = s.setHost fun h => { h with speed := g, width := w } := by
  simp only [pcieLinkUp, hq, hgw, hc, decide_false, Bool.or_self, Bool.false_eq_true, if_false]

theorem qspiHeldReadExpire_drops {h : HeldRead} {s : State} (hh : s.host.held = some h) :
    qspiHeldReadExpire s = s.setHost fun h =>
      { h with held := none, dropped := if h.dropped = 0xFFFF#16 then h.dropped else h.dropped + 1#16 } := by
  simp [qspiHeldReadExpire, hh]

/-! ## The statement -/

/-- An address of a tally is a multiple of 4. -/
theorem aligned_tallyAddr (k : Fin 1024) : (BitVec.ofNat 36 (0x3000 + 4 * k.val)).toNat % 4 = 0 := by
  rw [toNat_tallyAddr (by decide)]
  omega

/-- Settles O53: its clauses in their order, each from the lemma on its form. -/
theorem hostPortsServe : Obligations.HostPortsServe := by
  refine ⟨fun k s hq hf hb hh => ?inTime, fun k s hq hf hb hh hn => ?late, fun a w h s hq hf hb ha hh his => ?collects,
    fun a w d l h s hq hf hb ha hh hn => ?heldWrite, fun cmd p a w d l s hq hf h => ?malformed, fun k l s hq hf hb hn => ?early,
    fun v s hq hf hb hh => ?irqEn, fun h s hh => ?expire, fun k be s hq hf hw hb => ?tally,
    fun v s hq hf hw hb => ?pcieIrqEn, fun a be v s hq hf hw hb h => ?partialWrite,
    fun a v s hq hf hw hb hu => ?mailbox, fun k be s hq hf hw hb => ?ones,
    fun s hq hf hw hc => ?retry, fun s hq hf hw hc => ?configured, fun s hq => ?down, fun g w s hq hgw hc => ?up⟩
  case inTime =>
    rw [exec_qspiTransaction, qspi_reads hq hf hb hh (aligned_tallyAddr k), toNat_tallyAddr (by decide), qspiRead_tally_inTime]
    rfl
  case late =>
    rw [exec_qspiTransaction, qspi_reads hq hf hb hh (aligned_tallyAddr k), toNat_tallyAddr (by decide), qspiRead_tally_late,
      notReady_counted hn]
    rfl
  case collects =>
    obtain ⟨hspace, haddr, hwords⟩ := his
    rw [exec_qspiTransaction, qspi_collects hq hf hb hh ha (by simp [HeldRead.is, hspace, haddr, hwords])]
    rfl
  case heldWrite => rw [exec_qspiTransaction, qspi_write_held hq hf hb hh ha, notReady_counted hn]
  case malformed =>
    rw [exec_qspiTransaction, qspi_malformed hq hf h]
    rfl
  case early =>
    rw [exec_qspiTransaction, qspi_early hq hf hb (aligned_tallyAddr k), notReady_counted hn]
    rw [toNat_tallyAddr (by decide)]
    exact inHostBlock_tally k
  case irqEn =>
    rw [exec_qspiTransaction, qspi_writes hq hf hb hh (by decide)]
    exact congrArg (fun t : State => Host.Outcome.next (t.answers qspiReady [])) (writeReg_irqEn (.inl rfl) v s)
  case expire =>
    rw [exec_qspiHeldReadExpire, qspiHeldReadExpire_drops hh]
    rfl
  case tally =>
    rw [exec_pcieMemoryRequest, pcie_reads hq hf hw (by decide), barAddr_tally, pcieRead_tally hb]
    rfl
  case pcieIrqEn =>
    rw [exec_pcieMemoryRequest, pcie_writes hq hf hw (by decide), pcieWrite_register hb, if_pos (by decide)]
    exact congrArg _ (writeReg_irqEn (.inl rfl) v s)
  case partialWrite => rw [exec_pcieMemoryRequest, pcie_writes hq hf hw (by decide), pcieWrite_register hb, if_neg h]
  case mailbox =>
    rw [exec_pcieMemoryRequest, pcie_writes hq hf hw (by decide), barAddr_mailbox, pcieWrite_mailbox hb, enabled_bytes02,
      mailPut_bytes02 hu (by omega)]
    exact ⟨_, rfl, rfl, rfl, rfl⟩
  case ones =>
    rw [exec_pcieMemoryRequest, pcie_reads hq hf hw (by decide), barAddr_tally, pcieRead_tally_early hb]
    rfl
  case retry =>
    rw [exec_pcieConfigRequest, pcieConfigRequest_retry (pcieUp_of_link hq hf hw) hc]
    rfl
  case configured =>
    rw [exec_pcieConfigRequest, pcieConfigRequest_ready (pcieUp_of_link hq hf hw) hc]
    exact ⟨_, rfl, rfl, rfl⟩
  case down =>
    rw [exec_pcieLinkDown, pcieLinkDown_pcie hq]
    rfl
  case up =>
    rw [exec_pcieLinkUp, pcieLinkUp_trains hq hgw hc]
    rfl

end Sys2Proof.HostPorts
end

section
/-! PROOFS. What capture and playback share: accesses to the EAR block (R305), starts by START and by a trigger (R283, R296), and
what an add to a tally leaves alone (R54). -/

namespace Sys2Proof.EarStarts
open Sys2Proof Sys2Proof.Machine Sys2Proof.Laws Sys2Proof.Words

/-! ## Accesses (R305) -/

theorem earAccess_of_unfenced {s : State} (h : s.domFenced Dom.ear = false) (f : State → State) :
    earAccess s f = f (touch Dom.ear s) := by simp [earAccess, h]

/-! ## Time that goes on to a trigger (R283, R296) -/

/-- Ticks and edges move the time alone. -/
theorem passes_timed (ticks edges left : Nat) (s : State) : passes ticks edges left s = s.timed (passes ticks edges left s) := by
  unfold passes State.slowEdges State.timed
  dsimp only
  split <;> rfl

theorem elapse_timed (n : Nat) (s : State) : elapse n s = s.timed (elapse n s) := by
  unfold elapse
  split
  · exact congrArg (fun u : State => { u with free := s.free + 1 }) (passes_timed n _ _ { s with free := s.free + 1 })
  · exact passes_timed n _ _ s

theorem tick_elapse (n : Nat) (s : State) : (elapse n s).clk.tick = s.clk.tick + BitVec.ofNat 64 n := by
  unfold elapse
  split <;> rfl

/-- Time goes on to the tick of a trigger, and never back. -/
theorem toNat_tick_elapseTo (a : W64) (s : State) : (elapseTo a.toNat s).clk.tick.toNat = Nat.max s.clk.tick.toNat a.toNat := by
  have hmax : s.clk.tick.toNat + (a.toNat - s.clk.tick.toNat) = Nat.max s.clk.tick.toNat a.toNat := by
    have : Nat.max s.clk.tick.toNat a.toNat = max s.clk.tick.toNat a.toNat := rfl
    omega
  rw [elapseTo, tick_elapse, ← hmax]
  have htick := s.clk.tick.isLt
  have ha := a.isLt
  rw [BitVec.toNat_add, BitVec.toNat_ofNat]
  omega

theorem ear_elapseTo (n : Nat) (s : State) : (elapseTo n s).ear = s.ear := by
  rw [elapseTo, elapse_timed]; rfl

/-- A change of the Ear at a later tick: the time and the Ear change alone. -/
theorem setEar_elapseTo (n : Nat) (f : Ear → Ear) (s : State) :
    (elapseTo n s).setEar f = { s.timed ((elapseTo n s).setEar f) with ear := f s.ear } := by
  rw [← ear_elapseTo n s]
  exact congrArg (fun u : State => { u with ear := f (elapseTo n s).ear }) (elapse_timed _ s)

theorem triggered_start (arriving : Option W64) (s : State) : triggered 0 true arriving s = some s := rfl

theorem triggered_arriving {src : Nat} (h : src ≠ 0) (req : Bool) (a : W64) (s : State) :
    triggered src req (some a) s = some (elapseTo a.toNat s) := by simp [triggered, h]

theorem triggered_none {src : Nat} (h : src ≠ 0) (req : Bool) (s : State) : triggered src req none s = none := by
  simp [triggered, h]

/-! ## Adds to a tally (R54) -/

/-- A breakpoint that hits halts shells and stops deadline counts. -/
theorem strHit_eq (hit : Break → Option (BitVec 18)) (s : State) :
    ∃ str lanes, strHit hit s = { s with str := str, lanes := lanes } := by
  unfold strHit State.watch
  dsimp only
  split <;> exact ⟨_, _, rfl⟩

@[simp] theorem tallyAdd_ear (s : State) (k amt : Nat) : (s.tallyAdd k amt).ear = s.ear := by
  obtain ⟨hit, hadd⟩ := tallyAdd_eq s k amt
  obtain ⟨str, lanes, hhit⟩ := strHit_eq hit (added s k amt)
  rw [hadd, hhit]; rfl

@[simp] theorem tallyAdd_mem (s : State) (k amt : Nat) : (s.tallyAdd k amt).mem = s.mem := by
  obtain ⟨hit, hadd⟩ := tallyAdd_eq s k amt
  obtain ⟨str, lanes, hhit⟩ := strHit_eq hit (added s k amt)
  rw [hadd, hhit]; rfl

theorem tally_tallyAdd_one (s : State) (k : Nat) : (s.tallyAdd k 1).tally k = s.tally k + 1#32 := by
  rw [tally_tallyAdd, if_pos rfl]

end Sys2Proof.EarStarts
end

section
/-! PROOFS. Audio out: its control bits (R295, R305), playback starts and frames (R295, R296), UNDER (R296), and the statement
about the AUDO commands. -/

namespace Sys2Proof.AudioFrames
open Sys2Proof Sys2Proof.Machine Sys2Proof.Laws Sys2Proof.EarStarts

/-! ## Start and stop (R295, R305) -/

section Control
variable {p : Path} {s : State} (hf : s.domFenced Dom.ear = false)
include hf

theorem audoCtrlStart_starts (hmay : audoMay s p = true) (hrun : s.ear.audo.run = false) (htrig : trigOf s.ear.audo.trigSrc = 0) :
    audoCtrlStart p s = (touch Dom.ear s).setEar fun e => e.setAudo fun a => { a with startReq := true } := by
  have hmay : audoMay (touch Dom.ear s) p = true := hmay
  simp [audoCtrlStart, earAccess_of_unfenced hf, hmay, audoStartBit, hrun, htrig]

theorem audoCtrlStop_stops (hmay : audoMay s p = true) (hrun : s.ear.audo.run = true) :
    audoCtrlStop p s = (touch Dom.ear s).setEar fun e => e.setAudo fun a => { a with stopReq := true } := by
  have hmay : audoMay (touch Dom.ear s) p = true := hmay
  simp [audoCtrlStop, earAccess_of_unfenced hf, hmay, audoStopBit, hrun]

theorem audoCtrlStop_of_other (hmay : audoMay s p = false) : audoCtrlStop p s = touch Dom.ear s := by
  have hmay : audoMay (touch Dom.ear s) p = false := hmay
  simp [audoCtrlStop, earAccess_of_unfenced hf, hmay]

/-- UNDER is read and cleared. -/
theorem audoUnderRead_host :
    audoUnderRead .host s =
      ((touch Dom.ear s).setEar fun e => e.setAudo fun a => { a with under := 0#32 }).answered .host s.ear.audo.under := by
  rw [audoUnderRead, earAccess_of_unfenced hf]
  rfl

end Control

/-! ## Playback starts (R295, R296) -/

/-- Audio out as playback starts. -/
def playbackStarted (a : AudioOut) : AudioOut :=
  { a with run := true, startReq := false, stopReq := false, arriving := none, block := 0, frame := 0, inBlock := false, played := false }

theorem audoPlaybackStart_of_triggered {s u : State} (hrun : s.ear.audo.run = false) (hclk : s.audoClocked = true)
    (h : triggered (trigOf s.ear.audo.trigSrc) s.ear.audo.startReq s.ear.audo.arriving s = some u) :
    audoPlaybackStart s = u.setEar fun e => e.setAudo playbackStarted := by
  simp only [audoPlaybackStart, hrun, hclk, h]
  rfl

/-! ## Frames (R295, R296) -/

section Frames
variable {s : State} (hrun : s.ear.audo.run = true) (hclk : s.audoClocked = true)
include hrun hclk

theorem audoFrame_stops (hstop : s.ear.audo.stopReq = true) :
    audoFrame s = s.setEar fun e => e.setAudo fun a => { a with run := false, stopReq := false, inBlock := false, lastFrame := [] } := by
  simp [audoFrame, hrun, hclk, hstop]

variable (hstop : s.ear.audo.stopReq = false)
include hstop

theorem audoFrame_plays (h : s.ear.audo.inBlock = true ∨ audoReady s = true) : audoFrame s = audoPlay s := by
  simp [audoFrame, hrun, hclk, hstop, h]

/-- No block is ready. -/
theorem audoFrame_zeros (hin : s.ear.audo.inBlock = false) (hready : audoReady s = false) :
    audoFrame s = s.setEar fun e => e.setAudo fun a => { a with
      lastFrame := a.wire [], under := if a.played then satInc a.under else a.under } := by
  simp [audoFrame, hrun, hclk, hstop, hin, hready]

end Frames

/-- A frame before the block's last. -/
theorem audoPlay_within {s : State} (h : s.ear.audo.frame + 1 < s.ear.audo.blockLen.toNat) :
    audoPlay s = s.setEar fun e => e.setAudo fun a => { a with
      frame := s.ear.audo.frame + 1, inBlock := true, lastFrame := a.wire (audoSamples s s.ear.audo.frame) } := if_pos h

/-- Audio out after a block's last frame, of the samples d. -/
def blockPlayed (d : List (BitVec 24)) (a : AudioOut) : AudioOut :=
  { a with frame := 0, inBlock := false, block := a.block + 1, played := true, lastFrame := a.wire d }

theorem audoPlay_last {s : State} (h : s.ear.audo.frame + 1 = s.ear.audo.blockLen.toNat) (hdone : s.ear.audo.doneEn = true) :
    audoPlay s =
      (s.setEar fun e => e.setAudo (blockPlayed (audoSamples s s.ear.audo.frame))).tallyAdd s.ear.audo.done.val 1 := by
  simp only [audoPlay, h, Nat.lt_irrefl, if_false, hdone, if_true]
  rfl

/-! ## The statement -/

/-- Settles O37: its clauses in their order, each from the lemma on its command. -/
theorem audioOutPlays : Obligations.AudioOutPlays := by
  refine ⟨fun p s hf hmay hrun htrig => ?start, fun p s hf hmay hrun => ?stop, fun p s hf hmay => ?other,
    fun s hrun hclk htrig hreq => ?playback, fun a s hrun hclk htrig harr => ?triggered, fun s hrun hclk hstop => ?stops,
    fun s hrun hclk hstop hplay hframe => ?within, fun s hrun hclk hstop hin hframe hdone => ?last,
    fun s hrun hclk hstop hin hready => ?zeros, fun s hf => ?under⟩
  case start => exact ⟨_, congrArg Host.Outcome.next (audoCtrlStart_starts hf hmay hrun htrig), rfl, rfl⟩
  case stop => exact ⟨_, congrArg Host.Outcome.next (audoCtrlStop_stops hf hmay hrun), rfl, rfl⟩
  case other => exact ⟨_, congrArg Host.Outcome.next (audoCtrlStop_of_other hf hmay), rfl, rfl⟩
  case playback =>
    have hstart : triggered (trigOf s.ear.audo.trigSrc) s.ear.audo.startReq s.ear.audo.arriving s = some s := by
      rw [htrig, hreq, triggered_start]
    exact ⟨_, congrArg Host.Outcome.next (audoPlaybackStart_of_triggered hrun hclk hstart), rfl, rfl⟩
  case triggered =>
    have hstart : triggered (trigOf s.ear.audo.trigSrc) s.ear.audo.startReq s.ear.audo.arriving s = some (elapseTo a.toNat s) := by
      rw [harr, triggered_arriving htrig]
    have hset := setEar_elapseTo a.toNat (fun e => e.setAudo playbackStarted) s
    have hear : ((elapseTo a.toNat s).setEar fun e => e.setAudo playbackStarted).ear = s.ear.setAudo playbackStarted :=
      congrArg State.ear hset
    refine ⟨_, congrArg Host.Outcome.next (audoPlaybackStart_of_triggered hrun hclk hstart), hear, toNat_tick_elapseTo a s, ?_⟩
    rw [hear]
    exact hset
  case stops => exact congrArg Host.Outcome.next (audoFrame_stops hrun hclk hstop)
  case within =>
    exact congrArg Host.Outcome.next ((audoFrame_plays hrun hclk hstop hplay).trans (audoPlay_within hframe))
  case last =>
    exact ⟨_, congrArg Host.Outcome.next ((audoFrame_plays hrun hclk hstop (.inl hin)).trans (audoPlay_last hframe hdone)),
      tallyAdd_ear .., tally_tallyAdd_one .., tallyAdd_mem ..⟩
  case zeros => exact congrArg Host.Outcome.next (audoFrame_zeros hrun hclk hstop hin hready)
  case under => exact ⟨_, congrArg Host.Outcome.next (audoUnderRead_host hf), rfl, rfl, rfl⟩

end Sys2Proof.AudioFrames
end

section
/-! PROOFS. Capture: settings and who may write them (R283, R287, R305), capture starts (R283, R284), output boundaries (R287 to R292),
results (R291), capture rings (R292, R293), and the statement about the EAR, CAPTURE and MICBIAS commands. -/

namespace Sys2Proof.EarCapture
open Sys2Proof Sys2Proof.Machine Sys2Proof.Laws Sys2Proof.Words Sys2Proof.EarStarts

/-! ## Settings (R283, R287, R305) -/

section Settings
variable {p : Path} {s : State} (hf : s.domFenced Dom.ear = false)
include hf

theorem earCtrlStart_of_barred (hbar : (earBar s p).isSome = true) : earCtrlStart p s = touch Dom.ear s :=
  (earAccess_of_unfenced hf _).trans (if_pos hbar)

section Open
variable (hbar : earBar s p = none)
include hbar

/-- A setting by a path that may write the Ear. -/
theorem earAccess_of_open (f : State → State) :
    earAccess s (fun s => if (earBar s p).isSome then s else f s) = f (touch Dom.ear s) := by
  have hbar : earBar (touch Dom.ear s) p = none := hbar
  simp [earAccess_of_unfenced hf, hbar]

theorem earCtrlStart_starts (hrun : s.ear.run = false) (htrig : trigOf s.ear.trigSrc = 0) :
    earCtrlStart p s = (touch Dom.ear s).setEar fun e => { e with startReq := true } := by
  rw [earCtrlStart, earAccess_of_open hf hbar]
  simp [earStartBit, hrun, htrig]

theorem earCtrlStop_stops (hrun : s.ear.run = true) :
    earCtrlStop p s = (touch Dom.ear s).setEar fun e => { e with stopReq := true } := by
  rw [earCtrlStop, earAccess_of_open hf hbar]
  simp [earStopBit, hrun]

theorem earEnableWrite_sets (v : W32) :
    earEnableWrite p v s = (touch Dom.ear s).setEar fun e => { e with enable := v.setWidth 8 } :=
  earAccess_of_open hf hbar _

theorem earChWrite_at_once (hrun : s.ear.run = false) (n : Fin 8) (v : W32) :
    earChWrite p n v s = (touch Dom.ear s).setEar fun e => e.setChan n fun c => { c with reg := chWord c.reg v } := by
  rw [earChWrite, earAccess_of_open hf hbar]
  simp [setCh, State.setEar, hrun]

/-- While capture runs the setting waits for the next boundary (R287). -/
theorem earChWrite_waits (hrun : s.ear.run = true) {n : Fin 8} (hnext : s.ear.chan[n].next = none) (v : W32) :
    earChWrite p n v s =
      (touch Dom.ear s).setEar fun e => e.setChan n fun c => { c with next := some (chWord s.ear.chan[n].reg v) } := by
  rw [earChWrite, earAccess_of_open hf hbar]
  have hnext : s.ear.chan[n.val].next = none := hnext
  simp [setCh, State.setEar, Ear.setChan, upd, hrun, hnext]

end Open

theorem earRingWrite_user (hown : s.ownsLane p (ringLane v) = true) (hrun : s.ear.run = false) :
    earRingWrite p 1 v s = (touch Dom.ear s).setEar fun e => e.setRing 1 (CapRing.apply (ringOk s 1 v) v 0#64) := by
  have hown : (touch Dom.ear s).ownsLane p (ringLane v) = true := hown
  have hrun : ¬(touch Dom.ear s).ear.run = true := by simp [hrun]
  rw [earRingWrite, earAccess_of_unfenced hf, if_neg (by decide), hown, if_neg (by decide), if_pos rfl, setCapRing, if_neg hrun]
  rfl

end Settings

/-- Ring 0 is the engine's alone. -/
theorem earRingWrite_engine_ring {p : Path} (hp : p ≠ .cox) (v : W32) (s : State) :
    ∃ power, earRingWrite p 0 v s = { s with power := power } := by
  simp only [earRingWrite, hp, if_true, if_false]
  unfold earAccess
  split <;> exact ⟨_, rfl⟩

/-! ## Results (R291) -/

theorem earResultRead_takes {s : State} (hf : s.domFenced Dom.ear = false) (h : s.ear.captures = false) (n : Fin 8) :
    earResultRead .host n s =
      ((touch Dom.ear s).setEar fun e => e.setChan n fun c => { c with result := 0#32, full := false }).answered .host
        s.ear.chan[n].result := by
  simp [earResultRead, earAccess_of_unfenced hf, readEarResult, h]

/-- While rings capture, the stream takes the words. -/
theorem earResultRead_captured {s : State} (hf : s.domFenced Dom.ear = false) (h : s.ear.captures = true) (n : Fin 8) :
    earResultRead .host n s = (touch Dom.ear s).answered .host 0#32 := by
  simp [earResultRead, earAccess_of_unfenced hf, readEarResult, h]

/-! ## Capture starts (R283, R284) -/

/-- The Ear as capture starts. -/
def captureStarted (e : Ear) : Ear :=
  { e with
    run := true, startReq := false, stopReq := false, arriving := none, nextSample := 0#64
    chan := mapIdx e.chan fun i c => c.start e.osr (e.enable.getLsbD i.val)
    ring := e.ring.map fun (r : CapRing) => { r with start := 0#64 } }

theorem getElem_mapIdx {α β : Type} {n : Nat} (v : Vector α n) (f : Fin n → α → β) (i : Fin n) : (mapIdx v f)[i] = f i v[i] := by
  simp [mapIdx]

theorem chan_captureStarted (e : Ear) (i : Fin 8) :
    (captureStarted e).chan[i] = e.chan[i].start e.osr (e.enable.getLsbD i.val) := getElem_mapIdx ..

theorem earCaptureStart_of_triggered {s u : State} (hrun : s.ear.run = false) (hclk : s.earClocked = true)
    (hclosing : s.ear.closing = false) (hempty : s.ear.captures = false ∨ s.ear.buffer = [])
    (h : triggered (trigOf s.ear.trigSrc) s.ear.startReq s.ear.arriving s = some u) :
    earCaptureStart s = u.setEar captureStarted := by
  have hleft : (!s.ear.buffer.isEmpty && s.ear.captures) = false := by
    obtain hcaptures | hbuffer := hempty
    · simp [hcaptures]
    · simp [hbuffer]
  simp only [earCaptureStart, hrun, hclk, hclosing, hleft, h]
  rfl

theorem earCaptureStart_of_none {s : State} (h : triggered (trigOf s.ear.trigSrc) s.ear.startReq s.ear.arriving s = none) :
    earCaptureStart s = s := by
  simp [earCaptureStart, h]

/-! ## Output boundaries (R287 to R292) -/

/-- Changes that wait, joins and leaves take effect. -/
def changesApplied (e : Ear) : Ear := { e with chan := mapIdx e.chan fun i c => c.boundary e.osr (e.enable.getLsbD i.val) }

/-- What channel i delivers at a boundary. -/
def sampleAt (d : List (BitVec 24 × Bool)) (i : Fin 8) : BitVec 24 × Bool := d.getD i.val (0#24, false)

/-- Every running channel has delivered its word. -/
def delivered (d : List (BitVec 24 × Bool)) (e : Ear) : Ear :=
  { e with
    ovrSeen := e.ovrSeen ||| chanBits fun i => e.chan[i].running && e.chan[i].full
    clipSeen := e.clipSeen ||| chanBits fun i => e.chan[i].running && e.chan[i].invalid == 0 && (sampleAt d i).2
    chan := mapIdx e.chan fun i c => c.deliver i.val (sampleAt d i).1 (sampleAt d i).2 }

/-- Capture has ended. -/
def captureEnded (e : Ear) : Ear :=
  { e with
    run := false, stopReq := false
    chan := e.chan.map fun (c : MicChan) => { c with running := false, invalid := 0, reg := c.next.getD c.reg, next := none } }

theorem chan_captureEnded (e : Ear) (i : Fin 8) :
    (captureEnded e).chan[i].running = false ∧ (captureEnded e).chan[i].next = none := by
  simp [captureEnded]

/-- The set is counted, and capture ends where a stop is asked for. -/
def setCounted (e : Ear) : Ear :=
  let e := { e with nextSample := e.nextSample + 1#64 }
  if e.stopReq then captureEnded e else e

theorem setCounted_of_stop {e : Ear} (h : e.stopReq = true) :
    setCounted e = captureEnded { e with nextSample := e.nextSample + 1#64 } := if_pos h

theorem nextSample_setCounted (e : Ear) : (setCounted e).nextSample = e.nextSample + 1#64 := by
  unfold setCounted
  dsimp only
  split <;> rfl

/-- Without a stop capture goes on. -/
theorem setCounted_of_no_stop {e : Ear} (h : e.stopReq = false) : (setCounted e).run = e.run ∧ (setCounted e).chan = e.chan := by
  simp [setCounted, h]

theorem earBoundary_eq {s : State} (hrun : s.ear.run = true) (hclk : s.earClocked = true) (d : List (BitVec 24 × Bool)) :
    earBoundary d s = (takeSet ((ringsDue (s.setEar changesApplied)).setEar (delivered d))).setEar setCounted := by
  simp only [earBoundary, hrun, hclk]
  rfl

/-- From s to t the Ear alone changes, and in it neither the sample number nor a stop that is asked for. -/
def BoundaryGoesOn (s t : State) : Prop :=
  ∃ e : Ear, t = { s with ear := e } ∧ e.nextSample = s.ear.nextSample ∧ e.stopReq = s.ear.stopReq

namespace BoundaryGoesOn

theorem refl (s : State) : BoundaryGoesOn s s := ⟨s.ear, rfl, rfl, rfl⟩

theorem trans {s t u : State} : BoundaryGoesOn s t → BoundaryGoesOn t u → BoundaryGoesOn s u := by
  rintro ⟨e, rfl, hnext, hstop⟩ ⟨e', rfl, hnext', hstop'⟩
  exact ⟨e', rfl, hnext'.trans hnext, hstop'.trans hstop⟩

end BoundaryGoesOn

/-- Ring writes that wait take effect. -/
theorem ringsDue_goesOn (s : State) : BoundaryGoesOn s (ringsDue s) := by
  refine List.foldlRecOn (motive := BoundaryGoesOn s) (List.finRange 2) _ (.refl s) fun t ht k _ => ht.trans ?_
  split
  · exact ⟨_, rfl, rfl, rfl⟩
  · exact .refl t

/-- The stream takes words from the channels into its buffer. -/
theorem takeSet_goesOn (s : State) : BoundaryGoesOn s (takeSet s) := by
  unfold takeSet
  dsimp only
  split
  · exact ⟨_, rfl, rfl, rfl⟩
  · exact .refl s

theorem ringsDue_of_none {s : State} (h0 : s.ear.ring[(0 : Fin 2)].next = none) (h1 : s.ear.ring[(1 : Fin 2)].next = none) :
    ringsDue s = s := by
  have hrings : List.finRange 2 = [0, 1] := rfl
  simp only [ringsDue, hrings, List.foldl_cons, List.foldl_nil, h0, h1]

theorem takeSet_of_not_captures {s : State} (h : s.ear.captures = false) : takeSet s = s := by simp [takeSet, h]

/-- A boundary counts its set, whatever rings do. -/
theorem earBoundary_counts {s : State} (hrun : s.ear.run = true) (hclk : s.earClocked = true) (d : List (BitVec 24 × Bool)) :
    ∃ t, BoundaryGoesOn s t ∧ earBoundary d s = t.setEar setCounted := by
  have hchanged : BoundaryGoesOn s (s.setEar changesApplied) := ⟨_, rfl, rfl, rfl⟩
  have hrings := hchanged.trans (ringsDue_goesOn _)
  have hdelivered := hrings.trans ⟨delivered d (ringsDue (s.setEar changesApplied)).ear, rfl, rfl, rfl⟩
  exact ⟨_, hdelivered.trans (takeSet_goesOn _), earBoundary_eq hrun hclk d⟩

theorem setEar_setEar (s : State) (f g : Ear → Ear) : (s.setEar f).setEar g = s.setEar fun e => g (f e) := rfl

/-- Where no ring captures and no ring write waits, the channels alone take part in a boundary. -/
theorem earBoundary_of_not_captures {s : State} (hrun : s.ear.run = true) (hclk : s.earClocked = true) (hcap : s.ear.captures = false)
    (h0 : s.ear.ring[(0 : Fin 2)].next = none) (h1 : s.ear.ring[(1 : Fin 2)].next = none) (d : List (BitVec 24 × Bool)) :
    earBoundary d s = s.setEar fun e => setCounted (delivered d (changesApplied e)) := by
  have hrings : ringsDue (s.setEar changesApplied) = s.setEar changesApplied := ringsDue_of_none h0 h1
  have htake : takeSet ((s.setEar changesApplied).setEar (delivered d)) = (s.setEar changesApplied).setEar (delivered d) :=
    takeSet_of_not_captures hcap
  rw [earBoundary_eq hrun hclk, hrings, htake, setEar_setEar, setEar_setEar]

/-- A channel that runs with its settings goes on with them. -/
theorem changeWords_self (osr : BitVec 2) (r : BitVec 24) : changeWords osr r r = 0 := by simp [changeWords]

/-- The word of a running channel that no invalid output and no unread word precede. -/
theorem deliver_boundary {c : MicChan} (hrun : c.running = true) (hnext : c.next = none) (hinv : c.invalid = 0) (hfull : c.full = false)
    (osr : BitVec 2) (n : Nat) (d : BitVec 24) (clip : Bool) :
    (c.boundary osr true).deliver n d clip = { c with result := micWord true false clip n d, full := true } := by
  obtain ⟨reg, next, invalid, running, result, full⟩ := c
  subst hrun hnext hinv hfull
  simp [MicChan.boundary, MicChan.deliver, changeWords_self]

theorem chan_delivered (d : List (BitVec 24 × Bool)) (e : Ear) (i : Fin 8) :
    (delivered d (changesApplied e)).chan[i] =
      (e.chan[i].boundary e.osr (e.enable.getLsbD i.val)).deliver i.val (sampleAt d i).1 (sampleAt d i).2 := by
  have hdelivered : (delivered d (changesApplied e)).chan[i] = _ := getElem_mapIdx ..
  have hchanged : (changesApplied e).chan[i] = _ := getElem_mapIdx ..
  rw [hdelivered, hchanged]

/-! ## Capture rings (R292, R293) -/

/-- A stream's write changes the bytes of the Boathouse, and statistics. -/
theorem streamWrite_eq (off : Nat) (b : List Byte) (s : State) :
    ∃ stat, streamWrite off b s = { s with stat := stat, mem := { s.mem with bh := s.mem.bh.put off b } } := by
  refine List.foldlRecOn
    (motive := fun t : State => ∃ stat, t = { s with stat := stat, mem := { s.mem with bh := s.mem.bh.put off b } })
    (List.range ((b.length + 255) / 256)) _ ⟨s.stat, rfl⟩ ?_
  rintro _ ⟨_, rfl⟩ _ _
  exact ⟨_, rfl⟩

section
variable (off : Nat) (b : List Byte) (s : State)

@[simp] theorem ear_streamWrite : (streamWrite off b s).ear = s.ear := by
  obtain ⟨stat, h⟩ := streamWrite_eq off b s
  rw [h]

@[simp] theorem mem_streamWrite : (streamWrite off b s).mem = { s.mem with bh := s.mem.bh.put off b } := by
  obtain ⟨stat, h⟩ := streamWrite_eq off b s
  rw [h]

@[simp] theorem tally_streamWrite (k : Nat) : (streamWrite off b s).tally k = s.tally k := by
  obtain ⟨stat, h⟩ := streamWrite_eq off b s
  rw [h]
  rfl

end

theorem tally_setEar (s : State) (f : Ear → Ear) (k : Nat) : (s.setEar f).tally k = s.tally k := rfl

/-- Boathouse offset of the next set of a ring. -/
def setAt (r : CapRing) : Nat := r.slotAt + 64 + 32 * r.sets

/-- A set as the stream writes it. -/
def setBytes (c : CapSet) : List Byte := c.words.flatMap fun w => leBytes w.toNat 4

/-- Ring r takes the set now, if it takes it at all: its block has room, and the bank takes a write and serves no other input. -/
def ringReady (c : CapSet) (s : State) (r : CapRing) : Bool :=
  (!r.takes c || decide (r.sets < r.block.toNat)) &&
    (!r.takes c || s.bankTakes (setAt r / 0x80000) && !s.arbBusy (bankPort (setAt r / 0x80000)) 1 4)

/-- A set is written to ring k, if it takes the set. -/
def setEntered (c : CapSet) (k : Fin 2) (s : State) : State :=
  if s.ear.ring[k].takes c then
    (streamWrite (setAt s.ear.ring[k]) (setBytes c) s).setEar fun e => e.setRing k (CapRing.enter c)
  else s

theorem captureSetWrite_eq {c : CapSet} {rest : List CapSet} {s : State} (hbuf : s.ear.buffer = c :: rest)
    (hready : ∀ k : Fin 2, ringReady c s s.ear.ring[k] = true) :
    captureSetWrite s = setEntered c 1 (setEntered c 0 (s.setEar fun e => { e with buffer := rest })) := by
  have hall : s.ear.ring.all (ringReady c s) = true := by
    rw [Vector.all_eq_true]
    exact fun k hk => hready ⟨k, hk⟩
  simp only [captureSetWrite, hbuf]
  exact if_pos hall

/-- The oldest set goes to ring 1 where that ring alone takes it. -/
theorem captureSetWrite_ring1 {c : CapSet} {rest : List CapSet} {s : State} (hbuf : s.ear.buffer = c :: rest)
    (h0 : s.ear.ring[(0 : Fin 2)].takes c = false) (h1 : s.ear.ring[(1 : Fin 2)].takes c = true)
    (hroom : s.ear.ring[(1 : Fin 2)].sets < s.ear.ring[(1 : Fin 2)].block.toNat)
    (hbank : s.bankTakes (setAt s.ear.ring[(1 : Fin 2)] / 0x80000) = true)
    (hport : s.arbBusy (bankPort (setAt s.ear.ring[(1 : Fin 2)] / 0x80000)) 1 4 = false) :
    captureSetWrite s =
      (streamWrite (setAt s.ear.ring[(1 : Fin 2)]) (setBytes c) (s.setEar fun e => { e with buffer := rest })).setEar fun e =>
        e.setRing 1 (CapRing.enter c) := by
  have hready : ∀ k : Fin 2, ringReady c s s.ear.ring[k] = true := by
    refine Fin.forall_fin_two.mpr ⟨?_, ?_⟩
    · simp only [ringReady, h0, Bool.not_false, Bool.true_or, Bool.and_self]
    · simp only [ringReady, hroom, hbank, hport, decide_true, Bool.or_true, Bool.not_false, Bool.and_self]
  have hskip : setEntered c 0 (s.setEar fun e => { e with buffer := rest }) = s.setEar fun e => { e with buffer := rest } :=
    if_neg (Bool.eq_false_iff.mp h0)
  rw [captureSetWrite_eq hbuf hready, hskip]
  exact if_pos h1

theorem enter_sets (c : CapSet) (r : CapRing) : (r.enter c).sets = r.sets + 1 := by
  unfold CapRing.enter
  dsimp only
  split
  · next h => simp [h]
  · rfl

theorem captureBlockComplete_full {k : Fin 2} {s : State} (hen : s.ear.ring[k].en = true)
    (hfull : s.ear.ring[k].sets = s.ear.ring[k].block.toNat) (hbank : s.bankTakes (s.ear.ring[k].slotAt / 0x80000) = true)
    (htally : s.ear.ring[k].tallyEn = true) :
    captureBlockComplete k s =
      ((streamWrite s.ear.ring[k].slotAt (s.ear.ring[k].header s.clk.degraded) s).tallyAdd s.ear.ring[k].tally.val 1).setEar fun e =>
        e.setRing k fun r => { r with
          blockNo := r.blockNo + 1#32, slot := r.slotNext, sets := 0, lost := 0, first := false, ovr := false } := by
  simp only [captureBlockComplete, hen, hfull, hbank, htally, beq_self_eq_true, Bool.true_or, Bool.and_self, if_true]

/-! ## The statement -/

/-- Settles O36: its clauses in their order, each from the lemma on its command. -/
theorem earCaptures : Obligations.EarCaptures := by
  refine ⟨fun p s hf hbar hrun htrig => ?start, fun p s hf hbar hrun => ?stop, fun p s hf hbar => ?barred,
    fun s hrun hclk hclosing hempty htrig hreq => ?started, fun a s hrun hclk hclosing hempty htrig harr => ?triggered,
    fun s hrun htrig harr => ?untriggered, fun d i s hrun hclk hcap h0 h1 hstop hon hchan hnext hinv hfull => ?delivers,
    fun d s hrun hclk hstop => ?stops, fun p n v s hf hbar hrun => ?channel, fun p n v s hf hbar hrun hnext => ?waits,
    fun p v s hf hbar => ?enable, fun n s hf hcap => ?result, fun n s hf hcap => ?noResult, fun p v s hf hown hrun => ?ring,
    fun p v s hp => ?engineRing, fun c rest s hbuf h0 h1 hroom hbank hport => ?set,
    fun k s hen hfull hbank htally => ?block, fun n s hen => ?bias⟩
  case start => exact ⟨_, congrArg Host.Outcome.next (earCtrlStart_starts hf hbar hrun htrig), rfl, rfl⟩
  case stop => exact ⟨_, congrArg Host.Outcome.next (earCtrlStop_stops hf hbar hrun), rfl, rfl⟩
  case barred => exact ⟨_, congrArg Host.Outcome.next (earCtrlStart_of_barred hf hbar), rfl, rfl⟩
  case started =>
    have hstart : triggered (trigOf s.ear.trigSrc) s.ear.startReq s.ear.arriving s = some s := by rw [htrig, hreq, triggered_start]
    exact ⟨_, congrArg Host.Outcome.next (earCaptureStart_of_triggered hrun hclk hclosing hempty hstart), rfl, rfl, rfl,
      chan_captureStarted s.ear, rfl⟩
  case triggered =>
    have hstart : triggered (trigOf s.ear.trigSrc) s.ear.startReq s.ear.arriving s = some (elapseTo a.toNat s) := by
      rw [harr, triggered_arriving htrig]
    have hset := setEar_elapseTo a.toNat captureStarted s
    have hear : ((elapseTo a.toNat s).setEar captureStarted).ear = captureStarted s.ear := congrArg State.ear hset
    refine ⟨_, congrArg Host.Outcome.next (earCaptureStart_of_triggered hrun hclk hclosing hempty hstart), rfl, rfl, rfl, ?_,
      toNat_tick_elapseTo a s, ?_⟩
    · rw [hear]; exact chan_captureStarted s.ear
    · rw [hear]; exact hset
  case untriggered => exact congrArg Host.Outcome.next (earCaptureStart_of_none (by rw [harr, triggered_none htrig]))
  case delivers =>
    obtain ⟨hgoes, hchans⟩ := setCounted_of_no_stop (e := delivered d (changesApplied s.ear)) hstop
    have hword := chan_delivered d s.ear i
    rw [hon, deliver_boundary hchan hnext hinv hfull] at hword
    refine ⟨_, congrArg Host.Outcome.next (earBoundary_of_not_captures hrun hclk hcap h0 h1 d), ?_, ?_, ?_, rfl⟩
    · rw [setEar_ear, nextSample_setCounted]; rfl
    · rw [setEar_ear, hgoes]; exact hrun
    · rw [setEar_ear, hchans]; exact hword
  case stops =>
    obtain ⟨_, ⟨e, rfl, hnext, hreq⟩, hcounts⟩ := earBoundary_counts hrun hclk d
    have hends : earBoundary d s = { s with ear := captureEnded { e with nextSample := e.nextSample + 1#64 } } :=
      hcounts.trans (congrArg (fun e : Ear => { s with ear := e }) (setCounted_of_stop (hreq.trans hstop)))
    exact ⟨_, congrArg Host.Outcome.next hends, congrArg (· + 1#64) hnext, rfl, rfl, chan_captureEnded _, rfl⟩
  case channel => exact ⟨_, congrArg Host.Outcome.next (earChWrite_at_once hf hbar hrun n v), rfl, rfl⟩
  case waits => exact ⟨_, congrArg Host.Outcome.next (earChWrite_waits hf hbar hrun hnext v), rfl, rfl⟩
  case enable => exact ⟨_, congrArg Host.Outcome.next (earEnableWrite_sets hf hbar v), rfl, rfl⟩
  case result =>
    exact ⟨_, congrArg Host.Outcome.next (earResultRead_takes hf hcap n), rfl, getElem_upd_self _ n _,
      fun k hk => getElem_upd_ne _ hk _, rfl⟩
  case noResult => exact ⟨_, congrArg Host.Outcome.next (earResultRead_captured hf hcap n), rfl, rfl⟩
  case ring => exact ⟨_, congrArg Host.Outcome.next (earRingWrite_user hf hown hrun), rfl, rfl⟩
  case engineRing =>
    obtain ⟨power, hwrite⟩ := earRingWrite_engine_ring hp v s
    exact ⟨_, congrArg Host.Outcome.next hwrite, rfl, rfl⟩
  case set =>
    obtain ⟨stat, hwrite⟩ := streamWrite_eq (setAt s.ear.ring[(1 : Fin 2)]) (setBytes c) (s.setEar fun e => { e with buffer := rest })
    have hset := captureSetWrite_ring1 hbuf h0 h1 hroom hbank hport
    rw [hwrite] at hset
    refine ⟨_, congrArg Host.Outcome.next hset, rfl, ?_, ?_, rfl, rfl⟩
    · exact (congrArg CapRing.sets (getElem_upd_self s.ear.ring 1 _)).trans (enter_sets c _)
    · exact getElem_upd_ne s.ear.ring (i := 1) (j := 0) (by decide) _
  case block =>
    refine ⟨_, congrArg Host.Outcome.next (captureBlockComplete_full hen hfull hbank htally), ?_, ?_, ?_, ?_⟩
    · rw [setEar_ear, tallyAdd_ear, ear_streamWrite]; exact getElem_upd_self s.ear.ring k _
    · rw [tally_setEar, tally_tallyAdd_one, tally_streamWrite]
    · rw [setEar_mem, tallyAdd_mem, mem_streamWrite]
    · rw [setEar_mem, tallyAdd_mem, mem_streamWrite]
  case bias => exact congrArg Host.Outcome.next (if_pos hen)

end Sys2Proof.EarCapture
end

section
/-! PROOFS. The sensing converter: entries of a pass (R299, R300), results (R301), urgent requests (R302, R303), and the statement about
the SENSE and URGENT commands. -/

namespace Sys2Proof.Conversions
open Sys2Proof Sys2Proof.Machine Sys2Proof.Laws Sys2Proof.Floor

/-! ## Entries of a pass (R299, R300) -/

theorem enter_settling {x : Sense} {i : Fin 32} (h : seqSettle x.seq[i] ≠ 0#8) :
    x.enter i = { x with cur := x.seq[i], run := .settling i } := by
  rw [Sense.enter, if_neg h]

theorem enter_converting {x : Sense} {i : Fin 32} (h : seqSettle x.seq[i] = 0#8) :
    x.enter i = { x with cur := x.seq[i], run := .converting i } := by
  rw [Sense.enter, if_pos h]

theorem leave_settling {x : Sense} {i j : Fin 32} (hnext : x.nextFrom (i.val + 1) = some j) (hset : seqSettle x.seq[j] ≠ 0#8)
    (hidden : Bool) : x.leave i hidden = { x with cur := x.seq[j], run := .settling j } := by
  simp only [Sense.leave, hnext]
  exact enter_settling hset

/-- The pass ends and is counted. -/
theorem leave_last {x : Sense} {i : Fin 32} (h : x.nextFrom (i.val + 1) = none) (hidden : Bool) :
    x.leave i hidden = { x with run := .idle, pass := x.pass + 1#8, hidden := hidden } := by
  simp only [Sense.leave, h]

/-- Which entry is next, SENSE_SEQ alone says. -/
theorem nextFrom_of_seq {x y : Sense} (h : y.seq = x.seq) (k : Nat) : y.nextFrom k = x.nextFrom k := by
  simp only [Sense.nextFrom, h]

section Runs
variable {s : State} (hruns : s.snsRuns = true)
include hruns

theorem sensePassStart_enters (hidle : s.sense.run = .idle) {i : Fin 32} (hnext : s.sense.nextFrom 0 = some i) :
    sensePassStart s = s.setSense (Sense.enter i) := by
  simp [sensePassStart, hruns, hidle, hnext]

theorem senseSettleDone_entry {i : Fin 32} (h : s.sense.run = .settling i) :
    senseSettleDone s = s.setSense fun x => { x with run := .converting i } := by
  simp [senseSettleDone, hruns, h]

theorem senseSettleDone_urgent {u : Urgent} (h : s.sense.run = .urgSettling u) :
    senseSettleDone s = s.setSense fun x => { x with run := .urgConverting u } := by
  simp [senseSettleDone, hruns, h]

end Runs

theorem senseSettleDone_of_not_runs {s : State} (h : s.snsRuns = false) : senseSettleDone s = s := by simp [senseSettleDone, h]

/-! ## Results (R301) -/

/-- The word of entry i in SENSE_LASTi. -/
def lastTaken (i : Fin 32) (data : Nat) (x : Sense) : Sense :=
  { x with last := put x.last i (senseWord false false i.val x.pass.toNat data) }

/-- A word in SENSE_DATA. -/
def dataShown (urg : Bool) (src data : Nat) (x : Sense) : Sense :=
  { x with data := senseWord (bit x.data 31) urg src x.pass.toNat data }

/-- An entry has completed: a user's request may run, and the next entry may be interrupted (R303). -/
def entryDone (x : Sense) : Sense := { x with aborts := 0, userHold := false }

/-- A user's request has completed. -/
def userDone (x : Sense) : Sense := { x with go := false, userHold := true }

section Done
variable {s : State} (hruns : s.snsRuns = true)
include hruns

theorem senseConversionDone_entry {i : Fin 32} (h : s.sense.run = .converting i) (d : BitVec 20) :
    senseConversionDone d s = (entryResult i d.toNat s).setSense fun x =>
      (entryDone x).leave i (entryResult i d.toNat s).confidential := by
  simp [senseConversionDone, hruns, h, entryDone]

theorem senseConversionDone_urgent {u : Urgent} (h : s.sense.run = .urgConverting u) (d : BitVec 20) :
    senseConversionDone d s = (urgentResult u d.toNat s).setSense Sense.resume := by
  simp [senseConversionDone, hruns, h]

end Done

theorem setSense_setSense (s : State) (f g : Sense → Sense) : (s.setSense f).setSense g = s.setSense fun x => g (f x) := rfl

/-- A reading that confidential mode does not hide reaches SENSE_DATA. -/
theorem senseData_shown {s : State} {input : BitVec 5} (h : (s.confidential && secretInput input) = false) (urg : Bool) (src data : Nat) :
    senseData urg src input data s = s.setSense (dataShown urg src data) := by
  rw [senseData, h]
  rfl

theorem secretInput_of_lt {input : BitVec 5} (h : input.toNat < 14) : secretInput input = false := by
  simp only [secretInput, decide_eq_false_iff_not]
  omega

/-- The result of a user's entry on one of SENSE0 to SENSE7. -/
theorem entryResult_user {s : State} {i : Fin 32} (hi : i.val < 30) (hinput : (seqInput s.sense.cur).toNat < 8) (data : Nat) :
    entryResult i data s = s.setSense fun x => dataShown false i.val data (lastTaken i data x) := by
  have h31 : i ≠ 31 := by
    rintro rfl
    exact absurd hi (by decide)
  have h30 : i ≠ 30 := by
    rintro rfl
    exact absurd hi (by decide)
  have hpad : ¬8 ≤ (seqInput s.sense.cur).toNat := by omega
  have hsecret := secretInput_of_lt (input := seqInput s.sense.cur) (by omega)
  unfold entryResult
  dsimp only
  rw [if_neg h31, if_neg h30, senseData_shown (by rw [hsecret, Bool.and_false])]
  split
  · rw [if_neg hpad]; rfl
  · rfl

theorem entryResult_core (data : Nat) (s : State) : entryResult 30 data s = coreMv data (s.setSense (lastTaken 30 data)) := by
  unfold entryResult
  rw [if_neg (by decide), if_pos rfl]
  rfl

/-- A user's urgent reading outside confidential mode. -/
theorem urgentResult_user {u : Urgent} {s : State} (huser : u.by_ = .user) (hconf : s.confidential = false) (data : Nat) :
    urgentResult u data s = s.setSense fun x => dataShown true u.input.toNat data (userDone x) := by
  have hshown : ((s.setSense userDone).confidential && secretInput u.input) = false := by
    have hconf : (s.setSense userDone).confidential = false := hconf
    rw [hconf, Bool.false_and]
  simp only [urgentResult, huser]
  exact senseData_shown hshown true u.input.toNat data

/-- The entry that an urgent request interrupted begins again. -/
theorem resume_converting {x : Sense} {i : Fin 32} (hint : x.interrupted = some i) (hset : seqSettle x.seq[i] = 0#8) :
    x.resume = { x with interrupted := none, cur := x.seq[i], run := .converting i } := by
  simp only [Sense.resume, hint]
  exact enter_converting (x := { x with interrupted := none }) hset

/-! ## The reading of VDD_CORE (R14, R299) -/

/-- From 500 mV on, a fabric that runs goes on. -/
theorem coreMv_of_le {data : Nat} {s : State} (h : 500 ≤ milliVolts 1200 data) (hfloor : s.rail.floor = false) :
    coreMv data s = { s with rail := { s.rail with meas := BitVec.ofNat 10 (Nat.min (milliVolts 1200 data) 1023) } } := by
  have hmv : ¬(BitVec.ofNat 10 (Nat.min (milliVolts 1200 data) 1023)).toNat < 500 := by
    have hmin : Nat.min (milliVolts 1200 data) 1023 = min (milliVolts 1200 data) 1023 := rfl
    rw [hmin, BitVec.toNat_ofNat]
    omega
  have hfloor : ¬(s.setRail fun r => { r with meas := BitVec.ofNat 10 (Nat.min (milliVolts 1200 data) 1023) }).rail.floor = true := by
    rw [setRail_rail, hfloor]; decide
  rw [coreMv, railMeasured, if_neg hmv, if_neg hfloor]
  rfl

theorem coreMv_of_lt {data : Nat} (h : milliVolts 1200 data < 500) (s : State) :
    coreMv data s =
      { s with rail := railStopped (BitVec.ofNat 10 (milliVolts 1200 data)) s.rail, lanes := lanesStopped s.steady s } := by
  have hmin : Nat.min (milliVolts 1200 data) 1023 = milliVolts 1200 data := Nat.min_eq_left (by omega)
  rw [coreMv, hmin]
  refine railMeasured_of_lt ?_ s
  rw [BitVec.toNat_ofNat]
  omega

theorem strokes_of_floor {s : State} (h : s.rail.floor = true) (i : ShellId) : s.strokes i = false := by simp [State.strokes, h]

/-! ## Urgent requests (R302, R303) -/

theorem pick_engine {x : Sense} {u : Urgent} {r : List Urgent} (h : x.engineQ = u :: r) : x.pick = some (u, { x with engineQ := r }) := by
  simp only [Sense.pick, h]

/-- A user's request runs once no engine's request waits and an entry has completed since the last. -/
theorem pick_user {x : Sense} {u : Urgent} (hengine : x.engineQ = []) (hhold : x.userHold = false) (h : x.userQ = some u) :
    x.pick = some (u, { x with userQ := none }) := by
  simp [Sense.pick, hengine, hhold, h]

theorem enterUrgent_settling {u : Urgent} (h : u.settle ≠ 0#8) (x : Sense) : x.enterUrgent u = { x with run := .urgSettling u } := by
  rw [Sense.enterUrgent, if_neg h]

theorem enterUrgent_converting {u : Urgent} (h : u.settle = 0#8) (x : Sense) : x.enterUrgent u = { x with run := .urgConverting u } := by
  rw [Sense.enterUrgent, if_pos h]

section Urgents
variable {s : State} (hruns : s.snsRuns = true)
include hruns

theorem urgentStart_idle (hidle : s.sense.run = .idle) {u : Urgent} {x : Sense} (hpick : s.sense.pick = some (u, x)) :
    urgentStart s = { s with sense := { x with interrupted := none }.enterUrgent u } := by
  simp [urgentStart, hruns, hidle, hpick, State.setSense]

theorem urgentStart_interrupts {i : Fin 32} (hconv : s.sense.run = .converting i) (haborts : s.sense.aborts < 2) {u : Urgent} {x : Sense}
    (hpick : s.sense.pick = some (u, x)) :
    urgentStart s = { s with sense := { x with interrupted := some i, aborts := x.aborts + 1 }.enterUrgent u } := by
  simp [urgentStart, hruns, hconv, haborts, hpick, State.setSense]

/-- No conversion is interrupted a third time in a row. -/
theorem urgentStart_of_aborts {i : Fin 32} (hconv : s.sense.run = .converting i) (haborts : 2 ≤ s.sense.aborts) : urgentStart s = s := by
  simp [urgentStart, hruns, hconv, Nat.not_lt.mpr haborts]

end Urgents

theorem senseUrgentGo_queues {s : State} {v : W32} (hgo : s.sense.go = false) (hbit : bit v 31 = true)
    (hreal : realInput (seqInput v) = true) : senseUrgentGo v s = setUrgent .user v s := by
  simp [senseUrgentGo, hgo, hbit, hreal]

/-! ## The statement -/

/-- Settles O39: its clauses in their order, each from the lemma on its command. -/
theorem sensingConverts : Obligations.SensingConverts := by
  refine ⟨fun i s hruns hidle hnext hset => ?settling, fun i s hruns hidle hnext hset => ?converting, fun i s hruns hrun => ?settled,
    fun u s hruns hrun => ?urgSettled, fun s hruns => ?stopped, fun i d s hruns hrun hi hinput hnext => ?last,
    fun d s hruns hrun hnext hset hfloor hmv => ?core, fun d s hruns hrun hnext hset hfloor hmv => ?floor,
    fun u i d s hruns hrun huser hconf hint hset => ?urgent, fun p v s hgo hbit hreal => ?go, fun p v s hgo => ?busy,
    fun u i s hruns hrun haborts hengine hhold huser hset => ?interrupts, fun u r s hruns hrun hengine hset => ?engine,
    fun i s hruns hrun haborts => ?kept, fun s => ?data⟩
  case settling =>
    have hstart := sensePassStart_enters hruns hidle hnext
    rw [State.setSense, enter_settling hset] at hstart
    exact congrArg Host.Outcome.next hstart
  case converting =>
    have hstart := sensePassStart_enters hruns hidle hnext
    rw [State.setSense, enter_converting hset] at hstart
    exact congrArg Host.Outcome.next hstart
  case settled => exact congrArg Host.Outcome.next (senseSettleDone_entry hruns hrun)
  case urgSettled => exact congrArg Host.Outcome.next (senseSettleDone_urgent hruns hrun)
  case stopped => exact congrArg Host.Outcome.next (senseSettleDone_of_not_runs hruns)
  case last =>
    have hdone := senseConversionDone_entry hruns hrun d
    have hleave := leave_last
      ((nextFrom_of_seq (y := entryDone (dataShown false i.val d.toNat (lastTaken i d.toNat s.sense))) rfl _).trans hnext)
    rw [entryResult_user hi hinput, setSense_setSense, State.setSense, hleave] at hdone
    exact ⟨_, congrArg Host.Outcome.next hdone, rfl, rfl, rfl, rfl, rfl⟩
  case core =>
    have hdone := senseConversionDone_entry hruns hrun d
    have hleave := leave_settling (i := 30) ((nextFrom_of_seq (y := entryDone (lastTaken 30 d.toNat s.sense)) rfl 31).trans hnext) hset
    rw [entryResult_core, coreMv_of_le (s := s.setSense (lastTaken 30 d.toNat)) hmv hfloor, State.setSense, setSense_sense, hleave] at hdone
    exact ⟨_, congrArg Host.Outcome.next hdone, rfl, rfl, rfl, rfl, rfl⟩
  case floor =>
    have hdone := senseConversionDone_entry hruns hrun d
    have hleave := leave_settling (i := 30) ((nextFrom_of_seq (y := entryDone (lastTaken 30 d.toNat s.sense)) rfl 31).trans hnext) hset
    rw [entryResult_core, coreMv_of_lt hmv, State.setSense, setSense_sense, hleave] at hdone
    exact ⟨_, congrArg Host.Outcome.next hdone, rfl, rfl, strokes_of_floor rfl⟩
  case urgent =>
    have hdone := senseConversionDone_urgent hruns hrun d
    have hresume := resume_converting (x := dataShown true u.input.toNat d.toNat (userDone s.sense)) hint hset
    rw [urgentResult_user huser hconf, setSense_setSense, State.setSense, hresume] at hdone
    exact ⟨_, congrArg Host.Outcome.next hdone, rfl, rfl, rfl, rfl, rfl, rfl⟩
  case go => exact congrArg Host.Outcome.next (senseUrgentGo_queues hgo hbit hreal)
  case busy => exact congrArg Host.Outcome.next (if_pos hgo)
  case interrupts =>
    have hstart := urgentStart_interrupts hruns hrun haborts (pick_user hengine hhold huser)
    rw [enterUrgent_converting hset] at hstart
    exact congrArg Host.Outcome.next hstart
  case engine =>
    have hstart := urgentStart_idle hruns hrun (pick_engine hengine)
    rw [enterUrgent_settling hset] at hstart
    exact congrArg Host.Outcome.next hstart
  case kept => exact congrArg Host.Outcome.next (urgentStart_of_aborts hruns hrun haborts)
  case data => rfl

end Sys2Proof.Conversions
end

section
/-! PROOFS. PWM outputs: what a period boundary does and when one has ended a burst (R318, R319), GO and the end of the BURST time
(R319), reads of PWMk_CTRL (R322), and the statement about PWM outputs. -/

namespace Sys2Proof.PwmBursts
open Sys2Proof Sys2Proof.Machine Sys2Proof.Laws Sys2Proof.ClockLoss Sys2Proof.Words Sys2Proof.EarStarts

/-! ## When an output runs, and when its periods count (R319) -/

theorem runs_of_enable {p : Pwm} (h : p.burst = 0#16) : p.runs = p.en := if_pos h

theorem runs_of_burst {p : Pwm} (h : p.burst ≠ 0#16) : p.runs = p.go := if_neg h

theorem counts_of_burst {p : Pwm} (hburst : p.burst ≠ 0#16) (hgo : p.go = true) (hperiod : p.period ≠ 0) : p.counts = true := by
  simp [Pwm.counts, runs_of_burst hburst, hgo, hperiod]

theorem counts_of_not_runs {p : Pwm} (h : p.runs = false) : p.counts = false := by simp [Pwm.counts, h]

theorem counts_of_ended {p : Pwm} (hburst : p.burst ≠ 0#16) (hgo : p.go = false) : p.counts = false :=
  counts_of_not_runs ((runs_of_burst hburst).trans hgo)

theorem ticks_pos {p : Pwm} (h : p.period ≠ 0) : 0 < p.ticks := Nat.mul_pos (Nat.pos_of_ne_zero h) (Nat.two_pow_pos _)

theorem ticks_pos_of_counts {p : Pwm} (h : p.counts = true) : 0 < p.ticks := by
  simp only [Pwm.counts, Bool.and_eq_true, bne_iff_ne] at h
  exact ticks_pos h.2

/-! ## A period boundary (R318, R319) -/

/-- A burst that runs ends at a boundary once its time is over. -/
theorem boundary_go (b : Nat) (p : Pwm) : (p.boundary b).go = (p.go && !(decide (p.burst ≠ 0#16) && decide (p.over ≤ b))) := by
  by_cases hburst : p.burst = 0#16
  · simp [Pwm.boundary, Pwm.apply, Pwm.begin, hburst]
  · by_cases hover : p.over ≤ b <;> simp [Pwm.boundary, Pwm.apply, Pwm.begin, hburst, hover]

/-- GO apart, a boundary applies a held setting and begins a period. -/
theorem boundary_eq (b : Nat) (p : Pwm) :
    p.boundary b = { p with duty := p.next.getD p.duty, next := none, phase := BitVec.ofNat 64 b, go := (p.boundary b).go } := by
  unfold Pwm.boundary
  split <;> rfl

@[simp] theorem boundary_burst (b : Nat) (p : Pwm) : (p.boundary b).burst = p.burst := by rw [boundary_eq]

theorem boundary_go_eq_false_iff {p : Pwm} (hgo : p.go = true) (hburst : p.burst ≠ 0#16) (b : Nat) :
    (p.boundary b).go = false ↔ p.over ≤ b := by
  simp [boundary_go, hgo, hburst]

theorem apply_of_none {p : Pwm} (h : p.next = none) : p.apply = p := by
  cases p
  subst h
  rfl

/-- Before the BURST time is over, and with no setting held, a period begins and nothing else changes. -/
theorem boundary_of_lt {b : Nat} {p : Pwm} (hover : b < p.over) (hnext : p.next = none) :
    p.boundary b = p.begin (BitVec.ofNat 64 b) := by
  simp [Pwm.boundary, Nat.not_le.mpr hover, apply_of_none hnext]

/-! ## The generator at a tick: the first boundary, and the periods after it, which are alike -/

/-- The boundaries after the first, up to a tick. -/
def onward (now : W64) (q : Pwm) : Pwm :=
  if q.counts && decide (q.phase.toNat + q.ticks ≤ now.toNat) then q.boundary (q.phase.toNat + q.ticks * q.whole now.toNat) else q

@[simp] theorem onward_burst (now : W64) (q : Pwm) : (onward now q).burst = q.burst := by
  unfold onward
  split
  · exact boundary_burst _ _
  · rfl

theorem onward_of_not_counts {q : Pwm} (h : q.counts = false) (now : W64) : onward now q = q := by simp [onward, h]

theorem onward_of_lt {q : Pwm} {now : W64} (h : now.toNat < q.phase.toNat + q.ticks) : onward now q = q := by
  simp [onward, Nat.not_le.mpr h]

theorem onward_of_le {q : Pwm} {now : W64} (hcounts : q.counts = true) (h : q.phase.toNat + q.ticks ≤ now.toNat) :
    onward now q = q.boundary (q.phase.toNat + q.ticks * q.whole now.toNat) := by simp [onward, hcounts, h]

theorem upTo_of_not_counts {p : Pwm} (h : p.counts = false) (now : W64) : p.upTo now = p := by simp [Pwm.upTo, h]

theorem upTo_of_lt {p : Pwm} {now : W64} (h : now.toNat < p.phase.toNat + p.ticks) : p.upTo now = p := by
  simp [Pwm.upTo, Nat.not_le.mpr h]

theorem upTo_of_le {p : Pwm} {now : W64} (hcounts : p.counts = true) (h : p.phase.toNat + p.ticks ≤ now.toNat) :
    p.upTo now = onward now (p.boundary (p.phase.toNat + p.ticks)) := by
  simp [Pwm.upTo, onward, hcounts, h]

@[simp] theorem upTo_burst (p : Pwm) (now : W64) : (p.upTo now).burst = p.burst := by
  cases hcounts : p.counts with
  | false => rw [upTo_of_not_counts hcounts]
  | true =>
    rcases Nat.lt_or_ge now.toNat (p.phase.toNat + p.ticks) with h | h
    · rw [upTo_of_lt h]
    · rw [upTo_of_le hcounts h, onward_burst, boundary_burst]

section First
variable {p : Pwm} {now : W64} (hcounts : p.counts = true) (hnow : now.toNat = p.phase.toNat + p.ticks)
include hcounts hnow

/-- At its next boundary the generator does that boundary and no more. -/
theorem upTo_first : p.upTo now = p.boundary now.toNat := by
  rw [upTo_of_le hcounts (Nat.le_of_eq hnow.symm), ← hnow]
  cases hq : (p.boundary now.toNat).counts with
  | false => exact onward_of_not_counts hq now
  | true =>
    have hphase : (p.boundary now.toNat).phase = now := by rw [boundary_eq, BitVec.ofNat_toNat, BitVec.setWidth_eq]
    have hticks := ticks_pos_of_counts hq
    exact onward_of_lt (by rw [hphase]; omega)

theorem upTo_first_eq :
    p.upTo now = { p with duty := p.next.getD p.duty, next := none, phase := now, go := (p.upTo now).go } := by
  have heq := boundary_eq now.toNat p
  rwa [BitVec.ofNat_toNat, BitVec.setWidth_eq, ← upTo_first hcounts hnow] at heq

theorem upTo_first_go :
    (p.upTo now).go = (p.go && !(decide (p.burst ≠ 0#16) && decide (p.over ≤ p.phase.toNat + p.ticks))) := by
  rw [upTo_first hcounts hnow, boundary_go, hnow]

end First

/-! ## When GO has ended (R319) -/

theorem whole_of_burst {q : Pwm} (h : q.burst ≠ 0#16) (n : Nat) :
    q.whole n = min ((n - q.phase.toNat) / q.ticks) ((q.over - q.phase.toNat + q.ticks - 1) / q.ticks) := if_neg h

/-- As many whole periods as fit in n, but no more than cover d, cover d exactly where some number of periods that fits does. -/
theorem le_mul_min_iff {T : Nat} (hT : 0 < T) (d n : Nat) :
    d ≤ T * min (n / T) ((d + T - 1) / T) ↔ ∃ m, d ≤ m * T ∧ m * T ≤ n := by
  constructor
  · intro h
    refine ⟨_, (Nat.mul_comm _ _).symm ▸ h, ?_⟩
    calc min (n / T) ((d + T - 1) / T) * T ≤ n / T * T := Nat.mul_le_mul_right T (Nat.min_le_left _ _)
      _ ≤ n := Nat.div_mul_le_self n T
  · rintro ⟨m, hd, hn⟩
    have hfits : d ≤ T * (n / T) := calc
      d ≤ m * T := hd
      _ ≤ n / T * T := Nat.mul_le_mul_right T ((Nat.le_div_iff_mul_le hT).mpr hn)
      _ = T * (n / T) := Nat.mul_comm _ _
    have hcovers : d ≤ T * ((d + T - 1) / T) := by
      have := Nat.div_add_mod (d + T - 1) T
      have := Nat.mod_lt (d + T - 1) hT
      omega
    rcases Nat.le_total (n / T) ((d + T - 1) / T) with h | h
    · rwa [Nat.min_eq_left h]
    · rwa [Nat.min_eq_right h]

/-- Boundaries counted from the next one, and from the start of the period that runs. -/
theorem exists_later_boundary_iff {d a T n : Nat} :
    (∃ m, d ≤ a + T + m * T ∧ a + T + m * T ≤ n) ↔ ∃ m, 1 ≤ m ∧ d ≤ a + m * T ∧ a + m * T ≤ n := by
  have hnext (m : Nat) : a + T + m * T = a + (m + 1) * T := by rw [Nat.succ_mul]; omega
  simp only [hnext]
  constructor
  · rintro ⟨m, hm⟩
    exact ⟨m + 1, Nat.le_add_left 1 m, hm⟩
  · rintro ⟨m, h1, hm⟩
    obtain ⟨m, rfl⟩ := Nat.exists_eq_add_of_le' h1
    exact ⟨m, hm⟩

section Burst
variable {p : Pwm} {now : W64} (hgo : p.go = true) (hburst : p.burst ≠ 0#16) (hperiod : p.period ≠ 0)
include hgo hburst hperiod

/-- From a period that begins within the BURST time, GO ends at the first of its boundaries at or after the end of that time. -/
theorem onward_go_eq_false_iff (hover : p.phase.toNat < p.over) (hnow : p.phase.toNat ≤ now.toNat) :
    (onward now p).go = false ↔ ∃ m, p.over ≤ p.phase.toNat + m * p.ticks ∧ p.phase.toNat + m * p.ticks ≤ now.toNat := by
  rcases Nat.lt_or_ge now.toNat (p.phase.toNat + p.ticks) with hlt | hle
  · rw [onward_of_lt hlt, hgo]
    refine iff_of_false (by decide) ?_
    rintro ⟨m, hm, hmnow⟩
    cases m with
    | zero => omega
    | succ m =>
      rw [Nat.succ_mul] at hmnow
      omega
  · have hcounts := counts_of_burst hburst hgo hperiod
    rw [onward_of_le hcounts hle, boundary_go_eq_false_iff hgo hburst, whole_of_burst hburst, ← Nat.sub_le_iff_le_add',
      le_mul_min_iff (ticks_pos hperiod)]
    exact exists_congr fun m => by omega

theorem onward_begin_go_eq_false_iff {b : W64} (hover : b.toNat < p.over) (hnow : b.toNat ≤ now.toNat) :
    (onward now (p.begin b)).go = false ↔ ∃ m, p.over ≤ b.toNat + m * p.ticks ∧ b.toNat + m * p.ticks ≤ now.toNat :=
  onward_go_eq_false_iff (p := p.begin b) hgo hburst hperiod hover hnow

theorem upTo_go_eq_false_iff (hnext : p.next = none) :
    (p.upTo now).go = false ↔
      ∃ m, 1 ≤ m ∧ p.over ≤ p.phase.toNat + m * p.ticks ∧ p.phase.toNat + m * p.ticks ≤ now.toNat := by
  have hcounts := counts_of_burst hburst hgo hperiod
  rcases Nat.lt_or_ge now.toNat (p.phase.toNat + p.ticks) with hlt | hle
  · rw [upTo_of_lt hlt, hgo]
    refine iff_of_false (by decide) ?_
    rintro ⟨m, hm, -, hmnow⟩
    have := Nat.le_mul_of_pos_left p.ticks hm
    omega
  · rw [upTo_of_le hcounts hle]
    rcases Nat.lt_or_ge (p.phase.toNat + p.ticks) p.over with hover | hover
    · have hphase : (BitVec.ofNat 64 (p.phase.toNat + p.ticks)).toNat = p.phase.toNat + p.ticks :=
        (BitVec.toNat_ofNat ..).trans (Nat.mod_eq_of_lt (Nat.lt_of_le_of_lt hle now.isLt))
      rw [boundary_of_lt hover hnext,
        onward_begin_go_eq_false_iff hgo hburst hperiod (by rwa [hphase]) (by rwa [hphase]), hphase]
      exact exists_later_boundary_iff
    · have hended : (p.boundary (p.phase.toNat + p.ticks)).go = false := (boundary_go_eq_false_iff hgo hburst _).mpr hover
      have hstops := counts_of_ended (p := p.boundary (p.phase.toNat + p.ticks)) (by rwa [boundary_burst]) hended
      rw [onward_of_not_counts hstops]
      exact iff_of_true hended ⟨1, Nat.le_refl 1, by rwa [Nat.one_mul], by rwa [Nat.one_mul]⟩

end Burst

/-! ## GO (R319, R322) -/

theorem pwmGoDo_of_may {path : Path} {s : State} (h : s.edgeMay path = true) (k : Fin 4) :
    pwmGoDo path k s = { s with edge := { s.edge with pwm := put s.edge.pwm k (s.edge.pwm[k].start s.clk.tick) } } := if_pos h

theorem start_begins {p : Pwm} (hburst : p.burst ≠ 0#16) (hgo : p.go = false) (now : W64) :
    p.start now = { p with go := true, started := now, phase := now } := by
  have hidle : p.upTo now = p := upTo_of_not_counts (counts_of_ended hburst hgo) now
  simp [Pwm.start, hidle, hburst, hgo, Pwm.begin]

theorem start_restarts {p : Pwm} {now : W64} (hburst : p.burst ≠ 0#16) (hgo : (p.upTo now).go = true) :
    p.start now = { p.upTo now with started := now } := by
  simp [Pwm.start, hburst, hgo]

theorem start_of_disabled {p : Pwm} (hburst : p.burst = 0#16) (hen : p.en = false) (now : W64) : p.start now = p := by
  have hidle : p.upTo now = p := upTo_of_not_counts (counts_of_not_runs ((runs_of_enable hburst).trans hen)) now
  simp [Pwm.start, hidle, hburst]

/-! ## Reads of PWMk_CTRL (R322) -/

theorem ctrl_go (p : Pwm) : bit p.ctrl 31 = p.go := by
  have hbit (b : Bool) (k : Nat) : (bitAt b k).getLsbD 31 = (b && decide (k = 31)) := by
    cases b with
    | false => exact BitVec.getLsbD_zero
    | true => exact getLsbD_oneBit (by decide)
  have hpre : (atBit p.pre.toNat 24 4).getLsbD 31 = false := by
    rw [atBit, BitVec.getLsbD_ofNat, Nat.testBit_lt_two_pow, Bool.and_false]
    rw [Nat.shiftLeft_eq]
    omega
  have hburst : (p.burst.setWidth 32).getLsbD 31 = false := by
    rw [BitVec.getLsbD_setWidth, BitVec.getLsbD_of_ge _ _ (by decide), Bool.and_false]
  simp only [bit, Pwm.ctrl, BitVec.getLsbD_or, hbit, hpre, hburst]
  simp

theorem readEdge_pwmCtrl (k : Fin 4) (s : State) : readEdge (0x60 + 8 * k.val) s = (s.edge.pwm[k].upTo s.clk.tick).ctrl := by
  have hk := k.isLt
  have hindex : (0x60 + 8 * k.val - 0x60) / 8 = k.val := by omega
  simp (disch := omega) only [readEdge, if_neg, if_pos, hindex]
  have hget : s.edge.pwm.toList.getD k.val {} = s.edge.pwm[k] := by simp [List.getD]
  exact congrArg (fun p : Pwm => (p.upTo s.clk.tick).ctrl) hget

/-! ## An output changes at a later tick (R318, R319) -/

theorem edge_elapseTo (n : Nat) (s : State) : (elapseTo n s).edge = s.edge := by
  rw [elapseTo, elapse_timed]; rfl

/-- Time goes on to a tick, and then output k changes. -/
theorem setPwm_elapseTo (n : Nat) (k : Fin 4) (f : Pwm → Pwm) (s : State) :
    setPwm k f (elapseTo n s) =
      { s.timed (elapseTo n s) with edge := { s.edge with pwm := put s.edge.pwm k (f s.edge.pwm[k]) } } := by
  rw [← edge_elapseTo n s]
  exact congrArg (fun u : State => { u with edge := (setPwm k f (elapseTo n s)).edge }) (elapse_timed _ s)

theorem toNat_tick_elapseTo_of_lt {n : Nat} (h : n < 2 ^ 64) (s : State) :
    (elapseTo n s).clk.tick.toNat = Nat.max s.clk.tick.toNat n := by
  have hn : (BitVec.ofNat 64 n).toNat = n := (BitVec.toNat_ofNat ..).trans (Nat.mod_eq_of_lt h)
  simpa only [hn] using toNat_tick_elapseTo (BitVec.ofNat 64 n) s

theorem pwmBurstEnd_of_go {k : Fin 4} {s : State} (hgo : s.edge.pwm[k].go = true) (hburst : s.edge.pwm[k].burst ≠ 0#16) :
    pwmBurstEnd k s =
      setPwm k (fun p => if p.period = 0 then { p with go := false } else p.upTo (elapseTo s.edge.pwm[k].over s).clk.tick)
        (elapseTo s.edge.pwm[k].over s) := by
  rw [pwmBurstEnd, if_pos (by rw [hgo, bne_iff_ne.mpr hburst]; rfl)]
  rfl

theorem pwmBoundary_of_counts {k : Fin 4} {s : State} (h : s.edge.pwm[k].counts = true) :
    pwmBoundary k s =
      setPwm k (fun p => p.upTo (elapseTo (s.edge.pwm[k].phase.toNat + s.edge.pwm[k].ticks) s).clk.tick)
        (elapseTo (s.edge.pwm[k].phase.toNat + s.edge.pwm[k].ticks) s) := if_pos h

/-- Settles O43: each clause is a fact about one generator, set in its place. -/
theorem pwmRunsByEnableOrBurst : Obligations.PwmRunsByEnableOrBurst := by
  refine ⟨fun p => runs_of_enable, fun p => runs_of_burst, fun p k s hmay hburst hgo => ?starts, fun p k s hmay hburst hgo => ?restarts,
    fun p k s hmay hburst hen => ?disabled, fun k s => ?read, fun now p hgo hburst hperiod hnext => ?ended,
    fun k s hgo hburst hover => ?burstEnd, fun k s hcounts hfits hahead => ?boundary⟩
  case starts => exact congrArg Host.Outcome.next ((pwmGoDo_of_may hmay k).trans (by rw [start_begins hburst hgo]))
  case restarts => exact congrArg Host.Outcome.next ((pwmGoDo_of_may hmay k).trans (by rw [start_restarts hburst hgo]))
  case disabled =>
    have hput : put s.edge.pwm k s.edge.pwm[k] = s.edge.pwm := Vector.set_getElem_self _
    exact congrArg Host.Outcome.next ((pwmGoDo_of_may hmay k).trans (by rw [start_of_disabled hburst hen, hput]))
  case read => rw [readEdge_pwmCtrl, ctrl_go]
  case ended => exact upTo_go_eq_false_iff hgo hburst hperiod hnext
  case burstEnd =>
    refine ⟨_, congrArg Host.Outcome.next ((pwmBurstEnd_of_go hgo hburst).trans (setPwm_elapseTo ..)),
      toNat_tick_elapseTo_of_lt hover s, rfl, rfl⟩
  case boundary =>
    have htick : (elapseTo (s.edge.pwm[k].phase.toNat + s.edge.pwm[k].ticks) s).clk.tick.toNat =
        s.edge.pwm[k].phase.toNat + s.edge.pwm[k].ticks :=
      (toNat_tick_elapseTo_of_lt hfits s).trans (Nat.max_eq_right hahead)
    have hself (p : Pwm) : (put s.edge.pwm k p)[k] = p := getElem_upd_self s.edge.pwm k fun _ => p
    refine ⟨_, congrArg Host.Outcome.next ((pwmBoundary_of_counts hcounts).trans (setPwm_elapseTo ..)), htick, ?_, ?_,
      fun j hj => getElem_upd_ne s.edge.pwm hj _, rfl⟩ <;> dsimp only <;> rw [hself]
    · exact upTo_first_eq hcounts htick
    · exact upTo_first_go hcounts htick

end Sys2Proof.PwmBursts
end

section
/-! PROOFS. Fields of words: what a bit and a field read of numbers put in a field, of flags, of joined words and of a word whose field
has been replaced (R7). -/

namespace Sys2Proof.Fields
open Sys2Proof Sys2Proof.Machine

/-! ## Bits -/

theorem testBit_fld (w : W32) (lo n i : Nat) : (fld w lo n).testBit i = (decide (i < n) && w.getLsbD (lo + i)) := by
  rw [fld, Nat.testBit_mod_two_pow, Nat.testBit_shiftRight, BitVec.testBit_toNat]

/-- The bits of a number at its place. -/
theorem getLsbD_atBit {v lo n k : Nat} (hk : k < 32) :
    (atBit v lo n).getLsbD k = (decide (lo ≤ k ∧ k < lo + n) && v.testBit (k - lo)) := by
  have hin : decide (lo ≤ k ∧ k < lo + n) = (decide (k ≥ lo) && decide (k - lo < n)) := by
    rw [← Bool.decide_and]
    exact decide_eq_decide.mpr (by omega)
  rw [atBit, w32, BitVec.getLsbD_ofNat, Nat.testBit_shiftLeft, Nat.testBit_mod_two_pow, hin, decide_eq_true hk, Bool.true_and,
    Bool.and_assoc]

theorem getLsbD_bitAt {b : Bool} {j k : Nat} (hk : k < 32) : (bitAt b j).getLsbD k = (b && decide (j = k)) := by
  cases b with
  | false => exact BitVec.getLsbD_zero
  | true => rw [bitAt, if_pos rfl, w32, BitVec.getLsbD_ofNat, Nat.testBit_two_pow, decide_eq_true hk]

theorem getLsbD_putFld {w : W32} {lo n v k : Nat} (hk : k < 32) :
    (putFld w lo n v).getLsbD k = if lo ≤ k ∧ k < lo + n then v.testBit (k - lo) else w.getLsbD k := by
  simp only [putFld, BitVec.getLsbD_or, BitVec.getLsbD_and, BitVec.getLsbD_not, getLsbD_atBit hk, hk, decide_true, Bool.true_and]
  by_cases hin : lo ≤ k ∧ k < lo + n
  · have hone : (2 ^ n - 1).testBit (k - lo) = true := by rw [Nat.testBit_two_pow_sub_one]; exact decide_eq_true (by omega)
    simp [hin, hone]
  · simp [hin]

theorem bit_putFld_one {w : W32} {k v : Nat} (hk : k < 32) : bit (putFld w k 1 v) k = v.testBit 0 := by
  rw [bit, getLsbD_putFld hk, if_pos (by omega), Nat.sub_self]

/-! ## Fields -/

/-- A field reads bit by bit. -/
theorem fld_eq_of_bits {w : W32} {lo n v : Nat} (hv : v < 2 ^ n) (h : ∀ i, i < n → w.getLsbD (lo + i) = v.testBit i) :
    fld w lo n = v := by
  refine Nat.eq_of_testBit_eq fun i => ?_
  rw [testBit_fld]
  by_cases hi : i < n
  · rw [decide_eq_true hi, Bool.true_and, h i hi]
  · rw [decide_eq_false hi, Bool.false_and]
    exact (Nat.testBit_lt_two_pow (Nat.lt_of_lt_of_le hv (Nat.pow_le_pow_right (by decide) (by omega)))).symm

theorem fld_putFld_self {w : W32} {lo n v : Nat} (hv : v < 2 ^ n) (h : lo + n ≤ 32) : fld (putFld w lo n v) lo n = v :=
  fld_eq_of_bits hv fun i hi => by rw [getLsbD_putFld (by omega), if_pos (by omega), Nat.add_sub_cancel_left]

theorem fld_lt (w : W32) (lo n : Nat) : fld w lo n < 2 ^ n := Nat.mod_lt _ (Nat.two_pow_pos n)

/-- A field that lies beside another stays when the other is replaced. -/
theorem fld_putFld_beside {w : W32} {lo n lo' n' v : Nat} (h : lo + n ≤ 32) (hb : lo + n ≤ lo' ∨ lo' + n' ≤ lo) :
    fld (putFld w lo' n' v) lo n = fld w lo n :=
  fld_eq_of_bits (fld_lt w lo n) fun i hi => by
    rw [getLsbD_putFld (by omega), if_neg (by omega), testBit_fld, decide_eq_true hi, Bool.true_and]

theorem fld_or (a b : W32) (lo n : Nat) : fld (a ||| b) lo n = fld a lo n ||| fld b lo n := by
  refine Nat.eq_of_testBit_eq fun i => ?_
  simp only [Nat.testBit_or, testBit_fld, BitVec.getLsbD_or, Bool.and_or_distrib_left]

theorem fld_atBit_self {v lo n : Nat} (hv : v < 2 ^ n) (h : lo + n ≤ 32) : fld (atBit v lo n) lo n = v :=
  fld_eq_of_bits hv fun i hi => by
    rw [getLsbD_atBit (by omega), decide_eq_true (by omega), Bool.true_and, Nat.add_sub_cancel_left]

theorem fld_atBit_beside {v lo n lo' n' : Nat} (h : lo + n ≤ 32) (hb : lo + n ≤ lo' ∨ lo' + n' ≤ lo) :
    fld (atBit v lo' n') lo n = 0 :=
  fld_eq_of_bits (Nat.two_pow_pos n) fun i hi => by
    rw [getLsbD_atBit (by omega), decide_eq_false (by omega), Bool.false_and, Nat.zero_testBit]

theorem fld_bitAt_beside {b : Bool} {lo n k : Nat} (h : lo + n ≤ 32) (hb : lo + n ≤ k ∨ k < lo) : fld (bitAt b k) lo n = 0 :=
  fld_eq_of_bits (Nat.two_pow_pos n) fun i hi => by
    rw [getLsbD_bitAt (by omega), decide_eq_false (by omega), Bool.and_false, Nat.zero_testBit]

theorem bit_or (a b : W32) (k : Nat) : bit (a ||| b) k = (bit a k || bit b k) := BitVec.getLsbD_or

theorem bit_bitAt_self {b : Bool} {k : Nat} (hk : k < 32) : bit (bitAt b k) k = b := by
  rw [bit, getLsbD_bitAt hk, decide_eq_true rfl, Bool.and_true]

theorem bit_bitAt_ne {b : Bool} {j k : Nat} (hk : k < 32) (h : j ≠ k) : bit (bitAt b j) k = false := by
  rw [bit, getLsbD_bitAt hk, decide_eq_false h, Bool.and_false]

theorem bit_atBit_beside {v lo n k : Nat} (hk : k < 32) (h : k < lo ∨ lo + n ≤ k) : bit (atBit v lo n) k = false := by
  rw [bit, getLsbD_atBit hk, decide_eq_false (by omega), Bool.false_and]

end Sys2Proof.Fields
end

section
/-! PROOFS. The queue (R336), and that every command completes (R339, R372): every command answers a next state that keeps the
queue. -/

namespace Sys2Proof.Queue
open Sys2Proof Sys2Proof.Machine Sys2Proof.Laws Sys2Proof.Memories

theorem step_of_front {s : State} {c : Instr} {rest : List Instr} (h : s.pending = c :: rest) :
    step s = exec c { s with pending := rest } := by
  simp only [step, State.popped, h, List.tail_cons]

theorem pending_of_exec {c : Instr} {s t : State} (h : exec c s = .next t) : t.pending = s.pending := by
  obtain ⟨u, hexec, hkeeps⟩ := exec_keeps c s
  obtain rfl : t = u := Host.Outcome.next.inj (h.symm.trans hexec)
  exact hkeeps.pending

theorem exec_completes (c : Instr) (s : State) : ∃ t, exec c s = .next t := by
  obtain ⟨t, hexec, -⟩ := exec_keeps c s
  exact ⟨t, hexec⟩

/-- A step runs the front command, or passes a tick of the empty queue. -/
theorem step_completes (s : State) : ∃ t, step s = .next t := by
  cases hq : s.pending with
  | cons c rest =>
    obtain ⟨t, hexec⟩ := exec_completes c { s with pending := rest }
    exact ⟨t, (step_of_front hq).trans hexec⟩
  | nil => exact ⟨if s.start.vddAo then elapse 1 s else s, by simp only [step, hq]⟩

theorem safeFor_all (n : Nat) (s : State) : SafeFor n s := by
  induction n generalizing s with
  | zero => trivial
  | succ n ih =>
    obtain ⟨t, hstep⟩ := step_completes s
    simpa only [SafeFor, hstep] using ih t

/-! ## The statements -/

/-- Settles O4: what every command keeps holds the queue, and a step takes the front off before the command runs. -/
theorem queueIsLeftAlone : Obligations.QueueIsLeftAlone :=
  ⟨fun _ _ _ h => pending_of_exec h, fun _ _ h => (step_keeps h).pending⟩

/-- Settles O1: by the equation of a step whose queue has a front. -/
theorem stepRunsFrontCommand : Obligations.StepRunsFrontCommand := fun _ _ _ h => step_of_front h

/-- Settles O3: each command answers a next state, so a run goes on by induction on its length. -/
theorem everyCommandCompletes : Obligations.EveryCommandCompletes := ⟨exec_completes, safeFor_all⟩

end Sys2Proof.Queue
end

section
/-! PROOFS. Calls that are answered: a reply changes the two outputs alone, and a call on a power domain that is not fenced runs with the
domain brought up (R336, R337, R407). -/

namespace Sys2Proof.Answers
open Sys2Proof Sys2Proof.Machine Sys2Proof.Laws

/-! ## What a reply changes (R336, R337) -/

theorem txLines_frame (ls : List Line) (s : State) : ∃ call, ls.foldl State.tx s = { s with call := call } := by
  induction ls generalizing s with
  | nil => exact ⟨_, rfl⟩
  | cons l ls ih => exact ih (s.tx l)

theorem prompt_frame (s : State) : ∃ call, s.prompt = { s with call := call } := by
  unfold State.prompt
  split <;> exact ⟨_, rfl⟩

/-- A reply on the Call line changes the Call line alone. -/
theorem reply_frame_line {c : Caller} (h : c.path = .call) (s : State) (ls : List Line) :
    ∃ call, s.reply c ls = { s with call := call } := by
  unfold State.reply
  rw [h]
  obtain ⟨call, htx⟩ := txLines_frame ls s
  simp only [htx]
  exact prompt_frame _

/-- A reply on the host link changes the caller's completion ring alone. -/
theorem reply_frame_host {c : Caller} (h : c.path = .host) (s : State) (ls : List Line) :
    ∃ es, s.reply c ls = s.setRing c.ring fun r => { r with out := r.out ++ es } := by
  unfold State.reply
  rw [h]
  exact ⟨_, rfl⟩

theorem reply_frame (s : State) (c : Caller) (ls : List Line) : ∃ call host, s.reply c ls = { s with call := call, host := host } := by
  cases h : c.path with
  | call =>
    obtain ⟨call, hcall⟩ := reply_frame_line h s ls
    exact ⟨call, s.host, hcall⟩
  | host =>
    obtain ⟨es, hring⟩ := reply_frame_host h s ls
    exact ⟨s.call, _, hring⟩

theorem okWith_frame (s : State) (c : Caller) (ds : List (List (String × Val))) (v : String) (fs : List (String × Val)) :
    ∃ call host, s.okWith c ds v fs = { s with call := call, host := host } := reply_frame s c _

theorem ok_frame (s : State) (c : Caller) (v : String) (fs : List (String × Val)) :
    ∃ call host, s.ok c v fs = { s with call := call, host := host } := reply_frame s c _

theorem fail_frame (s : State) (c : Caller) (v : String) (e : Err) :
    ∃ call host, s.fail c v e = { s with call := call, host := host } := reply_frame s c _

/-- Fields that speak of neither output are those of the state before the reply. -/
theorem fields_of_ok {f : State → List (String × Val)}
    (hf : ∀ (u : State) call host, f { u with call := call, host := host } = f u) (u : State) (c : Caller) (v : String)
    (fs : List (String × Val)) : f (u.ok c v fs) = f u := by
  obtain ⟨call, host, h⟩ := ok_frame u c v fs
  rw [h, hf]

/-! ## Calls on a domain (R406, R407) -/

theorem domGate_unfenced {c : Caller} {d : Dom} {s : State} (ht : Takes c s) (hf : s.domFenced d = false) (v : String)
    (k : State → State) : domGate c v d s k = k (touch d s) := by
  rw [domGate, gate_takes ht, hf]
  rfl

theorem domGate_fenced {c : Caller} {d : Dom} {s : State} (ht : Takes c s) (hf : s.domFenced d = true) (v : String)
    (k : State → State) : domGate c v d s k = s.fail c v .fenced := by
  rw [domGate, gate_takes ht, hf, if_pos rfl]

end Sys2Proof.Answers
end

section
/-! PROOFS. The calls on the core rail (R347, R405, R421): what RAIL, its ceiling, its fixed voltage and its automatic control answer
and leave, and the statement about them. -/

namespace Sys2Proof.RailCalls
open Sys2Proof Sys2Proof.Machine Sys2Proof.Laws Sys2Proof.Registers Sys2Proof.Fields Sys2Proof.Answers

theorem exec_rail (c : Caller) (s : State) : exec (.rail c) s = .next (doRail c s) := rfl

theorem exec_railCeiling (c : Caller) (mw : Nat) (s : State) : exec (.railCeiling c mw) s = .next (doRailCeiling c mw s) := rfl

theorem exec_railFix (c : Caller) (mv : Nat) (s : State) : exec (.railFix c mv) s = .next (doRailFix c mv s) := rfl

theorem exec_railAuto (c : Caller) (s : State) : exec (.railAuto c) s = .next (doRailAuto c s) := rfl

/-! ## RAIL_CTRL (R405) -/

/-- RAIL_CTRL as RAIL FIX sets it: FIXMV, and FIXED. -/
def fixedCtrl (w : W32) (mv : Nat) : W32 := putFld (putFld w 0 10 mv) 31 1 1

theorem bit_fixedCtrl (w : W32) (mv : Nat) : bit (fixedCtrl w mv) 31 = true := bit_putFld_one (by decide)

theorem fld_fixedCtrl {w : W32} {mv : Nat} (h : mv < 1024) : fld (fixedCtrl w mv) 0 10 = mv := by
  rw [fixedCtrl, fld_putFld_beside (by decide) (.inl (by decide)), fld_putFld_self h (by decide)]

/-- With FIXED set the governor holds FIXMV, and asks for it at once. -/
theorem governorFollow_fixed {s : State} (hg : s.rail.gov ≠ .frozen) (hreq : s.rail.req = none) (hb : bit s.rail.ctrl 31 = true) :
    governorFollow s = railSend (fld s.rail.ctrl 0 10) 0 (s.setRail fun r => { r with gov := .fixed }) := by
  rw [governorFollow, if_neg hg, if_pos hb, railRequest, setRail_rail, hreq]
  rfl

theorem governorFollow_auto {s : State} (hg : s.rail.gov ≠ .frozen) (hb : bit s.rail.ctrl 31 = false) :
    governorFollow s = s.setRail fun r => { r with gov := .auto } := by
  rw [governorFollow, if_neg hg, hb, if_neg (by decide)]

/-! ## The calls (R347) -/

/-- The rail as RAIL FIX leaves it: the request for the voltage is being sent. -/
def fixedRail (s : State) (mv : Nat) : Rail :=
  { s.rail with
    ctrl := fixedCtrl s.rail.ctrl mv, gov := .fixed, req := some ⟨mv, 0, .sending⟩, requested := BitVec.ofNat 10 mv
    pmbLast := railBytes s mv }

theorem governorFollow_fix {s : State} {mv : Nat} (hg : s.rail.gov ≠ .frozen) (hreq : s.rail.req = none) (hmv : mv < 1024) :
    governorFollow (s.setRail fun r => { r with ctrl := fixedCtrl s.rail.ctrl mv }) = { s with rail := fixedRail s mv } := by
  rw [governorFollow_fixed (s := s.setRail fun r => { r with ctrl := fixedCtrl s.rail.ctrl mv }) hg hreq (bit_fixedCtrl _ mv), setRail_rail,
    fld_fixedCtrl hmv]
  rfl

/-- A rail call that succeeds with the rail r replies with its fields. -/
theorem next_of_rail {i : Instr} {c : Caller} {s : State} {r : Rail}
    (h : exec i s = .next (({ s with rail := r } : State).ok c "RAIL" (railFields { s with rail := r }))) :
    ∃ t, exec i s = .next t ∧ t.rail = r ∧ t.quiet = ({ s with rail := r } : State).quiet ∧
      Replied c (okLine c "RAIL" (railFields t)) t :=
  ⟨_, h, ok_rail, ok_quiet, by rw [fields_of_ok (f := railFields) fun _ _ _ => rfl]; exact ok_replied⟩

section
variable {c : Caller} {s : State} (ht : Takes c s)
include ht

theorem rail_answers : exec (.rail c) s = .next (s.ok c "RAIL" (railFields s)) := by
  rw [exec_rail, doRail, gate_takes ht]

theorem railCeiling_stores {mw : Nat} (hlo : 500 ≤ mw) (hhi : mw ≤ 7500) :
    exec (.railCeiling c mw) s =
      .next ((s.setRail fun r => { r with ctrl := putFld r.ctrl 16 13 mw }).ok c "RAIL"
        (railFields (s.setRail fun r => { r with ctrl := putFld r.ctrl 16 13 mw }))) := by
  rw [exec_railCeiling, doRailCeiling, gate_takes ht, if_pos ⟨hlo, hhi⟩]

theorem railCeiling_outOfRange {mw : Nat} (h : mw < 500 ∨ 7500 < mw) :
    exec (.railCeiling c mw) s = .next (s.fail c "RAIL" .range) := by
  rw [exec_railCeiling, doRailCeiling, gate_takes ht, if_neg (by omega)]

theorem railFix_sends {mv : Nat} (hok : fixOk mv = true) (hg : s.rail.gov ≠ .frozen) (hreq : s.rail.req = none) (hmv : mv < 1024) :
    exec (.railFix c mv) s =
      .next (({ s with rail := fixedRail s mv } : State).ok c "RAIL" (railFields { s with rail := fixedRail s mv })) := by
  rw [exec_railFix, doRailFix, gate_takes ht, hok, if_neg (by decide), if_neg hg]
  exact congrArg (fun u => Host.Outcome.next (State.ok u c "RAIL" (railFields u))) (governorFollow_fix hg hreq hmv)

theorem railFix_outOfRange {mv : Nat} (hok : fixOk mv = false) : exec (.railFix c mv) s = .next (s.fail c "RAIL" .range) := by
  rw [exec_railFix, doRailFix, gate_takes ht, hok]
  rfl

theorem railFix_frozen {mv : Nat} (hok : fixOk mv = true) (hg : s.rail.gov = .frozen) :
    exec (.railFix c mv) s = .next (s.fail c "RAIL" .state) := by
  rw [exec_railFix, doRailFix, gate_takes ht, hok, if_neg (by decide), if_pos hg]

theorem railAuto_follows (hg : s.rail.gov ≠ .frozen) :
    exec (.railAuto c) s =
      .next ((s.setRail fun r => { r with ctrl := putFld r.ctrl 31 1 0, gov := .auto }).ok c "RAIL"
        (railFields (s.setRail fun r => { r with ctrl := putFld r.ctrl 31 1 0, gov := .auto }))) := by
  have hb : bit (putFld s.rail.ctrl 31 1 0) 31 = false := bit_putFld_one (by decide)
  rw [exec_railAuto, doRailAuto, gate_takes ht,
    governorFollow_auto (s := s.setRail fun r => { r with ctrl := putFld r.ctrl 31 1 0 }) hg hb]
  rfl

end

/-! ## The statement -/

/-- Settles O15: its clauses in their order, each from the lemma on its call. -/
theorem railVerbsSetTheGovernor : Obligations.RailVerbsSetTheGovernor := by
  refine ⟨fun _ _ ht => next_of_ok (rail_answers ht),
    fun _ _ _ ht hlo hhi => next_of_ok (railCeiling_stores ht hlo hhi),
    fun _ _ _ ht h => next_of_fail (railCeiling_outOfRange ht h),
    fun c mv s ht hok hg hreq hmv => ?fix,
    fun _ _ _ ht hok => next_of_fail (railFix_outOfRange ht hok),
    fun _ _ _ ht hok hg => next_of_fail (railFix_frozen ht hok hg),
    fun _ _ ht hg => next_of_ok (railAuto_follows ht hg)⟩
  case fix =>
    obtain ⟨t, hexec, hrail, hquiet, hreply⟩ := next_of_rail (railFix_sends ht hok hg hreq hmv)
    rw [← hrail] at hquiet
    exact ⟨t, hexec, by rw [hrail]; rfl, by rw [hrail]; rfl, by rw [hrail]; rfl, by rw [hrail]; rfl, hquiet, hreply⟩

end Sys2Proof.RailCalls
end

section
/-! PROOFS. The calls on the Eye (R346, R274, R277, R279, R407): what each form answers and leaves, and the statement about them. -/

namespace Sys2Proof.EyeCalls
open Sys2Proof Sys2Proof.Machine Sys2Proof.Laws Sys2Proof.Registers Sys2Proof.LaneCalls Sys2Proof.Answers

theorem exec_eyeState (c : Caller) (s : State) : exec (.eyeState c) s = .next (doEyeState c s) := rfl

theorem exec_eyeHold (c : Caller) (on : Bool) (s : State) : exec (.eyeHold c on) s = .next (doEyeHold c on s) := rfl

theorem exec_eyeSet (c : Caller) (a : EyeSetArgs) (s : State) : exec (.eyeSet c a) s = .next (doEyeSet c a s) := rfl

theorem exec_eyeSnap (c : Caller) (s : State) : exec (.eyeSnap c) s = .next (doEyeSnap c s) := rfl

theorem exec_eyeLook (c : Caller) (attend : Option Bool) (on off : Option Nat) (s : State) :
    exec (.eyeLook c attend on off) s = .next (doEyeLook c attend on off s) := rfl

theorem exec_eyeCopy (c : Caller) (l : LaneId) (b n : Nat) (s : State) : exec (.eyeCopy c l b n) s = .next (doEyeCopy c l b n s) := rfl

theorem exec_eyeCopyOff (c : Caller) (s : State) : exec (.eyeCopyOff c) s = .next (doEyeCopyOff c s) := rfl

/-! ## Answers -/

/-- From s to t only the Eye, the domains' bring-up and the two outputs change, and the Eye becomes e. -/
structure EyeBecomes (e : Eye) (s t : State) : Prop where
  eye : t.eye = e
  frame : t = { s with eye := t.eye, power := t.power, call := t.call, host := t.host }

theorem okWith_becomes (s : State) (e : Eye) (c : Caller) (ds : List (List (String × Val))) (v : String) (fs : List (String × Val)) :
    EyeBecomes e s (({ touch Dom.eye s with eye := e } : State).okWith c ds v fs) := by
  obtain ⟨call, host, h⟩ := okWith_frame { touch Dom.eye s with eye := e } c ds v fs
  exact ⟨okWith_eye, by rw [h]; rfl⟩

/-- A call that succeeds once the Eye has become e. -/
theorem next_of_eye {i : Instr} {c : Caller} {e : Eye} {ds : List (List (String × Val))} {fs : List (String × Val)} {s : State}
    (h : exec i s = .next (({ touch Dom.eye s with eye := e } : State).okWith c ds "EYE" fs)) :
    ∃ t, exec i s = .next t ∧ EyeBecomes e s t ∧ Replied c (okLine c "EYE" fs) t :=
  ⟨_, h, okWith_becomes s e c ds _ fs, okWith_replied⟩

theorem next_of_eyeFail {i : Instr} {c : Caller} {d : Err} {s : State} (h : exec i s = .next ((touch Dom.eye s).fail c "EYE" d)) :
    ∃ t, exec i s = .next t ∧ EyeBecomes s.eye s t ∧ Replied c ⟨.fail, "EYE", c.tag, [bareF d.text]⟩ t := by
  obtain ⟨call, host, hframe⟩ := fail_frame (touch Dom.eye s) c "EYE" d
  exact ⟨_, h, ⟨fail_eye, by rw [hframe]; rfl⟩, fail_replied⟩

/-! ## The Lookout's configuration (R277) -/

theorem lookConfigure_frame (attending : Bool) (s : State) :
    ∃ eye tmr, lookConfigure attending s = { s with eye := eye, tmr := tmr } ∧ eye.hold = s.eye.hold := by
  have hstart (u : State) : ∃ tmr, (if u.tmr.chan[(0 : Fin 8)].running then u else tmrStart .cox 1#8 u) = { u with tmr := tmr } := by
    split <;> exact ⟨_, rfl⟩
  obtain ⟨tmr, htmr⟩ := hstart _
  exact ⟨_, tmr, htmr, rfl⟩

theorem setHold_on (s : State) : setHold true s = s.setEye fun e => { e with hold := true } := by
  simp [setHold]

/-- HOLD goes to 0: the Eye and the timers alone change. -/
theorem setHold_off (s : State) : ∃ eye tmr, setHold false s = { s with eye := eye, tmr := tmr } ∧ eye.hold = false := by
  unfold setHold
  dsimp only
  split
  · split
    · obtain ⟨eye, tmr, hlook, hhold⟩ := lookConfigure_frame false _
      exact ⟨eye, tmr, hlook, hhold⟩
    · exact ⟨_, _, rfl, rfl⟩
  · exact ⟨_, _, rfl, rfl⟩

/-! ## EYE_LOOK (R279) -/

/-- EYE_LOOK with ATTEND, ON and OFF. -/
def lookWordOf (attend : Bool) (on off : Nat) : BitVec 17 := BitVec.ofNat 17 (boolNat attend * 65536 + off * 256 + on)

section
variable {on off : Nat} (hon : on < 256) (hoff : off < 256)
include hon hoff

theorem toNat_lookWordOf (attend : Bool) : (lookWordOf attend on off).toNat = boolNat attend * 65536 + off * 256 + on := by
  have ha : boolNat attend ≤ 1 := by cases attend <;> decide
  rw [lookWordOf, BitVec.toNat_ofNat, Nat.mod_eq_of_lt (by omega)]

theorem onFrames_lookWordOf (attend : Bool) (e : Eye) : Eye.onFrames { e with look := lookWordOf attend on off } = on := by
  simp only [Eye.onFrames, toNat_lookWordOf hon hoff]
  omega

theorem offFrames_lookWordOf (attend : Bool) (e : Eye) : Eye.offFrames { e with look := lookWordOf attend on off } = off := by
  simp only [Eye.offFrames, toNat_lookWordOf hon hoff]
  omega

theorem attend_lookWordOf (attend : Bool) : (lookWordOf attend on off).getLsbD 16 = attend := by
  have hdiv : (boolNat attend * 65536 + off * 256 + on) / 2 ^ 16 = boolNat attend := by omega
  rw [← BitVec.testBit_toNat, toNat_lookWordOf hon hoff, Nat.testBit_eq_decide_div_mod_eq, hdiv]
  cases attend <;> decide

end

/-! ## The calls (R346) -/

theorem eyeOpen_of_normal {s : State} (h : s.confidential = false) (c : Caller) : s.eyeOpen c.path.path = true := by
  cases hp : c.path <;> simp [State.eyeOpen, CallPath.path, h]

/-- Only HOLD opens the Eye's settings to a caller. -/
theorem eyeMay_caller (c : Caller) (s : State) : s.eyeMay c.path.path = s.eye.hold := by
  cases hp : c.path <;> rfl

section
variable {c : Caller} {s : State} (ht : Takes c s) (hf : s.domFenced Dom.eye = false)
include ht hf

/-- The fields of EYE STATE. -/
def stateFields (e : Eye) : List (String × Val) :=
  [bareF "STATE", decF "ready" (boolNat e.ready), symF "hold" (onOff e.hold), decF "frames" e.frames.toNat,
   decF "active" e.active.length, ("spare", match e.spare with | some k => .sym ("SL" ++ toString k.val) | none => .dash),
   decF "calgen" e.calGen.toNat]

theorem eyeState_answers : exec (.eyeState c) s =
    .next (({ touch Dom.eye s with eye := s.eye } : State).okWith c [eyeSetFields s.eye, eyeLookFields s.eye, eyeCopyFields s.eye] "EYE"
      (stateFields s.eye)) := by
  rw [exec_eyeState, doEyeState, domGate_unfenced ht hf]
  rfl

theorem eyeHold_open (hc : s.confidential = false) (on : Bool) :
    exec (.eyeHold c on) s = .next ((setHold on (touch Dom.eye s)).ok c "EYE" [bareF "HOLD", bareF (onOff on)]) := by
  rw [exec_eyeHold, doEyeHold, domGate_unfenced ht hf, if_pos (eyeOpen_of_normal (s := touch Dom.eye s) hc c)]

theorem eyeHold_sets (hc : s.confidential = false) : exec (.eyeHold c true) s =
    .next (({ touch Dom.eye s with eye := { s.eye with hold := true } } : State).ok c "EYE" [bareF "HOLD", bareF "ON"]) := by
  rw [eyeHold_open ht hf hc, setHold_on]
  rfl

theorem eyeHold_clears (hc : s.confidential = false) :
    ∃ t, exec (.eyeHold c false) s = .next t ∧ t.eye.hold = false ∧ t.mem = s.mem ∧ t.lanes = s.lanes ∧
      Replied c (okLine c "EYE" [bareF "HOLD", bareF "OFF"]) t := by
  obtain ⟨eye, tmr, hset, hhold⟩ := setHold_off (touch Dom.eye s)
  refine ⟨_, eyeHold_open ht hf hc false, ?_, ?_, ?_, ok_replied⟩
  · rw [ok_eye, hset, hhold]
  · rw [ok_mem, hset]; rfl
  · rw [ok_lanes, hset]; rfl

/-- The Eye as EYE SET leaves it. -/
def eyeSet (a : EyeSetArgs) (now : W64) (e : Eye) : Eye :=
  { (if a.ir.getD e.irEn then e else e.irDown now).setTrig (a.trig.getD e.trigSrc) with
    mode := a.mode.getD e.mode, irEn := a.ir.getD e.irEn
    delay := (a.delay.map fun t => BitVec.ofNat 20 (usTicks t)).getD e.delay
    expose := (a.expose.map fun t => BitVec.ofNat 22 (clampExpose (usTicks t))).getD e.expose
    ir := BitVec.ofNat 20 (a.lead.getD (e.ir.toNat / 1024) * 1024 + a.tail.getD (e.ir.toNat % 1024)) }

section
variable {a : EyeSetArgs} (hdelay : usOk 20 a.delay = true) (hexpose : usOk 22 a.expose = true) (hlead : below 1024 a.lead = true)
  (htail : below 1024 a.tail = true)
include hdelay hexpose hlead htail

theorem eyeSet_sets (hh : s.eye.hold = true) : exec (.eyeSet c a) s =
    .next (({ touch Dom.eye s with eye := eyeSet a s.clk.tick s.eye } : State).ok c "EYE"
      (bareF "SET" :: eyeSetFields (eyeSet a s.clk.tick s.eye))) := by
  have hmay : (touch Dom.eye s).eyeMay c.path.path = true := (eyeMay_caller c _).trans hh
  rw [exec_eyeSet, doEyeSet, domGate_unfenced ht hf, hdelay, hexpose, hlead, htail, hmay]
  rfl

theorem eyeSet_held (hh : s.eye.hold = false) : exec (.eyeSet c a) s = .next ((touch Dom.eye s).fail c "EYE" .state) := by
  have hmay : (touch Dom.eye s).eyeMay c.path.path = false := (eyeMay_caller c _).trans hh
  rw [exec_eyeSet, doEyeSet, domGate_unfenced ht hf, hdelay, hexpose, hlead, htail, hmay]
  rfl

end

theorem eyeSnap_asks (hh : s.eye.hold = true) (htrig : s.eye.trigSrc = 10#4) : exec (.eyeSnap c) s =
    .next (({ touch Dom.eye s with eye := { s.eye with snapReq := true } } : State).ok c "EYE" [bareF "SNAP"]) := by
  have hmay : (touch Dom.eye s).eyeMay c.path.path = true := (eyeMay_caller c _).trans hh
  have hsrc : (touch Dom.eye s).eye.trigSrc = 10#4 := htrig
  rw [exec_eyeSnap, doEyeSnap, domGate_unfenced ht hf, hmay, snap, hsrc]
  rfl

theorem eyeLook_sets (hc : s.confidential = false) {on off : Nat} (hon : 1 ≤ on ∧ on ≤ 255) (hoff : 1 ≤ off ∧ off ≤ 255)
    (attend : Option Bool) :
    exec (.eyeLook c attend (some on) (some off)) s =
      let e := { s.eye with look := lookWordOf (attend.getD (s.eye.look.getLsbD 16)) on off }
      .next (({ touch Dom.eye s with eye := e } : State).ok c "EYE" (bareF "LOOK" :: eyeLookFields e)) := by
  have hopen := eyeOpen_of_normal (s := touch Dom.eye s) hc c
  rw [exec_eyeLook, doEyeLook, domGate_unfenced ht hf]
  simp only [Option.all_some, decide_eq_true hon, decide_eq_true hoff, hopen, Bool.not_true, Bool.or_self, Bool.false_eq_true, if_false]
  rfl

theorem eyeCopy_sets (hc : s.confidential = false) {l : LaneId} {b n : Nat} (hst : (s.lane l).st ≠ .scrub)
    (hown : (s.lane l).owner = c.path.owner) (hn : 1 ≤ n ∧ n ≤ 4) (hok : copyOk s l b n = true) :
    exec (.eyeCopy c l b n) s =
      let e := { s.eye with
        copyEn := true, copyLane := l, copyBanks := BitVec.ofNat 2 (n - 1), copyBank := BitVec.ofNat 6 b, copyNext := 0 }
      .next (({ touch Dom.eye s with eye := e } : State).ok c "EYE" (eyeCopyFields e)) := by
  have hok' : copyOk (touch Dom.eye s) l b n = true := hok
  have hc' : (touch Dom.eye s).confidential = false := hc
  have hin : ¬(n < 1 ∨ 4 < n ∨ copyOk (touch Dom.eye s) l b n = false) := by rw [hok']; simp; omega
  rw [exec_eyeCopy, doEyeCopy, domGate_unfenced ht hf, laneMay_own (s := touch Dom.eye s) hst hown, if_neg hin]
  simp only [setCopy, hok', hc', Bool.not_false, Bool.and_self]
  rfl

theorem eyeCopyOff_clears (h : s.eye.copyEn = false ∨ (s.lane s.eye.copyLane).owner = c.path.owner) :
    exec (.eyeCopyOff c) s =
      .next (({ touch Dom.eye s with eye := { s.eye with copyEn := false } } : State).ok c "EYE" [bareF "COPY", bareF "OFF"]) := by
  have hmine : ((touch Dom.eye s).eye.copyEn && (touch Dom.eye s).laneOwner (touch Dom.eye s).eye.copyLane != c.path.owner) = false := by
    have hmine : (s.eye.copyEn && (s.lane s.eye.copyLane).owner != c.path.owner) = false := by
      obtain hoff | hown := h
      · rw [hoff, Bool.false_and]
      · rw [hown, bne_self_eq_false, Bool.and_false]
    exact hmine
  rw [exec_eyeCopyOff, doEyeCopyOff, domGate_unfenced ht hf, hmine]
  rfl

end

theorem eyeSnap_fenced {c : Caller} {s : State} (ht : Takes c s) (hf : s.domFenced Dom.eye = true) :
    exec (.eyeSnap c) s = .next (s.fail c "EYE" .fenced) := by
  rw [exec_eyeSnap, doEyeSnap, domGate_fenced ht hf]

/-! ## The statement -/

/-- Settles O35: its clauses in their order, each from the lemma on its form. -/
theorem eyeVerbs : Obligations.EyeVerbs := by
  refine ⟨fun c s ht hf => ?state, fun c s ht hf hc => ?on, fun _ _ ht hf hc => eyeHold_clears ht hf hc,
    fun c a s ht hf hh hd hx hl htl => ?set, fun c a s ht hf hh hd hx hl htl => ?held, fun c s ht hf hh htrig => ?snap,
    fun c attend on off s ht hf hc hon hon' hoff hoff' => ?look, fun c l b n s ht hf hst hown hn hn' hok hc => ?copy,
    fun c s ht hf h => ?copyOff, fun _ _ ht hf => next_of_fail (eyeSnap_fenced ht hf)⟩
  case state =>
    obtain ⟨t, hexec, ⟨heye, hframe⟩, hreply⟩ := next_of_eye (eyeState_answers ht hf)
    exact ⟨t, hexec, heye, hframe, hreply⟩
  case on =>
    obtain ⟨t, hexec, ⟨heye, hframe⟩, hreply⟩ := next_of_eye (eyeHold_sets ht hf hc)
    exact ⟨t, hexec, heye, hframe, hreply⟩
  case set =>
    obtain ⟨t, hexec, ⟨heye, hframe⟩, hreply⟩ := next_of_eye (eyeSet_sets ht hf hd hx hl htl hh)
    exact ⟨t, hexec, heye, hframe, heye ▸ hreply⟩
  case held =>
    obtain ⟨t, hexec, ⟨heye, hframe⟩, hreply⟩ := next_of_eyeFail (eyeSet_held ht hf hd hx hl htl hh)
    exact ⟨t, hexec, heye, hframe, hreply⟩
  case snap =>
    obtain ⟨t, hexec, ⟨heye, hframe⟩, hreply⟩ := next_of_eye (eyeSnap_asks ht hf hh htrig)
    exact ⟨t, hexec, heye, hframe, hreply⟩
  case look =>
    obtain ⟨t, hexec, ⟨heye, hframe⟩, hreply⟩ := next_of_eye (eyeLook_sets ht hf hc ⟨hon, hon'⟩ ⟨hoff, hoff'⟩ attend)
    have hon := Nat.lt_succ_of_le hon'
    have hoff := Nat.lt_succ_of_le hoff'
    refine ⟨t, hexec, ?_, ?_, ?_, ?_, hframe, heye ▸ hreply⟩ <;> rw [heye]
    · exact onFrames_lookWordOf hon hoff _ _
    · exact offFrames_lookWordOf hon hoff _ _
    · exact attend_lookWordOf hon hoff _
  case copy =>
    obtain ⟨t, hexec, ⟨heye, hframe⟩, hreply⟩ := next_of_eye (eyeCopy_sets ht hf hc hst hown ⟨hn, hn'⟩ hok)
    exact ⟨t, hexec, heye, hframe, heye ▸ hreply⟩
  case copyOff =>
    obtain ⟨t, hexec, ⟨heye, hframe⟩, hreply⟩ := next_of_eye (eyeCopyOff_clears ht hf h)
    exact ⟨t, hexec, heye, hframe, hreply⟩

end Sys2Proof.EyeCalls
end

section
/-! PROOFS. The calls on the Ear (R346, R305): EAR START writes TRIGSRC, and a trigger of another source that has arrived is none any more,
where the statement has it stay. -/

namespace Sys2Proof.EarCalls
open Sys2Proof Sys2Proof.Machine Sys2Proof.Laws Sys2Proof.Answers

theorem exec_earStart (c : Caller) (o : Option (BitVec 2)) (ch : Option Byte) (g : Option (BitVec 4)) (s : State) :
    exec (.earStart c o ch g) s = .next (doEarStart c o ch g s) := rfl

/-! ## EAR START (R346) -/

theorem earSettings_of_open {c : Caller} {s : State} (ht : Takes c s) (hf : s.domFenced Dom.ear = false)
    (hbar : earBar s c.path.path = none) (k : State → State) : earSettings c s k = k (touch Dom.ear s) := by
  have hbar : earBar (touch Dom.ear s) c.path.path = none := hbar
  rw [earSettings, earGate, domGate_unfenced ht hf, hbar]

/-- EAR START by START itself leaves the Ear as its settings and its trigger source are written. -/
theorem ear_earStart {c : Caller} {o : BitVec 2} {ch : Byte} {s : State} (ht : Takes c s) (hf : s.domFenced Dom.ear = false)
    (hbar : earBar s c.path.path = none) (hrun : s.ear.run = false) (ho : o ≠ 3#2) :
    (doEarStart c (some o) (some ch) (some 0#4) s).ear = { s.ear.setTrig 0#4 with osr := o, enable := ch, startReq := true } := by
  have hrun' : (touch Dom.ear s).ear.run = false := hrun
  have hrange : ¬(some o = some 3#2 ∨ (some 0#4).any (fun t : BitVec 4 => decide (9 < t.toNat)) = true) := by simp [ho]
  have hstart (u : State) (hr : u.ear.run = false) (hs : u.ear.trigSrc = 0#4) :
      earStartBit u = u.setEar fun e => { e with startReq := true } := by
    rw [earStartBit, hr, hs]
    rfl
  rw [doEarStart, earSettings_of_open ht hf hbar]
  simp only [hrun', if_neg hrange, Bool.false_eq_true, if_false, ok_ear, Option.getD_some]
  rw [hstart]
  · rfl
  · exact hrun
  · rfl

/-- A trigger of the source before is none any more once START is the source. -/
theorem arriving_setTrig {e : Ear} {k : BitVec 4} (h : k ≠ e.trigSrc) : (e.setTrig k).arriving = none := if_neg h

/-! ## A trigger that has arrived -/

/-- The Ear belongs to the Call line through ring 1 of L1, is stopped, and a trigger of TRIG_IN has arrived. -/
def triggeredEar : State :=
  { State.reset with
    start := { State.reset.start with banner := true }
    lanes := upd State.reset.lanes 1 fun L => { L with owner := .call }
    ear := { State.reset.ear with
      trigSrc := 9#4, arriving := some 0#64, ring := upd State.reset.ear.ring 1 fun r => { r with en := true, lane := 1 } } }

theorem takes_triggeredEar : Takes Caller.line triggeredEar := ⟨rfl, rfl, rfl⟩

theorem open_triggeredEar : earBar triggeredEar Caller.line.path.path = none := by decide

theorem unfenced_triggeredEar : triggeredEar.domFenced Dom.ear = false := by decide

/-! ## The statement -/

/-- Refutes O38, in its clause on EAR START of a stopped Ear: the trigger that waits in `triggeredEar` is dropped as TRIGSRC is
written, where the statement has it wait. -/
theorem not_earVerbs : ¬ Obligations.EarVerbs := by
  rintro ⟨-, hstart, -⟩
  obtain ⟨t, hexec, hear, -⟩ :=
    hstart Caller.line 0#2 0#8 triggeredEar takes_triggeredEar unfenced_triggeredEar open_triggeredEar rfl (by decide)
  have ht : t = doEarStart Caller.line (some 0#2) (some 0#8) (some 0#4) triggeredEar :=
    (Host.Outcome.next.inj ((exec_earStart ..).symm.trans hexec)).symm
  have hmodel := ear_earStart (ch := 0#8) takes_triggeredEar unfenced_triggeredEar open_triggeredEar rfl (show 0#2 ≠ 3#2 by decide)
  rw [← ht, hear] at hmodel
  have harriving : some 0#64 = (triggeredEar.ear.setTrig 0#4).arriving := congrArg Ear.arriving hmodel
  rw [arriving_setTrig (by decide)] at harriving
  exact absurd harriving (by decide)

end Sys2Proof.EarCalls
end

section
/-! PROOFS. The calls on the sensing converter (R346, R307, R423): what each form of SENSE answers and leaves, and the statement about
them. -/

namespace Sys2Proof.SenseCalls
open Sys2Proof Sys2Proof.Machine Sys2Proof.Laws Sys2Proof.Registers Sys2Proof.Answers Sys2Proof.Fields

theorem exec_senseState (c : Caller) (s : State) : exec (.senseState c) s = .next (doSenseState c s) := rfl

theorem exec_senseRead (c : Caller) (i : BitVec 5) (n : Nat) (o : BitVec 2) (s : State) :
    exec (.senseRead c i n o) s = .next (doSenseRead c i n o s) := rfl

theorem exec_senseSeq (c : Caller) (k : Nat) (i : BitVec 5) (n : Nat) (o : BitVec 2) (s : State) :
    exec (.senseSeq c k i n o) s = .next (doSenseSeq c k i n o s) := rfl

theorem exec_senseSeqOff (c : Caller) (k : Nat) (s : State) : exec (.senseSeqOff c k) s = .next (doSenseSeqOff c k s) := rfl

theorem exec_sensePeriod (c : Caller) (n : Nat) (s : State) : exec (.sensePeriod c n) s = .next (doSensePeriod c n s) := rfl

/-! ## The word of an entry (R300) -/

section
variable (i : BitVec 5) (o : BitVec 2) {n : Nat} (hn : n ≤ 255)

theorem fld_input_seqWordOf : fld (seqWordOf i n o) 0 5 = i.toNat := by
  simp only [seqWordOf, fld_or, fld_bitAt_beside (show 0 + 5 ≤ 32 by decide) (.inl (show 0 + 5 ≤ 31 by decide)),
    fld_atBit_beside (show 0 + 5 ≤ 32 by decide) (.inl (show 0 + 5 ≤ 29 by decide)),
    fld_atBit_beside (show 0 + 5 ≤ 32 by decide) (.inl (show 0 + 5 ≤ 16 by decide)),
    fld_atBit_self (lo := 0) i.isLt (by decide), Nat.zero_or]

theorem fld_osr_seqWordOf : fld (seqWordOf i n o) 29 2 = o.toNat := by
  simp only [seqWordOf, fld_or, fld_bitAt_beside (show 29 + 2 ≤ 32 by decide) (.inl (show 29 + 2 ≤ 31 by decide)),
    fld_atBit_beside (show 29 + 2 ≤ 32 by decide) (.inr (show 16 + 8 ≤ 29 by decide)),
    fld_atBit_beside (show 29 + 2 ≤ 32 by decide) (.inr (show 0 + 5 ≤ 29 by decide)),
    fld_atBit_self (lo := 29) o.isLt (by decide), Nat.zero_or, Nat.or_zero]

include hn in
theorem fld_settle_seqWordOf : fld (seqWordOf i n o) 16 8 = n := by
  simp only [seqWordOf, fld_or, fld_bitAt_beside (show 16 + 8 ≤ 32 by decide) (.inl (show 16 + 8 ≤ 31 by decide)),
    fld_atBit_beside (show 16 + 8 ≤ 32 by decide) (.inl (show 16 + 8 ≤ 29 by decide)),
    fld_atBit_beside (show 16 + 8 ≤ 32 by decide) (.inr (show 0 + 5 ≤ 16 by decide)),
    fld_atBit_self (lo := 16) (show n < 2 ^ 8 by omega) (by decide), Nat.zero_or, Nat.or_zero]

theorem seqInput_seqWordOf : seqInput (seqWordOf i n o) = i := by
  rw [seqInput, fld_input_seqWordOf, BitVec.ofNat_toNat, BitVec.setWidth_eq]

theorem seqOsr_seqWordOf : seqOsr (seqWordOf i n o) = o := by
  rw [seqOsr, fld_osr_seqWordOf, BitVec.ofNat_toNat, BitVec.setWidth_eq]

include hn in
theorem seqSettle_seqWordOf : seqSettle (seqWordOf i n o) = BitVec.ofNat 8 n := by
  rw [seqSettle, fld_settle_seqWordOf i o hn]

end

/-! ## SENSE_SEQk (R307) -/

/-- Entry k as a write of SENSE_SEQk leaves it. -/
def withEntry (x : Sense) (k : Fin 30) (v : W32) : Sense := { x with seq := x.seq.set k.val (v &&& 0xE0FF001F#32) (by omega) }

theorem senseSeqWrite_real {v : W32} (h : realInput (seqInput v) = true) (k : Fin 30) (s : State) :
    senseSeqWrite k.val v s = { s with sense := withEntry s.sense k v } := by
  have hk : fin? 30 k.val = some k := dif_pos k.isLt
  rw [senseSeqWrite, hk]
  exact if_pos h

theorem entry_off (w : W32) : seqEn (w &&& 0x7FFFFFFF#32 &&& 0xE0FF001F#32) = false := by
  simp [seqEn, bit]

theorem input_off (w : W32) : seqInput (w &&& 0x7FFFFFFF#32) = seqInput w := by
  have hfld : fld (w &&& 0x7FFFFFFF#32) 0 5 = fld w 0 5 := fld_eq_of_bits (fld_lt w 0 5) fun i hi => by
    rw [testBit_fld, decide_eq_true hi, BitVec.getLsbD_and, Bool.true_and]
    have hmask : ∀ j : Fin 5, (0x7FFFFFFF#32).getLsbD (0 + j.val) = true := by decide
    rw [hmask ⟨i, hi⟩, Bool.and_true]
  rw [seqInput, hfld, seqInput]

/-! ## The calls (R346) -/

/-- A SENSE call that succeeds once sensing has become x. -/
theorem next_of_sense {i : Instr} {c : Caller} {x : Sense} {fs : List (String × Val)} {s : State}
    (h : exec i s = .next (({ s with sense := x } : State).ok c "SENSE" fs)) :
    ∃ t, exec i s = .next t ∧ t.sense = x ∧ t = { s with sense := t.sense, call := t.call, host := t.host } ∧
      Replied c (okLine c "SENSE" fs) t := by
  obtain ⟨call, host, hframe⟩ := ok_frame { s with sense := x } c "SENSE" fs
  exact ⟨_, h, ok_sense, by rw [hframe], ok_replied⟩

/-- The urgent request that a SENSE READ makes. -/
def readRequest (c : Caller) (i : BitVec 5) (n : Nat) (o : BitVec 2) : Urgent :=
  { by_ := .read c, input := i, settle := BitVec.ofNat 8 n, osr := o }

theorem setUrgent_read (c : Caller) (i : BitVec 5) {n : Nat} (hn : n ≤ 255) (o : BitVec 2) (s : State) :
    setUrgent (.read c) (seqWordOf i n o) s = s.setSense fun x =>
      { x with urgent := seqWordOf i n o &&& 0x60FF001F#32, go := true, userQ := some (readRequest c i n o) } := by
  simp only [setUrgent, seqInput_seqWordOf, seqSettle_seqWordOf i o hn, seqOsr_seqWordOf, readRequest]

section
variable {c : Caller} {s : State} (ht : Takes c s)
include ht

theorem senseState_answers :
    ∃ t, exec (.senseState c) s = .next t ∧ t.quiet = s.quiet ∧
      Replied c (okLine c "SENSE" [bareF "STATE", decF "period" s.sense.period.toNat, decF "pass" s.sense.pass.toNat]) t :=
  ⟨_, (exec_senseState c s).trans (congrArg Host.Outcome.next (gate_takes ht)), okWith_quiet, okWith_replied⟩

theorem senseRead_busy (hc : s.confidential = false) (hgo : s.sense.go = true) (i : BitVec 5) (n : Nat) (o : BitVec 2) :
    exec (.senseRead c i n o) s = .next (s.fail c "SENSE" .busy) := by
  rw [exec_senseRead, doSenseRead, gate_takes ht, hc, Bool.false_and, if_neg (by decide), if_pos hgo]

theorem senseRead_hidden {i : BitVec 5} (hc : s.confidential = true) (hi : secretInput i = true) (n : Nat) (o : BitVec 2) :
    exec (.senseRead c i n o) s = .next (s.fail c "SENSE" .state) := by
  rw [exec_senseRead, doSenseRead, gate_takes ht, hc, hi, if_pos (by decide)]

theorem senseRead_waits (hp : c.path = .call) (hc : s.confidential = false) (hgo : s.sense.go = false) {i : BitVec 5} {n : Nat}
    (hn : n ≤ 255) (hi : realInput i = true) (o : BitVec 2) :
    exec (.senseRead c i n o) s = .next { s with
      sense := { s.sense with
        urgent := seqWordOf i n o &&& 0x60FF001F#32, go := true, userQ := some (readRequest c i n o) }
      call := { s.call with running := some "SENSE" } } := by
  have hin : ¬(255 < n ∨ realInput i = false) := by simp [hi]; omega
  rw [exec_senseRead, doSenseRead, gate_takes ht, hc, Bool.false_and, if_neg (by decide), if_neg (by simp [hgo]), if_neg hin,
    setUrgent_read c i hn]
  exact congrArg Host.Outcome.next (if_pos hp)

theorem senseSeq_sets {i : BitVec 5} {n : Nat} (hn : n ≤ 255) (hi : realInput i = true) (k : Fin 30) (o : BitVec 2) :
    exec (.senseSeq c k.val i n o) s =
      .next (({ s with sense := withEntry s.sense k (seqWordOf i n o) } : State).ok c "SENSE"
        (senseSeqFields k.val { s with sense := withEntry s.sense k (seqWordOf i n o) })) := by
  have hin : ¬(29 < k.val ∨ 255 < n ∨ realInput i = false) := by simp [hi]; omega
  rw [exec_senseSeq, doSenseSeq, gate_takes ht, if_neg hin, senseSeqWrite_real (by rw [seqInput_seqWordOf]; exact hi)]

theorem senseSeq_outOfRange {k n : Nat} {i : BitVec 5} (h : 30 ≤ k ∨ 256 ≤ n ∨ realInput i = false) (o : BitVec 2) :
    exec (.senseSeq c k i n o) s = .next (s.fail c "SENSE" .range) := by
  have hout : 29 < k ∨ 255 < n ∨ realInput i = false := h
  rw [exec_senseSeq, doSenseSeq, gate_takes ht, if_pos hout]

theorem senseSeqOff_clears {k : Fin 30} (h : realInput (seqInput s.sense.seq[k.val]) = true) :
    exec (.senseSeqOff c k.val) s =
      .next (({ s with sense := withEntry s.sense k (s.sense.seq[k.val] &&& 0x7FFFFFFF#32) } : State).ok c "SENSE"
        (senseSeqFields k.val { s with sense := withEntry s.sense k (s.sense.seq[k.val] &&& 0x7FFFFFFF#32) })) := by
  have hget : s.sense.seq.toList.getD k.val 0#32 = s.sense.seq[k.val] := by
    simp [List.getD, show k.val < 32 by omega]
  rw [exec_senseSeqOff, doSenseSeqOff, gate_takes ht, if_neg (by omega), hget,
    senseSeqWrite_real (by rw [input_off]; exact h)]

theorem sensePeriod_sets {n : Nat} (hn : n ≤ 65535) :
    exec (.sensePeriod c n) s =
      .next (({ s with sense := { s.sense with period := BitVec.ofNat 16 n } } : State).ok c "SENSE" [bareF "PERIOD", ("", .dec n)]) := by
  rw [exec_sensePeriod, doSensePeriod, gate_takes ht, if_neg (by omega)]
  rfl

end

/-! ## The statement -/

/-- Settles O40: its clauses in their order, each from the lemma on its form. -/
theorem senseVerbs : Obligations.SenseVerbs := by
  refine ⟨fun _ _ ht => senseState_answers ht,
    fun c i n o s ht hp hc hgo hn hi => ⟨_, senseRead_waits ht hp hc hgo hn hi o, rfl, rfl, rfl, rfl⟩,
    fun _ i n o _ ht hc hgo => next_of_fail (senseRead_busy ht hc hgo i n o),
    fun _ _ n o _ ht hc hi => next_of_fail (senseRead_hidden ht hc hi n o),
    fun c k i n o s ht hn hi => ?seq,
    fun _ _ _ _ o _ ht h => next_of_fail (senseSeq_outOfRange ht h o),
    fun c k s ht h => ?seqOff,
    fun _ _ _ ht hn => next_of_sense (sensePeriod_sets ht hn)⟩
  case seq =>
    obtain ⟨t, hexec, hsense, hframe, hreply⟩ := next_of_sense (senseSeq_sets ht hn hi k o)
    have hfields : senseSeqFields k.val t = senseSeqFields k.val { s with sense := withEntry s.sense k (seqWordOf i n o) } := by
      simp only [senseSeqFields, hsense]
    exact ⟨t, hexec, hsense, hframe, hfields ▸ hreply⟩
  case seqOff =>
    obtain ⟨t, hexec, hsense, hframe, -⟩ := next_of_sense (senseSeqOff_clears ht h)
    refine ⟨t, hexec, ?_, fun j hj => ?_, hframe⟩ <;> rw [hsense]
    · simpa [withEntry] using entry_off s.sense.seq[k.val]
    · simp [withEntry, Ne.symm hj]

end Sys2Proof.SenseCalls
end

section
/-! PROOFS. The calls on the human edge (R346, R316, R322): what each form of EDGE answers and leaves, and the statement about them. -/

namespace Sys2Proof.EdgeCalls
open Sys2Proof Sys2Proof.Machine Sys2Proof.Laws Sys2Proof.Registers Sys2Proof.Words Sys2Proof.PwmBursts Sys2Proof.LaneCalls
open Sys2Proof.Answers Sys2Proof.Fields

theorem exec_edgeState (c : Caller) (s : State) : exec (.edgeState c) s = .next (doEdgeState c s) := rfl

theorem exec_edgeBtn (c : Caller) (n : Fin 12) (d : Option Nat) (a b : Option Bool) (s : State) :
    exec (.edgeBtn c n d a b) s = .next (doEdgeBtn c n d a b s) := rfl

theorem exec_edgePlug (c : Caller) (n : Fin 2) (d : Option Nat) (a b : Option Bool) (s : State) :
    exec (.edgePlug c n d a b) s = .next (doEdgePlug c n d a b s) := rfl

theorem exec_edgeTouch (c : Caller) (n : Fin 4) (a b : Option Nat) (e : Option Bool) (s : State) :
    exec (.edgeTouch c n a b e) s = .next (doEdgeTouch c n a b e s) := rfl

theorem exec_edgePwm (c : Caller) (k : Fin 4) (x y q : Option Nat) (o : Option Bool) (b : Option Nat) (act : Option PwmAct) (s : State) :
    exec (.edgePwm c k x y q o b act) s = .next (doEdgePwm c k x y q o b act s) := rfl

theorem exec_edgeBind (c : Caller) (k : Fin 8) (v : Byte) (l : LaneId) (h e : Nat) (a : List HeatArg) (s : State) :
    exec (.edgeBind c k v l h e a) s = .next (doEdgeBind c k v l h e a s) := rfl

theorem exec_edgeUnbind (c : Caller) (k : Fin 8) (s : State) : exec (.edgeUnbind c k) s = .next (doEdgeUnbind c k s) := rfl

/-! ## Settings of a byte (R308, R312) -/

theorem settingByte_lt {d : Option Nat} (hd : dbOk d = true) (b : Nat) (x y : Option Bool) : settingByte b d x y < 2 ^ 8 := by
  have hlow : (d.map (· - 1)).getD (b % 64) < 64 := by
    cases d with
    | none => exact Nat.mod_lt _ (by decide)
    | some d =>
      have hd : 1 ≤ d ∧ d ≤ 64 := by simpa [dbOk] using hd
      simp only [Option.map_some, Option.getD_some]
      omega
  have hbool (x : Bool) : boolNat x ≤ 1 := by cases x <;> decide
  have hy := hbool (y.getD (b.testBit 6))
  have hx := hbool (x.getD (b.testBit 7))
  rw [settingByte]
  omega

/-- The edge with a button's byte written. -/
def withBtnByte (g : Edge) (n : Fin 12) (v : Nat) : Edge :=
  { g with btnReg := upd g.btnReg (⟨n.val / 4, by omega⟩ : Fin 3) fun w => putFld w (8 * (n.val % 4)) 8 v }

theorem btnByte_withBtnByte_self (g : Edge) (n : Fin 12) {v : Nat} (hv : v < 2 ^ 8) : btnByte (withBtnByte g n v) n = v := by
  simp only [btnByte, withBtnByte, upd, Vector.getElem_set_self]
  exact fld_putFld_self hv (by omega)

theorem btnByte_withBtnByte_ne (g : Edge) {n m : Fin 12} (h : m ≠ n) (v : Nat) : btnByte (withBtnByte g n v) m = btnByte g m := by
  have hne : m.val ≠ n.val := Fin.val_ne_of_ne h
  simp only [btnByte, withBtnByte, upd, Vector.getElem_set]
  split
  · next hreg =>
    rw [fld_putFld_beside (by omega) (by omega)]
    simp only [Fin.getElem_fin, hreg]
  · rfl

/-- The edge with a plug's byte written. -/
def withPlugByte (g : Edge) (n : Fin 2) (v : Nat) : Edge :=
  { g with plugReg := (putFld (g.plugReg.setWidth 32) (8 * n.val) 8 v).setWidth 16 }

theorem plugByte_eq_fld (g : Edge) (n : Fin 2) : plugByte g n = fld (g.plugReg.setWidth 32) (8 * n.val) 8 := by
  have hlt : g.plugReg.toNat < 2 ^ 32 := Nat.lt_trans g.plugReg.isLt (by decide)
  have hnat : (g.plugReg.setWidth 32).toNat = g.plugReg.toNat := (BitVec.toNat_setWidth ..).trans (Nat.mod_eq_of_lt hlt)
  have hshift : (g.plugReg.setWidth 32).toNat >>> (8 * n.val) = g.plugReg.toNat / 2 ^ (8 * n.val) :=
    (congrArg (· >>> (8 * n.val)) hnat).trans (Nat.shiftRight_eq_div_pow ..)
  exact (congrArg (· % 256) hshift).symm

/-- A field of the lower half stays when the upper half is dropped. -/
theorem fld_lowHalf {w : W32} {lo n : Nat} (h : lo + n ≤ 16) : fld ((w.setWidth 16).setWidth 32) lo n = fld w lo n :=
  fld_eq_of_bits (fld_lt w lo n) fun i hi => by
    rw [testBit_fld, decide_eq_true hi, BitVec.getLsbD_setWidth, BitVec.getLsbD_setWidth, decide_eq_true (by omega),
      decide_eq_true (by omega), Bool.true_and, Bool.true_and]

theorem plugByte_withPlugByte_self (g : Edge) (n : Fin 2) {v : Nat} (hv : v < 2 ^ 8) : plugByte (withPlugByte g n v) n = v := by
  rw [plugByte_eq_fld, withPlugByte, fld_lowHalf (by omega), fld_putFld_self hv (by omega)]

theorem plugByte_withPlugByte_ne (g : Edge) {n m : Fin 2} (h : m ≠ n) (v : Nat) : plugByte (withPlugByte g n v) m = plugByte g m := by
  have hne : m.val ≠ n.val := Fin.val_ne_of_ne h
  rw [plugByte_eq_fld, withPlugByte, fld_lowHalf (by omega), fld_putFld_beside (by omega) (by omega), ← plugByte_eq_fld]

/-! ## Settings of an output (R318, R319) -/

/-- EN, POL, PRE and BURST of an output. -/
structure PwmSettings (en pol : Bool) (pre : BitVec 4) (burst : W16) (p : Pwm) : Prop where
  en : p.en = en
  pol : p.pol = pol
  pre : p.pre = pre
  burst : p.burst = burst

namespace PwmSettings
variable {en pol : Bool} {pre : BitVec 4} {burst : W16} {p : Pwm}

theorem boundary (h : PwmSettings en pol pre burst p) (b : Nat) : PwmSettings en pol pre burst (p.boundary b) := by
  rw [boundary_eq]
  exact ⟨h.en, h.pol, h.pre, h.burst⟩

theorem upTo (h : PwmSettings en pol pre burst p) (now : W64) : PwmSettings en pol pre burst (p.upTo now) := by
  unfold Pwm.upTo
  dsimp only
  split
  · split
    · exact (h.boundary _).boundary _
    · exact h.boundary _
  · exact h

theorem idleApply (h : PwmSettings en pol pre burst p) : PwmSettings en pol pre burst p.idleApply := by
  unfold Pwm.idleApply
  split
  · exact h
  · exact ⟨h.en, h.pol, h.pre, h.burst⟩

theorem writeDuty (h : PwmSettings en pol pre burst p) (v : W32) (now : W64) : PwmSettings en pol pre burst (p.writeDuty v now) := by
  have hup := h.upTo now
  exact idleApply ⟨hup.en, hup.pol, hup.pre, hup.burst⟩

end PwmSettings

theorem writeCtrl_settings (v : W32) (now : W64) (p : Pwm) :
    PwmSettings (bit v 30) (bit v 29) (BitVec.ofNat 4 (fld v 24 4)) (v.setWidth 16) (p.writeCtrl v now) := by
  refine PwmSettings.idleApply ?_
  split <;> split <;> exact ⟨rfl, rfl, rfl, rfl⟩

/-- A write of PWMk_DUTY is in force, or waits for the next boundary. -/
theorem duty_writeDuty (v : W32) (now : W64) (p : Pwm) : (p.writeDuty v now).next.getD (p.writeDuty v now).duty = v := by
  unfold Pwm.writeDuty Pwm.idleApply
  split <;> rfl

/-- The word of PWMk_CTRL with these settings. -/
def ctrlWord (en pol : Bool) (pre burst : Nat) : W32 := bitAt en 30 ||| bitAt pol 29 ||| atBit pre 24 4 ||| atBit burst 0 16

section
variable (en pol : Bool) (pre burst : Nat)

theorem en_ctrlWord : bit (ctrlWord en pol pre burst) 30 = en := by
  simp only [ctrlWord, bit_or, bit_bitAt_self (show 30 < 32 by decide), bit_bitAt_ne (show 30 < 32 by decide) (show 29 ≠ 30 by decide),
    bit_atBit_beside (show 30 < 32 by decide) (.inr (show 24 + 4 ≤ 30 by decide)),
    bit_atBit_beside (show 30 < 32 by decide) (.inr (show 0 + 16 ≤ 30 by decide)), Bool.or_false]

theorem pol_ctrlWord : bit (ctrlWord en pol pre burst) 29 = pol := by
  simp only [ctrlWord, bit_or, bit_bitAt_self (show 29 < 32 by decide), bit_bitAt_ne (show 29 < 32 by decide) (show 30 ≠ 29 by decide),
    bit_atBit_beside (show 29 < 32 by decide) (.inr (show 24 + 4 ≤ 29 by decide)),
    bit_atBit_beside (show 29 < 32 by decide) (.inr (show 0 + 16 ≤ 29 by decide)), Bool.or_false, Bool.false_or]

theorem pre_ctrlWord (h : pre < 16) : fld (ctrlWord en pol pre burst) 24 4 = pre := by
  simp only [ctrlWord, fld_or, fld_bitAt_beside (show 24 + 4 ≤ 32 by decide) (.inl (show 24 + 4 ≤ 30 by decide)),
    fld_bitAt_beside (show 24 + 4 ≤ 32 by decide) (.inl (show 24 + 4 ≤ 29 by decide)),
    fld_atBit_self (lo := 24) (show pre < 2 ^ 4 from h) (by decide),
    fld_atBit_beside (show 24 + 4 ≤ 32 by decide) (.inr (show 0 + 16 ≤ 24 by decide)), Nat.zero_or, Nat.or_zero]

theorem burst_ctrlWord (h : burst < 65536) : fld (ctrlWord en pol pre burst) 0 16 = burst := by
  simp only [ctrlWord, fld_or, fld_bitAt_beside (show 0 + 16 ≤ 32 by decide) (.inl (show 0 + 16 ≤ 30 by decide)),
    fld_bitAt_beside (show 0 + 16 ≤ 32 by decide) (.inl (show 0 + 16 ≤ 29 by decide)),
    fld_atBit_beside (show 0 + 16 ≤ 32 by decide) (.inl (show 0 + 16 ≤ 24 by decide)),
    fld_atBit_self (lo := 0) (show burst < 2 ^ 16 from h) (by decide), Nat.zero_or]

end

theorem toNat_setWidth_half (w : W32) : (w.setWidth 16).toNat = fld w 0 16 := by
  rw [BitVec.toNat_setWidth, fld, Nat.shiftRight_zero]

/-- An output as EDGE PWM with ON, period, duty and settings leaves it. -/
def switchedOn (x y pre burst : Nat) (pol : Bool) (now : W64) (p : Pwm) : Pwm :=
  (p.writeCtrl (ctrlWord true pol pre burst) now).writeDuty (atBit x 16 16 ||| atBit y 0 16) now

theorem switchedOn_settings (x y : Nat) {pre burst : Nat} (pol : Bool) (now : W64) (p : Pwm) :
    PwmSettings true pol (BitVec.ofNat 4 (fld (ctrlWord true pol pre burst) 24 4)) ((ctrlWord true pol pre burst).setWidth 16)
      (switchedOn x y pre burst pol now p) := by
  have h := writeCtrl_settings (ctrlWord true pol pre burst) now p
  rw [en_ctrlWord, pol_ctrlWord] at h
  exact h.writeDuty _ now

/-- A number below a limit, where given, is below it also where it stays. -/
theorem getD_lt_of_below {n : Nat} {x : Option Nat} (h : below n x = true) {d : Nat} (hd : d < n) : x.getD d < n := by
  cases x with
  | none => exact hd
  | some k => simpa [below] using h

/-! ## The calls (R346) -/

/-- An EDGE call that succeeds once the edge has become g, and shows fields of it. -/
theorem next_of_edge {i : Instr} {c : Caller} {g : Edge} {f : State → List (String × Val)} {s : State}
    (hf : ∀ (u : State) call host, f { u with call := call, host := host } = f u)
    (h : exec i s = .next (({ s with edge := g } : State).ok c "EDGE" (f { s with edge := g }))) :
    ∃ t, exec i s = .next t ∧ t.edge = g ∧ t = { s with edge := t.edge, call := t.call, host := t.host } ∧
      Replied c (okLine c "EDGE" (f t)) t := by
  obtain ⟨call, host, hframe⟩ := ok_frame { s with edge := g } c "EDGE" (f { s with edge := g })
  exact ⟨_, h, ok_edge, by rw [hframe], by rw [fields_of_ok hf]; exact ok_replied⟩

theorem edgeMay_of_normal {s : State} (h : s.confidential = false) (c : Caller) : s.edgeMay c.path.path = true := by
  cases hp : c.path <;> simp [State.edgeMay, CallPath.path, h]

theorem edgeMay_of_confidential {s : State} (h : s.confidential = true) (c : Caller) : s.edgeMay c.path.path = false := by
  cases hp : c.path <;> simp [State.edgeMay, CallPath.path, h]

theorem pwmSet_on (k : Fin 4) (x y : Nat) (q : Option Nat) (o : Option Bool) (b : Option Nat) (s : State) :
    pwmSet k (some x) (some y) q o b (some .on) s = { s with edge := { s.edge with
      pwm := put s.edge.pwm k (switchedOn x y (q.getD s.edge.pwm[k].pre.toNat) (b.getD s.edge.pwm[k].burst.toNat)
        (o.getD s.edge.pwm[k].pol) s.clk.tick s.edge.pwm[k]) } } := by
  have hset (f g : Pwm → Pwm) : setPwm k g (setPwm k f s) =
      { s with edge := { s.edge with pwm := put s.edge.pwm k (g (f s.edge.pwm[k])) } } := by
    simp [setPwm, upd, put]
  exact hset _ _

section
variable {c : Caller} {s : State} (ht : Takes c s)
include ht

theorem edgeState_answers :
    ∃ t, exec (.edgeState c) s = .next t ∧ t.quiet = s.quiet ∧
      Replied c (okLine c "EDGE" [bareF "STATE", ("level", hexReg (edgeLevel s.edge)), decF "queue" s.edge.waiting]) t :=
  ⟨_, (exec_edgeState c s).trans (congrArg Host.Outcome.next (gate_takes ht)), okWith_quiet, okWith_replied⟩

theorem edgeBtn_confidential (hc : s.confidential = true) (n : Fin 12) {d : Option Nat} (hd : dbOk d = true) (a b : Option Bool) :
    exec (.edgeBtn c n d a b) s = .next (s.ok c "EDGE" (btnFields n s)) := by
  rw [exec_edgeBtn, doEdgeBtn, edgeGate, gate_takes ht, hd, if_neg (by decide), edgeWrite, edgeMay_of_confidential hc, if_neg (by decide)]

section
variable (hc : s.confidential = false)
include hc

theorem edgeBtn_sets (n : Fin 12) {d : Option Nat} (hd : dbOk d = true) (a b : Option Bool) :
    exec (.edgeBtn c n d a b) s =
      let u : State := { s with edge := withBtnByte s.edge n (settingByte (btnByte s.edge n) d a b) }
      .next (u.ok c "EDGE" (btnFields n u)) := by
  rw [exec_edgeBtn, doEdgeBtn, edgeGate, gate_takes ht, hd, if_neg (by decide), edgeWrite, if_pos (edgeMay_of_normal hc c)]
  rfl

theorem edgePlug_sets (n : Fin 2) {d : Option Nat} (hd : dbOk d = true) (a b : Option Bool) :
    exec (.edgePlug c n d a b) s =
      let u : State := { s with edge := withPlugByte s.edge n (settingByte (plugByte s.edge n) d a b) }
      .next (u.ok c "EDGE" (plugFields n u)) := by
  rw [exec_edgePlug, doEdgePlug, edgeGate, gate_takes ht, hd, if_neg (by decide)]
  dsimp only
  rw [edgeWrite, if_pos (edgeMay_of_normal hc c)]
  rfl

/-- EDGE_TOUCHn as EDGE TOUCH writes it. -/
def touchWord (a b : Option Nat) (e : Option Bool) (r : W32) : W32 :=
  atBit (a.getD (fld r 16 12)) 16 12 ||| atBit (b.getD (fld r 0 12)) 0 12 ||| bitAt (e.getD (bit r 31)) 31

theorem edgeTouch_sets (n : Fin 4) {a b : Option Nat} (ha : below 4096 a = true) (hb : below 4096 b = true) (e : Option Bool) :
    exec (.edgeTouch c n a b e) s =
      let u : State := { s with edge := { s.edge with
        touch := put s.edge.touch n (Touch.write (touchWord a b e s.edge.touch[n].reg) s.edge.touch[n]) } }
      .next (u.ok c "EDGE" (touchFields n u)) := by
  rw [exec_edgeTouch, doEdgeTouch, edgeGate, gate_takes ht, ha, hb, if_neg (by decide)]
  dsimp only
  rw [edgeWrite, if_pos (edgeMay_of_normal hc c)]
  rfl

theorem edgePwm_sets (k : Fin 4) {x y : Nat} {q b : Option Nat} (hx : x < 65536) (hy : y < 65536) (hq : below 16 q = true)
    (hb : below 65536 b = true) (o : Option Bool) :
    exec (.edgePwm c k (some x) (some y) q o b (some .on)) s =
      let u : State := { s with edge := { s.edge with
        pwm := put s.edge.pwm k (switchedOn x y (q.getD s.edge.pwm[k].pre.toNat) (b.getD s.edge.pwm[k].burst.toNat)
          (o.getD s.edge.pwm[k].pol) s.clk.tick s.edge.pwm[k]) } }
      .next (u.ok c "EDGE" (pwmFields k u)) := by
  have hx : below 65536 (some x) = true := decide_eq_true hx
  have hy : below 65536 (some y) = true := decide_eq_true hy
  rw [exec_edgePwm, doEdgePwm, edgeGate, gate_takes ht, hx, hy, hq, hb, if_neg (by decide), edgeWrite, if_pos (edgeMay_of_normal hc c)]
  dsimp only
  rw [pwmSet_on]

end

section
variable {k : Fin 8} {v : Byte} {l : LaneId} {h : Fin 16} {e : Nat} {a : List HeatArg} (hst : (s.lane l).st ≠ .scrub)
  (hown : (s.lane l).owner = c.path.owner) (he : e ≤ 65535)
include hst hown he

theorem edgeBind_sets (hfree : s.edge.bind[k].valid = false) :
    exec (.edgeBind c k v l h.val e a) s =
      let u : State := { s with edge := { s.edge with
        bind := put s.edge.bind k { valid := true, failed := false, lane := l, code := v, handle := h, entry := e, args := a } } }
      .next (u.ok c "EDGE" (bindFields k u)) := by
  have hh : fin? 16 h.val = some h := dif_pos h.isLt
  rw [exec_edgeBind, doEdgeBind, edgeGate, gate_takes ht, laneMay_own hst hown, hh]
  simp only [if_neg (Nat.not_lt.mpr he), hfree, Bool.false_eq_true, if_false]

theorem edgeBind_taken (hvalid : s.edge.bind[k].valid = true) :
    exec (.edgeBind c k v l h.val e a) s = .next (s.fail c "EDGE" .state) := by
  have hh : fin? 16 h.val = some h := dif_pos h.isLt
  rw [exec_edgeBind, doEdgeBind, edgeGate, gate_takes ht, laneMay_own hst hown, hh]
  simp only [if_neg (Nat.not_lt.mpr he), hvalid, if_true]

end

theorem edgeUnbind_clears {k : Fin 8} (hvalid : s.edge.bind[k].valid = true) (hst : (s.lane s.edge.bind[k].lane).st ≠ .scrub)
    (hown : (s.lane s.edge.bind[k].lane).owner = c.path.owner) :
    exec (.edgeUnbind c k) s =
      .next (({ s with edge := { s.edge with bind := put s.edge.bind k {} } } : State).ok c "EDGE" [bareF "UNBIND", ("", .dec k.val)]) := by
  rw [exec_edgeUnbind, doEdgeUnbind, edgeGate, gate_takes ht]
  simp only [hvalid, Bool.not_true, Bool.false_eq_true, if_false, laneMay_own hst hown]

end

/-! ## The statement -/

/-- Settles O44: its clauses in their order, each from the lemma on its form. -/
theorem edgeVerbs : Obligations.EdgeVerbs := by
  refine ⟨fun _ _ ht => edgeState_answers ht, fun c n d a b s ht hc hd => ?btn, fun c n d a b s ht hc hd => ?plug,
    fun c n a b e s ht hc ha hb => ?touch, fun c k x y q o b s ht hc hx hy hq hb => ?pwm,
    fun c k v l h e a s ht hc hst hown he hfree => ?bind,
    fun _ _ _ _ _ _ _ _ ht _ hst hown he hvalid => next_of_fail (edgeBind_taken ht hst hown he hvalid),
    fun c k s ht hc hvalid hst hown => ?unbind,
    fun _ n _ a b _ ht hc hd => next_of_ok (edgeBtn_confidential ht hc n hd a b)⟩
  case btn =>
    obtain ⟨t, hexec, hedge, hframe, hreply⟩ := next_of_edge (f := btnFields n) (fun _ _ _ => rfl) (edgeBtn_sets ht hc n hd a b)
    refine ⟨t, hexec, ?_, fun m hm => ?_, ?_, hframe, hreply⟩ <;> rw [hedge]
    · exact btnByte_withBtnByte_self _ n (settingByte_lt hd _ a b)
    · exact btnByte_withBtnByte_ne _ hm _
    · rfl
  case plug =>
    obtain ⟨t, hexec, hedge, hframe, hreply⟩ := next_of_edge (f := plugFields n) (fun _ _ _ => rfl) (edgePlug_sets ht hc n hd a b)
    refine ⟨t, hexec, ?_, fun m hm => ?_, ?_, hframe, hreply⟩ <;> rw [hedge]
    · exact plugByte_withPlugByte_self _ n (settingByte_lt hd _ a b)
    · exact plugByte_withPlugByte_ne _ hm _
    · rfl
  case touch =>
    obtain ⟨t, hexec, hedge, hframe, hreply⟩ := next_of_edge (f := touchFields n) (fun _ _ _ => rfl) (edgeTouch_sets ht hc n ha hb e)
    exact ⟨t, hexec, by rw [hedge]; rfl, by rw [hedge], hframe, hreply⟩
  case pwm =>
    obtain ⟨t, hexec, hedge, hframe, hreply⟩ := next_of_edge (f := pwmFields k) (fun _ _ _ => rfl) (edgePwm_sets ht hc k hx hy hq hb o)
    have hpre := getD_lt_of_below hq s.edge.pwm[k].pre.isLt
    have hburst := getD_lt_of_below hb s.edge.pwm[k].burst.isLt
    have hself (p : Pwm) : (put s.edge.pwm k p)[k] = p := getElem_upd_self s.edge.pwm k fun _ => p
    obtain ⟨hen, hpol, hpre', hburst'⟩ := switchedOn_settings x y (pre := q.getD s.edge.pwm[k].pre.toNat)
      (burst := b.getD s.edge.pwm[k].burst.toNat) (o.getD s.edge.pwm[k].pol) s.clk.tick s.edge.pwm[k]
    refine ⟨t, hexec, ?_, ?_, ?_, ?_, ?_, fun j hj => ?_, ?_, hframe, hreply⟩ <;> rw [hedge] <;> dsimp only
    · rw [hself]; exact hen
    · rw [hself]; exact hpol
    · rw [hself, hpre', pre_ctrlWord _ _ _ _ hpre, BitVec.toNat_ofNat, Nat.mod_eq_of_lt hpre]
    · rw [hself, hburst', toNat_setWidth_half, burst_ctrlWord _ _ _ _ hburst]
    · rw [hself]; exact duty_writeDuty _ _ _
    · exact getElem_upd_ne s.edge.pwm hj _
  case bind =>
    obtain ⟨t, hexec, hedge, hframe, hreply⟩ :=
      next_of_edge (f := bindFields k) (fun _ _ _ => rfl) (edgeBind_sets (v := v) (h := h) (a := a) ht hst hown he hfree)
    exact ⟨t, hexec, hedge, hframe, hreply⟩
  case unbind =>
    exact next_of_edge (f := fun _ => [bareF "UNBIND", ("", .dec k.val)]) (fun _ _ _ => rfl) (edgeUnbind_clears ht hvalid hst hown)

end Sys2Proof.EdgeCalls
end

section
/-! PROOFS. The calls on identity and session (R330, R332, R342, R348, R350, R352, R367): what HELLO, INFO, HELP, ECHO, MODE, RESET and
LEASE answer and leave, and the statement about them. -/

namespace Sys2Proof.SessionCalls
open Sys2Proof Sys2Proof.Machine Sys2Proof.Laws Sys2Proof.Registers Sys2Proof.LogStat Sys2Proof.LaneChanges Sys2Proof.Answers

theorem exec_hello (c : Caller) (s : State) : exec (.hello c) s = .next (doHello c s) := rfl

theorem exec_info (c : Caller) (s : State) : exec (.info c) s = .next (doInfo c s) := rfl

theorem exec_help (c : Caller) (v : Option (List Byte)) (s : State) : exec (.help c v) s = .next (doHelp c v s) := rfl

theorem exec_verbList (c : Caller) (s : State) : exec (.verbList c) s = exec (.help c none) s := rfl

theorem exec_echo (c : Caller) (on : Bool) (s : State) : exec (.echo c on) s = .next (doEcho c on s) := rfl

theorem exec_mode (c : Caller) (m : Bool) (k e f : Option Bool) (s : State) : exec (.mode c m k e f) s = .next (doMode c m k e f s) := rfl

theorem exec_resetCall (c : Caller) (s : State) : exec (.resetCall c) s = .next (doResetCall c s) := rfl

theorem exec_resetWarm (c : Caller) (s : State) : exec (.resetWarm c) s = .next (doResetWarm c s) := rfl

theorem exec_lease (c : Caller) (n : Option Nat) (s : State) : exec (.lease c n) s = .next (doLease c n s) := rfl

/-- A call's rules of form are those of TERSE mode on the host link, and where the Call line is in TERSE mode (R350). -/
theorem terseFor_eq (c : Caller) (s : State) : s.terseFor c.path = (s.call.terse || c.path == .host) := by
  cases hp : c.path with
  | call => exact (Bool.or_false _).symm
  | host => exact (Bool.or_true _).symm

/-! ## The banner of RESET CALL (R341, R364) -/

/-- LOG BOOK LOST in the host event ring: the event rings alone change. -/
theorem ringEvent_frame (s : State) (l : Line) : ∃ ev, s.ringEvent l = { s with host := { s.host with ev := ev } } := by
  unfold State.ringEvent
  dsimp only
  generalize (if l.look then (0 : Fin 2) else 1) = k
  split <;> exact ⟨_, rfl⟩

/-- The banner goes out first, and beside what follows it only the event rings change. -/
theorem sayBanner_frame (r : String) (s : State) : ∃ more ev, sayBanner r s =
    { s with
      call := { s.call with tx := s.call.tx ++ .line (bannerLine r s) :: more }
      host := { s.host with ev := ev } } := by
  unfold sayBanner
  dsimp only
  split
  · obtain ⟨ev, hev⟩ := ringEvent_frame ((s.tx (bannerLine r s)).tx (.evt "LOG BOOK LOST" [])) (.evt "LOG BOOK LOST" [])
    exact ⟨[.line (.evt "LOG BOOK LOST" [])], ev, hev.trans (by simp [State.tx])⟩
  · exact ⟨[], _, rfl⟩

/-- The Call line as RESET CALL leaves it, but for what waits to go out. -/
def resetLine (k : CallLine) : CallLine := { k.discard.textMode with measuring := true }

/-! ## The calls (R342) -/

/-- A call of the Call line that succeeds on a state changes the Call line alone. -/
theorem next_of_lineOk {i : Instr} {c : Caller} {v : String} {fs : List (String × Val)} {s u : State} (hp : c.path = .call)
    (h : exec i s = .next (u.ok c v fs)) :
    ∃ t, exec i s = .next t ∧ t = { u with call := t.call } ∧ t.quiet = u.quiet ∧ Replied c (okLine c v fs) t := by
  obtain ⟨call, hframe⟩ := reply_frame_line hp u ([].map (dataLine c) ++ [okLine c v fs])
  exact ⟨_, h, by rw [State.ok, State.okWith, hframe], ok_quiet, ok_replied⟩

/-- A call of the host link that succeeds on a state changes the host link alone. -/
theorem next_of_hostOk {i : Instr} {c : Caller} {v : String} {fs : List (String × Val)} {s u : State} (hp : c.path = .host)
    (h : exec i s = .next (u.ok c v fs)) :
    ∃ t, exec i s = .next t ∧ t = { u with host := t.host } ∧ t.quiet = u.quiet ∧ Replied c (okLine c v fs) t := by
  obtain ⟨es, hframe⟩ := reply_frame_host hp u ([].map (dataLine c) ++ [okLine c v fs])
  exact ⟨_, h, by rw [State.ok, State.okWith, hframe]; rfl, ok_quiet, ok_replied⟩

section
variable {c : Caller} {s : State} (hb : s.start.banner = true) (hl : s.lineBusy c = false)
include hb hl

theorem hello_answers : exec (.hello c) s =
    .next (s.ok c "HELLO" [bareF "LZ-480", symF "call" "1.0", symF "path" (match c.path with | .call => "CALL" | .host => "HOST"),
      symF "mode" (if s.call.terse || c.path == .host then "TERSE" else "TEXT")]) := by
  rw [exec_hello, doHello, gate_inRecovery hb hl, terseFor_eq]
  rfl

theorem info_answers : exec (.info c) s = .next (s.ok c "INFO" [bareF "LZ-480", decF "rev" (revision s), ("fw", fwText s),
    symF "service" (if s.keys.recovery then "RECOVERY" else if s.confidential then "CONFIDENTIAL" else "NORMAL"),
    symF "timebase" (if s.clk.degraded then "DEGRADED" else "REF"),
    symF "dram" (if s.mem.trained then toString (512 * s.mem.fitted.toNat) ++ "MIB" else "NONE"),
    symF "shells" (toString (s.serviceCount - (s.shellsIn .spare).length) ++ "+" ++ toString (s.shellsIn .spare).length),
    symF "variant" (variantText s.serviceCount), symF "lock" (if s.locked then "FIELD" else "OPEN"), decF "baud" s.call.baud.toNat]) := by
  rw [exec_info, doInfo, gate_inRecovery hb hl]
  rfl

theorem verbs_answer : ∃ t, exec (.help c none) s = .next t ∧ t.quiet = s.quiet ∧ Replied c (okLine c "HELP" []) t ∧
    ∀ l ∈ helpLines (s.call.terse || c.path == .host) (verbs.map fun v => v.1 ++ " " ++ verbShort v), Replied c (dataLine c l) t := by
  refine ⟨s.okWith c (helpLines (s.call.terse || c.path == .host) (verbs.map fun v => v.1 ++ " " ++ verbShort v)) "HELP" [], ?_,
    okWith_quiet, okWith_replied, fun _ => okWith_data⟩
  rw [exec_help, doHelp, gate_inRecovery hb hl, terseFor_eq]

/-- The lines of HELP with a verb: the verb's forms. -/
def verbHelp (terse : Bool) (v : String) : List (List (String × Val)) :=
  helpLines terse (((verbForms.find? fun f => f.1 == v).map Prod.snd).getD [])

theorem help_of_verb {w : List Byte} {v : String} (hv : verbOf (s.call.terse || c.path == .host) w = .verb v) :
    exec (.help c (some w)) s = .next (s.okWith c (verbHelp (s.call.terse || c.path == .host) v) "HELP" []) := by
  rw [exec_help, doHelp, gate_inRecovery hb hl, terseFor_eq]
  simp only [hv, verbHelp]

theorem help_of_noVerb {w : List Byte} (hv : verbOf (s.call.terse || c.path == .host) w = .unknown) :
    exec (.help c (some w)) s = .next (s.failWith c "HELP" .syntaxErr [bareF "verb"]) := by
  rw [exec_help, doHelp, gate_inRecovery hb hl, terseFor_eq]
  simp only [hv]

theorem echo_sets (hp : c.path = .call) (on : Bool) :
    exec (.echo c on) s = .next (({ s with call := { s.call with echo := on } } : State).ok c "ECHO" [bareF (onOff on)]) := by
  rw [exec_echo, doEcho, gate_inRecovery hb hl, hp, if_neg (by decide)]

theorem echo_fromHost (hp : c.path = .host) (on : Bool) : exec (.echo c on) s = .next (s.fail c "ECHO" .state) := by
  rw [exec_echo, doEcho, gate_inRecovery hb hl, if_pos hp]

theorem mode_sets (hp : c.path = .call) (m : Bool) (k e f : Option Bool) : exec (.mode c m k e f) s =
    let l := { s.call with terse := m, check := k.getD s.call.check, events := e.getD s.call.events, flow := f.getD s.call.flow }
    .next (({ s with call := l } : State).ok c "MODE"
      [bareF (if m then "TERSE" else "TEXT"), symF "check" (onOff l.check), symF "events" (onOff l.events), symF "flow" (onOff l.flow)]) := by
  rw [exec_mode, doMode, gate_inRecovery hb hl, hp, if_neg (by decide)]
  rfl

theorem mode_fromHost (hp : c.path = .host) (m : Bool) (k e f : Option Bool) :
    exec (.mode c m k e f) s = .next (s.fail c "MODE" .state) := by
  rw [exec_mode, doMode, gate_inRecovery hb hl, if_pos hp]

theorem resetCall_says : exec (.resetCall c) s =
    let u := s.ok c "RESET" [bareF "CALL"]
    .next (sayBanner "CALL" { u with call := resetLine u.call }) := by
  rw [exec_resetCall, doResetCall, gate_inRecovery hb hl]
  rfl

/-- RESET CALL (R342): after the reply the line is emptied, and a banner goes out. -/
theorem resetCall_resets : ∃ t, exec (.resetCall c) s = .next t ∧ t = { s with call := t.call, host := t.host } ∧
    (∃ tx, t.call = { resetLine t.call with tx := tx }) ∧ TxItem.line (bannerLine "CALL" s) ∈ t.call.tx ∧
    Replied c (okLine c "RESET" [bareF "CALL"]) t := by
  obtain ⟨call, host, hok⟩ := ok_frame s c "RESET" [bareF "CALL"]
  have hreply : Replied c (okLine c "RESET" [bareF "CALL"]) (s.ok c "RESET" [bareF "CALL"]) := ok_replied
  rw [hok] at hreply
  obtain ⟨more, ev, hsay⟩ := sayBanner_frame "CALL" { s with call := resetLine call, host := host }
  have hstays : OutputStays { s with call := call, host := host } (sayBanner "CALL" { s with call := resetLine call, host := host }) := by
    rw [hsay]
    exact ⟨fun _ hx => List.mem_append_left _ hx, fun _ _ he => he⟩
  refine ⟨_, (resetCall_says hb hl).trans (by rw [hok]), by rw [hsay], ⟨_, by rw [hsay]; rfl⟩, ?_, hstays.replied hreply⟩
  rw [hsay]
  exact List.mem_append_right _ (List.mem_cons_self ..)

theorem resetWarm_inRecovery (hr : s.keys.recovery = true) : exec (.resetWarm c) s = .next (s.fail c "RESET" .state) := by
  rw [exec_resetWarm, doResetWarm, State.gate, hb, hl, hr]
  rfl

end

section
variable {c : Caller} {s : State} (ht : Takes c s)
include ht

theorem resetWarm_asks : exec (.resetWarm c) s =
    let u := s.ok c "RESET" [bareF "WARM"]
    .next { u with start := { u.start with warmPending := some .resetWarm } } := by
  rw [exec_resetWarm, doResetWarm, gate_takes ht]

theorem lease_reports (hp : c.path = .call) :
    exec (.lease c none) s = .next (s.ok c "LEASE" [decF "period" s.host.period.toNat, decF "left" (leaseMs s)]) := by
  rw [exec_lease, doLease, gate_takes ht, hp]

theorem lease_ofLine (hp : c.path = .call) (n : Nat) : exec (.lease c (some n)) s = .next (s.fail c "LEASE" .lane) := by
  rw [exec_lease, doLease, gate_takes ht, hp]

theorem lease_outOfRange (hp : c.path = .host) {n : Nat} (h : n < 100 ∨ 60000 < n) :
    exec (.lease c (some n)) s = .next (s.fail c "LEASE" .range) := by
  rw [exec_lease, doLease, gate_takes ht, hp]
  exact congrArg Host.Outcome.next (if_neg (by omega))

/-- The host link after LEASE has set the period of an active lease and renewed it (R367). -/
def leasedHost (h : HostLink) (n : Nat) : HostLink := { h with period := BitVec.ofNat 16 n, leaseLeft := msSlow (n % 65536) }

theorem lease_renews (hp : c.path = .host) {n : Nat} (h : 100 ≤ n ∧ n ≤ 60000) (ha : s.host.leaseActive = true) :
    exec (.lease c (some n)) s =
      let u : State := { s with host := leasedHost s.host n }
      .next (u.ok c "LEASE" [decF "period" u.host.period.toNat, decF "left" (leaseMs u)]) := by
  have hrenew : leaseRenew { s with host := { s.host with period := BitVec.ofNat 16 n } } = { s with host := leasedHost s.host n } :=
    if_pos ha
  rw [exec_lease, doLease, gate_takes ht, hp]
  dsimp only
  rw [if_pos h, hrenew]

end

/-! ## The statement -/

/-- Settles O47: its clauses in their order, each from the lemma on its form. -/
theorem sessionVerbs : Obligations.SessionVerbs := by
  refine ⟨fun _ _ hb hl => next_of_ok (hello_answers hb hl), fun _ _ hb hl => next_of_ok (info_answers hb hl),
    fun _ _ hb hl => verbs_answer hb hl, exec_verbList, fun _ _ hb hl => verbs_answer hb hl,
    fun _ _ _ _ hb hl hv => ⟨_, help_of_verb hb hl hv, okWith_quiet, okWith_replied⟩,
    fun _ _ _ hb hl hv => ⟨_, help_of_noVerb hb hl hv, failWith_quiet, failWith_replied⟩, fun c on s hb hl hp => ?echo,
    fun _ on _ hb hl hp => next_of_fail (echo_fromHost hb hl hp on), fun c m k e f s hb hl hp => ?mode,
    fun _ m k e f _ hb hl hp => next_of_fail (mode_fromHost hb hl hp m k e f), fun c s hb hl => ?resetCall, fun c s ht => ?resetWarm,
    fun _ _ hb hl hr => next_of_fail (resetWarm_inRecovery hb hl hr), fun _ _ ht hp => next_of_ok (lease_reports ht hp),
    fun _ n _ ht hp => next_of_fail (lease_ofLine ht hp n), fun c n s ht hp hn ha => ?lease,
    fun _ _ _ ht hp h => next_of_fail (lease_outOfRange ht hp h)⟩
  case echo =>
    obtain ⟨t, hexec, hquiet, hreply⟩ := next_of_ok (echo_sets hb hl hp on)
    exact ⟨t, hexec, congrArg (·.call.echo) hquiet, hquiet, hreply⟩
  case mode =>
    obtain ⟨t, hexec, hframe, hquiet, hreply⟩ := next_of_lineOk hp (mode_sets hb hl hp m k e f)
    have hcheck : t.call.check = k.getD s.call.check := congrArg (·.call.check) hquiet
    have hevents : t.call.events = e.getD s.call.events := congrArg (·.call.events) hquiet
    have hflow : t.call.flow = f.getD s.call.flow := congrArg (·.call.flow) hquiet
    refine ⟨t, hexec, congrArg (·.call.terse) hquiet, hcheck, hevents, hflow, congrArg (·.call.echo) hquiet, ?_, ?_⟩
    · rw [hframe]
    · rw [hcheck, hevents, hflow]
      exact hreply
  case resetCall =>
    obtain ⟨t, hexec, hframe, ⟨tx, hcall⟩, hbanner, hreply⟩ := resetCall_resets hb hl
    refine ⟨t, hexec, hframe, ?_, ?_, ?_, ?_, ?_, ?_, ?_, ?_, hbanner, hreply⟩ <;> rw [hcall] <;> rfl
  case resetWarm =>
    have hquiet : (s.ok c "RESET" [bareF "WARM"]).quiet = s.quiet := ok_quiet
    exact ⟨_, resetWarm_asks ht, by rw [ok_start],
      congrArg (fun u : State => { u with start := { u.start with warmPending := some .resetWarm } }) hquiet, ok_replied⟩
  case lease =>
    obtain ⟨t, hexec, hframe, hquiet, hreply⟩ := next_of_hostOk hp (lease_renews ht hp hn ha)
    have hperiod : t.host.period = BitVec.ofNat 16 n := congrArg (·.host.period) hquiet
    have hleft : t.host.leaseLeft = msSlow (n % 65536) := congrArg (·.host.leaseLeft) hquiet
    have hms : leaseMs t = leaseMs { s with host := leasedHost s.host n } := by
      rw [leaseMs, hleft]
      rfl
    have hmod : n % 65536 = n := Nat.mod_eq_of_lt (by omega)
    have hnat : (BitVec.ofNat 16 n).toNat = n := (BitVec.toNat_ofNat ..).trans hmod
    refine ⟨t, hexec, by rw [hperiod, hnat], by rw [hleft, hmod], (congrArg (·.host.leaseActive) hquiet).trans ha, ?_, ?_, ?_⟩
    · rw [hframe]
    · rw [hframe]
    · rw [hms, ← hnat]
      exact hnat.symm ▸ hreply

end Sys2Proof.SessionCalls
end

section
/-! PROOFS. The Call line (R323, R324, R331 to R338, R348, R384, R387): what a character, a BREAK, a line, an item of CALL_TX and
CALL_CTS_N do, and the statement about them. -/

namespace Sys2Proof.LineCalls
open Sys2Proof Sys2Proof.Machine Sys2Proof.Laws Sys2Proof.Registers Sys2Proof.LaneChanges Sys2Proof.HeatCalls
open Sys2Proof.Answers Sys2Proof.SessionCalls

theorem exec_callCharReceived (b : Byte) (r : Nat) (s : State) : exec (.callCharReceived b r) s = .next (callCharReceived b r s) := rfl

theorem exec_lineBreak (s : State) : exec .lineBreak s = .next (lineBreak s) := rfl

theorem exec_callLineRun (s : State) : exec .callLineRun s = .next (callLineRun s) := rfl

theorem exec_callTxLine (s : State) : exec .callTxLine s = .next (callTxLine s) := rfl

theorem exec_callCtsNChange (h : Bool) (s : State) : exec (.callCtsNChange h) s = .next (callCtsNChange h s) := rfl

/-! ## Characters (R323, R331, R334) -/

/-- What echo sends of some characters. -/
def echoItems (s : State) (l : List Byte) : List TxItem := if s.echoing then [.chars l] else []

theorem echoChars_eq (s : State) (l : List Byte) :
    s.echoChars l = { s with call := { s.call with tx := s.call.tx ++ echoItems s l } } := by
  unfold State.echoChars echoItems
  split
  · rfl
  · rw [List.append_nil]

theorem echoChars_terse {s : State} (h : s.call.terse = true) (l : List Byte) : s.echoChars l = s :=
  if_neg (by simp [State.echoing, State.editing, h])

/-- A character has come: the line remembers whether it was CR. -/
def charCome (s : State) (b : Byte) : State := { s with call := { s.call with afterCr := b == 0x0D#8 } }

theorem takeChar_lfAfterCr {s : State} (h : s.call.afterCr = true) : s.takeChar 0x0A#8 = (charCome s 0x0A#8).echoChars [0x0A#8] := by
  rw [State.takeChar, if_pos ⟨rfl, h⟩]
  rfl

section
variable {s : State} {b : Byte}

theorem takeChar_full (h : b ≠ 0x0A#8 ∨ s.call.afterCr = false) (hfull : 512 ≤ s.call.held) :
    s.takeChar b = { s with call := { s.call with lost := s.call.lost + 1, partDamaged := true, afterCr := b == 0x0D#8 } } := by
  have hlf : ¬(b = 0x0A#8 ∧ s.call.afterCr = true) := fun ⟨heq, hcr⟩ =>
    h.elim (fun hne => hne heq) fun hno => absurd (hno.symm.trans hcr) (by decide)
  rw [State.takeChar, if_neg hlf]
  exact if_pos hfull

theorem takeChar_cr (hroom : s.call.held < 512) :
    s.takeChar 0x0D#8 = { charCome s 0x0D#8 with call := (charCome s 0x0D#8).call.endLine }.echoChars [0x0D#8] := by
  rw [State.takeChar, if_neg fun h => absurd h.1 (by decide)]
  exact (if_neg (Nat.not_le.mpr hroom)).trans (if_pos (.inl rfl))

section
variable (hroom : s.call.held < 512) (hlf : b ≠ 0x0A#8) (hcr : b ≠ 0x0D#8)
include hroom hlf hcr

theorem takeChar_inLine : s.takeChar b =
    match if s.editing then (charCome s b).edit b else none with
    | some s => s
    | none => { charCome s b with call := (charCome s b).call.addChar b }.echoChars [b] := by
  have hend : ¬(b = 0x0D#8 ∨ b = 0x0A#8) := by simp [hlf, hcr]
  rw [State.takeChar, if_neg fun h => hlf h.1]
  exact (if_neg (Nat.not_le.mpr hroom)).trans ((if_neg hend).trans rfl)

theorem takeChar_edits (htext : s.call.terse = false) {t : State} (hedit : (charCome s b).edit b = some t) : s.takeChar b = t := by
  have hediting : s.editing = true := by rw [State.editing, htext]; rfl
  rw [takeChar_inLine hroom hlf hcr, if_pos hediting, hedit]

theorem takeChar_enters (hdata : s.call.terse = true ∨ (charCome s b).edit b = none) :
    s.takeChar b = { charCome s b with call := (charCome s b).call.addChar b }.echoChars [b] := by
  have hnone : (if s.editing then (charCome s b).edit b else none) = none := by
    obtain hterse | hedit := hdata
    · rw [State.editing, hterse]; rfl
    · rw [hedit, ite_self]
  rw [takeChar_inLine hroom hlf hcr, hnone]

end

/-! ## Editing characters (R331) -/

theorem edit_backspace (h : s.call.part ≠ []) : s.edit 0x08#8 =
    some (({ s with call := { s.call with part := s.call.part.dropLast } } : State).echoChars [0x08#8, 0x20#8, 0x08#8]) := by
  have hne : s.call.part.isEmpty = false := by simpa using h
  simp [State.edit, hne]

theorem edit_kill : s.edit 0x15#8 = some (({ s with call := s.call.clearPart } : State).echoChars crLf) := rfl

theorem edit_cancel :
    s.edit 0x03#8 = some (({ s with call := s.call.clearPart } : State).echoChars (ascii "^C" ++ crLf ++ ascii "LZ> ")) := rfl

/-! ## Printable characters -/

section
variable (hb : 0x20 ≤ b.toNat ∧ b.toNat < 0x7F)
include hb

/-- A printable character is none of the others. -/
theorem ne_of_printable {n : Byte} (hn : n.toNat < 0x20 ∨ n.toNat = 0x7F) : b ≠ n := by
  rintro rfl
  omega

theorem edit_printable (s : State) : s.edit b = none := by
  unfold State.edit
  simp only [ne_of_printable hb (n := 0x08#8) (by decide), ne_of_printable hb (n := 0x7F#8) (by decide),
    ne_of_printable hb (n := 0x15#8) (by decide), ne_of_printable hb (n := 0x12#8) (by decide),
    ne_of_printable hb (n := 0x03#8) (by decide), or_self, if_false]

theorem afterCr_printable : (b == 0x0D#8) = false := beq_false_of_ne (ne_of_printable hb (by decide))

theorem takeChar_printable (hroom : s.call.held < 512) :
    s.takeChar b = { charCome s b with call := (charCome s b).call.addChar b }.echoChars [b] :=
  takeChar_enters hroom (ne_of_printable hb (by decide)) (ne_of_printable hb (by decide)) (.inr (edit_printable hb _))

theorem takeChar_appends (hroom : s.call.held < 512) (hlen : s.call.part.length < 256) :
    s.takeChar b = { s with call := { s.call with
      part := s.call.part ++ [b], afterCr := false, tx := s.call.tx ++ echoItems s [b] } } := by
  have hok : decide (0x20 ≤ b.toNat ∧ b.toNat ≤ 0x7E) = true := decide_eq_true (by omega)
  have hadd : (charCome s b).call.addChar b = { s.call with part := s.call.part ++ [b], afterCr := false } := by
    rw [CallLine.addChar, hok, Bool.or_true, Bool.not_true, Bool.or_false, charCome, afterCr_printable hb]
    exact if_pos hlen
  rw [takeChar_printable hb hroom, hadd, echoChars_eq]
  rfl

theorem takeChar_tooLong (hroom : s.call.held < 512) (hlen : 256 ≤ s.call.part.length) :
    s.takeChar b = { s with call := { s.call with partLong := true, afterCr := false, tx := s.call.tx ++ echoItems s [b] } } := by
  have hadd : (charCome s b).call.addChar b = { s.call with partLong := true, afterCr := false } := by
    rw [CallLine.addChar, charCome, afterCr_printable hb]
    exact if_neg (Nat.not_lt.mpr hlen)
  rw [takeChar_printable hb hroom, hadd, echoChars_eq]
  rfl

end

/-- In TERSE mode a control character enters the line and spoils it, with no echo. -/
theorem takeChar_control (hb : b.toNat < 0x20 ∨ 0x7E < b.toNat) (hne : b ≠ 0x09#8 ∧ b ≠ 0x0A#8 ∧ b ≠ 0x0D#8)
    (hterse : s.call.terse = true) (hroom : s.call.held < 512) (hlen : s.call.part.length < 256) :
    s.takeChar b = { s with call := { s.call with part := s.call.part ++ [b], partBad := true, afterCr := false } } := by
  obtain ⟨htab, hlf, hcr⟩ := hne
  have hbad : (b == 0x09#8 || decide (0x20 ≤ b.toNat ∧ b.toNat ≤ 0x7E)) = false := by
    rw [beq_false_of_ne htab, Bool.false_or]
    exact decide_eq_false (by omega)
  have hadd : (charCome s b).call.addChar b = { s.call with part := s.call.part ++ [b], partBad := true, afterCr := false } := by
    rw [CallLine.addChar, hbad, Bool.not_false, Bool.or_true, charCome, beq_false_of_ne hcr]
    exact if_pos hlen
  rw [takeChar_enters hroom hlf hcr (.inl hterse), hadd]
  refine echoChars_terse ?_ _
  exact hterse

end

/-! ## Reception (R333, R387) -/

theorem callCharReceived_locked {b : Byte} {r : Nat} {s : State} (hlatch : s.start.latching = true) (hm : s.call.measuring = false) :
    exec (.callCharReceived b r) s = .next (s.takeChar b) := by
  rw [exec_callCharReceived, callCharReceived, hlatch, hm]
  rfl

theorem callCharReceived_unlocked {b : Byte} {r : Nat} {s : State} (hm : s.call.measuring = true)
    (h : locks s.clk.callClock b r = false) : exec (.callCharReceived b r) s = .next s := by
  rw [exec_callCharReceived, callCharReceived, hm, h]
  exact congrArg Host.Outcome.next (ite_self s)

theorem callCharReceived_locks {b : Byte} {r : Nat} {s : State} (hlatch : s.start.latching = true) (hm : s.call.measuring = true)
    (h : locks s.clk.callClock b r = true) : exec (.callCharReceived b r) s =
      .next (({ s with call := { s.call with measuring := false, locked := true, baud := BitVec.ofNat 22 r } } : State).takeChar b) := by
  rw [exec_callCharReceived, callCharReceived, hlatch, hm, h]
  rfl

/-- A rate locks from bit 0 at 1, between 9,600 and 3,000,000 baud, and from REF to 460,800. -/
theorem locks_iff {k : CallClock} {b : Byte} {r : Nat} :
    locks k b r = true ↔ b.getLsbD 0 = true ∧ 9600 ≤ r ∧ r ≤ 3000000 ∧ (k = .ref → r ≤ 460800) := by
  unfold locks
  split
  · next hk => simp [hk]; omega
  · next hk => simp [hk]

/-! ## BREAK (R335, R412) -/

theorem endWait_frame (s : State) (why : String) : ∃ call host, s.endWait why = { s with call := call, host := host } ∧
    call.wait = none ∧ call.lines = s.call.lines ∧ call.part = s.call.part := by
  unfold State.endWait
  cases hw : s.call.wait with
  | none => exact ⟨_, _, rfl, hw, rfl, rfl⟩
  | some w =>
    obtain ⟨call, host, hframe⟩ := reply_frame { s with call := { s.call with wait := none } } w.caller
      [⟨.fail, "WAIT", w.caller.tag, [bareF "E.BUSY", bareF why]⟩]
    have hquiet := reply_quiet (s := { s with call := { s.call with wait := none } }) (c := w.caller)
      (ls := [⟨.fail, "WAIT", w.caller.tag, [bareF "E.BUSY", bareF why]⟩])
    rw [hframe] at hquiet
    exact ⟨call, host, hframe, congrArg (·.call.wait) hquiet, congrArg (·.call.lines) hquiet, congrArg (·.call.part) hquiet⟩

/-- The Call line after a BREAK, where these items go out for it. -/
def brokenLine (k : CallLine) (items : List TxItem) : CallLine := { k.textMode with measuring := true, tx := k.tx ++ items }

/-- The state in which a BREAK is told: what was received is gone and a WAIT has ended. -/
def breakEnds (s : State) : State := ({ s with call := s.call.discard } : State).endWait "break"

theorem breakEnds_frame (s : State) : ∃ call host, breakEnds s = { s with call := call, host := host } ∧
    call.wait = none ∧ call.lines = [] ∧ call.part = [] := by
  obtain ⟨call, host, hend, hwait, hlines, hpart⟩ := endWait_frame { s with call := s.call.discard } "break"
  exact ⟨call, host, hend, hwait, hlines, hpart⟩

/-- A WAIT of the Call line ends with its failure, and leaves the line free. -/
theorem breakEnds_wait {s : State} {w : WaitRec} (hw : s.call.wait = some w) (hp : w.caller.path = .call) :
    TxItem.line ⟨.fail, "WAIT", w.caller.tag, [bareF "E.BUSY", bareF "break"]⟩ ∈ (breakEnds s).call.tx ∧
      (breakEnds s).call.running = none := by
  have hw : ({ s with call := s.call.discard } : State).call.wait = some w := hw
  rw [breakEnds, State.endWait, hw]
  refine ⟨?_, (reply_line hp _ _).2⟩
  have hreply (u : State) (l : Line) : Replied w.caller l (u.reply w.caller [l]) := reply_replied (List.mem_singleton_self l)
  simp only [Replied, hp] at hreply
  exact hreply _ _

/-- The event lines that every setting sends, and that enter no event ring (R340, R364). -/
theorem raise_lineOnly {s : State} (hb : s.start.banner = true) {l : Line} (hl : l.callOnly = true) : s.raise l = s.callEvent l := by
  rw [State.raise, if_pos hb, State.ringEvent, hl]
  rfl

theorem callEvent_whole {s : State} {l : Line} (hl : l.always = true) (hpart : s.call.part = []) : s.callEvent l = s.tx l := by
  simp [State.callEvent, hl, hpart]

/-- An event goes to the Call line where event lines are on, or where it goes always. -/
theorem raise_told {s : State} (hb : s.start.banner = true) {l : Line} (hl : (s.call.events || l.always) = true) :
    TxItem.line l ∈ (s.raise l).call.tx := by
  have htx (u : State) : TxItem.line l ∈ (u.tx l).call.tx := List.mem_append_right _ (List.mem_singleton_self _)
  rw [State.raise, if_pos hb, ringEvent_call, State.callEvent, if_pos hl]
  split
  · exact List.mem_append_left _ (prompt_tx (htx _))
  · exact htx s

/-- The BREAK is told, with the options back in TEXT mode. -/
def breakTold (s : State) : State :=
  ({ breakEnds s with call := brokenLine (breakEnds s).call [] } : State).raise (.evt "BREAK" [])

theorem lineBreak_eq {s : State} (hlatch : s.start.latching = true) :
    lineBreak s = if (breakTold s).start.banner then (breakTold s).prompt else breakTold s := by
  have hline : ({ (breakEnds s).call.textMode with measuring := true } : CallLine) = brokenLine (breakEnds s).call [] := by
    rw [brokenLine, List.append_nil]
    rfl
  rw [breakTold, ← hline, lineBreak, hlatch]
  rfl

section
variable {s : State} (hlatch : s.start.latching = true) {call : CallLine} {host : HostLink}
  (hend : breakEnds s = { s with call := call, host := host })
include hlatch hend

theorem lineBreak_early (hb : s.start.banner = false) : lineBreak s = { s with
    call := brokenLine call [], host := host, start := { s.start with early := s.start.early ++ [.evt "BREAK" []] } } := by
  have htold : breakTold s = { s with
      call := brokenLine call [], host := host, start := { s.start with early := s.start.early ++ [.evt "BREAK" []] } } := by
    rw [breakTold, hend]
    exact if_neg (by simp [hb])
  rw [lineBreak_eq hlatch, htold]
  exact if_neg (by simp [hb])

theorem lineBreak_told (hb : s.start.banner = true) (hpart : call.part = []) : lineBreak s = { s with
    call := brokenLine call [.line (.evt "BREAK" []), .chars (ascii "LZ> ")], host := host } := by
  have htold : breakTold s = { s with call := brokenLine call [.line (.evt "BREAK" [])], host := host } := by
    rw [breakTold, hend, raise_lineOnly, callEvent_whole]
    · simp [State.tx, brokenLine]
    · decide
    · exact hpart
    · exact hb
    · decide
  rw [lineBreak_eq hlatch, htold, if_pos hb]
  simp [State.prompt, State.txChars, brokenLine, CallLine.textMode]

end

/-! ## Lines (R323, R324, R334, R336, R384) -/

section
variable {s : State} {x : RxLine} {rest : List RxLine} (hb : s.start.banner = true) (hrun : s.call.running = none)
  (hw : s.coxWorks s.faults.callCox = true) (hl : s.call.lines = x :: rest)
include hb hrun hw hl

/-- The state that a received line runs on. -/
def lineTaken (s : State) (rest : List RxLine) : State := { s with call := { s.call with lines := rest } }

theorem callLineRun_takes : exec .callLineRun s = .next (runRx x (lineTaken s rest)) := by
  rw [exec_callLineRun, callLineRun, hb, hrun, hw, hl]
  rfl

section
variable (hd : x.damaged = false)
include hd

theorem callLineRun_long (hx : x.long = true) :
    exec .callLineRun s = .next ((lineTaken s rest).failWith Caller.line "?" .syntaxErr [bareF "long"]) := by
  rw [callLineRun_takes hb hrun hw hl, runRx, hd, hx]
  rfl

section
variable (hx : x.long = false) (hc : x.badChar = false)
include hx hc

theorem callLineRun_spaces (hsp : x.text.all isSpace = true) : exec .callLineRun s = .next (lineTaken s rest) := by
  rw [callLineRun_takes hb hrun hw hl, runRx, hd, hx, hc, hsp]
  rfl

theorem callLineRun_text (hsp : x.text.all isSpace = false) : exec .callLineRun s = .next (runText x.text (lineTaken s rest)) := by
  rw [callLineRun_takes hb hrun hw hl, runRx, hd, hx, hc, hsp]
  rfl

theorem callLineRun_bad (hsp : x.text.all isSpace = false) {v : String} {g : Option (List Byte)} {e : Err} {d : List String}
    (hp : parseLine Caller.line s.call.terse s.call.check x.text = .bad v g e d) :
    exec .callLineRun s = .next ((lineTaken s rest).failWith { Caller.line with tag := g } v e (d.map bareF)) := by
  have hp : parseLine Caller.line (lineTaken s rest).call.terse (lineTaken s rest).call.check x.text = .bad v g e d := hp
  rw [callLineRun_text hb hrun hw hl hd hx hc hsp, runText, hp]
  rfl

/-- A line that spells a call runs it. -/
theorem callLineRun_call (hsp : x.text.all isSpace = false) {i : Instr}
    (hp : parseLine Caller.line s.call.terse s.call.check x.text = .call i) :
    exec .callLineRun s = .next (runVerb i (lineTaken s rest)) := by
  have hp : parseLine Caller.line (lineTaken s rest).call.terse (lineTaken s rest).call.check x.text = .call i := hp
  rw [callLineRun_text hb hrun hw hl hd hx hc hsp, runText, hp]

end
end

/-- The line CALL LOST, where characters were lost. -/
def tellLost (s : State) : State := if s.call.lost = 0 then s else s.raise (.evt "CALL LOST" [("", .dec s.call.lost)])

theorem callLineRun_damaged (hd : x.damaged = true) : exec .callLineRun s =
    let u := tellLost (lineTaken s rest)
    .next (({ u with call := { u.call with lost := 0 } } : State).failWith Caller.line "?" .syntaxErr []) := by
  rw [callLineRun_takes hb hrun hw hl, runRx, hd]
  rfl

end

theorem tellLost_lanes (s : State) : (tellLost s).lanes = s.lanes := by
  unfold tellLost
  split
  · rfl
  · exact raise_lanes

/-- CALL LOST goes to the Call line, whatever its options. -/
theorem tellLost_tx {s : State} (hb : s.start.banner = true) (h : s.call.lost ≠ 0) :
    TxItem.line (.evt "CALL LOST" [("", .dec s.call.lost)]) ∈ (tellLost s).call.tx := by
  have halways : (Line.evt "CALL LOST" [("", .dec s.call.lost)]).always = true := by simp [Line.always, Line.evt]
  rw [tellLost, if_neg h]
  exact raise_told hb (by rw [halways, Bool.or_true])

/-- What waits to go out on the Call line still waits after a reply. -/
theorem reply_tx {s : State} {x : TxItem} (h : x ∈ s.call.tx) (c : Caller) (ls : List Line) : x ∈ (s.reply c ls).call.tx := by
  unfold State.reply
  split
  · refine prompt_tx ?_
    rw [tx_foldl_call]
    exact List.mem_append_left _ h
  · exact h

/-! ## CALL_TX (R334, R338) -/

theorem callTxLine_sends {s : State} {i : TxItem} {rest : List TxItem} (h : s.call.tx = i :: rest)
    (hf : s.call.flow = false ∨ s.call.ctsN = false) :
    exec .callTxLine s = .next { s with call := { s.call with tx := rest, txLast := some i, sent := s.call.wire i } } := by
  have hgo : (s.call.flow && s.call.ctsN) = false := Bool.and_eq_false_iff.mpr hf
  rw [exec_callTxLine, callTxLine, h, hgo]
  rfl

theorem callTxLine_waits {s : State} (hf : s.call.flow = true) (hcts : s.call.ctsN = true) : exec .callTxLine s = .next s := by
  rw [exec_callTxLine, callTxLine, hf, hcts]
  split <;> rfl

/-! ## The statement -/

/-- Settles O46: its clauses in their order, each from the lemma on its form. -/
theorem callLineReceives : Obligations.CallLineReceives := by
  refine ⟨fun b r s hm h => ?noRate, fun b r s hm href h => ?overRef, fun b r s hlatch hm hb0 hb hr hclk hroom hlen => ?locks,
    fun b r s hlatch hm hb hroom hlen => ?printable, fun b r s hlatch hm hb hne hterse hroom hlen => ?control,
    fun r s hlatch hm hroom => ?cr, fun r s hlatch hm hcr => ?lf, fun r s hlatch hm hroom htext hpart => ?backspace,
    fun r s hlatch hm hroom htext => ?kill, fun r s hlatch hm hroom htext => ?cancel, fun b r s hlatch hm hlf hfull => ?full,
    fun b r s hlatch hm hb hroom hlen => ?long, fun s hlatch hb => ?breakEarly, fun s hlatch hb => ?breakTold,
    fun w s hlatch hw hp => ?breakWait, fun x rest s hb hrun hw hl hd hx hc hsp => callLineRun_spaces hb hrun hw hl hd hx hc hsp,
    fun x rest s hb hrun hw hl hd hx => ?lineLong, fun x rest s hb hrun hw hl hd => ?lineDamaged,
    fun x rest v g e d s hb hrun hw hl hd hx hc hsp hp => ?lineBad,
    fun x rest c l q h e a s hb hrun hw hl hd hx hc hsp hp => callLineRun_call hb hrun hw hl hd hx hc hsp hp,
    fun x rest c l q p s hb hrun hw hl hd hx hc hsp hp => callLineRun_call hb hrun hw hl hd hx hc hsp hp,
    fun x rest c s hb hrun hw hl hd hx hc hsp hcall _ hp => ?lineHello,
    fun x rest c r f n s hb hrun hw hl hd hx hc hsp hp => callLineRun_call hb hrun hw hl hd hx hc hsp hp,
    fun s hw => ?lineWaits, fun _ _ _ h hf => callTxLine_sends h hf, fun _ hf hcts => callTxLine_waits hf hcts,
    fun h s => exec_callCtsNChange h s⟩
  case noRate =>
    refine callCharReceived_unlocked hm (Bool.eq_false_iff.mpr fun hlocks => ?_)
    obtain ⟨hb0, hlo, hhi, -⟩ := locks_iff.mp hlocks
    obtain h | h := h
    · exact absurd hb0 (Bool.eq_false_iff.mp h)
    · omega
  case overRef =>
    refine callCharReceived_unlocked hm (Bool.eq_false_iff.mpr fun hlocks => ?_)
    obtain ⟨-, -, -, hmax⟩ := locks_iff.mp hlocks
    exact absurd (hmax href) (by omega)
  case locks =>
    have hlocks : locks s.clk.callClock b r = true := locks_iff.mpr ⟨hb0, hr.1, hr.2, fun href => hclk.resolve_left (absurd href)⟩
    refine ⟨_, (callCharReceived_locks hlatch hm hlocks).trans
      (congrArg Host.Outcome.next (takeChar_appends ⟨Nat.le_of_lt hb.1, hb.2⟩ hroom hlen)), rfl, rfl, rfl, rfl, rfl, rfl⟩
  case printable => rw [callCharReceived_locked hlatch hm, takeChar_appends hb hroom hlen]; rfl
  case control => rw [callCharReceived_locked hlatch hm, takeChar_control hb hne hterse hroom hlen]
  case cr =>
    rw [callCharReceived_locked hlatch hm, takeChar_cr hroom, echoChars_eq]
    exact ⟨_, rfl, rfl, rfl, rfl, rfl⟩
  case lf => rw [callCharReceived_locked hlatch hm, takeChar_lfAfterCr hcr, echoChars_eq]; rfl
  case backspace =>
    rw [callCharReceived_locked hlatch hm, takeChar_edits hroom (by decide) (by decide) htext (edit_backspace hpart), echoChars_eq]
    exact ⟨_, rfl, rfl, rfl, rfl⟩
  case kill =>
    rw [callCharReceived_locked hlatch hm, takeChar_edits hroom (by decide) (by decide) htext edit_kill, echoChars_eq]
    exact ⟨_, rfl, rfl, rfl, rfl⟩
  case cancel =>
    rw [callCharReceived_locked hlatch hm, takeChar_edits hroom (by decide) (by decide) htext edit_cancel, echoChars_eq]
    exact ⟨_, rfl, rfl, rfl, rfl⟩
  case full => rw [callCharReceived_locked hlatch hm, takeChar_full hlf hfull]
  case long =>
    rw [callCharReceived_locked hlatch hm, takeChar_tooLong hb hroom hlen]
    exact ⟨_, rfl, rfl, rfl, rfl⟩
  case breakEarly =>
    obtain ⟨call, host, hend, -, hlines, hpart⟩ := breakEnds_frame s
    exact ⟨_, (exec_lineBreak s).trans (congrArg Host.Outcome.next (lineBreak_early hlatch hend hb)), hlines, hpart, rfl, rfl⟩
  case breakTold =>
    obtain ⟨call, host, hend, hwait, hlines, hpart⟩ := breakEnds_frame s
    exact ⟨_, (exec_lineBreak s).trans (congrArg Host.Outcome.next (lineBreak_told hlatch hend hb hpart)), rfl, hlines, hpart, hwait,
      rfl, rfl, rfl, rfl, rfl, rfl, List.mem_append_right _ (List.mem_cons_self ..)⟩
  case breakWait =>
    obtain ⟨htold, hrun⟩ := breakEnds_wait hw hp
    obtain ⟨call, host, hend, -, -, hpart⟩ := breakEnds_frame s
    rw [hend] at htold hrun
    cases hb : s.start.banner with
    | false => exact ⟨_, (exec_lineBreak s).trans (congrArg Host.Outcome.next (lineBreak_early hlatch hend hb)),
        List.mem_append_left _ htold, hrun⟩
    | true => exact ⟨_, (exec_lineBreak s).trans (congrArg Host.Outcome.next (lineBreak_told hlatch hend hb hpart)),
        List.mem_append_left _ htold, hrun⟩
  case lineLong =>
    exact ⟨_, callLineRun_long hb hrun hw hl hd hx, failWith_quiet, failWith_replied (c := Caller.line)⟩
  case lineDamaged =>
    refine ⟨_, callLineRun_damaged hb hrun hw hl hd, ?_, ?_, failWith_replied (c := Caller.line), fun hlost => ?_⟩
    · exact congrArg (·.call.lost) failWith_quiet
    · exact reply_lanes.trans (tellLost_lanes _)
    · refine reply_tx ?_ ..
      exact tellLost_tx (s := lineTaken s rest) hb hlost
  case lineBad =>
    exact ⟨_, callLineRun_bad hb hrun hw hl hd hx hc hsp hp, failWith_quiet, failWith_replied (c := { Caller.line with tag := g })⟩
  case lineHello =>
    have hfree : (lineTaken s rest).lineBusy c = false := by simp [State.lineBusy, lineTaken, hrun]
    have hello := hello_answers (s := lineTaken s rest) hb hfree
    have hline : (CallPath.call == CallPath.host) = false := by decide
    simp only [hcall, hline, Bool.or_false] at hello
    exact next_of_ok ((callLineRun_call hb hrun hw hl hd hx hc hsp hp).trans hello)
  case lineWaits =>
    rw [exec_callLineRun, callLineRun, hw, Bool.and_false]
    rfl

end Sys2Proof.LineCalls
end

section
/-! PROOFS. FENCE and SPARE (R347, R372, R375 to R377, R385): the records of an operator's fence, the substitution of a shell, the fences
of AES pipelines, decoders and Cox processors, and what the calls answer. -/

namespace Sys2Proof.FenceCalls
open Sys2Proof Sys2Proof.Machine Sys2Proof.Laws Sys2Proof.Registers Sys2Proof.Words Sys2Proof.ClockLoss

theorem exec_fence (c : Caller) (u : UnitRef) (s : State) : exec (.fence c u) s = .next (doFence c u s) := rfl

theorem exec_spare (c : Caller) (s : State) : exec (.spare c) s = .next (doSpare c s) := rfl

/-! ## Entries replaced -/

section
variable {α : Type} {n : Nat} (v : Vector α n)

theorem getElem_put_self (i : Fin n) (x : α) : (put v i x)[i] = x := getElem_upd_self v i fun _ => x

theorem getElem_put_ne {i j : Fin n} (h : j ≠ i) (x : α) : (put v i x)[j] = v[j] := getElem_upd_ne v h fun _ => x

end

/-! ## Records (R376) -/

theorem logFault_twice (s : State) (r r' : FaultRec) : ∃ log, (s.logFault r).logFault r' =
    { s with faults := { s.faults with log := log, logNum := s.faults.logNum + 2 } } := by
  obtain ⟨log, hlog, -⟩ := logFault_eq s r
  obtain ⟨log', hlog', -⟩ := logFault_eq (s.logFault r) r'
  rw [hlog', hlog]
  exact ⟨log', rfl⟩

/-- An operator's fence logs two records, and leaves the flash and the self-tests as they are. -/
theorem fenceRecords_operator (u : UnitRef) (heat : Option (LaneId × W32)) (s : State) :
    ∃ log, fenceRecords u (some .operatorFence) heat s = { s with faults := { s.faults with
      log := log, logNum := s.faults.logNum + 2, operator := s.faults.operator ++ [u] } } := by
  unfold fenceRecords
  dsimp only
  rw [if_pos rfl]
  obtain ⟨log, hlog⟩ := logFault_twice s _ _
  rw [hlog]
  exact ⟨log, rfl⟩

theorem logSubstitute_eq (u v : UnitRef) (s : State) :
    ∃ log, logSubstitute u v s = { s with faults := { s.faults with log := log, logNum := s.faults.logNum + 1 } } := ⟨_, rfl⟩

/-! ## Resident rigs of a shell (R49): its domain comes up, and no other power domain is fenced for it -/

theorem ready_fenced (p : Power) (d : Dom) : (p.ready d).fenced = p.fenced := (next_up_fenced _).2

theorem readyAll_fenced (ds : List Dom) (p : Power) : (ds.foldl Power.ready p).fenced = p.fenced :=
  List.foldlRecOn (motive := fun q : Power => q.fenced = p.fenced) ds _ rfl fun q hq d _ => (ready_fenced q d).trans hq

theorem bring_fenced (p : Power) (d : Dom) : (p.bring d).fenced = p.fenced := by
  unfold Power.bring
  split
  · rfl
  · dsimp only
    split
    · rw [ready_fenced, (start_up_fenced p d).2]
    · rw [ready_fenced, readyAll_fenced, readyAll_fenced, (start_up_fenced p d).2]

/-- From s to t only the shells and the domains' bring-up change. -/
structure ShellsLoaded (s t : State) : Prop where
  frame : t = { s with shells := t.shells, power := t.power }
  fenced : t.power.fenced = s.power.fenced

theorem ShellsLoaded.refl (s : State) : ShellsLoaded s s := ⟨rfl, rfl⟩

theorem ShellsLoaded.trans {s t u : State} (h : ShellsLoaded s t) (g : ShellsLoaded t u) : ShellsLoaded s u :=
  ⟨by rw [g.frame, h.frame], g.fenced.trans h.fenced⟩

theorem bundleInto_loads (h : Fin 16) (i : ShellId) (s : State) : ShellsLoaded s (bundleInto h i s) :=
  List.foldlRecOn (motive := ShellsLoaded s) _ _ (.refl s) fun _ hu _ _ => hu.trans ⟨rfl, bring_fenced _ _⟩

theorem residentInto_loads (i : ShellId) (s : State) : ShellsLoaded s (residentInto i s) := by
  refine List.foldlRecOn (motive := ShellsLoaded s) _ _ (.refl s) fun u hu h _ => ?_
  split
  · exact hu.trans (bundleInto_loads h i u)
  · exact hu

/-! ## A shell is fenced (R376, R377) -/

theorem restartShell_idle {s : State} {i : ShellId} (h : (s.shell i).running = none) : restartShell i s = s := by
  rw [restartShell, h]

theorem strFence_running {s : State} {i : ShellId} (h : s.str.halted.getLsbD i.val = false) : strFence i s = s := by
  rw [strFence, h]
  rfl

/-- The spares of a state are those of its shells' states. -/
theorem shellsIn_of_shells {s t : State} {x : UnitSt} (h : ∀ m : ShellId, t.faults.shells[m] == x ↔ s.faults.shells[m] == x) :
    t.shellsIn x = s.shellsIn x :=
  List.filter_congr fun m _ => Bool.eq_iff_iff.mpr (h m)

theorem spares_of_fenced {s : State} {i : ShellId} (hact : s.faults.shells[i] = .active) :
    (s.setShellSt i .fenced).shellsIn .spare = s.shellsIn .spare := by
  refine shellsIn_of_shells fun m => ?_
  simp only [State.setShellSt]
  by_cases hm : m = i
  · subst hm
    rw [getElem_put_self, hact]
    decide
  · rw [getElem_put_ne _ hm]

/-- The logical shell of a fenced shell goes to the first spare, which becomes ACTIVE. -/
theorem substituteShell_spare {s : State} {i j : ShellId} {k : Fin 16} (hk : (List.finRange 16).find? (fun m => s.map[m] == some i) = some k)
    (hj : (s.shellsIn .spare).head? = some j) : ∃ shells power log, substituteShell i s = { s with
      map := put s.map k (some j), shells := shells, power := power
      faults := { s.faults with shells := put s.faults.shells j .active, log := log, logNum := s.faults.logNum + 1 } } ∧
      power.fenced = s.power.fenced := by
  have hsub : substituteShell i s = logSubstitute (.shell i) (.shell j)
      (residentInto j (({ s with map := put s.map k (some j) } : State).setShellSt j .active)) := by
    rw [substituteShell, hk]
    dsimp only
    rw [hj]
  obtain ⟨hframe, hfenced⟩ := residentInto_loads j (({ s with map := put s.map k (some j) } : State).setShellSt j .active)
  rw [hsub]
  generalize residentInto j _ = u at hframe hfenced ⊢
  obtain ⟨log, hlog⟩ := logSubstitute_eq (.shell i) (.shell j) u
  have hfaults : u.faults = { s.faults with shells := put s.faults.shells j .active } := congrArg State.faults hframe
  refine ⟨u.shells, u.power, log, ?_, hfenced⟩
  rw [hlog, hfaults, hframe]
  rfl

/-- A shell that ran nothing is out of service, and what it held is lost. -/
def shellOut (i : ShellId) (s : State) : State :=
  { s.setShellSt i .fenced with
    power := s.power.fence (Dom.shell i), rail := { s.rail with govCount := put s.rail.govCount i 0#48 }, shells := put s.shells i {} }

theorem fenceShell_idle {s : State} {i : ShellId} (hact : s.faults.shells[i] = .active) (hrun : (s.shell i).running = none)
    (hhalt : s.str.halted.getLsbD i.val = false) (cause : Option Cause) :
    fenceShell i cause s = fenceRecords (.shell i) cause none (substituteShell i (shellOut i s)) := by
  have hin : s.inService i = true := by rw [State.inService, hact]; rfl
  rw [fenceShell, if_pos hin, hrun, restartShell_idle hrun]
  dsimp only
  rw [strFence_running]
  · rfl
  · exact hhalt

theorem fenceShell_substitutes {s : State} {i j : ShellId} {k : Fin 16} (hact : s.faults.shells[i] = .active)
    (hrun : (s.shell i).running = none) (hhalt : s.str.halted.getLsbD i.val = false)
    (hk : (List.finRange 16).find? (fun m => s.map[m] == some i) = some k) (hj : (s.shellsIn .spare).head? = some j) :
    ∃ shells power rail log, fenceShell i (some .operatorFence) s = { s with
      map := put s.map k (some j), shells := shells, power := power, rail := rail
      faults := { s.faults with
        shells := put (put s.faults.shells i .fenced) j .active, log := log, logNum := s.faults.logNum + 3
        operator := s.faults.operator ++ [.shell i] } } ∧
      power.fenced.getLsbD i.val = true := by
  have hspares : (shellOut i s).shellsIn .spare = s.shellsIn .spare := spares_of_fenced hact
  obtain ⟨shells, power, log, hsub, hfenced⟩ := substituteShell_spare (s := shellOut i s) hk (hspares ▸ hj)
  obtain ⟨log', hrec⟩ := fenceRecords_operator (.shell i) none (substituteShell i (shellOut i s))
  rw [hsub] at hrec
  refine ⟨shells, power, (shellOut i s).rail, log', ?_, by rw [hfenced]; exact fence_fenced s.power (Dom.shell i)⟩
  rw [fenceShell_idle hact hrun hhalt, hsub]
  exact hrec

/-! ## Other units are fenced (R372, R382, R384) -/

theorem fenceAes_operator {s : State} {p : Fin 3} (hact : s.faults.aes[p] = .active) :
    ∃ log, fenceAes p (some .operatorFence) s = { s with faults := { s.faults with
      aes := put s.faults.aes p .fenced, log := log, logNum := s.faults.logNum + 2, operator := s.faults.operator ++ [.aes p] } } := by
  rw [fenceAes, if_pos hact]
  exact fenceRecords_operator (.aes p) none { s with faults := { s.faults with aes := put s.faults.aes p .fenced } }

theorem fenceDecoder_operator {s : State} {d : Fin 4} (hact : s.faults.decoders[d] = .active) (hidle : s.mem.decoder[d].busy = none) :
    ∃ log, fenceDecoder d (some .operatorFence) s = { s with
      faults := { s.faults with
        decoders := put s.faults.decoders d .fenced, log := log, logNum := s.faults.logNum + 2
        operator := s.faults.operator ++ [.decoder d] }
      mem := { s.mem with decoder := put s.mem.decoder d {} } } := by
  rw [fenceDecoder, if_pos hact, hidle]
  exact fenceRecords_operator (.decoder d) none { s with
    faults := { s.faults with decoders := put s.faults.decoders d .fenced }
    mem := { s.mem with decoder := put s.mem.decoder d {} } }

theorem contains_lanesOf (s : State) (i : Fin 3) (l : LaneId) : (s.lanesOf i).contains l = (s.faults.laneCox[l] == i) := by
  refine Bool.eq_iff_iff.mpr ?_
  simp [State.lanesOf]

/-- The lanes of a crashed processor recover. -/
def lanesCrashed (s : State) (i : Fin 3) : Vector Lane 4 :=
  mapIdx s.lanes fun l L => if (s.lanesOf i).contains l then { L with recovering := true } else L

theorem recovering_lanesCrashed (s : State) (i : Fin 3) (l : LaneId) :
    ((lanesCrashed s i)[l]).recovering = ((s.lane l).recovering || s.faults.laneCox[l] == i) := by
  rw [lanesCrashed, EarCapture.getElem_mapIdx, contains_lanesOf]
  cases s.faults.laneCox[l] == i
  · exact (Bool.or_false _).symm
  · exact (Bool.or_true _).symm

theorem coxCrash_active {s : State} {i : Fin 3} (hact : s.faults.coxRole[i] = .active) (hup : s.faults.crashed[i] = false) (cause : Cause) :
    ∃ log, coxCrash i cause s = { s with
      lanes := lanesCrashed s i
      faults := { s.faults with crashed := put s.faults.crashed i true, log := log, logNum := s.faults.logNum + 1 } } := by
  rw [coxCrash, hact]
  dsimp only
  rw [hup, if_neg (by decide)]
  exact ⟨_, rfl⟩

/-! ## FENCE (R347) -/

section
variable {c : Caller} {s : State} (ht : Takes c s)
include ht

theorem fence_out {u : UnitRef} {x : UnitSt} (hu : s.unitSt u = some x) (hout : x.out = true) :
    exec (.fence c u) s = .next (s.fail c "FENCE" .state) := by
  rw [exec_fence, doFence, gate_takes ht, hu]
  exact congrArg Host.Outcome.next (if_pos hout)

theorem fence_unnamed {u : UnitRef} (hu : s.unitSt u = none) : exec (.fence c u) s = .next (s.fail c "FENCE" .range) := by
  rw [exec_fence, doFence, gate_takes ht, hu]

section
variable {u : UnitRef} {x : UnitSt} (hu : s.unitSt u = some x) (hin : x.out = false)
include hu hin

theorem fence_stops (hstops : fenceStops u s = true) : exec (.fence c u) s = .next (s.fail c "FENCE" .fenced) := by
  rw [exec_fence, doFence, gate_takes ht, hu]
  dsimp only
  rw [hin, if_neg (by decide), if_pos hstops]

theorem fence_fences (hgo : fenceStops u s = false) (hcox : ∀ i, u ≠ .cox i) {v : State} (hv : fenceUnit u s = v) :
    exec (.fence c u) s = .next (v.ok c "FENCE" [bareF u.text]) := by
  rw [exec_fence, doFence, gate_takes ht, hu, ← hv]
  dsimp only
  rw [hin, if_neg (by decide), hgo, if_neg (by decide)]
  split
  · next i => exact absurd rfl (hcox i)
  · rfl

end

theorem fence_shell {i j : ShellId} {k : Fin 16} (hact : s.faults.shells[i] = .active) (hcount : 13 ≤ s.serviceCount)
    (hrun : (s.shell i).running = none) (hhalt : s.str.halted.getLsbD i.val = false)
    (hk : (List.finRange 16).find? (fun m => s.map[m] == some i) = some k) (hj : (s.shellsIn .spare).head? = some j) :
    ∃ t, exec (.fence c (.shell i)) s = .next t ∧ t.faults.shells[i] = .fenced ∧ t.faults.shells[j] = .active ∧ t.map[k] = some j ∧
      (∀ m, m ≠ k → t.map[m] = s.map[m]) ∧ t.power.fenced.getLsbD i.val = true ∧
      t.faults.operator = s.faults.operator ++ [.shell i] ∧ t.faults.repairQueue = s.faults.repairQueue ∧
      t.faults.logNum = s.faults.logNum + 3 ∧ t.lanes = s.lanes ∧ t.mem = s.mem ∧
      Replied c (okLine c "FENCE" [bareF (UnitRef.shell i).text]) t := by
  obtain ⟨shells, power, rail, log, hfence, hfenced⟩ := fenceShell_substitutes hact hrun hhalt hk hj
  have hexec := fence_fences ht (u := .shell i) (congrArg some hact) (by decide) (decide_eq_false (Nat.not_lt.mpr hcount))
    (fun _ h => nomatch h) hfence
  have hij : i ≠ j := by
    rintro rfl
    have hspare := (List.mem_filter.mp (List.mem_of_mem_head? hj)).2
    simp [hact] at hspare
  refine ⟨_, hexec, ?_, ?_, ?_, fun m hm => ?_, ?_, ?_, ?_, ?_, ok_lanes, ok_mem, ok_replied⟩
  · rw [ok_faults]
    exact (getElem_put_ne _ hij _).trans (getElem_put_self ..)
  · rw [ok_faults]
    exact getElem_put_self ..
  · rw [ok_map]
    exact getElem_put_self ..
  · rw [ok_map]
    exact getElem_put_ne _ hm _
  · rw [ok_power]
    exact hfenced
  all_goals rw [ok_faults]

theorem fence_aes {p : Fin 3} (hact : s.faults.aes[p] = .active) (hcount : 2 ≤ (s.faults.aes.toList.filter fun x => x == .active).length) :
    ∃ t, exec (.fence c (.aes p)) s = .next t ∧ t.faults.aes[p] = .fenced ∧ (∀ k, k ≠ p → t.faults.aes[k] = s.faults.aes[k]) ∧
      t.faults.shells = s.faults.shells ∧ t.faults.logNum = s.faults.logNum + 2 ∧
      Replied c (okLine c "FENCE" [bareF (UnitRef.aes p).text]) t := by
  obtain ⟨log, hfence⟩ := fenceAes_operator hact
  have hexec := fence_fences ht (u := .aes p) (congrArg some hact) (by decide) (decide_eq_false (Nat.not_lt.mpr hcount))
    (fun _ h => nomatch h) hfence
  refine ⟨_, hexec, ?_, fun k hk => ?_, ?_, ?_, ok_replied⟩ <;> rw [ok_faults]
  · exact getElem_put_self ..
  · exact getElem_put_ne _ hk _

theorem fence_decoder {d : Fin 4} (hact : s.faults.decoders[d] = .active)
    (hcount : 2 ≤ (s.faults.decoders.toList.filter fun x => x == .active).length) (hidle : s.mem.decoder[d].busy = none) :
    ∃ t, exec (.fence c (.decoder d)) s = .next t ∧ t.faults.decoders[d] = .fenced ∧
      (∀ k, k ≠ d → t.faults.decoders[k] = s.faults.decoders[k]) ∧ t.lanes = s.lanes ∧
      Replied c (okLine c "FENCE" [bareF (UnitRef.decoder d).text]) t := by
  obtain ⟨log, hfence⟩ := fenceDecoder_operator hact hidle
  have hexec := fence_fences ht (u := .decoder d) (congrArg some hact) (by decide) (decide_eq_false (Nat.not_lt.mpr hcount))
    (fun _ h => nomatch h) hfence
  refine ⟨_, hexec, ?_, fun k hk => ?_, ok_lanes, ok_replied⟩ <;> rw [ok_faults]
  · exact getElem_put_self ..
  · exact getElem_put_ne _ hk _

/-- A shell in service is not fenced where fewer than 13 are. -/
theorem fence_fewShells {i : ShellId} (hin : s.faults.shells[i] = .active ∨ s.faults.shells[i] = .spare) (hcount : s.serviceCount < 13) :
    exec (.fence c (.shell i)) s = .next (s.fail c "FENCE" .fenced) := by
  have hout : (s.faults.shells[i]).out = false := by obtain h | h := hin <;> rw [h] <;> rfl
  exact fence_stops ht (u := .shell i) rfl hout (decide_eq_true hcount)

/-- FENCE of a processor that can be taken over: the call waits for the takeover. -/
theorem fence_crashes (hp : c.path = .call) {i j : Fin 3} (hact : s.faults.coxRole[i] = .active) (hup : s.faults.crashed[i] = false)
    (htaker : s.taker i = some j) :
    ∃ log, exec (.fence c (.cox i)) s = .next { s with
      lanes := lanesCrashed s i
      faults := { s.faults with
        crashed := put s.faults.crashed i true, log := log, logNum := s.faults.logNum + 1, fenceCall := s.faults.fenceCall ++ [(i, c)] }
      call := { s.call with running := some "FENCE" } } := by
  obtain ⟨log, hcrash⟩ := coxCrash_active hact hup .operatorFence
  have hu : s.unitSt (.cox i) = some .active := by rw [State.unitSt, hact]; rfl
  have hgo : fenceStops (.cox i) s = false := by rw [fenceStops, htaker]; rfl
  have hunit : fenceUnit (.cox i) s = coxCrash i .operatorFence s := rfl
  refine ⟨log, ?_⟩
  rw [exec_fence, doFence, gate_takes ht, hu]
  dsimp only
  rw [if_neg (by decide), hgo, if_neg (by decide), hunit, hcrash]
  dsimp only
  rw [getElem_put_self, if_pos rfl, if_pos hp]

/-! ## SPARE (R372, R397) -/

theorem spare_answers : ∃ t, exec (.spare c) s = .next t ∧ t.quiet = s.quiet ∧
    Replied c (okLine c "SPARE" ([decF "shells" (s.shellsIn .spare).length,
      decF "banks" ((List.finRange 68).filter fun p => s.faults.banks[p] == .spare).length,
      decF "slices" ((List.finRange 9).filter fun k => s.eye.slice[k].role == .spare).length, decF "pages" (256 - s.mem.retired.length)] ++
      if fusesUsed s = 64 then [decF "fuses" 64] else [])) t ∧
    ∀ i ∈ s.shellsIn .spare, Replied c (dataLine c [bareF (UnitRef.shell i).text]) t :=
  ⟨_, (exec_spare c s).trans (congrArg Host.Outcome.next (gate_takes ht)), okWith_quiet, okWith_replied, fun i hi => okWith_data (by
    simp only [List.mem_append, List.mem_map]
    exact .inl (.inl (.inl ⟨i, hi, rfl⟩)))⟩

end

end Sys2Proof.FenceCalls
end

section
/-! PROOFS. REPAIR, self-tests and repair records (R351, R375, R388, R390 to R392, R422, R423): what beginning a condition of confidential
mode leaves, what REPAIR TEST, REJOIN and RECORD answer and leave, how a self-test begins and ends, and the statement about units. -/

namespace Sys2Proof.RepairCalls
open Sys2Proof Sys2Proof.Machine Sys2Proof.Laws Sys2Proof.Registers Sys2Proof.ClockLoss Sys2Proof.LaneChanges Sys2Proof.EarStarts
open Sys2Proof.Answers Sys2Proof.LineCalls Sys2Proof.FenceCalls

theorem exec_repairTest (c : Caller) (u : UnitRef) (s : State) : exec (.repairTest c u) s = .next (doRepairTest c u s) := rfl

theorem exec_repairRejoin (c : Caller) (u : UnitRef) (s : State) : exec (.repairRejoin c u) s = .next (doRepairRejoin c u s) := rfl

theorem exec_repairRecord (c : Caller) (u : UnitRef) (s : State) : exec (.repairRecord c u) s = .next (doRepairRecord c u s) := rfl

theorem exec_selftestStart (u : UnitRef) (s : State) : exec (.selftestStart u) s = .next (selftestStart u s) := rfl

theorem exec_selftestDone (u : UnitRef) (ok : Bool) (s : State) : exec (.selftestDone u ok) s = .next (selftestDone u ok s) := rfl

theorem exec_repairRecordWrite (s : State) : exec .repairRecordWrite s = .next (repairRecordWrite s) := rfl

/-! ## Entry into confidential mode (R422, R423) -/

/-- From s to t nothing changes but what entry into confidential mode closes or hides. -/
structure Closes (s t : State) : Prop where
  frame : t = { s with lanes := t.lanes, str := t.str, stat := t.stat, rail := t.rail, sense := t.sense, eye := t.eye }

namespace Closes
variable {s t : State}

theorem faults (h : Closes s t) : t.faults = s.faults := by rw [h.frame]
theorem keys (h : Closes s t) : t.keys = s.keys := by rw [h.frame]
theorem start (h : Closes s t) : t.start = s.start := by rw [h.frame]
theorem fuse (h : Closes s t) : t.fuse = s.fuse := by rw [h.frame]
theorem shells (h : Closes s t) : t.shells = s.shells := by rw [h.frame]
theorem map (h : Closes s t) : t.map = s.map := by rw [h.frame]
theorem mem (h : Closes s t) : t.mem = s.mem := by rw [h.frame]
theorem power (h : Closes s t) : t.power = s.power := by rw [h.frame]
theorem call (h : Closes s t) : t.call = s.call := by rw [h.frame]
theorem host (h : Closes s t) : t.host = s.host := by rw [h.frame]

theorem output (h : Closes s t) : OutputStays s t := ⟨fun _ hx => h.call ▸ hx, fun _ _ he => h.host ▸ he⟩

theorem serviceCount (h : Closes s t) : t.serviceCount = s.serviceCount := by
  rw [h.frame]
  rfl

theorem generation (h : Closes s t) : t.generation = s.generation := by
  rw [State.generation, State.generation, h.start]

end Closes

theorem entering_closes (s : State) (f : State → State) : Closes (f s) (s.entering f) := by
  unfold State.entering
  dsimp only
  split
  · exact ⟨rfl⟩
  · exact ⟨rfl⟩

theorem repairStart_closes (s : State) : Closes { s with keys := { s.keys with repair := s.keys.repair + 1 } } (repairStart s) :=
  entering_closes s fun s => { s with keys := { s.keys with repair := s.keys.repair + 1 } }

/-- The faults block once a test of a unit has begun. -/
def testFaults (f : Faults) (u : UnitRef) (asked : Bool) : Faults :=
  { f with tests := f.tests ++ [{ unit := u, asked := asked }], testsDue := f.testsDue.filter fun x => x.1 != u }

theorem testBegin_closes (u : UnitRef) (asked : Bool) (s : State) :
    ∃ power, Closes { s with power := power, faults := testFaults s.faults u asked } (testBegin u asked s) := by
  have hcloses : Closes _ (testBegin u asked s) := entering_closes s _
  exact ⟨_, hcloses⟩

theorem confidential_of_test {s : State} {u : UnitRef} {asked : Bool} {f : Faults} (h : s.faults = testFaults f u asked) :
    s.confidential = true := by
  simp [State.confidential, h, testFaults]

/-! ## REPAIR (R351, R388, R390, R392) -/

section
variable {c : Caller} {s : State} (ht : Takes c s) {u : UnitRef} {x : UnitSt} (hu : s.unitSt u = some x)
include ht hu

theorem repairGate_busy (h : s.keys.repair ≠ 0 ∨ s.keys.keyop ≠ 0) (k : UnitSt → State) :
    repairGate c u s k = s.fail c "REPAIR" .busy := by
  rw [repairGate, gate_takes ht, hu]
  exact if_pos h

section
variable (hr : s.keys.repair = 0) (hk : s.keys.keyop = 0)
include hr hk

theorem repairGate_free (k : UnitSt → State) : repairGate c u s k = k x := by
  rw [repairGate, gate_takes ht, hu]
  exact if_neg (by simp [hr, hk])

theorem repairTest_begins (hout : x.out = true) (htests : s.faults.tests = []) : exec (.repairTest c u) s =
    .next (testBegin u true ((repairStart s).ok c "REPAIR" [bareF u.text, bareF "TEST", bareF "started"])) := by
  rw [exec_repairTest, doRepairTest, repairGate_free ht hu hr hk, hout, if_neg (by decide), if_neg fun h => h htests]

theorem repairTest_confides (hout : x.out = true) (htests : s.faults.tests = []) : ∃ t, exec (.repairTest c u) s = .next t ∧
    t.faults = testFaults s.faults u true ∧ t.keys = { s.keys with repair := 1 } ∧ t.confidential = true ∧ t.shells = s.shells ∧
    t.mem = s.mem ∧ Replied c (okLine c "REPAIR" [bareF u.text, bareF "TEST", bareF "started"]) t := by
  have hstart := repairStart_closes s
  obtain ⟨power, hcloses⟩ := testBegin_closes u true ((repairStart s).ok c "REPAIR" [bareF u.text, bareF "TEST", bareF "started"])
  have hfaults := hcloses.faults
  refine ⟨_, repairTest_begins ht hu hr hk hout htests, ?_, ?_, confidential_of_test hfaults, ?_, ?_, hcloses.output.replied ok_replied⟩
  · rw [hfaults, ok_faults, hstart.faults]
  · rw [hcloses.keys, ok_keys, hstart.keys, hr]
  · rw [hcloses.shells, ok_shells, hstart.shells]
  · rw [hcloses.mem, ok_mem, hstart.mem]

theorem repairTest_inService (hout : x.out = false) : exec (.repairTest c u) s = .next (s.fail c "REPAIR" .state) := by
  rw [exec_repairTest, doRepairTest, repairGate_free ht hu hr hk, hout]
  rfl

theorem repairTest_testing (hout : x.out = true) (htests : s.faults.tests ≠ []) :
    exec (.repairTest c u) s = .next (s.fail c "REPAIR" .busy) := by
  rw [exec_repairTest, doRepairTest, repairGate_free ht hu hr hk, hout, if_neg (by decide), if_pos htests]

theorem repairRejoin_notPassed (hx : x ≠ .passed) : exec (.repairRejoin c u) s = .next (s.fail c "REPAIR" .state) := by
  rw [exec_repairRejoin, doRepairRejoin, repairGate_free ht hu hr hk, if_pos hx]

theorem repairRecord_inService (hx : x ≠ .fenced ∧ x ≠ .passed) : exec (.repairRecord c u) s = .next (s.fail c "REPAIR" .state) := by
  rw [exec_repairRecord, doRepairRecord, repairGate_free ht hu hr hk, if_pos hx]

theorem repairRecord_burns (hp : c.path = .call) (hx : x = .fenced ∨ x = .passed) {j : Fin 64} (hj : freeEntry s = some j)
    (hburn : s.fuse.burning = none) : exec (.repairRecord c u) s =
      .next { repairStart s with
        call := { (repairStart s).call with running := some "REPAIR" }
        fuse := { s.fuse with burning := some (.repair j u (some c)) } } := by
  have hout : ¬(x ≠ .fenced ∧ x ≠ .passed) := fun h => hx.elim h.1 h.2
  have hfuse : (repairStart s).fuse = s.fuse := (repairStart_closes s).fuse
  rw [exec_repairRecord, doRepairRecord, repairGate_free ht hu hr hk, if_neg hout, hj]
  dsimp only
  rw [State.await, if_pos hp, burnStart]
  dsimp only
  rw [hfuse, hburn]
  rfl

end

theorem repairTest_busy (h : s.keys.repair ≠ 0 ∨ s.keys.keyop ≠ 0) : exec (.repairTest c u) s = .next (s.fail c "REPAIR" .busy) := by
  rw [exec_repairTest, doRepairTest, repairGate_busy ht hu h]

end

/-! ## REPAIR REJOIN (R390) -/

/-- The record that a unit has rejoined (R391). -/
def rejoinedRec (u : UnitRef) (gen : Nat) : RepairRec := { unit := u.code, kind := .rejoined, cause := none, gen := gen, detail := 0#64 }

/-- A unit that has rejoined: its fence is cleared, a record is queued and logged. -/
def rejoined (u : UnitRef) (s : State) : State :=
  let s := { s with faults := { s.faults with
    operator := s.faults.operator.filter (fun x => x != u), repairQueue := s.faults.repairQueue ++ [rejoinedRec u s.generation] } }
  s.logFault (s.faultRec .rejoin u none)

theorem rejoined_eq (u : UnitRef) (s : State) : ∃ log operator, rejoined u s = { s with faults := { s.faults with
    operator := operator, repairQueue := s.faults.repairQueue ++ [rejoinedRec u s.generation], log := log
    logNum := s.faults.logNum + 1 } } := ⟨_, _, rfl⟩

/-- REPAIR REJOIN: once the unit is back, its record is queued and logged, and the call's operation ends. -/
theorem repairRejoin_rejoins {c : Caller} {s w : State} (ht : Takes c s) {u : UnitRef} (hu : s.unitSt u = some .passed)
    (hr : s.keys.repair = 0) (hk : s.keys.keyop = 0) (hw : rejoin u (repairStart s) = w) : ∃ t log operator,
      exec (.repairRejoin c u) s = .next t ∧
      t = { w with
        keys := { w.keys with repair := w.keys.repair - 1 }
        faults := { w.faults with
          operator := operator, repairQueue := w.faults.repairQueue ++ [rejoinedRec u w.generation], log := log
          logNum := w.faults.logNum + 1 }
        call := t.call, host := t.host } ∧
      Replied c (okLine c "REPAIR" [bareF u.text, bareF "REJOIN"]) t := by
  obtain ⟨log, operator, hrejoined⟩ := rejoined_eq u w
  obtain ⟨call, host, hok⟩ := ok_frame (rejoined u w) c "REPAIR" [bareF u.text, bareF "REJOIN"]
  have hreply : Replied c (okLine c "REPAIR" [bareF u.text, bareF "REJOIN"]) _ := ok_replied (s := rejoined u w)
  have hexec : exec (.repairRejoin c u) s = .next (repairEnd ((rejoined u w).ok c "REPAIR" [bareF u.text, bareF "REJOIN"])) := by
    rw [exec_repairRejoin, doRepairRejoin, repairGate_free ht hu hr hk, if_neg fun h => h rfl, ← hw]
    rfl
  rw [hok, hrejoined] at hexec hreply
  exact ⟨_, log, operator, hexec, rfl, hreply⟩

theorem rejoin_aes (p : Fin 3) (s : State) : rejoin (.aes p) s =
    { s with faults := { s.faults with aes := put s.faults.aes p .active, aesFails := put s.faults.aesFails p 0 } } := rfl

theorem mappedCount_le (n : Nat) : mappedCount n ≤ 16 := by
  unfold mappedCount
  split
  · exact Nat.le_refl 16
  · split
    · decide
    · split
      · decide
      · omega

/-- A shell rejoins a full map as a spare. -/
theorem rejoin_shell {s : State} (i : ShellId) (h : 16 ≤ s.serviceCount) : ∃ power shells, rejoin (.shell i) s =
    { s with
      power := power, shells := shells
      faults := { s.faults with shells := put s.faults.shells i .spare, hist := put s.faults.hist i ({} : ShellHist) } } ∧
    power.fenced.getLsbD i.val = false := by
  have hmax : mappedCount s.serviceCount = 16 := if_pos h
  have hrejoin : rejoin (.shell i) s = residentInto i { s with
      power := s.power.off (Dom.shell i)
      faults := { s.faults with shells := put s.faults.shells i .spare, hist := put s.faults.hist i ({} : ShellHist) } } := by
    rw [rejoin, hmax]
    exact if_neg (Nat.not_lt.mpr (mappedCount_le _))
  obtain ⟨hframe, hfenced⟩ := residentInto_loads i { s with
    power := s.power.off (Dom.shell i)
    faults := { s.faults with shells := put s.faults.shells i .spare, hist := put s.faults.hist i ({} : ShellHist) } }
  rw [hrejoin]
  refine ⟨_, _, hframe, ?_⟩
  rw [hfenced]
  exact getLsbD_clear_self s.power.fenced (Dom.shell i)

section
variable {c : Caller} {s : State} (ht : Takes c s) (hr : s.keys.repair = 0) (hk : s.keys.keyop = 0)
include ht hr hk

theorem repairRejoin_aes {p : Fin 3} (hpassed : s.faults.aes[p] = .passed) : ∃ t, exec (.repairRejoin c (.aes p)) s = .next t ∧
    t.faults.aes[p] = .active ∧ t.keys = s.keys ∧ t.faults.logNum = s.faults.logNum + 1 ∧
    t.faults.repairQueue = s.faults.repairQueue ++ [rejoinedRec (.aes p) s.generation] ∧ t.shells = s.shells ∧ t.mem = s.mem ∧
    Replied c (okLine c "REPAIR" [bareF (UnitRef.aes p).text, bareF "REJOIN"]) t := by
  have hstart := repairStart_closes s
  obtain ⟨t, log, operator, hexec, hframe, hreply⟩ := repairRejoin_rejoins ht (u := .aes p) (congrArg some hpassed) hr hk (rejoin_aes p _)
  refine ⟨t, hexec, ?_, ?_, ?_, ?_, ?_, ?_, hreply⟩ <;> rw [hframe] <;> dsimp only
  · exact getElem_put_self ..
  · rw [hstart.keys]
    rfl
  · rw [hstart.faults]
  · rw [hstart.faults]
    exact congrArg (fun g => s.faults.repairQueue ++ [rejoinedRec (.aes p) g]) hstart.generation
  · exact hstart.shells
  · exact hstart.mem

theorem repairRejoin_shell {i : ShellId} (hpassed : s.faults.shells[i] = .passed) (hcount : 16 ≤ s.serviceCount) :
    ∃ t, exec (.repairRejoin c (.shell i)) s = .next t ∧ t.faults.shells[i] = .spare ∧ t.map = s.map ∧
      (∀ j, j ≠ i → t.faults.shells[j] = s.faults.shells[j]) ∧ t.power.fenced.getLsbD i.val = false ∧
      Replied c (okLine c "REPAIR" [bareF (UnitRef.shell i).text, bareF "REJOIN"]) t := by
  have hstart := repairStart_closes s
  obtain ⟨power, shells, hw, hfenced⟩ := rejoin_shell (s := repairStart s) i (hstart.serviceCount.symm ▸ hcount)
  obtain ⟨t, log, operator, hexec, hframe, hreply⟩ := repairRejoin_rejoins ht (u := .shell i) (congrArg some hpassed) hr hk hw
  refine ⟨t, hexec, ?_, ?_, fun j hj => ?_, ?_, hreply⟩ <;> rw [hframe] <;> dsimp only
  · exact getElem_put_self ..
  · exact hstart.map
  · rw [hstart.faults]
    exact getElem_put_ne _ hj _
  · exact hfenced

end

/-! ## Self-tests (R388, R389) -/

theorem elapseTo_rest (n : Nat) (s : State) :
    (elapseTo n s).faults = s.faults ∧ (elapseTo n s).shells = s.shells ∧ (elapseTo n s).mem = s.mem := by
  have htimed : elapseTo n s = s.timed (elapseTo n s) := elapse_timed _ s
  rw [htimed]
  exact ⟨rfl, rfl, rfl⟩

theorem selftestStart_begins {u : UnitRef} {k : W64} {s : State} (hdue : s.faults.testsDue.find? (fun x => x.1 == u) = some (u, k))
    (hu : s.unitSt u = some .fenced) (htests : s.faults.tests = []) :
    exec (.selftestStart u) s = .next (testBegin u false (elapseTo (k.toNat + oneSecond) s)) := by
  rw [exec_selftestStart, selftestStart, hdue]
  exact congrArg Host.Outcome.next (if_pos ⟨hu, htests⟩)

theorem selftestStart_confides {u : UnitRef} {k : W64} {s : State} (hdue : s.faults.testsDue.find? (fun x => x.1 == u) = some (u, k))
    (hu : s.unitSt u = some .fenced) (htests : s.faults.tests = []) : ∃ t, exec (.selftestStart u) s = .next t ∧
      t.faults = testFaults s.faults u false ∧ t.confidential = true ∧ t.shells = s.shells ∧ t.mem = s.mem := by
  obtain ⟨power, hcloses⟩ := testBegin_closes u false (elapseTo (k.toNat + oneSecond) s)
  obtain ⟨hfaults, hshells, hmem⟩ := elapseTo_rest (k.toNat + oneSecond) s
  have htest := hcloses.faults
  rw [hfaults] at htest
  exact ⟨_, selftestStart_begins hdue hu htests, htest, confidential_of_test htest, hcloses.shells.trans hshells, hcloses.mem.trans hmem⟩

theorem unitSt_role (t : UnitSt) : t.role.unitSt = t := by cases t <;> rfl

/-- A unit that calls name has the state that it is given, where that is no spare's. -/
theorem unitSt_setUnitSt {s : State} {u : UnitRef} {x t : UnitSt} (hu : s.unitSt u = some x) (ht : t ≠ .active) :
    (s.setUnitSt u t).unitSt u = some t := by
  cases u with
  | shell i => exact congrArg some (getElem_put_self ..)
  | bank p => exact congrArg some (getElem_put_self ..)
  | decoder d => exact congrArg some (getElem_put_self ..)
  | aes p => exact congrArg some (getElem_put_self ..)
  | cox i =>
    rw [State.unitSt, State.setUnitSt]
    dsimp only
    rw [getElem_put_self, unitSt_role]
  | slice k =>
    have hst : ((s.setUnitSt (.slice k) t).eye.slice[k]).st = t := by
      simp [State.setUnitSt, State.setEye, Eye.setSlice, upd]
    rw [State.unitSt, hst, if_neg fun h => ht h.1]
  | _ => simp [State.unitSt] at hu

/-- The record of a test's result. -/
def testRec (u : UnitRef) (ok : Bool) (s : State) : FaultRec :=
  { s.faultRec .testResult u (if ok then none else some .selfTestFailed) with result := if ok then 1#16 else 0#16 }

/-- What is told of a test's end: a record, and a line. -/
def testTold (u : UnitRef) (ok : Bool) (s : State) : State :=
  (s.logFault (testRec u ok s)).raise (.evt ("REPAIR " ++ u.text ++ (if ok then " PASS" else " FAIL")) [])

theorem testTold_faults (u : UnitRef) (ok : Bool) (s : State) :
    ∃ log, (testTold u ok s).faults = { s.faults with log := log, logNum := s.faults.logNum + 1 } := by
  obtain ⟨log, hlog, -⟩ := logFault_eq s (testRec u ok s)
  exact ⟨log, by rw [testTold, raise_faults, hlog]⟩

/-- What is told of a test's end leaves the Eye, the key block and memory. -/
structure TestTold (s t : State) : Prop where
  eye : t.eye = s.eye
  keys : t.keys = s.keys
  mem : t.mem = s.mem

theorem testTold_kept (u : UnitRef) (ok : Bool) (s : State) : TestTold s (testTold u ok s) := by
  obtain ⟨log, hlog, -⟩ := logFault_eq s (testRec u ok s)
  constructor
  · rw [testTold, raise_eye, hlog]
  · rw [testTold, raise_keys, hlog]
  · rw [testTold, raise_mem, hlog]

theorem testTold_line {u : UnitRef} {s : State} (hb : s.start.banner = true) (hev : s.call.events = true) (ok : Bool) :
    TxItem.line (.evt ("REPAIR " ++ u.text ++ (if ok then " PASS" else " FAIL")) []) ∈ (testTold u ok s).call.tx := by
  obtain ⟨log, hlog, -⟩ := logFault_eq s (testRec u ok s)
  rw [testTold, hlog]
  refine raise_told ?_ ?_
  · exact hb
  · exact Bool.or_eq_true_iff.mpr (.inl hev)

theorem unitSt_testTold (u v : UnitRef) (ok : Bool) (s : State) : (testTold u ok s).unitSt v = s.unitSt v := by
  obtain ⟨log, hfaults⟩ := testTold_faults u ok s
  have heye : (testTold u ok s).eye = s.eye := (testTold_kept u ok s).eye
  unfold State.unitSt
  rw [hfaults, heye]

/-- A unit gets the state of its test's result, but for a FUSED one. -/
def testResult (u : UnitRef) (ok : Bool) (s : State) : State :=
  match s.unitSt u with
  | some .fused => s
  | some _ => s.setUnitSt u (if ok then .passed else .fenced)
  | none => s

theorem testResult_sets {u : UnitRef} {x : UnitSt} {s : State} (hu : s.unitSt u = some x) (hx : x = .fenced ∨ x = .passed) (ok : Bool) :
    testResult u ok s = s.setUnitSt u (if ok then .passed else .fenced) := by
  rw [testResult, hu]
  obtain rfl | rfl := hx <;> rfl

/-- The domain that only a tested unit uses goes off. -/
def testDown (u : UnitRef) (s : State) : State :=
  match u.dom with
  | some d => { s with power := { s.power with up := s.power.up &&& ~~~domBit d } }
  | none => s

theorem testDown_frame (u : UnitRef) (s : State) : ∃ power, testDown u s = { s with power := power } := by
  unfold testDown
  split <;> exact ⟨_, rfl⟩

/-- The one test is over, and with it the operation of the call that asked for it. -/
def testOver (asked : Bool) (s : State) : State :=
  { s with
    faults := { s.faults with tests := [] }
    keys := { s.keys with repair := s.keys.repair - (if asked then 1 else 0) } }

theorem setUnitSt_frame (s : State) (u : UnitRef) (t : UnitSt) : ∃ eye faults, s.setUnitSt u t = { s with eye := eye, faults := faults } ∧
    faults.tests = s.faults.tests ∧ faults.logNum = s.faults.logNum := by
  cases u <;> exact ⟨_, _, rfl, rfl, rfl⟩

/-- The end of the one test, of a unit that is FENCED or PASSED. -/
theorem selftestDone_ends {u : UnitRef} {a : Bool} {x : UnitSt} {s : State} (htests : s.faults.tests = [{ unit := u, asked := a }])
    (hu : s.unitSt u = some x) (hx : x = .fenced ∨ x = .passed) (ok : Bool) : ∃ power, exec (.selftestDone u ok) s =
      .next (testTold u ok { (testOver a s).setUnitSt u (if ok then .passed else .fenced) with power := power }) := by
  have hfind : s.faults.tests.find? (fun t => t.unit == u) = some { unit := u, asked := a } := by simp [htests]
  have hrest : s.faults.tests.filter (fun t => t.unit != u) = [] := by simp [htests]
  have hover (v : State) : (if a then repairEnd v else v) =
      { v with keys := { v.keys with repair := v.keys.repair - (if a then 1 else 0) } } := by
    cases a <;> rfl
  have hdone : selftestDone u ok s = testTold u ok (testDown u (testResult u ok (testOver a s))) := by
    rw [testOver, ← hrest, selftestDone, hfind]
    dsimp only
    rw [hover]
    rfl
  obtain ⟨power, hpower⟩ := testDown_frame u ((testOver a s).setUnitSt u (if ok then .passed else .fenced))
  exact ⟨power, by rw [exec_selftestDone, hdone, testResult_sets (s := testOver a s) hu hx, hpower]⟩

theorem selftestDone_tells {u : UnitRef} {a : Bool} {x : UnitSt} {s : State} (htests : s.faults.tests = [{ unit := u, asked := a }])
    (hu : s.unitSt u = some x) (hx : x = .fenced ∨ x = .passed) (hb : s.start.banner = true) (hev : s.call.events = true) (ok : Bool) :
    ∃ t, exec (.selftestDone u ok) s = .next t ∧ t.faults.tests = [] ∧ t.unitSt u = some (if ok then .passed else .fenced) ∧
      t.faults.logNum = s.faults.logNum + 1 ∧ t.keys.repair = s.keys.repair - (if a then 1 else 0) ∧
      TxItem.line (Line.evt ("REPAIR " ++ u.text ++ (if ok then " PASS" else " FAIL")) []) ∈ t.call.tx ∧ t.mem = s.mem := by
  obtain ⟨power, hexec⟩ := selftestDone_ends htests hu hx ok
  obtain ⟨eye, faults, hset, hnone, hlog⟩ := setUnitSt_frame (testOver a s) u (if ok then .passed else .fenced)
  have hunit := unitSt_setUnitSt (s := testOver a s) hu (show (if ok then UnitSt.passed else .fenced) ≠ .active by cases ok <;> decide)
  rw [hset] at hexec hunit
  obtain ⟨log, hfaults⟩ := testTold_faults u ok { testOver a s with eye := eye, faults := faults, power := power }
  obtain ⟨-, hkeys, hmem⟩ := testTold_kept u ok { testOver a s with eye := eye, faults := faults, power := power }
  have hline := testTold_line (u := u) (s := { testOver a s with eye := eye, faults := faults, power := power }) hb hev ok
  have hresult := unitSt_testTold u u ok { testOver a s with eye := eye, faults := faults, power := power }
  refine ⟨_, hexec, ?_, hresult.trans hunit, ?_, ?_, hline, hmem⟩
  · rw [hfaults]
    exact hnone
  · rw [hfaults]
    exact congrArg (· + 1) hlog
  · rw [hkeys]
    rfl

/-! ## Repair records (R391) -/

theorem repairRecordWrite_writes {s : State} {r : RepairRec} {rest : List RepairRec} (hph : s.start.phase ≠ .copying)
    (hq : s.faults.repairQueue = r :: rest) :
    ∃ log, exec .repairRecordWrite s = .next { s with faults := { s.faults with
      repairQueue := rest, log := log, logNum := s.faults.logNum + 1
      repairs := if decide (2046 ≤ s.faults.repairs.length) then mergeRecords (s.faults.repairs ++ [r]) else s.faults.repairs ++ [r]
      repairSerial := if decide (2046 ≤ s.faults.repairs.length) then s.faults.repairSerial + 1 else s.faults.repairSerial } } := by
  rw [exec_repairRecordWrite, repairRecordWrite, if_neg hph, hq]
  exact ⟨_, rfl⟩

theorem repairRecordWrite_empty {s : State} (hq : s.faults.repairQueue = []) : exec .repairRecordWrite s = .next s := by
  rw [exec_repairRecordWrite, repairRecordWrite, hq]
  exact congrArg Host.Outcome.next (ite_self s)

/-! ## The statement -/

/-- Settles O54: its clauses in their order, each from the lemma on its form. -/
theorem unitsAreFencedAndRepaired : Obligations.UnitsAreFencedAndRepaired := by
  refine ⟨fun _ _ _ _ _ ht hact hcount hrun hhalt hk hj _ => fence_shell ht hact hcount hrun hhalt hk hj,
    fun _ _ _ _ ht hu hout => next_of_fail (fence_out ht hu hout),
    fun _ _ _ ht hin hcount => next_of_fail (fence_fewShells ht hin hcount), fun _ _ _ ht hu => next_of_fail (fence_unnamed ht hu),
    fun _ _ _ ht hact hcount => fence_aes ht hact hcount, fun _ _ _ ht hact hcount hidle => fence_decoder ht hact hcount hidle,
    fun _ i _ s ht hp hact hup htaker => ?fenceCox, fun _ _ ht => spare_answers ht,
    fun c u x s ht hr hk hu hout htests hc => ?test,
    fun _ _ _ _ ht hr hk hu hout => next_of_fail (repairTest_inService ht hu hr hk hout),
    fun _ _ _ _ ht hu h => next_of_fail (repairTest_busy ht hu h),
    fun _ _ _ _ ht hr hk hu hout htests => next_of_fail (repairTest_testing ht hu hr hk hout htests),
    fun _ _ _ ht hr hk hpassed => repairRejoin_aes ht hr hk hpassed,
    fun _ _ _ ht hr hk hpassed hcount => repairRejoin_shell ht hr hk hpassed hcount,
    fun _ _ _ _ ht hr hk hu hx => next_of_fail (repairRejoin_notPassed ht hu hr hk hx),
    fun c u x j s ht hr hk hp hu hx hj hburn => ?record,
    fun _ _ _ _ ht hr hk hu hx => next_of_fail (repairRecord_inService ht hu hr hk hx),
    fun u k s hdue hu htests => ?testStart,
    fun _ _ ok _ _ htests hu hx hb hev => selftestDone_tells htests hu hx hb hev ok,
    fun r rest s hph hq => ?recordWrite, fun _ hq => repairRecordWrite_empty hq⟩
  case fenceCox =>
    obtain ⟨log, hexec⟩ := fence_crashes ht hp hact hup htaker
    exact ⟨_, hexec, getElem_put_self .., rfl, rfl, recovering_lanesCrashed s i, rfl⟩
  case test =>
    obtain ⟨t, hexec, hfaults, hrest⟩ := repairTest_confides ht hu hr hk hout htests
    exact ⟨t, hexec, by rw [hfaults, testFaults, htests]; rfl, hrest⟩
  case record =>
    have hstart := repairStart_closes s
    refine ⟨_, repairRecord_burns ht hu hr hk hp hx hj hburn, rfl, ?_, rfl, hstart.faults, hstart.shells⟩
    rw [hstart.keys, hr]
  case testStart =>
    obtain ⟨t, hexec, hfaults, hconf, hshells, hmem⟩ := selftestStart_confides hdue hu htests
    refine ⟨t, hexec, ?_, ?_, hconf, hshells, hmem, ?_⟩ <;> rw [hfaults, testFaults]
    rw [htests]
    rfl
  case recordWrite =>
    obtain ⟨log, hexec⟩ := repairRecordWrite_writes hph hq
    refine ⟨_, hexec, rfl, rfl, fun h => ?_, fun h => ?_, rfl⟩
    · simp [Nat.not_le.mpr h]
    · simp [h]

end Sys2Proof.RepairCalls
end

section
/-! PROOFS. The host count, the lapse of the lease and the Function Level Reset (R356, R365, R367, R368, R370): what an add of the host
reaches, what a lapse makes of the lease and the lanes, what the resets of the rings empty, and the statement about them. -/

namespace Sys2Proof.LeaseEnds
open Sys2Proof Sys2Proof.Machine Sys2Proof.Laws Sys2Proof.Words Sys2Proof.ClockLoss Sys2Proof.LaneChanges Sys2Proof.EarStarts

theorem exec_tadd (n : LaneId) (v : W16) (s : State) : exec (.tadd n v) s = .next (tadd n v s) := rfl

theorem exec_leaseLapse (s : State) : exec .leaseLapse s = .next (leaseLapse s) := rfl

theorem exec_functionLevelReset (s : State) : exec .functionLevelReset s = .next (functionLevelReset s) := rfl

/-! ## The host count (R370) -/

/-- The adds to the tallies of running heats reach no count of a lane and nothing of the host link: they touch tallies, and halts
where a breakpoint hits. -/
theorem hostTallies_shellOnly (i : ShellId) (l : LaneId) (amt : Nat) (s : State) : ShellOnly i s (hostTallies l amt s) := by
  refine List.foldlRecOn (motive := ShellOnly i s) _ _ (shellOnly_refl i s) fun t ht r _ => ?_
  split
  · split
    · exact shellOnly_trans ht (tallyAdd_shellOnly t _ amt i).1
    · exact ht
  · exact ht

theorem hc_hostTallies (l : LaneId) (amt : Nat) (s : State) (k : LaneId) : ((hostTallies l amt s).lane k).hc = (s.lane k).hc := by
  obtain ⟨-, hlanes, -⟩ := hostTallies_shellOnly 0 l amt s
  rw [State.lane, hlanes k]
  rfl

theorem host_hostTallies (l : LaneId) (amt : Nat) (s : State) : (hostTallies l amt s).host = s.host := by
  obtain ⟨hst, -, -⟩ := hostTallies_shellOnly 0 l amt s
  rw [hst]

theorem tadd_counts {n : LaneId} {s : State} (ho : (s.lane n).owner = .host) (hst : (s.lane n).st = .opened) (v : W16) :
    ∃ t, exec (.tadd n v) s = .next t ∧ (t.lane n).hc = (s.lane n).hc + v.setWidth 32 ∧
      (∀ k, k ≠ n → (t.lane k).hc = (s.lane k).hc) ∧ t.host = s.host := by
  have hbook := bookLane_becomes (s := s) (l := n) (f := fun L => { L with hc := L.hc + v.setWidth 32 }) rfl
  have hadd : tadd n v s = hostTallies n v.toNat (s.bookLane n fun L => { L with hc := L.hc + v.setWidth 32 }) := if_pos ⟨ho, hst⟩
  refine ⟨_, exec_tadd n v s, ?_, fun k hk => ?_, ?_⟩ <;> rw [hadd]
  · rw [hc_hostTallies, hbook.lane]
  · rw [hc_hostTallies, hbook.others k hk]
  · rw [host_hostTallies, bookLane_host]

theorem tadd_refused {n : LaneId} {s : State} (h : (s.lane n).owner ≠ .host ∨ (s.lane n).st ≠ .opened) (v : W16) :
    exec (.tadd n v) s = .next (taddRefused n s) := by
  rw [exec_tadd, tadd, if_neg (not_and_or.mpr h)]

theorem ring_taddRefused (n : LaneId) (s : State) :
    (taddRefused n s).host.ring[n] = { s.host.ring[n] with taddRef := true } := by
  simp only [taddRefused, irq_host, signal_ring]
  exact ring_setRing_self s n _

/-! ## What leaves the lease alone -/

/-- From s to t the lanes and the fault log stay, and of the host link only its rings and the WAITs through them change: the lease,
HOST_EVCTL and HOST_IRQ stay. -/
structure RingsOnly (s t : State) : Prop where
  lanes : t.lanes = s.lanes
  faults : t.faults = s.faults
  host : ∃ ring ev waits, t.host = { s.host with ring := ring, ev := ev, waits := waits }

namespace RingsOnly

theorem refl (s : State) : RingsOnly s s := ⟨rfl, rfl, _, _, _, rfl⟩

theorem trans {s t u : State} (h : RingsOnly s t) (g : RingsOnly t u) : RingsOnly s u := by
  obtain ⟨ring, ev, waits, ht⟩ := h.host
  obtain ⟨ring', ev', waits', hu⟩ := g.host
  exact ⟨g.lanes.trans h.lanes, g.faults.trans h.faults, ring', ev', waits', by rw [hu, ht]⟩

theorem foldl {α : Type} {f : State → α → State} (hf : ∀ s x, RingsOnly s (f s x)) (l : List α) (s : State) :
    RingsOnly s (l.foldl f s) := List.foldlRecOn l f (refl s) fun t ht x _ => ht.trans (hf t x)

end RingsOnly

theorem setRing_ringsOnly (s : State) (n : LaneId) (f : Ring → Ring) : RingsOnly s (s.setRing n f) := ⟨rfl, rfl, _, _, _, rfl⟩

theorem ownerLeft_ringsOnly (l : LaneId) (s : State) : RingsOnly s (ownerLeft l s) := ⟨rfl, rfl, _, _, _, rfl⟩

theorem ringEvent_host (s : State) (x : Line) : ∃ ev, (s.ringEvent x).host = { s.host with ev := ev } := by
  unfold State.ringEvent
  dsimp only
  generalize (if x.look then (0 : Fin 2) else 1) = k
  split <;> exact ⟨_, rfl⟩

theorem raise_host (s : State) (x : Line) : ∃ ev, (s.raise x).host = { s.host with ev := ev } := by
  unfold State.raise
  split
  · simpa only [callEvent_host] using ringEvent_host (s.callEvent x) x
  · exact ⟨_, rfl⟩

theorem raise_ringsOnly (s : State) (x : Line) : RingsOnly s (s.raise x) := by
  obtain ⟨ev, hev⟩ := raise_host s x
  exact ⟨raise_lanes, raise_faults, _, ev, _, hev⟩

/-! ## The lapse (R368) -/

theorem orphan_host {L : Lane} (h : L.owner = .host) : L.orphan.st = .orphaned ∧ L.orphan.owner = .nobody := by
  rw [Lane.orphan, if_pos h]
  exact ⟨rfl, rfl⟩

theorem orphan_other {L : Lane} (h : L.owner ≠ .host) : L.orphan = L := if_neg h

/-- The lease is over: the host's lanes have become ORPHANED, and HOST_IRQ.LEASE is set. -/
def leaseOver (s : State) : State :=
  { s with
    lanes := s.lanes.map Lane.orphan
    host := { s.host with leaseActive := false, leaseLapsed := true, leaseLeft := 0, evctl := 0#2 } }.irq 6

/-- What lane l's owner leaves behind ends: its rings forget the completions that wait, and the event of the lane is raised. -/
def laneLost (s : State) (l : LaneId) : State :=
  ((ownerLeft l s).setRing l fun r => { r with out := r.out.filter fun e => e.kind != .completion }).raise
    (.evt "LANE" [laneF l, bareF "ORPHANED"])

theorem lapse_eq (s : State) : ∃ r, lapse s = (s.hostLanes.foldl laneLost (leaseOver s)).logFault r := ⟨_, rfl⟩

theorem laneLost_ringsOnly (s : State) (l : LaneId) : RingsOnly s (laneLost s l) :=
  ((ownerLeft_ringsOnly l s).trans (setRing_ringsOnly _ l _)).trans (raise_ringsOnly _ _)

theorem signal_messages (h : HostLink) (k : Fin 8) : ∃ messages, h.signal k = { h with messages := messages } := by
  unfold HostLink.signal
  split
  · split
    · exact ⟨_, rfl⟩
    · split <;> exact ⟨_, rfl⟩
  · exact ⟨_, rfl⟩

/-- What a lapse leaves: no lease but LAPSED, HOST_EVCTL 0, HOST_IRQ.LEASE set, one more record, and no lane of the host's. -/
structure Lapsed (s t : State) : Prop where
  active : t.host.leaseActive = false
  lapsed : t.host.leaseLapsed = true
  evctl : t.host.evctl = 0#2
  irq : t.host.irq.getLsbD 6 = true
  lanes : t.lanes = s.lanes.map Lane.orphan
  logNum : t.faults.logNum = s.faults.logNum + 1

theorem leaseOver_host (s : State) : ∃ messages, (leaseOver s).host = { s.host with
    leaseActive := false, leaseLapsed := true, leaseLeft := 0, evctl := 0#2
    irq := s.host.irq ||| BitVec.ofNat 8 (2 ^ (6 : Fin 8).val), messages := messages } := by
  obtain ⟨messages, hsignal⟩ := signal_messages
    { s.host with leaseActive := false, leaseLapsed := true, leaseLeft := 0, evctl := 0#2 } 6
  exact ⟨messages, by rw [leaseOver, irq_host, hsignal]⟩

theorem lapse_lapsed (s : State) : Lapsed s (lapse s) := by
  obtain ⟨r, hlapse⟩ := lapse_eq s
  obtain ⟨hlanes, hfaults, ring, ev, waits, hhost⟩ := RingsOnly.foldl laneLost_ringsOnly s.hostLanes (leaseOver s)
  obtain ⟨messages, hover⟩ := leaseOver_host s
  obtain ⟨log, hlog, -⟩ := logFault_eq (s.hostLanes.foldl laneLost (leaseOver s)) r
  rw [hover] at hhost
  rw [hlapse, hlog]
  constructor
  case lanes => exact hlanes
  case logNum => rw [hfaults]; rfl
  all_goals rw [hhost]
  case irq => exact getLsbD_or_self s.host.irq 6

theorem Lapsed.orphaned {s t : State} (h : Lapsed s t) {l : LaneId} (ho : (s.lane l).owner = .host) :
    (t.lane l).st = .orphaned ∧ (t.lane l).owner = .nobody := by
  rw [State.lane, h.lanes, Fin.getElem_fin, Vector.getElem_map]
  exact orphan_host ho

theorem Lapsed.other {s t : State} (h : Lapsed s t) {l : LaneId} (ho : (s.lane l).owner ≠ .host) : t.lane l = s.lane l := by
  rw [State.lane, h.lanes, Fin.getElem_fin, Vector.getElem_map]
  exact orphan_other ho

/-! ## LEASE_LAPSE (R367) -/

/-- The lease runs out after some time, which moves the time alone. -/
theorem elapseSlow_timed (k : Nat) (s : State) : elapseSlow k s = s.timed (elapseSlow k s) := by
  unfold elapseSlow
  split
  · exact congrArg (fun u : State => { u with free := s.free + 1 }) (passes_timed _ k 0 { s with free := s.free + 1 })
  · exact elapse_timed _ s

theorem leaseLapse_lapsed {s : State} (ha : s.host.leaseActive = true) (hf : s.rail.floor = false) : Lapsed s (leaseLapse s) := by
  have hlapse : leaseLapse s = lapse (elapseSlow s.host.leaseLeft s) := if_pos (by simp [ha, hf])
  have htimed := elapseSlow_timed s.host.leaseLeft s
  obtain ⟨hactive, hlapsed, hevctl, hirq, hlanes, hlog⟩ := lapse_lapsed (elapseSlow s.host.leaseLeft s)
  rw [hlapse]
  refine ⟨hactive, hlapsed, hevctl, hirq, ?_, ?_⟩
  · rw [hlanes, htimed]; rfl
  · rw [hlog, htimed]; rfl

theorem leaseLapse_inactive {s : State} (ha : s.host.leaseActive = false) : exec .leaseLapse s = .next s := by
  simp [exec_leaseLapse, leaseLapse, ha]

/-! ## Envelopes in progress through the lapse (R365, R368) -/

theorem busy_setRing {f : Ring → Ring} (hf : ∀ r, (f r).busy = r.busy) (s : State) (l n : LaneId) :
    (s.setRing l f).host.ring[n].busy = s.host.ring[n].busy := by
  by_cases hn : n = l
  · rw [hn, ring_setRing_self, hf]
  · rw [ring_setRing_ne s hn]

theorem busy_ownerLeft (s : State) (l n : LaneId) : (ownerLeft l s).host.ring[n].busy = s.host.ring[n].busy :=
  busy_setRing (f := fun r => { r with dones := [] }) (fun _ => rfl) s l n

theorem busy_raise (s : State) (x : Line) (n : LaneId) : (s.raise x).host.ring[n].busy = s.host.ring[n].busy := by
  obtain ⟨ev, hraise⟩ := raise_host s x
  rw [hraise]

theorem busy_laneLost (s : State) (l n : LaneId) : (laneLost s l).host.ring[n].busy = s.host.ring[n].busy := by
  rw [laneLost, busy_raise, busy_setRing, busy_ownerLeft]
  exact fun _ => rfl

theorem busy_lapse (s : State) (n : LaneId) : (lapse s).host.ring[n].busy = s.host.ring[n].busy := by
  obtain ⟨r, hlapse⟩ := lapse_eq s
  obtain ⟨messages, hover⟩ := leaseOver_host s
  obtain ⟨log, hlog, -⟩ := logFault_eq (s.hostLanes.foldl laneLost (leaseOver s)) r
  rw [hlapse, hlog]
  refine List.foldlRecOn (motive := fun t : State => t.host.ring[n].busy = s.host.ring[n].busy) _ _ ?_ fun t ht l _ => ?_
  · rw [hover]
  · rw [busy_laneLost, ht]

/-! ## Resets of the rings (R365) -/

theorem ringReset_ringsOnly (n : LaneId) (s : State) : RingsOnly s (ringReset n s) := by
  unfold ringReset
  dsimp only
  split
  · exact ⟨rfl, rfl, _, _, _, rfl⟩
  · exact .refl s

theorem ringAsked_ringsOnly (s : State) (n : LaneId) : RingsOnly s (ringAsked n s) :=
  (setRing_ringsOnly s n _).trans (ringReset_ringsOnly n _)

theorem ring_ringReset_ne {k n : LaneId} (h : k ≠ n) (s : State) : (ringReset n s).host.ring[k] = s.host.ring[k] := by
  unfold ringReset
  dsimp only
  split
  · exact ring_setRing_ne _ h _
  · rfl

theorem ring_ringAsked_ne {k n : LaneId} (h : k ≠ n) (s : State) : (ringAsked n s).host.ring[k] = s.host.ring[k] :=
  (ring_ringReset_ne h _).trans (ring_setRing_ne s h _)

theorem ring_ringReset_idle {n : LaneId} {s : State} (hreq : s.host.ring[n].resetReq = true) (h : s.host.ring[n].busy = none) :
    (ringReset n s).host.ring[n] = s.host.ring[n].zeroed := by
  rw [ringReset, if_pos (by simp only [hreq, h, Option.isNone_none, Bool.true_or, Bool.and_true])]
  exact ring_setRing_self _ n _

theorem ring_ringAsked_idle {n : LaneId} {s : State} (h : s.host.ring[n].busy = none) :
    (ringAsked n s).host.ring[n] = s.host.ring[n].zeroed := by
  have hring := ring_setRing_self s n fun r => { r with resetReq := true }
  rw [ringAsked, ring_ringReset_idle (by rw [hring]) (by rw [hring]; exact h), hring]
  rfl

/-- A ring without an envelope in progress is emptied by a reset of every ring in a list that names it. -/
theorem ring_foldl_ringAsked {n : LaneId} {ns : List LaneId} {s : State} (h : s.host.ring[n].busy = none) :
    (ns.foldl (fun s n => ringAsked n s) s).host.ring[n] = if n ∈ ns then s.host.ring[n].zeroed else s.host.ring[n] := by
  induction ns generalizing s with
  | nil => rfl
  | cons m ms ih =>
    rw [List.foldl_cons]
    by_cases hm : n = m
    · subst hm
      have hself := ring_ringAsked_idle h
      rw [ih (by rw [hself]; rfl), hself, if_pos List.mem_cons_self]
      exact ite_self _
    · have hother := ring_ringAsked_ne hm s
      rw [ih (by rw [hother, h]), hother]
      simp [hm]

/-! ## FUNCTION_LEVEL_RESET (R356) -/

theorem functionLevelReset_qspi {s : State} (hq : s.host.qspi = true) : exec .functionLevelReset s = .next s := by
  rw [exec_functionLevelReset, functionLevelReset, if_pos hq]

/-- Every ring is reset. -/
def ringsAsked (s : State) : State := (List.finRange 4).foldl (fun s n => ringAsked n s) s

theorem ringsAsked_ringsOnly (s : State) : RingsOnly s (ringsAsked s) := RingsOnly.foldl ringAsked_ringsOnly _ s

theorem ring_ringsAsked {n : LaneId} {s : State} (h : s.host.ring[n].busy = none) :
    (ringsAsked s).host.ring[n] = s.host.ring[n].zeroed := by
  rw [ringsAsked, ring_foldl_ringAsked h, if_pos (List.mem_finRange n)]

theorem functionLevelReset_active {s : State} (hq : s.host.qspi = false) (ha : s.host.leaseActive = true) :
    functionLevelReset s = (ringsAsked (lapse s)).setHost fun h => { h with evctl := 0#2 } := by
  simp only [functionLevelReset, hq, ha, Bool.false_eq_true, if_false, if_true, ringsAsked]

theorem functionLevelReset_lapses {s : State} (hq : s.host.qspi = false) (ha : s.host.leaseActive = true) :
    Lapsed s (functionLevelReset s) := by
  obtain ⟨hactive, hlapsed, hevctl, hirq, hlanes, hlog⟩ := lapse_lapsed s
  obtain ⟨glanes, gfaults, ring, ev, waits, ghost⟩ := ringsAsked_ringsOnly (lapse s)
  rw [functionLevelReset_active hq ha]
  constructor <;> simp only [setHost_host, setHost_lanes, setHost_faults, *]

theorem functionLevelReset_empties {n : LaneId} {s : State} (hq : s.host.qspi = false) (ha : s.host.leaseActive = true)
    (h : s.host.ring[n].busy = none) : (functionLevelReset s).host.ring[n] = (lapse s).host.ring[n].zeroed := by
  have hframe : (functionLevelReset s).host.ring = (ringsAsked (lapse s)).host.ring := by
    rw [functionLevelReset_active hq ha, setHost_host]
  rw [hframe]
  exact ring_ringsAsked ((busy_lapse s n).trans h)

/-! ## The statement -/

/-- Settles O52: its clauses in their order, each from the lemma on its form. -/
theorem leasesLapse : Obligations.LeasesLapse := by
  refine ⟨fun _ v _ ho hst => tadd_counts ho hst v,
    fun n v s h => ⟨_, tadd_refused h v, ring_taddRefused n s, rfl, rfl, rfl⟩,
    fun s ha hf => ?lapse, fun _ ha => leaseLapse_inactive ha, fun s hq ha => ?reset, fun _ hq => functionLevelReset_qspi hq⟩
  case lapse =>
    have h := leaseLapse_lapsed ha hf
    exact ⟨_, exec_leaseLapse s, h.active, h.lapsed, h.evctl, h.irq, h.logNum, fun _ ho => h.orphaned ho,
      fun _ ho => ⟨congrArg Lane.st (h.other ho), congrArg Lane.owner (h.other ho)⟩⟩
  case reset =>
    have h := functionLevelReset_lapses hq ha
    refine ⟨_, exec_functionLevelReset s, h.active, h.lapsed, h.evctl, fun _ ho => (h.orphaned ho).1, fun n hn => ?_⟩
    rw [functionLevelReset_empties hq ha hn]
    exact ⟨rfl, rfl, rfl⟩

end Sys2Proof.LeaseEnds
end

section
/-! PROOFS. The step of an empty queue (R455, R31): one REF tick, steady or drifting, and the statement about it; and that no step
un-burns a fuse (R462). -/

namespace Sys2Proof.Ticks
open Sys2Proof Sys2Proof.Machine Sys2Proof.Laws Sys2Proof.Memories Sys2Proof.EarStarts

/-! ## One tick -/

theorem step_of_empty {s : State} (hq : s.pending = []) : step s = .next (if s.start.vddAo then elapse 1 s else s) := by
  simp only [step, hq]

theorem step_of_empty_powered {s : State} (hq : s.pending = []) (hv : s.start.vddAo = true) : step s = .next (elapse 1 s) := by
  rw [step_of_empty hq, if_pos hv]

theorem elapse_steady {s : State} (h : s.clk.drifts = false) (n : Nat) :
    elapse n s = passes n (s.clk.edges n).1 (s.clk.edges n).2 s := by
  rw [elapse, if_neg (by rw [h]; decide)]

/-- SLOW edges and their remainder, in thousandths, over n ticks that each take d thousandths of their nominal time. -/
def driftEdges (n d : Nat) (c : Clocks) : Nat := (c.slowDiv * 1000 + 8 * n * d) / 1000

theorem elapse_drifting {s : State} (h : s.clk.drifts = true) (n : Nat) :
    elapse n s = passes n (driftEdges n (drift s.free) s.clk / 9375) (driftEdges n (drift s.free) s.clk % 9375)
      { s with free := s.free + 1 } := by
  rw [elapse, if_pos h]
  rfl

theorem drift_bounds (x : Nat) : 910 ≤ drift x ∧ drift x < 1112 := by
  have := Nat.mod_lt (Config.freeWord x).toNat (show 202 > 0 by decide)
  unfold drift
  omega

theorem slow_passes (ticks edges left : Nat) (s : State) :
    (passes ticks edges left s).clk.slow = s.clk.slow + BitVec.ofNat 32 edges := rfl

theorem slowDiv_passes (ticks edges left : Nat) (s : State) : (passes ticks edges left s).clk.slowDiv = left := rfl

/-! ## The statements -/

/-- Settles O2: a tick of the exact divider, a tick that drifts, and none without VDD_AO. -/
theorem idleStepIsOneTick : Obligations.IdleStepIsOneTick := by
  refine ⟨fun s hq hv hsteady => ⟨_, step_of_empty_powered hq hv, tick_elapse 1 s, ?_, ?_, ?_⟩,
    fun s hq hv hdrift => ⟨_, _, step_of_empty_powered hq hv, tick_elapse 1 s, (drift_bounds s.free).1, (drift_bounds s.free).2, ?_, ?_⟩,
    fun s hq hv => by rw [step_of_empty hq, hv, if_neg (by decide)]⟩
  · rw [elapse_steady hsteady, slow_passes]
    rfl
  · rw [elapse_steady hsteady, slowDiv_passes]
    rfl
  · rw [elapse_steady hsteady]
    exact passes_timed ..
  · rw [elapse_drifting hdrift, slow_passes, driftEdges, Nat.mul_one]
  · rw [elapse_drifting hdrift]
    exact passes_timed ..

/-- Settles O7: what every command and every tick keeps holds the burnt fuses. -/
theorem fusesStayBurnt : Obligations.FusesStayBurnt :=
  fun s _ k hk h => (step_keeps h).otp k (show k ∈ s.popped.fuse.otp from hk)

end Sys2Proof.Ticks
end

section
/-! PROOFS. The domain that reports ready (R406), and the rotation that PD_MEM's return begins again (R256): the statement on
bring-ups names no domain, and has the memory block stay. -/

namespace Sys2Proof.DomainReady
open Sys2Proof Sys2Proof.Machine

theorem exec_domainReady (d : Dom) (s : State) : exec (.domainReady d) s = .next (domainReady d s) := rfl

/-- PD_MEM is up, and the sweeps that were copying begin their block again. -/
theorem domainReady_mem {s : State} (h : s.power.waking.getLsbD Dom.mem.val = true) :
    domainReady Dom.mem s = rotationResume { s with power := s.power.ready Dom.mem } := by
  rw [domainReady, if_pos h]
  exact if_pos rfl

/-- A lane's rotation that has copied part of block 5. -/
def copyingSweep : Sweep := { kind := .lane 1, old := 1, new := 2, region := none, phase := .copy, block := 5, started := some 0#64 }

/-- PD_MEM comes up, alone, in the middle of that rotation. -/
def copyingBack : State :=
  { State.reset with power := { waking := domBit Dom.mem }, mem := { sweeps := [copyingSweep] } }

/-- Refutes O11, in its clause on DOMAIN_READY with no domain queued: as PD_MEM of `copyingBack` comes up, the block in COPY is begun
again (R256), where the statement has nothing but the power block change. -/
theorem not_powerDomainsComeUp : ¬ Obligations.PowerDomainsComeUp := by
  rintro ⟨-, -, -, hready, -⟩
  have hexec := hready Dom.mem copyingBack (by decide) rfl
  rw [exec_domainReady, domainReady_mem (by decide)] at hexec
  have hsweeps : [{ copyingSweep with phase := .idle, started := none }] = [copyingSweep] :=
    congrArg (fun u : State => u.mem.sweeps) (Host.Outcome.next.inj hexec)
  exact absurd hsweeps (by decide)

end Sys2Proof.DomainReady
end

section
/-! PROOFS. The warm reset that is asked for (R342, R410): it waits for the replies of both paths, and the statement on resets asks
for an idle CALL_TX alone. -/

namespace Sys2Proof.WarmWaits
open Sys2Proof Sys2Proof.Machine

theorem exec_warmReset (s : State) : exec .warmReset s = .next (warmResetDo s) := rfl

theorem replyWaits_of_mem {s : State} {n : LaneId} {e : RingEntry} (h : e ∈ s.host.ring[n].out) (hk : e.kind = .reply) :
    s.replyWaits = true :=
  Vector.any_eq_true.mpr ⟨n.val, n.isLt, List.any_eq_true.mpr ⟨e, h, by rw [hk]; rfl⟩⟩

/-- While a reply waits in a host ring the warm reset does not start (R342). -/
theorem warmResetDo_of_replyWaits {s : State} (h : s.replyWaits = true) : warmResetDo s = s := by
  unfold warmResetDo
  split
  · rw [h, Bool.not_true, Bool.and_false, if_neg (by decide)]
  · rfl

/-- The reply of RESET WARM, for host ring 1. -/
def resetReply : RingEntry := { kind := .reply, seq := 0#32, line := okLine Caller.line "RESET" [bareF "WARM"], last := none }

/-- The host has asked for a warm reset, CALL_TX is idle, and the reply still waits in ring 1. -/
def askedByHost : State :=
  { State.reset with start := { warmPending := some .resetWarm, superA := some 1, banner := true, phase := .up } }.setRing 1
    fun r => { r with out := [resetReply] }

theorem replyWaits_askedByHost : askedByHost.replyWaits = true :=
  replyWaits_of_mem (n := 1) (e := resetReply) (by decide) rfl

/-- Refutes O9, in its clause on a warm reset with a valid superblock copy: the reply that waits in `askedByHost` holds the reset back
(R342), where the statement has START be 2. -/
theorem not_resetsInitialise : ¬ Obligations.ResetsInitialise := by
  rintro ⟨-, -, -, hwarm, -, -⟩
  obtain ⟨t, hexec, hstart, -⟩ := hwarm askedByHost .resetWarm rfl rfl rfl
  rw [exec_warmReset, warmResetDo_of_replyWaits replyWaits_askedByHost] at hexec
  obtain rfl := Host.Outcome.next.inj hexec
  exact absurd hstart (by decide)

end Sys2Proof.WarmWaits
end

section
/-! PROOFS. The core rail: a request's transactions, its reading, its retries and its end (R399, R400), and what PG_CORE and
PM_ALERT_N leave (R402, R403), with the two statements about them. -/

namespace Sys2Proof.RailRequests
open Sys2Proof Sys2Proof.Machine Sys2Proof.Laws Sys2Proof.Floor Sys2Proof.ClockLoss Sys2Proof.Answers

theorem exec_railRequest (mv : Nat) (s : State) : exec (.railRequest mv) s = .next (railRequest mv s) := rfl

theorem exec_pmbusTransactionDone (ack : Bool) (m : Byte) (s : State) :
    exec (.pmbusTransactionDone ack m) s = .next (pmbusDone ack m s) := rfl

theorem exec_railConfirm (mv : BitVec 10) (s : State) : exec (.railConfirm mv) s = .next (railConfirm mv s) := rfl

theorem exec_railRetry (s : State) : exec .railRetry s = .next (railRetry s) := rfl

theorem exec_railFrozenRetry (s : State) : exec .railFrozenRetry s = .next (frozenRetry s) := rfl

theorem exec_pgCoreLow (mv : BitVec 10) (s : State) : exec (.pgCoreLow mv) s = .next (pgCoreLow mv s) := rfl

theorem exec_pmAlert (w : W16) (s : State) : exec (.pmAlert w) s = .next (pmAlert w s) := rfl

/-! ## Events: the Call line, the event rings and the events kept for the banner alone change (R340, R412) -/

theorem callEvent_frame (s : State) (l : Line) : ∃ call, s.callEvent l = { s with call := call } := by
  unfold State.callEvent
  split
  · split
    · obtain ⟨call, hprompt⟩ := prompt_frame ((s.txChars [0x0D#8, 0x0A#8]).tx l)
      rw [hprompt]
      exact ⟨_, rfl⟩
    · exact ⟨_, rfl⟩
  · exact ⟨_, rfl⟩

theorem ringEvent_frame (s : State) (l : Line) : ∃ host, s.ringEvent l = { s with host := host } := by
  unfold State.ringEvent
  generalize (if l.look = true then (0 : Fin 2) else 1) = k
  dsimp only
  split <;> exact ⟨_, rfl⟩

theorem raise_frame (s : State) (l : Line) :
    ∃ early call host, s.raise l = { s with start := { s.start with early := early }, call := call, host := host } := by
  unfold State.raise
  split
  · obtain ⟨call, hcall⟩ := callEvent_frame s l
    obtain ⟨host, hring⟩ := ringEvent_frame (s.callEvent l) l
    rw [hring, hcall]
    exact ⟨_, call, host, rfl⟩
  · exact ⟨_, _, _, rfl⟩

/-! ## A record of cause rail fault -/

/-- The record of a rail fault with its detail is the log's newest, and nothing else changes. -/
theorem logFault_railRec (s u : State) (n : Nat) (hnum : u.faults.logNum = s.faults.logNum) :
    ∃ log, s.logFault (railRec u n) = { s with faults := { s.faults with log := log, logNum := s.faults.logNum + 1 } } ∧
      ∃ r ∈ log, r.cause = some .railFault ∧ r.detail = BitVec.ofNat 64 n ∧ r.number = s.faults.logNum + 1 := by
  obtain ⟨log, hlog, hmem⟩ := logFault_eq s (railRec u n)
  exact ⟨log, hlog, _, hmem, rfl, rfl, congrArg (· + 1) hnum⟩

/-! ## Requests (R400) -/

theorem railRequest_idle {s : State} (h : s.rail.req = none) (mv : Nat) : railRequest mv s = railSend mv 0 s := by
  rw [railRequest, h, Option.isSome_none, if_neg (by decide)]

theorem railRequest_inFlight {s : State} {q : RailReq} (h : s.rail.req = some q) (mv : Nat) :
    railRequest mv s = s.setRail fun r => { r with due := some mv } := by
  rw [railRequest, h, Option.isSome_some, if_pos rfl]

theorem railNext_alone {s : State} (h : s.rail.due = none) : railNext s = s.setRail fun r => { r with req := none } := by
  rw [railNext, h]

/-- An attempt that fails, of a request that may be sent again, waits for its retry. -/
theorem railFailed_again {s : State} {q : RailReq} (h : s.rail.req = some q) (hlt : q.attempt < 3) :
    railFailed s = s.setRail fun r => { r with req := some { q with stage := .retryWait } } := by
  rw [railFailed, h]
  exact if_pos hlt

/-- The rail as a request that is given up leaves it. -/
def railFrozen (s : State) : State := s.setRail fun r => { r with gov := .frozen, fault := true, due := none, req := none }

/-- After the third retry the governor freezes, an event tells it, and a record is written. -/
theorem railFailed_last {s : State} {q : RailReq} (h : s.rail.req = some q) (hlast : q.attempt = 3) (hgov : s.rail.gov ≠ .frozen) :
    railFailed s = ((railFrozen s).raise (Line.evt "RAIL FAULT" [])).logFault (railRec (railFrozen s) 0) := by
  rw [railFailed, h]
  dsimp only
  rw [if_neg (by omega), if_neg hgov]
  rfl

theorem railRetry_sends {s : State} {q : RailReq} (h : s.rail.req = some q) (hst : q.stage = .retryWait) :
    railRetry s = railSend q.mv (q.attempt + 1) s := by
  rw [railRetry, h]
  exact if_pos hst

theorem frozenRetry_sends {s : State} (hgov : s.rail.gov = .frozen) (hreq : s.rail.req = none) :
    frozenRetry s = railSend s.rail.confirmed.toNat 3 s := if_pos ⟨hgov, hreq⟩

/-! ## The end of a request's transactions (R399) -/

/-- VOUT_MODE has been read at a first contact. -/
def contacted (md : Byte) (s : State) : State := s.setRail fun r => { r with voutMode := md, voutKnown := true }

theorem contacted_of_known {s : State} (h : s.rail.voutKnown = true) : contacted s.rail.voutMode s = s := by
  rw [contacted, State.setRail, ← h]

theorem alertDue_idle {s : State} (h : s.rail.alert = none) : alertDue s = s := by rw [alertDue, h]

section
variable {m md : Byte} {q : RailReq} {s : State} (hreq : s.rail.req = some q) (hst : q.stage = .sending)
include hreq hst

theorem pmbusEnd_acked (hmd : (if s.rail.voutKnown then s.rail.voutMode else m) = md) : pmbusEnd true m s =
    if linear16 md then
      railReading ((contacted md s).setRail fun r => { r with
        req := some { q with stage := .settling }, pmbLast := railBytes (contacted md s) q.mv })
    else railFailed (contacted md s) := by
  have hcontact : (if (s.rail.voutKnown || !true) = true then s else s.setRail fun r => { r with voutMode := m, voutKnown := true }) =
      contacted md s := by
    cases hknown : s.rail.voutKnown with
    | true =>
      rw [hknown, if_pos rfl] at hmd
      rw [← hmd, contacted_of_known hknown]
      rfl
    | false =>
      rw [hknown, if_neg (by decide)] at hmd
      rw [← hmd]
      rfl
  have hreq' : (contacted md s).rail.req = some q := hreq
  unfold pmbusEnd
  simp only [hcontact, hreq', hst]
  rfl

theorem pmbusEnd_unacked : pmbusEnd false m s = railFailed s := by
  unfold pmbusEnd
  simp [hreq, hst]

end

/-! ## The reading that confirms (R400, R403) -/

theorem railMeasured_steady {mv : BitVec 10} {s : State} (hmv : 500 ≤ mv.toNat) (hfloor : s.rail.floor = false) :
    railMeasured mv s = s.setRail fun r => { r with meas := mv } := by
  simp only [railMeasured, setRail_rail, if_neg (Nat.not_lt.mpr hmv), hfloor, Bool.false_eq_true, if_false]

/-- A reading moves neither the request, nor what waits, nor the governor. -/
theorem railMeasured_rail (mv : BitVec 10) (s : State) : ∃ floor faultN,
    (railMeasured mv s).rail = { s.rail with meas := mv, floor := floor, faultN := faultN } := by
  unfold railMeasured
  dsimp only
  split
  · exact ⟨_, _, rfl⟩
  · split <;> exact ⟨_, _, rfl⟩

theorem railConfirmed_alone {s : State} {q : RailReq} (h : s.rail.req = some q) (hdue : s.rail.due = none) :
    railConfirmed s = s.setRail fun r => { r with
      req := none, confirmed := BitVec.ofNat 10 q.mv, fault := false
      gov := if r.gov = .frozen then (if bit r.ctrl 31 then .fixed else .auto) else r.gov } := by
  rw [railConfirmed, h]
  dsimp only
  rw [railNext_alone]
  · rfl
  · exact hdue

theorem railConfirm_settling {mv : BitVec 10} {s : State} {q : RailReq} (h : s.rail.req = some q) (hst : q.stage = .settling) :
    railConfirm mv s =
      if mv.toNat ≤ q.mv + 15 ∧ q.mv ≤ mv.toNat + 15 then railConfirmed (railMeasured mv (railRead s))
      else railFailed (railMeasured mv (railRead s)) := by
  rw [railConfirm, h]
  exact if_pos hst

/-! ## The statement on requests -/

/-- Settles O13: its clauses in their order, each from the lemma on its step. -/
theorem railRequestsRun : Obligations.RailRequestsRun := by
  refine ⟨fun mv s hreq => congrArg _ (railRequest_idle hreq mv),
    fun mv q s hreq => congrArg _ (railRequest_inFlight hreq mv),
    fun m md q s hreq hst hmd hlin halert => ?settles,
    fun m md q s hreq hst hmd hlin hlt halert => ?mode,
    fun m q s hreq hst hlt halert => ?unacked,
    fun mv q s u hreq hst hhi hlo hdue hu => ?confirms,
    fun mv q s u hreq hst hfar hlt hu => ?far,
    fun mv s hmv hfloor => railMeasured_steady (s := railRead s) hmv hfloor,
    fun q s hreq hst => congrArg _ (railRetry_sends hreq hst),
    fun m q s hreq hst hlast hgov halert => ?frozen,
    fun s hgov hreq => ?resent⟩
  case settles =>
    rw [exec_pmbusTransactionDone, pmbusDone, pmbusEnd_acked hreq hst hmd, if_pos hlin, alertDue_idle]
    · rfl
    · exact halert
  case mode =>
    rw [exec_pmbusTransactionDone, pmbusDone, pmbusEnd_acked hreq hst hmd, hlin, if_neg (by decide),
      railFailed_again (s := contacted md s) hreq hlt, alertDue_idle]
    · rfl
    · exact halert
  case unacked =>
    rw [exec_pmbusTransactionDone, pmbusDone, pmbusEnd_unacked hreq hst, railFailed_again hreq hlt, alertDue_idle]
    · rfl
    · exact halert
  case confirms =>
    obtain ⟨floor, faultN, hrail⟩ := railMeasured_rail mv (railRead s)
    rw [hu] at hrail
    rw [exec_railConfirm, railConfirm_settling hreq hst, if_pos ⟨hhi, hlo⟩, hu, railConfirmed_alone (q := q)]
    · rw [State.setRail, hrail]
      rfl
    · rw [hrail]; exact hreq
    · rw [hrail]; exact hdue
  case far =>
    obtain ⟨floor, faultN, hrail⟩ := railMeasured_rail mv (railRead s)
    rw [hu] at hrail
    rw [exec_railConfirm, railConfirm_settling hreq hst, if_neg hfar, hu, railFailed_again (q := q)]
    · rfl
    · rw [hrail]; exact hreq
    · exact hlt
  case frozen =>
    obtain ⟨early, call, host, hraise⟩ := raise_frame (railFrozen s) (Line.evt "RAIL FAULT" [])
    obtain ⟨log, hlog, r, hmem, hcause, -, hnum⟩ :=
      logFault_railRec ((railFrozen s).raise (Line.evt "RAIL FAULT" [])) (railFrozen s) 0 (congrArg Faults.logNum raise_faults.symm)
    rw [hraise] at hlog hnum
    have hexec := exec_pmbusTransactionDone false m s
    rw [pmbusDone, pmbusEnd_unacked hreq hst, railFailed_last hreq hlast hgov, hraise, hlog, alertDue_idle] at hexec
    · exact ⟨_, hexec, rfl, rfl, ⟨r, hmem, hcause, hnum⟩, rfl⟩
    · exact halert
  case resent =>
    rw [exec_railFrozenRetry, frozenRetry_sends hgov hreq, railSend, BitVec.ofNat_toNat, BitVec.setWidth_eq]
    rfl

/-! ## PG_CORE and PM_ALERT_N (R402) -/

theorem pgCoreLow_waiting {s : State} (h : s.start.phase = .waitPower) (mv : BitVec 10) :
    pgCoreLow mv s = s.setRail fun r => { r with pgCore := false, meas := mv } := if_pos h

/-- With power the reading u of a low PG_CORE is recorded. -/
theorem pgCoreLow_powered {mv : BitVec 10} {s u : State} (hph : s.start.phase ≠ .waitPower)
    (hu : railMeasured mv (s.setRail fun r => { r with pgCore := false }) = u) :
    ∃ log, exec (.pgCoreLow mv) s = .next { u with faults := { u.faults with log := log, logNum := u.faults.logNum + 1 } } ∧
      ∃ r ∈ log, r.cause = some .railFault ∧ r.detail = BitVec.ofNat 64 mv.toNat ∧ r.number = u.faults.logNum + 1 := by
  obtain ⟨log, hlog, hrec⟩ := logFault_railRec u u mv.toNat rfl
  refine ⟨log, ?_, hrec⟩
  rw [exec_pgCoreLow, ← hlog, ← hu]
  exact congrArg _ (if_neg hph)

theorem pmAlert_sending {s : State} (h : s.railSending = true) (w : W16) :
    pmAlert w s = s.setRail fun r => { r with alert := some w } := if_pos h

theorem pmAlert_idle {s : State} (h : s.railSending = false) (w : W16) : pmAlert w s = alertServe w s := by
  rw [pmAlert, h, if_neg (by decide)]

/-! ## The statement on faults -/

/-- Settles O14: its clauses in their order, each a reading or an alert and the record of it. -/
theorem railFaultsAreRecorded : Obligations.RailFaultsAreRecorded := by
  refine ⟨fun mv s hph hmv hfloor => ?steady, fun mv s hph hmv => ?floor,
    fun mv s hph => congrArg _ (pgCoreLow_waiting hph mv), fun w s hidle => ?alert,
    fun w s hsend => congrArg _ (pmAlert_sending hsend w)⟩
  case steady =>
    obtain ⟨log, hexec, hrec⟩ := pgCoreLow_powered hph (railMeasured_steady hmv hfloor)
    exact ⟨_, hexec, rfl, rfl, hrec, rfl⟩
  case floor =>
    obtain ⟨log, hexec, hrec⟩ := pgCoreLow_powered hph (railMeasured_of_lt hmv _)
    exact ⟨_, hexec, rfl, rfl, hrec, rfl⟩
  case alert =>
    obtain ⟨log, hlog, hrec⟩ := logFault_railRec s s w.toNat rfl
    have hexec := exec_pmAlert w s
    rw [pmAlert_idle hidle, alertServe, hlog] at hexec
    exact ⟨_, hexec, rfl, rfl, hrec, rfl⟩

end Sys2Proof.RailRequests
end

section
/-! PROOFS. Timers and triggers (R459 to R461): a channel's start, stop, period and compare events, the pulse on TRIG_OUT, TRIG_IN,
the TRIG calls (R346), and the statement about them. -/

namespace Sys2Proof.Triggers
open Sys2Proof Sys2Proof.Machine Sys2Proof.Laws Sys2Proof.Registers Sys2Proof.Words Sys2Proof.EarStarts Sys2Proof.EarCapture
  Sys2Proof.Answers

theorem exec_tmrStart (p : Path) (m : Byte) (s : State) : exec (.tmrStart p m) s = .next (tmrStart p m s) := rfl

theorem exec_tmrStop (p : Path) (m : Byte) (s : State) : exec (.tmrStop p m) s = .next (tmrStop p m s) := rfl

theorem exec_periodEvent (n : Fin 8) (s : State) : exec (.periodEvent n) s = .next (periodEvent n s) := rfl

theorem exec_compareEvent (n : Fin 8) (s : State) : exec (.compareEvent n) s = .next (compareEvent n s) := rfl

theorem exec_trigOutPulseEnd (s : State) : exec .trigOutPulseEnd s = .next (trigOutPulseEnd s) := rfl

theorem exec_trigInEdge (b : Bool) (s : State) : exec (.trigInEdge b) s = .next (trigInEdge b s) := rfl

theorem exec_trigState (c : Caller) (s : State) : exec (.trigState c) s = .next (doTrigState c s) := rfl

theorem exec_trigTmr (c : Caller) (n : Fin 8) (a b : Option Nat) (o : Option Bool) (s : State) :
    exec (.trigTmr c n a b o) s = .next (doTrigTmr c n a b o s) := rfl

theorem exec_trigOut (c : Caller) (n : Option (Fin 8)) (s : State) : exec (.trigOut c n) s = .next (doTrigOut c n s) := rfl

theorem exec_trigPulse (c : Caller) (w : Option Nat) (s : State) : exec (.trigPulse c w) s = .next (doTrigPulse c w s) := rfl

/-! ## Starts and stops (R459) -/

theorem chan_tmrStart (p : Path) (m : Byte) (s : State) (n : Fin 8) : (tmrStart p m s).tmr.chan[n] =
    if (m.getLsbD n.val && s.tmrMay p n) = true then s.tmr.chan[n].begun else s.tmr.chan[n] := getElem_mapIdx ..

theorem chan_tmrStop (p : Path) (m : Byte) (s : State) (n : Fin 8) : (tmrStop p m s).tmr.chan[n] =
    if (m.getLsbD n.val && s.tmrMay p n && s.tmr.chan[n].running) = true then s.tmr.chan[n].stop else s.tmr.chan[n] := getElem_mapIdx ..

theorem begun_of_period {c : TmrChan} (h : c.period ≠ 0#32) : c.begun = { c with running := true, count := 0#32 } := if_neg h

/-- A channel starts where its bit is written by who may, and its PERIOD is not 0. -/
theorem started_iff (x : Prop) [Decidable x] (c : TmrChan) :
    (if x then c.begun else c) = if x ∧ c.period ≠ 0#32 then { c with running := true, count := 0#32 } else c := by
  by_cases hx : x
  · by_cases hp : c.period = 0#32
    · rw [if_pos hx, if_neg fun h => h.2 hp, TmrChan.begun, if_pos hp]
    · rw [if_pos hx, if_pos ⟨hx, hp⟩, begun_of_period hp]
  · rw [if_neg hx, if_neg fun h => hx h.1]

/-! ## Time that goes on to an event (R459) -/

theorem elapse_tmr (n : Nat) (s : State) : (elapse n s).tmr = s.tmr.advance n := by
  unfold elapse
  split <;> rfl

/-- TMR_TRIGOUT's SRC and WIDTH stay as time passes. -/
theorem elapse_trigOut (n : Nat) (s : State) :
    (elapse n s).tmr.trigSrc = s.tmr.trigSrc ∧ (elapse n s).tmr.trigWidth = s.tmr.trigWidth := by
  rw [elapse_tmr]
  exact ⟨rfl, rfl⟩

theorem elapse_eye (n : Nat) (s : State) : (elapse n s).eye = s.eye := by rw [elapse_timed]; rfl

theorem elapse_mem (n : Nat) (s : State) : (elapse n s).mem = s.mem := by rw [elapse_timed]; rfl

theorem elapse_lanes (n : Nat) (s : State) : (elapse n s).lanes = s.lanes := by rw [elapse_timed]; rfl

theorem chan_elapse (k : Nat) (s : State) (n : Fin 8) : (elapse k s).tmr.chan[n] = s.tmr.chan[n].advance k := by
  rw [elapse_tmr]
  exact Vector.getElem_map ..

/-- What a period event leaves of a channel does not depend on the ticks that it has counted. -/
theorem wrap_advance (k : Nat) (c : TmrChan) : (c.advance k).wrap = c.wrap := by
  unfold TmrChan.advance
  split <;> rfl

theorem wrap_again {c : TmrChan} (hone : c.oneshot = false) (hper : c.period ≠ 0#32) (hnext : c.periodNext = none) :
    c.wrap.count = 0#32 ∧ c.wrap.running = c.running ∧ c.wrap.period = c.period := by
  have hgo : (c.oneshot || c.period == 0#32) = false := by rw [hone, beq_false_of_ne hper]; rfl
  simp [TmrChan.wrap, TmrChan.settle, hnext, hgo]

theorem wrap_oneshot {c : TmrChan} (hone : c.oneshot = true) : c.wrap.count = 0#32 ∧ c.wrap.running = false := by
  simp [TmrChan.wrap, TmrChan.settle, hone]

/-- A channel counts on to a value up to its PERIOD. -/
theorem count_advance {c : TmrChan} {v : W32} (hrun : c.running = true) (hfrom : c.count.toNat ≤ v.toNat) (hto : v.toNat ≤ c.period.toNat)
    (hper : c.period ≠ 0#32) : (c.advance (v.toNat - c.count.toNat)).count = v := by
  have hgo : (c.running && !(c.period == 0#32)) = true := by rw [hrun, beq_false_of_ne hper]; rfl
  have hmin : Nat.min (c.count.toNat + (v.toNat - c.count.toNat)) c.period.toNat = v.toNat := by
    rw [Nat.add_sub_cancel' hfrom]
    exact Nat.min_eq_left hto
  rw [TmrChan.advance, if_pos hgo, hmin]
  exact BitVec.ofNat_toNat ..

/-! ## The event of a channel (R459, R460) -/

theorem tmrEvent_pulses {n : Fin 8} {s : State} (h : s.tmr.trigSrc.toNat = n.val + 1) :
    tmrEvent n s = trigPulse (s.fires (n.val + 1) s.now) := if_pos h

theorem tmrEvent_silent {n : Fin 8} {s : State} (h : s.tmr.trigSrc.toNat ≠ n.val + 1) :
    tmrEvent n s = s.fires (n.val + 1) s.now := if_neg h

/-- The time has come to channel n's period event, and the channel has begun again or stopped. -/
def wrapped (n : Fin 8) (s : State) : State :=
  (elapse (s.tmr.chan[n].period.toNat - s.tmr.chan[n].count.toNat) s).setChan n TmrChan.wrap

theorem chan_wrapped (n : Fin 8) (s : State) : (wrapped n s).tmr.chan[n] = s.tmr.chan[n].wrap := by
  rw [← wrap_advance (s.tmr.chan[n].period.toNat - s.tmr.chan[n].count.toNat), ← chan_elapse]
  exact getElem_upd_self ..

theorem periodEvent_due {n : Fin 8} {s : State} (hrun : s.tmr.chan[n].running = true) (hper : s.tmr.chan[n].period ≠ 0#32) :
    periodEvent n s =
      if (!s.tmr.chan[n].evsel || s.tmr.chan[n].compare == 0#32) = true then tmrEvent n (wrapped n s) else wrapped n s := by
  have hgo : (s.tmr.chan[n].running && !(s.tmr.chan[n].period == 0#32)) = true := by rw [hrun, beq_false_of_ne hper]; rfl
  exact if_pos hgo

theorem compareEvent_due {n : Fin 8} {s : State} (hrun : s.tmr.chan[n].running = true) (hcmp : s.tmr.chan[n].compare ≠ 0#32)
    (hlt : s.tmr.chan[n].compare.toNat < s.tmr.chan[n].period.toNat) (hle : s.tmr.chan[n].count.toNat ≤ s.tmr.chan[n].compare.toNat)
    (hev : s.tmr.chan[n].evsel = true) :
    compareEvent n s = tmrEvent n (elapse (s.tmr.chan[n].compare.toNat - s.tmr.chan[n].count.toNat) s) := by
  have hgo : (s.tmr.chan[n].running && !(s.tmr.chan[n].compare == 0#32) && decide (s.tmr.chan[n].compare.toNat < s.tmr.chan[n].period.toNat) &&
      decide (s.tmr.chan[n].count.toNat ≤ s.tmr.chan[n].compare.toNat)) = true := by
    rw [hrun, beq_false_of_ne hcmp, decide_eq_true hlt, decide_eq_true hle]
    rfl
  unfold compareEvent
  dsimp only
  rw [if_pos hgo, hev, if_pos rfl]

/-! ## TRIG_OUT and TRIG_IN (R460, R461) -/

theorem trigOutPulseEnd_high {s : State} (h : s.tmr.trigOut = true) : trigOutPulseEnd s =
    let u := elapse s.tmr.pulseLeft s
    { u with tmr := { u.tmr with trigOut := false, pulseReq := false, pulseLeft := 0 } } := if_pos h

/-- A rise is counted, and is a trigger 2 ticks later. -/
theorem trigInEdge_rise {b : Bool} {s : State} (h : (b && !s.tmr.trigInLevel) = true) : trigInEdge b s =
    { s.fires 9 (s.now + 2#64) with tmr := { s.tmr with trigInLevel := b, trigInEdges := s.tmr.trigInEdges + 1#16 } } := by
  have htmr : (s.fires 9 (s.now + 2#64)).tmr = s.tmr := rfl
  simp only [trigInEdge, h, if_true, htmr]

theorem trigInEdge_else {b : Bool} {s : State} (h : (b && !s.tmr.trigInLevel) = false) :
    trigInEdge b s = { s with tmr := { s.tmr with trigInLevel := b } } := by
  simp only [trigInEdge, h, Bool.false_eq_true, if_false]

/-- The Eye takes TRIG_IN where its TRIGSRC is 9. -/
theorem eye_fires_trigIn (a : W64) (s : State) :
    (s.fires 9 a).eye = if (s.eye.trigSrc == 9#4) = true then { s.eye with arriving := s.eye.arriving ++ [a] } else s.eye := by
  have hsrc : s.eye.trigSrc.toNat = 9 ↔ (s.eye.trigSrc == 9#4) = true := by
    rw [beq_iff_eq, ← BitVec.toNat_inj]
    rfl
  exact ite_congr (propext hsrc) (fun _ => rfl) fun _ => rfl

/-! ## The TRIG calls (R346) -/

/-- Channel n with a new PERIOD and COMPARE, as TRIG TMR writes them. -/
def tmrWritten (n : Fin 8) (a b : Nat) (s : State) : State :=
  (s.setChan n (TmrChan.write n 4 (w32 (usTicks a)))).setChan n (TmrChan.write n 8 (w32 (usTicks b)))

/-- The channels as TRIG TMR on leaves them. -/
def tmrOn (c : Caller) (n : Fin 8) (a b : Nat) (s : State) : State :=
  tmrStart c.path.path (BitVec.ofNat 8 (2 ^ n.val)) (tmrWritten n a b s)

theorem chan_tmrWritten_self (n : Fin 8) (a b : Nat) (s : State) : (tmrWritten n a b s).tmr.chan[n] =
    TmrChan.write n 8 (w32 (usTicks b)) (TmrChan.write n 4 (w32 (usTicks a)) s.tmr.chan[n]) :=
  (getElem_upd_self ..).trans (congrArg _ (getElem_upd_self ..))

theorem chan_tmrWritten_ne {n m : Fin 8} (h : m ≠ n) (a b : Nat) (s : State) : (tmrWritten n a b s).tmr.chan[m] = s.tmr.chan[m] :=
  (getElem_upd_ne _ h _).trans (getElem_upd_ne _ h _)

/-- At rest both writes are in force at once (R459). -/
theorem written_at_rest {c : TmrChan} (h : c.running = false) (n : Fin 8) (v w : W32) :
    (TmrChan.write n 8 w (TmrChan.write n 4 v c)).period = v ∧ (TmrChan.write n 8 w (TmrChan.write n 4 v c)).compare = w := by
  simp [TmrChan.write, TmrChan.settle, h]

theorem getLsbD_oneByte (n m : Fin 8) : (BitVec.ofNat 8 (2 ^ n.val)).getLsbD m.val = decide (n = m) := by
  rw [ClockLoss.getLsbD_oneBit m.isLt]
  exact decide_eq_decide.mpr Fin.val_inj

theorem chan_tmrOn_ne {n m : Fin 8} (h : m ≠ n) (c : Caller) (a b : Nat) (s : State) : (tmrOn c n a b s).tmr.chan[m] = s.tmr.chan[m] := by
  rw [tmrOn, chan_tmrStart, getLsbD_oneByte, decide_eq_false h.symm, Bool.false_and, if_neg (by decide), chan_tmrWritten_ne h]

theorem chan_tmrOn_self {n : Fin 8} {s : State} {a : Nat} (hheld : s.tmrHeld n = false) (hrest : s.tmr.chan[n].running = false)
    (ha : usTicks a < 2 ^ 32) (hne : usTicks a ≠ 0) (c : Caller) (b : Nat) :
    (tmrOn c n a b s).tmr.chan[n].period = w32 (usTicks a) ∧ (tmrOn c n a b s).tmr.chan[n].compare = w32 (usTicks b) ∧
      (tmrOn c n a b s).tmr.chan[n].running = true ∧ (tmrOn c n a b s).tmr.chan[n].count = 0#32 := by
  have hmay : (tmrWritten n a b s).tmrMay c.path.path n = true := by
    have hfree : (tmrWritten n a b s).tmrHeld n = false := hheld
    rw [State.tmrMay, hfree, Bool.not_false, Bool.or_true]
  obtain ⟨hper, hcmp⟩ := written_at_rest hrest n (w32 (usTicks a)) (w32 (usTicks b))
  rw [← chan_tmrWritten_self] at hper hcmp
  have hper0 : (tmrWritten n a b s).tmr.chan[n].period ≠ 0#32 := by
    intro h0
    have htoNat := congrArg BitVec.toNat (hper.symm.trans h0)
    rw [BitVec.toNat_ofNat, Nat.mod_eq_of_lt ha] at htoNat
    exact hne htoNat
  rw [tmrOn, chan_tmrStart, getLsbD_oneByte, decide_eq_true rfl, hmay, if_pos (by decide), begun_of_period hper0]
  exact ⟨hper, hcmp, rfl, rfl⟩

/-- A call that sets the TMR block to x replies with fields that speak of the block, and changes nothing else. -/
theorem next_of_tmr {i : Instr} {c : Caller} {x : Tmr} {f : State → List (String × Val)} {s : State}
    (hf : ∀ (u : State) call host, f { u with call := call, host := host } = f u)
    (h : exec i s = .next (({ s with tmr := x } : State).ok c "TRIG" (f { s with tmr := x }))) :
    ∃ t, exec i s = .next t ∧ t.tmr = x ∧ t = { s with tmr := t.tmr, call := t.call, host := t.host } ∧
      Replied c (okLine c "TRIG" (f t)) t := by
  obtain ⟨call, host, hframe⟩ := ok_frame { s with tmr := x } c "TRIG" (f { s with tmr := x })
  refine ⟨_, h, ok_tmr, by rw [hframe], ?_⟩
  rw [fields_of_ok hf]
  exact ok_replied

theorem usOk_some {bits t : Nat} (h : usTicks t < 2 ^ bits) : usOk bits (some t) = true := decide_eq_true h

section
variable {c : Caller} {s : State} (ht : Takes c s)
include ht

theorem trigState_answers : ∃ t, exec (.trigState c) s = .next t ∧ t.quiet = s.quiet ∧
    Replied c (okLine c "TRIG" [bareF "STATE", usF "width" s.tmr.trigWidth.toNat, decF "trigin" (boolNat s.tmr.trigInLevel),
      decF "edges" s.tmr.trigInEdges.toNat]) t :=
  ⟨_, (exec_trigState c s).trans (congrArg Host.Outcome.next (gate_takes ht)), okWith_quiet, okWith_replied⟩

theorem trigTmr_starts {n : Fin 8} {a b : Nat} (ha : usTicks a < 2 ^ 32) (hb : usTicks b < 2 ^ 32) (hheld : s.tmrHeld n = false) :
    exec (.trigTmr c n (some a) (some b) (some true)) s = .next ((tmrOn c n a b s).ok c "TRIG" (trigTmrFields n (tmrOn c n a b s))) := by
  rw [exec_trigTmr, doTrigTmr, gate_takes ht, usOk_some ha, usOk_some hb, hheld, if_neg (by decide), if_neg (by decide)]
  rfl

theorem trigTmr_held {n : Fin 8} {a b : Option Nat} (ha : usOk 32 a = true) (hb : usOk 32 b = true) (hheld : s.tmrHeld n = true)
    (o : Option Bool) : exec (.trigTmr c n a b o) s = .next (s.fail c "TRIG" .state) := by
  rw [exec_trigTmr, doTrigTmr, gate_takes ht, ha, hb, hheld, if_neg (by decide), if_pos rfl]

theorem trigOut_sets (n : Option (Fin 8)) : exec (.trigOut c n) s =
    let u : State := { s with tmr := { s.tmr with trigSrc := BitVec.ofNat 4 ((n.map fun (n : Fin 8) => n.val + 1).getD 0) } }
    .next (u.ok c "TRIG" (trigOutFields u)) := by
  rw [exec_trigOut, doTrigOut, gate_takes ht]

theorem trigPulse_sets {w : Nat} (hw : usTicks w < 2 ^ 16) : exec (.trigPulse c (some w)) s =
    .next (({ s with tmr := { s.tmr with
      trigWidth := BitVec.ofNat 16 (usTicks w), trigOut := true, pulseReq := true, pulseLeft := Nat.max (usTicks w) 1 } } : State).ok c "TRIG"
        [bareF "PULSE", usF "width" (usTicks w)]) := by
  have hwidth : (BitVec.ofNat 16 (usTicks w)).toNat = usTicks w := by rw [BitVec.toNat_ofNat, Nat.mod_eq_of_lt hw]
  rw [exec_trigPulse, doTrigPulse, gate_takes ht, usOk_some hw, if_neg (by decide)]
  simp only [Option.map_some, Option.getD_some, doPulse, trigPulse, hwidth]

end

/-! ## The statement -/

/-- Settles O45: its clauses in their order, each from the lemma on its form. -/
theorem timersCountAndTrigger : Obligations.TimersCountAndTrigger := by
  refine ⟨fun p m s => ⟨_, exec_tmrStart p m s, fun n => (chan_tmrStart p m s n).trans (started_iff _ _), rfl⟩,
    fun p m n s hbit hmay hrun => ?stop,
    fun n s hrun hper hev hone hnext hsrc => ?period,
    fun n s hrun hper hone hsrc => ?oneshot,
    fun n s hrun hcmp hlt hle hev hsrc => ?compare,
    fun _ _ => rfl,
    fun s hout => ?pulseEnd,
    fun b s => ?trigIn,
    fun _ _ ht => trigState_answers ht,
    fun c n a b s ht ha hb hne hheld hrest => ?tmr,
    fun _ _ _ _ o _ ht ha hb hheld => next_of_fail (trigTmr_held ht ha hb hheld o),
    fun _ n _ ht => next_of_tmr (fun _ _ _ => rfl) (trigOut_sets ht n),
    fun _ w _ ht hw => next_of_tmr (f := fun _ => [bareF "PULSE", usF "width" (usTicks w)]) (fun _ _ _ => rfl) (trigPulse_sets ht hw)⟩
  case stop =>
    refine ⟨_, exec_tmrStop p m s, ?_, rfl⟩
    rw [chan_tmrStop, hbit, hmay, hrun, if_pos (by decide)]
    rfl
  case period =>
    obtain ⟨hsame, hwidth⟩ : (wrapped n s).tmr.trigSrc = s.tmr.trigSrc ∧ (wrapped n s).tmr.trigWidth = s.tmr.trigWidth :=
      elapse_trigOut _ s
    have hpulse : tmrEvent n (wrapped n s) = trigPulse ((wrapped n s).fires (n.val + 1) (wrapped n s).now) :=
      tmrEvent_pulses (by rw [hsame]; exact hsrc)
    have hexec := exec_periodEvent n s
    rw [periodEvent_due hrun hper, hev, if_pos (by rfl), hpulse] at hexec
    obtain ⟨hcount, hgoes, hperiod⟩ := wrap_again hone hper hnext
    rw [← chan_wrapped] at hcount hgoes hperiod
    refine ⟨_, hexec, hcount, hgoes.trans hrun, hperiod, rfl, ?_, ?_, tick_elapse _ s, elapse_mem _ s, elapse_lanes _ s⟩
    · exact congrArg (fun w : W16 => Nat.max w.toNat 1) hwidth
    · exact congrArg (fun e : Eye => if e.trigSrc.toNat = n.val + 1 then
        { e with arriving := e.arriving ++ [(wrapped n s).clk.tick] } else e) (elapse_eye _ s)
  case oneshot =>
    have hsame : (wrapped n s).tmr.trigSrc = s.tmr.trigSrc := (elapse_trigOut _ s).1
    have hsilent : tmrEvent n (wrapped n s) = (wrapped n s).fires (n.val + 1) (wrapped n s).now :=
      tmrEvent_silent (by rw [hsame]; exact fun h => Nat.succ_ne_zero _ (h.symm.trans (congrArg BitVec.toNat hsrc)))
    have hexec := exec_periodEvent n s
    rw [periodEvent_due hrun hper, hsilent] at hexec
    obtain ⟨hcount, hstops⟩ := wrap_oneshot hone
    rw [← chan_wrapped] at hcount hstops
    refine ⟨_, hexec, ?_⟩
    split <;> exact ⟨hcount, hstops, elapse_mem _ s, elapse_lanes _ s⟩
  case compare =>
    obtain ⟨hsame, hwidth⟩ := elapse_trigOut (s.tmr.chan[n].compare.toNat - s.tmr.chan[n].count.toNat) s
    have hexec := exec_compareEvent n s
    rw [compareEvent_due hrun hcmp hlt hle hev, tmrEvent_pulses (by rw [hsame]; exact hsrc)] at hexec
    refine ⟨_, hexec, rfl, ?_, ?_, tick_elapse _ s, elapse_mem _ s, elapse_lanes _ s⟩
    · exact congrArg (fun w : W16 => Nat.max w.toNat 1) hwidth
    · have hper : s.tmr.chan[n].period ≠ 0#32 := fun h => Nat.not_lt_zero _ ((congrArg BitVec.toNat h) ▸ hlt)
      exact (congrArg TmrChan.count (chan_elapse _ s n)).trans (count_advance hrun hle hlt.le hper)
  case pulseEnd => 
    refine ⟨_, (exec_trigOutPulseEnd s).trans (congrArg _ (trigOutPulseEnd_high hout)), rfl, rfl, rfl, tick_elapse _ s, elapse_mem _ s,
      elapse_lanes _ s⟩
  case trigIn =>
    cases h : (b && !s.tmr.trigInLevel) with
    | true =>
      refine ⟨_, (exec_trigInEdge b s).trans (congrArg _ (trigInEdge_rise h)), rfl, ?_, rfl⟩
      exact eye_fires_trigIn _ s
    | false => exact ⟨_, (exec_trigInEdge b s).trans (congrArg _ (trigInEdge_else h)), rfl, rfl, rfl⟩
  case tmr =>
    obtain ⟨t, hexec, htmr, hframe, hreply⟩ :=
      next_of_tmr (x := (tmrOn c n a b s).tmr) (f := trigTmrFields n) (fun _ _ _ => rfl) (trigTmr_starts ht ha hb hheld)
    obtain ⟨hper, hcmp, hrun, hcount⟩ := chan_tmrOn_self hheld hrest ha hne c b
    have hchan : { s.tmr with chan := t.tmr.chan } = t.tmr := by rw [htmr]; rfl
    refine ⟨t, hexec, ?_, ?_, ?_, ?_, fun m hm => ?_, by rw [hchan]; exact hframe, hreply⟩ <;> rw [htmr]
    · exact hper
    · exact hcmp
    · exact hrun
    · exact hcount
    · exact chan_tmrOn_ne hm c a b s

end Sys2Proof.Triggers
end

section
/-! PROOFS. The String Port's test access port (R439, R441, R449), its commands (R440, R448), halts, STEP and breakpoints (R443, R444,
R447), the end of a session (R448), and the statement about them. -/

namespace Sys2Proof.StringHalts
open Sys2Proof Sys2Proof.Machine Sys2Proof.Laws Sys2Proof.Words Sys2Proof.EarCapture

theorem exec_tapInstruction (i : BitVec 4) (s : State) : exec (.tapInstruction i) s = .next (tapInstruction i s) := rfl

theorem exec_idcodeCapture (s : State) : exec .idcodeCapture s = .next (idcodeCapture s) := rfl

theorem exec_respCapture (s : State) : exec .respCapture s = .next (respCapture s) := rfl

theorem exec_stringStatus (a : BitVec 24) (d : W64) (s : State) : exec (.stringStatus a d) s = .next (doStringStatus a d s) := rfl

theorem exec_halt (a : BitVec 24) (d : W64) (s : State) : exec (.halt a d) s = .next (doHalt a d s) := rfl

theorem exec_resume (a : BitVec 24) (d : W64) (s : State) : exec (.resume a d) s = .next (doResume a d s) := rfl

theorem exec_step (a : BitVec 24) (d : W64) (s : State) : exec (.step a d) s = .next (doStep a d s) := rfl

theorem exec_stepDone (s : State) : exec .stepDone s = .next (stepDone s) := rfl

theorem exec_counter (a : BitVec 24) (d : W64) (s : State) : exec (.counter a d) s = .next (doCounter a d s) := rfl

theorem exec_breakSet (a : BitVec 24) (d : W64) (s : State) : exec (.breakSet a d) s = .next (doBreakSet a d s) := rfl

theorem exec_breakClear (a : BitVec 24) (d : W64) (s : State) : exec (.breakClear a d) s = .next (doBreakClear a d s) := rfl

theorem exec_strSessionIdle (s : State) : exec .strSessionIdle s = .next (strSessionIdle s) := rfl

theorem exec_strTrst (s : State) : exec .strTrst s = .next (strTrst s) := rfl

/-! ## The test access port (R439, R441, R449) -/

theorem tapInstruction_unlocked {s : State} (h : s.locked = false) (i : BitVec 4) :
    tapInstruction i s = { s with str := { s.str with ir := i } } := by
  rw [tapInstruction, h, if_neg (by decide)]

theorem tapInstruction_locked {s : State} (h : s.locked = true) (i : BitVec 4) : tapInstruction i s = s := if_pos h

theorem idcodeCapture_selected {s : State} (h : s.locked = false) (hir : s.str.ir = 1#4) :
    idcodeCapture s = s.shiftOut (some (BitVec.ofNat 80 (idcode s))) := by
  rw [idcodeCapture, h, if_neg (by decide), if_pos hir]

theorem idcodeCapture_locked {s : State} (h : s.locked = true) : idcodeCapture s = s.shiftOut none := if_pos h

theorem respCapture_selected {s : State} (h : s.locked = false) (hir : s.str.ir = 9#4) :
    respCapture s = s.shiftOut (some (strResp s.str)) := by
  rw [respCapture, h, if_neg (by decide), if_pos hir]

theorem respCapture_locked {s : State} (h : s.locked = true) : respCapture s = s.shiftOut none := if_pos h

/-! ## Commands (R440, R448): a part that is not locked takes one under CMD while no STEP runs -/

theorem strOpen_session {s : State} (h : s.str.session = true) : strOpen s = s := if_pos h

theorem strOpen_first {s : State} (h : s.str.session = false) :
    strOpen s = { touch Dom.str s with str := { s.str with session := true, touch := none } } := by
  rw [strOpen, h, if_neg (by decide)]
  rfl

theorem strCmd_stepping {s : State} (h : s.str.stepping ≠ none) (op : Byte) (run : State → StrAns) : strCmd op run s = s := by
  have hbar : (s.locked || s.str.ir != 8#4 || s.str.stepping.isSome) = true := by
    rw [Option.isSome_iff_ne_none.mpr h, Bool.or_true]
  exact if_pos hbar

/-- Only the String Port changes, to x. -/
theorem next_of_str {i : Instr} {s : State} {x : StringPort} (h : exec i s = .next { s with str := x }) :
    ∃ t, exec i s = .next t ∧ t.str = x ∧ t = { s with str := t.str } := ⟨_, h, rfl, rfl⟩

/-! ## Arguments (R441, R444) -/

theorem toNat_shellArg (i : ShellId) : (BitVec.ofNat 24 i.val).toNat = i.val := by
  rw [BitVec.toNat_ofNat]
  omega

theorem strShell_arg (i : ShellId) : strShell (BitVec.ofNat 24 i.val).toNat = some i := by
  rw [toNat_shellArg]
  exact dif_pos i.isLt

theorem afld_ofNat {x : Nat} (hx : x < 2 ^ 24) (lo n : Nat) : afld (BitVec.ofNat 24 x) lo n = x / 2 ^ lo % 2 ^ n := by
  simp only [afld, BitVec.toNat_ofNat, Nat.mod_eq_of_lt hx, Nat.shiftRight_eq_div_pow]

theorem wfld_ofNat {x : Nat} (hx : x < 2 ^ 64) (lo n : Nat) : wfld (BitVec.ofNat 64 x) lo n = x / 2 ^ lo % 2 ^ n := by
  simp only [wfld, BitVec.toNat_ofNat, Nat.mod_eq_of_lt hx, Nat.shiftRight_eq_div_pow]

theorem slotOfArg_eq {k : Fin 8} {r : Nat} (hr : r < 2 ^ 21) : slotOfArg (BitVec.ofNat 24 (k.val * 2 ^ 21 + r)) = k :=
  Fin.ext ((afld_ofNat (by omega) 21 3).trans (by omega))

/-- ARG of BREAK SET for slot k, on a tally, with the mask m (R444). -/
theorem tallyArg_fields (k : Fin 8) (m : BitVec 18) :
    let a := BitVec.ofNat 24 (k.val * 2 ^ 21 + 2 ^ 19 + m.toNat)
    slotOfArg a = k ∧ afld a 18 1 = 0 ∧ afld a 19 2 = 1 ∧ a.setWidth 18 = m := by
  have hm := m.isLt
  have harg : k.val * 2 ^ 21 + 2 ^ 19 + m.toNat < 2 ^ 24 := by omega
  refine ⟨?_, (afld_ofNat harg 18 1).trans (by omega), (afld_ofNat harg 19 2).trans (by omega), BitVec.eq_of_toNat_eq ?_⟩
  · rw [Nat.add_assoc]
    exact slotOfArg_eq (by omega)
  · rw [BitVec.toNat_setWidth, BitVec.toNat_ofNat]
    omega

/-- DATA of BREAK SET for tally g and target q (R444). -/
theorem tallyData_fields (q : W16) (g : Fin 1024) :
    let d := BitVec.ofNat 64 (g.val * 2 ^ 32 + q.toNat)
    wfld d 42 22 = 0 ∧ wfld d 16 16 = 0 ∧ wfld d 32 10 = g.val ∧ d.setWidth 16 = q := by
  have hq := q.isLt
  have hdata : g.val * 2 ^ 32 + q.toNat < 2 ^ 64 := by omega
  refine ⟨(wfld_ofNat hdata 42 22).trans (by omega), (wfld_ofNat hdata 16 16).trans (by omega), (wfld_ofNat hdata 32 10).trans (by omega),
    BitVec.eq_of_toNat_eq ?_⟩
  rw [BitVec.toNat_setWidth, BitVec.toNat_ofNat]
  omega

theorem breakOf_tally (k : Fin 8) (m : BitVec 18) (q : W16) (g : Fin 1024) :
    breakOf (BitVec.ofNat 24 (k.val * 2 ^ 21 + 2 ^ 19 + m.toNat)) (BitVec.ofNat 64 (g.val * 2 ^ 32 + q.toNat)) = some (.tally g q m) := by
  obtain ⟨-, hreserved, hkind, hmask⟩ := tallyArg_fields k m
  obtain ⟨hhigh, hmid, htally, htarget⟩ := tallyData_fields q g
  simp only [breakOf, hreserved, hkind, hhigh, hmid, htally, hmask, htarget, ne_eq, not_true_eq_false, if_false, or_self]

theorem breakOf_reserved {a : BitVec 24} (h : a.getLsbD 18 = true) (d : W64) : breakOf a d = none := by
  have hbit : afld a 18 1 ≠ 0 := by
    rw [← BitVec.testBit_toNat, Nat.testBit_eq_decide_div_mod_eq, decide_eq_true_eq] at h
    rw [afld, Nat.shiftRight_eq_div_pow, Nat.pow_one, h]
    decide
  exact if_pos hbit

/-! ## Halts (R443, R447) -/

/-- A watchdog that stops or counts leaves the heat where it is. -/
theorem watch_place (now : W64) (stop : Bool) (r : HeatRun) :
    ((r.watch now stop).seq, (r.watch now stop).st, (r.watch now stop).seg, (r.watch now stop).open_) = (r.seq, r.st, r.seg, r.open_) := by
  unfold HeatRun.watch
  split
  · split <;> rfl
  · unfold HeatRun.pause
    split <;> rfl

theorem runs_watch (s : State) (l : LaneId) :
    (s.watch.lane l).runs = (s.lane l).runs.map fun r => r.watch s.steady (s.rail.floor || s.heatHalted l r.seq) :=
  congrArg Lane.runs (getElem_mapIdx ..)

theorem places_watch (s : State) (l : LaneId) :
    (s.watch.lane l).runs.map (fun r => (r.seq, r.st, r.seg, r.open_)) = (s.lane l).runs.map fun r => (r.seq, r.st, r.seg, r.open_) := by
  rw [runs_watch, List.map_map]
  exact List.map_congr_left fun r _ => watch_place _ _ r

section
variable {s : State} (hl : s.locked = false) (hir : s.str.ir = 8#4) (hidle : s.str.stepping = none)
include hl hir hidle

theorem strCmd_taken (op : Byte) (run : State → StrAns) : strCmd op run s =
    if s.confidential then s.strSays op .closed 0#64 else (run (strOpen s)).2.2.strSays op (run (strOpen s)).1 (run (strOpen s)).2.1 := by
  have hbar : (s.locked || s.str.ir != 8#4 || s.str.stepping.isSome) = false := by rw [hl, hir, hidle]; rfl
  rw [strCmd, hbar, if_neg (by decide)]

theorem halt_confidential (hc : s.confidential = true) (a : BitVec 24) (d : W64) :
    exec (.halt a d) s = .next (s.strSays 0x10#8 .closed 0#64) := by
  rw [exec_halt, doHalt, strCmd_taken hl hir hidle, if_pos hc]

variable (hc : s.confidential = false)
include hc

theorem strCmd_runs {u : State} (hu : strOpen s = u) {op : Byte} {run : State → StrAns} {st : StrStatus} {v : W64} {w : State}
    (hrun : run u = (st, v, w)) : strCmd op run s = w.strSays op st v := by
  rw [strCmd_taken hl hir hidle, hc, if_neg (by decide), hu, hrun]

theorem status_says {u : State} (hu : strOpen s = u) : exec (.stringStatus 0#24 0#64) s =
    .next (u.strSays 0x01#8 .done (BitVec.ofNat 64 (2 ^ 26 * boolNat u.str.session + 2 ^ 18 * armedMask u + u.str.halted.toNat))) :=
  congrArg _ (strCmd_runs hl hir hidle hc hu (if_neg (by decide)))

theorem status_opens (hses : s.str.session = false) :
    ∃ v, exec (.stringStatus 0#24 0#64) s = .next { touch Dom.str s with str := { s.str with
      session := true, touch := none, status := .done, lastOp := 0x01#8, result := v } } :=
  ⟨_, status_says hl hir hidle hc (strOpen_first hses)⟩

variable (hses : s.str.session = true)
include hses

theorem status_answers : exec (.stringStatus 0#24 0#64) s =
    .next (s.strSays 0x01#8 .done (BitVec.ofNat 64 (2 ^ 26 + 2 ^ 18 * armedMask s + s.str.halted.toNat))) := by
  rw [status_says hl hir hidle hc (strOpen_session hses), hses]
  rfl

theorem halt_reserved {a : BitVec 24} {d : W64} (h : 0x40000 ≤ a.toNat ∨ d ≠ 0#64) :
    exec (.halt a d) s = .next (s.strSays 0x10#8 .badop 0#64) :=
  congrArg _ (strCmd_runs hl hir hidle hc (strOpen_session hses) (if_pos h))

section
variable {a : BitVec 24} (ha : a.toNat < 0x40000)
include ha

theorem halt_halts : exec (.halt a 0#64) s =
    .next (({ s with str := { s.str with halted := s.str.halted ||| a.setWidth 18 } } : State).watch.strSays 0x10#8 .done (a.setWidth 64)) :=
  congrArg _ (strCmd_runs hl hir hidle hc (strOpen_session hses) (if_neg (by simp [ha])))

theorem resume_releases : exec (.resume a 0#64) s =
    .next ((strFree (a.setWidth 18) s).strSays 0x11#8 .done ((s.str.halted &&& a.setWidth 18).setWidth 64)) :=
  congrArg _ (strCmd_runs hl hir hidle hc (strOpen_session hses) (if_neg (by simp [ha])))

end

theorem counter_answers (i : ShellId) : exec (.counter (BitVec.ofNat 24 i.val) 0#64) s =
    .next (s.strSays 0x13#8 .done ((s.shell i).strokes.setWidth 64)) := by
  rw [exec_counter, doCounter, strCmd_runs hl hir hidle hc (strOpen_session hses) (v := (s.shell i).strokes.setWidth 64) (w := s)]
  rw [strShell_arg]
  rfl

section
variable {i : ShellId} {n : W64} (hn : 1 ≤ n.toNat ∧ n.toNat ≤ 65535)
include hn

theorem step_begins (hhalt : s.str.halted.getLsbD i.val = true) (hprog : s.hasProgram i = true) :
    exec (.step (BitVec.ofNat 24 i.val) n) s =
      .next (({ s with str := { s.str with stepping := some (i, n.toNat, 0) } } : State).strSays 0x12#8 .busy 0#64) := by
  refine congrArg _ (strCmd_runs hl hir hidle hc (strOpen_session hses) ?_)
  simp only [strShell_arg, hhalt, hprog, Bool.not_true, Bool.false_eq_true, if_false, if_true]
  rw [if_neg (by omega)]

theorem step_notHalted (hhalt : s.str.halted.getLsbD i.val = false) :
    exec (.step (BitVec.ofNat 24 i.val) n) s = .next (s.strSays 0x12#8 .notHalted 0#64) := by
  refine congrArg _ (strCmd_runs hl hir hidle hc (strOpen_session hses) ?_)
  simp only [strShell_arg, hhalt, Bool.not_false, if_true]
  rw [if_neg (by omega)]

end

theorem breakSet_tally (k : Fin 8) (m : BitVec 18) (q : W16) (g : Fin 1024) :
    exec (.breakSet (BitVec.ofNat 24 (k.val * 2 ^ 21 + 2 ^ 19 + m.toNat)) (BitVec.ofNat 64 (g.val * 2 ^ 32 + q.toNat))) s =
      .next ((s.setSlot k (some (.tally g q m))).strSays 0x20#8 .done 0#64) := by
  obtain ⟨hslot, -⟩ := tallyArg_fields k m
  refine congrArg _ (strCmd_runs hl hir hidle hc (strOpen_session hses) ?_)
  simp only [breakOf_tally, hslot]
  rfl

theorem breakSet_reserved {a : BitVec 24} (h : a.getLsbD 18 = true) (d : W64) :
    exec (.breakSet a d) s = .next (s.strSays 0x20#8 .badop 0#64) := by
  refine congrArg _ (strCmd_runs hl hir hidle hc (strOpen_session hses) ?_)
  simp only [breakOf_reserved h]
  rfl

theorem breakClear_clears (k : Fin 8) :
    exec (.breakClear (BitVec.ofNat 24 (k.val * 2 ^ 21)) 0#64) s = .next ((s.setSlot k none).strSays 0x21#8 .done 0#64) := by
  have hrest : afld (BitVec.ofNat 24 (k.val * 2 ^ 21)) 0 21 = 0 := (afld_ofNat (by omega) 0 21).trans (by omega)
  have hslot : slotOfArg (BitVec.ofNat 24 (k.val * 2 ^ 21)) = k := by
    rw [← Nat.add_zero (k.val * 2 ^ 21)]
    exact slotOfArg_eq (Nat.two_pow_pos 21)
  refine congrArg _ (strCmd_runs hl hir hidle hc (strOpen_session hses) ?_)
  simp only [hrest, hslot]
  rfl

end

/-! ## The end of a STEP and of a session (R447, R448) -/

theorem stepDone_ends {s : State} {i : ShellId} {m r : Nat} (h : s.str.stepping = some (i, m, r)) (hend : m = 0 ∨ s.hasProgram i = false) :
    stepDone s = { s with str := { s.str with stepping := none, status := .done, result := BitVec.ofNat 64 r } } := by
  have hdone : (m = 0 || !s.hasProgram i) = true := by
    rcases hend with rfl | hprog
    · rfl
    · rw [hprog, Bool.not_false, Bool.or_true]
  rw [stepDone, h]
  exact if_pos hdone

theorem stepDone_runs {s : State} {i : ShellId} {m r : Nat} (h : s.str.stepping = some (i, m, r)) (hm : m ≠ 0) (hprog : s.hasProgram i = true) :
    stepDone s = s := by
  rw [stepDone, h]
  dsimp only
  rw [hprog, decide_eq_false hm, if_neg (by decide)]

theorem strSessionIdle_closed {s : State} (h : s.str.session = false) : strSessionIdle s = s := by
  rw [strSessionIdle, h, if_neg (by decide)]

theorem strEnd_eq (s : State) : ∃ x lanes, strEnd s = { s with str := x, lanes := lanes } ∧
    x.session = false ∧ x.halted = 0#18 ∧ x.slots = Vector.replicate 8 none ∧ x.stepping = none := by
  unfold strEnd
  split
  · exact ⟨_, _, rfl, rfl, rfl, rfl, rfl⟩
  · next h => exact ⟨_, _, rfl, rfl, rfl, rfl, h⟩

theorem getElem_noSlots (k : Fin 8) : (Vector.replicate 8 (none : Option Break))[k] = none := Vector.getElem_replicate ..

/-! ## The statement -/

/-- Settles O58: its clauses in their order, each from the lemma on its form. -/
theorem stringPortHaltsAndSteps : Obligations.StringPortHaltsAndSteps := by
  refine ⟨fun i s h => congrArg _ (tapInstruction_unlocked h i), fun i s h => congrArg _ (tapInstruction_locked h i),
    fun s h hir => congrArg _ (idcodeCapture_selected h hir), fun s h => congrArg _ (idcodeCapture_locked h),
    fun s h hir => congrArg _ (respCapture_selected h hir), fun s h => congrArg _ (respCapture_locked h),
    fun s hl hir hidle hc hses => ?opens,
    fun s hl hir hidle hc hses => next_of_str (status_answers hl hir hidle hc hses),
    fun a d s hl hir hidle hc => next_of_str (halt_confidential hl hir hidle hc a d),
    fun a d s _ _ h => congrArg _ (strCmd_stepping h _ _),
    fun a d s hl hir hidle hc hses h => next_of_str (halt_reserved hl hir hidle hc hses h),
    fun a s hl hir hidle hc hses ha => ⟨_, halt_halts hl hir hidle hc hses ha, rfl, rfl, places_watch _⟩,
    fun a s hl hir hidle hc hses ha => ⟨_, resume_releases hl hir hidle hc hses ha, rfl, rfl⟩,
    fun i n s hl hir hidle hc hses hn hhalt hprog => next_of_str (step_begins hl hir hidle hc hses hn hhalt hprog),
    fun i n s hl hir hidle hc hses hn hhalt => next_of_str (step_notHalted hl hir hidle hc hses hn hhalt),
    fun i m r s h hend => congrArg _ (stepDone_ends h hend),
    fun i m r s h hm hprog => congrArg _ (stepDone_runs h hm hprog),
    fun i s hl hir hidle hc hses => next_of_str (counter_answers hl hir hidle hc hses i),
    fun k m q g s hl hir hidle hc hses => next_of_str (breakSet_tally hl hir hidle hc hses k m q g),
    fun a d s hl hir hidle hc hses h => next_of_str (breakSet_reserved hl hir hidle hc hses h d),
    fun k s hl hir hidle hc hses => next_of_str (breakClear_clears hl hir hidle hc hses k),
    fun s h => ?idle, fun s h => congrArg _ (strSessionIdle_closed h), fun s => ?trst⟩
  case opens =>
    obtain ⟨v, hexec⟩ := status_opens hl hir hidle hc hses
    exact ⟨_, hexec, rfl, rfl, rfl, rfl, rfl, rfl⟩
  case idle =>
    obtain ⟨x, lanes, hend, hses, hhalt, hslots, hstep⟩ := strEnd_eq s
    have hexec := exec_strSessionIdle s
    rw [strSessionIdle, if_pos h, hend] at hexec
    exact ⟨_, hexec, hses, hhalt, fun k => by rw [hslots]; exact getElem_noSlots k, hstep, rfl⟩
  case trst =>
    obtain ⟨x, lanes, hend, hses, hhalt, hslots, -⟩ := strEnd_eq s
    have hexec := exec_strTrst s
    rw [strTrst, hend] at hexec
    exact ⟨_, hexec, hses, hhalt, rfl, fun k => by rw [hslots]; exact getElem_noSlots k, rfl⟩

end Sys2Proof.StringHalts
end

section
/-! PROOFS. What a reader of the Course other than a heat leaves (R221, R243, R344): domains come up, units and errors are counted, and
free values are drawn; nothing else changes. -/

namespace Sys2Proof.CourseReads
open Sys2Proof Sys2Proof.Machine

/-- From s to t, domains may have come up, device counts and the count of uncorrected errors gone on, free values been drawn. -/
structure ReadOnly (s t : State) : Prop where
  frame : t = { s with power := t.power, stat := t.stat, free := t.free, mem := { s.mem with ue := t.mem.ue } }

namespace ReadOnly
variable {s t u : State}

theorem refl (s : State) : ReadOnly s s := ⟨rfl⟩

theorem trans (h : ReadOnly s t) (g : ReadOnly t u) : ReadOnly s u := ⟨by rw [g.frame, h.frame]⟩

theorem of_eq {α : Type} {p : α × State} {a : α} (h : ReadOnly s p.2) (e : p = (a, t)) : ReadOnly s t := by
  rw [e] at h
  exact h

theorem faults (h : ReadOnly s t) : t.faults = s.faults := by rw [h.frame]
theorem fuse (h : ReadOnly s t) : t.fuse = s.fuse := by rw [h.frame]
theorem keys (h : ReadOnly s t) : t.keys = s.keys := by rw [h.frame]
theorem flash (h : ReadOnly s t) : t.flash = s.flash := by rw [h.frame]
theorem shells (h : ReadOnly s t) : t.shells = s.shells := by rw [h.frame]
theorem map (h : ReadOnly s t) : t.map = s.map := by rw [h.frame]

end ReadOnly

theorem freeBytes_only (n : Nat) (s : State) : ReadOnly s (freeBytes n s).2 := ⟨rfl⟩

theorem dramRead_only (l : Option LaneId) (unit : Nat) (s : State) : ReadOnly s (dramRead l unit s).2 := by
  unfold dramRead
  split
  · exact .refl s
  · dsimp only
    split
    · exact ⟨rfl⟩
    · split
      · split <;> exact ⟨rfl⟩
      · exact ⟨rfl⟩

theorem bhRead_only (l : Option LaneId) (off : Nat) (s : State) : ReadOnly s (bhRead l off s).2 := by
  unfold bhRead
  dsimp only
  split
  · exact .refl s
  · split <;> exact ⟨rfl⟩

theorem dramUnits_only (l : Option LaneId) (unit n : Nat) (s : State) : ReadOnly s (dramUnits l unit n s).2 := by
  induction n generalizing unit s with
  | zero => exact .refl s
  | succ n ih =>
    unfold dramUnits
    split
    · next b s1 h1 =>
      have r1 : ReadOnly s s1 := (dramRead_only ..).of_eq h1
      split
      · next h2 => exact r1.trans ((ih ..).of_eq h2)
      · exact r1.trans (ih ..)
    · exact dramRead_only l unit s

/-- A read in the decoded view reads a stream's head, its index, a chunk's head and the chunk. -/
theorem viewRead_only (l : Option LaneId) (head x : Nat) (s : State) : ReadOnly s (viewRead l head x s).2 := by
  unfold viewRead
  split
  · exact .refl s
  · split
    · next hd s1 h1 =>
      have r1 : ReadOnly s s1 := (dramRead_only ..).of_eq h1
      dsimp only
      split
      · split
        · exact r1
        · split
          · exact r1
          · split
            · next ix s2 h2 =>
              have r2 : ReadOnly s s2 := r1.trans ((dramRead_only ..).of_eq h2)
              split
              · next u s3 h3 =>
                have r3 : ReadOnly s s3 := r2.trans ((dramRead_only ..).of_eq h3)
                split
                · exact r3
                · split
                  · next h4 => exact (r3.trans ((dramUnits_only ..).of_eq h4)).trans ⟨rfl⟩
                  · next h4 => exact r3.trans ((dramUnits_only ..).of_eq h4)
                  · next h4 => exact r3.trans ((dramUnits_only ..).of_eq h4)
              · next h3 => exact r2.trans ((dramRead_only ..).of_eq h3)
              · next h3 => exact r2.trans ((dramRead_only ..).of_eq h3)
            · next h2 => exact r1.trans ((dramRead_only ..).of_eq h2)
            · next h2 => exact r1.trans ((dramRead_only ..).of_eq h2)
      · exact r1
    · next h1 => exact (dramRead_only ..).of_eq h1
    · next h1 => exact (dramRead_only ..).of_eq h1

theorem courseRead_only (l : Option LaneId) (c : CourseAt) (s : State) : ReadOnly s (courseRead l noMap c s).2 := by
  unfold courseRead
  dsimp only
  split
  · next a =>
    split <;> next h => exact (dramRead_only l (a / 64) s).of_eq h
  · next off =>
    split <;> next h => exact (bhRead_only l off s).of_eq h
  · next ls off =>
    have hnone : noMap[ls] = none := Vector.getElem_replicate ..
    rw [hnone]
    exact .refl s
  · exact viewRead_only ..
  · exact .refl s

theorem openRead_only (a : Nat) (b : List Byte) (s : State) : ReadOnly s (openRead a b s).2 := by
  unfold openRead
  split
  · exact freeBytes_only ..
  · exact .refl s

theorem unitsAt_only (unit n : Nat) (s : State) : ReadOnly s (unitsAt unit n s).2 := by
  induction n generalizing unit s with
  | zero => exact .refl s
  | succ n ih =>
    unfold unitsAt
    dsimp only
    refine .trans ?_ (ih ..)
    split
    · next h => exact ((courseRead_only none _ s).of_eq h).trans (openRead_only ..)
    · next h => exact ((courseRead_only none _ s).of_eq h).trans (freeBytes_only ..)

theorem bytesAt_only (addr len : Nat) (s : State) : ReadOnly s (bytesAt addr len s).2 := unitsAt_only ..

/-- An attachment that can be read leaves what a read leaves. -/
theorem attachment_only {p : Path} {addr len : Nat} {s : State} {r : List Byte × State} (h : attachment p addr len s = .ok r) :
    ReadOnly s r.2 := by
  unfold attachment at h
  split at h
  · exact nomatch h
  · split at h
    · obtain rfl := Except.ok.inj h
      exact bytesAt_only ..
    · exact nomatch h

end Sys2Proof.CourseReads
end

section
/-! PROOFS. Fuse burns (R462, R463), the field lock (R425) and the key calls (R347, R428, R429): how a burn begins, what its end burns,
what arms, burns and disarms the lock, and the statement about them. -/

namespace Sys2Proof.KeyBurns
open Sys2Proof Sys2Proof.Machine Sys2Proof.Laws Sys2Proof.Registers Sys2Proof.EarStarts Sys2Proof.EarCapture Sys2Proof.RepairCalls
  Sys2Proof.CourseReads

theorem exec_keyState (c : Caller) (s : State) : exec (.keyState c) s = .next (doKeyState c s) := rfl

theorem exec_keyVkLoad (c : Caller) (k : Fin 4) (a : Nat) (s : State) : exec (.keyVkLoad c k a) s = .next (doKeyVkLoad c k a s) := rfl

theorem exec_keyVkRevoke (c : Caller) (k : Fin 4) (s : State) : exec (.keyVkRevoke c k) s = .next (doKeyVkRevoke c k s) := rfl

theorem exec_fieldLockArm (p : Path) (s : State) : exec (.fieldLockArm p) s = .next (writeFuseLock p lockArm s) := rfl

theorem exec_fieldLockBurn (p : Path) (s : State) : exec (.fieldLockBurn p) s = .next (writeFuseLock p lockBurn s) := rfl

theorem exec_fieldLockDisarm (s : State) : exec .fieldLockDisarm s = .next (fieldLockDisarm s) := rfl

theorem exec_fuseBurnDone (s : State) : exec .fuseBurnDone s = .next (burnDone s) := rfl

/-! ## A burn begins (R422, R462) -/

theorem burnStart_idle {s : State} (h : s.fuse.burning = none) (b : Burn) :
    burnStart b s = { s with fuse := { s.fuse with burning := some b } } := by
  rw [burnStart, h, if_pos (by rfl)]

theorem journals_watch (s : State) : s.watch.lanes.map (·.journal) = s.lanes.map (·.journal) := by
  ext i hi
  simp only [State.watch, mapIdx, Vector.getElem_map, Vector.getElem_ofFn]
  rfl

theorem journals_closeUp (s : State) : (closeUp s).lanes.map (·.journal) = s.lanes.map (·.journal) := journals_watch _

theorem journals_entering (s : State) (f : State → State) : (s.entering f).lanes.map (·.journal) = (f s).lanes.map (·.journal) := by
  unfold State.entering
  dsimp only
  split
  · exact journals_closeUp _
  · rfl

theorem keyopStart_closes (s : State) : Closes { s with keys := { s.keys with keyop := s.keys.keyop + 1 } } (keyopStart s) :=
  entering_closes s fun s => { s with keys := { s.keys with keyop := s.keys.keyop + 1 } }

/-- From s to t the Call line's KEY call has begun the burn b: KEYOP holds once more, and the reply waits. -/
structure BurnBegins (b : Burn) (s t : State) : Prop where
  fuse : t.fuse = { s.fuse with burning := some b }
  keys : t.keys = { s.keys with keyop := s.keys.keyop + 1 }
  waits : t.call.running = some "KEY"
  flash : t.flash = s.flash
  mem : t.mem = s.mem
  journals : t.lanes.map (·.journal) = s.lanes.map (·.journal)

theorem burn_begins {c : Caller} {s : State} (hp : c.path = .call) (hb : s.fuse.burning = none) (b : Burn) :
    BurnBegins b s (burnStart b ((keyopStart s).await c "KEY")) := by
  have hcloses := keyopStart_closes s
  have hfuse : ((keyopStart s).await c "KEY").fuse = s.fuse := by
    rw [State.await, if_pos hp]
    exact hcloses.fuse
  have hflash : (keyopStart s).flash = s.flash := by rw [hcloses.frame]
  rw [burnStart_idle (by rw [hfuse]; exact hb), hfuse, State.await, if_pos hp]
  exact ⟨rfl, hcloses.keys, rfl, hflash, hcloses.mem, journals_entering s _⟩

/-! ## A burn ends (R462) -/

theorem mem_otpAdd_iff {a k : Nat} (l : List Nat) : a ∈ otpAdd k l ↔ a = k ∨ a ∈ l := by
  induction l with
  | nil => simp [otpAdd]
  | cons b r ih =>
    unfold otpAdd
    split
    · exact List.mem_cons
    · split
      · next h => simp [h]
      · simp only [List.mem_cons, ih]
        exact or_left_comm

theorem mem_otpAdd_foldl_iff {a : Nat} (bits l : List Nat) : a ∈ bits.foldl (fun o k => otpAdd k o) l ↔ a ∈ bits ∨ a ∈ l := by
  induction bits generalizing l with
  | nil => simp
  | cons b r ih => rw [List.foldl_cons, ih, mem_otpAdd_iff, List.mem_cons, or_left_comm, or_assoc]

/-- The reply of the call that a burn serves leaves fuses and memory. -/
theorem burnReply_leaves (b : Burn) (s : State) : (burnReply b s).fuse = s.fuse ∧ (burnReply b s).mem = s.mem := by
  cases b with
  | lock => exact ⟨rfl, rfl⟩
  | fwRevoke => exact ⟨rfl, rfl⟩
  | vkLoad k h by_ =>
    cases by_ with
    | none => exact ⟨rfl, rfl⟩
    | some c => exact ⟨ok_fuse, ok_mem⟩
  | vkRevoke k by_ =>
    cases by_ with
    | none => exact ⟨rfl, rfl⟩
    | some c => exact ⟨ok_fuse, ok_mem⟩
  | repair e u by_ =>
    obtain ⟨eye, faults, hset, -⟩ := setUnitSt_frame s u .fused
    cases by_ with
    | none =>
      simp only [burnReply, hset, and_self]
    | some c =>
      simp only [burnReply, hset]
      exact ⟨ok_fuse, ok_mem⟩

/-- The fuses once the burn b has ended: its bits are burnt and loaded, and the next burn in line runs. -/
def burnt (b : Burn) (f : Fuse) : Fuse :=
  { f with
    otp := b.bits.foldl (fun o k => otpAdd k o) f.otp, shadow := b.bits.foldl (fun o k => otpAdd k o) f.shadow
    burning := f.queue.head?, queue := f.queue.tail }

theorem burnDone_leaves {b : Burn} {s : State} (h : s.fuse.burning = some b) : (burnDone s).fuse = burnt b s.fuse ∧ (burnDone s).mem = s.mem := by
  rw [burnDone, h]
  exact burnReply_leaves b (keyCheck { s with fuse := burnt b s.fuse })

/-! ## The field lock (R425) -/

theorem writeFuseLock_closed {s : State} (h : s.confidential = true ∨ s.locked = true) (p : Path) (v : W32) : writeFuseLock p v s = s := by
  refine if_pos ?_
  rcases h with h | h <;> simp [h]

theorem writeFuseLock_other {p q : Path} {s : State} (h : s.armedBy = some q) (hne : q ≠ p) (v : W32) : writeFuseLock p v s = s := by
  unfold writeFuseLock
  split
  · rfl
  · rw [h]
    exact if_pos hne

section
variable {p : Path} {s : State} (hp : p = .call ∨ p = .host) (hc : s.confidential = false) (hl : s.locked = false)
include hp hc hl

/-- Nothing bars this path's writes to the lock. -/
theorem lock_unbarred : ((p != .call && p != .host) || s.confidential || s.locked) = false := by
  rw [hc, hl]
  rcases hp with rfl | rfl <;> rfl

theorem fieldLock_arms (h : s.armedBy = none) : writeFuseLock p lockArm s = { s with fuse := { s.fuse with armed := some (p, s.clk.tick) } } := by
  rw [writeFuseLock, lock_unbarred hp hc hl, if_neg Bool.false_ne_true, h]
  dsimp only
  rw [if_pos rfl, State.now]

theorem fieldLock_burns (h : s.armedBy = some p) (hb : s.fuse.burning = none) :
    writeFuseLock p lockBurn s = { s with fuse := { s.fuse with armed := none, burning := some .lock } } := by
  rw [writeFuseLock, lock_unbarred hp hc hl, if_neg Bool.false_ne_true, h]
  dsimp only
  rw [if_neg (not_not_intro rfl), if_pos rfl]
  exact burnStart_idle (s := { s with fuse := { s.fuse with armed := none } }) hb .lock

end

theorem fieldLockDisarm_armed {p : Path} {a : W64} {s : State} (h : s.fuse.armed = some (p, a)) : fieldLockDisarm s =
    let u := elapseTo (a.toNat + msTicks 100) s
    { u with fuse := { s.fuse with armed := none } } := by
  have hfuse : (elapseTo (a.toNat + msTicks 100) s).fuse = s.fuse := by
    rw [elapseTo, elapse_timed]
    rfl
  rw [fieldLockDisarm, h]
  simp only [hfuse]

/-! ## The calls (R347, R429) -/

section
variable {c : Caller} {s : State} (ht : Takes c s)
include ht

theorem keyState_answers : exec (.keyState c) s = .next (s.ok c "KEY" [symF "mode" (if s.confidential then "CONFIDENTIAL" else "NORMAL"),
    ("status", hexReg (keyStatus s)), ("fw", hexReg (keyFw s)), ("vk", hexReg (keyVk s))]) := by
  rw [exec_keyState, doKeyState, gate_takes ht]

variable (hop : s.keys.keyop = 0) (hrep : s.keys.repair = 0) (hc : s.confidential = false)
include hop hrep hc

theorem vkGate_open (k : State) : vkGate c s k = k := by
  have hfree : keyFree s = true := by rw [keyFree, hop, hrep]; rfl
  rw [vkGate, gate_takes ht, hfree, if_neg (by decide), hc, if_neg (by decide)]

section
variable {k : Fin 4} {a : Nat}

theorem keyVkLoad_full (h : vkHash s.fuse.shadow k ≠ 0) : exec (.keyVkLoad c k a) s = .next (s.fail c "KEY" .full) := by
  rw [exec_keyVkLoad, doKeyVkLoad, vkGate_open ht hop hrep hc, if_pos h]

variable {p : List Byte × State} (hfree : vkHash s.fuse.shadow k = 0) (hread : attachment c.path.path a 160 s = .ok p)
include hfree hread

theorem keyVkLoad_bad (hok : recOk p.2 k p.1 = false) : exec (.keyVkLoad c k a) s = .next (p.2.fail c "KEY" .key) := by
  rw [exec_keyVkLoad, doKeyVkLoad, vkGate_open ht hop hrep hc, if_neg (not_not_intro hfree), hread]
  dsimp only
  rw [hok, if_pos (by decide)]

theorem keyVkLoad_burns (hok : recOk p.2 k p.1 = true) : exec (.keyVkLoad c k a) s =
    .next (burnStart (.vkLoad k (BitVec.ofNat 256 (recHash p.1)) (some c))
      ((keyopStart { p.2 with flash := p.2.flash.put (vkRecordAt k) p.1 }).await c "KEY")) := by
  rw [exec_keyVkLoad, doKeyVkLoad, vkGate_open ht hop hrep hc, if_neg (not_not_intro hfree), hread]
  dsimp only
  rw [hok, if_neg (by decide)]

end

section
variable {k : Fin 4}

theorem keyVkRevoke_refused (h : s.keys.vkUsable.getLsbD k.val = false ∨ s.keys.vkUsable = BitVec.ofNat 4 (2 ^ k.val)) :
    exec (.keyVkRevoke c k) s = .next (s.fail c "KEY" .key) := by
  have hbar : (!s.keys.vkUsable.getLsbD k.val || s.keys.vkUsable == BitVec.ofNat 4 (2 ^ k.val)) = true := by
    rcases h with h | h
    · rw [h]; rfl
    · rw [beq_iff_eq.mpr h, Bool.or_true]
  rw [exec_keyVkRevoke, doKeyVkRevoke, vkGate_open ht hop hrep hc, if_pos hbar]

theorem keyVkRevoke_burns (h : s.keys.vkUsable.getLsbD k.val = true) (hlast : s.keys.vkUsable ≠ BitVec.ofNat 4 (2 ^ k.val)) :
    exec (.keyVkRevoke c k) s = .next (burnStart (.vkRevoke k (some c)) ((keyopStart s).await c "KEY")) := by
  rw [exec_keyVkRevoke, doKeyVkRevoke, vkGate_open ht hop hrep hc, h, beq_false_of_ne hlast, if_neg (by decide)]

end

end

theorem attachment_of_toOption {p : Path} {a n : Nat} {s : State} {r : List Byte × State} (h : (attachment p a n s).toOption = some r) :
    attachment p a n s = .ok r := by
  cases hread : attachment p a n s with
  | error e => rw [hread] at h; exact nomatch h
  | ok x => rw [hread] at h; exact congrArg _ (Option.some.inj h)

/-! ## The statement -/

/-- Settles O32: its clauses in their order, each from the lemma on its form. -/
theorem keysAndFusesAreBurnt : Obligations.KeysAndFusesAreBurnt := by
  refine ⟨fun _ _ ht => next_of_ok (keyState_answers ht),
    fun c k a p s ht hp hop hrep hc hfree hb hread hok => ?burns,
    fun c k a p s ht hp hop hrep hc hfree hb hread hok => ?bad,
    fun _ _ _ _ ht hop hrep hc h => next_of_fail (keyVkLoad_full ht hop hrep hc h),
    fun c k s ht hp hop hrep hc hb hk hlast => ?revokes,
    fun _ _ _ ht hop hrep hc h => next_of_fail (keyVkRevoke_refused ht hop hrep hc h),
    fun _ _ hp hc hl h => congrArg _ (fieldLock_arms hp hc hl h),
    fun _ _ hp hc hl h hb => congrArg _ (fieldLock_burns hp hc hl h hb),
    fun p _ h => ⟨congrArg _ (writeFuseLock_closed h p _), congrArg _ (writeFuseLock_closed h p _)⟩,
    fun _ _ _ h hne => congrArg _ (writeFuseLock_other h hne _),
    fun p a s h => ?disarm, fun b s h => ?done, fun s h => ?locked⟩
  case burns =>
    have hread := attachment_of_toOption hread
    have honly := attachment_only hread
    have hbegins := burn_begins (s := { p.2 with flash := p.2.flash.put (vkRecordAt k) p.1 }) hp
      ((congrArg Fuse.burning honly.fuse).trans hb) (.vkLoad k (BitVec.ofNat 256 (recHash p.1)) (some c))
    refine ⟨_, keyVkLoad_burns ht hop hrep hc hfree hread hok, congrArg Fuse.burning hbegins.fuse, hbegins.flash, ?_, hbegins.waits⟩
    rw [hbegins.keys]
    exact congrArg (· + 1) ((congrArg Keys.keyop honly.keys).trans hop)
  case bad =>
    have hread := attachment_of_toOption hread
    have honly := attachment_only hread
    exact ⟨_, keyVkLoad_bad ht hop hrep hc hfree hread hok, fail_flash.trans honly.flash, fail_fuse.trans honly.fuse,
      fail_keys.trans honly.keys, fail_replied⟩
  case revokes =>
    have hbegins := burn_begins hp hb (.vkRevoke k (some c))
    refine ⟨_, keyVkRevoke_burns ht hop hrep hc hk hlast, hbegins.fuse, ?_, hbegins.waits, hbegins.journals, hbegins.mem⟩
    rw [hbegins.keys, hop]
  case disarm =>
    have htimed : elapseTo (a.toNat + msTicks 100) s = s.timed (elapseTo (a.toNat + msTicks 100) s) := elapse_timed _ s
    have hmem : (elapseTo (a.toNat + msTicks 100) s).mem = s.mem := by rw [htimed]; rfl
    have hlanes : (elapseTo (a.toNat + msTicks 100) s).lanes = s.lanes := by rw [htimed]; rfl
    exact ⟨_, (exec_fieldLockDisarm s).trans (congrArg _ (fieldLockDisarm_armed h)), rfl, rfl, tick_elapse _ s, hmem, hlanes⟩
  case done =>
    obtain ⟨hfuse, hmem⟩ := burnDone_leaves h
    refine ⟨_, exec_fuseBurnDone s, ?_, ?_, ?_, ?_, ?_, ?_, hmem⟩ <;> rw [hfuse]
    · exact fun k hk => ⟨(mem_otpAdd_foldl_iff ..).mpr (.inl hk), (mem_otpAdd_foldl_iff ..).mpr (.inl hk)⟩
    · exact fun k hk => mem_otpAdd_foldl _ _ hk
    · exact fun k hk => ((mem_otpAdd_foldl_iff ..).mp hk).symm
    all_goals rfl
  case locked =>
    refine ⟨_, exec_fuseBurnDone s, ?_⟩
    rw [State.locked, (burnDone_leaves h).1]
    exact List.contains_iff_mem.mpr ((mem_otpAdd_foldl_iff ..).mpr (.inl (List.mem_singleton_self _)))

end Sys2Proof.KeyBurns
end

section
/-! PROOFS. Live copies (R379 to R381) and the trials of rig frames (R480): what a copied row, a copy's end and a trial's end change. -/

namespace Sys2Proof.LiveCopies
open Sys2Proof Sys2Proof.Machine Sys2Proof.Words Sys2Proof.ClockLoss Sys2Proof.FenceCalls Sys2Proof.EarCapture Sys2Proof.CourseReads

theorem exec_liveCopyRow (b : Fin 64) (s : State) : exec (.liveCopyRow b) s = .next (liveCopyRow b s) := rfl

theorem exec_liveCopyDone (b : Fin 64) (s : State) : exec (.liveCopyDone b) s = .next (liveCopyDone b s) := rfl

theorem exec_rigFrameTrialDone (ok : Bool) (s : State) : exec (.rigFrameTrialDone ok) s = .next (rigFrameTrialDone ok s) := rfl

/-! ## Live copies (R380) -/

theorem liveCopyRow_one {b : Fin 64} {x : LiveCopy} {s : State} (h : s.faults.copies = [x]) (hb : x.bank = b) (hmore : x.copied < x.total) :
    liveCopyRow b s = { s with faults := { s.faults with copies := [{ x with copied := x.copied + 1 }] } } := by
  simp [liveCopyRow, h, hb, hmore]

theorem liveCopyRow_none {s : State} (h : s.faults.copies = []) (b : Fin 64) : liveCopyRow b s = s := by
  rw [liveCopyRow, h]
  rfl

/-- The copy that is whole and ends, of those in progress. -/
theorem ended_one {x : LiveCopy} (hwhole : x.copied = x.total) :
    ([x].find? fun c => c.bank == x.bank && c.copied == c.total) = some x ∧ [x].filter (· != x) = [] := by
  simp [hwhole]

theorem liveCopyDone_row {x : LiveCopy} {r : Fin 2048} {s : State} (h : s.faults.copies = [x]) (hrow : x.row = some r) (hone : x.copied = 1) :
    ∃ log, liveCopyDone x.bank s = { s with faults := { s.faults with
      copies := [], rows := s.faults.rows ++ [(x.fromUnit, r)], log := log, logNum := s.faults.logNum + 1
      repairQueue := s.faults.repairQueue ++
        [{ unit := (UnitRef.row x.fromUnit r).code, kind := .retired, cause := none, gen := s.generation, detail := BitVec.ofNat 64 r.val }] } } := by
  have hwhole : x.copied = x.total := by rw [hone, LiveCopy.total, hrow]; rfl
  obtain ⟨hfind, hempty⟩ := ended_one hwhole
  rw [liveCopyDone, h, hfind]
  dsimp only
  rw [hempty, hrow]
  exact ⟨_, rfl⟩

theorem liveCopyDone_bank {x : LiveCopy} {s : State} (h : s.faults.copies = [x]) (hrow : x.row = none) (hall : x.copied = 2048) :
    ∃ log, liveCopyDone x.bank s = { s with faults := { s.faults with
      copies := [], bankMap := put s.faults.bankMap x.bank x.toUnit
      banks := put (put s.faults.banks x.fromUnit .fenced) x.toUnit .active, log := log, logNum := s.faults.logNum + 1 } } := by
  have hwhole : x.copied = x.total := by rw [hall, LiveCopy.total, hrow]; rfl
  obtain ⟨hfind, hempty⟩ := ended_one hwhole
  rw [liveCopyDone, h, hfind]
  dsimp only
  rw [hempty, hrow]
  exact ⟨_, rfl⟩

/-! ## The fence of a shell, by the bookkeeping of trials (R377, R480) -/

/-- From s to t the trial and the frames that passed stay, and shell i stays out of service. -/
structure StaysFenced (i : ShellId) (s t : State) : Prop where
  trial : t.faults.trial = s.faults.trial
  passed : t.faults.passedFrames = s.faults.passedFrames
  fenced : s.faults.shells[i] = .fenced → t.faults.shells[i] = .fenced

namespace StaysFenced
variable {i : ShellId} {s t u : State}

theorem trans (h : StaysFenced i s t) (g : StaysFenced i t u) : StaysFenced i s u :=
  ⟨g.trial.trans h.trial, g.passed.trans h.passed, fun hf => g.fenced (h.fenced hf)⟩

theorem of_faults (h : t.faults = s.faults) : StaysFenced i s t := by
  refine ⟨?_, ?_, fun hf => ?_⟩ <;> rw [h]
  exact hf

theorem of_loaded (h : ShellsLoaded s t) : StaysFenced i s t := of_faults (by rw [h.frame])

end StaysFenced

section
variable (i : ShellId) (s : State)

theorem logSubstitute_stays (u v : UnitRef) : StaysFenced i s (logSubstitute u v s) := by
  obtain ⟨log, hlog⟩ := logSubstitute_eq u v s
  rw [hlog]
  exact ⟨rfl, rfl, id⟩

theorem fenceRecords_stays (u : UnitRef) (cause : Option Cause) (heat : Option (LaneId × W32)) : StaysFenced i s (fenceRecords u cause heat s) := by
  unfold fenceRecords
  dsimp only
  obtain ⟨log, hlog⟩ := logFault_twice s _ _
  rw [hlog]
  split <;> exact ⟨rfl, rfl, id⟩

theorem setShellSt_stays {j : ShellId} (h : i ≠ j) (x : UnitSt) : StaysFenced i s (s.setShellSt j x) :=
  ⟨rfl, rfl, fun hf => (getElem_put_ne _ h x).trans hf⟩

/-- A new map gives states to shells in service only. -/
theorem remap_stays : StaysFenced i s (remap s) := by
  refine List.foldlRecOn (motive := StaysFenced i s) _ _ ⟨rfl, rfl, fun hf => ?_⟩ fun _ h j _ => h.trans (.of_loaded (residentInto_loads j _))
  refine (getElem_mapIdx ..).trans ?_
  rw [hf]
  rfl

theorem spare_of_head {j : ShellId} (h : (s.shellsIn .spare).head? = some j) : s.faults.shells[j] = .spare :=
  eq_of_beq (List.mem_filter.mp (List.mem_of_head? h)).2

theorem substituteShell_stays (hf : s.faults.shells[i] = .fenced) : StaysFenced i s (substituteShell i s) := by
  unfold substituteShell
  split
  · exact ⟨rfl, rfl, id⟩
  · next k _ =>
    split
    · next j hj =>
      have hne : i ≠ j := fun e => by
        have hspare := spare_of_head s hj
        rw [← e, hf] at hspare
        exact nomatch hspare
      have hloads := residentInto_loads j (({ s with map := put s.map k (some j) } : State).setShellSt j .active)
      have hactive : StaysFenced i s (({ s with map := put s.map k (some j) } : State).setShellSt j .active) :=
        ⟨rfl, rfl, (setShellSt_stays i s hne .active).fenced⟩
      exact (hactive.trans (.of_loaded hloads)).trans (logSubstitute_stays i _ ..)
    · have hmap : StaysFenced i s { s with map := put s.map k none } := ⟨rfl, rfl, id⟩
      exact hmap.trans (remap_stays i _)

theorem strFence_faults : (strFence i s).faults = s.faults := by
  unfold strFence
  split <;> rfl

/-- The state in which the records of the fence of an idle shell are written. -/
theorem fenceShell_of_idle (hin : s.inService i = true) (hrun : (s.shell i).running = none) (cause : Option Cause) :
    fenceShell i cause s = fenceRecords (.shell i) cause none (substituteShell i (strFence i (shellOut i s))) := by
  rw [fenceShell, if_pos hin, hrun, restartShell_idle hrun]
  rfl

theorem fenceShell_fences (hin : s.inService i = true) (hrun : (s.shell i).running = none) (cause : Option Cause) :
    (fenceShell i cause s).faults.trial = s.faults.trial ∧ (fenceShell i cause s).faults.passedFrames = s.faults.passedFrames ∧
      (fenceShell i cause s).faults.shells[i] = .fenced := by
  have hfaults := strFence_faults i (shellOut i s)
  have hfenced : (strFence i (shellOut i s)).faults.shells[i] = .fenced := by
    rw [hfaults]
    exact getElem_put_self ..
  have hstays := (substituteShell_stays i _ hfenced).trans (fenceRecords_stays i _ (.shell i) cause none)
  rw [fenceShell_of_idle i s hin hrun]
  refine ⟨hstays.trial.trans ?_, hstays.passed.trans ?_, hstays.fenced hfenced⟩ <;> rw [hfaults] <;> rfl

end

/-! ## The end of a trial (R480) -/

/-- The frame under trial stands in slot 0 of the spare. -/
def frameStands (x : FrameTrial) (f : RigFrame) (y : Shell) : Shell :=
  { y with slots := put y.slots 0 { frameAt := some (x.frame, x.handle), frame := some f, pending := false } }

/-- What the fence of the suspect starts from, u being the state that reading the frame leaves. -/
def trialPassed (x : FrameTrial) (f : RigFrame) (u : State) : State :=
  { u.setShell x.spare (frameStands x f) with faults := { u.faults with passedFrames := u.faults.passedFrames ++ [(x.handle, x.frame, x.spare)] } }

theorem rigFrameTrialDone_passed {x : FrameTrial} {b : List Byte} {s u : State} (h : s.faults.trial = some x)
    (hread : unitsAt x.frame 64 { s with faults := { s.faults with trial := none } } = (b, u)) (hcrc : rigCrcOk b = true)
    (htable : (parseRig b).writesTable = false) :
    rigFrameTrialDone true s = fenceShell x.suspect (some .rigFrameCrc) (trialPassed x (parseRig b) u) := by
  rw [rigFrameTrialDone, h]
  dsimp only
  rw [hread]
  simp only [htable, hcrc]
  rfl

/-- A trial that fails has read the frame, and its table image where it has one. -/
theorem rigFrameTrialDone_failed {x : FrameTrial} {s : State} (h : s.faults.trial = some x) :
    ∃ u, ReadOnly { s with faults := { s.faults with trial := none } } u ∧
      rigFrameTrialDone false s = u.setShell x.spare fun y => { y with slots := put y.slots 0 {} } := by
  have honly := unitsAt_only x.frame 64 { s with faults := { s.faults with trial := none } }
  rw [rigFrameTrialDone, h]
  simp only [Bool.false_and, Bool.false_eq_true, if_false]
  generalize unitsAt x.frame 64 _ = read at honly ⊢
  split
  · exact ⟨_, honly.trans (unitsAt_only ..), rfl⟩
  · exact ⟨_, honly, rfl⟩

theorem rigFrameTrialDone_none {s : State} (h : s.faults.trial = none) (ok : Bool) : rigFrameTrialDone ok s = s := by
  rw [rigFrameTrialDone, h]

/-- Settles O56: its clauses in their order, each from the lemma on its form. -/
theorem copiesAndTrialsEnd : Obligations.CopiesAndTrialsEnd := by
  refine ⟨fun _ _ _ h hb hmore => congrArg _ (liveCopyRow_one h hb hmore), fun b _ h => congrArg _ (liveCopyRow_none h b),
    fun x r s h hrow hone => ?row, fun x s h hrow hall hne => ?bank,
    fun x b s u h hread hcrc htable hin hrun hne => ?passes, fun x s h => ?fails, fun ok _ h => congrArg _ (rigFrameTrialDone_none h ok)⟩
  case row =>
    obtain ⟨log, hdone⟩ := liveCopyDone_row h hrow hone
    exact ⟨_, (exec_liveCopyDone ..).trans (congrArg _ hdone), rfl, rfl, rfl, rfl, rfl, rfl⟩
  case bank =>
    obtain ⟨log, hdone⟩ := liveCopyDone_bank h hrow hall
    exact ⟨_, (exec_liveCopyDone ..).trans (congrArg _ hdone), rfl, rfl, (getElem_put_ne _ hne _).trans (getElem_put_self ..),
      getElem_put_self .., rfl, rfl, rfl⟩
  case passes =>
    have honly : ReadOnly { s with faults := { s.faults with trial := none } } u := (unitsAt_only ..).of_eq hread
    have hsame : ((trialPassed x (parseRig b) u).shell x.suspect).running = none :=
      (congrArg Shell.running (shell_setShell_ne u hne.symm _)).trans hrun
    obtain ⟨htrial, hpassed, hfenced⟩ := fenceShell_fences x.suspect (trialPassed x (parseRig b) u) hin hsame (some .rigFrameCrc)
    rw [exec_rigFrameTrialDone, rigFrameTrialDone_passed h hread hcrc htable]
    exact ⟨_, rfl, htrial.trans (congrArg Faults.trial honly.faults), hfenced, hpassed⟩
  case fails =>
    obtain ⟨u, honly, hdone⟩ := rigFrameTrialDone_failed h
    have hshells := honly.shells
    refine ⟨_, (exec_rigFrameTrialDone ..).trans (congrArg _ hdone), honly.faults, ?_, fun i hi => ?_, honly.map⟩
    · rw [shell_setShell_self]
      exact getElem_put_self ..
    · rw [shell_setShell_ne u hi, State.shell, hshells]
      rfl

end Sys2Proof.LiveCopies
end
